-- ==== Sys2Proof/Word.lean ====
section
/-! DEFINITION. Words of the Fargor Z24: bytes, 32-bit words, 64-bit pairs, 512-bit vectors (R14, R17), and the
plainest operations on them. -/

namespace Sys2Proof

/-- One byte of memory. -/
abbrev Byte := BitVec 8
/-- A 32-bit register. -/
abbrev Word := BitVec 32
/-- A 64-bit pair, queue entry or address. -/
abbrev DWord := BitVec 64
/-- A vector register: lane `i` is bits [32i+31:32i] (R115). -/
abbrev Vec := BitVec 512

/-- Index of an agent of the core: C0 to C3 are 0 to 3, the access processor is 4 (R108, R326). -/
abbrev AgentId := Fin 5

/-- The access processor. -/
abbrev apId : AgentId := 4

/-- One bit as a number. -/
def bit (b : Bool) : Nat := if b then 1 else 0

/-- Lane `i` of a vector (R115). -/
def lane (v : Vec) (i : Nat) : Word := v.extractLsb' (32 * i) 32

/-- The vector whose lane `i` is `f i` (R115). -/
def mkVec (f : Nat → Word) : Vec :=
  (List.range 16).foldr (fun i acc => acc ||| ((f i).setWidth 512 <<< (32 * i))) 0

/-- Byte `b` of a vector (R115, dense storage). -/
def vecByte (v : Vec) (b : Nat) : Byte := v.extractLsb' (8 * b) 8

/-- The low `n` bytes of a number, least significant first (R11: little-endian). -/
def bytesOf : Nat → Nat → List Byte
  | 0, _ => []
  | n + 1, x => BitVec.ofNat 8 x :: bytesOf n (x / 256)

/-- The number a little-endian byte list stands for (R11). -/
def ofBytes : List Byte → Nat
  | [] => 0
  | b :: bs => b.toNat + 256 * ofBytes bs

/-- The two's-complement reading of the low `w` bits of `x`. -/
def sgnW (w x : Nat) : Int :=
  let y := x % 2 ^ w
  if y < 2 ^ (w - 1) then (y : Int) else (y : Int) - 2 ^ w

/-- An integer modulo `2^w`, as a natural number. -/
def wrapW (w : Nat) (x : Int) : Nat := (x % (2 ^ w : Nat)).toNat

end Sys2Proof
end

