-- ==== Sys2Proof/Syntax.lean ====
section
/-! DEFINITION. The instructions of the Fargor Z24 and the events of its opcode table: one constructor of `Instr` per
row. An encoded instruction carries its operands as the formats of 02_encoding.md name them; an event carries the
data that comes with it. -/

namespace Sys2Proof

/-- An operand or destination field (R38): a level and an index. `q`: result queue by age, `k`: operand file,
`g`: main file, `sp`: special. The class (scalar or vector) is fixed by the instruction. -/
inductive Opnd where
  | q (i : BitVec 5)
  | k (i : BitVec 5)
  | g (i : BitVec 5)
  | sp (i : BitVec 5)
  deriving DecidableEq, Repr

/-- The scheduling control of a word with a bounded result (R24): version bit [62] and the field C. -/
structure Sched where
  v : Bool
  c : BitVec 4
  deriving DecidableEq, Repr

/-- Type codes 0 to 13 (R46). -/
inductive Ty where
  | i32 | n32 | i16 | n16 | i8 | n8 | f32 | f16 | bf16 | e4m3 | e5m2 | f6 | t3 | i64
  deriving DecidableEq, Repr

/-- Rounding modes (R49). -/
inductive RMode where
  | rne | rtz | rdn | rup
  deriving DecidableEq, Repr

/-- AUX[2:0] of an instruction that rounds (R49). -/
structure Rnd where
  mode : RMode
  sat : Bool
  deriving DecidableEq, Repr

/-- The governing mask of a vector instruction (R116): M and MI. -/
structure Gov where
  m : BitVec 3
  inv : Bool
  deriving DecidableEq, Repr

/-- Scopes (R47). -/
inductive Scope where
  | clu | cor | die | pkg | sys
  deriving DecidableEq, Repr

/-- Memory orders (R47). -/
inductive MOrd where
  | plain | acq | rel | acqrel
  deriving DecidableEq, Repr

/-- Scalar access sizes, SZ 0 to 3 (R50). -/
inductive Size where
  | b | h | w | d
  deriving DecidableEq, Repr

/-- Vector access sizes, SZ 4 to 6 (R50): 16 elements of 4, 2 or 1 bytes. -/
inductive VSize where
  | full | half | byte
  deriving DecidableEq, Repr

/-- Operation of `vred` and `vscan`, AUX[5:3] (R130). -/
inductive RedOp where
  | add | min | max | and | or | xor | lanes
  deriving DecidableEq, Repr

/-- Source types of `vcvt`, AUX[5:3] (R125). -/
inductive CvtSrc where
  | f32 | f16 | bf16 | e4m3 | e5m2 | f6 | i32 | n32
  deriving DecidableEq, Repr

/-- The product a joint operation makes (R191). -/
inductive Prod where
  | mma | tmm | tmmt | tmmw
  deriving DecidableEq, Repr

/-- A standing-capable instruction with its standing bit set (R210): what an install captures. -/
inductive Stand where
  | mma (ac : BitVec 2) (sa sb : BitVec 4) (ot : BitVec 6) (t : Ty) (ta tb : Bool) (kc : BitVec 6)
  | tmm (ac : BitVec 2) (sa sb : BitVec 4) (ot : BitVec 6) (ta tb : Bool) (kc : BitVec 6)
  | tadd (ac : BitVec 2) (sa : BitVec 4) (ot : BitVec 6) (t : Ty) (b : BitVec 2)
  | tmul (ac : BitVec 2) (sa : BitVec 4) (ot : BitVec 6) (t : Ty) (b : BitVec 2)
  | tact (ac : BitVec 2) (ot : BitVec 6) (f : BitVec 4)
  | tactd (ac : BitVec 2) (sa : BitVec 4) (ot : BitVec 6) (t : Ty) (f : BitVec 4)
  | trms (ac : BitVec 2) (sx : BitVec 4) (ot : BitVec 6) (t : Ty) (e : BitVec 8)
  | trmsd (ac : BitVec 2) (sa sx : BitVec 4) (ot : BitVec 6) (t : Ty) (e : BitVec 8)
  | tsmax (ac : BitVec 2) (sx : BitVec 4) (ot : BitVec 6) (norm : Bool)
  | tsmaxd (ac : BitVec 2) (sa : BitVec 4) (ot : BitVec 6) (t : Ty)
  | tscale (ac : BitVec 2) (sa : BitVec 4) (ot : BitVec 6) (t : Ty)
  | vproj (ac : BitVec 2) (sa sb : BitVec 4) (ot : BitVec 6) (t : Ty) (ta tb : Bool) (kc : BitVec 6)
  | attn (d : Opnd) (bp : BitVec 4) (a : Opnd) (off : BitVec 23)
  | omap (d : Opnd) (bp : BitVec 4) (off : BitVec 23)
  | cpy (d : Opnd) (bp : BitVec 4) (a : Opnd) (off : BitVec 23)
  deriving DecidableEq, Repr

/-- The 16-byte header of a mailbox request payload (R386). -/
structure MbHdr where
  tag : Word
  part : Byte
  ctx : Byte
  zero : BitVec 16
  compl : DWord
  deriving DecidableEq, Repr

/-- What a host access through the CXL.mem window or a remote access does (R381, R385). -/
inductive ExtAcc where
  | read (len : Nat)
  | write (bytes : List Byte)
  deriving DecidableEq, Repr

/-- One constructor per row of spec/opcode_table.json. -/
inductive Instr where
  -- SYS (R111)
  | nop
  | brk (n : BitVec 6)
  | trap (n : BitVec 6)
  | tfence
  | sret
  | tlbinv (a b : Opnd) (scope : BitVec 2)
  | halt
  -- SALU (R91)
  | add (s : Sched) (d a b : Opnd)
  | sub (s : Sched) (d a b : Opnd)
  | mul (s : Sched) (d a b : Opnd)
  | mulh (s : Sched) (d a b : Opnd) (nat : Bool)
  | div (s : Sched) (d a b : Opnd)
  | divn (s : Sched) (d a b : Opnd)
  | rem (s : Sched) (d a b : Opnd)
  | remn (s : Sched) (d a b : Opnd)
  | and (s : Sched) (d a b : Opnd)
  | or (s : Sched) (d a b : Opnd)
  | xor (s : Sched) (d a b : Opnd)
  | shl (s : Sched) (d a b : Opnd)
  | shr (s : Sched) (d a b : Opnd)
  | sra (s : Sched) (d a b : Opnd)
  | min (s : Sched) (d a b : Opnd)
  | max (s : Sched) (d a b : Opnd)
  | minn (s : Sched) (d a b : Opnd)
  | maxn (s : Sched) (d a b : Opnd)
  | clz (s : Sched) (d a : Opnd)
  | ctz (s : Sched) (d a : Opnd)
  | popc (s : Sched) (d a : Opnd)
  | seq (s : Sched) (d a b : Opnd)
  | sne (s : Sched) (d a b : Opnd)
  | slt (s : Sched) (d a b : Opnd)
  | sltn (s : Sched) (d a b : Opnd)
  | sel (s : Sched) (d a b x : Opnd)
  | bfx (s : Sched) (d a b : Opnd) (sx : Bool)
  | bfi (s : Sched) (d a b x : Opnd)
  -- SALUI (R94)
  | addi (s : Sched) (d a : Opnd) (imm : Word)
  | andi (s : Sched) (d a : Opnd) (imm : Word)
  | ori (s : Sched) (d a : Opnd) (imm : Word)
  | xori (s : Sched) (d a : Opnd) (imm : Word)
  | shli (s : Sched) (d a : Opnd) (n : BitVec 5)
  | shri (s : Sched) (d a : Opnd) (n : BitVec 5)
  | srai (s : Sched) (d a : Opnd) (n : BitVec 5)
  | movi (s : Sched) (d : Opnd) (imm : Word)
  | slti (s : Sched) (d a : Opnd) (imm : Word)
  | sltni (s : Sched) (d a : Opnd) (imm : Word)
  | muli (s : Sched) (d a : Opnd) (imm : Word)
  -- SPAIR, SPAIRI (R95, R96)
  | add64 (s : Sched) (d a b : Opnd)
  | sub64 (s : Sched) (d a b : Opnd)
  | mov64 (s : Sched) (d a : Opnd)
  | shl64 (s : Sched) (d a b : Opnd)
  | slt64n (s : Sched) (d a b : Opnd)
  | addi64 (s : Sched) (d a : Opnd) (imm : Word)
  | movi64 (s : Sched) (d : Opnd) (imm : Word)
  | sethi (s : Sched) (d a : Opnd) (imm : Word)
  -- BR (R98)
  | br (h : BitVec 2) (disp : Word)
  | bz (p : Opnd) (h : BitVec 2) (disp : Word)
  | bnz (p : Opnd) (h : BitVec 2) (disp : Word)
  | call (s : Sched) (p : Opnd) (h : BitVec 2) (disp : Word)
  | ret (p : Opnd) (h : BitVec 2)
  | jmp (p : Opnd) (h : BitVec 2) (disp : Word)
  | brq (h : BitVec 2) (disp : Word)
  -- LOOP (R100 to R105)
  | loop (p : Opnd) (lv : Option (BitVec 4)) (h : BitVec 2) (disp : Word)
  | lbrk (p : Opnd) (h : BitVec 2) (disp : Word)
  | ldrain (h : BitVec 2) (disp : Word)
  | lidx (s : Sched) (p : Opnd) (lv : BitVec 4) (h : BitVec 2)
  -- MEM (R149)
  | ld (s : Sched) (d : Opnd) (bp : BitVec 4) (sz : Size) (sc : Scope) (acq : Bool) (off : BitVec 24)
  | st (d : Opnd) (bp : BitVec 4) (sz : Size) (sc : Scope) (rel : Bool) (off : BitVec 24)
  | pref (bp : BitVec 4) (off : BitVec 24)
  -- AMO (R153)
  | amoadd (s : Sched) (d a b : Opnd) (sc : Scope) (o : MOrd) (wide : Bool)
  | amoswp (s : Sched) (d a b : Opnd) (sc : Scope) (o : MOrd) (wide : Bool)
  | amocas (s : Sched) (d a b x : Opnd) (sc : Scope) (o : MOrd) (wide : Bool)
  | amomin (s : Sched) (d a b : Opnd) (sc : Scope) (o : MOrd) (wide : Bool)
  | amomax (s : Sched) (d a b : Opnd) (sc : Scope) (o : MOrd) (wide : Bool)
  | amominn (s : Sched) (d a b : Opnd) (sc : Scope) (o : MOrd) (wide : Bool)
  | amomaxn (s : Sched) (d a b : Opnd) (sc : Scope) (o : MOrd) (wide : Bool)
  | amoand (s : Sched) (d a b : Opnd) (sc : Scope) (o : MOrd) (wide : Bool)
  | amoor (s : Sched) (d a b : Opnd) (sc : Scope) (o : MOrd) (wide : Bool)
  | amoxor (s : Sched) (d a b : Opnd) (sc : Scope) (o : MOrd) (wide : Bool)
  -- ORDR (R158 to R161)
  | fenceM (p : BitVec 4)
  | fenceX (sc : Scope) (a b : BitVec 7)
  | bind (s : Sched) (d a b x : Opnd)
  | unbind (s : Sched) (d a b : Opnd)
  | acqAll (sc : Scope)
  | relAll (sc : Scope)
  -- VINT (R119)
  | vadd (s : Sched) (d a b : Opnd) (t : Ty) (m : Gov)
  | vsub (s : Sched) (d a b : Opnd) (t : Ty) (m : Gov)
  | vmul (s : Sched) (d a b : Opnd) (t : Ty) (m : Gov)
  | vmin (s : Sched) (d a b : Opnd) (t : Ty) (m : Gov)
  | vmax (s : Sched) (d a b : Opnd) (t : Ty) (m : Gov)
  | vabs (s : Sched) (d a : Opnd) (t : Ty) (m : Gov)
  | vand (s : Sched) (d a b : Opnd) (t : Ty) (m : Gov)
  | vor (s : Sched) (d a b : Opnd) (t : Ty) (m : Gov)
  | vxor (s : Sched) (d a b : Opnd) (t : Ty) (m : Gov)
  | vshl (s : Sched) (d a b : Opnd) (t : Ty) (m : Gov)
  | vshr (s : Sched) (d a b : Opnd) (t : Ty) (m : Gov)
  | vsra (s : Sched) (d a b : Opnd) (t : Ty) (m : Gov)
  | vadds (s : Sched) (d a b : Opnd) (t : Ty) (m : Gov)
  | vsubs (s : Sched) (d a b : Opnd) (t : Ty) (m : Gov)
  | vcmpeq (s : Sched) (d a b : Opnd) (t : Ty) (m : Gov)
  | vcmplt (s : Sched) (d a b : Opnd) (t : Ty) (m : Gov)
  | vcmple (s : Sched) (d a b : Opnd) (t : Ty) (m : Gov)
  -- VFP (R120)
  | vfadd (s : Sched) (d a b : Opnd) (t : Ty) (m : Gov) (r : Rnd)
  | vfsub (s : Sched) (d a b : Opnd) (t : Ty) (m : Gov) (r : Rnd)
  | vfmul (s : Sched) (d a b : Opnd) (t : Ty) (m : Gov) (r : Rnd)
  | vfma (s : Sched) (d a b x : Opnd) (t : Ty) (m : Gov) (r : Rnd)
  | vfms (s : Sched) (d a b x : Opnd) (t : Ty) (m : Gov) (r : Rnd)
  | vfmin (s : Sched) (d a b : Opnd) (t : Ty) (m : Gov)
  | vfmax (s : Sched) (d a b : Opnd) (t : Ty) (m : Gov)
  | vfabs (s : Sched) (d a : Opnd) (t : Ty) (m : Gov)
  | vfneg (s : Sched) (d a : Opnd) (t : Ty) (m : Gov)
  | vfcmpeq (s : Sched) (d a b : Opnd) (t : Ty) (m : Gov)
  | vfcmplt (s : Sched) (d a b : Opnd) (t : Ty) (m : Gov)
  | vfcmple (s : Sched) (d a b : Opnd) (t : Ty) (m : Gov)
  | vfcmpun (s : Sched) (d a b : Opnd) (t : Ty) (m : Gov)
  -- VSPC (R122 to R124)
  | vrcp (s : Sched) (d a : Opnd) (t : Ty) (m : Gov) (r : Rnd)
  | vrsqrt (s : Sched) (d a : Opnd) (t : Ty) (m : Gov) (r : Rnd)
  | vsqrt (s : Sched) (d a : Opnd) (t : Ty) (m : Gov) (r : Rnd)
  | vexp2 (s : Sched) (d a : Opnd) (t : Ty) (m : Gov) (r : Rnd)
  | vlog2 (s : Sched) (d a : Opnd) (t : Ty) (m : Gov) (r : Rnd)
  | vdiv (s : Sched) (d a b : Opnd) (t : Ty) (m : Gov) (r : Rnd)
  | vrope (s : Sched) (d a b x : Opnd) (t : Ty) (m : Gov) (r : Rnd) (c : BitVec 3)
  | vrng (s : Sched) (d a : Opnd) (m : Gov)
  -- VCVT (R125 to R128)
  | vcvt (s : Sched) (d a : Opnd) (t : Ty) (src : CvtSrc) (m : Gov) (r : Rnd)
  | vpack (s : Sched) (d a x : Opnd) (t : Ty) (qx : BitVec 2)
  | vunpk (s : Sched) (d a : Opnd) (t : Ty) (qx : BitVec 2) (m : Gov)
  | vpk6 (s : Sched) (d a x : Opnd) (lo : Bool) (qx : BitVec 4)
  | vupk6 (s : Sched) (d a b : Opnd) (qx : BitVec 3) (h : Bool) (m : Gov)
  | vtrit (s : Sched) (d a : Opnd) (t : Ty) (qx : BitVec 5) (m : Gov)
  | vtritp (s : Sched) (d a x : Opnd) (qx : BitVec 5)
  -- VLANE (R129 to R132)
  | vbcast (s : Sched) (d a : Opnd) (m : Gov)
  | vext (s : Sched) (d a b : Opnd)
  | vins (s : Sched) (d a b x : Opnd)
  | vperm (s : Sched) (d a b x : Opnd) (m : Gov)
  | vred (s : Sched) (d a : Opnd) (t : Ty) (op : RedOp) (m : Gov) (r : Rnd)
  | vscan (s : Sched) (d a : Opnd) (t : Ty) (op : RedOp) (m : Gov) (r : Rnd)
  | vsortk (s : Sched) (d a b : Opnd) (t : Ty) (asc : Bool) (m : Gov)
  | vcompress (s : Sched) (d a : Opnd) (m : Gov)
  -- MASK (R134)
  | mand (d a b : BitVec 3)
  | mor (d a b : BitVec 3)
  | mxor (d a b : BitVec 3)
  | mnot (d a : BitVec 3)
  | mset (d : BitVec 3) (b : Opnd)
  | mget (s : Sched) (d : Opnd) (a : BitVec 3)
  | mpop (d a : BitVec 3)
  | mfirst (d a : BitVec 3)
  | mbit (d a : BitVec 3) (n : BitVec 4) (clr : Bool)
  -- VMEM (R154 to R156)
  | vld (s : Sched) (d : Opnd) (bp : BitVec 4) (sz : VSize) (m : BitVec 3) (off : BitVec 24)
  | vst (d : Opnd) (bp : BitVec 4) (sz : VSize) (m : BitVec 3) (off : BitVec 24)
  | vldg (s : Sched) (d : Opnd) (bp : BitVec 4) (sz : VSize) (m : BitVec 3) (idx : Opnd) (off : BitVec 17)
  | vsts (d : Opnd) (bp : BitVec 4) (sz : VSize) (m : BitVec 3) (idx : Opnd) (off : BitVec 17)
  -- STRM (R182) and the stream unit's events (R180)
  | stcfg (sn : BitVec 4) (bp : BitVec 4) (off : BitVec 20)
  | stadv (sn : BitVec 4) (a : Opnd)
  | ststat (s : Sched) (d : Opnd) (sn : BitVec 4)
  | stcut (sn : BitVec 4)
  | streamFill (sn : BitVec 4)
  | streamOutputWrite (sn : BitVec 4)
  -- MTX (R186 to R191)
  | mma (ac : BitVec 2) (sa sb : BitVec 4) (t : Ty) (ta tb : Bool) (kc : BitVec 6)
  | tmm (ac : BitVec 2) (sa sb : BitVec 4) (ta tb : Bool) (kc : BitVec 6)
  | tmmt (ac : BitVec 2) (sa sb : BitVec 4) (t : Ty) (kc : BitVec 6)
  | tmmw (ac : BitVec 2) (sa sb : BitVec 4) (t : Ty) (kc : BitVec 6)
  | jointOperation (p : Prod) (ac : BitVec 2) (t : Ty) (ta tb : Bool) (kc : BitVec 6)
  | acfg (ac : BitVec 2) (i32 : Bool) (rows cols : BitVec 7) (discard : Bool)
  | aczero (ac : BitVec 2) (i32 : Bool)
  | acdrain (ac : BitVec 2) (sa sb sx : BitVec 4) (t : Ty) (rs cs keep : Bool) (r : Rnd)
  | acload (ac : BitVec 2) (sa : BitVec 4) (i32 : Bool)
  -- TILE (R198 to R200)
  | tadd (ac : BitVec 2) (sa : BitVec 4) (t : Ty) (b : BitVec 2)
  | tmul (ac : BitVec 2) (sa : BitVec 4) (t : Ty) (b : BitVec 2)
  | tact (ac : BitVec 2) (f : BitVec 4)
  | tactd (ac : BitVec 2) (sa : BitVec 4) (t : Ty) (f : BitVec 4)
  | trms (ac : BitVec 2) (sx : BitVec 4) (t : Ty) (e : BitVec 8)
  | trmsd (ac : BitVec 2) (sa sx : BitVec 4) (t : Ty) (e : BitVec 8)
  | tsmax (ac : BitVec 2) (sx : BitVec 4) (norm : Bool)
  | tsmaxd (ac : BitVec 2) (sa : BitVec 4) (t : Ty)
  | tscale (ac : BitVec 2) (sa : BitVec 4) (t : Ty)
  -- VOC (R232, R238, R241)
  | vproj (ac : BitVec 2) (sa sb : BitVec 4) (t : Ty) (ta tb : Bool) (kc : BitVec 6)
  | vmerge (sa sb sx : BitVec 4) (rows : BitVec 7)
  | vprojd (ac : BitVec 2) (sa sb sx : BitVec 4) (t : Ty) (h : BitVec 4) (dw : Bool) (kc : BitVec 6)
  -- ATT (R255)
  | attn (d : Opnd) (bp : BitVec 4) (off : BitVec 23)
  | attnd (d : Opnd) (bp : BitVec 4) (a : Opnd) (off : BitVec 23)
  -- OPEN (R207 to R226), installs and firings (R210 to R216)
  | otcfg (d : Opnd) (slot : BitVec 6) (bp : BitVec 4) (off : BitVec 18)
  | extend (d : Opnd) (slot : BitVec 6) (a : Opnd)
  | extendC (d : Opnd) (slot : BitVec 6) (a : Opnd)
  | revoke (d : Opnd) (a : Opnd)
  | revokeAt (d : Opnd) (a : Opnd) (bp : BitVec 4)
  | rlresume (d : Opnd) (a : Opnd)
  | rlstat (d : Opnd) (a : Opnd)
  | omap (d : Opnd) (bp : BitVec 4) (off : BitVec 23) (a : Opnd)
  | standInstall (f : Stand)
  | firingRound
  | firingRetire (rule : BitVec 5)
  -- REC (R273)
  | recbeg (d : Opnd) (bp : BitVec 4) (off : BitVec 24)
  | recend (d : Opnd)
  | reverse (d : Opnd) (bp : BitVec 4) (off : BitVec 24) (a : Opnd)
  | recflag (d : Opnd) (a : Opnd)
  -- COPY (R289, R295) and the channels' events (R284, R285, R296)
  | cpy (d : Opnd) (bp : BitVec 4) (off : BitVec 23)
  | cpyg (d : Opnd) (bp : BitVec 4) (off : BitVec 23)
  | cpys (d : Opnd) (bp : BitVec 4) (off : BitVec 23)
  | cpymc (d : Opnd) (bp : BitVec 4) (off : BitVec 23)
  | cpred (d : Opnd) (bp : BitVec 4) (off : BitVec 23)
  | cpwait (d : Opnd) (ch : BitVec 2) (a : Opnd)
  | cpdone (d : Opnd) (ch : BitVec 2) (a : Opnd)
  | copyStart (ch : BitVec 2)
  | copyComplete (ch : BitVec 2) (id : Word)
  | copyFaultDelivery (ch : BitVec 2)
  -- XQ (R299)
  | qput (n : BitVec 2) (cl : BitVec 2) (all : Bool) (a : Opnd)
  | qget (s : Sched) (d : Opnd) (n : BitVec 2)
  | bqput (cl : BitVec 2) (all : Bool) (a : Opnd)
  | qlvl (s : Sched) (d : Opnd) (n : BitVec 2) (isBq : Bool)
  -- SCHED (R316)
  | spawn (d : Opnd) (bp : BitVec 4) (off : BitVec 24) (a : Opnd)
  | join (d : Opnd) (bp : BitVec 4) (off : BitVec 24)
  | launch (d : Opnd) (bp : BitVec 4) (off : BitVec 24) (a : Opnd)
  | yield (a : Opnd)
  | slend
  | unpark (d : Opnd) (bp : BitVec 4) (off : BitVec 24)
  -- EVT (R320)
  | evset (a : Opnd)
  | evsetErr (a : Opnd)
  | evclr (a : Opnd)
  | evwait (s : Sched) (d a : Opnd)
  | evtest (s : Sched) (d a : Opnd)
  | bar
  | barG
  -- PQ (R322)
  | pqpush (s : Sched) (d b x : Opnd) (n : BitVec 3)
  | pqpop (s : Sched) (d : Opnd) (n : BitVec 3)
  | pqlen (s : Sched) (d : Opnd) (n : BitVec 3)
  -- SPR (R106)
  | rdsr (s : Sched) (d : Opnd) (n : BitVec 8)
  | wrsr (a : Opnd) (n : BitVec 8)
  | clrf (m : BitVec 7)
  -- KV (R248)
  | kvxl (s : Sched) (d : Opnd) (bp : BitVec 4) (off : BitVec 24) (a : Opnd)
  | kvfork (s : Sched) (d : Opnd) (bp : BitVec 4) (off : BitVec 24) (a : Opnd)
  | kvgrow (s : Sched) (d : Opnd) (bp : BitVec 4) (off : BitVec 24) (a : Opnd)
  | kvcommit (s : Sched) (d : Opnd) (bp : BitVec 4) (off : BitVec 24) (a : Opnd)
  -- events of the core: freezes end (R28, R142, R402, R405, R414)
  | memoryDataArrival
  | translationWalkComplete
  | correctionFreezeEnd
  | weightStoreRefresh (bank : BitVec 6)
  -- events of the partitions (R406, R409)
  | partitionResetComplete (part : BitVec 4)
  | invalidationComplete (part : BitVec 4)
  -- traps and requests (R312, R328, R332, R335, R341, R343, R408)
  | watchdog
  | budgetExhausted
  | serviceTimer (part : BitVec 4)
  | engineOpComplete
  | engineFaultDelivery
  | withheldRecordWrite (part : BitVec 4)
  | machineCheck (sub : Byte)
  | serviceRequest (sub : Byte)
  | stopRequest
  | stopForShares
  | contextSwitchComplete
  | contextSaveComplete
  | gangSelect
  | gangEnd
  -- throttles and wear (R402, R414, R415)
  | thermalThrottleWindow (hot : BitVec 16) (diePower modulePower : Nat)
  | shareThrottleWindow (part : BitVec 4) (lpBytes wsBytes : Nat) (othersWait : Bool)
  | wearSample (die : BitVec 5) (wear : List (BitVec 16))
  -- firmware commands (R386 to R397)
  | mailboxBusy
  | mailboxUnsupported (op : BitVec 16)
  | identify (h : MbHdr)
  | loadImage (h : MbHdr) (src : DWord) (len : Word)
  | retireImage (h : MbHdr) (addr : DWord)
  | modelDefine (h : MbHdr) (slot mask : Byte) (zero : BitVec 48) (size : DWord)
  | weightWrite (h : MbHdr) (slot : Byte) (zero : BitVec 24) (dies : Word) (src off len : DWord)
  | modelBind (h : MbHdr) (slot : Byte) (zero : BitVec 56) (sig : List Byte)
  | modelUnbind (h : MbHdr)
  | partitionResume (h : MbHdr)
  | attest (h : MbHdr) (nonce : List Byte)
  | ownerKey (h : MbHdr) (key : List Byte)
  | window (h : MbHdr) (base size : DWord)
  | linkConfig (h : MbHdr) (pkg zero : BitVec 16) (ports : Word)
  | linkRoute (h : MbHdr) (dest zero : BitVec 16) (mask : Word)
  | exportEntry (h : MbHdr) (entry flags srcPart zero : Byte) (srcPkg zero2 : BitVec 16) (base size : DWord)
  | linkStatus (h : MbHdr)
  -- host, links and partitions (R379 to R385, R398 to R410)
  | hostMemAccess (hpa : Nat) (acc : ExtAcc)
  | unsupportedRequest
  | remoteAccess (srcPkg : BitVec 11) (srcPart : BitVec 4) (pa : Nat) (acc : ExtAcc)
  | flitForward (dest : BitVec 11) (lane : BitVec 4) (hops : Nat)
  | linkPortDown (port : BitVec 5)
  | linkTrainTimeout (port : BitVec 5)
  | partitionEnable (part : BitVec 4) (on : Bool)
  | partitionReset (part : BitVec 4)
  | writeErrorClear (part : BitVec 4)
  | contextDefine (ctx : BitVec 6) (control : Word)
  | serviceDoorbell (part : BitVec 4) (val : Word)
  | invalidationCommand (part : BitVec 4) (val : Word)
  | counterClear (die : BitVec 5) (off : Byte)
  | registerWrite (off : BitVec 18) (wide : Bool) (val : DWord)
  -- the debug port and resets (R397, R417 to R420)
  | frzAssert
  | frzRelease
  | readHealth (off len : Word) (crcOk : Bool)
  | readScan (seg off len : Word) (crcOk : Bool)
  | scanSize (seg : Word) (crcOk : Bool)
  | debugUnknownCommand (code : Byte) (crcOk : Bool)
  | debugAbort
  | debugStallTimeout
  | coldReset
  | hotReset
  | linkPortTrained (port : BitVec 5)
  | memoryPortLinkDown (port : BitVec 2)
  | packagePowerLoss
  deriving DecidableEq, Repr

end Sys2Proof
end

