-- ==== Sys2Proof/WellFormed.lean ====
section
/-! DEFINITION. Which instructions are well formed: the field rules of R14, R16, R19, R24, R38 to R50 and R52, and the
limits each instruction's definition puts on its fields. A word whose instruction is ill formed fails check 5 (R54). -/

namespace Sys2Proof

/-- A source operand names a legal index of its level (R14, R38). -/
def Opnd.isSrc : Opnd → Bool
  | .q i => decide (i.toNat < 16)
  | .k i => decide (i.toNat < 16)
  | .g _ => true
  | .sp i => decide (i.toNat < 4)

/-- A destination is one of the combinations of R16. -/
def Opnd.isDst : Opnd → Bool
  | .q i => i == 0
  | .k i => decide (i.toNat < 16)
  | .g _ => true
  | .sp i => i == 0

/-- A pair in a register file has an even index (R19). -/
def Opnd.isEven : Opnd → Bool
  | .k i => i.toNat % 2 == 0
  | .g i => i.toNat % 2 == 0
  | _ => true

/-- A pair source (R19, R95). -/
def Opnd.isPairSrc (o : Opnd) : Bool := o.isSrc && o.isEven
/-- A pair destination (R95). -/
def Opnd.isPairDst (o : Opnd) : Bool := o.isDst && o.isEven
/-- A source that is a pair exactly when `wide`. -/
def Opnd.isSrcSz (o : Opnd) (wide : Bool) : Bool := if wide then o.isPairSrc else o.isSrc
/-- A destination that is a pair exactly when `wide`. -/
def Opnd.isDstSz (o : Opnd) (wide : Bool) : Bool := if wide then o.isPairDst else o.isDst

/-- The destination is level 11: the result is discarded (R16). -/
def Opnd.discards : Opnd → Bool
  | .sp _ => true
  | _ => false

/-- The operand is at level 00 (R210). -/
def Opnd.isQueue : Opnd → Bool
  | .q _ => true
  | _ => false

/-- C is zero when the destination is level 11 (R24). -/
def Sched.ok (s : Sched) (d : Opnd) : Bool := !d.discards || s.c == 0

/-- MI = 1 with M = 0 is illegal (R40). -/
def Gov.ok (m : Gov) : Bool := !m.inv || m.m != 0

/-- Types of VINT (R119). -/
def Ty.isLaneInt : Ty → Bool
  | .i32 | .n32 | .i16 | .n16 | .i8 | .n8 => true
  | _ => false
/-- The signed types of VINT (R119). -/
def Ty.isLaneSigned : Ty → Bool
  | .i32 | .i16 | .i8 => true
  | _ => false
/-- Types of VFP and VSPC (R120, R122). -/
def Ty.isLaneFloat : Ty → Bool
  | .f32 | .f16 | .bf16 => true
  | _ => false
/-- Destination types of `vcvt`: codes 0 to 11 (R125). -/
def Ty.isCvtDst : Ty → Bool
  | .t3 | .i64 => false
  | _ => true
/-- Types of `vtrit` (R128). -/
def Ty.isTritDst : Ty → Bool
  | .i32 | .i16 | .i8 | .f32 | .f16 | .bf16 => true
  | _ => false
/-- Key types of `vsortk` (R131). -/
def Ty.isSortKey : Ty → Bool
  | .i32 | .n32 | .f32 | .f16 | .bf16 => true
  | _ => false
/-- Operand types of the float products: codes 7 to 11 (R189). -/
def Ty.isMatrix : Ty → Bool
  | .f16 | .bf16 | .e4m3 | .e5m2 | .f6 => true
  | _ => false
/-- Stream types of TILE and drains: codes 6 to 11 (R188, R198). -/
def Ty.isStreamFloat : Ty → Bool
  | .f32 | .f16 | .bf16 | .e4m3 | .e5m2 | .f6 => true
  | _ => false

/-- Limits of q in `vpack` and `vunpk` (R126). -/
def packOk (t : Ty) (q : BitVec 2) : Bool :=
  match t with
  | .i16 | .n16 | .f16 | .bf16 => decide (q.toNat ≤ 1)
  | .i8 | .n8 | .e4m3 | .e5m2 => true
  | _ => false

/-- AUX[2:0] is zero. -/
def Rnd.isZero (r : Rnd) : Bool := r.mode == .rne && !r.sat

/-- Type and rounding limits of `vred` and `vscan` (R130). -/
def redOk (t : Ty) (op : RedOp) (r : Rnd) : Bool :=
  match op with
  | .add => t.isLaneFloat || (t.isLaneInt && r.isZero)
  | .min | .max => (t.isLaneFloat || t.isLaneInt) && r.isZero
  | .and | .or | .xor | .lanes => t.isLaneInt && r.isZero

/-- An ordered access has SZ = 3; a plain access has SC = 0 (R42, R149). -/
def orderedOk (sz : Size) (sc : Scope) (ord : Bool) : Bool :=
  if ord then sz == .d else sc == .clu

/-- Order, scope and width of an atomic (R152). -/
def atomicOk (sc : Scope) (o : MOrd) (wide : Bool) : Bool :=
  (o == .plain || wide) && (sc == .clu || o != .plain)

/-- The eps code of `trms` and `trmsd` (R199). -/
def epsOk (e : BitVec 8) : Bool := decide (e.toNat ≤ 149) || e == 255

/-- Types and transposes of a joint product (R189, R191). -/
def jointOk (p : Prod) (t : Ty) (ta tb : Bool) : Bool :=
  match p with
  | .mma => t.isMatrix
  | .tmm => t == .t3
  | .tmmt | .tmmw => t.isMatrix && !ta && !tb

/-- A special register number of R107. -/
def srKnown (n : BitVec 8) : Bool := decide (n.toNat ≤ 0x17)

/-- A 64-bit special register (R107). -/
def srWide (n : BitVec 8) : Bool :=
  match n.toNat with
  | 2 | 3 | 4 | 5 | 0xD | 0x12 => true
  | _ => false

/-- The fields of a standing form; an operand at level 00 cannot be captured (R210). -/
def Stand.ok : Stand → Bool
  | .mma _ _ _ _ t _ _ _ => t.isMatrix
  | .tmm .. => true
  | .tadd _ _ _ t b => (t == .i32 || t.isStreamFloat) && b != 3
  | .tmul _ _ _ t b => t.isStreamFloat && b != 3
  | .tact _ _ f => decide (f.toNat < 5)
  | .tactd _ _ _ t f => t.isStreamFloat && decide (f.toNat < 5)
  | .trms _ _ _ t e => t.isStreamFloat && epsOk e
  | .trmsd _ _ _ _ t e => t.isStreamFloat && epsOk e
  | .tsmax _ sx _ norm => norm || sx == 0
  | .tsmaxd _ _ _ t => t.isStreamFloat
  | .tscale _ _ _ t => t.isStreamFloat
  | .vproj _ _ _ _ t _ _ _ => t.isMatrix
  | .attn d _ a _ => d.isDst && a.isSrc && !a.isQueue
  | .omap d _ _ => d.isDst
  | .cpy d _ a _ => d.isDst && a.isSrc && !a.isQueue

/-- The field checks of an instruction (check 5 of R54, less those that need the machine's state). -/
def Instr.wellFormed : Instr → Bool
  | .nop => true
  | .brk _ => true
  | .trap _ => true
  | .tfence => true
  | .sret => true
  | .tlbinv a b scope => a.isPairSrc && b.isSrc && scope != 3
  | .halt => true
  | .add s d a b => s.ok d && d.isDst && a.isSrc && b.isSrc
  | .sub s d a b => s.ok d && d.isDst && a.isSrc && b.isSrc
  | .mul s d a b => s.ok d && d.isDst && a.isSrc && b.isSrc
  | .mulh s d a b _ => s.ok d && d.isDst && a.isSrc && b.isSrc
  | .div s d a b => s.ok d && d.isDst && a.isSrc && b.isSrc
  | .divn s d a b => s.ok d && d.isDst && a.isSrc && b.isSrc
  | .rem s d a b => s.ok d && d.isDst && a.isSrc && b.isSrc
  | .remn s d a b => s.ok d && d.isDst && a.isSrc && b.isSrc
  | .and s d a b => s.ok d && d.isDst && a.isSrc && b.isSrc
  | .or s d a b => s.ok d && d.isDst && a.isSrc && b.isSrc
  | .xor s d a b => s.ok d && d.isDst && a.isSrc && b.isSrc
  | .shl s d a b => s.ok d && d.isDst && a.isSrc && b.isSrc
  | .shr s d a b => s.ok d && d.isDst && a.isSrc && b.isSrc
  | .sra s d a b => s.ok d && d.isDst && a.isSrc && b.isSrc
  | .min s d a b => s.ok d && d.isDst && a.isSrc && b.isSrc
  | .max s d a b => s.ok d && d.isDst && a.isSrc && b.isSrc
  | .minn s d a b => s.ok d && d.isDst && a.isSrc && b.isSrc
  | .maxn s d a b => s.ok d && d.isDst && a.isSrc && b.isSrc
  | .clz s d a => s.ok d && d.isDst && a.isSrc
  | .ctz s d a => s.ok d && d.isDst && a.isSrc
  | .popc s d a => s.ok d && d.isDst && a.isSrc
  | .seq s d a b => s.ok d && d.isDst && a.isSrc && b.isSrc
  | .sne s d a b => s.ok d && d.isDst && a.isSrc && b.isSrc
  | .slt s d a b => s.ok d && d.isDst && a.isSrc && b.isSrc
  | .sltn s d a b => s.ok d && d.isDst && a.isSrc && b.isSrc
  | .sel s d a b x => s.ok d && d.isDst && a.isSrc && b.isSrc && x.isSrc
  | .bfx s d a b _ => s.ok d && d.isDst && a.isSrc && b.isSrc
  | .bfi s d a b x => s.ok d && d.isDst && a.isSrc && b.isSrc && x.isSrc
  | .addi s d a _ => s.ok d && d.isDst && a.isSrc
  | .andi s d a _ => s.ok d && d.isDst && a.isSrc
  | .ori s d a _ => s.ok d && d.isDst && a.isSrc
  | .xori s d a _ => s.ok d && d.isDst && a.isSrc
  | .shli s d a _ => s.ok d && d.isDst && a.isSrc
  | .shri s d a _ => s.ok d && d.isDst && a.isSrc
  | .srai s d a _ => s.ok d && d.isDst && a.isSrc
  | .movi s d _ => s.ok d && d.isDst
  | .slti s d a _ => s.ok d && d.isDst && a.isSrc
  | .sltni s d a _ => s.ok d && d.isDst && a.isSrc
  | .muli s d a _ => s.ok d && d.isDst && a.isSrc
  | .add64 s d a b => s.ok d && d.isPairDst && a.isPairSrc && b.isPairSrc
  | .sub64 s d a b => s.ok d && d.isPairDst && a.isPairSrc && b.isPairSrc
  | .mov64 s d a => s.ok d && d.isPairDst && a.isPairSrc
  | .shl64 s d a b => s.ok d && d.isPairDst && a.isPairSrc && b.isSrc
  | .slt64n s d a b => s.ok d && d.isDst && a.isPairSrc && b.isPairSrc
  | .addi64 s d a _ => s.ok d && d.isPairDst && a.isPairSrc
  | .movi64 s d _ => s.ok d && d.isPairDst
  | .sethi s d a _ => s.ok d && d.isPairDst && a.isSrc
  | .br h _ => h != 3
  | .bz p h _ => p.isSrc && h != 3
  | .bnz p h _ => p.isSrc && h != 3
  | .call s p h _ => s.ok p && p.isPairDst && h != 3
  | .ret p h => p.isPairSrc && h != 3
  | .jmp p h _ => p.isPairSrc && h != 3
  | .brq h _ => h != 3
  | .loop p _ h disp => p.isSrc && h != 3 && decide (2 ≤ disp.toInt)
  | .lbrk p h _ => p.isSrc && h != 3
  | .ldrain h _ => h != 3
  | .lidx s p _ h => s.ok p && p.isDst && h != 3
  | .ld s d _ sz sc acq _ => s.ok d && d.isDstSz (sz == .d) && orderedOk sz sc acq
  | .st d _ sz sc rel _ => d.isSrcSz (sz == .d) && orderedOk sz sc rel
  | .pref _ _ => true
  | .amoadd s d a b sc o wide => s.ok d && d.isDstSz wide && a.isPairSrc && b.isSrcSz wide && atomicOk sc o wide
  | .amoswp s d a b sc o wide => s.ok d && d.isDstSz wide && a.isPairSrc && b.isSrcSz wide && atomicOk sc o wide
  | .amocas s d a b x sc o wide => s.ok d && d.isDstSz wide && a.isPairSrc && b.isSrcSz wide && x.isSrcSz wide && atomicOk sc o wide
  | .amomin s d a b sc o wide => s.ok d && d.isDstSz wide && a.isPairSrc && b.isSrcSz wide && atomicOk sc o wide
  | .amomax s d a b sc o wide => s.ok d && d.isDstSz wide && a.isPairSrc && b.isSrcSz wide && atomicOk sc o wide
  | .amominn s d a b sc o wide => s.ok d && d.isDstSz wide && a.isPairSrc && b.isSrcSz wide && atomicOk sc o wide
  | .amomaxn s d a b sc o wide => s.ok d && d.isDstSz wide && a.isPairSrc && b.isSrcSz wide && atomicOk sc o wide
  | .amoand s d a b sc o wide => s.ok d && d.isDstSz wide && a.isPairSrc && b.isSrcSz wide && atomicOk sc o wide
  | .amoor s d a b sc o wide => s.ok d && d.isDstSz wide && a.isPairSrc && b.isSrcSz wide && atomicOk sc o wide
  | .amoxor s d a b sc o wide => s.ok d && d.isDstSz wide && a.isPairSrc && b.isSrcSz wide && atomicOk sc o wide
  | .fenceM _ => true
  | .fenceX _ _ _ => true
  | .bind s d a b x => s.ok d && d.isDst && a.isPairSrc && b.isPairSrc && x.isSrc
  | .unbind s d a b => s.ok d && d.isDst && a.isPairSrc && b.isPairSrc
  | .acqAll _ => true
  | .relAll _ => true
  | .vadd s d a b t m => s.ok d && d.isDst && a.isSrc && b.isSrc && t.isLaneInt && m.ok
  | .vsub s d a b t m => s.ok d && d.isDst && a.isSrc && b.isSrc && t.isLaneInt && m.ok
  | .vmul s d a b t m => s.ok d && d.isDst && a.isSrc && b.isSrc && t.isLaneInt && m.ok
  | .vmin s d a b t m => s.ok d && d.isDst && a.isSrc && b.isSrc && t.isLaneInt && m.ok
  | .vmax s d a b t m => s.ok d && d.isDst && a.isSrc && b.isSrc && t.isLaneInt && m.ok
  | .vabs s d a t m => s.ok d && d.isDst && a.isSrc && t.isLaneSigned && m.ok
  | .vand s d a b t m => s.ok d && d.isDst && a.isSrc && b.isSrc && t.isLaneInt && m.ok
  | .vor s d a b t m => s.ok d && d.isDst && a.isSrc && b.isSrc && t.isLaneInt && m.ok
  | .vxor s d a b t m => s.ok d && d.isDst && a.isSrc && b.isSrc && t.isLaneInt && m.ok
  | .vshl s d a b t m => s.ok d && d.isDst && a.isSrc && b.isSrc && t.isLaneInt && m.ok
  | .vshr s d a b t m => s.ok d && d.isDst && a.isSrc && b.isSrc && t.isLaneInt && m.ok
  | .vsra s d a b t m => s.ok d && d.isDst && a.isSrc && b.isSrc && t.isLaneSigned && m.ok
  | .vadds s d a b t m => s.ok d && d.isDst && a.isSrc && b.isSrc && t.isLaneInt && m.ok
  | .vsubs s d a b t m => s.ok d && d.isDst && a.isSrc && b.isSrc && t.isLaneInt && m.ok
  | .vcmpeq s d a b t m => s.ok d && d.isDst && a.isSrc && b.isSrc && t.isLaneInt && m.ok
  | .vcmplt s d a b t m => s.ok d && d.isDst && a.isSrc && b.isSrc && t.isLaneInt && m.ok
  | .vcmple s d a b t m => s.ok d && d.isDst && a.isSrc && b.isSrc && t.isLaneInt && m.ok
  | .vfadd s d a b t m _ => s.ok d && d.isDst && a.isSrc && b.isSrc && t.isLaneFloat && m.ok
  | .vfsub s d a b t m _ => s.ok d && d.isDst && a.isSrc && b.isSrc && t.isLaneFloat && m.ok
  | .vfmul s d a b t m _ => s.ok d && d.isDst && a.isSrc && b.isSrc && t.isLaneFloat && m.ok
  | .vfma s d a b x t m _ => s.ok d && d.isDst && a.isSrc && b.isSrc && x.isSrc && t.isLaneFloat && m.ok
  | .vfms s d a b x t m _ => s.ok d && d.isDst && a.isSrc && b.isSrc && x.isSrc && t.isLaneFloat && m.ok
  | .vfmin s d a b t m => s.ok d && d.isDst && a.isSrc && b.isSrc && t.isLaneFloat && m.ok
  | .vfmax s d a b t m => s.ok d && d.isDst && a.isSrc && b.isSrc && t.isLaneFloat && m.ok
  | .vfabs s d a t m => s.ok d && d.isDst && a.isSrc && t.isLaneFloat && m.ok
  | .vfneg s d a t m => s.ok d && d.isDst && a.isSrc && t.isLaneFloat && m.ok
  | .vfcmpeq s d a b t m => s.ok d && d.isDst && a.isSrc && b.isSrc && t.isLaneFloat && m.ok
  | .vfcmplt s d a b t m => s.ok d && d.isDst && a.isSrc && b.isSrc && t.isLaneFloat && m.ok
  | .vfcmple s d a b t m => s.ok d && d.isDst && a.isSrc && b.isSrc && t.isLaneFloat && m.ok
  | .vfcmpun s d a b t m => s.ok d && d.isDst && a.isSrc && b.isSrc && t.isLaneFloat && m.ok
  | .vrcp s d a t m _ => s.ok d && d.isDst && a.isSrc && t.isLaneFloat && m.ok
  | .vrsqrt s d a t m _ => s.ok d && d.isDst && a.isSrc && t.isLaneFloat && m.ok
  | .vsqrt s d a t m _ => s.ok d && d.isDst && a.isSrc && t.isLaneFloat && m.ok
  | .vexp2 s d a t m _ => s.ok d && d.isDst && a.isSrc && t.isLaneFloat && m.ok
  | .vlog2 s d a t m _ => s.ok d && d.isDst && a.isSrc && t.isLaneFloat && m.ok
  | .vdiv s d a b t m _ => s.ok d && d.isDst && a.isSrc && b.isSrc && t.isLaneFloat && m.ok
  | .vrope s d a b x t m _ _ => s.ok d && d.isDst && a.isSrc && b.isSrc && x.isSrc && t.isLaneFloat && m.ok
  | .vrng s d a m => s.ok d && d.isDst && a.isSrc && m.ok
  | .vcvt s d a t _ m _ => s.ok d && d.isDst && a.isSrc && t.isCvtDst && m.ok
  | .vpack s d a x t qx => s.ok d && d.isDst && a.isSrc && x.isSrc && packOk t qx
  | .vunpk s d a t qx m => s.ok d && d.isDst && a.isSrc && packOk t qx && m.ok
  | .vpk6 s d a x lo qx => s.ok d && d.isDst && a.isSrc && x.isSrc && (lo || decide (qx.toNat < 8))
  | .vupk6 s d a b _ _ m => s.ok d && d.isDst && a.isSrc && b.isSrc && m.ok
  | .vtrit s d a t qx m => s.ok d && d.isDst && a.isSrc && t.isTritDst && decide (qx.toNat < 20) && m.ok
  | .vtritp s d a x qx => s.ok d && d.isDst && a.isSrc && x.isSrc && decide (qx.toNat < 20)
  | .vbcast s d a m => s.ok d && d.isDst && a.isSrc && m.ok
  | .vext s d a b => s.ok d && d.isDst && a.isSrc && b.isSrc
  | .vins s d a b x => s.ok d && d.isDst && a.isSrc && b.isSrc && x.isSrc
  | .vperm s d a b x m => s.ok d && d.isDst && a.isSrc && b.isSrc && x.isSrc && m.ok
  | .vred s d a t op m r => s.ok d && d.isDst && a.isSrc && redOk t op r && m.ok
  | .vscan s d a t op m r => s.ok d && d.isDst && a.isSrc && redOk t op r && op != .lanes && m.ok
  | .vsortk s d a b t _ m => s.ok d && d.isDst && a.isSrc && b.isSrc && t.isSortKey && m.ok
  | .vcompress s d a m => s.ok d && d.isDst && a.isSrc && m.ok
  | .mand d _ _ => d != 0
  | .mor d _ _ => d != 0
  | .mxor d _ _ => d != 0
  | .mnot d _ => d != 0
  | .mset d b => d != 0 && b.isSrc
  | .mget s d _ => s.ok d && d.isDst
  | .mpop d _ => d != 0
  | .mfirst d _ => d != 0
  | .mbit d _ _ _ => d != 0
  | .vld s d _ _ _ _ => s.ok d && d.isDst
  | .vst d _ _ _ _ => d.isSrc
  | .vldg s d _ _ _ idx _ => s.ok d && d.isDst && idx.isSrc
  | .vsts d _ _ _ idx _ => d.isSrc && idx.isSrc
  | .stcfg _ _ _ => true
  | .stadv _ a => a.isSrc
  | .ststat s d _ => s.ok d && d.isPairDst
  | .stcut _ => true
  | .streamFill _ => true
  | .streamOutputWrite _ => true
  | .mma _ _ _ t _ _ _ => t.isMatrix
  | .tmm _ _ _ _ _ _ => true
  | .tmmt _ _ _ t _ => t.isMatrix
  | .tmmw _ _ _ t _ => t.isMatrix
  | .jointOperation p _ t ta tb _ => jointOk p t ta tb
  | .acfg _ _ _ _ _ => true
  | .aczero _ _ => true
  | .acdrain _ sa sb _ t rs cs _ _ => (t == .i32 || t.isStreamFloat) && (rs || sa == 0) && (cs || sb == 0)
  | .acload _ _ _ => true
  | .tadd _ _ t b => (t == .i32 || t.isStreamFloat) && b != 3
  | .tmul _ _ t b => t.isStreamFloat && b != 3
  | .tact _ f => decide (f.toNat < 5)
  | .tactd _ _ t f => t.isStreamFloat && decide (f.toNat < 5)
  | .trms _ _ t e => t.isStreamFloat && epsOk e
  | .trmsd _ _ _ t e => t.isStreamFloat && epsOk e
  | .tsmax _ sx norm => norm || sx == 0
  | .tsmaxd _ _ t => t.isStreamFloat
  | .tscale _ _ t => t.isStreamFloat
  | .vproj _ _ _ t _ _ _ => t.isMatrix
  | .vmerge _ _ _ _ => true
  | .vprojd _ _ _ sx t _ dw _ => t.isMatrix && (dw || sx == 0)
  | .attn d _ _ => d.isDst
  | .attnd d _ a _ => d.isDst && a.isPairSrc
  | .otcfg d _ _ _ => d.isDst
  | .extend d _ a => d.isPairDst && a.isSrc
  | .extendC d _ a => d.isPairDst && a.isSrc
  | .revoke d a => d.isPairDst && a.isSrc
  | .revokeAt d a _ => d.isPairDst && a.isSrc
  | .rlresume d a => d.isPairDst && a.isSrc
  | .rlstat d a => d.isPairDst && a.isSrc
  | .omap d _ _ a => d.isDst && a.isSrc
  | .standInstall f => f.ok
  | .firingRound => true
  | .firingRetire _ => true
  | .recbeg d _ _ => d.isDst
  | .recend d => d.isDst
  | .reverse d _ _ a => d.isDst && a.isSrc
  | .recflag d a => d.isDst && a.isPairSrc
  | .cpy d _ _ => d.isDst
  | .cpyg d _ _ => d.isDst
  | .cpys d _ _ => d.isDst
  | .cpymc d _ _ => d.isDst
  | .cpred d _ _ => d.isDst
  | .cpwait d _ a => d.isDst && a.isSrc
  | .cpdone d _ a => d.isDst && a.isSrc
  | .copyStart _ => true
  | .copyComplete _ _ => true
  | .copyFaultDelivery _ => true
  | .qput _ cl all a => (!all || cl == 0) && a.isPairSrc
  | .qget s d _ => s.ok d && d.isPairDst
  | .bqput cl all a => (!all || cl == 0) && a.isSrc
  | .qlvl s d n isBq => s.ok d && d.isDst && (!isBq || n == 0)
  | .spawn d _ _ a => d.isDst && a.isSrc
  | .join d _ _ => d.isDst
  | .launch d _ _ a => d.isDst && a.isSrc
  | .yield a => a.isPairSrc
  | .slend => true
  | .unpark d _ _ => d.isDst
  | .evset a => a.isSrc
  | .evsetErr a => a.isSrc
  | .evclr a => a.isSrc
  | .evwait s d a => s.ok d && d.isDst && a.isSrc
  | .evtest s d a => s.ok d && d.isDst && a.isSrc
  | .bar => true
  | .barG => true
  | .pqpush s d b x _ => s.ok d && d.isDst && b.isPairSrc && x.isPairSrc
  | .pqpop s d _ => s.ok d && d.isPairDst
  | .pqlen s d _ => s.ok d && d.isDst
  | .rdsr s d n => s.ok d && d.isDstSz (srWide n) && srKnown n
  | .wrsr a n => a.isSrcSz (srWide n) && srKnown n
  | .clrf _ => true
  | .kvxl s d _ _ a => s.ok d && d.isPairDst && a.isSrc
  | .kvfork s d _ _ a => s.ok d && d.isDst && a.isPairSrc
  | .kvgrow s d _ _ a => s.ok d && d.isDst && a.isSrc
  | .kvcommit s d _ _ a => s.ok d && d.isDst && a.isSrc
  | .memoryDataArrival => true
  | .translationWalkComplete => true
  | .correctionFreezeEnd => true
  | .weightStoreRefresh _ => true
  | .thermalThrottleWindow _ _ _ => true
  | .shareThrottleWindow _ _ _ _ => true
  | .watchdog => true
  | .budgetExhausted => true
  | .serviceTimer _ => true
  | .wearSample _ wear => decide (wear.length = 64)
  | .engineOpComplete => true
  | .engineFaultDelivery => true
  | .withheldRecordWrite _ => true
  | .machineCheck _ => true
  | .serviceRequest _ => true
  | .stopRequest => true
  | .stopForShares => true
  | .contextSwitchComplete => true
  | .contextSaveComplete => true
  | .gangSelect => true
  | .gangEnd => true
  | .mailboxBusy => true
  | .mailboxUnsupported _ => true
  | .identify _ => true
  | .loadImage _ _ _ => true
  | .retireImage _ _ => true
  | .modelDefine _ _ _ _ _ => true
  | .weightWrite _ _ _ _ _ _ _ => true
  | .modelBind _ _ _ _ => true
  | .modelUnbind _ => true
  | .partitionResume _ => true
  | .attest _ _ => true
  | .ownerKey _ _ => true
  | .window _ _ _ => true
  | .linkConfig _ _ _ _ => true
  | .linkRoute _ _ _ _ => true
  | .exportEntry _ _ _ _ _ _ _ _ _ => true
  | .linkStatus _ => true
  | .hostMemAccess _ _ => true
  | .unsupportedRequest => true
  | .remoteAccess _ _ _ _ => true
  | .flitForward _ _ _ => true
  | .linkPortDown _ => true
  | .linkTrainTimeout _ => true
  | .partitionEnable _ _ => true
  | .partitionReset _ => true
  | .partitionResetComplete _ => true
  | .writeErrorClear _ => true
  | .contextDefine _ _ => true
  | .serviceDoorbell _ _ => true
  | .invalidationCommand _ _ => true
  | .invalidationComplete _ => true
  | .counterClear _ _ => true
  | .registerWrite _ _ _ => true
  | .frzAssert => true
  | .frzRelease => true
  | .readHealth _ _ _ => true
  | .readScan _ _ _ _ => true
  | .scanSize _ _ => true
  | .debugUnknownCommand _ _ => true
  | .debugAbort => true
  | .debugStallTimeout => true
  | .coldReset => true
  | .hotReset => true
  | .linkPortTrained _ => true
  | .memoryPortLinkDown _ => true
  | .packagePowerLoss => true

end Sys2Proof
end

