-- ==== Sys2Proof/Decode.lean ====
section
/-! DEFINITION. The decoder and the encoder of the 64-bit instruction word (02_encoding.md), the agents and slots of the
majors (R51), and the latency bounds (R89, R118, R148, R201, R254, R301, R324). A word is legal exactly when the
instruction it names is well formed and encodes back to the same word, so every field a definition does not use must be
zero (R39). -/

namespace Sys2Proof

/-- Bits [lo+n-1:lo] of a word. -/
def wBits (w : DWord) (lo n : Nat) : BitVec n := w.extractLsb' lo n
/-- Bit `i` of a word. -/
def wBit (w : DWord) (i : Nat) : Bool := w.getLsbD i
/-- Bit `i` of IMM24. -/
def wImm24 (w : DWord) (i : Nat) : Bool := w.getLsbD i
/-- Bit `i` of AUX in format F-A. -/
def wAux (w : DWord) (i : Nat) : Bool := w.getLsbD i
/-- The scheduling control of a word: V[0] and C (R24, R35). -/
def wSched (w : DWord) : Sched := ⟨wBit w 62, wBits w 56 4⟩
/-- OP (R35). -/
def wOp (w : DWord) : Nat := (wBits w 50 6).toNat

/-! ## Code fields -/

/-- The 7-bit field of an operand (R38). -/
def Opnd.enc : Opnd → BitVec 7
  | .q i => 0#2 ++ i
  | .k i => 1#2 ++ i
  | .g i => 2#2 ++ i
  | .sp i => 3#2 ++ i
/-- The operand of a 7-bit field (R38). -/
def Opnd.dec (x : BitVec 7) : Opnd :=
  match (x.extractLsb' 5 2).toNat with
  | 0 => .q (x.extractLsb' 0 5)
  | 1 => .k (x.extractLsb' 0 5)
  | 2 => .g (x.extractLsb' 0 5)
  | _ => .sp (x.extractLsb' 0 5)

/-- The type code (R46). -/
def Ty.enc : Ty → BitVec 4
  | .i32 => 0 | .n32 => 1 | .i16 => 2 | .n16 => 3 | .i8 => 4 | .n8 => 5 | .f32 => 6 | .f16 => 7
  | .bf16 => 8 | .e4m3 => 9 | .e5m2 => 10 | .f6 => 11 | .t3 => 12 | .i64 => 13
/-- The type of a code; 14 and 15 are no type (R46). -/
def Ty.ofCode : Nat → Option Ty
  | 0 => some .i32 | 1 => some .n32 | 2 => some .i16 | 3 => some .n16 | 4 => some .i8 | 5 => some .n8
  | 6 => some .f32 | 7 => some .f16 | 8 => some .bf16 | 9 => some .e4m3 | 10 => some .e5m2
  | 11 => some .f6 | 12 => some .t3 | 13 => some .i64 | _ => none
/-- The type of a T field. -/
def Ty.dec (x : BitVec 4) : Option Ty := Ty.ofCode x.toNat

/-- T of `acfg`, `aczero` and `acload`: 0 for i32, 6 for f32 (R186, R187). -/
def tyI32Enc (b : Bool) : BitVec 4 := if b then 0 else 6
/-- The reading of that T field; any other value is illegal. -/
def tyI32Dec (x : BitVec 4) : Option Bool :=
  match x.toNat with
  | 0 => some true
  | 6 => some false
  | _ => none

/-- The rounding mode code (R49). -/
def RMode.enc : RMode → BitVec 2
  | .rne => 0 | .rtz => 1 | .rdn => 2 | .rup => 3
/-- The mode of a code. -/
def RMode.dec (x : BitVec 2) : RMode :=
  match x.toNat with
  | 0 => .rne | 1 => .rtz | 2 => .rdn | _ => .rup
/-- AUX[2:0] (R49). -/
def Rnd.enc (r : Rnd) : BitVec 3 := BitVec.ofBool r.sat ++ r.mode.enc
/-- The reading of AUX[2:0]. -/
def Rnd.dec (x : BitVec 3) : Rnd := ⟨RMode.dec (x.extractLsb' 0 2), x.getLsbD 2⟩

/-- The scope code (R47). -/
def Scope.enc : Scope → BitVec 3
  | .clu => 0 | .cor => 1 | .die => 2 | .pkg => 3 | .sys => 4
/-- The scope of a code; 5 to 7 are illegal. -/
def Scope.dec (x : BitVec 3) : Option Scope :=
  match x.toNat with
  | 0 => some .clu | 1 => some .cor | 2 => some .die | 3 => some .pkg | 4 => some .sys | _ => none

/-- The memory-order code (R47). -/
def MOrd.enc : MOrd → BitVec 2
  | .plain => 0 | .acq => 1 | .rel => 2 | .acqrel => 3
/-- The order of a code. -/
def MOrd.dec (x : BitVec 2) : MOrd :=
  match x.toNat with
  | 0 => .plain | 1 => .acq | 2 => .rel | _ => .acqrel

/-- SZ of a scalar access (R50). -/
def Size.enc : Size → BitVec 3
  | .b => 0 | .h => 1 | .w => 2 | .d => 3
/-- The scalar size of a code. -/
def Size.dec (x : BitVec 3) : Option Size :=
  match x.toNat with
  | 0 => some .b | 1 => some .h | 2 => some .w | 3 => some .d | _ => none
/-- Bytes of a scalar access. -/
def Size.bytes : Size → Nat
  | .b => 1 | .h => 2 | .w => 4 | .d => 8

/-- SZ of a vector access (R50). -/
def VSize.enc : VSize → BitVec 3
  | .full => 4 | .half => 5 | .byte => 6
/-- The vector size of a code. -/
def VSize.dec (x : BitVec 3) : Option VSize :=
  match x.toNat with
  | 4 => some .full | 5 => some .half | 6 => some .byte | _ => none
/-- Element bytes of a vector access (R154). -/
def VSize.bytes : VSize → Nat
  | .full => 4 | .half => 2 | .byte => 1

/-- The operation code of `vred` and `vscan` (R130). -/
def RedOp.enc : RedOp → BitVec 3
  | .add => 0 | .min => 1 | .max => 2 | .and => 3 | .or => 4 | .xor => 5 | .lanes => 6
/-- The operation of a code; 7 is illegal. -/
def RedOp.dec (x : BitVec 3) : Option RedOp :=
  match x.toNat with
  | 0 => some .add | 1 => some .min | 2 => some .max | 3 => some .and | 4 => some .or | 5 => some .xor
  | 6 => some .lanes | _ => none

/-- The source code of `vcvt` (R125). -/
def CvtSrc.enc : CvtSrc → BitVec 3
  | .f32 => 0 | .f16 => 1 | .bf16 => 2 | .e4m3 => 3 | .e5m2 => 4 | .f6 => 5 | .i32 => 6 | .n32 => 7
/-- The source of a code. -/
def CvtSrc.dec (x : BitVec 3) : CvtSrc :=
  match x.toNat with
  | 0 => .f32 | 1 => .f16 | 2 => .bf16 | 3 => .e4m3 | 4 => .e5m2 | 5 => .f6 | 6 => .i32 | _ => .n32

/-- AUX6[4:0] of `loop`: bound bit and table level (R100). -/
def lvEnc : Option (BitVec 4) → BitVec 5
  | some n => 1#1 ++ n
  | none => 0
/-- The reading of that field. -/
def lvDec (x : BitVec 5) : Option (BitVec 4) := if x.getLsbD 4 then some (x.extractLsb' 0 4) else none

/-- FN of the product a joint operation makes (R51). -/
def Prod.fn : Prod → BitVec 8
  | .mma => 0 | .tmm => 1 | .tmmt => 6 | .tmmw => 7
/-- The product of a function number. -/
def Prod.ofFn : Nat → Option Prod
  | 0 => some .mma | 1 => some .tmm | 6 => some .tmmt | 7 => some .tmmw | _ => none

/-! ## The six formats (R40 to R45): C, OP and the format fields, bits [59:0] -/

/-- Format F-A (R40). -/
def fA (c : BitVec 4) (op : BitVec 6) (d a b x : BitVec 7) (fn : BitVec 8) (t : BitVec 4) (m : BitVec 3)
    (mi : BitVec 1) (aux : BitVec 6) : BitVec 60 :=
  c ++ op ++ d ++ a ++ b ++ x ++ fn ++ t ++ m ++ mi ++ aux
/-- Format F-I (R41). -/
def fI (c : BitVec 4) (op : BitVec 6) (d a : BitVec 7) (fn : BitVec 4) (imm : Word) : BitVec 60 :=
  c ++ op ++ d ++ a ++ fn ++ imm
/-- Format F-M (R42). -/
def fM (c : BitVec 4) (op : BitVec 6) (d : BitVec 7) (bp fn : BitVec 4) (sz sc : BitVec 3) (ord : BitVec 2)
    (m : BitVec 3) (off : BitVec 24) : BitVec 60 :=
  c ++ op ++ d ++ bp ++ fn ++ sz ++ sc ++ ord ++ m ++ off
/-- Format F-B (R43). -/
def fB (c : BitVec 4) (op : BitVec 6) (p : BitVec 7) (fn : BitVec 3) (aux : BitVec 6) (h : BitVec 2)
    (disp : Word) : BitVec 60 :=
  c ++ op ++ p ++ fn ++ aux ++ h ++ disp
/-- Format F-T (R44). -/
def fT (c : BitVec 4) (op : BitVec 6) (ac sa sb sx : BitVec 4) (ot : BitVec 6) (s j : BitVec 1) (fn : BitVec 8)
    (t : BitVec 4) (aux : BitVec 14) : BitVec 60 :=
  c ++ op ++ ac ++ sa ++ sb ++ sx ++ ot ++ s ++ j ++ fn ++ t ++ aux
/-- Format F-Q (R45). -/
def fQ (c : BitVec 4) (op : BitVec 6) (d : BitVec 7) (bp : BitVec 4) (a : BitVec 7) (fn : BitVec 8)
    (imm : BitVec 24) : BitVec 60 :=
  c ++ op ++ d ++ bp ++ a ++ fn ++ imm

/-- The format of a major (R51). -/
inductive Fmt where
  | a | i | m | b | t | q
  deriving DecidableEq, Repr

/-- Format of each major (R51). -/
def fmtOf (op : Nat) : Fmt :=
  if op ∈ [2, 4, 0x1D] then .i
  else if op ∈ [7, 0x10] then .m
  else if op ∈ [5, 6] then .b
  else if op ∈ [0x12, 0x13, 0x14] then .t
  else if op ∈ [0x11, 0x15, 0x16, 0x17, 0x18, 0x1A, 0x1E] then .q
  else .a

/-- FN of a word, read in its major's format (R40 to R45). -/
def wFn (w : DWord) : Nat :=
  match fmtOf (wOp w) with
  | .a => (wBits w 14 8).toNat
  | .i => (wBits w 32 4).toNat
  | .m => (wBits w 35 4).toNat
  | .b => (wBits w 40 3).toNat
  | .t => (wBits w 18 8).toNat
  | .q => (wBits w 24 8).toNat

/-- How many functions each major has (R51). -/
def fnCount : Nat → Nat
  | 0x00 => 7 | 0x01 => 28 | 0x02 => 11 | 0x03 => 5 | 0x04 => 3 | 0x05 => 7 | 0x06 => 4 | 0x07 => 3
  | 0x08 => 10 | 0x09 => 6 | 0x0A => 17 | 0x0B => 13 | 0x0C => 8 | 0x0D => 7 | 0x0E => 8 | 0x0F => 9
  | 0x10 => 4 | 0x11 => 4 | 0x12 => 8 | 0x13 => 9 | 0x14 => 3 | 0x15 => 2 | 0x16 => 6 | 0x17 => 4
  | 0x18 => 7 | 0x19 => 4 | 0x1A => 6 | 0x1B => 6 | 0x1C => 3 | 0x1D => 3 | 0x1E => 4 | _ => 0

/-- Issue slots (R21, R51). -/
inductive Slot where
  | s | v | m
  deriving DecidableEq, Repr

/-- The slot of a major (R51). -/
def slotOf (op : Nat) : Slot :=
  if op ≤ 6 || op == 0x1D then .s else if 0x0A ≤ op && op ≤ 0x0F then .v else .m

/-- May this agent issue the word (R51)? -/
def agentOk (ap : Bool) (op fn : Nat) : Bool :=
  let clusterOnly := (0x0A ≤ op && op ≤ 0x10) || (0x12 ≤ op && op ≤ 0x17) || (op == 0 && fn == 4) ||
    (op == 5 && fn == 6) || (op == 0x19 && (fn == 1 || fn == 3))
  let apOnly := op == 0x11 || op == 0x18 || (op == 0x19 && (fn == 0 || fn == 2))
  if ap then !clusterOnly else !apOnly

/-! ## The instruction a word names -/

/-- The standing form of a word with its standing bit set (R210), by major and function. -/
def standOf (op fn : Nat) (w : DWord) : Option Stand :=
  match op, fn with
  | 18, 0 => (Ty.dec (wBits w 14 4)).bind fun t => some (.mma (wBits w 46 2) (wBits w 42 4) (wBits w 38 4) (wBits w 28 6) t (wBit w 13) (wBit w 12) (wBits w 0 6))
  | 18, 1 => some (.tmm (wBits w 46 2) (wBits w 42 4) (wBits w 38 4) (wBits w 28 6) (wBit w 13) (wBit w 12) (wBits w 0 6))
  | 19, 0 => (Ty.dec (wBits w 14 4)).bind fun t => some (.tadd (wBits w 46 2) (wBits w 42 4) (wBits w 28 6) t (wBits w 4 2))
  | 19, 1 => (Ty.dec (wBits w 14 4)).bind fun t => some (.tmul (wBits w 46 2) (wBits w 42 4) (wBits w 28 6) t (wBits w 4 2))
  | 19, 2 => some (.tact (wBits w 46 2) (wBits w 28 6) (wBits w 0 4))
  | 19, 3 => (Ty.dec (wBits w 14 4)).bind fun t => some (.tactd (wBits w 46 2) (wBits w 42 4) (wBits w 28 6) t (wBits w 0 4))
  | 19, 4 => (Ty.dec (wBits w 14 4)).bind fun t => some (.trms (wBits w 46 2) (wBits w 34 4) (wBits w 28 6) t (wBits w 0 8))
  | 19, 5 => (Ty.dec (wBits w 14 4)).bind fun t => some (.trmsd (wBits w 46 2) (wBits w 42 4) (wBits w 34 4) (wBits w 28 6) t (wBits w 0 8))
  | 19, 6 => some (.tsmax (wBits w 46 2) (wBits w 34 4) (wBits w 28 6) (wBit w 0))
  | 19, 7 => (Ty.dec (wBits w 14 4)).bind fun t => some (.tsmaxd (wBits w 46 2) (wBits w 42 4) (wBits w 28 6) t)
  | 19, 8 => (Ty.dec (wBits w 14 4)).bind fun t => some (.tscale (wBits w 46 2) (wBits w 42 4) (wBits w 28 6) t)
  | 20, 0 => (Ty.dec (wBits w 14 4)).bind fun t => some (.vproj (wBits w 46 2) (wBits w 42 4) (wBits w 38 4) (wBits w 28 6) t (wBit w 13) (wBit w 12) (wBits w 0 6))
  | 21, 0 => some (.attn (Opnd.dec (wBits w 43 7)) (wBits w 39 4) (Opnd.dec (wBits w 32 7)) (wBits w 0 23))
  | 22, 5 => some (.omap (Opnd.dec (wBits w 43 7)) (wBits w 39 4) (wBits w 0 23))
  | 24, 0 => some (.cpy (Opnd.dec (wBits w 43 7)) (wBits w 39 4) (Opnd.dec (wBits w 32 7)) (wBits w 0 23))
  | _, _ => none

/-- The joint operation a word with J = 1 asks for (R191). -/
def jointOf (p : Prod) (w : DWord) : Option Instr :=
  (Ty.dec (wBits w 14 4)).bind fun t => some (.jointOperation p (wBits w 46 2) t (wBit w 13) (wBit w 12) (wBits w 0 6))

/-- SYS (major 0x0): the instruction each function number names, fields not yet checked. -/
def candSys (fn : Nat) (w : DWord) : Option Instr :=
  match fn with
  | 0 => some .nop
  | 1 => some (.brk (wBits w 0 6))
  | 2 => some (.trap (wBits w 0 6))
  | 3 => some .tfence
  | 4 => some .sret
  | 5 => some (.tlbinv (Opnd.dec (wBits w 36 7)) (Opnd.dec (wBits w 29 7)) (wBits w 0 2))
  | 6 => some .halt
  | _ => none

/-- SALU (major 0x1): the instruction each function number names, fields not yet checked. -/
def candSalu (fn : Nat) (w : DWord) : Option Instr :=
  match fn with
  | 0 => some (.add (wSched w) (Opnd.dec (wBits w 43 7)) (Opnd.dec (wBits w 36 7)) (Opnd.dec (wBits w 29 7)))
  | 1 => some (.sub (wSched w) (Opnd.dec (wBits w 43 7)) (Opnd.dec (wBits w 36 7)) (Opnd.dec (wBits w 29 7)))
  | 2 => some (.mul (wSched w) (Opnd.dec (wBits w 43 7)) (Opnd.dec (wBits w 36 7)) (Opnd.dec (wBits w 29 7)))
  | 3 => some (.mulh (wSched w) (Opnd.dec (wBits w 43 7)) (Opnd.dec (wBits w 36 7)) (Opnd.dec (wBits w 29 7)) (wBit w 10))
  | 4 => some (.div (wSched w) (Opnd.dec (wBits w 43 7)) (Opnd.dec (wBits w 36 7)) (Opnd.dec (wBits w 29 7)))
  | 5 => some (.divn (wSched w) (Opnd.dec (wBits w 43 7)) (Opnd.dec (wBits w 36 7)) (Opnd.dec (wBits w 29 7)))
  | 6 => some (.rem (wSched w) (Opnd.dec (wBits w 43 7)) (Opnd.dec (wBits w 36 7)) (Opnd.dec (wBits w 29 7)))
  | 7 => some (.remn (wSched w) (Opnd.dec (wBits w 43 7)) (Opnd.dec (wBits w 36 7)) (Opnd.dec (wBits w 29 7)))
  | 8 => some (.and (wSched w) (Opnd.dec (wBits w 43 7)) (Opnd.dec (wBits w 36 7)) (Opnd.dec (wBits w 29 7)))
  | 9 => some (.or (wSched w) (Opnd.dec (wBits w 43 7)) (Opnd.dec (wBits w 36 7)) (Opnd.dec (wBits w 29 7)))
  | 10 => some (.xor (wSched w) (Opnd.dec (wBits w 43 7)) (Opnd.dec (wBits w 36 7)) (Opnd.dec (wBits w 29 7)))
  | 11 => some (.shl (wSched w) (Opnd.dec (wBits w 43 7)) (Opnd.dec (wBits w 36 7)) (Opnd.dec (wBits w 29 7)))
  | 12 => some (.shr (wSched w) (Opnd.dec (wBits w 43 7)) (Opnd.dec (wBits w 36 7)) (Opnd.dec (wBits w 29 7)))
  | 13 => some (.sra (wSched w) (Opnd.dec (wBits w 43 7)) (Opnd.dec (wBits w 36 7)) (Opnd.dec (wBits w 29 7)))
  | 14 => some (.min (wSched w) (Opnd.dec (wBits w 43 7)) (Opnd.dec (wBits w 36 7)) (Opnd.dec (wBits w 29 7)))
  | 15 => some (.max (wSched w) (Opnd.dec (wBits w 43 7)) (Opnd.dec (wBits w 36 7)) (Opnd.dec (wBits w 29 7)))
  | 16 => some (.minn (wSched w) (Opnd.dec (wBits w 43 7)) (Opnd.dec (wBits w 36 7)) (Opnd.dec (wBits w 29 7)))
  | 17 => some (.maxn (wSched w) (Opnd.dec (wBits w 43 7)) (Opnd.dec (wBits w 36 7)) (Opnd.dec (wBits w 29 7)))
  | 18 => some (.clz (wSched w) (Opnd.dec (wBits w 43 7)) (Opnd.dec (wBits w 36 7)))
  | 19 => some (.ctz (wSched w) (Opnd.dec (wBits w 43 7)) (Opnd.dec (wBits w 36 7)))
  | 20 => some (.popc (wSched w) (Opnd.dec (wBits w 43 7)) (Opnd.dec (wBits w 36 7)))
  | 21 => some (.seq (wSched w) (Opnd.dec (wBits w 43 7)) (Opnd.dec (wBits w 36 7)) (Opnd.dec (wBits w 29 7)))
  | 22 => some (.sne (wSched w) (Opnd.dec (wBits w 43 7)) (Opnd.dec (wBits w 36 7)) (Opnd.dec (wBits w 29 7)))
  | 23 => some (.slt (wSched w) (Opnd.dec (wBits w 43 7)) (Opnd.dec (wBits w 36 7)) (Opnd.dec (wBits w 29 7)))
  | 24 => some (.sltn (wSched w) (Opnd.dec (wBits w 43 7)) (Opnd.dec (wBits w 36 7)) (Opnd.dec (wBits w 29 7)))
  | 25 => some (.sel (wSched w) (Opnd.dec (wBits w 43 7)) (Opnd.dec (wBits w 36 7)) (Opnd.dec (wBits w 29 7)) (Opnd.dec (wBits w 22 7)))
  | 26 => some (.bfx (wSched w) (Opnd.dec (wBits w 43 7)) (Opnd.dec (wBits w 36 7)) (Opnd.dec (wBits w 29 7)) (wBit w 0))
  | 27 => some (.bfi (wSched w) (Opnd.dec (wBits w 43 7)) (Opnd.dec (wBits w 36 7)) (Opnd.dec (wBits w 29 7)) (Opnd.dec (wBits w 22 7)))
  | _ => none

/-- SALUI (major 0x2): the instruction each function number names, fields not yet checked. -/
def candSalui (fn : Nat) (w : DWord) : Option Instr :=
  match fn with
  | 0 => some (.addi (wSched w) (Opnd.dec (wBits w 43 7)) (Opnd.dec (wBits w 36 7)) (wBits w 0 32))
  | 1 => some (.andi (wSched w) (Opnd.dec (wBits w 43 7)) (Opnd.dec (wBits w 36 7)) (wBits w 0 32))
  | 2 => some (.ori (wSched w) (Opnd.dec (wBits w 43 7)) (Opnd.dec (wBits w 36 7)) (wBits w 0 32))
  | 3 => some (.xori (wSched w) (Opnd.dec (wBits w 43 7)) (Opnd.dec (wBits w 36 7)) (wBits w 0 32))
  | 4 => some (.shli (wSched w) (Opnd.dec (wBits w 43 7)) (Opnd.dec (wBits w 36 7)) (wBits w 0 5))
  | 5 => some (.shri (wSched w) (Opnd.dec (wBits w 43 7)) (Opnd.dec (wBits w 36 7)) (wBits w 0 5))
  | 6 => some (.srai (wSched w) (Opnd.dec (wBits w 43 7)) (Opnd.dec (wBits w 36 7)) (wBits w 0 5))
  | 7 => some (.movi (wSched w) (Opnd.dec (wBits w 43 7)) (wBits w 0 32))
  | 8 => some (.slti (wSched w) (Opnd.dec (wBits w 43 7)) (Opnd.dec (wBits w 36 7)) (wBits w 0 32))
  | 9 => some (.sltni (wSched w) (Opnd.dec (wBits w 43 7)) (Opnd.dec (wBits w 36 7)) (wBits w 0 32))
  | 10 => some (.muli (wSched w) (Opnd.dec (wBits w 43 7)) (Opnd.dec (wBits w 36 7)) (wBits w 0 32))
  | _ => none

/-- SPAIR (major 0x3): the instruction each function number names, fields not yet checked. -/
def candSpair (fn : Nat) (w : DWord) : Option Instr :=
  match fn with
  | 0 => some (.add64 (wSched w) (Opnd.dec (wBits w 43 7)) (Opnd.dec (wBits w 36 7)) (Opnd.dec (wBits w 29 7)))
  | 1 => some (.sub64 (wSched w) (Opnd.dec (wBits w 43 7)) (Opnd.dec (wBits w 36 7)) (Opnd.dec (wBits w 29 7)))
  | 2 => some (.mov64 (wSched w) (Opnd.dec (wBits w 43 7)) (Opnd.dec (wBits w 36 7)))
  | 3 => some (.shl64 (wSched w) (Opnd.dec (wBits w 43 7)) (Opnd.dec (wBits w 36 7)) (Opnd.dec (wBits w 29 7)))
  | 4 => some (.slt64n (wSched w) (Opnd.dec (wBits w 43 7)) (Opnd.dec (wBits w 36 7)) (Opnd.dec (wBits w 29 7)))
  | _ => none

/-- SPAIRI (major 0x4): the instruction each function number names, fields not yet checked. -/
def candSpairi (fn : Nat) (w : DWord) : Option Instr :=
  match fn with
  | 0 => some (.addi64 (wSched w) (Opnd.dec (wBits w 43 7)) (Opnd.dec (wBits w 36 7)) (wBits w 0 32))
  | 1 => some (.movi64 (wSched w) (Opnd.dec (wBits w 43 7)) (wBits w 0 32))
  | 2 => some (.sethi (wSched w) (Opnd.dec (wBits w 43 7)) (Opnd.dec (wBits w 36 7)) (wBits w 0 32))
  | _ => none

/-- BR (major 0x5): the instruction each function number names, fields not yet checked. -/
def candBr (fn : Nat) (w : DWord) : Option Instr :=
  match fn with
  | 0 => some (.br (wBits w 32 2) (wBits w 0 32))
  | 1 => some (.bz (Opnd.dec (wBits w 43 7)) (wBits w 32 2) (wBits w 0 32))
  | 2 => some (.bnz (Opnd.dec (wBits w 43 7)) (wBits w 32 2) (wBits w 0 32))
  | 3 => some (.call (wSched w) (Opnd.dec (wBits w 43 7)) (wBits w 32 2) (wBits w 0 32))
  | 4 => some (.ret (Opnd.dec (wBits w 43 7)) (wBits w 32 2))
  | 5 => some (.jmp (Opnd.dec (wBits w 43 7)) (wBits w 32 2) (wBits w 0 32))
  | 6 => some (.brq (wBits w 32 2) (wBits w 0 32))
  | _ => none

/-- LOOP (major 0x6): the instruction each function number names, fields not yet checked. -/
def candLoop (fn : Nat) (w : DWord) : Option Instr :=
  match fn with
  | 0 => some (.loop (Opnd.dec (wBits w 43 7)) (lvDec (wBits w 34 5)) (wBits w 32 2) (wBits w 0 32))
  | 1 => some (.lbrk (Opnd.dec (wBits w 43 7)) (wBits w 32 2) (wBits w 0 32))
  | 2 => some (.ldrain (wBits w 32 2) (wBits w 0 32))
  | 3 => some (.lidx (wSched w) (Opnd.dec (wBits w 43 7)) (wBits w 34 4) (wBits w 32 2))
  | _ => none

/-- MEM (major 0x7): the instruction each function number names, fields not yet checked. -/
def candMem (fn : Nat) (w : DWord) : Option Instr :=
  match fn with
  | 0 => (Size.dec (wBits w 32 3)).bind fun sz => (Scope.dec (wBits w 29 3)).bind fun sc => some (.ld (wSched w) (Opnd.dec (wBits w 43 7)) (wBits w 39 4) sz sc (wBit w 27) (wBits w 0 24))
  | 1 => (Size.dec (wBits w 32 3)).bind fun sz => (Scope.dec (wBits w 29 3)).bind fun sc => some (.st (Opnd.dec (wBits w 43 7)) (wBits w 39 4) sz sc (wBit w 28) (wBits w 0 24))
  | 2 => some (.pref (wBits w 39 4) (wBits w 0 24))
  | _ => none

/-- AMO (major 0x8): the instruction each function number names, fields not yet checked. -/
def candAmo (fn : Nat) (w : DWord) : Option Instr :=
  match fn with
  | 0 => (Scope.dec (wBits w 3 3)).bind fun sc => some (.amoadd (wSched w) (Opnd.dec (wBits w 43 7)) (Opnd.dec (wBits w 36 7)) (Opnd.dec (wBits w 29 7)) sc (MOrd.dec (wBits w 1 2)) (wBit w 0))
  | 1 => (Scope.dec (wBits w 3 3)).bind fun sc => some (.amoswp (wSched w) (Opnd.dec (wBits w 43 7)) (Opnd.dec (wBits w 36 7)) (Opnd.dec (wBits w 29 7)) sc (MOrd.dec (wBits w 1 2)) (wBit w 0))
  | 2 => (Scope.dec (wBits w 3 3)).bind fun sc => some (.amocas (wSched w) (Opnd.dec (wBits w 43 7)) (Opnd.dec (wBits w 36 7)) (Opnd.dec (wBits w 29 7)) (Opnd.dec (wBits w 22 7)) sc (MOrd.dec (wBits w 1 2)) (wBit w 0))
  | 3 => (Scope.dec (wBits w 3 3)).bind fun sc => some (.amomin (wSched w) (Opnd.dec (wBits w 43 7)) (Opnd.dec (wBits w 36 7)) (Opnd.dec (wBits w 29 7)) sc (MOrd.dec (wBits w 1 2)) (wBit w 0))
  | 4 => (Scope.dec (wBits w 3 3)).bind fun sc => some (.amomax (wSched w) (Opnd.dec (wBits w 43 7)) (Opnd.dec (wBits w 36 7)) (Opnd.dec (wBits w 29 7)) sc (MOrd.dec (wBits w 1 2)) (wBit w 0))
  | 5 => (Scope.dec (wBits w 3 3)).bind fun sc => some (.amominn (wSched w) (Opnd.dec (wBits w 43 7)) (Opnd.dec (wBits w 36 7)) (Opnd.dec (wBits w 29 7)) sc (MOrd.dec (wBits w 1 2)) (wBit w 0))
  | 6 => (Scope.dec (wBits w 3 3)).bind fun sc => some (.amomaxn (wSched w) (Opnd.dec (wBits w 43 7)) (Opnd.dec (wBits w 36 7)) (Opnd.dec (wBits w 29 7)) sc (MOrd.dec (wBits w 1 2)) (wBit w 0))
  | 7 => (Scope.dec (wBits w 3 3)).bind fun sc => some (.amoand (wSched w) (Opnd.dec (wBits w 43 7)) (Opnd.dec (wBits w 36 7)) (Opnd.dec (wBits w 29 7)) sc (MOrd.dec (wBits w 1 2)) (wBit w 0))
  | 8 => (Scope.dec (wBits w 3 3)).bind fun sc => some (.amoor (wSched w) (Opnd.dec (wBits w 43 7)) (Opnd.dec (wBits w 36 7)) (Opnd.dec (wBits w 29 7)) sc (MOrd.dec (wBits w 1 2)) (wBit w 0))
  | 9 => (Scope.dec (wBits w 3 3)).bind fun sc => some (.amoxor (wSched w) (Opnd.dec (wBits w 43 7)) (Opnd.dec (wBits w 36 7)) (Opnd.dec (wBits w 29 7)) sc (MOrd.dec (wBits w 1 2)) (wBit w 0))
  | _ => none

/-- ORDR (major 0x9): the instruction each function number names, fields not yet checked. -/
def candOrdr (fn : Nat) (w : DWord) : Option Instr :=
  match fn with
  | 0 => some (.fenceM (wBits w 0 4))
  | 1 => (Scope.dec (wBits w 3 3)).bind fun sc => some (.fenceX sc (wBits w 36 7) (wBits w 29 7))
  | 2 => some (.bind (wSched w) (Opnd.dec (wBits w 43 7)) (Opnd.dec (wBits w 36 7)) (Opnd.dec (wBits w 29 7)) (Opnd.dec (wBits w 22 7)))
  | 3 => some (.unbind (wSched w) (Opnd.dec (wBits w 43 7)) (Opnd.dec (wBits w 36 7)) (Opnd.dec (wBits w 29 7)))
  | 4 => (Scope.dec (wBits w 3 3)).bind fun sc => some (.acqAll sc)
  | 5 => (Scope.dec (wBits w 3 3)).bind fun sc => some (.relAll sc)
  | _ => none

/-- VINT (major 0xa): the instruction each function number names, fields not yet checked. -/
def candVint (fn : Nat) (w : DWord) : Option Instr :=
  match fn with
  | 0 => (Ty.dec (wBits w 10 4)).bind fun t => some (.vadd (wSched w) (Opnd.dec (wBits w 43 7)) (Opnd.dec (wBits w 36 7)) (Opnd.dec (wBits w 29 7)) t ⟨wBits w 7 3, wBit w 6⟩)
  | 1 => (Ty.dec (wBits w 10 4)).bind fun t => some (.vsub (wSched w) (Opnd.dec (wBits w 43 7)) (Opnd.dec (wBits w 36 7)) (Opnd.dec (wBits w 29 7)) t ⟨wBits w 7 3, wBit w 6⟩)
  | 2 => (Ty.dec (wBits w 10 4)).bind fun t => some (.vmul (wSched w) (Opnd.dec (wBits w 43 7)) (Opnd.dec (wBits w 36 7)) (Opnd.dec (wBits w 29 7)) t ⟨wBits w 7 3, wBit w 6⟩)
  | 3 => (Ty.dec (wBits w 10 4)).bind fun t => some (.vmin (wSched w) (Opnd.dec (wBits w 43 7)) (Opnd.dec (wBits w 36 7)) (Opnd.dec (wBits w 29 7)) t ⟨wBits w 7 3, wBit w 6⟩)
  | 4 => (Ty.dec (wBits w 10 4)).bind fun t => some (.vmax (wSched w) (Opnd.dec (wBits w 43 7)) (Opnd.dec (wBits w 36 7)) (Opnd.dec (wBits w 29 7)) t ⟨wBits w 7 3, wBit w 6⟩)
  | 5 => (Ty.dec (wBits w 10 4)).bind fun t => some (.vabs (wSched w) (Opnd.dec (wBits w 43 7)) (Opnd.dec (wBits w 36 7)) t ⟨wBits w 7 3, wBit w 6⟩)
  | 6 => (Ty.dec (wBits w 10 4)).bind fun t => some (.vand (wSched w) (Opnd.dec (wBits w 43 7)) (Opnd.dec (wBits w 36 7)) (Opnd.dec (wBits w 29 7)) t ⟨wBits w 7 3, wBit w 6⟩)
  | 7 => (Ty.dec (wBits w 10 4)).bind fun t => some (.vor (wSched w) (Opnd.dec (wBits w 43 7)) (Opnd.dec (wBits w 36 7)) (Opnd.dec (wBits w 29 7)) t ⟨wBits w 7 3, wBit w 6⟩)
  | 8 => (Ty.dec (wBits w 10 4)).bind fun t => some (.vxor (wSched w) (Opnd.dec (wBits w 43 7)) (Opnd.dec (wBits w 36 7)) (Opnd.dec (wBits w 29 7)) t ⟨wBits w 7 3, wBit w 6⟩)
  | 9 => (Ty.dec (wBits w 10 4)).bind fun t => some (.vshl (wSched w) (Opnd.dec (wBits w 43 7)) (Opnd.dec (wBits w 36 7)) (Opnd.dec (wBits w 29 7)) t ⟨wBits w 7 3, wBit w 6⟩)
  | 10 => (Ty.dec (wBits w 10 4)).bind fun t => some (.vshr (wSched w) (Opnd.dec (wBits w 43 7)) (Opnd.dec (wBits w 36 7)) (Opnd.dec (wBits w 29 7)) t ⟨wBits w 7 3, wBit w 6⟩)
  | 11 => (Ty.dec (wBits w 10 4)).bind fun t => some (.vsra (wSched w) (Opnd.dec (wBits w 43 7)) (Opnd.dec (wBits w 36 7)) (Opnd.dec (wBits w 29 7)) t ⟨wBits w 7 3, wBit w 6⟩)
  | 12 => (Ty.dec (wBits w 10 4)).bind fun t => some (.vadds (wSched w) (Opnd.dec (wBits w 43 7)) (Opnd.dec (wBits w 36 7)) (Opnd.dec (wBits w 29 7)) t ⟨wBits w 7 3, wBit w 6⟩)
  | 13 => (Ty.dec (wBits w 10 4)).bind fun t => some (.vsubs (wSched w) (Opnd.dec (wBits w 43 7)) (Opnd.dec (wBits w 36 7)) (Opnd.dec (wBits w 29 7)) t ⟨wBits w 7 3, wBit w 6⟩)
  | 14 => (Ty.dec (wBits w 10 4)).bind fun t => some (.vcmpeq (wSched w) (Opnd.dec (wBits w 43 7)) (Opnd.dec (wBits w 36 7)) (Opnd.dec (wBits w 29 7)) t ⟨wBits w 7 3, wBit w 6⟩)
  | 15 => (Ty.dec (wBits w 10 4)).bind fun t => some (.vcmplt (wSched w) (Opnd.dec (wBits w 43 7)) (Opnd.dec (wBits w 36 7)) (Opnd.dec (wBits w 29 7)) t ⟨wBits w 7 3, wBit w 6⟩)
  | 16 => (Ty.dec (wBits w 10 4)).bind fun t => some (.vcmple (wSched w) (Opnd.dec (wBits w 43 7)) (Opnd.dec (wBits w 36 7)) (Opnd.dec (wBits w 29 7)) t ⟨wBits w 7 3, wBit w 6⟩)
  | _ => none

/-- VFP (major 0xb): the instruction each function number names, fields not yet checked. -/
def candVfp (fn : Nat) (w : DWord) : Option Instr :=
  match fn with
  | 0 => (Ty.dec (wBits w 10 4)).bind fun t => some (.vfadd (wSched w) (Opnd.dec (wBits w 43 7)) (Opnd.dec (wBits w 36 7)) (Opnd.dec (wBits w 29 7)) t ⟨wBits w 7 3, wBit w 6⟩ (Rnd.dec (wBits w 0 3)))
  | 1 => (Ty.dec (wBits w 10 4)).bind fun t => some (.vfsub (wSched w) (Opnd.dec (wBits w 43 7)) (Opnd.dec (wBits w 36 7)) (Opnd.dec (wBits w 29 7)) t ⟨wBits w 7 3, wBit w 6⟩ (Rnd.dec (wBits w 0 3)))
  | 2 => (Ty.dec (wBits w 10 4)).bind fun t => some (.vfmul (wSched w) (Opnd.dec (wBits w 43 7)) (Opnd.dec (wBits w 36 7)) (Opnd.dec (wBits w 29 7)) t ⟨wBits w 7 3, wBit w 6⟩ (Rnd.dec (wBits w 0 3)))
  | 3 => (Ty.dec (wBits w 10 4)).bind fun t => some (.vfma (wSched w) (Opnd.dec (wBits w 43 7)) (Opnd.dec (wBits w 36 7)) (Opnd.dec (wBits w 29 7)) (Opnd.dec (wBits w 22 7)) t ⟨wBits w 7 3, wBit w 6⟩ (Rnd.dec (wBits w 0 3)))
  | 4 => (Ty.dec (wBits w 10 4)).bind fun t => some (.vfms (wSched w) (Opnd.dec (wBits w 43 7)) (Opnd.dec (wBits w 36 7)) (Opnd.dec (wBits w 29 7)) (Opnd.dec (wBits w 22 7)) t ⟨wBits w 7 3, wBit w 6⟩ (Rnd.dec (wBits w 0 3)))
  | 5 => (Ty.dec (wBits w 10 4)).bind fun t => some (.vfmin (wSched w) (Opnd.dec (wBits w 43 7)) (Opnd.dec (wBits w 36 7)) (Opnd.dec (wBits w 29 7)) t ⟨wBits w 7 3, wBit w 6⟩)
  | 6 => (Ty.dec (wBits w 10 4)).bind fun t => some (.vfmax (wSched w) (Opnd.dec (wBits w 43 7)) (Opnd.dec (wBits w 36 7)) (Opnd.dec (wBits w 29 7)) t ⟨wBits w 7 3, wBit w 6⟩)
  | 7 => (Ty.dec (wBits w 10 4)).bind fun t => some (.vfabs (wSched w) (Opnd.dec (wBits w 43 7)) (Opnd.dec (wBits w 36 7)) t ⟨wBits w 7 3, wBit w 6⟩)
  | 8 => (Ty.dec (wBits w 10 4)).bind fun t => some (.vfneg (wSched w) (Opnd.dec (wBits w 43 7)) (Opnd.dec (wBits w 36 7)) t ⟨wBits w 7 3, wBit w 6⟩)
  | 9 => (Ty.dec (wBits w 10 4)).bind fun t => some (.vfcmpeq (wSched w) (Opnd.dec (wBits w 43 7)) (Opnd.dec (wBits w 36 7)) (Opnd.dec (wBits w 29 7)) t ⟨wBits w 7 3, wBit w 6⟩)
  | 10 => (Ty.dec (wBits w 10 4)).bind fun t => some (.vfcmplt (wSched w) (Opnd.dec (wBits w 43 7)) (Opnd.dec (wBits w 36 7)) (Opnd.dec (wBits w 29 7)) t ⟨wBits w 7 3, wBit w 6⟩)
  | 11 => (Ty.dec (wBits w 10 4)).bind fun t => some (.vfcmple (wSched w) (Opnd.dec (wBits w 43 7)) (Opnd.dec (wBits w 36 7)) (Opnd.dec (wBits w 29 7)) t ⟨wBits w 7 3, wBit w 6⟩)
  | 12 => (Ty.dec (wBits w 10 4)).bind fun t => some (.vfcmpun (wSched w) (Opnd.dec (wBits w 43 7)) (Opnd.dec (wBits w 36 7)) (Opnd.dec (wBits w 29 7)) t ⟨wBits w 7 3, wBit w 6⟩)
  | _ => none

/-- VSPC (major 0xc): the instruction each function number names, fields not yet checked. -/
def candVspc (fn : Nat) (w : DWord) : Option Instr :=
  match fn with
  | 0 => (Ty.dec (wBits w 10 4)).bind fun t => some (.vrcp (wSched w) (Opnd.dec (wBits w 43 7)) (Opnd.dec (wBits w 36 7)) t ⟨wBits w 7 3, wBit w 6⟩ (Rnd.dec (wBits w 0 3)))
  | 1 => (Ty.dec (wBits w 10 4)).bind fun t => some (.vrsqrt (wSched w) (Opnd.dec (wBits w 43 7)) (Opnd.dec (wBits w 36 7)) t ⟨wBits w 7 3, wBit w 6⟩ (Rnd.dec (wBits w 0 3)))
  | 2 => (Ty.dec (wBits w 10 4)).bind fun t => some (.vsqrt (wSched w) (Opnd.dec (wBits w 43 7)) (Opnd.dec (wBits w 36 7)) t ⟨wBits w 7 3, wBit w 6⟩ (Rnd.dec (wBits w 0 3)))
  | 3 => (Ty.dec (wBits w 10 4)).bind fun t => some (.vexp2 (wSched w) (Opnd.dec (wBits w 43 7)) (Opnd.dec (wBits w 36 7)) t ⟨wBits w 7 3, wBit w 6⟩ (Rnd.dec (wBits w 0 3)))
  | 4 => (Ty.dec (wBits w 10 4)).bind fun t => some (.vlog2 (wSched w) (Opnd.dec (wBits w 43 7)) (Opnd.dec (wBits w 36 7)) t ⟨wBits w 7 3, wBit w 6⟩ (Rnd.dec (wBits w 0 3)))
  | 5 => (Ty.dec (wBits w 10 4)).bind fun t => some (.vdiv (wSched w) (Opnd.dec (wBits w 43 7)) (Opnd.dec (wBits w 36 7)) (Opnd.dec (wBits w 29 7)) t ⟨wBits w 7 3, wBit w 6⟩ (Rnd.dec (wBits w 0 3)))
  | 6 => (Ty.dec (wBits w 10 4)).bind fun t => some (.vrope (wSched w) (Opnd.dec (wBits w 43 7)) (Opnd.dec (wBits w 36 7)) (Opnd.dec (wBits w 29 7)) (Opnd.dec (wBits w 22 7)) t ⟨wBits w 7 3, wBit w 6⟩ (Rnd.dec (wBits w 0 3)) (wBits w 3 3))
  | 7 => some (.vrng (wSched w) (Opnd.dec (wBits w 43 7)) (Opnd.dec (wBits w 36 7)) ⟨wBits w 7 3, wBit w 6⟩)
  | _ => none

/-- VCVT (major 0xd): the instruction each function number names, fields not yet checked. -/
def candVcvt (fn : Nat) (w : DWord) : Option Instr :=
  match fn with
  | 0 => (Ty.dec (wBits w 10 4)).bind fun t => some (.vcvt (wSched w) (Opnd.dec (wBits w 43 7)) (Opnd.dec (wBits w 36 7)) t (CvtSrc.dec (wBits w 3 3)) ⟨wBits w 7 3, wBit w 6⟩ (Rnd.dec (wBits w 0 3)))
  | 1 => (Ty.dec (wBits w 10 4)).bind fun t => some (.vpack (wSched w) (Opnd.dec (wBits w 43 7)) (Opnd.dec (wBits w 36 7)) (Opnd.dec (wBits w 22 7)) t (wBits w 3 2))
  | 2 => (Ty.dec (wBits w 10 4)).bind fun t => some (.vunpk (wSched w) (Opnd.dec (wBits w 43 7)) (Opnd.dec (wBits w 36 7)) t (wBits w 3 2) ⟨wBits w 7 3, wBit w 6⟩)
  | 3 => some (.vpk6 (wSched w) (Opnd.dec (wBits w 43 7)) (Opnd.dec (wBits w 36 7)) (Opnd.dec (wBits w 22 7)) (wBit w 5) (wBits w 0 4))
  | 4 => some (.vupk6 (wSched w) (Opnd.dec (wBits w 43 7)) (Opnd.dec (wBits w 36 7)) (Opnd.dec (wBits w 29 7)) (wBits w 0 3) (wBit w 3) ⟨wBits w 7 3, wBit w 6⟩)
  | 5 => (Ty.dec (wBits w 10 4)).bind fun t => some (.vtrit (wSched w) (Opnd.dec (wBits w 43 7)) (Opnd.dec (wBits w 36 7)) t (wBits w 0 5) ⟨wBits w 7 3, wBit w 6⟩)
  | 6 => some (.vtritp (wSched w) (Opnd.dec (wBits w 43 7)) (Opnd.dec (wBits w 36 7)) (Opnd.dec (wBits w 22 7)) (wBits w 0 5))
  | _ => none

/-- VLANE (major 0xe): the instruction each function number names, fields not yet checked. -/
def candVlane (fn : Nat) (w : DWord) : Option Instr :=
  match fn with
  | 0 => some (.vbcast (wSched w) (Opnd.dec (wBits w 43 7)) (Opnd.dec (wBits w 36 7)) ⟨wBits w 7 3, wBit w 6⟩)
  | 1 => some (.vext (wSched w) (Opnd.dec (wBits w 43 7)) (Opnd.dec (wBits w 36 7)) (Opnd.dec (wBits w 29 7)))
  | 2 => some (.vins (wSched w) (Opnd.dec (wBits w 43 7)) (Opnd.dec (wBits w 36 7)) (Opnd.dec (wBits w 29 7)) (Opnd.dec (wBits w 22 7)))
  | 3 => some (.vperm (wSched w) (Opnd.dec (wBits w 43 7)) (Opnd.dec (wBits w 36 7)) (Opnd.dec (wBits w 29 7)) (Opnd.dec (wBits w 22 7)) ⟨wBits w 7 3, wBit w 6⟩)
  | 4 => (Ty.dec (wBits w 10 4)).bind fun t => (RedOp.dec (wBits w 3 3)).bind fun op => some (.vred (wSched w) (Opnd.dec (wBits w 43 7)) (Opnd.dec (wBits w 36 7)) t op ⟨wBits w 7 3, wBit w 6⟩ (Rnd.dec (wBits w 0 3)))
  | 5 => (Ty.dec (wBits w 10 4)).bind fun t => (RedOp.dec (wBits w 3 3)).bind fun op => some (.vscan (wSched w) (Opnd.dec (wBits w 43 7)) (Opnd.dec (wBits w 36 7)) t op ⟨wBits w 7 3, wBit w 6⟩ (Rnd.dec (wBits w 0 3)))
  | 6 => (Ty.dec (wBits w 10 4)).bind fun t => some (.vsortk (wSched w) (Opnd.dec (wBits w 43 7)) (Opnd.dec (wBits w 36 7)) (Opnd.dec (wBits w 29 7)) t (wBit w 3) ⟨wBits w 7 3, wBit w 6⟩)
  | 7 => some (.vcompress (wSched w) (Opnd.dec (wBits w 43 7)) (Opnd.dec (wBits w 36 7)) ⟨wBits w 7 3, wBit w 6⟩)
  | _ => none

/-- MASK (major 0xf): the instruction each function number names, fields not yet checked. -/
def candMask (fn : Nat) (w : DWord) : Option Instr :=
  match fn with
  | 0 => some (.mand (wBits w 43 3) (wBits w 36 3) (wBits w 29 3))
  | 1 => some (.mor (wBits w 43 3) (wBits w 36 3) (wBits w 29 3))
  | 2 => some (.mxor (wBits w 43 3) (wBits w 36 3) (wBits w 29 3))
  | 3 => some (.mnot (wBits w 43 3) (wBits w 36 3))
  | 4 => some (.mset (wBits w 43 3) (Opnd.dec (wBits w 29 7)))
  | 5 => some (.mget (wSched w) (Opnd.dec (wBits w 43 7)) (wBits w 36 3))
  | 6 => some (.mpop (wBits w 43 3) (wBits w 36 3))
  | 7 => some (.mfirst (wBits w 43 3) (wBits w 36 3))
  | 8 => some (.mbit (wBits w 43 3) (wBits w 36 3) (wBits w 0 4) (wBit w 4))
  | _ => none

/-- VMEM (major 0x10): the instruction each function number names, fields not yet checked. -/
def candVmem (fn : Nat) (w : DWord) : Option Instr :=
  match fn with
  | 0 => (VSize.dec (wBits w 32 3)).bind fun sz => some (.vld (wSched w) (Opnd.dec (wBits w 43 7)) (wBits w 39 4) sz (wBits w 24 3) (wBits w 0 24))
  | 1 => (VSize.dec (wBits w 32 3)).bind fun sz => some (.vst (Opnd.dec (wBits w 43 7)) (wBits w 39 4) sz (wBits w 24 3) (wBits w 0 24))
  | 2 => (VSize.dec (wBits w 32 3)).bind fun sz => some (.vldg (wSched w) (Opnd.dec (wBits w 43 7)) (wBits w 39 4) sz (wBits w 24 3) (Opnd.dec (wBits w 0 7)) (wBits w 7 17))
  | 3 => (VSize.dec (wBits w 32 3)).bind fun sz => some (.vsts (Opnd.dec (wBits w 43 7)) (wBits w 39 4) sz (wBits w 24 3) (Opnd.dec (wBits w 0 7)) (wBits w 7 17))
  | _ => none

/-- STRM (major 0x11): the instruction each function number names, fields not yet checked. -/
def candStrm (fn : Nat) (w : DWord) : Option Instr :=
  match fn with
  | 0 => some (.stcfg (wBits w 20 4) (wBits w 39 4) (wBits w 0 20))
  | 1 => some (.stadv (wBits w 20 4) (Opnd.dec (wBits w 32 7)))
  | 2 => some (.ststat (wSched w) (Opnd.dec (wBits w 43 7)) (wBits w 20 4))
  | 3 => some (.stcut (wBits w 20 4))
  | _ => none

/-- MTX (major 0x12): the instruction each function number names, fields not yet checked. -/
def candMtx (fn : Nat) (w : DWord) : Option Instr :=
  match fn with
  | 0 => (Ty.dec (wBits w 14 4)).bind fun t => some (.mma (wBits w 46 2) (wBits w 42 4) (wBits w 38 4) t (wBit w 13) (wBit w 12) (wBits w 0 6))
  | 1 => some (.tmm (wBits w 46 2) (wBits w 42 4) (wBits w 38 4) (wBit w 13) (wBit w 12) (wBits w 0 6))
  | 2 => (tyI32Dec (wBits w 14 4)).bind fun i32 => some (.acfg (wBits w 46 2) i32 (wBits w 7 7) (wBits w 0 7) (wBit w 42))
  | 3 => (tyI32Dec (wBits w 14 4)).bind fun i32 => some (.aczero (wBits w 46 2) i32)
  | 4 => (Ty.dec (wBits w 14 4)).bind fun t => some (.acdrain (wBits w 46 2) (wBits w 42 4) (wBits w 38 4) (wBits w 34 4) t (wBit w 13) (wBit w 12) (wBit w 11) (Rnd.dec (wBits w 0 3)))
  | 5 => (tyI32Dec (wBits w 14 4)).bind fun i32 => some (.acload (wBits w 46 2) (wBits w 42 4) i32)
  | 6 => (Ty.dec (wBits w 14 4)).bind fun t => some (.tmmt (wBits w 46 2) (wBits w 42 4) (wBits w 38 4) t (wBits w 0 6))
  | 7 => (Ty.dec (wBits w 14 4)).bind fun t => some (.tmmw (wBits w 46 2) (wBits w 42 4) (wBits w 38 4) t (wBits w 0 6))
  | _ => none

/-- TILE (major 0x13): the instruction each function number names, fields not yet checked. -/
def candTile (fn : Nat) (w : DWord) : Option Instr :=
  match fn with
  | 0 => (Ty.dec (wBits w 14 4)).bind fun t => some (.tadd (wBits w 46 2) (wBits w 42 4) t (wBits w 4 2))
  | 1 => (Ty.dec (wBits w 14 4)).bind fun t => some (.tmul (wBits w 46 2) (wBits w 42 4) t (wBits w 4 2))
  | 2 => some (.tact (wBits w 46 2) (wBits w 0 4))
  | 3 => (Ty.dec (wBits w 14 4)).bind fun t => some (.tactd (wBits w 46 2) (wBits w 42 4) t (wBits w 0 4))
  | 4 => (Ty.dec (wBits w 14 4)).bind fun t => some (.trms (wBits w 46 2) (wBits w 34 4) t (wBits w 0 8))
  | 5 => (Ty.dec (wBits w 14 4)).bind fun t => some (.trmsd (wBits w 46 2) (wBits w 42 4) (wBits w 34 4) t (wBits w 0 8))
  | 6 => some (.tsmax (wBits w 46 2) (wBits w 34 4) (wBit w 0))
  | 7 => (Ty.dec (wBits w 14 4)).bind fun t => some (.tsmaxd (wBits w 46 2) (wBits w 42 4) t)
  | 8 => (Ty.dec (wBits w 14 4)).bind fun t => some (.tscale (wBits w 46 2) (wBits w 42 4) t)
  | _ => none

/-- VOC (major 0x14): the instruction each function number names, fields not yet checked. -/
def candVoc (fn : Nat) (w : DWord) : Option Instr :=
  match fn with
  | 0 => (Ty.dec (wBits w 14 4)).bind fun t => some (.vproj (wBits w 46 2) (wBits w 42 4) (wBits w 38 4) t (wBit w 13) (wBit w 12) (wBits w 0 6))
  | 1 => some (.vmerge (wBits w 42 4) (wBits w 38 4) (wBits w 34 4) (wBits w 0 7))
  | 2 => (Ty.dec (wBits w 14 4)).bind fun t => some (.vprojd (wBits w 46 2) (wBits w 42 4) (wBits w 38 4) (wBits w 34 4) t (wBits w 10 4) (wBit w 9) (wBits w 0 6))
  | _ => none

/-- ATT (major 0x15): the instruction each function number names, fields not yet checked. -/
def candAtt (fn : Nat) (w : DWord) : Option Instr :=
  match fn with
  | 0 => some (.attn (Opnd.dec (wBits w 43 7)) (wBits w 39 4) (wBits w 0 23))
  | 1 => some (.attnd (Opnd.dec (wBits w 43 7)) (wBits w 39 4) (Opnd.dec (wBits w 32 7)) (wBits w 0 23))
  | _ => none

/-- OPEN (major 0x16): the instruction each function number names, fields not yet checked. -/
def candOpen (fn : Nat) (w : DWord) : Option Instr :=
  match fn with
  | 0 => some (.otcfg (Opnd.dec (wBits w 43 7)) (wBits w 18 6) (wBits w 39 4) (wBits w 0 18))
  | 1 => if (wImm24 w 0) then some (.extendC (Opnd.dec (wBits w 43 7)) (wBits w 18 6) (Opnd.dec (wBits w 32 7))) else some (.extend (Opnd.dec (wBits w 43 7)) (wBits w 18 6) (Opnd.dec (wBits w 32 7)))
  | 2 => if (wImm24 w 0) then some (.revokeAt (Opnd.dec (wBits w 43 7)) (Opnd.dec (wBits w 32 7)) (wBits w 39 4)) else some (.revoke (Opnd.dec (wBits w 43 7)) (Opnd.dec (wBits w 32 7)))
  | 3 => some (.rlresume (Opnd.dec (wBits w 43 7)) (Opnd.dec (wBits w 32 7)))
  | 4 => some (.rlstat (Opnd.dec (wBits w 43 7)) (Opnd.dec (wBits w 32 7)))
  | 5 => some (.omap (Opnd.dec (wBits w 43 7)) (wBits w 39 4) (wBits w 0 23) (Opnd.dec (wBits w 32 7)))
  | _ => none

/-- REC (major 0x17): the instruction each function number names, fields not yet checked. -/
def candRec (fn : Nat) (w : DWord) : Option Instr :=
  match fn with
  | 0 => some (.recbeg (Opnd.dec (wBits w 43 7)) (wBits w 39 4) (wBits w 0 24))
  | 1 => some (.recend (Opnd.dec (wBits w 43 7)))
  | 2 => some (.reverse (Opnd.dec (wBits w 43 7)) (wBits w 39 4) (wBits w 0 24) (Opnd.dec (wBits w 32 7)))
  | 3 => some (.recflag (Opnd.dec (wBits w 43 7)) (Opnd.dec (wBits w 32 7)))
  | _ => none

/-- COPY (major 0x18): the instruction each function number names, fields not yet checked. -/
def candCopy (fn : Nat) (w : DWord) : Option Instr :=
  match fn with
  | 0 => some (.cpy (Opnd.dec (wBits w 43 7)) (wBits w 39 4) (wBits w 0 23))
  | 1 => some (.cpyg (Opnd.dec (wBits w 43 7)) (wBits w 39 4) (wBits w 0 23))
  | 2 => some (.cpys (Opnd.dec (wBits w 43 7)) (wBits w 39 4) (wBits w 0 23))
  | 3 => some (.cpymc (Opnd.dec (wBits w 43 7)) (wBits w 39 4) (wBits w 0 23))
  | 4 => some (.cpred (Opnd.dec (wBits w 43 7)) (wBits w 39 4) (wBits w 0 23))
  | 5 => some (.cpwait (Opnd.dec (wBits w 43 7)) (wBits w 0 2) (Opnd.dec (wBits w 32 7)))
  | 6 => some (.cpdone (Opnd.dec (wBits w 43 7)) (wBits w 0 2) (Opnd.dec (wBits w 32 7)))
  | _ => none

/-- XQ (major 0x19): the instruction each function number names, fields not yet checked. -/
def candXq (fn : Nat) (w : DWord) : Option Instr :=
  match fn with
  | 0 => some (.qput (wBits w 0 2) (wBits w 2 2) (wBit w 4) (Opnd.dec (wBits w 36 7)))
  | 1 => some (.qget (wSched w) (Opnd.dec (wBits w 43 7)) (wBits w 0 2))
  | 2 => some (.bqput (wBits w 2 2) (wBit w 4) (Opnd.dec (wBits w 36 7)))
  | 3 => some (.qlvl (wSched w) (Opnd.dec (wBits w 43 7)) (wBits w 0 2) (wBit w 2))
  | _ => none

/-- SCHED (major 0x1a): the instruction each function number names, fields not yet checked. -/
def candSched (fn : Nat) (w : DWord) : Option Instr :=
  match fn with
  | 0 => some (.spawn (Opnd.dec (wBits w 43 7)) (wBits w 39 4) (wBits w 0 24) (Opnd.dec (wBits w 32 7)))
  | 1 => some (.join (Opnd.dec (wBits w 43 7)) (wBits w 39 4) (wBits w 0 24))
  | 2 => some (.launch (Opnd.dec (wBits w 43 7)) (wBits w 39 4) (wBits w 0 24) (Opnd.dec (wBits w 32 7)))
  | 3 => some (.yield (Opnd.dec (wBits w 32 7)))
  | 4 => some .slend
  | 5 => some (.unpark (Opnd.dec (wBits w 43 7)) (wBits w 39 4) (wBits w 0 24))
  | _ => none

/-- EVT (major 0x1b): the instruction each function number names, fields not yet checked. -/
def candEvt (fn : Nat) (w : DWord) : Option Instr :=
  match fn with
  | 0 => if (wAux w 0) then some (.evsetErr (Opnd.dec (wBits w 36 7))) else some (.evset (Opnd.dec (wBits w 36 7)))
  | 1 => some (.evclr (Opnd.dec (wBits w 36 7)))
  | 2 => some (.evwait (wSched w) (Opnd.dec (wBits w 43 7)) (Opnd.dec (wBits w 36 7)))
  | 3 => some (.evtest (wSched w) (Opnd.dec (wBits w 43 7)) (Opnd.dec (wBits w 36 7)))
  | 4 => some .bar
  | 5 => some .barG
  | _ => none

/-- PQ (major 0x1c): the instruction each function number names, fields not yet checked. -/
def candPq (fn : Nat) (w : DWord) : Option Instr :=
  match fn with
  | 0 => some (.pqpush (wSched w) (Opnd.dec (wBits w 43 7)) (Opnd.dec (wBits w 29 7)) (Opnd.dec (wBits w 22 7)) (wBits w 0 3))
  | 1 => some (.pqpop (wSched w) (Opnd.dec (wBits w 43 7)) (wBits w 0 3))
  | 2 => some (.pqlen (wSched w) (Opnd.dec (wBits w 43 7)) (wBits w 0 3))
  | _ => none

/-- SPR (major 0x1d): the instruction each function number names, fields not yet checked. -/
def candSpr (fn : Nat) (w : DWord) : Option Instr :=
  match fn with
  | 0 => some (.rdsr (wSched w) (Opnd.dec (wBits w 43 7)) (wBits w 0 8))
  | 1 => some (.wrsr (Opnd.dec (wBits w 36 7)) (wBits w 0 8))
  | 2 => some (.clrf (wBits w 0 7))
  | _ => none

/-- KV (major 0x1e): the instruction each function number names, fields not yet checked. -/
def candKv (fn : Nat) (w : DWord) : Option Instr :=
  match fn with
  | 0 => some (.kvxl (wSched w) (Opnd.dec (wBits w 43 7)) (wBits w 39 4) (wBits w 0 24) (Opnd.dec (wBits w 32 7)))
  | 1 => some (.kvfork (wSched w) (Opnd.dec (wBits w 43 7)) (wBits w 39 4) (wBits w 0 24) (Opnd.dec (wBits w 32 7)))
  | 2 => some (.kvgrow (wSched w) (Opnd.dec (wBits w 43 7)) (wBits w 39 4) (wBits w 0 24) (Opnd.dec (wBits w 32 7)))
  | 3 => some (.kvcommit (wSched w) (Opnd.dec (wBits w 43 7)) (wBits w 39 4) (wBits w 0 24) (Opnd.dec (wBits w 32 7)))
  | _ => none

/-- The low 60 bits of a standing form's word (R44, R45, R210). -/
def Stand.body : Stand → BitVec 60
  | .mma ac sa sb ot t ta tb kc => fT 0#4 18#6 (0#2 ++ ac) sa sb 0#4 ot 1#1 0#1 0#8 t.enc (BitVec.ofBool ta ++ BitVec.ofBool tb ++ 0#6 ++ kc)
  | .tmm ac sa sb ot ta tb kc => fT 0#4 18#6 (0#2 ++ ac) sa sb 0#4 ot 1#1 0#1 1#8 12#4 (BitVec.ofBool ta ++ BitVec.ofBool tb ++ 0#6 ++ kc)
  | .tadd ac sa ot t b => fT 0#4 19#6 (0#2 ++ ac) sa 0#4 0#4 ot 1#1 0#1 0#8 t.enc (0#8 ++ b ++ 0#4)
  | .tmul ac sa ot t b => fT 0#4 19#6 (0#2 ++ ac) sa 0#4 0#4 ot 1#1 0#1 1#8 t.enc (0#8 ++ b ++ 0#4)
  | .tact ac ot f => fT 0#4 19#6 (0#2 ++ ac) 0#4 0#4 0#4 ot 1#1 0#1 2#8 6#4 (0#10 ++ f)
  | .tactd ac sa ot t f => fT 0#4 19#6 (0#2 ++ ac) sa 0#4 0#4 ot 1#1 0#1 3#8 t.enc (0#10 ++ f)
  | .trms ac sx ot t e => fT 0#4 19#6 (0#2 ++ ac) 0#4 0#4 sx ot 1#1 0#1 4#8 t.enc (0#6 ++ e)
  | .trmsd ac sa sx ot t e => fT 0#4 19#6 (0#2 ++ ac) sa 0#4 sx ot 1#1 0#1 5#8 t.enc (0#6 ++ e)
  | .tsmax ac sx ot norm => fT 0#4 19#6 (0#2 ++ ac) 0#4 0#4 sx ot 1#1 0#1 6#8 6#4 (0#13 ++ BitVec.ofBool norm)
  | .tsmaxd ac sa ot t => fT 0#4 19#6 (0#2 ++ ac) sa 0#4 0#4 ot 1#1 0#1 7#8 t.enc 0#14
  | .tscale ac sa ot t => fT 0#4 19#6 (0#2 ++ ac) sa 0#4 0#4 ot 1#1 0#1 8#8 t.enc 0#14
  | .vproj ac sa sb ot t ta tb kc => fT 0#4 20#6 (0#2 ++ ac) sa sb 0#4 ot 1#1 0#1 0#8 t.enc (BitVec.ofBool ta ++ BitVec.ofBool tb ++ 0#6 ++ kc)
  | .attn d bp a off => fQ 0#4 21#6 d.enc bp a.enc 0#8 (1#1 ++ off)
  | .omap d bp off => fQ 0#4 22#6 d.enc bp 0#7 5#8 (1#1 ++ off)
  | .cpy d bp a off => fQ 0#4 24#6 d.enc bp a.enc 0#8 (1#1 ++ off)

/-- The low 60 bits of an instruction's word (R35 to R45, R51, R52); `none` for an event. -/
def Instr.body : Instr → Option (BitVec 60)
  | .nop => some (fA 0#4 0#6 0#7 0#7 0#7 0#7 0#8 0#4 0#3 0#1 0#6)
  | .brk n => some (fA 0#4 0#6 0#7 0#7 0#7 0#7 1#8 0#4 0#3 0#1 n)
  | .trap n => some (fA 0#4 0#6 0#7 0#7 0#7 0#7 2#8 0#4 0#3 0#1 n)
  | .tfence => some (fA 0#4 0#6 0#7 0#7 0#7 0#7 3#8 0#4 0#3 0#1 0#6)
  | .sret => some (fA 0#4 0#6 0#7 0#7 0#7 0#7 4#8 0#4 0#3 0#1 0#6)
  | .tlbinv a b scope => some (fA 0#4 0#6 0#7 a.enc b.enc 0#7 5#8 0#4 0#3 0#1 (0#4 ++ scope))
  | .halt => some (fA 0#4 0#6 0#7 0#7 0#7 0#7 6#8 0#4 0#3 0#1 0#6)
  | .add s d a b => some (fA s.c 1#6 d.enc a.enc b.enc 0#7 0#8 0#4 0#3 0#1 0#6)
  | .sub s d a b => some (fA s.c 1#6 d.enc a.enc b.enc 0#7 1#8 0#4 0#3 0#1 0#6)
  | .mul s d a b => some (fA s.c 1#6 d.enc a.enc b.enc 0#7 2#8 0#4 0#3 0#1 0#6)
  | .mulh s d a b nat => some (fA s.c 1#6 d.enc a.enc b.enc 0#7 3#8 (0#3 ++ BitVec.ofBool nat) 0#3 0#1 0#6)
  | .div s d a b => some (fA s.c 1#6 d.enc a.enc b.enc 0#7 4#8 0#4 0#3 0#1 0#6)
  | .divn s d a b => some (fA s.c 1#6 d.enc a.enc b.enc 0#7 5#8 0#4 0#3 0#1 0#6)
  | .rem s d a b => some (fA s.c 1#6 d.enc a.enc b.enc 0#7 6#8 0#4 0#3 0#1 0#6)
  | .remn s d a b => some (fA s.c 1#6 d.enc a.enc b.enc 0#7 7#8 0#4 0#3 0#1 0#6)
  | .and s d a b => some (fA s.c 1#6 d.enc a.enc b.enc 0#7 8#8 0#4 0#3 0#1 0#6)
  | .or s d a b => some (fA s.c 1#6 d.enc a.enc b.enc 0#7 9#8 0#4 0#3 0#1 0#6)
  | .xor s d a b => some (fA s.c 1#6 d.enc a.enc b.enc 0#7 10#8 0#4 0#3 0#1 0#6)
  | .shl s d a b => some (fA s.c 1#6 d.enc a.enc b.enc 0#7 11#8 0#4 0#3 0#1 0#6)
  | .shr s d a b => some (fA s.c 1#6 d.enc a.enc b.enc 0#7 12#8 0#4 0#3 0#1 0#6)
  | .sra s d a b => some (fA s.c 1#6 d.enc a.enc b.enc 0#7 13#8 0#4 0#3 0#1 0#6)
  | .min s d a b => some (fA s.c 1#6 d.enc a.enc b.enc 0#7 14#8 0#4 0#3 0#1 0#6)
  | .max s d a b => some (fA s.c 1#6 d.enc a.enc b.enc 0#7 15#8 0#4 0#3 0#1 0#6)
  | .minn s d a b => some (fA s.c 1#6 d.enc a.enc b.enc 0#7 16#8 0#4 0#3 0#1 0#6)
  | .maxn s d a b => some (fA s.c 1#6 d.enc a.enc b.enc 0#7 17#8 0#4 0#3 0#1 0#6)
  | .clz s d a => some (fA s.c 1#6 d.enc a.enc 0#7 0#7 18#8 0#4 0#3 0#1 0#6)
  | .ctz s d a => some (fA s.c 1#6 d.enc a.enc 0#7 0#7 19#8 0#4 0#3 0#1 0#6)
  | .popc s d a => some (fA s.c 1#6 d.enc a.enc 0#7 0#7 20#8 0#4 0#3 0#1 0#6)
  | .seq s d a b => some (fA s.c 1#6 d.enc a.enc b.enc 0#7 21#8 0#4 0#3 0#1 0#6)
  | .sne s d a b => some (fA s.c 1#6 d.enc a.enc b.enc 0#7 22#8 0#4 0#3 0#1 0#6)
  | .slt s d a b => some (fA s.c 1#6 d.enc a.enc b.enc 0#7 23#8 0#4 0#3 0#1 0#6)
  | .sltn s d a b => some (fA s.c 1#6 d.enc a.enc b.enc 0#7 24#8 0#4 0#3 0#1 0#6)
  | .sel s d a b x => some (fA s.c 1#6 d.enc a.enc b.enc x.enc 25#8 0#4 0#3 0#1 0#6)
  | .bfx s d a b sx => some (fA s.c 1#6 d.enc a.enc b.enc 0#7 26#8 0#4 0#3 0#1 (0#5 ++ BitVec.ofBool sx))
  | .bfi s d a b x => some (fA s.c 1#6 d.enc a.enc b.enc x.enc 27#8 0#4 0#3 0#1 0#6)
  | .addi s d a imm => some (fI s.c 2#6 d.enc a.enc 0#4 imm)
  | .andi s d a imm => some (fI s.c 2#6 d.enc a.enc 1#4 imm)
  | .ori s d a imm => some (fI s.c 2#6 d.enc a.enc 2#4 imm)
  | .xori s d a imm => some (fI s.c 2#6 d.enc a.enc 3#4 imm)
  | .shli s d a n => some (fI s.c 2#6 d.enc a.enc 4#4 (0#27 ++ n))
  | .shri s d a n => some (fI s.c 2#6 d.enc a.enc 5#4 (0#27 ++ n))
  | .srai s d a n => some (fI s.c 2#6 d.enc a.enc 6#4 (0#27 ++ n))
  | .movi s d imm => some (fI s.c 2#6 d.enc 0#7 7#4 imm)
  | .slti s d a imm => some (fI s.c 2#6 d.enc a.enc 8#4 imm)
  | .sltni s d a imm => some (fI s.c 2#6 d.enc a.enc 9#4 imm)
  | .muli s d a imm => some (fI s.c 2#6 d.enc a.enc 10#4 imm)
  | .add64 s d a b => some (fA s.c 3#6 d.enc a.enc b.enc 0#7 0#8 0#4 0#3 0#1 0#6)
  | .sub64 s d a b => some (fA s.c 3#6 d.enc a.enc b.enc 0#7 1#8 0#4 0#3 0#1 0#6)
  | .mov64 s d a => some (fA s.c 3#6 d.enc a.enc 0#7 0#7 2#8 0#4 0#3 0#1 0#6)
  | .shl64 s d a b => some (fA s.c 3#6 d.enc a.enc b.enc 0#7 3#8 0#4 0#3 0#1 0#6)
  | .slt64n s d a b => some (fA s.c 3#6 d.enc a.enc b.enc 0#7 4#8 0#4 0#3 0#1 0#6)
  | .addi64 s d a imm => some (fI s.c 4#6 d.enc a.enc 0#4 imm)
  | .movi64 s d imm => some (fI s.c 4#6 d.enc 0#7 1#4 imm)
  | .sethi s d a imm => some (fI s.c 4#6 d.enc a.enc 2#4 imm)
  | .br h disp => some (fB 0#4 5#6 0#7 0#3 0#6 h disp)
  | .bz p h disp => some (fB 0#4 5#6 p.enc 1#3 0#6 h disp)
  | .bnz p h disp => some (fB 0#4 5#6 p.enc 2#3 0#6 h disp)
  | .call s p h disp => some (fB s.c 5#6 p.enc 3#3 0#6 h disp)
  | .ret p h => some (fB 0#4 5#6 p.enc 4#3 0#6 h 0#32)
  | .jmp p h disp => some (fB 0#4 5#6 p.enc 5#3 0#6 h disp)
  | .brq h disp => some (fB 0#4 5#6 0#7 6#3 0#6 h disp)
  | .loop p lv h disp => some (fB 0#4 6#6 p.enc 0#3 (0#1 ++ lvEnc lv) h disp)
  | .lbrk p h disp => some (fB 0#4 6#6 p.enc 1#3 0#6 h disp)
  | .ldrain h disp => some (fB 0#4 6#6 0#7 2#3 0#6 h disp)
  | .lidx s p lv h => some (fB s.c 6#6 p.enc 3#3 (0#2 ++ lv) h 0#32)
  | .ld s d bp sz sc acq off => some (fM s.c 7#6 d.enc bp 0#4 sz.enc sc.enc (0#1 ++ BitVec.ofBool acq) 0#3 off)
  | .st d bp sz sc rel off => some (fM 0#4 7#6 d.enc bp 1#4 sz.enc sc.enc (BitVec.ofBool rel ++ 0#1) 0#3 off)
  | .pref bp off => some (fM 0#4 7#6 0#7 bp 2#4 0#3 0#3 0#2 0#3 off)
  | .amoadd s d a b sc o wide => some (fA s.c 8#6 d.enc a.enc b.enc 0#7 0#8 0#4 0#3 0#1 (sc.enc ++ o.enc ++ BitVec.ofBool wide))
  | .amoswp s d a b sc o wide => some (fA s.c 8#6 d.enc a.enc b.enc 0#7 1#8 0#4 0#3 0#1 (sc.enc ++ o.enc ++ BitVec.ofBool wide))
  | .amocas s d a b x sc o wide => some (fA s.c 8#6 d.enc a.enc b.enc x.enc 2#8 0#4 0#3 0#1 (sc.enc ++ o.enc ++ BitVec.ofBool wide))
  | .amomin s d a b sc o wide => some (fA s.c 8#6 d.enc a.enc b.enc 0#7 3#8 0#4 0#3 0#1 (sc.enc ++ o.enc ++ BitVec.ofBool wide))
  | .amomax s d a b sc o wide => some (fA s.c 8#6 d.enc a.enc b.enc 0#7 4#8 0#4 0#3 0#1 (sc.enc ++ o.enc ++ BitVec.ofBool wide))
  | .amominn s d a b sc o wide => some (fA s.c 8#6 d.enc a.enc b.enc 0#7 5#8 0#4 0#3 0#1 (sc.enc ++ o.enc ++ BitVec.ofBool wide))
  | .amomaxn s d a b sc o wide => some (fA s.c 8#6 d.enc a.enc b.enc 0#7 6#8 0#4 0#3 0#1 (sc.enc ++ o.enc ++ BitVec.ofBool wide))
  | .amoand s d a b sc o wide => some (fA s.c 8#6 d.enc a.enc b.enc 0#7 7#8 0#4 0#3 0#1 (sc.enc ++ o.enc ++ BitVec.ofBool wide))
  | .amoor s d a b sc o wide => some (fA s.c 8#6 d.enc a.enc b.enc 0#7 8#8 0#4 0#3 0#1 (sc.enc ++ o.enc ++ BitVec.ofBool wide))
  | .amoxor s d a b sc o wide => some (fA s.c 8#6 d.enc a.enc b.enc 0#7 9#8 0#4 0#3 0#1 (sc.enc ++ o.enc ++ BitVec.ofBool wide))
  | .fenceM p => some (fA 0#4 9#6 0#7 0#7 0#7 0#7 0#8 0#4 0#3 0#1 (0#2 ++ p))
  | .fenceX sc a b => some (fA 0#4 9#6 0#7 a b 0#7 1#8 0#4 0#3 0#1 (sc.enc ++ 0#3))
  | .bind s d a b x => some (fA s.c 9#6 d.enc a.enc b.enc x.enc 2#8 0#4 0#3 0#1 0#6)
  | .unbind s d a b => some (fA s.c 9#6 d.enc a.enc b.enc 0#7 3#8 0#4 0#3 0#1 0#6)
  | .acqAll sc => some (fA 0#4 9#6 0#7 0#7 0#7 0#7 4#8 0#4 0#3 0#1 (sc.enc ++ 0#3))
  | .relAll sc => some (fA 0#4 9#6 0#7 0#7 0#7 0#7 5#8 0#4 0#3 0#1 (sc.enc ++ 0#3))
  | .vadd s d a b t m => some (fA s.c 10#6 d.enc a.enc b.enc 0#7 0#8 t.enc m.m (BitVec.ofBool m.inv) 0#6)
  | .vsub s d a b t m => some (fA s.c 10#6 d.enc a.enc b.enc 0#7 1#8 t.enc m.m (BitVec.ofBool m.inv) 0#6)
  | .vmul s d a b t m => some (fA s.c 10#6 d.enc a.enc b.enc 0#7 2#8 t.enc m.m (BitVec.ofBool m.inv) 0#6)
  | .vmin s d a b t m => some (fA s.c 10#6 d.enc a.enc b.enc 0#7 3#8 t.enc m.m (BitVec.ofBool m.inv) 0#6)
  | .vmax s d a b t m => some (fA s.c 10#6 d.enc a.enc b.enc 0#7 4#8 t.enc m.m (BitVec.ofBool m.inv) 0#6)
  | .vabs s d a t m => some (fA s.c 10#6 d.enc a.enc 0#7 0#7 5#8 t.enc m.m (BitVec.ofBool m.inv) 0#6)
  | .vand s d a b t m => some (fA s.c 10#6 d.enc a.enc b.enc 0#7 6#8 t.enc m.m (BitVec.ofBool m.inv) 0#6)
  | .vor s d a b t m => some (fA s.c 10#6 d.enc a.enc b.enc 0#7 7#8 t.enc m.m (BitVec.ofBool m.inv) 0#6)
  | .vxor s d a b t m => some (fA s.c 10#6 d.enc a.enc b.enc 0#7 8#8 t.enc m.m (BitVec.ofBool m.inv) 0#6)
  | .vshl s d a b t m => some (fA s.c 10#6 d.enc a.enc b.enc 0#7 9#8 t.enc m.m (BitVec.ofBool m.inv) 0#6)
  | .vshr s d a b t m => some (fA s.c 10#6 d.enc a.enc b.enc 0#7 10#8 t.enc m.m (BitVec.ofBool m.inv) 0#6)
  | .vsra s d a b t m => some (fA s.c 10#6 d.enc a.enc b.enc 0#7 11#8 t.enc m.m (BitVec.ofBool m.inv) 0#6)
  | .vadds s d a b t m => some (fA s.c 10#6 d.enc a.enc b.enc 0#7 12#8 t.enc m.m (BitVec.ofBool m.inv) 0#6)
  | .vsubs s d a b t m => some (fA s.c 10#6 d.enc a.enc b.enc 0#7 13#8 t.enc m.m (BitVec.ofBool m.inv) 0#6)
  | .vcmpeq s d a b t m => some (fA s.c 10#6 d.enc a.enc b.enc 0#7 14#8 t.enc m.m (BitVec.ofBool m.inv) 0#6)
  | .vcmplt s d a b t m => some (fA s.c 10#6 d.enc a.enc b.enc 0#7 15#8 t.enc m.m (BitVec.ofBool m.inv) 0#6)
  | .vcmple s d a b t m => some (fA s.c 10#6 d.enc a.enc b.enc 0#7 16#8 t.enc m.m (BitVec.ofBool m.inv) 0#6)
  | .vfadd s d a b t m r => some (fA s.c 11#6 d.enc a.enc b.enc 0#7 0#8 t.enc m.m (BitVec.ofBool m.inv) (0#3 ++ r.enc))
  | .vfsub s d a b t m r => some (fA s.c 11#6 d.enc a.enc b.enc 0#7 1#8 t.enc m.m (BitVec.ofBool m.inv) (0#3 ++ r.enc))
  | .vfmul s d a b t m r => some (fA s.c 11#6 d.enc a.enc b.enc 0#7 2#8 t.enc m.m (BitVec.ofBool m.inv) (0#3 ++ r.enc))
  | .vfma s d a b x t m r => some (fA s.c 11#6 d.enc a.enc b.enc x.enc 3#8 t.enc m.m (BitVec.ofBool m.inv) (0#3 ++ r.enc))
  | .vfms s d a b x t m r => some (fA s.c 11#6 d.enc a.enc b.enc x.enc 4#8 t.enc m.m (BitVec.ofBool m.inv) (0#3 ++ r.enc))
  | .vfmin s d a b t m => some (fA s.c 11#6 d.enc a.enc b.enc 0#7 5#8 t.enc m.m (BitVec.ofBool m.inv) 0#6)
  | .vfmax s d a b t m => some (fA s.c 11#6 d.enc a.enc b.enc 0#7 6#8 t.enc m.m (BitVec.ofBool m.inv) 0#6)
  | .vfabs s d a t m => some (fA s.c 11#6 d.enc a.enc 0#7 0#7 7#8 t.enc m.m (BitVec.ofBool m.inv) 0#6)
  | .vfneg s d a t m => some (fA s.c 11#6 d.enc a.enc 0#7 0#7 8#8 t.enc m.m (BitVec.ofBool m.inv) 0#6)
  | .vfcmpeq s d a b t m => some (fA s.c 11#6 d.enc a.enc b.enc 0#7 9#8 t.enc m.m (BitVec.ofBool m.inv) 0#6)
  | .vfcmplt s d a b t m => some (fA s.c 11#6 d.enc a.enc b.enc 0#7 10#8 t.enc m.m (BitVec.ofBool m.inv) 0#6)
  | .vfcmple s d a b t m => some (fA s.c 11#6 d.enc a.enc b.enc 0#7 11#8 t.enc m.m (BitVec.ofBool m.inv) 0#6)
  | .vfcmpun s d a b t m => some (fA s.c 11#6 d.enc a.enc b.enc 0#7 12#8 t.enc m.m (BitVec.ofBool m.inv) 0#6)
  | .vrcp s d a t m r => some (fA s.c 12#6 d.enc a.enc 0#7 0#7 0#8 t.enc m.m (BitVec.ofBool m.inv) (0#3 ++ r.enc))
  | .vrsqrt s d a t m r => some (fA s.c 12#6 d.enc a.enc 0#7 0#7 1#8 t.enc m.m (BitVec.ofBool m.inv) (0#3 ++ r.enc))
  | .vsqrt s d a t m r => some (fA s.c 12#6 d.enc a.enc 0#7 0#7 2#8 t.enc m.m (BitVec.ofBool m.inv) (0#3 ++ r.enc))
  | .vexp2 s d a t m r => some (fA s.c 12#6 d.enc a.enc 0#7 0#7 3#8 t.enc m.m (BitVec.ofBool m.inv) (0#3 ++ r.enc))
  | .vlog2 s d a t m r => some (fA s.c 12#6 d.enc a.enc 0#7 0#7 4#8 t.enc m.m (BitVec.ofBool m.inv) (0#3 ++ r.enc))
  | .vdiv s d a b t m r => some (fA s.c 12#6 d.enc a.enc b.enc 0#7 5#8 t.enc m.m (BitVec.ofBool m.inv) (0#3 ++ r.enc))
  | .vrope s d a b x t m r c => some (fA s.c 12#6 d.enc a.enc b.enc x.enc 6#8 t.enc m.m (BitVec.ofBool m.inv) (c ++ r.enc))
  | .vrng s d a m => some (fA s.c 12#6 d.enc a.enc 0#7 0#7 7#8 6#4 m.m (BitVec.ofBool m.inv) 0#6)
  | .vcvt s d a t src m r => some (fA s.c 13#6 d.enc a.enc 0#7 0#7 0#8 t.enc m.m (BitVec.ofBool m.inv) (src.enc ++ r.enc))
  | .vpack s d a x t qx => some (fA s.c 13#6 d.enc a.enc 0#7 x.enc 1#8 t.enc 0#3 0#1 (0#1 ++ qx ++ 0#3))
  | .vunpk s d a t qx m => some (fA s.c 13#6 d.enc a.enc 0#7 0#7 2#8 t.enc m.m (BitVec.ofBool m.inv) (0#1 ++ qx ++ 0#3))
  | .vpk6 s d a x lo qx => some (fA s.c 13#6 d.enc a.enc 0#7 x.enc 3#8 11#4 0#3 0#1 (BitVec.ofBool lo ++ 0#1 ++ qx))
  | .vupk6 s d a b qx h m => some (fA s.c 13#6 d.enc a.enc b.enc 0#7 4#8 11#4 m.m (BitVec.ofBool m.inv) (0#2 ++ BitVec.ofBool h ++ qx))
  | .vtrit s d a t qx m => some (fA s.c 13#6 d.enc a.enc 0#7 0#7 5#8 t.enc m.m (BitVec.ofBool m.inv) (0#1 ++ qx))
  | .vtritp s d a x qx => some (fA s.c 13#6 d.enc a.enc 0#7 x.enc 6#8 0#4 0#3 0#1 (0#1 ++ qx))
  | .vbcast s d a m => some (fA s.c 14#6 d.enc a.enc 0#7 0#7 0#8 0#4 m.m (BitVec.ofBool m.inv) 0#6)
  | .vext s d a b => some (fA s.c 14#6 d.enc a.enc b.enc 0#7 1#8 0#4 0#3 0#1 0#6)
  | .vins s d a b x => some (fA s.c 14#6 d.enc a.enc b.enc x.enc 2#8 0#4 0#3 0#1 0#6)
  | .vperm s d a b x m => some (fA s.c 14#6 d.enc a.enc b.enc x.enc 3#8 0#4 m.m (BitVec.ofBool m.inv) 0#6)
  | .vred s d a t op m r => some (fA s.c 14#6 d.enc a.enc 0#7 0#7 4#8 t.enc m.m (BitVec.ofBool m.inv) (op.enc ++ r.enc))
  | .vscan s d a t op m r => some (fA s.c 14#6 d.enc a.enc 0#7 0#7 5#8 t.enc m.m (BitVec.ofBool m.inv) (op.enc ++ r.enc))
  | .vsortk s d a b t asc m => some (fA s.c 14#6 d.enc a.enc b.enc 0#7 6#8 t.enc m.m (BitVec.ofBool m.inv) (0#2 ++ BitVec.ofBool asc ++ 0#3))
  | .vcompress s d a m => some (fA s.c 14#6 d.enc a.enc 0#7 0#7 7#8 0#4 m.m (BitVec.ofBool m.inv) 0#6)
  | .mand d a b => some (fA 0#4 15#6 (0#4 ++ d) (0#4 ++ a) (0#4 ++ b) 0#7 0#8 0#4 0#3 0#1 0#6)
  | .mor d a b => some (fA 0#4 15#6 (0#4 ++ d) (0#4 ++ a) (0#4 ++ b) 0#7 1#8 0#4 0#3 0#1 0#6)
  | .mxor d a b => some (fA 0#4 15#6 (0#4 ++ d) (0#4 ++ a) (0#4 ++ b) 0#7 2#8 0#4 0#3 0#1 0#6)
  | .mnot d a => some (fA 0#4 15#6 (0#4 ++ d) (0#4 ++ a) 0#7 0#7 3#8 0#4 0#3 0#1 0#6)
  | .mset d b => some (fA 0#4 15#6 (0#4 ++ d) 0#7 b.enc 0#7 4#8 0#4 0#3 0#1 0#6)
  | .mget s d a => some (fA s.c 15#6 d.enc (0#4 ++ a) 0#7 0#7 5#8 0#4 0#3 0#1 0#6)
  | .mpop d a => some (fA 0#4 15#6 (0#4 ++ d) (0#4 ++ a) 0#7 0#7 6#8 0#4 0#3 0#1 0#6)
  | .mfirst d a => some (fA 0#4 15#6 (0#4 ++ d) (0#4 ++ a) 0#7 0#7 7#8 0#4 0#3 0#1 0#6)
  | .mbit d a n clr => some (fA 0#4 15#6 (0#4 ++ d) (0#4 ++ a) 0#7 0#7 8#8 0#4 0#3 0#1 (0#1 ++ BitVec.ofBool clr ++ n))
  | .vld s d bp sz m off => some (fM s.c 16#6 d.enc bp 0#4 sz.enc 0#3 0#2 m off)
  | .vst d bp sz m off => some (fM 0#4 16#6 d.enc bp 1#4 sz.enc 0#3 0#2 m off)
  | .vldg s d bp sz m idx off => some (fM s.c 16#6 d.enc bp 2#4 sz.enc 0#3 0#2 m (off ++ idx.enc))
  | .vsts d bp sz m idx off => some (fM 0#4 16#6 d.enc bp 3#4 sz.enc 0#3 0#2 m (off ++ idx.enc))
  | .stcfg sn bp off => some (fQ 0#4 17#6 0#7 bp 0#7 0#8 (sn ++ off))
  | .stadv sn a => some (fQ 0#4 17#6 0#7 0#4 a.enc 1#8 (sn ++ 0#20))
  | .ststat s d sn => some (fQ s.c 17#6 d.enc 0#4 0#7 2#8 (sn ++ 0#20))
  | .stcut sn => some (fQ 0#4 17#6 0#7 0#4 0#7 3#8 (sn ++ 0#20))
  | .mma ac sa sb t ta tb kc => some (fT 0#4 18#6 (0#2 ++ ac) sa sb 0#4 0#6 0#1 0#1 0#8 t.enc (BitVec.ofBool ta ++ BitVec.ofBool tb ++ 0#6 ++ kc))
  | .tmm ac sa sb ta tb kc => some (fT 0#4 18#6 (0#2 ++ ac) sa sb 0#4 0#6 0#1 0#1 1#8 12#4 (BitVec.ofBool ta ++ BitVec.ofBool tb ++ 0#6 ++ kc))
  | .tmmt ac sa sb t kc => some (fT 0#4 18#6 (0#2 ++ ac) sa sb 0#4 0#6 0#1 0#1 6#8 t.enc (0#8 ++ kc))
  | .tmmw ac sa sb t kc => some (fT 0#4 18#6 (0#2 ++ ac) sa sb 0#4 0#6 0#1 0#1 7#8 t.enc (0#8 ++ kc))
  | .jointOperation p ac t ta tb kc => some (fT 0#4 18#6 (0#2 ++ ac) 0#4 0#4 0#4 0#6 0#1 1#1 p.fn t.enc (BitVec.ofBool ta ++ BitVec.ofBool tb ++ 0#6 ++ kc))
  | .acfg ac i32 rows cols discard => some (fT 0#4 18#6 (0#2 ++ ac) (0#3 ++ BitVec.ofBool discard) 0#4 0#4 0#6 0#1 0#1 2#8 (tyI32Enc i32) (rows ++ cols))
  | .aczero ac i32 => some (fT 0#4 18#6 (0#2 ++ ac) 0#4 0#4 0#4 0#6 0#1 0#1 3#8 (tyI32Enc i32) 0#14)
  | .acdrain ac sa sb sx t rs cs keep r => some (fT 0#4 18#6 (0#2 ++ ac) sa sb sx 0#6 0#1 0#1 4#8 t.enc (BitVec.ofBool rs ++ BitVec.ofBool cs ++ BitVec.ofBool keep ++ 0#8 ++ r.enc))
  | .acload ac sa i32 => some (fT 0#4 18#6 (0#2 ++ ac) sa 0#4 0#4 0#6 0#1 0#1 5#8 (tyI32Enc i32) 0#14)
  | .tadd ac sa t b => some (fT 0#4 19#6 (0#2 ++ ac) sa 0#4 0#4 0#6 0#1 0#1 0#8 t.enc (0#8 ++ b ++ 0#4))
  | .tmul ac sa t b => some (fT 0#4 19#6 (0#2 ++ ac) sa 0#4 0#4 0#6 0#1 0#1 1#8 t.enc (0#8 ++ b ++ 0#4))
  | .tact ac f => some (fT 0#4 19#6 (0#2 ++ ac) 0#4 0#4 0#4 0#6 0#1 0#1 2#8 6#4 (0#10 ++ f))
  | .tactd ac sa t f => some (fT 0#4 19#6 (0#2 ++ ac) sa 0#4 0#4 0#6 0#1 0#1 3#8 t.enc (0#10 ++ f))
  | .trms ac sx t e => some (fT 0#4 19#6 (0#2 ++ ac) 0#4 0#4 sx 0#6 0#1 0#1 4#8 t.enc (0#6 ++ e))
  | .trmsd ac sa sx t e => some (fT 0#4 19#6 (0#2 ++ ac) sa 0#4 sx 0#6 0#1 0#1 5#8 t.enc (0#6 ++ e))
  | .tsmax ac sx norm => some (fT 0#4 19#6 (0#2 ++ ac) 0#4 0#4 sx 0#6 0#1 0#1 6#8 6#4 (0#13 ++ BitVec.ofBool norm))
  | .tsmaxd ac sa t => some (fT 0#4 19#6 (0#2 ++ ac) sa 0#4 0#4 0#6 0#1 0#1 7#8 t.enc 0#14)
  | .tscale ac sa t => some (fT 0#4 19#6 (0#2 ++ ac) sa 0#4 0#4 0#6 0#1 0#1 8#8 t.enc 0#14)
  | .vproj ac sa sb t ta tb kc => some (fT 0#4 20#6 (0#2 ++ ac) sa sb 0#4 0#6 0#1 0#1 0#8 t.enc (BitVec.ofBool ta ++ BitVec.ofBool tb ++ 0#6 ++ kc))
  | .vmerge sa sb sx rows => some (fT 0#4 20#6 0#4 sa sb sx 0#6 0#1 0#1 1#8 6#4 (0#7 ++ rows))
  | .vprojd ac sa sb sx t h dw kc => some (fT 0#4 20#6 (0#2 ++ ac) sa sb sx 0#6 0#1 0#1 2#8 t.enc (h ++ BitVec.ofBool dw ++ 0#3 ++ kc))
  | .attn d bp off => some (fQ 0#4 21#6 d.enc bp 0#7 0#8 (0#1 ++ off))
  | .attnd d bp a off => some (fQ 0#4 21#6 d.enc bp a.enc 1#8 (0#1 ++ off))
  | .otcfg d slot bp off => some (fQ 0#4 22#6 d.enc bp 0#7 0#8 (slot ++ off))
  | .extend d slot a => some (fQ 0#4 22#6 d.enc 0#4 a.enc 1#8 (slot ++ 0#18))
  | .extendC d slot a => some (fQ 0#4 22#6 d.enc 0#4 a.enc 1#8 (slot ++ 0#17 ++ 1#1))
  | .revoke d a => some (fQ 0#4 22#6 d.enc 0#4 a.enc 2#8 0#24)
  | .revokeAt d a bp => some (fQ 0#4 22#6 d.enc bp a.enc 2#8 (0#23 ++ 1#1))
  | .rlresume d a => some (fQ 0#4 22#6 d.enc 0#4 a.enc 3#8 0#24)
  | .rlstat d a => some (fQ 0#4 22#6 d.enc 0#4 a.enc 4#8 0#24)
  | .omap d bp off a => some (fQ 0#4 22#6 d.enc bp a.enc 5#8 (0#1 ++ off))
  | .standInstall f => some f.body
  | .recbeg d bp off => some (fQ 0#4 23#6 d.enc bp 0#7 0#8 off)
  | .recend d => some (fQ 0#4 23#6 d.enc 0#4 0#7 1#8 0#24)
  | .reverse d bp off a => some (fQ 0#4 23#6 d.enc bp a.enc 2#8 off)
  | .recflag d a => some (fQ 0#4 23#6 d.enc 0#4 a.enc 3#8 0#24)
  | .cpy d bp off => some (fQ 0#4 24#6 d.enc bp 0#7 0#8 (0#1 ++ off))
  | .cpyg d bp off => some (fQ 0#4 24#6 d.enc bp 0#7 1#8 (0#1 ++ off))
  | .cpys d bp off => some (fQ 0#4 24#6 d.enc bp 0#7 2#8 (0#1 ++ off))
  | .cpymc d bp off => some (fQ 0#4 24#6 d.enc bp 0#7 3#8 (0#1 ++ off))
  | .cpred d bp off => some (fQ 0#4 24#6 d.enc bp 0#7 4#8 (0#1 ++ off))
  | .cpwait d ch a => some (fQ 0#4 24#6 d.enc 0#4 a.enc 5#8 (0#22 ++ ch))
  | .cpdone d ch a => some (fQ 0#4 24#6 d.enc 0#4 a.enc 6#8 (0#22 ++ ch))
  | .qput n cl all a => some (fA 0#4 25#6 0#7 a.enc 0#7 0#7 0#8 0#4 0#3 0#1 (0#1 ++ BitVec.ofBool all ++ cl ++ n))
  | .qget s d n => some (fA s.c 25#6 d.enc 0#7 0#7 0#7 1#8 0#4 0#3 0#1 (0#4 ++ n))
  | .bqput cl all a => some (fA 0#4 25#6 0#7 a.enc 0#7 0#7 2#8 0#4 0#3 0#1 (0#1 ++ BitVec.ofBool all ++ cl ++ 0#2))
  | .qlvl s d n isBq => some (fA s.c 25#6 d.enc 0#7 0#7 0#7 3#8 0#4 0#3 0#1 (0#3 ++ BitVec.ofBool isBq ++ n))
  | .spawn d bp off a => some (fQ 0#4 26#6 d.enc bp a.enc 0#8 off)
  | .join d bp off => some (fQ 0#4 26#6 d.enc bp 0#7 1#8 off)
  | .launch d bp off a => some (fQ 0#4 26#6 d.enc bp a.enc 2#8 off)
  | .yield a => some (fQ 0#4 26#6 0#7 0#4 a.enc 3#8 0#24)
  | .slend => some (fQ 0#4 26#6 0#7 0#4 0#7 4#8 0#24)
  | .unpark d bp off => some (fQ 0#4 26#6 d.enc bp 0#7 5#8 off)
  | .evset a => some (fA 0#4 27#6 0#7 a.enc 0#7 0#7 0#8 0#4 0#3 0#1 0#6)
  | .evsetErr a => some (fA 0#4 27#6 0#7 a.enc 0#7 0#7 0#8 0#4 0#3 0#1 (0#5 ++ 1#1))
  | .evclr a => some (fA 0#4 27#6 0#7 a.enc 0#7 0#7 1#8 0#4 0#3 0#1 0#6)
  | .evwait s d a => some (fA s.c 27#6 d.enc a.enc 0#7 0#7 2#8 0#4 0#3 0#1 0#6)
  | .evtest s d a => some (fA s.c 27#6 d.enc a.enc 0#7 0#7 3#8 0#4 0#3 0#1 0#6)
  | .bar => some (fA 0#4 27#6 0#7 0#7 0#7 0#7 4#8 0#4 0#3 0#1 0#6)
  | .barG => some (fA 0#4 27#6 0#7 0#7 0#7 0#7 5#8 0#4 0#3 0#1 0#6)
  | .pqpush s d b x n => some (fA s.c 28#6 d.enc 0#7 b.enc x.enc 0#8 0#4 0#3 0#1 (0#3 ++ n))
  | .pqpop s d n => some (fA s.c 28#6 d.enc 0#7 0#7 0#7 1#8 0#4 0#3 0#1 (0#3 ++ n))
  | .pqlen s d n => some (fA s.c 28#6 d.enc 0#7 0#7 0#7 2#8 0#4 0#3 0#1 (0#3 ++ n))
  | .rdsr s d n => some (fI s.c 29#6 d.enc 0#7 0#4 (0#24 ++ n))
  | .wrsr a n => some (fI 0#4 29#6 0#7 a.enc 1#4 (0#24 ++ n))
  | .clrf m => some (fI 0#4 29#6 0#7 0#7 2#4 (0#25 ++ m))
  | .kvxl s d bp off a => some (fQ s.c 30#6 d.enc bp a.enc 0#8 off)
  | .kvfork s d bp off a => some (fQ s.c 30#6 d.enc bp a.enc 1#8 off)
  | .kvgrow s d bp off a => some (fQ s.c 30#6 d.enc bp a.enc 2#8 off)
  | .kvcommit s d bp off a => some (fQ s.c 30#6 d.enc bp a.enc 3#8 off)
  | _ => none

/-- The scheduling control of an instruction with a bounded result, and its destination (R24). -/
def Instr.sched : Instr → Option (Sched × Opnd)
  | .add s d _ _ => some (s, d)
  | .sub s d _ _ => some (s, d)
  | .mul s d _ _ => some (s, d)
  | .mulh s d _ _ _ => some (s, d)
  | .div s d _ _ => some (s, d)
  | .divn s d _ _ => some (s, d)
  | .rem s d _ _ => some (s, d)
  | .remn s d _ _ => some (s, d)
  | .and s d _ _ => some (s, d)
  | .or s d _ _ => some (s, d)
  | .xor s d _ _ => some (s, d)
  | .shl s d _ _ => some (s, d)
  | .shr s d _ _ => some (s, d)
  | .sra s d _ _ => some (s, d)
  | .min s d _ _ => some (s, d)
  | .max s d _ _ => some (s, d)
  | .minn s d _ _ => some (s, d)
  | .maxn s d _ _ => some (s, d)
  | .clz s d _ => some (s, d)
  | .ctz s d _ => some (s, d)
  | .popc s d _ => some (s, d)
  | .seq s d _ _ => some (s, d)
  | .sne s d _ _ => some (s, d)
  | .slt s d _ _ => some (s, d)
  | .sltn s d _ _ => some (s, d)
  | .sel s d _ _ _ => some (s, d)
  | .bfx s d _ _ _ => some (s, d)
  | .bfi s d _ _ _ => some (s, d)
  | .addi s d _ _ => some (s, d)
  | .andi s d _ _ => some (s, d)
  | .ori s d _ _ => some (s, d)
  | .xori s d _ _ => some (s, d)
  | .shli s d _ _ => some (s, d)
  | .shri s d _ _ => some (s, d)
  | .srai s d _ _ => some (s, d)
  | .movi s d _ => some (s, d)
  | .slti s d _ _ => some (s, d)
  | .sltni s d _ _ => some (s, d)
  | .muli s d _ _ => some (s, d)
  | .add64 s d _ _ => some (s, d)
  | .sub64 s d _ _ => some (s, d)
  | .mov64 s d _ => some (s, d)
  | .shl64 s d _ _ => some (s, d)
  | .slt64n s d _ _ => some (s, d)
  | .addi64 s d _ _ => some (s, d)
  | .movi64 s d _ => some (s, d)
  | .sethi s d _ _ => some (s, d)
  | .call s p _ _ => some (s, p)
  | .lidx s p _ _ => some (s, p)
  | .ld s d _ _ _ _ _ => some (s, d)
  | .amoadd s d _ _ _ _ _ => some (s, d)
  | .amoswp s d _ _ _ _ _ => some (s, d)
  | .amocas s d _ _ _ _ _ _ => some (s, d)
  | .amomin s d _ _ _ _ _ => some (s, d)
  | .amomax s d _ _ _ _ _ => some (s, d)
  | .amominn s d _ _ _ _ _ => some (s, d)
  | .amomaxn s d _ _ _ _ _ => some (s, d)
  | .amoand s d _ _ _ _ _ => some (s, d)
  | .amoor s d _ _ _ _ _ => some (s, d)
  | .amoxor s d _ _ _ _ _ => some (s, d)
  | .bind s d _ _ _ => some (s, d)
  | .unbind s d _ _ => some (s, d)
  | .vadd s d _ _ _ _ => some (s, d)
  | .vsub s d _ _ _ _ => some (s, d)
  | .vmul s d _ _ _ _ => some (s, d)
  | .vmin s d _ _ _ _ => some (s, d)
  | .vmax s d _ _ _ _ => some (s, d)
  | .vabs s d _ _ _ => some (s, d)
  | .vand s d _ _ _ _ => some (s, d)
  | .vor s d _ _ _ _ => some (s, d)
  | .vxor s d _ _ _ _ => some (s, d)
  | .vshl s d _ _ _ _ => some (s, d)
  | .vshr s d _ _ _ _ => some (s, d)
  | .vsra s d _ _ _ _ => some (s, d)
  | .vadds s d _ _ _ _ => some (s, d)
  | .vsubs s d _ _ _ _ => some (s, d)
  | .vcmpeq s d _ _ _ _ => some (s, d)
  | .vcmplt s d _ _ _ _ => some (s, d)
  | .vcmple s d _ _ _ _ => some (s, d)
  | .vfadd s d _ _ _ _ _ => some (s, d)
  | .vfsub s d _ _ _ _ _ => some (s, d)
  | .vfmul s d _ _ _ _ _ => some (s, d)
  | .vfma s d _ _ _ _ _ _ => some (s, d)
  | .vfms s d _ _ _ _ _ _ => some (s, d)
  | .vfmin s d _ _ _ _ => some (s, d)
  | .vfmax s d _ _ _ _ => some (s, d)
  | .vfabs s d _ _ _ => some (s, d)
  | .vfneg s d _ _ _ => some (s, d)
  | .vfcmpeq s d _ _ _ _ => some (s, d)
  | .vfcmplt s d _ _ _ _ => some (s, d)
  | .vfcmple s d _ _ _ _ => some (s, d)
  | .vfcmpun s d _ _ _ _ => some (s, d)
  | .vrcp s d _ _ _ _ => some (s, d)
  | .vrsqrt s d _ _ _ _ => some (s, d)
  | .vsqrt s d _ _ _ _ => some (s, d)
  | .vexp2 s d _ _ _ _ => some (s, d)
  | .vlog2 s d _ _ _ _ => some (s, d)
  | .vdiv s d _ _ _ _ _ => some (s, d)
  | .vrope s d _ _ _ _ _ _ _ => some (s, d)
  | .vrng s d _ _ => some (s, d)
  | .vcvt s d _ _ _ _ _ => some (s, d)
  | .vpack s d _ _ _ _ => some (s, d)
  | .vunpk s d _ _ _ _ => some (s, d)
  | .vpk6 s d _ _ _ _ => some (s, d)
  | .vupk6 s d _ _ _ _ _ => some (s, d)
  | .vtrit s d _ _ _ _ => some (s, d)
  | .vtritp s d _ _ _ => some (s, d)
  | .vbcast s d _ _ => some (s, d)
  | .vext s d _ _ => some (s, d)
  | .vins s d _ _ _ => some (s, d)
  | .vperm s d _ _ _ _ => some (s, d)
  | .vred s d _ _ _ _ _ => some (s, d)
  | .vscan s d _ _ _ _ _ => some (s, d)
  | .vsortk s d _ _ _ _ _ => some (s, d)
  | .vcompress s d _ _ => some (s, d)
  | .mget s d _ => some (s, d)
  | .vld s d _ _ _ _ => some (s, d)
  | .vldg s d _ _ _ _ _ => some (s, d)
  | .ststat s d _ => some (s, d)
  | .qget s d _ => some (s, d)
  | .qlvl s d _ _ => some (s, d)
  | .evwait s d _ => some (s, d)
  | .evtest s d _ => some (s, d)
  | .pqpush s d _ _ _ => some (s, d)
  | .pqpop s d _ => some (s, d)
  | .pqlen s d _ => some (s, d)
  | .rdsr s d _ => some (s, d)
  | .kvxl s d _ _ _ => some (s, d)
  | .kvfork s d _ _ _ => some (s, d)
  | .kvgrow s d _ _ _ => some (s, d)
  | .kvcommit s d _ _ _ => some (s, d)
  | _ => none

/-- The instruction a major and function name, fields not yet checked. -/
def candidate (op fn : Nat) (w : DWord) : Option Instr :=
  match op with
  | 0x00 => candSys fn w
  | 0x01 => candSalu fn w
  | 0x02 => candSalui fn w
  | 0x03 => candSpair fn w
  | 0x04 => candSpairi fn w
  | 0x05 => candBr fn w
  | 0x06 => candLoop fn w
  | 0x07 => candMem fn w
  | 0x08 => candAmo fn w
  | 0x09 => candOrdr fn w
  | 0x0A => candVint fn w
  | 0x0B => candVfp fn w
  | 0x0C => candVspc fn w
  | 0x0D => candVcvt fn w
  | 0x0E => candVlane fn w
  | 0x0F => candMask fn w
  | 0x10 => candVmem fn w
  | 0x11 => candStrm fn w
  | 0x12 =>
    if wBit w 27 then (standOf op fn w).map .standInstall
    else if wBit w 26 then (Prod.ofFn fn).bind fun p => jointOf p w
    else candMtx fn w
  | 0x13 => if wBit w 27 then (standOf op fn w).map .standInstall else candTile fn w
  | 0x14 => if wBit w 27 then (standOf op fn w).map .standInstall else candVoc fn w
  | 0x15 => if wBit w 23 then (standOf op fn w).map .standInstall else candAtt fn w
  | 0x16 => if fn == 5 && wBit w 23 then (standOf op fn w).map .standInstall else candOpen fn w
  | 0x17 => candRec fn w
  | 0x18 => if fn < 5 && wBit w 23 then (standOf op fn w).map .standInstall else candCopy fn w
  | 0x19 => candXq fn w
  | 0x1A => candSched fn w
  | 0x1B => candEvt fn w
  | 0x1C => candPq fn w
  | 0x1D => candSpr fn w
  | 0x1E => candKv fn w
  | _ => none

/-- An instruction of the bundle: what it is, its E bit and its Y bit (R35). -/
structure Decoded where
  i : Instr
  e : Bool
  y : Bool
  deriving DecidableEq, Repr

/-- Why a word is no instruction: the check of R54 it fails and the cause it raises. -/
structure DecErr where
  check : Nat
  cause : Nat
  deriving DecidableEq, Repr

/-- The instruction of a word whose fields pass check 5 (R54): well formed, and encoding back to the same word (R39). -/
def decodeFields (w : DWord) : Option Instr :=
  match candidate (wOp w) (wFn w) w with
  | some i => if i.wellFormed && i.body == some (wBits w 0 60) then some i else none
  | none => none

/-- Checks 1 to 5 of R54, as far as the word and its agent decide them. -/
def decode (ap : Bool) (w : DWord) : Except DecErr Decoded :=
  if wBit w 63 then .error ⟨1, 0x02⟩
  else if 0x1F ≤ wOp w then .error ⟨2, 0x01⟩
  else if fnCount (wOp w) ≤ wFn w then .error ⟨3, 0x01⟩
  else if !agentOk ap (wOp w) (wFn w) then .error ⟨4, 0x03⟩
  else
    match decodeFields w with
    | some i => .ok ⟨i, wBit w 61, wBit w 60⟩
    | none => .error ⟨5, 0x02⟩

/-- The word an eight-byte little-endian list holds (R35). -/
def wordOfBytes (bs : List Byte) : DWord := BitVec.ofNat 64 (ofBytes bs)

/-! ## The encoder -/

/-- The version bit of an instruction's word: zero where it has no bounded result (R24, R35). -/
def Instr.version (i : Instr) : Bool :=
  match i.sched with
  | some (s, _) => s.v
  | none => false

/-- The word of a well-formed instruction with E and Y as given (R35); `none` for an event, which has no word. -/
def encode (i : Instr) (e y : Bool) : Option DWord :=
  i.body.map fun b => 0#1 ++ BitVec.ofBool i.version ++ BitVec.ofBool e ++ BitVec.ofBool y ++ b

/-- The major of an encoded instruction (R35). -/
def Instr.op (i : Instr) : Nat :=
  match i.body with
  | some b => (b.extractLsb' 50 6).toNat
  | none => 0xFF

/-! ## Latency bounds -/

/-- Minimum and nominal bound of an instruction with a bounded result (R89, R118, R148, R201, R254, R301, R324). -/
def Instr.boundRange : Instr → Nat × Nat
  | .mul .. | .mulh .. | .muli .. => (3, 4)
  | .div .. | .divn .. | .rem .. | .remn .. => (12, 14)
  | .add64 .. | .sub64 .. | .shl64 .. | .slt64n .. => (2, 3)
  | .call .. | .lidx .. => (1, 1)
  | .rdsr .. | .ststat .. => (2, 2)
  | .ld .. | .vld .. => (4, 6)
  | .vldg .. => (6, 12)
  | .amoadd .. | .amoswp .. | .amocas .. | .amomin .. | .amomax .. | .amominn .. | .amomaxn .. | .amoand ..
  | .amoor .. | .amoxor .. | .bind .. | .unbind .. | .kvxl .. | .kvgrow .. | .kvcommit .. | .pqpush .. | .pqpop ..
  | .pqlen .. => (8, 32)
  | .kvfork .. => (24, 60)
  | .vmul .. | .vfadd .. | .vfsub .. | .vfmul .. | .vfma .. | .vfms .. => (3, 4)
  | .vrcp .. | .vrsqrt .. | .vsqrt .. | .vexp2 .. | .vlog2 .. | .vrope .. | .vscan .. | .vsortk .. => (6, 8)
  | .vdiv .. => (10, 12)
  | .vrng .. => (4, 5)
  | .vcvt .. | .vpack .. | .vunpk .. | .vpk6 .. | .vupk6 .. | .vtrit .. | .vtritp .. | .vext .. | .vperm ..
  | .vcompress .. | .qget .. => (2, 3)
  | .vred .. => (4, 6)
  | .evwait .. | .evtest .. => (4, 8)
  | _ => (1, 2)

/-- The bound L that a scheduling control gives (R24). -/
def Sched.bound (s : Sched) (nominal : Nat) : Nat :=
  if s.c == 0 then nominal else if s.v then 4 * s.c.toNat else s.c.toNat

/-- Check 7 of R54: L is not below the opcode's minimum. -/
def Instr.boundOk (i : Instr) : Bool :=
  match i.sched with
  | some (s, _) => decide (i.boundRange.1 ≤ s.bound i.boundRange.2)
  | none => true

/-- The instruction the decoder reads from a word of the opcode table (bit 0 the least significant bit). -/
def decodeTableWord (nbits w : Nat) : Option Instr :=
  let x : DWord := BitVec.ofNat 64 (w % 2 ^ nbits)
  match decode (!agentOk false (wOp x) (wFn x)) x with
  | .ok d => some d.i
  | .error _ => none

end Sys2Proof
end

