-- ==== Sys2Proof/Machine/State.lean ====
section
/-! DEFINITION. The state of the Fargor Z24 as one of its cores sees it: the five agents, the engines and tables of the
core, and the package around it (memory, contexts, partitions, scheduler, firmware, links, health, debug port). All of
it is plain data. -/

namespace Sys2Proof.Machine

/-! ## Results in flight (R17, R25, R30, R145) -/

/-- A value's poison or error mark: the granule address reported and the cause raised on consumption (R145, R147). -/
structure Mark where
  addr : DWord
  cause : Byte
  deriving DecidableEq, Repr

/-- When a result is readable: from a program time on (R25), or when its engine token lands (R26). -/
inductive Ready where
  | at (pt : Nat)
  | token
  deriving DecidableEq, Repr

/-- A position of the scalar result queue (R17). `uid` ties it to its latch. -/
structure SEnt where
  uid : Nat
  val : DWord
  ready : Ready
  mark : Option Mark
  deriving DecidableEq, Repr

/-- A position of the vector result queue (R17). -/
structure VEnt where
  uid : Nat
  val : Vec
  ready : Ready
  mark : Option Mark
  deriving DecidableEq, Repr

/-- Latch classes (R339). -/
inductive LCls where
  | scalar | pair | vector | token
  deriving DecidableEq, Repr

/-- A result latch (R30). `wide`: the result is 64 bits. `dead` marks the low and the high register of its named
destination that a younger write, readable since, has overtaken (R25). -/
structure Latch where
  uid : Nat
  cls : LCls
  dst : Opnd
  wide : Bool
  val : DWord
  vec : Vec
  ready : Ready
  flags : BitVec 7
  mark : Option Mark
  dead : Bool × Bool
  deriving DecidableEq, Repr

/-- A level of the loop unit (R100, R101). -/
structure LoopLvl where
  start : DWord
  exit : DWord
  index : Nat
  count : Nat
  bind : Option (BitVec 4)
  /-- a stop request drains this level (R104) -/
  drain : Bool
  deriving DecidableEq, Repr

/-- The paths of an agent's accesses (R48): its own loads and stores (CL or AP), its gathers and scatters, and its requests to
the copy channels and the engine. -/
inductive Path where
  | own | cp | ga | mx | co
  deriving DecidableEq, Repr

/-- A deferred error of a write (R147), with the path that the write was made on. -/
structure Deferred where
  addr : DWord
  cause : Byte
  kind : BitVec 2
  lane : BitVec 4
  path : Path
  deriving DecidableEq, Repr

/-- What an agent waits for at issue (R328). A fence holds what stood before it when it began: the channels that it has
marked with the identifiers its markers stand before, and the number its engine marker stands before (R159, R160). -/
inductive Waits where
  | lockstep | bq | xq | event | copy | barrier (g : Bool) | token | latch | bank
  | fence (chans : List (BitVec 2 × Word)) (eng : Option Nat)
  | engine | full | frozen
  deriving DecidableEq, Repr

/-- How a bundle's control goes on after it has issued (R21). -/
inductive Ctl where
  | fall
  | jump (t : DWord)
  | lbrk (t : DWord)
  | open (l : LoopLvl)
  | drained (t : DWord)
  | trapAfter (n : BitVec 6)
  | halt
  | swapBack
  deriving DecidableEq, Repr

/-- The bundle an agent is issuing: addresses, and the writes held back until the whole bundle has issued (R17, R21). -/
structure Bun where
  /-- address of the instruction at work (R97) -/
  ipc : DWord
  /-- the bundle's next address (R97) -/
  npc : DWord
  /-- the first word's Y bit (R22, R44) -/
  sync : Bool
  scal : List SEnt
  vecs : List VEnt
  latches : List Latch
  mask : Option (BitVec 3 × BitVec 16)
  srw : Option (BitVec 8 × DWord)
  clr : BitVec 7
  ctl : Ctl
  /-- `slend` (`some none`) or `yield` of the bundle (R313) -/
  ends : Option (Option DWord)
  /-- a `brq` of the bundle takes the head of bq (R99) -/
  bqPop : Bool
  deriving DecidableEq, Repr

/-- The empty buffer of a bundle at `pc` with next address `npc`. -/
def Bun.start (pc npc : DWord) (sync : Bool) : Bun :=
  ⟨pc, npc, sync, [], [], [], none, none, 0, .fall, none, false⟩

/-- A poison mark on a named register (R145). -/
structure RegMark where
  reg : Opnd
  vec : Bool
  mark : Mark
  deriving DecidableEq, Repr

/-- One agent of the core (R5, R6). The vector half, masks and queues of the access processor are never used (R23). -/
structure Agent where
  pc : DWord
  halted : Bool
  /-- newest first (R17) -/
  sq : List SEnt
  vq : List VEnt
  k : Vector Word 16
  g : Vector Word 32
  vk : Vector Vec 16
  v : Vector Vec 32
  m : Vector (BitVec 16) 8
  /-- oldest first (R30) -/
  latches : List Latch
  marks : List RegMark
  aflags : Word
  atrap : Word
  rope : Word
  rngkey : Word
  /-- scalar and vector mirror masks (R20) -/
  smir : Word
  vmir : Word
  /-- innermost first (R100) -/
  loops : List LoopLvl
  /-- saved count of a table level (R104) -/
  saved : List (BitVec 4 × Nat)
  bq : List Bool
  xq : Vector (List DWord) 4
  /-- the program time at which its last bundle issued, if that bundle was in lockstep (R22) -/
  locked : Option Nat
  /-- extra issue cycles the present bundle has waited (R18) -/
  banked : Nat
  waiting : Option (Waits × Nat)
  /-- it has reached a `bar` (false) or a `bar.g` (true), and whether it may leave (R321) -/
  barrier : Option (Bool × Bool)
  deferred : List Deferred
  /-- the pending tag of record mode (R270) -/
  tag : DWord
  /-- a stop request is to drain this agent; the agent has stopped for it (R104) -/
  draining : Bool
  stopped : Bool
  /-- drain pending: an `ldrain` stops the agent (R105) -/
  drainPend : Bool
  bun : Bun
  deriving DecidableEq, Repr

/-! ## The matrix engine and its streams -/

/-- An accumulator (R184): its elements in row-major order, and what an element beyond the list reads as: 0, or a free
value of the number given (R330). The poison mask has one bit per row. -/
structure Acc where
  rows : Nat
  cols : Nat
  isI32 : Bool
  elems : List Word
  fill : Option Nat
  live : Bool
  poison : BitVec 128
  deriving DecidableEq, Repr

/-- A stream descriptor (R177). -/
structure StrDesc where
  kind : Nat
  ty : Nat
  flags : Nat
  chan : Nat
  rows : Nat
  cols : Nat
  base : Nat
  plane : Nat
  rstr : Nat
  pstr : Nat
  count : Nat
  sstr : Nat
  sbase : Nat
  sblk : Nat
  deriving DecidableEq, Repr

/-- States of a stream (R183). -/
inductive StState where
  | unconf | input | output | exhausted | faulted
  deriving DecidableEq, Repr

/-- A scale byte of a piece as it was read: its value, whether it was poisoned, or the failure of its reading. -/
structure ScaleB where
  val : Byte
  bad : Bool
  fault : Option (Byte × DWord)
  deriving DecidableEq, Repr

/-- One piece as it was read or is to be written: element codes in row-major order (trits as their digits) with their
poison, the scale bytes, whether a ternary byte above 242 was read, and the failure of its reading (R179, R181). -/
structure Piece where
  gen : Nat
  idx : Nat
  rows : Nat
  cols : Nat
  elems : List Word
  bad : List Bool
  scales : List ScaleB
  tc : Bool
  fault : Option (Byte × DWord)
  deriving DecidableEq, Repr

/-- A finished output piece that is still to be written (R180): the agents that issued its operation, the operation's number,
the number the piece was handed out under, the descriptor its claim was made with, and the piece. -/
structure OutP where
  agents : List AgentId
  seq : Nat
  no : Nat
  desc : StrDesc
  piece : Piece
  deriving DecidableEq, Repr

/-- A stream register (R177 to R183). `gen` counts configurations; `prev` is the descriptor of claims made before the
last one; `gate` is the gating of a captured stream: pieces claimed at install, pieces per firing, starting slice,
driving slot (R212). `cut`: `stcut` has issued, and pieces claimed before it are still to be delivered or written (R182). -/
structure Strm where
  state : StState
  desc : StrDesc
  gen : Nat
  claimed : Nat
  consumed : Nat
  filled : Nat
  buf : List Piece
  outq : List OutP
  cause : Byte
  sub : Byte
  owner : AgentId
  captured : Option (BitVec 5)
  gate : Option (Nat × Nat × Nat × BitVec 6)
  cut : Bool
  deriving DecidableEq, Repr

/-- Pieces an operation has claimed on a stream (R181). -/
structure Claim where
  st : BitVec 4
  gen : Nat
  first : Nat
  count : Nat
  used : Nat
  desc : StrDesc
  deriving DecidableEq, Repr

/-- A fault the engine found (R195): cause, subcode, address, the chunk it stopped at, and the enabled flags of a
firing's fence (R216). `tail`: the last 64 bytes of its frame (R340). -/
structure EngErr where
  cause : Byte
  sub : Byte
  addr : DWord
  chunk : Nat
  fence : BitVec 7
  tail : List Byte
  deriving DecidableEq, Repr

/-- A candidate of a screen: logit and token id (R231). -/
abbrev Cand := Nat × Nat

/-- The screen of a row (R231, R233): normaliser, candidates, label slots (id, logit). -/
structure RowScr where
  norm : Nat × Nat
  cands : List Cand
  labs : List (Nat × Nat)
  deriving DecidableEq, Repr

/-- An operation of the matrix engine's queue (R192, R193), with what it captured at issue. -/
structure EngOp where
  seq : Word
  uid : Nat
  owner : AgentId
  members : List (AgentId × Nat)
  pc : DWord
  ins : Instr
  /-- the word as it was fetched (R267) -/
  word : DWord
  claims : List Claim
  valA : DWord
  valB : DWord
  addr : DWord
  screen : DWord
  rngkey : Word
  atrap : Word
  tag : DWord
  rule : Option (BitVec 5 × Nat)
  blk : List Byte
  /-- where it goes on: K chunk or rank, row, and the rows that still need that chunk (R197, R235, R328) -/
  chunk : Nat
  row : Nat
  need : BitVec 128
  /-- the screens of a `vproj` and its block; for the row at which it stopped, whether its record is written, and the rank at
  which its certification stopped (R328) -/
  scr : List RowScr
  block : Nat
  wrote : Bool
  rank : Nat
  /-- a block that it has read once: the mask of an `attn`, whose key count then stands in `rank` (R255, R256) -/
  mask : List Byte
  /-- the accumulator before its first change, and the pieces it has consumed, each with its stream, newest first (R271) -/
  before : Option Acc
  taken : List (BitVec 4 × Piece)
  /-- flags that its finished part has raised -/
  flags : BitVec 7
  err : Option EngErr
  deriving DecidableEq, Repr

/-- States of a rule (R220). -/
inductive RlState where
  | idle | armed | firing | faulted | parked | revoked
  deriving DecidableEq, Repr

/-- A standing rule (R210 to R223). -/
structure Rule where
  state : RlState
  form : Stand
  word : DWord
  blk : List Byte
  addr : DWord
  streams : List (BitVec 4)
  drive : BitVec 6
  in1 : Option (BitVec 6)
  outs : List (BitVec 6)
  next : Nat
  limit : Option Nat
  revoking : Bool
  pinned : Bool
  cause : Byte
  limitHit : Bool
  replays : Nat
  atrap : Word
  rngkey : Word
  screen : DWord
  tag : DWord
  cluster : AgentId
  order : Nat
  /-- number of the installing operation (R326) -/
  uid : Nat
  pc : DWord
  /-- a firing that has completed and not yet retired: its flags, or its fault -/
  fired : Option (BitVec 7 × Option EngErr)
  deriving DecidableEq, Repr

/-- An open-tensor slot (R202 to R205). -/
structure OSlot where
  conf : Bool
  base : Nat
  ty : Nat
  rank : Nat
  flags : Nat
  w : Nat
  e0 : Nat
  e1 : Nat
  stride : Nat
  fill : Nat
  /-- the consume mark an `otcfg` loaded, while it stands (R205) -/
  loaded : Option Nat
  soft : Nat
  cap : Nat
  deriving DecidableEq, Repr

/-! ## Copies -/

/-- The copy forms (R289). -/
inductive CopyKind where
  | cpy | cpyg | cpys | cpymc | cpred
  deriving DecidableEq, Repr

/-- A parameter block (R286). -/
structure CopyBlk where
  chan : BitVec 2
  flags : BitVec 8
  slot : BitVec 6
  red : BitVec 8
  rows : Nat
  src : Nat
  dst : Nat
  len : Nat
  amount : Nat
  sstr : Nat
  dstr : Nat
  list : Nat
  bound : Nat
  deriving DecidableEq, Repr

/-- A copy of a channel (R284, R285), with the base row of a firing (R294). -/
structure Copy where
  id : Word
  kind : CopyKind
  blk : CopyBlk
  rule : Option (BitVec 5 × Nat)
  pc : DWord
  pos : Nat
  rowBase : Nat
  srcMod : Nat
  dstMod : Nat
  indices : Option (List Nat)
  flags : BitVec 7
  /-- the order in which the core requested it, over all channels (R167) -/
  seq : Nat
  deriving DecidableEq, Repr

/-- A copy fault (R296). `shown`: the cause that the frame shows for a failed index fetch. -/
structure CopyErr where
  cause : Byte
  shown : Option Byte
  sub : Byte
  addr : DWord
  step : Nat
  copy : Copy
  deriving DecidableEq, Repr

/-- A copy channel (R284, R285). -/
structure Chan where
  queue : List Copy
  started : List Copy
  next : Word
  done : Word
  completed : List Word
  /-- faults still to be delivered, oldest first (R296) -/
  faults : List CopyErr
  deriving DecidableEq, Repr

/-- Who holds an entry of the scoreboard: a copy of the core's channels, one of the context-save engine that restores a
footprint (R346), or one that another core's access processor has issued, by number (R143). -/
inductive Holder where
  | copy | restore
  | peer (n : Nat)
  deriving DecidableEq, Repr

/-- An entry of the range scoreboard (R143). -/
structure Board where
  lo : Nat
  hi : Nat
  outbound : Bool
  chan : BitVec 2
  id : Word
  holder : Holder
  deriving DecidableEq, Repr

/-! ## Runs, contexts, partitions -/

/-- A level of the loop table (R59). -/
structure TblLvl where
  kind : Nat
  drainable : Bool
  axis : Nat
  extent : Nat
  deriving DecidableEq, Repr

/-- What a run keeps of its image (R56). -/
structure Image where
  hdr : Nat
  code : Nat
  entries : List Nat
  levels : List TblLvl
  fpBase : Nat
  fpSize : Nat
  accMask : BitVec 4
  smirs : List Word
  vmirs : List Word
  gang : Nat
  deriving DecidableEq, Repr

/-- The snapshot of a slice record (R302). -/
structure Snap where
  code : Nat
  frame : DWord
  deadline : DWord
  budget : Nat
  maskIdx : Nat
  gang : Nat
  origin : Nat
  drainable : Bool
  prio : Nat
  loopTab : Nat
  waitMask : BitVec 256
  setMask : BitVec 256
  deriving DecidableEq, Repr

/-- The run that a bank holds (R311, R312). -/
structure Run where
  ctx : BitVec 6
  part : BitVec 4
  supervisor : Bool
  recAddr : DWord
  snap : Snap
  logcore : Nat
  /-- die number x 64 + core number of each member (R62), by member number -/
  members : List Nat
  img : Image
  model : Option (BitVec 3)
  budget : Nat
  cause : BitVec 16
  service : Bool
  /-- a service slice that interrupts a context (R341, R408) -/
  interrupts : Bool
  signalled : BitVec 256
  /-- how the run is ending (R313): `some none` slend, `some (some d)` yield with deadline d -/
  ending : Option (Option DWord)
  /-- a partition reset has discarded the run (R409) -/
  dropped : Bool
  replays : Nat
  replayPc : DWord
  /-- a member core outside the model has not come as far as this one: it has not reached `bar.g`, or its end (R313, R321) -/
  behind : Bool
  /-- the kind that logical member 0 has reached outside the model (R313) -/
  kind : Option (Option DWord)
  /-- another member's trap has parked the gang while this core serves, and the run is being saved: cause and subcode (R344) -/
  parked : Option (Byte × Byte)
  deriving DecidableEq, Repr

/-- Record mode of a context on a core (R265, R271, R275). -/
structure RecMode where
  on : Bool
  overflow : Bool
  arena : DWord
  count : Nat
  offset : Nat
  tail : Nat
  size : Nat
  /-- result id and offset of each entry appended, newest first (R268) -/
  entries : List (Nat × Nat)
  deriving DecidableEq, Repr

/-- Everything a core holds for one context: the active bank, the shadow bank and a saved core area (R5, R345). -/
structure Bank where
  agents : Vector Agent 5
  accs : Vector Acc 4
  streams : Vector Strm 16
  eng : List EngOp
  seq : Word
  slots : Vector OSlot 64
  rules : Vector Rule 32
  /-- rules of the round in progress still to enter the queue (R214) -/
  round : List (BitVec 5)
  installs : Nat
  /-- held operations, of an engine fault or of a resume, that come before the next round (R195, R223, R346) -/
  held : Nat
  /-- rules whose firings were in progress at a save: they come to their end before the next round starts (R223) -/
  firings : List (BitVec 5)
  chans : Vector Chan 4
  pqwin : Word
  screen : DWord
  recm : RecMode
  joint : Nat
  run : Option Run
  uid : Nat
  /-- bytes of the footprint a save has taken, the undefined ranges and the poisoned granules in it (R144, R345) -/
  pad : Option (List Host.Cell × List (Nat × Nat × Nat) × List Nat)
  deriving DecidableEq, Repr

/-- Why the core is frozen (R28). -/
inductive FreezeWhy where
  | bankBusy | board | refresh | underrun | data | walk | fetch | thermal | share | latch
  | replay
  /-- a retried flit that holds a bounded result, and the die that counts it (R412) -/
  | retry (die : Nat)
  /-- a correctable error in a unit of a die, numbered as the health counters are (R412) -/
  | correction (unit : BitVec 2) (die : Nat)
  deriving DecidableEq, Repr

/-- A freeze in force: its cause and the cycles left; 0 cycles: until its event ends it (R28). -/
structure Freeze where
  why : FreezeWhy
  left : Nat
  deriving DecidableEq, Repr

/-- What the core does after a switch or a save. -/
inductive After where
  | service (part : BitVec 4) (sub : Byte)
  | back
  | ready
  | park (cause sub : Byte)
  | kill
  | done
  deriving DecidableEq, Repr

/-- What the core is doing. -/
inductive Phase where
  | idle
  | running
  /-- the 48 cycles of R32: those still to come -/
  | switching (a : After) (left : Nat)
  | saving (a : After)
  /-- a run that has reached `slend` or `yield` drains (R313) -/
  | draining
  /-- a stop request drains its loops (R104) -/
  | stopping
  deriving DecidableEq, Repr

/-- A translation held by a TLB (R405): context, page base and size, physical key of the page, permissions. -/
structure TlbEnt where
  ctx : BitVec 6
  va : Nat
  size : Nat
  key : Nat
  w : Bool
  x : Bool
  deriving DecidableEq, Repr

/-- A walk in progress (R405): context, virtual address, the wall time at which it is complete, and the program time at
which its access must have passed translation (R28, R31). -/
structure Walk where
  ctx : BitVec 6
  va : Nat
  till : Nat
  due : Nat
  /-- the cause of a walk that has failed, until its access has taken it -/
  bad : Option Byte
  /-- what the walk has read, once: a translation, or the cause it fails with (R405) -/
  ent : Option TlbEnt
  fails : Byte
  deriving DecidableEq, Repr

/-! ## Memory and its ordering (R162 to R175) -/

/-- The operations of the atomics on values of `w` bytes: old value, operand, compare value; `none` writes nothing. -/
inductive AmoOp where
  | add | swp | cas | min | max | minn | maxn | and | or | xor
  deriving DecidableEq, Repr

/-- How far a releasing agent stands from the core's agents (R163): one of the core, or outside it by 2 die, 3 package,
4 system. -/
inductive Party where
  | here (a : AgentId)
  | far (n : Nat)
  deriving DecidableEq, Repr

/-- A release of a sync object (R157, R170): who made it, its scope, and the regions bound to the object then, by key.
Its context is that whose reset forgets it (R409). -/
structure Rel where
  ctx : BitVec 6
  obj : Nat
  who : Party
  scope : Scope
  regions : List (Nat × Nat)
  deriving DecidableEq, Repr

/-- What a pending write is: a plain one; a release, which is noted when it is performed (R150, R170); or an atomic, with the
result that its old value goes to, its operation and operands, whether its destination discards, and the release that it
is, if any (R152, R153). -/
inductive PendK where
  | plain
  | rel (r : Rel)
  | amo (uid : Nat) (o : AmoOp) (b x : Nat) (discards : Bool) (r : Option Rel)
  deriving DecidableEq, Repr

/-- A write that an agent has requested and that has not been performed yet: one element (R162), on the agent's own path
or on path GA, with its virtual address and its lane; an atomic's bytes stand for its width alone. `clean`: with it a whole
granule has been written (R144). `seen`: it counts as performed for the agent's other paths (0), for the core (1), the die
(2), the package (3), since a release or a fence of that scope stands behind it (R160, R163, R174). `no`: its place in the
order of the core's requests (R167). -/
structure PendW where
  agent : AgentId
  path : Path
  va : DWord
  lane : Nat
  key : Nat
  bytes : List Byte
  clean : Bool
  seen : Option Nat
  no : Nat
  kind : PendK
  deriving DecidableEq, Repr

/-- A plain read that an agent has requested and that has not been performed yet (R162): the result it goes to, the bytes of
each element, the elements still to be read (lane, virtual address, key), and the mark found so far with its lane (R145).
`upto`: it counts as performed for the agents within a distance, since a release or a fence of that scope stands behind it:
no write of theirs there comes before it (R160, R166, R174). -/
structure PendR where
  agent : AgentId
  path : Path
  uid : Nat
  vec : Bool
  w : Nat
  todo : List (Nat × DWord × Nat)
  mark : Option (Nat × Mark)
  upto : Option Nat
  deriving DecidableEq, Repr

/-- Bytes that an agent's path has read early, or holds a copy of: a later plain read there may return them (R166, R171). `va`
is their virtual address. `missed`: the least distance (R163) of an agent that has written there since, if one has. `op`: a
write of the core's engine is among them (1), one of a vocabulary operation (2) (R244, R282). -/
structure Held where
  agent : AgentId
  path : Path
  va : Nat
  key : Nat
  bytes : List Byte
  missed : Option Nat
  op : Nat
  deriving DecidableEq, Repr

/-- Memory: listed bytes in canonical form, undefined ranges (low, high, tag), and poisoned 64-byte granules. -/
structure Memory where
  cells : List Host.Cell
  undefs : List (Nat × Nat × Nat)
  poison : List Nat
  deriving DecidableEq, Repr

/-- A withheld trap-queue record (R335), and for a REPLAY what its writing releases: a slice, or a rule of a context's
logical core. -/
structure Withheld where
  bytes : List Byte
  slice : Option (BitVec 6 × DWord)
  rule : Option (BitVec 6 × Nat × BitVec 5)
  deriving DecidableEq, Repr

/-- Watchdog interval, deadline guard and timer period as the last admission took them (R399), and the wall time from
which the timer's present period counts. -/
structure PartNow where
  watchdog : Nat
  guard : Nat
  timer : Nat
  last : Nat
  deriving DecidableEq, Repr

/-- A partition block (R399). -/
structure Part where
  enabled : Bool
  resetting : Bool
  stopped : Bool
  preShares : Bool
  preDeadlines : Bool
  writeErr : Bool
  weight : Nat
  cap : Nat
  lpShare : Nat
  wsShare : Nat
  banks : BitVec 8
  pqs : BitVec 8
  msixBase : Nat
  msixCount : Nat
  watchdog : Nat
  guard : Nat
  ring : Nat
  ctl : Nat
  service : Nat
  timer : Nat
  invAddr : DWord
  invCmd : Word
  invBusy : Bool
  /-- core-cycles held on the die (R401) -/
  used : Nat
  now : PartNow
  /-- cores that ran the partition since its last reset (R409) -/
  ran : List Nat
  /-- doorbell requests queued: die and subcode (R408), oldest first -/
  doorbells : List (Nat × Byte)
  /-- oldest first -/
  withheld : List Withheld
  ownerKey : List Byte
  deriving DecidableEq, Repr

/-- A loaded image (R390, R396): header address, size, the bytes that were signed, and its pages. -/
structure Loaded where
  hdr : Nat
  size : Nat
  bytes : List Byte
  /-- virtual page and physical page of each page of the image -/
  pages : List (Nat × Nat)
  deriving DecidableEq, Repr

/-- A context block (R400) with the context's package state. -/
structure Ctx where
  defined : Bool
  supervisor : Bool
  part : BitVec 4
  root : Nat
  action : Nat
  masks : Nat
  save : Nat
  areas : Nat
  stride : Nat
  ev : BitVec 256
  err : BitVec 256
  /-- index, sync object, base, length (R158) -/
  binds : List (Nat × DWord × DWord × Nat)
  model : Option (BitVec 3)
  images : List Loaded
  /-- physical pages that the loader has taken for the context's tables (R390) -/
  tables : List Nat
  deriving DecidableEq, Repr

/-- A record held by the scheduler (R302 to R305): states 1 to 4. -/
structure SRec where
  ctx : BitVec 6
  addr : DWord
  /-- the physical key of the record (R305: its home) -/
  home : Nat
  die : Nat
  snap : Snap
  state : Nat
  order : Nat
  /-- it resumes from a save with this budget (R312) -/
  resume : Option Nat
  /-- consecutive REPLAYs of its admission (R304) -/
  replays : Nat
  /-- records with later keys that have overtaken it (R309) -/
  passed : Nat
  /-- cores are reserved for its gang (R310) -/
  reserves : Bool
  service : Option Byte
  model : Option (BitVec 3)
  /-- cause and subcode of the last trap of its run (R305) -/
  last : Byte × Byte
  /-- it has started or been parked since it was pushed (R303) -/
  begun : Bool
  deriving DecidableEq, Repr

/-- A model slot of a partition (R391): bank groups, size, bytes its digest has absorbed. -/
structure Model where
  defined : Bool
  mask : BitVec 8
  size : Nat
  absorbed : List Byte
  deriving DecidableEq, Repr

/-- An entry of an export table (R385). -/
structure Export where
  valid : Bool
  writable : Bool
  srcPkg : Nat
  srcPart : Nat
  base : Nat
  size : Nat
  deriving DecidableEq, Repr

/-- Barux Link of the package (R383, R384). -/
structure Link where
  configured : Bool
  pkg : BitVec 11
  enable : Word
  up : Word
  trained : Word
  /-- ports that have trained since LINK_CONFIG, and the wall time by which the others must (R383) -/
  ever : Word
  trainBy : Nat
  /-- port and wall time of each flit retry, newest first (R389) -/
  retries : List (Nat × Nat)
  /-- destination package, port mask, and ports of the mask that have gone down since it was installed -/
  routes : List (Nat × Word × Word)
  /-- flits passed on: port, destination -/
  forwarded : List (Nat × Nat)
  deriving DecidableEq, Repr

/-- The health record of a die (R412). -/
structure Health where
  counters : List Nat
  hot : BitVec 16
  power : Nat
  wear : List Nat
  worst : Nat
  worstWear : Nat
  rate : Nat
  hours : Nat
  /-- hourly samples since cold reset, newest first: the hour of wall time and the wear (R415) -/
  history : List (Nat × List Nat)
  deriving DecidableEq, Repr

/-- The thermal throttle of the core's die (R414). -/
structure Throttle where
  f : Nat
  trip : Bool
  windows : Nat
  /-- the sensors' present readings: hottest, power of the die, power of the module -/
  hot : BitVec 16
  dieP : Nat
  modP : Nat
  /-- powers of die and module in the last windows, newest first: at most 16 -/
  powers : List (Nat × Nat)
  /-- the window that has been judged -/
  judged : Option Nat
  deriving DecidableEq, Repr

/-- The debug port (R417, R418): frozen, FRZACK, the last answer frame, whether a transaction is open. -/
structure Debug where
  frz : Bool
  ack : Bool
  answer : List Byte
  busy : Bool
  partsOff : Bool
  /-- number of the free values that the present freeze shows (the model's own) -/
  tag : Nat
  deriving DecidableEq, Repr

/-- MSI-X of the function (R379, R407): vectors that have been posted and not yet taken by the host, in order; masked vectors;
vectors whose pending bit is set. -/
structure Msix where
  sent : List Nat
  masked : List Nat
  pending : List Nat
  deriving DecidableEq, Repr

/-- CXL return codes of the mailbox (R386, R387). -/
inductive RetCode where
  | success | busy | unsupported
  deriving DecidableEq, Repr

/-- The mailbox (R386 to R388): a command in progress and what it is to do, the last return code and response payload.
`discard`: a hot reset has come during the command (R393). -/
structure Mailbox where
  busy : Bool
  code : RetCode
  response : List Byte
  running : Option Instr
  discard : Bool
  /-- wall time at which the command in progress began (R392) -/
  since : Nat
  deriving DecidableEq, Repr

/-- The choices that the manual leaves to the device, as plain data the steps read from the head (R309, R322, R141,
R390). -/
structure Oracle where
  /-- which of the selectable entries -/
  pick : List Nat
  /-- freezes that strike the core, one entry per program-time cycle -/
  freezes : List (Option Freeze)
  /-- which elements of a store instruction are not performed at once, and whether an atomic is not, a mask for each (R162,
  R166) -/
  late : List Nat
  /-- which pending writes stay pending at the end of a cycle, a mask for each cycle -/
  keep : List Nat
  /-- what agents read early, for each cycle: agent, path, virtual address, bytes (R166, R171) -/
  early : List (List (AgentId × Path × Nat × Nat))
  /-- which elements of a plain load are not read at once, a mask for each load, and which reads stay pending at the end of a
  cycle, a mask for each cycle (R162, R166) -/
  lateReads : List Nat
  keepReads : List Nat
  /-- wall cycles that a walk takes (R28, R405) -/
  walks : List Nat
  /-- wall cycles that the restore of a footprint takes (R346) -/
  restores : List Nat
  /-- placement: core, die and mirror bits of each selection -/
  place : List (Nat × Nat × Nat)
  /-- where the loader puts an image: virtual and physical address -/
  load : List (Nat × Nat)
  /-- what remote packages do not serve (R385): package, low and high address, true if writes alone are refused -/
  refuse : List (Nat × Nat × Nat × Bool)
  deriving DecidableEq, Repr

/-- The four actions of the action table (R329, R330). -/
inductive Act where
  | kill | replay | park | forward
  deriving DecidableEq, Repr

/-- What happens outside the instruction table: what other cores, other packages, the host, memory devices and sensors do to
this core and its package. -/
inductive Outside where
  /-- bytes that an agent outside the core, at a distance, writes at a key, performed at once (R162, R163) -/
  | peerWrite (key : Nat) (bytes : List Byte) (distance : Nat)
  /-- a copy that another core's access processor has issued moves bytes of the scratchpad of a core, this one or another
  member's: its entry is taken, by number and offsets, and released (R143) -/
  | peerCopyBegins (core n lo hi : Nat) (outbound : Bool)
  | peerCopyEnds (n : Nat)
  /-- agents outside the core set bits of a context's event vector with their companions, or clear bits (R308); `member`: another
  member of the gang of the core's run, by `evset` (R314) -/
  | peerSets (ctx : BitVec 6) (bits err : BitVec 256) (member : Bool)
  | peerClears (ctx : BitVec 6) (bits : BitVec 256)
  /-- a release by such an agent, of any context: what it has written before is published, with the regions bound to its sync
  object by key (R157, R170) -/
  | peerRelease (ctx : BitVec 6) (key distance : Nat) (scope : Scope) (regions : List (Nat × Nat))
  /-- another member of the gang has trapped: cause, subcode and action (R327) -/
  | memberTrap (cause sub : Byte) (act : Act)
  /-- members outside the core have yet to reach the barrier or the end at which this core waits; they have reached it, the
  logical member 0 with this kind (R313, R321) -/
  | peersBehind
  | peersReached (kind : Option (Option DWord))
  /-- a core of the package comes to run a partition, or has become free (R310, R401) -/
  | coreBusy (core : Nat) (part : BitVec 4)
  | coreFree (core : Nat)
  /-- an uncorrectable error in memory, or poison that a memory device returns (R144, R382) -/
  | memoryError (key : Nat)
  /-- an uncorrectable error in a row of an accumulator (R196) -/
  | accError (acc : BitVec 2) (row : BitVec 7)
  /-- a started copy moves some of its rows (R284) -/
  | copyRows (ch : BitVec 2) (id : Word) (rows : Nat)
  /-- the host reads BAR 2 (R398, R412), or the memory-device status register (R397) -/
  | barRead (off len : Nat)
  | statusRead
  /-- the host reads the function's configuration space, or CXL device registers (R379) -/
  | configRead (off len : Nat)
  | deviceRegRead (off len : Nat)
  /-- the host masks or unmasks a vector, or takes one that has been posted (R379, R407) -/
  | vectorMask (v : Nat) (on : Bool)
  | vectorTaken (v : Nat)
  /-- a doorbell whose command runs on; the command's end (R386, R393) -/
  | doorbell (i : Instr)
  | commandEnds
  /-- a host access through the window is outstanding, or has completed (R389) -/
  | hostAccess (begins : Bool)
  /-- an atomic of another package on `w` bytes: operand and compare value (R153, R385) -/
  | remoteAtomic (pkg : BitVec 11) (part : BitVec 4) (pa w : Nat) (op : AmoOp) (b x : Nat)
  /-- an access accepted through an export entry is outstanding, or has been performed (R385) -/
  | exported (part : BitVec 4) (entry : BitVec 6) (begins : Bool)
  /-- a flit of a link port is retried, and the die that counts it (R389, R412) -/
  | linkRetry (port : BitVec 5) (die : Nat)
  /-- what happens on a die that is not this core's doing adds to a counter of its health record: errors, retries, machine checks
  and frozen cycles of other cores (R412) -/
  | dieCounts (die : Nat) (counter : Fin 10) (n : Nat)
  /-- capacity in GiB of the device on a memory port from now on; completion errors of a port begin or end (R382) -/
  | deviceGiB (port : BitVec 2) (gib : Nat)
  | deviceErrors (port : BitVec 2) (on : Bool)
  /-- what the sensors of a die and the module read from now on (R414) -/
  | sensors (die : Nat) (hot : BitVec 16) (dieP modP : Nat)
  /-- what the wear monitors of a die show from now on (R415) -/
  | monitors (die : Nat) (wear : List Nat)
  /-- a transaction of the debug channel: the bytes of its command frame (R417) -/
  | debugFrame (bytes : List Byte)
  deriving DecidableEq, Repr

/-- How the bundle at issue stands: it goes on, it waits, or it has trapped. -/
inductive Verdict where
  | ok
  | stall (w : Waits)
  /-- `early`: at the reading of its operands (R25, R145) -/
  | trapped (early : Bool)
  deriving DecidableEq, Repr

/-- The whole state. -/
structure State where
  /-- program time of the core (R8) -/
  pt : Nat
  /-- wall time, the package timebase (R7) -/
  wall : Nat
  phase : Phase
  /-- the active bank and the shadow bank (R5) -/
  bank : Bank
  shadow : Option Bank
  /-- core areas: context, logical core, saved bank (R337) -/
  areas : List (BitVec 6 × Nat × Bank)
  /-- areas held by killed runs: context, first area, count, and the producer index after their record; none: the record
  was lost (R337) -/
  heldAreas : List (BitVec 6 × Nat × Nat × Option Nat)
  freezes : List Freeze
  board : List Board
  /-- wall time at which the restore of a footprint is complete (R346) -/
  restoreAt : Nat
  /-- per-core special register writes of this cycle (R108) -/
  srPend : List (BitVec 8 × DWord)
  /-- event bits that have been set in this cycle, by context, and their error companions (R308) -/
  evSets : List (BitVec 6 × BitVec 256 × BitVec 256)
  /-- the agent whose turn it is in this cycle -/
  turn : AgentId
  /-- die and core number of the modelled core (R107) -/
  die : Nat
  core : Nat
  verdict : Verdict
  mem : Memory
  /-- writes requested and not yet performed, oldest first (R162) -/
  pend : List PendW
  /-- reads requested and not yet performed, oldest first (R162) -/
  reads : List PendR
  held : List Held
  /-- the agent whose requests the engine carries out (R162); none: a read is served at the home (the model's own) -/
  reader : Option AgentId
  rels : List Rel
  tlb : List TlbEnt
  /-- the walk that the core is frozen for, or whose failure waits for its access -/
  walk : Option Walk
  /-- walks of memory instructions that have issued (R31) -/
  walks : List Walk
  /-- the bank refreshing and the wall time its refresh ends (R142) -/
  refresh : BitVec 6 × Nat
  /-- service requests, each with whether it is re-posted, and a stop request, that wait for a boundary (R344) -/
  svcPend : List (BitVec 4 × Byte × Bool)
  stopPend : Bool
  /-- a fault has come before the stop request that waits (R32, R344) -/
  reposted : Bool
  /-- another member's trap stops this core at its next boundary: cause, subcode, action (R327) -/
  gangStop : Option (Byte × Byte × Act)
  /-- the agent whose faulting bundle a REPLAY is to issue again (R344) -/
  reissue : Option AgentId
  ctxs : Vector Ctx 64
  parts : Vector Part 16
  recs : List SRec
  pushes : Nat
  /-- cores outside the model that run a gang, by die number x 64 + core number, with its partition (R62, R401, R403) -/
  taken : List (Nat × BitVec 4)
  /-- entries of the die's units, key and value, in push order (R322) -/
  pqs : Vector (List (DWord × DWord)) 8
  models : Vector (Vector Model 8) 16
  exports : Vector (Vector Export 64) 16
  link : Link
  portsUp : BitVec 4
  /-- ports whose device answers with completion errors (R382) -/
  portsErr : BitVec 4
  /-- capacities in GiB that the last cold reset of this power-up has found, where it has come; what the devices present now
  (R382) -/
  mapped : Option (List Nat)
  devices : List (Nat × Nat)
  window : Nat × Nat
  /-- host accesses through the window, and accesses through export entries, that are outstanding (R385, R389) -/
  hostOut : Nat
  exportOut : List (BitVec 4 × BitVec 6)
  msix : Msix
  mailbox : Mailbox
  health : Vector Health 24
  /-- what the wear monitors of the dies show, where they have been said to show anything since power-up, and the hour of wall
  time that the firmware has sampled last (R415) -/
  monitors : List (Nat × List Nat)
  sampled : Nat
  /-- what the counters have counted in this cycle: die, counter, amount (R413) -/
  tally : List (Nat × Nat × Nat)
  throttle : Throttle
  dbg : Debug
  powered : Bool
  /-- boot stage, and the media status that a failing LPDDR channel sets (R397) -/
  stage : Nat
  mediaBad : Bool
  /-- the model's own: stimuli still to come, choices, and how many free values have been taken -/
  inbox : List Instr
  outside : List Outside
  oracle : Oracle
  free : Nat
  /-- wall times from which the engine, the copy channels and the slice sequencer may take their next event -/
  engAt : Nat
  copyAt : Nat
  ruleAt : Nat
  /-- what the last host or remote access was answered with, and whether it was poisoned; none: it was refused -/
  reply : Option (List Byte × Bool)
  deriving DecidableEq, Repr

/-! ## Reset values -/

/-- A queue position of a new context: zero, no pending result (R17). -/
def SEnt.zero : SEnt := ⟨0, 0, .at 0, none⟩
/-- A vector queue position of a new context (R17). -/
def VEnt.zero : VEnt := ⟨0, 0, .at 0, none⟩

/-- The default tag (R269). -/
def defaultTag : DWord := 0x0003FFFFFFFFFFFF

/-- An agent at a run's start, entry and frame registers apart (R17, R311). -/
def Agent.init : Agent where
  pc := 0
  halted := false
  sq := List.replicate 16 SEnt.zero
  vq := List.replicate 16 VEnt.zero
  k := Vector.replicate 16 0
  g := Vector.replicate 32 0
  vk := Vector.replicate 16 0
  v := Vector.replicate 32 0
  m := Vector.replicate 8 0
  latches := []
  marks := []
  aflags := 0
  atrap := 0
  rope := 0
  rngkey := 0
  smir := 0
  vmir := 0
  loops := []
  saved := []
  bq := []
  xq := Vector.replicate 4 []
  locked := none
  banked := 0
  waiting := none
  barrier := none
  deferred := []
  tag := defaultTag
  draining := false
  stopped := false
  drainPend := false
  bun := Bun.start 0 0 false

/-- An accumulator of a new context (R184). -/
def Acc.init : Acc := ⟨128, 128, false, [], none, false, 0⟩

/-- The descriptor of an unconfigured stream. -/
def StrDesc.zero : StrDesc := ⟨0, 0, 0, 0, 0, 0, 0, 0, 0, 0, 0, 0, 0, 0⟩

/-- A stream of a new context (R183). -/
def Strm.init : Strm := ⟨.unconf, .zero, 0, 0, 0, 0, [], [], 0, 0, 4, none, none, false⟩

/-- A slot of a new context (R202). -/
def OSlot.init : OSlot := ⟨false, 0, 0, 0, 0, 0, 0, 0, 0, 0, none, 0, 0⟩

/-- A free rule (R220: state idle). -/
def Rule.init : Rule :=
  ⟨.idle, .tact 0 0 0, 0, [], 0, [], 0, none, [], 0, none, false, false, 0, false, 0, 0, 0, 0, defaultTag, 0, 0, 0, 0,
    none⟩

/-- A channel of a new context (R285). -/
def Chan.init : Chan := ⟨[], [], 1, 0, [], []⟩

/-- Record mode off (R265). -/
def RecMode.init : RecMode := ⟨false, false, 0, 0, 0, 0, 0, []⟩

/-- The bank of a new context (R17, R183, R184, R191, R193, R202, R285). DESIGN CHOICE, log 3. -/
def Bank.init : Bank where
  agents := Vector.replicate 5 Agent.init
  accs := Vector.replicate 4 Acc.init
  streams := Vector.replicate 16 Strm.init
  eng := []
  seq := 0
  slots := Vector.replicate 64 OSlot.init
  rules := Vector.replicate 32 Rule.init
  round := []
  installs := 0
  held := 0
  firings := []
  chans := Vector.replicate 4 Chan.init
  pqwin := 0
  screen := 0
  recm := RecMode.init
  joint := 0
  run := none
  uid := 1
  pad := none

/-- A partition block before the driver has written it. -/
def Part.init : Part :=
  ⟨false, false, false, false, false, false, 0, 0, 0, 0, 0, 0, 0, 0, 0, 0, 0, 0, 0, 0, 0, 0, false, 0, ⟨0, 0, 0, 0⟩, [], [], [], []⟩

/-- A context that is not defined (R400). -/
def Ctx.init : Ctx := ⟨false, false, 0, 0, 0, 0, 0, 0, 0, 0, 0, [], none, [], []⟩

/-- A model slot that is not defined (R391). -/
def Model.init : Model := ⟨false, 0, 0, []⟩
/-- A clear export entry (R385). -/
def Export.init : Export := ⟨false, false, 0, 0, 0, 0⟩
/-- Barux Link before LINK_CONFIG (R383). -/
def Link.init : Link := ⟨false, 0, 0, 0, 0, 0, 0, [], [], []⟩
/-- A health record after cold reset (R413, R415). -/
def Health.init : Health := ⟨List.replicate 10 0, 0, 0, List.replicate 64 0, 0, 0, 0, 0xFFFFFFFF, []⟩

/-- The machine after package cold reset, at boot stage 6 (R7, R397): no partition enabled, no context defined, no
record pushed, the core idle. DESIGN CHOICE, log 2. -/
def State.reset : State where
  pt := 0
  wall := 0
  phase := .idle
  bank := Bank.init
  shadow := none
  areas := []
  heldAreas := []
  freezes := []
  board := []
  restoreAt := 0
  srPend := []
  evSets := []
  turn := 0
  die := 0
  core := 0
  verdict := .ok
  mem := ⟨[], [], []⟩
  pend := []
  reads := []
  held := []
  reader := none
  rels := []
  tlb := []
  walk := none
  walks := []
  refresh := (0, 128)
  svcPend := []
  stopPend := false
  reposted := false
  gangStop := none
  reissue := none
  ctxs := Vector.replicate 64 Ctx.init
  parts := Vector.replicate 16 Part.init
  recs := []
  pushes := 0
  taken := []
  pqs := Vector.replicate 8 []
  models := Vector.replicate 16 (Vector.replicate 8 Model.init)
  exports := Vector.replicate 16 (Vector.replicate 64 Export.init)
  link := Link.init
  portsUp := 0xF
  portsErr := 0
  mapped := none
  devices := []
  window := (0, 0)
  hostOut := 0
  exportOut := []
  msix := ⟨[], [], []⟩
  mailbox := ⟨false, .success, [], none, false, 0⟩
  health := Vector.replicate 24 Health.init
  monitors := []
  sampled := 0
  tally := []
  throttle := ⟨0, false, 0, 0, 0, 0, [], none⟩
  dbg := ⟨false, false, [], false, false, 0⟩
  powered := true
  stage := 6
  mediaBad := false
  inbox := []
  outside := []
  oracle := ⟨[], [], [], [], [], [], [], [], [], [], [], []⟩
  free := 0
  engAt := 0
  copyAt := 0
  ruleAt := 0
  reply := none

/-! ## How a step stops -/

/-- The machine stops with a fault. -/
inductive Fault where
  /-- Raised by every step and event but `coldReset` while the package has no power (R4): nothing runs. Safe. -/
  | unpowered
  deriving DecidableEq, Repr

/-- The step has no meaning. -/
inductive Refusal where
  /-- Raised by a dispatch arm whose instruction is not modelled yet. Safe. -/
  | notModelled (mnemonic : String)
  deriving DecidableEq, Repr

end Sys2Proof.Machine
end

