-- ==== Sys2Proof/Machine/Flags.lean ====
section
/-! DEFINITION. The sticky flags of R74 and how they accrue and are cleared (R106, R109). -/

namespace Sys2Proof.Machine

/-- Invalid operation. -/
def flIV : BitVec 7 := 0x01
/-- Division by zero. -/
def flDZ : BitVec 7 := 0x02
/-- Overflow. -/
def flOF : BitVec 7 := 0x04
/-- Underflow. -/
def flUF : BitVec 7 := 0x08
/-- Inexact. -/
def flNX : BitVec 7 := 0x10
/-- Ternary byte 243 to 255 decoded. -/
def flTC : BitVec 7 := 0x20
/-- Screen label id at or above the vocabulary size. -/
def flLB : BitVec 7 := 0x40

/-- A flag set exactly when a condition holds. -/
def flagIf (b : Bool) (f : BitVec 7) : BitVec 7 := if b then f else 0

/-- Flags accrue in `sr.aflags` (R109). -/
def Agent.accrue (a : Agent) (f : BitVec 7) : Agent := { a with aflags := a.aflags ||| f.setWidth 32 }

/-- The flags that a value written to `sr.aflags` or `sr.atrap` keeps (R74: bits 31 to 7 are ignored). -/
def flagWord (w : Word) : Word := w &&& 0x7F

/-- `clrf` (R106). -/
def Agent.clearFlags (a : Agent) (m : BitVec 7) : Agent := { a with aflags := a.aflags &&& ~~~(m.setWidth 32) }

/-- The enabled flags that stand: what a trap fence raises (R110). -/
def Agent.fence (a : Agent) : BitVec 7 := (a.aflags &&& a.atrap).setWidth 7

/-- Flags of an integer division (R92): DZ exactly when the divisor is zero. -/
def divFlags (b : Word) : BitVec 7 := flagIf (b == 0) flDZ

/-- The union of lane flags: a vector instruction sets a flag if any active lane would (R74). -/
def orFlags (l : List (BitVec 7)) : BitVec 7 := l.foldl (· ||| ·) 0

end Sys2Proof.Machine
end

