-- ==== Sys2Proof/Config.lean ====
section
/-! DEFINITION. What an implementation or the outside world fixes, and the free values: constants without a body, so
that nothing can be proved of what they are. -/

namespace Sys2Proof

/-- A byte the manual calls undefined: by the number of the range that became undefined, and the address
(R58, R217, R330). DESIGN CHOICE, log 7. -/
opaque Config.freeByte : Nat → Nat → Byte

/-- The part of a stream's FIFO fill that the manual leaves open (R183). -/
opaque Config.freeFill : Nat → BitVec 8

/-- An element of an accumulator that became undefined (R330): by the number of the range and the element's index. -/
opaque Config.freeElem : Nat → Nat → Word

/-- An element of an incoming gradient whose contributions are discarded (R277): by the number of the operation's free
values and the element's index. -/
opaque Config.freeGrad : Nat → Nat → Word

/-- A wear rate that the manual leaves open (R415), by the sample's number. -/
opaque Config.freeRate : Nat → Nat

/-- The fault address of an admission's record (R304), by the record's number. -/
opaque Config.freeAddr : Nat → DWord

/-- A byte of a loop table that cannot be read at an admission (R304): by wall time and offset. -/
opaque Config.tableByte : Nat → Nat → Byte

/-- A byte of BAR 2 beyond the blocks that the manual gives (R412), by wall time and offset. -/
opaque Config.barByte : Nat → Nat → Byte

/-- Capacity, in GiB, of the device that a memory port has from the start (R382). DESIGN CHOICE, log 8. -/
opaque Config.portGiB : Nat → Nat

/-- The die whose L2 is the home of a 512-byte block of device memory (R167). DESIGN CHOICE, log 60. -/
opaque Config.homeDie : Nat → Nat

/-- The device secret that is fused into the module: never readable (R395). -/
opaque Config.deviceSecret : List Byte

/-- The private and the public key that deterministic Falcon-1024 key generation derives from a seed (R395). -/
opaque Config.falconKeys : List Byte → List Byte × List Byte

/-- The Falcon-1024 signature of a message by a private key (R395, R396). -/
opaque Config.falconSign : List Byte → List Byte → List Byte

/-- What is fixed of the module: 0 ROM version, 1 serial, 2 the digest of its ROM (R389, R395, R396). -/
opaque Config.ident : Nat → List Byte

/-- The opcodes that the CXL register interface requires, and what they answer, by opcode and wall time (R386). -/
opaque Config.cxlRequired : BitVec 16 → Bool
opaque Config.cxlResponse : BitVec 16 → Nat → List Byte

/-- A byte of the function's configuration space, and of its CXL device registers, by wall time and offset (R379). -/
opaque Config.configByte : Nat → Nat → Byte
opaque Config.deviceByte : Nat → Nat → Byte

/-- Does LPDDR gen 6 training or scrub find a failing channel at a cold reset (R397), by the reset's number? -/
opaque Config.channelFails : Nat → Bool

/-- A byte of a scan segment of another core, of a die, or past what the model lays out, by the freeze's number, the segment and
the offset (R420). -/
opaque Config.scanByte : Nat → Nat → Nat → Byte
/-- The size of a scan segment (R420). -/
opaque Config.scanSize : Nat → Nat

end Sys2Proof
end

