-- ==== Sys2Proof/Machine/Mem.lean ====
section
/-! DEFINITION. Memory: the keys under which every byte of the machine is held, reads and writes in canonical form,
poison, translation, and the checks of an access (R136 to R147, R382 to R385, R404, R405). -/

namespace Sys2Proof.Machine

/-! ## Keys: one number for each byte of the machine

Device physical address p is key p; the other spaces lie above (52-bit physical addresses, R10). -/

/-- Key of host physical address 0. -/
def hostKey : Nat := 2 ^ 52
/-- Key of byte `off` of the scratchpad of core `core` of die `die`. -/
def padKey (core off : Nat) : Nat := 2 ^ 54 + core * 2 ^ 21 + off
/-- Key of byte `row` of a weight-store bank (R3: 64 banks of 64 MiB on each die). -/
def wsBankKey (die bank row : Nat) : Nat := 2 ^ 56 + die * 2 ^ 32 + bank * 2 ^ 26 + row
/-- Key of physical address `pa` of a remote package (R385). -/
def remoteKey (pkg pa : Nat) : Nat := 2 ^ 60 + pkg * 2 ^ 52 + pa

/-! ## Bytes -/

/-- The number of the undefined range an address lies in; 0: a range scrubbed to zero (R409). -/
def Memory.rangeTag (m : Memory) (a : Nat) : Option Nat :=
  (m.undefs.find? fun r => decide (r.1 ≤ a) && decide (a < r.2.1)).map (·.2.2)

/-- What an unlisted address reads as: zero, or a free byte where the manual calls the contents undefined.
DESIGN CHOICE, log 4. -/
def Memory.base (m : Memory) (a : Nat) : Byte :=
  match m.rangeTag a with
  | some (t + 1) => Config.freeByte (t + 1) a
  | _ => 0

/-- Reads one byte. -/
def Memory.read (m : Memory) (a : Nat) : Byte :=
  match m.cells.lookup a with
  | some b => b
  | none => m.base a

/-- Puts a cell into its place in a rising list. -/
def insertCell : List Host.Cell → Nat → Byte → List Host.Cell
  | [], a, v => [(a, v)]
  | (b, w) :: t, a, v =>
    if a < b then (a, v) :: (b, w) :: t
    else if a = b then (a, v) :: t
    else (b, w) :: insertCell t a v

/-- Takes a cell out of a rising list. -/
def eraseCell : List Host.Cell → Nat → List Host.Cell
  | [], _ => []
  | (b, w) :: t, a => if b = a then t else (b, w) :: eraseCell t a

/-- Writes one byte, keeping the canonical form. -/
def Memory.write (m : Memory) (a : Nat) (v : Byte) : Memory :=
  { m with cells := if v = m.base a then eraseCell m.cells a else insertCell m.cells a v }

/-- Reads `n` bytes. -/
def Memory.readN (m : Memory) (a : Nat) : Nat → List Byte
  | 0 => []
  | n + 1 => m.read a :: m.readN (a + 1) n

/-- Writes a byte list. -/
def Memory.writeN (m : Memory) (a : Nat) : List Byte → Memory
  | [] => m
  | b :: bs => (m.write a b).writeN (a + 1) bs

/-- A range whose contents become undefined (`tag` above 0) or zero (`tag` 0). -/
def Memory.forget (m : Memory) (lo hi tag : Nat) : Memory :=
  { cells := m.cells.filter fun c => !(decide (lo ≤ c.1) && decide (c.1 < hi))
    undefs := (lo, hi, tag) :: m.undefs.filter fun r => !(decide (lo ≤ r.1) && decide (r.2.1 ≤ hi))
    poison := m.poison.filter fun g => !(decide (lo ≤ 64 * g) && decide (64 * g < hi)) }

/-- Are the keys strictly rising? -/
def risingCells : List Host.Cell → Bool
  | [] => true
  | [_] => true
  | (a, _) :: (b, w) :: t => decide (a < b) && risingCells ((b, w) :: t)

/-- The canonical form: rising keys, and no entry equal to what an unlisted address reads as. -/
def Memory.wf (m : Memory) : Bool := risingCells m.cells && m.cells.all fun c => c.2 != m.base c.1

/-! ## Poison (R144) -/

/-- The first poisoned granule that `n` bytes at a key touch. -/
def Memory.poisonAt (m : Memory) (a n : Nat) : Option Nat :=
  ((List.range ((a + n + 63) / 64 - a / 64)).map (a / 64 + ·)).find? (m.poison.contains ·)

/-- Puts a number into its place in a rising list. -/
def insertRising (g : Nat) : List Nat → List Nat
  | [] => [g]
  | x :: t => if g < x then g :: x :: t else if g = x then x :: t else x :: insertRising g t

/-- Poisons a granule; the list of poisoned granules rises. -/
def Memory.poisonGranule (m : Memory) (g : Nat) : Memory := { m with poison := insertRising g m.poison }

/-- A whole granule written clears its poison (R144). -/
def Memory.cleanGranule (m : Memory) (g : Nat) : Memory := { m with poison := m.poison.filter (· != g) }

/-- Reads `n` bytes of the machine's memory. -/
def State.rd (s : State) (key n : Nat) : List Byte := s.mem.readN key n
/-- Reads a little-endian number of `n` bytes. -/
def State.rdNat (s : State) (key n : Nat) : Nat := ofBytes (s.rd key n)
/-- Writes bytes of the machine's memory. -/
def State.wr (s : State) (key : Nat) (bs : List Byte) : State := { s with mem := s.mem.writeN key bs }
/-- Writes a little-endian number of `n` bytes. -/
def State.wrNat (s : State) (key n x : Nat) : State := s.wr key (bytesOf n x)

/-! ## What memory backs a key (R382 to R385) -/

/-- Capacity in GiB that a cold reset has found on memory port `k` (R382). -/
def State.portGiB (s : State) (k : Nat) : Nat :=
  match s.mapped with
  | some l => l.getD k 0
  | none => Config.portGiB k

/-- Mapped capacity of memory port `k` in bytes: whole GiB, at most 4 TiB (R382). -/
def State.portBytes (s : State) (k : Nat) : Nat := min (s.portGiB k) 4096 * 2 ^ 30

/-- Does memory back device physical address `pa` (R382)? -/
def State.backedPa (s : State) (pa : Nat) : Bool :=
  decide (pa < 3 * 2 ^ 40) ||
    (List.range 4).any fun k =>
      decide (2 ^ 42 * (k + 1) ≤ pa) && decide (pa < 2 ^ 42 * (k + 1) + s.portBytes k) && s.portsUp.getLsbD k
        && !s.portsErr.getLsbD k

/-- The fabric lane of a location (R167): PA[12:9] xor PA[16:13]. -/
def laneOf (pa : Nat) : Nat := (pa / 512 % 16) ^^^ (pa / 8192 % 16)

/-- The set bits of a mask, rising. -/
def setBits (n x : Nat) : List Nat := (List.range n).filter fun i => x.testBit i

/-- The port a request of a lane to a package takes (R384). -/
def State.linkPort (s : State) (pkg l : Nat) : Option Nat :=
  if s.link.configured then
    match s.link.routes.lookup pkg with
    | some (mask, failed) =>
      let ps := setBits 32 mask.toNat
      match ps[l % ps.length]? with
      | some p => if s.link.up.getLsbD p && !failed.getLsbD p then some p else none
      | none => none
    | none => none
  else none

/-- Does a remote package serve the access (R383 to R385)? -/
def State.remoteServed (s : State) (pkg pa : Nat) (write : Bool) : Bool :=
  (s.linkPort pkg (laneOf pa)).isSome &&
    !s.oracle.refuse.any fun r =>
      r.1 == pkg && decide (r.2.1 ≤ pa) && decide (pa < r.2.2.1) && (write || !r.2.2.2)

/-- Does an access to the key complete without the error of check 7 (R147)? DESIGN CHOICE, log 56. -/
def State.served (s : State) (key : Nat) (write : Bool) : Bool :=
  if key < 2 ^ 52 then s.backedPa key
  else if 2 ^ 60 ≤ key then s.remoteServed ((key - 2 ^ 60) / 2 ^ 52) (key % 2 ^ 52) write
  else true

/-! ## Translation (R404, R405) -/

/-- Kinds of access, as the subcode of R147 numbers them. -/
inductive AKind where
  | read | write | atomic | fetch
  deriving DecidableEq, Repr

/-- The kind's code (R147). -/
def AKind.code : AKind → Nat
  | .read => 0 | .write => 1 | .atomic => 2 | .fetch => 3

/-- The kind writes. -/
def AKind.writes : AKind → Bool
  | .write | .atomic => true
  | _ => false

/-- A page-table entry, or the cause its reading ends the walk with (R405). -/
def State.pte (s : State) (pa : Nat) : Except Byte Nat :=
  if !s.backedPa pa then .error 0x0A
  else if (s.mem.poisonAt pa 8).isSome then .error 0x09
  else .ok (s.rdNat pa 8)

/-- The key a leaf's frame stands for (R404). -/
def frameKey (e : Nat) : Nat :=
  let frame := e / 4096 % 2 ^ 40 * 4096
  match e / 32 % 4 with
  | 1 => hostKey + frame
  | 2 => remoteKey (e / 2 ^ 52 % 2 ^ 11) frame
  | _ => frame

/-- Is a run of `n` entries with C set one page: same permissions and target, frames rising, the first aligned (R404)? -/
def State.contiguous (s : State) (table first n size e : Nat) : Bool :=
  let rest := fun (x : Nat) => x % 4096 + x / 2 ^ 52 * 2 ^ 52
  let f0 := s.rdNat (table + 8 * first) 8 / 4096 % 2 ^ 40 * 4096
  decide (f0 % (size * n) = 0) &&
    (List.range n).all fun k =>
      match s.pte (table + 8 * (first + k)) with
      | .ok x => decide (rest x = rest e) && decide (x / 4096 % 2 ^ 40 * 4096 = f0 + k * size)
      | .error _ => false

/-- The walk from the table of level `n` on: the translation, or the cause of its failure (R404, R405).
DEDUCED, log 21. -/
def State.walkFrom (s : State) (cx : BitVec 6) (va : Nat) : Nat → Nat → Except Byte TlbEnt
  | 0, _ => .error 0x06
  | n + 1, table =>
    let size := 2 ^ (12 + 9 * n)
    let idx := va / size % 512
    match s.pte (table + 8 * idx) with
    | .error c => .error c
    | .ok e =>
      let leaf := e.testBit 3
      let cont := e.testBit 4
      let target := e / 32 % 4
      let frame := e / 4096 % 2 ^ 40 * 4096
      if !e.testBit 0 || decide (e / 128 % 32 ≠ 0) || e.testBit 63 || target == 3
          || (target != 2 && decide (e / 2 ^ 52 % 2 ^ 11 ≠ 0))
          || (leaf && decide (3 ≤ n)) || (!leaf && n == 0)
          || (cont && !(n == 0 || (n == 2 && leaf))) then .error 0x06
      else if !leaf then s.walkFrom cx va n frame
      else if frame % size ≠ 0 then .error 0x06
      else
        let k := if n == 0 then 16 else 4
        let first := idx / k * k
        if cont && s.contiguous table first k size e then
          let e0 := s.rdNat (table + 8 * first) 8
          .ok ⟨cx, va / (size * k) * (size * k), size * k, frameKey e0, e.testBit 1, e.testBit 2⟩
        else .ok ⟨cx, va / size * size, size, frameKey e, e.testBit 1, e.testBit 2⟩

/-- A walk of a context's tables (R404). -/
def State.walkVa (s : State) (cx : BitVec 6) (va : Nat) : Except Byte TlbEnt :=
  s.walkFrom cx va 5 s.ctxs[cx.toNat].root

/-- The translation a TLB holds (R405). -/
def State.tlbFind (s : State) (cx : BitVec 6) (va : Nat) : Option TlbEnt :=
  s.tlb.find? fun e => e.ctx == cx && decide (e.va ≤ va) && decide (va < e.va + e.size)

/-- The translation that a walk in flight has read for this page (R405). -/
def State.inFlight (s : State) (cx : BitVec 6) (va : Nat) : Option TlbEnt :=
  (s.walks.find? fun w => w.ctx == cx && w.va / 4096 == va / 4096 && w.ent.isSome).bind (·.ent)

/-- The cause that a failed walk of this page has left for its access (R405). -/
def State.walkBad (s : State) (cx : BitVec 6) (va : Nat) : Option Byte :=
  match s.walk with
  | some w => if w.ctx == cx && w.va / 4096 == va / 4096 then w.bad else none
  | none => none

/-! ## Regions and checks 1 to 5 (R136 to R139, R147) -/

/-- Where an access goes: a key, a failed check's cause, or a translation that no TLB holds. -/
inductive LocRes where
  | at (key : Nat)
  | bad (cause : Byte)
  | miss
  deriving DecidableEq, Repr

/-- The local region (R137, R342). -/
def State.locateLocal (s : State) (run : Option Run) (off w : Nat) : LocRes :=
  match run with
  | none => .bad 0x0A
  | some r =>
    if r.service && r.interrupts then .bad 0x07
    else if off + w ≤ 2 ^ 21 then .at (padKey (s.die * 64 + s.core) off)
    else
      let n := (off - 2 ^ 51) / 2 ^ 21
      if 2 ^ 51 ≤ off ∧ n < r.snap.gang ∧ off % 2 ^ 21 + w ≤ 2 ^ 21 then
        match r.members[n]? with
        | some c => .at (padKey c (off % 2 ^ 21))
        | none => .bad 0x0A
      else .bad 0x0A

/-- The weight-store banks of a model, rising (R139). -/
def Model.banks (m : Model) : List Nat :=
  (List.range 64).filter fun b => m.mask.getLsbD (b / 8)

/-- The bank and the row of byte `o` of a weight image (R139). -/
def Model.place (m : Model) (o : Nat) : Nat × Nat :=
  let bs := m.banks
  (bs.getD (o / 512 % bs.length) 0, o / 512 / bs.length * 512 + o % 512)

/-- The model bound to a run (R392). -/
def State.modelOf (s : State) (r : Run) : Option Model :=
  r.model.map fun k => s.models[r.part.toNat][k.toNat]

/-- The weight-store region (R138). A gather, of which the manual does not speak there, reads it as `vld` does. DESIGN CHOICE,
log 68. -/
def State.locateWeights (s : State) (run : Option Run) (k : AKind) (off w : Nat) : LocRes :=
  match run.bind s.modelOf with
  | some m =>
    if k == .read && decide (off + w ≤ m.size) then
      let p := m.place off
      .at (wsBankKey s.die p.1 p.2)
    else .bad 0x07
  | none => .bad 0x07

/-- Where a translation sends an access, after the page's permissions (check 5). -/
def TlbEnt.target (e : TlbEnt) (k : AKind) (va : Nat) : LocRes :=
  if (k.writes && !e.w) || (k == .fetch && !e.x) then .bad 0x07 else .at (e.key + (va - e.va))

/-- Checks 1 to 5 of an access of `w` bytes by a run of a context (R147), by what the TLBs hold. -/
def State.locate (s : State) (cx : BitVec 6) (run : Option Run) (k : AKind) (va w : Nat) : LocRes :=
  if 2 ^ 57 ≤ va then .bad 0x07
  else if va % w ≠ 0 then .bad 0x08
  else if va / 2 ^ 52 = 31 then
    if k == .fetch then .bad 0x07 else s.locateLocal run (va % 2 ^ 52) w
  else if va / 2 ^ 52 = 30 then
    if k == .fetch then .bad 0x07 else s.locateWeights run k (va % 2 ^ 52) w
  else
    match s.walkBad cx va with
    | some c => .bad c
    | none =>
      match s.tlbFind cx va with
      | some e => e.target k va
      | none =>
        match s.inFlight cx va with
        | some e => e.target k va
        | none => .miss

/-- The same for an access of an engine or of the scheduler, which completes its walk within its step. -/
def State.locateW (s : State) (cx : BitVec 6) (run : Option Run) (k : AKind) (va w : Nat) : LocRes :=
  match s.locate cx run k va w with
  | .miss =>
    match s.walkVa cx va with
    | .ok e => e.target k va
    | .error c => .bad c
  | r => r

/-- The translation of an engine's access enters the TLBs (R405). -/
def State.fillTlb (s : State) (cx : BitVec 6) (va : Nat) : State :=
  if va / 2 ^ 52 < 30 ∧ (s.tlbFind cx va).isNone ∧ (s.inFlight cx va).isNone then
    match s.walkVa cx va with
    | .ok e => { s with tlb := e :: s.tlb }
    | .error _ => s
  else s

/-- A read served at the home: bytes, or the cause and the address of the failure (checks 1 to 7, R147). -/
def State.homeRead (s : State) (cx : BitVec 6) (run : Option Run) (va w n : Nat) : Except (Byte × Nat) (List Byte) :=
  match s.locateW cx run .read va w with
  | .at key =>
    if (s.mem.poisonAt key n).isSome then .error (0x09, va / 64 * 64)
    else if !s.served key false then .error (0x0A, va)
    else .ok (s.rd key n)
  | .bad c => .error (c, va)
  | .miss => .error (0x06, va)

/-- Overlap of an access with a scoreboard entry that freezes it (R143). -/
def State.boardHit (s : State) (key w : Nat) (write : Bool) : Bool :=
  s.board.any fun e => decide (key < e.hi) && decide (e.lo < key + w) && (write || !e.outbound)

/-- The weight-store bank of a key. -/
def wsBankOf (key : Nat) : Option Nat :=
  if 2 ^ 56 ≤ key ∧ key < 2 ^ 60 then some (key % 2 ^ 32 / 2 ^ 26) else none

/-- Cycles of refresh left for a read of the key (R142); 0 when its bank is not refreshing. -/
def State.refreshLeft (s : State) (key : Nat) : Nat :=
  match wsBankOf key with
  | some b => if b = s.refresh.1.toNat then s.refresh.2 - s.wall else 0
  | none => 0

end Sys2Proof.Machine
end

