-- ==== Sys2Proof/Machine/Operands.lean ====
section
/-! DEFINITION. Operands: which values an instruction reads, when they can be read, and what stops it (R14 to R19, R25,
R26, R145); the agents and the buffer of the bundle at issue. -/

namespace Sys2Proof.Machine

/-! ## What stops an instruction -/

/-- How the actions resume the work that faulted (R328, R347). -/
inductive Redo where
  | bundle
  | engine
  | copy (ch : BitVec 2)
  | budget
  | watch
  deriving DecidableEq, Repr

/-- A trap as it is detected: what the frame and the record report (R334, R338). -/
structure TrapReq where
  cause : Byte
  sub : Byte
  agent : AgentId
  pc : DWord
  resume : DWord
  addr : DWord
  slice : DWord
  rule : Option (BitVec 5)
  engine : Bool
  deferred : Bool
  tail : List Byte
  /-- the frame shows this cause instead (R296: an index list fetch) -/
  shown : Option Byte
  /-- found while operands were read (R25, R145) -/
  early : Bool
  /-- its bundle has issued (R111) -/
  past : Bool
  /-- cycles of program time from the bundle's issue to the detection (R28, R31) -/
  late : Nat
  redo : Redo
  deriving DecidableEq, Repr

/-- Why an instruction does not run to its end: it waits at issue, its core freezes, or it traps. -/
inductive Stop where
  | wait (w : Waits)
  | freeze (f : Freeze) (w : Option Walk)
  | trap (t : TrapReq)
  deriving DecidableEq, Repr

/-! ## Agents -/

/-- The agent of the core's active bank. -/
def State.agent (s : State) (a : AgentId) : Agent := s.bank.agents[a]

/-- The agent whose turn it is. -/
def State.cur (s : State) : Agent := s.agent s.turn

/-- Changes the active bank. -/
def State.mapBank (s : State) (f : Bank → Bank) : State := { s with bank := f s.bank }

/-- Changes an agent. -/
def State.mapAgent (s : State) (a : AgentId) (f : Agent → Agent) : State :=
  s.mapBank fun b => { b with agents := b.agents.set a (f (b.agents[a])) }

/-- Changes the agent whose turn it is. -/
def State.mapCur (s : State) (f : Agent → Agent) : State := s.mapAgent s.turn f

/-- Changes the buffer of the bundle at issue. -/
def State.mapBun (s : State) (f : Bun → Bun) : State := s.mapCur fun a => { a with bun := f a.bun }

/-- The agent whose turn it is is the access processor. -/
def State.onAp (s : State) : Bool := s.turn == apId

/-- The context of the core's run. -/
def State.cx (s : State) : BitVec 6 :=
  match s.bank.run with
  | some r => r.ctx
  | none => 0

/-- The partition of the core's run. -/
def State.part (s : State) : BitVec 4 :=
  match s.bank.run with
  | some r => r.part
  | none => 0

/-- The run belongs to a supervisor context (R400). -/
def State.supervisor (s : State) : Bool :=
  match s.bank.run with
  | some r => r.supervisor
  | none => false

/-- The run is a service slice that interrupts a context (R341). -/
def State.serving (s : State) : Bool :=
  match s.bank.run with
  | some r => r.service && r.interrupts
  | none => false

/-- A trap of the bundle at issue (R325): its first word's address stands for both PCs (R338). A shadow read reports that address
too, with subcode and fault address 0, where R25 speaks of the reading instruction's exact PC. DESIGN CHOICE, log 68. -/
def State.trapAt (s : State) (cause sub : Byte) (addr : DWord) : TrapReq where
  cause := cause
  sub := sub
  agent := s.turn
  pc := s.cur.pc
  resume := s.cur.pc
  addr := addr
  slice := 0
  rule := none
  engine := false
  deferred := false
  tail := []
  shown := none
  early := false
  past := false
  late := 0
  redo := .bundle

/-- Stops with a trap of the bundle at issue. -/
def State.trapNow {α : Type} (s : State) (cause sub : Byte) (addr : DWord) : Except Stop α :=
  .error (.trap (s.trapAt cause sub addr))

/-! ## Readiness -/

/-- Widths in which an operand is read. -/
inductive RdW where
  | w32 | w64 | vec
  deriving DecidableEq, Repr

/-- Two named destinations share a register; `wx`, `wy`: 64-bit (R19). Queue and special operands name none. -/
def overlaps (x : Opnd) (wx : Bool) (y : Opnd) (wy : Bool) : Bool :=
  match x, y with
  | .k i, .k j | .g i, .g j =>
    decide (i.toNat ≤ j.toNat + bit wy) && decide (j.toNat ≤ i.toNat + bit wx)
  | _, _ => false

/-- The latches of an agent that write a named register of this class (R25). -/
def Agent.pendingOn (a : Agent) (o : Opnd) (r : RdW) : List Latch :=
  a.latches.filter fun l =>
    (decide (l.cls = .vector) == decide (r = .vec)) && overlaps l.dst l.wide o (r == .w64)

/-- A result is readable at program time `pt`. -/
def Ready.by (r : Ready) (pt : Nat) : Bool :=
  match r with
  | .at t => decide (t ≤ pt)
  | .token => false

/-- The readiness of every result an operand depends on. -/
def Agent.readyOf (a : Agent) (o : Opnd) (r : RdW) : List Ready :=
  match o with
  | .q i =>
    if r = .vec then (a.vq[i.toNat]?.map (·.ready)).toList else (a.sq[i.toNat]?.map (·.ready)).toList
  | _ => (a.pendingOn o r).map (·.ready)

/-- The poison or error mark of an operand (R145). -/
def Agent.markOf (a : Agent) (o : Opnd) (r : RdW) : Option Mark :=
  match o with
  | .q i => if r = .vec then a.vq[i.toNat]?.bind (·.mark) else a.sq[i.toNat]?.bind (·.mark)
  | _ =>
    (a.marks.find? fun m => m.vec == decide (r = .vec) && overlaps m.reg false o (r == .w64)).map (·.mark)

/-- An operand can be read by the bundle at issue: else it waits for a token (R26), is in shadow (cause 0x04, R25), or
is marked (R145). DEDUCED, log 57. -/
def State.check (s : State) (o : Opnd) (r : RdW) : Except Stop Unit :=
  let a := s.cur
  let rs := a.readyOf o r
  if rs.contains .token then .error (.wait .token)
  else if !rs.all (·.by s.pt) then .error (.trap { s.trapAt 0x04 0 0 with early := true })
  else
    match a.markOf o r with
    | some m => .error (.trap { s.trapAt m.cause 0 m.addr with early := true })
    | none => .ok ()

/-! ## Values -/

/-- Cluster number 0 to 3; 4 on the access processor (R15). -/
def State.idx (s : State) : Nat := s.turn.val

/-- The value of a 32-bit scalar operand (R15, R17). -/
def State.val32 (s : State) (o : Opnd) : Word :=
  match o with
  | .q i => (s.cur.sq.getD i.toNat SEnt.zero).val.setWidth 32
  | .k i => s.cur.k.getD i.toNat 0
  | .g i => s.cur.g.getD i.toNat 0
  | .sp i =>
    match i.toNat with
    | 0 => 0
    | 1 => 1
    | 2 => BitVec.ofNat 32 s.idx
    | _ => BitVec.allOnes 32

/-- The value of a 64-bit scalar operand (R15, R19). -/
def State.val64 (s : State) (o : Opnd) : DWord :=
  match o with
  | .q i => (s.cur.sq.getD i.toNat SEnt.zero).val
  | .k i => s.cur.k.getD (i.toNat + 1) 0 ++ s.cur.k.getD i.toNat 0
  | .g i => s.cur.g.getD (i.toNat + 1) 0 ++ s.cur.g.getD i.toNat 0
  | .sp i =>
    match i.toNat with
    | 0 => 0
    | 1 => 1
    | 2 => BitVec.ofNat 64 s.idx
    | _ => BitVec.allOnes 64

/-- The pattern of 1 in a lane: integer 1, or 1.0 of the instruction's float type (R15). -/
def tyOne : Ty → Word
  | .f32 => 0x3F800000
  | .f16 => 0x3C00
  | .bf16 => 0x3F80
  | .e4m3 => 0x38
  | .e5m2 => 0x3C
  | .f6 => 0x0C
  | _ => 1

/-- The value of a vector operand; `one` is the lane pattern of 1 in the instruction's type (R15). -/
def State.valV (s : State) (one : Word) (o : Opnd) : Vec :=
  match o with
  | .q i => (s.cur.vq.getD i.toNat VEnt.zero).val
  | .k i => s.cur.vk.getD i.toNat 0
  | .g i => s.cur.v.getD i.toNat 0
  | .sp i =>
    match i.toNat with
    | 0 => 0
    | 1 => mkVec fun _ => one
    | 2 => mkVec fun n => BitVec.ofNat 32 n
    | _ => BitVec.allOnes 512

/-- Reads a 32-bit scalar operand. -/
def State.rd32 (s : State) (o : Opnd) : Except Stop Word :=
  match s.check o .w32 with
  | .ok _ => .ok (s.val32 o)
  | .error e => .error e

/-- Reads a 64-bit scalar operand. -/
def State.rd64 (s : State) (o : Opnd) : Except Stop DWord :=
  match s.check o .w64 with
  | .ok _ => .ok (s.val64 o)
  | .error e => .error e

/-- Reads a vector operand. -/
def State.rdV (s : State) (one : Word) (o : Opnd) : Except Stop Vec :=
  match s.check o .vec with
  | .ok _ => .ok (s.valV one o)
  | .error e => .error e

/-- Reads a base pair, the main-file pair g(2n):g(2n+1) (R42, R45). -/
def State.rdBase (s : State) (bp : BitVec 4) : Except Stop DWord := s.rd64 (.g (bp.setWidth 5 * 2))

/-- Reads a scalar of either width, zero-extended. -/
def State.rdSz (s : State) (wide : Bool) (o : Opnd) : Except Stop DWord :=
  if wide then s.rd64 o else (s.rd32 o).map (·.setWidth 64)

/-- A mask register; m0 reads all ones (R6, R133). -/
def Agent.mask (a : Agent) (i : BitVec 3) : BitVec 16 := if i = 0 then 0xFFFF else a.m.getD i.toNat 0

/-- The lanes a governing mask makes active (R116). -/
def State.active (s : State) (m : Gov) : BitVec 16 :=
  let x := s.cur.mask m.m
  if m.inv then ~~~x else x

/-! ## Main-file reads and their banks (R18, R19) -/

/-- The scalar-class operands of an instruction with their widths, and its vector-class operands (R18). -/
structure Reads where
  s32 : List Opnd
  s64 : List Opnd
  vec : List Opnd
  deriving DecidableEq, Repr

/-- The base pair as an operand. -/
def baseOp (bp : BitVec 4) : Opnd := .g (bp.setWidth 5 * 2)

/-- Operands of a standing-capable word that an install reads. -/
def standReads : Stand → Reads
  | .attn _ bp a _ => ⟨[a], [baseOp bp], []⟩
  | .omap _ bp _ => ⟨[], [baseOp bp], []⟩
  | .cpy _ bp a _ => ⟨[a], [baseOp bp], []⟩
  | _ => ⟨[], [], []⟩

/-- The register operands an instruction reads. -/
def instrReads : Instr → Reads
  | .tlbinv a b _ => ⟨[b], [a], []⟩
  | .add _ _ a b | .sub _ _ a b | .mul _ _ a b | .mulh _ _ a b _ | .div _ _ a b | .divn _ _ a b | .rem _ _ a b
  | .remn _ _ a b | .and _ _ a b | .or _ _ a b | .xor _ _ a b | .shl _ _ a b | .shr _ _ a b | .sra _ _ a b
  | .min _ _ a b | .max _ _ a b | .minn _ _ a b | .maxn _ _ a b | .seq _ _ a b | .sne _ _ a b | .slt _ _ a b
  | .sltn _ _ a b | .bfx _ _ a b _ => ⟨[a, b], [], []⟩
  | .clz _ _ a | .ctz _ _ a | .popc _ _ a => ⟨[a], [], []⟩
  | .sel _ _ a b x | .bfi _ _ a b x => ⟨[a, b, x], [], []⟩
  | .addi _ _ a _ | .andi _ _ a _ | .ori _ _ a _ | .xori _ _ a _ | .shli _ _ a _ | .shri _ _ a _ | .srai _ _ a _
  | .slti _ _ a _ | .sltni _ _ a _ | .muli _ _ a _ => ⟨[a], [], []⟩
  | .add64 _ _ a b | .sub64 _ _ a b | .slt64n _ _ a b => ⟨[], [a, b], []⟩
  | .mov64 _ _ a => ⟨[], [a], []⟩
  | .shl64 _ _ a b => ⟨[b], [a], []⟩
  | .addi64 _ _ a _ => ⟨[], [a], []⟩
  | .sethi _ _ a _ => ⟨[a], [], []⟩
  | .bz p _ _ | .bnz p _ _ => ⟨[p], [], []⟩
  | .ret p _ | .jmp p _ _ => ⟨[], [p], []⟩
  | .loop p _ _ _ | .lbrk p _ _ => ⟨[p], [], []⟩
  | .ld _ _ bp _ _ _ _ => ⟨[], [baseOp bp], []⟩
  | .st d bp sz _ _ _ => if sz = .d then ⟨[], [baseOp bp, d], []⟩ else ⟨[d], [baseOp bp], []⟩
  | .pref bp _ => ⟨[], [baseOp bp], []⟩
  | .amocas _ _ a b x _ _ w => if w then ⟨[], [a, b, x], []⟩ else ⟨[b, x], [a], []⟩
  | .amoadd _ _ a b _ _ w | .amoswp _ _ a b _ _ w | .amomin _ _ a b _ _ w | .amomax _ _ a b _ _ w
  | .amominn _ _ a b _ _ w | .amomaxn _ _ a b _ _ w | .amoand _ _ a b _ _ w | .amoor _ _ a b _ _ w
  | .amoxor _ _ a b _ _ w => if w then ⟨[], [a, b], []⟩ else ⟨[b], [a], []⟩
  | .bind _ _ a b x => ⟨[x], [a, b], []⟩
  | .unbind _ _ a b => ⟨[], [a, b], []⟩
  | .vadd _ _ a b _ _ | .vsub _ _ a b _ _ | .vmul _ _ a b _ _ | .vmin _ _ a b _ _ | .vmax _ _ a b _ _
  | .vand _ _ a b _ _ | .vor _ _ a b _ _ | .vxor _ _ a b _ _ | .vshl _ _ a b _ _ | .vshr _ _ a b _ _
  | .vsra _ _ a b _ _ | .vadds _ _ a b _ _ | .vsubs _ _ a b _ _ | .vcmpeq _ _ a b _ _ | .vcmplt _ _ a b _ _
  | .vcmple _ _ a b _ _ | .vfadd _ _ a b _ _ _ | .vfsub _ _ a b _ _ _ | .vfmul _ _ a b _ _ _
  | .vfmin _ _ a b _ _ | .vfmax _ _ a b _ _ | .vfcmpeq _ _ a b _ _ | .vfcmplt _ _ a b _ _
  | .vfcmple _ _ a b _ _ | .vfcmpun _ _ a b _ _ | .vdiv _ _ a b _ _ _ => ⟨[], [], [a, b]⟩
  | .vabs _ _ a _ _ | .vfabs _ _ a _ _ | .vfneg _ _ a _ _ | .vrcp _ _ a _ _ _ | .vrsqrt _ _ a _ _ _
  | .vsqrt _ _ a _ _ _ | .vexp2 _ _ a _ _ _ | .vlog2 _ _ a _ _ _ | .vcvt _ _ a _ _ _ _
  | .vunpk _ _ a _ _ _ | .vtrit _ _ a _ _ _ | .vred _ _ a _ _ _ _
  | .vscan _ _ a _ _ _ _ | .vcompress _ _ a _ => ⟨[], [], [a]⟩
  | .vfma _ _ a b x _ _ _ | .vfms _ _ a b x _ _ _ => ⟨[], [], [a, b, x]⟩
  | .vrope _ _ a b x _ _ _ _ => ⟨[], [], [a, b, x]⟩
  | .vrng _ _ a _ => ⟨[a], [], []⟩
  | .vpack _ _ a x _ _ | .vpk6 _ _ a x _ _ | .vtritp _ _ a x _ => ⟨[], [], [a, x]⟩
  | .vupk6 _ _ a b _ _ _ => ⟨[], [], [a, b]⟩
  | .vbcast _ _ a _ => ⟨[a], [], []⟩
  | .vext _ _ a b => ⟨[b], [], [a]⟩
  | .vins _ _ a b x => ⟨[b, x], [], [a]⟩
  | .vperm _ _ a b x _ => ⟨[], [], [a, b, x]⟩
  | .vsortk _ _ a b _ _ _ => ⟨[], [], [a, b]⟩
  | .mset _ b => ⟨[b], [], []⟩
  | .vld _ _ bp _ _ _ => ⟨[], [baseOp bp], []⟩
  | .vst d bp _ _ _ => ⟨[], [baseOp bp], [d]⟩
  | .vldg _ _ bp _ _ i _ => ⟨[], [baseOp bp], [i]⟩
  | .vsts d bp _ _ i _ => ⟨[], [baseOp bp], [d, i]⟩
  | .stcfg _ bp _ => ⟨[], [baseOp bp], []⟩
  | .stadv _ a => ⟨[a], [], []⟩
  | .vmerge sa sb sx _ => ⟨[], [baseOp sa, baseOp sb, baseOp sx], []⟩
  | .attn _ bp _ => ⟨[], [baseOp bp], []⟩
  | .attnd _ bp a _ => ⟨[], [baseOp bp, a], []⟩
  | .otcfg _ _ bp _ => ⟨[], [baseOp bp], []⟩
  | .extend _ _ a | .extendC _ _ a | .revoke _ a | .rlresume _ a | .rlstat _ a => ⟨[a], [], []⟩
  | .revokeAt _ a bp => ⟨[a], [baseOp bp], []⟩
  | .omap _ bp _ a => ⟨[a], [baseOp bp], []⟩
  | .standInstall f => standReads f
  | .recbeg _ bp _ => ⟨[], [baseOp bp], []⟩
  | .reverse _ bp _ a => ⟨[a], [baseOp bp], []⟩
  | .recflag _ a => ⟨[], [a], []⟩
  | .cpy _ bp _ | .cpyg _ bp _ | .cpys _ bp _ | .cpymc _ bp _ | .cpred _ bp _ => ⟨[], [baseOp bp], []⟩
  | .cpwait _ _ a | .cpdone _ _ a => ⟨[a], [], []⟩
  | .qput _ _ _ a => ⟨[], [a], []⟩
  | .bqput _ _ a => ⟨[a], [], []⟩
  | .spawn _ bp _ a | .launch _ bp _ a => ⟨[a], [baseOp bp], []⟩
  | .join _ bp _ | .unpark _ bp _ => ⟨[], [baseOp bp], []⟩
  | .yield a => ⟨[], [a], []⟩
  | .evset a | .evsetErr a | .evclr a | .evwait _ _ a | .evtest _ _ a => ⟨[a], [], []⟩
  | .pqpush _ _ b x _ => ⟨[], [b, x], []⟩
  | .wrsr a n => if srWide n then ⟨[], [a], []⟩ else ⟨[a], [], []⟩
  | .kvxl _ _ bp _ a | .kvgrow _ _ bp _ a | .kvcommit _ _ bp _ a => ⟨[a], [baseOp bp], []⟩
  | .kvfork _ _ bp _ a => ⟨[], [baseOp bp, a], []⟩
  | _ => ⟨[], [], []⟩

/-- The main-file index of an operand. -/
def mainIdx : Opnd → Option Nat
  | .g i => some i.toNat
  | _ => none

/-- Distinct main registers of a list. -/
def mainRegs (l : List Nat) : List Nat := l.foldr (fun x acc => if acc.contains x then acc else x :: acc) []

/-- Extra issue cycles for reading distinct main registers of one class with a mirror mask: each further unmirrored register
of a bank costs one, and a mirrored one none (R18). -/
def bankExtra (mir : Word) (regs : List Nat) : Nat :=
  let u := (mainRegs regs).filter fun r => !mir.getLsbD r
  ((u.filter (· % 2 == 0)).length - 1) + ((u.filter (· % 2 == 1)).length - 1)

/-- Extra issue cycles of one instruction on the agent whose turn it is (R18). The manual does not say whether scalar and
vector main registers share banks, nor how the cycles of an instruction that reads both combine: each class counts alone
and the counts add. DESIGN CHOICE, log 14. -/
def State.bankCycles (s : State) (i : Instr) : Nat :=
  let r := instrReads i
  let g := r.s32.filterMap mainIdx ++ (r.s64.filterMap mainIdx).flatMap fun x => [x, x + 1]
  bankExtra s.cur.smir g + bankExtra s.cur.vmir (r.vec.filterMap mainIdx)

end Sys2Proof.Machine
end

