-- ==== Sys2Proof/Machine/Slices.lean ====
section
/-! DEFINITION. What the scheduler keeps of slice records: status words, events and readiness, pushes (R302 to R308,
R316, R317), interrupt vectors (R407), and the trap queue (R333 to R336). -/

namespace Sys2Proof.Machine

/-- Changes a partition. -/
def State.mapPart (s : State) (p : BitVec 4) (f : Part → Part) : State :=
  { s with parts := s.parts.setIfInBounds p.toNat (f (s.parts[p.toNat])) }

/-- Changes a context. -/
def State.mapCtx (s : State) (c : BitVec 6) (f : Ctx → Ctx) : State :=
  { s with ctxs := s.ctxs.setIfInBounds c.toNat (f (s.ctxs[c.toNat])) }

/-- Changes the run of the active bank. -/
def State.mapRun (s : State) (f : Run → Run) : State := s.mapBank fun b => { b with run := b.run.map f }

/-- An MSI-X vector is raised: it is posted to the host, or sets its pending bit while it is masked; one that is pending is
not sent twice (R407). -/
def Msix.raise (m : Msix) (v : Nat) : Msix :=
  if !m.masked.contains v then { m with sent := m.sent ++ [v] }
  else if m.pending.contains v then m
  else { m with pending := m.pending ++ [v] }

/-- The host masks or unmasks a vector; a pending one is posted when its mask is taken away (R407). -/
def Msix.mask (m : Msix) (v : Nat) (on : Bool) : Msix :=
  let others := m.masked.filter (· != v)
  if on then { m with masked := v :: others }
  else if m.pending.contains v then ⟨m.sent ++ [v], others, m.pending.filter (· != v)⟩
  else { m with masked := others }

/-- Raises a vector of a partition (R407). -/
def State.raiseVector (s : State) (p : BitVec 4) (k : Nat) : State :=
  { s with msix := s.msix.raise (s.parts[p.toNat].msixBase + k) }

/-- The run has stopped and is leaving the core: its budget stands (R312). -/
def Phase.stopped : Phase → Bool
  | .saving _ | .switching .ready _ => true
  | _ => false

/-- One cycle of the core's run: the budget; during a service slice the interrupted gang still holds its cores (R312). -/
def State.spendBudget (s : State) : State :=
  match s.bank.run with
  | none => s
  | some _ =>
    let s := if s.phase.stopped then s else s.mapRun fun r => { r with budget := r.budget - 1 }
    match s.shadow with
    | some b => { s with shadow := some { b with run := b.run.map fun (r : Run) =>
        { r with budget := if r.parked.isSome then r.budget else r.budget - 1 } } }
    | none => s

/-- Cores of the core's die that a partition holds: those of the core's gang, during a service slice of the interrupted one, and
those that the outside has named (R401). -/
def State.coresOf (s : State) (p : Nat) : Nat :=
  let own := fun (b : Bank) => (b.run.map fun r => if r.part.toNat = p then r.members else []).getD []
  let mine := own s.bank ++ (s.shadow.map fun b => if b.run.any (·.dropped) then [] else own b).getD []
  let named := (s.taken.filter fun c => c.2.toNat == p).map (·.1)
  ((mine ++ named).eraseDups.filter fun c => c / 64 == s.die).length

/-- One cycle of the partitions' counts of core-cycles on the die (R401). -/
def State.countCores (s : State) : State :=
  if s.bank.run.isNone && s.shadow.isNone && s.taken.isEmpty then s
  else { s with parts := s.parts.mapIdx fun i p => { p with used := p.used + s.coresOf i } }

/-- One cycle of wall time: the budget of the run, and what the partitions hold (R312, R401). -/
def State.chargeCycle (s : State) : State := s.spendBudget.countCores

/-! ## Status words (R305) -/

/-- Writes a record's status word: state, cause and subcode, and the run count, raised by `add`. -/
def State.setStatus (s : State) (home st : Nat) (cause sub : Byte) (add : Nat) : State :=
  let runs := s.rdNat (home + 0x3C) 4 + add
  s.wr (home + 0x38)
    ([BitVec.ofNat 8 st, cause, sub, 0] ++ bytesOf 4 runs)

/-- A record by context and address. -/
def State.findRec (s : State) (cx : BitVec 6) (addr : DWord) : Option SRec :=
  s.recs.find? fun r => r.ctx == cx && r.addr == addr

/-- Changes a record. -/
def State.mapRec (s : State) (cx : BitVec 6) (addr : DWord) (f : SRec → SRec) : State :=
  { s with recs := s.recs.map fun r => if r.ctx == cx && r.addr == addr then f r else r }

/-- Takes a record from the scheduler. -/
def State.dropRec (s : State) (cx : BitVec 6) (addr : DWord) : State :=
  { s with recs := s.recs.filter fun r => !(r.ctx == cx && r.addr == addr) }

/-- Puts a held record into a state and writes its status. -/
def State.moveRec (s : State) (cx : BitVec 6) (addr : DWord) (st : Nat) (cause sub : Byte) (add : Nat) : State :=
  match s.findRec cx addr with
  | some r =>
    let s := s.setStatus r.home st cause sub add
    if st = 5 ∨ st = 6 then s.dropRec cx addr
    else s.mapRec cx addr fun r => { r with state := st, last := (cause, sub), begun := r.begun || decide (3 ≤ st) }
  | none => s

/-! ## Events (R306 to R308) -/

/-- A waiting record whose counter is zero and whose wait mask is set becomes ready (R307). -/
def State.wakeRec (s : State) (r : SRec) : State :=
  if r.state = 1 ∧ s.rdNat (r.home + 0x1C) 4 = 0 ∧ r.snap.waitMask &&& ~~~s.ctxs[r.ctx.toNat].ev = 0 then
    s.moveRec r.ctx r.addr 2 r.last.1 r.last.2 0
  else s

/-- Looks at every waiting record (R307). -/
def State.wake (s : State) : State := s.recs.foldl State.wakeRec s

/-- Sets bits of a context's event vector, with their error companions where `err` says so; the cycle's sets are kept, since they
stand against its clears (R308). -/
def State.setEvents (s : State) (cx : BitVec 6) (bits err : BitVec 256) : State :=
  { s.mapCtx cx fun c => { c with ev := c.ev ||| bits, err := c.err ||| err } with evSets := (cx, bits, err) :: s.evSets }

/-- The bits that the cycle has set in a context's event vector so far, and their companions (R308). -/
def State.setsOf (s : State) (cx : BitVec 6) : BitVec 256 × BitVec 256 :=
  s.evSets.foldl (fun x e => if e.1 = cx then (x.1 ||| e.2.1, x.2 ||| e.2.2) else x) (0, 0)

/-- Clears bits of a context's event vector with their companions; of the updates of one cycle the clears come first, so that
what the cycle has set stands (R308). -/
def State.clearEvents (s : State) (cx : BitVec 6) (bits : BitVec 256) : State :=
  s.mapCtx cx fun c =>
    { c with ev := c.ev &&& ~~~bits ||| (s.setsOf cx).1, err := c.err &&& ~~~bits ||| (s.setsOf cx).2 }

/-! ## Pushing a record (R302, R303) -/

/-- Byte field of a record read as a number. -/
def fieldOf (bs : List Byte) (off n : Nat) : Nat := ofBytes ((bs.drop off).take n)

/-- The status value of the first check of R303 that fails on a record's bytes. -/
def recordStatus (bs : List Byte) (dieFull : Bool) : Nat :=
  if fieldOf bs 0 8 % 4096 ≠ 0 then 0x80000000
  else if fieldOf bs 0x18 4 = 0 then 0x80000018
  else if 255 < fieldOf bs 0x20 2 then 0x80000020
  else if fieldOf bs 0x22 2 = 0 ∨ 1536 < fieldOf bs 0x22 2 ∨ 1536 < fieldOf bs 0x24 2 + fieldOf bs 0x22 2 then
    0x80000022
  else if fieldOf bs 0x26 2 / 16 ≠ 0 then 0x80000026
  else if fieldOf bs 0x28 8 % 16 ≠ 0 then 0x80000028
  else if 1 ≤ fieldOf bs 0x38 1 ∧ fieldOf bs 0x38 1 ≤ 4 then 0xFFFFFFFE
  else if dieFull then 0xFFFFFFFF
  else 0

/-- The snapshot of a record (R302, R306). -/
def State.snapOf (s : State) (cx : BitVec 6) (bs : List Byte) : Snap :=
  let m := s.ctxs[cx.toNat].masks + 64 * fieldOf bs 0x20 2
  { code := fieldOf bs 0 8
    frame := BitVec.ofNat 64 (fieldOf bs 8 8)
    deadline := BitVec.ofNat 64 (fieldOf bs 0x10 8)
    budget := fieldOf bs 0x18 4
    maskIdx := fieldOf bs 0x20 2
    gang := fieldOf bs 0x22 2
    origin := fieldOf bs 0x24 2
    drainable := (fieldOf bs 0x26 2).testBit 0
    prio := fieldOf bs 0x26 2 / 2 % 8
    loopTab := fieldOf bs 0x28 8
    waitMask := BitVec.ofNat 256 (s.rdNat m 32)
    setMask := BitVec.ofNat 256 (s.rdNat (m + 32) 32) }

/-- Records a die holds that have neither started nor been parked since they were pushed (R303: at most 8,192). -/
def State.storeCount (s : State) (die : Nat) : Nat := (s.recs.filter fun r => r.die == die && !r.begun).length

/-- Pushes an accepted record: state 1; the test of R307 comes with the end of the cycle, after the cycle's updates of the event
vector (R308, R317). DEDUCED, log 23. -/
def State.enqueue (s : State) (cx : BitVec 6) (addr : DWord) (home die : Nat) (bs : List Byte)
    (svc : Option Byte) : State :=
  let r : SRec :=
    ⟨cx, addr, home, die, s.snapOf cx bs, 1, s.pushes, none, 0, 0, false, svc, none, (0, 0), false⟩
  let s := s.setStatus home 1 0 0 0
  { s with recs := s.recs ++ [r], pushes := s.pushes + 1 }

/-- A push by the scheduler itself, of a record of a context (R330, R408): the checks of R147, then those of R303. -/
def State.pushBy (s : State) (cx : BitVec 6) (addr : Nat) (die : Nat) (svc : Option Byte) : Option State :=
  match s.locateW cx none .read addr 64, s.locateW cx none .write addr 64 with
  | .at key, .at _ =>
    if !s.served key true || (s.mem.poisonAt key 64).isSome then none
    else
      let bs := s.rd key 64
      if recordStatus bs (decide (8192 ≤ s.storeCount die)) = 0 then
        some (s.enqueue cx (BitVec.ofNat 64 addr) key die bs svc)
      else none
  | _, _ => none

/-- The supervisor context of a partition (R400: at most one). -/
def State.supervisorOf (s : State) (p : BitVec 4) : Option (BitVec 6) :=
  ((List.range 64).find? fun c =>
    match s.ctxs[c]? with
    | some x => x.defined && x.supervisor && x.part == p
    | none => false).map (BitVec.ofNat 6)

/-! ## The trap queue (R333 to R336) -/

/-- Free entries of a partition's trap queue (R333). -/
def State.queueFree (s : State) (p : BitVec 4) : Nat :=
  let c := s.parts[p.toNat].ctl
  let used := (s.rdNat c 4 + 2 ^ 32 - s.rdNat (c + 4) 4) % 2 ^ 32
  256 - used

/-- Writes a record, then the producer index, and raises the trap-queue vector if the queue was empty (R333). -/
def State.writeRecord (s : State) (p : BitVec 4) (bs : List Byte) : State :=
  let c := s.parts[p.toNat].ctl
  let prod := s.rdNat c 4
  let was := decide (prod = s.rdNat (c + 4) 4)
  let s := (s.wr (s.parts[p.toNat].ring + 64 * (prod % 256)) bs).wrNat c 4 (prod + 1)
  if was then s.raiseVector p 0 else s

/-- Adds one to a counter of the control line. -/
def State.bumpLine (s : State) (p : BitVec 4) (off : Nat) : State :=
  let a := s.parts[p.toNat].ctl + off
  s.wrNat a 4 (s.rdNat a 4 + 1)

/-- A fatal record (R335, R336): written while an entry is free; else it is lost, the partition stops, and its running
gangs receive a stop request. -/
def State.fatalRecord (s : State) (p : BitVec 4) (bs : List Byte) : State :=
  if 1 ≤ s.queueFree p then s.writeRecord p bs
  else
    let s := (s.bumpLine p 8).mapPart p fun x => { x with stopped := true }
    s.raiseVector p 1

/-- An ordinary record (R335): `true` when it was written, `false` when it is withheld. -/
def State.plainRecord (s : State) (p : BitVec 4) (bs : List Byte) (resume : Option (BitVec 6 × DWord))
    (rule : Option (BitVec 6 × Nat × BitVec 5)) : State × Bool :=
  if 8 < s.queueFree p then (s.writeRecord p bs, true)
  else ((s.bumpLine p 12).mapPart p fun x => { x with withheld := x.withheld ++ [⟨bs, resume, rule⟩] }, false)

end Sys2Proof.Machine
end

