-- ==== Sys2Proof/Machine/Lanes.lean ====
section
/-! DEFINITION. Homes and lanes, and the rows of copies: where the copies that the core has requested will write, which orders
its writes (R167, R290, R291, R294). -/

namespace Sys2Proof.Machine

/-! ## Homes and lanes (R167) -/

/-- Where a location has its home (R167). -/
inductive Home where
  | pad (core : Nat)
  | l2 (die : Nat)
  | host
  | remote (pkg : Nat)
  | weights
  deriving DecidableEq, Repr

/-- The home of a key. The manual does not say which die's L2 a device address has its home in. DESIGN CHOICE, log 60. -/
def homeOf (key : Nat) : Home :=
  if key < 2 ^ 52 then .l2 (Config.homeDie (key / 512))
  else if key < 2 ^ 54 then .host
  else if key < 2 ^ 56 then .pad ((key - 2 ^ 54) / 2 ^ 21)
  else if key < 2 ^ 60 then .weights
  else .remote ((key - 2 ^ 60) / 2 ^ 52)

/-- The lane of a key: by physical address, or by scratchpad offset (R167). -/
def keyLane (key : Nat) : Nat :=
  if 2 ^ 54 ≤ key ∧ key < 2 ^ 56 then laneOf ((key - 2 ^ 54) % 2 ^ 21) else laneOf (key % 2 ^ 52)

/-- Two keys have one home and one lane. -/
def sameLane (a b : Nat) : Bool := keyLane a == keyLane b && homeOf a == homeOf b

/-- The key lies in a scratchpad. -/
def isPad (key : Nat) : Bool := decide (2 ^ 54 ≤ key) && decide (key < 2 ^ 56)

/-! ## Rows (R290, R291, R294) -/

/-- Out-of-range indices give zeros (R291). -/
def CopyBlk.zeroFill (b : CopyBlk) : Bool := b.flags.getLsbD 1
/-- Size of an index (R290). -/
def CopyBlk.idxSize (b : CopyBlk) : Nat := if b.flags.getLsbD 2 then 8 else 4

/-- Forms with an index list. -/
def CopyKind.indexed : CopyKind → Bool
  | .cpyg | .cpys => true
  | _ => false

/-- Source row address of row `r` (R290, R294); `idx` is the row's index. -/
def Copy.srcAt (c : Copy) (r idx : Nat) : Nat :=
  let i := if c.kind = .cpyg then idx else
    let j := c.rowBase + r
    if c.srcMod = 0 then j else j % c.srcMod
  (c.blk.src + i * c.blk.sstr) % 2 ^ 64

/-- Destination row address of row `r` (R290, R294). -/
def Copy.dstAt (c : Copy) (r idx : Nat) : Nat :=
  let i := if c.kind = .cpys then idx else
    let j := c.rowBase + r
    if c.dstMod = 0 then j else j % c.dstMod
  (c.blk.dst + i * c.blk.dstr) % 2 ^ 64

/-- Index of row `r`; 0 for the forms without a list. -/
def Copy.idxAt (c : Copy) (r : Nat) : Nat := ((c.indices.getD []).getD r 0)

/-- The row's index is at or above the bound (R291). -/
def Copy.outside (c : Copy) (r : Nat) : Bool := c.kind.indexed && decide (c.blk.bound ≤ c.idxAt r)

/-- The keys of a row's 8-byte pieces, or the cause and address of the first check that fails (R147). -/
def State.rowKeys (s : State) (cx : BitVec 6) (run : Option Run) (k : AKind) : Nat → Nat → Except (Byte × Nat) (List Nat)
  | 0, _ => .ok []
  | n + 1, va =>
    match s.locateW cx run k va 8 with
    | .at key =>
      if !s.served key k.writes then .error (0x0A, va)
      else
        match s.rowKeys cx run k n ((va + 8) % 2 ^ 64) with
        | .ok ks => .ok (key :: ks)
        | .error e => .error e
    | .bad c => .error (c, va)
    | .miss => .error (0x06, va)

/-- Members a `cpymc` writes, rising (R290). -/
def Copy.targets (c : Copy) : List Nat := (setBits 64 c.blk.list).map (c.blk.bound + ·)

/-- Key of a member's scratchpad (R137). -/
def memberPad (run : Option Run) (n off : Nat) : Nat :=
  match run with
  | some r => padKey (r.members.getD n 0) off
  | none => padKey 0 off

/-- Keys that row `r` is written to: one list for each target. -/
def State.dstKeys (s : State) (cx : BitVec 6) (run : Option Run) (c : Copy) (r : Nat) :
    Except (Byte × Nat) (List (List Nat)) :=
  if c.kind = .cpymc then
    .ok (c.targets.map fun n =>
      (List.range (c.blk.len / 8)).map fun i => memberPad run n (c.dstAt r 0 + 8 * i))
  else (s.rowKeys cx run .write (c.blk.len / 8) (c.dstAt r (c.idxAt r))).map fun ks => [ks]

/-! ## The index list (R291, R296) -/

/-- Why an index list cannot be used: cause, the cause that the frame shows instead, subcode without the channel, address and
entry (R296). -/
abbrev IndexErr := Byte × Option Byte × Byte × Nat × Nat

/-- Fetches entries from entry `i` on: poison in the list is cause 0x09; any other check that fails, a poisoned page table among
them, is cause 0x13 with the check's cause in the frame (R147, R296). -/
def State.fetchIdx (s : State) (cx : BitVec 6) (run : Option Run) (c : Copy) : Nat → Nat → Except IndexErr (List Nat)
  | 0, _ => .ok []
  | n + 1, i =>
    let w := c.blk.idxSize
    let va := (c.blk.list + w * i) % 2 ^ 64
    match s.locateW cx run .read va w with
    | .at key =>
      if (s.mem.poisonAt key w).isSome then .error (0x09, none, 0xC8, va / 64 * 64, i)
      else if !s.served key false then .error (0x13, some 0x0A, 0xC8, va, i)
      else
        match s.fetchIdx cx run c n (i + 1) with
        | .error e => .error e
        | .ok l => .ok (s.rdNat key w :: l)
    | .bad x => .error (0x13, some x, 0xC8, va, i)
    | .miss => .error (0x13, some 0x06, 0xC8, va, i)

/-- The whole list, and then the bound check unless zero-fill is set (R291). -/
def State.indexStep (s : State) (cx : BitVec 6) (run : Option Run) (c : Copy) : Except IndexErr (List Nat) :=
  match s.fetchIdx cx run c c.blk.rows 0 with
  | .error e => .error e
  | .ok l =>
    if c.blk.zeroFill then .ok l
    else
      match (List.range l.length).find? fun i => decide (c.blk.bound ≤ l.getD i 0) with
      | some i => .error (0x13, none, 0xCC, (c.blk.list + c.blk.idxSize * i) % 2 ^ 64, i)
      | none => .ok l

/-! ## What copies will write (R167) -/

/-- Numbers of the copy channels. -/
def channels : List (BitVec 2) := [0, 1, 2, 3]

/-- The bank whose copies and engine operations go on: during a service slice that of the interrupted context (R341). -/
def State.workBank (s : State) : Bank := if s.serving then s.shadow.getD s.bank else s.bank

/-- A copy with the index list that says where it writes; one whose list cannot be read writes nothing (R291). -/
def State.listed (s : State) (cx : BitVec 6) (run : Option Run) (c : Copy) : Copy :=
  if c.kind = .cpys ∧ c.indices.isNone then
    match s.indexStep cx run c with
    | .ok l => { c with indices := some l }
    | .error _ => { c with pos := c.blk.rows }
  else c

/-- Homes and lanes that the rows of a copy still to be moved are written to (R167). -/
def State.copyLanes (s : State) (cx : BitVec 6) (run : Option Run) (x : Copy) : List (Home × Nat) :=
  let c := s.listed cx run x
  ((List.range (c.blk.rows - c.pos)).flatMap fun i =>
    if c.outside (c.pos + i) && c.kind == .cpys then []
    else
      match s.dstKeys cx run c (c.pos + i) with
      | .ok ds => (ds.flatten.map fun k => (homeOf k, keyLane k)).eraseDups
      | .error _ => []).eraseDups

/-- Two copies' writes are plain writes of one source: the channel for `cpy`, `cpymc` and `cpred`, the access processor for
`cpyg` and `cpys` of any channel (R167, R290, R297). -/
def Copy.oneSource (c d : Copy) : Bool :=
  if c.kind.indexed then d.kind.indexed else !d.kind.indexed && c.blk.chan == d.blk.chan

/-- The copies of the channels, queued or started. -/
def Bank.copiesOf (b : Bank) : List Copy := b.chans.toList.flatMap fun c => c.started ++ c.queue

/-- A write of the access processor that a `cpyg` or a `cpys` requested before it holds back: the copy has still to write to
the same home and lane (R167). -/
def State.owed (s : State) (e : PendW) : Bool :=
  e.agent == apId && e.path == .own && e.kind == .plain &&
    let b := s.workBank
    let cx := (b.run.map fun r => r.ctx).getD 0
    (b.copiesOf.filter fun c => c.kind.indexed && decide (c.seq < e.no)).any fun c =>
      (s.copyLanes cx b.run c).contains (homeOf e.key, keyLane e.key)

end Sys2Proof.Machine
end

