-- ==== Sys2Proof/Machine/Order.lean ====
section
/-! DEFINITION. The order of memory accesses (R157 to R175): reads and writes that have been requested and not yet performed,
what a path has read early, and what releases, acquires and fences do to them. -/

namespace Sys2Proof.Machine

/-! ## Scopes and parties (R163) -/

/-- How far a scope reaches (R163): 0 the agent, 1 the core, 2 the die, 3 the package, 4 the system. -/
def reach : Scope → Nat
  | .clu => 0 | .cor => 1 | .die => 2 | .pkg => 3 | .sys => 4

/-- How far a party stands from an agent of the core. -/
def Party.distance (p : Party) (a : AgentId) : Nat :=
  match p with
  | .here b => if a = b then 0 else 1
  | .far n => n

/-- The scope of an agent's access includes a party (R163). -/
def includes (sc : Scope) (a : AgentId) (p : Party) : Bool := decide (p.distance a ≤ reach sc)

/-! ## Poison and its counter (R144, R412) -/

/-- Adds to a 64-bit counter of a die's health record, which stops at its largest value (R412, R413). -/
def State.count (s : State) (d : Nat) (k n : Nat) : State :=
  { s with
    health := s.health.mapIdx fun i h =>
      if i = d then { h with counters := h.counters.modify k fun x => min (x + n) (2 ^ 64 - 1) } else h
    tally := (d, k, n) :: s.tally }

/-- The die whose health record counts a granule of a home; one that lies on no die counts on the core's. DESIGN CHOICE,
log 60. -/
def Home.countedOn (h : Home) (own : Nat) : Nat :=
  match h with
  | .pad c => c / 64
  | .l2 d => d
  | _ => own

/-- Poisons the granule of a key; one that was clean is counted (R144, R412). -/
def State.poisonKey (s : State) (key : Nat) : State :=
  let g := key / 64
  if s.mem.poison.contains g then s
  else { s with mem := s.mem.poisonGranule g }.count ((homeOf key).countedOn s.die) 4 1

/-! ## What is requested, and what paths hold -/

/-- Two ranges of keys have a byte in common. -/
def meets (a n b m : Nat) : Bool := decide (a < b + m) && decide (b < a + n)

/-- The write is a plain one. -/
def PendW.plain (e : PendW) : Bool := e.kind == .plain

/-- The older plain write of the same agent, home and lane is performed first (R167). -/
def PendW.before (e f : PendW) : Bool := e.plain && f.plain && e.agent == f.agent && sameLane e.key f.key

/-- The write touches one of `n` bytes at a key. -/
def PendW.touches (e : PendW) (key n : Nat) : Bool := meets e.key e.bytes.length key n

/-- The write counts as performed for a party at this distance from its agent (R163, R174). -/
def PendW.seenAt (e : PendW) (d : Nat) : Bool := (e.seen.map fun n => decide (d ≤ n)).getD false

/-- The write counts as performed for an agent of the core. -/
def PendW.seenBy (e : PendW) (a : AgentId) : Bool := e.seenAt ((Party.here e.agent).distance a)

/-- The bytes held cover a read of an agent's path. -/
def Held.covers (h : Held) (a : AgentId) (path : Path) (key n : Nat) : Bool :=
  h.agent == a && h.path == path && decide (h.key ≤ key) && decide (key + n ≤ h.key + h.bytes.length)

/-- What an agent's path holds of a location. -/
def State.heldAt (s : State) (a : AgentId) (path : Path) (key n : Nat) : Option (List Byte) :=
  (s.held.find? fun h => h.covers a path key n).map fun h => (h.bytes.drop (key - h.key)).take n

/-- An agent's path holds nothing of a location any more. -/
def State.dropOf (s : State) (a : AgentId) (path : Path) (key n : Nat) : State :=
  if s.held.isEmpty then s
  else { s with held := s.held.filter fun h => !(h.agent == a && h.path == path && meets h.key h.bytes.length key n) }

/-- The same for the agent at issue. -/
def State.dropAt (s : State) (path : Path) (key n : Nat) : State := s.dropOf s.turn path key n

/-! ## Reads -/

/-- Bytes read at a key, with a write there that is still to be performed. -/
def overlay (key : Nat) (bs : List Byte) (e : PendW) : List Byte :=
  bs.mapIdx fun i b => if e.key ≤ key + i then e.bytes.getD (key + i - e.key) b else b

/-- What a plain read of `n` bytes by an agent's path sees: bytes held since they were read early, or the home (R166, R171), and
its own path's write that a copy holds back (R167). -/
def State.viewOf (s : State) (a : AgentId) (path : Path) (key n : Nat) : List Byte :=
  (s.pend.filter fun e => e.agent == a && e.path == path && e.touches key n).foldl (overlay key)
    ((s.heldAt a path key n).getD (s.rd key n))

/-- The same for the agent at issue. -/
def State.view (s : State) (path : Path) (key n : Nat) : List Byte := s.viewOf s.turn path key n

/-- The granule of an address (R144). -/
def granuleOf (va : DWord) : DWord := va &&& ~~~(0x3F : DWord)

/-- The mark that a read of an agent's path gives its result (R145, R147 checks 6 and 7); bytes held since they were read early
were good. DEDUCED, log 20. -/
def State.markOf (s : State) (a : AgentId) (path : Path) (va : DWord) (key w : Nat) : Option Mark :=
  if (s.heldAt a path key w).isSome then none
  else if (s.mem.poisonAt key w).isSome then some ⟨granuleOf va, 0x09⟩
  else if !s.served key false then some ⟨granuleOf va, 0x0A⟩
  else none

/-- The same for the agent at issue. -/
def State.readMark (s : State) (path : Path) (va : DWord) (key w : Nat) : Option Mark := s.markOf s.turn path va key w

/-- An element of a result in flight takes the value that has been read, and the result its mark: latch, queue position, buffer
of the bundle at issue (R17, R30, R145). -/
def Agent.patch (a : Agent) (uid : Nat) (f : DWord → DWord) (g : Vec → Vec) (m : Option Mark) : Agent :=
  let lat := fun (l : Latch) => if l.uid = uid then { l with val := f l.val, vec := g l.vec, mark := m } else l
  let sca := fun (e : SEnt) => if e.uid = uid then { e with val := f e.val, mark := m } else e
  let vec := fun (e : VEnt) => if e.uid = uid then { e with val := g e.val, mark := m } else e
  { a with
    latches := a.latches.map lat
    sq := a.sq.map sca
    vq := a.vq.map vec
    bun := { a.bun with
      latches := a.bun.latches.map lat
      scal := a.bun.scal.map sca
      vecs := a.bun.vecs.map vec } }

/-- A vector with one lane replaced. -/
def setLane (v : Vec) (i : Nat) (x : Word) : Vec := mkVec fun j => if j = i then x else lane v j

/-- The mark of a result of which one more element has been read: that of the lowest marked lane (R145). -/
def lowerMark (old : Option (Nat × Mark)) (i : Nat) (m : Option Mark) : Option (Nat × Mark) :=
  match old, m with
  | some (j, x), some y => if i < j then some (i, y) else some (j, x)
  | none, some y => some (i, y)
  | o, none => o

/-- What an agent's path holds of a location only in part goes before it reads there anew (R168). -/
def State.wholeOf (s : State) (a : AgentId) (path : Path) (key n : Nat) : State :=
  if (s.heldAt a path key n).isSome then s else s.dropOf a path key n

/-- An element of a pending read is read: the state, and the read. -/
def State.readElement (s : State) (r : PendR) (x : Nat × DWord × Nat) : State × PendR :=
  let s := s.wholeOf r.agent r.path x.2.2 r.w
  let v := ofBytes (s.viewOf r.agent r.path x.2.2 r.w)
  let m := lowerMark r.mark x.1 (s.markOf r.agent r.path x.2.1 x.2.2 r.w)
  (s.mapAgent r.agent fun a => a.patch r.uid (fun y => if r.vec then y else BitVec.ofNat 64 v)
    (fun y => if r.vec then setLane y x.1 (BitVec.ofNat 32 v) else y) (m.map (·.2)), { r with mark := m })

/-- Elements of a pending read are read, in order. -/
def State.readElements : List (Nat × DWord × Nat) → State → PendR → State × PendR
  | [], s, r => (s, r)
  | x :: xs, s, r =>
    let q := s.readElement r x
    State.readElements xs q.1 q.2

/-- Performs the reads that a test picks out, oldest first; `kept` holds what stays. -/
def State.readGo (p : PendR → Nat × DWord × Nat → Bool) : List PendR → List PendR → State → State
  | [], kept, s => { s with reads := kept }
  | r :: rs, kept, s =>
    let q := State.readElements (r.todo.filter (p r)) s r
    let rest := r.todo.filter fun x => !p r x
    State.readGo p rs (kept ++ if rest.isEmpty then [] else [{ q.2 with todo := rest }]) q.1

/-- Performs the reads that a test picks out. -/
def State.readsWhere (s : State) (p : PendR → Nat × DWord × Nat → Bool) : State :=
  if s.reads.isEmpty then s else State.readGo p s.reads [] s

/-- The pending reads of an agent's path that touch a location are performed (R166: same location). -/
def State.readsAt (s : State) (a : AgentId) (path : Path) (key n : Nat) : State :=
  s.readsWhere fun r x => r.agent == a && r.path == path && meets x.2.2 r.w key n

/-- The reads that a test picks out are performed at a reach (R160, R163): for the system they are performed; for less, no write
of an agent within it comes before them. -/
def State.readTo (s : State) (r : Nat) (p : PendR → Bool) : State :=
  if 4 ≤ r then s.readsWhere fun x _ => p x
  else { s with reads := s.reads.map fun x => if p x then { x with upto := some (max r (x.upto.getD 0)) } else x }

/-! ## Writes -/

/-- What a path holds when a party at a distance has written there. `op`: as `Held` has it. -/
def Held.miss (h : Held) (d op : Nat) : Held :=
  { h with missed := some ((h.missed.map (min d)).getD d), op := max h.op op }

/-- A write on path MX of an agent of the core is one of its engine. -/
def byEngine (who : Party) (path : Path) : Nat :=
  match who with
  | .here _ => bit (path == .mx)
  | .far _ => 0

/-- A party's path writes `n` bytes at a key, or the write comes to count as performed up to a distance: reads there that an
order puts first are performed, the path itself holds the location no longer, and what other paths within that distance
hold of it has missed the write (R163, R166). -/
def State.noteWrite (s : State) (who : Party) (path : Path) (key n upto : Nat) : State :=
  let s := s.readsWhere fun r x =>
    meets x.2.2 r.w key n && (r.upto.map fun m => decide (who.distance r.agent ≤ min m upto)).getD false
  if s.held.isEmpty then s
  else
    { s with held := s.held.filterMap fun h =>
        let d := who.distance h.agent
        if !meets h.key h.bytes.length key n then some h
        else if who == .here h.agent && h.path == path then none
        else if d ≤ upto then some (h.miss d (byEngine who path))
        else some h }

/-- An error of an agent's write is deferred (R147). -/
def State.deferTo (s : State) (a : AgentId) (d : Deferred) : State :=
  s.mapAgent a fun g => { g with deferred := g.deferred ++ [d] }

/-- A release of a sync object is noted with the regions it publishes. -/
def State.noteRelease (s : State) (r : Rel) : State :=
  match s.rels.find? fun x => x.ctx == r.ctx && x.obj == r.obj && x.who == r.who && x.scope == r.scope with
  | some x =>
    { s with rels := { x with regions := x.regions ++ r.regions.filter fun y => !x.regions.contains y } :: s.rels.erase x }
  | none => { s with rels := r :: s.rels }

/-- The same, where there is one. -/
def State.noteReleases (s : State) (r : Option Rel) : State := (r.map s.noteRelease).getD s

/-- The new value of an atomic (R153). -/
def AmoOp.new (o : AmoOp) (w old b x : Nat) : Option Nat :=
  let lt := decide (sgnW (8 * w) old < sgnW (8 * w) b)
  match o with
  | .add => some ((old + b) % 2 ^ (8 * w))
  | .swp => some b
  | .cas => if old = x then some b else none
  | .min => some (if lt then old else b)
  | .max => some (if lt then b else old)
  | .minn => some (if old < b then old else b)
  | .maxn => some (if old < b then b else old)
  | .and => some (old &&& b)
  | .or => some (old ||| b)
  | .xor => some (old ^^^ b)

/-- The mark an atomic of an agent gives its result: it is read at its home, and served there as a write is (R145, R147, R385). -/
def State.atomicMark (s : State) (a : AgentId) (va : DWord) (key w : Nat) : Option Mark :=
  match s.markOf a .own va key w with
  | some m => some m
  | none => if s.served key true then none else some ⟨granuleOf va, 0x0A⟩

/-- Bytes are written at a key for an agent's path (R162). -/
def State.land (s : State) (e : PendW) (bs : List Byte) : State :=
  (s.noteWrite (.here e.agent) e.path e.key bs.length 4).wr e.key bs

/-- An atomic is performed: the read and the write are one, the result takes the old value, and one that fails leaves memory
unchanged (R145, R147, R153). -/
def State.performAmo (s : State) (e : PendW) (uid : Nat) (o : AmoOp) (b x : Nat) (discards : Bool) (r : Option Rel) : State :=
  let w := e.bytes.length
  let old := s.rdNat e.key w
  let take := fun (s : State) (m : Option Mark) =>
    s.mapAgent e.agent fun a => a.patch uid (fun _ => BitVec.ofNat 64 old) id m
  match s.atomicMark e.agent e.va e.key w with
  | some m =>
    if discards then (take s none).deferTo e.agent ⟨m.addr, m.cause, 2, 0, .own⟩ else take s (some m)
  | none =>
    match o.new w old b x with
    | some v => ((take s none).land e (bytesOf w v)).noteReleases r
    | none => take s none

/-- A write is performed at its home (R162); where that serves it no more its error is deferred (R147, R384). -/
def State.perform (s : State) (e : PendW) : State :=
  match e.kind with
  | .amo uid o b x d r => s.performAmo e uid o b x d r
  | k =>
    if s.served e.key true then
      let s := s.land e e.bytes
      let s := if e.clean then { s with mem := s.mem.cleanGranule (e.key / 64) } else s
      match k with
      | .rel r => s.noteRelease r
      | _ => s
    else s.deferTo e.agent ⟨e.va, 0x0A, 1, BitVec.ofNat 4 e.lane, e.path⟩

/-- Performs pending writes, oldest first: `kept` holds the older ones that stay; `stays` says which of them do, and a write
whose lane an older one keeps stays too (R167). -/
def State.settleGo (stays : Nat → PendW → Bool) : Nat → List PendW → List PendW → State → State
  | _, [], kept, s => { s with pend := kept }
  | i, e :: es, kept, s =>
    if stays i e || kept.any (·.before e) then State.settleGo stays (i + 1) es (kept ++ [e]) s
    else State.settleGo stays (i + 1) es kept (s.perform e)

/-- A write that a test picks out is performed, and with it those that come before it in its lane. -/
def needed (p : PendW → Bool) : List PendW → List Bool
  | [] => []
  | e :: es => (p e || es.any fun f => p f && e.before f) :: needed p es

/-- Performs the writes that a test picks out (R150, R160, R161), but for those that a copy holds back (R167). -/
def State.flushWhere (s : State) (p : PendW → Bool) : State :=
  if s.pend.isEmpty then s
  else
    let l := needed p s.pend
    State.settleGo (fun i e => !l.getD i true || s.owed e) 0 s.pend [] s

/-- The writes that a test picks out are performed at a reach (R160, R163): for the system at their homes; for less, they count
as performed for the agents within it. -/
def State.publish (s : State) (r : Nat) (p : PendW → Bool) : State :=
  if 4 ≤ r then s.flushWhere p
  else
    let t := (s.pend.filter p).foldl (fun t e => t.noteWrite (.here e.agent) e.path e.key e.bytes.length r) s
    { t with pend := s.pend.map fun e => if p e then { e with seen := some (max r (e.seen.getD 0)) } else e }

/-- What counts as performed for an agent is performed before an engine or a copy channel goes on for it (R163, R174). -/
def State.surface (s : State) (a : AgentId) : State := s.flushWhere (·.seenBy a)

/-! ## Accesses of the agent at issue -/

/-- The writes at a location that an access of the agent's path there comes after: its path's own, those that count as
performed for the agent's other paths, and those that do for the core (R163, R166). -/
def State.flushAt (s : State) (path : Path) (key n : Nat) : State :=
  s.flushWhere fun e => e.touches key n && ((e.agent == s.turn && (e.path == path || e.seen.isSome)) || e.seenAt 1)

/-- Before an agent's path reads a location, what it comes after there is performed, and what is held of it only in part goes
(R166, R168). -/
def State.beforeRead (s : State) (path : Path) (key n : Nat) : State :=
  ((s.flushAt path key n).readsAt s.turn path key n).wholeOf s.turn path key n

/-- The agent requests a write: it is performed at once, or it stays pending (R162, R167). -/
def State.request (s : State) (late : Bool) (e : PendW) : State :=
  let n := e.bytes.length
  let s := ((s.flushWhere fun f => f.touches e.key n &&
    ((f.agent == s.turn && (f.path != e.path || !e.plain || !f.plain) && (f.path == e.path || f.seen.isSome))
      || (f.agent != s.turn && f.seenAt 1))).readsAt s.turn e.path e.key n).dropAt e.path e.key n
  if late || s.owed e || s.pend.any (·.before e) then { s with pend := s.pend ++ [e] } else s.perform e

/-- The mask of the store instruction or the atomic at work: which of its elements are not performed at once. -/
def State.lateMask (s : State) : Nat := s.oracle.late.headD 0

/-- The store instruction or the atomic at work has used its mask. -/
def State.usedLate (s : State) : State := { s with oracle := { s.oracle with late := s.oracle.late.drop 1 } }

/-- The load at work leaves elements of its result (number `uid`) to be read later, as the outside decides (R162, R166): the
mask of the load instruction says which, and is used. -/
def State.readLater (s : State) (path : Path) (uid : Nat) (vec : Bool) (w : Nat) (xs : List (Nat × DWord × Nat))
    (m : Option (Nat × Mark)) : State :=
  let s := { s with oracle := { s.oracle with lateReads := s.oracle.lateReads.drop 1 } }
  if xs.isEmpty then s else { s with reads := s.reads ++ [⟨s.turn, path, uid, vec, w, xs, m, none⟩] }

/-- The elements that the load at work does not read at once. -/
def State.lateRead (s : State) (i : Nat) : Bool := (s.oracle.lateReads.headD 0).testBit i

/-- A path reads some bytes early: neither a copy owns them nor is a write there that it comes after still to be performed
(R143, R166). DESIGN CHOICE, log 60. -/
def State.readEarly (s : State) (x : AgentId × Path × Nat × Nat) : State :=
  let a := x.1
  let path := x.2.1
  let va := x.2.2.1
  let n := x.2.2.2
  if n = 0 ∨ 64 < n ∨ path = .cp ∨ path = .co then s
  else
    match s.locate s.cx s.bank.run .read va n with
    | .at key =>
      if s.served key false && (s.mem.poisonAt key n).isNone && !s.boardHit key n false
          && !s.pend.any fun e => e.touches key n && ((e.agent == a && (e.path == path || e.seen.isSome)) || e.seenAt 1) then
        let t := s.dropOf a path key n
        { t with held := ⟨a, path, va, key, s.rd key n, none, 0⟩ :: t.held }
      else s
    | _ => s

/-- A result of an agent lands with this cycle: what it takes can wait no longer (R25). -/
def State.landsNow (s : State) (a : AgentId) (uid : Nat) : Bool :=
  !(s.agent a).latches.any fun l => l.uid == uid && match l.ready with
    | .at t => decide (s.pt + 1 < t)
    | .token => true

/-- The write is an atomic whose result lands with this cycle. -/
def State.amoDue (s : State) (e : PendW) : Bool :=
  match e.kind with
  | .amo uid _ _ _ _ _ => s.landsNow e.agent uid
  | _ => false

/-- At the end of a cycle pending reads and writes are performed and bytes are read early, as the outside decides. -/
def State.memoryCycle (s : State) : State :=
  let s := s.readsWhere fun r _ => s.landsNow r.agent r.uid || !(s.oracle.keepReads.headD 0).testBit (s.reads.findIdx (· == r))
  let s := if s.pend.isEmpty then s
    else State.settleGo (fun i e => !s.amoDue e && ((s.oracle.keep.headD 0).testBit i || s.owed e)) 0 s.pend [] s
  let s := (s.oracle.early.headD []).foldl State.readEarly s
  { s with oracle := { s.oracle with
      keep := s.oracle.keep.drop 1, keepReads := s.oracle.keepReads.drop 1, early := s.oracle.early.drop 1 } }

/-- Every access that has been requested is performed, and what has been read early is dropped. -/
def State.quiesce (s : State) : State :=
  { (s.readsWhere fun _ _ => true).flushWhere fun _ => true with held := [] }

/-! ## What an engine reads and writes for an agent (R144, R147, R162, R171) -/

/-- A vocabulary operation has written bytes: what path MX of the core's agents holds of them has missed that (R244). -/
def State.noteVoc (s : State) (key n : Nat) : State :=
  if s.held.isEmpty then s
  else { s with held := s.held.map fun h =>
    if h.path == .mx && meets h.key h.bytes.length key n then { h with op := 2 } else h }

/-- What path MX of an agent holds and an operation may not read: it has missed a write of an engine operation of this kind
before it (R244, R282). -/
def State.afterOps (s : State) (a : AgentId) (op : Nat) : State :=
  { s with held := s.held.filter fun h => !(h.agent == a && h.path == .mx && decide (op ≤ h.op)) }

/-- What path MX of the agent that the engine works for holds of a location. -/
def State.heldMx (s : State) (key n : Nat) : Option (List Byte) := s.reader.bind fun a => s.heldAt a .mx key n

/-- A read by an engine: bytes, or the cause and the address of the failure (checks 1 to 7, R147). -/
def State.engRead (s : State) (cx : BitVec 6) (run : Option Run) (va w n : Nat) : Except (Byte × Nat) (List Byte) :=
  match s.locateW cx run .read va w with
  | .at key =>
    match s.heldMx key n with
    | some bs => .ok bs
    | none => s.homeRead cx run va w n
  | _ => s.homeRead cx run va w n

/-- A byte list that may cross pages, read by an engine in pieces of `w` bytes. -/
def State.engReadN (s : State) (cx : BitVec 6) (run : Option Run) (w : Nat) : Nat → Nat → Except (Byte × Nat) (List Byte)
  | 0, _ => .ok []
  | n + 1, va =>
    match s.engRead cx run va w w with
    | .error e => .error e
    | .ok bs =>
      match s.engReadN cx run w n (va + w) with
      | .error e => .error e
      | .ok rest => .ok (bs ++ rest)

/-- The party that the engine or the scheduler writes for: the agent it works for, or one outside the core. -/
def State.writer (s : State) : Party :=
  match s.reader with
  | some a => .here a
  | none => .far 2

/-- A write by an engine, as a store makes it; its completion error is deferred to the agent that the engine works for (R144,
R147). -/
def State.engWrite (s : State) (cx : BitVec 6) (run : Option Run) (va w : Nat) (bs : List Byte) :
    Except (Byte × Nat) State :=
  match s.locateW cx run .write va w with
  | .at key =>
    if s.served key true then .ok (((s.fillTlb cx va).noteWrite s.writer .mx key bs.length 4).wr key bs)
    else
      match s.reader with
      | some a => .ok (s.deferTo a ⟨BitVec.ofNat 64 va, 0x0A, 1, 0, .mx⟩)
      | none => .error (0x0A, va)
  | .bad c => .error (c, va)
  | .miss => .error (0x06, va)

/-! ## Releases and acquires (R157, R166, R170, R171) -/

/-- The translation of an address, by what the TLBs hold or by a walk (R404, R405). -/
def State.pageOf (s : State) (cx : BitVec 6) (va : Nat) : Option TlbEnt :=
  match s.tlbFind cx va with
  | some e => some e
  | none =>
    match s.walkVa cx va with
    | .ok e => some e
    | .error _ => none

/-- The locations of the virtual addresses from `lo` to `hi` by key, page by page; addresses that are not translated, or by no
entry, have none: reads there are always covered, or fail (R147, R171). -/
def State.keysOf (s : State) (cx : BitVec 6) : Nat → Nat → Nat → List (Nat × Nat)
  | 0, _, _ => []
  | n + 1, lo, hi =>
    if hi ≤ lo ∨ 30 * 2 ^ 52 ≤ lo then []
    else
      match s.pageOf cx lo with
      | some e =>
        let top := min hi (e.va + e.size)
        (e.key + (lo - e.va), e.key + (top - e.va)) :: s.keysOf cx n top hi
      | none => s.keysOf cx n (lo / 4096 * 4096 + 4096) hi

/-- The regions bound to the sync object at an address, by key: its entry block and what `bind` has bound to it (R157). -/
def State.regionsOf (s : State) (va : DWord) : List (Nat × Nat) :=
  ((va.toNat + 8, va.toNat / 256 * 256 + 256)
    :: (s.ctxs[s.cx.toNat].binds.filter fun e => e.2.1 == va).map fun e => (e.2.2.1.toNat, e.2.2.1.toNat + e.2.2.2)).flatMap
    fun r => s.keysOf s.cx ((r.2 - r.1) / 4096 + 2) r.1 r.2

/-- The reads of the agent's own path are performed at a reach (R166). -/
def State.readOwn (s : State) (r : Nat) : State := s.readTo r fun x => x.agent == s.turn && x.path == .own

/-- The writes of the agent's own path are performed at a reach (R161). -/
def State.publishOwn (s : State) (r : Nat) : State := s.publish r fun e => e.agent == s.turn && e.path == .own

/-- Before a release by the agent at issue its path's earlier accesses are performed at the scope (R166, R174). -/
def State.beforeRelease (s : State) (sc : Scope) : State := (s.readOwn (reach sc)).publishOwn (reach sc)

/-- The release by the agent at issue of the sync object at an address, with the regions that it publishes (R157, R170). -/
def State.relOf (s : State) (sc : Scope) (va : DWord) (key : Nat) : Rel := ⟨s.cx, key, .here s.turn, sc, s.regionsOf va⟩

/-- A release by the agent at issue, performed at once. -/
def State.release (s : State) (sc : Scope) (va : DWord) (key : Nat) : State :=
  (s.beforeRelease sc).noteRelease (s.relOf sc va key)

/-- The release synchronises with an acquire by the agent at issue (R170). -/
def Rel.syncs (r : Rel) (a : AgentId) (obj : Nat) (sc : Scope) : Bool :=
  r.obj == obj && includes sc a r.who && includes r.scope a r.who

/-- A read of what is held is always covered: all but the plain reads of translated locations on the agent's own path (R171). -/
def Held.covered (h : Held) : Bool :=
  h.path != .own || isPad h.key || (decide (2 ^ 56 ≤ h.key) && decide (h.key < 2 ^ 60))

/-- An order of this reach forbids to read what is held: it has missed a write of an agent within reach (R174). What has missed
none goes too where the reach goes beyond the agent. -/
def Held.staleAt (h : Held) (r : Nat) : Bool :=
  match h.missed with
  | some d => decide (d ≤ r)
  | none => decide (1 ≤ r)

/-- An order of this reach makes the agent at issue read anew what a test picks out (R166, R171, R173, R174). -/
def State.readAnew (s : State) (r : Nat) (p : Held → Bool) : State :=
  { s with held := s.held.filter fun h => !(h.agent == s.turn && p h && h.staleAt r) }

/-- The bytes held lie in one of some regions, under whatever address they were read (R171). -/
def Held.inRegions (h : Held) (rs : List (Nat × Nat)) : Bool :=
  rs.any fun r => decide (r.1 < h.key + h.bytes.length) && decide (h.key < r.2)

/-- An acquire by the agent at issue: its path reads anew what is local, and what lies in the regions that a release it
synchronises with has published (R166, R170, R171, R174). -/
def State.acquire (s : State) (sc : Scope) (obj : Nat) : State :=
  let rs := (s.rels.filter fun r => r.syncs s.turn obj sc).flatMap (·.regions)
  (s.readAnew (reach sc) fun h => h.path == .own && h.covered).readAnew 4 fun h => h.path == .own && h.inRegions rs

/-- `acq.all` of the agent's path: its earlier reads are performed, and every later one observes the writes of agents in the
scope that were performed before (R161, R166, R171). -/
def State.acquireAll (s : State) (sc : Scope) : State := (s.readOwn (reach sc)).readAnew (reach sc) fun h => h.path == .own

/-- A path set of `fence.x` names a path of the agent: CL and AP its loads and stores, GA its gathers and scatters, MX what the
engine does for it (R48, R165). -/
def inSet (x : BitVec 7) (path : Path) : Bool :=
  match path with
  | .own => x.getLsbD 0 || x.getLsbD 1
  | .cp => x.getLsbD 2
  | .ga => x.getLsbD 3
  | .mx => x.getLsbD 4
  | .co => x.getLsbD 5

/-- What a completed `fence.x` has done: the accesses on the paths of `a` are performed at the scope, and those on the paths of
`b` are made anew (R160, R166). -/
def State.fenceOwn (s : State) (sc : Scope) (a b : BitVec 7) : State :=
  ((s.readTo (reach sc) fun r => r.agent == s.turn && inSet a r.path).publish (reach sc) fun e =>
    e.agent == s.turn && inSet a e.path).readAnew (reach sc) fun h => inSet b h.path && h.covered

/-- What a completed `fence.m` has done: gathers and scatters are performed at their homes where its set has GA, and what the
agent requests later is made anew (R159, R166). -/
def State.fenceMarks (s : State) (ga : Bool) : State :=
  ((s.readsWhere fun r _ => r.agent == s.turn && r.path == .ga && ga).flushWhere fun e =>
    e.agent == s.turn && e.path == .ga && ga).readAnew 4 Held.covered

/-- `rel.all` (R161, R166). -/
def State.releaseAll (s : State) (sc : Scope) : State :=
  (s.publishOwn (reach sc)).readAnew (reach sc) Held.covered

/-- An advance of a mark orders what firings read on path MX after it (R209, R293). -/
def State.firingsAnew (s : State) : State := { s with held := s.held.filter fun h => !(h.path == .mx && h.staleAt 1) }

/-- What an advance of a mark orders (R209): the agent's earlier writes, and its gathers, are performed at core scope; its later
reads are made anew as `acq.all.cor` orders them, and so are those of firings. -/
def State.extendOrder (s : State) : State :=
  (((s.readTo 1 fun r => r.agent == s.turn && r.path == .ga).publish 1 fun e => e.agent == s.turn).acquireAll .cor).firingsAnew

/-- A write of the agent that a test picks out is held back by a copy, itself or an older one of its lane (R167); `older` are those
requested before. -/
def State.heldBackGo (s : State) (p : PendW → Bool) : List PendW → List PendW → Bool
  | _, [] => false
  | older, e :: es =>
    (e.agent == s.turn && p e && (e :: older).any fun f => f.before e && s.owed f) || s.heldBackGo p (e :: older) es

/-- Such a write is pending: the instruction that waits for it goes on waiting. -/
def State.heldBack (s : State) (p : PendW → Bool) : Bool := s.heldBackGo p [] s.pend

end Sys2Proof.Machine
end

