-- ==== Sys2Proof/Machine/Ops.lean ====
section
/-! DEFINITION. The operations that instructions share: delivering results (R17, R24, R25, R30), memory accesses of an
agent (R144 to R150), taking a trap and what its actions do (R325 to R340), and returning to a saved context
(R33, R341, R346). -/

namespace Sys2Proof.Machine

/-! ## Results -/

/-- The latch of a new result. -/
def newLatch (uid : Nat) (cls : LCls) (d : Opnd) (wide : Bool) (v : DWord) (vv : Vec) (r : Ready) (f : BitVec 7)
    (m : Option Mark) : Latch := ⟨uid, cls, d, wide, v, vv, r, f, m, (false, false)⟩

/-- A result joins the bundle's buffer: its latch (R30), and its queue position unless the destination is level 11
(R17). -/
def Bun.push (b : Bun) (l : Latch) : Bun :=
  { b with
    latches := l :: b.latches
    scal := if l.dst.discards || decide (l.cls = .vector) then b.scal else ⟨l.uid, l.val, l.ready, l.mark⟩ :: b.scal
    vecs := if l.dst.discards || !decide (l.cls = .vector) then b.vecs else ⟨l.uid, l.vec, l.ready, l.mark⟩ :: b.vecs }

/-- Delivers a result of the instruction at issue. -/
def State.deliver (s : State) (cls : LCls) (d : Opnd) (wide : Bool) (v : DWord) (vv : Vec) (r : Ready) (f : BitVec 7)
    (m : Option Mark) : State :=
  let l := newLatch s.bank.uid cls d wide v vv r f m
  (s.mapBank fun b => { b with uid := b.uid + 1 }).mapBun fun b => b.push l

/-- The program time at which a bounded result becomes readable (R24, R25). -/
def State.landing (s : State) (sc : Sched) (d : Opnd) (nominal : Nat) : Ready :=
  .at (s.pt + if d.discards then nominal else sc.bound nominal)

/-- A 32-bit result with flags. -/
def State.putF (s : State) (sc : Sched) (d : Opnd) (nominal : Nat) (v : Word) (f : BitVec 7) : State :=
  s.deliver .scalar d false (v.setWidth 64) 0 (s.landing sc d nominal) f none

/-- A 32-bit result. -/
def State.put (s : State) (sc : Sched) (d : Opnd) (nominal : Nat) (v : Word) : State := s.putF sc d nominal v 0

/-- A 64-bit result. -/
def State.put64 (s : State) (sc : Sched) (d : Opnd) (nominal : Nat) (v : DWord) : State :=
  s.deliver .pair d true v 0 (s.landing sc d nominal) 0 none

/-- A vector result with flags. -/
def State.putV (s : State) (sc : Sched) (d : Opnd) (nominal : Nat) (v : Vec) (f : BitVec 7) : State :=
  s.deliver .vector d false 0 v (s.landing sc d nominal) f none

/-- A scalar or pair result with a mark (R145, R147). -/
def State.putM (s : State) (sc : Sched) (d : Opnd) (wide : Bool) (nominal : Nat) (v : DWord) (m : Option Mark) : State :=
  s.deliver (if wide then .pair else .scalar) d wide v 0 (s.landing sc d nominal) 0 m

/-- A vector result with a mark (R145). -/
def State.putVM (s : State) (sc : Sched) (d : Opnd) (nominal : Nat) (v : Vec) (m : Option Mark) : State :=
  s.deliver .vector d false 0 v (s.landing sc d nominal) 0 m

/-- A token that lands at once: readable by the next bundle. -/
def State.putToken (s : State) (d : Opnd) (wide : Bool) (v : DWord) : State :=
  s.deliver .token d wide v 0 (.at (s.pt + 1)) 0 none

/-- A token of an operation that has been queued (R26); the number ties it to its operation. -/
def State.putPending (s : State) (d : Opnd) (wide : Bool) : State × Nat :=
  (s.deliver .token d wide 0 0 .token 0 none, s.bank.uid)

/-! ## Landing: results become readable in issue order of age, never overtaken (R25) -/

/-- The next register of a pair. -/
def Opnd_next (o : Opnd) : Opnd :=
  match o with
  | .k i => .k (i + 1)
  | .g i => .g (i + 1)
  | o => o

/-- Writes a scalar register (R14); a write elsewhere changes nothing. -/
def Agent.setScalar (a : Agent) (o : Opnd) (v : Word) : Agent :=
  match o with
  | .k i => { a with k := a.k.setIfInBounds i.toNat v }
  | .g i => { a with g := a.g.setIfInBounds i.toNat v }
  | _ => a

/-- Writes a vector register. -/
def Agent.setVector (a : Agent) (o : Opnd) (v : Vec) : Agent :=
  match o with
  | .k i => { a with vk := a.vk.setIfInBounds i.toNat v }
  | .g i => { a with v := a.v.setIfInBounds i.toNat v }
  | _ => a

/-- A result leaves its latch: its register takes the value and the mark, and its flags accrue (R25, R109, R145). -/
def Agent.land (a : Agent) (l : Latch) : Agent :=
  let vec := decide (l.cls = .vector)
  let a := a.accrue l.flags
  let a := { a with marks := a.marks.filter fun m =>
    !(m.vec == vec && ((!l.dead.1 && overlaps l.dst false m.reg false)
      || (l.wide && !l.dead.2 && overlaps (Opnd_next l.dst) false m.reg false))) }
  let a :=
    match l.mark with
    | some m => { a with marks := a.marks ++
        ([(l.dst, !l.dead.1), (Opnd_next l.dst, l.wide && !l.dead.2)].filter (·.2)).map fun p => ⟨p.1, vec, m⟩ }
    | none => a
  if vec then if l.dead.1 then a else a.setVector l.dst l.vec
  else
    let a := if l.dead.1 then a else a.setScalar l.dst (l.val.setWidth 32)
    if l.wide && !l.dead.2 then a.setScalar (Opnd_next l.dst) (l.val.extractLsb' 32 32) else a

/-- An older pending write that a younger one has overtaken (R25). -/
def Latch.overtaken (x l : Latch) : Latch :=
  if decide (x.cls = .vector) == decide (l.cls = .vector) then
    { x with dead :=
        (x.dead.1 || overlaps l.dst l.wide x.dst false,
         x.dead.2 || (x.wide && overlaps l.dst l.wide (Opnd_next x.dst) false)) }
  else x

/-- Lands, oldest first, every latch that is readable at `pt`; `kept` holds the older ones that stay. -/
def Agent.landGo (pt : Nat) : List Latch → List Latch → Agent → Agent
  | [], kept, a => { a with latches := kept }
  | l :: ls, kept, a =>
    if l.ready.by pt then Agent.landGo pt ls (kept.map (·.overtaken l)) (a.land l)
    else Agent.landGo pt ls (kept ++ [l]) a

/-- Lands what is readable at `pt`. -/
def Agent.commit (a : Agent) (pt : Nat) : Agent := Agent.landGo pt a.latches [] a

/-- A token lands: its latch and its queue position take the value (R26, R193), and its flags accrue (R194). -/
def Agent.landToken (a : Agent) (uid : Nat) (v : DWord) (f : BitVec 7) : Agent :=
  let a := { a with
    latches := a.latches.map fun (l : Latch) => if l.uid = uid then { l with ready := .at 0, val := v, flags := f } else l
    sq := a.sq.map fun (e : SEnt) => if e.uid = uid then { e with ready := .at 0, val := v } else e }
  a.commit 0

/-! ## Memory accesses of the agent at issue (R144 to R147) -/

/-- The subcode of a data access (R147). -/
def accessSub (k : AKind) (lane : Nat) : Byte := BitVec.ofNat 8 (lane % 16 + 16 * k.code)

/-- The walk that a missing translation starts: it reads its entries now, once each (R405); a memory instruction passes
translation within 3 cycles of program time (R31). -/
def State.newWalk (s : State) (cx : BitVec 6) (va : Nat) : Walk :=
  let w : Walk := ⟨cx, va, s.wall + s.oracle.walks.headD 0, s.pt + 3, none, none, 0⟩
  match s.walkVa cx va with
  | .ok e => { w with ent := some e }
  | .error c => { w with fails := c }

/-- The core waits for a walk before the bundle goes on (R28). -/
def State.walkStop {α : Type} (s : State) (cx : BitVec 6) (va : Nat) : Except Stop α :=
  .error (.freeze ⟨.walk, 0⟩ (some (s.newWalk cx va)))

/-- Cycles of program time after its issue at which a failed access is detected: 3 where its walk has failed (R31).
DEDUCED, log 5. -/
def State.lateness (s : State) (cx : BitVec 6) (va : Nat) : Nat := if (s.walkBad cx va).isSome then 3 else 0

/-- The freezes of an access whose location is known (R28, R142, R143). -/
def State.reachKey (s : State) (k : AKind) (key w : Nat) : Except Stop Nat :=
  if s.boardHit key w k.writes then .error (.freeze ⟨.board, 0⟩ none)
  else if s.refreshLeft key ≠ 0 then .error (.freeze ⟨.refresh, s.refreshLeft key⟩ none)
  else .ok key

/-- Checks 1 to 5 and the freezes of an access by the agent at issue: the key it goes to (R28, R31, R142, R143, R147). An
access whose walk will succeed goes on with the translation that it gives; one whose walk will fail waits for it, and its
bundle does not issue. DEDUCED, log 5. -/
def State.access (s : State) (k : AKind) (va : DWord) (w lane : Nat) : Except Stop Nat :=
  match s.locate s.cx s.bank.run k va.toNat w with
  | .bad c => .error (.trap { s.trapAt c (accessSub k lane) va with late := s.lateness s.cx va.toNat })
  | .at key => s.reachKey k key w
  | .miss =>
    match s.locateW s.cx s.bank.run k va.toNat w with
    | .at key => s.reachKey k key w
    | _ => s.walkStop s.cx va.toNat

/-- An access that has gone on without a translation leaves its walk behind, with the translation that it has read; accesses to
a page whose walk is in flight are merged into it (R31, R405). -/
def State.noteWalk (s : State) (va : DWord) : State :=
  if va.toNat / 2 ^ 52 < 30 ∧ (s.tlbFind s.cx va.toNat).isNone ∧ (s.inFlight s.cx va.toNat).isNone then
    { s with walks := s.walks ++ [s.newWalk s.cx va.toNat] }
  else s

/-- An error of a write of the agent at issue is deferred (R147). -/
def State.defer (s : State) (path : Path) (va : DWord) (cause : Byte) (k : AKind) (lane : Nat) : State :=
  s.deferTo s.turn ⟨va, cause, BitVec.ofNat 2 k.code, BitVec.ofNat 4 lane, path⟩

/-- An ordered write or an atomic's: performed at once, after what the path has written there (R152, R166), or its
completion error deferred (R147). -/
def State.storeNow (s : State) (k : AKind) (va : DWord) (key : Nat) (bs : List Byte) : State :=
  if s.served key true then
    (((s.flushAt .own key bs.length).readsAt s.turn .own key bs.length).noteWrite (.here s.turn) .own key bs.length 4).wr key bs
  else s.defer .own va 0x0A k 0

/-- A write of one element on a path of the agent: requested, or its completion error deferred (R147, R162). -/
def State.storeAs (s : State) (kind : PendK) (path : Path) (va : DWord) (key lane : Nat) (clean : Bool) (bs : List Byte) :
    State :=
  if s.served key true then
    s.request (s.lateMask.testBit lane) ⟨s.turn, path, va, lane, key, bs, clean, none, s.workBank.uid, kind⟩
  else s.defer path va 0x0A .write lane

/-- A plain write of one element. -/
def State.storePlain (s : State) (path : Path) (va : DWord) (key lane : Nat) (clean : Bool) (bs : List Byte) : State :=
  s.storeAs .plain path va key lane clean bs

/-- Writes of the agent on some paths that are pending and will fail are performed, so that their errors stand deferred for the
instruction that waits for them (R147). -/
def State.failPending (s : State) (p : Path → Bool) : State :=
  s.flushWhere fun e => e.agent == s.turn && p e.path && !s.served e.key true

/-- The oldest deferred error of a path that `p` names stops the instruction that waits for such writes, with bit 6 of the
subcode set (R147); the error is then reported. DEDUCED, log 22. -/
def State.deferredStop (s : State) (p : Path → Bool) : Option (State × TrapReq) :=
  match s.cur.deferred.find? fun d => p d.path with
  | some d =>
    some (s.mapCur fun a => { a with deferred := a.deferred.erase d },
      { s.trapAt d.cause (BitVec.ofNat 8 (0x40 + 16 * d.kind.toNat + d.lane.toNat)) d.addr with deferred := true })
  | none => none

/-! ## The trap frame (R337 to R340) -/

/-- Physical address of the core area of a logical core of a context (R337). -/
def State.areaOf (s : State) (cx : BitVec 6) (n : Nat) : Nat :=
  s.ctxs[cx.toNat].save + n * s.ctxs[cx.toNat].stride

/-- The frame of the core's run. -/
def State.frameOf (s : State) (r : Run) : Nat := s.areaOf r.ctx r.logcore

/-- Class code of a latch record (R339). -/
def LCls.code : LCls → Byte
  | .scalar => 0 | .pair => 1 | .vector => 2 | .token => 3

/-- Age of the queue position of a result, 0xFF when it has none (R339). -/
def Agent.ageOf (a : Agent) (l : Latch) : Byte :=
  if l.dst.discards then 0xFF
  else
    let i := if l.cls = .vector then a.vq.findIdx (·.uid == l.uid) else a.sq.findIdx (·.uid == l.uid)
    if i < 16 then BitVec.ofNat 8 i else 0xFF

/-- Remaining cycles of a latch at a stop point (R32); 0 for a token. -/
def Latch.left (l : Latch) (pt : Nat) : Nat :=
  match l.ready with
  | .at t => t - pt
  | .token => 0

/-- A latch record (R339). `seq`: the engine number of a token; a token that belongs to no engine operation has its value
there, DESIGN CHOICE, log 61. -/
def latchRecord (a : Agent) (pt : Nat) (seq : DWord) (l : Latch) : List Byte :=
  [l.cls.code, (Opnd.enc l.dst).setWidth 8, BitVec.ofNat 8 (if l.cls = .token then 0 else l.left pt), a.ageOf l]
    ++ bytesOf 4 (l.flags.toNat + if l.mark.isSome then 256 else 0)
    ++ bytesOf 8 (match l.mark with
        | some m => m.addr.toNat
        | none => if l.ready = .token then seq.toNat else l.val.toNat)
    ++ (if l.cls = .vector then bytesOf 64 l.vec.toNat else [])

/-- The engine number of the operation a token belongs to. -/
def Bank.seqOf (b : Bank) (uid : Nat) : DWord :=
  match b.eng.find? fun o => o.uid == uid || o.members.any fun m => m.2 == uid with
  | some o => o.seq.setWidth 64
  | none => 0

/-- Start of an agent's section of latch records in the frame (R339). -/
def latchSection (a : Nat) : Nat := 0x40 + 0x380 * a

/-- Clusters have still to issue the locked bundle that others have issued in this cycle (R22). -/
def State.lockOpen (s : State) (t : TrapReq) : Bool := decide (s.turn.val < 3) || (decide (s.turn.val = 3) && !t.past)

/-- The agent has issued a locked bundle in this cycle that another cluster has still to issue: its next bundle comes a cycle
after that one (R22). -/
def State.ahead (s : State) (t : TrapReq) (a : Agent) : Bool := s.lockOpen t && a.locked == some s.pt

/-- The program time from which an agent's results count at a stop: that of the stop point, or one more for an agent that
has had its turn in that cycle, whose next bundle would have been due then (R32, R33). -/
def State.stopBase (s : State) (t : TrapReq) (i : AgentId) : Nat :=
  s.pt - t.late + bit (!s.ahead t (s.agent i) && (decide (i.val < s.turn.val) || (decide (i = s.turn) && t.past)))

/-- The agents as a stop finds them: what has landed by then is committed (R32). -/
def State.stoppedAgent (s : State) (t : TrapReq) (i : AgentId) : Agent := (s.agent i).commit (s.stopBase t i)

/-- Writes the latch records of every agent (R339). -/
def State.writeLatches (s : State) (t : TrapReq) (frame : Nat) : State :=
  (List.finRange 5).foldl (fun u i =>
    let a := s.stoppedAgent t i
    u.wr (frame + latchSection i.val)
      (a.latches.flatMap fun l => latchRecord a (s.stopBase t i) (s.bank.seqOf l.uid) l)) s

/-- The frame's header (R338). -/
def frameHeader (s : State) (t : TrapReq) (flags action : Nat) (replays : Nat) : List Byte :=
  [t.shown.getD t.cause, t.sub, BitVec.ofNat 8 t.agent.val, BitVec.ofNat 8 flags,
    (match t.rule with | some r => r.setWidth 8 | none => 0xFF), BitVec.ofNat 8 action]
    ++ bytesOf 2 replays ++ bytesOf 8 t.pc.toNat ++ bytesOf 8 t.resume.toNat ++ bytesOf 8 t.addr.toNat
    ++ bytesOf 8 t.slice.toNat ++ bytesOf 8 (s.pt - t.late) ++ bytesOf 8 s.wall
    ++ (List.finRange 5).map (fun i => BitVec.ofNat 8 (s.stoppedAgent t i).latches.length)
    ++ [0, 0, 0]

/-- Writes the frame of the core's run (R325 step 3). -/
def State.writeFrame (s : State) (r : Run) (t : TrapReq) (flags action replays : Nat) : State :=
  let f := s.frameOf r
  let h := frameHeader s t flags action replays
  let tail := t.tail ++ List.replicate (64 - t.tail.length) 0
  (((s.wr f h).writeLatches t f).wr (f + 0xFC0) tail)

/-! ## The action table (R329, R331, R332) -/

/-- The action's code. -/
def Act.code : Act → Nat
  | .kill => 0 | .replay => 1 | .park => 2 | .forward => 3

/-- An entry of the action table, as it is read. -/
structure ActEnt where
  act : Act
  limit : Nat
  handler : Nat
  bad : Bool
  deriving DecidableEq, Repr

/-- Reads the entry of a cause; a malformed one is taken as KILL (R329), and 0x1A is always KILL (R332).
DEDUCED, log 38. -/
def State.actionOf (s : State) (cx : BitVec 6) (cause : Byte) : ActEnt :=
  let a := s.ctxs[cx.toNat].action + 16 * cause.toNat
  let bs := s.rd a 16
  if cause = 0x1A then ⟨.kill, 0, 0, false⟩
  else if !s.backedPa a || (s.mem.poisonAt a 16).isSome || decide (3 < fieldOf bs 0 1) || decide (fieldOf bs 1 1 ≠ 0)
      || decide (fieldOf bs 4 4 ≠ 0) then ⟨.kill, 0, 0, true⟩
  else
    ⟨match fieldOf bs 0 1 with | 0 => .kill | 1 => .replay | 2 => .park | _ => .forward,
      fieldOf bs 2 2, fieldOf bs 8 8, false⟩

/-- A trap-queue record (R334). -/
def trapRecord (t : TrapReq) (act : Act) (flags : Nat) (cx : BitVec 6) (core : Nat) (recAddr : DWord) (frame : Nat)
    (body : List Byte) : List Byte :=
  [t.cause, t.sub, BitVec.ofNat 8 (act.code + flags), cx.setWidth 8] ++ bytesOf 2 core
    ++ [BitVec.ofNat 8 t.agent.val, (match t.rule with | some r => r.setWidth 8 | none => 0xFF)]
    ++ bytesOf 8 recAddr.toNat ++ bytesOf 8 t.pc.toNat ++ bytesOf 8 frame ++ body

/-- The last 32 bytes of a record: the signalled bits of a KILL, or fault address, wall time and slice (R334). -/
def State.recordBody (s : State) (t : TrapReq) (act : Act) (signalled : BitVec 256) : List Byte :=
  if act = .kill then bytesOf 32 signalled.toNat
  else bytesOf 8 t.addr.toNat ++ bytesOf 8 s.wall ++ bytesOf 8 t.slice.toNat ++ bytesOf 8 0

/-- `sr.coreid`[15:0] of the modelled core (R107). -/
def State.coreId (s : State) : Nat := s.die * 64 + s.core

/-! ## Discarding and saving -/

/-- Discards every latch of the agents, and the queue positions and buffers that depended on them (R330). -/
def Bank.dropResults (b : Bank) : Bank :=
  { b with agents := b.agents.map fun a => { a with latches := [], marks := [] } }

/-- A started copy of the bank is a firing of the rule of this number. -/
def Bank.copies (b : Bank) (r : Nat) : Bool :=
  b.chans.toList.any fun c => c.started.any fun x => (x.rule.map fun y => y.1.toNat == r).getD false

/-- The rule of a firing that is discarded stands armed at its slice again, with its claims given back; a firing that has
completed, or whose copy has started, is not discarded. DEDUCED, log 35. -/
def Bank.unfire (b : Bank) : Bank :=
  let cs := (b.eng.filter (·.rule.isSome)).flatMap (·.claims)
  { b with
    round := []
    streams := b.streams.mapIdx fun i x =>
      match cs.find? fun c => c.st.toNat == i && c.gen == x.gen with
      | some c => { x with claimed := c.first, consumed := c.first }
      | none => x
    rules := b.rules.mapIdx fun i r =>
      if r.state = .firing ∧ r.fired.isNone ∧ !b.copies i then { r with state := .armed } else r }

/-- A channel's unstarted copies are discarded and its done mark becomes the newest identifier (R296, R330). -/
def Chan.discard (c : Chan) : Chan := { c with queue := [], faults := [], done := c.next - 1, completed := [] }

/-- What a KILL leaves of the core's bank (R330): rules and their captured streams stay, all other streams are
unconfigured, and the accumulator elements are free values of the number `tag`. DEDUCED, log 40. -/
def Bank.killed (b : Bank) (tag : Nat) : Bank :=
  let b := b.dropResults.unfire
  { b with
    eng := []
    agents := b.agents.map fun _ => Agent.init
    streams := b.streams.map fun x => if x.captured.isSome then x else Strm.init
    accs := b.accs.map fun a => { a with elems := [], fill := some tag }
    chans := b.chans.map Chan.discard }

/-- The set-mask bits a run has not yet signalled, set with their error companions (R314). -/
def State.killEvents (s : State) (r : Run) : State :=
  let m := r.snap.setMask &&& ~~~r.signalled
  s.setEvents r.ctx m m

/-- Results in flight counted from a stop point, as a save keeps them, with the extra bank cycles that the agent's bundle has
waited (R18, R32); `ahead`: its locked bundle has issued before that of another cluster (R22). -/
def Agent.relative (a : Agent) (pt : Nat) (ahead : Bool) : Agent :=
  let f := fun r : Ready => match r with | .at t => Ready.at (t - pt) | .token => .token
  { a with
    latches := a.latches.map fun l => { l with ready := f l.ready }
    sq := a.sq.map fun e => { e with ready := f e.ready }
    vq := a.vq.map fun e => { e with ready := f e.ready }
    waiting := none
    locked := if ahead then some 0 else none }

/-- The same results counted from the first bundle that can issue again (R33). -/
def Agent.absolute (a : Agent) (pt : Nat) : Agent :=
  let f := fun r : Ready => match r with | .at t => Ready.at (t + pt) | .token => .token
  { a with
    latches := a.latches.map fun l => { l with ready := f l.ready }
    sq := a.sq.map fun e => { e with ready := f e.ready }
    vq := a.vq.map fun e => { e with ready := f e.ready }
    locked := a.locked.map (· + pt) }

/-- A bank leaves the core: what has landed is committed, the rest counts from the stop point of its agent (R32). -/
def Bank.suspend (b : Bank) (base : AgentId → Nat) (ahead : Agent → Bool) : Bank :=
  { b with agents := Vector.ofFn fun i => ((b.agents[i]).commit (base i)).relative (base i) (ahead b.agents[i]) }

/-- A pending write of a core's special register takes effect; later writes stand (R108). All 32 bits of `sr.pqwin` are kept
and read back: of [31:4] the manual says nothing. DESIGN CHOICE, log 64. -/
def Bank.writeSr (b : Bank) (n : BitVec 8) (v : DWord) : Bank :=
  match n.toNat with
  | 0x11 => { b with pqwin := v.setWidth 32 }
  | 0x12 => { b with screen := v }
  | _ => b

/-- The writes of the core's special registers that bundles of this cycle have made take effect (R108). -/
def State.settleSr (s : State) : State :=
  { s.mapBank (fun b => s.srPend.foldl (fun b w => b.writeSr w.1 w.2) b) with srPend := [] }

/-- A bank returns to the core (R33). -/
def Bank.resumeAt (b : Bank) (pt : Nat) : Bank :=
  { b with agents := b.agents.map fun a =>
      { a.absolute pt with
        stopped := false
        draining := false
        loops := a.loops.map fun (l : LoopLvl) => { l with drain := false } } }

/-- Byte range of the run's footprint in the core's scratchpad (R58). -/
def State.footprint (s : State) (r : Run) : Nat × Nat :=
  let lo := padKey s.coreId r.img.fpBase
  (lo, lo + r.img.fpSize)

/-- What a stream keeps at a save: data read ahead is not saved, it is read again on resume (R345). -/
def Strm.saved (x : Strm) : Strm := { x with buf := [], filled := x.consumed }

/-- Saves the footprint with its poison, and the selected accumulators of a bank (R144, R345). DEDUCED, log 44. -/
def State.packBank (s : State) (b : Bank) : Bank :=
  match b.run with
  | none => b
  | some r =>
    let (lo, hi) := s.footprint r
    { b with
      accs := b.accs.mapFinIdx fun i a _ =>
        if r.img.accMask.getLsbD i then a
        else { a with elems := [], fill := none, live := false, poison := 0 }
      streams := b.streams.map Strm.saved
      pad := some
        (s.mem.cells.filter (fun c => decide (lo ≤ c.1) && decide (c.1 < hi)),
         (s.mem.undefs.filter fun u => decide (u.1 < hi) && decide (lo < u.2.1)).map fun u =>
          (max u.1 lo, min u.2.1 hi, u.2.2),
         s.mem.poison.filter fun g => decide (lo ≤ 64 * g) && decide (64 * g < hi)) }

/-- Restores a saved footprint with its poison; scratchpad outside it is undefined. While its copies run, an entry of the
scoreboard holds it (R58, R143, R144, R346). -/
def State.unpackPad (s : State) (b : Bank) : State :=
  match b.run, b.pad with
  | some r, some (cells, undefs, bad) =>
    let base := padKey s.coreId 0
    let (lo, hi) := s.footprint r
    let tag := s.free + 1
    let m := (s.mem.forget base (base + 2 ^ 21) tag).forget lo hi 0
    let m := undefs.foldr (fun u m => m.forget u.1 u.2.1 u.2.2) m
    let m := bad.foldl Memory.poisonGranule (cells.foldl (fun m c => m.write c.1 c.2) m)
    let n := s.oracle.restores.headD 0
    { s with
      mem := m
      free := tag
      oracle := { s.oracle with restores := s.oracle.restores.drop 1 }
      restoreAt := s.wall + n
      board := if n = 0 ∨ hi ≤ lo then s.board else ⟨lo, hi, false, 0, 0, .restore⟩ :: s.board }
  | _, _ => s

/-- A freeze of the throttle or of a partition's share strikes the core, whatever it does (R28, R402, R414). -/
def Freeze.stays (f : Freeze) : Bool := f.why == .thermal || f.why == .share

/-- The core leaves its work: the freezes that its accesses and engines have met end, and with them its walks. -/
def State.thawed (s : State) : State := { s with freezes := s.freezes.filter Freeze.stays, walk := none, walks := [] }

/-- The core has no run left: it is idle. -/
def State.goIdle (s : State) : State :=
  { s.thawed with
    bank := Bank.init
    shadow := none
    phase := .idle
    turn := 0
    srPend := []
    held := []
    reader := none
    stopPend := false
    reposted := false
    gangStop := none
    reissue := none }

/-- The areas of a killed run's gang are held until the consumer index passes its record; a lost record holds them until
PARTITION_RESUME or a reset (R337). -/
def State.holdAreas (s : State) (r : Run) (lost : Bool) : State :=
  let at' := if lost then none else some (s.rdNat s.parts[r.part.toNat].ctl 4)
  { s with heldAreas := (r.ctx, r.snap.origin, r.snap.gang, at') :: s.heldAreas }

/-- A bank goes into the core area of its context and logical core number (R222, R337). -/
def State.stow (s : State) (cx : BitVec 6) (n : Nat) (b : Bank) : State :=
  { s with areas := (cx, n, b) :: s.areas.filter fun a => !(a.1 == cx && a.2.1 == n) }

/-! ## Carrying out the actions (R330) -/

/-- KILL (R330, R314, R337): the run's results, engine operations and unstarted copies are discarded, its bits are set,
its record goes to state 6, and scratchpad and accumulators become undefined. Started copies still run to their end. -/
def State.doKill (s : State) (r : Run) (t : TrapReq) : State :=
  let tag := s.free + 1
  let base := padKey s.coreId 0
  let s := s.killEvents r
  let s := s.moveRec r.ctx r.recAddr 6 t.cause t.sub 0
  let s := { s.thawed with
    free := tag
    mem := s.mem.forget base (base + 2 ^ 21) tag
    phase := .saving .kill }
  s.mapBank fun b => b.killed tag

/-- The piece was read without poison and without a failure. -/
def Piece.clean (p : Piece) : Bool := !p.bad.contains true && p.scales.all (fun x => !x.bad && x.fault.isNone) && p.fault.isNone

/-- An operation that is taken up again reads anew what was poisoned or failed (R197, R328). DEDUCED, log 27. -/
def Strm.reread (x : Strm) : Strm := { x with buf := x.buf.filter Piece.clean }

/-- What resumes when the trap's action lets the work go on (R328): the budget is loaded again, a new watchdog interval
begins, the engine takes its operation up again, the channel its copy. -/
def State.redo (s : State) (t : TrapReq) : State :=
  match t.redo with
  | .bundle => s
  | .budget => s.mapRun fun r => { r with budget := r.snap.budget }
  | .watch => s.mapAgent t.agent fun a => { a with waiting := none }
  | .engine =>
    s.mapBank fun b => { b with
      eng := match b.eng with | o :: os => { o with err := none } :: os | [] => []
      streams := b.streams.map Strm.reread }
  | .copy ch =>
    s.mapBank fun b =>
      let c := b.chans[ch.toNat]
      match c.faults with
      | f :: fs =>
        let x := if f.step = 1 then { f.copy with pos := 0, indices := none } else f.copy
        { b with chans := b.chans.set ch.toNat { c with faults := fs, queue := x :: c.queue } }
      | [] => b

/-- After an engine fault the engine holds its whole queue (R195). -/
def Bank.holdQueue (b : Bank) (t : TrapReq) : Bank := if t.redo = .engine then { b with held := b.eng.length } else b

/-- PARK (R330): the core saves the run; its record reaches state 4 when the save is complete. -/
def State.doPark (s : State) (t : TrapReq) : State :=
  let s := (s.redo t).settleSr.mapBank fun b => (b.suspend (s.stopBase t) (s.ahead t)).holdQueue t
  { s.thawed with phase := .saving (.park t.cause t.sub) }

/-- The cycles of program time that pass between the issue of a bundle and the detection of its fault (R31, R330). -/
def State.elapse (s : State) : Nat → State
  | 0 => s
  | n + 1 =>
    let s' := s.chargeCycle.mapBank fun b => { b with agents := b.agents.map fun (a : Agent) =>
      { a with locked := if a.locked = some s.pt then some (s.pt + 1) else a.locked } }
    State.elapse { s' with pt := s.pt + 1, wall := s.wall + 1, tally := [] } n

/-- A fault that is delivered to an agent, and does not come from its bundle at issue: of the engine, of a copy, or
deferred (R114). -/
def TrapReq.delivered (t : TrapReq) : Bool :=
  t.deferred || match t.redo with
    | .engine | .copy _ => true
    | _ => false

/-- REPLAY (R330): the core is frozen for a cycle of wall time, and the work issues again; what has become readable
meanwhile lands. An operation of the engine or a copy begins again after a cycle of program time, and an agent that has
halted issues its `halt` bundle again (R114). DEDUCED, log 39. -/
def State.doReplay (s : State) (t : TrapReq) : State :=
  let s := (s.redo t).mapBank fun b => { b with agents := b.agents.mapIdx fun i a =>
    { a.commit s.pt with halted := a.halted && !(t.delivered && decide (i = t.agent.val)) } }
  { s with
    freezes := s.freezes ++ [⟨.replay, 1⟩]
    walk := none
    engAt := match t.redo with | .engine => s.wall + 2 | _ => s.engAt
    copyAt := match t.redo with | .copy _ => s.wall + 2 | _ => s.copyAt
    reissue := if t.redo = .bundle then some t.agent else none }

/-- A service slice is over: the core swaps back to the interrupted context (R112, R341, R342). -/
def State.swapBack (s : State) : State :=
  { s.settleSr.thawed with phase := .switching .back 48, held := [] }

/-- Count of consecutive REPLAYs of the run at the faulting PC (R331). -/
def Run.replaysAt (r : Run) (pc : DWord) : Nat := if r.replayPc = pc then r.replays else 0

/-- The bytes at an address of a context become free values. -/
def State.undefinedAt (s : State) (cx : BitVec 6) (va n : Nat) : State :=
  match s.locateW cx none .write va n with
  | .at key => { s with free := s.free + 1, mem := s.mem.forget key (key + n) (s.free + 1) }
  | _ => s

/-- Writes the trap record at the handler record's frame pointer and pushes the handler record (R330); an error: FORWARD cannot be
carried out, and the state that PARK goes on from. Where the record can be written and not pushed, the bytes written are free
values: the manual calls them undefined. -/
def State.forward (s : State) (p : BitVec 4) (handler : Nat) (bs : List Byte) : Except State State :=
  match s.supervisorOf p with
  | none => .error s
  | some sv =>
    if handler = 0 ∨ handler % 64 ≠ 0 then .error s
    else
      match s.locateW sv none .read handler 64 with
      | .at key =>
        if !s.served key false || (s.mem.poisonAt key 64).isSome then .error s
        else if 1 ≤ s.rdNat (key + 0x38) 1 ∧ s.rdNat (key + 0x38) 1 ≤ 4 then .error s
        else
          let fp := s.rdNat (key + 8) 8
          match s.engWrite sv none fp 64 bs with
          | .error _ => .error s
          | .ok t =>
            match t.pushBy sv handler s.die none with
            | some u => .ok u
            | none => .error (t.undefinedAt sv fp 64)
      | _ => .error s

/-- PARK or FORWARD of the run: a service slice is parked and swaps back (R342), any other run is saved (R330). -/
def State.parkRun (s : State) (r : Run) (t : TrapReq) : State :=
  if s.serving then
    (((s.redo t).settleSr.mapBank fun b => b.suspend (s.stopBase t) (s.ahead t)).moveRec r.ctx r.recAddr 4 t.cause t.sub
      0).swapBack
  else s.doPark t

/-- After PARK and FORWARD a run keeps the budget it had left (R312). -/
def TrapReq.parked (t : TrapReq) : TrapReq := if t.redo = .budget then { t with redo := .bundle } else t

/-- KILL with its fatal record (R330, R335, R336). -/
def State.trapKill (s : State) (r : Run) (t : TrapReq) (base bad n : Nat) : State :=
  let s := s.writeFrame r t base 0 n
  let rec' := trapRecord t .kill (4 + bad) r.ctx s.coreId r.recAddr (s.frameOf r) (s.recordBody t .kill r.signalled)
  let lost := decide (s.queueFree r.part < 1)
  let s := (s.fatalRecord r.part rec').holdAreas r lost
  let s := if t.cause = 0x1A then s.raiseVector r.part 2 else s
  let s := if s.parts[r.part.toNat].stopped then { s with stopPend := true } else s
  if s.serving then
    let tag := s.free + 1
    (({ s with free := tag }.mapBank fun b => b.killed tag).killEvents r).moveRec r.ctx r.recAddr 6 t.cause t.sub 0
    |>.swapBack
  else s.doKill r t

/-- REPLAY; while its record is withheld it is carried out as PARK (R335). -/
def State.trapReplay (s : State) (r : Run) (t : TrapReq) (base bad n : Nat) : State :=
  let s := s.writeFrame r t base 1 (n + 1)
  let rec' := trapRecord t .replay bad r.ctx s.coreId r.recAddr (s.frameOf r) (s.recordBody t .replay r.signalled)
  let s := s.mapRun fun x => { x with replays := n + 1 }
  match s.plainRecord r.part rec' (some (r.ctx, r.recAddr)) none with
  | (s, true) => s.doReplay t
  | (s, false) => s.parkRun r t

/-- PARK (R330). `extra`: flags of the record that say why it is carried out. -/
def State.trapPark (s : State) (r : Run) (t : TrapReq) (base extra n : Nat) : State :=
  let s := s.writeFrame r t base 2 n
  let rec' := trapRecord t .park extra r.ctx s.coreId r.recAddr (s.frameOf r) (s.recordBody t .park r.signalled)
  (s.plainRecord r.part rec' none none).1.parkRun r t.parked

/-- FORWARD; where it cannot be carried out, PARK with flag bit 5 (R330). -/
def State.trapForward (s : State) (r : Run) (t : TrapReq) (e : ActEnt) (base bad n : Nat) : State :=
  let rec' := trapRecord t .forward bad r.ctx s.coreId r.recAddr (s.frameOf r) (s.recordBody t .forward r.signalled)
  match s.forward r.part e.handler rec' with
  | .ok s' => (s'.writeFrame r t base 3 n).parkRun r t.parked
  | .error s' => s'.trapPark r t base (bad + 32) n

/-- Takes a trap (R325): reads the action, writes the frame and the record, and carries out the action. The machine
goes on from the state it leaves; a request that waits is re-posted (R32). -/
def State.takeTrap (s : State) (t : TrapReq) : State :=
  match s.bank.run with
  | none => s
  | some r =>
    let s := s.quiesce.elapse t.late
    let e := s.actionOf r.ctx t.cause
    let n := r.replaysAt t.pc
    let limit := decide (e.act = .replay) && decide (e.limit ≠ 0) && decide (e.limit < n + 1)
    let bad := if e.bad then 16 else 0
    let base := bit t.engine + 2 * bit t.deferred + bad + (if limit then 32 else 0)
    let r := { r with replays := n }
    let s := s.mapRun fun x => { x with replays := n, replayPc := t.pc }
    let s := s.mapRec r.ctx r.recAddr fun x => { x with last := (t.cause, t.sub) }
    let s := s.mapBank fun b => { b with rules := b.rules.map fun x => { x with replays := 0 } }
    let s := { s with
      reposted := s.reposted || s.stopPend
      svcPend := s.svcPend.map fun (q : BitVec 4 × Byte × Bool) => (q.1, q.2.1, true)
      reissue := none }
    match e.act with
    | .kill => s.trapKill r t base bad n
    | .replay =>
      if limit then s.trapPark r t base (bad + 8) n
      else s.trapReplay r t base bad n
    | .park => s.trapPark r t base bad n
    | .forward => s.trapForward r t e base bad n

/-! ## Outcomes -/

/-- How an instruction's result becomes the step's: it goes on, it waits at issue, its core freezes, or it traps. An access
that a copy's entry has frozen sees what the copy writes (R143, R175). -/
def State.finish (s : State) (r : Except Stop State) : Host.Outcome State Fault Refusal :=
  match r with
  | .ok s' => .next s'
  | .error (.wait w) => .next { s with verdict := .stall w }
  | .error (.freeze f w) =>
    .next { s with
      verdict := .stall .frozen
      freezes := s.freezes ++ [f]
      walk := w
      held := if f.why = .board then s.held.filter fun h => h.agent != s.turn else s.held }
  | .error (.trap t) => .next { s.takeTrap t with verdict := .trapped t.early }

/-- The same for an instruction that waits for the agent's writes on some paths: while a copy holds one back it waits, and a
deferred error of one is raised at it (R147, R160, R167). -/
def State.finishWaiting (s : State) (p : Path → Bool) (r : Except Stop State) : Host.Outcome State Fault Refusal :=
  match r with
  | .ok s' =>
    if s.heldBack fun e => p e.path then s.finish (.error (.wait .copy))
    else
      match (s.failPending p).deferredStop p with
      | some (s₀, t) => .next { s₀.takeTrap t with verdict := .trapped false }
      | none => .next s'
  | r => s.finish r

/-- The same for one that waits for all the agent has written (R147). -/
def State.finishOrdered (s : State) (r : Except Stop State) : Host.Outcome State Fault Refusal :=
  s.finishWaiting (fun _ => true) r

end Sys2Proof.Machine
end

