-- ==== Sys2Proof/Machine/Scalar.lean ====
section
/-! DEFINITION. The scalar and pair instructions (SALU, SALUI, SPAIR, SPAIRI: R90 to R96). -/

namespace Sys2Proof.Machine

/-! ## What the operations compute -/

/-- Two's-complement less-than. -/
def sltW (a b : Word) : Word := if a.toInt < b.toInt then 1 else 0
/-- Natural less-than. -/
def sltnW (a b : Word) : Word := if a.toNat < b.toNat then 1 else 0
/-- The high word of a signed product (R91). -/
def mulhW (a b : Word) : Word := (BitVec.ofInt 64 (a.toInt * b.toInt)).extractLsb' 32 32
/-- The high word of a natural product (R91). -/
def mulhnW (a b : Word) : Word := (BitVec.ofNat 64 (a.toNat * b.toNat)).extractLsb' 32 32
/-- Signed quotient, truncated toward zero (R92). -/
def divW (a b : Word) : Word := if b = 0 then BitVec.allOnes 32 else BitVec.ofInt 32 (a.toInt.tdiv b.toInt)
/-- Natural quotient (R92). -/
def divnW (a b : Word) : Word := if b = 0 then BitVec.allOnes 32 else BitVec.ofNat 32 (a.toNat / b.toNat)
/-- Signed remainder, with the sign of the dividend (R92). -/
def remW (a b : Word) : Word := if b = 0 then a else BitVec.ofInt 32 (a.toInt.tmod b.toInt)
/-- Natural remainder (R92). -/
def remnW (a b : Word) : Word := if b = 0 then a else BitVec.ofNat 32 (a.toNat % b.toNat)
/-- A shift amount takes bits 4 to 0 (R91). -/
def shiftAmt (b : Word) : Nat := b.toNat % 32
/-- Shift left. -/
def shlW (a b : Word) : Word := a <<< shiftAmt b
/-- Shift right, filling with zeros. -/
def shrW (a b : Word) : Word := a >>> shiftAmt b
/-- Shift right, filling with the sign. -/
def sraW (a b : Word) : Word := a.sshiftRight (shiftAmt b)
/-- Signed minimum. -/
def minW (a b : Word) : Word := if b.toInt < a.toInt then b else a
/-- Signed maximum. -/
def maxW (a b : Word) : Word := if a.toInt < b.toInt then b else a
/-- Natural minimum. -/
def minnW (a b : Word) : Word := if b.toNat < a.toNat then b else a
/-- Natural maximum. -/
def maxnW (a b : Word) : Word := if a.toNat < b.toNat then b else a
/-- Count of leading zero bits: 32 when the word is 0. -/
def clzW (a : Word) : Word := if a = 0 then 32 else BitVec.ofNat 32 (31 - a.toNat.log2)
/-- Lowest set bit below `n` counted from `i`. -/
def ctzGo (a : Word) : Nat → Nat → Nat
  | 0, i => i
  | n + 1, i => if a.getLsbD i then i else ctzGo a n (i + 1)
/-- Count of trailing zero bits: 32 when the word is 0. -/
def ctzW (a : Word) : Word := BitVec.ofNat 32 (ctzGo a 32 0)
/-- Count of set bits among the low `n`. -/
def popGo (a : Word) : Nat → Nat
  | 0 => 0
  | n + 1 => bit (a.getLsbD n) + popGo a n
/-- Count of set bits. -/
def popcW (a : Word) : Word := BitVec.ofNat 32 (popGo a 32)
/-- 1 if equal. -/
def seqW (a b : Word) : Word := if a = b then 1 else 0
/-- 1 if different. -/
def sneW (a b : Word) : Word := if a = b then 0 else 1
/-- `sel`: the first value when the condition is nonzero. -/
def selW (a b x : Word) : Word := if x = 0 then b else a
/-- Start and effective width of a bit-field control value (R93). -/
def fieldOfCtl (c : Word) : Nat × Nat :=
  (c.toNat % 32, min (min (c.toNat / 256 % 64) 32) (32 - c.toNat % 32))
/-- `bfx` (R93). -/
def bfxW (a c : Word) (sx : Bool) : Word :=
  let f := fieldOfCtl c
  let x := a.toNat / 2 ^ f.1 % 2 ^ f.2
  if f.2 = 0 then 0
  else if sx && x.testBit (f.2 - 1) then BitVec.ofInt 32 ((x : Int) - 2 ^ f.2) else BitVec.ofNat 32 x
/-- `bfi` (R93). -/
def bfiW (a b c : Word) : Word :=
  let f := fieldOfCtl c
  let m : Word := BitVec.ofNat 32 ((2 ^ f.2 - 1) * 2 ^ f.1)
  (a &&& ~~~m) ||| ((b <<< f.1) &&& m)
/-- `SignExtend64` (R96). -/
def sext64 (w : Word) : DWord := w.signExtend 64

/-! ## Shared shapes -/

/-- A scalar operation of one operand. -/
def State.alu1 (s : State) (sc : Sched) (d a : Opnd) (nominal : Nat) (f : Word → Word) :
    Host.Outcome State Fault Refusal :=
  s.finish do
    let x ← s.rd32 a
    pure (s.put sc d nominal (f x))

/-- A scalar operation of two operands, with its flags. -/
def State.alu2F (s : State) (sc : Sched) (d a b : Opnd) (nominal : Nat) (f : Word → Word → Word)
    (g : Word → Word → BitVec 7) : Host.Outcome State Fault Refusal :=
  s.finish do
    let x ← s.rd32 a
    let y ← s.rd32 b
    pure (s.putF sc d nominal (f x y) (g x y))

/-- A scalar operation of two operands that sets no flag (R67, R91). -/
def State.alu2 (s : State) (sc : Sched) (d a b : Opnd) (nominal : Nat) (f : Word → Word → Word) :
    Host.Outcome State Fault Refusal :=
  s.alu2F sc d a b nominal f fun _ _ => 0

/-- A scalar operation of three operands. -/
def State.alu3 (s : State) (sc : Sched) (d a b x : Opnd) (nominal : Nat) (f : Word → Word → Word → Word) :
    Host.Outcome State Fault Refusal :=
  s.finish do
    let u ← s.rd32 a
    let v ← s.rd32 b
    let w ← s.rd32 x
    pure (s.put sc d nominal (f u v w))

/-- A pair operation of two pairs. -/
def State.pair2 (s : State) (sc : Sched) (d a b : Opnd) (nominal : Nat) (f : DWord → DWord → DWord) :
    Host.Outcome State Fault Refusal :=
  s.finish do
    let x ← s.rd64 a
    let y ← s.rd64 b
    pure (s.put64 sc d nominal (f x y))

/-- A pair operation of one pair. -/
def State.pair1 (s : State) (sc : Sched) (d a : Opnd) (nominal : Nat) (f : DWord → DWord) :
    Host.Outcome State Fault Refusal :=
  s.finish do
    let x ← s.rd64 a
    pure (s.put64 sc d nominal (f x))

/-! ## SALU (R91 to R93) -/

/-- `add` (R91). -/
def execAdd (sc : Sched) (d a b : Opnd) (s : State) : Host.Outcome State Fault Refusal :=
  s.alu2 sc d a b 2 (· + ·)

/-- `sub` (R91). -/
def execSub (sc : Sched) (d a b : Opnd) (s : State) : Host.Outcome State Fault Refusal :=
  s.alu2 sc d a b 2 (· - ·)

/-- `mul` (R91). -/
def execMul (sc : Sched) (d a b : Opnd) (s : State) : Host.Outcome State Fault Refusal :=
  s.alu2 sc d a b 4 (· * ·)

/-- `mulh`, and `mulh.n32` (R91). -/
def execMulh (sc : Sched) (d a b : Opnd) (nat : Bool) (s : State) : Host.Outcome State Fault Refusal :=
  s.alu2 sc d a b 4 (if nat then mulhnW else mulhW)

/-- `div`: DZ when the divisor is zero (R92). -/
def execDiv (sc : Sched) (d a b : Opnd) (s : State) : Host.Outcome State Fault Refusal :=
  s.alu2F sc d a b 14 divW fun _ y => divFlags y

/-- `divn`: DZ when the divisor is zero (R92). -/
def execDivn (sc : Sched) (d a b : Opnd) (s : State) : Host.Outcome State Fault Refusal :=
  s.alu2F sc d a b 14 divnW fun _ y => divFlags y

/-- `rem`: DZ when the divisor is zero (R92). -/
def execRem (sc : Sched) (d a b : Opnd) (s : State) : Host.Outcome State Fault Refusal :=
  s.alu2F sc d a b 14 remW fun _ y => divFlags y

/-- `remn`: DZ when the divisor is zero (R92). -/
def execRemn (sc : Sched) (d a b : Opnd) (s : State) : Host.Outcome State Fault Refusal :=
  s.alu2F sc d a b 14 remnW fun _ y => divFlags y

/-- `and` (R91). -/
def execAnd (sc : Sched) (d a b : Opnd) (s : State) : Host.Outcome State Fault Refusal :=
  s.alu2 sc d a b 2 (· &&& ·)

/-- `or` (R91). -/
def execOr (sc : Sched) (d a b : Opnd) (s : State) : Host.Outcome State Fault Refusal :=
  s.alu2 sc d a b 2 (· ||| ·)

/-- `xor` (R91). -/
def execXor (sc : Sched) (d a b : Opnd) (s : State) : Host.Outcome State Fault Refusal :=
  s.alu2 sc d a b 2 (· ^^^ ·)

/-- `shl` (R91). -/
def execShl (sc : Sched) (d a b : Opnd) (s : State) : Host.Outcome State Fault Refusal :=
  s.alu2 sc d a b 2 shlW

/-- `shr` (R91). -/
def execShr (sc : Sched) (d a b : Opnd) (s : State) : Host.Outcome State Fault Refusal :=
  s.alu2 sc d a b 2 shrW

/-- `sra` (R91). -/
def execSra (sc : Sched) (d a b : Opnd) (s : State) : Host.Outcome State Fault Refusal :=
  s.alu2 sc d a b 2 sraW

/-- `min` (R91). -/
def execMin (sc : Sched) (d a b : Opnd) (s : State) : Host.Outcome State Fault Refusal :=
  s.alu2 sc d a b 2 minW

/-- `max` (R91). -/
def execMax (sc : Sched) (d a b : Opnd) (s : State) : Host.Outcome State Fault Refusal :=
  s.alu2 sc d a b 2 maxW

/-- `minn` (R91). -/
def execMinn (sc : Sched) (d a b : Opnd) (s : State) : Host.Outcome State Fault Refusal :=
  s.alu2 sc d a b 2 minnW

/-- `maxn` (R91). -/
def execMaxn (sc : Sched) (d a b : Opnd) (s : State) : Host.Outcome State Fault Refusal :=
  s.alu2 sc d a b 2 maxnW

/-- `clz` (R91). -/
def execClz (sc : Sched) (d a : Opnd) (s : State) : Host.Outcome State Fault Refusal :=
  s.alu1 sc d a 2 clzW

/-- `ctz` (R91). -/
def execCtz (sc : Sched) (d a : Opnd) (s : State) : Host.Outcome State Fault Refusal :=
  s.alu1 sc d a 2 ctzW

/-- `popc` (R91). -/
def execPopc (sc : Sched) (d a : Opnd) (s : State) : Host.Outcome State Fault Refusal :=
  s.alu1 sc d a 2 popcW

/-- `seq` (R91). -/
def execSeq (sc : Sched) (d a b : Opnd) (s : State) : Host.Outcome State Fault Refusal :=
  s.alu2 sc d a b 2 seqW

/-- `sne` (R91). -/
def execSne (sc : Sched) (d a b : Opnd) (s : State) : Host.Outcome State Fault Refusal :=
  s.alu2 sc d a b 2 sneW

/-- `slt` (R91). -/
def execSlt (sc : Sched) (d a b : Opnd) (s : State) : Host.Outcome State Fault Refusal :=
  s.alu2 sc d a b 2 sltW

/-- `sltn` (R91). -/
def execSltn (sc : Sched) (d a b : Opnd) (s : State) : Host.Outcome State Fault Refusal :=
  s.alu2 sc d a b 2 sltnW

/-- `sel` (R91). -/
def execSel (sc : Sched) (d a b x : Opnd) (s : State) : Host.Outcome State Fault Refusal :=
  s.alu3 sc d a b x 2 selW

/-- `bfx` and `bfx.s` (R93). -/
def execBfx (sc : Sched) (d a b : Opnd) (sx : Bool) (s : State) : Host.Outcome State Fault Refusal :=
  s.alu2 sc d a b 2 fun x c => bfxW x c sx

/-- `bfi` (R93). -/
def execBfi (sc : Sched) (d a b x : Opnd) (s : State) : Host.Outcome State Fault Refusal :=
  s.alu3 sc d a b x 2 bfiW

/-! ## SALUI (R94) -/

/-- `addi` (R94). -/
def execAddi (sc : Sched) (d a : Opnd) (imm : Word) (s : State) : Host.Outcome State Fault Refusal :=
  s.alu1 sc d a 2 (· + imm)

/-- `andi` (R94). -/
def execAndi (sc : Sched) (d a : Opnd) (imm : Word) (s : State) : Host.Outcome State Fault Refusal :=
  s.alu1 sc d a 2 (· &&& imm)

/-- `ori` (R94). -/
def execOri (sc : Sched) (d a : Opnd) (imm : Word) (s : State) : Host.Outcome State Fault Refusal :=
  s.alu1 sc d a 2 (· ||| imm)

/-- `xori` (R94). -/
def execXori (sc : Sched) (d a : Opnd) (imm : Word) (s : State) : Host.Outcome State Fault Refusal :=
  s.alu1 sc d a 2 (· ^^^ imm)

/-- `shli` (R94). -/
def execShli (sc : Sched) (d a : Opnd) (n : BitVec 5) (s : State) : Host.Outcome State Fault Refusal :=
  s.alu1 sc d a 2 fun x => shlW x (n.setWidth 32)

/-- `shri` (R94). -/
def execShri (sc : Sched) (d a : Opnd) (n : BitVec 5) (s : State) : Host.Outcome State Fault Refusal :=
  s.alu1 sc d a 2 fun x => shrW x (n.setWidth 32)

/-- `srai` (R94). -/
def execSrai (sc : Sched) (d a : Opnd) (n : BitVec 5) (s : State) : Host.Outcome State Fault Refusal :=
  s.alu1 sc d a 2 fun x => sraW x (n.setWidth 32)

/-- `movi` (R94). -/
def execMovi (sc : Sched) (d : Opnd) (imm : Word) (s : State) : Host.Outcome State Fault Refusal :=
  s.finish (.ok (s.put sc d 2 imm))

/-- `slti` (R94). -/
def execSlti (sc : Sched) (d a : Opnd) (imm : Word) (s : State) : Host.Outcome State Fault Refusal :=
  s.alu1 sc d a 2 fun x => sltW x imm

/-- `sltni` (R94). -/
def execSltni (sc : Sched) (d a : Opnd) (imm : Word) (s : State) : Host.Outcome State Fault Refusal :=
  s.alu1 sc d a 2 fun x => sltnW x imm

/-- `muli` (R94). -/
def execMuli (sc : Sched) (d a : Opnd) (imm : Word) (s : State) : Host.Outcome State Fault Refusal :=
  s.alu1 sc d a 4 (· * imm)

/-! ## SPAIR, SPAIRI (R95, R96) -/

/-- `add64` (R95). -/
def execAdd64 (sc : Sched) (d a b : Opnd) (s : State) : Host.Outcome State Fault Refusal :=
  s.pair2 sc d a b 3 (· + ·)

/-- `sub64` (R95). -/
def execSub64 (sc : Sched) (d a b : Opnd) (s : State) : Host.Outcome State Fault Refusal :=
  s.pair2 sc d a b 3 (· - ·)

/-- `mov64` (R95). -/
def execMov64 (sc : Sched) (d a : Opnd) (s : State) : Host.Outcome State Fault Refusal :=
  s.pair1 sc d a 2 id

/-- `shl64`: the amount is B[5:0] of a 32-bit scalar (R95). -/
def execShl64 (sc : Sched) (d a b : Opnd) (s : State) : Host.Outcome State Fault Refusal :=
  s.finish do
    let x ← s.rd64 a
    let n ← s.rd32 b
    pure (s.put64 sc d 3 (x <<< (n.toNat % 64)))

/-- `slt64n`: a 32-bit result (R95). -/
def execSlt64n (sc : Sched) (d a b : Opnd) (s : State) : Host.Outcome State Fault Refusal :=
  s.finish do
    let x ← s.rd64 a
    let y ← s.rd64 b
    pure (s.put sc d 3 (if x.toNat < y.toNat then 1 else 0))

/-- `addi64` (R96). -/
def execAddi64 (sc : Sched) (d a : Opnd) (imm : Word) (s : State) : Host.Outcome State Fault Refusal :=
  s.pair1 sc d a 2 (· + sext64 imm)

/-- `movi64` (R96). -/
def execMovi64 (sc : Sched) (d : Opnd) (imm : Word) (s : State) : Host.Outcome State Fault Refusal :=
  s.finish (.ok (s.put64 sc d 2 (sext64 imm)))

/-- `sethi`: IMM32 x 2^32 + A[31:0] (R96). -/
def execSethi (sc : Sched) (d a : Opnd) (imm : Word) (s : State) : Host.Outcome State Fault Refusal :=
  s.finish do
    let x ← s.rd32 a
    pure (s.put64 sc d 2 (imm ++ x))

end Sys2Proof.Machine
end

