-- ==== Sys2Proof/Machine/Control.lean ====
section
/-! DEFINITION. Control and system instructions: BR, LOOP, SPR and SYS (R97 to R114). -/

namespace Sys2Proof.Machine

/-! ## Branches (R97 to R99) -/

/-- Sets what the bundle does with control. -/
def State.setCtl (s : State) (c : Ctl) : State := s.mapBun fun b => { b with ctl := c }

/-- PC + 8·DISP32, counted from the branch's own word (R43, R97). -/
def State.relTarget (s : State) (disp : Word) : DWord := s.cur.bun.ipc + sext64 disp * 8

/-- A target taken from a register has bits 2 to 0 forced to zero (R36, R97). -/
def alignPc (t : DWord) : DWord := t &&& ~~~(7 : DWord)

/-- A taken branch when the condition holds. -/
def State.branchIf (s : State) (c : Bool) (t : DWord) : State := if c then s.setCtl (.jump t) else s

/-- `br` (R98). -/
def execBr (_h : BitVec 2) (disp : Word) (s : State) : Host.Outcome State Fault Refusal :=
  s.finish (.ok (s.setCtl (.jump (s.relTarget disp))))

/-- `bz` (R98). -/
def execBz (p : Opnd) (_h : BitVec 2) (disp : Word) (s : State) : Host.Outcome State Fault Refusal :=
  s.finish do
    let x ← s.rd32 p
    pure (s.branchIf (x == 0) (s.relTarget disp))

/-- `bnz` (R98). -/
def execBnz (p : Opnd) (_h : BitVec 2) (disp : Word) (s : State) : Host.Outcome State Fault Refusal :=
  s.finish do
    let x ← s.rd32 p
    pure (s.branchIf (x != 0) (s.relTarget disp))

/-- `call`: the link is the bundle's next address (R97, R98). -/
def execCall (sc : Sched) (p : Opnd) (_h : BitVec 2) (disp : Word) (s : State) : Host.Outcome State Fault Refusal :=
  s.finish (.ok ((s.put64 sc p 1 s.cur.bun.npc).setCtl (.jump (s.relTarget disp))))

/-- `ret` (R98). -/
def execRet (p : Opnd) (_h : BitVec 2) (s : State) : Host.Outcome State Fault Refusal :=
  s.finish do
    let x ← s.rd64 p
    pure (s.setCtl (.jump (alignPc x)))

/-- `jmp` (R98). -/
def execJmp (p : Opnd) (_h : BitVec 2) (disp : Word) (s : State) : Host.Outcome State Fault Refusal :=
  s.finish do
    let x ← s.rd64 p
    pure (s.setCtl (.jump (alignPc x + sext64 disp * 8)))

/-- `brq`: waits for an entry, takes it, and branches if its bit is 1 (R98, R99). -/
def execBrq (_h : BitVec 2) (disp : Word) (s : State) : Host.Outcome State Fault Refusal :=
  s.finish
    (match s.cur.bq with
    | [] => .error (.wait .bq)
    | b :: _ => .ok ((s.mapBun fun x => { x with bqPop := true }).branchIf b (s.relTarget disp)))

/-! ## Loops (R100 to R105) -/

/-- The image's level of a number. -/
def State.tableLevel (s : State) (n : BitVec 4) : Option TblLvl :=
  match s.bank.run with
  | some r => r.img.levels[n.toNat]?
  | none => none

/-- The count of a `loop`: P, or the table level's extent when P is written `zero` and the level is bound (R100). -/
def State.loopCount (s : State) (p : Opnd) (lv : Option (BitVec 4)) (x : Word) : Nat :=
  if p = .sp 0 then
    match lv.bind s.tableLevel with
    | some l => l.extent
    | none => 0
  else x.toNat

/-- The starting index: the saved count of the bound level, or 0 (R100, R104). -/
def Agent.loopStart (a : Agent) (lv : Option (BitVec 4)) : Nat :=
  match lv with
  | some n => (a.saved.lookup n).getD 0
  | none => 0

/-- A `loop` consumes the saved count of its level (R100). -/
def Agent.takeSaved (a : Agent) (lv : Option (BitVec 4)) : Agent :=
  match lv with
  | some n => { a with saved := a.saved.filter (·.1 != n) }
  | none => a

/-- `loop` (R100). DEDUCED, log 17. -/
def execLoop (p : Opnd) (lv : Option (BitVec 4)) (_h : BitVec 2) (disp : Word) (s : State) :
    Host.Outcome State Fault Refusal :=
  s.finish do
    let x ← s.rd32 p
    let n := s.loopCount p lv x
    let start := s.cur.loopStart lv
    if n ≤ start then pure ((s.mapCur fun a => a.takeSaved lv).setCtl (.jump (s.relTarget disp)))
    else if 4 ≤ s.cur.loops.length then s.trapNow 0x14 0x01 0
    else if lv.isSome && s.cur.loops.any fun l => l.bind == lv then s.trapNow 0x14 0x03 0
    else
      pure ((s.mapCur fun a => a.takeSaved lv).setCtl
        (.open ⟨s.cur.bun.npc, s.relTarget disp, start, n, lv, false⟩))

/-- `lbrk` (R102). -/
def execLbrk (p : Opnd) (_h : BitVec 2) (disp : Word) (s : State) : Host.Outcome State Fault Refusal :=
  s.finish do
    let x ← s.rd32 p
    if s.cur.loops.isEmpty then s.trapNow 0x14 0x02 0
    else pure (if x = 0 then s else s.setCtl (.lbrk (s.relTarget disp)))

/-- `ldrain`: stops the agent when a drain is pending (R105). -/
def execLdrain (_h : BitVec 2) (disp : Word) (s : State) : Host.Outcome State Fault Refusal :=
  s.finish (.ok (if s.cur.drainPend then s.setCtl (.drained (s.relTarget disp)) else s))

/-- Product of the extents of the levels of one axis (R60). -/
def axisExtent (lv : List TblLvl) (kind axis : Nat) : Nat :=
  (lv.filter fun l => l.kind == kind && l.axis == axis).foldl (fun p l => p * l.extent) 1

/-- The coordinate of member `n` on an axis (R61). -/
def coordOf (lv : List TblLvl) (n kind axis : Nat) : Nat :=
  let wx := axisExtent lv 1 0
  let wy := axisExtent lv 1 1
  let dx := axisExtent lv 2 0
  match kind, axis with
  | 1, 0 => n % wx
  | 1, _ => n / wx % wy
  | _, 0 => n / wx / wy % dx
  | _, _ => n / wx / wy / dx

/-- The digit of a spatial level: mixed radix over the levels of its axis, outermost most significant (R61). -/
def levelDigit (lv : List TblLvl) (n : Nat) (i : Nat) (l : TblLvl) : Nat :=
  coordOf lv n l.kind l.axis / axisExtent (lv.drop (i + 1)) l.kind l.axis % l.extent

/-- The index of a table level (R103). -/
def State.levelIndex (s : State) (n : BitVec 4) : Word :=
  match s.bank.run, s.tableLevel n with
  | some r, some l =>
    if l.kind = 0 then
      match s.cur.loops.find? fun x => x.bind == some n with
      | some x => BitVec.ofNat 32 x.index
      | none => 0xFFFFFFFF
    else BitVec.ofNat 32 (levelDigit r.img.levels (r.logcore - r.snap.origin) n.toNat l)
  | _, _ => 0xFFFFFFFF

/-- `lidx` (R103). -/
def execLidx (sc : Sched) (p : Opnd) (lv : BitVec 4) (_h : BitVec 2) (s : State) : Host.Outcome State Fault Refusal :=
  s.finish (.ok (s.put sc p 1 (s.levelIndex lv)))

/-! ## Special registers (R106 to R108) -/

/-- A value of the slice that runs on the core; 0 when none runs. -/
def State.ofRun (s : State) (f : Run → Nat) : Nat :=
  match s.bank.run with
  | some r => f r
  | none => 0

/-- `sr.frame`: the frame of the core's run, and in a service slice that of the interrupted context (R107, R337). -/
def State.srFrame (s : State) : Nat :=
  match s.bank.run with
  | none => 0
  | some r =>
    if r.service && r.interrupts then
      match s.shadow.bind (·.run) with
      | some q => s.frameOf q
      | none => s.frameOf r
    else s.frameOf r

/-- `sr.slack`: deadline - wall time - remaining budget, modulo 2^64 (R107, R312). -/
def State.srSlack (s : State) : DWord :=
  match s.bank.run with
  | some r => r.snap.deadline - BitVec.ofNat 64 s.wall - BitVec.ofNat 64 r.budget
  | none => 0

/-- `sr.recstat` (R275). -/
def State.srRecstat (s : State) : Nat :=
  bit s.bank.recm.on + 2 * bit s.bank.recm.overflow + s.bank.recm.count % 2 ^ 24 * 256

/-- The value of a special register at the cycle of issue (R107). -/
def State.readSr (s : State) (n : BitVec 8) : DWord :=
  match n.toNat with
  | 0x00 => s.cur.aflags.setWidth 64
  | 0x01 => s.cur.atrap.setWidth 64
  | 0x02 => BitVec.ofNat 64 s.pt
  | 0x03 => BitVec.ofNat 64 s.wall
  | 0x04 => BitVec.ofNat 64 (s.ofRun fun r => r.snap.deadline.toNat)
  | 0x05 => s.srSlack
  | 0x06 => BitVec.ofNat 64 (s.ofRun (·.budget))
  | 0x07 => BitVec.ofNat 64 (s.ofRun fun r => r.ctx.toNat)
  | 0x08 => BitVec.ofNat 64 (s.ofRun fun r => r.part.toNat)
  | 0x09 => BitVec.ofNat 64 (s.coreId + s.link.pkg.toNat * 2 ^ 16)
  | 0x0A => BitVec.ofNat 64 (s.ofRun (·.logcore))
  | 0x0B => BitVec.ofNat 64 (s.ofRun fun r => r.snap.gang)
  | 0x0C => BitVec.ofNat 64 (s.ofRun fun r => r.cause.toNat)
  | 0x0D => BitVec.ofNat 64 s.srFrame
  | 0x0E => BitVec.ofNat 64 (s.wall % 32768)
  | 0x0F => s.cur.rope.setWidth 64
  | 0x10 => s.cur.rngkey.setWidth 64
  | 0x11 => s.bank.pqwin.setWidth 64
  | 0x12 => s.bank.screen
  | 0x13 => BitVec.ofNat 64 s.srRecstat
  | 0x14 => s.bank.chans[0].done.setWidth 64
  | 0x15 => s.bank.chans[1].done.setWidth 64
  | 0x16 => s.bank.chans[2].done.setWidth 64
  | 0x17 => s.bank.chans[3].done.setWidth 64
  | _ => 0

/-- `rdsr` (R106). -/
def execRdsr (sc : Sched) (d : Opnd) (n : BitVec 8) (s : State) : Host.Outcome State Fault Refusal :=
  s.finish (.ok
    (if srWide n then s.put64 sc d 2 (s.readSr n) else s.put sc d 2 ((s.readSr n).setWidth 32)))

/-- The registers that may be written (R107). -/
def srWritable (n : BitVec 8) : Bool := [0x00, 0x01, 0x0F, 0x10, 0x11, 0x12].contains n.toNat

/-- `wrsr`: a read-only register raises cause 0x07 (R106). -/
def execWrsr (a : Opnd) (n : BitVec 8) (s : State) : Host.Outcome State Fault Refusal :=
  s.finish do
    let x ← s.rdSz (srWide n) a
    if srWritable n then pure (s.mapBun fun b => { b with srw := some (n, x) })
    else s.trapNow 0x07 0 0

/-- `clrf` (R106). -/
def execClrf (m : BitVec 7) (s : State) : Host.Outcome State Fault Refusal :=
  s.finish (.ok (s.mapBun fun b => { b with clr := m }))

/-! ## System instructions (R110 to R114) -/

/-- `nop`: nothing (R37, R111). -/
def execNop (s : State) : Host.Outcome State Fault Refusal := s.finish (.ok s)

/-- `brk n`: cause 0x16 at its bundle, which does not issue (R111). -/
def execBrk (n : BitVec 6) (s : State) : Host.Outcome State Fault Refusal :=
  s.finish (s.trapNow 0x16 (n.setWidth 8) 0)

/-- `trap n`: its bundle issues, then cause 0x15 is raised (R111). -/
def execTrap (n : BitVec 6) (s : State) : Host.Outcome State Fault Refusal :=
  s.finish (.ok (s.setCtl (.trapAfter n)))

/-- `tfence`: waits for every older result, then raises the enabled flags that stand (R110, R194). -/
def execTfence (s : State) : Host.Outcome State Fault Refusal :=
  s.finish
    (if !s.cur.latches.isEmpty then .error (.wait .latch)
    else if s.cur.fence = 0 then .ok s
    else s.trapNow 0x0B (s.cur.fence.setWidth 8) 0)

/-- `sret`: ends the service slice; outside one it raises cause 0x07 (R112, R408). -/
def execSret (s : State) : Host.Outcome State Fault Refusal :=
  s.finish
    (match s.bank.run with
    | some r => if r.service then .ok (s.setCtl .swapBack) else s.trapNow 0x07 0 0
    | none => s.trapNow 0x07 0 0)

/-- The translations that an invalidation names (R113, R399). -/
def State.named (s : State) (p : BitVec 4) (scope : Nat) (cx : BitVec 6) (va : Nat) (e : TlbEnt) : Bool :=
  match scope with
  | 0 => e.ctx == cx && decide (e.va ≤ va) && decide (va < e.va + e.size)
  | 1 => e.ctx == cx
  | _ => s.ctxs[e.ctx.toNat].part == p

/-- A walk in flight is for a translation that an invalidation names: with scope 0 the page that it has found, of whatever size,
holds the address; one that has found none is of its own 4 KiB (R113, R406). -/
def State.namedWalk (s : State) (p : BitVec 4) (scope : Nat) (cx : BitVec 6) (va : Nat) (w : Walk) : Bool :=
  match scope with
  | 0 =>
    match w.ent with
    | some e => s.named p 0 cx va e
    | none => w.ctx == cx && w.va / 4096 == va / 4096
  | 1 => w.ctx == cx
  | _ => s.ctxs[w.ctx.toNat].part == p

/-- A walk of a memory instruction that has issued is not complete 3 cycles after it: the core freezes (R28, R31). -/
def State.walkLate (s : State) : Bool := s.walks.any fun w => decide (w.due ≤ s.pt) && decide (s.wall < w.till)

/-- The freeze of a walk ends where neither a bundle nor an instruction that has issued waits for one any more (R28). -/
def State.walksOver (s : State) : State :=
  if s.walkLate || s.walk.any fun w => w.bad.isNone then s
  else { s with freezes := s.freezes.filter fun f => f.why != .walk }

/-- Drops the named translations from every TLB; walks in flight for them complete and leave nothing there, and who was frozen
for one goes on (R113, R406). -/
def State.invalidate (s : State) (p : BitVec 4) (scope : Nat) (cx : BitVec 6) (va : Nat) : State :=
  { s with
    tlb := s.tlb.filter fun e => !s.named p scope cx va e
    walk := s.walk.filter fun w => !s.namedWalk p scope cx va w
    walks := s.walks.filter fun w => !s.namedWalk p scope cx va w }.walksOver

/-- Every access that the core's agents have requested has been performed. -/
def State.performed (s : State) : Bool := s.pend.isEmpty && s.reads.isEmpty

/-- Accesses that an agent, a copy or the matrix engine started before an invalidation have been performed (R406). -/
def State.settled (s : State) : Bool :=
  s.performed &&
  let quiet := fun (b : Bank) => b.chans.toList.all (·.started.isEmpty) && b.streams.toList.all (·.outq.isEmpty)
  quiet s.bank && (match s.shadow with
    | some b => quiet b
    | none => true)

/-- The stall of a `tlbinv` ends when what engines have started with old translations has completed (R113, R406). -/
def State.dropNow (s : State) (t : State) : Except Stop State :=
  if s.settled then .ok t else .error (.wait (.fence [] none))

/-- `tlbinv` (R113, R406). DEDUCED, log 18. -/
def execTlbinv (a b : Opnd) (scope : BitVec 2) (s : State) : Host.Outcome State Fault Refusal :=
  s.finish do
    let va ← s.rd64 a
    let x ← s.rd32 b
    let cx : BitVec 6 := BitVec.ofNat 6 x.toNat
    let c := s.ctxs[cx.toNat]
    if !s.supervisor then s.trapNow 0x07 0 0
    else if scope = 2 then
      if x = 0 then s.dropNow (s.invalidate s.part 2 0 0) else s.trapNow 0x07 0 0
    else if x.toNat < 64 ∧ c.defined ∧ c.part = s.part then
      s.dropNow (s.invalidate s.part scope.toNat cx va.toNat)
    else s.trapNow 0x07 0 0

/-- `halt`: stops its agent (R114). -/
def execHalt (s : State) : Host.Outcome State Fault Refusal := s.finish (.ok (s.setCtl .halt))

end Sys2Proof.Machine
end

