-- ==== Sys2Proof/Machine/Select.lean ====
section
/-! DEFINITION. The scheduler's view of the ready sets: the image that a record names (R56, R304), which records can be selected
(R309, R337, R401), where their gangs can be bound (R61, R62), and for which gang cores are reserved (R310). -/

namespace Sys2Proof.Machine

/-! ## The image of a record (R56, R60, R304) -/

/-- The level entry of a loop table (R59). -/
def levelOf (bs : List Byte) : TblLvl :=
  ⟨fieldOf bs 0 1, (fieldOf bs 1 1).testBit 0, fieldOf bs 2 1, fieldOf bs 4 4⟩

/-- An entry address: bits 2 to 0 are forced to zero (R36). -/
def entryAt (code off : Nat) : Nat := (code + off) / 8 * 8

/-- What a run keeps of its image, from the header's and the loop table's bytes (R56, R57). `entries` stand in the order
of the agents. -/
def imageOf (code : Nat) (h lv : List Byte) : Image where
  hdr := code
  code := code + fieldOf h 0x10 4
  entries := ((List.range 4).map fun c => entryAt (code + fieldOf h 0x10 4) (fieldOf h (0x1C + 4 * c) 4))
    ++ [entryAt (code + fieldOf h 0x10 4) (fieldOf h 0x18 4)]
  levels := (List.range (fieldOf h 0x38 2)).map fun k => levelOf (lv.drop (16 * k))
  fpBase := fieldOf h 0x40 4
  fpSize := fieldOf h 0x44 4
  accMask := BitVec.ofNat 4 (fieldOf h 6 1)
  smirs := (List.range 4).map fun c => BitVec.ofNat 32 (fieldOf h (0x48 + 8 * c) 4)
  vmirs := (List.range 4).map fun c => BitVec.ofNat 32 (fieldOf h (0x4C + 8 * c) 4)
  gang := fieldOf h 0x68 2

/-- Bytes of core area that a run of an image needs (R337). -/
def Image.need (i : Image) : Nat :=
  68 * 1024 + 64 * 1024 * ((List.range 4).filter fun k => i.accMask.getLsbD k).length + (i.fpSize + 4095) / 4096 * 4096

/-- Check 4 of admission (R304). -/
def State.gangFits (s : State) (cx : BitVec 6) (sn : Snap) (i : Image) : Bool :=
  let c := s.ctxs[cx.toNat]
  decide (sn.gang = i.gang) && decide (axisExtent i.levels 1 0 * axisExtent i.levels 1 1 ≤ s.parts[c.part.toNat].cap)
    && decide (sn.origin + sn.gang ≤ c.areas) && decide (i.need ≤ c.stride)

/-- The loop table's bytes: as they were loaded, or as memory holds them where the header was not placed by LOAD_IMAGE;
what cannot be read there is free (R59, R304). -/
def State.levelBytes (s : State) (cx : BitVec 6) (code off n : Nat) : List Byte :=
  match s.ctxs[cx.toNat].images.find? fun i => i.hdr == code with
  | some i => (i.bytes.drop off).take (16 * n)
  | none =>
    match s.engReadN cx none 16 n (code + off) with
    | .ok bs => bs
    | .error _ => (List.range (16 * n)).map (Config.tableByte s.wall)

/-- The admission checks of a record: its image, or the subcode of the first that fails (R304). DEDUCED, log 45. -/
def State.admission (s : State) (cx : BitVec 6) (sn : Snap) : Except Byte Image :=
  match s.engReadN cx none 64 2 sn.code with
  | .error e => .error e.1
  | .ok h =>
    if fieldOf h 0 4 ≠ 0x4B34325A ∨ fieldOf h 4 2 ≠ 1 then .error 0x0D
    else
      let i := imageOf sn.code h (s.levelBytes cx sn.code (fieldOf h 0x34 4) (fieldOf h 0x38 2))
      if s.gangFits cx sn i then .ok i else .error 0x0D

/-! ## Which records can be selected (R309, R337, R401) -/

/-- Two ranges of logical core numbers meet. -/
def rangesMeet (a n b m : Nat) : Bool := decide (a < b + m) && decide (b < a + n)

/-- Is an area entry of a killed run still held: the consumer index has not passed its record (R337)? -/
def State.stillHeld (s : State) (h : BitVec 6 × Nat × Nat × Option Nat) : Bool :=
  match h.2.2.2 with
  | some k =>
    let cons := s.rdNat (s.parts[(s.ctxs[h.1.toNat].part).toNat].ctl + 4) 4
    decide (2 ^ 31 ≤ (cons + 2 ^ 32 - k) % 2 ^ 32)
  | none => true

/-- No area that the record's gang needs is held by a running or saved run, or by a killed one (R337). -/
def State.areasFree (s : State) (r : SRec) : Bool :=
  (s.recs.all fun q =>
    (q.ctx == r.ctx && q.addr == r.addr) || q.ctx != r.ctx || !(q.state == 3 || q.resume.isSome)
      || !rangesMeet q.snap.origin q.snap.gang r.snap.origin r.snap.gang)
  && s.heldAreas.all fun h => h.1 != r.ctx || !s.stillHeld h || !rangesMeet h.2.1 h.2.2.1 r.snap.origin r.snap.gang

/-- The partition admits work (R336, R399, R409). -/
def Part.admits (p : Part) : Bool := p.enabled && !p.resetting && !p.stopped && decide (p.weight ≠ 0)

/-- Partition of a record's context. -/
def State.partOf (s : State) (r : SRec) : BitVec 4 := s.ctxs[r.ctx.toNat].part

/-- The record's die can select it. -/
def State.selectable (s : State) (r : SRec) : Bool :=
  r.state == 2 && (s.parts[(s.partOf r).toNat]).admits && s.areasFree r

/-- The smaller key: deadline, priority class, push order (R309). -/
def SRec.before (a b : SRec) : Bool :=
  decide (a.snap.deadline.toNat < b.snap.deadline.toNat)
    || (a.snap.deadline == b.snap.deadline
      && (decide (a.snap.prio < b.snap.prio) || (a.snap.prio == b.snap.prio && decide (a.order < b.order))))

/-- Puts a record into a list that rises by key. -/
def insertRec (r : SRec) : List SRec → List SRec
  | [] => [r]
  | q :: qs => if r.before q then r :: q :: qs else q :: insertRec r qs

/-- The selectable records of a partition in a die's ready set, by rising key (R309). -/
def State.readyOn (s : State) (p : BitVec 4) (die : Nat) : List SRec :=
  (s.recs.filter fun r => s.selectable r && r.die == die && s.partOf r == p).foldl (fun l r => insertRec r l) []

/-- Those of the core's own die. -/
def State.readyOf (s : State) (p : BitVec 4) : List SRec := s.readyOn p s.die

/-- Partition `a` comes before `b` by the share rule: less use for its weight, ties to the lower number (R401). -/
def State.fairer (s : State) (a b : BitVec 4) : Bool :=
  let x := s.parts[a.toNat]
  let y := s.parts[b.toNat]
  decide (x.used * y.weight < y.used * x.weight)
    || (x.used * y.weight == y.used * x.weight && decide (a.toNat < b.toNat))

/-! ## Binding (R61, R62) -/

/-- Where a gang is bound: core origin, die origin, and the mirror bits fx, fy, gx and gy (R62). -/
structure Spot where
  ox : Nat
  oy : Nat
  cx : Nat
  cy : Nat
  mir : Nat
  deriving DecidableEq, Repr

/-- A coordinate of a member on one axis (R62). -/
def axisPlace (o extent l : Nat) (mirror : Bool) : Nat := o + if mirror then extent - 1 - l else l

/-- Die number x 64 + core number of member `n` (R62). -/
def memberCore (lv : List TblLvl) (p : Spot) (n : Nat) : Nat :=
  let x := axisPlace p.ox (axisExtent lv 1 0) (coordOf lv n 1 0) (p.mir.testBit 0)
  let y := axisPlace p.oy (axisExtent lv 1 1) (coordOf lv n 1 1) (p.mir.testBit 1)
  let c := axisPlace p.cx (axisExtent lv 2 0) (coordOf lv n 2 0) (p.mir.testBit 2)
  let w := axisPlace p.cy (axisExtent lv 2 1) (coordOf lv n 2 1) (p.mir.testBit 3)
  (w * 4 + c) * 64 + y * 8 + x

/-- An origin from which an extent covers position `pos` within `limit`, by the outside's choice. -/
def originFor (pos extent limit choice : Nat) : Nat :=
  let lo := pos + 1 - extent
  lo + choice % (min pos (limit - extent) - lo + 1)

/-- A core lies in the rectangle of a binding (R62). -/
def Spot.holds (p : Spot) (lv : List TblLvl) (c : Nat) : Bool :=
  let within := fun (x o n : Nat) => decide (o ≤ x) && decide (x < o + n)
  within (c % 8) p.ox (axisExtent lv 1 0) && within (c % 64 / 8) p.oy (axisExtent lv 1 1)
    && within (c / 64 % 4) p.cx (axisExtent lv 2 0) && within (c / 64 / 4) p.cy (axisExtent lv 2 1)

/-- The origins from which an extent covers a position within a limit. -/
def originsOver (pos extent limit : Nat) : List Nat :=
  (List.range (limit + 1 - extent)).filter fun o => decide (o ≤ pos) && decide (pos < o + extent)

/-- Every rectangle whose dies contain a die, without mirroring (R62, R317). -/
def spotsOn (lv : List TblLvl) (die : Nat) : List Spot :=
  (List.range (9 - axisExtent lv 1 1)).flatMap fun oy =>
    (List.range (9 - axisExtent lv 1 0)).flatMap fun ox =>
      (originsOver (die / 4) (axisExtent lv 2 1) 6).flatMap fun cy =>
        (originsOver (die % 4) (axisExtent lv 2 0) 4).map fun cx => ⟨ox, oy, cx, cy, 0⟩

/-- All cores of the rectangle are idle, as far as the outside has said; a core of `also` is not (R62). -/
def State.spotFree (s : State) (lv : List TblLvl) (also : List Nat) (p : Spot) : Bool :=
  !(s.taken.any fun c => p.holds lv c.1) && !(also.any fun c => p.holds lv c)

/-- A rectangle that holds the modelled core, by the outside's choice among all there are (R62). -/
def State.spotFor (s : State) (lv : List TblLvl) (ch : Nat × Nat × Nat) : Spot where
  ox := originFor (s.core % 8) (axisExtent lv 1 0) 8 (ch.1 % 8)
  oy := originFor (s.core / 8) (axisExtent lv 1 1) 8 (ch.1 / 8)
  cx := originFor (s.die % 4) (axisExtent lv 2 0) 4 (ch.2.1 % 8)
  cy := originFor (s.die / 4) (axisExtent lv 2 1) 6 (ch.2.1 / 8)
  mir := ch.2.2 % 16

/-- A die lies in the rectangle of a binding. -/
def Spot.onDie (p : Spot) (lv : List TblLvl) (die : Nat) : Bool :=
  decide (p.cx ≤ die % 4) && decide (die % 4 < p.cx + axisExtent lv 2 0)
    && decide (p.cy ≤ die / 4) && decide (die / 4 < p.cy + axisExtent lv 2 1)

/-- The record's gang could use the core's die: some rectangle that contains the die it was pushed to contains that one too
(R62, R310, R317). -/
def State.usesDie (s : State) (r : SRec) : Bool :=
  r.die == s.die ||
    match s.admission r.ctx r.snap with
    | .ok i => (spotsOn i.levels r.die).any fun q => q.onDie i.levels s.die
    | .error _ => false

/-- The record's gang can be placed nowhere on the dies it may use, with the cores of `also` held too (R62, R310). -/
def State.unplaceable (s : State) (also : List Nat) (r : SRec) : Bool :=
  match s.admission r.ctx r.snap with
  | .ok i => !(spotsOn i.levels r.die).any (s.spotFree i.levels also)
  | .error _ => false

/-- The member number that a binding gives the modelled core. -/
def State.memberAt (s : State) (lv : List TblLvl) (gang : Nat) (p : Spot) : Nat :=
  (List.range gang).findIdx fun n => memberCore lv p n == s.coreId

/-- A saved context can resume here as a member: that member's area holds it (R346). -/
def State.hasSaved (s : State) (r : SRec) (n : Nat) : Bool :=
  s.areas.any fun a => a.1 == r.ctx && a.2.1 == r.snap.origin + n && a.2.2.run.isSome

/-- A binding that holds the modelled core can be made: it contains the die the record was pushed to (R317), its cores are idle,
and a gang that resumes finds here what the member it puts here has saved (R62, R346). -/
def State.bindable (s : State) (r : SRec) (i : Image) (p : Spot) : Bool :=
  p.holds i.levels s.coreId && p.onDie i.levels r.die && s.spotFree i.levels [] p
    && (r.resume.isNone || s.hasSaved r (s.memberAt i.levels r.snap.gang p))

/-- The binding of a gang on cores of which the modelled one is one: the outside's choice if it can be made, else the first
that can (R62, R346). -/
def State.spotHere (s : State) (r : SRec) (i : Image) : Option Spot :=
  let ch := s.oracle.place.headD (0, 0, 0)
  let p := s.spotFor i.levels ch
  if s.bindable r i p then some p
  else
    let mirs := if r.resume.isNone then [ch.2.2 % 16] else List.range 16
    (((spotsOn i.levels r.die).filter fun q => q.holds i.levels s.coreId).flatMap fun q =>
      mirs.map fun m => { q with mir := m }).find? (s.bindable r i)

/-! ## Reserved cores (R310) -/

/-- Cores that the core's own runs hold. -/
def State.heldCores (s : State) : List Nat :=
  let own := fun (b : Bank) => (b.run.map (·.members)).getD []
  own s.bank ++ (s.shadow.map fun b => if b.run.any (·.dropped) then [] else own b).getD []

/-- A record is the smallest key of its partition in its die's ready set (R309). -/
def State.isHead (s : State) (r : SRec) : Bool :=
  s.selectable r
    && s.recs.all fun q => !(q.before r && q.die == r.die && s.partOf q == s.partOf r && s.selectable q)

/-- A record that is a smallest key, and whose gang can be placed nowhere now. -/
def State.stuckHead (s : State) (r : SRec) : Bool := s.isHead r && s.unplaceable s.heldCores r

/-- From the moment that such a gang is found, the cores of the dies it could use are reserved for it until it is placed
(R310). -/
def State.reserveCores (s : State) : State :=
  if s.recs.all fun r => r.reserves || r.state != 2 then s
  else { s with recs := s.recs.map fun r => { r with reserves := r.reserves || s.stuckHead r } }

/-- The gangs of a partition that the core is reserved for; one that cannot be placed as the core looks for work reserves it at
once (R310). -/
def State.reservedFor (s : State) (p : BitVec 4) : List SRec :=
  s.recs.filter fun r => s.partOf r == p && (r.reserves || s.stuckHead r) && s.selectable r && s.usesDie r

end Sys2Proof.Machine
end

