-- ==== Sys2Proof/Machine/Bundle.lean ====
section
/-! DEFINITION. Bundles: fetching and decoding one (R21, R23, R36, R54, R55), and what a bundle that has issued leaves:
its results, its writes, the loop unit and the next address (R17, R97, R100 to R105). -/

namespace Sys2Proof.Machine

/-! ## Fetch and decode -/

/-- The word at a position of the bundle at issue, or the fetch fault of check 0 (R36, R54, R147). -/
def State.fetch (s : State) (pos : Nat) : Except Stop DWord :=
  let va := s.cur.pc + BitVec.ofNat 64 (8 * pos)
  let sub := BitVec.ofNat 8 (0x30 + pos)
  match s.locate s.cx s.bank.run .fetch va.toNat 8 with
  | .bad c => s.trapNow c sub va
  | .miss => s.walkStop s.cx va.toNat
  | .at key =>
    if (s.mem.poisonAt key 8).isSome then s.trapNow 0x09 sub va
    else if !s.served key false then s.trapNow 0x0A sub va
    else .ok (wordOfBytes (s.rd key 8))

/-- The loop-table checks of `loop` and `lidx`, part of check 5 (R100, R103). -/
def State.levelOk (s : State) (i : Instr) : Bool :=
  let lv := match s.bank.run with
    | some r => r.img.levels
    | none => []
  match i with
  | .loop _ (some n) _ _ =>
    match lv[n.toNat]? with
    | some l => l.kind == 0
    | none => false
  | .lidx _ _ n _ => decide (n.toNat < lv.length)
  | _ => true

/-- An instruction with the joint bit (R44, R191). -/
def isJoint : Instr → Bool
  | .jointOperation .. => true
  | _ => false

/-- A `nop`, which ends its bundle whatever its E bit (R37). -/
def isNop : Instr → Bool
  | .nop => true
  | _ => false

/-- A failed check of R54 at a position: cause, and the subcode of R55. -/
def State.wordTrap {α : Type} (s : State) (cause : Nat) (check pos : Nat) : Except Stop α :=
  s.trapNow (BitVec.ofNat 8 cause) (BitVec.ofNat 8 (pos + 16 * check)) (s.cur.pc + BitVec.ofNat 64 (8 * pos))

/-- Fetches and decodes the bundle from position `pos` on, checks 0 to 7 in order for each word; `n` words may still
follow, `used` are the slots taken, `sync` is the first word's Y bit (R21, R22, R23, R54). -/
def State.decodeFrom (s : State) : Nat → Nat → List Slot → Bool → Except Stop (List (Instr × DWord))
  | 0, _, _, _ => .ok []
  | n + 1, pos, used, sync =>
    match s.fetch pos with
    | .error e => .error e
    | .ok w =>
      match decode s.onAp w with
      | .error e => s.wordTrap e.cause e.check pos
      | .ok d =>
        let sync := if pos = 0 then d.y else sync
        let ends := d.e || isNop d.i
        if !s.levelOk d.i || (isJoint d.i && !sync) then s.wordTrap 0x02 5 pos
        else if used.contains (slotOf (wOp w)) || (d.y && (s.onAp || decide (pos ≠ 0))) || (decide (n = 0) && !ends) then
          s.wordTrap 0x02 6 pos
        else if !d.i.boundOk then s.wordTrap 0x05 7 pos
        else
          let here := (d.i, s.cur.pc + BitVec.ofNat 64 (8 * pos))
          if ends then .ok [here]
          else
            match s.decodeFrom n (pos + 1) (slotOf (wOp w) :: used) sync with
            | .ok rest => .ok (here :: rest)
            | .error e => .error e

/-- Set bits of a mask. -/
def popCount (w : Word) : Nat := ((List.range 32).filter fun i => w.getLsbD i).length

/-- A cluster's mirror set is too large (R20). -/
def State.mirrorBad (s : State) : Bool :=
  !s.onAp && (decide (8 < popCount s.cur.smir) || decide (8 < popCount s.cur.vmir))

/-- The bundle at issue: up to three words on a cluster, two on the access processor (R21, R23). The manual does not rank the
mirror-set fault of R20 against the checks of the bundle's first word; it comes before them all, the fetch too.
DESIGN CHOICE, log 14. -/
def State.decodeBundle (s : State) : Except Stop (List (Instr × DWord)) :=
  if s.mirrorBad then s.wordTrap 0x02 5 0
  else s.decodeFrom (if s.onAp then 2 else 3) 0 [] false

/-- The Y bit of the word an agent stands at; false where it cannot be fetched (R22). -/
def State.standsAtSync (s : State) (a : AgentId) : Bool :=
  let s := { s with turn := a }
  !s.cur.halted && !s.cur.stopped &&
    match s.fetch 0 with
    | .ok w => wBit w 60
    | .error _ => false

/-! ## The loop unit (R100 to R105) -/

/-- The table level an agent's innermost level is bound to is drainable (R59, R104). -/
def State.drainable (s : State) (a : Agent) : Bool :=
  match a.loops, s.bank.run with
  | l :: _, some r =>
    match l.bind with
    | some n =>
      match r.img.levels[n.toNat]? with
      | some lv => lv.drainable
      | none => false
    | none => false
  | _, _ => false

/-- An end bundle falls through (R101): the levels whose exit is the next address iterate from the inside out; the level
that a stop request drains starts no iteration, and closes (R104). The levels left, the next address, and the level that
has drained. -/
def loopGo : List LoopLvl → DWord → List LoopLvl × DWord × Option LoopLvl
  | [], npc => ([], npc, none)
  | l :: ls, npc =>
    if l.exit = npc then
      if l.drain then (ls, npc, some l)
      else if l.index + 1 < l.count then ({ l with index := l.index + 1 } :: ls, l.start, none)
      else loopGo ls npc
    else (l :: ls, npc, none)

/-- A level has drained: the index it has reached is its table level's saved count, and a drain is pending (R104). -/
def Agent.drained (a : Agent) (l : LoopLvl) : Agent :=
  { a with
    drainPend := true
    draining := false
    saved := match l.bind with
      | some n => (n, l.index + 1) :: a.saved.filter (·.1 != n)
      | none => a.saved }

/-- The fall-through of a bundle with next address `npc` (R101, R104). -/
def Agent.fallThrough (a : Agent) (npc : DWord) : Agent :=
  let r := loopGo a.loops npc
  let a := { a with loops := r.1, pc := r.2.1 }
  match r.2.2 with
  | some l => a.drained l
  | none => a

/-! ## A bundle that has issued -/

/-- The buffered results and writes of the bundle take their places (R17, R30, R106). -/
def Agent.flush (a : Agent) : Agent :=
  let b := a.bun
  let a := a.clearFlags b.clr
  { a with
    sq := (b.scal ++ a.sq).take 16
    vq := (b.vecs ++ a.vq).take 16
    latches := a.latches ++ b.latches.reverse
    m := match b.mask with
      | some (i, v) => a.m.setIfInBounds i.toNat v
      | none => a.m
    bq := if b.bqPop then a.bq.drop 1 else a.bq
    waiting := none
    banked := 0 }

/-- A write of a special register of the agent itself (R107, R108). -/
def Agent.writeSr (a : Agent) (n : BitVec 8) (v : DWord) : Agent :=
  match n.toNat with
  | 0x00 => { a with aflags := flagWord (v.setWidth 32) }
  | 0x01 => { a with atrap := flagWord (v.setWidth 32) }
  | 0x0F => { a with rope := v.setWidth 32 &&& 0x007F7F7F }
  | 0x10 => { a with rngkey := v.setWidth 32 }
  | _ => a

/-- Where control goes after the bundle (R21, R97 to R105, R114). A bundle that opens a level goes on at its next address
even if that is the exit of the level or of the one around it: the manual does not say that the level around it then
advances (DESIGN CHOICE, log 17). An `ldrain` with a drain pending stops its agent only while the stop is in progress: a run
that was parked in its epilogue and resumes goes on at the target, and an `lbrk` that closes the level to be drained stops
its agent after the bundle (DESIGN CHOICE, log 43). -/
def State.control (s : State) (a : Agent) : Agent :=
  let b := a.bun
  match b.ctl with
  | .fall => a.fallThrough b.npc
  | .jump t => { a with pc := t }
  | .lbrk t =>
    match a.loops with
    | l :: ls => { a with pc := t, loops := ls, draining := a.draining && !l.drain, stopped := a.stopped || l.drain }
    | [] => { a with pc := t }
  | .open l => { a with pc := b.npc, loops := l :: a.loops }
  | .drained t => { a with pc := t, stopped := s.phase == .stopping, drainPend := false }
  | .trapAfter _ | .swapBack => a.fallThrough b.npc
  | .halt => { a with halted := true }

/-- The writes of the core's own special registers wait for the end of the cycle (R108). -/
def State.pendSr (s : State) (b : Bun) : State :=
  match b.srw with
  | some w => if w.1.toNat = 0x11 ∨ w.1.toNat = 0x12 then { s with srPend := s.srPend ++ [w] } else s
  | none => s

/-- The agent after its bundle. -/
def State.afterBundle (s : State) (a : Agent) : Agent :=
  let b := a.bun
  let a := a.flush
  let a := match b.srw with
    | some w => a.writeSr w.1 w.2
    | none => a
  let a := s.control a
  { a with locked := if b.sync then some s.pt else none }

/-- The run of the core has reached its end: its kind stands, and no bundle issues after this cycle; where two agents reach
it in one cycle the lower one's kind stands (R313, log 23). A service slice sets its bits at `slend` and swaps back after the
cycle (R341). -/
def State.reachEnd (s : State) (y : Option DWord) : State :=
  let new := (s.bank.run.map fun r => r.ending.isNone).getD false
  let s := s.mapRun fun r => { r with ending := match r.ending with
    | some k => some k
    | none => some y }
  if s.serving then
    match s.bank.run with
    | some r => if y.isNone && new then s.setEvents r.ctx r.snap.setMask 0 else s
    | none => s
  else { s with phase := .draining }

/-- `sret` has issued (R112): outside an interruption it ends the slice as `slend` does (R408). -/
def State.returnRun (s : State) : State :=
  if s.serving then s.mapRun fun r => { r with ending := match r.ending with
    | some k => some k
    | none => some (some 0) }
  else s.reachEnd none

/-- Commits the bundle at issue: results, writes, next address, and what its control instructions do to the run
(R21, R111 to R114, R313, R342). -/
def State.commitBundle (s : State) : State :=
  let old := s.cur
  let b := old.bun
  let s := (s.pendSr b).mapCur s.afterBundle
  let s := { s with walk := none, reissue := if s.reissue = some s.turn then none else s.reissue }
  let s := match b.ends with
    | some y => s.reachEnd y
    | none => s
  match b.ctl with
  | .trapAfter n =>
    s.takeTrap { s.trapAt 0x15 (n.setWidth 8) 0 with pc := old.pc, resume := s.cur.pc, past := true }
  | .swapBack => s.returnRun
  | _ => s

/-- The words of a bundle are to be run: its buffer is empty. -/
def State.startBundle (s : State) (npc : DWord) (sync : Bool) : State :=
  { s.mapCur (fun a => { a with bun := Bun.start a.pc npc sync }) with verdict := .ok }

/-- The next word of the bundle runs: its own address (R97). -/
def State.atWord (s : State) (ipc : DWord) : State := s.mapBun fun b => { b with ipc := ipc }

/-- Latches the bundle would leave in flight: at most 24, of which 8 vector (R30, R339). -/
def State.latchesFit (s : State) : Bool :=
  let ls := s.cur.latches ++ s.cur.bun.latches
  decide (ls.length ≤ 24) && decide ((ls.filter fun l => l.cls = .vector).length ≤ 8)

/-- The agent at issue waits; the watchdog counts from when the wait began (R328). A fence that comes to wait keeps the
markers that it has set (R159). -/
def State.waitFor (s : State) (w : Waits) : State :=
  s.mapCur fun a => { a with waiting := match a.waiting, w with
    | some (.fence cs e, t), _ => some (.fence cs e, t)
    | some (_, t), .fence cs e => some (.fence cs e, t)
    | some x, _ => some x
    | none, w => some (w, s.wall) }

/-! ## The end of a cycle -/

/-- A correction lasts exactly 24 cycles (R28). -/
def Freeze.begun (f : Freeze) : Freeze :=
  match f.why with
  | .correction _ _ => { f with left := 24 }
  | _ => f

/-- Counts the correctable error or the retry behind a freeze, on the die where it is (R412). -/
def State.counted (s : State) (f : Option Freeze) : State :=
  match f with
  | some ⟨.correction u d, _⟩ => s.count d u.toNat 1
  | some ⟨.retry d, _⟩ => s.count d 6 1
  | _ => s

/-- The freeze that strikes the core at the end of this cycle, as the outside decides (R28). -/
def State.strike (s : State) : State :=
  match s.oracle.freezes with
  | [] => s
  | f :: fs =>
    { s with
      oracle := { s.oracle with freezes := fs }
      freezes := match f with
        | some f => s.freezes ++ [f.begun]
        | none => s.freezes }
    |>.counted f

/-- The restore of a footprint is complete: its entry of the scoreboard is released, and who waited for it goes on (R143,
R346). -/
def State.restoreTick (s : State) : State :=
  if s.restoreAt ≤ s.wall ∧ s.board.any (·.holder == .restore) then
    { s with
      board := s.board.filter fun e => e.holder != .restore
      freezes := s.freezes.filter fun f => f.why != .board }
  else s

/-- What every cycle of wall time does to the scheduler: once the cycle has made its updates of the event vectors, records whose
conditions hold become ready, and gangs that cannot be placed have cores reserved (R307, R308, R310). -/
def State.schedule (s : State) : State := { s with evSets := [] }.wake.reserveCores

/-- A cycle of program time ends: special registers take their writes, results land, memory goes on, and the next cycle
begins with C0 (R8, R25, R108, R162, R326). -/
def State.endCycle (s : State) : State :=
  let s := s.chargeCycle.settleSr.memoryCycle.schedule
  let s := s.mapBank fun b => { b with agents := b.agents.map fun a => a.commit (s.pt + 1) }
  { s with pt := s.pt + 1, wall := s.wall + 1, turn := 0, tally := [] }.restoreTick.strike

/-- A cycle in which the core issues nothing: idle, switching, saving. Writes that a copy has held back are performed. -/
def State.emptyCycle (s : State) : State :=
  let s := (s.chargeCycle.flushWhere fun _ => true).schedule
  { s with pt := s.pt + 1, wall := s.wall + 1, turn := 0, tally := [] }.restoreTick

/-- Freezes that end by themselves when their cycles are over; the others end by their event (R28). -/
def FreezeWhy.timed : FreezeWhy → Bool
  | .bankBusy | .refresh | .thermal | .share | .replay | .latch => true
  | _ => false

/-- A cycle in which the core is frozen: wall time alone advances (R8, R27). -/
def State.frozenCycle (s : State) : State :=
  let has := fun w => s.freezes.any fun f => f.why == w
  let s := s.chargeCycle.schedule.count s.die 9 1
  let s := if has .thermal then s.count s.die 7 1 else s
  let s := if has .share then s.count s.die 8 1 else s
  let s := { s with
    wall := s.wall + 1
    tally := []
    freezes := (s.freezes.map fun (f : Freeze) => { f with left := f.left - 1 }).filter fun f => !(f.why.timed && f.left == 0) }
  s.restoreTick

/-- The turn passes to the next agent, and after the access processor the cycle ends. DEDUCED, log 12. -/
def State.nextTurn (s : State) : State :=
  if h : s.turn.val + 1 < 5 then { s with turn := ⟨s.turn.val + 1, h⟩ }
  else
    let s := s.endCycle
    if s.serving && (s.bank.run.map fun r => r.ending.isSome).getD false then s.swapBack else s

/-- The turn of an agent is over; where its bundle has made the run leave the core, the cycle is (R21, R330). -/
def State.afterTurn (s : State) : State :=
  match s.phase with
  | .running | .draining | .stopping => s.nextTurn
  | _ => { s with turn := 0 }

end Sys2Proof.Machine
end

