-- ==== Sys2Proof/Machine/Mailbox.lean ====
section
/-! DEFINITION. The mailbox: which happenings are commands, with their headers, and how a command is answered (R386 to R389,
R393). -/

namespace Sys2Proof

/-- The completion address can be written: 64-byte aligned, within 52 bits (R10, R386). -/
def MbHdr.complOk (h : MbHdr) : Bool := decide (h.compl.toNat % 64 = 0) && decide (h.compl.toNat < 2 ^ 52)

/-- The offset of the first header field outside its limits (R386, R387). DEDUCED, log 49. -/
def MbHdr.bad (h : MbHdr) : Option Nat :=
  if 16 ≤ h.part.toNat then some 4
  else if 64 ≤ h.ctx.toNat ∧ h.ctx ≠ 0xFF then some 5
  else if h.zero ≠ 0 then some 6
  else if !h.complOk then some 8
  else none

/-- The partition a header names. -/
def MbHdr.p (h : MbHdr) : BitVec 4 := BitVec.ofNat 4 h.part.toNat

end Sys2Proof

namespace Sys2Proof.Machine

/-- A mailbox command: its header, its opcode, and whether it is a command of the header's partition (R389, R393). -/
def mailOf : Instr → Option (MbHdr × Nat × Bool)
  | .identify h => some (h, 0xC000, false)
  | .loadImage h .. => some (h, 0xC010, true)
  | .retireImage h .. => some (h, 0xC011, true)
  | .modelDefine h .. => some (h, 0xC020, true)
  | .weightWrite h .. => some (h, 0xC021, true)
  | .modelBind h .. => some (h, 0xC022, true)
  | .modelUnbind h => some (h, 0xC023, true)
  | .partitionResume h => some (h, 0xC030, true)
  | .attest h .. => some (h, 0xC040, true)
  | .ownerKey h .. => some (h, 0xC050, true)
  | .window h .. => some (h, 0xC060, false)
  | .linkConfig h .. => some (h, 0xC070, false)
  | .linkRoute h .. => some (h, 0xC071, false)
  | .exportEntry h .. => some (h, 0xC072, true)
  | .linkStatus h => some (h, 0xC073, false)
  | _ => none

/-- Raises the driver's MSI-X vector 0 (R379, R388). -/
def State.raiseDriver (s : State) : State := { s with msix := s.msix.raise 0 }

/-- The completion record, then the driver's vector (R388). -/
def State.complete (s : State) (h : MbHdr) (op status detail : Nat) : State :=
  if h.compl = 0 ∨ !h.complOk then s
  else
    (s.wr (hostKey + h.compl.toNat)
      (bytesOf 4 h.tag.toNat ++ bytesOf 2 status ++ bytesOf 2 detail ++ bytesOf 2 op ++ bytesOf 6 0)).raiseDriver

/-- The mailbox with no command in progress. -/
def Mailbox.idle (code : RetCode) (response : List Byte) : Mailbox := ⟨false, code, response, none, false, 0⟩

/-- A command's response: tag, status, detail, body (R387); after a hot reset during the command response and record are
discarded (R393). -/
def State.answer (s : State) (h : MbHdr) (op status detail : Nat) (body : List Byte) : State :=
  if s.mailbox.discard then { s with mailbox := .idle .success [] }
  else
    ({ s with mailbox := .idle .success (bytesOf 4 h.tag.toNat ++ bytesOf 2 status ++ bytesOf 2 detail ++ body) }).complete
      h op status detail

/-- The mailbox takes no command: one is in progress, or boot has not reached stage 6 (R386, R397). -/
def State.mailBusy (s : State) : Bool := s.mailbox.busy || decide (s.stage < 6)

/-- A doorbell that finds a command in progress (R386). -/
def State.refuseBusy (s : State) : State := { s with mailbox := { s.mailbox with code := .busy } }

/-- A command of the partition that is in progress when its reset begins returns status 9 (R393). -/
def State.resolveCommand (s : State) (p : BitVec 4) : State :=
  match s.mailbox.running.bind mailOf with
  | some (h, op, true) => if h.p = p then s.answer h op 9 0 [] else s
  | _ => s

end Sys2Proof.Machine
end

