-- ==== Sys2Proof/Machine/MemInstr.lean ====
section
/-! DEFINITION. Memory instructions: MEM, AMO, ORDR and VMEM (R146 to R161). -/

namespace Sys2Proof.Machine

/-! ## MEM (R149 to R151) -/

/-- The effective address of a base and a 24-bit offset (R146). -/
def effAddr (base : DWord) (off : BitVec 24) : DWord := base + off.signExtend 64

/-- A 64-bit result or a 32-bit one, by the access size: what `ld` delivers of what its path sees (R150, R171). -/
def State.loadResult (s : State) (sc : Sched) (d : Opnd) (sz : Size) (va : DWord) (key : Nat) : State :=
  s.putM sc d (sz = .d) 6 (BitVec.ofNat 64 (ofBytes (s.view .own key sz.bytes))) (s.readMark .own va key sz.bytes)

/-- What an access to a location finds after the agent's own earlier accesses there (R166): its walk is noted, and its
path's accesses there are performed. -/
def State.reading (s : State) (path : Path) (va : DWord) (key n : Nat) : State := (s.noteWalk va).beforeRead path key n

/-- An ordered read is served at the home (R171): its path holds nothing of it. -/
def State.atHome (s : State) (key n : Nat) : State := s.dropAt .own key n

/-- A location at which a copy holds a write of the agent's own path back is not read there until the copy is done
(R166, R167). -/
def State.unowed (s : State) (key n : Nat) : Except Stop Unit :=
  if s.heldBack fun e => e.path == .own && e.touches key n then .error (.wait .copy) else .ok ()

/-- A plain `ld` delivers its result, which may be read later (R162, R166). -/
def State.loadPlain (s : State) (sc : Sched) (d : Opnd) (sz : Size) (va : DWord) (key : Nat) : State :=
  let late := if s.lateRead 0 then [(0, va, key)] else []
  (s.readLater .own s.bank.uid false sz.bytes late none).loadResult sc d sz va key

/-- `ld` (R149, R150, R166, R171). -/
def execLd (sc : Sched) (d : Opnd) (bp : BitVec 4) (sz : Size) (scope : Scope) (acq : Bool) (off : BitVec 24)
    (s : State) : Host.Outcome State Fault Refusal :=
  (if acq then s.finishWaiting (· == .own) else s.finish) do
    let base ← s.rdBase bp
    let va := effAddr base off
    let key ← s.access .read va sz.bytes 0
    if acq then s.unowed key sz.bytes
    let s := s.reading .own va key sz.bytes
    pure
      (if acq then ((s.atHome key sz.bytes).loadResult sc d sz va key).acquire scope key
      else s.loadPlain sc d sz va key)

/-- `st` (R149, R150, R166). -/
def execSt (d : Opnd) (bp : BitVec 4) (sz : Size) (scope : Scope) (rel : Bool) (off : BitVec 24) (s : State) :
    Host.Outcome State Fault Refusal :=
  (if rel then s.finishWaiting (· == .own) else s.finish) do
    let base ← s.rdBase bp
    let v ← s.rdSz (sz = .d) d
    let va := effAddr base off
    let key ← s.access .write va sz.bytes 0
    let s := s.noteWalk va
    let bs := bytesOf sz.bytes v.toNat
    pure
      ((if rel then (s.beforeRelease scope).storeAs (.rel (s.relOf scope va key)) .own va key 0 false bs
      else s.storePlain .own va key 0 false bs).usedLate)

/-- `pref`: changes no architectural value and raises no fault (R151). -/
def execPref (bp : BitVec 4) (_off : BitVec 24) (s : State) : Host.Outcome State Fault Refusal :=
  s.finish do
    let _ ← s.rdBase bp
    pure s

/-! ## AMO (R152, R153) -/

/-- What an atomic does once its location is known: the read and the write are one, and one that fails leaves memory
unchanged (R145, R147, R153). -/
def State.atomicAt (s : State) (sc : Sched) (d : Opnd) (wide : Bool) (o : AmoOp) (va : DWord) (key b x : Nat) : State :=
  let w := if wide then 8 else 4
  let old := s.rdNat key w
  match s.atomicMark s.turn va key w with
  | some m =>
    let s := if d.discards then s.defer .own m.addr m.cause .atomic 0 else s
    s.putM sc d wide 32 (BitVec.ofNat 64 old) (if d.discards then none else some m)
  | none =>
    let s := match o.new w old b x with
      | some v => s.storeNow .atomic va key (bytesOf w v)
      | none => s
    s.putM sc d wide 32 (BitVec.ofNat 64 old) none

/-- An atomic is left to be performed later, by the time that its result lands (R25, R162). -/
def State.atomicLater (s : State) (sc : Sched) (d : Opnd) (wide : Bool) (o : AmoOp) (va : DWord) (key b x : Nat)
    (r : Option Rel) : State :=
  let uid := s.bank.uid
  let s := s.putM sc d wide 32 0 none
  { s with pend := s.pend ++ [⟨s.turn, .own, va, 0, key, List.replicate (if wide then 8 else 4) 0, false, none,
    s.workBank.uid, .amo uid o b x d.discards r⟩] }

/-- The atomic has acquire order, or release order (R47). -/
def acquires (o : MOrd) : Bool := o = .acq || o = .acqrel
/-- See above. -/
def releases (o : MOrd) : Bool := o = .rel || o = .acqrel

/-- An atomic of this order may be performed after later accesses of its path: one that acquires may not, nor one whose
success decides whether it is a release (R153, R166). -/
def mayBeLate (ord : MOrd) (o : AmoOp) : Bool := !acquires ord && (!releases ord || o != .cas)

/-- An atomic of address pair `a`, operand `b` and compare value `x` (R152, R153, R166); one that writes nothing acts only as
an acquire. -/
def State.amo (s : State) (sc : Sched) (d a b x : Opnd) (scope : Scope) (ord : MOrd) (wide : Bool) (o : AmoOp) :
    Host.Outcome State Fault Refusal :=
  (if ord = .plain then s.finish else s.finishWaiting (· == .own)) do
    let w := if wide then 8 else 4
    let va ← s.rd64 a
    let v ← s.rdSz wide b
    let c ← s.rdSz wide x
    let key ← s.access .atomic va w 0
    s.unowed key w
    let s := (s.reading .own va key w).atHome key w
    let writes := (o.new w (s.rdNat key w) v.toNat c.toNat).isSome
    let rel := if releases ord && writes then some (s.relOf scope va key) else none
    let s := if rel.isSome then s.beforeRelease scope else s
    let s :=
      if s.lateMask.testBit 0 && mayBeLate ord o then s.atomicLater sc d wide o va key v.toNat c.toNat rel
      else (s.noteReleases rel).atomicAt sc d wide o va key v.toNat c.toNat
    pure (if acquires ord then s.usedLate.acquire scope key else s.usedLate)

/-- `amoadd` (R153). -/
def execAmoadd (sc : Sched) (d a b : Opnd) (scope : Scope) (o : MOrd) (wide : Bool) (s : State) :
    Host.Outcome State Fault Refusal :=
  s.amo sc d a b (.sp 0) scope o wide .add

/-- `amoswp` (R153). -/
def execAmoswp (sc : Sched) (d a b : Opnd) (scope : Scope) (o : MOrd) (wide : Bool) (s : State) :
    Host.Outcome State Fault Refusal :=
  s.amo sc d a b (.sp 0) scope o wide .swp

/-- `amocas` (R153). -/
def execAmocas (sc : Sched) (d a b x : Opnd) (scope : Scope) (o : MOrd) (wide : Bool) (s : State) :
    Host.Outcome State Fault Refusal :=
  s.amo sc d a b x scope o wide .cas

/-- `amomin` (R153). -/
def execAmomin (sc : Sched) (d a b : Opnd) (scope : Scope) (o : MOrd) (wide : Bool) (s : State) :
    Host.Outcome State Fault Refusal :=
  s.amo sc d a b (.sp 0) scope o wide .min

/-- `amomax` (R153). -/
def execAmomax (sc : Sched) (d a b : Opnd) (scope : Scope) (o : MOrd) (wide : Bool) (s : State) :
    Host.Outcome State Fault Refusal :=
  s.amo sc d a b (.sp 0) scope o wide .max

/-- `amominn` (R153). -/
def execAmominn (sc : Sched) (d a b : Opnd) (scope : Scope) (o : MOrd) (wide : Bool) (s : State) :
    Host.Outcome State Fault Refusal :=
  s.amo sc d a b (.sp 0) scope o wide .minn

/-- `amomaxn` (R153). -/
def execAmomaxn (sc : Sched) (d a b : Opnd) (scope : Scope) (o : MOrd) (wide : Bool) (s : State) :
    Host.Outcome State Fault Refusal :=
  s.amo sc d a b (.sp 0) scope o wide .maxn

/-- `amoand` (R153). -/
def execAmoand (sc : Sched) (d a b : Opnd) (scope : Scope) (o : MOrd) (wide : Bool) (s : State) :
    Host.Outcome State Fault Refusal :=
  s.amo sc d a b (.sp 0) scope o wide .and

/-- `amoor` (R153). -/
def execAmoor (sc : Sched) (d a b : Opnd) (scope : Scope) (o : MOrd) (wide : Bool) (s : State) :
    Host.Outcome State Fault Refusal :=
  s.amo sc d a b (.sp 0) scope o wide .or

/-- `amoxor` (R153). -/
def execAmoxor (sc : Sched) (d a b : Opnd) (scope : Scope) (o : MOrd) (wide : Bool) (s : State) :
    Host.Outcome State Fault Refusal :=
  s.amo sc d a b (.sp 0) scope o wide .xor

/-! ## Fences (R159 to R161) -/

/-- The path of a copy kind: CP, GA or CO (R159). -/
def CopyKind.path : CopyKind → Nat
  | .cpy | .cpymc => 2
  | .cpyg | .cpys => 3
  | .cpred => 5

/-- An identifier lies before another (R285). -/
def idBefore (a b : Word) : Bool := decide (2 ^ 31 ≤ (a - b).toNat)

/-- The requests of a channel that stand before an identifier. -/
def Chan.before (c : Chan) (id : Word) : List Copy := (c.queue ++ c.started).filter fun x => idBefore x.id id

/-- The agent has issued an operation of the engine, alone or as a member of a joint one (R191). -/
def EngOp.issuedBy (o : EngOp) (a : AgentId) : Bool := o.owner == a || o.members.any fun m => m.1 == a

/-- The engine still holds operations of a number below `n` that a test picks out, or output pieces of theirs (R159,
R160). -/
def Bank.engBefore (b : Bank) (n : Nat) (p : EngOp → Bool) (q : OutP → Bool) : Bool :=
  (b.eng.any fun o => decide (o.uid < n) && p o)
    || b.streams.toList.any fun x => x.outq.any fun e => decide (e.seq < n) && q e

/-- What a fence over copy paths and perhaps the engine finds when it begins: the channels through which the access
processor has requests on the paths, marked at their next identifier, and the engine's queue if the agent has requests
there, marked at the next number (R159). -/
def State.markers (s : State) (paths : List Nat) (mx : Bool) : List (BitVec 2 × Word) × Option Nat :=
  let cs := if s.onAp then channels.filter fun ch =>
      let c := s.bank.chans[ch.toNat]
      (c.queue ++ c.started).any fun x => paths.contains x.kind.path
    else []
  let e := mx && s.bank.engBefore s.bank.uid (·.issuedBy s.turn) (·.agents.contains s.turn)
  (cs.map fun ch => (ch, s.bank.chans[ch.toNat].next), if e then some s.bank.uid else none)

/-- The markers of the fence at issue: those it began with, if it waits already. -/
def State.marksOf (s : State) (paths : List Nat) (mx : Bool) : List (BitVec 2 × Word) × Option Nat :=
  match s.cur.waiting with
  | some (.fence cs e, _) => (cs, e)
  | _ => s.markers paths mx

/-- A marker has not reached its queue's head: a request ahead of it has not retired, of whatever path it is (R159). -/
def State.marksWait (s : State) (m : List (BitVec 2 × Word) × Option Nat) : Bool :=
  (m.1.any fun c => !((s.bank.chans[c.1.toNat]).before c.2).isEmpty)
    || match m.2 with
      | some n => s.bank.engBefore n (fun _ => true) (fun _ => true)
      | none => false

/-- Numbers of the copy paths in a set of `fence.m`: CP, GA, CO as `CopyKind.path` numbers them (R159). -/
def markPaths (p : BitVec 4) : List Nat := (setBits 4 p.toNat).map (· + 2)

/-- `fence.m`: the agent waits until every marker has reached its queue's head; its gathers and scatters are performed
(R159, R166). -/
def execFenceM (p : BitVec 4) (s : State) : Host.Outcome State Fault Refusal :=
  let m := s.marksOf (markPaths p) (p.getLsbD 2)
  s.finish
    (if s.marksWait m then .error (.wait (.fence m.1 m.2))
    else if p = 0 then .ok s
    else
      .ok (s.fenceMarks (p.getLsbD 1)))

/-- Requests on the paths of a set that the agent made before the fence began are not performed yet (R160). -/
def State.pathsWait (s : State) (a : BitVec 7) (m : List (BitVec 2 × Word) × Option Nat) : Bool :=
  (m.1.any fun c =>
      ((s.bank.chans[c.1.toNat]).before c.2).any fun x => a.getLsbD x.kind.path)
    || match m.2 with
      | some n => s.bank.engBefore n (·.issuedBy s.turn) (·.agents.contains s.turn)
      | none => false

/-- `fence.x`: the accesses on the paths of `a` are performed before it completes, and those on the paths of `b` come after
it (R160, R166); an empty set makes it do nothing. -/
def execFenceX (scope : Scope) (a b : BitVec 7) (s : State) : Host.Outcome State Fault Refusal :=
  if a = 0 ∨ b = 0 then s.finish (.ok s)
  else
    let m := s.marksOf ([2, 3, 5].filter fun i => a.getLsbD i) (a.getLsbD 4)
    (s.finishWaiting (inSet a))
      (if s.pathsWait a m then .error (.wait (.fence m.1 m.2)) else .ok (s.fenceOwn scope a b))

/-- `acq.all` (R161, R171). -/
def execAcqAll (scope : Scope) (s : State) : Host.Outcome State Fault Refusal := s.finish (.ok (s.acquireAll scope))

/-- `rel.all` (R161, R166). -/
def execRelAll (scope : Scope) (s : State) : Host.Outcome State Fault Refusal :=
  s.finishWaiting (· == .own) (.ok (s.releaseAll scope))

/-! ## Bindings (R158) -/

/-- The table of the context's bindings. -/
def State.bindings (s : State) : List (Nat × DWord × DWord × Nat) := s.ctxs[s.cx.toNat].binds

/-- What `bind` delivers, and the table after it (R158). -/
def bindStep (t : List (Nat × DWord × DWord × Nat)) (a b : DWord) (x : Nat) :
    Word × List (Nat × DWord × DWord × Nat) :=
  if a.toNat % 8 ≠ 0 ∨ b.toNat % 64 ≠ 0 ∨ x = 0 ∨ x % 64 ≠ 0 ∨ 2 ^ 31 < x then (0xFFFFFFFE, t)
  else
    match t.find? fun e => e.2 == (a, b, x) with
    | some e => (BitVec.ofNat 32 e.1, t)
    | none =>
      match (List.range 256).find? fun i => !t.any fun e => e.1 == i with
      | some i => (BitVec.ofNat 32 i, t ++ [(i, a, b, x)])
      | none => (0xFFFFFFFF, t)

/-- What `unbind` delivers, and the table after it: the lowest matching index goes (R158). -/
def unbindStep (t : List (Nat × DWord × DWord × Nat)) (a b : DWord) : Word × List (Nat × DWord × DWord × Nat) :=
  match (List.range 256).find? fun i => t.any fun e => e.1 == i && e.2.1 == a && e.2.2.1 == b with
  | some i => (BitVec.ofNat 32 i, t.filter fun e => e.1 != i)
  | none => (0xFFFFFFFF, t)

/-- `bind` (R158). The table changes at issue: a release by the same agent before issue + L, of which the manual does not speak,
uses the changed table already. DESIGN CHOICE, log 68. -/
def execBind (sc : Sched) (d a b x : Opnd) (s : State) : Host.Outcome State Fault Refusal :=
  s.finish do
    let u ← s.rd64 a
    let v ← s.rd64 b
    let n ← s.rd32 x
    let r := bindStep s.bindings u v n.toNat
    pure ((s.mapCtx s.cx fun c => { c with binds := r.2 }).put sc d 32 r.1)

/-- `unbind` (R158). -/
def execUnbind (sc : Sched) (d a b : Opnd) (s : State) : Host.Outcome State Fault Refusal :=
  s.finish do
    let u ← s.rd64 a
    let v ← s.rd64 b
    let r := unbindStep s.bindings u v
    pure ((s.mapCtx s.cx fun c => { c with binds := r.2 }).put sc d 32 r.1)

/-! ## VMEM (R154 to R156) -/

/-- The active lanes of a mask, rising. -/
def lanesOf (m : BitVec 16) : List Nat := (List.range 16).filter fun i => m.getLsbD i

/-- Checks every active lane's access, lowest lane first: the keys (R146, R147). -/
def State.accessLanes (s : State) (k : AKind) (w : Nat) (addr : Nat → DWord) : List Nat → Except Stop (List (Nat × Nat))
  | [] => .ok []
  | i :: is =>
    match s.access k (addr i) w i with
    | .error e => .error e
    | .ok key =>
      match s.accessLanes k w addr is with
      | .error e => .error e
      | .ok ks => .ok ((i, key) :: ks)

/-- The vector a load of lanes delivers: active lanes zero-extended as the path sees them, the others 0 (R155, R171). -/
def State.lanesVec (s : State) (path : Path) (w : Nat) (ks : List (Nat × Nat)) : Vec :=
  mkVec fun i =>
    match ks.lookup i with
    | some key => BitVec.ofNat 32 (ofBytes (s.view path key w))
    | none => 0

/-- The mark of a vector result, with its lane: that of its lowest marked lane (R145). -/
def State.lanesMark (s : State) (path : Path) (w : Nat) (addr : Nat → DWord) (ks : List (Nat × Nat)) : Option (Nat × Mark) :=
  ks.findSome? fun p => (s.readMark path (addr p.1) p.2 w).map fun m => (p.1, m)

/-- The lowest lane whose write is not served; of the errors of one instruction it alone is reported (R147). -/
def State.refusedLane (s : State) (ks : List (Nat × Nat)) : Option Nat :=
  (ks.find? fun p => !s.served p.2 true).map (·.1)

/-- The granule of a key is written whole by lanes of one aligned `vst`, all of which are served (R144). -/
def State.wholeGranule (s : State) (whole : Bool) (ks : List (Nat × Nat)) : Bool := whole && (s.refusedLane ks).isNone

/-- Stores of lanes, ascending (R144, R147, R155, R156). -/
def State.storeLanes (s : State) (path : Path) (w : Nat) (addr : Nat → DWord) (v : Vec) (whole : Bool)
    (ks : List (Nat × Nat)) : State :=
  let bad := s.refusedLane ks
  let clean := s.wholeGranule whole ks
  (ks.foldl (fun t p =>
    if s.served p.2 true || bad == some p.1 then
      t.storePlain path (addr p.1) p.2 p.1 (clean && decide (p.1 = 15)) (bytesOf w (lane v p.1).toNat)
    else t) s).usedLate

/-- The walks of the lanes' pages are noted (R31). -/
def State.noteLanes (s : State) (addr : Nat → DWord) (ks : List (Nat × Nat)) : State :=
  ks.foldl (fun t p => t.noteWalk (addr p.1)) s

/-- The lanes that a load reads later: those that the outside names, and every lane of a location that a lane before it reads
later (R162, R166). -/
def State.lateLanes (s : State) (w : Nat) (ks : List (Nat × Nat)) : List (Nat × Nat) :=
  ks.foldl (fun l p => if s.lateRead p.1 || l.any (fun q => meets q.2 w p.2 w) then l ++ [p] else l) []

/-- A load of lanes from addresses, on the agent's own path or on path GA; some may be read later (R162, R166). -/
def State.loadLanes (s : State) (path : Path) (sc : Sched) (d : Opnd) (nominal w : Nat) (addr : Nat → DWord) (m : BitVec 3) :
    Except Stop State := do
  let ks ← s.accessLanes .read w addr (lanesOf (s.cur.mask m))
  let s := ks.foldl (fun t p => t.beforeRead path p.2 w) (s.noteLanes addr ks)
  let ls := s.lateLanes w ks
  let mark := s.lanesMark path w addr (ks.filter fun p => !ls.contains p)
  let late := ls.map fun p => (p.1, addr p.1, p.2)
  pure ((s.readLater path s.bank.uid true w late mark).putVM sc d nominal (s.lanesVec path w ks) (mark.map (·.2)))

/-- Addresses of consecutive elements (R155). -/
def rowAddr (va : DWord) (w : Nat) (i : Nat) : DWord := va + BitVec.ofNat 64 (w * i)

/-- `vld` (R155). -/
def execVld (sc : Sched) (d : Opnd) (bp : BitVec 4) (sz : VSize) (m : BitVec 3) (off : BitVec 24) (s : State) :
    Host.Outcome State Fault Refusal :=
  s.finish do
    let base ← s.rdBase bp
    s.loadLanes .own sc d 6 sz.bytes (rowAddr (effAddr base off) sz.bytes) m

/-- One `vst` writes a whole aligned granule (R144). -/
def isWhole (sz : VSize) (act : BitVec 16) (va : DWord) : Bool :=
  decide (sz = .full) && act == 0xFFFF && decide (va.toNat % 64 = 0)

/-- `vst` (R155). -/
def execVst (d : Opnd) (bp : BitVec 4) (sz : VSize) (m : BitVec 3) (off : BitVec 24) (s : State) :
    Host.Outcome State Fault Refusal :=
  s.finish do
    let base ← s.rdBase bp
    let v ← s.rdV 1 d
    let va := effAddr base off
    let ks ← s.accessLanes .write sz.bytes (rowAddr va sz.bytes) (lanesOf (s.cur.mask m))
    pure ((s.noteLanes (rowAddr va sz.bytes) ks).storeLanes .own sz.bytes (rowAddr va sz.bytes) v
      (isWhole sz (s.cur.mask m) va) ks)

/-- Addresses of gathered elements (R156). -/
def gatherAddr (base : DWord) (off : BitVec 17) (w : Nat) (idx : Vec) (i : Nat) : DWord :=
  base + off.signExtend 64 + BitVec.ofNat 64 (w * (lane idx i).toNat)

/-- `vldg` (R156). -/
def execVldg (sc : Sched) (d : Opnd) (bp : BitVec 4) (sz : VSize) (m : BitVec 3) (idx : Opnd) (off : BitVec 17)
    (s : State) : Host.Outcome State Fault Refusal :=
  s.finish do
    let base ← s.rdBase bp
    let ix ← s.rdV 1 idx
    s.loadLanes .ga sc d 12 sz.bytes (gatherAddr base off sz.bytes ix) m

/-- `vsts` (R156). -/
def execVsts (d : Opnd) (bp : BitVec 4) (sz : VSize) (m : BitVec 3) (idx : Opnd) (off : BitVec 17) (s : State) :
    Host.Outcome State Fault Refusal :=
  s.finish do
    let base ← s.rdBase bp
    let ix ← s.rdV 1 idx
    let v ← s.rdV 1 d
    let ks ← s.accessLanes .write sz.bytes (gatherAddr base off sz.bytes ix) (lanesOf (s.cur.mask m))
    pure ((s.noteLanes (gatherAddr base off sz.bytes ix) ks).storeLanes .ga sz.bytes (gatherAddr base off sz.bytes ix) v
      false ks)

end Sys2Proof.Machine
end

