-- ==== Sys2Proof/Machine/Sched.lean ====
section
/-! DEFINITION. Queues, scheduling, events and priority queues: XQ, SCHED, EVT and PQ (R298 to R324). -/

namespace Sys2Proof.Machine

/-! ## XQ (R298 to R300) -/

/-- The clusters a put names (R299). -/
def putTargets (cl : BitVec 2) (all : Bool) : List AgentId :=
  if all then [0, 1, 2, 3] else [⟨cl.toNat, by have := cl.isLt; omega⟩]

/-- A put to clusters: a halted one raises cause 0x14, a full queue stalls it, and then all are put in one cycle
(R299). -/
def State.putAll (s : State) (ts : List AgentId) (full : Agent → Bool) (f : Agent → Agent) : Except Stop State :=
  if ts.any fun t => (s.agent t).halted then s.trapNow 0x14 0x10 0
  else if ts.any fun t => full (s.agent t) then .error (.wait .full)
  else .ok (ts.foldl (fun s t => s.mapAgent t f) s)

/-- Entries of data queue `n` of an agent. -/
def Agent.xqOf (a : Agent) (n : BitVec 2) : List DWord := a.xq.getD n.toNat []

/-- `qput` (R299). -/
def execQput (n : BitVec 2) (cl : BitVec 2) (all : Bool) (a : Opnd) (s : State) : Host.Outcome State Fault Refusal :=
  s.finish do
    let v ← s.rd64 a
    s.putAll (putTargets cl all) (fun g => decide (64 ≤ (g.xqOf n).length))
      fun g => { g with xq := g.xq.setIfInBounds n.toNat (g.xqOf n ++ [v]) }

/-- `bqput` (R299). -/
def execBqput (cl : BitVec 2) (all : Bool) (a : Opnd) (s : State) : Host.Outcome State Fault Refusal :=
  s.finish do
    let v ← s.rd32 a
    s.putAll (putTargets cl all) (fun g => decide (64 ≤ g.bq.length)) fun g => { g with bq := g.bq ++ [v != 0] }

/-- `qget` (R299). -/
def execQget (sc : Sched) (d : Opnd) (n : BitVec 2) (s : State) : Host.Outcome State Fault Refusal :=
  s.finish
    (match s.cur.xqOf n with
    | [] => .error (.wait .xq)
    | v :: vs => .ok ((s.mapCur fun g => { g with xq := g.xq.setIfInBounds n.toNat vs }).put64 sc d 3 v))

/-- `qlvl` (R299). -/
def execQlvl (sc : Sched) (d : Opnd) (n : BitVec 2) (isBq : Bool) (s : State) : Host.Outcome State Fault Refusal :=
  s.finish (.ok
    (s.put sc d 2 (BitVec.ofNat 32 (if isBq then s.cur.bq.length else (s.cur.xqOf n).length))))

/-! ## SCHED (R316 to R319) -/

/-- Checks 1 to 5 and the freezes of an access in a context's address space, for the agent at issue (R147, R317). -/
def State.accessIn (s : State) (cx : BitVec 6) (run : Option Run) (k : AKind) (va : DWord) (w : Nat) : Except Stop Nat :=
  match s.locate cx run k va.toNat w with
  | .bad c => .error (.trap { s.trapAt c (accessSub k 0) va with late := s.lateness cx va.toNat })
  | .miss => s.walkStop cx va.toNat
  | .at key => s.reachKey k key w

/-- A record that an instruction reads and whose status it writes: its key, or the exact stop of the check that fails
(R303, R316, R317). DEDUCED, log 24. -/
def State.recordAt (s : State) (cx : BitVec 6) (run : Option Run) (va : DWord) : Except Stop Nat :=
  match s.accessIn cx run .read va 64 with
  | .error e => .error e
  | .ok key =>
    if (s.mem.poisonAt key 64).isSome then s.trapNow 0x09 (accessSub .read 0) (granuleOf va)
    else if !s.served key false then s.trapNow 0x0A (accessSub .read 0) va
    else
      match s.accessIn cx run .write va 64 with
      | .error e => .error e
      | .ok _ => if s.served key true then .ok key else s.trapNow 0x0A (accessSub .write 0) va

/-- Block address of an F-Q instruction: base pair plus an unsigned offset (R45). -/
def blockAddr (base : DWord) (off : BitVec 24) : DWord := base + off.setWidth 64

/-- The die a `spawn` or `launch` names: 31 is the own die (R316). -/
def State.dieOf (s : State) (x : BitVec 5) : Nat := if x = 31 then s.die else x.toNat

/-- A push by an instruction: the status value of R303, and what an accepted record does (R317). -/
def State.pushRecord (s : State) (d : Opnd) (cx : BitVec 6) (va : DWord) (key die : Nat) : State :=
  let bs := s.rd key 64
  let st := recordStatus bs (decide (8192 ≤ s.storeCount die))
  if st ≠ 0 then s.putToken d false (BitVec.ofNat 64 st)
  else if 24 ≤ die then s.putToken d false 0xFFFFFFFD
  else (s.enqueue cx va key die bs none).putToken d false 0

/-- `spawn` (R316, R317): the push acts as `rel.all.pkg`. -/
def execSpawn (d : Opnd) (bp : BitVec 4) (off : BitVec 24) (a : Opnd) (s : State) : Host.Outcome State Fault Refusal :=
  s.finishWaiting (· == .own) do
    let s := (s.releaseAll .pkg).surface s.turn
    let base ← s.rdBase bp
    let x ← s.rd32 a
    let va := blockAddr base off
    let key ← s.recordAt s.cx s.bank.run va
    pure (s.pushRecord d s.cx va key (s.dieOf (x.setWidth 5)))

/-- May the run launch into this context (R317)? -/
def State.launchOk (s : State) (cx : BitVec 6) : Bool :=
  s.supervisor && s.ctxs[cx.toNat].defined && s.ctxs[cx.toNat].part == s.part

/-- `launch` (R316, R317): the push acts as `rel.all.pkg`. -/
def execLaunch (d : Opnd) (bp : BitVec 4) (off : BitVec 24) (a : Opnd) (s : State) : Host.Outcome State Fault Refusal :=
  s.finishWaiting (· == .own) do
    let s := (s.releaseAll .pkg).surface s.turn
    let base ← s.rdBase bp
    let x ← s.rd32 a
    let cx : BitVec 6 := x.setWidth 6
    let va := blockAddr base off
    if !s.launchOk cx then s.trapNow 0x07 0 0
    else
      let key ← s.recordAt cx none va
      pure (s.pushRecord d cx va key (s.dieOf (x.extractLsb' 8 5)))

/-- The record whose home is `key`. -/
def State.recAtHome (s : State) (key : Nat) : Option SRec := s.recs.find? fun r => r.home == key

/-- `join` once its record is known: a counter that is not zero falls by one, and the scheduler looks at it at the cycle's end
(R307, R318); poison marks the token as it does an atomic's result (R145). -/
def State.joinAt (s : State) (d : Opnd) (va : DWord) (key : Nat) : State :=
  let old := s.rdNat (key + 0x1C) 4
  match s.atomicMark s.turn va key 64 with
  | some m =>
    let s := if d.discards then s.defer .own m.addr m.cause .atomic 0 else s
    s.deliver .token d false (BitVec.ofNat 64 old) 0 (.at (s.pt + 1)) 0 (if d.discards then none else some m)
  | none =>
    let s := if old = 0 then s else s.storeNow .atomic va (key + 0x1C) (bytesOf 4 (old - 1))
    s.putToken d false (BitVec.ofNat 64 old)

/-- `join` (R316, R318): an atomic of acquire-release order at package scope on the counter's sync object. -/
def execJoin (d : Opnd) (bp : BitVec 4) (off : BitVec 24) (s : State) : Host.Outcome State Fault Refusal :=
  s.finishWaiting (· == .own) do
    let base ← s.rdBase bp
    let va := blockAddr base off
    let key ← s.access .atomic va 64 0
    let obj := key + 0x18
    let s := ((s.reading .own va key 64).atHome key 64).release .pkg (va + 0x18) obj
    pure ((s.joinAt d va key).acquire .pkg obj)

/-- A slice that software has unparked is none that a withheld record still holds (R319, R335). -/
def State.unheld (s : State) (cx : BitVec 6) (addr : DWord) : State :=
  s.mapPart s.ctxs[cx.toNat].part fun p =>
    { p with withheld := p.withheld.map fun w => if w.slice = some (cx, addr) then { w with slice := none } else w }

/-- A parked record of the partition goes into the ready set (R319): the token's value, and the state. -/
def State.unparkAt (s : State) (p : BitVec 4) (key : Nat) : DWord × State :=
  match s.recAtHome key with
  | some r =>
    if r.state = 4 ∧ s.ctxs[r.ctx.toNat].part = p then
      (0, (s.moveRec r.ctx r.addr 2 r.last.1 r.last.2 0).unheld r.ctx r.addr)
    else (1, s)
  | none => (1, s)

/-- `unpark` (R316, R319). -/
def execUnpark (d : Opnd) (bp : BitVec 4) (off : BitVec 24) (s : State) : Host.Outcome State Fault Refusal :=
  s.finish do
    let base ← s.rdBase bp
    let va := blockAddr base off
    if !s.supervisor then s.trapNow 0x07 0 0
    else
      let key ← s.recordAt s.cx s.bank.run va
      let r := s.unparkAt s.part key
      pure (r.2.putToken d false r.1)

/-- The bundle ends the run (R313). -/
def State.endBy (s : State) (y : Option DWord) : State := s.mapBun fun b => { b with ends := some y }

/-- `yield`: ends the run; A replaces the deadline when it is not zero (R313, R316). -/
def execYield (a : Opnd) (s : State) : Host.Outcome State Fault Refusal :=
  s.finishOrdered do
    let v ← s.rd64 a
    pure ((s.releaseAll .pkg).endBy (some v))

/-- `slend`: ends the run (R313, R316). -/
def execSlend (s : State) : Host.Outcome State Fault Refusal :=
  s.finishOrdered (.ok ((s.releaseAll .pkg).endBy none))

/-! ## EVT (R306 to R308, R320, R321) -/

/-- The mask of one event bit: A[7:0] (R320). -/
def eventBit (x : Word) : BitVec 256 := 1 <<< (x.toNat % 256)

/-- Marks bits of the run's set mask as signalled (R314, R320). -/
def State.signal (s : State) (b : BitVec 256) : State :=
  s.mapRun fun r => { r with signalled := r.signalled ||| (b &&& r.snap.setMask) }

/-- `evset` and `evset.err`: the bit is set as `rel.all.pkg` orders it (R308, R320). DEDUCED, log 23. -/
def State.eventSet (s : State) (a : Opnd) (err : Bool) : Host.Outcome State Fault Refusal :=
  s.finishWaiting (· == .own) do
    let x ← s.rd32 a
    let b := eventBit x
    let e := if err then b else 0
    let s := s.releaseAll .pkg
    pure ((s.setEvents s.cx b e).signal b)

/-- `evset` (R320). -/
def execEvset (a : Opnd) (s : State) : Host.Outcome State Fault Refusal := s.eventSet a false

/-- `evset.err` (R320). -/
def execEvsetErr (a : Opnd) (s : State) : Host.Outcome State Fault Refusal := s.eventSet a true

/-- `evclr`: the bit and its companion; of the updates of one cycle clears come first, then sets (R308, R320). -/
def execEvclr (a : Opnd) (s : State) : Host.Outcome State Fault Refusal :=
  s.finish do
    let x ← s.rd32 a
    pure (s.clearEvents s.cx (eventBit x))

/-- bit + 2 x error companion (R320). -/
def State.eventVal (s : State) (x : Word) : Word :=
  let c := s.ctxs[s.cx.toNat]
  BitVec.ofNat 32 (bit (c.ev.getLsbD (x.toNat % 256)) + 2 * bit (c.err.getLsbD (x.toNat % 256)))

/-- `evwait`: stalls at issue until the bit is set; then it acts as `acq.all.pkg` (R308, R320). -/
def execEvwait (sc : Sched) (d a : Opnd) (s : State) : Host.Outcome State Fault Refusal :=
  s.finish do
    let x ← s.rd32 a
    if s.ctxs[s.cx.toNat].ev.getLsbD (x.toNat % 256) then
      pure ((s.acquireAll .pkg).put sc d 8 (s.eventVal x))
    else .error (.wait .event)

/-- `evtest`: one that finds the bit set acts as `acq.all.pkg` (R308, R320). -/
def execEvtest (sc : Sched) (d a : Opnd) (s : State) : Host.Outcome State Fault Refusal :=
  s.finish do
    let x ← s.rd32 a
    let s := if s.ctxs[s.cx.toNat].ev.getLsbD (x.toNat % 256) then s.acquireAll .pkg else s
    pure (s.put sc d 8 (s.eventVal x))

/-- An agent has reached the barrier or counts as arrived because it has halted (R321). -/
def Agent.atBarrier (a : Agent) (g : Bool) : Bool := a.halted || a.barrier == some (g, false)

/-- Every other agent of the core has reached the barrier (R321). DEDUCED, log 1. -/
def State.allArrived (s : State) (g : Bool) : Bool :=
  (List.finRange 5).all fun i => i == s.turn || (s.agent i).atBarrier g

/-- An agent that has reached the barrier may leave it (R321). -/
def Agent.release (a : Agent) (g : Bool) : Agent :=
  if a.barrier = some (g, false) then { a with barrier := some (g, true) } else a

/-- Changes every agent of the core's active bank. -/
def State.mapAgents (s : State) (f : Agent → Agent) : State :=
  s.mapBank fun b => { b with agents := b.agents.map f }

/-- Every agent's earlier accesses on its own path come before the later ones of any, in the core or in the gang's package; what
path MX has read early stands, as R377 has it (R321). DESIGN CHOICE, log 60. -/
def State.barrierOrder (s : State) (g : Bool) : State :=
  let r := if g then 3 else 1
  let s := (s.readsWhere fun x _ => x.path == .own).publish r fun e => e.path == .own
  { s with held := s.held.filter fun h => !(h.path != .mx && h.covered && h.staleAt r) }

/-- The agent leaves the barrier; the last to arrive lets the others leave (R321). -/
def State.leaveBar (s : State) (g : Bool) : State :=
  if s.cur.barrier = some (g, true) then s.mapCur fun a => { a with barrier := none }
  else
    ((s.barrierOrder g).mapAgents (·.release g)).mapCur fun a => { a with barrier := none }

/-- A member core of the run's gang outside the model has not come as far (R313, R321). -/
def State.peersBehind (s : State) : Bool := (s.bank.run.map fun r => r.behind).getD false

/-- `bar` and `bar.g`: waits for the others (R321). -/
def State.barrierOf (s : State) (g : Bool) : Except Stop State :=
  if s.cur.barrier = some (g, true) ∨ (s.allArrived g && !(g && s.peersBehind)) then .ok (s.leaveBar g)
  else .error (.wait (.barrier g))

/-- `bar` (R321). -/
def execBar (s : State) : Host.Outcome State Fault Refusal := s.finish (s.barrierOf false)

/-- `bar.g` (R321): the agents of the other member cores are outside the model, and count as arrived unless the outside says
that they are behind. DESIGN CHOICE, log 1. -/
def execBarG (s : State) : Host.Outcome State Fault Refusal := s.finish (s.barrierOf true)

/-! ## PQ (R322, R323) -/

/-- The partition may use the unit (R322). -/
def State.unitOk (s : State) (n : BitVec 3) : Bool := n != 0 && s.parts[s.part.toNat].pqs.getLsbD n.toNat

/-- Entries of a unit of the core's die. -/
def State.unit (s : State) (n : BitVec 3) : List (DWord × DWord) := s.pqs.getD n.toNat []

/-- `pqpush`: one that is accepted acts as `rel.all.die` (R322, R323). -/
def execPqpush (sc : Sched) (d b x : Opnd) (n : BitVec 3) (s : State) : Host.Outcome State Fault Refusal :=
  s.finishWaiting (· == .own) do
    let k ← s.rd64 b
    let v ← s.rd64 x
    if !s.unitOk n then s.trapNow 0x07 0 0
    else if v = BitVec.allOnes 64 ∨ 4096 ≤ (s.unit n).length then pure (s.put sc d 32 1)
    else
      let s := s.releaseAll .die
      pure ({ s with pqs := s.pqs.setIfInBounds n.toNat (s.unit n ++ [(k, v)]) }.put sc d 32 0)

/-- Window of `pqpop`: 0 taken as 1, above 8 taken as 8 (R107, R322). -/
def popWindow (w : Word) : Nat :=
  let x := w.toNat % 16
  if x = 0 then 1 else min x 8

/-- Puts an index into a list of indices that rises by key; ties stay in push order (R322). -/
def byKey (l : List (DWord × DWord)) (i : Nat) : List Nat → List Nat
  | [] => [i]
  | j :: js =>
    if (l.getD i (0, 0)).1.toNat < (l.getD j (0, 0)).1.toNat then i :: j :: js else j :: byKey l i js

/-- The indices of a unit's entries by rising key, ties by push order (R322). -/
def keyOrder (l : List (DWord × DWord)) : List Nat :=
  (List.range l.length).foldl (fun acc i => byKey l i acc) []

/-- The outside's choice among `n` things, and the choices left. DESIGN CHOICE, log 9. -/
def Oracle.choose (o : Oracle) (n : Nat) : Nat × Oracle :=
  match o.pick with
  | [] => (0, o)
  | x :: xs => (if n = 0 then 0 else x % n, { o with pick := xs })

/-- `pqpop`: one of the w smallest keys, w read at issue; it acts as `acq.all.die` when it returns its entry (R322,
R323). -/
def execPqpop (sc : Sched) (d : Opnd) (n : BitVec 3) (s : State) : Host.Outcome State Fault Refusal :=
  s.finish
    (if !s.unitOk n then s.trapNow 0x07 0 0
    else
      let l := s.unit n
      if l.isEmpty then .ok (s.put64 sc d 32 (BitVec.allOnes 64))
      else
        let ks := (keyOrder l).take (popWindow s.bank.pqwin)
        let c := s.oracle.choose ks.length
        let i := ks.getD c.1 0
        let v := (l.getD i (0, 0)).2
        let s := s.acquireAll .die
        .ok ({ s with oracle := c.2, pqs := s.pqs.setIfInBounds n.toNat (l.eraseIdx i) }.put64 sc d 32 v))

/-- `pqlen` (R322). -/
def execPqlen (sc : Sched) (d : Opnd) (n : BitVec 3) (s : State) : Host.Outcome State Fault Refusal :=
  s.finish
    (if !s.unitOk n then s.trapNow 0x07 0 0
    else .ok (s.put sc d 32 (BitVec.ofNat 32 (s.unit n).length)))

end Sys2Proof.Machine
end

