-- ==== Sys2Proof/Machine/Tensors.lean ====
section
/-! DEFINITION. Open tensors and what the rules do to their marks (R202 to R205, R211, R213), blocks read at issue, and
work of the bank that a service has put aside (R341). -/

namespace Sys2Proof.Machine

/-! ## Descriptors (R202 to R204) -/

/-- Ring storage. -/
def OSlot.ring (o : OSlot) : Bool := o.flags.testBit 0
/-- Software also consumes. -/
def OSlot.isSoft (o : OSlot) : Bool := o.flags.testBit 1
/-- Fed by a stream. -/
def OSlot.fed (o : OSlot) : Bool := o.flags.testBit 2
/-- The feeding stream. -/
def OSlot.feed (o : OSlot) : Nat := o.flags / 256 % 16
/-- Elements of the closed part of one open index (R204). -/
def OSlot.closed (o : OSlot) : Nat := match o.rank with | 0 => 1 | 1 => o.e0 | _ => o.e0 * o.e1
/-- Elements of a slice (R225). -/
def OSlot.elems (o : OSlot) : Nat := o.w * o.closed

/-- A slot of the core's active bank. -/
def Bank.slot (b : Bank) (k : BitVec 6) : OSlot := b.slots.getD k.toNat OSlot.init

/-- Changes a slot. -/
def Bank.mapSlot (b : Bank) (k : BitVec 6) (f : OSlot → OSlot) : Bank :=
  { b with slots := b.slots.setIfInBounds k.toNat (f (b.slot k)) }

/-! ## Marks (R205) -/

/-- The rule is installed: neither free nor revoked. -/
def Rule.live (r : Rule) : Bool := r.state != .idle && r.state != .revoked

/-- The open inputs of a rule (R211). -/
def Rule.inputs (r : Rule) : List (BitVec 6) := r.drive :: r.in1.toList

/-- The rules that consume a tensor (R205). -/
def Bank.consumers (b : Bank) (k : BitVec 6) : List Rule :=
  b.rules.toList.filter fun r => r.live && r.inputs.contains k

/-- The consume mark (R205): the least of its definition. An install of `omap`, whose next slice comes from its first input, may
so put the mark of its second input below what it was, where the rule also says that a mark never decreases. DESIGN CHOICE,
log 68. -/
def Bank.consumeMark (b : Bank) (k : BitVec 6) : Nat :=
  let o := b.slot k
  let ms := (b.consumers k).map (·.next) ++ (if o.isSoft then [o.soft] else [])
  match ms with
  | [] => o.loaded.getD o.fill
  | m :: ms => ms.foldl min m

/-- Room for `n` more slices (R205). -/
def Bank.room (b : Bank) (k : BitVec 6) (n : Nat) : Bool :=
  !(b.slot k).ring || decide ((b.slot k).fill + n ≤ (b.slot k).cap + b.consumeMark k)

/-! ## Blocks read at issue (R45, R287) -/

/-- A read on the agent's own path that stops exactly at any check that fails, poison and completion errors included
(R147): its key. -/
def State.exactRead (s : State) (va : DWord) (w : Nat) : Except Stop Nat :=
  match s.access .read va w 0 with
  | .error e => .error e
  | .ok key =>
    if (s.mem.poisonAt key w).isSome then s.trapNow 0x09 (accessSub .read 0) (granuleOf va)
    else if !s.served key false then s.trapNow 0x0A (accessSub .read 0) va
    else (s.unowed key w).map fun _ => key

/-- Reads a 64-byte block on the agent's own path: its key, or the exact stop of the check that fails (R147). -/
def State.blockAt (s : State) (va : DWord) : Except Stop Nat := s.exactRead va 64

/-- The agent reads `w` bytes at their home: its path's earlier writes there are performed before, and it holds no line of
them (R166, R171). -/
def State.atBlock (s : State) (va : DWord) (key w : Nat) : State := (s.reading .own va key w).atHome key w

/-- The instructions that a service slice may not issue raise cause 0x07 in it (R342). -/
def State.unserved (s : State) (r : Except Stop State) : Except Stop State :=
  if s.serving then s.trapNow 0x07 0 0 else r

/-! ## The bank whose work goes on (R341) -/

/-- The active bank and the shadow bank change places. -/
def State.swapped (s : State) : State :=
  match s.shadow with
  | some b => { s with bank := b, shadow := some s.bank }
  | none => s

/-- Runs an event of the copy channels or the engine on the bank of the interrupted context while a service slice runs,
else on the active bank. -/
def State.onWork (s : State) (f : State → State) : State :=
  if s.shadow.isSome then (f s.swapped).swapped else f s

end Sys2Proof.Machine
end

