-- ==== Sys2Proof/Machine/KvInstr.lean ====
section
/-! DEFINITION. Extent lists and the KV major (R246 to R254). -/

namespace Sys2Proof.Machine

/-! ## Extent lists (R246, R247) -/

/-- An entry of an extent list: base address, length in tokens, share count, block order. -/
structure Extent where
  base : Nat
  len : Nat
  share : Nat
  order : Nat
  deriving DecidableEq, Repr

/-- The fields of a 16-byte entry (R246). -/
def extentOf (bs : List Byte) : Extent := ⟨fieldOf bs 0 8, fieldOf bs 8 4, fieldOf bs 12 2 % 4096, fieldOf bs 14 1⟩

/-- The header of an extent list (R246). -/
structure ListHdr where
  count : Nat
  frozen : Bool
  total : Nat
  stride : Nat
  ty : Nat
  /-- some reserved byte is nonzero -/
  badByte : Bool
  /-- some reserved byte or bit is nonzero -/
  reserved : Bool
  deriving DecidableEq, Repr

/-- The fields of the 16-byte header (R246). -/
def listHdrOf (bs : List Byte) : ListHdr :=
  let bad := decide (fieldOf bs 2 2 ≠ 0) || decide (fieldOf bs 13 3 ≠ 0)
  { count := fieldOf bs 0 1
    frozen := (fieldOf bs 1 1).testBit 0
    total := fieldOf bs 4 4
    stride := fieldOf bs 8 4
    ty := fieldOf bs 12 1
    badByte := bad
    reserved := decide (fieldOf bs 1 1 / 2 ≠ 0) || bad }

/-- The capacity of some entries (R246). -/
def capacity (es : List Extent) : Nat := es.foldl (fun n e => n + e.len) 0

/-- The entry that holds a position, with the position in it (R247). -/
def findTok : List Extent → Nat → Option (Extent × Nat)
  | [], _ => none
  | e :: es, t => if t < e.len then some (e, t) else findTok es (t - e.len)

/-! ## Accesses of a KV instruction (R248) -/

/-- The list address: base pair and an unsigned offset (R248). -/
def listAddr (base : DWord) (off : BitVec 24) : DWord := base + off.setWidth 64

/-- Address of entry `e` (R246). -/
def entryAddr (va : DWord) (e : Nat) : DWord := va + BitVec.ofNat 64 (16 + 16 * e)

/-- A plain read of 16 bytes on the agent's own path that stops exactly: the state after it, and the bytes (R248). -/
def State.kvRead (s : State) (va : DWord) : Except Stop (State × List Byte) :=
  match s.exactRead va 16 with
  | .error e => .error e
  | .ok key =>
    let s := s.reading .own va key 16
    .ok (s, s.view .own key 16)

/-- Reads the header of a list. -/
def State.readHdr (s : State) (va : DWord) : Except Stop (State × ListHdr) :=
  match s.kvRead va with
  | .error e => .error e
  | .ok (s, bs) => .ok (s, listHdrOf bs)

/-- Reads entries from `e` on, `n` of them. -/
def State.readEntries (va : DWord) : Nat → Nat → State → Except Stop (State × List Extent)
  | 0, _, s => .ok (s, [])
  | n + 1, e, s =>
    match s.kvRead (entryAddr va e) with
    | .error x => .error x
    | .ok (s, bs) =>
      match State.readEntries va n (e + 1) s with
      | .error x => .error x
      | .ok (s, es) => .ok (s, extentOf bs :: es)

/-- A plain write of 16 bytes, element `i` of the instruction (R147, R162). -/
def State.kvPut (s : State) (va : DWord) (key i : Nat) (bs : List Byte) : State :=
  if s.served key true then s.request (s.lateMask.testBit i) ⟨s.turn, .own, va, 0, key, bs, false, none, s.workBank.uid, .plain⟩
  else s.defer .own va 0x0A .write 0

/-! ## `kvxl` (R249) -/

/-- What `kvxl` delivers: it reads entries until one holds the position (R249). -/
def State.translate (va : DWord) (stride : Nat) : Nat → Nat → Nat → State → Except Stop (State × DWord)
  | _, 0, _, s => .ok (s, BitVec.allOnes 64)
  | t, n + 1, e, s =>
    match s.kvRead (entryAddr va e) with
    | .error x => .error x
    | .ok (s, bs) =>
      let x := extentOf bs
      if t < x.len then
        .ok (s, if x.share = 0 then 0xFFFFFFFFFFFFFFFE else BitVec.ofNat 64 (x.base + t * stride))
      else State.translate va stride (t - x.len) n (e + 1) s

/-- `kvxl` (R249). -/
def execKvxl (sc : Sched) (d : Opnd) (bp : BitVec 4) (off : BitVec 24) (a : Opnd) (s : State) :
    Host.Outcome State Fault Refusal :=
  s.finish do
    let base ← s.rdBase bp
    let t ← s.rd32 a
    let va := listAddr base off
    let h ← s.readHdr va
    let v ← if 16 < h.2.count ∨ h.2.badByte then .ok (h.1, 0xFFFFFFFFFFFFFFFD)
      else State.translate va h.2.stride t.toNat h.2.count 0 h.1
    pure (v.1.put64 sc d 32 v.2)

/-! ## `kvfork` (R250) -/

/-- Two lists of 272 bytes overlap (R250). -/
def listsOverlap (a b : DWord) : Bool := decide (a.toNat < b.toNat + 272) && decide (b.toNat < a.toNat + 272)

/-- The keys of an entry that `kvfork` copies: its source and its destination; a share count that goes up is an atomic
access (R250). -/
def State.forkKeys (s : State) (src dst : DWord) (e : Nat) : Except Stop (Nat × Nat) :=
  match s.exactRead (entryAddr src e) 16 with
  | .error x => .error x
  | .ok k =>
    let x := extentOf ((s.reading .own (entryAddr src e) k 16).view .own k 16)
    let inc := if x.share = 0 ∨ x.share = 4095 then .ok 0
      else s.access .atomic (entryAddr src e + 12) 4 0
    match inc with
    | .error x => .error x
    | .ok _ =>
      match s.access .write (entryAddr dst e) 16 0 with
      | .error x => .error x
      | .ok k' => .ok (k, k')

/-- The keys of entries from `e` on. -/
def State.forkAll (s : State) (src dst : DWord) : Nat → Nat → Except Stop (List (Nat × Nat))
  | 0, _ => .ok []
  | n + 1, e =>
    match s.forkKeys src dst e with
    | .error x => .error x
    | .ok p =>
      match s.forkAll src dst n (e + 1) with
      | .error x => .error x
      | .ok ps => .ok (p :: ps)

/-- The bytes of an entry with another base and share count; the other fields as they stand. -/
def withShare (bs : List Byte) (base share : Nat) : List Byte :=
  bytesOf 8 base ++ (bs.drop 8).take 4 ++ bytesOf 2 (fieldOf bs 12 2 / 4096 * 4096 + share) ++ bs.drop 14

/-- AtomicInc12: a share count goes up at its home; the state, and the count after it (R153, R250). -/
def State.incShare (s : State) (va : DWord) (key : Nat) : State × Nat :=
  let s := s.atBlock va key 2
  let w := ofBytes (s.rd key 2)
  let n := (w + 1) % 4096
  (s.storeNow .atomic va key (bytesOf 2 (w / 4096 * 4096 + n)), n)

/-- Copies one entry: the state, and whether it was saturated (R250). -/
def State.forkEntry (s : State) (src dst : DWord) (e : Nat) (ks : Nat × Nat) : State × Bool :=
  let s := s.reading .own (entryAddr src e) ks.1 16
  let bs := s.view .own ks.1 16
  let x := extentOf bs
  let put := fun (s : State) (bs : List Byte) => (s.noteWalk (entryAddr dst e)).kvPut (entryAddr dst e) ks.2 e bs
  if x.share = 4095 then (put s (withShare bs 0 0), true)
  else if x.share = 0 then (put s bs, false)
  else
    let r := s.incShare (entryAddr src e + 12) (ks.1 + 12)
    (put r.1 (withShare bs x.base r.2), false)

/-- Copies the entries in order: the state and the mask of saturated ones (R250). -/
def State.forkEntries (src dst : DWord) : List (Nat × Nat) → Nat → State → Nat → State × Nat
  | [], _, s, m => (s, m)
  | k :: ks, e, s, m =>
    let r := s.forkEntry src dst e k
    State.forkEntries src dst ks (e + 1) r.1 (m + if r.2 then 2 ^ e else 0)

/-- `kvfork` once its operands are read: every access is checked before anything is written (R248, R250).
DEDUCED, log 58. -/
def State.fork (s : State) (sc : Sched) (d : Opnd) (src dst : DWord) : Except Stop State := do
  let k ← s.exactRead src 16
  let s := s.reading .own src k 16
  let h := listHdrOf (s.view .own k 16)
  if 16 < h.count ∨ listsOverlap src dst then pure (s.put sc d 60 0x80000000)
  else do
    let ks ← s.forkAll src dst h.count 0
    let kd ← s.access .write dst 16 0
    let r := State.forkEntries src dst ks 0 s 0
    let s := (r.1.noteWalk dst).beforeRead .own k 16
    pure (((s.kvPut dst kd 16 (s.view .own k 16)).usedLate).put sc d 60 (BitVec.ofNat 32 r.2))

/-- `kvfork` (R250). -/
def execKvfork (sc : Sched) (d : Opnd) (bp : BitVec 4) (off : BitVec 24) (a : Opnd) (s : State) :
    Host.Outcome State Fault Refusal :=
  s.finish do
    let base ← s.rdBase bp
    let dst ← s.rd64 a
    s.fork sc d (listAddr base off) dst

/-! ## `kvgrow` (R251) -/

/-- The last entry cannot take `n` more tokens (R251). -/
def needsBlock (h : ListHdr) (es : List Extent) (n : Nat) : Bool :=
  match es.getLast? with
  | none => true
  | some x => h.frozen || x.share == 0 || decide (1 < x.share) || decide (2 ^ x.order < x.len + n)

/-- `kvgrow` once its operands are read: the last entry is read and updated at its home (R251). -/
def State.grow (s : State) (sc : Sched) (d : Opnd) (va : DWord) (n : Nat) : Except Stop State := do
  let h ← s.readHdr va
  let s := h.1
  let h := h.2
  if 16 < h.count then pure (s.put sc d 32 0xFFFFFFFD)
  else do
    let r ← State.readEntries va h.count 0 s
    let s := r.1
    if h.count = 0 then pure (s.put sc d 32 0xFFFFFFFF)
    else do
      let at' := entryAddr va (h.count - 1)
      let key ← s.access .atomic at' 16 0
      let s := s.atBlock at' key 16
      let x := extentOf (s.rd key 16)
      let es := r.2.dropLast ++ [x]
      if needsBlock h es n then pure (s.put sc d 32 0xFFFFFFFF)
      else
        pure ((s.storeNow .atomic at' (key + 8) (bytesOf 4 (x.len + n))).put sc d 32
          (BitVec.ofNat 32 (capacity es + n)))

/-- `kvgrow` (R251). -/
def execKvgrow (sc : Sched) (d : Opnd) (bp : BitVec 4) (off : BitVec 24) (a : Opnd) (s : State) :
    Host.Outcome State Fault Refusal :=
  s.finish do
    let base ← s.rdBase bp
    let n ← s.rd32 a
    s.grow sc d (listAddr base off) n.toNat

/-! ## `kvcommit` (R252) -/

/-- `kvcommit` once its operands are read: a release of the path, then the update of the header word at its home (R252). -/
def State.commitTotal (s : State) (sc : Sched) (d : Opnd) (va : DWord) (t : Word) : Except Stop State := do
  let s := s.releaseAll .pkg
  let h ← s.readHdr va
  let s := h.1
  if 16 < h.2.count then pure (s.put sc d 32 0xFFFFFFFF)
  else do
    let es ← State.readEntries va h.2.count 0 s
    let s := es.1
    let key ← s.access .atomic va 8 0
    let s := s.atBlock va key 8
    if capacity es.2 < t.toNat then pure (s.put sc d 32 0xFFFFFFFF)
    else
      let old := BitVec.ofNat 32 (ofBytes (s.rd (key + 4) 4))
      pure (((s.release .pkg va key).storeNow .atomic va (key + 4) (bytesOf 4 t.toNat)).put sc d 32 old)

/-- `kvcommit`: it waits for the agent's earlier writes (R147, R161, R252). -/
def execKvcommit (sc : Sched) (d : Opnd) (bp : BitVec 4) (off : BitVec 24) (a : Opnd) (s : State) :
    Host.Outcome State Fault Refusal :=
  s.finishWaiting (· == .own) do
    let base ← s.rdBase bp
    let t ← s.rd32 a
    s.commitTotal sc d (listAddr base off) t

end Sys2Proof.Machine
end

