-- ==== Sys2Proof/Machine/Numbers.lean ====
section
/-! DEFINITION. Numbers: the float layouts, one rounding, the exact operations on floats, conversions, the functions
that are correctly rounded, group sums, base-2 normalisers and the random draw (R67 to R87). -/

namespace Sys2Proof.Machine

/-! ## Layouts (R68 to R70) -/

/-- A float layout: mantissa and exponent widths, bias, and whether it has infinities. -/
structure FFmt where
  mb : Nat
  eb : Nat
  bias : Nat
  hasInf : Bool
  deriving DecidableEq, Repr

/-- The layout of a float type (R68). -/
def ffmt : Ty → FFmt
  | .f16 => ⟨10, 5, 15, true⟩
  | .bf16 => ⟨7, 8, 127, true⟩
  | .e4m3 => ⟨3, 4, 7, false⟩
  | .e5m2 => ⟨2, 5, 15, true⟩
  | .f6 => ⟨2, 3, 3, false⟩
  | _ => ⟨23, 8, 127, true⟩

/-- Width in bits of an element (R46). -/
def tyBits : Ty → Nat
  | .i32 | .n32 | .f32 => 32
  | .i16 | .n16 | .f16 | .bf16 => 16
  | .i8 | .n8 | .e4m3 | .e5m2 => 8
  | .f6 => 6
  | .t3 => 2
  | .i64 => 64

/-- The canonical NaN of a type; f6 has none, and a NaN converts to +0 there (R68, R76). -/
def canonNaN : Ty → Nat
  | .f16 => 0x7E00
  | .bf16 => 0x7FC0
  | .e4m3 => 0x7F
  | .e5m2 => 0x7E
  | .f6 => 0
  | _ => 0x7FC00000

/-- The largest finite code of a type (R68). -/
def maxFinite : Ty → Nat
  | .f16 => 0x7BFF
  | .bf16 => 0x7F7F
  | .e4m3 => 0x7E
  | .e5m2 => 0x7B
  | .f6 => 0x1F
  | _ => 0x7F7FFFFF

/-- The code of infinity of a type that has one. -/
def infCode (t : Ty) : Nat := (2 ^ (ffmt t).eb - 1) * 2 ^ (ffmt t).mb

/-- The sign bit's weight. -/
def signBit (t : Ty) : Nat := 2 ^ ((ffmt t).eb + (ffmt t).mb)

/-- A code with a sign. -/
def withSign (t : Ty) (neg : Bool) (c : Nat) : Nat := if neg then c + signBit t else c

/-- The value of a float: a NaN (signalling or quiet), an infinity, or `m * 2^e` with a sign. -/
inductive FVal where
  | nan (sig : Bool)
  | inf (neg : Bool)
  | fin (neg : Bool) (m : Nat) (e : Int)
  deriving DecidableEq, Repr

/-- Reads a code (R68, R69, R70). -/
def fval (t : Ty) (x : Nat) : FVal :=
  let f := ffmt t
  let neg := x.testBit (f.eb + f.mb)
  let ex := x / 2 ^ f.mb % 2 ^ f.eb
  let m := x % 2 ^ f.mb
  let top := decide (ex = 2 ^ f.eb - 1)
  if top && f.hasInf then
    if m = 0 then .inf neg
    else .nan (decide (t ≠ .e5m2) && !m.testBit (f.mb - 1))
  else if top && t == .e4m3 && decide (m = 7) then .nan false
  else if ex = 0 then .fin neg m (1 - f.bias - f.mb)
  else .fin neg (2 ^ f.mb + m) ((ex : Int) - f.bias - f.mb)

/-- A NaN. -/
def FVal.isNaN : FVal → Bool
  | .nan _ => true
  | _ => false
/-- A signalling NaN. -/
def FVal.isSig : FVal → Bool
  | .nan s => s
  | _ => false
/-- The sign. -/
def FVal.neg : FVal → Bool
  | .nan _ => false
  | .inf n => n
  | .fin n _ _ => n
/-- A zero. -/
def FVal.isZero : FVal → Bool
  | .fin _ m _ => m == 0
  | _ => false
/-- The value with the opposite sign. -/
def FVal.negate : FVal → FVal
  | .nan s => .nan s
  | .inf n => .inf (!n)
  | .fin n m e => .fin (!n) m e

/-! ## Rounding (R75) -/

/-- Does a magnitude round up: kept part, remainder of `2^sh`, and whether more lies below. -/
def roundsUp (mode : RMode) (neg : Bool) (k rem sh : Nat) (sticky : Bool) : Bool :=
  let inexact := decide (rem ≠ 0) || sticky
  match mode with
  | .rne => decide (2 ^ sh < 2 * rem) || (decide (2 * rem = 2 ^ sh) && decide (0 < sh) && (sticky || k % 2 == 1))
  | .rtz => false
  | .rdn => neg && inexact
  | .rup => !neg && inexact

/-- `m * 2^e` in units of `2^q`, rounded, and whether it was inexact. -/
def quantize (mode : RMode) (neg : Bool) (m : Nat) (e q : Int) (sticky : Bool) : Nat × Bool :=
  if e < q then
    let sh := (q - e).toNat
    let k := m / 2 ^ sh
    let rem := m % 2 ^ sh
    (k + bit (roundsUp mode neg k rem sh sticky), decide (rem ≠ 0) || sticky)
  else
    let k := m * 2 ^ (e - q).toNat
    (k + bit (roundsUp mode neg k 0 0 sticky), sticky)

/-- The overflow result (R75). -/
def overflowCode (t : Ty) (mode : RMode) (sat neg : Bool) : Nat :=
  let toInf := match mode with
    | .rne => true
    | .rtz => false
    | .rdn => neg
    | .rup => !neg
  withSign t neg (if (ffmt t).hasInf && !sat && toInf then infCode t else maxFinite t)

/-- `Round` of an exact magnitude `m * 2^e`, or of one just above it when `sticky`: the code and the flags (R75). -/
def roundTo (t : Ty) (mode : RMode) (sat neg : Bool) (m : Nat) (e : Int) (sticky : Bool) : Nat × BitVec 7 :=
  let f := ffmt t
  if m = 0 && !sticky then (withSign t neg 0, 0)
  else
    let emin : Int := 1 - f.bias
    let top : Int := m.log2 + e
    let q := max (top - f.mb) (emin - f.mb)
    let r := quantize mode neg m e q sticky
    let big := r.1 * 2 ^ (q - (emin - f.mb)).toNat
    let limit := match fval t (maxFinite t) with
      | .fin _ lm le => lm * 2 ^ (le - (emin - f.mb)).toNat
      | _ => 0
    if limit < big then (overflowCode t mode sat neg, flOF ||| flNX)
    else
      let u := quantize mode neg m e (top - f.mb) sticky
      let tiny := decide (top < emin) && !(decide (top = emin - 1) && decide (u.1 = 2 ^ (f.mb + 1)))
      let code := if r.1 < 2 ^ f.mb then r.1 else (q + f.mb + f.bias).toNat * 2 ^ f.mb + (r.1 - 2 ^ f.mb)
      (withSign t neg code, flagIf r.2 flNX ||| flagIf (tiny && r.2) flUF)

/-- Rounds a value: a NaN becomes canonical, an infinity stays one where the type has it (R75, R76). -/
def roundVal (t : Ty) (mode : RMode) (sat : Bool) : FVal → Nat × BitVec 7
  | .nan s => (canonNaN t, flagIf s flIV)
  | .inf n => if (ffmt t).hasInf then (withSign t n (infCode t), 0) else (withSign t n (maxFinite t), flOF ||| flNX)
  | .fin n m e => roundTo t mode sat n m e false

/-! ## Exact operations -/

/-- The exact sum of two finite values; a zero sum of unlike signs is +0, or -0 under RDN (IEEE 754). -/
def finAdd (mode : RMode) (n₁ : Bool) (m₁ : Nat) (e₁ : Int) (n₂ : Bool) (m₂ : Nat) (e₂ : Int) : FVal :=
  let e := min e₁ e₂
  let x : Int := (m₁ * 2 ^ (e₁ - e).toNat : Nat)
  let y : Int := (m₂ * 2 ^ (e₂ - e).toNat : Nat)
  let s := (if n₁ then -x else x) + (if n₂ then -y else y)
  if s = 0 then .fin (if n₁ == n₂ then n₁ else mode == .rdn) 0 e
  else .fin (decide (s < 0)) s.natAbs e

/-- The sum of two values and whether it is an invalid operation (R69). -/
def vAdd (mode : RMode) (a b : FVal) : FVal × Bool :=
  match a, b with
  | .nan s, x => (.nan false, s || x.isSig)
  | x, .nan s => (.nan false, s || x.isSig)
  | .inf n, .inf n' => if n == n' then (.inf n, false) else (.nan false, true)
  | .inf n, _ => (.inf n, false)
  | _, .inf n => (.inf n, false)
  | .fin n₁ m₁ e₁, .fin n₂ m₂ e₂ => (finAdd mode n₁ m₁ e₁ n₂ m₂ e₂, false)

/-- The product of two values and whether it is an invalid operation (R69). -/
def vMul (a b : FVal) : FVal × Bool :=
  match a, b with
  | .nan s, x => (.nan false, s || x.isSig)
  | x, .nan s => (.nan false, s || x.isSig)
  | .inf n, x => if x.isZero then (.nan false, true) else (.inf (n != x.neg), false)
  | x, .inf n => if x.isZero then (.nan false, true) else (.inf (n != x.neg), false)
  | .fin n₁ m₁ e₁, .fin n₂ m₂ e₂ => (.fin (n₁ != n₂) (m₁ * m₂) (e₁ + e₂), false)

/-- Rounds a result that carries an invalid mark. -/
def finishVal (t : Ty) (mode : RMode) (sat : Bool) (r : FVal × Bool) : Nat × BitVec 7 :=
  let x := roundVal t mode sat r.1
  (x.1, x.2 ||| flagIf r.2 flIV)

/-- `Round(a + b)` (R120). -/
def fAdd (t : Ty) (r : Rnd) (a b : Nat) : Nat × BitVec 7 :=
  finishVal t r.mode r.sat (vAdd r.mode (fval t a) (fval t b))
/-- `Round(a - b)` (R120). -/
def fSub (t : Ty) (r : Rnd) (a b : Nat) : Nat × BitVec 7 :=
  finishVal t r.mode r.sat (vAdd r.mode (fval t a) (fval t b).negate)
/-- `Round(a * b)` (R120). -/
def fMul (t : Ty) (r : Rnd) (a b : Nat) : Nat × BitVec 7 :=
  finishVal t r.mode r.sat (vMul (fval t a) (fval t b))
/-- `Round(a * b + x)`, one rounding (R120). -/
def fFma (t : Ty) (r : Rnd) (a b : FVal) (x : FVal) : Nat × BitVec 7 :=
  let p := vMul a b
  let s := vAdd r.mode p.1 x
  finishVal t r.mode r.sat (s.1, s.2 || p.2)

/-- RNE without saturation. -/
def rne : Rnd := ⟨.rne, false⟩

/-- `RoundF32(a + b, RNE)`. -/
def f32Add (a b : Nat) : Nat × BitVec 7 := fAdd .f32 rne a b
/-- `RoundF32(a - b, RNE)`. -/
def f32Sub (a b : Nat) : Nat × BitVec 7 := fSub .f32 rne a b
/-- `RoundF32(a * b, RNE)`. -/
def f32Mul (a b : Nat) : Nat × BitVec 7 := fMul .f32 rne a b

/-! ## Comparisons, minimum and maximum (R120, R121) -/

/-- The sign-magnitude order of two values that are no NaN: `a < b`, zeros equal. -/
def vLt (a b : FVal) : Bool :=
  match a, b with
  | .nan _, _ => false
  | _, .nan _ => false
  | .inf n, .inf n' => n && !n'
  | .inf n, _ => n
  | _, .inf n => !n
  | .fin n₁ m₁ e₁, .fin n₂ m₂ e₂ =>
    let e := min e₁ e₂
    let x : Int := (m₁ * 2 ^ (e₁ - e).toNat : Nat)
    let y : Int := (m₂ * 2 ^ (e₂ - e).toNat : Nat)
    decide ((if n₁ then -x else x) < (if n₂ then -y else y))

/-- Equality of values; zeros are equal, a NaN equals nothing. -/
def vEq (a b : FVal) : Bool := !a.isNaN && !b.isNaN && !vLt a b && !vLt b a

/-- `a` orders below `b`, with -0 below +0 (R121, R131). -/
def vBelow (a b : FVal) : Bool := vLt a b || (a.isZero && b.isZero && a.neg && !b.neg)

/-- `vfmin` or `vfmax` of two codes (R121). -/
def fMinMax (t : Ty) (isMax : Bool) (a b : Nat) : Nat × BitVec 7 :=
  let x := fval t a
  let y := fval t b
  let c :=
    if x.isNaN then (if y.isNaN then canonNaN t else b)
    else if y.isNaN then a
    else if isMax then (if vBelow x y then b else a) else (if vBelow y x then b else a)
  (c, flagIf (x.isSig || y.isSig) flIV)

/-! ## Conversions (R76 to R78) -/

/-- Float to float (R76). -/
def cvtFF (dst src : Ty) (r : Rnd) (x : Nat) : Nat × BitVec 7 :=
  match fval src x with
  | .nan s =>
    if dst = .e4m3 ∨ dst = .f6 then (canonNaN dst, flIV) else (canonNaN dst, flagIf s flIV)
  | .inf n =>
    if dst = .e4m3 ∨ dst = .f6 ∨ (dst = .e5m2 ∧ r.sat) then (withSign dst n (maxFinite dst), flOF ||| flNX)
    else (withSign dst n (infCode dst), 0)
  | .fin n m e => roundTo dst r.mode r.sat n m e false

/-- Range of an integer type. -/
def intRange (t : Ty) : Int × Int :=
  let w := tyBits t
  if t.isLaneSigned then (-(2 ^ (w - 1)), 2 ^ (w - 1) - 1) else (0, 2 ^ w - 1)

/-- Clamps to the range of a type. -/
def clampTo (t : Ty) (x : Int) : Int := max (intRange t).1 (min (intRange t).2 x)

/-- Float to integer (R77): the integer and the flags. An infinity clamps and sets IV alone: whether it counts as "not
already an integer" the manual does not say. DESIGN CHOICE, log 64. -/
def cvtFI (dst src : Ty) (mode : RMode) (x : Nat) : Int × BitVec 7 :=
  match fval src x with
  | .nan _ => (0, flIV)
  | .inf n => (if n then (intRange dst).1 else (intRange dst).2, flIV)
  | .fin n m e =>
    let q := quantize mode n m e 0 false
    let v : Int := if n then -(q.1 : Int) else q.1
    let c := clampTo dst v
    if c = v then (v, flagIf q.2 flNX) else (c, flIV ||| flagIf q.2 flNX)

/-- Integer to float (R77). -/
def cvtIF (dst : Ty) (r : Rnd) (x : Int) : Nat × BitVec 7 :=
  roundTo dst r.mode r.sat (decide (x < 0)) x.natAbs 0 false

/-- Integer to integer (R78): the pattern. -/
def cvtII (dst : Ty) (sat : Bool) (x : Int) : Nat :=
  wrapW (tyBits dst) (if sat then clampTo dst x else x)

/-! ## Correctly rounded functions (R84, R122, R123) -/

/-- Floor of the square root, bit by bit. -/
def sqrtGo (x : Nat) : Nat → Nat → Nat
  | 0, r => r
  | n + 1, r =>
    let c := r + 2 ^ n
    sqrtGo x n (if c * c ≤ x then c else r)

/-- Floor of the square root of a number below `4^n`. -/
def sqrtN (n x : Nat) : Nat := sqrtGo x n 0

/-- The quotient of two finite nonzero magnitudes, with 64 bits below the point of the numerator's unit. -/
def divFin (t : Ty) (r : Rnd) (neg : Bool) (m₁ : Nat) (e₁ : Int) (m₂ : Nat) (e₂ : Int) : Nat × BitVec 7 :=
  let n := m₁ * 2 ^ 64
  roundTo t r.mode r.sat neg (n / m₂) (e₁ - e₂ - 64) (decide (n % m₂ ≠ 0))

/-- `vdiv` (R122). -/
def fDiv (t : Ty) (r : Rnd) (a b : Nat) : Nat × BitVec 7 :=
  match fval t a, fval t b with
  | .nan s, y => (canonNaN t, flagIf (s || y.isSig) flIV)
  | x, .nan s => (canonNaN t, flagIf (s || x.isSig) flIV)
  | .inf _, .inf _ => (canonNaN t, flIV)
  | .inf n, y => (withSign t (n != y.neg) (infCode t), 0)
  | x, .inf n => (withSign t (n != x.neg) 0, 0)
  | .fin n₁ m₁ e₁, .fin n₂ m₂ e₂ =>
    if m₂ = 0 then
      if m₁ = 0 then (canonNaN t, flIV) else (withSign t (n₁ != n₂) (infCode t), flDZ)
    else if m₁ = 0 then (withSign t (n₁ != n₂) 0, 0)
    else divFin t r (n₁ != n₂) m₁ e₁ m₂ e₂

/-- `vrcp` (R122). -/
def fRcp (t : Ty) (r : Rnd) (a : Nat) : Nat × BitVec 7 :=
  match fval t a with
  | .nan s => (canonNaN t, flagIf s flIV)
  | .inf n => (withSign t n 0, 0)
  | .fin n m e => if m = 0 then (withSign t n (infCode t), flDZ) else divFin t r n 1 0 m e

/-- A finite positive value with an even exponent. -/
def evenExp (m : Nat) (e : Int) : Nat × Int := if e % 2 = 0 then (m, e) else (2 * m, e - 1)

/-- `vsqrt` (R122). -/
def fSqrt (t : Ty) (r : Rnd) (a : Nat) : Nat × BitVec 7 :=
  match fval t a with
  | .nan s => (canonNaN t, flagIf s flIV)
  | .inf n => if n then (canonNaN t, flIV) else (infCode t, 0)
  | .fin n m e =>
    if m = 0 then (withSign t n 0, 0)
    else if n then (canonNaN t, flIV)
    else
      let p := evenExp m e
      let x := p.1 * 2 ^ 64
      let q := sqrtN 46 x
      roundTo t r.mode r.sat false q (p.2 / 2 - 32) (decide (q * q ≠ x))

/-- `vrsqrt` (R122). -/
def fRsqrt (t : Ty) (r : Rnd) (a : Nat) : Nat × BitVec 7 :=
  match fval t a with
  | .nan s => (canonNaN t, flagIf s flIV)
  | .inf n => if n then (canonNaN t, flIV) else (0, 0)
  | .fin n m e =>
    if m = 0 then (withSign t n (infCode t), flDZ)
    else if n then (canonNaN t, flIV)
    else
      let p := evenExp m e
      let q := sqrtN 64 (2 ^ 124 / p.1)
      roundTo t r.mode r.sat false q (-62 - p.2 / 2) (decide (q * q * p.1 ≠ 2 ^ 124))

/-- ln 2 in units of 2^-320. -/
def ln2Fix : Nat :=
  0xb17217f7d1cf79abc9e3b39803f2f6af40f343267298b62d8a0d175b8baafa2be7b876206debac98

/-- pi/2 in units of 2^-512. -/
def halfPiFix : Nat :=
  0x1921fb54442d18469898cc51701b839a252049c1114cf98e804177d4c76273644a29410f31c6809bbdf2a33679a748636605614dbe4be286e9fc26adadaa3848b

/-- Terms of the exponential series, `2^-p` units: the k-th term from the one before. -/
def expGo (p y : Nat) : Nat → Nat → Nat → Nat → Nat
  | 0, _, _, acc => acc
  | n + 1, k, term, acc =>
    let term := term * y / 2 ^ p / k
    expGo p y n (k + 1) term (acc + term)

/-- 2^f for f in [0, 1), in units of 2^-320: f given in the same units. -/
def exp2Fix (f : Nat) : Nat :=
  let y := f * ln2Fix / 2 ^ 320
  expGo 320 y 80 1 (2 ^ 320) (2 ^ 320)

/-- Cuts the bits of a fixed-point lower bound that its error may touch. -/
def cut (n x : Nat) : Nat := x / 2 ^ n

/-- 2^a for a finite `a` (R122), rounded once. An integer power is exact. -/
def exp2Fin (t : Ty) (r : Rnd) (neg : Bool) (m : Nat) (e : Int) : Nat × BitVec 7 :=
  let x := if 0 ≤ e then m * 2 ^ (min e 300).toNat * 2 ^ 320 else m * 2 ^ (320 - min 320 (-e).toNat)
  let v : Int := if neg then -(x : Int) else x
  let n : Int := v / 2 ^ 320
  let f := (v - n * 2 ^ 320).toNat
  let n := max (-2000) (min 2000 n)
  if f = 0 then roundTo t r.mode r.sat false 1 n false
  else roundTo t r.mode r.sat false (cut 24 (exp2Fix f)) (n - 296) true

/-- `vexp2` (R122). DEDUCED, log 59. -/
def fExp2 (t : Ty) (r : Rnd) (a : Nat) : Nat × BitVec 7 :=
  match fval t a with
  | .nan s => (canonNaN t, flagIf s flIV)
  | .inf n => if n then (0, 0) else (infCode t, 0)
  | .fin n m e => exp2Fin t r n m e

/-- Terms of the series of the inverse hyperbolic tangent, in units of 2^-320. -/
def atanhGo (z2 : Nat) : Nat → Nat → Nat → Nat → Nat
  | 0, _, _, acc => acc
  | n + 1, k, pw, acc => atanhGo z2 n (k + 2) (pw * z2 / 2 ^ 320) (acc + pw / k)

/-- log2 of x in [1, 2), both in units of 2^-320. -/
def log2Fix (x : Nat) : Nat :=
  let z := (x - 2 ^ 320) * 2 ^ 320 / (x + 2 ^ 320)
  2 * atanhGo (z * z / 2 ^ 320) 110 1 z 0 * 2 ^ 320 / ln2Fix

/-- log2 of a positive finite value; a power of two is exact (R122). -/
def log2Fin (t : Ty) (r : Rnd) (m : Nat) (e : Int) : Nat × BitVec 7 :=
  let l := m.log2
  let n : Int := l + e
  if m = 2 ^ l then roundTo t r.mode r.sat (decide (n < 0)) n.natAbs 0 false
  else
    let v : Int := n * 2 ^ 320 + log2Fix (m * 2 ^ 320 / 2 ^ l)
    roundTo t r.mode r.sat (decide (v < 0)) (cut 24 v.natAbs) (-296) true

/-- `vlog2` (R122). -/
def fLog2 (t : Ty) (r : Rnd) (a : Nat) : Nat × BitVec 7 :=
  match fval t a with
  | .nan s => (canonNaN t, flagIf s flIV)
  | .inf n => if n then (canonNaN t, flIV) else (infCode t, 0)
  | .fin n m e =>
    if m = 0 then (withSign t true (infCode t), flDZ)
    else if n then (canonNaN t, flIV)
    else log2Fin t r m e

/-- Alternating series of sine and cosine in units of 2^-512: the next term from the one before. -/
def trigGo (y2 : Nat) : Nat → Nat → Nat → Bool → Int → Int
  | 0, _, _, _, acc => acc
  | n + 1, k, term, plus, acc =>
    let next := term * y2 / 2 ^ 512 / (k * (k + 1))
    trigGo y2 n (k + 2) next (!plus) (if plus then acc + next else acc - next)

/-- Sine (or cosine) of a reduced angle in [0, pi/2), in units of 2^-512. -/
def trigFix (cosine : Bool) (y : Nat) : Int :=
  let y2 := y * y / 2 ^ 512
  if cosine then trigGo y2 60 1 (2 ^ 512) false (2 ^ 512) else trigGo y2 60 2 y false y

/-- Sine or cosine of a finite angle, correctly rounded to f32 under RNE (R123). -/
def trigF32 (cosine neg : Bool) (m : Nat) (e : Int) : Nat × BitVec 7 :=
  if m = 0 then (if cosine then 0x3F800000 else withSign .f32 neg 0, 0)
  else
    let x := m * 2 ^ (e + 512).toNat
    let k := x / halfPiFix
    let y := x - k * halfPiFix
    let quad := (k + bit cosine) % 4
    let v := trigFix (quad % 2 == 1) y
    let flip := decide (2 ≤ quad) != (neg && !cosine)
    roundTo .f32 .rne false ((decide (v < 0)) != flip) (cut 160 v.natAbs) (-352) true

/-! ## Group sums (R79, R80) -/

/-- The exact sum of finite values; the sign of a zero sum is that of IEEE addition under RNE (R79). -/
def exactSum : List FVal → FVal
  | [] => .fin false 0 0
  | [x] => x
  | x :: xs =>
    match x, exactSum xs with
    | .fin n₁ m₁ e₁, .fin n₂ m₂ e₂ => finAdd .rne n₁ m₁ e₁ n₂ m₂ e₂
    | _, y => y

/-- Special values of a group, resolved before any rounding (R80): products of 32 element pairs. -/
def groupVal (a b : List FVal) (sa sb : Nat) : FVal × Bool :=
  let els := a ++ b
  let bad := decide (sa = 0xFF) || decide (sb = 0xFF)
  if bad || els.any (·.isNaN) then (.nan false, bad || els.any (·.isSig))
  else
    let ps := (a.zip b).map fun p => vMul p.1 p.2
    if ps.any (·.2) then (.nan false, true)
    else
      let vs := ps.map (·.1)
      let pos := vs.any (· == .inf false)
      let neg := vs.any (· == .inf true)
      if pos && neg then (.nan false, true)
      else if pos then (.inf false, false)
      else if neg then (.inf true, false)
      else
        match exactSum vs with
        | .fin n m e => (.fin n m (e + sa + sb - 254), false)
        | v => (v, false)

/-- One group added to an accumulator element (R79). -/
def groupAdd (acc : Nat) (a b : List FVal) (sa sb : Nat) : Nat × BitVec 7 :=
  let g := finishVal .f32 .rne false (groupVal a b sa sb)
  let s := f32Add acc g.1
  (s.1, g.2 ||| s.2)

/-! ## Base-2 normalisers (R85, R86) -/

/-- -infinity in f32. -/
def f32NegInf : Nat := 0xFF800000

/-- The f32 maximum of two numbers that are no NaN, as `max` of R85 and R86. Where neither lies below the other the first one
stands, so that of +0 and -0 the running maximum keeps the one it has. DESIGN CHOICE, log 69. -/
def f32Max (a b : Nat) : Nat := if vBelow (fval .f32 a) (fval .f32 b) then b else a

/-- `Exp2Diff` (R85): the value, and the flags of its two roundings. DEDUCED, log 19. -/
def exp2Diff (u w : Nat) : Nat × BitVec 7 :=
  if u = f32NegInf then (0, 0)
  else if vEq (fval .f32 u) (fval .f32 w) then (0x3F800000, 0)
  else
    let d := f32Sub u w
    let x := fExp2 .f32 rne d.1
    (x.1, d.2 ||| x.2)

/-- Takes one logit into a normaliser (R85). -/
def normTake (p : Nat × Nat) (x : Nat) : (Nat × Nat) × BitVec 7 :=
  if (fval .f32 x).isNaN then (p, flIV)
  else if x = f32NegInf then (p, 0)
  else
    let m1 := f32Max p.1 x
    let d := exp2Diff p.1 m1
    let a := f32Mul p.2 d.1
    let b := exp2Diff x m1
    let s := f32Add a.1 b.1
    ((m1, s.1), d.2 ||| a.2 ||| b.2 ||| s.2)

/-- Merges two normalisers, the lower shard first (R86). -/
def normMerge (p q : Nat × Nat) : (Nat × Nat) × BitVec 7 :=
  let m := f32Max p.1 q.1
  let d := exp2Diff p.1 m
  let a := f32Mul p.2 d.1
  let d' := exp2Diff q.1 m
  let b := f32Mul q.2 d'.1
  let s := f32Add a.1 b.1
  ((m, s.1), d.2 ||| a.2 ||| d'.2 ||| b.2 ||| s.2)

/-! ## The random draw (R87) -/

/-- `h xor (h >> n)`. -/
def xorShift (h : Word) (n : Nat) : Word := h ^^^ (h >>> n)

/-- `Draw(key, counter)` (R87), as an f32 code. -/
def draw (key counter : Word) : Nat :=
  let h := key ^^^ (counter * 0x9E3779B9)
  let h := xorShift h 16 * 0x7FEB352D
  let h := xorShift h 15 * 0x846CA68B
  let h := xorShift h 16
  (roundTo .f32 .rne false false (h.toNat / 256) (-24) false).1

end Sys2Proof.Machine
end

