-- ==== Sys2Proof/Machine/Copies.lean ====
section
/-! DEFINITION. The copy channels: the copy instructions, `cpwait` and `cpdone`, and the channels' events (R284 to R297,
R143). -/

namespace Sys2Proof.Machine

/-! ## The parameter block (R286, R287) -/

/-- The fields of a parameter block (R286). -/
def copyBlkOf (bs : List Byte) : CopyBlk where
  chan := BitVec.ofNat 2 (fieldOf bs 0x00 1)
  flags := BitVec.ofNat 8 (fieldOf bs 0x01 1)
  slot := BitVec.ofNat 6 (fieldOf bs 0x02 1)
  red := BitVec.ofNat 8 (fieldOf bs 0x03 1)
  rows := fieldOf bs 0x04 4
  src := fieldOf bs 0x08 8
  dst := fieldOf bs 0x10 8
  len := fieldOf bs 0x18 4
  amount := fieldOf bs 0x1C 4
  sstr := fieldOf bs 0x20 8
  dstr := fieldOf bs 0x28 8
  list := fieldOf bs 0x30 8
  bound := fieldOf bs 0x38 4

/-- The copy extends a slot (R293). -/
def CopyBlk.extends (b : CopyBlk) : Bool := b.flags.getLsbD 0
/-- Type codes `cpred` takes (R287, R292). -/
def redTypeOk (c : Nat) : Bool := c == 0 || c == 1 || c == 6 || c == 7 || c == 8

/-- The conditions of R287 by offset, in ascending order: `true` where the field fails. -/
def State.copyChecks (s : State) (k : CopyKind) (bs : List Byte) : List (Nat × Bool) :=
  let b := copyBlkOf bs
  let f := fieldOf bs 0x01 1
  let red := fieldOf bs 0x03 1
  [(0x00, decide (fieldOf bs 0x00 1 / 4 ≠ 0)),
   (0x01, decide (f / 8 ≠ 0) || (decide (f / 2 ≠ 0) && !k.indexed) || (b.extends && k == .cpymc)),
   (0x02, decide (63 < fieldOf bs 0x02 1) || (!b.extends && decide (fieldOf bs 0x02 1 ≠ 0))
      || (b.extends && !(s.bank.slot b.slot).conf)),
   (0x03, if k = .cpred then decide (red / 64 ≠ 0) || !redTypeOk (red % 16) || decide (red / 16 % 4 = 3)
      else decide (red ≠ 0)),
   (0x04, decide (b.rows = 0) || decide (2 ^ 24 < b.rows)),
   (0x08, decide (b.src % 8 ≠ 0)),
   (0x10, decide (b.dst % 8 ≠ 0)
      || (if k = .cpymc then decide (2 ^ 21 < b.dst + (b.rows - 1) * b.dstr + b.len)
          else decide (b.dst / 2 ^ 52 = 30))),
   (0x18, decide (b.len = 0) || decide (b.len % 8 ≠ 0) || decide (2 ^ 24 < b.len)),
   (0x1C, if b.extends then decide (b.amount = 0) else decide (b.amount ≠ 0)),
   (0x20, decide (b.sstr % 8 ≠ 0)),
   (0x28, decide (b.dstr % 8 ≠ 0)),
   (0x30, if k.indexed then decide (b.list % b.idxSize ≠ 0)
      else if k = .cpymc then decide (b.list = 0) else decide (b.list ≠ 0)),
   (0x38, if k.indexed then decide (b.bound = 0)
      else if k = .cpymc then decide (s.ofRun (·.snap.gang) ≤ b.bound + b.list.log2)
      else decide (b.bound ≠ 0)),
   (0x3C, decide (fieldOf bs 0x3C 4 ≠ 0))]

/-- The virtual hull of strided rows (R287). DEDUCED, log 25. -/
def hullOf (base rows len stride : Nat) : Int × Int :=
  let last : Int := (base : Int) + ((rows - 1 : Nat) : Int) * sgnW 64 stride
  (min (base : Int) last, max (base : Int) last + len)

/-- Source and destination of a `cpy` or `cpred` overlap as virtual hulls (R287). -/
def CopyBlk.overlap (b : CopyBlk) : Bool :=
  let x := hullOf b.src b.rows b.len b.sstr
  let y := hullOf b.dst b.rows b.len b.dstr
  decide (x.1 < y.2) && decide (y.1 < x.2)

/-- Reads and checks a parameter block (R287): the block, or the exact stop. -/
def State.copyBlock (s : State) (k : CopyKind) (va : DWord) : Except Stop CopyBlk :=
  match s.blockAt va with
  | .error e => .error e
  | .ok key =>
    let bs := (s.atBlock va key 64).rd key 64
    match (s.copyChecks k bs).find? (·.2) with
    | some o => s.trapNow 0x12 (BitVec.ofNat 8 (0x80 + o.1)) va
    | none =>
      let b := copyBlkOf bs
      if (k == .cpy || k == .cpred) && b.overlap then s.trapNow 0x12 0x03 va else .ok b

/-! ## Issue (R284, R285, R289) -/

/-- A channel. -/
def Bank.chan (b : Bank) (ch : BitVec 2) : Chan := b.chans[ch.toNat]

/-- Changes a channel. -/
def Bank.mapChan (b : Bank) (ch : BitVec 2) (f : Chan → Chan) : Bank :=
  { b with chans := b.chans.set ch.toNat (f (b.chan ch)) }

/-- Changes a channel of the active bank. -/
def State.mapChan (s : State) (ch : BitVec 2) (f : Chan → Chan) : State := s.mapBank fun b => b.mapChan ch f

/-- A new copy of a block. -/
def newCopy (k : CopyKind) (b : CopyBlk) (id : Word) (pc : DWord) (rule : Option (BitVec 5 × Nat))
    (rowBase srcMod dstMod : Nat) (seq : Nat) : Copy :=
  ⟨id, k, b, rule, pc, 0, rowBase, srcMod, dstMod, none, 0, seq⟩

/-- A copy enters its channel and takes the next identifier (R285). -/
def Chan.accept (c : Chan) (x : Word → Copy) : Chan := { c with queue := c.queue ++ [x c.next], next := c.next + 1 }

/-- A copy enters its channel; the core's requests are numbered in order (R167, R285). -/
def Bank.enterCopy (b : Bank) (ch : BitVec 2) (x : Word → Nat → Copy) : Bank :=
  { b.mapChan ch (·.accept fun id => x id b.uid) with uid := b.uid + 1 }

/-- A copy instruction: reads and checks its block, waits for room in the channel's queue, and enters it (R287, R289). -/
def State.copyIssue (s : State) (k : CopyKind) (d : Opnd) (bp : BitVec 4) (off : BitVec 23) :
    Host.Outcome State Fault Refusal :=
  s.finish (s.unserved do
    let base ← s.rdBase bp
    let va := base + off.setWidth 64
    let key ← s.blockAt va
    let b ← s.copyBlock k va
    let s := s.atBlock va key 64
    if 16 ≤ (s.bank.chan b.chan).queue.length then .error (.wait .full)
    else
      let id := (s.bank.chan b.chan).next
      pure ((s.mapBank fun x => x.enterCopy b.chan fun id n => newCopy k b id s.cur.bun.ipc none 0 0 0 n).putToken d false
        (id.setWidth 64)))

/-- `cpy` (R289, R290). -/
def execCpy (d : Opnd) (bp : BitVec 4) (off : BitVec 23) (s : State) : Host.Outcome State Fault Refusal :=
  s.copyIssue .cpy d bp off

/-- `cpyg` (R289, R290). -/
def execCpyg (d : Opnd) (bp : BitVec 4) (off : BitVec 23) (s : State) : Host.Outcome State Fault Refusal :=
  s.copyIssue .cpyg d bp off

/-- `cpys` (R289, R290). -/
def execCpys (d : Opnd) (bp : BitVec 4) (off : BitVec 23) (s : State) : Host.Outcome State Fault Refusal :=
  s.copyIssue .cpys d bp off

/-- `cpymc` (R289, R290). -/
def execCpymc (d : Opnd) (bp : BitVec 4) (off : BitVec 23) (s : State) : Host.Outcome State Fault Refusal :=
  s.copyIssue .cpymc d bp off

/-- `cpred` (R289, R292). -/
def execCpred (d : Opnd) (bp : BitVec 4) (off : BitVec 23) (s : State) : Host.Outcome State Fault Refusal :=
  s.copyIssue .cpred d bp off

/-! ## Waiting for copies (R285, R295) -/

/-- Identifier `a` is at or after `b` (R285). -/
def idAfter (a b : Word) : Bool := decide ((a - b).toNat < 2 ^ 31)

/-- `cpwait` (R295). -/
def execCpwait (d : Opnd) (ch : BitVec 2) (a : Opnd) (s : State) : Host.Outcome State Fault Refusal :=
  s.finish (s.unserved do
    let x ← s.rd32 a
    let c := s.bank.chan ch
    if idAfter x c.next then s.trapNow 0x12 0x01 0
    else if idAfter c.done x then pure (s.putToken d false (c.done.setWidth 64))
    else .error (.wait .copy))

/-- `cpdone` (R295). -/
def execCpdone (d : Opnd) (ch : BitVec 2) (a : Opnd) (s : State) : Host.Outcome State Fault Refusal :=
  s.finish (s.unserved do
    let x ← s.rd32 a
    let c := s.bank.chan ch
    if idAfter x c.next then s.trapNow 0x12 0x01 0
    else pure (s.putToken d false (BitVec.ofNat 64 (bit (idAfter c.done x)))))

/-! ## Rows (R290, R291, R294) -/

/-- Poison of a granule that a row has written: set by a poisoned source byte, cleared by a whole clean beat (R144,
R290). The list pairs each 8-byte destination piece with whether its source is poisoned. -/
def State.settle (s : State) (ps : List (Nat × Bool)) (g : Nat) : State :=
  let here := ps.filter fun p => p.1 / 64 == g
  if here.any (·.2) then s.poisonKey (64 * g)
  else if here.length = 8 then { s with mem := s.mem.cleanGranule g }
  else s

/-- Settles the poison of every granule written. -/
def State.settleAll (s : State) (ps : List (Nat × Bool)) : State :=
  (ps.map (·.1 / 64)).eraseDups.foldl (fun s g => s.settle ps g) s

/-- An 8-byte piece of a row as it was read, with its poison. -/
abbrev RowPiece := List Byte × Bool

/-- Reads a row, once for all its targets (R290); a row outside the bound gives zeros (R291). -/
def State.readRow (s : State) (n : Nat) (src : Option (List Nat)) : List RowPiece :=
  match src with
  | none => List.replicate n (List.replicate 8 0, false)
  | some ks => ks.map fun k => (s.rd k 8, (s.mem.poisonAt k 8).isSome)

/-- Writes a row that has been read piece by piece (R290). -/
def State.writeRow (s : State) (row : List RowPiece) (dst : List Nat) : State :=
  ((row.zip dst).foldl (fun (s : State) p => s.wr p.2 p.1.1) s).settleAll ((row.zip dst).map fun p => (p.2, p.1.2))

/-! ## Reduction (R292) -/

/-- Element type of a `cpred`. -/
def CopyBlk.redTy (b : CopyBlk) : Ty :=
  match b.red.toNat % 16 with
  | 0 => .i32 | 1 => .n32 | 7 => .f16 | 8 => .bf16 | _ => .f32

/-- Op(dst, src) of `cpred`: the new pattern and its flags (R292). -/
def CopyBlk.reduce (b : CopyBlk) (old x : Nat) : Nat × BitVec 7 :=
  let t := b.redTy
  let op := b.red.toNat / 16 % 4
  match t with
  | .i32 =>
    let lt := decide (sgnW 32 old < sgnW 32 x)
    (if op = 0 then (old + x) % 2 ^ 32 else if op = 1 then (if lt then old else x) else (if lt then x else old), 0)
  | .n32 => (if op = 0 then (old + x) % 2 ^ 32 else if op = 1 then min old x else max old x, 0)
  | _ => if op = 0 then fAdd t rne old x else fMinMax t (op == 2) old x

/-- Reduces the elements of one 8-byte piece; `n` elements of `w` bytes. -/
def State.reducePiece (s : State) (b : CopyBlk) (w src dst : Nat) : Nat → BitVec 7 → State × BitVec 7
  | 0, f => (s, f)
  | n + 1, f =>
    let p := s.reducePiece b w src dst n f
    let o := w * n
    let r := b.reduce (p.1.rdNat (dst + o) w) (p.1.rdNat (src + o) w)
    let s' := p.1.wrNat (dst + o) w r.1
    let s' := if (s.mem.poisonAt (src + o) w).isSome then s'.poisonKey (dst + o) else s'
    (s', p.2 ||| r.2)

/-- Reduces one row (R292). -/
def State.reduceRow (s : State) (b : CopyBlk) (src dst : List Nat) (f : BitVec 7) : State × BitVec 7 :=
  let w := tyBits b.redTy / 8
  (src.zip dst).foldl (fun p q => p.1.reducePiece b w q.1 q.2 (8 / w) p.2) (s, f)

/-! ## Moving a copy (R290, R291) -/

/-- What a row comes to. -/
inductive RowRes where
  | moved (s : State) (f : BitVec 7)
  | srcBad (cause : Byte) (va : Nat)
  | dstBad (cause : Byte) (va : Nat)

/-- The path of a copy kind's accesses (R290). -/
def CopyKind.accessPath : CopyKind → Path
  | .cpy | .cpymc => .cp
  | .cpyg | .cpys => .ga
  | .cpred => .co

/-- What agents hold of the locations that a row is written to has missed the write (R166). -/
def State.noteRow (s : State) (k : CopyKind) (ds : List (List Nat)) : State :=
  if s.held.isEmpty then s else ds.flatten.foldl (fun t key => t.noteWrite (.here apId) k.accessPath key 8 4) s

/-- Row `r` of a copy: both sides are checked before anything is written (R291). -/
def State.copyRow (s : State) (cx : BitVec 6) (run : Option Run) (c : Copy) (r : Nat) (f : BitVec 7) : RowRes :=
  if c.outside r && c.kind == .cpys then .moved s f
  else
    let src := if c.outside r then .ok none
      else (s.rowKeys cx run .read (c.blk.len / 8) (c.srcAt r (c.idxAt r))).map some
    match src with
    | .error e => .srcBad e.1 e.2
    | .ok ks =>
      match s.dstKeys cx run c r with
      | .error e => .dstBad e.1 e.2
      | .ok ds =>
        let s := s.noteRow c.kind ds
        if c.kind = .cpred then
          let p := s.reduceRow c.blk (ks.getD []) (ds.getD 0 []) f
          .moved p.1 p.2
        else .moved (ds.foldl (fun t d => t.writeRow (s.readRow (c.blk.len / 8) ks) d) s) f

/-- How a copy's moving ends: complete with its flags, or at a row with a fault. -/
structure MoveRes where
  s : State
  flags : BitVec 7
  err : Option (Byte × Byte × Nat × Nat)

/-- Moves `n` rows from row `r` on (R290, R291). The error holds cause, subcode without the channel, address, row. -/
def State.moveRows (cx : BitVec 6) (run : Option Run) (c : Copy) : Nat → Nat → State → BitVec 7 → MoveRes
  | 0, _, s, f => ⟨s, f, none⟩
  | n + 1, r, s, f =>
    match s.copyRow cx run c r f with
    | .moved s f => State.moveRows cx run c n (r + 1) s f
    | .srcBad cause va => ⟨s, f, some (cause, 0xC0, va, r)⟩
    | .dstBad cause va => ⟨s, f, some (cause, 0xC4, va, r)⟩

/-! ## Scoreboard entries (R143, R290) -/

/-- Adds a range of scratchpad bytes to the hulls by core. -/
def addHull (l : List (Nat × Nat × Nat)) (key len : Nat) : List (Nat × Nat × Nat) :=
  let core := (key - 2 ^ 54) / 2 ^ 21
  match l.lookup core with
  | some h => l.map fun (e : Nat × Nat × Nat) => if e.1 = core then (core, min h.1 key, max h.2 (key + len)) else e
  | none => (core, key, key + len) :: l

/-- The parts of `len` bytes at a local offset that lie in one scratchpad each: offset and length (R137). -/
def padParts (off len : Nat) : List (Nat × Nat) :=
  (List.range ((off % 2 ^ 21 + len + 2 ^ 21 - 1) / 2 ^ 21)).map fun i =>
    let base := off / 2 ^ 21 * 2 ^ 21 + i * 2 ^ 21
    (max off base, min (off + len) (base + 2 ^ 21) - max off base)

/-- The scratchpad hulls of rows at virtual addresses; a row of the gang window may lie in two members' (R137). -/
def State.padHulls (s : State) (run : Option Run) (len : Nat) (vas : List Nat) : List (Nat × Nat × Nat) :=
  vas.foldl (fun l va =>
    if va / 2 ^ 52 = 31 then
      (padParts (va % 2 ^ 52) len).foldl (fun l p =>
        match s.locateLocal run p.1 8 with
        | .at key => addHull l key p.2
        | _ => l) l
    else l) []

/-- The entries a copy takes: one inbound entry for each destination scratchpad, one outbound for a source in one, each
rounded out to 64 bytes (R143, R290). -/
def State.boardFor (s : State) (run : Option Run) (ch : BitVec 2) (c : Copy) : List Board :=
  let rows := List.range c.blk.rows
  let dst :=
    if c.kind = .cpymc then
      rows.foldl (fun l r => c.targets.foldl (fun l n => addHull l (memberPad run n (c.dstAt r 0)) c.blk.len) l) []
    else s.padHulls run c.blk.len ((rows.filter fun r => !(c.outside r && c.kind == .cpys)).map fun r =>
      c.dstAt r (c.idxAt r))
  let src := s.padHulls run c.blk.len ((rows.filter fun r => !c.outside r).map fun r => c.srcAt r (c.idxAt r))
  let mk := fun (out : Bool) (h : Nat × Nat × Nat) =>
    (⟨h.2.1 / 64 * 64, (h.2.2 + 63) / 64 * 64, out, ch, c.id, .copy⟩ : Board)
  dst.map (mk false) ++ src.map (mk true)

/-- Entries of a core's scoreboard. -/
def boardOf (l : List Board) (core : Nat) : Nat := (l.filter fun e => (e.lo - 2 ^ 54) / 2 ^ 21 == core).length

/-- New entries fit: at most 32 for each core (R143). -/
def State.boardFits (s : State) (es : List Board) : Bool :=
  es.all fun e => decide (boardOf (s.board ++ es) ((e.lo - 2 ^ 54) / 2 ^ 21) ≤ 32)

/-- The entries of a copy are released, and with them the freezes they held (R28, R143). -/
def State.dropBoard (s : State) (ch : BitVec 2) (id : Word) : State :=
  { s with
    board := s.board.filter fun e => e.holder != .copy || !(e.chan == ch && e.id == id)
    freezes := s.freezes.filter fun f => f.why != .board }

/-! ## Events of a channel (R284, R285, R293, R296) -/

/-- Moves the done mark over completed identifiers (R285). -/
def Chan.advance : Nat → Chan → Chan
  | 0, c => c
  | n + 1, c =>
    if c.completed.contains (c.done + 1) then
      Chan.advance n { c with done := c.done + 1, completed := c.completed.filter (· != c.done + 1) }
    else c

/-- An identifier completes, and the done mark follows (R285). -/
def Chan.finish (c : Chan) (id : Word) : Chan :=
  let c := { c with started := c.started.filter (·.id != id) }
  if idAfter c.done id then c
  else Chan.advance (c.completed.length + 1) { c with completed := id :: c.completed }

/-- A firing of a rule comes to its retirement with flags or with a fault (R215, R217); one whose rule a reset has revoked has none
(R409). -/
def Bank.fire (b : Bank) (r : BitVec 5) (f : BitVec 7) (e : Option EngErr) : Bank :=
  if b.rules[r.toNat].state = .firing then
    { b with rules := b.rules.set r.toNat { b.rules[r.toNat] with fired := some (f, e) } }
  else b

/-- A copy that fails: the error's cause, subcode without the channel, address and position (R296). -/
structure CopyFail where
  cause : Byte
  shown : Option Byte
  sub : Byte
  va : Nat
  pos : Nat
  step : Nat

/-- The frame's tail for a copy fault (R340): channel, step, identifier, position. -/
def copyTail (ch : BitVec 2) (step : Nat) (id : Word) (pos : Nat) : List Byte :=
  [ch.setWidth 8, BitVec.ofNat 8 step, 0, 0] ++ bytesOf 4 id.toNat ++ bytesOf 8 pos

/-- The rows that a firing's copy has moved become undefined when it faults (R217). -/
def State.forgetRows (s : State) (c : Copy) (n : Nat) : State :=
  let tag := s.free + 1
  let forget := fun (m : Memory) (k : Nat) => m.forget k (k + 8) tag
  let row := fun (m : Memory) (r : Nat) =>
    match s.dstKeys s.cx s.bank.run c r with
    | .ok ds => ds.flatten.foldl forget m
    | .error _ => m
  { s with mem := (List.range n).foldl row s.mem, free := tag }

/-- A reset has discarded the run of the bank at work (R409, R410). -/
def State.beingReset (s : State) : Bool := s.bank.run.any fun r => r.dropped && s.parts[r.part.toNat].resetting

/-- A copy fails: the channel stops, or the firing's rule is pinned and the channel goes on (R294, R296); once a reset has
discarded its run the fault is dropped (R410). -/
def State.copyFails (s : State) (ch : BitVec 2) (c : Copy) (e : CopyFail) : State :=
  let c := { c with pos := e.pos }
  let sub := e.sub + BitVec.ofNat 8 ch.toNat
  let va := BitVec.ofNat 64 e.va
  let s := s.dropBoard ch c.id
  match c.rule with
  | some (r, _) => (s.forgetRows c e.pos).mapBank fun b => (b.mapChan ch (·.finish c.id)).fire r 0 (some ⟨e.cause, sub, va, 0, 0, copyTail ch e.step c.id e.pos⟩)
  | none =>
    if s.beingReset then s.mapChan ch (·.finish c.id)
    else s.mapChan ch fun x =>
      { x with started := x.started.filter (·.id != c.id), faults := x.faults ++ [⟨e.cause, e.shown, sub, va, e.step, c⟩] }

/-- An index list that cannot be used (R296). -/
def indexFail (e : IndexErr) : CopyFail := ⟨e.1, e.2.1, e.2.2.1, e.2.2.2.1, e.2.2.2.2, 1⟩

/-- The head of a channel's queue may start: the channel has not stopped, and its slot has room (R284, R293, R296). -/
def Bank.mayStart (b : Bank) (ch : BitVec 2) : Option Copy :=
  let c := b.chan ch
  match c.queue with
  | x :: _ =>
    if c.faults.isEmpty && (!x.blk.extends || b.room x.blk.slot x.blk.amount) then some x else none
  | [] => none

/-- The copy at the head of the queue starts: step 1, then its scoreboard entries; while they do not fit it waits
(R284, R291, R143). -/
def State.startCopy (s : State) (ch : BitVec 2) : State :=
  match s.bank.mayStart ch with
  | none => s
  | some x =>
    let s := s.surface apId
    let idx := if x.kind.indexed && x.indices.isNone then
        (s.indexStep s.cx s.bank.run x).map some
      else .ok x.indices
    match idx with
    | .error e =>
      let s := s.mapChan ch fun c => { c with queue := c.queue.drop 1 }
      s.copyFails ch x (indexFail e)
    | .ok l =>
      let x := { x with indices := l }
      let es := s.boardFor s.bank.run ch x
      if s.boardFits es then
        { s.mapChan ch fun c => { c with queue := c.queue.drop 1, started := c.started ++ [x] } with
          board := s.board ++ es }
      else s.mapChan ch fun c => { c with queue := x :: c.queue.drop 1 }

/-- A copy completes: its entries are released, its identifier completes, its slot's fill mark rises, which orders what firings
read after it, and its flags accrue to the access processor (R285, R292, R293); a firing comes to its retirement (R294). -/
def State.copyDone (s : State) (ch : BitVec 2) (c : Copy) (f : BitVec 7) : State :=
  let s := (s.dropBoard ch c.id).mapBank fun b =>
    let b := b.mapChan ch (·.finish c.id)
    if c.blk.extends then b.mapSlot c.blk.slot fun o => { o with fill := o.fill + c.blk.amount } else b
  let s := if c.blk.extends then s.firingsAnew else s
  match c.rule with
  | some (r, _) => s.mapBank fun b => b.fire r f none
  | none => s.mapAgent apId fun a => a.accrue f

/-- No copy of its source that was requested before it has still to write to a home and lane that it writes to
(R167, R173). -/
def State.copyFree (s : State) (c : Copy) : Bool :=
  let older := s.bank.copiesOf.filter fun d => decide (d.seq < c.seq) && d.oneSource c
  older.isEmpty ||
    let l := s.copyLanes s.cx s.bank.run c
    older.all fun d => (s.copyLanes s.cx s.bank.run d).all fun x => !l.contains x

/-- Before a copy moves, what counts as performed for the access processor is performed; and before one whose writes are the access
processor's, the older stores of the access processor to its homes and lanes are (R167). -/
def State.beforeMove (s : State) (c : Copy) : State :=
  if s.pend.isEmpty then s
  else
    let l := if c.kind.indexed then s.copyLanes s.cx s.bank.run c else []
    s.flushWhere fun e => e.seenBy apId ||
      (e.agent == apId && decide (e.no ≤ c.seq) && l.contains (homeOf e.key, keyLane e.key))

/-- A started copy moves up to `n` rows; when they are the last it completes, and where one fails its copy fails
(R290, R291, R296). A copy whose lanes an older one holds waits (R167). DEDUCED, log 26. -/
def State.moveCopy (s : State) (ch : BitVec 2) (id : Word) (n : Nat) : State :=
  match (s.bank.chan ch).started.find? (·.id == id) with
  | none => s
  | some c =>
    if s.copyFree c then
      let n := min n (c.blk.rows - c.pos)
      let r := State.moveRows s.cx s.bank.run c n c.pos (s.beforeMove c) c.flags
      match r.err with
      | none =>
        if c.pos + n = c.blk.rows then r.s.copyDone ch c r.flags
        else r.s.mapChan ch fun x => { x with started := x.started.map fun (d : Copy) =>
          if d.id = id then { d with pos := c.pos + n, flags := r.flags } else d }
      | some e => r.s.copyFails ch { c with flags := r.flags } ⟨e.1, none, e.2.1, e.2.2.1, e.2.2.2, 2⟩
    else s

/-- A started copy runs to its end (R285). -/
def State.runCopy (s : State) (ch : BitVec 2) (id : Word) : State := s.moveCopy ch id (2 ^ 24)

/-- `copyStart`: the channel takes the copy at the head of its queue (R284). -/
def execCopyStart (ch : BitVec 2) (s : State) : Host.Outcome State Fault Refusal :=
  .next { s.onWork fun s => s.startCopy ch with copyAt := s.wall + 1 }

/-- `copyComplete`: a started copy runs to its end (R285). -/
def execCopyComplete (ch : BitVec 2) (id : Word) (s : State) : Host.Outcome State Fault Refusal :=
  .next { s.onWork fun s => s.runCopy ch id with copyAt := s.wall + 1 }

/-- The trap of a copy fault, at a bundle boundary of the access processor (R296). -/
def State.copyTrap (s : State) (ch : BitVec 2) (e : CopyErr) : TrapReq where
  cause := e.cause
  sub := e.sub
  agent := apId
  pc := e.copy.pc
  resume := (s.agent apId).pc
  addr := e.addr
  slice := 0
  rule := none
  engine := false
  deferred := false
  past := false
  late := 0
  tail := copyTail ch e.step e.copy.id e.copy.pos
  shown := e.shown
  early := false
  redo := .copy ch

/-- `copyFaultDelivery`: the fault of a stopped channel is taken; during a service it waits for the return (R296,
R341). -/
def execCopyFaultDelivery (ch : BitVec 2) (s : State) : Host.Outcome State Fault Refusal :=
  match (s.bank.chan ch).faults with
  | e :: _ => .next (s.takeTrap (s.copyTrap ch e))
  | [] => .next s

end Sys2Proof.Machine
end

