-- ==== Sys2Proof/Machine/Streams.lean ====
section
/-! DEFINITION. Streams: descriptors, pieces, claims, the STRM instructions, and the fills and drains (R177 to R183,
R212, R434). -/

namespace Sys2Proof.Machine

/-! ## Descriptors (R177, R178) -/

/-- The fields of a stream descriptor (R177). -/
def strDescOf (bs : List Byte) : StrDesc where
  kind := fieldOf bs 0x00 1
  ty := fieldOf bs 0x01 1
  flags := fieldOf bs 0x02 1
  chan := fieldOf bs 0x03 1
  rows := fieldOf bs 0x04 2
  cols := fieldOf bs 0x06 2
  base := fieldOf bs 0x08 8
  plane := fieldOf bs 0x10 8
  rstr := fieldOf bs 0x18 8
  pstr := fieldOf bs 0x20 8
  count := fieldOf bs 0x28 4
  sstr := fieldOf bs 0x2C 4
  sbase := fieldOf bs 0x30 8
  sblk := fieldOf bs 0x38 1

/-- An output stream. -/
def StrDesc.isOut (d : StrDesc) : Bool := d.flags.testBit 0
/-- A stream that wraps. -/
def StrDesc.wraps (d : StrDesc) : Bool := d.flags.testBit 1
/-- The element type. -/
def StrDesc.elTy (d : StrDesc) : Ty := (Ty.ofCode d.ty).getD .f32
/-- Bytes of an element; t3 and f6 count as one (R178). -/
def elBytes (c : Nat) : Nat :=
  match Ty.ofCode c with
  | some .t3 | some .f6 | none => 1
  | some t => tyBits t / 8

/-- A stride is not a multiple of the element size; for f6 not even (R178). -/
def strideBad (ty x : Nat) : Bool := if ty = 11 then decide (x % 2 ≠ 0) else decide (x % elBytes ty ≠ 0)

/-- The conditions of R178 by offset, in ascending order: `true` where the field fails. The rule names the type codes 13 to 15;
a byte above them, which is no code of R46, fails at the same offset. DESIGN CHOICE, log 68. -/
def strChecks (bs : List Byte) : List (Nat × Bool) :=
  let d := strDescOf bs
  [(0x00, decide (2 < d.kind)),
   (0x01, decide (13 ≤ d.ty)),
   (0x02, decide (d.flags / 4 ≠ 0) || (d.isOut && (decide (d.kind = 0) || decide (d.ty = 12)))),
   (0x03, if d.kind = 2 then decide (3 < d.chan) else decide (d.chan ≠ 0)),
   (0x04, decide (d.rows = 0) || decide (128 < d.rows)),
   (0x06, decide (d.cols = 0) || decide (128 < d.cols)),
   (0x08, (decide (d.kind = 0) && decide (d.base / 2 ^ 52 ≠ 30))
      || (decide (d.kind = 1) && decide (d.base / 2 ^ 21 ≠ 31 * 2 ^ 31))
      || decide (d.base % elBytes d.ty ≠ 0)),
   (0x10, decide (d.plane ≠ 0) && decide (d.ty ≠ 11)),
   (0x18, strideBad d.ty d.rstr),
   (0x20, strideBad d.ty d.pstr),
   (0x28, decide (d.count = 0) && d.wraps),
   (0x38, if d.sbase = 0 then decide (d.sblk ≠ 0)
      else decide (d.sblk ≠ 32) || decide (d.ty < 7) || decide (11 < d.ty)),
   (0x39, decide (fieldOf bs 0x39 7 ≠ 0))]

/-! ## Pieces (R179) -/

/-- A read by the engine that reports poison beside the bytes; what the path has read early was good (checks 1 to 7, R147). -/
def State.engPeek (s : State) (cx : BitVec 6) (run : Option Run) (va w : Nat) : Except (Byte × Nat) (List Byte × Bool) :=
  match s.locateW cx run .read va w with
  | .at key =>
    match s.heldMx key w with
    | some bs => .ok (bs, false)
    | none =>
      let bad := (s.mem.poisonAt key w).isSome
      if !bad && !s.served key false then .error (0x0A, va) else .ok (s.rd key w, bad)
  | .bad c => .error (c, va)
  | .miss => .error (0x06, va)

/-- The piece an index of the stream stands for (R179: wrap). -/
def StrDesc.pieceNo (d : StrDesc) (idx : Nat) : Nat := if d.wraps && d.count != 0 then idx % d.count else idx

/-- Offset of row `i` of piece `p` from the base. -/
def StrDesc.rowOff (d : StrDesc) (p i : Nat) : Nat := p * d.pstr + i * d.rstr

/-- An element as read: code, poison, and whether its byte is a ternary byte above 242. -/
structure Elem where
  code : Word
  bad : Bool
  tc : Bool

/-- Digit `e mod 5` of a ternary byte (R72). -/
def tritOfByte (b e : Nat) : Nat := if 242 < b then 0 else b / 3 ^ (e % 5) % 3

/-- Reads element `e` of row `i` of piece `p` (R71, R72, R179). -/
def State.readElem (s : State) (cx : BitVec 6) (run : Option Run) (d : StrDesc) (p i e : Nat) :
    Except (Byte × Nat) Elem :=
  let row := d.base + d.rowOff p i
  match d.elTy with
  | .t3 =>
    match s.engPeek cx run ((row + e / 5) % 2 ^ 64) 1 with
    | .ok (bs, bad) => .ok ⟨BitVec.ofNat 32 (tritOfByte (ofBytes bs) e), bad, decide (242 < ofBytes bs)⟩
    | .error x => .error x
  | .f6 =>
    match s.engPeek cx run ((row + e / 2) % 2 ^ 64) 1,
        s.engPeek cx run ((d.plane + d.rowOff p i / 2 + e / 4) % 2 ^ 64) 1 with
    | .ok (hi, b1), .ok (lo, b2) =>
      let h := ofBytes hi / 16 ^ (e % 2) % 16
      let l := ofBytes lo / 4 ^ (e % 4) % 4
      .ok ⟨BitVec.ofNat 32 (4 * h + l), b1 || b2, false⟩
    | .error x, _ => .error x
    | _, .error x => .error x
  | t =>
    let w := tyBits t / 8
    match s.engPeek cx run ((row + w * e) % 2 ^ 64) w with
    | .ok (bs, bad) => .ok ⟨BitVec.ofNat 32 (ofBytes bs), bad, false⟩
    | .error x => .error x

/-- Reads a scale byte (R179). -/
def State.readScale (s : State) (cx : BitVec 6) (run : Option Run) (d : StrDesc) (p i : Nat) : ScaleB :=
  match s.engPeek cx run ((d.sbase + p * d.sstr + i) % 2 ^ 64) 1 with
  | .ok (bs, bad) => ⟨BitVec.ofNat 8 (ofBytes bs), bad, none⟩
  | .error (c, va) => ⟨0, false, some (c, BitVec.ofNat 64 va)⟩

/-- The error of an element, if any. -/
def elemErr (e : Except (Byte × Nat) Elem) : Option (Byte × DWord) :=
  match e with
  | .ok _ => none
  | .error (c, va) => some (c, BitVec.ofNat 64 va)

/-- The element, or a zero where its reading failed. -/
def elemVal (e : Except (Byte × Nat) Elem) : Elem :=
  match e with
  | .ok x => x
  | .error _ => ⟨0, false, false⟩

/-- Reads a piece of a stream (R179). -/
def State.readPiece (s : State) (cx : BitVec 6) (run : Option Run) (d : StrDesc) (gen idx : Nat) : Piece :=
  let p := d.pieceNo idx
  let es := (List.range d.rows).flatMap fun i => (List.range d.cols).map fun e => s.readElem cx run d p i e
  let vs := es.map elemVal
  { gen := gen
    idx := idx
    rows := d.rows
    cols := d.cols
    elems := vs.map (·.code)
    bad := vs.map (·.bad)
    scales := if d.sbase = 0 then [] else (List.range (max d.rows d.cols)).map fun i => s.readScale cx run d p i
    tc := vs.any (·.tc)
    fault := es.findSome? elemErr }

/-- A stream of the bank. -/
def Bank.stream (b : Bank) (n : BitVec 4) : Strm := b.streams[n.toNat]

/-- Changes a stream. -/
def Bank.mapStream (b : Bank) (n : BitVec 4) (f : Strm → Strm) : Bank :=
  { b with streams := b.streams.set n.toNat (f (b.stream n)) }

/-- A piece that a stream's fill reads: its requester is the agent that configured the stream (R180). -/
def State.fillPiece (s : State) (n : BitVec 4) (d : StrDesc) (gen idx : Nat) : Piece :=
  { s with reader := some (s.bank.stream n).owner }.readPiece s.cx s.bank.run d gen idx

/-- Piece `k` of a claim: from the FIFO, or read now (R180). DEDUCED, log 27. -/
def State.pieceOf (s : State) (c : Claim) (k : Nat) : Piece :=
  match (s.bank.stream c.st).buf.find? fun p => p.gen == c.gen && p.idx == c.first + k with
  | some p => p
  | none => s.fillPiece c.st c.desc c.gen (c.first + k)

/-- Bytes of a row of elements in its main plane (R71, R72). -/
def StrDesc.rowLen (d : StrDesc) : Nat :=
  match d.elTy with
  | .t3 => (d.cols + 4) / 5
  | .f6 => (d.cols + 1) / 2
  | t => d.cols * (tyBits t / 8)

/-- Virtual ranges that a piece is read from, address and length: rows of elements, rows of the 2-bit plane, scale bytes
(R71, R179). -/
def StrDesc.spans (d : StrDesc) (idx : Nat) : List (Nat × Nat) :=
  let p := d.pieceNo idx
  (List.range d.rows).map (fun i => ((d.base + d.rowOff p i) % 2 ^ 64, d.rowLen))
    ++ (if d.elTy = .f6 then
        (List.range d.rows).map fun i => ((d.plane + d.rowOff p i / 2) % 2 ^ 64, (d.cols + 3) / 4) else [])
    ++ (if d.sbase = 0 then [] else [((d.sbase + p * d.sstr) % 2 ^ 64, max d.rows d.cols)])

/-- A piece that lies under an inbound scoreboard entry waits for its copy (R143, R180). -/
def State.fillWaits (s : State) (d : StrDesc) (idx : Nat) : Bool :=
  !s.board.isEmpty && (d.spans idx).any fun v =>
    decide (v.1 / 2 ^ 52 = 31) &&
      match s.locateLocal s.bank.run (v.1 % 2 ^ 52) 1 with
      | .at key => s.board.any fun e => !e.outbound && decide (key < e.hi) && decide (e.lo < key + v.2)
      | _ => false

/-- Cycles until the weight-store banks that a virtual range lies in have been refreshed (R142). -/
def State.spanRefresh (s : State) (v : Nat × Nat) : Nat :=
  if v.1 / 2 ^ 52 ≠ 30 then 0
  else
    ((List.range ((v.1 % 512 + v.2 + 511) / 512)).map fun i =>
      match s.locateW s.cx s.bank.run .read (max v.1 (v.1 / 512 * 512 + 512 * i)) 1 with
      | .at key => s.refreshLeft key
      | _ => 0).foldl max 0

/-- Cycles for which reading a piece meets a refreshing bank; a bank that is not refreshing keeps none (R28, R142). -/
def State.pieceRefresh (s : State) (d : StrDesc) (idx : Nat) : Nat :=
  if s.refresh.2 ≤ s.wall then 0 else ((d.spans idx).map s.spanRefresh).foldl max 0

/-- The core freezes until a bank that a stream read has met is refreshed (R28, R142). -/
def State.freezeFor (s : State) (n : Nat) : State := { s with freezes := s.freezes ++ [⟨.refresh, n⟩] }

/-! ## Claims (R181, R212) -/

/-- Pieces left of a bounded stream without wrap. -/
def Strm.past (x : Strm) (n : Nat) : Bool :=
  !x.desc.wraps && decide (x.desc.count ≠ 0) && decide (x.desc.count < x.claimed + n)

/-- A stream records a fault of a claim. -/
def Strm.blame (x : Strm) (cause : Byte) : Strm := { x with cause := cause }

/-- The state that a claim or an STRM instruction finds: a stream that has been cut is unconfigured to it (R182). -/
def Strm.now (x : Strm) : StState := if x.cut then .unconf else x.state

/-- Claims `n` pieces of a stream for an operation of the engine, or for a firing of a rule: the claim, or cause and
subcode of the fault (R181, R212). `taken`: an install ahead in the queue captures the stream. Where fewer than `k` pieces are
left, none of them is claimed. DESIGN CHOICE, log 69. -/
def Bank.claim (b : Bank) (n : BitVec 4) (k : Nat) (rule : Option (BitVec 5)) (taken : Bool) :
    Bank × Except (Byte × Byte) Claim :=
  let x := b.stream n
  if (x.captured.isSome && x.captured != rule) || taken then (b.mapStream n (·.blame 0x0D), .error (0x0D, 0x12))
  else
    match x.now with
    | .unconf => (b.mapStream n (·.blame 0x0D), .error (0x0D, 0x01))
    | .faulted => (b, .error (x.cause, x.sub))
    | _ =>
      if x.past k then (b.mapStream n fun x => { x with state := .exhausted, cause := 0x0D }, .error (0x0D, 0x02))
      else
        (b.mapStream n fun x => { x with claimed := x.claimed + k },
          .ok ⟨n, x.gen, x.claimed, k, 0, x.desc⟩)

/-- A claim given back by a firing that will fire again (R217). -/
def Bank.unclaim (b : Bank) (c : Claim) : Bank :=
  b.mapStream c.st fun x => if x.gen = c.gen then { x with claimed := c.first, consumed := c.first } else x

/-- The pieces of a claim have been consumed. -/
def Bank.consume (b : Bank) (c : Claim) : Bank :=
  b.mapStream c.st fun x =>
    { x with
      consumed := if x.gen = c.gen then c.first + c.count else x.consumed
      buf := x.buf.filter fun p => !(p.gen == c.gen && decide (p.idx < c.first + c.count)) }

/-- A fill fault that a consumer reached: the stream is faulted until it is configured or cut (R181). -/
def Bank.faultStream (b : Bank) (n : BitVec 4) (cause : Byte) : Bank :=
  b.mapStream n fun x => { x with state := .faulted, cause := cause, sub := 0x40 + n.setWidth 8 }

/-! ## The STRM instructions (R182, R434) -/

/-- Streams that a standing form names in its word (R210). -/
def standStreams : Stand → List (BitVec 4)
  | .mma _ sa sb .. | .tmm _ sa sb .. | .vproj _ sa sb .. => [sa, sb]
  | .tadd _ sa .. | .tmul _ sa .. | .tactd _ sa .. | .tsmaxd _ sa .. | .tscale _ sa .. => [sa]
  | .trms _ sx .. => [sx]
  | .trmsd _ sa sx .. => [sa, sx]
  | .tsmax _ sx _ norm => if norm then [sx] else []
  | _ => []

/-- An install among the operations captures the stream (R212). -/
def installTakes (l : List EngOp) (n : BitVec 4) : Bool :=
  l.any fun o =>
    match o.ins with
    | .standInstall f => (standStreams f).contains n
    | _ => false

/-- A stream is captured: by a rule, or by an install that is still in the engine's queue (R212, R434). -/
def Bank.isCaptured (b : Bank) (n : BitVec 4) : Bool := (b.stream n).captured.isSome || installTakes b.eng n

/-- An install of `attn`: which streams it captures stands in the block that it reads when it takes effect (R210, R259). -/
def attnInstall : Instr → Bool
  | .standInstall (.attn ..) => true
  | _ => false

/-- Operations that learn their claims, or the streams that they capture, from a block: an STRM instruction waits for them
(R181, R434). DEDUCED, log 27. -/
def claimsLate : Instr → Bool
  | .vproj .. | .vprojd .. | .attn .. | .attnd .. => true
  | i => attnInstall i

/-- Some operation of the queue has still to make its claims (R181). -/
def Bank.lateClaims (b : Bank) : Bool := b.eng.any fun o => claimsLate o.ins && o.claims.isEmpty

/-- STRM instructions that claim, reconfigure or cut wait for those claims (R181). -/
def State.strmWait (s : State) : Except Stop Unit := if s.bank.lateClaims then .error (.wait .engine) else .ok ()

/-- A new configuration: prefetched unclaimed data is discarded (R182). -/
def Strm.configure (x : Strm) (d : StrDesc) (by' : AgentId) : Strm :=
  { x with
    state := if d.isOut then .output else .input
    desc := d
    gen := x.gen + 1
    claimed := 0
    consumed := 0
    filled := 0
    buf := x.buf.filter fun p => p.gen != x.gen || decide (p.idx < x.claimed)
    cause := 0
    sub := 0
    owner := by'
    cut := false }

/-- `stcfg` (R178, R182). -/
def execStcfg (sn : BitVec 4) (bp : BitVec 4) (off : BitVec 20) (s : State) : Host.Outcome State Fault Refusal :=
  s.finish (s.unserved do
    let base ← s.rdBase bp
    let va := base + off.setWidth 64
    let key ← s.blockAt va
    s.strmWait
    let s := s.atBlock va key 64
    let bs := s.rd key 64
    if s.bank.isCaptured sn then s.trapNow 0x0D 0x12 va
    else
      match (strChecks bs).find? (·.2) with
      | some o => s.trapNow 0x0D (BitVec.ofNat 8 (0x80 + o.1)) va
      | none => pure (s.mapBank fun b => b.mapStream sn fun x => x.configure (strDescOf bs) s.turn))

/-- Claims pieces with no consumer; a count past the end leaves the stream exhausted (R182). -/
def Strm.skip (x : Strm) (n : Nat) : Strm :=
  if x.past n then { x with claimed := x.desc.count, consumed := x.desc.count, state := .exhausted, buf := [] }
  else
    { x with
      claimed := x.claimed + n
      consumed := x.claimed + n
      buf := x.buf.filter fun p => p.gen != x.gen || decide (x.claimed + n ≤ p.idx) }

/-- `stadv` (R182, R434). -/
def execStadv (sn : BitVec 4) (a : Opnd) (s : State) : Host.Outcome State Fault Refusal :=
  s.finish (s.unserved do
    let n ← s.rd32 a
    s.strmWait
    let x := s.bank.stream sn
    if s.bank.isCaptured sn then s.trapNow 0x0D 0x12 0
    else if x.now = .unconf then s.trapNow 0x0D 0x01 0
    else if x.state = .faulted then s.trapNow x.cause x.sub 0
    else pure (s.mapBank fun b => b.mapStream sn fun x => x.skip n.toNat))

/-- The state code of R183. -/
def StState.code : StState → Nat
  | .unconf => 0 | .input => 1 | .output => 2 | .exhausted => 3 | .faulted => 4

/-- The status word (R183); `fill` is the part that is not architected. -/
def Strm.status (x : Strm) (fill : Nat) : DWord :=
  BitVec.ofNat 64 (x.claimed % 2 ^ 32 * 2 ^ 32 + fill * 2 ^ 16 + x.state.code * 2 ^ 8 + x.cause.toNat)

/-- `ststat`: the fill is a free value from 0 to 128 (R182, R183). -/
def execStstat (sc : Sched) (d : Opnd) (sn : BitVec 4) (s : State) : Host.Outcome State Fault Refusal :=
  s.finish (s.unserved (.ok
    ({ s with free := s.free + 1 }.put64 sc d 2
      ((s.bank.stream sn).status ((Config.freeFill s.free).toNat % 129)))))

/-- A stream that has been cut becomes unconfigured once the pieces claimed before are delivered and written (R182). -/
def Bank.settleCut (b : Bank) (n : BitVec 4) : Bank :=
  if (b.stream n).cut && (b.stream n).outq.isEmpty && !(b.eng.any fun o => o.claims.any fun c => c.st == n) then
    b.mapStream n fun x => { x with state := .unconf, buf := [], cut := false }
  else b

/-- The streams of the bank that have been cut, settled. -/
def Bank.settleCuts (b : Bank) : Bank :=
  if b.streams.toList.any (·.cut) then ((List.range 16).map (BitVec.ofNat 4)).foldl Bank.settleCut b else b

/-- `stcut` (R182, R434). -/
def execStcut (sn : BitVec 4) (s : State) : Host.Outcome State Fault Refusal :=
  s.finish (s.unserved do
    s.strmWait
    if s.bank.isCaptured sn then s.trapNow 0x0D 0x12 0
    else pure (s.mapBank fun b => (b.mapStream sn fun x =>
      { x with
        cut := true
        buf := x.buf.filter fun p => p.gen != x.gen || decide (p.idx < x.claimed) }).settleCut sn))

/-! ## Fills and drains (R180, R181, R212) -/

/-- Bytes a piece takes in the FIFO. -/
def StrDesc.pieceBytes (d : StrDesc) : Nat := d.rows * d.cols * elBytes d.ty

/-- The fill may read one more piece: it exists, the FIFO of 8 KiB has room, a captured stream's gate is open, and all
claims of an earlier configuration have been consumed (R180, R182, R212). -/
def Bank.mayFill (b : Bank) (n : BitVec 4) : Option Nat :=
  let x := b.stream n
  let idx := max x.filled x.consumed
  let older := b.eng.any fun o => o.claims.any fun c => c.st == n && c.gen != x.gen
  let gateOk := match x.gate with
    | some (p0, k, s0, slot) => decide (idx < p0 + k * ((b.slot slot).fill - s0))
    | none => true
  let inside := x.desc.wraps || decide (x.desc.count = 0) || decide (idx < x.desc.count)
  if x.now == .input && gateOk && inside && !older
      && (x.buf.isEmpty || decide ((x.buf.length + 1) * x.desc.pieceBytes ≤ 8192)) then some idx
  else none

/-- One piece is read ahead (R180); a refreshing bank that it meets freezes the core (R28, R142). -/
def State.fillStream (s : State) (n : BitVec 4) : State :=
  match s.bank.mayFill n with
  | none => s
  | some idx =>
    let x := s.bank.stream n
    if s.fillWaits x.desc idx then s
    else if s.pieceRefresh x.desc idx ≠ 0 then s.freezeFor (s.pieceRefresh x.desc idx)
    else
      let s := s.surface x.owner
      let p := s.fillPiece n x.desc x.gen idx
      s.mapBank fun b => b.mapStream n fun x => { x with filled := idx + 1, buf := x.buf ++ [p] }

/-- An event of the engine, the streams or the rules: none while the core is frozen (R8, R27). -/
def State.unlessFrozen (s : State) (f : State → State) : Host.Outcome State Fault Refusal :=
  .next (if s.freezes.isEmpty then f s else s)

/-- `streamFill` (R180). -/
def execStreamFill (sn : BitVec 4) (s : State) : Host.Outcome State Fault Refusal :=
  s.unlessFrozen fun s => s.onWork fun s => s.fillStream sn

/-- Bytes of one row of an output piece, with their addresses (R71, R179). -/
def rowBytes (d : StrDesc) (p i : Nat) (es : List Word) : List (Nat × List Byte) :=
  let row := d.base + d.rowOff p i
  match d.elTy with
  | .f6 =>
    let pl := d.plane + d.rowOff p i / 2
    let at' := fun k => (es.getD k 0).toNat
    (List.range ((es.length + 1) / 2)).map (fun j =>
        ((row + j) % 2 ^ 64, [BitVec.ofNat 8 (at' (2 * j) / 4 + at' (2 * j + 1) / 4 * 16)]))
      ++ (List.range ((es.length + 3) / 4)).map (fun j =>
        ((pl + j) % 2 ^ 64, [BitVec.ofNat 8 (at' (4 * j) % 4 + at' (4 * j + 1) % 4 * 4 + at' (4 * j + 2) % 4 * 16
          + at' (4 * j + 3) % 4 * 64)]))
  | t =>
    let w := tyBits t / 8
    (List.range es.length).map fun k => ((row + w * k) % 2 ^ 64, bytesOf w (es.getD k 0).toNat)

/-- One write of a drain; the granule of a poisoned row is poisoned (R188). A completion error is deferred to the agent that
issued the operation (R147, R162). The pieces of `acdrain` have passed checks 1 to 5 when they are handed out (log 28); where a
piece of another operation, such as the normalisers of `tsmax`, fails one of them, its stream is faulted and no fault is raised:
the manual names none (R188, R200). DESIGN CHOICE, log 68. -/
def State.drainWrite (s : State) (n : BitVec 4) (agent : AgentId) (bad : Bool) (w : Nat × List Byte) : State :=
  match s.locateW s.cx s.bank.run .write w.1 w.2.length with
  | .at key =>
    if !s.served key true then s.deferTo agent ⟨BitVec.ofNat 64 w.1, 0x0A, 1, 0, .mx⟩
    else
      let s := (s.noteWrite (.here agent) .mx key w.2.length 4).wr key w.2
      if bad then s.poisonKey key else s
  | .bad c => s.mapBank fun b => b.faultStream n c
  | .miss => s

/-- Row `i` of an output piece: its writes (R179). -/
def OutP.row (e : OutP) (i : Nat) : List (Nat × List Byte) :=
  rowBytes e.desc (e.desc.pieceNo e.piece.idx) i ((e.piece.elems.drop (i * e.piece.cols)).take e.piece.cols)

/-- Homes and lanes that an output piece is written to (R167). -/
def State.outLanes (s : State) (e : OutP) : List (Home × Nat) :=
  ((List.range e.piece.rows).flatMap fun i =>
    ((e.row i).filterMap fun w =>
      match s.locateW s.cx s.bank.run .write w.1 w.2.length with
      | .at key => some (homeOf key, keyLane key)
      | _ => none).eraseDups).eraseDups

/-- No piece that the engine has handed out before, on another stream, has still to be written to a home and lane of this one
(R167). -/
def State.outFree (s : State) (e : OutP) : Bool :=
  let older := (s.bank.streams.toList.flatMap (·.outq)).filter fun x => decide (x.no < e.no)
  older.isEmpty ||
    let l := s.outLanes e
    older.all fun x => (s.outLanes x).all fun y => !l.contains y

/-- The oldest piece handed to the FIFO is written (R180, R188). DEDUCED, log 28. -/
def State.drainStream (s : State) (n : BitVec 4) : State :=
  match (s.bank.stream n).outq with
  | [] => s
  | e :: rest =>
    if s.outFree e then
      let s := (s.surface (e.agents.headD 0)).mapBank fun b => b.mapStream n fun x => { x with outq := rest }
      ((List.range e.piece.rows).foldl (fun s i =>
        let bad := (e.piece.bad.drop (i * e.piece.cols)).take e.piece.cols
        (e.row i).foldl (fun s w => s.drainWrite n (e.agents.headD 0) (bad.contains true) w) s) s).mapBank
        fun b => b.settleCut n
    else s

/-- `streamOutputWrite` (R180). -/
def execStreamOutputWrite (sn : BitVec 4) (s : State) : Host.Outcome State Fault Refusal :=
  s.unlessFrozen fun s => s.onWork fun s => s.drainStream sn

end Sys2Proof.Machine
end

