-- ==== Sys2Proof/Machine/Tiles.lean ====
section
/-! DEFINITION. What the matrix engine computes on accumulators: products, drains and the TILE functions (R184, R188,
R190, R197 to R200), as functions on elements. -/

namespace Sys2Proof.Machine

/-! ## Accumulators (R184) -/

/-- The accumulator's element type. -/
def Acc.ty (a : Acc) : Ty := if a.isI32 then .i32 else .f32

/-- Element (i, n); elements that became undefined are free values (R330). -/
def Acc.at (a : Acc) (i n : Nat) : Word :=
  match a.elems[i * a.cols + n]? with
  | some w => w
  | none =>
    match a.fill with
    | some t => Config.freeElem t (i * a.cols + n)
    | none => 0

/-- All elements from a function of row and column. -/
def Acc.build (a : Acc) (f : Nat → Nat → Word) : Acc :=
  { a with
    elems := (List.range a.rows).flatMap fun i => (List.range a.cols).map fun n => f i n
    fill := none }

/-- Every element zero, not live, unpoisoned. -/
def Acc.zero (a : Acc) : Acc := { a with elems := [], fill := none, live := false, poison := 0 }

/-- An accumulator of the bank. -/
def Bank.acc (b : Bank) (k : BitVec 2) : Acc := b.accs[k.toNat]

/-- Changes an accumulator. -/
def Bank.setAcc (b : Bank) (k : BitVec 2) (a : Acc) : Bank := { b with accs := b.accs.set k.toNat a }

/-- The rows of a mask. -/
def maskOf (p : Nat → Bool) (rows : Nat) : BitVec 128 :=
  (List.range rows).foldl (fun m i => if p i then m ||| (1 <<< i) else m) 0

/-! ## Values that collect flags -/

/-- A computation that raises flags. -/
abbrev Fm := StateM (BitVec 7)

/-- A rounded value joins its flags. -/
def fl (r : Nat × BitVec 7) : Fm Nat := fun f => (r.1, f ||| r.2)

/-- Flags alone. -/
def raise (g : BitVec 7) : Fm Unit := fun f => ((), f ||| g)

/-- RoundF32 of a sum, a difference, a product and a quotient under RNE. -/
def fAddM (a b : Nat) : Fm Nat := fl (f32Add a b)
/-- See `fAddM`. -/
def fSubM (a b : Nat) : Fm Nat := fl (f32Sub a b)
/-- See `fAddM`. -/
def fMulM (a b : Nat) : Fm Nat := fl (f32Mul a b)
/-- See `fAddM`. -/
def fDivM (a b : Nat) : Fm Nat := fl (fDiv .f32 rne a b)

/-- 1.0 in f32. -/
def f32One : Nat := 0x3F800000
/-- RoundF32(ln 2) (R198). -/
def f32Ln2 : Nat := 0x3F317218
/-- A natural number up to 128 in f32. -/
def f32OfNat (n : Nat) : Nat := (roundTo .f32 .rne false false n 0 false).1
/-- The sign inverted. -/
def f32Neg (a : Nat) : Nat := a ^^^ 0x80000000
/-- a > 0 for a number. -/
def f32Pos (a : Nat) : Bool := vLt (.fin false 0 0) (fval .f32 a)
/-- a < 0 for a number. -/
def f32IsNeg (a : Nat) : Bool := vLt (fval .f32 a) (.fin false 0 0)
/-- A NaN. -/
def f32IsNaN (a : Nat) : Bool := (fval .f32 a).isNaN
/-- A signalling NaN. -/
def f32IsSig (a : Nat) : Bool := (fval .f32 a).isSig

/-- A selection whose NaN operands give the canonical NaN (R69, R198). -/
def orNaN (xs : List Nat) (r : Nat) : Fm Nat :=
  if xs.any f32IsNaN then fl (canonNaN .f32, flagIf (xs.any f32IsSig) flIV) else pure r

/-- An element code of a stream type widened to f32 (R76: exact). -/
def widen (t : Ty) (code : Nat) : Fm Nat :=
  match t with
  | .f32 => pure code
  | t => fl (cvtFF .f32 t rne code)

/-! ## Activation functions (R198) -/

/-- s of the sigmoid: Rcp(RoundF32(1 + Exp2(-a))). -/
def sig2 (a : Nat) : Fm Nat := do
  let e ← fl (fExp2 .f32 rne (f32Neg a))
  let d ← fAddM f32One e
  fl (fRcp .f32 rne d)

/-- `Act(f, a)` (R198). -/
def act (f a : Nat) : Fm Nat :=
  match f with
  | 0 => orNaN [a] (if f32Pos a then a else 0)
  | 1 => sig2 a
  | 2 => do
    let s ← sig2 a
    fMulM a s
  | 3 => orNaN [a] (a % 2 ^ 31)
  | _ => fMulM a a

/-- `Grad(f, x, g)` (R198): steps from left to right, inner parentheses first. -/
def grad (f x g : Nat) : Fm Nat :=
  match f with
  | 0 => orNaN [x, g] (if f32Pos x then g else 0)
  | 1 => do
    let s ← sig2 x
    let c ← fSubM f32One s
    let a ← fMulM g f32Ln2
    let b ← fMulM a s
    fMulM b c
  | 2 => do
    let s ← sig2 x
    let c ← fSubM f32One s
    let a ← fMulM x f32Ln2
    let b ← fMulM a s
    let d ← fMulM b c
    let e ← fAddM s d
    fMulM g e
  | 3 => orNaN [x, g] (if f32Pos x then g else if f32IsNeg x then f32Neg g else 0)
  | _ => do
    let d ← fMulM 0x40000000 x
    fMulM g d

/-! ## Rows (R198 to R200) -/

/-- The eps of R199. -/
def epsOf (e : Nat) : Nat := if e = 255 then 0 else if e ≤ 126 then (127 - e) * 2 ^ 23 else 2 ^ (149 - e)

/-- r of `trms` and `trmsd` for a row of c values (R199). -/
def rmsR (xs : List Nat) (e : Nat) : Fm Nat := do
  let q ← xs.foldlM (fun q a => do
    let p ← fMulM a a
    fAddM q p) 0
  let m ← fDivM q (f32OfNat xs.length)
  let y ← fAddM m (epsOf e)
  fl (fRsqrt .f32 rne y)

/-- A row of `trms` (R199). -/
def rowTrms (e : Nat) (a w : List Nat) : Fm (List Nat) := do
  let r ← rmsR a e
  (a.zip w).mapM fun p => do
    let x ← fMulM p.1 r
    fMulM x p.2

/-- A row of `trmsd` (R199): the accumulator holds g. -/
def rowTrmsd (e : Nat) (g x w : List Nat) : Fm (List Nat) := do
  let r ← rmsR x e
  let wg := w.zip g
  let t ← (wg.zip x).foldlM (fun t p => do
    let a ← fMulM p.1.1 p.1.2
    let b ← fMulM a p.2
    fAddM t b) 0
  let rr ← fMulM r r
  let r3 ← fMulM rr r
  let tc ← fDivM t (f32OfNat x.length)
  let u ← fMulM r3 tc
  (wg.zip x).mapM fun p => do
    let a ← fMulM p.1.1 p.1.2
    let b ← fMulM r a
    let c ← fMulM u p.2
    fSubM b c

/-- The normaliser of a row (R85). -/
def rowNorm (a : List Nat) : Fm (Nat × Nat) :=
  a.foldlM (fun p x => fun f => let r := normTake p x; (r.1, f ||| r.2)) (f32NegInf, 0)

/-- exp2(x - m) / s, +0 where s = +0; a NaN is taken as -infinity (R200). -/
def softOf (p : Nat × Nat) (x : Nat) : Fm Nat :=
  if p.2 = 0 then pure 0
  else do
    let e ← fl (exp2Diff (if f32IsNaN x then f32NegInf else x) p.1)
    fDivM e p.2

/-- A row of `tsmax` (R200). -/
def rowTsmax (p : Nat × Nat) (a : List Nat) : Fm (List Nat) := a.mapM (softOf p)

/-- A row of `tsmaxd` (R200): the accumulator holds g. -/
def rowTsmaxd (g y : List Nat) : Fm (List Nat) := do
  let t ← (g.zip y).foldlM (fun t p => do
    let a ← fMulM p.1 p.2
    fAddM t a) 0
  (g.zip y).mapM fun p => do
    let a ← fMulM f32Ln2 p.2
    let b ← fSubM p.1 t
    fMulM a b

/-! ## Products (R190, R197) -/

/-- The value of a trit's digit. -/
def tritVal (d : Nat) : Int := if d = 1 then 1 else if d = 2 then -1 else 0

/-- The exact value of an element of a product (R190). -/
def elVal (t : Ty) (code : Nat) : FVal :=
  match t with
  | .i8 =>
    let x := sgnW 8 code
    .fin (decide (x < 0)) x.natAbs 0
  | .t3 =>
    let x := tritVal code
    .fin (decide (x < 0)) x.natAbs 0
  | t => fval t code

/-- One K chunk as a product sees it: element types, elements, poison and scales by accumulator row and column. -/
structure Chunk where
  tyA : Nat → Ty
  tyB : Nat → Ty
  a : Nat → Nat → Nat
  b : Nat → Nat → Nat
  aBad : Nat → Nat → Bool
  bBad : Nat → Nat → Bool
  sa : Nat → Option ScaleB
  sb : Nat → Option ScaleB
  tc : Bool
  fault : Option (BitVec 4 × Byte × DWord)

/-- Element (r, c) of a piece. -/
def Piece.at (p : Piece) (r c : Nat) : Nat := (p.elems.getD (r * p.cols + c) 0).toNat
/-- Poison of element (r, c). -/
def Piece.badAt (p : Piece) (r c : Nat) : Bool := p.bad.getD (r * p.cols + c) false
/-- Scale `i`, where the piece has scales. -/
def Piece.scale (p : Piece) (i : Nat) : Option ScaleB := p.scales[i]?

/-- The first piece of a list that could not be read, or whose scales up to `n` could not (R181). -/
def pieceFault (n : Nat) (l : List (BitVec 4 × Piece)) : Option (BitVec 4 × Byte × DWord) :=
  l.findSome? fun p =>
    match p.2.fault with
    | some f => some (p.1, f.1, f.2)
    | none => ((p.2.scales.take n).findSome? (·.fault)).map fun f => (p.1, f.1, f.2)

/-- A piece as an operand of a product: its element type and its stream. -/
abbrev OpPiece := Ty × BitVec 4 × Piece

/-- The chunk of A and B pieces: one of each, or four of each that a joint operation assembles, each of its stream's type
(R190, R191). `rows` and `cols` are the accumulator's. -/
def chunkOf (pa pb : List OpPiece) (ta tb : Bool) (rows cols : Nat) : Chunk :=
  let none' : OpPiece := (.f32, 0, ⟨0, 0, 0, 0, [], [], [], false, none⟩)
  let joint := decide (1 < pa.length)
  let at' := fun (l : List OpPiece) i => (l[if joint then i / 32 else 0]?).getD none'
  let pick := fun (l : List OpPiece) i => (at' l i).2.2
  let loc := fun i => if joint then i % 32 else i
  { tyA := fun i => (at' pa i).1
    tyB := fun n => (at' pb n).1
    a := fun i k => if ta then (pick pa i).at k (loc i) else (pick pa i).at (loc i) k
    b := fun k n => if tb then (pick pb n).at (loc n) k else (pick pb n).at k (loc n)
    aBad := fun i k => if ta then (pick pa i).badAt k (loc i) else (pick pa i).badAt (loc i) k
    bBad := fun k n => if tb then (pick pb n).badAt (loc n) k else (pick pb n).badAt k (loc n)
    sa := fun i => (pick pa i).scale (loc i)
    sb := fun n => (pick pb n).scale (loc n)
    tc := (pa ++ pb).any (·.2.2.tc)
    fault :=
      match pieceFault (if joint then 32 else rows) (pa.map (·.2)) with
      | some f => some f
      | none => pieceFault (if joint then 32 else cols) (pb.map (·.2)) }

/-- Rows that a chunk's poison keeps from receiving it (R197). -/
def Chunk.poisoned (c : Chunk) (rows cols : Nat) : BitVec 128 :=
  let sBad := fun (x : Option ScaleB) => (x.map (·.bad)).getD false
  let all := (List.range cols).any fun n => sBad (c.sb n) || (List.range 32).any fun k => c.bBad k n
  maskOf (fun i => all || sBad (c.sa i) || (List.range 32).any fun k => c.aBad i k) rows

/-- A scale's value; 127 without scales (R73). -/
def scaleVal (x : Option ScaleB) : Nat := (x.map (·.val.toNat)).getD 127

/-- One element of the accumulator takes a chunk (R190, R79, R81). -/
def Chunk.step (c : Chunk) (int : Bool) (acc : Nat) (i n : Nat) : Nat × BitVec 7 :=
  if int then
    let s := (List.range 32).foldl (fun (s : Int) k => s + tritVal (c.b k n) * sgnW 8 (c.a i k)) 0
    (wrapW 32 ((acc : Int) + s), 0)
  else
    groupAdd acc ((List.range 32).map fun k => elVal (c.tyA i) (c.a i k))
      ((List.range 32).map fun k => elVal (c.tyB n) (c.b k n))
      (scaleVal (c.sa i)) (scaleVal (c.sb n))

/-- A chunk is added to the rows of a mask (R190, R197): the accumulator and the flags. -/
def Acc.addChunk (x : Acc) (c : Chunk) (int : Bool) (rows : BitVec 128) : Acc × BitVec 7 :=
  let r := fun i n => if rows.getLsbD i then c.step int (x.at i n).toNat i n else ((x.at i n).toNat, 0)
  let all := (List.range x.rows).flatMap fun i => (List.range x.cols).map fun n => r i n
  ({ x with elems := all.map fun p => BitVec.ofNat 32 p.1, fill := none, live := true },
    orFlags (all.map (·.2)) ||| flagIf c.tc flTC)

/-! ## Drains (R188) -/

/-- One element of a drain (R188): scales where given, then the rounding to the output type. -/
def drainElem (isI32 : Bool) (t : Ty) (r : Rnd) (x : Nat) (rs cs : Option Nat) : Fm Nat :=
  if t = .i32 then pure x
  else do
    let f ← if isI32 then fl (cvtIF .f32 rne (sgnW 32 x)) else pure x
    let f ← match rs with
      | some s => fMulM f s
      | none => pure f
    let f ← match cs with
      | some s => fMulM f s
      | none => pure f
    if t = .f32 then pure f else fl (cvtFF t .f32 r f)

end Sys2Proof.Machine
end

