-- ==== Sys2Proof/Machine/Engine.lean ====
section
/-! DEFINITION. The matrix engine's queue: how operations enter it, and what the MTX and TILE operations do when the
engine reaches them (R181, R184 to R200). -/

namespace Sys2Proof.Machine

/-! ## Operations -/

/-- The instruction that a standing form stands for in a firing (R215). -/
def standInstr : Stand → Instr
  | .mma ac sa sb _ t ta tb kc => .mma ac sa sb t ta tb kc
  | .tmm ac sa sb _ ta tb kc => .tmm ac sa sb ta tb kc
  | .tadd ac sa _ t b => .tadd ac sa t b
  | .tmul ac sa _ t b => .tmul ac sa t b
  | .tact ac _ f => .tact ac f
  | .tactd ac sa _ t f => .tactd ac sa t f
  | .trms ac sx _ t e => .trms ac sx t e
  | .trmsd ac sa sx _ t e => .trmsd ac sa sx t e
  | .tsmax ac sx _ n => .tsmax ac sx n
  | .tsmaxd ac sa _ t => .tsmaxd ac sa t
  | .tscale ac sa _ t => .tscale ac sa t
  | .vproj ac sa sb _ t ta tb kc => .vproj ac sa sb t ta tb kc
  | .attn d bp _ off => .attn d bp off
  | .omap d bp off => .omap d bp off (.sp 0)
  | .cpy d bp _ off => .cpy d bp off

/-- Pieces that an operation claims at its issue, SA, SB, SX in order; a product claims kc of each (R181, R189, R191). -/
def needsOf : Instr → List (BitVec 4 × Nat)
  | .mma _ sa sb _ _ _ kc | .tmm _ sa sb _ _ kc | .tmmt _ sa sb _ kc | .tmmw _ sa sb _ kc =>
    [(sa, kc.toNat + 1), (sb, kc.toNat + 1)]
  | .jointOperation _ _ _ _ _ kc =>
    [0, 4, 8, 12].map (fun n => (n, kc.toNat + 1)) ++ [1, 5, 9, 13].map fun n => (n, kc.toNat + 1)
  | .acdrain _ sa sb sx _ rs cs _ _ => (if rs then [(sa, 1)] else []) ++ (if cs then [(sb, 1)] else []) ++ [(sx, 1)]
  | .acload _ sa _ => [(sa, 1)]
  | .tadd _ sa _ _ | .tmul _ sa _ _ | .tactd _ sa _ _ | .tsmaxd _ sa _ | .tscale _ sa _ => [(sa, 1)]
  | .trms _ sx _ _ => [(sx, 1)]
  | .trmsd _ sa sx _ _ => [(sa, 1), (sx, 1)]
  | .tsmax _ sx norm => if norm then [(sx, 1)] else []
  | _ => []

/-- Operations that record mode logs, and which take the pending tag (R265, R270). -/
def recordable : Instr → Bool
  | .mma .. | .tmm .. | .tadd .. | .tmul .. | .tact .. | .trms .. | .tsmax .. | .tscale .. | .vproj .. | .attn .. => true
  | .jointOperation p .. => p == .mma || p == .tmm
  | _ => false

/-- A fault with no more to report than its cause, subcode and address. -/
def engErr (cause sub : Byte) (addr : DWord) (chunk : Nat) : EngErr := ⟨cause, sub, addr, chunk, 0, []⟩

/-- Claims what is still to be claimed of a list, in order; the first claim that fails ends it (R181). `taken`: streams that
an install ahead in the queue captures (R212). -/
def claimAll (rule : Option (BitVec 5)) (taken : BitVec 4 → Bool) :
    List (BitVec 4 × Nat) → Bank → List Claim → Bank × List Claim × Option EngErr
  | [], b, cs => (b, cs, none)
  | (n, k) :: rest, b, cs =>
    match b.claim n k rule (taken n) with
    | (b, .ok c) => claimAll rule taken rest b (cs ++ [c])
    | (b, .error e) => (b, cs, some (engErr e.1 e.2 0 0))

/-- A joint operation that members have still to issue (R191). -/
def EngOp.lacksMembers (o : EngOp) : Bool :=
  match o.ins with
  | .jointOperation .. => decide (o.members.length < 4)
  | _ => false

/-- Makes the claims of an operation that are still missing. -/
def EngOp.claimIn (o : EngOp) (needs : List (BitVec 4 × Nat)) (taken : BitVec 4 → Bool) (b : Bank) : Bank × EngOp :=
  let r := claimAll (o.rule.map (·.1)) taken (needs.drop o.claims.length) b o.claims
  (r.1, { o with claims := r.2.1, err := r.2.2 })

/-- No stream is captured ahead: the operation stands at the head of the queue. -/
def untaken : BitVec 4 → Bool := fun _ => false

/-- An operation as it enters the queue. -/
def newOp (seq : Word) (uid : Nat) (owner : AgentId) (pc : DWord) (ins : Instr) : EngOp where
  seq := seq
  uid := uid
  owner := owner
  members := []
  pc := pc
  ins := ins
  word := 0
  claims := []
  valA := 0
  valB := 0
  addr := 0
  screen := 0
  rngkey := 0
  atrap := 0
  tag := defaultTag
  rule := none
  blk := []
  chunk := 0
  row := 0
  need := BitVec.allOnes 128
  scr := []
  block := 0
  wrote := false
  rank := 0
  mask := []
  before := none
  taken := []
  flags := 0
  err := none

/-- The operation makes its claims once the installs of `attn` ahead of it have read which streams they capture, or as it
enters (R181, R212). -/
def EngOp.claimBehind (o : EngOp) (ahead : List EngOp) (b : Bank) : Bank × EngOp :=
  if o.rule.isSome then o.claimIn (needsOf o.ins) untaken b
  else if ahead.any fun x => attnInstall x.ins then (b, o)
  else o.claimIn (needsOf o.ins) (installTakes ahead) b

/-- An operation enters the queue: it takes the next sequence number and makes the claims known at its issue
(R181, R192, R193). -/
def Bank.enter (b : Bank) (o : EngOp) : Bank :=
  let r := { o with seq := b.seq }.claimBehind b.eng b
  { r.1 with eng := r.1.eng ++ [r.2], seq := b.seq + 1 }

/-- Operations of the queue make the claims that they could not make at their issue (R181, R212). -/
def claimGo : List EngOp → List EngOp → Bank → Bank
  | ahead, [], b => { b with eng := ahead }
  | ahead, o :: os, b =>
    let r := if o.rule.isSome || o.err.isSome then (b, o) else o.claimBehind ahead b
    claimGo (ahead ++ [r.2]) os r.1

/-- See `claimGo`. -/
def Bank.claimQueue (b : Bank) : Bank := claimGo [] b.eng b

/-- The pending tag that an operation takes (R270). -/
def State.takeTag (s : State) (i : Instr) : State × DWord :=
  let tag := s.cur.tag
  match i with
  | .standInstall _ => (s.mapCur fun a => { a with tag := defaultTag }, tag)
  | _ => if recordable i then (s.mapCur fun a => { a with tag := defaultTag }, tag) else (s, defaultTag)

/-- The word of the instruction at work, as it was fetched (R36, R267). -/
def State.rawWord (s : State) : DWord :=
  match s.locate s.cx s.bank.run .fetch s.cur.bun.ipc.toNat 8 with
  | .at key => wordOfBytes (s.rd key 8)
  | _ => 0

/-- An engine instruction issues: its token is pending and its operation enters the queue (R26, R192, R193). `setup`
adds the operands that it reads at issue. -/
def State.engIssue (s : State) (ins : Instr) (d : Opnd) (wide : Bool) (setup : EngOp → EngOp) : State :=
  let t := s.takeTag ins
  let p := t.1.putPending d wide
  let o := newOp 0 p.2 s.turn s.cur.bun.ipc ins
  let o := { o with rngkey := s.cur.rngkey, atrap := s.cur.atrap, screen := s.bank.screen, tag := t.2, word := s.rawWord }
  p.1.mapBank fun b => b.enter (setup o)

/-- An engine instruction with no operands to read. -/
def State.engPlain (s : State) (ins : Instr) : Host.Outcome State Fault Refusal :=
  s.finish (s.unserved (.ok (s.engIssue ins (.q 0) false id)))

/-! ## What running an operation comes to -/

/-- An operation completes with its token's value (none: its sequence number) and flags, stops with a fault after what
it has done, or waits: for a fill, or for room in an output FIFO. -/
inductive EngRes where
  | done (s : State) (o : EngOp) (tok : Option DWord) (f : BitVec 7)
  | fault (s : State) (o : EngOp) (e : EngErr)
  | waits (s : State) (o : EngOp)

/-- A check that fails before any element changes. -/
def stopAt (s : State) (o : EngOp) (sub : Byte) : EngRes := .fault s o (engErr 0x0D sub 0 o.chunk)

/-- The first check of a list that fails, with its subcode of cause 0x0D. -/
def firstBad (l : List (Byte × Bool)) : Option Byte := (l.find? (·.2)).map (·.1)

/-- The operation's claim of a position. -/
def EngOp.claimAt (o : EngOp) (i : Nat) : Claim := o.claims.getD i ⟨0, 0, 0, 0, 0, StrDesc.zero⟩

/-- Pieces of a claim on an input stream that its FIFO does not hold yet (R180). -/
def State.unfilled (s : State) (c : Claim) : List Nat :=
  if c.desc.isOut then []
  else ((List.range c.count).map (c.first + ·)).filter fun k =>
    !((s.bank.stream c.st).buf.any fun p => p.gen == c.gen && p.idx == k)

/-- The FIFO of a claimed output stream has no room for a piece (R180). -/
def State.outFull (s : State) (c : Claim) : Bool :=
  let q := (s.bank.stream c.st).outq
  c.desc.isOut && !q.isEmpty && decide (8192 < (q.length + 1) * c.desc.pieceBytes)

/-- Cycles for which the operation's input meets a refreshing bank (R28, R142). -/
def State.opRefresh (s : State) (o : EngOp) : Nat :=
  if s.refresh.2 ≤ s.wall then 0
  else (o.claims.flatMap fun c => (s.unfilled c).map (s.pieceRefresh c.desc)).foldl max 0

/-- An operand of the operation is due, its FIFO is empty, and its fill waits for a copy: an underrun (R28, R143, R180). -/
def State.underruns (s : State) (o : EngOp) : Bool :=
  !s.board.isEmpty && o.claims.any fun c => (s.unfilled c).any (s.fillWaits c.desc)

/-- Some piece of the operation's claims waits for a copy or lies in a refreshing bank, or an output FIFO is full (R142,
R143, R180). -/
def State.opWaits (s : State) (o : EngOp) : Bool :=
  decide (s.opRefresh o ≠ 0) || s.underruns o || o.claims.any s.outFull

/-- All pieces of an operation are consumed. -/
def State.consumeAll (s : State) (o : EngOp) : State := s.mapBank fun b => o.claims.foldl (fun b c => b.consume c) b

/-- Stops at a piece that could not be read: its stream is faulted (R181). -/
def fillStop (s : State) (o : EngOp) (f : BitVec 4 × Byte × DWord) (chunk : Nat) : EngRes :=
  .fault (s.mapBank fun b => b.faultStream f.1 f.2.1) { o with chunk := chunk }
    (engErr f.2.1 (0x40 + f.1.setWidth 8) f.2.2 chunk)

/-- An input stream of a type. -/
def StrDesc.inOf (d : StrDesc) (ty : Nat) : Bool := !d.isOut && d.ty == ty
/-- The shape of a stream's pieces. -/
def StrDesc.shape (d : StrDesc) (r c : Nat) : Bool := d.rows == r && d.cols == c

/-! ## Products (R189 to R191, R197) -/

/-- A product instruction's parts. -/
structure ProdSpec where
  kind : Prod
  ac : BitVec 2
  t : Ty
  ta : Bool
  tb : Bool
  kc : Nat
  joint : Bool

/-- Type codes of a product's SA and SB are right (R189). -/
def ProdSpec.typesOk (p : ProdSpec) (a b : Nat) : Bool :=
  let t := p.t.enc.toNat
  match p.kind with
  | .mma => a == t && (b == t || (a == 9 && b == 10) || (a == 10 && b == 9))
  | .tmm => a == 4 && b == 12
  | .tmmt => a == t && (b == t || b == 12)
  | .tmmw => b == t && (a == t || a == 4)

/-- The checks of a product, all before any element changes (R189, R191). DEDUCED, log 29. -/
def ProdSpec.check (p : ProdSpec) (x : Acc) (da db : List StrDesc) : Option Byte :=
  let r := if p.joint then 32 else x.rows
  let c := if p.joint then 32 else x.cols
  firstBad [
    (0x04, (da ++ db).any (·.isOut) || !(da.all fun a => db.all fun b => p.typesOk a.ty b.ty)),
    (0x05, x.isI32 != (p.kind == .tmm)),
    (0x07, p.joint && !(x.rows == 128 && x.cols == 128)),
    (0x03, !(da.all fun d => if p.ta then d.shape 32 r else d.shape r 32)
      || !(db.all fun d => if p.tb then d.shape c 32 else d.shape 32 c)),
    (0x04, p.kind == .tmm && (da ++ db).any fun d => d.sbase != 0)]

/-- How the chunks of a product end: all added, or stopped at chunk `j` by poison in rows or by a fill fault, with the rows
that still need it. -/
inductive ChunkEnd where
  | all (x : Acc) (f : BitVec 7)
  | poison (x : Acc) (f : BitVec 7) (j : Nat) (rows : BitVec 128)
  | fill (x : Acc) (f : BitVec 7) (j : Nat) (rows : BitVec 128) (e : BitVec 4 × Byte × DWord)

/-- The pieces of chunk `j` of some claims. -/
def State.chunkPieces (s : State) (cs : List Claim) (j : Nat) : List OpPiece :=
  cs.map fun c => (c.desc.elTy, c.st, s.pieceOf c j)

/-- Adds chunks `j` on; `off` is the first piece's place in the claims (R190, R197). -/
def State.chunkGo (s : State) (ca cb : List Claim) (ta tb : Bool) (int : Bool) (off : Nat) :
    Nat → Nat → Acc → BitVec 7 → BitVec 128 → ChunkEnd
  | 0, _, x, f, _ => .all x f
  | n + 1, j, x, f, need =>
    let c := chunkOf (s.chunkPieces ca (off + j)) (s.chunkPieces cb (off + j)) ta tb x.rows x.cols
    match c.fault with
    | some e => .fill x f j need e
    | none =>
      let pm := c.poisoned x.rows x.cols &&& need
      let r := x.addChunk c int (need &&& ~~~pm)
      if pm = 0 then s.chunkGo ca cb ta tb int off n (j + 1) r.1 (f ||| r.2) (BitVec.allOnes 128)
      else .poison { r.1 with poison := x.poison ||| pm } (f ||| r.2) j pm

/-- In record mode the pieces of some claims from place `i` to place `j`, which an operation that stops has consumed, are kept
for its entry (R271). -/
def State.keepTaken (s : State) (o : EngOp) (cs : List Claim) (i j : Nat) : EngOp :=
  if s.bank.recm.on then
    { o with taken := (cs.flatMap fun c => (List.range (j - i)).map fun k => (c.st, s.pieceOf c (i + k))) ++ o.taken }
  else o

/-- Runs a product (R190, R191, R197). -/
def State.runProd (s : State) (o : EngOp) (p : ProdSpec) : EngRes :=
  let x := s.bank.acc p.ac
  let h := if p.joint then 4 else 1
  let ca := o.claims.take h
  let cb := o.claims.drop h
  match p.check x (ca.map (·.desc)) (cb.map (·.desc)) with
  | some sub => stopAt s o sub
  | none =>
    if s.opWaits o then .waits s o
    else
      match s.chunkGo ca cb p.ta p.tb (p.kind == .tmm) 0 (p.kc - o.chunk) o.chunk x o.flags o.need with
      | .all x f => .done ((s.mapBank fun b => b.setAcc p.ac x).consumeAll o) o none f
      | .poison x f j rows =>
        .fault (s.mapBank fun b => b.setAcc p.ac x)
          { s.keepTaken o o.claims o.chunk j with chunk := j, need := rows, flags := f } (engErr 0x09 0 0 j)
      | .fill x f j rows e =>
        fillStop (s.mapBank fun b => b.setAcc p.ac x) { s.keepTaken o o.claims o.chunk j with need := rows, flags := f } e j

/-! ## Accumulator operations (R186 to R188) -/

/-- `acfg` (R186). -/
def State.runAcfg (s : State) (o : EngOp) (ac : BitVec 2) (i32 : Bool) (rows cols : Nat) (discard : Bool) : EngRes :=
  let x := s.bank.acc ac
  if x.live && !discard then stopAt s o 0x06
  else .done (s.mapBank fun b => b.setAcc ac (Acc.zero ⟨rows, cols, i32, [], none, false, 0⟩)) o none 0

/-- `aczero` (R187). -/
def State.runAczero (s : State) (o : EngOp) (ac : BitVec 2) (i32 : Bool) : EngRes :=
  let x := s.bank.acc ac
  if x.isI32 != i32 then stopAt s o 0x05 else .done (s.mapBank fun b => b.setAcc ac x.zero) o none 0

/-- `acload` (R187). -/
def State.runAcload (s : State) (o : EngOp) (ac : BitVec 2) (i32 : Bool) : EngRes :=
  let x := s.bank.acc ac
  let c := o.claimAt 0
  match firstBad [(0x05, x.isI32 != i32), (0x04, !c.desc.inOf (if i32 then 0 else 6)),
      (0x03, !c.desc.shape x.rows x.cols)] with
  | some sub => stopAt s o sub
  | none =>
    if s.opWaits o then .waits s o
    else
      let p := s.pieceOf c 0
      match pieceFault 0 [(c.st, p)] with
      | some e => fillStop s o e 0
      | none =>
        let bad := maskOf (fun i => (List.range x.cols).any fun n => p.badAt i n) x.rows
        let y := { x.build fun i n => BitVec.ofNat 32 (p.at i n) with live := true, poison := bad }
        .done ((s.mapBank fun b => b.setAcc ac y).consumeAll o) o none 0

/-- The agents that issued an operation: its owner first. -/
def EngOp.agents (o : EngOp) : List AgentId := o.owner :: (o.members.map (·.1)).filter (· != o.owner)

/-- An output piece of an operation is handed to its stream's FIFO, under the next number (R162, R180, R188). -/
def State.handOut (s : State) (o : EngOp) (c : Claim) (rows cols : Nat) (elems : List Word) (bad : List Bool) : State :=
  s.mapBank fun b => { b.mapStream c.st fun x =>
    { x with outq := x.outq ++
      [⟨o.agents, o.uid, b.uid, c.desc, ⟨c.gen, c.first, rows, cols, elems, bad, [], false, none⟩⟩] } with
    uid := b.uid + 1 }

/-- The first write of an output piece that fails checks 1 to 5 of R147: its cause and address. -/
def State.drainBad (s : State) (c : Claim) (rows cols : Nat) : Option (Byte × DWord) :=
  (List.range rows).findSome? fun i =>
    (rowBytes c.desc (c.desc.pieceNo c.first) i (List.replicate cols 0)).findSome? fun w =>
      match s.locateW s.cx s.bank.run .write w.1 w.2.length with
      | .bad e => some (e, BitVec.ofNat 64 w.1)
      | _ => none

/-- Scale `i` of a scale piece of a drain, where the drain has one. -/
def scaleOf (p : Option Piece) (i : Nat) : Option Nat := p.map fun p => (p.elems.getD i 0).toNat
/-- That scale is poisoned. -/
def scaleBad (p : Option Piece) (i : Nat) : Bool := (p.map fun p => p.bad.getD i false).getD false

/-- All elements of a drain with their flags (R188). -/
def Acc.drain (x : Acc) (t : Ty) (r : Rnd) (rs cs : Option Piece) : Fm (List Word) :=
  ((List.range x.rows).flatMap fun i => (List.range x.cols).map fun n => (i, n)).mapM fun p => do
    let v ← drainElem x.isI32 t r (x.at p.1 p.2).toNat (scaleOf rs p.1) (scaleOf cs p.2)
    pure (BitVec.ofNat 32 v)

/-- `acdrain` (R188). A drain that fails both subcodes reports 0x04 and not 0x03, as the operations of TILE do: R188 names 0x03
first and ranks neither. DEDUCED, log 29. -/
def State.runAcdrain (s : State) (o : EngOp) (ac : BitVec 2) (t : Ty) (rs cs keep : Bool) (r : Rnd) : EngRes :=
  let x := s.bank.acc ac
  let ci := o.claimAt (bit rs + bit cs)
  let a := if rs then some (o.claimAt 0) else none
  let b := if cs then some (o.claimAt (bit rs)) else none
  let scales := fun (c : Option Claim) (f : StrDesc → Bool) => (c.map fun c => f c.desc).getD true
  match firstBad [
      (0x05, t == .i32 && (!x.isI32 || rs || cs)),
      (0x04, !(ci.desc.isOut && ci.desc.ty == t.enc.toNat) || !scales a (·.inOf 6) || !scales b (·.inOf 6)),
      (0x03, !ci.desc.shape x.rows x.cols || !scales a (·.shape x.rows 1) || !scales b (·.shape 1 x.cols))] with
  | some sub => stopAt s o sub
  | none =>
    if s.opWaits o then .waits s o
    else
      let pa := a.map fun c => s.pieceOf c 0
      let pb := b.map fun c => s.pieceOf c 0
      let out : Piece := ⟨ci.gen, ci.first, x.rows, x.cols, [], [], [], false, s.drainBad ci x.rows x.cols⟩
      match pieceFault 0 ((a.toList ++ b.toList).map (fun c => (c.st, s.pieceOf c 0)) ++ [(ci.st, out)]) with
      | some e => fillStop s o e 0
      | none =>
        let v := x.drain t r pa pb 0
        let colBad := (List.range x.cols).any (scaleBad pb)
        let bad := (List.range x.rows).flatMap fun i =>
          List.replicate x.cols (x.poison.getLsbD i || scaleBad pa i || colBad)
        let s := (s.handOut o ci x.rows x.cols v.1 bad).consumeAll o
        .done (s.mapBank fun b => b.setAcc ac { x with live := x.live && keep }) o none v.2

/-! ## TILE (R198 to R200) -/

/-- A row of the accumulator as f32 codes. -/
def Acc.rowOf (x : Acc) (i : Nat) : List Nat := (List.range x.cols).map fun n => (x.at i n).toNat

/-- Runs a function of rows over the rows of a mask (R198). -/
def Acc.mapRows (x : Acc) (rows : BitVec 128) (f : Nat → List Nat → Fm (List Nat)) : Fm Acc := do
  let rs ← (List.range x.rows).mapM fun i => if rows.getLsbD i then f i (x.rowOf i) else pure (x.rowOf i)
  pure { x with elems := rs.flatten.map (BitVec.ofNat 32), fill := none, live := true }

/-- A TILE operation on rows, with the pieces it reads and the rows that their poison touches (R197, R198). -/
def State.runRows (s : State) (o : EngOp) (ac : BitVec 2) (ps : List (BitVec 4 × Piece)) (bad : Nat → Bool)
    (f : Nat → List Nat → Fm (List Nat)) : EngRes :=
  let x := s.bank.acc ac
  match pieceFault 0 ps with
  | some e => fillStop s o e 0
  | none =>
    let pm := maskOf bad x.rows &&& o.need
    let r := x.mapRows (o.need &&& ~~~pm) f o.flags
    if pm = 0 then .done ((s.mapBank fun b => b.setAcc ac r.1).consumeAll o) o none r.2
    else
      .fault (s.mapBank fun b => b.setAcc ac { r.1 with poison := x.poison ||| pm })
        { o with need := pm, flags := r.2 } (engErr 0x09 0 0 0)

/-- The broadcast shapes of `tadd` and `tmul` (R198). -/
def bcShape (b : BitVec 2) (d : StrDesc) (x : Acc) : Bool :=
  match b.toNat with
  | 0 => d.shape x.rows x.cols
  | 1 => d.shape 1 x.cols
  | _ => d.shape x.rows 1

/-- The element of a broadcast piece for row i and column n (R198). -/
def bcAt {α : Type} (b : BitVec 2) (f : Nat → Nat → α) (i n : Nat) : α :=
  match b.toNat with
  | 0 => f i n
  | 1 => f 0 n
  | _ => f i 0

/-- Some element that row `i` uses is poisoned. -/
def rowBad (cols : Nat) (f : Nat → Nat → Bool) (i : Nat) : Bool := (List.range cols).any fun n => f i n

/-- The checks of a TILE operation with an input stream of type T (R198). -/
def tileCheck (x : Acc) (c : Claim) (t : Ty) (int shapeOk : Bool) : Option Byte :=
  firstBad [(0x05, x.isI32 != int), (0x04, !c.desc.inOf t.enc.toNat), (0x03, !shapeOk)]

/-- `tadd` and `tmul` (R198). Block scales that the stream's descriptor names are neither applied nor looked at, here as in
every operation of TILE: R198 speaks of the piece's elements alone. DESIGN CHOICE, log 69. -/
def State.runElem (s : State) (o : EngOp) (ac : BitVec 2) (t : Ty) (b : BitVec 2) (mul : Bool) : EngRes :=
  let x := s.bank.acc ac
  let c := o.claimAt 0
  match tileCheck x c t (!mul && t == .i32) (bcShape b c.desc x) with
  | some sub => stopAt s o sub
  | none =>
    if s.opWaits o then .waits s o
    else
      let p := s.pieceOf c 0
      s.runRows o ac [(c.st, p)] (rowBad x.cols fun i n => bcAt b p.badAt i n) fun i row =>
        ((List.range x.cols).zip row).mapM fun q =>
          let v := bcAt b p.at i q.1
          if t = .i32 then pure ((q.2 + v) % 2 ^ 32)
          else do
            let w ← widen t v
            if mul then fMulM q.2 w else fAddM q.2 w

/-- `tact` (R198). -/
def State.runTact (s : State) (o : EngOp) (ac : BitVec 2) (f : BitVec 4) : EngRes :=
  if (s.bank.acc ac).isI32 then stopAt s o 0x05
  else s.runRows o ac [] (fun _ => false) fun _ row => row.mapM (act f.toNat)

/-- The row of a piece, widened to f32. -/
def Piece.rowF (p : Piece) (t : Ty) (i : Nat) : Fm (List Nat) := (List.range p.cols).mapM fun n => widen t (p.at i n)

/-- A TILE operation whose stream gives one piece of the accumulator's shape, or of one row (R198 to R200). -/
def State.runTile1 (s : State) (o : EngOp) (ac : BitVec 2) (t : Ty) (one : Bool)
    (f : List Nat → List Nat → Fm (List Nat)) : EngRes :=
  let x := s.bank.acc ac
  let c := o.claimAt 0
  match tileCheck x c t false (if one then c.desc.shape 1 x.cols else c.desc.shape x.rows x.cols) with
  | some sub => stopAt s o sub
  | none =>
    if s.opWaits o then .waits s o
    else
      let p := s.pieceOf c 0
      let r := fun i => if one then 0 else i
      s.runRows o ac [(c.st, p)] (rowBad x.cols fun i n => p.badAt (r i) n) fun i row => do
        let w ← p.rowF t (r i)
        f row w

/-- `trmsd` (R199). -/
def State.runTrmsd (s : State) (o : EngOp) (ac : BitVec 2) (t : Ty) (e : Nat) : EngRes :=
  let x := s.bank.acc ac
  let ca := o.claimAt 0
  let cw := o.claimAt 1
  match firstBad [(0x05, x.isI32), (0x04, !ca.desc.inOf t.enc.toNat || !cw.desc.inOf t.enc.toNat),
      (0x03, !ca.desc.shape x.rows x.cols || !cw.desc.shape 1 x.cols)] with
  | some sub => stopAt s o sub
  | none =>
    if s.opWaits o then .waits s o
    else
      let pa := s.pieceOf ca 0
      let pw := s.pieceOf cw 0
      s.runRows o ac [(ca.st, pa), (cw.st, pw)]
        (rowBad x.cols fun i n => pa.badAt i n || pw.badAt 0 n) fun i row => do
          let xs ← pa.rowF t i
          let ws ← pw.rowF t 0
          rowTrmsd e row xs ws

/-- `tsmax` (R200): with the normaliser output a rows x 2 f32 piece goes to SX. The piece is written unpoisoned, also for a row
whose poison bit is set: what a poisoned row does to an output is said of `acdrain` alone (R188). DESIGN CHOICE, log 69. -/
def State.runTsmax (s : State) (o : EngOp) (ac : BitVec 2) (norm : Bool) : EngRes :=
  let x := s.bank.acc ac
  let c := o.claimAt 0
  match firstBad [(0x05, x.isI32), (0x04, norm && !(c.desc.isOut && c.desc.ty == 6)),
      (0x03, norm && !c.desc.shape x.rows 2)] with
  | some sub => stopAt s o sub
  | none =>
    if s.opWaits o then .waits s o
    else
      let ns := (List.range x.rows).mapM (fun i => rowNorm (x.rowOf i)) o.flags
      let at' := fun i => ns.1.getD i (f32NegInf, 0)
      let s := if norm then
          s.handOut o c x.rows 2 ((List.range x.rows).flatMap fun i =>
            [BitVec.ofNat 32 (at' i).1, BitVec.ofNat 32 (at' i).2]) (List.replicate (2 * x.rows) false)
        else s
      s.runRows { o with flags := ns.2 } ac [] (fun _ => false) fun i row => rowTsmax (at' i) row

/-- `tscale` (R198). -/
def State.runTscale (s : State) (o : EngOp) (ac : BitVec 2) (t : Ty) : EngRes :=
  let x := s.bank.acc ac
  let c := o.claimAt 0
  match tileCheck x c t false (c.desc.shape 1 1) with
  | some sub => stopAt s o sub
  | none =>
    if s.opWaits o then .waits s o
    else
      let p := s.pieceOf c 0
      s.runRows o ac [(c.st, p)] (fun _ => p.badAt 0 0) fun _ row => do
        let v ← widen t (p.at 0 0)
        row.mapM fun a => fMulM a v

/-- Runs an MTX or TILE operation. -/
def State.runTileOp (s : State) (o : EngOp) : EngRes :=
  match o.ins with
  | .mma ac _ _ t ta tb kc => s.runProd o ⟨.mma, ac, t, ta, tb, kc.toNat + 1, false⟩
  | .tmm ac _ _ ta tb kc => s.runProd o ⟨.tmm, ac, .t3, ta, tb, kc.toNat + 1, false⟩
  | .tmmt ac _ _ t kc => s.runProd o ⟨.tmmt, ac, t, false, true, kc.toNat + 1, false⟩
  | .tmmw ac _ _ t kc => s.runProd o ⟨.tmmw, ac, t, true, false, kc.toNat + 1, false⟩
  | .jointOperation p ac t ta tb kc =>
    s.runProd o ⟨p, ac, t, if p = .tmmw then true else if p = .tmmt then false else ta,
      if p = .tmmt then true else if p = .tmmw then false else tb, kc.toNat + 1, true⟩
  | .acfg ac i32 rows cols discard => s.runAcfg o ac i32 (rows.toNat + 1) (cols.toNat + 1) discard
  | .aczero ac i32 => s.runAczero o ac i32
  | .acload ac _ i32 => s.runAcload o ac i32
  | .acdrain ac _ _ _ t rs cs keep r => s.runAcdrain o ac t rs cs keep r
  | .tadd ac _ t b => s.runElem o ac t b false
  | .tmul ac _ t b => s.runElem o ac t b true
  | .tact ac f => s.runTact o ac f
  | .tactd ac _ t f => s.runTile1 o ac t false fun g x => (x.zip g).mapM fun p => grad f.toNat p.1 p.2
  | .trms ac _ t e => s.runTile1 o ac t true fun a w => rowTrms e.toNat a w
  | .trmsd ac _ _ t e => s.runTrmsd o ac t e.toNat
  | .tsmax ac _ norm => s.runTsmax o ac norm
  | .tsmaxd ac _ t => s.runTile1 o ac t false fun g y => rowTsmaxd g y
  | .tscale ac _ t => s.runTscale o ac t
  | _ => .done s o none 0

/-! ## Issue of MTX and TILE (R185 to R191, R198) -/

/-- `mma` (R189, R190). -/
def execMma (ac : BitVec 2) (sa sb : BitVec 4) (t : Ty) (ta tb : Bool) (kc : BitVec 6) (s : State) :
    Host.Outcome State Fault Refusal := s.engPlain (.mma ac sa sb t ta tb kc)
/-- `tmm` (R189, R190). -/
def execTmm (ac : BitVec 2) (sa sb : BitVec 4) (ta tb : Bool) (kc : BitVec 6) (s : State) :
    Host.Outcome State Fault Refusal := s.engPlain (.tmm ac sa sb ta tb kc)
/-- `tmmt` (R189, R190). -/
def execTmmt (ac : BitVec 2) (sa sb : BitVec 4) (t : Ty) (kc : BitVec 6) (s : State) :
    Host.Outcome State Fault Refusal := s.engPlain (.tmmt ac sa sb t kc)
/-- `tmmw` (R189, R190). -/
def execTmmw (ac : BitVec 2) (sa sb : BitVec 4) (t : Ty) (kc : BitVec 6) (s : State) :
    Host.Outcome State Fault Refusal := s.engPlain (.tmmw ac sa sb t kc)
/-- `acfg` (R186). -/
def execAcfg (ac : BitVec 2) (i32 : Bool) (rows cols : BitVec 7) (discard : Bool) (s : State) :
    Host.Outcome State Fault Refusal := s.engPlain (.acfg ac i32 rows cols discard)
/-- `aczero` (R187). -/
def execAczero (ac : BitVec 2) (i32 : Bool) (s : State) : Host.Outcome State Fault Refusal := s.engPlain (.aczero ac i32)
/-- `acdrain` (R188). -/
def execAcdrain (ac : BitVec 2) (sa sb sx : BitVec 4) (t : Ty) (rs cs keep : Bool) (r : Rnd) (s : State) :
    Host.Outcome State Fault Refusal := s.engPlain (.acdrain ac sa sb sx t rs cs keep r)
/-- `acload` (R187). -/
def execAcload (ac : BitVec 2) (sa : BitVec 4) (i32 : Bool) (s : State) : Host.Outcome State Fault Refusal :=
  s.engPlain (.acload ac sa i32)
/-- `tadd` (R198). -/
def execTadd (ac : BitVec 2) (sa : BitVec 4) (t : Ty) (b : BitVec 2) (s : State) : Host.Outcome State Fault Refusal :=
  s.engPlain (.tadd ac sa t b)
/-- `tmul` (R198). -/
def execTmul (ac : BitVec 2) (sa : BitVec 4) (t : Ty) (b : BitVec 2) (s : State) : Host.Outcome State Fault Refusal :=
  s.engPlain (.tmul ac sa t b)
/-- `tact` (R198). -/
def execTact (ac : BitVec 2) (f : BitVec 4) (s : State) : Host.Outcome State Fault Refusal := s.engPlain (.tact ac f)
/-- `tactd` (R198). -/
def execTactd (ac : BitVec 2) (sa : BitVec 4) (t : Ty) (f : BitVec 4) (s : State) : Host.Outcome State Fault Refusal :=
  s.engPlain (.tactd ac sa t f)
/-- `trms` (R199). -/
def execTrms (ac : BitVec 2) (sx : BitVec 4) (t : Ty) (e : BitVec 8) (s : State) : Host.Outcome State Fault Refusal :=
  s.engPlain (.trms ac sx t e)
/-- `trmsd` (R199). -/
def execTrmsd (ac : BitVec 2) (sa sx : BitVec 4) (t : Ty) (e : BitVec 8) (s : State) : Host.Outcome State Fault Refusal :=
  s.engPlain (.trmsd ac sa sx t e)
/-- `tsmax` (R200). -/
def execTsmax (ac : BitVec 2) (sx : BitVec 4) (norm : Bool) (s : State) : Host.Outcome State Fault Refusal :=
  s.engPlain (.tsmax ac sx norm)
/-- `tsmaxd` (R200). -/
def execTsmaxd (ac : BitVec 2) (sa : BitVec 4) (t : Ty) (s : State) : Host.Outcome State Fault Refusal :=
  s.engPlain (.tsmaxd ac sa t)
/-- `tscale` (R198). -/
def execTscale (ac : BitVec 2) (sa : BitVec 4) (t : Ty) (s : State) : Host.Outcome State Fault Refusal :=
  s.engPlain (.tscale ac sa t)

/-! ## Joint operations (R191) -/

/-- The cluster that leads the next joint operation. -/
def Bank.lead (b : Bank) : AgentId := ⟨b.joint % 4, by omega⟩

/-- The lead's own part of a joint operation: its instruction's address and its pending tag (R191, R195, R270). -/
def EngOp.ledBy (o : EngOp) (c : AgentId) (pc tag : DWord) : EngOp := if o.owner = c then { o with pc := pc, tag := tag } else o

/-- A further member joins the joint operation that lacks members: at most one does. -/
def joinOpen (c : AgentId) (uid : Nat) (pc tag : DWord) (l : List EngOp) : List EngOp :=
  l.map fun o => if o.lacksMembers then { o with members := o.members ++ [(c, uid)] }.ledBy c pc tag else o

/-- A joint operation of four clusters: C0's bundle enters it for all, the others take their tokens (R181, R191, R192). Where a
member's bundle traps in that cycle, the engine holds the operation until the member has issued it. -/
def State.jointIssue (s : State) (ins : Instr) : State :=
  let t := s.takeTag ins
  let p := t.1.putPending (.q 0) false
  if s.turn = 0 then
    let o := newOp 0 p.2 s.bank.lead s.cur.bun.ipc ins
    let o := { o with members := [(0, p.2)], word := s.rawWord }.ledBy 0 s.cur.bun.ipc t.2
    p.1.mapBank fun b => { b.enter o with joint := b.joint + 1 }
  else p.1.mapBank fun b => { b with eng := joinOpen s.turn p.2 s.cur.bun.ipc t.2 b.eng }

/-- A joint operation (R191). -/
def execJointOperation (p : Prod) (ac : BitVec 2) (t : Ty) (ta tb : Bool) (kc : BitVec 6) (s : State) :
    Host.Outcome State Fault Refusal :=
  s.finish (s.unserved (.ok (s.jointIssue (.jointOperation p ac t ta tb kc))))

end Sys2Proof.Machine
end

