-- ==== Sys2Proof/Machine/Vocab.lean ====
section
/-! DEFINITION. Vocabulary projection and the screen: `vproj`, `vmerge` and `vprojd` (R228 to R244). -/

namespace Sys2Proof.Machine

/-! ## Configuration (R228, R229) -/

/-- A screen configuration block. -/
structure VCfg where
  k : Nat
  mode : Nat
  lc : Nat
  p : Nat
  table : Nat
  spoil : Nat
  cap : Nat
  v : Nat
  base : Nat
  width : Nat
  out : Nat
  padded : Nat
  shard : Nat
  rowBase : Nat

/-- The fields of the block (R228). -/
def vcfgOf (bs : List Byte) : VCfg where
  k := fieldOf bs 0x00 1
  mode := fieldOf bs 0x01 1
  lc := fieldOf bs 0x02 1
  p := fieldOf bs 0x04 4
  table := fieldOf bs 0x08 8
  spoil := fieldOf bs 0x10 8
  cap := fieldOf bs 0x18 4
  v := fieldOf bs 0x1C 4
  base := fieldOf bs 0x20 4
  width := fieldOf bs 0x24 4
  out := fieldOf bs 0x28 8
  padded := fieldOf bs 0x30 4
  shard := fieldOf bs 0x34 2
  rowBase := fieldOf bs 0x38 4

/-- p lies in (0, 1] (R228). -/
def probOk (p : Nat) : Bool := f32Pos p && !f32IsNaN p && !vLt (fval .f32 f32One) (fval .f32 p)

/-- The first field that fails, as subcode 0xC0 plus its offset (R229). -/
def vcfgBad (bs : List Byte) (isD : Bool) : Option Byte :=
  let c := vcfgOf bs
  firstBad [
    (0xC0, decide (c.k = 0) || decide (64 < c.k)),
    (0xC1, decide (1 < c.mode)),
    (0xC2, decide (8 < c.lc)),
    (0xC3, decide (fieldOf bs 0x03 1 ≠ 0)),
    (0xC4, if c.mode = 1 then !probOk c.p else decide (c.p ≠ 0)),
    (0xC8, decide (c.table % 8 ≠ 0) || (decide (c.table = 0) && (decide (c.lc ≠ 0) || isD))),
    (0xD0, decide (c.spoil % 16 ≠ 0)),
    (0xDC, decide (c.v = 0)),
    (0xE0, decide (c.base % 128 ≠ 0)),
    (0xE4, decide (c.width % 128 ≠ 0) || decide (c.width < 128) || decide (2 ^ 24 < c.width)),
    (0xE8, decide (c.out = 0) || decide (c.out % 8 ≠ 0)),
    (0xF0, decide (c.padded % 128 ≠ 0) || decide (c.padded < c.v) || decide (c.padded < c.base + c.width)),
    (0xF6, decide (fieldOf bs 0x36 2 ≠ 0)),
    (0xFC, decide (fieldOf bs 0x3C 4 ≠ 0))]

/-- An access of a VOC operation that failed a check of R147 (R243). -/
def accErr (sub : Byte) (e : Byte × Nat) (chunk : Nat) : EngErr := engErr e.1 sub (BitVec.ofNat 64 e.2) chunk

/-- Bytes of a record (R230). -/
def VCfg.recBytes (c : VCfg) : Nat := 80 + 8 * c.k

/-- Reads and checks the block, once for the operation (R228, R229). -/
def State.readCfg (s : State) (o : EngOp) (isD : Bool) : Except EngErr (List Byte) :=
  if !o.blk.isEmpty then .ok o.blk
  else
    match s.engRead s.cx s.bank.run o.screen.toNat 64 64 with
    | .error e => .error (accErr 0x50 e 0)
    | .ok bs =>
      match vcfgBad bs isD with
      | some sub => .error (engErr 0x0D sub o.screen 0)
      | none => .ok bs

/-- Reads the label-id table: for each row `per` entries of `w` bytes, at a stride of `stride` (R233, R242). -/
def State.readLabels (s : State) (table stride w per rows : Nat) : Except EngErr (List Byte) :=
  ((List.range rows).flatMap fun i => (List.range per).map fun t => table + stride * i + w * t).foldl
    (fun r va =>
      match r with
      | .error e => .error e
      | .ok bs =>
        match s.engRead s.cx s.bank.run (va % 2 ^ 64) w w with
        | .error e => .error (accErr 0x51 e 0)
        | .ok x => .ok (bs ++ x)) (.ok [])

/-! ## Screens (R231, R233) -/

/-- The order of R231: logit descending, then id ascending; zeros are equal. -/
def candBefore (x y : Cand) : Bool :=
  vLt (fval .f32 y.1) (fval .f32 x.1) || (!vLt (fval .f32 x.1) (fval .f32 y.1) && decide (x.2 < y.2))

/-- Puts a candidate into a sorted list. -/
def candInsert (x : Cand) : List Cand → List Cand
  | [] => [x]
  | y :: ys => if candBefore x y then x :: y :: ys else y :: candInsert x ys

/-- Offers a candidate: the best 64 are kept; a logit of -infinity or a NaN never enters (R231, R233). -/
def offer (h : List Cand) (x : Cand) : List Cand :=
  if x.1 = f32NegInf || f32IsNaN x.1 then h else (candInsert x h).take 64

/-- A row before its first block. -/
def RowScr.start (ids : List Nat) : RowScr := ⟨(f32NegInf, 0), [], ids.map fun i => (i, f32NegInf)⟩

/-- A row takes the logit of a token (R233). -/
def RowScr.take (r : RowScr) (id logit : Nat) : Fm RowScr := fun f =>
  let n := normTake r.norm logit
  let x := if f32IsNaN logit then f32NegInf else logit
  ({ norm := n.1
     cands := offer r.cands (x, id)
     labs := r.labs.map fun l => if l.1 = id then (id, x) else l }, f ||| n.2)

/-- A row takes a block of 128 logits; padding is absent (R233). -/
def RowScr.takeBlock (r : RowScr) (c : VCfg) (b : Nat) (logits : List Nat) : Fm RowScr :=
  ((List.range logits.length).zip logits).foldlM (fun (r : RowScr) (p : Nat × Nat) =>
    let id := c.base + 128 * b + p.1
    if c.v ≤ id then pure r else r.take id p.2) r

/-- Label slots as a record holds them: eight, the unused with logit -infinity and id all ones (R230). -/
def slots8 (l : List (Nat × Nat)) : List (Nat × Nat) := (l ++ List.replicate 8 (0xFFFFFFFF, f32NegInf)).take 8

/-- The bytes of a record, with flag bits 3 and 4 (R230, R239). -/
def recordBytes (c : VCfg) (norm : Nat × Nat) (shard count extra row : Nat) (labs : List (Nat × Nat))
    (cands : List Cand) : List Byte :=
  bytesOf 4 norm.1 ++ bytesOf 4 norm.2 ++ bytesOf 2 shard ++ [BitVec.ofNat 8 count, BitVec.ofNat 8 extra]
    ++ bytesOf 4 row
    ++ ((slots8 labs).flatMap fun (l : Nat × Nat) => bytesOf 4 l.1 ++ bytesOf 4 l.2)
    ++ ((cands.take count ++ List.replicate (c.k - count) (f32NegInf, 0xFFFFFFFF)).flatMap fun (x : Cand) =>
      bytesOf 4 x.1 ++ bytesOf 4 x.2)

/-- The check of R147 that a write of `w` bytes by an engine fails; `last`: check 7 is among them. -/
def State.writeFails (s : State) (last : Bool) (va w : Nat) : Option (Byte × Nat) :=
  match s.locateW s.cx s.bank.run .write va w with
  | .at key => if last && !s.served key true then some (0x0A, va) else none
  | .bad c => some (c, va)
  | .miss => some (0x06, va)

/-- The first check that the writing of `n` consecutive 8-byte words fails. -/
def State.wordsFail (s : State) (last : Bool) : Nat → Nat → Option (Byte × Nat)
  | 0, _ => none
  | n + 1, va =>
    match s.writeFails last va 8 with
    | some e => some e
    | none => s.wordsFail last n ((va + 8) % 2 ^ 64)

/-- Writes consecutive 8-byte words with one write each, every check first: where a later word fails one, none of the earlier is
written. The manual speaks of completed rows alone, not of the first bytes of a record or of a spoil entry whose later bytes
fail (R243). DESIGN CHOICE, log 69. -/
def State.writeWordsBy (s : State) (last : Bool) (write : State → Nat → List Byte → Except (Byte × Nat) State) (va : Nat)
    (bs : List Byte) : Except (Byte × Nat) State :=
  match s.wordsFail last (bs.length / 8) (va % 2 ^ 64) with
  | some e => .error e
  | none =>
    (List.range (bs.length / 8)).foldlM (fun s i => write s ((va + 8 * i) % 2 ^ 64) ((bs.drop (8 * i)).take 8)) s

/-- Writes consecutive 8-byte words of a log; a completion error is deferred (R147, R281). -/
def State.writeWords (s : State) (va : Nat) (bs : List Byte) : Except (Byte × Nat) State :=
  s.writeWordsBy false (fun s va bs => s.engWrite s.cx s.bank.run va 8 bs) va bs

/-- A write of `w` bytes by a vocabulary operation: one that fails a check of R147, the completion error of check 7 too, is a
fault of the engine (R243); what paths MX hold there has missed it (R244). -/
def State.vocWrite (s : State) (va w : Nat) (bs : List Byte) : Except (Byte × Nat) State :=
  match s.writeFails true va w with
  | some e => .error e
  | none =>
    match s.locateW s.cx s.bank.run .write va w with
    | .at key => (s.engWrite s.cx s.bank.run va w bs).map fun t => t.noteVoc key bs.length
    | _ => s.engWrite s.cx s.bank.run va w bs

/-- The same for consecutive 8-byte words. -/
def State.vocWords (s : State) (va : Nat) (bs : List Byte) : Except (Byte × Nat) State :=
  s.writeWordsBy true (fun s va bs => s.vocWrite va 8 bs) va bs

/-- Reads `n` 8-byte words, every check first, poison last. -/
def State.readWords (s : State) (va n : Nat) : Except (Byte × Nat) (List Byte) :=
  s.engReadN s.cx s.bank.run 8 n (va % 2 ^ 64)

/-! ## Certification and the spoil buffer (R235, R236) -/

/-- One Spill (R236): an entry is taken by a fetch-and-add on the count, at the count's home, and then written; the count stays
raised where the writing of the entry fails. The manual does not say which checks the fetch-and-add makes: the count is read
with the checks of a read, and those of a write come only where it adds, so that a full buffer on a page without write
permission gives cause 0x0F. DESIGN CHOICE, log 68. -/
def State.spill (s : State) (c : VCfg) (row shard rank : Nat) (x : Cand) : State × Option EngErr :=
  if c.spoil = 0 then (s, some (engErr 0x0F 0x01 0 rank))
  else
    match s.homeRead s.cx s.bank.run c.spoil 4 4 with
    | .error e => (s, some (accErr 0x55 e rank))
    | .ok bs =>
      let n := ofBytes bs
      if c.cap ≤ n then (s, some (engErr 0x0F 0x02 (BitVec.ofNat 64 c.spoil) rank))
      else
        match s.vocWrite c.spoil 4 (bytesOf 4 (n + 1)) with
        | .error e => (s, some (accErr 0x55 e rank))
        | .ok s =>
          let ent := bytesOf 4 x.1 ++ bytesOf 4 x.2 ++ bytesOf 4 row ++ bytesOf 2 shard ++ [BitVec.ofNat 8 rank, 0]
          match s.vocWords (c.spoil + 16 + 16 * n) ent with
          | .error e => (s, some (accErr 0x55 e rank))
          | .ok s => (s, none)

/-- Adds a candidate's mass (R235). -/
def addMass (norm : Nat × Nat) (m : Nat) (x : Cand) : Fm Nat := do
  let e ← fl (exp2Diff x.1 norm.1)
  let q ← fDivM e norm.2
  fAddM m q

/-- M >= p. -/
def geF (m p : Nat) : Bool := vLt (fval .f32 p) (fval .f32 m) || vEq (fval .f32 m) (fval .f32 p)

/-- How a certification goes: where it stands, or the fault of a Spill. -/
structure CertRes where
  s : State
  mass : Nat
  k : Nat
  f : BitVec 7
  err : Option EngErr

/-- The second loop of Certify: candidates beyond the record are spilled until the mass reaches p; those below `from'`
have been spilled before (R235, R328). -/
def certGo (c : VCfg) (norm : Nat × Nat) (row shard from' : Nat) : List Cand → CertRes → CertRes
  | [], r => r
  | x :: xs, r =>
    if !vLt (fval .f32 r.mass) (fval .f32 c.p) then r
    else
      match (if r.k < from' then (r.s, none) else r.s.spill c row shard r.k x) with
      | (s, some e) => { r with s := s, err := some e }
      | (s, none) =>
        let m := addMass norm r.mass x r.f
        certGo c norm row shard from' xs ⟨s, m.1, r.k + 1, m.2, none⟩

/-- Certify (R235): the flags byte's bits [2:0] beside the state, from the rank at which an earlier attempt stopped. -/
def State.certify (s : State) (c : VCfg) (norm : Nat × Nat) (row shard count from' : Nat) (h : List Cand)
    (f : BitVec 7) : CertRes × Nat :=
  if c.mode = 0 then (⟨s, 0, count, f, none⟩, 0)
  else
    let r₀ : CertRes := ⟨s, 0, 0, f, none⟩
    let r :=
      if f32Pos norm.2 then
        let m := (h.take count).foldlM (fun m x => addMass norm m x) 0 f
        certGo c norm row shard from' (h.drop count) ⟨s, m.1, count, m.2, none⟩
      else r₀
    let ok := geF r.mass c.p
    (r, bit ok + 2 * bit (!ok) + 4 * bit (decide (count < r.k)))

/-- Where the finishing of a row stops: the fault, whether the record has been written, and the rank at which its
certification stands (R328). -/
structure RowStop where
  err : EngErr
  wrote : Bool
  rank : Nat

/-- Writes a row's record, certifies it and writes its flags (R233, R235, R239): the state and flags, or the state as it
stands at a fault. `extra` holds flag bits 3 and 4; `done'` says that the record itself has been written before. The flags byte
of a row whose Spill faults, which the manual calls a record written without its flags, holds bits 3 and 4 already, and zero in
bits 2 to 0. DESIGN CHOICE, log 68. -/
def State.finishRow (s : State) (c : VCfg) (va row shard extra from' : Nat) (done' : Bool) (r : RowScr) (f : BitVec 7) :
    State × BitVec 7 × Option RowStop :=
  let count := min c.k r.cands.length
  let w := if done' then .ok s
    else s.vocWords va (recordBytes c r.norm shard count extra row r.labs r.cands)
  match w with
  | .error e => (s, f, some ⟨accErr 0x54 e 0, false, 0⟩)
  | .ok s =>
    let p := s.certify c r.norm row shard count from' r.cands f
    match p.1.err with
    | some e => (p.1.s, p.1.f, some ⟨e, true, p.1.k⟩)
    | none =>
      match p.1.s.vocWrite ((va + 0x0B) % 2 ^ 64) 1 [BitVec.ofNat 8 (p.2 + extra)] with
      | .error e => (p.1.s, p.1.f, some ⟨accErr 0x54 e 0, true, p.1.k⟩)
      | .ok s => (s, p.1.f, none)

/-! ## `vproj` (R232, R233, R237) -/

/-- The claims of `vproj` and `vprojd`: nb blocks of kc pieces of SA and of SB, and of SX with `.dw` (R232, R242). -/
def vneeds (sa sb : BitVec 4) (sx : Option (BitVec 4)) (n : Nat) : List (BitVec 4 × Nat) :=
  [(sa, n), (sb, n)] ++ sx.toList.map fun x => (x, n)

/-- The checks of the streams and the accumulator (R232). -/
def vcheck (x : Acc) (da db : StrDesc) (t : Ty) (ta tb : Bool) : Option Byte :=
  let p : ProdSpec := ⟨.mma, 0, t, ta, tb, 1, false⟩
  firstBad [
    (0x04, da.isOut || db.isOut || !p.typesOk da.ty db.ty),
    (0x05, x.isI32),
    (0x03, decide (x.cols ≠ 128) || !(if ta then da.shape 32 x.rows else da.shape x.rows 32)
      || !(if tb then db.shape 128 32 else db.shape 32 128))]

/-- A working accumulator zeroed; its poison stays (R197, R233). -/
def Acc.cleared (x : Acc) : Acc := { x.zero with poison := x.poison }

/-- The logits of block `b` from chunk `j` on, with the rows that need that chunk (R233, R328). -/
def State.block (s : State) (ca cb : Claim) (ta tb : Bool) (kc b j : Nat) (need : BitVec 128) (x : Acc) (f : BitVec 7) :
    ChunkEnd :=
  s.chunkGo [ca] [cb] ta tb false (b * kc) (kc - j) j x f need

/-- How the screening ends: all blocks taken, or stopped in block `b` with the screens of the blocks before it. -/
inductive ScrEnd where
  | all (x : Acc) (rs : List RowScr) (f : BitVec 7)
  | stop (b : Nat) (rs : List RowScr) (e : ChunkEnd)

/-- The screens after `n` blocks from block `b` on, of which the first goes on at chunk `j` (R233, R328). -/
def State.screenGo (s : State) (c : VCfg) (ca cb : Claim) (ta tb : Bool) (kc : Nat) :
    Nat → Nat → Nat → BitVec 128 → Acc → List RowScr → BitVec 7 → ScrEnd
  | 0, _, _, _, x, rs, f => .all x rs f
  | n + 1, b, j, need, x, rs, f =>
    match s.block ca cb ta tb kc b j need x f with
    | .all y f =>
      let r := ((List.range rs.length).zip rs).mapM (fun p => p.2.takeBlock c b (y.rowOf p.1)) f
      s.screenGo c ca cb ta tb kc n (b + 1) 0 (BitVec.allOnes 128) y.cleared r.1 r.2
    | e => .stop b rs e

/-- Rows `i` on are written and certified (R233): where it ends, and the row and fault at which it stops. The first row goes
on at rank `from'`; `done'`: its record stands. -/
def State.rowsGo (c : VCfg) (row : Nat → Nat) (va : Nat → Nat) (lb : Nat → Bool) :
    List RowScr → Nat → Nat → Bool → State → BitVec 7 → State × BitVec 7 × Option (Nat × RowStop)
  | [], _, _, _, s, f => (s, f, none)
  | r :: rs, i, from', done', s, f =>
    match s.finishRow c (va i) (row i) c.shard (8 * bit (lb i)) from' done' r f with
    | (s, f, none) => State.rowsGo c row va lb rs (i + 1) 0 false s f
    | (s, f, some e) => (s, f, some (i, e))

/-- Label id t of row i in the bytes read with the block. -/
def labelId (bs : List Byte) (lc i t : Nat) : Nat := fieldOf bs (4 * (lc * i + t)) 4

/-- Runs `vproj` (R233, R237): its claims are made with the reading of its block (R228), before its label table is read.
DEDUCED, log 30. -/
def State.runVproj (s : State) (o : EngOp) (ac : BitVec 2) (sa sb : BitVec 4) (t : Ty) (ta tb : Bool) (kc : Nat) :
    EngRes :=
  match s.readCfg o false with
  | .error e => .fault s o e
  | .ok bs =>
    let c := vcfgOf bs
    let nb := c.width / 128
    let cl := { o with blk := bs }.claimIn (vneeds sa sb none (nb * kc)) untaken s.bank
    let s := { s with bank := cl.1 }
    let o := cl.2
    match o.err with
    | some e => .fault s { o with err := none } e
    | none =>
      let x := s.bank.acc ac
      match (if 64 < bs.length then .ok (bs.drop 64) else s.readLabels c.table 32 4 c.lc x.rows) with
      | .error e => .fault s o e
      | .ok ls =>
        let o := { o with blk := bs.take 64 ++ ls }
        let ca := o.claimAt 0
        let cb := o.claimAt 1
        match (if o.scr.isEmpty then
            vcheck x ca.desc cb.desc t ta tb <|> (if x.live then some 0x06 else none) else none) with
        | some sub => stopAt s o sub
        | none =>
          if s.opWaits o then .waits s o
          else
            let ids := fun i => (List.range c.lc).map fun t => labelId ls c.lc i t
            let o := if o.scr.isEmpty then { o with scr := (List.range x.rows).map fun i => RowScr.start (ids i) } else o
            let x := if o.block = 0 ∧ o.chunk = 0 ∧ o.need = BitVec.allOnes 128 then x.cleared else x
            match s.screenGo c ca cb ta tb kc (nb - o.block) o.block o.chunk o.need x o.scr o.flags with
            | .stop b rs (.poison y f j rows) =>
              .fault (s.mapBank fun b => b.setAcc ac y)
                { s.keepTaken o o.claims (o.block * kc + o.chunk) (b * kc + j) with
                  scr := rs, block := b, chunk := j, need := rows, flags := f } (engErr 0x09 0 0 j)
            | .stop b rs (.fill y f j rows e) =>
              fillStop (s.mapBank fun b => b.setAcc ac y)
                { s.keepTaken o o.claims (o.block * kc + o.chunk) (b * kc + j) with
                  scr := rs, block := b, need := rows, flags := f } e j
            | .stop _ _ (.all _ f) => .done s o none f
            | .all x rs f =>
              let lb := fun i => (ids i).any fun l => decide (c.v ≤ l)
              let f := f ||| flagIf ((List.range x.rows).any lb) flLB
              let n := (o.rule.map (·.2)).getD 0
              let o := { o with scr := rs, block := nb, chunk := 0, need := BitVec.allOnes 128 }
              match State.rowsGo c (fun i => c.rowBase + n * x.rows + i)
                  (fun i => c.out + (n * x.rows + i) * c.recBytes) lb (rs.drop o.row) o.row o.rank o.wrote
                  (s.mapBank fun b => b.setAcc ac x.cleared) f with
              | (s, f, none) => .done (s.consumeAll o) { o with row := x.rows } none f
              | (s, f, some (i, e)) => .fault s { o with row := i, wrote := e.wrote, rank := e.rank, flags := f } e.err

/-- `vproj` (R232). -/
def execVproj (ac : BitVec 2) (sa sb : BitVec 4) (t : Ty) (ta tb : Bool) (kc : BitVec 6) (s : State) :
    Host.Outcome State Fault Refusal := s.engPlain (.vproj ac sa sb t ta tb kc)

/-! ## `vmerge` (R238 to R240) -/

/-- A record as `vmerge` reads it. -/
structure ScrRec where
  norm : Nat × Nat
  shard : Nat
  count : Nat
  flags : Nat
  row : Nat
  labs : List (Nat × Nat)
  cands : List Cand

/-- The fields of a record (R230). -/
def scrRecOf (k : Nat) (bs : List Byte) : ScrRec where
  norm := (fieldOf bs 0 4, fieldOf bs 4 4)
  shard := fieldOf bs 8 2
  count := fieldOf bs 0x0A 1
  flags := fieldOf bs 0x0B 1
  row := fieldOf bs 0x0C 4
  labs := (List.range 8).map fun t => (fieldOf bs (0x10 + 8 * t) 4, fieldOf bs (0x14 + 8 * t) 4)
  cands := (List.range k).map fun j => (fieldOf bs (0x50 + 8 * j) 4, fieldOf bs (0x54 + 8 * j) 4)

/-- Paired(a, b) (R240). -/
def paired (a b : Nat) : Bool := (List.range 16).any fun r => decide (b = a + 2 ^ r) && decide (a % 2 ^ (r + 1) = 0)

/-- The valid candidates of a record. -/
def ScrRec.valid (r : ScrRec) : List Cand := r.cands.take r.count

/-- The checks of a pair of rows (R239). -/
def mergeBad (k : Nat) (f q : ScrRec) : Option Byte :=
  firstBad [
    (0x21, f.row != q.row),
    (0x25, decide (k < f.count) || decide (k < q.count) || decide (f.flags / 32 ≠ 0) || decide (q.flags / 32 ≠ 0)),
    (0x24, f.labs.map (·.1) != q.labs.map (·.1)),
    (0x20, !paired f.shard q.shard),
    (0x22, f.valid.any fun x => q.valid.any fun y => x.2 == y.2)]

/-- The larger of two m; a NaN yields to the other (R86, R121). DEDUCED, log 31. -/
def maxNum (a b : Nat) : Nat := (fMinMax .f32 true a b).1

/-- The flags that the roundings of `vmerge` set (R239). -/
def mergeFlags : BitVec 7 := flNX ||| flUF

/-- The merged normaliser and its flags: IV only for a NaN that was read (R86, R239). -/
def mergeNorm (p q : Nat × Nat) : (Nat × Nat) × BitVec 7 :=
  let m := maxNum p.1 q.1
  let d := exp2Diff p.1 m
  let a := f32Mul p.2 d.1
  let d' := exp2Diff q.1 m
  let b := f32Mul q.2 d'.1
  let s := f32Add a.1 b.1
  let fs := d.2 ||| a.2 ||| d'.2 ||| b.2 ||| s.2
  ((m, s.1), (fs &&& mergeFlags) ||| flagIf ([p.1, p.2, q.1, q.2].any f32IsNaN) flIV)

/-- The merged row: screen, and flag bits 3 and 4 (R239). -/
def mergeRow (f q : ScrRec) : RowScr × Nat × BitVec 7 :=
  let n := mergeNorm f.norm q.norm
  (⟨n.1, (f.valid ++ q.valid).foldl offer [],
    (f.labs.zip q.labs).map fun p => if p.1.2 != f32NegInf then p.1 else p.2⟩,
   16 + 8 * bit ((f.flags / 8 % 2 == 1) || (q.flags / 8 % 2 == 1)), n.2)

/-- A merged row held with an operation that stopped in its certification (R328): as bytes. -/
def holdRow (r : RowScr) (extra row shard : Nat) : List Byte :=
  bytesOf 4 r.norm.1 ++ bytesOf 4 r.norm.2 ++ bytesOf 4 row ++ bytesOf 2 shard ++ [BitVec.ofNat 8 extra, 0]
    ++ (r.cands.flatMap fun x => bytesOf 4 x.1 ++ bytesOf 4 x.2)

/-- The held row again: screen, flag bits, row id, shard. -/
def heldRow (bs : List Byte) : RowScr × Nat × Nat × Nat :=
  (⟨(fieldOf bs 0 4, fieldOf bs 4 4),
    (List.range ((bs.length - 16) / 8)).map fun j => (fieldOf bs (16 + 8 * j) 4, fieldOf bs (20 + 8 * j) 4), []⟩,
   fieldOf bs 14 1, fieldOf bs 8 4, fieldOf bs 12 2)

/-- Merges row `i`: the state and flags, or the state at a fault with the row held (R239). -/
def State.mergeAt (s : State) (c : VCfg) (fa qa ra : Nat) (i from' : Nat) (held : List Byte) (fl' : BitVec 7) :
    State × BitVec 7 × Option (List Byte × RowStop) :=
  if held.isEmpty then
    match s.readWords (fa + i * c.recBytes) (c.recBytes / 8) with
    | .error e => (s, fl', some ([], ⟨accErr 0x52 e 0, false, 0⟩))
    | .ok fb =>
      match s.readWords (qa + i * c.recBytes) (c.recBytes / 8) with
      | .error e => (s, fl', some ([], ⟨accErr 0x53 e 0, false, 0⟩))
      | .ok qb =>
        let f := scrRecOf c.k fb
        let q := scrRecOf c.k qb
        match mergeBad c.k f q with
        | some sub => (s, fl', some ([], ⟨engErr 0x0D sub 0 0, false, 0⟩))
        | none =>
          let m := mergeRow f q
          match s.finishRow c (ra + i * c.recBytes) f.row f.shard m.2.1 0 false m.1 0 with
          | (s, g, none) => (s, fl' ||| m.2.2 ||| (g &&& mergeFlags), none)
          | (s, g, some e) =>
            (s, fl' ||| m.2.2 ||| (g &&& mergeFlags),
              some (if e.wrote then holdRow m.1 m.2.1 f.row f.shard else [], e))
  else
    let h := heldRow held
    match s.finishRow c (ra + i * c.recBytes) h.2.2.1 h.2.2.2 h.2.1 from' true h.1 0 with
    | (s, g, none) => (s, fl' ||| (g &&& mergeFlags), none)
    | (s, g, some e) => (s, fl' ||| (g &&& mergeFlags), some (held, e))

/-- Merges `n` rows from row `i` on. -/
def State.mergeGo (c : VCfg) (fa qa ra : Nat) :
    Nat → Nat → Nat → List Byte → State → BitVec 7 → State × BitVec 7 × Option (Nat × List Byte × RowStop)
  | 0, _, _, _, s, f => (s, f, none)
  | n + 1, i, from', held, s, f =>
    match s.mergeAt c fa qa ra i from' held f with
    | (s, f, none) => State.mergeGo c fa qa ra n (i + 1) 0 [] s f
    | (s, f, some (h, e)) => (s, f, some (i, h, e))

/-- Two ranges overlap and are not the same (R238). -/
def partly (a b n : Nat) : Bool := decide (a ≠ b) && decide (a < b + n) && decide (b < a + n)

/-- Runs `vmerge` (R238, R239). -/
def State.runVmerge (s : State) (o : EngOp) (rows : Nat) : EngRes :=
  match s.readCfg o false with
  | .error e => .fault s o e
  | .ok bs =>
    let c := vcfgOf bs
    let n := rows * c.recBytes
    let held := bs.drop 64
    if partly o.addr.toNat o.valA.toNat n || partly o.addr.toNat o.valB.toNat n then
      stopAt s { o with blk := bs.take 64 } 0x23
    else
      match State.mergeGo c o.valA.toNat o.valB.toNat o.addr.toNat (rows - o.row) o.row o.rank held s o.flags with
      | (s, f, none) => .done s o none f
      | (s, f, some (i, h, e)) =>
        .fault s { o with blk := bs.take 64 ++ h, row := i, rank := e.rank, flags := f } e.err

/-- `vmerge`: the three addresses are read at issue (R238). -/
def execVmerge (sa sb sx : BitVec 4) (rows : BitVec 7) (s : State) : Host.Outcome State Fault Refusal :=
  s.finish (s.unserved do
    let a ← s.rdBase sa
    let b ← s.rdBase sb
    let x ← s.rdBase sx
    pure (s.engIssue (.vmerge sa sb sx rows) (.q 0) false fun o => { o with valA := a, valB := b, addr := x }))

/-! ## `vprojd` (R241, R242) -/

/-- A value with a block scale applied exactly (R73, R242). -/
def scaled (v : FVal) (sc : Nat) : FVal :=
  if sc = 0xFF then .nan true
  else
    match v with
    | .fin n m e => .fin n m (e + sc - 127)
    | v => v

/-- RoundF32(ExactSum of products) (R79, R80). -/
def exactDot (a b : List FVal) : Nat × BitVec 7 := finishVal .f32 .rne false (groupVal a b 127 127)

/-- The gradient of one logit (R242): `pad`, its value l, and the row's m, s, label and g; both zeros of s equal +0 (R68). -/
def dlogit (pad : Bool) (l : Nat) (norm : Nat × Nat) (isLabel : Bool) (g : Nat) : Fm Nat := do
  if pad then pure 0
  else
    let pr ← if norm.2 % 2 ^ 31 = 0 then pure 0 else do
      let e ← fl (exp2Diff l norm.1)
      fDivM e norm.2
    let d ← fSubM pr (if isLabel then f32One else 0)
    fMulM d g

/-- What a row of `vprojd` knows: its normaliser, label and scale. -/
structure RowGrad where
  norm : Nat × Nat
  label : Nat
  g : Nat

/-- All gradients of block `b` (R242). -/
def dlBlock (c : VCfg) (b : Nat) (x : Acc) (rs : List RowGrad) : Fm (List (List Nat)) :=
  ((List.range rs.length).zip rs).mapM fun p =>
    ((List.range 128).zip (x.rowOf p.1)).mapM fun q =>
      let id := c.base + 128 * b + q.1
      dlogit (decide (c.v ≤ id)) q.2 p.2.norm (id == p.2.label) p.2.g

/-- The chunk of K index k in a block, and its elements: W[k][n] with its scale. -/
def wVal (ch : Nat → Chunk) (k n : Nat) : FVal :=
  scaled (elVal ((ch (k / 32)).tyB n) ((ch (k / 32)).b (k % 32) n)) (scaleVal ((ch (k / 32)).sb n))

/-- Hd[i][k] with its scale. -/
def hVal (ch : Nat → Chunk) (i k : Nat) : FVal :=
  scaled (elVal ((ch (k / 32)).tyA i) ((ch (k / 32)).a i (k % 32))) (scaleVal ((ch (k / 32)).sa i))

/-- The dH accumulator takes a block (R242). -/
def dhBlock (x : Acc) (ch : Nat → Chunk) (h kc : Nat) (dl : List (List Nat)) : Fm Acc := do
  let es ← ((List.range x.rows).flatMap fun i => (List.range x.cols).map fun c => (i, c)).mapM fun p => do
    let old := (x.at p.1 p.2).toNat
    let k := 128 * h + p.2
    if k < 32 * kc then
      let d := (dl.getD p.1 []).map (fval .f32)
      let g ← fl (exactDot d ((List.range d.length).map fun n => wVal ch k n))
      fAddM old g
    else pure old
  pure { x with elems := es.map (BitVec.ofNat 32), fill := none, live := true }

/-- The dW piece of chunk j: 32 x 128 (R242). -/
def dwPiece (ch : Nat → Chunk) (j : Nat) (dl : List (List Nat)) : Fm (List Word) :=
  ((List.range 32).flatMap fun k => (List.range 128).map fun n => (k, n)).mapM fun p => do
    let d := dl.map fun row => fval .f32 (row.getD p.2 0)
    let v ← fl (exactDot ((List.range d.length).map fun i => hVal ch i (32 * j + p.1)) d)
    pure (BitVec.ofNat 32 v)

/-- How the blocks of `vprojd` end: all done, stopped in the product of block `b`, or waiting before block `b` for room in
the output FIFO (R180). -/
inductive DEnd where
  | all (s : State) (x z : Acc) (f : BitVec 7)
  | stop (s : State) (x : Acc) (b : Nat) (e : ChunkEnd)
  | full (s : State) (x z : Acc) (f : BitVec 7) (b : Nat)

/-- An output piece for chunk j of block b. -/
def Claim.nth (c : Claim) (k : Nat) : Claim := { c with first := c.first + k }

/-- Hands out the dW pieces of a block (R242). -/
def State.dwOut (s : State) (o : EngOp) (cx : Option Claim) (ch : Nat → Chunk) (kc b : Nat) (dl : List (List Nat))
    (f : BitVec 7) : State × BitVec 7 :=
  match cx with
  | none => (s, f)
  | some c =>
    (List.range kc).foldl (fun r j =>
      let w := dwPiece ch j dl r.2
      (r.1.handOut o (c.nth (b * kc + j)) 32 128 w.1 (List.replicate 4096 false), w.2)) (s, f)

/-- `n` blocks from `b` on of `vprojd` (R242), of which the first goes on at chunk `j`: `z` is the scratch accumulator, `x`
the dH accumulator. -/
def State.dGo (op : EngOp) (c : VCfg) (ca cb : Claim) (cx : Option Claim) (kc h : Nat) (rs : List RowGrad) :
    Nat → Nat → Nat → BitVec 128 → Acc → State → Acc → BitVec 7 → DEnd
  | 0, _, _, _, z, s, x, f => .all s x z f
  | n + 1, b, j, need, z, s, x, f =>
    if cx.any s.outFull then .full s x z f b
    else
    match s.block ca cb false false kc b j need z f with
    | .all y f =>
      let d := dlBlock c b y rs f
      let ch := fun j => chunkOf (s.chunkPieces [ca] (b * kc + j)) (s.chunkPieces [cb] (b * kc + j)) false false x.rows 128
      let x' := dhBlock x ch h kc d.1 d.2
      let o := s.dwOut op cx ch kc b d.1 x'.2
      State.dGo op c ca cb cx kc h rs n (b + 1) 0 (BitVec.allOnes 128) y.cleared o.1 x'.1 o.2
    | e => .stop s x b e

/-- Reads the rows' normalisers from the final record set (R242). -/
def State.readNorms (s : State) (c : VCfg) (rows : Nat) : Except EngErr (List (Nat × Nat)) :=
  (List.range rows).foldl (fun r i =>
    match r with
    | .error e => .error e
    | .ok l =>
      match s.engRead s.cx s.bank.run ((c.out + i * c.recBytes) % 2 ^ 64) 8 8 with
      | .error e => .error (accErr 0x52 e 0)
      | .ok bs => .ok (l ++ [(fieldOf bs 0 4, fieldOf bs 4 4)])) (.ok [])

/-- Beside the bytes of the block, the label table and the normalisers, read once (R228, R242). The manual does not say which
is read first, where both fail and so whether subcode 0x51 or 0x52 is reported: the label table is. DESIGN CHOICE, log 69. -/
def State.readD (s : State) (bs : List Byte) (rows : Nat) : Except EngErr (List Byte) :=
  if 64 < bs.length then .ok bs
  else
    let c := vcfgOf bs
    match s.readLabels c.table 8 8 1 rows with
    | .error e => .error e
    | .ok ls =>
      match s.readNorms c rows with
      | .error e => .error e
      | .ok ns => .ok (bs ++ ls ++ ns.flatMap fun n => bytesOf 4 n.1 ++ bytesOf 4 n.2)

/-- Runs `vprojd` (R241, R242): its claims are made with the reading of its block (R228). -/
def State.runVprojd (s : State) (o : EngOp) (ac : BitVec 2) (sa sb sx : BitVec 4) (t : Ty) (h : Nat) (dw : Bool)
    (kc : Nat) : EngRes :=
  let x := s.bank.acc ac
  let z := s.bank.acc (ac ^^^ 1)
  match s.readCfg o true with
  | .error e => .fault s o e
  | .ok bs =>
    let c := vcfgOf bs
    let nb := c.width / 128
    let cl := { o with blk := bs }.claimIn (vneeds sa sb (if dw then some sx else none) (nb * kc)) untaken s.bank
    let s := { s with bank := cl.1 }
    let o := cl.2
    match o.err with
    | some e => .fault s { o with err := none } e
    | none =>
      match s.readD bs x.rows with
      | .error e => .fault s o e
      | .ok bs =>
        let o := { o with blk := bs }
        let ca := o.claimAt 0
        let cb := o.claimAt 1
        let cx := if dw then some (o.claimAt 2) else none
        let out := (cx.map fun c => c.desc.isOut && c.desc.ty == 6).getD true
        let outShape := (cx.map fun c => c.desc.shape 32 128).getD true
        match (if out then none else some 0x04) <|> vcheck x ca.desc cb.desc t false false
            <|> (if outShape then none else some 0x03)
            <|> (if z.isI32 || z.rows != x.rows || z.cols != 128 || (z.live && !o.wrote) then some 0x26 else none) with
        | some sub => stopAt s o sub
        | none =>
          if s.opWaits o then .waits s o
          else
            let at' := fun i => 64 + 8 * i
            let rs := (List.range x.rows).map fun i =>
              (⟨(fieldOf bs (at' (x.rows + i)) 4, fieldOf bs (at' (x.rows + i) + 4) 4),
                fieldOf bs (at' i) 4, fieldOf bs (at' i + 4) 4⟩ : RowGrad)
            let z := if o.wrote then z else z.cleared
            let put := fun (s : State) (x z : Acc) => s.mapBank fun b => (b.setAcc ac x).setAcc (ac ^^^ 1) z
            match State.dGo o c ca cb cx kc h rs (nb - o.block) o.block o.chunk o.need z s x o.flags with
            | .all s x z f => .done ((put s x z.cleared).consumeAll o) o none f
            | .full s x z f b =>
              .waits (put s x z) { o with block := b, chunk := 0, need := BitVec.allOnes 128, wrote := true, flags := f }
            | .stop s x b e =>
              let o := { o with block := b, wrote := true }
              match e with
              | .poison z f j rows =>
                .fault (put s x z) { o with chunk := j, need := rows, flags := f } (engErr 0x09 0 0 j)
              | .fill z f j rows e => fillStop (put s x z) { o with need := rows, flags := f } e j
              | .all z f => .done (put s x z) o none f

/-- `vprojd` (R241). -/
def execVprojd (ac : BitVec 2) (sa sb sx : BitVec 4) (t : Ty) (h : BitVec 4) (dw : Bool) (kc : BitVec 6) (s : State) :
    Host.Outcome State Fault Refusal := s.engPlain (.vprojd ac sa sb sx t h dw kc)

end Sys2Proof.Machine
end

