-- ==== Sys2Proof/Machine/Attention.lean ====
section
/-! DEFINITION. Attention: the request, mask and adjoint blocks, and the attention sequencer for `attn` and `attnd`
(R255 to R262, R436). -/

namespace Sys2Proof.Machine

/-! ## The blocks (R255, R256, R260) -/

/-- A request block (R255). -/
structure AttnReq where
  flags : Nat
  d : Nat
  q : Nat
  l : Nat
  kList : Nat
  vList : Nat
  mask : Nat
  nout : Nat
  scale : Nat
  qs : BitVec 4
  os : BitVec 4
  oty : Nat
  deriving DecidableEq, Repr

/-- The fields of a request block (R255). -/
def attnReqOf (bs : List Byte) : AttnReq where
  flags := fieldOf bs 0x00 4
  d := fieldOf bs 0x04 2
  q := fieldOf bs 0x06 2
  l := fieldOf bs 0x08 8
  kList := fieldOf bs 0x10 8
  vList := fieldOf bs 0x18 8
  mask := fieldOf bs 0x20 8
  nout := fieldOf bs 0x28 8
  scale := fieldOf bs 0x30 4
  qs := BitVec.ofNat 4 (fieldOf bs 0x34 1)
  os := BitVec.ofNat 4 (fieldOf bs 0x35 1)
  oty := fieldOf bs 0x36 1

/-- Bit 0 of the flags: the normaliser is written (R255). -/
def AttnReq.norm (r : AttnReq) : Bool := r.flags.testBit 0

/-- A type code of 6 to 10. -/
def attnTy (c : Nat) : Bool := decide (6 ≤ c) && decide (c ≤ 10)

/-- A finite f32. -/
def f32Finite (x : Nat) : Bool := decide (x / 2 ^ 23 % 256 ≠ 255)

/-- The first field that fails, as subcode 0x80 plus its offset (R255); `adj`: read for `attnd` (R260). -/
def attnReqBad (bs : List Byte) (adj : Bool) : Option Byte :=
  let r := attnReqOf bs
  firstBad [
    (0x80, decide (r.flags / 2 ≠ 0)),
    (0x84, decide (r.d = 0) || decide (128 < r.d)),
    (0x86, decide (r.q = 0) || decide (128 < r.q)),
    (0x90, decide (r.kList % 16 ≠ 0)),
    (0x98, decide (r.vList % 16 ≠ 0)),
    (0xA8, decide (r.nout % 8 ≠ 0) || (r.norm == decide (r.nout = 0)) || (adj && decide (r.nout = 0))),
    (0xB0, !f32Finite r.scale),
    (0xB4, decide (15 < fieldOf bs 0x34 1)),
    (0xB5, decide (15 < fieldOf bs 0x35 1)),
    (0xB6, !attnTy r.oty),
    (0xB7, decide (fieldOf bs 0x37 1 ≠ 0)),
    (0xB8, (bs.drop 0x38).any (· != 0))]

/-- An adjoint block (R260). -/
structure AdjBlk where
  dos : BitVec 4
  os : BitVec 4
  dqs : BitVec 4
  accK : Bool
  accV : Bool
  kList : Nat
  vList : Nat
  deriving DecidableEq, Repr

/-- The fields of an adjoint block (R260). -/
def adjBlkOf (bs : List Byte) : AdjBlk where
  dos := BitVec.ofNat 4 (fieldOf bs 0x00 1)
  os := BitVec.ofNat 4 (fieldOf bs 0x01 1)
  dqs := BitVec.ofNat 4 (fieldOf bs 0x02 1)
  accK := (fieldOf bs 0x03 1).testBit 0
  accV := (fieldOf bs 0x03 1).testBit 1
  kList := fieldOf bs 0x08 8
  vList := fieldOf bs 0x10 8

/-- The first field that fails, as subcode 0xE0 plus its offset (R260); `streams`: the stream fields count (R279). -/
def adjBlkBad (bs : List Byte) (streams : Bool) : Option Byte :=
  let a := adjBlkOf bs
  let list := fun (on : Bool) (x : Nat) => decide (x % 16 ≠ 0) || (on == decide (x = 0))
  firstBad [
    (0xE0, streams && decide (15 < fieldOf bs 0x00 1)),
    (0xE1, streams && decide (15 < fieldOf bs 0x01 1)),
    (0xE2, streams && decide (15 < fieldOf bs 0x02 1)),
    (0xE3, decide (fieldOf bs 0x03 1 / 4 ≠ 0)),
    (0xE4, decide (fieldOf bs 0x04 4 ≠ 0)),
    (0xE8, list a.accK a.kList),
    (0xF0, list a.accV a.vList),
    (0xF8, (bs.drop 0x18).any (· != 0))]

/-- A mask parameter block: mode, tree width, prefix length, window, vectors (R256). -/
structure MaskBlk where
  mode : Nat
  width : Nat
  p : Nat
  window : Nat
  vecs : List Nat
  deriving DecidableEq, Repr

/-- The first header field out of range, as subcode 0x30 plus its number (R256). -/
def maskBad (bs : List Byte) (q : Nat) : Option Byte :=
  let m := fieldOf bs 0 1
  let w := fieldOf bs 1 1
  firstBad [
    (0x30, decide (3 < m)),
    (0x31, if m = 3 then !(w == 16 || w == 32 || w == 64) else decide (w ≠ 0)),
    (0x32, decide (fieldOf bs 2 2 ≠ 0)),
    (0x34, (decide (m = 2)) == decide (fieldOf bs 8 4 = 0)),
    (0x35, decide (fieldOf bs 12 4 ≠ q)),
    (0x36, (bs.drop 16).any (· != 0))]

/-- The conditions of tree mode hold (R256). -/
def MaskBlk.treeOk (m : MaskBlk) (l : Nat) : Bool :=
  decide (m.mode ≠ 3)
    || (decide (m.p ≤ l) && decide (l ≤ m.p + m.width) && m.vecs.all fun v => decide (v / 2 ^ (l - m.p) = 0))

/-- Key `j` is visible to query `i` of `q` with `l` keys (R256). -/
def MaskBlk.visible (m : MaskBlk) (l q i j : Nat) : Bool :=
  let top : Int := (l : Int) - q + i
  decide (j < m.p) ||
    match m.mode with
    | 0 => true
    | 1 => decide ((j : Int) ≤ top)
    | 2 => decide (top - m.window < (j : Int)) && decide ((j : Int) ≤ top)
    | _ => (m.vecs.getD i 0).testBit (j - m.p)

/-! ## Reading lists and blocks on MX (R247, R255, R258) -/

/-- An extent list as an operation walks it. -/
structure KList where
  hdr : ListHdr
  ents : List Extent
  deriving DecidableEq, Repr

/-- The header's values are malformed (R258); `adj`: a dK or dV list, of type 6 only. -/
def ListHdr.bad (h : ListHdr) (adj : Bool) : Bool :=
  decide (16 < h.count) || h.reserved || decide (h.stride = 0) || decide (h.stride % 16 ≠ 0) || !attnTy h.ty
    || (adj && decide (h.ty ≠ 6))

/-- Lengths of the entries in use, until they cover the total: does it exceed the capacity (R258)? Lengths of entries beyond L
are read so, although R258 and the worked example say that an entry whose tokens all lie beyond L is not read: no other reading
decides the check. DESIGN CHOICE, log 32. -/
def State.coversTotal (s : State) (va : Nat) : Nat → Nat → Nat → Except (Byte × Nat) Bool
  | _, _, 0 => .ok true
  | 0, _, _ => .ok false
  | n + 1, e, left =>
    match s.engRead s.cx s.bank.run ((va + 16 + 16 * e + 8) % 2 ^ 64) 4 4 with
    | .error x => .error x
    | .ok bs => s.coversTotal va n (e + 1) (left - ofBytes bs)

/-- Reads and checks the header of a list (R258, R436 step 3). -/
def State.listHead (s : State) (va : Nat) (sub : Byte) (adj : Bool) : Except EngErr ListHdr :=
  match s.engRead s.cx s.bank.run va 16 16 with
  | .error e => .error (accErr sub e 0)
  | .ok bs =>
    let h := listHdrOf bs
    if h.bad adj then .error (engErr 0x11 0x02 (BitVec.ofNat 64 va) 0)
    else
      match s.coversTotal va h.count 0 h.total with
      | .error e => .error (accErr sub e 0)
      | .ok true => .ok h
      | .ok false => .error (engErr 0x11 0x02 (BitVec.ofNat 64 va) 0)

/-- The entries that a walk of `left` tokens reads (R247), each filled (R258). -/
def State.walkEnts (s : State) (va : Nat) (sub : Byte) : Nat → Nat → Nat → Except EngErr (List Extent)
  | _, _, 0 => .ok []
  | 0, _, _ => .ok []
  | n + 1, e, left =>
    match s.engRead s.cx s.bank.run ((va + 16 + 16 * e) % 2 ^ 64) 16 16 with
    | .error x => .error (accErr sub x 0)
    | .ok bs =>
      let x := extentOf bs
      if x.share = 0 then .error (engErr 0x11 0x04 (BitVec.ofNat 64 va) 0)
      else
        match s.walkEnts va sub n (e + 1) (left - x.len) with
        | .error x => .error x
        | .ok es => .ok (x :: es)

/-- Address of token `t` (R247). -/
def KList.addr (k : KList) (t : Nat) : Nat :=
  match findTok k.ents t with
  | some p => (p.1.base + p.2 * k.hdr.stride) % 2 ^ 64
  | none => 0

/-- Element type of a list. -/
def KList.ty (k : KList) : Ty := (Ty.ofCode k.hdr.ty).getD .f32

/-- Reads a token whole: its first `d` element codes (R257). -/
def State.readTok (s : State) (k : KList) (d t : Nat) : Except EngErr (List Nat) :=
  match s.engReadN s.cx s.bank.run 16 (k.hdr.stride / 16) (k.addr t) with
  | .error e => .error (accErr 0x64 e 0)
  | .ok bs =>
    let w := elBytes k.hdr.ty
    .ok ((List.range d).map fun c => fieldOf bs (w * c) w)

/-- A mask block of its bytes: the header, and in mode 3 the vectors; no bytes are mode 0 with an empty prefix (R255, R256).
-/
def maskBlkOf (bs : List Byte) : MaskBlk where
  mode := fieldOf bs 0 1
  width := fieldOf bs 1 1
  p := fieldOf bs 4 4
  window := fieldOf bs 8 4
  vecs := (List.range ((bs.length - 64) / 8)).map fun i => fieldOf bs (64 + 8 * i) 8

/-- Reads the mask block: its bytes (R256, R436 step 6). -/
def State.readMask (s : State) (va l q : Nat) : Except EngErr (List Byte) :=
  if va = 0 then .ok []
  else
    match s.readWords va 8 with
    | .error e => .error (accErr 0x63 e 0)
    | .ok bs =>
      match maskBad bs q with
      | some sub => .error (engErr 0x0D sub (BitVec.ofNat 64 va) 0)
      | none =>
        if (maskBlkOf bs).mode = 3 then
          match s.readWords (va + 64) q with
          | .error e => .error (accErr 0x63 e 0)
          | .ok vs =>
            if (maskBlkOf (bs ++ vs)).treeOk l then .ok (bs ++ vs)
            else .error (engErr 0x0D 0x37 (BitVec.ofNat 64 va) 0)
        else .ok bs

/-- The lists of an operation and their token data. -/
structure AttnCtx where
  req : AttnReq
  l : Nat
  /-- the bytes of the mask block, and what they say -/
  mblk : List Byte
  mask : MaskBlk
  k : KList
  v : KList
  dk : Option KList
  dv : Option KList

/-- The bytes that a path of an agent has read early, newest first, after an acquire at a reach that reads `n` bytes at a key:
where the path has read those early too, what it read after them stays; else what it holds goes (R166, R173, R174). -/
def afterAcquire (a : AgentId) (path : Path) (key n r : Nat) (l : List Held) : List Held :=
  let newer := l.takeWhile fun h => !h.covers a path key n
  let old := fun (l : List Held) => l.filter fun h => !(h.agent == a && h.path == path && h.staleAt r)
  match l.drop newer.length with
  | x :: older => newer ++ x :: old older
  | [] => old l

/-- The acquire on the header word of a list, by path MX of the agent that the engine works for, at package scope (R262). -/
def State.acquireHead (s : State) (va : Nat) : State :=
  match s.reader with
  | none => s
  | some a =>
    match s.locateW s.cx s.bank.run .read va 16 with
    | .at key => { s with held := afterAcquire a .mx key 16 3 s.held }
    | _ => s

/-- The headers that an operation reads, in order (R258, R436 step 3). -/
def listHeads (r : AttnReq) (adj : Option AdjBlk) : List Nat :=
  [r.kList, r.vList] ++ match adj with
    | some a => (if a.accK then [a.kList] else []) ++ if a.accV then [a.vList] else []
    | none => []

/-- The state as the operation's reads find it after the acquires on its lists' headers (R262). -/
def State.acquireHeads (s : State) (r : AttnReq) (adj : Option AdjBlk) : State :=
  if s.held.isEmpty then s else (listHeads r adj).foldl State.acquireHead s

/-- A list's stride holds a token (R255). -/
def ListHdr.fits (h : ListHdr) (d : Nat) : Bool := decide (d * elBytes h.ty ≤ h.stride)

/-- Reads the header of a list that is there. -/
def State.listHeadIf (s : State) (on : Bool) (va : Nat) : Except EngErr (Option ListHdr) :=
  if on then (s.listHead va 0x66 true).map some else .ok none

/-- Reads the walk of a list that is there. -/
def State.walkIf (s : State) (h : Option ListHdr) (va l : Nat) : Except EngErr (Option KList) :=
  match h with
  | none => .ok none
  | some h => (s.walkEnts va 0x66 h.count 0 l).map fun es => some ⟨h, es⟩

/-- Steps 3 to 7 of R436: the lists, the key count, the mask. `held`: the key count and the mask block that an earlier
attempt of the operation has read (R255, R256). -/
def State.attnCtx (s : State) (r : AttnReq) (adj : Option AdjBlk) (afresh : Bool) (held : Option (Nat × List Byte)) :
    Except EngErr AttnCtx := do
  let kh ← s.listHead r.kList 0x61 false
  let vh ← s.listHead r.vList 0x62 false
  let onK := (adj.map (·.accK)).getD false
  let onV := (adj.map (·.accV)).getD false
  let dkVa := (adj.map (·.kList)).getD 0
  let dvVa := (adj.map (·.vList)).getD 0
  let dkh ← s.listHeadIf onK dkVa
  let dvh ← s.listHeadIf onV dvVa
  let all := [kh, vh] ++ dkh.toList ++ dvh.toList
  let l := (held.map (·.1)).getD (if afresh && r.l == 2 ^ 64 - 1 then kh.total else r.l)
  if !(all.all fun h => h.fits r.d) then .error (engErr 0x11 0x03 0 0)
  else if held.isNone && !(all.all fun h => decide (l ≤ h.total)) then .error (engErr 0x11 0x01 0 0)
  else do
    let m ← match held with
      | some h => .ok h.2
      | none => s.readMask r.mask l r.q
    let ke ← s.walkEnts r.kList 0x61 kh.count 0 l
    let ve ← s.walkEnts r.vList 0x62 vh.count 0 l
    let dk ← s.walkIf dkh dkVa l
    let dv ← s.walkIf dvh dvVa l
    .ok ⟨r, l, m, maskBlkOf m, ⟨kh, ke⟩, ⟨vh, ve⟩, dk, dv⟩

/-! ## One query (R257) -/

/-- The logit of a query and a key: -infinity and IV for a NaN (R257). -/
def logitOf (scale : Nat) (q k : List FVal) : Fm Nat := do
  let d ← fl (exactDot q k)
  let x ← fMulM d scale
  if f32IsNaN x then do
    raise flIV
    pure f32NegInf
  else pure x

/-- The running state of a query: normaliser, output elements, flags. -/
structure QState where
  m : Nat
  sum : Nat
  o : List Nat

/-- A query takes one key (R257). -/
def QState.take (st : QState) (x : Nat) (v : List Nat) : Fm QState :=
  if x = f32NegInf then pure st
  else do
    let m1 := f32Max st.m x
    let a ← fl (exp2Diff st.m m1)
    let b ← fl (exp2Diff x m1)
    let o ← (st.o.zip v).mapM fun (p : Nat × Nat) => do
      let u ← fMulM p.1 a
      let w ← fMulM b p.2
      fAddM u w
    let t ← fMulM st.sum a
    let n ← fAddM t b
    pure ⟨m1, n, o⟩

/-- The keys of query `i` from `j` on, `n` of them (R257). -/
def State.attnKeys (s : State) (c : AttnCtx) (i : Nat) (q : List FVal) :
    Nat → Nat → QState → BitVec 7 → Except EngErr (QState × BitVec 7)
  | 0, _, st, f => .ok (st, f)
  | n + 1, j, st, f =>
    if !c.mask.visible c.l c.req.q i j then s.attnKeys c i q n (j + 1) st f
    else
      match s.readTok c.k c.req.d j with
      | .error e => .error e
      | .ok k =>
        match s.readTok c.v c.req.d j with
        | .error e => .error e
        | .ok v =>
          let x := logitOf c.req.scale q (k.map (fval c.k.ty)) f
          if x.1 = f32NegInf then s.attnKeys c i q n (j + 1) st x.2
          else
            let w := v.mapM (widen c.v.ty) x.2
            let r := st.take x.1 w.1 w.2
            s.attnKeys c i q n (j + 1) r.1 r.2

/-- The output elements of a query (R257). -/
def QState.out (st : QState) (oty : Ty) : Fm (List Nat) :=
  st.o.mapM fun (x : Nat) =>
    if st.sum = 0 then pure 0
    else do
      let y ← fDivM x st.sum
      if oty = .f32 then pure y else fl (cvtFF oty .f32 rne y)

/-- Query `i`: its output row, and its normaliser written (R257). -/
def State.attnRow (s : State) (c : AttnCtx) (nout i : Nat) (q : List FVal) (f : BitVec 7) :
    Except EngErr (State × List Nat × BitVec 7) :=
  match s.attnKeys c i q c.l 0 ⟨f32NegInf, 0, List.replicate c.req.d 0⟩ f with
  | .error e => .error e
  | .ok (st, f) =>
    let out := st.out ((Ty.ofCode c.req.oty).getD .f32) f
    if c.req.norm then
      match s.engWrite s.cx s.bank.run ((nout + 8 * i) % 2 ^ 64) 8 (bytesOf 4 st.m ++ bytesOf 4 st.sum) with
      | .error e => .error (accErr 0x65 e 0)
      | .ok s => .ok (s, out.1, out.2)
    else .ok (s, out.1, out.2)

/-- Row `i` of a query piece as exact values; none where it is poisoned. -/
def queryRow (p : Piece) (t : Ty) (d i : Nat) : Option (List FVal) :=
  if (List.range d).any fun c => p.badAt i c then none
  else some ((List.range d).map fun c => fval t (p.at i c))

/-- How the queries of an operation end: all done, or stopped at one; the output codes of the finished queries. -/
structure QEnd where
  s : State
  out : List Nat
  f : BitVec 7
  stop : Option (Nat × EngErr)

/-- Queries `i` on of `attn`, `n` of them (R257, R261). -/
def State.attnRows (c : AttnCtx) (nout : Nat) (p : Piece) (t : Ty) :
    Nat → Nat → State → List Nat → BitVec 7 → QEnd
  | 0, _, s, out, f => ⟨s, out, f, none⟩
  | n + 1, i, s, out, f =>
    match queryRow p t c.req.d i with
    | none => ⟨s, out, f, some (i, engErr 0x09 0 0 0)⟩
    | some q =>
      match s.attnRow c nout i q f with
      | .error e => ⟨s, out, f, some (i, e)⟩
      | .ok (s, row, f) => State.attnRows c nout p t n (i + 1) s (out ++ row) f

/-! ## `attn` as the engine runs it (R255 to R261, R436) -/

/-- Reads and checks the request block, once for the operation (R255). DEDUCED, log 32. -/
def State.readReq (s : State) (va : Nat) (adj : Bool) : Except EngErr (List Byte) :=
  match s.engRead s.cx s.bank.run va 64 64 with
  | .error e => .error (accErr 0x60 e 0)
  | .ok b0 =>
    match s.engRead s.cx s.bank.run ((va + 64) % 2 ^ 64) 64 64 with
    | .error e => .error (accErr 0x60 e 0)
    | .ok b1 =>
      match attnReqBad (b0 ++ b1) adj with
      | some sub => .error (engErr 0x0D sub (BitVec.ofNat 64 va) 0)
      | none => .ok (b0 ++ b1)

/-- The words of a held output (R261): 4 bytes for each code. -/
def heldOut (bs : List Byte) : List Nat := (List.range (bs.length / 4)).map fun k => fieldOf bs (4 * k) 4
/-- Its bytes. -/
def holdOut (out : List Nat) : List Byte := out.flatMap (bytesOf 4)

/-- The query stream of a request (R255). -/
def queryOk (r : AttnReq) (d : StrDesc) : Bool := !d.isOut && attnTy d.ty && d.shape r.q r.d
/-- An output stream of a type and the request's shape (R255). -/
def outOk (r : AttnReq) (oty : Nat) (d : StrDesc) : Bool := d.isOut && d.ty == oty && d.shape r.q r.d

/-- The claims of an operation on streams named in a block, one piece each (R181, R255). -/
def State.lateClaim (s : State) (o : EngOp) (ns : List (BitVec 4)) : State × EngOp :=
  let r := o.claimIn (ns.map fun n => (n, 1)) untaken s.bank
  ({ s with bank := r.1 }, r.2)

/-- The key count and the mask block that an earlier attempt has read: `wrote` says that it came so far. -/
def EngOp.heldCtx (o : EngOp) : Option (Nat × List Byte) := if o.wrote then some (o.rank, o.mask) else none

/-- The operation holds them. -/
def EngOp.holdCtx (o : EngOp) (c : AttnCtx) : EngOp := { o with wrote := true, rank := c.l, mask := c.mblk }

/-- `attn` once its claims are made. -/
def State.attnGo (s : State) (o : EngOp) (r : AttnReq) : EngRes :=
  let s := s.acquireHeads r none
  let cq := o.claimAt 0
  let co := o.claimAt 1
  match firstBad [(0x04, !queryOk r cq.desc), (0x03, !outOk r r.oty co.desc)] with
  | some sub => stopAt s o sub
  | none =>
    match s.attnCtx r none o.rule.isSome o.heldCtx with
    | .error e => .fault s o e
    | .ok c =>
      let o := o.holdCtx c
      if s.opWaits o then .waits s o
      else
        let p := s.pieceOf cq 0
        match pieceFault 0 [(cq.st, p)] with
        | some e => fillStop s o e 0
        | none =>
          let n := (o.rule.map (·.2)).getD 0
          let nout := r.nout + 8 * r.q * n
          let z := State.attnRows c nout p cq.desc.elTy (r.q - o.row) o.row s (heldOut (o.blk.drop 128)) o.flags
          let o := { o with blk := o.blk.take 128 ++ holdOut z.out, flags := z.f }
          match z.stop with
          | some (i, e) => .fault z.s { o with row := i } e
          | none =>
            let s := z.s.handOut o co r.q r.d (z.out.map (BitVec.ofNat 32)) (List.replicate (r.q * r.d) false)
            .done (s.consumeAll o) o none z.f

/-- Runs `attn` (R255 to R259). Its claims are made with the reading of its block, and their faults on any of its streams come
before the first check of a type or a shape: R436, which ranks the checks, does not place them. DESIGN CHOICE, log 69. -/
def State.runAttn (s : State) (o : EngOp) : EngRes :=
  match (if o.blk.isEmpty then s.readReq o.addr.toNat false else .ok o.blk) with
  | .error e => .fault s o e
  | .ok bs =>
    let r := attnReqOf bs
    let p := s.lateClaim { o with blk := bs } [r.qs, r.os]
    match p.2.err with
    | some e => .fault p.1 { p.2 with err := none } e
    | none => p.1.attnGo p.2 r

/-- `attn`: the block's address is read at issue (R255). -/
def execAttn (d : Opnd) (bp : BitVec 4) (off : BitVec 23) (s : State) : Host.Outcome State Fault Refusal :=
  s.finish (s.unserved do
    let base ← s.rdBase bp
    pure (s.engIssue (.attn d bp off) d false fun o => { o with addr := base + off.setWidth 64 }))

/-! ## `attnd` (R260) -/

/-- One f32 element read, changed and written on MX (R260). -/
def State.bump (s : State) (va : Nat) (x : Nat) (f : BitVec 7) : Except EngErr (State × BitVec 7) :=
  match s.engRead s.cx s.bank.run (va % 2 ^ 64) 4 4 with
  | .error e => .error (accErr 0x66 e 0)
  | .ok bs =>
    let y := fAddM (ofBytes bs) x f
    match s.engWrite s.cx s.bank.run (va % 2 ^ 64) 4 (bytesOf 4 y.1) with
    | .error e => .error (accErr 0x66 e 0)
    | .ok s => .ok (s, y.2)

/-- A token of a gradient list takes the products of a factor and some values (R260). -/
def State.bumpTok (s : State) (va : Nat) (a : Nat) : List Nat → Nat → BitVec 7 → Except EngErr (State × BitVec 7)
  | [], _, f => .ok (s, f)
  | x :: xs, c, f =>
    let y := fMulM a x f
    match s.bump (va + 4 * c) y.1 y.2 with
    | .error e => .error e
    | .ok (s, f) => s.bumpTok va a xs (c + 1) f

/-- The same for a list that may be absent. -/
def State.bumpIf (s : State) (k : Option KList) (j a : Nat) (xs : List Nat) (f : BitVec 7) :
    Except EngErr (State × BitVec 7) :=
  match k with
  | none => .ok (s, f)
  | some k => s.bumpTok (k.addr j) a xs 0 f

/-- What a query of `attnd` knows: its row as values and widened, dO as values and widened, m, s and Dq. -/
structure DRow where
  q : List FVal
  qw : List Nat
  dv : List FVal
  dw : List Nat
  m : Nat
  sum : Nat
  dq : Nat
  /-- dQ is formed (R279) -/
  forms : Bool

/-- p and e of a key (R260). -/
def DRow.coef (r : DRow) (scale x : Nat) (v : List FVal) : Fm (Nat × Nat) := do
  let p ← if r.sum % 2 ^ 31 = 0 then pure 0 else do
    let e ← fl (exp2Diff x r.m)
    fDivM e r.sum
  let dp ← fl (exactDot r.dv v)
  let a ← fMulM f32Ln2 p
  let b ← fSubM dp r.dq
  let dx ← fMulM a b
  let e ← fMulM scale dx
  pure (p, e)

/-- g takes the products of e and a key (R260). -/
def gStep (e : Nat) (g k : List Nat) : Fm (List Nat) :=
  (g.zip k).mapM fun (p : Nat × Nat) => do
    let t ← fMulM e p.2
    fAddM p.1 t

/-- The keys of query `i` of `attnd` from `j` on: the state, g and the flags (R260). -/
def State.attndKeys (c : AttnCtx) (i : Nat) (r : DRow) :
    Nat → Nat → State → List Nat → BitVec 7 → Except EngErr (State × List Nat × BitVec 7)
  | 0, _, s, g, f => .ok (s, g, f)
  | n + 1, j, s, g, f =>
    if !c.mask.visible c.l c.req.q i j then State.attndKeys c i r n (j + 1) s g f
    else
      match s.readTok c.k c.req.d j with
      | .error e => .error e
      | .ok k =>
        match s.readTok c.v c.req.d j with
        | .error e => .error e
        | .ok v =>
          let x := logitOf c.req.scale r.q (k.map (fval c.k.ty)) f
          if x.1 = f32NegInf then State.attndKeys c i r n (j + 1) s g x.2
          else
            let pe := r.coef c.req.scale x.1 (v.map (fval c.v.ty)) x.2
            let g' := if r.forms then (do
                let kw ← k.mapM (widen c.k.ty)
                gStep pe.1.2 g kw) pe.2
              else (g, pe.2)
            match s.bumpIf c.dk j pe.1.2 r.qw g'.2 with
            | .error e => .error e
            | .ok (s, f) =>
              match s.bumpIf c.dv j pe.1.1 r.dw f with
              | .error e => .error e
              | .ok (s, f) => State.attndKeys c i r n (j + 1) s g'.1 f

/-- Dq of a row (R260). -/
def dqOf (dout o : List Nat) : Fm Nat :=
  (dout.zip o).foldlM (fun (q : Nat) (p : Nat × Nat) => do
    let t ← fMulM p.1 p.2
    fAddM q t) 0

/-- The pieces of `attnd`: q, dO and O with their types. -/
structure DPieces where
  q : Piece
  qt : Ty
  dout : Piece
  dt : Ty
  o : Piece
  ot : Ty

/-- Row `i` is poisoned in one of the pieces. -/
def DPieces.bad (p : DPieces) (d i : Nat) : Bool :=
  (List.range d).any fun c => p.q.badAt i c || p.dout.badAt i c || p.o.badAt i c

/-- Query `i` of `attnd`: all of its writes, or none (R260, R261). `norm` gives (m, s). The widening of q raises nothing: a
NaN in q leaves no key at which q is used. `forms`: dQ is formed (R279). -/
def State.attndRow (s : State) (c : AttnCtx) (p : DPieces) (i : Nat) (norm : Nat × Nat) (forms : Bool) (f : BitVec 7) :
    Except EngErr (State × List Nat × BitVec 7) :=
  let dw := p.dout.rowF p.dt i f
  let ow := p.o.rowF p.ot i dw.2
  let dq := dqOf dw.1 ow.1 ow.2
  let vals := fun (x : Piece) (t : Ty) => (List.range c.req.d).map fun n => fval t (x.at i n)
  let r : DRow := ⟨vals p.q p.qt, (p.q.rowF p.qt i 0).1, vals p.dout p.dt, dw.1, norm.1, norm.2, dq.1, forms⟩
  State.attndKeys c i r c.l 0 s (List.replicate c.req.d 0) dq.2

/-- Reads (m, s) of query `i` (R260). -/
def State.readNorm (s : State) (nout i : Nat) : Except EngErr (Nat × Nat) :=
  match s.engRead s.cx s.bank.run ((nout + 8 * i) % 2 ^ 64) 8 8 with
  | .error e => .error (accErr 0x65 e 0)
  | .ok bs => .ok (fieldOf bs 0 4, fieldOf bs 4 4)

/-- Rounds the elements of dQ (R260). -/
def dqOut (t : Ty) (g : List Nat) : Fm (List Nat) :=
  g.mapM fun (x : Nat) => if t = .f32 then pure x else fl (cvtFF t .f32 rne x)

/-- Queries `i` on of `attnd`, `n` of them. -/
def State.attndRows (c : AttnCtx) (p : DPieces) (oty : Ty) :
    Nat → Nat → State → List Nat → BitVec 7 → QEnd
  | 0, _, s, out, f => ⟨s, out, f, none⟩
  | n + 1, i, s, out, f =>
    if p.bad c.req.d i then ⟨s, out, f, some (i, engErr 0x09 0 0 0)⟩
    else
      match s.readNorm c.req.nout i with
      | .error e => ⟨s, out, f, some (i, e)⟩
      | .ok ms =>
        match s.attndRow c p i ms true f with
        | .error e => ⟨s, out, f, some (i, e)⟩
        | .ok (s, g, f) =>
          let row := dqOut oty g f
          State.attndRows c p oty n (i + 1) s (out ++ row.1) row.2

/-- Reads and checks both blocks of `attnd` (R255, R260). -/
def State.readReqD (s : State) (o : EngOp) : Except EngErr (List Byte) :=
  if !o.blk.isEmpty then .ok o.blk
  else
    match s.readReq o.addr.toNat true with
    | .error e => .error e
    | .ok bs =>
      match s.readWords o.valA.toNat 8 with
      | .error e => .error (accErr 0x66 e 0)
      | .ok ab =>
        match adjBlkBad ab true with
        | some sub => .error (engErr 0x0D sub o.valA 0)
        | none => .ok (bs ++ ab)

/-- `attnd` once its claims are made. -/
def State.attndGo (s : State) (o : EngOp) (r : AttnReq) (a : AdjBlk) : EngRes :=
  let s := s.acquireHeads r (some a)
  let cl := fun i => (o.claimAt i).desc
  let os := (s.bank.stream r.os)
  match firstBad [(0x04, !queryOk r (cl 0)), (0x03, os.state == .unconf || !outOk r r.oty os.desc),
      (0x04, !queryOk r (cl 1)), (0x04, !queryOk r (cl 2)), (0x03, !(attnTy (cl 3).ty && outOk r (cl 3).ty (cl 3)))] with
  | some sub => stopAt s o sub
  | none =>
    match s.attnCtx r (some a) false o.heldCtx with
    | .error e => .fault s o e
    | .ok c =>
      let o := o.holdCtx c
      if s.opWaits o then .waits s o
      else
        let pc := fun i => s.pieceOf (o.claimAt i) 0
        match pieceFault 0 ((List.range 3).map fun i => ((o.claimAt i).st, pc i)) with
        | some e => fillStop s o e 0
        | none =>
          let p : DPieces := ⟨pc 0, (cl 0).elTy, pc 1, (cl 1).elTy, pc 2, (cl 2).elTy⟩
          let z := State.attndRows c p (cl 3).elTy (r.q - o.row) o.row s (heldOut (o.blk.drop 192)) o.flags
          let o := { o with blk := o.blk.take 192 ++ holdOut z.out, flags := z.f }
          match z.stop with
          | some (i, e) => .fault z.s { o with row := i } e
          | none =>
            let s := z.s.handOut o (o.claimAt 3) r.q r.d (z.out.map (BitVec.ofNat 32)) (List.replicate (r.q * r.d) false)
            .done (s.consumeAll o) o none z.f

/-- Runs `attnd` (R260); its claims as those of `attn`. DESIGN CHOICE, log 69. -/
def State.runAttnd (s : State) (o : EngOp) : EngRes :=
  match s.readReqD o with
  | .error e => .fault s o e
  | .ok bs =>
    let r := attnReqOf (bs.take 128)
    let a := adjBlkOf ((bs.drop 128).take 64)
    let p := s.lateClaim { o with blk := bs } [r.qs, a.dos, a.os, a.dqs]
    match p.2.err with
    | some e => .fault p.1 { p.2 with err := none } e
    | none => p.1.attndGo p.2 r a

/-- `attnd`: the addresses of both blocks are read at issue (R255, R260). -/
def execAttnd (d : Opnd) (bp : BitVec 4) (a : Opnd) (off : BitVec 23) (s : State) :
    Host.Outcome State Fault Refusal :=
  s.finish (s.unserved do
    let base ← s.rdBase bp
    let adj ← s.rd64 a
    pure (s.engIssue (.attnd d bp a off) d false fun o => { o with addr := base + off.setWidth 64, valA := adj }))

end Sys2Proof.Machine
end

