-- ==== Sys2Proof/Machine/Vector.lean ====
section
/-! DEFINITION. Vector and mask instructions: VINT, VFP, VSPC, VCVT, VLANE and MASK (R115 to R135). -/

namespace Sys2Proof.Machine

/-! ## Lanes (R115, R116) -/

/-- The element of a lane: its low bits, as a number (R115). -/
def elem (t : Ty) (w : Word) : Nat := w.toNat % 2 ^ tyBits t

/-- The element read as an integer: signed for i types, natural for n types (R119). -/
def elemInt (t : Ty) (w : Word) : Int :=
  if t.isLaneSigned then sgnW (tyBits t) w.toNat else (elem t w : Int)

/-- A result element in its lane, filled above its width by type (R115). -/
def extend (t : Ty) (x : Nat) : Word :=
  match t with
  | .i16 => (BitVec.ofNat 16 x).signExtend 32
  | .i8 => (BitVec.ofNat 8 x).signExtend 32
  | _ => BitVec.ofNat 32 (x % 2 ^ tyBits t)

/-- All bits of a lane, or none: a comparison's result (R119, R120). -/
def laneBool (b : Bool) : Word := if b then 0xFFFFFFFF else 0

/-- The common form of a lane-wise result: inactive lanes are zero (R116). -/
def laneWise (act : BitVec 16) (f : Nat → Word) : Vec := mkVec fun i => if act.getLsbD i then f i else 0

/-- The flags of the active lanes (R74). -/
def laneFlags (act : BitVec 16) (f : Nat → BitVec 7) : BitVec 7 := orFlags ((lanesOf act).map f)

/-- Delivers lanes that carry flags. -/
def State.putLanes (s : State) (sc : Sched) (d : Opnd) (nominal : Nat) (m : Gov) (f : Nat → Word × BitVec 7) : State :=
  s.putV sc d nominal (laneWise (s.active m) fun i => (f i).1) (laneFlags (s.active m) fun i => (f i).2)

/-- A lane-wise instruction of one vector. -/
def State.vec1 (s : State) (sc : Sched) (d a : Opnd) (t : Ty) (m : Gov) (nominal : Nat) (f : Word → Word × BitVec 7) :
    Host.Outcome State Fault Refusal :=
  s.finish do
    let x ← s.rdV (tyOne t) a
    pure (s.putLanes sc d nominal m fun i => f (lane x i))

/-- A lane-wise instruction of two vectors. -/
def State.vec2 (s : State) (sc : Sched) (d a b : Opnd) (t : Ty) (m : Gov) (nominal : Nat)
    (f : Word → Word → Word × BitVec 7) : Host.Outcome State Fault Refusal :=
  s.finish do
    let x ← s.rdV (tyOne t) a
    let y ← s.rdV (tyOne t) b
    pure (s.putLanes sc d nominal m fun i => f (lane x i) (lane y i))

/-- A lane-wise instruction of three vectors. -/
def State.vec3 (s : State) (sc : Sched) (d a b x : Opnd) (t : Ty) (m : Gov) (nominal : Nat)
    (f : Word → Word → Word → Word × BitVec 7) : Host.Outcome State Fault Refusal :=
  s.finish do
    let u ← s.rdV (tyOne t) a
    let v ← s.rdV (tyOne t) b
    let w ← s.rdV (tyOne t) x
    pure (s.putLanes sc d nominal m fun i => f (lane u i) (lane v i) (lane w i))

/-! ## VINT (R119) -/

/-- An integer result in its lane, modulo 2^w. -/
def intLane (t : Ty) (x : Int) : Word := extend t (wrapW (tyBits t) x)

/-- A lane operation on integers that wraps. -/
def intOp (t : Ty) (f : Int → Int → Int) (a b : Word) : Word × BitVec 7 := (intLane t (f (elemInt t a) (elemInt t b)), 0)

/-- A lane operation on integers that clamps (R67). -/
def intSat (t : Ty) (f : Int → Int → Int) (a b : Word) : Word × BitVec 7 :=
  (intLane t (clampTo t (f (elemInt t a) (elemInt t b))), 0)

/-- A lane operation on bit patterns. -/
def bitOp (t : Ty) (f : Nat → Nat → Nat) (a b : Word) : Word × BitVec 7 := (extend t (f (elem t a) (elem t b)), 0)

/-- A lane comparison of integers (R119). -/
def intCmp (t : Ty) (f : Int → Int → Bool) (a b : Word) : Word × BitVec 7 := (laneBool (f (elemInt t a) (elemInt t b)), 0)

/-- A shift of a lane: the amount is b[4:0] whatever the type (R119). -/
def shiftOp (t : Ty) (f : Nat → Nat → Nat) (a b : Word) : Word × BitVec 7 := (extend t (f (elem t a) (b.toNat % 32)), 0)

/-- Shift right filling with the sign (R119). -/
def sraOp (t : Ty) (a b : Word) : Word × BitVec 7 := (intLane t (elemInt t a / 2 ^ (b.toNat % 32)), 0)

/-- `vadd` (R119). -/
def execVadd (sc : Sched) (d a b : Opnd) (t : Ty) (m : Gov) (s : State) : Host.Outcome State Fault Refusal :=
  s.vec2 sc d a b t m 2 (intOp t (· + ·))

/-- `vsub` (R119). -/
def execVsub (sc : Sched) (d a b : Opnd) (t : Ty) (m : Gov) (s : State) : Host.Outcome State Fault Refusal :=
  s.vec2 sc d a b t m 2 (intOp t (· - ·))

/-- `vmul` (R119). -/
def execVmul (sc : Sched) (d a b : Opnd) (t : Ty) (m : Gov) (s : State) : Host.Outcome State Fault Refusal :=
  s.vec2 sc d a b t m 4 (intOp t (· * ·))

/-- `vmin` (R119). -/
def execVmin (sc : Sched) (d a b : Opnd) (t : Ty) (m : Gov) (s : State) : Host.Outcome State Fault Refusal :=
  s.vec2 sc d a b t m 2 (intOp t min)

/-- `vmax` (R119). -/
def execVmax (sc : Sched) (d a b : Opnd) (t : Ty) (m : Gov) (s : State) : Host.Outcome State Fault Refusal :=
  s.vec2 sc d a b t m 2 (intOp t max)

/-- `vabs`: the most negative value maps to itself (R119). -/
def execVabs (sc : Sched) (d a : Opnd) (t : Ty) (m : Gov) (s : State) : Host.Outcome State Fault Refusal :=
  s.vec1 sc d a t m 2 fun x => (intLane t (elemInt t x).natAbs, 0)

/-- `vand` (R119). -/
def execVand (sc : Sched) (d a b : Opnd) (t : Ty) (m : Gov) (s : State) : Host.Outcome State Fault Refusal :=
  s.vec2 sc d a b t m 2 (bitOp t (· &&& ·))

/-- `vor` (R119). -/
def execVor (sc : Sched) (d a b : Opnd) (t : Ty) (m : Gov) (s : State) : Host.Outcome State Fault Refusal :=
  s.vec2 sc d a b t m 2 (bitOp t (· ||| ·))

/-- `vxor` (R119). -/
def execVxor (sc : Sched) (d a b : Opnd) (t : Ty) (m : Gov) (s : State) : Host.Outcome State Fault Refusal :=
  s.vec2 sc d a b t m 2 (bitOp t (· ^^^ ·))

/-- `vshl` (R119). -/
def execVshl (sc : Sched) (d a b : Opnd) (t : Ty) (m : Gov) (s : State) : Host.Outcome State Fault Refusal :=
  s.vec2 sc d a b t m 2 (shiftOp t fun x n => x * 2 ^ n)

/-- `vshr` (R119). -/
def execVshr (sc : Sched) (d a b : Opnd) (t : Ty) (m : Gov) (s : State) : Host.Outcome State Fault Refusal :=
  s.vec2 sc d a b t m 2 (shiftOp t fun x n => x / 2 ^ n)

/-- `vsra` (R119). -/
def execVsra (sc : Sched) (d a b : Opnd) (t : Ty) (m : Gov) (s : State) : Host.Outcome State Fault Refusal :=
  s.vec2 sc d a b t m 2 (sraOp t)

/-- `vadds` (R119). -/
def execVadds (sc : Sched) (d a b : Opnd) (t : Ty) (m : Gov) (s : State) : Host.Outcome State Fault Refusal :=
  s.vec2 sc d a b t m 2 (intSat t (· + ·))

/-- `vsubs` (R119). -/
def execVsubs (sc : Sched) (d a b : Opnd) (t : Ty) (m : Gov) (s : State) : Host.Outcome State Fault Refusal :=
  s.vec2 sc d a b t m 2 (intSat t (· - ·))

/-- `vcmpeq` (R119). -/
def execVcmpeq (sc : Sched) (d a b : Opnd) (t : Ty) (m : Gov) (s : State) : Host.Outcome State Fault Refusal :=
  s.vec2 sc d a b t m 2 (intCmp t fun x y => decide (x = y))

/-- `vcmplt` (R119). -/
def execVcmplt (sc : Sched) (d a b : Opnd) (t : Ty) (m : Gov) (s : State) : Host.Outcome State Fault Refusal :=
  s.vec2 sc d a b t m 2 (intCmp t fun x y => decide (x < y))

/-- `vcmple` (R119). -/
def execVcmple (sc : Sched) (d a b : Opnd) (t : Ty) (m : Gov) (s : State) : Host.Outcome State Fault Refusal :=
  s.vec2 sc d a b t m 2 (intCmp t fun x y => decide (x ≤ y))

/-! ## VFP (R120, R121) -/

/-- A float result in its lane. -/
def floatLane (t : Ty) (r : Nat × BitVec 7) : Word × BitVec 7 := (extend t r.1, r.2)

/-- A comparison of floats: `anyNaN` says that any NaN sets IV, else only a signalling one (R120). -/
def floatCmp (t : Ty) (anyNaN : Bool) (f : FVal → FVal → Bool) (a b : Word) : Word × BitVec 7 :=
  let x := fval t (elem t a)
  let y := fval t (elem t b)
  (laneBool (f x y), flagIf (if anyNaN then x.isNaN || y.isNaN else x.isSig || y.isSig) flIV)

/-- `vfabs` and `vfneg` of a lane: a NaN becomes canonical (R120). -/
def signOp (t : Ty) (f : Nat → Nat) (a : Word) : Word × BitVec 7 :=
  let x := fval t (elem t a)
  (extend t (if x.isNaN then canonNaN t else f (elem t a)), flagIf x.isSig flIV)

/-- `vfadd` (R120). -/
def execVfadd (sc : Sched) (d a b : Opnd) (t : Ty) (m : Gov) (r : Rnd) (s : State) :
    Host.Outcome State Fault Refusal :=
  s.vec2 sc d a b t m 4 fun x y => floatLane t (fAdd t r (elem t x) (elem t y))

/-- `vfsub` (R120). -/
def execVfsub (sc : Sched) (d a b : Opnd) (t : Ty) (m : Gov) (r : Rnd) (s : State) :
    Host.Outcome State Fault Refusal :=
  s.vec2 sc d a b t m 4 fun x y => floatLane t (fSub t r (elem t x) (elem t y))

/-- `vfmul` (R120). -/
def execVfmul (sc : Sched) (d a b : Opnd) (t : Ty) (m : Gov) (r : Rnd) (s : State) :
    Host.Outcome State Fault Refusal :=
  s.vec2 sc d a b t m 4 fun x y => floatLane t (fMul t r (elem t x) (elem t y))

/-- `vfma`: one rounding (R120). -/
def execVfma (sc : Sched) (d a b x : Opnd) (t : Ty) (m : Gov) (r : Rnd) (s : State) :
    Host.Outcome State Fault Refusal :=
  s.vec3 sc d a b x t m 4 fun u v w =>
    floatLane t (fFma t r (fval t (elem t u)) (fval t (elem t v)) (fval t (elem t w)))

/-- `vfms`: one rounding (R120). -/
def execVfms (sc : Sched) (d a b x : Opnd) (t : Ty) (m : Gov) (r : Rnd) (s : State) :
    Host.Outcome State Fault Refusal :=
  s.vec3 sc d a b x t m 4 fun u v w =>
    floatLane t (fFma t r (fval t (elem t u)) (fval t (elem t v)) (fval t (elem t w)).negate)

/-- `vfmin` (R121). -/
def execVfmin (sc : Sched) (d a b : Opnd) (t : Ty) (m : Gov) (s : State) : Host.Outcome State Fault Refusal :=
  s.vec2 sc d a b t m 2 fun x y => floatLane t (fMinMax t false (elem t x) (elem t y))

/-- `vfmax` (R121). -/
def execVfmax (sc : Sched) (d a b : Opnd) (t : Ty) (m : Gov) (s : State) : Host.Outcome State Fault Refusal :=
  s.vec2 sc d a b t m 2 fun x y => floatLane t (fMinMax t true (elem t x) (elem t y))

/-- `vfabs` (R120). -/
def execVfabs (sc : Sched) (d a : Opnd) (t : Ty) (m : Gov) (s : State) : Host.Outcome State Fault Refusal :=
  s.vec1 sc d a t m 2 (signOp t fun x => x % signBit t)

/-- `vfneg` (R120). -/
def execVfneg (sc : Sched) (d a : Opnd) (t : Ty) (m : Gov) (s : State) : Host.Outcome State Fault Refusal :=
  s.vec1 sc d a t m 2 (signOp t fun x => x ^^^ signBit t)

/-- `vfcmpeq` (R120). -/
def execVfcmpeq (sc : Sched) (d a b : Opnd) (t : Ty) (m : Gov) (s : State) : Host.Outcome State Fault Refusal :=
  s.vec2 sc d a b t m 2 (floatCmp t false vEq)

/-- `vfcmplt` (R120). -/
def execVfcmplt (sc : Sched) (d a b : Opnd) (t : Ty) (m : Gov) (s : State) : Host.Outcome State Fault Refusal :=
  s.vec2 sc d a b t m 2 (floatCmp t true vLt)

/-- `vfcmple` (R120). -/
def execVfcmple (sc : Sched) (d a b : Opnd) (t : Ty) (m : Gov) (s : State) : Host.Outcome State Fault Refusal :=
  s.vec2 sc d a b t m 2 (floatCmp t true fun x y => vLt x y || vEq x y)

/-- `vfcmpun` (R120). -/
def execVfcmpun (sc : Sched) (d a b : Opnd) (t : Ty) (m : Gov) (s : State) : Host.Outcome State Fault Refusal :=
  s.vec2 sc d a b t m 2 (floatCmp t false fun x y => x.isNaN || y.isNaN)

/-! ## VSPC (R122 to R124) -/

/-- `vrcp` (R122). -/
def execVrcp (sc : Sched) (d a : Opnd) (t : Ty) (m : Gov) (r : Rnd) (s : State) : Host.Outcome State Fault Refusal :=
  s.vec1 sc d a t m 8 fun x => floatLane t (fRcp t r (elem t x))

/-- `vrsqrt` (R122). -/
def execVrsqrt (sc : Sched) (d a : Opnd) (t : Ty) (m : Gov) (r : Rnd) (s : State) :
    Host.Outcome State Fault Refusal :=
  s.vec1 sc d a t m 8 fun x => floatLane t (fRsqrt t r (elem t x))

/-- `vsqrt` (R122). -/
def execVsqrt (sc : Sched) (d a : Opnd) (t : Ty) (m : Gov) (r : Rnd) (s : State) : Host.Outcome State Fault Refusal :=
  s.vec1 sc d a t m 8 fun x => floatLane t (fSqrt t r (elem t x))

/-- `vexp2` (R122). -/
def execVexp2 (sc : Sched) (d a : Opnd) (t : Ty) (m : Gov) (r : Rnd) (s : State) : Host.Outcome State Fault Refusal :=
  s.vec1 sc d a t m 8 fun x => floatLane t (fExp2 t r (elem t x))

/-- `vlog2` (R122). -/
def execVlog2 (sc : Sched) (d a : Opnd) (t : Ty) (m : Gov) (r : Rnd) (s : State) : Host.Outcome State Fault Refusal :=
  s.vec1 sc d a t m 8 fun x => floatLane t (fLog2 t r (elem t x))

/-- `vdiv` (R122). -/
def execVdiv (sc : Sched) (d a b : Opnd) (t : Ty) (m : Gov) (r : Rnd) (s : State) :
    Host.Outcome State Fault Refusal :=
  s.vec2 sc d a b t m 12 fun x y => floatLane t (fDiv t r (elem t x) (elem t y))

/-- The position that rotates channel pair `p`: time, height, width, or none (R123). -/
def ropePos (rope : Word) (x : Vec) (p : Nat) : Option Int :=
  let tp := rope.toNat % 128
  let hp := rope.toNat / 256 % 128
  let wp := rope.toNat / 65536 % 128
  if p < tp then some (lane x 0).toInt
  else if p < tp + hp then some (lane x 1).toInt
  else if p < tp + hp + wp then some (lane x 2).toInt
  else none

/-- The three counts of `sr.rope` together (R123). -/
def ropePairs (rope : Word) : Nat := rope.toNat % 128 + rope.toNat / 256 % 128 + rope.toNat / 65536 % 128

/-- The angle of a pair: RoundF32(pos * frequency) (R123). -/
def ropeAngle (pos : Int) (w : Word) : Nat × BitVec 7 :=
  finishVal .f32 .rne false (vMul (.fin (decide (pos < 0)) pos.natAbs 0) (fval .f32 w.toNat))

/-- One lane of a rotated pair; `odd` names which (R123). The flags of the angle, of its cosine and of its sine accrue with
those of the result: the manual does not say. DESIGN CHOICE, log 64. -/
def ropeLane (t : Ty) (r : Rnd) (pos : Option Int) (w a0 a1 : Word) (odd : Bool) : Word × BitVec 7 :=
  let u := fval t (elem t a0)
  let v := fval t (elem t a1)
  match pos with
  | none => floatLane t (roundVal t r.mode r.sat (if odd then v else u))
  | some p =>
    let th := ropeAngle p w
    match fval .f32 th.1 with
    | .fin n m e =>
      let cs := trigF32 true n m e
      let sn := trigF32 false n m e
      let x := vMul u (fval .f32 (if odd then sn.1 else cs.1))
      let y := vMul v (fval .f32 (if odd then cs.1 else sn.1))
      let sum := vAdd r.mode x.1 (if odd then y.1 else y.1.negate)
      let z := finishVal t r.mode r.sat (sum.1, sum.2 || x.2 || y.2)
      (extend t z.1, z.2 ||| th.2 ||| cs.2 ||| sn.2)
    | _ => (extend t (canonNaN t), flIV ||| th.2)

/-- `vrope` (R123). -/
def execVrope (sc : Sched) (d a b x : Opnd) (t : Ty) (m : Gov) (r : Rnd) (c : BitVec 3) (s : State) :
    Host.Outcome State Fault Refusal :=
  s.finish do
    let u ← s.rdV (tyOne t) a
    let v ← s.rdV (tyOne .f32) b
    let w ← s.rdV 1 x
    let rope := s.cur.rope
    if 64 < ropePairs rope then s.trapNow 0x0D 0 0
    else
      pure (s.putLanes sc d 8 m fun i =>
        let j := i / 2
        ropeLane t r (ropePos rope w (8 * c.toNat + j)) (lane v (2 * j)) (lane u (2 * j)) (lane u (2 * j + 1))
          (i % 2 == 1))

/-- `vrng` (R124). `one` as its scalar A reads as integer 1 (R15). DESIGN CHOICE, log 68. -/
def execVrng (sc : Sched) (d a : Opnd) (m : Gov) (s : State) : Host.Outcome State Fault Refusal :=
  s.finish do
    let x ← s.rd32 a
    pure (s.putLanes sc d 5 m fun i => (BitVec.ofNat 32 (draw s.cur.rngkey (x + BitVec.ofNat 32 i)), 0))

/-! ## VCVT (R125 to R128) -/

/-- The type of a conversion's source (R125). -/
def srcTy : CvtSrc → Ty
  | .f32 => .f32 | .f16 => .f16 | .bf16 => .bf16 | .e4m3 => .e4m3 | .e5m2 => .e5m2 | .f6 => .f6
  | .i32 => .i32 | .n32 => .n32

/-- Converts one lane (R76 to R78, R125). -/
def cvtLane (dst src : Ty) (r : Rnd) (w : Word) : Word × BitVec 7 :=
  let x := elem src w
  if src = .i32 ∨ src = .n32 then
    if dst.isLaneInt then (extend dst (cvtII dst r.sat (elemInt src w)), 0)
    else floatLane dst (cvtIF dst r (elemInt src w))
  else if dst.isLaneInt then
    let v := cvtFI dst src r.mode x
    (intLane dst v.1, v.2)
  else if dst = src then
    let v := fval src x
    (extend dst (if v.isNaN then canonNaN dst else x), flagIf v.isSig flIV)
  else floatLane dst (cvtFF dst src r x)

/-- `vcvt` (R125). -/
def execVcvt (sc : Sched) (d a : Opnd) (t : Ty) (src : CvtSrc) (m : Gov) (r : Rnd) (s : State) :
    Host.Outcome State Fault Refusal :=
  s.vec1 sc d a (srcTy src) m 3 (cvtLane t (srcTy src) r)

/-- A field of `w` bits at bit `off` of a vector. -/
def getField (x : Vec) (off w : Nat) : Nat := x.toNat / 2 ^ off % 2 ^ w

/-- The vector with a field replaced. -/
def setField (x : Vec) (off w v : Nat) : Vec :=
  BitVec.ofNat 512 (x.toNat - x.toNat / 2 ^ off % 2 ^ w * 2 ^ off + v % 2 ^ w * 2 ^ off)

/-- Replaces a field for each lane number. -/
def setFields (x : Vec) (w : Nat) (off v : Nat → Nat) : Vec :=
  (List.range 16).foldl (fun x i => setField x (off i) w (v i)) x

/-- `vpack` (R126). -/
def execVpack (sc : Sched) (d a x : Opnd) (t : Ty) (qx : BitVec 2) (s : State) : Host.Outcome State Fault Refusal :=
  s.finish do
    let u ← s.rdV (tyOne t) a
    let v ← s.rdV (tyOne t) x
    let w := tyBits t
    pure (s.putV sc d 3 (setFields v w (fun i => w * (16 * qx.toNat + i)) fun i => elem t (lane u i)) 0)

/-- `vunpk` (R126). -/
def execVunpk (sc : Sched) (d a : Opnd) (t : Ty) (qx : BitVec 2) (m : Gov) (s : State) :
    Host.Outcome State Fault Refusal :=
  s.finish do
    let u ← s.rdV (tyOne t) a
    let w := tyBits t
    pure (s.putLanes sc d 3 m fun i => (extend t (getField u (w * (16 * qx.toNat + i)) w), 0))

/-- `vpk6`: one plane of 16 codes (R71, R127). -/
def execVpk6 (sc : Sched) (d a x : Opnd) (lo : Bool) (qx : BitVec 4) (s : State) : Host.Outcome State Fault Refusal :=
  s.finish do
    let u ← s.rdV (tyOne .f6) a
    let v ← s.rdV (tyOne .f6) x
    let y :=
      if lo then setFields v 2 (fun i => 2 * (16 * qx.toNat + i)) fun i => (lane u i).toNat % 4
      else setFields v 4 (fun i => 4 * (16 * qx.toNat + i)) fun i => (lane u i).toNat / 4 % 16
    pure (s.putV sc d 3 y 0)

/-- `vupk6` (R127). -/
def execVupk6 (sc : Sched) (d a b : Opnd) (qx : BitVec 3) (h : Bool) (m : Gov) (s : State) :
    Host.Outcome State Fault Refusal :=
  s.finish do
    let u ← s.rdV (tyOne .f6) a
    let v ← s.rdV (tyOne .f6) b
    pure (s.putLanes sc d 3 m fun i =>
      let n := 16 * qx.toNat + i
      (BitVec.ofNat 32 (getField u (4 * n) 4 * 4 + getField v (2 * (128 * bit h + n)) 2), 0))

/-- Digit `i` of a quintet; a byte above 242 has no digits (R72). -/
def tritDigit (b i : Nat) : Nat := if 242 < b then 0 else b / 3 ^ i % 3

/-- A trit in a type: 0, +1 or -1 (R128). -/
def tritIn (t : Ty) (dg : Nat) : Word :=
  match dg with
  | 0 => 0
  | 1 => tyOne t
  | _ => if t.isLaneInt then 0xFFFFFFFF else extend t (withSign t true (tyOne t).toNat)

/-- `vtrit` (R128). `one` as its vector A, which holds quintets, reads as integer 1 in every lane whatever T is (R15). DESIGN
CHOICE, log 68. -/
def execVtrit (sc : Sched) (d a : Opnd) (t : Ty) (qx : BitVec 5) (m : Gov) (s : State) :
    Host.Outcome State Fault Refusal :=
  s.finish do
    let u ← s.rdV 1 a
    pure (s.putLanes sc d 3 m fun i =>
      let n := 16 * qx.toNat + i
      let b := getField u (8 * (n / 5)) 8
      (tritIn t (tritDigit b (n % 5)), flagIf (242 < b) flTC))

/-- The digit `vtritp` writes for a lane value, and whether the value is no trit (R128). -/
def tritOf (w : Word) : Nat × Bool :=
  if w = 0 then (0, false) else if w = 1 then (1, false) else if w = 0xFFFFFFFF then (2, false) else (0, true)

/-- Writes digit `i` of a byte; the other digits of a byte above 242 read as 0 (R128). -/
def setDigit (b i dg : Nat) : Nat :=
  let b := if 242 < b then 0 else b
  b - b / 3 ^ i % 3 * 3 ^ i + dg * 3 ^ i

/-- One trit of `vtritp`: the vector and the flags so far (R128). -/
def tritStep (u : Vec) (q : Nat) (p : Vec × BitVec 7) (i : Nat) : Vec × BitVec 7 :=
  let n := 16 * q + i
  let b := getField p.1 (8 * (n / 5)) 8
  let g := tritOf (lane u i)
  (setField p.1 (8 * (n / 5)) 8 (setDigit b (n % 5) g.1), p.2 ||| flagIf (decide (242 < b) || g.2) flTC)

/-- `vtritp` (R128). -/
def execVtritp (sc : Sched) (d a x : Opnd) (qx : BitVec 5) (s : State) : Host.Outcome State Fault Refusal :=
  s.finish do
    let u ← s.rdV 1 a
    let v ← s.rdV 1 x
    let y := (List.range 16).foldl (tritStep u qx.toNat) (v, 0)
    pure (s.putV sc d 3 y.1 y.2)

/-! ## VLANE (R129 to R132) -/

/-- `vbcast` (R129). -/
def execVbcast (sc : Sched) (d a : Opnd) (m : Gov) (s : State) : Host.Outcome State Fault Refusal :=
  s.finish do
    let x ← s.rd32 a
    pure (s.putLanes sc d 2 m fun _ => (x, 0))

/-- `vext`: a scalar result (R129). -/
def execVext (sc : Sched) (d a b : Opnd) (s : State) : Host.Outcome State Fault Refusal :=
  s.finish do
    let u ← s.rdV 1 a
    let n ← s.rd32 b
    pure (s.put sc d 3 (lane u (n.toNat % 16)))

/-- `vins` (R129). -/
def execVins (sc : Sched) (d a b x : Opnd) (s : State) : Host.Outcome State Fault Refusal :=
  s.finish do
    let u ← s.rdV 1 a
    let v ← s.rd32 b
    let n ← s.rd32 x
    pure (s.putV sc d 2 (mkVec fun i => if i = n.toNat % 16 then v else lane u i) 0)

/-- `vperm` (R129). X is read, with all that a read of it meets, even where no active lane's index selects it (R117). DESIGN
CHOICE, log 68. -/
def execVperm (sc : Sched) (d a b x : Opnd) (m : Gov) (s : State) : Host.Outcome State Fault Refusal :=
  s.finish do
    let u ← s.rdV 1 a
    let v ← s.rdV 1 b
    let w ← s.rdV 1 x
    pure (s.putLanes sc d 3 m fun i =>
      let b := lane v i
      (if b.getLsbD 4 then lane w (b.toNat % 16) else lane u (b.toNat % 16), 0))

/-- The identity that an inactive lane supplies (R130). -/
def redId (t : Ty) (op : RedOp) : Nat :=
  match op with
  | .add => if t.isLaneFloat then signBit t else 0
  | .min => if t.isLaneFloat then infCode t else wrapW (tyBits t) (intRange t).2
  | .max => if t.isLaneFloat then withSign t true (infCode t) else wrapW (tyBits t) (intRange t).1
  | .and => 2 ^ tyBits t - 1
  | _ => 0

/-- One node of a reduction or step of a scan (R82, R83, R130). -/
def redNode (t : Ty) (op : RedOp) (r : Rnd) (a b : Nat) : Nat × BitVec 7 :=
  let x := sgnW (tyBits t) a
  let y := sgnW (tyBits t) b
  match op with
  | .add => if t.isLaneFloat then fAdd t r a b else ((a + b) % 2 ^ tyBits t, 0)
  | .min =>
    if t.isLaneFloat then fMinMax t false a b
    else if t.isLaneSigned then (if y < x then b else a, 0) else (min a b, 0)
  | .max =>
    if t.isLaneFloat then fMinMax t true a b
    else if t.isLaneSigned then (if x < y then b else a, 0) else (max a b, 0)
  | .and => (a &&& b, 0)
  | .or => (a ||| b, 0)
  | .xor => (a ^^^ b, 0)
  | .lanes => (a, 0)

/-- One level of the pairwise tree, the lower index first (R82). -/
def treeLevel (f : Nat → Nat → Nat × BitVec 7) : List (Nat × BitVec 7) → List (Nat × BitVec 7)
  | x :: y :: rest =>
    let z := f x.1 y.1
    (z.1, x.2 ||| y.2 ||| z.2) :: treeLevel f rest
  | l => l

/-- The reduction of 16 values (R82). -/
def tree16 (f : Nat → Nat → Nat × BitVec 7) (xs : List Nat) : Nat × BitVec 7 :=
  (treeLevel f (treeLevel f (treeLevel f (treeLevel f (xs.map fun x => (x, 0)))))).headD (0, 0)

/-- The active lanes whose element is nonzero, one bit each (R130). -/
def lanesBits (t : Ty) (act : BitVec 16) (u : Vec) : Nat :=
  (lanesOf act).foldl (fun n i => if elem t (lane u i) = 0 then n else n + 2 ^ i) 0

/-- `vred` (R130). The sum of `lanes` is a mask and no element of T: it is not extended by T. DESIGN CHOICE, log 64. -/
def execVred (sc : Sched) (d a : Opnd) (t : Ty) (op : RedOp) (m : Gov) (r : Rnd) (s : State) :
    Host.Outcome State Fault Refusal :=
  s.finish do
    let u ← s.rdV (tyOne t) a
    let act := s.active m
    if op = .lanes then pure (s.put sc d 6 (BitVec.ofNat 32 (lanesBits t act u)))
    else
      let y := tree16 (redNode t op r)
        ((List.range 16).map fun i => if act.getLsbD i then elem t (lane u i) else redId t op)
      pure (s.putF sc d 6 (extend t y.1) y.2)

/-- The running values of a scan: lane 0 is x0, an inactive lane carries the running value (R83, R130). A NaN in lane 0 is
delivered as it stands, without a flag (R83 against R69). DESIGN CHOICE, log 64. -/
def scanGo (t : Ty) (op : RedOp) (r : Rnd) : List (Bool × Nat) → Option Nat → List (Nat × BitVec 7)
  | [], _ => []
  | (act, x) :: rest, run =>
    let y : Nat × BitVec 7 :=
      match run with
      | none => (if act then x else redId t op, 0)
      | some v => if act then redNode t op r v x else (v, 0)
    (if act then y.1 else 0, y.2) :: scanGo t op r rest (some y.1)

/-- `vscan` (R130). -/
def execVscan (sc : Sched) (d a : Opnd) (t : Ty) (op : RedOp) (m : Gov) (r : Rnd) (s : State) :
    Host.Outcome State Fault Refusal :=
  s.finish do
    let u ← s.rdV (tyOne t) a
    let act := s.active m
    let ys := scanGo t op r ((List.range 16).map fun i => (act.getLsbD i, elem t (lane u i))) none
    pure (s.putV sc d 8 (laneWise act fun i => extend t (ys.getD i (0, 0)).1) (orFlags (ys.map (·.2))))

/-- Keys of `vsortk`: `a` below `b`; a NaN is below every number, and all NaNs are equal (R131). -/
def keyBelow (t : Ty) (a b : Word) : Bool :=
  if t.isLaneFloat then
    let x := fval t (elem t a)
    let y := fval t (elem t b)
    if y.isNaN then false else x.isNaN || vBelow x y
  else decide (elemInt t a < elemInt t b)

/-- Lane `i` ranks before lane `j` (R131). -/
def ranksBefore (t : Ty) (asc : Bool) (key tie : Vec) (i j : Nat) : Bool :=
  let up := keyBelow t (lane key i) (lane key j)
  let dn := keyBelow t (lane key j) (lane key i)
  if up || dn then (if asc then up else dn)
  else
    let x := (lane tie i).toNat
    let y := (lane tie j).toNat
    decide (x < y) || (decide (x = y) && decide (i < j))

/-- Puts a lane into its place among ranked lanes. -/
def rankInsert (before : Nat → Nat → Bool) (i : Nat) : List Nat → List Nat
  | [] => [i]
  | j :: js => if before i j then i :: j :: js else j :: rankInsert before i js

/-- Lanes by rank. -/
def rankSort (before : Nat → Nat → Bool) (l : List Nat) : List Nat := l.foldr (rankInsert before) []

/-- `vsortk` (R131). -/
def execVsortk (sc : Sched) (d a b : Opnd) (t : Ty) (asc : Bool) (m : Gov) (s : State) :
    Host.Outcome State Fault Refusal :=
  s.finish do
    let u ← s.rdV (tyOne t) a
    let v ← s.rdV 1 b
    let act := s.active m
    let order := rankSort (ranksBefore t asc u v) (lanesOf act) ++ lanesOf (~~~act)
    let nans := (lanesOf act).any fun i => t.isLaneFloat && (fval t (elem t (lane u i))).isNaN
    pure (s.putV sc d 8 (mkVec fun r => BitVec.ofNat 32 (order.getD r 0)) (flagIf nans flIV))

/-- `vcompress` (R132). -/
def execVcompress (sc : Sched) (d a : Opnd) (m : Gov) (s : State) : Host.Outcome State Fault Refusal :=
  s.finish do
    let u ← s.rdV 1 a
    let ls := lanesOf (s.active m)
    pure (s.putV sc d 3 (mkVec fun i => match ls[i]? with | some j => lane u j | none => 0) 0)

/-! ## MASK (R134, R135) -/

/-- A mask write of the bundle, visible to the next one (R135). -/
def State.putMask (s : State) (d : BitVec 3) (x : BitVec 16) : State := s.mapBun fun b => { b with mask := some (d, x) }

/-- `mand` (R134). -/
def execMand (d a b : BitVec 3) (s : State) : Host.Outcome State Fault Refusal :=
  s.finish (.ok (s.putMask d (s.cur.mask a &&& s.cur.mask b)))

/-- `mor` (R134). -/
def execMor (d a b : BitVec 3) (s : State) : Host.Outcome State Fault Refusal :=
  s.finish (.ok (s.putMask d (s.cur.mask a ||| s.cur.mask b)))

/-- `mxor` (R134). -/
def execMxor (d a b : BitVec 3) (s : State) : Host.Outcome State Fault Refusal :=
  s.finish (.ok (s.putMask d (s.cur.mask a ^^^ s.cur.mask b)))

/-- `mnot` (R134). -/
def execMnot (d a : BitVec 3) (s : State) : Host.Outcome State Fault Refusal :=
  s.finish (.ok (s.putMask d (~~~s.cur.mask a)))

/-- `mset` (R134). -/
def execMset (d : BitVec 3) (b : Opnd) (s : State) : Host.Outcome State Fault Refusal :=
  s.finish do
    let x ← s.rd32 b
    pure (s.putMask d (x.setWidth 16))

/-- `mget` (R134). -/
def execMget (sc : Sched) (d : Opnd) (a : BitVec 3) (s : State) : Host.Outcome State Fault Refusal :=
  s.finish (.ok (s.put sc d 2 ((s.cur.mask a).setWidth 32)))

/-- `mpop` (R134). -/
def execMpop (d a : BitVec 3) (s : State) : Host.Outcome State Fault Refusal :=
  s.finish (.ok (s.putMask d (BitVec.ofNat 16 (2 ^ (lanesOf (s.cur.mask a)).length - 1))))

/-- `mfirst` (R134). -/
def execMfirst (d a : BitVec 3) (s : State) : Host.Outcome State Fault Refusal :=
  s.finish (.ok (s.putMask d
    (match lanesOf (s.cur.mask a) with
    | i :: _ => BitVec.ofNat 16 (2 ^ i)
    | [] => 0)))

/-- `mbit` and `mbit.clr` (R134). -/
def execMbit (d a : BitVec 3) (n : BitVec 4) (clr : Bool) (s : State) : Host.Outcome State Fault Refusal :=
  let x := BitVec.ofNat 16 (2 ^ n.toNat)
  s.finish (.ok (s.putMask d (if clr then s.cur.mask a &&& ~~~x else s.cur.mask a ||| x)))

end Sys2Proof.Machine
end

