-- ==== Sys2Proof/Machine/OpenRules.lean ====
section
/-! DEFINITION. The OPEN major, standing rules and their firing (R202 to R226, R294, R435). -/

namespace Sys2Proof.Machine

/-! ## Slots: `otcfg`, `extend`, `extend.c` (R207, R208) -/

/-- The conditions of R207 by offset, in ascending order: `true` where the field fails. DEDUCED, log 33. -/
def otChecks (bs : List Byte) : List (Nat × Bool) :=
  let rank := fieldOf bs 0x09 1
  let flags := fieldOf bs 0x0A 2
  let ring := flags.testBit 0
  let fill := fieldOf bs 0x20 8
  let cons := fieldOf bs 0x28 8
  let cap := fieldOf bs 0x30 4
  [(0x08, decide (12 < fieldOf bs 0x08 1)),
   (0x09, decide (2 < rank)),
   (0x0A, decide (flags % 256 / 8 ≠ 0)),
   (0x0B, decide (flags / 4096 ≠ 0) || (!flags.testBit 2 && decide (flags / 256 ≠ 0))),
   (0x0C, decide (fieldOf bs 0x0C 4 = 0)),
   (0x10, decide (1 ≤ rank) == decide (fieldOf bs 0x10 4 = 0)),
   (0x14, decide (rank = 2) == decide (fieldOf bs 0x14 4 = 0)),
   (0x28, decide (fill < cons)),
   (0x30, if ring then decide (cap = 0) || decide (cons + cap < fill) else decide (cap ≠ 0)),
   (0x34, decide (fieldOf bs 0x34 4 ≠ 0)),
   (0x38, decide (fieldOf bs 0x38 8 ≠ 0))]

/-- The slot a descriptor describes, marks included (R202, R205, R207). -/
def slotOfBytes (bs : List Byte) : OSlot :=
  let fill := fieldOf bs 0x20 8
  let cons := fieldOf bs 0x28 8
  { conf := true
    base := fieldOf bs 0 8
    ty := fieldOf bs 8 1
    rank := fieldOf bs 9 1
    flags := fieldOf bs 0x0A 2
    w := fieldOf bs 0x0C 4
    e0 := fieldOf bs 0x10 4
    e1 := fieldOf bs 0x14 4
    stride := fieldOf bs 0x18 8
    fill := fill
    loaded := if cons < fill then some cons else none
    soft := cons
    cap := fieldOf bs 0x30 4 }

/-- Slots that a rule names (R211). -/
def Rule.names (r : Rule) : List (BitVec 6) := r.inputs ++ r.outs

/-- Runs `otcfg` (R207). -/
def State.runOtcfg (s : State) (o : EngOp) (n : BitVec 6) : EngRes :=
  match (otChecks o.blk).find? (·.2) with
  | some f => .fault s o (engErr 0x0D (BitVec.ofNat 8 (0x80 + f.1)) o.addr 0)
  | none =>
    if s.bank.rules.toList.any fun r => r.live && r.names.contains n then stopAt s o 0x13
    else .done (s.mapBank fun b => b.mapSlot n fun _ => slotOfBytes o.blk) o (some (n.setWidth 64)) 0

/-- Reads a 64-byte block at issue on path MX: its own stores come before it only where an order puts them there; any check that
fails stops exactly (R147, R166, R207). -/
def State.mxBlock (s : State) (va : DWord) : Except Stop (State × List Byte) := do
  let key ← s.access .read va 64 0
  let s := s.reading .mx va key 64
  match s.readMark .mx va key 64 with
  | some m => s.trapNow m.cause (accessSub .read 0) m.addr
  | none => pure (s, s.view .mx key 64)

/-- `otcfg`: the descriptor is read at issue, on path MX (R207). -/
def execOtcfg (d : Opnd) (slot : BitVec 6) (bp : BitVec 4) (off : BitVec 18) (s : State) :
    Host.Outcome State Fault Refusal :=
  s.finish (s.unserved do
    let base ← s.rdBase bp
    let va := base + off.setWidth 64
    let r ← s.mxBlock va
    pure (r.1.engIssue (.otcfg d slot bp off) d false fun o => { o with addr := va, blk := r.2 }))

/-- Output pieces of operations that the agent has issued are still to be written (R209). -/
def Bank.owesOutput (b : Bank) (a : AgentId) : Bool :=
  b.streams.toList.any fun x => x.outq.any fun e => e.agents.contains a

/-- The operation's owner reads anew what its path has read early (R209). -/
def State.ownerReads (s : State) (o : EngOp) : State :=
  { s with held := s.held.filter fun h => !(h.agent == o.owner && h.path == .own && h.staleAt 1) }

/-- Runs `extend` (R208, R209). -/
def State.runExtend (s : State) (o : EngOp) (n : BitVec 6) : EngRes :=
  let t := s.bank.slot n
  let a := o.valA.toNat
  if !t.conf then stopAt s o 0x15
  else if s.bank.owesOutput o.owner then .waits s o
  else if s.bank.room n a then
    .done ((s.mapBank fun b => b.mapSlot n fun t => { t with fill := t.fill + a }).ownerReads o) o
      (some (BitVec.ofNat 64 (t.fill + a))) 0
  else .done (s.ownerReads o) o (some (BitVec.allOnes 64)) 0

/-- Runs `extend.c` (R208, R209). -/
def State.runExtendC (s : State) (o : EngOp) (n : BitVec 6) : EngRes :=
  let t := s.bank.slot n
  if !t.conf then stopAt s o 0x15
  else if !t.isSoft then stopAt s o 0x16
  else if s.bank.owesOutput o.owner then .waits s o
  else
    let s := s.mapBank fun b => b.mapSlot n fun t => { t with soft := min (t.soft + o.valA.toNat) t.fill }
    .done (s.ownerReads o) o (some (BitVec.ofNat 64 (s.bank.consumeMark n))) 0

/-- An OPEN instruction with a 32-bit operand and a 64-bit token. -/
def State.openIssue (s : State) (ins : Instr) (d a : Opnd) : Except Stop State :=
  s.unserved do
    let x ← s.rd32 a
    pure (s.engIssue ins d true fun o => { o with valA := x.setWidth 64 })

/-- `extend` and `extend.c` at issue: the agent's earlier writes are performed at core scope, and what it reads later is read
anew (R209). -/
def State.extendIssue (s : State) (ins : Instr) (d a : Opnd) : Except Stop State :=
  (s.openIssue ins d a).map State.extendOrder

/-- `extend`: it waits for the agent's earlier writes (R147, R209). -/
def execExtend (d : Opnd) (slot : BitVec 6) (a : Opnd) (s : State) : Host.Outcome State Fault Refusal :=
  s.finishOrdered (s.extendIssue (.extend d slot a) d a)

/-- `extend.c` (R147, R208, R209). -/
def execExtendC (d : Opnd) (slot : BitVec 6) (a : Opnd) (s : State) : Host.Outcome State Fault Refusal :=
  s.finishOrdered (s.extendIssue (.extendC d slot a) d a)

/-! ## Mapped vector operations (R224 to R226) -/

/-- An `omap` block (R224). -/
structure MapBlk where
  word : DWord
  in0 : BitVec 6
  in1 : Option (BitVec 6)
  out : BitVec 6
  pvec : Nat
  deriving DecidableEq, Repr

/-- The fields of an `omap` block. -/
def mapBlkOf (bs : List Byte) : MapBlk where
  word := wordOfBytes (bs.take 8)
  in0 := BitVec.ofNat 6 (fieldOf bs 8 1)
  in1 := if fieldOf bs 9 1 = 0xFF then none else some (BitVec.ofNat 6 (fieldOf bs 9 1))
  out := BitVec.ofNat 6 (fieldOf bs 10 1)
  pvec := fieldOf bs 0x10 8

/-- What a mapped word is: source type, result type, destination, operands, governing mask (R225). -/
structure MapWord where
  src : Ty
  dst : Ty
  d : Opnd
  ops : List Opnd
  m : Gov

/-- The mapped word's parts, for the instructions that may be mapped (R225). -/
def mapParts : Instr → Option MapWord
  | .vadd _ d a b t m | .vsub _ d a b t m | .vmul _ d a b t m | .vmin _ d a b t m | .vmax _ d a b t m
  | .vand _ d a b t m | .vor _ d a b t m | .vxor _ d a b t m | .vshl _ d a b t m | .vshr _ d a b t m
  | .vsra _ d a b t m | .vadds _ d a b t m | .vsubs _ d a b t m | .vcmpeq _ d a b t m | .vcmplt _ d a b t m
  | .vcmple _ d a b t m | .vfmin _ d a b t m | .vfmax _ d a b t m | .vfcmpeq _ d a b t m
  | .vfcmplt _ d a b t m | .vfcmple _ d a b t m | .vfcmpun _ d a b t m => some ⟨t, t, d, [a, b], m⟩
  | .vfadd _ d a b t m _ | .vfsub _ d a b t m _ | .vfmul _ d a b t m _ | .vdiv _ d a b t m _ =>
    some ⟨t, t, d, [a, b], m⟩
  | .vabs _ d a t m | .vfabs _ d a t m | .vfneg _ d a t m => some ⟨t, t, d, [a], m⟩
  | .vrcp _ d a t m _ | .vrsqrt _ d a t m _ | .vsqrt _ d a t m _ | .vexp2 _ d a t m _ | .vlog2 _ d a t m _ =>
    some ⟨t, t, d, [a], m⟩
  | .vfma _ d a b x t m _ | .vfms _ d a b x t m _ => some ⟨t, t, d, [a, b, x], m⟩
  | .vrng _ d a m => if a = .sp 0 then some ⟨.f32, .f32, d, [], m⟩ else none
  | .vcvt _ d a t src m _ => some ⟨srcTy src, t, d, [a], m⟩
  | _ => none

/-- The operand of a mapped word: an input, the parameter vector, or a special value (R225). -/
def mapOperandOk : Opnd → Bool
  | .k i => decide (i.toNat < 3)
  | .sp _ => true
  | _ => false

/-- The mapped word decodes and meets R225, but for the tensors. -/
def mapWordOf (w : DWord) : Option (Instr × MapWord) :=
  match decode false w with
  | .error _ => none
  | .ok x =>
    match mapParts x.i with
    | none => none
    | some p =>
      if x.e && !x.y && !wBit w 62 && wBits w 56 4 == 0 && p.d == .q 0 && p.m == ⟨0, false⟩
          && p.ops.all mapOperandOk then some (x.i, p)
      else none

/-- The block is well formed, the tensors apart (R224, R225). -/
def mapBlkOk (bs : List Byte) : Bool :=
  decide (fieldOf bs 8 1 ≤ 63) && (decide (fieldOf bs 9 1 ≤ 63) || fieldOf bs 9 1 == 0xFF)
    && decide (fieldOf bs 10 1 ≤ 63) && decide (fieldOf bs 11 5 = 0) && decide (fieldOf bs 0x10 8 % 64 = 0)
    && (bs.drop 0x18).all (· == 0)
    && match mapWordOf (mapBlkOf bs).word with
      | some p => (p.2.ops.contains (.k 1)) == (mapBlkOf bs).in1.isSome
      | none => false

/-- Slots that a block names. -/
def MapBlk.slots (m : MapBlk) : List (BitVec 6) := m.in0 :: m.in1.toList ++ [m.out]

/-- Types and element counts agree (R225). -/
def Bank.mapFits (b : Bank) (m : MapBlk) (p : MapWord) : Bool :=
  let n := (b.slot m.in0).elems
  (m.in0 :: m.in1.toList).all (fun k => (b.slot k).ty == p.src.enc.toNat && (b.slot k).elems == n)
    && (b.slot m.out).ty == p.dst.enc.toNat && (b.slot m.out).elems == n
    && decide (p.src.enc.toNat ≤ 10) && decide (p.dst.enc.toNat ≤ 10)

/-- Storage address of element `e` of slice `n` (R204, R226). -/
def OSlot.store (o : OSlot) (n e : Nat) : Nat :=
  let j := n * o.w + e / o.closed
  let j := if o.ring then j % (o.cap * o.w) else j
  (o.base + j * o.stride + e % o.closed * elBytes o.ty) % 2 ^ 64

/-- The governing mask under which a mapped instruction runs: m1 holds the active lanes. -/
def mapGov : Gov := ⟨1, false⟩

/-- Runs a mapped instruction; `.k 3` stands for the counter of `vrng` (R226). -/
def mapExec (i : Instr) (s : State) : Host.Outcome State Fault Refusal :=
  let d : Opnd := .q 0
  let m := mapGov
  match i with
  | .vadd c _ a b t _ => execVadd c d a b t m s
  | .vsub c _ a b t _ => execVsub c d a b t m s
  | .vmul c _ a b t _ => execVmul c d a b t m s
  | .vmin c _ a b t _ => execVmin c d a b t m s
  | .vmax c _ a b t _ => execVmax c d a b t m s
  | .vabs c _ a t _ => execVabs c d a t m s
  | .vand c _ a b t _ => execVand c d a b t m s
  | .vor c _ a b t _ => execVor c d a b t m s
  | .vxor c _ a b t _ => execVxor c d a b t m s
  | .vshl c _ a b t _ => execVshl c d a b t m s
  | .vshr c _ a b t _ => execVshr c d a b t m s
  | .vsra c _ a b t _ => execVsra c d a b t m s
  | .vadds c _ a b t _ => execVadds c d a b t m s
  | .vsubs c _ a b t _ => execVsubs c d a b t m s
  | .vcmpeq c _ a b t _ => execVcmpeq c d a b t m s
  | .vcmplt c _ a b t _ => execVcmplt c d a b t m s
  | .vcmple c _ a b t _ => execVcmple c d a b t m s
  | .vfadd c _ a b t _ r => execVfadd c d a b t m r s
  | .vfsub c _ a b t _ r => execVfsub c d a b t m r s
  | .vfmul c _ a b t _ r => execVfmul c d a b t m r s
  | .vfma c _ a b x t _ r => execVfma c d a b x t m r s
  | .vfms c _ a b x t _ r => execVfms c d a b x t m r s
  | .vfmin c _ a b t _ => execVfmin c d a b t m s
  | .vfmax c _ a b t _ => execVfmax c d a b t m s
  | .vfabs c _ a t _ => execVfabs c d a t m s
  | .vfneg c _ a t _ => execVfneg c d a t m s
  | .vfcmpeq c _ a b t _ => execVfcmpeq c d a b t m s
  | .vfcmplt c _ a b t _ => execVfcmplt c d a b t m s
  | .vfcmple c _ a b t _ => execVfcmple c d a b t m s
  | .vfcmpun c _ a b t _ => execVfcmpun c d a b t m s
  | .vrcp c _ a t _ r => execVrcp c d a t m r s
  | .vrsqrt c _ a t _ r => execVrsqrt c d a t m r s
  | .vsqrt c _ a t _ r => execVsqrt c d a t m r s
  | .vexp2 c _ a t _ r => execVexp2 c d a t m r s
  | .vlog2 c _ a t _ r => execVlog2 c d a t m r s
  | .vdiv c _ a b t _ r => execVdiv c d a b t m r s
  | .vrng c _ _ _ => execVrng c d (.k 3) m s
  | .vcvt c _ a t src _ r => execVcvt c d a t src m r s
  | _ => .next s

/-- An agent whose kept vector registers 0 to 2 hold the operands, m1 the active lanes, k3 the counter. -/
def omapAgent (key : Word) (v0 v1 v2 : Vec) (act : BitVec 16) (ctr : Word) : Agent :=
  { Agent.init with
    rngkey := key
    k := Agent.init.k.set 3 ctr
    vk := ((Agent.init.vk.set 0 v0).set 1 v1).set 2 v2
    m := Agent.init.m.set 1 act }

/-- The result and the flags of a mapped instruction on one pass (R226). -/
def State.mapRun1 (s : State) (i : Instr) (g : Agent) : Vec × BitVec 7 :=
  let z : State := { s with bank := { Bank.init with agents := Vector.replicate 5 g }, turn := 0 }
  match mapExec i z with
  | .next t =>
    match t.cur.bun.vecs, t.cur.bun.latches with
    | v :: _, l :: _ => (v.val, l.flags)
    | _, _ => (0, 0)
  | _ => (0, 0)

/-- Reads an element into a lane (R115, R226). -/
def State.mapLane (s : State) (o : OSlot) (sub : Byte) (n e : Nat) : Except EngErr Word :=
  let w := elBytes o.ty
  match s.engRead s.cx s.bank.run (o.store n e) w w with
  | .error x => .error (accErr sub x 0)
  | .ok bs => .ok (extend ((Ty.ofCode o.ty).getD .i32) (ofBytes bs))

/-- Reads the lanes of both inputs, ascending (R226). -/
def State.mapLanes (s : State) (a : OSlot) (b : Option OSlot) (n e₀ : Nat) :
    List Nat → Except EngErr (List (Word × Word))
  | [] => .ok []
  | k :: ks =>
    match s.mapLane a 0x68 n (e₀ + k) with
    | .error x => .error x
    | .ok x =>
      match (match b with
        | some b => s.mapLane b 0x69 n (e₀ + k)
        | none => .ok 0) with
      | .error x => .error x
      | .ok y =>
        match s.mapLanes a b n e₀ ks with
        | .error x => .error x
        | .ok l => .ok ((x, y) :: l)

/-- Writes the lanes, ascending (R226). -/
def State.mapWrite (s : State) (o : OSlot) (n e₀ : Nat) (r : Vec) : List Nat → Except EngErr State
  | [] => .ok s
  | k :: ks =>
    let w := elBytes o.ty
    match s.engWrite s.cx s.bank.run (o.store n (e₀ + k)) w (bytesOf w (lane r k).toNat) with
    | .error x => .error (accErr 0x6A x 0)
    | .ok s => s.mapWrite o n e₀ r ks

/-- An `omap` in work: its instruction, tensors, parameter vector, slice and key. -/
structure MapJob where
  i : Instr
  a : OSlot
  b : Option OSlot
  out : OSlot
  pv : Vec
  n : Nat
  key : Word

/-- Pass `p` of 16 elements: all of its writes, or none (R226, R435). DEDUCED, log 34. -/
def State.mapPass (s : State) (j : MapJob) (p : Nat) : Except EngErr (State × BitVec 7) :=
  let e₀ := 16 * p
  let ks := List.range (min 16 (j.a.elems - e₀))
  match s.mapLanes j.a j.b j.n e₀ ks with
  | .error x => .error x
  | .ok l =>
    let v := fun (f : Word × Word → Word) => mkVec fun k => ((l[k]?).map f).getD 0
    let act : BitVec 16 := BitVec.ofNat 16 (2 ^ ks.length - 1)
    let r := s.mapRun1 j.i (omapAgent j.key (v (·.1)) (v (·.2)) j.pv act (BitVec.ofNat 32 (j.n * j.a.elems + e₀)))
    match s.mapWrite j.out j.n e₀ r.1 ks with
    | .error x => .error x
    | .ok s => .ok (s, r.2)

/-- Passes from `p` on: the state, flags, and the pass at which it stopped. -/
def State.mapGo (j : MapJob) : Nat → Nat → State → BitVec 7 → State × BitVec 7 × Option (Nat × EngErr)
  | 0, _, s, f => (s, f, none)
  | k + 1, p, s, f =>
    match s.mapPass j p with
    | .error x => (s, f, some (p, x))
    | .ok (s, g) => State.mapGo j k (p + 1) s (f ||| g)

/-- Reads and checks an `omap` block with its parameter vector: 128 bytes (R224, R225, R435). -/
def State.readMap (s : State) (va : DWord) : Except EngErr (List Byte) :=
  match s.engRead s.cx s.bank.run va.toNat 64 64 with
  | .error e => .error (accErr 0x6C e 0)
  | .ok bs =>
    let m := mapBlkOf bs
    if !mapBlkOk bs then .error (engErr 0x0D 0x14 va 0)
    else if m.slots.any fun k => !(s.bank.slot k).conf then .error (engErr 0x0D 0x15 va 0)
    else if !((mapWordOf m.word).map fun p => s.bank.mapFits m p.2).getD false then .error (engErr 0x0D 0x14 va 0)
    else if m.pvec = 0 then .ok (bs ++ List.replicate 64 0)
    else
      match s.engRead s.cx s.bank.run m.pvec 64 64 with
      | .error e => .error (accErr 0x6B e 0)
      | .ok v => .ok (bs ++ v)

/-- Runs `omap` on slice `n`: once, or as a firing (R226). -/
def State.runOmap (s : State) (o : EngOp) : EngRes :=
  match (if o.blk.isEmpty then s.readMap o.addr else .ok o.blk) with
  | .error e => .fault s o e
  | .ok bs =>
    let m := mapBlkOf bs
    match mapWordOf m.word with
    | none => stopAt s o 0x14
    | some p =>
      let n := match o.rule with
        | some r => r.2
        | none => o.valA.toNat
      let j : MapJob := ⟨p.1, s.bank.slot m.in0, m.in1.map s.bank.slot, s.bank.slot m.out,
        BitVec.ofNat 512 (ofBytes (bs.drop 64)), n, o.rngkey⟩
      let passes := (j.a.elems + 15) / 16
      match State.mapGo j (passes - o.row) o.row s o.flags with
      | (s, f, none) => .done s { o with blk := bs, row := passes } none f
      | (s, f, some (q, e)) => .fault s { o with blk := bs, row := q, flags := f } e

/-- `omap` once: the slice index and the key are read at issue (R224, R226). -/
def execOmap (d : Opnd) (bp : BitVec 4) (off : BitVec 23) (a : Opnd) (s : State) :
    Host.Outcome State Fault Refusal :=
  s.finish (s.unserved do
    let base ← s.rdBase bp
    let x ← s.rd32 a
    pure (s.engIssue (.omap d bp off a) d false fun o =>
      { o with addr := base + off.setWidth 64, valA := x.setWidth 64 }))

/-! ## Installing rules (R210 to R212, R294) -/

/-- What an install has found out about its rule. -/
structure Install where
  drive : BitVec 6
  in1 : Option (BitVec 6)
  outs : List (BitVec 6)
  /-- slots that must be configured -/
  named : List (BitVec 6)
  streams : List (BitVec 4 × Nat)
  blk : List Byte

/-- The lowest rule that is free or revoked (R210). -/
def Bank.freeRule (b : Bank) : Option (BitVec 5) :=
  ((List.range 32).find? fun i => !(b.rules.getD i Rule.init).live).map (BitVec.ofNat 5)

/-- A stream is captured by a rule: a filled input stream of kind 1 or 2 is gated (R212). -/
def Strm.capture (x : Strm) (r : BitVec 5) (k s₀ : Nat) (drive : BitVec 6) : Strm :=
  { x with
    captured := some r
    gate := if x.state = .input ∧ (x.desc.kind = 1 ∨ x.desc.kind = 2) then some (x.claimed, k, s₀, drive) else none }

/-- The rule that an install makes (R210, R211). -/
def Bank.newRule (b : Bank) (o : EngOp) (f : Stand) (i : Install) : Rule where
  state := .armed
  form := f
  word := o.word
  blk := i.blk
  addr := o.addr
  streams := (i.streams.map (·.1)).eraseDups
  drive := i.drive
  in1 := i.in1
  outs := i.outs
  next := b.consumeMark i.drive
  limit := none
  revoking := false
  pinned := false
  cause := 0
  limitHit := false
  replays := 0
  atrap := o.atrap
  rngkey := o.rngkey
  screen := o.screen
  tag := o.tag
  cluster := o.owner
  order := b.installs
  uid := o.uid
  pc := o.pc
  fired := none

/-- The install takes effect: the rule, its streams, and the marks its inputs had loaded (R205, R210 to R212). -/
def Bank.install (b : Bank) (o : EngOp) (f : Stand) (i : Install) (r : BitVec 5) : Bank :=
  let x := b.newRule o f i
  let k := fun n => (i.streams.filter (·.1 == n)).foldl (fun t p => t + p.2) 0
  let b := { b with rules := b.rules.set r.toNat x, installs := b.installs + 1 }
  let b := x.streams.foldl (fun b n => b.mapStream n fun y => y.capture r (k n) x.next i.drive) b
  x.inputs.foldl (fun b n => b.mapSlot n fun t => { t with loaded := none }) b

/-- Pieces that a firing of `vproj` claims on each stream, as the block stands at the install (R232). Where the block cannot be
read, `kc` pieces gate the rule. DESIGN CHOICE, log 69. -/
def State.vprojPieces (s : State) (o : EngOp) (kc : Nat) : Nat :=
  match s.engRead s.cx s.bank.run o.screen.toNat 64 64 with
  | .ok bs => (vcfgOf bs).width / 128 * kc
  | .error _ => kc

/-- What the install of a form captures, or the fault that keeps it from taking a rule (R210, R211). A standing `attn` looks at
A[31:6] before it reads its request block. DESIGN CHOICE, log 33. -/
def State.installOf (s : State) (o : EngOp) (f : Stand) : Except EngErr Install :=
  let plain := fun (ot : BitVec 6) => .ok ⟨ot, none, [], [ot], needsOf (standInstr f), []⟩
  match f with
  | .mma _ _ _ ot .. | .tmm _ _ _ ot .. | .tadd _ _ ot .. | .tmul _ _ ot .. | .tact _ ot _ | .tactd _ _ ot ..
  | .trms _ _ ot .. | .trmsd _ _ _ ot .. | .tsmax _ _ ot _ | .tsmaxd _ _ ot _ | .tscale _ _ ot _ => plain ot
  | .vproj _ sa sb ot _ _ _ kc =>
    let n := s.vprojPieces o (kc.toNat + 1)
    .ok ⟨ot, none, [], [ot], [(sa, n), (sb, n)], []⟩
  | .attn .. =>
    if o.valA.toNat / 64 ≠ 0 then .error (engErr 0x0D 0x17 0 0)
    else
      match s.readReq o.addr.toNat false with
      | .error e => .error e
      | .ok bs =>
        let r := attnReqOf bs
        let ot := BitVec.ofNat 6 o.valA.toNat
        .ok ⟨ot, none, [], [ot], [(r.qs, 1), (r.os, 1)], bs⟩
  | .omap .. =>
    match s.readMap o.addr with
    | .error e => .error e
    | .ok bs =>
      let m := mapBlkOf bs
      .ok ⟨m.in0, m.in1, [m.out], m.slots, [], bs⟩
  | .cpy .. =>
    let c := copyBlkOf o.blk
    let ot := BitVec.ofNat 6 o.valA.toNat
    .ok ⟨ot, none, if c.extends then [c.slot] else [], [ot], [], o.blk⟩

/-- Runs an install (R210 to R212). Where several checks fail, the block's come first, then the slots', the streams', and last
that of a full table: the manual does not rank them. DESIGN CHOICE, log 33. -/
def State.runInstall (s : State) (o : EngOp) (f : Stand) : EngRes :=
  match s.installOf o f with
  | .error e => .fault s o e
  | .ok i =>
    if i.named.any fun k => !(s.bank.slot k).conf then stopAt s o 0x15
    else if i.streams.any fun p => (s.bank.stream p.1).captured.isSome then stopAt s o 0x12
    else
      match s.bank.freeRule with
      | none => stopAt s o 0x10
      | some r => .done (s.mapBank fun b => b.install o f i r) o (some (r.setWidth 64)) 0

/-- An instruction with its standing bit set: `cpy` reads its block at issue, the other forms in the engine's queue
(R210, R211, R289). -/
def execStandInstall (f : Stand) (s : State) : Host.Outcome State Fault Refusal :=
  s.finish (s.unserved (match f with
    | .cpy d bp a off => do
      let base ← s.rdBase bp
      let x ← s.rd32 a
      let va := base + off.setWidth 64
      let _ ← s.copyBlock .cpy va
      let key ← s.blockAt va
      let s := s.atBlock va key 64
      if x.toNat / 64 ≠ 0 then s.trapNow 0x12 0x02 va
      else
        pure (s.engIssue (.standInstall f) d false fun o =>
          { o with addr := va, valA := x.setWidth 64, blk := s.rd key 64 })
    | .attn d bp a off => do
      let base ← s.rdBase bp
      let x ← s.rd32 a
      pure (s.engIssue (.standInstall f) d false fun o =>
        { o with addr := base + off.setWidth 64, valA := x.setWidth 64 })
    | .omap d bp off => do
      let base ← s.rdBase bp
      pure (s.engIssue (.standInstall f) d false fun o => { o with addr := base + off.setWidth 64 })
    | _ => .ok (s.engIssue (.standInstall f) (.q 0) false id)))

/-! ## Status, resumption, revocation (R218 to R220) -/

/-- A rule. -/
def Bank.rule (b : Bank) (r : BitVec 5) : Rule := b.rules[r.toNat]

/-- Changes a rule. -/
def Bank.mapRule (b : Bank) (r : BitVec 5) (f : Rule → Rule) : Bank :=
  { b with rules := b.rules.set r.toNat (f (b.rule r)) }

/-- The accumulator that a form names (R217). -/
def standAcc : Stand → Option (BitVec 2)
  | .mma ac .. | .tmm ac .. | .tadd ac .. | .tmul ac .. | .tact ac .. | .tactd ac .. | .trms ac .. | .trmsd ac ..
  | .tsmax ac .. | .tsmaxd ac .. | .tscale ac .. | .vproj ac .. => some ac
  | _ => none

/-- A pinned rule that was installed before and names the same accumulator blocks the rule (R217). -/
def Bank.blocked (b : Bank) (r : Rule) : Bool :=
  b.rules.toList.any fun q =>
    q.live && q.pinned && decide (q.order < r.order) && (standAcc q.form).isSome && standAcc q.form == standAcc r.form

/-- The state's code (R220). -/
def RlState.code : RlState → Nat
  | .idle => 0 | .armed => 1 | .firing => 2 | .faulted => 3 | .parked => 4 | .revoked => 5

/-- The status word (R220). -/
def Bank.status (b : Bank) (r : BitVec 5) : DWord :=
  let x := b.rule r
  BitVec.ofNat 64 (x.next % 2 ^ 32 * 2 ^ 32 + x.state.code * 2 ^ 24 + x.cause.toNat * 2 ^ 16 + wOp x.word * 2 ^ 8
    + bit (x.revoking || x.limit.isSome) + 2 * bit (x.live && b.blocked x) + 4 * bit x.limitHit)

/-- A rule is revoked: its streams are released (R212, R219). -/
def Bank.revokeNow (b : Bank) (r : BitVec 5) : Bank :=
  let x := b.rule r
  let b := b.mapRule r fun x => { x with state := .revoked, revoking := false, limit := none, pinned := false }
  x.streams.foldl (fun b n => b.mapStream n fun y => { y with captured := none, gate := none }) b

/-- `revoke`: at once, or when the firing in progress has retired (R219, R221). -/
def Bank.revoke (b : Bank) (r : BitVec 5) : Bank :=
  match (b.rule r).state with
  | .idle | .revoked => b
  | .firing => b.mapRule r fun x => { x with revoking := true }
  | _ => b.revokeNow r

/-- `revoke.at` (R219). A later limit of a rule takes the place of an earlier one, also where it is higher. DESIGN CHOICE,
log 69. -/
def Bank.revokeAt (b : Bank) (r : BitVec 5) (m : Nat) : Bank :=
  let x := b.rule r
  if x.pinned ∨ m ≤ x.next then b.revoke r
  else if x.live then b.mapRule r fun x => { x with limit := some m }
  else b

/-- `rlresume` (R218): the limit that the last fault had reached is forgotten. DEDUCED from R362, log 35. -/
def Bank.resume (b : Bank) (r : BitVec 5) : Bank :=
  match (b.rule r).state with
  | .faulted | .parked => b.mapRule r fun x => { x with state := .armed, limitHit := false }
  | _ => b

/-- Runs an operation on a rule: its number is checked, and the token is the status word after it (R206, R218 to R220).
-/
def State.runRuleOp (s : State) (o : EngOp) (f : Bank → BitVec 5 → Bank) : EngRes :=
  if 31 < o.valA.toNat then stopAt s o 0x11
  else
    let r := BitVec.ofNat 5 o.valA.toNat
    let s := s.mapBank fun b => f b r
    .done s o (some (s.bank.status r)) 0

/-- `revoke` (R219). -/
def execRevoke (d a : Opnd) (s : State) : Host.Outcome State Fault Refusal := s.finish (s.openIssue (.revoke d a) d a)

/-- `revoke.at` (R219). -/
def execRevokeAt (d a : Opnd) (bp : BitVec 4) (s : State) : Host.Outcome State Fault Refusal :=
  s.finish (s.unserved do
    let x ← s.rd32 a
    let m ← s.rdBase bp
    pure (s.engIssue (.revokeAt d a bp) d true fun o => { o with valA := x.setWidth 64, valB := m }))

/-- `rlresume` (R218). -/
def execRlresume (d a : Opnd) (s : State) : Host.Outcome State Fault Refusal := s.finish (s.openIssue (.rlresume d a) d a)

/-- `rlstat` (R220). -/
def execRlstat (d a : Opnd) (s : State) : Host.Outcome State Fault Refusal := s.finish (s.openIssue (.rlstat d a) d a)

/-- Runs an OPEN operation or an install. -/
def State.runOpenOp (s : State) (o : EngOp) : EngRes :=
  match o.ins with
  | .otcfg _ n _ _ => s.runOtcfg o n
  | .extend _ n _ => s.runExtend o n
  | .extendC _ n _ => s.runExtendC o n
  | .revoke _ _ => s.runRuleOp o Bank.revoke
  | .revokeAt _ _ _ => s.runRuleOp o fun b r => b.revokeAt r o.valB.toNat
  | .rlresume _ _ => s.runRuleOp o Bank.resume
  | .rlstat _ _ => s.runRuleOp o fun b _ => b
  | .omap _ _ _ _ => s.runOmap o
  | .standInstall f => s.runInstall o f
  | _ => .done s o none 0

/-! ## Firing (R213 to R217) -/

/-- Streams that a rule's firings write (R211). -/
def Rule.writes (r : Rule) : List (BitVec 4) :=
  match r.form with
  | .tsmax _ sx _ norm => if norm then [sx] else []
  | .attn .. => [(attnReqOf r.blk).os]
  | _ => []

/-- Output tensors of a rule (R211, R294). -/
def Bank.outsOf (b : Bank) (r : Rule) : List (BitVec 6) :=
  r.outs ++ ((List.range 64).map (BitVec.ofNat 6)).filter fun k =>
    (b.slot k).conf && (b.slot k).fed && (r.writes.map (·.toNat)).contains (b.slot k).feed

/-- A rule is ready for its next slice (R213). -/
def Bank.ready (b : Bank) (r : Rule) : Bool :=
  r.state == .armed && r.fired.isNone && r.inputs.all (fun k => decide (r.next < (b.slot k).fill))
    && (b.outsOf r).all (fun k => b.room k 1) && (r.limit.map fun m => decide (r.next < m)).getD true
    && !r.revoking && !b.blocked r

/-- Puts a rule number into a list in install order. -/
def Bank.byOrder (b : Bank) (r : BitVec 5) : List (BitVec 5) → List (BitVec 5)
  | [] => [r]
  | q :: qs => if (b.rule r).order < (b.rule q).order then r :: q :: qs else q :: b.byOrder r qs

/-- The ready rules in install order (R214). -/
def Bank.readyRules (b : Bank) : List (BitVec 5) :=
  (((List.range 32).map (BitVec.ofNat 5)).filter fun r => b.ready (b.rule r)).foldl (fun l r => b.byOrder r l) []

/-- A round starts: every rule ready now fires once, in install order; no firing of a resume is waited for any more (R214,
R223). -/
def Bank.startRound (b : Bank) : Bank :=
  let rs := b.readyRules
  { rs.foldl (fun b r => b.mapRule r fun x => { x with state := .firing }) b with round := rs, firings := [] }

/-- Rows of a ring's period for the firings of a `cpy`; 0 without a ring (R294). -/
def OSlot.period (o : OSlot) (rows : Nat) : Nat := if o.ring then o.cap * rows else 0

/-- The channel of a `cpy` firing has room in its queue (R284). -/
def Bank.mayEnterCpy (b : Bank) (x : Rule) : Bool := decide ((b.chan (copyBlkOf x.blk).chan).queue.length < 16)

/-- The next firing of the round may enter its queue. -/
def Bank.mayEnter (b : Bank) : Bool :=
  match b.round with
  | [] => false
  | r :: _ =>
    match (b.rule r).form with
    | .cpy .. => b.mayEnterCpy (b.rule r)
    | _ => true

/-- A firing of `cpy` enters its channel (R294). -/
def Bank.enterCpy (b : Bank) (r : BitVec 5) (x : Rule) : Bank :=
  let c := copyBlkOf x.blk
  let src := (b.slot x.drive).period c.rows
  let dst := if c.extends then (b.slot c.slot).period c.rows else 0
  b.enterCopy c.chan fun id n => newCopy .cpy c id x.pc (some (r, x.next)) (x.next * c.rows) src dst n

/-- A firing enters the engine's queue, with what its rule captured (R192, R215). -/
def Bank.enterOp (b : Bank) (r : BitVec 5) (x : Rule) : Bank :=
  let o := newOp 0 0 x.cluster x.pc (standInstr x.form)
  b.enter { o with
    word := x.word
    blk := match x.form with
      | .vproj .. => []
      | _ => x.blk
    addr := x.addr
    screen := x.screen
    rngkey := x.rngkey
    atrap := x.atrap
    tag := x.tag
    rule := some (r, x.next) }

/-- The first firing of the round enters (R214). -/
def Bank.enterNext (b : Bank) : Bank :=
  match b.round with
  | [] => b
  | r :: rest =>
    let x := b.rule r
    let b := { b with round := rest }
    match x.form with
    | .cpy .. => b.enterCpy r x
    | _ => b.enterOp r x

/-- `firingRound`: a round starts where none is in progress, and its next firing enters its queue, one in a cycle (R214). -/
def execFiringRound (s : State) : Host.Outcome State Fault Refusal :=
  s.unlessFrozen fun s =>
    let t := s.mapBank fun b =>
      let b := if b.round.isEmpty then b.startRound else b
      if b.mayEnter then b.enterNext else b
    { t with ruleAt := s.wall + 1 }

/-- A firing's rule goes on to the next slice, and its outputs' fill marks rise; a copy has advanced its own (R215,
R294). -/
def Bank.retire (b : Bank) (r : BitVec 5) : Bank :=
  let x := b.rule r
  let n := x.next + 1
  let outs := match x.form with
    | .cpy .. => []
    | _ => b.outsOf x
  let b := outs.foldl (fun b k => b.mapSlot k fun t => { t with fill := max t.fill n }) b
  let b := b.mapRule r fun x => { x with state := .armed, next := n, fired := none, pinned := false, replays := 0, limitHit := false }
  if x.revoking || (x.limit.map fun m => decide (m ≤ n)).getD false then b.revokeNow r else b

/-- The trap of a firing's fault (R217). -/
def State.ruleTrap (s : State) (r : BitVec 5) (e : EngErr) : TrapReq where
  cause := 0x0E
  sub := e.cause
  agent := 0
  pc := (s.bank.rule r).pc
  resume := (s.agent 0).pc
  addr := e.addr
  slice := BitVec.ofNat 64 (s.bank.rule r).next
  rule := some r
  engine := true
  deferred := false
  tail := e.tail
  shown := none
  early := false
  past := false
  late := 0
  redo := .engine

/-- A rule takes the state that the action gives it (R217). -/
def State.setRule (s : State) (r : BitVec 5) (st : RlState) : State :=
  s.mapBank fun b => b.mapRule r fun x => { x with state := st }

/-- PARK of a rule (R217, R330). -/
def State.rulePark (s : State) (run : Run) (r : BitVec 5) (t : TrapReq) (base extra n : Nat) : State :=
  let s := s.writeFrame run t base 2 n
  let rec' := trapRecord t .park extra run.ctx s.coreId run.recAddr (s.frameOf run) (s.recordBody t .park run.signalled)
  (s.plainRecord run.part rec' none none).1.setRule r .parked

/-- REPLAY of a rule: it fires again in the next round, or stays parked until its record is written (R217, R335). -/
def State.ruleReplay (s : State) (run : Run) (r : BitVec 5) (t : TrapReq) (base bad n : Nat) : State :=
  let s := s.writeFrame run t base 1 (n + 1)
  let rec' := trapRecord t .replay bad run.ctx s.coreId run.recAddr (s.frameOf run)
    (s.recordBody t .replay run.signalled)
  let p := s.plainRecord run.part rec' none (some (run.ctx, run.logcore, r))
  (p.1.mapBank fun b => b.mapRule r fun x => { x with replays := n + 1 }).setRule r
    (if p.2 then .armed else .parked)

/-- Carries out the action of cause 0x0E on a rule (R217, R330, R331). -/
def State.actOnRule (s : State) (run : Run) (r : BitVec 5) (t : TrapReq) : State :=
  let e := s.actionOf run.ctx 0x0E
  let n := (s.bank.rule r).replays
  let limit := decide (e.act = .replay) && decide (e.limit ≠ 0) && decide (e.limit < n + 1)
  let bad := if e.bad then 16 else 0
  let base := 1 + bad + (if limit then 32 else 0)
  match e.act with
  | .kill => (s.setRule r .faulted).trapKill run t base bad n
  | .replay =>
    if limit then
      (s.mapBank fun b => b.mapRule r fun x => { x with limitHit := true }).rulePark run r t base (bad + 8) n
    else s.ruleReplay run r t base bad n
  | .park => s.rulePark run r t base bad n
  | .forward =>
    let rec' := trapRecord t .forward bad run.ctx s.coreId run.recAddr (s.frameOf run)
      (s.recordBody t .forward run.signalled)
    match s.forward run.part e.handler rec' with
    | .ok s' => (s'.writeFrame run t base 3 n).setRule r .parked
    | .error s' => s'.rulePark run r t base (bad + 32) n

/-- A fault pins the rule to its slice (R217); the counts of other replays end (R331). -/
def State.pinRule (s : State) (r : BitVec 5) (e : EngErr) : State :=
  let s := s.mapBank fun b =>
    { b with
      rules := b.rules.mapIdx fun i x =>
        if i = r.toNat then { x with state := .faulted, fired := none, pinned := true, cause := e.cause, limitHit := false }
        else { x with replays := 0 } }
  s.mapRun fun run => { run with replays := 0 }

/-- The firing's fault is delivered to C0 (R217); a rule with a revocation pending is then revoked (R219). -/
def State.ruleFault (s : State) (r : BitVec 5) (e : EngErr) : State :=
  let was := (s.bank.rule r).revoking
  let t := s.ruleTrap r e
  let s := s.pinRule r e
  let s := match s.bank.run with
    | some run => s.actOnRule run r t
    | none => s
  if was then s.mapBank fun b => b.revokeNow r else s

/-- A firing without a fault retires: its flags go to the installing cluster (R215, R216). -/
def State.retireRule (s : State) (r : BitVec 5) (f : BitVec 7) : State :=
  (s.mapAgent (s.bank.rule r).cluster fun a => a.accrue f).mapBank fun b => b.retire r

/-- `firingRetire`: a firing that has completed retires, or its fault is delivered (R215 to R217). -/
def execFiringRetire (r : BitVec 5) (s : State) : Host.Outcome State Fault Refusal :=
  let serving := s.serving
  s.unlessFrozen fun s => s.onWork fun s =>
    match (s.bank.rule r).fired with
    | some (f, none) => s.retireRule r f
    | some (_, some e) => if serving then s else s.ruleFault r e
    | none => s

end Sys2Proof.Machine
end

