-- ==== Sys2Proof/Machine/Record.lean ====
section
/-! DEFINITION. Record mode: the log arena, recording, and the REC major with the reverse walk (R265 to R282). -/

namespace Sys2Proof.Machine

/-! ## Tags and entries (R267 to R269) -/

/-- Id "none" (R269). -/
def idNone : Nat := 0x3FF

/-- A tag's parts: the ids of result, acc-in, A, B and X, and the kinds of A, B, X and acc-in (R269). -/
structure Tag where
  result : Nat
  accIn : Nat
  ids : List Nat
  kinds : List Nat
  accKind : Nat
  ok : Bool
  deriving DecidableEq, Repr

/-- The fields of a tag; `ok`: it is not rejected (R269). -/
def tagOf (x : DWord) : Tag :=
  let f := fun (lo n : Nat) => x.toNat / 2 ^ lo % 2 ^ n
  { result := f 0 10
    accIn := f 10 10
    ids := [f 20 10, f 30 10, f 40 10]
    kinds := [f 50 2, f 52 2, f 54 2]
    accKind := f 56 2
    ok := decide (f 50 2 ≠ 3) && decide (f 52 2 ≠ 3) && decide (f 54 2 ≠ 3) && decide (f 56 2 ≠ 3)
      && decide (f 58 6 = 0) }

/-- Id of operand position 0 (A), 1 (B) or 2 (X). -/
def Tag.id (t : Tag) (p : Nat) : Nat := t.ids.getD p idNone
/-- Kind of an operand position. -/
def Tag.kind (t : Tag) (p : Nat) : Nat := t.kinds.getD p 0

/-- Positions of the operand records of an instruction, in the order of its claims (R268). -/
def recPositions : Instr → List Nat
  | .mma .. | .tmm .. | .vproj .. => [0, 1]
  | .jointOperation .. => [0, 0, 0, 0, 1, 1, 1, 1]
  | .tadd .. | .tmul .. | .tscale .. | .attn .. => [0]
  | .trms .. => [2]
  | .tsmax _ _ norm => if norm then [2] else []
  | _ => []

/-- Clears the standing bit of a word (R267). -/
def clearStand (w : DWord) : DWord :=
  if wOp w = 0x15 then w &&& ~~~(0x800000 : DWord) else if 0x12 ≤ wOp w ∧ wOp w ≤ 0x14 then w &&& ~~~(0x8000000 : DWord) else w

/-- Sets it again. -/
def setStand (w : DWord) : DWord := if wOp w = 0x15 then w ||| (1 <<< 23) else w ||| (1 <<< 27)

/-- The instruction of an entry's word; `firing`: the word of a standing form (R267). -/
def entryInstr (w : DWord) (firing : Bool) : Option Instr :=
  if firing then
    match decodeFields (setStand w) with
    | some (.standInstall f) => some (standInstr f)
    | _ => none
  else decodeFields w

/-- Accumulator that an instruction names. -/
def instrAcc : Instr → Option (BitVec 2)
  | .mma ac .. | .tmm ac .. | .tmmt ac .. | .tmmw ac .. | .acfg ac .. | .aczero ac .. | .acdrain ac .. | .acload ac ..
  | .tadd ac .. | .tmul ac .. | .tact ac .. | .tactd ac .. | .trms ac .. | .trmsd ac .. | .tsmax ac .. | .tsmaxd ac ..
  | .tscale ac .. | .vproj ac .. | .vprojd ac .. | .jointOperation _ ac .. => some ac
  | _ => none

/-- The bytes of a stream descriptor (R177). -/
def strDescBytes (d : StrDesc) : List Byte :=
  [BitVec.ofNat 8 d.kind, BitVec.ofNat 8 d.ty, BitVec.ofNat 8 d.flags, BitVec.ofNat 8 d.chan]
    ++ bytesOf 2 d.rows ++ bytesOf 2 d.cols ++ bytesOf 8 d.base ++ bytesOf 8 d.plane ++ bytesOf 8 d.rstr
    ++ bytesOf 8 d.pstr ++ bytesOf 4 d.count ++ bytesOf 4 d.sstr ++ bytesOf 8 d.sbase ++ [BitVec.ofNat 8 d.sblk]
    ++ List.replicate 7 0

/-- Pads a byte list to a multiple of 64 (R268). -/
def pad64 (bs : List Byte) : List Byte := bs ++ List.replicate ((64 - bs.length % 64) % 64) 0

/-- A length padded to a multiple of 64. -/
def len64 (n : Nat) : Nat := (n + 63) / 64 * 64

/-- Scales of a piece of a descriptor. -/
def StrDesc.scaleCount (d : StrDesc) : Nat := if d.sbase = 0 then 0 else max d.rows d.cols

/-- Bytes of a saved piece before padding: its elements in row-major order, then its scales (R268). -/
def StrDesc.savedBytes (d : StrDesc) : Nat := d.pieceBytes + d.scaleCount

/-- A piece as it is saved (R268). -/
def savePiece (d : StrDesc) (p : Piece) : List Byte :=
  pad64 (p.elems.flatMap (fun w => bytesOf (elBytes d.ty) w.toNat) ++ p.scales.map (·.val))

/-- A saved piece read back. -/
def loadPiece (d : StrDesc) (bs : List Byte) : Piece where
  gen := 0
  idx := 0
  rows := d.rows
  cols := d.cols
  elems := (List.range (d.rows * d.cols)).map fun k => BitVec.ofNat 32 (fieldOf bs (elBytes d.ty * k) (elBytes d.ty))
  bad := []
  scales := (List.range d.scaleCount).map fun i => ⟨bs.getD (d.pieceBytes + i) 0, false, none⟩
  tc := false
  fault := none

/-! ## The log header (R266) -/

/-- A log header. -/
structure LogHdr where
  count : Nat
  flags : Nat
  size : Nat
  offset : Nat
  table : Nat
  top : Nat
  tail : Nat
  reserved : Bool

/-- The fields of a log header (R266). -/
def logHdrOf (bs : List Byte) : LogHdr where
  count := fieldOf bs 0 4
  flags := fieldOf bs 4 4
  size := fieldOf bs 8 8
  offset := fieldOf bs 0x10 8
  table := fieldOf bs 0x18 8
  top := fieldOf bs 0x20 4
  tail := fieldOf bs 0x28 8
  reserved := decide (fieldOf bs 4 4 / 4 ≠ 0) || decide (fieldOf bs 0x24 4 ≠ 0) || decide (fieldOf bs 0x30 8 ≠ 0)
    || decide (fieldOf bs 0x38 8 ≠ 0)

/-- Reads a log header (R281). -/
def State.readLog (s : State) (va : Nat) : Except EngErr LogHdr :=
  match s.engRead s.cx s.bank.run va 64 64 with
  | .error e => .error (accErr 0x70 e 0)
  | .ok bs => .ok (logHdrOf bs)

/-- Writes a field of an arena. -/
def State.logPut (s : State) (va w x : Nat) : Except EngErr State :=
  match s.engWrite s.cx s.bank.run (va % 2 ^ 64) w (bytesOf w x) with
  | .error e => .error (accErr 0x70 e 0)
  | .ok s => .ok s

/-- Writes several fields: offset, width, value. -/
def State.logPuts (s : State) (va : Nat) (l : List (Nat × Nat × Nat)) : Except EngErr State :=
  l.foldlM (fun (s : State) (f : Nat × Nat × Nat) => s.logPut (va + f.1) f.2.1 f.2.2) s

/-- Changes record mode. -/
def State.mapRec' (s : State) (f : RecMode → RecMode) : State := s.mapBank fun b => { b with recm := f b.recm }

/-! ## Recording (R271) -/

/-- An operand of an operation to be recorded: its position, its claim, the pieces to save. -/
structure Operand where
  pos : Nat
  claim : Claim

/-- The operands that have a record, in order (R268). -/
def EngOp.operands (o : EngOp) : List Operand :=
  ((recPositions o.ins).zip o.claims).map fun p => ⟨p.1, p.2⟩

/-- The pieces that an operand saves: those of an input of kind 1 (R271). -/
def Operand.saves (x : Operand) (t : Tag) : Bool := t.kind x.pos == 1 && !x.claim.desc.isOut

/-- Size of the entry of an operation (R271). -/
def EngOp.entrySize (o : EngOp) (t : Tag) (x : Acc) : Nat :=
  64 + 128 * o.operands.length
    + (o.operands.map fun (u : Operand) =>
        if u.saves t then u.claim.count * len64 u.claim.desc.savedBytes else 0).foldl (· + ·) 0
    + (if t.accKind = 1 then len64 (4 * x.rows * x.cols) else 0)

/-- The accumulator of an operation; a 1 x 1 one for an operation that names none. -/
def State.accOf (s : State) (i : Instr) : Acc :=
  match instrAcc i with
  | some ac => s.bank.acc ac
  | none => ⟨1, 1, false, [], none, false, 0⟩

/-- Offset of the latest entry with a result id, or 0 (R268). -/
def RecMode.producer (r : RecMode) (id : Nat) : Nat := ((r.entries.find? fun e => e.1 == id).map (·.2)).getD 0

/-- One operand record (R268). `saved`: the offset of its saved pieces. -/
def Operand.bytes (u : Operand) (t : Tag) (r : RecMode) (saved : Nat) : List Byte :=
  strDescBytes u.claim.desc ++ bytesOf 8 u.claim.first ++ bytesOf 8 saved
    ++ bytesOf 8 (if t.kind u.pos = 2 then r.producer (t.id u.pos) else 0) ++ List.replicate 40 0

/-- Piece `k` of a claim as the operation has consumed it: before a stop, or in the run that completes it (R271). -/
def State.consumedPiece (s : State) (o : EngOp) (c : Claim) (k : Nat) : Piece :=
  match o.taken.find? fun p => p.1 == c.st && p.2.gen == c.gen && p.2.idx == c.first + k with
  | some p => p.2
  | none => s.pieceOf c k

/-- The operand records and the saved pieces of operands; `at'`: the offset of the next saved data. -/
def State.entryParts (s : State) (o : EngOp) (t : Tag) : List Operand → Nat → List Byte × List Byte
  | [], _ => ([], [])
  | u :: us, at' =>
    let data := if u.saves t then
        (List.range u.claim.count).flatMap fun k => savePiece u.claim.desc (s.consumedPiece o u.claim k)
      else []
    let rest := s.entryParts o t us (at' + data.length)
    (u.bytes t s.bank.recm (if data.isEmpty then 0 else at') ++ rest.1, data ++ rest.2)

/-- The bytes of an accumulator as it is saved (R268). -/
def Acc.saveBytes (x : Acc) : List Byte :=
  pad64 ((List.range (x.rows * x.cols)).flatMap fun k => bytesOf 4 (x.at (k / x.cols) (k % x.cols)).toNat)

/-- The accumulator before the operation's first change (R271). -/
def State.accBefore (s : State) (o : EngOp) : Acc := o.before.getD (s.accOf o.ins)

/-- The entry of an operation that starts in state `s` (R267, R268). DEDUCED, log 36. -/
def State.entryBytes (s : State) (o : EngOp) (t : Tag) : List Byte :=
  let r := s.bank.recm
  let x := s.accBefore o
  let named := (instrAcc o.ins).isSome
  let base := r.offset + 64 + 128 * o.operands.length
  let parts := s.entryParts o t o.operands base
  let acc := if t.accKind = 1 then x.saveBytes else []
  let src := o.owner.val % 4 + (match o.rule with | some (n, _) => 4 + 8 * n.toNat | none => 0)
  let aux := match o.ins with
    | .vproj .. => o.screen.toNat
    | .attn .. => o.addr.toNat
    | _ => 0
  let ac := (instrAcc o.ins).getD 0
  bytesOf 8 (clearStand o.word).toNat ++ bytesOf 4 (o.entrySize t x)
    ++ [BitVec.ofNat 8 src, BitVec.ofNat 8 (ac.toNat + 4 * bit (named && x.isI32)),
      BitVec.ofNat 8 (if named then x.rows - 1 else 0), BitVec.ofNat 8 (if named then x.cols - 1 else 0)]
    ++ bytesOf 8 ((o.rule.map (·.2)).getD 0) ++ bytesOf 8 o.tag.toNat ++ bytesOf 8 r.tail ++ bytesOf 8 aux
    ++ bytesOf 4 (if acc.isEmpty then 0 else base + parts.2.length) ++ List.replicate 12 0
    ++ parts.1 ++ parts.2 ++ acc

/-- What a reservation comes to: the arena holds the entry, or it overflows (R271). -/
inductive Reserve where
  | fits (s : State)
  | over (s : State)
  | bad (e : EngErr)

/-- Reserves an entry (R271): after an overflow the size is read again. -/
def State.reserve (s : State) (n : Nat) : Reserve :=
  let r := s.bank.recm
  let sized := if r.size = 0 then (s.readLog r.arena.toNat).map (·.size) else .ok r.size
  match sized with
  | .error e => .bad e
  | .ok size =>
    if r.offset + n ≤ size then .fits (s.mapRec' fun r => { r with size := size })
    else
      match s.logPut (r.arena.toNat + 4) 4 3 with
      | .error e => .bad e
      | .ok s => .over (s.mapRec' fun r => { r with overflow := true, size := 0 })

/-- Appends an entry (R271): its bytes, then the header. -/
def State.append (s : State) (bs : List Byte) (result : Nat) : Except EngErr State :=
  let r := s.bank.recm
  match s.writeWords (r.arena.toNat + r.offset) bs with
  | .error e => .error (accErr 0x70 e 0)
  | .ok s =>
    match s.logPuts r.arena.toNat
        [(0, 4, r.count + 1), (0x10, 8, r.offset + bs.length), (0x28, 8, r.offset)] with
    | .error e => .error e
    | .ok s => .ok (s.mapRec' fun r =>
      { r with count := r.count + 1, offset := r.offset + bs.length, tail := r.offset, entries := (result, r.offset) :: r.entries })

/-- A fault found before the operation makes its reservation: of its block, its claims, or its checks. -/
def EngErr.early (e : EngErr) : Bool :=
  e.cause == 0x0D || e.cause == 0x11 || (decide (0x50 ≤ e.sub.toNat) && decide (e.sub.toNat ≤ 0x51))
    || (decide (0x60 ≤ e.sub.toNat) && decide (e.sub.toNat ≤ 0x63))

/-- The output pieces that have been handed out are written before the entry of their operation (R167). -/
def State.drainAll (s : State) : State := ((List.range 16).map (BitVec.ofNat 4)).foldl State.drainStream s

/-- Runs a recordable operation while record mode is on (R271). -/
def State.recorded (s : State) (o : EngOp) (run : EngOp → State → EngRes) : EngRes :=
  let t := tagOf o.tag
  let o := { o with before := some (s.accBefore o) }
  let guard := fun (o' : EngOp) (k : State → EngRes) =>
    match s.reserve (o'.entrySize t (s.accBefore o)) with
    | .bad e => .fault s o e
    | .over s' => .fault s' o (engErr 0x10 0x01 0 0)
    | .fits s' => k s'
  match run o s with
  | .waits s' o' => .waits s' o'
  | .fault s' o' e => if e.early then .fault s' o' e else guard o' fun _ => .fault s' o' e
  | .done s' o' tok f =>
    guard o' fun z =>
      if o.rule.isSome ∧ f &&& o.atrap.setWidth 7 ≠ 0 then .done s' o' tok f
      else
        let s'' := s'.drainAll.mapRec' fun _ => z.bank.recm
        match s''.append (z.entryBytes o' t) t.result with
        | .error e => .fault s o e
        | .ok s => .done s o' tok f

/-! ## `recbeg`, `recend`, `recflag` (R270, R274, R275) -/

/-- Runs `recbeg` (R274). -/
def State.runRecbeg (s : State) (o : EngOp) : EngRes :=
  let va := o.addr.toNat
  match s.readLog va with
  | .error e => .fault s o e
  | .ok h =>
    if s.bank.recm.on then .fault s o (engErr 0x0D 0x4D o.addr 0)
    else if h.size % 64 ≠ 0 ∨ h.size < 128 ∨ h.reserved then .fault s o (engErr 0x0D 0x4E o.addr 0)
    else
      match s.logPuts va [(0, 4, 0), (4, 4, 2), (0x10, 8, 64), (0x20, 4, 0), (0x28, 8, 0)] with
      | .error e => .fault s o e
      | .ok s => .done (s.mapRec' fun _ => ⟨true, false, o.addr, 0, 64, 0, h.size, []⟩) o (some 0) 0

/-- Runs `recend` (R275). -/
def State.runRecend (s : State) (o : EngOp) : EngRes :=
  let r := s.bank.recm
  if !r.on then .done s o (some 0xFFFFFFFF) 0
  else
    match s.logPuts r.arena.toNat [(0x20, 4, r.count), (4, 4, bit r.overflow)] with
    | .error e => .fault s o e
    | .ok s => .done (s.mapRec' fun r => { r with on := false }) o (some (BitVec.ofNat 64 r.count)) 0

/-- `recbeg`: the arena's address is read at issue (R273). -/
def execRecbeg (d : Opnd) (bp : BitVec 4) (off : BitVec 24) (s : State) : Host.Outcome State Fault Refusal :=
  s.finish (s.unserved do
    let base ← s.rdBase bp
    pure (s.engIssue (.recbeg d bp off) d false fun o => { o with addr := base + off.setWidth 64 }))

/-- `recend` (R275). -/
def execRecend (d : Opnd) (s : State) : Host.Outcome State Fault Refusal :=
  s.finish (s.unserved (.ok (s.engIssue (.recend d) d false id)))

/-- `recflag`: the pending tag is set at issue, and the token says whether it was accepted (R270). -/
def execRecflag (d a : Opnd) (s : State) : Host.Outcome State Fault Refusal :=
  s.finish (s.unserved do
    let x ← s.rd64 a
    let s := s.engIssue (.recflag d a) d false fun o => { o with valA := x }
    pure (if (tagOf x).ok then s.mapCur fun g => { g with tag := x } else s))

/-- Runs `recflag` (R270). -/
def State.runRecflag (s : State) (o : EngOp) : EngRes := .done s o (some (if (tagOf o.valA).ok then 0 else 1)) 0

/-! ## Reading entries (R277, R281) -/

/-- An operand record as `reverse` reads it (R268). -/
structure EntRec where
  pos : Nat
  desc : StrDesc
  first : Nat
  saved : Nat
  prod : Nat

/-- An entry as `reverse` reads it (R267). -/
structure Ent where
  ins : Instr
  firing : Bool
  slice : Nat
  i32 : Bool
  rows : Nat
  cols : Nat
  tag : Tag
  prev : Nat
  aux : Nat
  accOff : Nat
  recs : List EntRec

/-- Reads bytes of the arena, in whole 64-byte lines (R281). -/
def State.readArena (s : State) (va n : Nat) (sub : Byte) : Except EngErr (List Byte) :=
  match s.engReadN s.cx s.bank.run 64 (len64 n / 64) (va % 2 ^ 64) with
  | .error e => .error (accErr sub e 0)
  | .ok bs => .ok bs

/-- An operand record of 128 bytes. -/
def entRecOf (pos : Nat) (bs : List Byte) : EntRec :=
  ⟨pos, strDescOf bs, fieldOf bs 0x40 8, fieldOf bs 0x48 8, fieldOf bs 0x50 8⟩

/-- A malformed entry (R281). -/
def badEntry (off : Nat) : EngErr := engErr 0x0D 0x4C (BitVec.ofNat 64 off) 0

/-- Pieces that an operation claims on each recorded stream. -/
def Ent.counts (e : Ent) : List Nat :=
  match e.ins with
  | .attn .. => [1]
  | i => (needsOf i).map (·.2)

/-- Bytes of a saved piece of an operand; 0 where none is saved (R268, R271). -/
def Ent.pieceLen (e : Ent) (u : EntRec) : Nat :=
  if e.tag.kind u.pos = 1 ∧ !u.desc.isOut then len64 u.desc.savedBytes else 0

/-- Bytes of saved pieces of each operand, where the saved data takes `data` bytes in all: a `vproj` has as many pieces of
both streams, whole blocks of them (R232, R268). -/
def Ent.savedLens (e : Ent) (data : Nat) : List Nat :=
  match e.ins with
  | .vproj _ _ _ _ _ _ kc =>
    let per := (e.recs.map e.pieceLen).foldl (· + ·) 0
    let n := data / per / (kc.toNat + 1) * (kc.toNat + 1)
    e.recs.map fun u => e.pieceLen u * n
  | _ => (e.recs.zip e.counts).map fun p => e.pieceLen p.1 * p.2

/-- The offsets of saved data follow each other as R268 lays them out, from `at'` on: where they end, or none. -/
def savedEnd : List (EntRec × Nat) → Nat → Option Nat
  | [], at' => some at'
  | (u, n) :: us, at' => if u.saved = (if n = 0 then 0 else at') then savedEnd us (at' + n) else none

/-- Size and offsets of an entry are those that its operands and their kinds require (R268, R271, R281). -/
def Ent.layoutOk (e : Ent) (off size : Nat) : Bool :=
  let acc := if e.tag.accKind = 1 then len64 (4 * e.rows * e.cols) else 0
  let base := 64 + 128 * e.recs.length
  let lens := e.savedLens (size - base - acc)
  decide (size = base + lens.foldl (· + ·) 0 + acc) &&
    match savedEnd (e.recs.zip lens) (off + base) with
    | some x => e.accOff == if acc = 0 then 0 else x
    | none => false

/-- An operand record's reserved fields are zero, those of its descriptor too, and its producing offset is that of an earlier
entry, where its kind is 2, or else zero (R177, R268, R281). -/
def recordOk (t : Tag) (off : Nat) (u : EntRec) (bs : List Byte) : Bool :=
  (bs.drop 0x58).all (· == 0) && decide (fieldOf bs 0x39 7 = 0) && decide (u.desc.flags / 4 = 0)
    && if t.kind u.pos = 2 then decide (u.prod % 64 = 0) && decide (u.prod < off) else u.prod == 0

/-- What an entry says of itself before it is checked: its operation, if its word decodes to one, its tag, and the offset of
the entry before it (R267, R277). -/
structure EntPeek where
  ins : Option Instr
  tag : Tag
  prev : Nat

/-- The 64 bytes that begin an entry. -/
def entPeekOf (bs : List Byte) : EntPeek where
  ins := entryInstr (wordOfBytes (bs.take 8)) ((fieldOf bs 0x0C 1).testBit 2)
  tag := tagOf (BitVec.ofNat 64 (fieldOf bs 0x18 8))
  prev := fieldOf bs 0x20 8

/-- Reads the beginning of the entry at an offset. -/
def State.peekEntry (s : State) (arena off : Nat) : Except EngErr EntPeek :=
  (s.readArena (arena + off) 64 0x70).map entPeekOf

/-- The entry is wanted (R277). -/
def EntPeek.wanted (p : EntPeek) : Bool :=
  match p.ins with
  | some (.vproj ..) => p.tag.id 0 != idNone || p.tag.id 1 != idNone
  | _ => p.tag.result != idNone

/-- Reads and checks the entry at an offset of an arena (R267, R281). -/
def State.readEntry (s : State) (arena : Nat) (h : LogHdr) (off : Nat) : Except EngErr Ent :=
  if off % 64 ≠ 0 ∨ off < 64 ∨ h.offset < off + 64 then .error (badEntry off)
  else
    match s.readArena (arena + off) 64 0x70 with
    | .error e => .error e
    | .ok bs =>
      let firing := (fieldOf bs 0x0C 1).testBit 2
      match entryInstr (wordOfBytes (bs.take 8)) firing with
      | none => .error (badEntry off)
      | some i =>
        let ps := recPositions i
        let size := fieldOf bs 8 4
        let tag := tagOf (BitVec.ofNat 64 (fieldOf bs 0x18 8))
        if !recordable i || decide (size % 64 ≠ 0) || decide (size < 64 + 128 * ps.length)
            || decide (h.offset < off + size) || decide (off ≤ fieldOf bs 0x20 8) || !tag.ok
            || decide (fieldOf bs 0x0D 1 / 8 ≠ 0) || (bs.drop 0x34).any (· != 0) then .error (badEntry off)
        else
          match s.readArena (arena + off + 64) (128 * ps.length) 0x70 with
          | .error e => .error e
          | .ok rs =>
            let part := fun k => (rs.drop (128 * k)).take 128
            if (List.range ps.length).any fun k => !recordOk tag off (entRecOf (ps.getD k 0) (part k)) (part k) then
              .error (badEntry off)
            else
              let e : Ent := ⟨i, firing, fieldOf bs 0x10 8, (fieldOf bs 0x0D 1).testBit 2, fieldOf bs 0x0E 1 + 1,
                fieldOf bs 0x0F 1 + 1, tag, fieldOf bs 0x20 8, fieldOf bs 0x28 8, fieldOf bs 0x30 4,
                (List.range ps.length).map fun k => entRecOf (ps.getD k 0) (part k)⟩
              if e.layoutOk off size then .ok e else .error (badEntry off)

/-- The entry's accumulator, empty. -/
def Ent.acc (e : Ent) : Acc := ⟨e.rows, e.cols, e.i32, [], none, false, 0⟩

/-! ## Operands (R278) -/

/-- Scales of a piece that the forward operation used: one for each row of A or column of B (R73, R190). -/
def Ent.scales (e : Ent) (pos : Nat) : Nat :=
  match e.ins with
  | .jointOperation .. => 32
  | .mma .. | .tmm .. | .vproj .. => if pos = 0 then e.rows else e.cols
  | _ => 0

/-- A piece whose elements and first `n` scales were read without a fault and without poison, or the engine fault (R281). -/
def cleanPiece (p : Piece) (n base : Nat) : Except EngErr Piece :=
  match pieceFault n [(0, p)] with
  | some f => .error (engErr f.2.1 0x72 f.2.2 0)
  | none =>
    if p.bad.contains true || (p.scales.take n).any (·.bad) then .error (engErr 0x09 0x72 (BitVec.ofNat 64 base) 0) else .ok p

/-- The pieces of an operand by kind 0 or 1; `two` is what kind 2 gives (R278). -/
def State.flatPieces (s : State) (arena : Nat) (e : Ent) (u : EntRec) (n : Nat) (two : Except EngErr (List Piece)) :
    Except EngErr (List Piece) :=
  match e.tag.kind u.pos with
  | 0 => (List.range n).mapM fun k =>
      cleanPiece (s.readPiece s.cx s.bank.run u.desc 0 (u.first + k)) (e.scales u.pos) u.desc.base
  | 1 =>
    let w := len64 u.desc.savedBytes
    (List.range n).mapM fun k => (s.readArena (arena + u.saved + w * k) w 0x72).map (loadPiece u.desc)
  | _ => two

/-- The accumulator input by kind 1; `two` is what kind 2 gives (R278). -/
def State.flatAcc (s : State) (arena : Nat) (e : Ent) (two : Except EngErr Acc) : Except EngErr Acc :=
  match e.tag.accKind with
  | 0 => .error (engErr 0x0D 0x4A 0 0)
  | 1 =>
    (s.readArena (arena + e.accOff) (4 * e.rows * e.cols) 0x72).map fun bs =>
      { e.acc with
        elems := (List.range (e.rows * e.cols)).map fun k => BitVec.ofNat 32 (fieldOf bs (4 * k) 4)
        live := true }
  | _ => two

/-- Streams that an entry's instruction names, in the order of its records. -/
def Ent.streams (e : Ent) : List (BitVec 4) := (needsOf e.ins).map (·.1)

/-- A bank whose accumulator and streams hold an entry's operands: the forward operation runs on it again. Two operands of one
stream are told apart by the generation of their pieces, which numbers the records. -/
def Ent.scratch (e : Ent) (ac : BitVec 2) (x : Acc) (ps : List (List Piece)) : Bank :=
  let strm := fun (b : Bank) (k : Nat) =>
    match e.recs[k]? with
    | some u => b.mapStream (e.streams.getD k 0) fun y =>
      { y with
        state := .input
        desc := u.desc
        buf := y.buf ++ ((List.range (ps.getD k []).length).zip (ps.getD k [])).map fun (p : Nat × Piece) =>
          { p.2 with gen := k, idx := p.1 } }
    | none => b
  (List.range e.recs.length).foldl strm (Bank.init.setAcc ac x)

/-- The operation of an entry, with its claims on the scratch bank. -/
def Ent.op (e : Ent) : EngOp :=
  { newOp 0 0 0 0 e.ins with
    claims := (List.range e.recs.length).map fun k =>
      ⟨e.streams.getD k 0, k, 0, e.counts.getD k 0, 0, ((e.recs[k]?).map (·.desc)).getD StrDesc.zero⟩ }

/-- Runs a tile operation again on its operands: the accumulator and the flags (R278). -/
def State.again (s : State) (e : Ent) (x : Acc) (ps : List (List Piece)) : Except EngErr (Acc × BitVec 7) :=
  match instrAcc e.ins with
  | none => .error (badEntry 0)
  | some ac =>
    let z : State := { s with bank := { e.scratch ac x ps with run := s.bank.run }, board := [] }
    match z.runTileOp e.op with
    | .done t _ _ f => .ok (t.bank.acc ac, f)
    | .fault _ _ x => .error x
    | .waits _ _ => .error (badEntry 0)

/-- The operands' pieces of an entry that must not itself need a recomputed operand (R278). -/
def State.flatAll (s : State) (arena : Nat) (e : Ent) : Except EngErr (List (List Piece)) :=
  ((List.range e.recs.length).zip e.recs).mapM fun (p : Nat × EntRec) =>
    if p.2.desc.isOut then .ok []
    else s.flatPieces arena e p.2 (e.counts.getD p.1 0) (.error (engErr 0x0D 0x49 0 0))

/-! ## Attention again (R257, R279) -/

/-- The request of an `attn` entry and what its lists, mask and query give (R279). -/
structure AttnAgain where
  /-- after the acquires on the lists' headers -/
  s : State
  req : AttnReq
  c : AttnCtx
  q : Piece
  qt : Ty

/-- Reads the request again; `adj`: with the adjoint block's lists. -/
def State.attnAgain (s : State) (e : Ent) (qp : List Piece) (adj : Option AdjBlk) : Except EngErr AttnAgain := do
  let bs ← s.readReq e.aux false
  let r := attnReqOf bs
  let s := s.acquireHeads r adj
  let c ← s.attnCtx r adj e.firing none
  let d := ((e.recs[0]?).map (·.desc)).getD StrDesc.zero
  if !queryOk r d then .error (engErr 0x0D 0x04 0 0)
  else
    match qp with
    | p :: _ => .ok ⟨s, r, c, p, d.elTy⟩
    | [] => .error (badEntry 0)

/-- The forward queries again, nothing written: normaliser and output row of each (R257). -/
def State.attnForward (s : State) (a : AttnAgain) :
    Nat → Nat → BitVec 7 → Except EngErr (List ((Nat × Nat) × List Nat) × BitVec 7)
  | 0, _, f => .ok ([], f)
  | n + 1, i, f =>
    let q := (List.range a.req.d).map fun c => fval a.qt (a.q.at i c)
    match s.attnKeys a.c i q a.c.l 0 ⟨f32NegInf, 0, List.replicate a.req.d 0⟩ f with
    | .error e => .error e
    | .ok (st, f) =>
      let out := st.out ((Ty.ofCode a.req.oty).getD .f32) f
      match s.attnForward a n (i + 1) out.2 with
      | .error e => .error e
      | .ok (l, f) => .ok (((st.m, st.sum), out.1) :: l, f)

/-! ## Recomputing (R278) -/

/-- A matrix in accumulator orientation: f32 codes, or i32 words. -/
structure Mat where
  rows : Nat
  cols : Nat
  int : Bool
  at' : Nat → Nat → Nat

/-- The result of a producing entry: its forward operation run again (R278). -/
def State.forwardOf (s : State) (arena : Nat) (e : Ent) (f : BitVec 7) : Except EngErr (Mat × BitVec 7) := do
  let ps ← s.flatAll arena e
  match e.ins with
  | .vproj .. => .error (badEntry 0)
  | .attn .. => do
    let a ← s.attnAgain e (ps.getD 0 []) none
    let r ← a.s.attnForward a a.req.q 0 f
    let w := (r.1.map (·.2)).mapM (fun (row : List Nat) => row.mapM (widen ((Ty.ofCode a.req.oty).getD .f32))) r.2
    .ok (⟨a.req.q, a.req.d, false, fun i k => (w.1.getD i []).getD k 0⟩, w.2)
  | _ => do
    let x ← s.flatAcc arena e (.error (engErr 0x0D 0x49 0 0))
    let y ← s.again e x ps
    .ok (⟨y.1.rows, y.1.cols, y.1.isI32, fun i k => (y.1.at i k).toNat⟩, f ||| y.2)

/-- Where an operand's element (row, column of piece `j` of group `g`) lies in accumulator orientation (R276). -/
def Ent.orient (e : Ent) (pos g j r c : Nat) : Nat × Nat :=
  let prod := fun (ta tb : Bool) (h : Nat) =>
    if pos = 0 then (if ta then (h * g + c, 32 * j + r) else (h * g + r, 32 * j + c))
    else if tb then (32 * j + c, h * g + r) else (32 * j + r, h * g + c)
  match e.ins with
  | .mma _ _ _ _ ta tb _ | .tmm _ _ _ ta tb _ => prod ta tb 0
  | .jointOperation _ _ _ ta tb _ => prod ta tb 32
  | .vproj _ _ _ _ ta tb kc =>
    let k := kc.toNat + 1
    if pos = 0 then (if ta then (c, 32 * (j % k) + r) else (r, 32 * (j % k) + c))
    else if tb then (32 * (j % k) + c, 128 * (j / k) + r) else (32 * (j % k) + r, 128 * (j / k) + c)
  | _ => (r, c)

/-- Shape of an operand in accumulator orientation (R276). -/
def Ent.shapeOf (e : Ent) (pos : Nat) (d : StrDesc) (nb : Nat) : Nat × Nat :=
  match e.ins with
  | .mma _ _ _ _ _ _ kc | .tmm _ _ _ _ _ kc | .jointOperation _ _ _ _ _ kc =>
    if pos = 0 then (e.rows, 32 * (kc.toNat + 1)) else (32 * (kc.toNat + 1), e.cols)
  | .vproj _ _ _ _ _ _ kc =>
    if pos = 0 then (e.rows, 32 * (kc.toNat + 1)) else (32 * (kc.toNat + 1), 128 * nb)
  | _ => (d.rows, d.cols)

/-- The digit of a trit (R72). -/
def digitOf (x : Int) : Nat := if 0 < x then 1 else if x < 0 then 2 else 0

/-- A result rounded to a stream's type under RNE without scales: as a drain rounds it, or, for an integer type, as R77 converts
it (R278). No drain writes t3: its value is rounded to an integer and clamped to -1, 0 or 1, with the flags of R77.
DESIGN CHOICE, log 36. -/
def roundElem (int : Bool) (t : Ty) (x : Nat) : Fm Nat :=
  if t.isStreamFloat || (int && t == .i32) then drainElem int t rne x none none
  else do
    let f ← drainElem int .f32 rne x none none
    let v ← fun g => let r := cvtFI (if t = .t3 then .i8 else t) .f32 rne.mode f; (r.1, g ||| r.2)
    if t = .t3 then do
      raise (flagIf (decide (1 < v.natAbs)) flIV)
      pure (digitOf v)
    else pure (wrapW (tyBits t) v)

/-- A matrix rounded to a stream's type, cut into one piece (R278). -/
def Mat.piece (m : Mat) (d : StrDesc) (f : Nat → Nat → Nat × Nat) : Fm Piece := do
  let es ← ((List.range d.rows).flatMap fun r => (List.range d.cols).map fun c => f r c).mapM
    fun (p : Nat × Nat) => roundElem m.int d.elTy (m.at' p.1 p.2)
  pure ⟨0, 0, d.rows, d.cols, es.map (BitVec.ofNat 32), [], [], false, none⟩

/-- An entry at an offset that must name a producer (R278). -/
def State.producer (s : State) (arena : Nat) (h : LogHdr) (off : Nat) : Except EngErr Ent :=
  if off = 0 then .error (engErr 0x0D 0x48 0 0) else s.readEntry arena h off

/-- The latest entry before `off` with a result id: walking back, at most `n` entries (R278). -/
def State.findResult (s : State) (arena : Nat) (h : LogHdr) (id : Nat) : Nat → Nat → Except EngErr Ent
  | 0, _ => .error (engErr 0x0D 0x48 0 0)
  | n + 1, off =>
    if off = 0 then .error (engErr 0x0D 0x48 0 0)
    else
      match s.peekEntry arena off with
      | .error e => .error e
      | .ok p => if p.tag.result = id then s.readEntry arena h off else s.findResult arena h id n p.prev

/-- The pieces of an operand by its kind, recomputed where it is 2 (R278). `g`: the operand's group of a joint
operation; `nb`: blocks of a `vproj`. -/
def State.piecesOf (s : State) (arena : Nat) (h : LogHdr) (e : Ent) (u : EntRec) (g n nb : Nat) (f : BitVec 7) :
    Except EngErr (List Piece × BitVec 7) :=
  if e.tag.kind u.pos = 2 then do
    let p ← s.producer arena h u.prod
    let m ← s.forwardOf arena p f
    if (m.1.rows, m.1.cols) ≠ e.shapeOf u.pos u.desc nb then .error (engErr 0x0D 0x4B 0 0)
    else .ok ((List.range n).mapM (fun (j : Nat) => m.1.piece u.desc (e.orient u.pos g j)) m.2)
  else (s.flatPieces arena e u n (.ok [])).map fun l => (l, f)

/-- The accumulator input by its kind (R278). -/
def State.accInOf (s : State) (arena : Nat) (h : LogHdr) (e : Ent) (f : BitVec 7) : Except EngErr (Acc × BitVec 7) :=
  if e.tag.accKind = 2 then do
    let p ← s.findResult arena h e.tag.accIn h.count e.prev
    let m ← s.forwardOf arena p f
    if m.1.rows ≠ e.rows ∨ m.1.cols ≠ e.cols then .error (engErr 0x0D 0x4B 0 0)
    else
      let x : Acc := { e.acc with live := true }
      .ok (x.build fun i k => BitVec.ofNat 32 (m.1.at' i k), m.2)
  else (s.flatAcc arena e (.error (engErr 0x0D 0x4A 0 0))).map fun x => (x, f)

/-! ## Gradient buffers (R276, R280) -/

/-- A record of the gradient table. -/
structure GRec where
  addr : Nat
  rstr : Nat
  rows : Nat
  cols : Nat
  sstr : Nat
  aux : Nat

/-- Reads the record of an id of the table, which is 64-byte aligned (R276). DEDUCED, log 37. -/
def State.gradRec (s : State) (h : LogHdr) (id : Nat) : Except EngErr GRec :=
  if h.table = 0 then .error (engErr 0x0D 0x4B 0 0)
  else if h.table % 64 ≠ 0 then .error (accErr 0x71 (0x08, h.table) 0)
  else
    match s.engRead s.cx s.bank.run ((h.table + 32 * id) % 2 ^ 64) 32 32 with
    | .error e => .error (accErr 0x71 e 0)
    | .ok bs => .ok ⟨fieldOf bs 0 8, fieldOf bs 8 4, fieldOf bs 12 2, fieldOf bs 14 2, fieldOf bs 16 8, fieldOf bs 24 8⟩

/-- Address of element (i, k) of a slice (R276). -/
def GRec.at (g : GRec) (slice i k : Nat) : Nat := (g.addr + slice * g.sstr + i * g.rstr + 4 * k) % 2 ^ 64

/-- The record of an id whose shape must be as given; `reads`: the id is read, not only contributed to (R276). -/
def State.gradOf (s : State) (h : LogHdr) (id rows cols : Nat) (reads : Bool) : Except EngErr GRec :=
  match s.gradRec h id with
  | .error e => .error e
  | .ok g => if (reads || g.addr != 0) && (g.rows != rows || g.cols != cols) then .error (engErr 0x0D 0x4B 0 0) else .ok g

/-- Reads an element of a buffer. -/
def State.gradAt (s : State) (va : Nat) : Except EngErr Nat :=
  match s.engRead s.cx s.bank.run va 4 4 with
  | .error e => .error (accErr 0x73 e 0)
  | .ok bs => .ok (ofBytes bs)

/-- The incoming gradient (R277): a result id whose contributions are discarded has free values. DEDUCED, log 37. -/
def State.gradIn (s : State) (h : LogHdr) (e : Ent) (rows cols : Nat) : Except EngErr (List (List Nat)) :=
  match s.gradOf h e.tag.result rows cols true with
  | .error x => .error x
  | .ok g =>
    (List.range rows).mapM fun i => (List.range cols).mapM fun k =>
      if g.addr = 0 then .ok (Config.freeGrad s.free (i * cols + k)).toNat else s.gradAt (g.at e.slice i k)

/-- A contribution: an id and the elements that are added, row by row. -/
structure Contrib where
  id : Nat
  rows : Nat
  cols : Nat
  c : List (List Nat)

/-- Adds one element (R280). -/
def State.gradAdd (s : State) (va x : Nat) (f : BitVec 7) : Except EngErr (State × BitVec 7) :=
  match s.gradAt va with
  | .error e => .error e
  | .ok old =>
    let y := fAddM old x f
    match s.engWrite s.cx s.bank.run va 4 (bytesOf 4 y.1) with
    | .error e => .error (accErr 0x73 e 0)
    | .ok s => .ok (s, y.2)

/-- Adds a contribution: rows ascend, then columns (R280). -/
def State.contribute (s : State) (h : LogHdr) (slice : Nat) (c : Contrib) (f : BitVec 7) :
    Except EngErr (State × BitVec 7) :=
  match s.gradOf h c.id c.rows c.cols false with
  | .error e => .error e
  | .ok g =>
    if g.addr = 0 then .ok (s, f)
    else
      ((List.range c.rows).flatMap fun i => (List.range c.cols).map fun k => (i, k)).foldlM
        (fun (p : State × BitVec 7) (q : Nat × Nat) =>
          p.1.gradAdd (g.at slice q.1 q.2) ((c.c.getD q.1 []).getD q.2 0) p.2) (s, f)

/-! ## Adjoints (R279) -/

/-- Element (i, k) of a matrix in rows. -/
def cell (m : List (List Nat)) (i k : Nat) : Nat := (m.getD i []).getD k 0

/-- A matrix from a computation of its elements. -/
def buildM (rows cols : Nat) (f : Nat → Nat → Fm Nat) : Fm (List (List Nat)) :=
  (List.range rows).mapM fun i => (List.range cols).mapM fun k => f i k

/-- A sum over an axis in groups of 32, each exact and rounded once (R79, R80, R279). -/
def groupSum (n : Nat) (a b : Nat → FVal) : Fm Nat :=
  (List.range ((n + 31) / 32)).foldlM (fun (acc q : Nat) => do
    let ix := (List.range (min 32 (n - 32 * q))).map (32 * q + ·)
    let v ← fl (exactDot (ix.map a) (ix.map b))
    fAddM acc v) 0

/-- A sum of values in ascending order, each step rounded (R279). -/
def stepSum (xs : List Nat) : Fm Nat := xs.foldlM (fun (a x : Nat) => fAddM a x) 0

/-- What an adjoint works on: the arena, its header, the entry, and the incoming gradient. -/
structure Adj where
  arena : Nat
  h : LogHdr
  e : Ent
  g : List (List Nat)

/-- A contribution that is wanted: its id is not none. -/
def Ent.wants (e : Ent) (pos : Nat) : Bool := e.tag.id pos != idNone

/-- What each record of a position gives: its element type and its pieces. -/
abbrev OperandData := List (Ty × List Piece)

/-- The records of a position, each with the pieces it has. -/
def State.operand (s : State) (j : Adj) (pos nb : Nat) (n : Nat) (f : BitVec 7) :
    Except EngErr (OperandData × BitVec 7) :=
  let us := j.e.recs.filter fun u => u.pos == pos
  ((List.range us.length).zip us).foldlM
    (fun (r : OperandData × BitVec 7) (p : Nat × EntRec) =>
      (s.piecesOf j.arena j.h j.e p.2 p.1 n nb r.2).map fun x => (r.1 ++ [(p.2.desc.elTy, x.1)], x.2)) ([], f)

/-- The pieces of the first record of a position. -/
def firstPieces (l : OperandData) : List Piece := (l.head?.map (·.2)).getD []

/-- acc-in += g, unless it is none or the result's own id (R279). -/
def Adj.passG (j : Adj) : List Contrib :=
  if j.e.tag.accIn = idNone ∨ j.e.tag.accIn = j.e.tag.result then []
  else [⟨j.e.tag.accIn, j.e.rows, j.e.cols, j.g⟩]

/-- Element type of the first record of a position. -/
def Ent.tyAt (e : Ent) (pos : Nat) : Ty := ((e.recs.find? fun u => u.pos == pos).map (·.desc.elTy)).getD .f32

/-- The chunks of a product from its operands' pieces. -/
def prodChunks (ta tb : Bool) (rows cols : Nat) (pa pb : OperandData) (j : Nat) : Chunk :=
  let at' := fun (l : List (Ty × List Piece)) =>
    l.map fun p => (p.1, (0 : BitVec 4), p.2.getD j ⟨0, 0, 0, 0, [], [], [], false, none⟩)
  chunkOf (at' pa) (at' pb) ta tb rows cols

/-- Adjoint of `mma` and `tmm` (R279). -/
def State.adjProd (s : State) (j : Adj) (ta tb : Bool) (kc : Nat) (f : BitVec 7) :
    Except EngErr (List Contrib × BitVec 7) := do
  let gv := fun i n => fval .f32 (cell j.g i n)
  let none' : OperandData := List.replicate (j.e.recs.length / 2) (.f32, [])
  let b ← if j.e.wants 0 then s.operand j 1 0 kc f else .ok (none', f)
  let a ← if j.e.wants 1 then s.operand j 0 0 kc b.2 else .ok (none', b.2)
  let ch := prodChunks ta tb j.e.rows j.e.cols a.1 b.1
  let da := buildM j.e.rows (32 * kc) (fun i k =>
    groupSum j.e.cols (gv i) fun n => wVal ch k n)
  let db := buildM (32 * kc) j.e.cols (fun k n =>
    groupSum j.e.rows (fun i => hVal ch i k) fun i => gv i n)
  let tc := fun (l : OperandData) => flagIf (l.any fun p => p.2.any (·.tc)) flTC
  let x := if j.e.wants 0 then da (a.2 ||| tc b.1) else ([], a.2)
  let y := if j.e.wants 1 then db (x.2 ||| tc a.1) else ([], x.2)
  pure (j.passG
    ++ (if j.e.wants 0 then [⟨j.e.tag.id 0, j.e.rows, 32 * kc, x.1⟩] else [])
    ++ (if j.e.wants 1 then [⟨j.e.tag.id 1, 32 * kc, j.e.cols, y.1⟩] else []), y.2)

/-- A full matrix summed over the axis that a broadcast spreads (R279). -/
def overAxis (b : BitVec 2) (rows cols : Nat) (f : Nat → Nat → Fm Nat) : Fm (List (List Nat)) :=
  match b.toNat with
  | 0 => buildM rows cols f
  | 1 => buildM 1 cols fun _ n => do
    let xs ← (List.range rows).mapM fun i => f i n
    stepSum xs
  | _ => buildM rows 1 fun i _ => do
    let xs ← (List.range cols).mapM fun n => f i n
    stepSum xs

/-- Shape of a broadcast piece (R198). -/
def bcDims (b : BitVec 2) (rows cols : Nat) : Nat × Nat :=
  match b.toNat with
  | 0 => (rows, cols) | 1 => (1, cols) | _ => (rows, 1)

/-- Adjoint of `tadd` (R279). -/
def Adj.tadd (j : Adj) (b : BitVec 2) (f : BitVec 7) : List Contrib × BitVec 7 :=
  if j.e.wants 0 then
    let d := bcDims b j.e.rows j.e.cols
    let x := overAxis b j.e.rows j.e.cols (fun i n => pure (cell j.g i n)) f
    (j.passG ++ [⟨j.e.tag.id 0, d.1, d.2, x.1⟩], x.2)
  else (j.passG, f)

/-- The first piece of an operand, widened to f32. -/
def State.wideOf (s : State) (j : Adj) (pos : Nat) (f : BitVec 7) : Except EngErr (List (List Nat) × BitVec 7) :=
  (s.operand j pos 0 1 f).map fun r =>
    let p := (firstPieces r.1).getD 0 ⟨0, 0, 0, 0, [], [], [], false, none⟩
    ((List.range p.rows).mapM (fun (i : Nat) => p.rowF (j.e.tyAt pos) i)) r.2

/-- acc-in is wanted. -/
def Ent.wantsAcc (e : Ent) : Bool := e.tag.accIn != idNone

/-- The accumulator input as rows of f32. -/
def Acc.matrix (x : Acc) : List (List Nat) := (List.range x.rows).map x.rowOf

/-- The accumulator input where it is needed. -/
def State.accIf (s : State) (j : Adj) (on : Bool) (f : BitVec 7) : Except EngErr (List (List Nat) × BitVec 7) :=
  if on then (s.accInOf j.arena j.h j.e f).map fun r => (r.1.matrix, r.2) else .ok ([], f)

/-- The contribution to acc-in of a matrix. -/
def Adj.toAcc (j : Adj) (m : List (List Nat)) : List Contrib :=
  if j.e.wantsAcc then [⟨j.e.tag.accIn, j.e.rows, j.e.cols, m⟩] else []

/-- Adjoint of `tmul`, and of `tscale` with a 1 x 1 operand (R279). -/
def State.adjMul (s : State) (j : Adj) (b : BitVec 2) (one : Bool) (f : BitVec 7) :
    Except EngErr (List Contrib × BitVec 7) := do
  let x ← if j.e.wantsAcc then s.wideOf j 0 f else .ok ([], f)
  let a ← s.accIf j (j.e.wants 0) x.2
  let xAt := fun i n => if one then cell x.1 0 0 else bcAt b (cell x.1) i n
  let m := if j.e.wantsAcc then buildM j.e.rows j.e.cols (fun i n => fMulM (cell j.g i n) (xAt i n)) a.2 else ([], a.2)
  let ga := fun i n => fMulM (cell j.g i n) (cell a.1 i n)
  let w := if !j.e.wants 0 then ([], m.2)
    else if one then
      buildM 1 1 (fun _ _ => do
        let xs ← buildM j.e.rows j.e.cols ga
        stepSum xs.flatten) m.2
    else overAxis b j.e.rows j.e.cols ga m.2
  let d := if one then (1, 1) else bcDims b j.e.rows j.e.cols
  pure (j.toAcc m.1 ++ (if j.e.wants 0 then [⟨j.e.tag.id 0, d.1, d.2, w.1⟩] else []), w.2)

/-- An adjoint that only gives acc-in, row by row from g and a (R279). -/
def State.adjRows (s : State) (j : Adj) (f : BitVec 7) (row : List Nat → List Nat → Fm (List Nat)) :
    Except EngErr (List Contrib × BitVec 7) := do
  let a ← s.accIf j j.e.wantsAcc f
  let m := if j.e.wantsAcc then (j.g.zip a.1).mapM (fun (p : List Nat × List Nat) => row p.1 p.2) a.2 else ([], a.2)
  pure (j.toAcc m.1, m.2)

/-- Adjoint of `trms` (R279). -/
def State.adjTrms (s : State) (j : Adj) (ep : Nat) (f : BitVec 7) : Except EngErr (List Contrib × BitVec 7) := do
  let a ← s.accIf j (j.e.wantsAcc || j.e.wants 2) f
  let w ← if j.e.wantsAcc then s.wideOf j 2 a.2 else .ok ([], a.2)
  let m := if j.e.wantsAcc then
      (j.g.zip a.1).mapM (fun (p : List Nat × List Nat) => rowTrmsd ep p.1 p.2 (w.1.getD 0 [])) w.2
    else ([], w.2)
  let x := if j.e.wants 2 then
      (do
        let rs ← a.1.mapM fun (row : List Nat) => rmsR row ep
        buildM 1 j.e.cols fun _ n => do
          let xs ← (List.range j.e.rows).mapM fun (i : Nat) => do
            let u ← fMulM (cell a.1 i n) (rs.getD i 0)
            fMulM (cell j.g i n) u
          stepSum xs) m.2
    else ([], m.2)
  pure (j.toAcc m.1 ++ (if j.e.wants 2 then [⟨j.e.tag.id 2, 1, j.e.cols, x.1⟩] else []), x.2)

/-- All blocks' gradients of a `vproj` entry: for each block its chunks and dl (R242, R279). -/
def vprojBlocks (c : VCfg) (ch : Nat → Nat → Chunk) (z : Acc) (kc nb : Nat) (rs : List RowGrad) :
    Fm (List (List (List Nat))) :=
  (List.range nb).mapM fun b => do
    let y : Acc ← fun f =>
      (List.range kc).foldl (fun (r : Acc × BitVec 7) k =>
        let n := r.1.addChunk (ch b k) false (BitVec.allOnes 128)
        (n.1, r.2 ||| n.2)) (z, f)
    dlBlock c b y rs

/-- Adjoint of `vproj`: A += dH for ascending h, then B += dW (R242, R279). -/
def State.adjVproj (s : State) (j : Adj) (ta tb : Bool) (kc : Nat) (f : BitVec 7) :
    Except EngErr (List Contrib × BitVec 7) := do
  let o := { newOp 0 0 0 0 j.e.ins with screen := BitVec.ofNat 64 j.e.aux }
  let cfg ← s.readCfg o true
  let bs ← s.readD cfg j.e.rows
  let c := vcfgOf bs
  let nb := c.width / 128
  let a ← s.operand j 0 nb (nb * kc) f
  let b ← s.operand j 1 nb (nb * kc) a.2
  let ch := fun blk k => prodChunks ta tb j.e.rows 128 a.1 b.1 (blk * kc + k)
  let at' := fun i => 64 + 8 * i
  let rs := (List.range j.e.rows).map fun i =>
    (⟨(fieldOf bs (at' (j.e.rows + i)) 4, fieldOf bs (at' (j.e.rows + i) + 4) 4),
      fieldOf bs (at' i) 4, fieldOf bs (at' i + 4) 4⟩ : RowGrad)
  let z : Acc := ⟨j.e.rows, 128, false, [], none, false, 0⟩
  let dl := vprojBlocks c ch z kc nb rs b.2
  let dh := if j.e.wants 0 then
      ((List.range ((32 * kc + 127) / 128)).mapM fun h =>
        (List.range nb).foldlM (fun (x : Acc) blk => dhBlock x (ch blk) h kc (dl.1.getD blk [])) z) dl.2
    else ([], dl.2)
  let dw := if j.e.wants 1 then
      ((List.range nb).mapM fun blk => (List.range kc).mapM fun k => dwPiece (ch blk) k (dl.1.getD blk []))
        dh.2
    else ([], dh.2)
  let aOut := (List.range j.e.rows).map fun i => (List.range (32 * kc)).map fun k =>
    ((dh.1.getD (k / 128) z).at i (k % 128)).toNat
  let bOut := (List.range (32 * kc)).map fun k => (List.range (128 * nb)).map fun n =>
    ((((dw.1.getD (n / 128) []).getD (k / 32) []).getD (k % 32 * 128 + n % 128) 0) : Word).toNat
  pure ((if j.e.wants 0 then [⟨j.e.tag.id 0, j.e.rows, 32 * kc, aOut⟩] else [])
    ++ (if j.e.wants 1 then [⟨j.e.tag.id 1, 32 * kc, 128 * nb, bOut⟩] else []), dw.2)

/-- Queries of the adjoint of `attn`: the state with dK and dV, and the rows of dQ, where it is formed (R260, R279). -/
def State.adjAttnRows (c : AttnCtx) (p : DPieces) (norms : List (Nat × Nat)) (forms : Bool) :
    Nat → Nat → State → List (List Nat) → BitVec 7 → Except EngErr (State × List (List Nat) × BitVec 7)
  | 0, _, s, out, f => .ok (s, out, f)
  | n + 1, i, s, out, f =>
    match s.attndRow c p i (norms.getD i (f32NegInf, 0)) forms f with
    | .error e => .error e
    | .ok (s, g, f) => State.adjAttnRows c p norms forms n (i + 1) s (out ++ [g]) f

/-- A matrix of f32 as a piece. -/
def matPiece (rows cols : Nat) (m : List (List Nat)) : Piece :=
  ⟨0, 0, rows, cols, m.flatten.map (BitVec.ofNat 32), [], [], false, none⟩

/-- Reads the adjoint block at the result id's auxiliary address; its stream fields are ignored (R276, R279). -/
def State.auxBlock (s : State) (h : LogHdr) (id : Nat) : Except EngErr AdjBlk :=
  match s.gradRec h id with
  | .error e => .error e
  | .ok g =>
    match s.readWords g.aux 8 with
    | .error e => .error (accErr 0x66 e 0)
    | .ok ab =>
      match adjBlkBad ab false with
      | some sub => .error (engErr 0x0D sub (BitVec.ofNat 64 g.aux) 0)
      | none => .ok (adjBlkOf ab)

/-- Adjoint of `attn` (R260, R279). -/
def State.adjAttn (s : State) (j : Adj) (f : BitVec 7) : Except EngErr (State × List Contrib × BitVec 7) := do
  let ab ← s.auxBlock j.h j.e.tag.result
  let q ← s.operand j 0 0 1 f
  let a ← s.attnAgain j.e (firstPieces q.1) (some ab)
  let fw ← a.s.attnForward a a.req.q 0 q.2
  let p : DPieces := ⟨a.q, a.qt, matPiece a.req.q a.req.d j.g, .f32,
    matPiece a.req.q a.req.d (fw.1.map (·.2)), (Ty.ofCode a.req.oty).getD .f32⟩
  let r ← State.adjAttnRows a.c p (fw.1.map (·.1)) (j.e.wants 0) a.req.q 0 a.s [] fw.2
  pure (r.1, if j.e.wants 0 then [⟨j.e.tag.id 0, a.req.q, a.req.d, r.2.1⟩] else [], r.2.2)

/-- Rows and columns of an entry's result (R276). -/
def State.resultShape (s : State) (e : Ent) : Except EngErr (Nat × Nat) :=
  match e.ins with
  | .attn .. => (s.readReq e.aux false).map fun bs => ((attnReqOf bs).q, (attnReqOf bs).d)
  | _ => .ok (e.rows, e.cols)

/-- Contributions of an entry, in the order of R279, all reads made. -/
def State.adjoint (s : State) (j : Adj) (f : BitVec 7) : Except EngErr (State × List Contrib × BitVec 7) :=
  let same := fun (r : Except EngErr (List Contrib × BitVec 7)) => r.map fun p => (s, p.1, p.2)
  match j.e.ins with
  | .mma _ _ _ _ ta tb kc | .tmm _ _ _ ta tb kc | .jointOperation _ _ _ ta tb kc =>
    same (s.adjProd j ta tb (kc.toNat + 1) f)
  | .tadd _ _ _ b => .ok (s, (j.tadd b f).1, (j.tadd b f).2)
  | .tmul _ _ _ b => same (s.adjMul j b false f)
  | .tscale _ _ _ => same (s.adjMul j 0 true f)
  | .tact _ fn => same (s.adjRows j f fun g a => (a.zip g).mapM fun (p : Nat × Nat) => grad fn.toNat p.1 p.2)
  | .trms _ _ _ e => same (s.adjTrms j e.toNat f)
  | .tsmax _ _ _ => same (s.adjRows j f fun g a => do
      let n ← rowNorm a
      let y ← rowTsmax n a
      rowTsmaxd g y)
  | .vproj _ _ _ _ ta tb kc => same (s.adjVproj j ta tb (kc.toNat + 1) f)
  | .attn .. => s.adjAttn j f
  | _ => .error (badEntry 0)

/-- An acc-in id may equal the result id in these opcodes alone (R279). -/
def Ent.sameIdOk (e : Ent) : Bool :=
  match e.ins with
  | .mma .. | .tmm .. | .tadd .. | .jointOperation .. => true
  | _ => e.tag.accIn == idNone || e.tag.accIn != e.tag.result

/-- `g` is added to acc-in as it is (R279). -/
def Ent.passes (e : Ent) : Bool := e.wantsAcc && e.tag.accIn != e.tag.result

/-- Some contribution of the entry is not skipped (R279): with all skipped nothing is read. -/
def Ent.contributes (e : Ent) : Bool :=
  match e.ins with
  | .mma .. | .tmm .. | .jointOperation .. => e.passes || e.wants 0 || e.wants 1
  | .tadd .. => e.passes || e.wants 0
  | .tmul .. | .tscale .. => e.wantsAcc || e.wants 0
  | .trms .. => e.wantsAcc || e.wants 2
  | .tact .. | .tsmax .. => e.wantsAcc
  | _ => true

/-- The same, with the contributions to dK and dV of `attn`, of which its adjoint block says whether they are made. -/
def State.contributes (s : State) (h : LogHdr) (e : Ent) : Except EngErr Bool :=
  match e.ins with
  | .attn .. => if e.wants 0 then .ok true else (s.auxBlock h e.tag.result).map fun a => a.accK || a.accV
  | _ => .ok e.contributes

/-- The codes of R281 for a failure that the forward operation's reading has found: its blocks, lists, tokens and records are
re-read operand data, the adjoint block and its lists gradient buffers. DEDUCED, log 37. -/
def EngErr.inReverse (e : EngErr) : EngErr :=
  if e.cause = 0x0D ∨ e.cause = 0x11 then e
  else if e.sub = 0x66 then { e with sub := 0x73 }
  else if 0x50 ≤ e.sub.toNat ∧ e.sub.toNat ≤ 0x65 then { e with sub := 0x72 }
  else e

/-- Applies the contributions of an entry, all of them or none (R277, R280). -/
def State.applyAll (s : State) (arena : Nat) (h : LogHdr) (e : Ent) (f : BitVec 7) :
    Except EngErr (State × BitVec 7) := do
  if !e.sameIdOk then .error (badEntry h.tail)
  else if !(← s.contributes h e) then .ok (s, f)
  else do
    let sh ← s.resultShape e
    let g ← match e.ins with
      | .vproj .. => .ok []
      | _ => s.gradIn h e sh.1 sh.2
    let r ← s.adjoint ⟨arena, h, e, g⟩ f
    r.2.1.foldlM (fun (p : State × BitVec 7) (c : Contrib) => p.1.contribute h e.slice c p.2) (r.1, r.2.2)

/-- Applies an entry whole, or not at all (R277, R280, R281). -/
def State.applyEntry (s : State) (arena : Nat) (h : LogHdr) (e : Ent) (f : BitVec 7) : Except EngErr (State × BitVec 7) :=
  (s.applyAll arena h e f).mapError EngErr.inReverse

/-! ## The reverse walk (R277) -/

/-- Where a walk has come to: the state, entries processed, flags, and the fault that stopped it. -/
structure Walked where
  s : State
  n : Nat
  f : BitVec 7
  err : Option EngErr

/-- One entry of the walk: checked and applied if it is wanted, and the header moved below it (R277). -/
def State.walkEntry (s : State) (arena : Nat) (h : LogHdr) (f : BitVec 7) : Except EngErr (State × LogHdr × BitVec 7) := do
  let p ← s.peekEntry arena h.tail
  let r ← if p.wanted then do
      let e ← s.readEntry arena h h.tail
      s.applyEntry arena h e f
    else .ok (s, f)
  let t ← r.1.logPuts arena [(0x20, 4, h.top - 1), (0x28, 8, p.prev)]
  pure ({ t with free := t.free + 1 }, { h with top := h.top - 1, tail := p.prev }, r.2)

/-- The walk down to entry `a` (R277). -/
def State.walkLog (arena a : Nat) : Nat → LogHdr → Walked → Walked
  | 0, _, w => w
  | n + 1, h, w =>
    if h.top ≤ a then w
    else
      match w.s.walkEntry arena h w.f with
      | .error e => { w with err := some e }
      | .ok (s, h, f) => State.walkLog arena a n h ⟨s, w.n + 1, f, none⟩

/-- Runs `reverse` (R277, R281). -/
def State.runReverse (s : State) (o : EngOp) : EngRes :=
  if s.bank.recm.on then .fault s o (engErr 0x0D 0x4D o.addr 0)
  else
    match s.readLog o.addr.toNat with
    | .error e => .fault s o e
    | .ok h =>
      let w := State.walkLog o.addr.toNat o.valA.toNat h.top h ⟨s, 0, o.flags, none⟩
      match w.err with
      | some e => .fault w.s { o with flags := w.f } e
      | none => .done w.s o (some (BitVec.ofNat 64 w.n)) w.f

/-- `reverse`: the arena's address and the lowest index are read at issue (R273). -/
def execReverse (d : Opnd) (bp : BitVec 4) (off : BitVec 24) (a : Opnd) (s : State) :
    Host.Outcome State Fault Refusal :=
  s.finish (s.unserved do
    let base ← s.rdBase bp
    let x ← s.rd32 a
    pure (s.engIssue (.reverse d bp off a) d false fun o =>
      { o with addr := base + off.setWidth 64, valA := x.setWidth 64 }))

/-- Runs a REC operation. -/
def State.runRecOp (s : State) (o : EngOp) : EngRes :=
  match o.ins with
  | .recbeg .. => s.runRecbeg o
  | .recend _ => s.runRecend o
  | .reverse .. => s.runReverse o
  | .recflag .. => s.runRecflag o
  | _ => .done s o none 0

end Sys2Proof.Machine
end

