-- ==== Sys2Proof/Machine/EngineEvents.lean ====
section
/-! DEFINITION. The events of the matrix engine: an operation completes or stops, and its fault is delivered (R192 to
R195, R217, R340). -/

namespace Sys2Proof.Machine

/-- Runs the operation at the head of the queue, whatever it is. -/
def runPlain (o : EngOp) (s : State) : EngRes :=
  match o.ins with
  | .vproj ac sa sb t ta tb kc => s.runVproj o ac sa sb t ta tb (kc.toNat + 1)
  | .vprojd ac sa sb sx t h dw kc => s.runVprojd o ac sa sb sx t h.toNat dw (kc.toNat + 1)
  | .vmerge _ _ _ rows => s.runVmerge o (rows.toNat + 1)
  | .attn .. => s.runAttn o
  | .attnd .. => s.runAttnd o
  | .otcfg .. | .extend .. | .extendC .. | .revoke .. | .revokeAt .. | .rlresume .. | .rlstat .. | .omap ..
  | .standInstall _ => s.runOpenOp o
  | .recbeg .. | .recend _ | .reverse .. | .recflag .. => s.runRecOp o
  | _ => s.runTileOp o

/-- Runs an operation, recording it in record mode (R265, R271). -/
def State.runOp (s : State) (o : EngOp) : EngRes :=
  if s.bank.recm.on && recordable o.ins then s.recorded o runPlain else runPlain o s

/-! ## The frame's tail (R340) -/

/-- A count that saturates at 255. -/
def sat8 (n : Nat) : Byte := BitVec.ofNat 8 (min n 255)

/-- Pieces of claim `i` that the operation has consumed: all of them where a firing's fence has faulted after its end (R216);
else a product takes one of each a chunk, and `vproj` and `vprojd` those of their finished blocks and chunks; `vprojd` hands
out the dW pieces of a block at its end (R195, R233, R242, R340). -/
def EngOp.eaten (o : EngOp) (e : EngErr) (i : Nat) (c : Claim) : Nat :=
  if e.fence ≠ 0 then c.count
  else match o.ins with
  | .mma .. | .tmm .. | .tmmt .. | .tmmw .. | .jointOperation .. => min e.chunk c.count
  | .vproj _ _ _ _ _ _ kc => min (o.block * (kc.toNat + 1) + o.chunk) c.count
  | .vprojd _ _ _ _ _ _ _ kc => min (o.block * (kc.toNat + 1) + if i < 2 then o.chunk else 0) c.count
  | _ => 0

/-- The last 64 bytes of the frame of an engine fault (R340). -/
def Bank.engTail (b : Bank) (o : EngOp) (e : EngErr) : List Byte :=
  let ac := instrAcc o.ins
  let ents := ((List.range 8).zip o.claims).flatMap fun (p : Nat × Claim) =>
    [p.2.st.setWidth 8, sat8 p.2.count, sat8 (o.eaten e p.1 p.2), 0]
  [(ac.getD 0).setWidth 8, sat8 e.chunk, BitVec.ofNat 8 (min o.claims.length 8), e.fence.setWidth 8]
    ++ bytesOf 4 o.seq.toNat ++ bytesOf 16 ((ac.map fun k => (b.acc k).poison.toNat).getD 0)
    ++ ents ++ List.replicate (32 - ents.length) 0

/-! ## Output of a firing that faulted (R217) -/

/-- Virtual ranges that a firing has written for its slice, address and length. `whole`: its operation has come to its end,
and handed out its output pieces; the rows of an `attn` that stopped keep their normalisers (R261). -/
def State.firingWrites (s : State) (o : EngOp) (whole : Bool) : List (Nat × Nat) :=
  let n := (o.rule.map (·.2)).getD 0
  (if whole then (o.claims.filter (·.desc.isOut)).flatMap fun c => c.desc.spans c.first else []) ++
  match o.ins with
  | .omap .. =>
    let t := s.bank.slot (mapBlkOf o.blk).out
    (List.range (min (16 * o.row) t.elems)).map fun e => (t.store n e, elBytes t.ty)
  | .attn .. =>
    let r := attnReqOf o.blk
    if r.norm && whole then (List.range r.q).map fun i => ((r.nout + 8 * (r.q * n + i)) % 2 ^ 64, 8) else []
  | .vproj ac _ _ _ _ _ _ =>
    let c := vcfgOf o.blk
    let rows := (s.bank.acc ac).rows
    (List.range (o.row * c.recBytes / 8)).map fun k => ((c.out + n * rows * c.recBytes + 8 * k) % 2 ^ 64, 8)
  | _ => []

/-- The pieces that a firing has handed out are taken back (R217). -/
def Bank.takeBack (b : Bank) (c : Claim) : Bank :=
  if c.desc.isOut then
    b.mapStream c.st fun x => { x with outq := x.outq.filter fun e => !(e.piece.gen == c.gen && e.piece.idx == c.first) }
  else b

/-- The storage written for the slice becomes undefined (R217). -/
def State.forgetFiring (s : State) (o : EngOp) (whole : Bool) : State :=
  let tag := s.free + 1
  let s := if whole then s.mapBank fun b => o.claims.foldl Bank.takeBack b else s
  let m := (s.firingWrites o whole).foldl (fun (m : Memory) (w : Nat × Nat) =>
    match s.locateW s.cx s.bank.run .write w.1 w.2 with
    | .at key => m.forget key (key + w.2) tag
    | _ => m) s.mem
  { s with mem := m, free := tag }

/-! ## Completion (R193, R194, R215) -/

/-- Takes the operation at the head from the queue. With an install of `attn` those behind it make their claims; streams that
have been cut become unconfigured (R181, R182, R212). -/
def Bank.popEng (b : Bank) : Bank :=
  let c : Bank := { b with eng := b.eng.drop 1, held := b.held - 1 }
  (if (b.eng.take 1).any fun o => attnInstall o.ins then c.claimQueue else c).settleCuts

/-- Puts the operation at the head back as it stands. -/
def Bank.setHead (b : Bank) (o : EngOp) : Bank := { b with eng := o :: b.eng.drop 1 }

/-- The tokens of an operation land; its flags go to its owner (R193, R194). -/
def State.landTokens (s : State) (o : EngOp) (v : DWord) (f : BitVec 7) : State :=
  if o.members.isEmpty then s.mapAgent o.owner fun a => a.landToken o.uid v f
  else
    o.members.foldl (fun (s : State) (m : AgentId × Nat) =>
      s.mapAgent m.1 fun a => a.landToken m.2 v (if m.1 = o.owner then f else 0)) s

/-- The accumulator of a `vproj` firing that has faulted is zeroed, where the operation had come to use it: the firing starts
again. DESIGN CHOICE, log 30. -/
def Bank.restart (b : Bank) (o : EngOp) : Bank :=
  match o.ins with
  | .vproj ac .. => if o.scr.isEmpty then b else b.setAcc ac (b.acc ac).cleared
  | _ => b

/-- A firing's operation ends: where it faulted its claims are given back (R217). `whole`: after its operation's end. -/
def State.endFiring (s : State) (o : EngOp) (r : BitVec 5) (f : BitVec 7) (e : Option EngErr) (whole : Bool) : State :=
  match e with
  | none => s.mapBank fun b => b.popEng.fire r f none
  | some e =>
    let e := { e with tail := s.bank.engTail o e }
    (s.forgetFiring o whole).mapBank fun b =>
      (o.claims.foldl (fun b c => b.unclaim c) (b.restart o).popEng).fire r 0 (some e)

/-- An operation that has completed (R193, R216). -/
def State.opDone (s : State) (o : EngOp) (tok : Option DWord) (f : BitVec 7) : State :=
  match o.rule with
  | none => (s.mapBank Bank.popEng).landTokens o (tok.getD (o.seq.setWidth 64)) f
  | some (r, _) =>
    let e := f &&& o.atrap.setWidth 7
    if e = 0 then s.endFiring o r f none true
    else s.endFiring o r 0 (some ⟨0x0B, 0, 0, 0, e, []⟩) true

/-- An operation that has stopped with a fault: held at the head of the queue, or the end of a firing (R195, R217). -/
def State.opFault (s : State) (o : EngOp) (e : EngErr) : State :=
  match o.rule with
  | none => s.mapBank fun b => b.setHead { o with err := some { e with tail := b.engTail o e } }
  | some (r, _) => s.endFiring o r 0 (some e) false

/-- The operation writes memory of itself, not through an output stream. -/
def EngOp.writesMemory (o : EngOp) (recording : Bool) : Bool :=
  match o.ins with
  | .vproj .. | .vmerge .. | .attn .. | .attnd .. | .omap .. | .reverse .. | .recbeg .. | .recend _ => true
  | i => recording && recordable i

/-- The operation's own writes would pass output pieces that the engine has handed out before: it waits until they are written
(R167). -/
def State.passesOutput (s : State) (o : EngOp) : Bool :=
  o.writesMemory s.bank.recm.on && s.bank.streams.toList.any fun x => !x.outq.isEmpty

/-- The operation at the head of the queue waits; for a refreshing bank, and for an operand that is due while its FIFO is empty,
the core freezes (R28, R142, R180, R190). -/
def State.headWaits (s : State) (o : EngOp) : State :=
  let n := s.opRefresh o
  let t := s.mapBank fun b => b.setHead o
  if n ≠ 0 then t.freezeFor n
  else if s.underruns o then { t with freezes := t.freezes ++ [⟨.underrun, 1⟩] }
  else t

/-- The operation at the head of the queue runs, as far as it gets (R192). -/
def State.runHead (s : State) (o : EngOp) : State :=
  if s.passesOutput o then s.headWaits o
  else
    match s.runOp o with
    | .done s o tok f => s.opDone o tok f
    | .fault s o e => s.opFault o e
    | .waits s o => s.headWaits o

/-- The operation at the head makes the claims of its issue that it lacks, and runs. -/
def State.headStep (s : State) (o : EngOp) : State :=
  match o.err with
  | some e => if o.rule.isSome then s.opFault o e else s
  | none =>
    let c := o.claimIn (needsOf o.ins) untaken s.bank
    let s := { s with bank := c.1.setHead c.2 }
    match c.2.err with
    | some e => s.opFault { c.2 with err := none } e
    | none => s.runHead c.2

/-- Which writes of engine operations before it an operation's reads observe: a vocabulary operation those of vocabulary
operations (2), `reverse` all (1) (R244, R282). -/
def observes : Instr → Option Nat
  | .vproj .. | .vprojd .. | .vmerge .. => some 2
  | .reverse .. => some 1
  | _ => none

/-- The state in which the operation runs: the agent that issued it is the requester, what counts as performed for that agent is
performed, and what the operations before it have written is read anew where it observes them (R162, R163, R244, R282). -/
def State.engineFor (s : State) (o : EngOp) : State :=
  let s := { s.surface o.owner with reader := some o.owner }
  match observes o.ins with
  | some n => s.afterOps o.owner n
  | none => s

/-- The engine goes on with the operation at the head of its queue, once all members have issued it (R191, R192). -/
def State.engineStep (s : State) : State :=
  match s.bank.eng with
  | [] => s
  | o :: _ => if o.lacksMembers then s else { (s.engineFor o).headStep o with reader := s.reader }

/-- `engineOpComplete`: the operation at the head of the engine's queue runs (R192, R193). -/
def execEngineOpComplete (s : State) : Host.Outcome State Fault Refusal :=
  s.unlessFrozen fun s => { s.onWork State.engineStep with engAt := s.wall + 1 }

/-- An operation that a stop lets complete: neither a firing nor one that stops at a boundary of its own (R223, R345). -/
def EngOp.completes (o : EngOp) : Bool :=
  o.rule.isNone && o.err.isNone &&
    match o.ins with
    | .mma .. | .tmm .. | .tmmt .. | .tmmw .. | .jointOperation .. | .vproj .. | .vprojd .. | .attn .. | .attnd ..
    | .reverse .. => false
    | _ => true

/-- The head of the queue completes during a save, unless the engine holds it (R195, R345). -/
def Bank.headCompletes (b : Bank) : Bool := decide (b.held = 0) && (b.eng.take 1).any EngOp.completes

/-! ## Delivery (R195) -/

/-- The trap of an engine fault (R195). -/
def State.engTrap (s : State) (o : EngOp) (e : EngErr) : TrapReq where
  cause := e.cause
  sub := e.sub
  agent := o.owner
  pc := o.pc
  resume := (s.agent o.owner).pc
  addr := e.addr
  slice := 0
  rule := none
  engine := true
  deferred := false
  tail := if e.tail.isEmpty then s.bank.engTail o e else e.tail
  shown := none
  early := false
  past := false
  late := 0
  redo := .engine

/-- The fault that the engine holds, if it is a directly issued operation's. -/
def Bank.engFault (b : Bank) : Option (EngOp × EngErr) :=
  match b.eng with
  | o :: _ => o.err.map fun e => (o, e)
  | [] => none

/-- `engineFaultDelivery`: the fault is taken by the issuing cluster, or the lead (R195). -/
def execEngineFaultDelivery (s : State) : Host.Outcome State Fault Refusal :=
  match s.bank.engFault with
  | some (o, e) => .next (s.takeTrap (s.engTrap o e))
  | none => .next s

end Sys2Proof.Machine
end

