-- ==== Sys2Proof/Machine/Freezes.lean ====
section
/-! DEFINITION. How freezes begin and end: data arrivals, walks, corrections, the refresh calendar and the throttles
(R28, R142, R402, R405, R414). -/

namespace Sys2Proof.Machine

/-- Freezes that end when what they wait for arrives: data, fetched words, a stream's data, a retried flit (R28). -/
def FreezeWhy.arrives : FreezeWhy → Bool
  | .data | .fetch | .underrun | .retry _ => true
  | _ => false

/-- Keeps the freezes that a test leaves in force. -/
def State.keepFreezes (s : State) (p : Freeze → Bool) : State := { s with freezes := s.freezes.filter p }

/-- A freeze whose data is there. -/
def Freeze.arrived (f : Freeze) : Bool := f.why.arrives && f.left == 0

/-- `memoryDataArrival`: the freezes whose data is there end, or else all that waited for data (R28). -/
def execMemoryDataArrival (s : State) : Host.Outcome State Fault Refusal :=
  .next (if s.freezes.any Freeze.arrived then s.keepFreezes fun f => !f.arrived else s.keepFreezes fun f => !f.why.arrives)

/-- The outside has said how long one more walk takes. -/
def State.usedWalk (s : State) : State := { s with oracle := { s.oracle with walks := s.oracle.walks.drop 1 } }

/-- The walk that freezes the core completes: its leaf enters the TLBs, or its failure waits for the access that will take
it; the freeze of the walk ends (R28, R405). -/
def State.walkDone (s : State) (w : Walk) : State :=
  let s := s.usedWalk.keepFreezes fun f => f.why != .walk
  match w.ent with
  | some e => { s with tlb := e :: s.tlb, walk := none }
  | none => { s with walk := some { w with bad := some w.fails } }

/-- The walk of an instruction that has issued completes; the core goes on unless another is late (R28, R31). -/
def State.issuedWalkDone (s : State) (w : Walk) : State :=
  let s := { s.usedWalk with walks := s.walks.erase w }
  let s := if s.walkLate then s else s.keepFreezes fun f => f.why != .walk
  match w.ent with
  | some e => { s with tlb := e :: s.tlb }
  | none => s

/-- The walk for which the core is frozen is over, or else one of an instruction that has issued (R405). -/
def State.walkOver (s : State) : Option (Walk × Bool) :=
  match s.walk.filter fun w => w.bad.isNone && decide (w.till ≤ s.wall) with
  | some w => some (w, true)
  | none => if s.walk.isSome && !(s.walk.any fun w => w.bad.isSome) then none
      else (s.walks.find? fun w => decide (w.till ≤ s.wall)).map fun w => (w, false)

/-- `translationWalkComplete` (R405). -/
def execTranslationWalkComplete (s : State) : Host.Outcome State Fault Refusal :=
  .next
    (match s.walkOver with
    | some (w, true) => s.walkDone w
    | some (w, false) => s.issuedWalkDone w
    | none => s)

/-- A correction whose 24 cycles are over (R28). -/
def Freeze.corrected (f : Freeze) : Bool :=
  match f.why with
  | .correction _ _ => f.left == 0
  | _ => false

/-- `correctionFreezeEnd` (R28, R144, R196). -/
def execCorrectionFreezeEnd (s : State) : Host.Outcome State Fault Refusal :=
  .next (s.keepFreezes fun f => !f.corrected)

/-- The bank that refreshes at the present phase, and when its refresh ends; `none` between refreshes (R142). -/
def State.calendar (s : State) : Option (BitVec 6 × Nat) :=
  if s.wall % 512 < 128 then some (BitVec.ofNat 6 (s.wall / 512), s.wall / 512 * 512 + 128) else none

/-- `weightStoreRefresh`: the bank whose calendar phase it is refreshes for 128 cycles (R142). -/
def execWeightStoreRefresh (bank : BitVec 6) (s : State) : Host.Outcome State Fault Refusal :=
  .next
    (match s.calendar with
    | some r => if r.1 = bank then { s with refresh := r } else s
    | none => s)

/-! ## Throttles -/

/-- Cycles of a throttle window (R402, R414). -/
def windowCycles : Nat := 4096

/-- The powers of the last windows, at most 16, with the present reading (R414). -/
def Throttle.lastPowers (t : Throttle) : List (Nat × Nat) := ((t.dieP, t.modP) :: t.powers).take 16

/-- The averages of the powers of die and module, in 0.1 W, meet both limits (R414). -/
def Throttle.cool (t : Throttle) : Bool :=
  let l := t.lastPowers
  let sum := fun (f : Nat × Nat → Nat) => l.foldl (fun n p => n + f p) 0
  decide (sum (·.1) ≤ 3000 * l.length) && decide (sum (·.2) ≤ 72000 * l.length)

/-- The throttle at the start of window `n`, from the readings that it holds: the hottest sensor in 1/16 degree, and the
powers (R414). DEDUCED, log 46. -/
def Throttle.window (t : Throttle) (n : Nat) : Throttle :=
  let hot := t.hot.toInt
  let f :=
    if decide (1680 ≤ hot) || !t.cool then min (t.f + 256) 3840
    else if decide (hot < 1648) then t.f - 256
    else t.f
  { t with
    f := f
    trip := decide (1840 ≤ hot) || (t.trip && decide (1760 ≤ hot))
    windows := t.windows + 1
    powers := t.lastPowers
    judged := some n }

/-- Cycles for which a window of the throttle freezes each core: all of it after a trip (R414). -/
def Throttle.frozen (t : Throttle) : Nat := if t.trip then windowCycles else t.f

/-- A machine check of the core's run (R332). -/
def State.checkTrap (s : State) (sub : Byte) : TrapReq :=
  { s.trapAt 0x1A sub 0 with agent := 0, pc := (s.agent 0).pc, resume := (s.agent 0).pc }

/-- The core holds a run that a trap can still act on: not one that a reset has discarded (R410), and none that another member's
trap is about to stop (R327). -/
def State.trappable (s : State) : Bool :=
  s.gangStop.isNone && (s.bank.run.any fun r => !r.dropped) &&
    match s.phase with
    | .running | .draining | .stopping | .switching _ _ => true
    | _ => false

/-- Cause 0x1A on the core; the die counts it (R332, R412). -/
def State.machineCheck (s : State) (sub : Byte) : State :=
  let s := s.count s.die 5 1
  if s.trappable then s.takeTrap (s.checkTrap sub) else s

/-- The sensor readings of a die go into its health record (R412). -/
def State.sense (s : State) (die : Nat) (hot : BitVec 16) (power : Nat) : State :=
  { s with health := s.health.mapIdx fun i h => if i = die then { h with hot := hot, power := min power 3000 } else h }

/-- What the core's die and the module read from now on (R412, R414). -/
def State.readSensors (s : State) (hot : BitVec 16) (dieP modP : Nat) : State :=
  { s.sense s.die hot dieP with throttle := { s.throttle with hot := hot, dieP := dieP, modP := modP } }

/-- What another die and the module read from now on: the die's record alone holds its own readings (R412, R414). -/
def State.readOthers (s : State) (die : Nat) (hot : BitVec 16) (dieP modP : Nat) : State :=
  { s.sense die hot dieP with throttle := { s.throttle with modP := modP } }

/-- A window of the throttle has started, and its die has not judged it yet (R414). -/
def State.windowDue (s : State) : Bool := s.throttle.judged != some (s.wall / windowCycles)

/-- The die judges a window: its cores freeze for the throttle's depth from the window's start (R414). -/
def State.judge (s : State) : State :=
  let t := s.throttle.window (s.wall / windowCycles)
  let n := t.frozen - s.wall % windowCycles
  let s := { s with throttle := t }
  if n = 0 then s else { s with freezes := s.freezes ++ [⟨.thermal, n⟩] }

/-- `thermalThrottleWindow`: the sensors are read, and at the start of a window of wall time the die judges it once; a reading
of 125 degrees raises a machine check on every core (R414). -/
def execThermalThrottleWindow (hot : BitVec 16) (diePower modulePower : Nat) (s : State) :
    Host.Outcome State Fault Refusal :=
  let s := s.readSensors hot diePower modulePower
  let s := if s.windowDue then s.judge else s
  .next (if 2000 ≤ hot.toInt then s.machineCheck 0 else s)

/-- The partition's traffic of a window has reached its share of the die's LPDDR or weight-store rate: 384 and 32,768
bytes a cycle (R10, R399, R402). -/
def Part.spent (p : Part) (lp ws : Nat) : Bool :=
  decide (p.lpShare * 384 * windowCycles ≤ lp * 256) || decide (p.wsShare * 32768 * windowCycles ≤ ws * 256)

/-- `shareThrottleWindow`: a core of a partition whose share is spent freezes for the rest of the window, while another
partition's traffic waits (R402). -/
def execShareThrottleWindow (part : BitVec 4) (lpBytes wsBytes : Nat) (othersWait : Bool) (s : State) :
    Host.Outcome State Fault Refusal :=
  let here := (s.bank.run.map fun r => r.part == part).getD false
  .next
    (if !here then s
    else
      let s := s.keepFreezes fun f => f.why != .share
      if othersWait && s.parts[part.toNat].spent lpBytes wsBytes then
        { s with freezes := s.freezes ++ [⟨.share, windowCycles - s.wall % windowCycles⟩] }
      else s)

end Sys2Proof.Machine
end

