-- ==== Sys2Proof/Machine/Gang.lean ====
section
/-! DEFINITION. Runs: admission and selection (R304, R309, R401), binding and starting a gang (R62, R311, R346), ending one
(R313, R314), and the queue of service records (R408). -/

namespace Sys2Proof.Machine

/-! ## The service record's queue (R408) -/

/-- The service record of a partition as it can be read and its status written: the supervisor context, its address, its
key and its bytes. -/
def State.svcRecord (s : State) (p : BitVec 4) : Option (BitVec 6 × Nat × Nat × List Byte) :=
  match s.supervisorOf p with
  | none => none
  | some sv =>
    let va := s.parts[p.toNat].service
    if va = 0 then none
    else
      match s.locateW sv none .read va 64, s.locateW sv none .write va 64 with
      | .at key, .at _ =>
        if !s.served key true || (s.mem.poisonAt key 64).isSome then none else some (sv, va, key, s.rd key 64)
      | _, _ => none

/-- A request is dropped: bit 7 of the partition's control register is set (R408). -/
def State.dropRequest (s : State) (p : BitVec 4) : State := s.mapPart p fun x => { x with writeErr := true }

/-- Takes the oldest queued doorbell requests: the service record is pushed for the first that it can be pushed for, and
while it is held the others wait (R408). -/
def State.pumpGo (p : BitVec 4) : Nat → State → State
  | 0, s => s
  | n + 1, s =>
    match s.parts[p.toNat].doorbells with
    | [] => s
    | (die, sub) :: rest =>
      let s' := s.mapPart p fun x => { x with doorbells := rest }
      match s.svcRecord p with
      | none => State.pumpGo p n (s'.dropRequest p)
      | some (sv, va, key, bs) =>
        if 1 ≤ fieldOf bs 0x38 1 ∧ fieldOf bs 0x38 1 ≤ 4 then s
        else if recordStatus bs (decide (8192 ≤ s.storeCount die)) = 0 then
          s'.enqueue sv (BitVec.ofNat 64 va) key die bs (some sub)
        else State.pumpGo p n (s'.dropRequest p)

/-- The doorbell queue of a partition is looked at (R408); during a reset its requests are held (R410). -/
def State.pump (s : State) (p : BitVec 4) : State :=
  if s.parts[p.toNat].resetting then s else State.pumpGo p s.parts[p.toNat].doorbells.length s

/-! ## Starting a run (R311, R346) -/

/-- The run that a record starts as member `n` of its gang (R311, R392). -/
def State.newRun (s : State) (r : SRec) (i : Image) (members : List Nat) (n : Nat) : Run where
  ctx := r.ctx
  part := s.partOf r
  supervisor := s.ctxs[r.ctx.toNat].supervisor
  recAddr := r.addr
  snap := r.snap
  logcore := r.snap.origin + n
  members := members
  img := i
  model := s.ctxs[r.ctx.toNat].model
  budget := r.snap.budget
  cause := match r.service with
    | some sub => sub ++ (0x17 : Byte)
    | none => 0
  service := r.service.isSome
  interrupts := false
  signalled := 0
  ending := none
  dropped := false
  replays := 0
  replayPc := 0
  behind := false
  kind := none
  parked := none

/-- An agent at its entry: frame pointer in g0:g1, `second` in g2:g3, all else zero (R57, R311). -/
def Run.agentAt (r : Run) (second : DWord) (k : Fin 5) : Agent :=
  let w := fun (x : DWord) (h : Nat) => x.extractLsb' (32 * h) 32
  { Agent.init with
    pc := BitVec.ofNat 64 (r.img.entries.getD k.val 0)
    g := ((((Vector.replicate 32 0).set 0 (w r.snap.frame 0)).set 1 (w r.snap.frame 1)).set 2 (w second 0)).set 3
      (w second 1)
    smir := r.img.smirs.getD k.val 0
    vmir := r.img.vmirs.getD k.val 0 }

/-- What a core holds for a context's logical core between runs (R222, R337). -/
def State.areaBank (s : State) (cx : BitVec 6) (n : Nat) : Bank :=
  match s.areas.find? fun a => a.1 == cx && a.2.1 == n with
  | some a => a.2.2
  | none => Bank.init

/-- The area's contents have moved into the core. -/
def State.takeArea (s : State) (cx : BitVec 6) (n : Nat) : State :=
  { s with areas := s.areas.filter fun a => !(a.1 == cx && a.2.1 == n) }

/-- The bank of a run at its entries: the context's rules, slots, streams, channels, record mode and joint count stay
(R222, R311); the counts of a rule's REPLAYs end with a run (R331). -/
def Bank.fresh (b : Bank) (r : Run) (second : DWord) : Bank :=
  { b with
    agents := Vector.ofFn fun k => r.agentAt second k
    eng := []
    held := 0
    firings := []
    rules := b.rules.map fun r => { r with replays := 0 }
    round := []
    pqwin := 0
    screen := 0
    run := some r
    pad := none }

/-- A partition's registers that take effect at an admission do, and the cores of the gang are noted (R399, R409). -/
def Part.admitted (p : Part) (wall : Nat) (members : List Nat) : Part :=
  { p with
    now := ⟨p.watchdog, p.guard, p.timer, if p.timer = p.now.timer then p.now.last else wall⟩
    ran := members.foldl (fun l c => if l.contains c then l else c :: l) p.ran }

/-- The record runs: its state is 3, its run count rises, its link names the gang's first area, and it has taken a model
(R305, R311, R312, R337, R392). DESIGN CHOICE, log 62. -/
def State.runRec (s : State) (r : SRec) (model : Option (BitVec 3)) : State :=
  let c := if r.resume.isSome then r.last else (0, 0)
  let s := s.wrNat (r.home + 0x30) 8 (s.areaOf r.ctx r.snap.origin)
  (s.moveRec r.ctx r.addr 3 c.1 c.2 1).mapRec r.ctx r.addr fun x =>
    { x with model := model, resume := none, replays := 0, reserves := false }

/-- Member `n` of a gang starts at its entries (R311). -/
def State.startRun (s : State) (r : SRec) (i : Image) (members : List Nat) (n : Nat) : State :=
  let run := s.newRun r i members n
  let b := (s.areaBank run.ctx run.logcore).fresh run r.addr
  let s := (s.takeArea run.ctx run.logcore).runRec r run.model
  { s with bank := b, phase := .running, turn := 0 }

/-- The rules whose firings are in progress (R223). -/
def Bank.firingRules (b : Bank) : List (BitVec 5) :=
  ((List.range 32).map (BitVec.ofNat 5)).filter fun r => (b.rule r).state == .firing

/-- Member `n` resumes from its save; the firings in progress come to their end before a round starts (R33, R223, R346, R347). -/
def State.resumeRun (s : State) (r : SRec) (members : List Nat) (n budget : Nat) : State :=
  let lc := r.snap.origin + n
  let b := s.areaBank r.ctx lc
  let run := b.run.map fun x => { x with members := members, budget := budget }
  let b := { b with run := run, held := b.eng.length, firings := b.firingRules }
  let s := ((s.takeArea r.ctx lc).unpackPad b).runRec r (run.bind (·.model))
  { s with
    engAt := if b.eng.isEmpty then s.engAt else max s.engAt s.restoreAt
    bank := { b with pad := none }.resumeAt s.pt
    phase := if (run.bind (·.ending)).isSome then .draining else .running
    turn := 0 }

/-- A gang is bound and starts or resumes (R62, R311). -/
def State.bindGang (s : State) (r : SRec) (i : Image) (spot : Spot) : State :=
  let members := (List.range r.snap.gang).map (memberCore i.levels spot)
  let n := s.memberAt i.levels r.snap.gang spot
  let s := { s with oracle := { s.oracle with place := s.oracle.place.drop 1 } }
  let s := s.mapPart (s.partOf r) fun p => p.admitted s.wall members
  match r.resume with
  | some b => s.resumeRun r members n b
  | none => s.startRun r i members n

/-! ## An admission that fails (R304) -/

/-- The bits that the run of a record has signalled before a stop, as its members' saves hold them; none before its first start
(R314, R315). -/
def State.signalledOf (s : State) (r : SRec) : BitVec 256 :=
  if r.resume.isNone then 0
  else s.areas.foldl (fun (m : BitVec 256) a =>
    match a.2.2.run with
    | some x => if x.ctx = r.ctx ∧ x.recAddr = r.addr then m ||| x.signalled else m
    | none => m) 0

/-- The trap-queue record of an admission (R304, R314, R334); its fault address is a free value. -/
def State.admitRecord (s : State) (r : SRec) (sub : Byte) (act : Act) (flags : Nat) : List Byte :=
  [0x0E, sub, BitVec.ofNat 8 (act.code + flags), r.ctx.setWidth 8, 0xFF, 0xFF, 0xFF, 0xFF]
    ++ bytesOf 8 r.addr.toNat ++ bytesOf 8 r.snap.code ++ bytesOf 8 0
    ++ (if act = .kill then bytesOf 32 (s.signalledOf r).toNat
        else bytesOf 8 (Config.freeAddr s.free).toNat ++ bytesOf 8 s.wall ++ bytesOf 8 0 ++ bytesOf 8 0)

/-- KILL of a record at admission (R304, R314, R330). -/
def State.admitKill (s : State) (r : SRec) (sub : Byte) (bad : Nat) : State :=
  let p := s.partOf r
  let s := s.fatalRecord p (s.admitRecord r sub .kill (4 + bad))
  let m := r.snap.setMask &&& ~~~s.signalledOf r
  ((s.setEvents r.ctx m m).moveRec r.ctx r.addr 6 0x0E sub 0).pump p

/-- PARK of a record at admission. -/
def State.admitPark (s : State) (r : SRec) (sub : Byte) (flags : Nat) : State :=
  (s.plainRecord (s.partOf r) (s.admitRecord r sub .park flags) none none).1.moveRec r.ctx r.addr 4 0x0E sub 0

/-- REPLAY of an admission: the record stays in the ready set and is tried again after a cycle; while its
trap-queue record is withheld it is parked (R304, R335). -/
def State.admitReplay (s : State) (r : SRec) (sub : Byte) (bad : Nat) : State :=
  match s.plainRecord (s.partOf r) (s.admitRecord r sub .replay bad) (some (r.ctx, r.addr)) none with
  | (s, true) =>
    s.emptyCycle.mapRec r.ctx r.addr fun x => { x with replays := x.replays + 1 }
  | (s, false) => s.moveRec r.ctx r.addr 4 0x0E sub 0

/-- The action of cause 0x0E on a record that fails its admission (R304, R330, R331). -/
def State.admitTrap (s : State) (r : SRec) (sub : Byte) : State :=
  let e := s.actionOf r.ctx 0x0E
  let bad := if e.bad then 16 else 0
  let s := { s with free := s.free + 2 }
  match e.act with
  | .kill => s.admitKill r sub bad
  | .replay =>
    if e.limit ≠ 0 ∧ e.limit < r.replays + 1 then s.admitPark r sub (bad + 8) else s.admitReplay r sub bad
  | .park => s.admitPark r sub bad
  | .forward =>
    match s.forward (s.partOf r) e.handler (s.admitRecord r sub .forward bad) with
    | .ok s' => s'.moveRec r.ctx r.addr 4 0x0E sub 0
    | .error s' => s'.admitPark r sub (bad + 32)

/-! ## Selection (R309) -/

/-- The core can take the record: it places its gang here, or finds that the admission of a record of its own die fails (R304,
R309). -/
def State.placeable (s : State) (r : SRec) : Bool :=
  match s.admission r.ctx r.snap with
  | .ok i => (s.spotHere r i).isSome
  | .error _ => r.die == s.die

/-- The dies of a partition's ready records, the core's own first. -/
def State.readyDies (s : State) (p : BitVec 4) : List Nat :=
  (s.die :: (s.recs.filter fun r => s.partOf r == p).map (·.die)).eraseDups

/-- What the core may be given of a partition from a die's ready set: one of the 8 smallest keys that it can place, but none that
would overtake a record for the eighth time (R309). From another die's it may be given gangs that extend over its own (R317). -/
def State.candidatesOn (s : State) (p : BitVec 4) (die : Nat) : List SRec :=
  let rs := ((s.readyOn p die).filter s.placeable).take 8
  rs.take (rs.findIdx (fun r => decide (7 ≤ r.passed)) + 1)

/-- What the core may be given of a partition (R309): while it is reserved for gangs, one of these alone (R310). -/
def State.candidates (s : State) (p : BitVec 4) : List SRec :=
  if (s.reservedFor p).isEmpty then (s.readyDies p).flatMap (s.candidatesOn p)
  else (s.reservedFor p).filter s.placeable

/-- The partition holds its core cap on the die (R401). -/
def State.atCap (s : State) (p : BitVec 4) : Bool :=
  let n := (s.taken.filter fun c => c.1 / 64 == s.die && c.2 == p).length
  decide (0 < n) && decide (s.parts[p.toNat].cap ≤ n)

/-- The partition that the die picks (R309, R401). -/
def State.pickPart (s : State) : Option (BitVec 4) :=
  ((List.range 16).map (BitVec.ofNat 4)).foldl (fun best p =>
    if s.atCap p || (s.candidates p).isEmpty then best
    else
      match best with
      | some q => if s.fairer p q then some p else some q
      | none => some p) none

/-- The records that the selected one overtakes are counted (R309). -/
def State.overtake (s : State) (rs : List SRec) (r : SRec) : State :=
  { s with recs := s.recs.map fun q =>
      if rs.contains q && q.die == r.die && q.before r then { q with passed := q.passed + 1 } else q }

/-- An idle core asks the ready set: the partition by share, then one of the smallest keys (R309, R310, R401). -/
def State.selectGang (s : State) : State :=
  match s.pickPart with
  | none => s
  | some p =>
    let rs := s.candidates p
    let c := s.oracle.choose rs.length
    match rs[c.1]? with
    | none => s
    | some r =>
      let s := { s with oracle := c.2 }.overtake rs r
      match s.admission r.ctx r.snap with
      | .error sub => s.admitTrap r sub
      | .ok i =>
        match s.spotHere r i with
        | some spot => s.bindGang r i spot
        | none => s

/-- `gangSelect` (R309). -/
def execGangSelect (s : State) : Host.Outcome State Fault Refusal :=
  .next (if s.phase = .idle then s.selectGang else s)

/-! ## The end of a run (R313) -/

/-- The run has drained: results have landed, engine, copies, outputs and the round's firings are done (R313). -/
def Bank.drained (b : Bank) : Bool :=
  b.agents.toList.all (·.latches.isEmpty) && b.eng.isEmpty && b.round.isEmpty
    && b.rules.toList.all (fun r => r.state != .firing && r.fired.isNone)
    && b.chans.toList.all (fun c => c.queue.isEmpty && c.started.isEmpty && c.faults.isEmpty)
    && b.streams.toList.all (·.outq.isEmpty)

/-- The lowest agent with a deferred error. -/
def Bank.owing (b : Bank) : Option AgentId := (List.finRange 5).find? fun k => !(b.agents[k]).deferred.isEmpty

/-- A deferred error that the end of a run finds is raised at its agent's boundary (R147, R313). -/
def State.endDeferred (s : State) (k : AgentId) : State :=
  match (s.agent k).deferred with
  | d :: ds =>
    let t := { s.trapAt d.cause (BitVec.ofNat 8 (0x40 + 16 * d.kind.toNat + d.lane.toNat)) d.addr with
      agent := k, pc := (s.agent k).pc, resume := (s.agent k).pc, deferred := true }
    (s.mapAgent k fun a => { a with deferred := ds }).takeTrap t
  | [] => s

/-- `yield`: the record is pushed again at once, its deadline replaced where A is not zero (R313). -/
def State.repush (s : State) (r : Run) (d : DWord) : State :=
  match s.findRec r.ctx r.recAddr with
  | none => s
  | some _ =>
    let s := (s.moveRec r.ctx r.recAddr 2 0 0 0).mapRec r.ctx r.recAddr fun x =>
      { x with
        snap := if d = 0 then x.snap else { x.snap with deadline := d }
        order := s.pushes
        passed := 0
        resume := none
        replays := 0
        model := none
        begun := false }
    { s with pushes := s.pushes + 1 }

/-- `slend`: the set mask's bits are set and the record is done (R313). -/
def State.finishRec (s : State) (r : Run) : State :=
  let c := match s.findRec r.ctx r.recAddr with
    | some x => x.last
    | none => (0, 0)
  ((s.setEvents r.ctx r.snap.setMask 0).moveRec r.ctx r.recAddr 5 c.1 c.2 0).pump r.part

/-- The kind of the gang's end: that of logical member 0 (R313). A member whose outside has not given member 0's kind stands
for it. DESIGN CHOICE, log 1. -/
def Run.endKind (r : Run) : Option DWord :=
  let own := r.ending.getD none
  if r.logcore = r.snap.origin then own else r.kind.getD own

/-- The drained run ends by the gang's kind; every write has been performed (R313). -/
def State.endRun (s : State) (r : Run) : State :=
  let s := match r.endKind with
    | some d => s.repush r d
    | none => s.finishRec r
  { s with phase := .saving .done }

/-- `gangEnd`: once the core has drained, the writes that are left are performed; then a deferred error is raised, or the run ends
with the gang's (R313). -/
def execGangEnd (s : State) : Host.Outcome State Fault Refusal :=
  .next
    (match s.bank.run with
    | some r =>
      if s.phase = .draining ∧ s.bank.drained then
        let s := s.quiesce
        match s.bank.owing with
        | some k => s.endDeferred k
        | none => if r.behind then s else s.endRun r
      else s
    | none => s)

end Sys2Proof.Machine
end

