-- ==== Sys2Proof/Machine/Switch.lean ====
section
/-! DEFINITION. Requests, switches and saves: service requests (R341, R344, R408), stop requests (R343, R403), the switch to
and from the shadow bank (R32, R33), the context-save engine (R345), and the traps of the watchdog, the budget and the
machine check (R312, R328, R332). -/

namespace Sys2Proof.Machine

/-! ## The switch of R32 -/

/-- Cycles of a switch (R32). -/
def switchCycles : Nat := 48

/-- The frame of a switch: cause and subcode of the request, reported at C0's boundary (R32, R338). -/
def State.switchTrap (s : State) (cause sub : Byte) : TrapReq :=
  { s.trapAt cause sub 0 with agent := 0, pc := (s.agent 0).pc, resume := (s.agent 0).pc }

/-- The switch begins: the frame is written and the context's results are counted from the stop point (R32, R341, R343). A
cluster whose locked bundle has issued, while another's waits, keeps that (R22).
`action`: 4 stop, 5 service; `again`: the request is re-posted. -/
def State.beginSwitch (s : State) (a : After) (cause sub : Byte) (action : Nat) (drained again : Bool) : State :=
  match s.bank.run with
  | none => s
  | some r =>
    let s := s.quiesce.settleSr
    let flags := 4 * bit drained + 8 * bit again
    let s := s.writeFrame r (s.switchTrap cause sub) flags action r.replays
    { (s.mapBank fun b => b.suspend (fun _ => s.pt) fun a => a.locked == some s.pt).thawed with phase := .switching a switchCycles }

/-! ## Service requests (R341, R408) -/

/-- The record of a service slice that can start at once: of gang size 1, not held, and admitted (R341, R408). -/
def State.svcStart (s : State) (p : BitVec 4) : Option (BitVec 6 × DWord × Nat × List Byte × Image) :=
  match s.svcRecord p with
  | none => none
  | some (sv, va, key, bs) =>
    if recordStatus bs (decide (8192 ≤ s.storeCount s.die)) ≠ 0 ∨ fieldOf bs 0x22 2 ≠ 1 then none
    else
      match s.admission sv (s.snapOf sv bs) with
      | .ok i => some (sv, BitVec.ofNat 64 va, key, bs, i)
      | .error _ => none

/-- A request is taken, or dropped with bit 7 set (R341, R408). -/
def State.takeService (s : State) (p : BitVec 4) (sub : Byte) (again : Bool) : State :=
  match s.svcStart p with
  | some _ => s.beginSwitch (.service p sub) 0x17 sub 5 false again
  | none => s.dropRequest p

/-- The fault of a walk that has failed is older than a request: its bundle is to issue, and traps (R32, R344). -/
def State.faultFirst (s : State) : Bool := (s.walk.any fun w => w.bad.isSome) && s.cur.waiting.isNone

/-- The core stands at a boundary of a run that a request may interrupt: no freeze, no service slice, no bundle that a
REPLAY still owes, no older fault (R32, R344). -/
def State.atBoundary (s : State) : Bool :=
  s.phase == .running && s.turn == 0 && s.freezes.isEmpty && !s.serving && s.reissue.isNone && !s.faultFirst
    && s.bank.run.isSome

/-- A stop of a run that does not drain, or that has drained (R34, R104, R343). -/
def State.stopNow (s : State) (drained : Bool) : State :=
  { s with stopPend := false, reposted := false }.beginSwitch .ready 0x18 0 4 drained s.reposted

/-- The innermost level is the one that a stop request drains (R104). -/
def markDrain : List LoopLvl → List LoopLvl
  | [] => []
  | l :: ls => { l with drain := true } :: ls

/-- A cluster takes a stop request: it drains its innermost level, or it stops (R104). -/
def State.stopAgent (s : State) (can : Bool) : Agent → Agent := fun a =>
  if can && !a.halted && s.drainable a then { a with draining := true, loops := markDrain a.loops }
  else { a with stopped := true }

/-- The clusters that drain at a stop request (R104, R315). -/
def State.drainers (s : State) (r : Run) : List AgentId :=
  [0, 1, 2, 3].filter fun k => r.snap.drainable && !(s.agent k).halted && s.drainable (s.agent k)

/-- A stop request is taken (R104, R343). DEDUCED, log 43. -/
def State.takeStop (s : State) (r : Run) : State :=
  if (s.drainers r).isEmpty then s.stopNow false
  else
    let t := [0, 1, 2, 3].foldl (fun (t : State) k => t.mapAgent k (s.stopAgent r.snap.drainable)) s
    { t with phase := .stopping, stopPend := false }

/-- Every cluster of a draining core has stopped or halted (R104). -/
def State.allStopped (s : State) : Bool :=
  [0, 1, 2, 3].all fun (k : AgentId) => (s.agent k).stopped || (s.agent k).halted

/-! ## Another member's trap (R327, R344) -/

/-- The areas of a gang that another member's trap has killed are held as the gang's record holds them (R337). DESIGN CHOICE,
log 63. -/
def State.holdGang (s : State) (r : Run) : State := s.holdAreas r s.parts[r.part.toNat].stopped

/-- This core stops as a member of a gang whose trap another member has taken: its frame has flag bit 6, the trap's cause and
its action, it writes no trap-queue record, and it is discarded or saved (R327, R338). -/
def State.memberStop (s : State) (r : Run) (cause sub : Byte) (act : Act) : State :=
  let s := s.quiesce
  let t := s.switchTrap cause sub
  let s := s.writeFrame r t 64 act.code (r.replaysAt t.pc)
  if act = .kill then (s.holdGang r).doKill r t else s.doPark t

/-- A frame that the switch has written becomes that of a member's stop: its header's first bytes change (R327, R338).
DESIGN CHOICE, log 63. -/
def State.restamp (s : State) (r : Run) (cause sub : Byte) (act : Act) : State :=
  s.wr (s.frameOf r) [cause, sub, 0, 64, 0xFF, BitVec.ofNat 8 act.code]

/-- The same while this core serves: the context in its shadow bank is discarded, or the context-save engine begins to save it,
and the service slice goes on (R344). -/
def State.shadowStop (s : State) (b : Bank) (r : Run) (cause sub : Byte) (act : Act) : State :=
  let s := s.restamp r cause sub act
  if act = .kill then
    let s := s.holdGang r
    let tag := s.free + 1
    let base := padKey s.coreId 0
    let s := (s.killEvents r).moveRec r.ctx r.recAddr 6 cause sub 0
    { s with
      free := tag
      mem := s.mem.forget base (base + 2 ^ 21) tag
      shadow := some { b.killed tag with run := some { r with dropped := true } } }
  else { s with shadow := some { b with run := some { r with parked := some (cause, sub) } } }

/-- The same while a stop request has the core switch or save: what follows the save is that of the gang's trap (R327, R343). -/
def State.laterStop (s : State) (r : Run) (cause sub : Byte) (act : Act) (ph : Phase) : State :=
  let s := s.restamp r cause sub act
  if act = .kill then (s.holdGang r).doKill r (s.switchTrap cause sub) else { s with phase := ph }

/-- The stop of a gang's trap reaches the core at its boundary, or finds its context in the shadow bank (R327, R344). -/
def State.gangBoundary (s : State) : Option State :=
  match s.gangStop with
  | none => none
  | some (cause, sub, act) =>
    let t := { s with gangStop := none }
    if s.serving then
      match s.shadow with
      | some b => b.run.map fun r => if r.dropped || r.parked.isSome then t else t.shadowStop b r cause sub act
      | none => some t
    else
      match s.phase with
      | .running | .draining | .stopping =>
        if s.turn = 0 ∧ s.freezes.isEmpty then s.bank.run.map fun r => t.memberStop r cause sub act else none
      | .switching .back _ | .switching (.service _ _) _ => none
      | .switching .ready n => s.bank.run.map fun r => t.laterStop r cause sub act (.switching (.park cause sub) n)
      | .saving .ready => s.bank.run.map fun r => t.laterStop r cause sub act (.saving (.park cause sub))
      | _ => some t

/-- The core in the midst of a cycle in which another member's trap has reached it, and a bundle of it has a fault: the bundle is
discarded, and the core stops as a member, since that trap writes the gang's one record (R326, R327). -/
def State.memberHere (s : State) : Option State :=
  match s.gangStop with
  | some (cause, sub, act) =>
    if s.serving then none else s.bank.run.map fun r => { s with gangStop := none }.memberStop r cause sub act
  | none => none

/-- A doorbell request enters its die's queue, or is dropped with bit 7 set when it is full (R408); during a reset it waits
there (R410). -/
def State.queueDoorbell (s : State) (p : BitVec 4) (die : Nat) (sub : Byte) : State :=
  if 64 ≤ (s.parts[p.toNat].doorbells.filter fun d => d.1 == die).length then s.dropRequest p
  else (s.mapPart p fun x => { x with doorbells := x.doorbells ++ [(die, sub)] }).pump p

/-- A request that finds no context of the partition on its core: a doorbell's enters the queue, the timer's is missed (R408). -/
def State.queueRequest (s : State) (p : BitVec 4) (sub : Byte) : State :=
  if 0x80 ≤ sub then s else s.queueDoorbell p s.die sub

/-- An idle core for which there is no work serves a request that it still holds without the context that has left it: the
request is taken as one that finds no context (R344, R369, R408). DESIGN CHOICE, log 42. -/
def State.idleRequest (s : State) : Option State :=
  if s.phase = .idle ∧ s.pickPart.isNone then
    (s.svcPend.find? fun q => !s.parts[q.1.toNat].resetting).map fun q =>
      { s with svcPend := s.svcPend.erase q }.queueRequest q.1 q.2.1
  else none

/-- What a boundary does: another member's trap, then a drained stop switches, a pending stop is taken first, then the oldest
service request whose partition is not resetting (R104, R327, R344, R410). -/
def State.ownBoundary (s : State) : Option State :=
  if s.phase = .stopping ∧ s.turn = 0 ∧ s.freezes.isEmpty ∧ s.allStopped then some (s.stopNow true)
  else if s.atBoundary then
    match s.bank.run with
    | none => none
    | some r =>
      if s.stopPend then some (s.takeStop r)
      else
        match s.svcPend.find? fun q => !s.parts[q.1.toNat].resetting with
        | some q => some ({ s with svcPend := s.svcPend.erase q }.takeService q.1 q.2.1 q.2.2)
        | none => none
  else s.idleRequest

/-- See `ownBoundary`. -/
def State.boundary (s : State) : Option State :=
  match s.gangBoundary with
  | some t => some t
  | none => s.ownBoundary

/-- Posts a service request to the core; one that comes during a reset of its partition is taken after it, when no core runs the
partition (R410). DEDUCED, log 42. -/
def State.postService (s : State) (p : BitVec 4) (sub : Byte) : State :=
  if s.parts[p.toNat].resetting then s.queueRequest p sub else { s with svcPend := s.svcPend ++ [(p, sub, false)] }

/-- `serviceRequest`: a request for the partition that the core runs; it is taken at a bundle boundary (R341, R344). -/
def execServiceRequest (sub : Byte) (s : State) : Host.Outcome State Fault Refusal :=
  let s := if s.bank.run.isSome then s.postService s.part sub else s
  .next (s.boundary.getD s)

/-- A stop request can reach the core's gang: it runs, serves, or is between the two (R343, R344). -/
def Phase.stoppable : Phase → Bool
  | .running | .switching .back _ | .switching (.service _ _) _ => true
  | _ => false

/-- A stop request reaches a core that runs a gang (R343). -/
def State.postStop (s : State) : State :=
  if s.bank.run.isSome && s.phase.stoppable then { s with stopPend := true } else s

/-- `stopRequest` (R315, R343). -/
def execStopRequest (s : State) : Host.Outcome State Fault Refusal :=
  let s := s.postStop
  .next (s.boundary.getD s)

/-! ## Stops that the scheduler sends (R403) -/

/-- A record's budget as the scheduler knows it (R312). -/
def SRec.left (r : SRec) : Nat := r.resume.getD r.snap.budget

/-- The head of the partition's ready set would miss its deadline, and the run's deadline is later (R403). -/
def State.missesDeadline (s : State) (r : Run) : Bool :=
  let p := s.parts[r.part.toNat]
  p.preDeadlines && match s.readyOf r.part with
  | h :: _ =>
    decide ((h.snap.deadline.toNat : Int) - s.wall - h.left < p.now.guard)
      && decide (h.snap.deadline.toNat < r.snap.deadline.toNat)
  | [] => false

/-- Sum of the weights of the partitions with ready or running work on the die (R403). -/
def State.weights (s : State) (r : Run) : Nat :=
  (List.range 16).foldl (fun n p =>
    if !(s.readyOf (BitVec.ofNat 4 p)).isEmpty || r.part.toNat == p
        || s.taken.any fun c => c.1 / 64 == s.die && c.2.toNat == p then n + (s.parts.getD p Part.init).weight else n) 0

/-- Another partition has a ready record that no core of the die can take, and the run's partition may be pre-empted and holds
more than its share (R403). -/
def State.exceedsShare (s : State) (r : Run) : Bool :=
  let q := s.parts[r.part.toNat]
  q.preShares
    && (List.range 16).any (fun p => p != r.part.toNat
      && (s.readyOf (BitVec.ofNat 4 p)).any (s.unplaceable r.members))
    && decide (64 * q.weight / s.weights r < s.coresOf r.part.toNat)

/-- The scheduler would stop the core's run (R403); at most one stop request is outstanding. -/
def State.wantsStop (s : State) : Bool :=
  match s.bank.run with
  | some r =>
    s.phase == .running && !s.serving && !s.stopPend && (s.missesDeadline r || s.exceedsShare r)
  | none => false

/-- `stopForShares`: the scheduler sends a stop request where a case of R403 holds. -/
def execStopForShares (s : State) : Host.Outcome State Fault Refusal :=
  .next (if s.wantsStop then s.postStop else s)

/-! ## The switch completes (R32, R33, R341) -/

/-- The context that a switch was to interrupt goes on (R33). -/
def State.goOn (s : State) : State := { s.mapBank (·.resumeAt s.pt) with phase := .running, turn := 0 }

/-- The service slice starts in the active bank; the interrupted context stays in the shadow bank (R341). One whose partition is
being reset does not start: its request waits (R409, R410). -/
def State.startService (s : State) (p : BitVec 4) (sub : Byte) : State :=
  if s.parts[p.toNat].resetting then (s.queueRequest p sub).goOn
  else
  match s.svcStart p, s.bank.run with
  | some (sv, va, key, bs, i), some q =>
    let s := (s.enqueue sv va key s.die bs (some sub)).mapRec sv va fun x => { x with state := 2 }
    match s.findRec sv va with
    | none => s
    | some r =>
      let run := { s.newRun r i [s.coreId] 0 with interrupts := true }
      let frame := BitVec.ofNat 64 (s.frameOf q)
      let b := (s.areaBank sv run.logcore).fresh run frame
      let old := s.bank
      let s := (s.takeArea sv run.logcore).runRec r run.model
      { s with bank := b, shadow := some old, phase := .running, turn := 0 }
  | _, _ => (s.dropRequest p).goOn

/-- The service slice has ended, or is parked and saved: its bank goes to its area (R58, R222, R341, R342). -/
def State.endService (s : State) : State :=
  match s.bank.run with
  | none => s
  | some r =>
    match s.findRec r.ctx r.recAddr with
    | some x =>
      if x.state ≠ 3 then
        let b := { s.bank with run := some { r with interrupts := false } }
        ((s.stow r.ctx r.logcore (s.packBank b)).mapRec r.ctx r.recAddr fun x => { x with resume := some r.budget })
      else
        let c := x.last
        ((s.stow r.ctx r.logcore { s.bank with run := none, pad := none }).moveRec r.ctx r.recAddr 5 c.1 c.2 0).pump r.part
    | none => (s.stow r.ctx r.logcore { s.bank with run := none, pad := none }).pump r.part

/-- The bank's context has been saved from the shadow bank and has left the core (R344). -/
def Bank.away (b : Bank) : Bool := b.run.any fun r => r.dropped && r.parked.isSome

/-- The interrupted context resumes, or its discarded bank is left to its copies; one that another member's trap has parked
is saved, or has left the core (R33, R341, R344, R409). -/
def State.swapIn (s : State) (b : Bank) : State :=
  let gone := (b.run.map (·.dropped)).getD true
  let s := { s with shadow := none, turn := 0 }
  if b.away then { s with bank := Bank.init, phase := .saving .done }
  else if gone then { s with bank := b, phase := .saving .kill }
  else
    match b.run.bind (·.parked) with
    | some c => { s with bank := b, phase := .saving (.park c.1 c.2) }
    | none =>
      { s with
        bank := b.resumeAt s.pt
        phase := if (b.run.bind (·.ending)).isSome then .draining else .running }

/-- The 48 cycles are over. -/
def State.switchDone (s : State) (a : After) : State :=
  match a with
  | .service p sub => s.startService p sub
  | .back =>
    match s.shadow with
    | some b => s.endService.swapIn b
    | none => s.endService.goIdle
  | a => { s with phase := .saving a }

/-- `contextSwitchComplete` (R32). -/
def execContextSwitchComplete (s : State) : Host.Outcome State Fault Refusal :=
  .next
    (match s.phase with
    | .switching a 0 => s.switchDone a
    | _ => s)

/-! ## The save completes (R345) -/

/-- Started copies, handed-over outputs and the engine operation that a stop lets complete are done (R345). -/
def Bank.quiet (b : Bank) : Bool :=
  b.chans.toList.all (·.started.isEmpty) && b.streams.toList.all (·.outq.isEmpty) && !b.headCompletes

/-- The save of a bank can be complete: no copy into or out of the core's scratchpad is left either (R345). -/
def State.saveQuiet (s : State) (b : Bank) : Bool := b.quiet && s.board.isEmpty

/-- A run is saved: its bank, footprint and budget (R312, R345). -/
def State.saveRun (s : State) (b : Bank) (r : Run) (st : Nat) (cause sub : Byte) : State :=
  let b := s.packBank b
  let b := { b with run := b.run.map fun (x : Run) => { x with parked := none } }
  ((s.stow r.ctx r.logcore b).moveRec r.ctx r.recAddr st cause sub 0).mapRec r.ctx r.recAddr fun x =>
    { x with resume := some r.budget }

/-- The interrupted run that another member's trap has parked, while the context-save engine saves it: with cause and subcode
(R344). -/
def State.shadowParked (s : State) : Option (Bank × Run × Byte × Byte) :=
  s.shadow.bind fun b => b.run.bind fun r => if r.dropped then none else r.parked.map fun c => (b, r, c)

/-- Its save is complete. -/
def State.shadowSaves (s : State) : Bool := s.shadowParked.any fun x => s.saveQuiet x.1

/-- Its record is parked, and the service slice goes on over a context that has left the core (R344). -/
def State.saveShadow (s : State) : State :=
  match s.shadowParked with
  | some (b, r, c) =>
    { s.saveRun b r 4 c.1 c.2 with shadow := some { Bank.init with run := some { r with dropped := true } } }
  | none => s

/-- What stays of a run that has ended: the context's rules, slots, streams and channels (R222). -/
def State.keepArea (s : State) (r : Run) : State :=
  s.stow r.ctx r.logcore { s.packBank s.bank with run := none, pad := none }

/-- What stays of a run that has been killed: its accumulators are undefined (R330). -/
def State.leaveArea (s : State) (r : Run) : State := s.stow r.ctx r.logcore { s.bank with run := none, pad := none }

/-- Every save is complete: the core passes on (R345). -/
def State.saveDone (s : State) (a : After) (r : Run) : State :=
  match a with
  | .park c sub => (s.saveRun s.bank r 4 c sub).goIdle
  | .ready =>
    let c := match s.findRec r.ctx r.recAddr with
      | some x => x.last
      | none => (0, 0)
    (s.saveRun s.bank r 2 c.1 c.2).goIdle
  | .kill => ((s.leaveArea r).goIdle).pump r.part
  | .done => (s.keepArea r).goIdle
  | _ => s

/-- `contextSaveComplete` (R344, R345). -/
def execContextSaveComplete (s : State) : Host.Outcome State Fault Refusal :=
  .next
    (if s.shadowSaves then s.saveShadow
    else
      match s.phase, s.bank.run with
      | .saving a, some r => if s.saveQuiet s.bank then s.saveDone a r else s
      | .saving _, none => s.goIdle
      | _, _ => s)

/-! ## Watchdog, budget, machine check (R312, R328, R332) -/

/-- The watchdog interval in force for the core's run, in cycles; 0: off (R399). -/
def State.watchInterval (s : State) : Nat := 1024 * (s.parts[s.part.toNat]).now.watchdog

/-- The agent has waited at issue for the interval (R328). -/
def State.overdue (s : State) (k : AgentId) : Bool :=
  match (s.agent k).waiting with
  | some (_, since) => decide (s.watchInterval ≠ 0) && decide (since + s.watchInterval ≤ s.wall)
  | none => false

/-- The agents that have waited too long, lowest first (R326). -/
def State.overdueAgents (s : State) : List AgentId := (List.finRange 5).filter s.overdue

/-- The trap of an agent at its boundary. DEDUCED, log 41. -/
def State.agentTrap (s : State) (k : AgentId) (cause : Byte) (redo : Redo) : TrapReq :=
  { s.trapAt cause 0 0 with agent := k, pc := (s.agent k).pc, resume := (s.agent k).pc, redo := redo }

/-- `watchdog` (R328). -/
def execWatchdog (s : State) : Host.Outcome State Fault Refusal :=
  .next
    (match s.overdueAgents with
    | k :: _ => s.takeTrap (s.agentTrap k 0x19 .watch)
    | [] => s)

/-- The run's budget is exhausted, and the core is the gang's lowest logical member, which takes the trap for the gang (R312,
R327). -/
def Run.spent (r : Run) : Bool := r.budget == 0 && r.logcore == r.snap.origin

/-- `budgetExhausted`: cause 0x0C, reported at C0's boundary (R312, R326). -/
def execBudgetExhausted (s : State) : Host.Outcome State Fault Refusal :=
  .next (if s.bank.run.any Run.spent then s.takeTrap (s.agentTrap 0 0x0C .budget) else s)

/-- `machineCheck` (R332). -/
def execMachineCheck (sub : Byte) (s : State) : Host.Outcome State Fault Refusal := .next (s.machineCheck sub)

/-! ## The service timer and withheld records (R335, R408) -/

/-- The service timer's period has expired (R408). -/
def State.timerDue (s : State) (p : BitVec 4) : Bool :=
  let x := s.parts[p.toNat]
  x.enabled && decide (x.now.timer ≠ 0) && decide (x.now.last + x.now.timer ≤ s.wall)

/-- The core runs a context of the partition, in its active or its shadow bank. -/
def State.runsPart (s : State) (p : BitVec 4) : Bool :=
  (s.bank.run.map fun r => r.part == p).getD false
    || ((s.shadow.bind (·.run)).map fun r => r.part == p).getD false

/-- The modelled core is the lowest-numbered that runs the partition, of its gang and of the cores that the outside has named
(R408). -/
def State.lowestOf (s : State) (p : BitVec 4) : Bool :=
  let own := fun (b : Bank) => (b.run.map fun r => if r.part == p then r.members else []).getD []
  let all := own s.bank ++ (s.shadow.map own).getD [] ++ (s.taken.filter fun c => c.2 == p).map (·.1)
  !all.any fun c => decide (c < s.coreId)

/-- `serviceTimer`: one request per period, to the lowest-numbered core that runs the partition; missed periods are not queued
(R408). -/
def execServiceTimer (part : BitVec 4) (s : State) : Host.Outcome State Fault Refusal :=
  .next
    (if s.timerDue part then
      let n := s.parts[part.toNat].now
      let s := s.mapPart part fun p =>
        { p with now := { n with last := n.last + n.timer * ((s.wall - n.last) / n.timer) } }
      if s.runsPart part && s.lowestOf part then s.postService part 0x80 else s
    else s)

/-- Changes the bank of a context's logical core, wherever it stands (R222). -/
def State.mapBankOf (s : State) (cx : BitVec 6) (n : Nat) (f : Bank → Bank) : State :=
  let at' := fun (b : Bank) => (b.run.map fun r => r.ctx == cx && r.logcore == n).getD false
  if at' s.bank then s.mapBank f
  else if (s.shadow.map at').getD false then { s with shadow := s.shadow.map f }
  else { s with areas := s.areas.map fun a => if a.1 == cx && a.2.1 == n then (a.1, a.2.1, f a.2.2) else a }

/-- The core saves the run of a record that its trap has parked (R345). -/
def State.parking (s : State) (cx : BitVec 6) (addr : DWord) : Bool :=
  (s.bank.run.map fun r => r.ctx == cx && r.recAddr == addr).getD false &&
    match s.phase with
    | .saving (.park _ _) => true
    | _ => false

/-- A parked slice goes back into the ready set, or will once its save is complete (R335, R345). -/
def State.releaseSlice (s : State) (cx : BitVec 6) (addr : DWord) : State :=
  match s.findRec cx addr with
  | some x =>
    if x.state = 4 then s.moveRec cx addr 2 x.last.1 x.last.2 0
    else if s.parking cx addr then { s with phase := .saving .ready }
    else s
  | none => s

/-- What the writing of a withheld record releases: a parked slice, or a parked rule (R335). -/
def State.releaseHeld (s : State) (w : Withheld) : State :=
  let s := match w.slice with
    | some (cx, addr) => s.releaseSlice cx addr
    | none => s
  match w.rule with
  | some (cx, n, r) =>
    s.mapBankOf cx n fun b => b.mapRule r fun x => if x.state = .parked then { x with state := .armed } else x
  | none => s

/-- A withheld record may be written: free exceeds 8 (R335). -/
def State.withheldDue (s : State) (p : BitVec 4) : Bool :=
  match s.parts[p.toNat].withheld with
  | _ :: _ => decide (8 < s.queueFree p)
  | [] => false

/-- `withheldRecordWrite`: the oldest withheld record is written and releases what it held (R335). -/
def execWithheldRecordWrite (part : BitVec 4) (s : State) : Host.Outcome State Fault Refusal :=
  .next
    (if s.withheldDue part then
      match s.parts[part.toNat].withheld with
      | w :: ws =>
        let s := (s.mapPart part fun p => { p with withheld := ws }).writeRecord part w.bytes
        let a := s.parts[part.toNat].ctl + 12
        (s.wrNat a 4 (s.rdNat a 4 - 1)).releaseHeld w
      | [] => s
    else s)

end Sys2Proof.Machine
end

