-- ==== Sys2Proof/Machine/Partition.lean ====
section
/-! DEFINITION. The register blocks of partitions and contexts (R398 to R400), doorbells (R408), invalidation commands (R406)
and partition reset (R409, R410). -/

namespace Sys2Proof.Machine

/-- A write that breaks a limit sets bit 7 of the partition's control register (R398). -/
def State.writeErr (s : State) (p : BitVec 4) : State := s.mapPart p fun x => { x with writeErr := true }

/-! ## Control bits (R399) -/

/-- Bit 0 of a partition's control register; the counts of R401 begin when it is enabled. -/
def State.enable (s : State) (p : BitVec 4) (on : Bool) : State :=
  s.mapPart p fun x =>
    if on && !x.enabled then
      { x with enabled := true, used := 0, now := { x.now with last := s.wall } }
    else { x with enabled := on }

/-- `partitionEnable` (R399). -/
def execPartitionEnable (part : BitVec 4) (on : Bool) (s : State) : Host.Outcome State Fault Refusal :=
  .next (s.enable part on)

/-- `writeErrorClear` (R398). -/
def execWriteErrorClear (part : BitVec 4) (s : State) : Host.Outcome State Fault Refusal :=
  .next (s.mapPart part fun x => { x with writeErr := false })

/-! ## Partition reset (R409) -/

/-- What steps 2 to 4 leave of a bank: no results, no engine operation, no rule, slot or stream, no unstarted copy; started
copies run on. -/
def Bank.resetBank (b : Bank) : Bank :=
  { b with
    agents := b.agents.map fun _ => Agent.init
    eng := []
    held := 0
    firings := []
    round := []
    streams := b.streams.map fun _ => Strm.init
    slots := b.slots.map fun _ => OSlot.init
    rules := b.rules.map fun r => if r.state = .idle then r else { r with state := .revoked, fired := none, streams := [] }
    chans := b.chans.map Chan.discard
    run := b.run.map fun r => { r with dropped := true, parked := none }
    pad := none }

/-- The bank's run is the partition's. -/
def Bank.isOf (b : Bank) (p : BitVec 4) : Bool := (b.run.map fun r => r.part == p).getD false

/-- The core is already on its way back to the interrupted context. -/
def Phase.returning : Phase → Bool
  | .switching .back _ => true
  | _ => false

/-- Step 2 on a service slice of the partition: it is discarded and the core swaps back; the interrupted context, if it has not
left the core, follows if it is the partition's too. -/
def State.resetServing (s : State) (p : BitVec 4) (b : Bank) : State :=
  let s := { s with shadow := some (if b.isOf p && !b.away then b.resetBank else b) }
  if s.bank.isOf p then
    let t := { s.quiesce with bank := s.bank.resetBank }
    if s.phase.returning then t else t.swapBack
  else s

/-- Step 2 on the core: a running gang of the partition stops, and its results are discarded. -/
def State.resetCore (s : State) (p : BitVec 4) : State :=
  match s.shadow with
  | some b => s.resetServing p b
  | none =>
    if s.bank.isOf p then
      { s.quiesce.thawed with
        bank := s.bank.resetBank
        phase := .saving .kill
        srPend := []
        turn := 0 }
    else s

/-- The partition's records are dropped, their status states 6 with cause 0 (R409). -/
def State.dropRecs (s : State) (p : BitVec 4) : State :=
  (s.recs.filter fun r => s.partOf r == p).foldl (fun (s : State) r => s.moveRec r.ctx r.addr 6 0 0 0) s

/-- Steps 3 and 4 on the areas of the partition's contexts. -/
def State.resetAreas (s : State) (p : BitVec 4) : State :=
  { s with areas := s.areas.map fun a =>
      if s.ctxs[a.1.toNat].part = p then (a.1, a.2.1, { a.2.2.resetBank with run := none }) else a }

/-- Requests that the core holds wait for the reset's end, when no core runs the partition: doorbells enter its queue and the
timer's are missed (R408, R410). -/
def State.requeue (s : State) (p : BitVec 4) : State :=
  (s.svcPend.filter fun q => q.1 == p).foldl (fun (s : State) q => s.queueRequest p q.2.1)
    { s with svcPend := s.svcPend.filter fun q => q.1 != p }

/-- A partition reset begins: a command of the partition that is in progress has returned by then (R393, R409 steps 1 to 4).
DEDUCED, log 48. -/
def State.beginReset (s : State) (p : BitVec 4) : State :=
  if s.parts[p.toNat].resetting then s
  else
    let s := (s.resolveCommand p).mapPart p fun x => { x with resetting := true }
    (((s.requeue p).dropRecs p).resetAreas p).resetCore p

/-- `partitionReset` (R409); a second write during a reset is ignored (R410). -/
def execPartitionReset (part : BitVec 4) (s : State) : Host.Outcome State Fault Refusal := .next (s.beginReset part)

/-- Accumulators of a bank zeroed (R409). -/
def Bank.zeroAccs (b : Bank) : Bank :=
  { b with accs := b.accs.map fun a => { a with elems := [], fill := none, poison := 0 } }

/-- Step 6 on the scratchpads of the cores that ran the partition, of gangs of the modelled core or as the outside has said, and on
the modelled core's accumulators (R409). -/
def State.zeroCores (s : State) (p : BitVec 4) : State :=
  let cores := s.parts[p.toNat].ran ++ (s.taken.filter fun c => c.2 == p).map (·.1)
  let m := cores.foldl (fun (m : Memory) c => m.forget (padKey c 0) (padKey (c + 1) 0) 0) s.mem
  { s with mem := m, bank := if cores.contains s.coreId then s.bank.zeroAccs else s.bank }

/-- Step 6 on the contexts of the partition: event vectors, bindings and joint counts. -/
def State.clearCtxs (s : State) (p : BitVec 4) : State :=
  { s with
    ctxs := s.ctxs.map fun c => if c.defined ∧ c.part = p then { c with ev := 0, err := 0, binds := [] } else c
    evSets := s.evSets.filter fun e => s.ctxs[e.1.toNat].part != p
    areas := s.areas.map fun a => if s.ctxs[a.1.toNat].part = p then (a.1, a.2.1, { a.2.2.zeroAccs with joint := 0 }) else a
    heldAreas := s.heldAreas.filter fun h => s.ctxs[h.1.toNat].part != p
    rels := s.rels.filter fun r => s.ctxs[r.ctx.toNat].part != p
    pqs := s.pqs.mapIdx fun i l => if (s.parts[p.toNat]).pqs.getLsbD i then [] else l }

/-- Steps 5 to 7 (R409): translations, scratchpads, contexts; then control bits 1 and 2 read 0, vector 3 is raised, and queued
requests are taken (R410). -/
def State.endReset (s : State) (p : BitVec 4) : State :=
  let s := ((s.invalidate p 2 0 0).zeroCores p).clearCtxs p
  let s := s.mapPart p fun x => { x with resetting := false, stopped := false, ran := [] }
  (s.raiseVector p 3).pump p

/-- A reset of the partition waits for nothing more: no run of it holds the core, every access with a dropped translation has
been performed, and no invalidation command of it is pending (R406, R409, R410). -/
def State.resetDue (s : State) (p : BitVec 4) : Bool :=
  s.parts[p.toNat].resetting && !s.parts[p.toNat].invBusy && !s.runsPart p && s.performed

/-- `partitionResetComplete` (R409, R410). -/
def execPartitionResetComplete (part : BitVec 4) (s : State) : Host.Outcome State Fault Refusal :=
  .next (if s.resetDue part then s.endReset part else s)

/-! ## Contexts (R400) -/

/-- The limits of a context block's fields. -/
def Ctx.limits (c : Ctx) : Bool :=
  decide (c.root % 4096 = 0) && decide (c.action % 64 = 0) && decide (c.masks % 64 = 0) && decide (c.save % 64 = 0)
    && decide (1 ≤ c.areas) && decide (c.areas ≤ 1536)
    && decide (c.stride % 4096 = 0) && decide (68 * 1024 ≤ c.stride) && decide (c.stride ≤ 2372 * 1024)

/-- A record of the context is in states 1 to 4, or a gang of it runs (R400). -/
def State.ctxBusy (s : State) (cx : BitVec 6) : Bool :=
  (s.recs.any fun r => r.ctx == cx)
    || (s.bank.run.map fun r => r.ctx == cx).getD false
    || ((s.shadow.bind (·.run)).map fun r => r.ctx == cx).getD false

/-- The defaults of R328: PARK for these causes, KILL for the others. -/
def parkedByDefault : List Nat := [0x06, 0x09, 0x0A, 0x0B, 0x0E, 0x0F, 0x10, 0x11, 0x13, 0x15, 0x16]

/-- A new context's action table holds the defaults of R328. -/
def State.defaultActions (s : State) (table : Nat) : State :=
  if s.backedPa table then
    (List.range 64).foldl (fun (s : State) k =>
      s.wrNat (table + 16 * k) 16 (if parkedByDefault.contains k then 2 else 0)) s
  else s

/-- Defines a context, in the state of a new one (R400, R306, R328). -/
def State.defineCtx (s : State) (cx : BitVec 6) (sup : Bool) (p : BitVec 4) : State :=
  let s := s.mapCtx cx fun c =>
    { c with
      defined := true, supervisor := sup, part := p, ev := 0, err := 0, binds := [], model := none, images := [],
      tables := [] }
  let s := { s with
    evSets := s.evSets.filter fun e => e.1 != cx
    areas := s.areas.filter fun a => a.1 != cx
    heldAreas := s.heldAreas.filter fun h => h.1 != cx }
  s.defaultActions s.ctxs[cx.toNat].action

/-- A write of a context's control register (R400): bits [0] defined, [1] supervisor, [11:8] partition, others zero. -/
def State.writeCtxControl (s : State) (cx : BitVec 6) (v : Word) : State :=
  let c := s.ctxs[cx.toNat]
  let p : BitVec 4 := v.extractLsb' 8 4
  let err := s.writeErr (if c.defined then c.part else p)
  let second := v.getLsbD 1 && ((s.supervisorOf p).map (· != cx)).getD false
  if v &&& 0xFFFFF0FC ≠ 0 ∨ (c.defined ∧ s.ctxBusy cx) then err
  else if v.getLsbD 0 then
    if !c.limits || second then err else s.defineCtx cx (v.getLsbD 1) p
  else s.mapCtx cx fun c => { c with defined := false, supervisor := v.getLsbD 1, part := p }

/-- `contextDefine` (R400). -/
def execContextDefine (ctx : BitVec 6) (control : Word) (s : State) : Host.Outcome State Fault Refusal :=
  .next (s.writeCtxControl ctx control)

/-! ## Doorbells (R408) -/

/-- Another core runs a context of the partition: a member of a gang of the modelled core, or one that the outside has named;
its requests go to it (R408). -/
def State.runsElsewhere (s : State) (p : BitVec 4) (core : Nat) : Bool :=
  let own := fun (b : Bank) => (b.run.map fun r => r.part == p && r.members.contains core).getD false
  core != s.coreId && (own s.bank || (s.shadow.map own).getD false || s.taken.contains (core, p))

/-- `serviceDoorbell`: [10:0] names a core, [22:16] the subcode (R399, R408); one that comes during a reset is held (R410). -/
def State.doorbell (s : State) (p : BitVec 4) (val : Word) : State :=
  let core := (val.setWidth 11).toNat
  let sub : Byte := (val.extractLsb' 16 7).setWidth 8
  if 1536 ≤ core then s.writeErr p
  else if !s.parts[p.toNat].enabled then s
  else if core = s.coreId ∧ s.runsPart p then s.postService p sub
  else if s.runsElsewhere p core && !s.parts[p.toNat].resetting then s
  else s.queueDoorbell p (core / 64) sub

/-- `serviceDoorbell` (R408). -/
def execServiceDoorbell (part : BitVec 4) (val : Word) (s : State) : Host.Outcome State Fault Refusal :=
  .next (s.doorbell part val)

/-! ## Invalidation (R406) -/

/-- A write of the invalidation command: [5:0] context, [9:8] scope (R399, R406); refused while busy, and outside its
limits. -/
def State.invalidateCmd (s : State) (p : BitVec 4) (val : Word) : State :=
  let x := s.parts[p.toNat]
  let cx : BitVec 6 := val.setWidth 6
  let scope := (val.extractLsb' 8 2).toNat
  let c := s.ctxs[cx.toNat]
  if x.invBusy ∨ scope = 3 ∨ (scope ≠ 2 ∧ !(c.defined && c.part == p)) then s.writeErr p
  else
    (s.invalidate p scope cx x.invAddr.toNat).mapPart p fun x => { x with invBusy := true, invCmd := val &&& 0x33F }

/-- `invalidationCommand` (R406). -/
def execInvalidationCommand (part : BitVec 4) (val : Word) (s : State) : Host.Outcome State Fault Refusal :=
  .next (s.invalidateCmd part val)

/-- `invalidationComplete`: bit 31 reads 0 again once every access with a dropped translation is performed (R406). -/
def execInvalidationComplete (part : BitVec 4) (s : State) : Host.Outcome State Fault Refusal :=
  .next (if s.settled then s.mapPart part fun x => { x with invBusy := false } else s)

/-! ## Register writes (R398 to R400) -/

/-- A register of a block: its offset, its size, its value, the limit of a new value, whether it may be written only while
the partition is disabled, and its writing. -/
structure Reg (α : Type) where
  off : Nat
  size : Nat
  get : α → Nat
  ok : Nat → Bool
  fixed : Bool
  set : Nat → α → α

/-- Bits of a partition that another partition holds. -/
def State.othersHold (s : State) (p : BitVec 4) (f : Part → BitVec 8) : Nat :=
  ((List.range 16).foldl (fun (m : BitVec 8) k =>
    if k = p.toNat then m else m ||| f (s.parts.getD k Part.init)) 0).toNat

/-- The vectors of a base and count are free of other partitions' (R399). -/
def State.vectorsFree (s : State) (p : BitVec 4) (base n : Nat) : Bool :=
  (List.range 16).all fun k =>
    let q := s.parts.getD k Part.init
    k == p.toNat || q.msixCount == 0 || !rangesMeet base n q.msixBase q.msixCount

/-- Limits of the MSI-X base and count, written together at 0x10 (R399). -/
def State.vectorsOk (s : State) (p : BitVec 4) (v : Nat) : Bool :=
  let b := v % 65536
  let n := v / 65536
  decide (1 ≤ b) && decide (b ≤ 2044) && decide (4 ≤ n) && decide (n ≤ 2047) && decide (b + n ≤ 2048)
    && s.vectorsFree p b n

/-- The registers of a partition block without a behaviour of their own (R399). -/
def State.partRegs (s : State) (p : BitVec 4) : List (Reg Part) :=
  let any := fun (_ : Nat) => true
  [⟨0x08, 1, (·.weight), any, true, fun v x => { x with weight := v }⟩,
   ⟨0x09, 1, (·.cap), fun v => decide (1 ≤ v) && decide (v ≤ 64), true, fun v x => { x with cap := v }⟩,
   ⟨0x0A, 1, (·.lpShare), any, true, fun v x => { x with lpShare := v }⟩,
   ⟨0x0B, 1, (·.wsShare), any, true, fun v x => { x with wsShare := v }⟩,
   ⟨0x0C, 1, (·.banks.toNat), fun v => v &&& s.othersHold p (·.banks) == 0, true,
     fun v x => { x with banks := BitVec.ofNat 8 v }⟩,
   ⟨0x0D, 1, (·.pqs.toNat), fun v => v % 2 == 0 && v &&& s.othersHold p (·.pqs) == 0, true,
     fun v x => { x with pqs := BitVec.ofNat 8 v }⟩,
   ⟨0x0E, 2, fun _ => 0, fun v => v == 0, true, fun _ x => x⟩,
   ⟨0x10, 4, fun x => x.msixBase + 65536 * x.msixCount, s.vectorsOk p, true,
     fun v x => { x with msixBase := v % 65536, msixCount := v / 65536 }⟩,
   ⟨0x14, 4, (·.watchdog), any, false, fun v x => { x with watchdog := v }⟩,
   ⟨0x18, 8, (·.guard), any, false, fun v x => { x with guard := v }⟩,
   ⟨0x20, 8, (·.ring), fun v => v % 16384 == 0, true, fun v x => { x with ring := v }⟩,
   ⟨0x28, 8, (·.ctl), fun v => v % 64 == 0, true, fun v x => { x with ctl := v }⟩,
   ⟨0x30, 8, (·.service), fun v => v % 64 == 0, true, fun v x => { x with service := v }⟩,
   ⟨0x38, 8, (·.timer), any, false, fun v x => { x with timer := v }⟩,
   ⟨0x48, 8, (·.invAddr.toNat), any, false, fun v x => { x with invAddr := BitVec.ofNat 64 v }⟩]

/-- The registers of a context block after its control register (R400). -/
def ctxRegs : List (Reg Ctx) :=
  [⟨0x08, 8, (·.root), fun v => v % 4096 == 0, false, fun v x => { x with root := v }⟩,
   ⟨0x10, 8, (·.action), fun v => v % 64 == 0, false, fun v x => { x with action := v }⟩,
   ⟨0x18, 8, (·.masks), fun v => v % 64 == 0, false, fun v x => { x with masks := v }⟩,
   ⟨0x20, 8, (·.save), fun v => v % 64 == 0, false, fun v x => { x with save := v }⟩,
   ⟨0x28, 4, (·.areas), fun v => decide (1 ≤ v) && decide (v ≤ 1536), false, fun v x => { x with areas := v }⟩,
   ⟨0x2C, 4, (·.stride), fun v => v % 4096 == 0 && decide (69632 ≤ v) && decide (v ≤ 2428928), false,
     fun v x => { x with stride := v }⟩,
   ⟨0x30, 80, fun _ => 0, fun v => v == 0, false, fun _ x => x⟩]

/-- The value that a write of `n` bytes at `o` gives a register: its own bytes, with those the write covers replaced. -/
def Reg.patched {α : Type} (r : Reg α) (x : α) (o n val : Nat) : Nat :=
  let old := bytesOf r.size (r.get x)
  let new := bytesOf n val
  ofBytes ((List.range r.size).map fun k =>
    if o ≤ r.off + k ∧ r.off + k < o + n then new.getD (r.off + k - o) 0 else old.getD k 0)

/-- The write touches the register. -/
def Reg.touched {α : Type} (r : Reg α) (o n : Nat) : Bool := rangesMeet o n r.off r.size

/-- One register of a partition block takes its part of a write, or refuses it (R398, R399). DEDUCED, log 47. -/
def State.writePartReg (s : State) (p : BitVec 4) (o n val : Nat) (r : Reg Part) : State :=
  let x := s.parts[p.toNat]
  let v := r.patched x o n val
  if !r.touched o n then s
  else if !r.ok v || (r.fixed && x.enabled) then s.writeErr p
  else s.mapPart p (r.set v)

/-- The control register of a partition: bits 0, 3 and 4 are written, bit 1 starts a reset, bit 7 clears the write error;
bit 2 is read-only and the others are zero (R398, R399). -/
def State.writeControl (s : State) (p : BitVec 4) (v : Nat) : State :=
  let x : DWord := BitVec.ofNat 64 v
  if x &&& 0xFFFFFFFFFFFFFF60 ≠ 0 then s.writeErr p
  else
    let s := (s.enable p (x.getLsbD 0)).mapPart p fun y =>
      { y with
        preShares := x.getLsbD 3
        preDeadlines := x.getLsbD 4
        writeErr := y.writeErr && !x.getLsbD 7 }
    if x.getLsbD 1 then s.beginReset p else s

/-- A write of a partition block (R399). -/
def State.writePart (s : State) (p : BitVec 4) (o n val : Nat) : State :=
  if o = 0 then s.writeControl p val
  else if o = 4 then if val = 0 then s else s.writeErr p
  else if o = 0x40 then s.doorbell p (BitVec.ofNat 32 val)
  else if o = 0x50 then s.invalidateCmd p (BitVec.ofNat 32 val)
  else (s.partRegs p).foldl (fun s r => s.writePartReg p o n val r) s

/-- One register of a context block takes its part of a write (R400). -/
def State.writeCtxReg (s : State) (cx : BitVec 6) (o n val : Nat) (r : Reg Ctx) : State :=
  let c := s.ctxs[cx.toNat]
  let v := r.patched c o n val
  if !r.touched o n then s
  else if !r.ok v then s.writeErr c.part
  else s.mapCtx cx (r.set v)

/-- A write of a context block (R400). -/
def State.writeCtx (s : State) (cx : BitVec 6) (o n val : Nat) : State :=
  let c := s.ctxs[cx.toNat]
  if o = 0 then
    if n = 8 ∧ 2 ^ 32 ≤ val then s.writeErr c.part else s.writeCtxControl cx (BitVec.ofNat 32 val)
  else if c.defined ∧ s.ctxBusy cx then s.writeErr c.part
  else if o = 4 then if val = 0 then s else s.writeErr c.part
  else ctxRegs.foldl (fun s r => s.writeCtxReg cx o n val r) s

/-- A write of a counter of a health record sets it to zero, but for what it counts in the same cycle; elsewhere writes are
not accepted (R412, R413). -/
def State.clearCounter (s : State) (d o : Nat) : State :=
  if o < 0x50 then
    let n := ((s.tally.filter fun t => t.1 == d && t.2.1 == o / 8).map (·.2.2)).sum
    { s with health := s.health.mapIdx fun i h =>
        if i = d then { h with counters := h.counters.set (o / 8) n } else h }
  else s

/-- `counterClear` (R413). -/
def execCounterClear (die : BitVec 5) (off : Byte) (s : State) : Host.Outcome State Fault Refusal :=
  .next (s.clearCounter die.toNat off.toNat)

/-- A write over CXL.io to BAR 2: 4 or 8 bytes, aligned (R398, R412). -/
def State.barWrite (s : State) (off n val : Nat) : State :=
  if off % n ≠ 0 then s
  else if off < 0x10000 then s.writePart (BitVec.ofNat 4 (off / 0x1000)) (off % 0x1000) n val
  else if off < 0x12000 then s.writeCtx (BitVec.ofNat 6 ((off - 0x10000) / 0x80)) ((off - 0x10000) % 0x80) n val
  else if 0x20000 ≤ off ∧ off < 0x21800 then s.clearCounter ((off - 0x20000) / 0x100) (off % 0x100)
  else s

/-- `registerWrite` (R398). -/
def execRegisterWrite (off : BitVec 18) (wide : Bool) (val : DWord) (s : State) : Host.Outcome State Fault Refusal :=
  .next (if wide then s.barWrite off.toNat 8 val.toNat else s.barWrite off.toNat 4 (val.setWidth 32).toNat)

end Sys2Proof.Machine
end

