-- ==== Sys2Proof/Machine/Due.lean ====
section
/-! DEFINITION. Which event of the core or of its surroundings is due at the start of a cycle (R8, R27, R28): events of
wall time first, then, while no freeze stops the core, those of the engine, the rules and the run. -/

namespace Sys2Proof.Machine

/-- The state as the copies and the engine see it (R341). -/
def State.atWork (s : State) : State := { s with bank := s.workBank }

/-- A weight-store bank whose phase has come (R142). -/
def State.refreshDue (s : State) : Option Instr :=
  match s.calendar with
  | some r => if s.refresh = r then none else some (.weightStoreRefresh r.1)
  | none => none

/-- The end of a freeze (R28, R405). -/
def State.thawDue (s : State) : Option Instr :=
  if s.freezes.any fun f => f.why.arrives && f.left == 0 then some .memoryDataArrival
  else if s.freezes.any Freeze.corrected then some .correctionFreezeEnd
  else if s.walkOver.isSome then some .translationWalkComplete
  else none

/-- Numbers of the partitions. -/
def partitions : List (BitVec 4) := (List.range 16).map (BitVec.ofNat 4)

/-- Events of the partitions (R335, R406, R408, R409). -/
def State.partDue (s : State) : Option Instr :=
  partitions.findSome? fun p =>
    if s.withheldDue p then some (.withheldRecordWrite p)
    else if s.timerDue p then some (.serviceTimer p)
    else if s.resetDue p then some (.partitionResetComplete p)
    else if s.parts[p.toNat].invBusy && s.settled then some (.invalidationComplete p)
    else none

/-- What a channel can do next: a copy that no older one holds to run to its end, or one to start (R167, R284, R285). -/
def State.channelEvents (s : State) (start : Bool) (ch : BitVec 2) : List Instr :=
  ((((s.bank.chan ch).started.filter s.copyFree).map fun c => Instr.copyComplete ch c.id)
    ++ (if start && (s.bank.mayStart ch).isSome then [Instr.copyStart ch] else []))

/-- The copies go on in wall time, one event a cycle, in turn; while a run is saved or discarded none starts, from the shadow
bank either (R284, R344, R345). -/
def State.copyDue (s : State) : Option Instr :=
  if s.wall < s.copyAt then none
  else
    let start := match s.phase with
      | .running | .draining | .stopping => true
      | .switching .ready _ => false
      | .switching _ _ => true
      | _ => false
    let l := channels.flatMap (s.atWork.channelEvents (start && s.shadowParked.isNone))
    l[s.wall % l.length]?

/-- The run on the core goes on: its faults can be taken. -/
def State.goesOn (s : State) : Bool :=
  s.bank.run.isSome &&
    match s.phase with
    | .running | .draining | .stopping => true
    | _ => false

/-- A firing of the rule has faulted and comes to its delivery (R217). -/
def Rule.faultWaits (r : Rule) : Bool := (r.fired.map fun f => f.2.isSome).getD false

/-- The faults that wait for their agents, each with the number of its operation, of its copy or of its rule's installation,
in the order of issue, and its delivery (R195, R217, R296, R326). -/
def Bank.faultList (b : Bank) : List (Nat × Instr) :=
  (channels.flatMap fun ch => ((b.chan ch).faults.take 1).map fun f => (f.copy.seq, Instr.copyFaultDelivery ch))
    ++ (b.engFault.map fun e => (e.1.uid, Instr.engineFaultDelivery)).toList
    ++ (((List.range 32).map (BitVec.ofNat 5)).filter fun r => (b.rule r).faultWaits).map fun r =>
      ((b.rule r).uid, Instr.firingRetire r)

/-- The oldest of numbered events (R326). -/
def oldest : List (Nat × Instr) → Option (Nat × Instr)
  | [] => none
  | x :: l =>
    match oldest l with
    | some y => some (if y.1 < x.1 then y else x)
    | none => some x

/-- A fault of a channel, of the engine or of a firing waits for its agent (R195, R217, R296): the oldest is taken first
(R326); during a service they wait for the return (R341). -/
def State.faultDue (s : State) : Option Instr :=
  if !s.goesOn || s.serving then none else (oldest s.bank.faultList).map (·.2)

/-- A rule whose firing comes to its retirement (R215). -/
def State.retireDue (s : State) : Option Instr :=
  (((List.range 32).map (BitVec.ofNat 5)).find? fun r =>
    (s.workBank.rule r).fired.isSome && !(s.workBank.rule r).faultWaits).map .firingRetire

/-- The oldest output piece is to be written (R180). -/
def State.outputDue (s : State) : Option Instr :=
  (oldest (((List.range 16).map (BitVec.ofNat 4)).flatMap fun n =>
    ((s.workBank.stream n).outq.take 1).map fun e => (e.no, Instr.streamOutputWrite n))).map (·.2)

/-- The operation at the head of the engine's queue can run (R191, R192). -/
def Bank.headRuns (b : Bank) : Bool :=
  match b.eng with
  | o :: _ => (o.err.isNone || o.rule.isSome) && !o.lacksMembers
  | [] => false

/-- A firing of the round in progress can enter, or a round can start: not while a service slice runs, while held
operations or firings of a resume are left, or when the run is ending (R214, R223, R313, R341). -/
def State.roundDue (s : State) : Bool :=
  !s.serving && s.goesOn &&
    (if s.bank.round.isEmpty then
      !decide (s.phase = .draining) && decide (s.bank.held = 0)
        && (s.bank.firings.all fun r => (s.bank.rule r).state != .firing) && !s.bank.readyRules.isEmpty
    else s.bank.mayEnter)

/-- The engine goes on with its operations in this phase, or only with those that a stop lets complete (R341, R345). -/
def Phase.works : Phase → Bool
  | .running | .draining | .stopping | .switching (.service _ _) _ | .switching .back _ => true
  | _ => false

/-- A stop or a save lets the operation at the head complete (R344, R345). -/
def State.lastOp (s : State) : Option Instr :=
  if decide (s.engAt ≤ s.wall) && s.workBank.headCompletes then some .engineOpComplete else none

/-- The engine, the outputs and the rules, in cycles that no freeze stops (R27, R192, R214). DEDUCED, log 6. -/
def State.engineDue (s : State) : Option Instr :=
  match s.phase with
  | .saving _ => s.lastOp
  | p =>
    if !p.works then none
    else if s.shadowParked.isSome then s.lastOp
    else
      match s.retireDue with
      | some i => some i
      | none =>
        if s.roundDue && decide (s.ruleAt ≤ s.wall) then some .firingRound
        else if s.workBank.headRuns && decide (s.engAt ≤ s.wall) then some .engineOpComplete
        else none

/-- The run's own events: an exhausted budget, a watchdog, its end, or the end of a switch or a save (R32, R312, R313, R328,
R344, R345). -/
def State.runDue (s : State) : Option Instr :=
  if s.shadowSaves then some .contextSaveComplete
  else match s.phase with
  | .idle => if s.pickPart.isSome then some .gangSelect else none
  | .switching _ 0 => some .contextSwitchComplete
  | .switching _ _ => none
  | .saving _ => if s.bank.run.isNone || s.saveQuiet s.bank then some .contextSaveComplete else none
  | _ =>
    if s.bank.run.any Run.spent then some .budgetExhausted
    else if !s.overdueAgents.isEmpty && s.phase != .draining then some .watchdog
    else if s.phase = .draining ∧ s.bank.drained ∧ (!s.peersBehind || !s.pend.isEmpty || s.bank.owing.isSome) then some .gangEnd
    else if s.wantsStop then some .stopForShares
    else none

/-- The first of a list of events that is due. -/
def firstDue : List (Option Instr) → Option Instr
  | [] => none
  | some i :: _ => some i
  | none :: l => firstDue l

/-- The event that is due at the start of a cycle, or while a freeze holds the core within one, if any.
DESIGN CHOICE, log 11. -/
def State.due (s : State) : Option Instr :=
  if s.turn ≠ 0 && s.freezes.isEmpty then none
  else
    firstDue
      ([s.refreshDue, s.thawDue, s.partDue, s.copyDue]
        ++ if s.freezes.isEmpty then [s.faultDue, s.outputDue, s.engineDue, s.runDue] else [])

end Sys2Proof.Machine
end

