-- ==== Sys2Proof/Machine/Crypto.lean ====
section
/-! DEFINITION. SHAKE256 and the verification of a Falcon-1024 signature, which R391, R395 and R396 name. PRESUMED from
FIPS 202 and the Falcon specification, log 65. -/

namespace Sys2Proof.Machine

/-! ## SHAKE256 -/

/-- One more step of the register that FIPS 202 draws its round constants from: 8 bits, times x, with the polynomial
x^8 + x^6 + x^5 + x^4 + 1. -/
def rcStep (r : Nat) : Nat := if r < 128 then 2 * r else (2 * r) % 256 ^^^ 0x71

/-- The register after `n` steps from 1. -/
def rcAfter : Nat → Nat
  | 0 => 1
  | n + 1 => rcStep (rcAfter n)

/-- The constant of round `i`: of its bits at 0, 1, 3, 7, 15, 31 and 63, bit 2^j - 1 is the register's lowest after 7i + j
steps. -/
def roundConst (i : Nat) : DWord :=
  (List.range 7).foldl (fun v j => if (rcAfter (7 * i + j)).testBit 0 then v ||| 1 <<< (2 ^ j - 1) else v) 0

/-- The walk (1, 0), (0, 2), … over the lanes but (0, 0), from (x, y) to (y, 2x + 3y), that FIPS 202 gives the turns along:
the n-th lane of it turns by the n-th triangular number. Each lane's place with its turn, `n` lanes from the t-th on. -/
def turnWalk : Nat → Nat → Nat → Nat → List (Nat × Nat)
  | 0, _, _, _ => []
  | n + 1, t, x, y => (x + 5 * y, (t + 1) * (t + 2) / 2 % 64) :: turnWalk n (t + 1) y ((2 * x + 3 * y) % 5)

/-- The rotation of the lane at a place. -/
def laneTurn (i : Nat) : Nat := ((turnWalk 24 0 1 0).lookup i).getD 0

/-- Lane (x, y) of a state, both counted modulo 5. -/
def lane5 (a : List DWord) (x y : Nat) : DWord := a.getD (x % 5 + 5 * (y % 5)) 0

/-- Lane by lane, from a function of x and y. -/
def lanes25 (f : Nat → Nat → DWord) : List DWord := (List.range 25).map fun i => f (i % 5) (i / 5)

/-- The parity of column x. -/
def columnSum (a : List DWord) (x : Nat) : DWord := (List.range 5).foldl (fun v y => lane5 a x y ^^^ v) 0

/-- The step that adds to each lane the parities of two columns beside it. -/
def keccakTheta (a : List DWord) : List DWord :=
  let d := (List.range 5).map fun x => columnSum a (x + 4) ^^^ (columnSum a (x + 1)).rotateLeft 1
  lanes25 fun x y => d.getD x 0 ^^^ lane5 a x y

/-- A lane once it has been turned, and moved from (x + 3y, x) to (x, y). -/
def turned (a : List DWord) (x y : Nat) : DWord :=
  let u := (x + 3 * y) % 5
  (lane5 a u x).rotateLeft (laneTurn (u + 5 * (x % 5)))

/-- Round `i` of Keccak-f[1600]. -/
def keccakRound (a : List DWord) (i : Nat) : List DWord :=
  let t := keccakTheta a
  let b := lanes25 (turned t)
  let c := lanes25 fun x y => lane5 b x y ^^^ (lane5 b (x + 2) y &&& ~~~lane5 b (x + 1) y)
  c.modify 0 (· ^^^ roundConst i)

/-- Keccak-f[1600]: 24 rounds. -/
def keccakF (a : List DWord) : List DWord := (List.range 24).foldl keccakRound a

/-- Bytes that SHAKE256 absorbs or gives between two permutations. -/
def shakeRate : Nat := 136

/-- The message with SHAKE's suffix and padding. -/
def shakePad (m : List Byte) : List Byte :=
  let n := shakeRate - m.length % shakeRate
  m ++ if n = 1 then [0x9F] else 0x1F :: (List.replicate (n - 2) 0 ++ [0x80])

/-- A block added to a state. -/
def absorbBlock (a : List DWord) (bs : List Byte) : List DWord :=
  lanes25 fun x y => lane5 a x y ^^^ BitVec.ofNat 64 (ofBytes ((bs.drop (8 * (x + 5 * y))).take 8))

/-- Absorbs a number of blocks. -/
def shakeAbsorb : Nat → List Byte → List DWord → List DWord
  | 0, _, a => a
  | n + 1, m, a => shakeAbsorb n (m.drop shakeRate) (keccakF (absorbBlock a (m.take shakeRate)))

/-- Gives a number of blocks. -/
def shakeSqueeze : Nat → List DWord → List Byte
  | 0, _ => []
  | n + 1, a => (a.take 17).flatMap (fun w => bytesOf 8 w.toNat) ++ shakeSqueeze n (keccakF a)

/-- The first `n` bytes of SHAKE256 of a message. -/
def shake256 (n : Nat) (m : List Byte) : List Byte :=
  let p := shakePad m
  (shakeSqueeze ((n + shakeRate - 1) / shakeRate) (shakeAbsorb (p.length / shakeRate) p (List.replicate 25 0))).take n

/-! ## Falcon-1024 -/

/-- The modulus, the degree, and the bound on a signature's squared norm. -/
def falconQ : Nat := 12289
/-- See `falconQ`. -/
def falconN : Nat := 1024
/-- See `falconQ`. -/
def falconBound : Nat := 70265242

/-- Bits of a byte list, the most significant of each byte first. -/
def bitsMsb (l : List Byte) : List Bool := l.flatMap fun b => [7, 6, 5, 4, 3, 2, 1, 0].map b.getLsbD

/-- The number that bits stand for, the most significant first. -/
def ofMsb (l : List Bool) : Nat := l.foldl (fun n b => 2 * n + b.toNat) 0

/-- The polynomial of a public key: header byte 0x0A, then 1,024 coefficients of 14 bits below the modulus. -/
def falconKey : List Byte → Option (List Nat)
  | [] => none
  | h :: l =>
    let bits := bitsMsb l
    let cs := (List.range falconN).map fun k => ofMsb ((bits.drop (14 * k)).take 14)
    if h = 0x0A ∧ l.length = 1792 ∧ (cs.all fun c => decide (c < falconQ)) = true then some cs else none

/-- A count of zeros up to the next one, and the bits after it. -/
def unaryGo : Nat → List Bool → Option (Nat × List Bool)
  | _, [] => none
  | n, true :: l => some (n, l)
  | n, false :: l => unaryGo (n + 1) l

/-- A coefficient of the compressed polynomial: its sign, 7 bits, and the rest of its magnitude in unary; at most 2,047, and
zero without a sign. -/
def falconCoef (l : List Bool) : Option (Int × List Bool) :=
  match l with
  | [] => none
  | sgn :: l =>
    match unaryGo 0 (l.drop 7) with
    | none => none
    | some (hi, rest) =>
      let m := 128 * hi + ofMsb (l.take 7)
      if 2047 < m ∨ (sgn && decide (m = 0)) = true then none else some (if sgn then -(m : Int) else m, rest)

/-- A number of coefficients, and the bits after them. -/
def falconCoefs : Nat → List Bool → Option (List Int × List Bool)
  | 0, l => some ([], l)
  | n + 1, l =>
    match falconCoef l with
    | none => none
    | some (c, l) => (falconCoefs n l).map fun r => (c :: r.1, r.2)

/-- Salt and polynomial of a signature in the padded format: header byte 0x3A, 40 bytes, then the compressed polynomial and
zeros, 1,280 bytes in all. -/
def falconSig : List Byte → Option (List Byte × List Int)
  | [] => none
  | h :: l =>
    if h = 0x3A ∧ l.length = 1279 then
      match falconCoefs falconN (bitsMsb (l.drop 40)) with
      | some (cs, rest) => if rest.contains true then none else some (l.take 40, cs)
      | none => none
    else none

/-- Coefficients from pairs of bytes, big-endian, of those below 61,445. -/
def hashCoefs : List Byte → List Nat
  | a :: b :: l =>
    let t := 256 * a.toNat + b.toNat
    if t < 5 * falconQ then t % falconQ :: hashCoefs l else hashCoefs l
  | _ => []

/-- Blocks of SHAKE256 from which the hashed polynomial is drawn: 2,720 pairs for 1,024 coefficients. -/
def hashBlocks : Nat := 40

/-- The polynomial that salt and message are hashed to. -/
def hashToPoint (salt msg : List Byte) : List Nat :=
  (hashCoefs (shake256 (hashBlocks * shakeRate) (salt ++ msg))).take falconN

/-- A polynomial times x, modulo x^1024 + 1. -/
def timesX (l : List Int) : List Int := -(l.getLastD 0) :: l.dropLast

/-- The product of two polynomials modulo x^1024 + 1 and the modulus. -/
def polyMul (a : List Int) (b : List Nat) : List Int :=
  a.foldr (fun c acc => (timesX acc).zipWith (fun (x : Int) (y : Nat) => (x + c * y) % falconQ) b) (List.replicate falconN 0)

/-- The representative nearest zero. -/
def centred (x : Int) : Int :=
  let y := x % falconQ
  if (falconQ : Int) < 2 * y then y - falconQ else y

/-- A sum of squares. -/
def sqSum (l : List Int) : Int := l.foldl (fun n x => n + x * x) 0

/-- Does a signature verify, for a public key and a message? -/
def falconVerifies (key msg sig : List Byte) : Bool :=
  match falconKey key, falconSig sig with
  | some h, some (salt, s2) =>
    let c := hashToPoint salt msg
    let s1 := c.zipWith (fun (x : Nat) (y : Int) => centred (x - y)) (polyMul s2 h)
    c.length == falconN && decide (sqSum s1 + sqSum s2 ≤ falconBound)
  | _, _ => false

end Sys2Proof.Machine
end

