-- ==== Sys2Proof/Machine/Firmware.lean ====
section
/-! DEFINITION. The commands of the resident firmware: identity, images, models, keys, attestation and
resume (R386 to R397, R56, R64 to R66). -/

namespace Sys2Proof.Machine

/-! ## Commands (R386 to R388) -/

/-- What a command comes to: a status and a detail, or the state and the response body (R387). -/
abbrev Cmd := Except (Nat × Nat) (State × List Byte)

/-- Exactly `n` bytes: a shorter list is filled with zeros. -/
def fitBytes (n : Nat) (l : List Byte) : List Byte := (l ++ List.replicate n 0).take n

/-- Runs a command from its doorbell to its response (R386, R387). -/
def State.command (s : State) (h : MbHdr) (op : Nat) (f : State → Cmd) : Host.Outcome State Fault Refusal :=
  .next
    (if s.mailBusy then s.refuseBusy
    else
      match h.bad with
      | some d => s.answer h op 2 d []
      | none =>
        match f s with
        | .error e => s.answer h op e.1 e.2 []
        | .ok r => r.1.answer h op 0 0 r.2)

/-- A command of a partition: not while it is being reset (R393). -/
def State.partCmd (s : State) (h : MbHdr) (r : Cmd) : Cmd :=
  if s.parts[h.p.toNat].resetting then .error (9, 0) else r

/-- The context a header names, of the header's partition, or status 3 (R387). -/
def State.cmdCtx (s : State) (h : MbHdr) : Except (Nat × Nat) (BitVec 6) :=
  let cx : BitVec 6 := BitVec.ofNat 6 h.ctx.toNat
  if h.ctx ≠ 0xFF ∧ (s.ctxs[cx.toNat]).defined ∧ (s.ctxs[cx.toNat]).part = h.p then .ok cx else .error (3, 0)

/-- A range of host memory within its 52-bit addresses (R10). -/
def hostRange (a n : Nat) : Bool := decide (a + n ≤ 2 ^ 52)

/-- `mailboxBusy`: a doorbell while a command runs (R386). -/
def execMailboxBusy (s : State) : Host.Outcome State Fault Refusal :=
  .next s.refuseBusy

/-- The opcodes of the command set (R389). -/
def opcodes : List (BitVec 16) :=
  [0xC000, 0xC010, 0xC011, 0xC020, 0xC021, 0xC022, 0xC023, 0xC030, 0xC040, 0xC050, 0xC060, 0xC070, 0xC071, 0xC072, 0xC073]

/-- An opcode that the CXL register interface requires: not a device-specific one. Which they are, and what they answer, the
manual does not say (R386). DESIGN CHOICE, log 49. -/
def requiredOp (op : BitVec 16) : Bool := !(decide (0xC000 ≤ op) && decide (op ≤ 0xC0FF)) && Config.cxlRequired op

/-- `mailboxUnsupported`: a doorbell with an opcode that is none of the set's: Unsupported, apart from those that the CXL register
interface requires (R386); one of the set has its own meaning. -/
def execMailboxUnsupported (op : BitVec 16) (s : State) : Host.Outcome State Fault Refusal :=
  .next
    (if s.mailBusy then s.refuseBusy
    else if opcodes.contains op then s
    else if requiredOp op then { s with mailbox := .idle .success (Config.cxlResponse op s.wall) }
    else { s with mailbox := { s.mailbox with code := .unsupported } })

/-! ## IDENTIFY (R389) -/

/-- The SHAKE256-256 digest of a byte list. -/
def digest256 (l : List Byte) : List Byte := shake256 32 l

/-- The digest of the firmware's ROM. -/
def romDigest : List Byte := fitBytes 32 (Config.ident 2)

/-- The seed of the identity key: the first 48 bytes of SHAKE256 over the fused device secret and the ROM's digest (R395). -/
def identitySeed : List Byte := shake256 48 (Config.deviceSecret ++ romDigest)

/-- The identity key, private and public, that deterministic Falcon-1024 key generation derives from its seed (R395). -/
def identityKey : List Byte × List Byte := Config.falconKeys identitySeed

/-- The digest of the identity key's public part (R389, R395). -/
def identityDigest : List Byte := digest256 (fitBytes 1793 identityKey.2)

/-- The response body of IDENTIFY. -/
def State.identifyBody (s : State) : List Byte :=
  bytesOf 4 24 ++ fitBytes 4 (Config.ident 0) ++ fitBytes 8 (Config.ident 1) ++ identityDigest
    ++ (List.range 4).flatMap fun k => bytesOf 8 (s.portBytes k)

/-- `identify`. -/
def execIdentify (h : MbHdr) (s : State) : Host.Outcome State Fault Refusal :=
  s.command h 0xC000 fun s => .ok (s, s.identifyBody)

/-! ## Images (R56, R59, R64 to R66, R390) -/

/-- A relocation entry (R64). -/
structure Reloc where
  place : Nat
  kind : Nat
  target : Nat
  zero : Nat
  addend : Nat
  deriving DecidableEq, Repr

/-- The relocation table of an image. -/
def relocsOf (b : List Byte) : List Reloc :=
  (List.range (fieldOf b 0x3A 2)).map fun k =>
    let o := fieldOf b 0x3C 4 + 16 * k
    ⟨fieldOf b o 4, fieldOf b (o + 4) 1, fieldOf b (o + 5) 1, fieldOf b (o + 6) 2, fieldOf b (o + 8) 8⟩

/-- A section or table: its offset, size and alignment. -/
def spansOf (b : List Byte) : List (Nat × Nat × Nat) :=
  [(fieldOf b 0x10 4, fieldOf b 0x14 4, 8), (fieldOf b 0x2C 4, fieldOf b 0x30 4, 64),
   (fieldOf b 0x34 4, 16 * fieldOf b 0x38 2, 16), (fieldOf b 0x3C 4, 16 * fieldOf b 0x3A 2, 16)]

/-- Image status 0x02: sections, tables and entries lie in the image, and sections and tables are aligned (R66). An image size
outside 128 bytes to the length loaded is reported here too, DESIGN CHOICE, log 50. -/
def placesOk (b : List Byte) : Bool :=
  let size := fieldOf b 8 8
  decide (128 ≤ size) && decide (size ≤ b.length)
    && (spansOf b).all (fun t => decide (t.1 % t.2.2 = 0) && decide (t.1 + t.2.1 ≤ size))
    && ([0x18, 0x1C, 0x20, 0x24, 0x28].all fun o => decide (fieldOf b 0x10 4 + fieldOf b o 4 < size))

/-- Image status 0x03: header fields are in their ranges (R66). -/
def headerOk (b : List Byte) : Bool :=
  decide (1 ≤ fieldOf b 0x38 2) && decide (fieldOf b 0x38 2 ≤ 16) && decide (fieldOf b 6 2 < 16)
    && decide (fieldOf b 0x6A 22 = 0)

/-- Image status 0x04: a level of the loop table (R59, R66). -/
def levelOk (b : List Byte) (o : Nat) : Bool :=
  let kind := fieldOf b o 1
  let flags := fieldOf b (o + 1) 1
  let extent := fieldOf b (o + 4) 4
  decide (kind ≤ 2) && decide (fieldOf b (o + 2) 1 ≤ if kind = 0 then 0 else 1) && decide (fieldOf b (o + 3) 1 = 0)
    && decide (fieldOf b (o + 8) 8 = 0) && decide (1 ≤ extent) && decide (extent ≤ 2 ^ 31)
    && decide (flags ≤ if kind = 0 then 1 else 0)

/-- The levels of an image. -/
def levelsOf (b : List Byte) : List TblLvl :=
  (List.range (fieldOf b 0x38 2)).map fun k => levelOf (b.drop (fieldOf b 0x34 4 + 16 * k))

/-- Image status 0x05: the gang's shape (R60, R66). -/
def shapeOk (b : List Byte) : Bool :=
  let l := levelsOf b
  let w := fun (k a : Nat) => axisExtent l k a
  decide (w 1 0 ≤ 8) && decide (w 1 1 ≤ 8) && decide (w 2 0 ≤ 4) && decide (w 2 1 ≤ 6)
    && decide (fieldOf b 0x68 2 = w 1 0 * w 1 1 * (w 2 0 * w 2 1))

/-- Image status 0x06: the footprint (R58, R66). -/
def footprintOk (b : List Byte) : Bool :=
  decide (fieldOf b 0x40 4 % 64 = 0) && decide (fieldOf b 0x44 4 % 64 = 0)
    && decide (fieldOf b 0x40 4 + fieldOf b 0x44 4 ≤ 2 ^ 21)

/-- Image status 0x07: a relocation (R64, R66). -/
def Reloc.ok (r : Reloc) (b : List Byte) : Bool :=
  let lo := if r.kind = 0 then fieldOf b 0x2C 4 else fieldOf b 0x10 4
  let hi := lo + if r.kind = 0 then fieldOf b 0x30 4 else fieldOf b 0x14 4
  decide (r.kind ≤ 2) && decide (r.target ≤ 3) && decide (r.zero = 0) && decide (r.place % 8 = 0)
    && decide (lo ≤ r.place) && decide (r.place + 8 ≤ hi)

/-- The image status: the first row of R66 that holds, or 0. -/
def imageStatus (b : List Byte) (bound : Bool) : Nat :=
  if fieldOf b 0 4 ≠ 0x4B34325A ∨ fieldOf b 4 2 ≠ 1 then 1
  else if !placesOk b then 2
  else if !headerOk b then 3
  else if !(List.range (fieldOf b 0x38 2)).all (fun k => levelOk b (fieldOf b 0x34 4 + 16 * k)) then 4
  else if !shapeOk b then 5
  else if !footprintOk b then 6
  else if !(relocsOf b).all (fun r => r.ok b) then 7
  else if (relocsOf b).any (fun r => r.target == 2) && !bound then 8
  else 0

/-- Base of a relocation's target (R64). -/
def Reloc.base (r : Reloc) (b : List Byte) (va : Nat) : Nat :=
  match r.target with
  | 0 => va + fieldOf b 0x10 4
  | 1 => va + fieldOf b 0x2C 4
  | 2 => 30 * 2 ^ 52
  | _ => 31 * 2 ^ 52

/-- Bytes of a list from `o` on replaced. -/
def patchAt (l : List Byte) (o : Nat) (new : List Byte) : List Byte := l.take o ++ new ++ l.drop (o + new.length)

/-- Applies one relocation (R64); `b` holds the header. -/
def Reloc.apply (b : List Byte) (va : Nat) (l : List Byte) (r : Reloc) : List Byte :=
  let v := (r.base b va + r.addend) % 2 ^ 64
  match r.kind with
  | 0 => patchAt l r.place (bytesOf 8 v)
  | 1 => patchAt l r.place (bytesOf 4 (v / 2 ^ 32))
  | _ => patchAt l r.place (bytesOf 4 v)

/-- The image as it is placed at `va`: every relocation applied in table order (R65), as the table stood before the first.
DESIGN CHOICE, log 50. -/
def relocated (b : List Byte) (va : Nat) : List Byte :=
  (relocsOf b).foldl (Reloc.apply b va) (b.take (fieldOf b 8 8))

/-- Permissions of page `k` of an image as page-table bits: present, leaf, and W and X by the sections it holds bytes of (R56);
a page of neither is read-only and not executable, DESIGN CHOICE, log 50. -/
def pageBits (b : List Byte) (k : Nat) : Nat :=
  let meets := fun (o n : Nat) => decide (0 < fieldOf b n 4) && rangesMeet (4096 * k) 4096 (fieldOf b o 4) (fieldOf b n 4)
  9 + (if meets 0x2C 0x30 then 2 else 0) + (if meets 0x10 0x14 then 4 else 0)

/-- A physical page is one of an image that is still loaded, or of a context's tables (R65, R390). -/
def State.imagePage (s : State) (pa : Nat) : Bool :=
  s.ctxs.toList.any fun c => c.tables.contains pa || c.images.any fun i => i.pages.any fun p => p.2 == pa

/-- Enters a 4 KiB leaf at `va` below the table of level `n`: the state and the next free page for tables. None: a page
is mapped there already, or the memory for a table is not there. -/
def State.mapPage (s : State) (va leaf : Nat) : Nat → Nat → Nat → Option (State × Nat)
  | 0, _, _ => none
  | n + 1, table, fresh =>
    let a := table + 8 * (va / 2 ^ (12 + 9 * n) % 512)
    let e := s.rdNat a 8
    if !s.backedPa a then none
    else if n = 0 then if e.testBit 0 then none else some (s.wrNat a 8 leaf, fresh)
    else if e.testBit 0 then
      if e.testBit 3 then none else s.mapPage va leaf n (e / 4096 % 2 ^ 40 * 4096) fresh
    else if !s.backedPa fresh || s.imagePage fresh then none
    else ((s.wr fresh (List.replicate 4096 0)).wrNat a 8 (fresh + 1)).mapPage va leaf n fresh (fresh + 4096)

/-- Maps pages of an image one after another; with the next page that is free for tables. -/
def State.mapPages (s : State) (root : Nat) (b : List Byte) (va pa : Nat) : List Nat → Nat → Option (State × Nat)
  | [], fresh => some (s, fresh)
  | k :: ks, fresh =>
    match s.mapPage (va + 4096 * k) (pa + 4096 * k + pageBits b k) 5 root fresh with
    | some r => r.1.mapPages root b va pa ks r.2
    | none => none

/-- Pages of an image. -/
def imagePages (b : List Byte) : Nat := (fieldOf b 8 8 + 4095) / 4096

/-- The place is usable: aligned, below the fixed regions, new pages backed by memory (R56, R65). -/
def State.placeOk (s : State) (va pa n : Nat) : Bool :=
  decide (va % 4096 = 0) && decide (pa % 4096 = 0) && decide (va + 4096 * n ≤ 30 * 2 ^ 52)
    && (List.range n).all fun k => s.backedPa (pa + 4096 * k) && !s.imagePage (pa + 4096 * k)

/-- Step 4 of LOAD_IMAGE: the image is written, relocated and mapped, its header page last (R390). -/
def State.placeImage (s : State) (cx : BitVec 6) (b : List Byte) : Cmd :=
  match s.oracle.load with
  | [] => .error (8, 0)
  | (va, pa) :: rest =>
    let n := imagePages b
    let s := { s with oracle := { s.oracle with load := rest } }
    if !s.placeOk va pa n then .error (8, 0)
    else
      match (s.wr pa (relocated b va)).mapPages s.ctxs[cx.toNat].root b va pa
          ((List.range n).drop 1 ++ [0]) (pa + 4096 * n) with
      | none => .error (8, 0)
      | some (t, fresh) =>
        let img : Loaded := ⟨va, fieldOf b 8 8, b, (List.range n).map fun k => (va + 4096 * k, pa + 4096 * k)⟩
        let taken := (List.range ((fresh - pa) / 4096 - n)).map fun k => pa + 4096 * (n + k)
        .ok (t.mapCtx cx fun c => { c with images := img :: c.images, tables := taken ++ c.tables }, bytesOf 8 va)

/-- LOAD_IMAGE, in the order of R390. DEDUCED, log 50. -/
def State.loadImage (s : State) (h : MbHdr) (src len : Nat) : Cmd := do
  let cx ← s.cmdCtx h
  if len < 128 ∨ 2 ^ 28 < len then .error (2, 0x18)
  else if !hostRange src (len + 1280) then .error (2, 0x10)
  else
    let key := (s.parts[h.p.toNat]).ownerKey
    let b := s.rd (hostKey + src) len
    if key.isEmpty || !falconVerifies key b (s.rd (hostKey + src + len) 1280) then .error (4, 0)
    else
      let st := imageStatus b (s.ctxs[cx.toNat]).model.isSome
      if st ≠ 0 then .error (5, st) else s.placeImage cx b

/-- `loadImage` (R390). -/
def execLoadImage (h : MbHdr) (src : DWord) (len : Word) (s : State) : Host.Outcome State Fault Refusal :=
  s.command h 0xC010 fun s => s.partCmd h (s.loadImage h src.toNat len.toNat)

/-- Takes away the 4 KiB leaf of `va` below the table of level `n`. -/
def State.unmapPage (s : State) (va : Nat) : Nat → Nat → State
  | 0, _ => s
  | n + 1, table =>
    let a := table + 8 * (va / 2 ^ (12 + 9 * n) % 512)
    let e := s.rdNat a 8
    if !s.backedPa a || !e.testBit 0 then s
    else if n = 0 then s.wrNat a 8 0
    else if e.testBit 3 then s
    else s.unmapPage va n (e / 4096 % 2 ^ 40 * 4096)

/-- A record of the context in states 1 to 4 names the image (R390). -/
def State.imageNamed (s : State) (cx : BitVec 6) (hdr : Nat) : Bool :=
  s.recs.any fun r => r.ctx == cx && r.snap.code == hdr

/-- RETIRE_IMAGE (R390). -/
def State.retireImage (s : State) (h : MbHdr) (addr : Nat) : Cmd := do
  let cx ← s.cmdCtx h
  let c := s.ctxs[cx.toNat]
  match c.images.find? fun i => i.hdr == addr with
  | none => .error (2, 0x10)
  | some i =>
    if s.imageNamed cx addr then .error (1, 0)
    else
      let s := i.pages.foldl (fun (s : State) (p : Nat × Nat) => s.unmapPage p.1 5 c.root) s
      let s := s.invalidate h.p 1 cx 0
      .ok (s.mapCtx cx fun c => { c with images := c.images.erase i }, [])

/-- `retireImage`. -/
def execRetireImage (h : MbHdr) (addr : DWord) (s : State) : Host.Outcome State Fault Refusal :=
  s.command h 0xC011 fun s => s.partCmd h (s.retireImage h addr.toNat)

/-! ## Models (R391, R392) -/

/-- Bytes of one weight-store bank (R3). -/
def bankBytes : Nat := 2 ^ 26

/-- A run that goes on holds the slot, or a record in states 2 to 4 took it (R392). -/
def State.slotHeld (s : State) (p : BitVec 4) (slot : BitVec 3) : Bool :=
  let runs := fun (b : Bank) => (b.run.map fun r => r.part == p && r.model == some slot).getD false
  runs s.bank || (s.shadow.map runs).getD false
    || s.recs.any fun r => s.partOf r == p && r.model == some slot && decide (2 ≤ r.state)

/-- A model slot of a partition. -/
def State.modelAt (s : State) (p : BitVec 4) (k : BitVec 3) : Model := (s.models[p.toNat])[k.toNat]

/-- Changes a model slot of a partition. -/
def State.mapModel (s : State) (p : BitVec 4) (k : BitVec 3) (f : Model → Model) : State :=
  let row := (s.models[p.toNat]).setIfInBounds k.toNat (f (s.modelAt p k))
  { s with models := s.models.setIfInBounds p.toNat row }

/-- The slot's digest (R391). -/
def Model.digest (m : Model) : List Byte := shake256 32 m.absorbed

/-- MODEL_DEFINE (R391). DEDUCED, log 51. -/
def State.modelDefine (s : State) (h : MbHdr) (slot mask : Byte) (zero : BitVec 48) (size : Nat) : Cmd :=
  let k : BitVec 3 := slot.setWidth 3
  if 8 ≤ slot.toNat then .error (7, 0x10)
  else if mask &&& ~~~(s.parts[h.p.toNat]).banks ≠ 0 then .error (7, 0x11)
  else if zero ≠ 0 then .error (2, 0x12)
  else if bankBytes * (8 * (setBits 8 mask.toNat).length) < size then .error (7, 0x18)
  else if s.slotHeld h.p k then .error (6, slot.toNat)
  else .ok (s.mapModel h.p k fun _ => ⟨true, mask, size, []⟩, [])

/-- `modelDefine`. -/
def execModelDefine (h : MbHdr) (slot mask : Byte) (zero : BitVec 48) (size : DWord) (s : State) :
    Host.Outcome State Fault Refusal :=
  s.command h 0xC020 fun s => s.partCmd h (s.modelDefine h slot mask zero size.toNat)

/-- Writes bytes of a weight image from offset `o` on, on one die (R139). -/
def Memory.writeWeights (m : Memory) (x : Model) (die o : Nat) : List Byte → Memory
  | [] => m
  | b :: bs => (m.write (wsBankKey die (x.place o).1 (x.place o).2) b).writeWeights x die (o + 1) bs

/-- WEIGHT_WRITE (R391). -/
def State.weightWrite (s : State) (h : MbHdr) (slot : Byte) (zero : BitVec 24) (dies : Word) (src off len : Nat) : Cmd :=
  let k : BitVec 3 := slot.setWidth 3
  let m := s.modelAt h.p k
  if 8 ≤ slot.toNat then .error (7, 0x10)
  else if zero ≠ 0 then .error (2, 0x11)
  else if 2 ^ 24 ≤ dies.toNat then .error (2, 0x14)
  else if !hostRange src len then .error (7, 0x18)
  else if len % 64 ≠ 0 then .error (2, 0x28)
  else if !m.defined then .error (2, 0x10)
  else if m.size < off + len then .error (7, 0x20)
  else if s.slotHeld h.p k then .error (6, slot.toNat)
  else
    let bs := s.rd (hostKey + src) len
    let mem := (setBits 24 dies.toNat).foldl (fun (x : Memory) d => x.writeWeights m d off bs) s.mem
    .ok (({ s with mem := mem }).mapModel h.p k fun m =>
      { m with absorbed := m.absorbed ++ bytesOf 8 off ++ bytesOf 8 len ++ bs }, bytesOf 8 len)

/-- `weightWrite`. -/
def execWeightWrite (h : MbHdr) (slot : Byte) (zero : BitVec 24) (dies : Word) (src off len : DWord) (s : State) :
    Host.Outcome State Fault Refusal :=
  s.command h 0xC021 fun s => s.partCmd h (s.weightWrite h slot zero dies src.toNat off.toNat len.toNat)

/-- MODEL_BIND (R392). -/
def State.modelBind (s : State) (h : MbHdr) (slot : Byte) (zero : BitVec 56) (sig : List Byte) : Cmd := do
  let cx ← s.cmdCtx h
  let k : BitVec 3 := slot.setWidth 3
  let m := s.modelAt h.p k
  let key := (s.parts[h.p.toNat]).ownerKey
  if 8 ≤ slot.toNat then .error (2, 0x10)
  else if zero ≠ 0 then .error (2, 0x11)
  else if !m.defined then .error (9, 0)
  else if key.isEmpty || !falconVerifies key m.digest (fitBytes 1280 sig) then .error (4, 0)
  else .ok (s.mapCtx cx fun c => { c with model := some k }, m.digest)

/-- `modelBind`. -/
def execModelBind (h : MbHdr) (slot : Byte) (zero : BitVec 56) (sig : List Byte) (s : State) :
    Host.Outcome State Fault Refusal :=
  s.command h 0xC022 fun s => s.partCmd h (s.modelBind h slot zero sig)

/-- MODEL_UNBIND (R392). -/
def State.modelUnbind (s : State) (h : MbHdr) : Cmd :=
  match s.cmdCtx h with
  | .error _ => .error (2, 5)
  | .ok cx =>
    if (s.ctxs[cx.toNat]).model.isNone then .error (9, 0)
    else .ok (s.mapCtx cx fun c => { c with model := none }, [])

/-- `modelUnbind`. -/
def execModelUnbind (h : MbHdr) (s : State) : Host.Outcome State Fault Refusal :=
  s.command h 0xC023 fun s => s.partCmd h (s.modelUnbind h)

/-! ## PARTITION_RESUME (R336, R337, R394) -/

/-- The areas of killed runs whose record was lost are released (R337). -/
def State.releaseLost (s : State) (p : BitVec 4) : State :=
  { s with heldAreas := s.heldAreas.filter fun h => !(s.ctxs[h.1.toNat].part == p && h.2.2.2.isNone) }

/-- PARTITION_RESUME. -/
def State.partitionResume (s : State) (h : MbHdr) : Cmd :=
  let free := s.queueFree h.p
  if !(s.parts[h.p.toNat]).stopped ∨ free ≤ 8 then .error (9, 0)
  else .ok ((s.mapPart h.p fun p => { p with stopped := false }).releaseLost h.p, bytesOf 4 free)

/-- `partitionResume`. -/
def execPartitionResume (h : MbHdr) (s : State) : Host.Outcome State Fault Refusal :=
  s.command h 0xC030 fun s => s.partCmd h (s.partitionResume h)

/-! ## ATTEST and OWNER_KEY (R395, R396) -/

/-- A digest, or zeros where there is nothing to digest. -/
def digestOr (o : Option (List Byte)) : List Byte := (o.map digest256).getD (List.replicate 32 0)

/-- The 176 bytes of a report (R396). -/
def State.report (s : State) (h : MbHdr) (nonce : List Byte) (cx : Option (BitVec 6)) : List Byte :=
  let key := (s.parts[h.p.toNat]).ownerKey
  let c := cx.map fun x => s.ctxs[x.toNat]
  let bound := (c.bind (·.model)).map fun k => (s.modelAt h.p k).absorbed
  fitBytes 32 nonce ++ romDigest ++ bytesOf 8 s.wall ++ [h.part, h.ctx] ++ List.replicate 6 0
    ++ digestOr (if key.isEmpty then none else some key)
    ++ digestOr ((c.bind fun x => x.images.head?).map (·.bytes)) ++ digestOr bound

/-- ATTEST: the report, and its signature by the identity key (R396). -/
def State.attest (s : State) (h : MbHdr) (nonce : List Byte) : Cmd := do
  let cx ← if h.ctx = 0xFF then .ok none else (s.cmdCtx h).map some
  let r := s.report h nonce cx
  .ok (s, r ++ fitBytes 1280 (Config.falconSign identityKey.1 r))

/-- `attest`. -/
def execAttest (h : MbHdr) (nonce : List Byte) (s : State) : Host.Outcome State Fault Refusal :=
  s.command h 0xC040 fun s => s.partCmd h (s.attest h nonce)

/-- OWNER_KEY: only while the partition has no context. -/
def State.setOwnerKey (s : State) (h : MbHdr) (key : List Byte) : Cmd :=
  let k := fitBytes 1793 key
  if s.ctxs.toList.any fun c => c.defined && c.part == h.p then .error (3, 0)
  else .ok (s.mapPart h.p fun p => { p with ownerKey := k }, digest256 k)

/-- `ownerKey`. -/
def execOwnerKey (h : MbHdr) (key : List Byte) (s : State) : Host.Outcome State Fault Refusal :=
  s.command h 0xC050 fun s => s.partCmd h (s.setOwnerKey h key)

end Sys2Proof.Machine
end

