-- ==== Sys2Proof/Machine/Links.lean ====
section
/-! DEFINITION. The host's window onto memory and the Barux Link: their commands, accesses from outside, ports
(R379 to R385). -/

namespace Sys2Proof

/-- Bytes an access touches. -/
def ExtAcc.len : ExtAcc → Nat
  | .read n => n
  | .write bs => bs.length

/-- The access writes. -/
def ExtAcc.writes : ExtAcc → Bool
  | .read _ => false
  | .write _ => true

end Sys2Proof

namespace Sys2Proof.Machine

/-! ## WINDOW (R381, R389) -/

/-- WINDOW: the partition of the header is 0. DEDUCED, log 52. -/
def State.setWindow (s : State) (h : MbHdr) (base size : Nat) : Cmd :=
  if h.part ≠ 0 then .error (2, 4)
  else if base % 2 ^ 30 ≠ 0 then .error (2, 0x10)
  else if 3 * 2 ^ 40 ≤ base then .error (7, 0x10)
  else if size % 2 ^ 30 ≠ 0 then .error (2, 0x18)
  else if 2 ^ 38 < size ∨ 3 * 2 ^ 40 < base + size then .error (7, 0x18)
  else if 0 < s.hostOut then .error (1, 0)
  else .ok ({ s with window := (base, size) }, [])

/-- `window`. -/
def execWindow (h : MbHdr) (base size : DWord) (s : State) : Host.Outcome State Fault Refusal :=
  s.command h 0xC060 fun s => s.setWindow h base.toNat size.toNat

/-! ## Link commands (R383 to R385, R389) -/

/-- Cycles of wall time within which a port's partner must train (R383). -/
def trainCycles : Nat := 180000000

/-- LINK_CONFIG: the enabled ports begin to train. -/
def State.linkConfig (s : State) (h : MbHdr) (pkg zero : BitVec 16) (ports : Word) : Cmd :=
  if h.part ≠ 0 then .error (3, 0)
  else if 2048 ≤ pkg.toNat then .error (2, 0x10)
  else if zero ≠ 0 then .error (2, 0x12)
  else if s.parts.toList.any (·.enabled) then .error (9, 0)
  else
    .ok ({ s with link := { s.link with
            configured := true, pkg := pkg.setWidth 11, enable := ports, up := 0, trained := 0, ever := 0
            trainBy := s.wall + trainCycles } }, [])

/-- `linkConfig`. -/
def execLinkConfig (h : MbHdr) (pkg zero : BitVec 16) (ports : Word) (s : State) : Host.Outcome State Fault Refusal :=
  s.command h 0xC070 fun s => s.linkConfig h pkg zero ports

/-- Ports of a destination's mask that have gone down since it was installed (R384). -/
def Link.failed (l : Link) (dest : Nat) : Word := ((l.routes.lookup dest).map (·.2)).getD 0

/-- A location of the package `dest`. -/
def toPackage (dest key : Nat) : Bool := decide (2 ^ 60 ≤ key) && decide ((key - 2 ^ 60) / 2 ^ 52 = dest)

/-- Requests of the core that have been made and not yet completed come to their end, those to keys that a test picks out
(R384). -/
def State.endRequests (s : State) (p : Nat → Bool) : State :=
  (s.readsWhere fun _ x => p x.2.2).flushWhere fun e => p e.key

/-- LINK_ROUTE: when every request routed on the old mask has completed, the mask of the destination is replaced; a port that
has failed and is in the new mask too stays failed (R384). -/
def State.linkRoute (s : State) (h : MbHdr) (dest zero : BitVec 16) (mask : Word) : Cmd :=
  if h.part ≠ 0 then .error (3, 0)
  else if 2048 ≤ dest.toNat then .error (7, 0x10)
  else if zero ≠ 0 then .error (2, 0x12)
  else
    let s := s.endRequests (toPackage dest.toNat)
    .ok ({ s with link := { s.link with
            routes := (dest.toNat, mask, s.link.failed dest.toNat &&& mask)
              :: s.link.routes.filter fun r => r.1 != dest.toNat } }, [])

/-- `linkRoute`. -/
def execLinkRoute (h : MbHdr) (dest zero : BitVec 16) (mask : Word) (s : State) : Host.Outcome State Fault Refusal :=
  s.command h 0xC071 fun s => s.linkRoute h dest zero mask

/-- An access accepted through an export entry is still to be performed (R385). -/
def State.exportUsed (s : State) (h : MbHdr) (entry : Byte) : Bool := s.exportOut.contains (h.p, entry.setWidth 6)

/-- EXPORT: an entry of the export table of the header's partition. One in use is not replaced (R387, R389); the command that
clears it completes when the accesses accepted through it have been performed (R385). DESIGN CHOICE, log 52. -/
def State.setExport (s : State) (h : MbHdr) (entry flags srcPart zero : Byte) (srcPkg zero2 : BitVec 16)
    (base size : Nat) : Cmd :=
  if 64 ≤ entry.toNat then .error (7, 0x10)
  else if 4 ≤ flags.toNat then .error (2, 0x11)
  else if 16 ≤ srcPart.toNat then .error (7, 0x12)
  else if zero ≠ 0 then .error (2, 0x13)
  else if zero2 ≠ 0 then .error (2, 0x16)
  else if base % 4096 ≠ 0 then .error (2, 0x18)
  else if size % 4096 ≠ 0 then .error (2, 0x20)
  else if flags.getLsbD 0 && s.exportUsed h entry then .error (1, 0)
  else
    let e : Export := ⟨flags.getLsbD 0, flags.getLsbD 1, srcPkg.toNat, srcPart.toNat, base, size⟩
    let table := (s.exports[h.p.toNat]).setIfInBounds entry.toNat e
    .ok ({ s with
      exports := s.exports.setIfInBounds h.p.toNat table
      exportOut := s.exportOut.filter fun x => x != (h.p, entry.setWidth 6) }, [])

/-- `exportEntry`. -/
def execExportEntry (h : MbHdr) (entry flags srcPart zero : Byte) (srcPkg zero2 : BitVec 16) (base size : DWord)
    (s : State) : Host.Outcome State Fault Refusal :=
  s.command h 0xC072 fun s =>
    s.partCmd h (s.setExport h entry flags srcPart zero srcPkg zero2 base.toNat size.toNat)

/-- Cycles of wall time in a second (R4). -/
def secondCycles : Nat := 1800000000

/-- Flit retries of a port in the last second (R389). -/
def Link.lately (l : Link) (now k : Nat) : Nat :=
  (l.retries.filter fun r => r.1 == k && decide (now < r.2 + secondCycles)).length

/-- The 8 bytes of a port in LINK_STATUS. -/
def Link.status (l : Link) (now k : Nat) : List Byte :=
  [BitVec.ofNat 8 (bit (l.up.getLsbD k) + 2 * bit (l.trained.getLsbD k)), BitVec.ofNat 8 (min (l.lately now k) 255)]
    ++ List.replicate 6 0

/-- `linkStatus`. -/
def execLinkStatus (h : MbHdr) (s : State) : Host.Outcome State Fault Refusal :=
  s.command h 0xC073 fun s => .ok (s, (List.range 32).flatMap (s.link.status s.wall))

/-! ## Accesses from outside (R380, R381, R385) -/

/-- A write by an agent outside the core, at a distance, performed at once: what the core's paths have read early there has missed
it, and granules that it covers are clean again (R144, R162, R163). -/
def State.writeFrom (s : State) (distance pa : Nat) (bs : List Byte) : State :=
  let s := s.flushWhere fun e => e.touches pa bs.length && e.seenAt distance
  let t := (s.noteWrite (.far distance) .own pa bs.length 4).wr pa bs
  let first := (pa + 63) / 64
  { t with mem := (List.range ((pa + bs.length) / 64 - first)).foldl (fun (m : Memory) i => m.cleanGranule (first + i)) t.mem }

/-- An access served at its home. -/
def State.serve (s : State) (pa : Nat) (acc : ExtAcc) : State :=
  match acc with
  | .read n => { s with reply := some (s.rd pa n, (s.mem.poisonAt pa n).isSome) }
  | .write bs => { s.writeFrom 4 pa bs with reply := some ([], false) }

/-- `hostMemAccess`: at an offset in the CXL.mem window; outside it nothing answers (R381). -/
def execHostMemAccess (hpa : Nat) (acc : ExtAcc) (s : State) : Host.Outcome State Fault Refusal :=
  .next (if hpa + acc.len ≤ s.window.2 then s.serve (s.window.1 + hpa) acc else { s with reply := none })

/-- `unsupportedRequest`: the device is unchanged (R380). -/
def execUnsupportedRequest (s : State) : Host.Outcome State Fault Refusal := .next { s with reply := none }

/-- The entry serves the access (R385). -/
def Export.serves (e : Export) (srcPkg srcPart pa : Nat) (acc : ExtAcc) : Bool :=
  e.valid && decide (e.srcPkg = srcPkg) && decide (e.srcPart = srcPart) && decide (e.base ≤ pa)
    && decide (pa + acc.len ≤ e.base + e.size) && (!acc.writes || e.writable)

/-- Every byte of a physical range is backed. -/
def State.backedRange (s : State) (pa n : Nat) : Bool := s.backedPa pa && s.backedPa (pa + (n - 1))

/-- An access of another package is served (R383, R385). -/
def State.exported (s : State) (srcPkg : BitVec 11) (srcPart : BitVec 4) (pa : Nat) (acc : ExtAcc) : Bool :=
  s.link.configured && s.backedRange pa acc.len
    && s.exports.toList.any fun t => t.toList.any fun e => e.serves srcPkg.toNat srcPart.toNat pa acc

/-- `remoteAccess`: served through an export table, or refused (R385). -/
def execRemoteAccess (srcPkg : BitVec 11) (srcPart : BitVec 4) (pa : Nat) (acc : ExtAcc) (s : State) :
    Host.Outcome State Fault Refusal :=
  .next (if s.exported srcPkg srcPart pa acc then s.serve pa acc else { s with reply := none })

/-- An atomic of another package, with operand `b` and compare value `x`: served like a write, and answered with the old value;
one that reads poison leaves memory unchanged (R145, R153, R385). -/
def State.remoteAtomic (s : State) (srcPkg : BitVec 11) (srcPart : BitVec 4) (pa w : Nat) (op : AmoOp) (b x : Nat) : State :=
  let old := s.rd pa w
  if !s.exported srcPkg srcPart pa (.write old) then { s with reply := none }
  else
    let bad := (s.mem.poisonAt pa w).isSome
    let s := match op.new w (ofBytes old) (b % 2 ^ (8 * w)) (x % 2 ^ (8 * w)) with
      | some v => if bad then s else s.serve pa (.write (bytesOf w v))
      | none => s
    { s with reply := some (old, bad) }

/-- `flitForward`: on the route to its destination, under the lane rule; a flit crosses at most 4 packages (R384). -/
def execFlitForward (dest : BitVec 11) (lane : BitVec 4) (hops : Nat) (s : State) : Host.Outcome State Fault Refusal :=
  .next
    (match s.linkPort dest.toNat lane.toNat with
    | some p =>
      if hops < 4 then { s with link := { s.link with forwarded := s.link.forwarded ++ [(p, dest.toNat)] } }
      else { s with reply := none }
    | none => { s with reply := none })

/-! ## Ports (R382 to R384) -/

/-- One bit of a port mask. -/
def portBit (port : BitVec 5) : Word := 1 <<< port.toNat

/-- A request for a key travels on a port. -/
def State.onPort (s : State) (port : BitVec 5) (key : Nat) : Bool :=
  decide (2 ^ 60 ≤ key) && s.linkPort ((key - 2 ^ 60) / 2 ^ 52) (keyLane key) == some port.toNat

/-- `linkPortDown`: the port's lanes are out of service until LINK_ROUTE installs a mask without it; requests already on it complete
with the error of check 7 (R384). -/
def execLinkPortDown (port : BitVec 5) (s : State) : Host.Outcome State Fault Refusal :=
  let l : Link := { s.link with
    up := s.link.up &&& ~~~portBit port
    trained := s.link.trained &&& ~~~portBit port
    routes := s.link.routes.map fun r => (r.1, r.2.1, r.2.2 ||| (r.2.1 &&& portBit port)) }
  .next ({ s with link := l }.endRequests (s.onPort port))

/-- The port's partner has trained since LINK_CONFIG, or still has time to (R383). -/
def Link.mayTrain (l : Link) (now : Nat) (port : BitVec 5) : Bool := l.ever.getLsbD port.toNat || decide (now ≤ l.trainBy)

/-- `linkTrainTimeout`: a port that has not trained in time stays down (R383). -/
def execLinkTrainTimeout (port : BitVec 5) (s : State) : Host.Outcome State Fault Refusal :=
  .next
    (if s.link.mayTrain s.wall port then s
    else { s with link := { s.link with
      up := s.link.up &&& ~~~portBit port
      trained := s.link.trained &&& ~~~portBit port } })

/-- `linkPortTrained`: an enabled port comes up, unless its partner is too late (R383). -/
def execLinkPortTrained (port : BitVec 5) (s : State) : Host.Outcome State Fault Refusal :=
  .next
    (if s.link.configured && s.link.enable.getLsbD port.toNat && s.link.mayTrain s.wall port then
      { s with link := { s.link with
        up := s.link.up ||| portBit port
        trained := s.link.trained ||| portBit port
        ever := s.link.ever ||| portBit port } }
    else s)

/-- `memoryPortLinkDown`: what lies behind the port is served no more (R382). -/
def execMemoryPortLinkDown (port : BitVec 2) (s : State) : Host.Outcome State Fault Refusal :=
  .next { s with portsUp := s.portsUp &&& ~~~((1 : BitVec 4) <<< port.toNat) }

end Sys2Proof.Machine
end

