-- ==== Sys2Proof/Machine/Scan.lean ====
section
/-! DEFINITION. What the units of a scan segment hold of the modelled core (R420). The manual lays out the result latches
alone (R339); the other layouts are the model's. DESIGN CHOICE, log 66. -/

namespace Sys2Proof.Machine

/-- Little-endian words of a list. -/
def words (n : Nat) (l : List Nat) : List Byte := l.flatMap (bytesOf n)

/-- A byte list with its length in two bytes before it. -/
def withLength (l : List Byte) : List Byte := bytesOf 2 l.length ++ l

/-- Unit 0 of an agent: program counter, general registers, masks, queues, mirror masks, then its special registers. -/
def State.scanAgent (s : State) (i : AgentId) : List Byte :=
  let a := s.agent i
  bytesOf 8 a.pc.toNat ++ words 4 (a.k.toList.map (·.toNat)) ++ words 4 (a.g.toList.map (·.toNat))
    ++ words 64 (a.vk.toList.map (·.toNat)) ++ words 64 (a.v.toList.map (·.toNat)) ++ words 2 (a.m.toList.map (·.toNat))
    ++ words 8 (a.sq.map (·.val.toNat)) ++ words 64 (a.vq.map (·.val.toNat))
    ++ withLength (a.bq.map fun b => BitVec.ofNat 8 (bit b))
    ++ a.xq.toList.flatMap (fun q => withLength (words 8 (q.map (·.toNat))))
    ++ bytesOf 4 a.smir.toNat ++ bytesOf 4 a.vmir.toNat
    ++ words 8 ((List.range 24).map fun n => ({ s with turn := i }.readSr (BitVec.ofNat 8 n)).toNat)

/-- Unit 1 of an agent: its latch records, in a section of 0x380 bytes (R339). -/
def State.scanLatches (s : State) (i : AgentId) : List Byte :=
  let a := (s.agent i).commit s.pt
  fitBytes 0x380 (a.latches.flatMap fun l => latchRecord a s.pt (s.bank.seqOf l.uid) l)

/-- Unit 4: a rule, in 64 bytes; a limit of all ones is none. -/
def Bank.scanRule (b : Bank) (r : BitVec 5) : List Byte :=
  let x := b.rule r
  words 8 [(b.status r).toNat, x.word.toNat, x.addr.toNat, x.next, x.limit.getD (2 ^ 64 - 1), x.screen.toNat, x.tag.toNat]
    ++ bytesOf 4 x.atrap.toNat ++ bytesOf 4 x.rngkey.toNat

/-- Unit 4: an open-tensor slot, in 64 bytes. -/
def OSlot.scanBytes (o : OSlot) : List Byte :=
  words 1 [bit o.conf, o.ty, o.rank, o.flags] ++ words 4 [o.w, o.e0, o.e1]
    ++ words 8 [o.base, o.stride, o.fill, o.soft, o.cap, o.loaded.getD (2 ^ 64 - 1)]

/-- Unit 5: a stream, in 112 bytes: its status word with the fill as zero, the pieces consumed, its descriptor. -/
def Strm.scanBytes (x : Strm) : List Byte :=
  let d := x.desc
  words 8 [(x.status 0).toNat, x.consumed, d.kind, d.ty, d.flags, d.chan, d.rows, d.cols, d.base, d.plane, d.count, d.sbase]
    ++ words 4 [d.rstr, d.pstr, d.sstr, d.sblk]

/-- Unit 3: a byte of the accumulators, 64 KiB each: 128 rows of 128 elements of 4 bytes. -/
def Bank.accByte (b : Bank) (o : Nat) : Byte :=
  let e := o % 65536 / 4
  (bytesOf 4 ((b.acc (BitVec.ofNat 2 (o / 65536))).at (e / 128) (e % 128)).toNat).getD (o % 4) 0

/-- The bytes of a unit of the modelled core, of those that are laid out as a list (R420). -/
def State.scanUnit (s : State) (u : Nat) : Option (List Byte) :=
  match u with
  | 0 => some ((List.finRange 5).flatMap s.scanAgent)
  | 1 => some ((List.finRange 5).flatMap s.scanLatches)
  | 4 => some (((List.range 32).flatMap fun r => s.bank.scanRule (BitVec.ofNat 5 r))
      ++ s.bank.slots.toList.flatMap OSlot.scanBytes)
  | 5 => some (s.bank.streams.toList.flatMap Strm.scanBytes)
  | _ => none

end Sys2Proof.Machine
end

