-- ==== Sys2Proof/Machine/Fleet.lean ====
section
/-! DEFINITION. Wear and the health block (R412 to R416), the debug port (R417 to R421), resets and the loss of power
(R4, R393, R397). -/

namespace Sys2Proof.Machine

/-! ## Wear (R415, R416) -/

/-- The number of the monitor with the largest wear; a tie goes to the lower number (R415). -/
def worstOf (wear : List Nat) : Nat :=
  (List.range wear.length).foldl (fun b k => if wear.getD b 0 < wear.getD k 0 then k else b) 0

/-- Cycles of wall time in an hour (R415). -/
def hourCycles : Nat := 6480000000000

/-- Samples that are kept: the present one and those of 720 hours (R415). -/
def keptSamples : Nat := 721

/-- The wear rate from the wear now, an earlier one and the hours between them (R415); none: the wear has fallen, or no time
lies between, and the manual states no rate. -/
def wearRate (now earlier hours : Nat) : Option Nat :=
  if now < earlier ∨ hours = 0 then none else some ((now - earlier) * 1000 / hours)

/-- The sample that a rate is taken from: the newest of those at least 720 hours old, or the oldest (R415). -/
def earlierSample (hour : Nat) (history : List (Nat × List Nat)) : Option (Nat × List Nat) :=
  match history.find? fun x => decide (x.1 + 720 ≤ hour) with
  | some x => some x
  | none => history.getLast?

/-- The predicted remaining hours (R416). -/
def hoursLeft (w rate : Nat) : Nat :=
  if rate = 0 then 0xFFFFFFFF else if 65536 ≤ w then 0 else (65536 - w) * 1000 / rate

/-- The record after the sample of an hour of wall time since cold reset; `free` stands for a rate without a stated value
(R415). DEDUCED, log 53. -/
def Health.sampled (h : Health) (hour : Nat) (wear : List Nat) (free : Nat) : Health :=
  let hist := ((hour, wear) :: h.history).take keptSamples
  let worst := worstOf wear
  let w := wear.getD worst 0
  let old := (earlierSample hour hist).getD (hour, wear)
  let rate := if hour < 24 then 0 else (wearRate w (old.2.getD worst 0) (hour - old.1)).getD free
  { h with
    wear := wear
    worst := worst
    worstWear := w
    rate := rate
    hours := hoursLeft w rate
    history := hist }

/-- The die has been sampled in this hour (R415). -/
def Health.isSampled (h : Health) (hour : Nat) : Bool := (h.history.head?.map fun x => x.1 == hour).getD false

/-- What the monitors of a die show: what they have last been said to show, else what its record holds (R415). -/
def State.monitorsOf (s : State) (d : Nat) (h : Health) : List Nat := (s.monitors.lookup d).getD h.wear

/-- The records of the dies that a test picks out take this hour's sample in one update each, if they have not had it (R415). -/
def State.sampleDies (s : State) (p : Nat → Bool) : State :=
  let hour := s.wall / hourCycles
  { s with
    health := s.health.mapIdx fun i h =>
      if p i && !h.isSampled hour then h.sampled hour (s.monitorsOf i h) (Config.freeRate (s.free + i) % 2 ^ 32) else h
    free := s.free + 24 }

/-- What the monitors of a die show from now on. -/
def State.setMonitors (s : State) (d : Nat) (wear : List Nat) : State :=
  { s with monitors := (d, wear) :: s.monitors.filter fun m => m.1 != d }

/-- `wearSample`: the monitors of a die are sampled; its record is updated once per hour of wall time (R415). -/
def execWearSample (die : BitVec 5) (wear : List (BitVec 16)) (s : State) : Host.Outcome State Fault Refusal :=
  .next ((s.setMonitors die.toNat (wear.map (·.toNat))).sampleDies (· == die.toNat))

/-- An hour of wall time has begun that the firmware has not sampled (R415). -/
def State.sampleDue (s : State) : Bool := decide (s.sampled < s.wall / hourCycles)

/-- The firmware samples every monitor of the package (R415). -/
def State.sampleAll (s : State) : State := { s.sampleDies fun _ => true with sampled := s.wall / hourCycles }

/-! ## The health block (R412) -/

/-- The 256 bytes of a die's record. -/
def Health.bytes (h : Health) : List Byte :=
  h.counters.flatMap (bytesOf 8) ++ bytesOf 2 h.hot.toNat ++ bytesOf 2 h.power ++ bytesOf 1 h.worst ++ bytesOf 3 0
    ++ bytesOf 4 h.worstWear ++ bytesOf 4 h.rate ++ bytesOf 4 h.hours ++ bytesOf 28 0 ++ h.wear.flatMap (bytesOf 2)

/-- The die with the least predicted remaining hours; a tie goes to the lower number. -/
def State.shortest (s : State) : Nat :=
  let hs := s.health.toList.map (·.hours)
  (List.range hs.length).foldl (fun b k => if hs.getD k 0 < hs.getD b 0 then k else b) 0

/-- The package summary. -/
def State.summary (s : State) : List Byte :=
  let d := s.shortest
  bytesOf 4 ((s.health.toList.map (·.hours)).getD d 0) ++ bytesOf 1 d
    ++ bytesOf 1 (s.health.toList.filter fun h => decide (0xE000 ≤ h.worstWear)).length ++ bytesOf 58 0

/-- A byte of BAR 2 that the health block gives; elsewhere the manual names none. -/
def State.healthByte (s : State) (o : Nat) : Byte :=
  if 0x20000 ≤ o ∧ o < 0x21800 then
    ((s.health.toList.map (·.bytes)).getD ((o - 0x20000) / 0x100) []).getD (o % 0x100) 0
  else if 0x38000 ≤ o ∧ o < 0x38040 then s.summary.getD (o - 0x38000) 0
  else Config.barByte s.wall o

/-! ## The host's reads of BAR 2 (R398 to R400, R412) -/

/-- A partition's control register as it is read (R399). -/
def Part.control (x : Part) : Nat :=
  bit x.enabled + 2 * bit x.resetting + 4 * bit x.stopped + 8 * bit x.preShares + 16 * bit x.preDeadlines
    + 128 * bit x.writeErr

/-- A context's control register as it is read (R400). -/
def Ctx.control (c : Ctx) : Nat := bit c.defined + 2 * bit c.supervisor + 256 * c.part.toNat

/-- The byte at offset `o` of a block's registers, if one has it. -/
def regByte {α : Type} (l : List (Reg α)) (x : α) (o : Nat) : Option Byte :=
  (l.find? fun r => decide (r.off ≤ o) && decide (o < r.off + r.size)).map fun r =>
    (bytesOf r.size (r.get x)).getD (o - r.off) 0

/-- A byte of a partition block (R399). -/
def State.partByte (s : State) (p : BitVec 4) (o : Nat) : Option Byte :=
  let x := s.parts[p.toNat]
  if o < 8 then some ((bytesOf 8 x.control).getD o 0)
  else if 0x50 ≤ o ∧ o < 0x54 then
    some ((bytesOf 4 (x.invCmd.toNat % 2 ^ 31 + 2 ^ 31 * bit x.invBusy)).getD (o - 0x50) 0)
  else regByte (s.partRegs p) x o

/-- A byte of a context block (R400). -/
def State.ctxByte (s : State) (cx : BitVec 6) (o : Nat) : Option Byte :=
  let c := s.ctxs[cx.toNat]
  if o < 8 then some ((bytesOf 8 c.control).getD o 0) else regByte ctxRegs c o

/-- A byte of BAR 2 (R398, R412); of a write-only register, and where the manual lays out none, it is free. -/
def State.barByte (s : State) (o : Nat) : Byte :=
  if o < 0x10000 then (s.partByte (BitVec.ofNat 4 (o / 0x1000)) (o % 0x1000)).getD (Config.barByte s.wall o)
  else if o < 0x12000 then
    (s.ctxByte (BitVec.ofNat 6 ((o - 0x10000) / 0x80)) ((o - 0x10000) % 0x80)).getD (Config.barByte s.wall o)
  else s.healthByte o

/-- The host reads BAR 2: 4 or 8 bytes, aligned; nothing changes (R398, R412, R421). -/
def State.barRead (s : State) (off len : Nat) : State :=
  if (len = 4 ∨ len = 8) ∧ off % len = 0 then
    { s with reply := some ((List.range len).map fun k => s.barByte (off + k), false) }
  else { s with reply := none }

/-- The host reads bytes that the manual does not lay out: of the function's configuration space, or of its CXL device registers
(R379). DESIGN CHOICE, log 55. -/
def State.openRead (s : State) (byte : Nat → Nat → Byte) (off len : Nat) : State :=
  { s with reply := some ((List.range len).map fun k => byte s.wall (off + k), false) }

/-! ## The debug port (R417 to R421) -/

/-- One byte into a CRC-16 of polynomial 0x1021, most significant bit first (R417). -/
def crcByte (c : BitVec 16) (b : Byte) : BitVec 16 :=
  (List.range 8).foldl (fun c _ => if c.getLsbD 15 then (c <<< 1) ^^^ 0x1021 else c <<< 1)
    (c ^^^ ((b.setWidth 16) <<< 8))

/-- The CRC of a frame: initial value 0xFFFF (R417). DEDUCED, log 54. -/
def crc16 (l : List Byte) : BitVec 16 := l.foldl crcByte 0xFFFF

/-- The answer frame: 0x5A, status, bytes, CRC over status and bytes (R417). -/
def answerFrame (status : Byte) (bs : List Byte) : List Byte :=
  0x5A :: (status :: bs) ++ bytesOf 2 (crc16 (status :: bs)).toNat

/-- A transaction of the channel: a bad CRC gives status 1 and no bytes (R417). -/
def State.debugAnswer (s : State) (crcOk : Bool) (bs : List Byte) : Host.Outcome State Fault Refusal :=
  .next { s with dbg := { s.dbg with
    answer := if crcOk then answerFrame 0 bs else answerFrame 1 []
    busy := true } }

/-- Eight bytes of 0xFF (R420). -/
def noAnswer : List Byte := List.replicate 8 0xFF

/-- `readHealth` (R420). -/
def execReadHealth (off len : Word) (crcOk : Bool) (s : State) : Host.Outcome State Fault Refusal :=
  s.debugAnswer crcOk ((List.range len.toNat).map fun k => s.healthByte (off.toNat + k))

/-- The segment as it is told apart: of die state the core field is ignored (R420). -/
def scanSeg (seg : Nat) : Nat := if 6 ≤ seg % 16 then seg / 1024 % 32 * 1024 + seg % 16 else seg % 2 ^ 15

/-- The modelled core is the segment's (R420). -/
def State.scansHere (s : State) (seg : Nat) : Bool := seg / 16 % 2 ^ 11 == s.die * 64 + s.core

/-- A byte of a scan segment (R420): nothing of a die above 23; scratchpads and accumulators only if no partition was
enabled at the freeze; of other cores, and past what the model lays out, it is free. -/
def State.scanByteAt (s : State) (seg o : Nat) : Byte :=
  let die := seg / 1024 % 32
  let core := seg / 16 % 64
  let u := seg % 16
  let free := Config.scanByte s.dbg.tag (scanSeg seg) o
  if 24 ≤ die then 0
  else if (u = 2 ∨ u = 3) ∧ !s.dbg.partsOff then 0
  else if u = 2 ∧ o < 2 ^ 21 then s.mem.read (padKey (die * 64 + core) o)
  else if u = 3 ∧ o < 2 ^ 18 ∧ s.scansHere seg then s.bank.accByte o
  else if s.scansHere seg then ((s.scanUnit u).getD []).getD o free
  else free

/-- `readScan` (R420). -/
def execReadScan (seg off len : Word) (crcOk : Bool) (s : State) : Host.Outcome State Fault Refusal :=
  s.debugAnswer crcOk
    (if s.dbg.ack then (List.range len.toNat).map fun k => s.scanByteAt seg.toNat (off.toNat + k) else noAnswer)

/-- Size of a segment: a scratchpad has 2 MiB, the accumulators have 256 KiB (R3, R420); what the model lays out has its own
length, and the others are free. -/
def State.scanSizeOf (s : State) (seg : Nat) : Nat :=
  if 24 ≤ seg / 1024 % 32 then Config.scanSize (scanSeg seg)
  else if seg % 16 = 2 then 2 ^ 21
  else if seg % 16 = 3 then 2 ^ 18
  else
    match if s.scansHere seg then s.scanUnit (seg % 16) else none with
    | some l => l.length
    | none => Config.scanSize (scanSeg seg)

/-- `scanSize` (R420). -/
def execScanSize (seg : Word) (crcOk : Bool) (s : State) : Host.Outcome State Fault Refusal :=
  s.debugAnswer crcOk (bytesOf 8 (s.scanSizeOf seg.toNat))

/-- `debugUnknownCommand` (R420). -/
def execDebugUnknownCommand (_code : Byte) (crcOk : Bool) (s : State) : Host.Outcome State Fault Refusal :=
  s.debugAnswer crcOk noAnswer

/-- Bytes that a command frame has at least, from its code on: code, operands, CRC (R417, R420). -/
def frameNeeds (code : Byte) : Nat :=
  match code.toNat with
  | 1 => 11
  | 2 => 15
  | 3 => 7
  | _ => 3

/-- A transaction of the debug channel, from the bytes of its command frame: one that is too short has status 2, one whose CRC
fails status 1 (R417, R420). Bytes that do not begin with 0xA5 are no frame. DEDUCED, log 54. -/
def State.debugFrame (s : State) (bytes : List Byte) : Host.Outcome State Fault Refusal :=
  match bytes with
  | 0xA5 :: l =>
    let body := l.take (l.length - 2)
    let ok := decide ((crc16 body).toNat = fieldOf l (l.length - 2) 2)
    let w := fun (o : Nat) => BitVec.ofNat 32 (fieldOf l (1 + 4 * o) 4)
    if l.length < frameNeeds (l.headD 0) then
      .next { s with dbg := { s.dbg with answer := answerFrame 2 [], busy := true } }
    else
      match l with
      | 0x01 :: _ => execReadHealth (w 0) (w 1) ok s
      | 0x02 :: _ => execReadScan (w 0) (w 1) (w 2) ok s
      | 0x03 :: _ => execScanSize (w 0) ok s
      | c :: _ => execDebugUnknownCommand c ok s
      | [] => .next s
  | _ => .next s

/-- A transaction is discarded: nothing of it is answered (R417). -/
def State.debugDrop (s : State) : State := { s with dbg := { s.dbg with answer := [], busy := false } }

/-- `debugAbort` (R417). -/
def execDebugAbort (s : State) : Host.Outcome State Fault Refusal := .next s.debugDrop

/-- `debugStallTimeout` (R417). -/
def execDebugStallTimeout (s : State) : Host.Outcome State Fault Refusal := .next s.debugDrop

/-- `frzAssert`: every clock stops, and FRZACK rises (R418). -/
def execFrzAssert (s : State) : Host.Outcome State Fault Refusal :=
  .next
    (if s.dbg.frz then s
    else
      { s with
        dbg := { s.dbg with
          frz := true
          ack := true
          partsOff := s.parts.toList.all fun p => !p.enabled
          tag := s.free }
        free := s.free + 1 })

/-- `frzRelease`: the clocks go on at the held count (R418). -/
def execFrzRelease (s : State) : Host.Outcome State Fault Refusal :=
  .next { s with dbg := { s.dbg with frz := false, ack := false } }

/-! ## Resets and power (R4, R393, R397) -/

/-- The part of an undefined range within some addresses. -/
def clipRange (lo hi : Nat) (r : Nat × Nat × Nat) : List (Nat × Nat × Nat) :=
  if max lo r.1 < min hi r.2.1 then [(max lo r.1, min hi r.2.1, r.2.2)] else []

/-- Memory with the keys from `lo` on below `hi` scrubbed: no byte, no undefined range and no poison of them is kept. -/
def Memory.scrub (m : Memory) (lo hi : Nat) : Memory :=
  let kept := fun (k : Nat) => decide (k < lo) || decide (hi ≤ k)
  { cells := m.cells.filter fun c => kept c.1
    undefs := m.undefs.flatMap fun r => clipRange 0 lo r ++ clipRange hi r.2.1 r
    poison := m.poison.filter fun g => kept (64 * g) }

/-- A health record after a cold reset: its wear is kept, its history and counters are not (R413, R415). -/
def Health.restarted (h : Health) : Health :=
  { Health.init with wear := h.wear, worst := h.worst, worstWear := h.worstWear }

/-- `coldReset`: boot stage 1, with scratchpads zeroed; the stages follow, a cycle each (R397). DEDUCED, log 55. -/
def execColdReset (s : State) : Host.Outcome State Fault Refusal :=
  .next
    { State.reset with
      die := s.die
      core := s.core
      mem := s.mem.scrub (2 ^ 54) (2 ^ 56)
      health := s.health.map Health.restarted
      monitors := s.monitors
      devices := s.devices
      portsErr := s.portsErr
      stage := 1
      inbox := s.inbox
      outside := s.outside
      oracle := s.oracle
      free := s.free + 1 }

/-- The capacity of the device that a memory port has now, in GiB (R382). -/
def State.deviceGiB (s : State) (k : Nat) : Nat := (s.devices.lookup k).getD (Config.portGiB k)

/-- Boot goes on (R397): LPDDR gen 6 trained and scrubbed, where a failing channel stops it with media status set; the weight
store scrubbed; the memory ports' devices mapped; the window of size 0. -/
def State.boot (s : State) : State :=
  match s.stage with
  | 1 => { s with stage := 2 }
  | 2 =>
    if Config.channelFails s.free then { s with mediaBad := true, free := s.free + 1 }
    else { s with mem := s.mem.scrub 0 (2 ^ 42), stage := 3, free := s.free + 1 }
  | 3 => { s with mem := s.mem.scrub (2 ^ 56) (2 ^ 60), stage := 4 }
  | 4 => { s with mapped := some ((List.range 4).map s.deviceGiB), stage := 5 }
  | 5 => { s with window := (0, 0), stage := 6 }
  | _ => s

/-- Boot has not come to its end. -/
def State.boots (s : State) : Bool := decide (s.stage < 6) && !s.mediaBad

/-- The host reads the memory-device status register: the stage, and media status (R397). DESIGN CHOICE, log 55. -/
def State.statusRead (s : State) : State :=
  { s with reply := some ([BitVec.ofNat 8 s.stage, BitVec.ofNat 8 (bit s.mediaBad)], false) }

/-- `hotReset`: a command that is in progress runs on, and its response and record will be discarded (R393). -/
def execHotReset (s : State) : Host.Outcome State Fault Refusal :=
  .next (if s.mailbox.busy then { s with mailbox := { s.mailbox with response := [], discard := true } } else s)

/-- `packagePowerLoss` (R4). -/
def execPackagePowerLoss (s : State) : Host.Outcome State Fault Refusal := .next { s with powered := false }

end Sys2Proof.Machine
end

