-- ==== Sys2Proof/Machine/Dispatch.lean ====
section
/-! DEFINITION. One arm for each instruction and event of the opcode table. -/

namespace Sys2Proof.Machine

/-- What an instruction or event does to the state. -/
def exec (i : Instr) (s : State) : Host.Outcome State Fault Refusal :=
  match i with
  | .nop => Sys2Proof.Machine.execNop s
  | .brk n => Sys2Proof.Machine.execBrk n s
  | .trap n => Sys2Proof.Machine.execTrap n s
  | .tfence => Sys2Proof.Machine.execTfence s
  | .sret => Sys2Proof.Machine.execSret s
  | .tlbinv a b scope => Sys2Proof.Machine.execTlbinv a b scope s
  | .halt => Sys2Proof.Machine.execHalt s
  | .add sc d a b => Sys2Proof.Machine.execAdd sc d a b s
  | .sub sc d a b => Sys2Proof.Machine.execSub sc d a b s
  | .mul sc d a b => Sys2Proof.Machine.execMul sc d a b s
  | .mulh sc d a b nat => Sys2Proof.Machine.execMulh sc d a b nat s
  | .div sc d a b => Sys2Proof.Machine.execDiv sc d a b s
  | .divn sc d a b => Sys2Proof.Machine.execDivn sc d a b s
  | .rem sc d a b => Sys2Proof.Machine.execRem sc d a b s
  | .remn sc d a b => Sys2Proof.Machine.execRemn sc d a b s
  | .and sc d a b => Sys2Proof.Machine.execAnd sc d a b s
  | .or sc d a b => Sys2Proof.Machine.execOr sc d a b s
  | .xor sc d a b => Sys2Proof.Machine.execXor sc d a b s
  | .shl sc d a b => Sys2Proof.Machine.execShl sc d a b s
  | .shr sc d a b => Sys2Proof.Machine.execShr sc d a b s
  | .sra sc d a b => Sys2Proof.Machine.execSra sc d a b s
  | .min sc d a b => Sys2Proof.Machine.execMin sc d a b s
  | .max sc d a b => Sys2Proof.Machine.execMax sc d a b s
  | .minn sc d a b => Sys2Proof.Machine.execMinn sc d a b s
  | .maxn sc d a b => Sys2Proof.Machine.execMaxn sc d a b s
  | .clz sc d a => Sys2Proof.Machine.execClz sc d a s
  | .ctz sc d a => Sys2Proof.Machine.execCtz sc d a s
  | .popc sc d a => Sys2Proof.Machine.execPopc sc d a s
  | .seq sc d a b => Sys2Proof.Machine.execSeq sc d a b s
  | .sne sc d a b => Sys2Proof.Machine.execSne sc d a b s
  | .slt sc d a b => Sys2Proof.Machine.execSlt sc d a b s
  | .sltn sc d a b => Sys2Proof.Machine.execSltn sc d a b s
  | .sel sc d a b x => Sys2Proof.Machine.execSel sc d a b x s
  | .bfx sc d a b sx => Sys2Proof.Machine.execBfx sc d a b sx s
  | .bfi sc d a b x => Sys2Proof.Machine.execBfi sc d a b x s
  | .addi sc d a imm => Sys2Proof.Machine.execAddi sc d a imm s
  | .andi sc d a imm => Sys2Proof.Machine.execAndi sc d a imm s
  | .ori sc d a imm => Sys2Proof.Machine.execOri sc d a imm s
  | .xori sc d a imm => Sys2Proof.Machine.execXori sc d a imm s
  | .shli sc d a n => Sys2Proof.Machine.execShli sc d a n s
  | .shri sc d a n => Sys2Proof.Machine.execShri sc d a n s
  | .srai sc d a n => Sys2Proof.Machine.execSrai sc d a n s
  | .movi sc d imm => Sys2Proof.Machine.execMovi sc d imm s
  | .slti sc d a imm => Sys2Proof.Machine.execSlti sc d a imm s
  | .sltni sc d a imm => Sys2Proof.Machine.execSltni sc d a imm s
  | .muli sc d a imm => Sys2Proof.Machine.execMuli sc d a imm s
  | .add64 sc d a b => Sys2Proof.Machine.execAdd64 sc d a b s
  | .sub64 sc d a b => Sys2Proof.Machine.execSub64 sc d a b s
  | .mov64 sc d a => Sys2Proof.Machine.execMov64 sc d a s
  | .shl64 sc d a b => Sys2Proof.Machine.execShl64 sc d a b s
  | .slt64n sc d a b => Sys2Proof.Machine.execSlt64n sc d a b s
  | .addi64 sc d a imm => Sys2Proof.Machine.execAddi64 sc d a imm s
  | .movi64 sc d imm => Sys2Proof.Machine.execMovi64 sc d imm s
  | .sethi sc d a imm => Sys2Proof.Machine.execSethi sc d a imm s
  | .br h disp => Sys2Proof.Machine.execBr h disp s
  | .bz p h disp => Sys2Proof.Machine.execBz p h disp s
  | .bnz p h disp => Sys2Proof.Machine.execBnz p h disp s
  | .call sc p h disp => Sys2Proof.Machine.execCall sc p h disp s
  | .ret p h => Sys2Proof.Machine.execRet p h s
  | .jmp p h disp => Sys2Proof.Machine.execJmp p h disp s
  | .brq h disp => Sys2Proof.Machine.execBrq h disp s
  | .loop p lv h disp => Sys2Proof.Machine.execLoop p lv h disp s
  | .lbrk p h disp => Sys2Proof.Machine.execLbrk p h disp s
  | .ldrain h disp => Sys2Proof.Machine.execLdrain h disp s
  | .lidx sc p lv h => Sys2Proof.Machine.execLidx sc p lv h s
  | .ld sc d bp sz scp acq off => Sys2Proof.Machine.execLd sc d bp sz scp acq off s
  | .st d bp sz scp rel off => Sys2Proof.Machine.execSt d bp sz scp rel off s
  | .pref bp off => Sys2Proof.Machine.execPref bp off s
  | .amoadd sc d a b scp o wide => Sys2Proof.Machine.execAmoadd sc d a b scp o wide s
  | .amoswp sc d a b scp o wide => Sys2Proof.Machine.execAmoswp sc d a b scp o wide s
  | .amocas sc d a b x scp o wide => Sys2Proof.Machine.execAmocas sc d a b x scp o wide s
  | .amomin sc d a b scp o wide => Sys2Proof.Machine.execAmomin sc d a b scp o wide s
  | .amomax sc d a b scp o wide => Sys2Proof.Machine.execAmomax sc d a b scp o wide s
  | .amominn sc d a b scp o wide => Sys2Proof.Machine.execAmominn sc d a b scp o wide s
  | .amomaxn sc d a b scp o wide => Sys2Proof.Machine.execAmomaxn sc d a b scp o wide s
  | .amoand sc d a b scp o wide => Sys2Proof.Machine.execAmoand sc d a b scp o wide s
  | .amoor sc d a b scp o wide => Sys2Proof.Machine.execAmoor sc d a b scp o wide s
  | .amoxor sc d a b scp o wide => Sys2Proof.Machine.execAmoxor sc d a b scp o wide s
  | .fenceM p => Sys2Proof.Machine.execFenceM p s
  | .fenceX scp a b => Sys2Proof.Machine.execFenceX scp a b s
  | .bind sc d a b x => Sys2Proof.Machine.execBind sc d a b x s
  | .unbind sc d a b => Sys2Proof.Machine.execUnbind sc d a b s
  | .acqAll scp => Sys2Proof.Machine.execAcqAll scp s
  | .relAll scp => Sys2Proof.Machine.execRelAll scp s
  | .vadd sc d a b t m => Sys2Proof.Machine.execVadd sc d a b t m s
  | .vsub sc d a b t m => Sys2Proof.Machine.execVsub sc d a b t m s
  | .vmul sc d a b t m => Sys2Proof.Machine.execVmul sc d a b t m s
  | .vmin sc d a b t m => Sys2Proof.Machine.execVmin sc d a b t m s
  | .vmax sc d a b t m => Sys2Proof.Machine.execVmax sc d a b t m s
  | .vabs sc d a t m => Sys2Proof.Machine.execVabs sc d a t m s
  | .vand sc d a b t m => Sys2Proof.Machine.execVand sc d a b t m s
  | .vor sc d a b t m => Sys2Proof.Machine.execVor sc d a b t m s
  | .vxor sc d a b t m => Sys2Proof.Machine.execVxor sc d a b t m s
  | .vshl sc d a b t m => Sys2Proof.Machine.execVshl sc d a b t m s
  | .vshr sc d a b t m => Sys2Proof.Machine.execVshr sc d a b t m s
  | .vsra sc d a b t m => Sys2Proof.Machine.execVsra sc d a b t m s
  | .vadds sc d a b t m => Sys2Proof.Machine.execVadds sc d a b t m s
  | .vsubs sc d a b t m => Sys2Proof.Machine.execVsubs sc d a b t m s
  | .vcmpeq sc d a b t m => Sys2Proof.Machine.execVcmpeq sc d a b t m s
  | .vcmplt sc d a b t m => Sys2Proof.Machine.execVcmplt sc d a b t m s
  | .vcmple sc d a b t m => Sys2Proof.Machine.execVcmple sc d a b t m s
  | .vfadd sc d a b t m r => Sys2Proof.Machine.execVfadd sc d a b t m r s
  | .vfsub sc d a b t m r => Sys2Proof.Machine.execVfsub sc d a b t m r s
  | .vfmul sc d a b t m r => Sys2Proof.Machine.execVfmul sc d a b t m r s
  | .vfma sc d a b x t m r => Sys2Proof.Machine.execVfma sc d a b x t m r s
  | .vfms sc d a b x t m r => Sys2Proof.Machine.execVfms sc d a b x t m r s
  | .vfmin sc d a b t m => Sys2Proof.Machine.execVfmin sc d a b t m s
  | .vfmax sc d a b t m => Sys2Proof.Machine.execVfmax sc d a b t m s
  | .vfabs sc d a t m => Sys2Proof.Machine.execVfabs sc d a t m s
  | .vfneg sc d a t m => Sys2Proof.Machine.execVfneg sc d a t m s
  | .vfcmpeq sc d a b t m => Sys2Proof.Machine.execVfcmpeq sc d a b t m s
  | .vfcmplt sc d a b t m => Sys2Proof.Machine.execVfcmplt sc d a b t m s
  | .vfcmple sc d a b t m => Sys2Proof.Machine.execVfcmple sc d a b t m s
  | .vfcmpun sc d a b t m => Sys2Proof.Machine.execVfcmpun sc d a b t m s
  | .vrcp sc d a t m r => Sys2Proof.Machine.execVrcp sc d a t m r s
  | .vrsqrt sc d a t m r => Sys2Proof.Machine.execVrsqrt sc d a t m r s
  | .vsqrt sc d a t m r => Sys2Proof.Machine.execVsqrt sc d a t m r s
  | .vexp2 sc d a t m r => Sys2Proof.Machine.execVexp2 sc d a t m r s
  | .vlog2 sc d a t m r => Sys2Proof.Machine.execVlog2 sc d a t m r s
  | .vdiv sc d a b t m r => Sys2Proof.Machine.execVdiv sc d a b t m r s
  | .vrope sc d a b x t m r c => Sys2Proof.Machine.execVrope sc d a b x t m r c s
  | .vrng sc d a m => Sys2Proof.Machine.execVrng sc d a m s
  | .vcvt sc d a t src m r => Sys2Proof.Machine.execVcvt sc d a t src m r s
  | .vpack sc d a x t qx => Sys2Proof.Machine.execVpack sc d a x t qx s
  | .vunpk sc d a t qx m => Sys2Proof.Machine.execVunpk sc d a t qx m s
  | .vpk6 sc d a x lo qx => Sys2Proof.Machine.execVpk6 sc d a x lo qx s
  | .vupk6 sc d a b qx h m => Sys2Proof.Machine.execVupk6 sc d a b qx h m s
  | .vtrit sc d a t qx m => Sys2Proof.Machine.execVtrit sc d a t qx m s
  | .vtritp sc d a x qx => Sys2Proof.Machine.execVtritp sc d a x qx s
  | .vbcast sc d a m => Sys2Proof.Machine.execVbcast sc d a m s
  | .vext sc d a b => Sys2Proof.Machine.execVext sc d a b s
  | .vins sc d a b x => Sys2Proof.Machine.execVins sc d a b x s
  | .vperm sc d a b x m => Sys2Proof.Machine.execVperm sc d a b x m s
  | .vred sc d a t op m r => Sys2Proof.Machine.execVred sc d a t op m r s
  | .vscan sc d a t op m r => Sys2Proof.Machine.execVscan sc d a t op m r s
  | .vsortk sc d a b t asc m => Sys2Proof.Machine.execVsortk sc d a b t asc m s
  | .vcompress sc d a m => Sys2Proof.Machine.execVcompress sc d a m s
  | .mand d a b => Sys2Proof.Machine.execMand d a b s
  | .mor d a b => Sys2Proof.Machine.execMor d a b s
  | .mxor d a b => Sys2Proof.Machine.execMxor d a b s
  | .mnot d a => Sys2Proof.Machine.execMnot d a s
  | .mset d b => Sys2Proof.Machine.execMset d b s
  | .mget sc d a => Sys2Proof.Machine.execMget sc d a s
  | .mpop d a => Sys2Proof.Machine.execMpop d a s
  | .mfirst d a => Sys2Proof.Machine.execMfirst d a s
  | .mbit d a n clr => Sys2Proof.Machine.execMbit d a n clr s
  | .vld sc d bp sz m off => Sys2Proof.Machine.execVld sc d bp sz m off s
  | .vst d bp sz m off => Sys2Proof.Machine.execVst d bp sz m off s
  | .vldg sc d bp sz m idx off => Sys2Proof.Machine.execVldg sc d bp sz m idx off s
  | .vsts d bp sz m idx off => Sys2Proof.Machine.execVsts d bp sz m idx off s
  | .stcfg sn bp off => Sys2Proof.Machine.execStcfg sn bp off s
  | .stadv sn a => Sys2Proof.Machine.execStadv sn a s
  | .ststat sc d sn => Sys2Proof.Machine.execStstat sc d sn s
  | .stcut sn => Sys2Proof.Machine.execStcut sn s
  | .streamFill sn => Sys2Proof.Machine.execStreamFill sn s
  | .streamOutputWrite sn => Sys2Proof.Machine.execStreamOutputWrite sn s
  | .mma ac sa sb t ta tb kc => Sys2Proof.Machine.execMma ac sa sb t ta tb kc s
  | .tmm ac sa sb ta tb kc => Sys2Proof.Machine.execTmm ac sa sb ta tb kc s
  | .tmmt ac sa sb t kc => Sys2Proof.Machine.execTmmt ac sa sb t kc s
  | .tmmw ac sa sb t kc => Sys2Proof.Machine.execTmmw ac sa sb t kc s
  | .jointOperation p ac t ta tb kc => Sys2Proof.Machine.execJointOperation p ac t ta tb kc s
  | .acfg ac i32 rows cols discard => Sys2Proof.Machine.execAcfg ac i32 rows cols discard s
  | .aczero ac i32 => Sys2Proof.Machine.execAczero ac i32 s
  | .acdrain ac sa sb sx t rs cs keep r => Sys2Proof.Machine.execAcdrain ac sa sb sx t rs cs keep r s
  | .acload ac sa i32 => Sys2Proof.Machine.execAcload ac sa i32 s
  | .tadd ac sa t b => Sys2Proof.Machine.execTadd ac sa t b s
  | .tmul ac sa t b => Sys2Proof.Machine.execTmul ac sa t b s
  | .tact ac f => Sys2Proof.Machine.execTact ac f s
  | .tactd ac sa t f => Sys2Proof.Machine.execTactd ac sa t f s
  | .trms ac sx t e => Sys2Proof.Machine.execTrms ac sx t e s
  | .trmsd ac sa sx t e => Sys2Proof.Machine.execTrmsd ac sa sx t e s
  | .tsmax ac sx norm => Sys2Proof.Machine.execTsmax ac sx norm s
  | .tsmaxd ac sa t => Sys2Proof.Machine.execTsmaxd ac sa t s
  | .tscale ac sa t => Sys2Proof.Machine.execTscale ac sa t s
  | .vproj ac sa sb t ta tb kc => Sys2Proof.Machine.execVproj ac sa sb t ta tb kc s
  | .vmerge sa sb sx rows => Sys2Proof.Machine.execVmerge sa sb sx rows s
  | .vprojd ac sa sb sx t h dw kc => Sys2Proof.Machine.execVprojd ac sa sb sx t h dw kc s
  | .attn d bp off => Sys2Proof.Machine.execAttn d bp off s
  | .attnd d bp a off => Sys2Proof.Machine.execAttnd d bp a off s
  | .otcfg d slot bp off => Sys2Proof.Machine.execOtcfg d slot bp off s
  | .extend d slot a => Sys2Proof.Machine.execExtend d slot a s
  | .extendC d slot a => Sys2Proof.Machine.execExtendC d slot a s
  | .revoke d a => Sys2Proof.Machine.execRevoke d a s
  | .revokeAt d a bp => Sys2Proof.Machine.execRevokeAt d a bp s
  | .rlresume d a => Sys2Proof.Machine.execRlresume d a s
  | .rlstat d a => Sys2Proof.Machine.execRlstat d a s
  | .omap d bp off a => Sys2Proof.Machine.execOmap d bp off a s
  | .standInstall f => Sys2Proof.Machine.execStandInstall f s
  | .firingRound => Sys2Proof.Machine.execFiringRound s
  | .firingRetire rule => Sys2Proof.Machine.execFiringRetire rule s
  | .recbeg d bp off => Sys2Proof.Machine.execRecbeg d bp off s
  | .recend d => Sys2Proof.Machine.execRecend d s
  | .reverse d bp off a => Sys2Proof.Machine.execReverse d bp off a s
  | .recflag d a => Sys2Proof.Machine.execRecflag d a s
  | .cpy d bp off => Sys2Proof.Machine.execCpy d bp off s
  | .cpyg d bp off => Sys2Proof.Machine.execCpyg d bp off s
  | .cpys d bp off => Sys2Proof.Machine.execCpys d bp off s
  | .cpymc d bp off => Sys2Proof.Machine.execCpymc d bp off s
  | .cpred d bp off => Sys2Proof.Machine.execCpred d bp off s
  | .cpwait d ch a => Sys2Proof.Machine.execCpwait d ch a s
  | .cpdone d ch a => Sys2Proof.Machine.execCpdone d ch a s
  | .copyStart ch => Sys2Proof.Machine.execCopyStart ch s
  | .copyComplete ch id => Sys2Proof.Machine.execCopyComplete ch id s
  | .copyFaultDelivery ch => Sys2Proof.Machine.execCopyFaultDelivery ch s
  | .qput n cl all a => Sys2Proof.Machine.execQput n cl all a s
  | .qget sc d n => Sys2Proof.Machine.execQget sc d n s
  | .bqput cl all a => Sys2Proof.Machine.execBqput cl all a s
  | .qlvl sc d n isBq => Sys2Proof.Machine.execQlvl sc d n isBq s
  | .spawn d bp off a => Sys2Proof.Machine.execSpawn d bp off a s
  | .join d bp off => Sys2Proof.Machine.execJoin d bp off s
  | .launch d bp off a => Sys2Proof.Machine.execLaunch d bp off a s
  | .yield a => Sys2Proof.Machine.execYield a s
  | .slend => Sys2Proof.Machine.execSlend s
  | .unpark d bp off => Sys2Proof.Machine.execUnpark d bp off s
  | .evset a => Sys2Proof.Machine.execEvset a s
  | .evsetErr a => Sys2Proof.Machine.execEvsetErr a s
  | .evclr a => Sys2Proof.Machine.execEvclr a s
  | .evwait sc d a => Sys2Proof.Machine.execEvwait sc d a s
  | .evtest sc d a => Sys2Proof.Machine.execEvtest sc d a s
  | .bar => Sys2Proof.Machine.execBar s
  | .barG => Sys2Proof.Machine.execBarG s
  | .pqpush sc d b x n => Sys2Proof.Machine.execPqpush sc d b x n s
  | .pqpop sc d n => Sys2Proof.Machine.execPqpop sc d n s
  | .pqlen sc d n => Sys2Proof.Machine.execPqlen sc d n s
  | .rdsr sc d n => Sys2Proof.Machine.execRdsr sc d n s
  | .wrsr a n => Sys2Proof.Machine.execWrsr a n s
  | .clrf m => Sys2Proof.Machine.execClrf m s
  | .kvxl sc d bp off a => Sys2Proof.Machine.execKvxl sc d bp off a s
  | .kvfork sc d bp off a => Sys2Proof.Machine.execKvfork sc d bp off a s
  | .kvgrow sc d bp off a => Sys2Proof.Machine.execKvgrow sc d bp off a s
  | .kvcommit sc d bp off a => Sys2Proof.Machine.execKvcommit sc d bp off a s
  | .memoryDataArrival => Sys2Proof.Machine.execMemoryDataArrival s
  | .translationWalkComplete => Sys2Proof.Machine.execTranslationWalkComplete s
  | .correctionFreezeEnd => Sys2Proof.Machine.execCorrectionFreezeEnd s
  | .weightStoreRefresh bank => Sys2Proof.Machine.execWeightStoreRefresh bank s
  | .partitionResetComplete part => Sys2Proof.Machine.execPartitionResetComplete part s
  | .invalidationComplete part => Sys2Proof.Machine.execInvalidationComplete part s
  | .watchdog => Sys2Proof.Machine.execWatchdog s
  | .budgetExhausted => Sys2Proof.Machine.execBudgetExhausted s
  | .serviceTimer part => Sys2Proof.Machine.execServiceTimer part s
  | .engineOpComplete => Sys2Proof.Machine.execEngineOpComplete s
  | .engineFaultDelivery => Sys2Proof.Machine.execEngineFaultDelivery s
  | .withheldRecordWrite part => Sys2Proof.Machine.execWithheldRecordWrite part s
  | .machineCheck sub => Sys2Proof.Machine.execMachineCheck sub s
  | .serviceRequest sub => Sys2Proof.Machine.execServiceRequest sub s
  | .stopRequest => Sys2Proof.Machine.execStopRequest s
  | .stopForShares => Sys2Proof.Machine.execStopForShares s
  | .contextSwitchComplete => Sys2Proof.Machine.execContextSwitchComplete s
  | .contextSaveComplete => Sys2Proof.Machine.execContextSaveComplete s
  | .gangSelect => Sys2Proof.Machine.execGangSelect s
  | .gangEnd => Sys2Proof.Machine.execGangEnd s
  | .thermalThrottleWindow hot diePower modulePower => Sys2Proof.Machine.execThermalThrottleWindow hot diePower modulePower s
  | .shareThrottleWindow part lpBytes wsBytes othersWait => Sys2Proof.Machine.execShareThrottleWindow part lpBytes wsBytes othersWait s
  | .wearSample die ws => Sys2Proof.Machine.execWearSample die ws s
  | .mailboxBusy => Sys2Proof.Machine.execMailboxBusy s
  | .mailboxUnsupported op => Sys2Proof.Machine.execMailboxUnsupported op s
  | .identify h => Sys2Proof.Machine.execIdentify h s
  | .loadImage h src len => Sys2Proof.Machine.execLoadImage h src len s
  | .retireImage h addr => Sys2Proof.Machine.execRetireImage h addr s
  | .modelDefine h slot mask zero size => Sys2Proof.Machine.execModelDefine h slot mask zero size s
  | .weightWrite h slot zero dies src off len => Sys2Proof.Machine.execWeightWrite h slot zero dies src off len s
  | .modelBind h slot zero sig => Sys2Proof.Machine.execModelBind h slot zero sig s
  | .modelUnbind h => Sys2Proof.Machine.execModelUnbind h s
  | .partitionResume h => Sys2Proof.Machine.execPartitionResume h s
  | .attest h nonce => Sys2Proof.Machine.execAttest h nonce s
  | .ownerKey h key => Sys2Proof.Machine.execOwnerKey h key s
  | .window h base size => Sys2Proof.Machine.execWindow h base size s
  | .linkConfig h pkg zero ports => Sys2Proof.Machine.execLinkConfig h pkg zero ports s
  | .linkRoute h dest zero mask => Sys2Proof.Machine.execLinkRoute h dest zero mask s
  | .exportEntry h entry flags srcPart zero srcPkg zero2 base size => Sys2Proof.Machine.execExportEntry h entry flags srcPart zero srcPkg zero2 base size s
  | .linkStatus h => Sys2Proof.Machine.execLinkStatus h s
  | .hostMemAccess hpa acc => Sys2Proof.Machine.execHostMemAccess hpa acc s
  | .unsupportedRequest => Sys2Proof.Machine.execUnsupportedRequest s
  | .remoteAccess srcPkg srcPart pa acc => Sys2Proof.Machine.execRemoteAccess srcPkg srcPart pa acc s
  | .flitForward dest lane hops => Sys2Proof.Machine.execFlitForward dest lane hops s
  | .linkPortDown port => Sys2Proof.Machine.execLinkPortDown port s
  | .linkTrainTimeout port => Sys2Proof.Machine.execLinkTrainTimeout port s
  | .partitionEnable part on => Sys2Proof.Machine.execPartitionEnable part on s
  | .partitionReset part => Sys2Proof.Machine.execPartitionReset part s
  | .writeErrorClear part => Sys2Proof.Machine.execWriteErrorClear part s
  | .contextDefine ctx control => Sys2Proof.Machine.execContextDefine ctx control s
  | .serviceDoorbell part val => Sys2Proof.Machine.execServiceDoorbell part val s
  | .invalidationCommand part val => Sys2Proof.Machine.execInvalidationCommand part val s
  | .counterClear die off => Sys2Proof.Machine.execCounterClear die off s
  | .registerWrite off wide val => Sys2Proof.Machine.execRegisterWrite off wide val s
  | .frzAssert => Sys2Proof.Machine.execFrzAssert s
  | .frzRelease => Sys2Proof.Machine.execFrzRelease s
  | .readHealth off len crcOk => Sys2Proof.Machine.execReadHealth off len crcOk s
  | .readScan seg off len crcOk => Sys2Proof.Machine.execReadScan seg off len crcOk s
  | .scanSize seg crcOk => Sys2Proof.Machine.execScanSize seg crcOk s
  | .debugUnknownCommand code crcOk => Sys2Proof.Machine.execDebugUnknownCommand code crcOk s
  | .debugAbort => Sys2Proof.Machine.execDebugAbort s
  | .debugStallTimeout => Sys2Proof.Machine.execDebugStallTimeout s
  | .coldReset => Sys2Proof.Machine.execColdReset s
  | .hotReset => Sys2Proof.Machine.execHotReset s
  | .linkPortTrained port => Sys2Proof.Machine.execLinkPortTrained port s
  | .memoryPortLinkDown port => Sys2Proof.Machine.execMemoryPortLinkDown port s
  | .packagePowerLoss => Sys2Proof.Machine.execPackagePowerLoss s

end Sys2Proof.Machine
end

