-- ==== Sys2Proof/Machine/Outside.lean ====
section
/-! DEFINITION. What happens outside the instruction table: what other cores, other packages, the host, memory devices and
sensors do to this core and its package. -/

namespace Sys2Proof.Machine

/-- Another core's copy that moves bytes of the scratchpad of this core, of its own or of a third member's starts: it takes an
entry of that scratchpad if one is free (R143). -/
def State.peerCopyBegins (s : State) (core n lo hi : Nat) (outbound : Bool) : State :=
  if 32 ≤ boardOf s.board core ∨ s.board.any (·.holder == .peer n) ∨ 2 ^ 21 < hi then s
  else
    { s with board := s.board ++
        [⟨padKey core (lo / 64 * 64), padKey core ((hi + 63) / 64 * 64), outbound, 0, 0, .peer n⟩] }

/-- It retires: its entry is released, and who waited for it goes on (R143). -/
def State.peerCopyEnds (s : State) (n : Nat) : State :=
  { s with
    board := s.board.filter fun e => e.holder != .peer n
    freezes := s.freezes.filter fun f => f.why != .board }

/-- Agents outside the core set bits of a context's event vector (R308); those that another member's `evset` sets count as
signalled in the gang's run, as far as they are of its set mask (R314). -/
def State.peerSets (s : State) (cx : BitVec 6) (bits err : BitVec 256) (member : Bool) : State :=
  let s := s.setEvents cx bits err
  if member then s.onWork (·.signal bits) else s

/-- An uncorrectable error sets an accumulator row's poison bit (R196). -/
def State.accError (s : State) (acc : BitVec 2) (row : BitVec 7) : State :=
  s.mapBank fun b => b.setAcc acc { b.acc acc with poison := (b.acc acc).poison ||| ((1 : BitVec 128) <<< row.toNat) }

/-- The gang goes on after a REPLAY of a cause that every member core raises: this core's run has its budget loaded again, or its
agents a new watchdog interval (R312, R328). -/
def Bank.goesAgain (b : Bank) (cause : Byte) : Bank :=
  if cause = 0x0C then { b with run := b.run.map fun r => { r with budget := r.snap.budget } }
  else if cause = 0x19 then { b with agents := b.agents.map fun a => { a with waiting := none } }
  else b

/-- Another member of the gang of the core's run has trapped; a REPLAY stops no other member (R327, R330). -/
def State.memberTrap (s : State) (cause sub : Byte) (act : Act) : State :=
  if act = .replay then s.onWork fun s => s.mapBank (·.goesAgain cause)
  else if s.bank.run.isSome || s.shadow.isSome then { s with gangStop := some (cause, sub, act) }
  else s

/-- A doorbell for a command that runs on: one at a time (R386, R389). -/
def State.ringDoorbell (s : State) (i : Instr) : State :=
  if (mailOf i).isNone then s
  else if s.mailBusy then s.refuseBusy
  else { s with mailbox := { s.mailbox with busy := true, code := .success, running := some i, since := s.wall } }

/-- The command in progress comes to its end: it has its effect, and its response (R386, R387, R393). -/
def State.commandEnds (s : State) : Host.Outcome State Fault Refusal :=
  match s.mailbox.running with
  | some i => exec i { s with mailbox := { s.mailbox with busy := false, running := none } }
  | none => .next s

/-- Cycles of wall time within which MODEL_BIND completes (R392). -/
def bindCycles : Nat := 1800000

/-- MODEL_BIND is in progress, and the cycle that starts could outlast its time: a cycle takes one cycle of wall time and a trap in
it at most three more (R31, R392). -/
def State.bindLate (s : State) : Bool :=
  match s.mailbox.running with
  | some (.modelBind ..) => decide (s.mailbox.since + bindCycles ≤ s.wall + 4)
  | _ => false

/-- A port of a memory device, as a mask. -/
def devicePort (port : BitVec 2) : BitVec 4 := (1 : BitVec 4) <<< port.toNat

/-- What the sensors of a die read; a reading of 125 degrees raises a machine check on every core of the die (R414). -/
def State.sensors (s : State) (die : Nat) (hot : BitVec 16) (dieP modP : Nat) : State :=
  if die ≠ s.die then s.readOthers die hot dieP modP
  else
    let s := s.readSensors hot dieP modP
    if 2000 ≤ hot.toInt then s.machineCheck 0 else s

/-- A happening takes effect. DESIGN CHOICE, log 67. -/
def Outside.run (x : Outside) (s : State) : Host.Outcome State Fault Refusal :=
  match x with
  | .peerWrite key bytes n => .next (s.writeFrom n key bytes)
  | .peerCopyBegins core n lo hi outbound => .next (s.peerCopyBegins core n lo hi outbound)
  | .peerCopyEnds n => .next (s.peerCopyEnds n)
  | .peerSets cx bits err member => .next (s.peerSets cx bits err member)
  | .peerClears cx bits => .next (s.clearEvents cx bits)
  | .peerRelease cx key n sc regions => .next (s.noteRelease ⟨cx, key, .far n, sc, regions⟩)
  | .memberTrap cause sub act => .next (s.memberTrap cause sub act)
  | .peersBehind => .next (s.mapRun fun r => { r with behind := true })
  | .peersReached kind => .next (s.mapRun fun r => { r with behind := false, kind := kind })
  | .coreBusy core part => .next ({ s with taken := (core, part) :: s.taken.filter fun c => c.1 != core }.mapPart part fun p =>
      { p with ran := if p.ran.contains core then p.ran else core :: p.ran })
  | .coreFree core => .next { s with taken := s.taken.filter fun c => c.1 != core }
  | .memoryError key => .next (s.poisonKey key)
  | .accError acc row => .next (s.onWork fun s => s.accError acc row)
  | .copyRows ch id rows => .next (s.onWork fun s => s.moveCopy ch id rows)
  | .barRead off len => .next (s.barRead off len)
  | .statusRead => .next s.statusRead
  | .configRead off len => .next (s.openRead Config.configByte off len)
  | .deviceRegRead off len => .next (s.openRead Config.deviceByte off len)
  | .vectorMask v on => .next { s with msix := s.msix.mask v on }
  | .vectorTaken v => .next { s with msix := { s.msix with sent := s.msix.sent.erase v } }
  | .doorbell i => .next (s.ringDoorbell i)
  | .commandEnds => s.commandEnds
  | .hostAccess begins => .next { s with hostOut := if begins then s.hostOut + 1 else s.hostOut - 1 }
  | .remoteAtomic pkg part pa w op b x => .next (s.remoteAtomic pkg part pa w op b x)
  | .exported part entry begins =>
    .next { s with exportOut := if begins then (part, entry) :: s.exportOut else s.exportOut.erase (part, entry) }
  | .linkRetry port die =>
    .next ({ s with link := { s.link with retries := (port.toNat, s.wall) :: s.link.retries } }.count die 6 1)
  | .dieCounts die counter n => .next (s.count die counter n)
  | .deviceGiB port gib =>
    .next { s with devices := (port.toNat, gib) :: s.devices.filter fun d => d.1 != port.toNat }
  | .deviceErrors port on =>
    .next { s with portsErr := if on then s.portsErr ||| devicePort port else s.portsErr &&& ~~~devicePort port }
  | .sensors die hot dieP modP => .next (s.sensors die hot dieP modP)
  | .monitors die wear => .next (s.setMonitors die wear)
  | .debugFrame bytes => s.debugFrame bytes

/-- A happening that a package takes whose clocks FRZ has stopped: those of the debug channel alone (R417 to R419). -/
def Outside.whileFrozen : Outside → Bool
  | .debugFrame _ => true
  | _ => false

end Sys2Proof.Machine
end

