-- ==== Sys2Proof/Machine/Issue.lean ====
section
/-! DEFINITION. Issuing: the words of a bundle run against the state before it (R17, R21), lockstep (R22), and which
event of the core is due (R8, R27, R28). -/

namespace Sys2Proof.Machine

/-- The outcome is a wait at issue or a freeze. -/
def stallsIn : Host.Outcome State Fault Refusal → Bool
  | .next s =>
    match s.verdict with
    | .stall _ => true
    | _ => false
  | _ => false

/-- The outcome is a trap; `early`: at the reading of operands. -/
def trapsIn (early : Bool) : Host.Outcome State Fault Refusal → Bool
  | .next s => s.verdict == .trapped early
  | _ => false

/-- The machine stops. -/
def stopsIn : Host.Outcome State Fault Refusal → Bool
  | .next _ => false
  | _ => true

/-- Runs the words of a bundle one after another. -/
def foldWords : List (Instr × DWord) → State → Host.Outcome State Fault Refusal
  | [], s => .next s
  | w :: ws, s =>
    match exec w.1 (s.atWord w.2) with
    | .next s' => foldWords ws s'
    | o => o

/-- Runs the words of a bundle: each alone first, so that a wait of one holds the whole bundle and a trap of one stops
it; a trap at the reading of operands comes before any later one, and then the lower position counts (R21, R25, R31).
DEDUCED, log 13. -/
def runWords (ws : List (Instr × DWord)) (s : State) : Host.Outcome State Fault Refusal :=
  let alone := ws.map fun w => exec w.1 (s.atWord w.2)
  match alone.find? stopsIn with
  | some o => o
  | none =>
    match alone.find? stallsIn with
    | some o => o
    | none =>
      match alone.find? (trapsIn true) with
      | some o => o
      | none =>
        match alone.find? (trapsIn false) with
        | some o => o
        | none => foldWords ws s

/-- The next address of a bundle of `n` words (R97). -/
def State.nextOf (s : State) (n : Nat) : DWord := s.cur.pc + BitVec.ofNat 64 (8 * n)

/-- A bundle whose words span the exit of the innermost level (R100). -/
def State.spansExit (s : State) (npc : DWord) : Bool :=
  match s.cur.loops with
  | l :: _ => decide (s.cur.pc.toNat < l.exit.toNat) && decide (l.exit.toNat < npc.toNat)
  | [] => false

/-- The joint word among the `n` words from a position on of the bundle at issue, and its position. -/
def State.jointFrom (s : State) : Nat → Nat → Option (DWord × Nat)
  | 0, _ => none
  | n + 1, pos =>
    match s.fetch pos with
    | .error _ => none
    | .ok w =>
      match decode false w with
      | .error _ => none
      | .ok d => if isJoint d.i then some (w, pos) else if d.e || isNop d.i then none else s.jointFrom n (pos + 1)

/-- The raw joint word of the bundle that a cluster stands at and its position, if it has one (R191). -/
def State.jointOf (s : State) (c : AgentId) : Option (DWord × Nat) :=
  let t := { s with turn := c }
  if t.cur.halted || t.cur.stopped then none else t.jointFrom 3 0

/-- The four clusters stand at a locked bundle and one has a joint word that the others do not share: the position C0
reports (R191, R326). DEDUCED, log 16. -/
def State.jointDiffers (s : State) : Option Nat :=
  let js := [0, 1, 2, 3].map s.jointOf
  let w := fun (j : Option (DWord × Nat)) => j.map (·.1)
  if js.all fun j => w j == w (js.headD none) then none else some (((js.headD none).map (·.2)).getD 0)

/-- Another cluster stands at a joint word, and its bundle lacks Y (R191). -/
def State.othersLackY (s : State) : Bool :=
  [0, 1, 2, 3].any fun c => c != s.turn && (s.jointOf c).isSome && !s.standsAtSync c

/-- A joint operation fails in the cluster at issue: C0 finds that the words differ, or a member's bundle lacks Y (R191). The
position of the cluster's joint word. -/
def State.jointFails (s : State) : Option Nat :=
  if s.onAp then none
  else if [0, 1, 2, 3].all (fun c => s.standsAtSync c) then if s.turn = 0 then s.jointDiffers else none
  else
    match s.jointOf s.turn with
    | some j => if s.othersLackY then some j.2 else none
    | none => none

/-- The bundle at issue as far as it gets: issued and not yet committed, waiting, or trapped. -/
def State.tryBundle (s : State) : Host.Outcome State Fault Refusal :=
  match s.decodeBundle with
  | .error e => s.finish (.error e)
  | .ok ws =>
    let npc := s.nextOf ws.length
    if s.spansExit npc then s.finish (s.trapNow 0x14 0x04 0)
    else if s.jointFails.isSome then s.finish (s.wordTrap 0x02 5 (s.jointFails.getD 0))
    else if s.cur.banked < ws.foldl (fun n w => max n (s.bankCycles w.1)) 0 then
      .next { s with verdict := .stall .bank }
    else
      match runWords ws (s.startBundle npc (s.standsAtSync s.turn)) with
      | .next s' =>
        if s'.verdict = .ok ∧ !s'.latchesFit then .next { s with verdict := .stall .latch } else .next s'
      | o => o

/-- What the clusters behind one that has issued find in the same cycle: a translation that its `tlbinv` has dropped was there
when the cycle began. Where one must walk for it anew, the core freezes then, and no program time passes (R22, R28, R113). -/
def State.sameCycle (s t : State) : State := { t with tlb := s.tlb ++ t.tlb, walks := s.walks ++ t.walks }

/-- Clusters issue their bundles one after another and none waits; one whose bundle traps leaves the others what they were
(R22). -/
def State.noneStalls : List AgentId → State → Bool
  | [], _ => true
  | c :: cs, s =>
    match ({ s with turn := c }).tryBundle with
    | .next t =>
      match t.verdict with
      | .stall _ => false
      | .ok => State.noneStalls cs (s.sameCycle t.commitBundle)
      | .trapped _ => State.noneStalls cs s
    | _ => State.noneStalls cs s

/-- The four clusters. -/
def clusters : List AgentId := [0, 1, 2, 3]

/-- The outcome is an extra bank cycle. -/
def bankIn : Host.Outcome State Fault Refusal → Bool
  | .next s => s.verdict == .stall .bank
  | _ => false

/-- The four clusters stand at locked bundles, and the bundle of one has bank cycles left: they fall together
(R18, R22). DEDUCED, log 15. -/
def State.lockBanks (s : State) : Bool :=
  s.turn = 0 && (clusters.all fun c => s.standsAtSync c)
    && clusters.any fun c => bankIn ({ s with turn := c }).tryBundle

/-- A lockstep bundle may issue: C0 looks at all four as they will issue in this cycle, the others follow C0 (R22). -/
def State.lockReady (s : State) : Bool :=
  if s.turn = 0 then (clusters.all fun c => s.standsAtSync c) && State.noneStalls clusters s
  else (s.agent 0).locked == some s.pt

/-- A cluster whose locked bundle has issued waits a cycle more for another whose has not (R22). -/
def State.carryLock (s : State) : State :=
  s.mapBank fun b => { b with agents := b.agents.map fun (a : Agent) =>
    { a with locked := if a.locked = some s.pt then some (s.pt + 1) else a.locked } }

/-- The locked bundle of the cluster at issue has issued, and that of another has still to (R22). -/
def State.lockAhead (s : State) : Bool := !s.onAp && s.cur.locked == some s.pt

/-- The bundle a cluster stands at fails a check of R54 or cannot be fetched yet: neither waits for lockstep (R27, R54,
R55). DEDUCED, log 15. -/
def State.checksFail (s : State) : Bool :=
  match s.decodeBundle with
  | .ok _ => false
  | .error _ => true

/-- The word an agent stands at waits for a walk (R28, R405). -/
def State.fetchFreezes (s : State) (c : AgentId) : Bool :=
  let t := { s with turn := c }
  !t.cur.halted && !t.cur.stopped &&
    match t.fetch 0 with
    | .error (.freeze _ _) => true
    | _ => false

/-- The state frozen as an outcome is, if it is a freeze. -/
def State.freezeOf (s : State) (o : Host.Outcome State Fault Refusal) : Option State :=
  match o with
  | .next t =>
    if t.verdict = .stall .frozen then
      some { s with freezes := t.freezes, walk := t.walk, held := t.held, verdict := t.verdict }
    else none
  | _ => none

/-- C0 stands at a locked bundle, the other clusters do too or cannot be fetched yet, and one of the four freezes the
core: no cycle of program time passes over it (R22, R27). DEDUCED, log 15. -/
def State.lockFreeze (s : State) : Option State :=
  if s.turn = 0 && s.standsAtSync 0 && clusters.all fun c => s.standsAtSync c || s.fetchFreezes c then
    clusters.findSome? fun c => s.freezeOf ({ s with turn := c }).tryBundle
  else none

/-- The outcome's wait at a barrier, and which (R321). -/
def barrierIn : Host.Outcome State Fault Refusal → Option Bool
  | .next s =>
    match s.verdict with
    | .stall (.barrier g) => some g
    | _ => none
  | _ => none

/-- An agent whose bundle waits at a barrier has reached it (R321). -/
def State.arrive (s : State) (g : Bool) : State :=
  s.mapCur fun a => { a with barrier := match a.barrier with
    | some x => some x
    | none => some (g, false) }

/-- A cluster that waits for lockstep; if its bundle holds a barrier it has reached it (R22, R321). -/
def State.waitLock (s : State) : State :=
  match barrierIn s.tryBundle with
  | some g => (s.arrive g).waitFor .lockstep
  | none => s.waitFor .lockstep

/-- The bundle holds a `trap`, which traps after it (R111). -/
def Bun.traps (b : Bun) : Bool :=
  match b.ctl with
  | .trapAfter _ => true
  | _ => false

/-- One turn of one agent: at most one bundle (R21); a trap of it gives way to another member's that has reached the core (R327). -/
def State.issue (s : State) : Host.Outcome State Fault Refusal :=
  if s.cur.halted || s.cur.stopped || s.lockAhead then .next s.nextTurn
  else if s.lockBanks then
    let t := clusters.foldl (fun s c => s.mapAgent c fun a => { a with banked := a.banked + 1 }) s
    .next { (t.waitFor .bank).nextTurn with verdict := .stall .bank }
  else
    match s.lockFreeze with
    | some t => .next t
    | none =>
      if s.standsAtSync s.turn && !s.onAp && !s.checksFail && s.jointFails.isNone && !s.lockReady then
        .next { s.waitLock.nextTurn with verdict := .stall .lockstep }
      else
        match s.tryBundle with
        | .next s' =>
          match s'.verdict with
          | .ok => .next ((if s'.cur.bun.traps then s.memberHere else none).getD s'.commitBundle.afterTurn)
          | .stall .frozen =>
            .next { s with freezes := s'.freezes, walk := s'.walk, held := s'.held, verdict := s'.verdict }
          | .stall w =>
            let s := if s.standsAtSync s.turn && !s.onAp then s.carryLock else s
            let s := s.mapCur fun a => { a with banked := if w = .bank then a.banked + 1 else a.banked }
            let s := match w with
              | .barrier g => s.arrive g
              | _ => s
            .next { (s.waitFor w).nextTurn with verdict := .stall w }
          | .trapped _ => .next (s.memberHere.getD s')
        | o => o

/-- A cycle of the core: frozen, with one turn of an agent, or without a bundle (R8, R21, R27, R28, R32); bundles of the cycle
in which the run ends stand (R313). -/
def State.cycle (s : State) : Host.Outcome State Fault Refusal :=
  if !s.freezes.isEmpty then .next s.frozenCycle
  else if s.turn = 0 ∧ s.walkLate then .next { s with freezes := [⟨.walk, 0⟩] }
  else
    match s.phase with
    | .running | .stopping => s.issue
    | .draining => if s.turn = 0 then .next s.endCycle else s.issue
    | .switching a n => .next { s.emptyCycle with phase := .switching a (n - 1) }
    | _ => .next s.emptyCycle

/-- The core is at the start of a cycle of wall time. -/
def State.atStart (s : State) : Bool := s.turn == 0 || !s.freezes.isEmpty

/-- What the package does at the start of a cycle by wall time alone: the hourly samples, the end of a MODEL_BIND whose time is
over, and the throttle's windows, from the sensors' present readings (R392, R414, R415). -/
def State.clockwork (s : State) : Option (Host.Outcome State Fault Refusal) :=
  if !s.atStart then none
  else if s.sampleDue then some (.next s.sampleAll)
  else if s.bindLate then some s.commandEnds
  else if s.windowDue then
    some (Sys2Proof.Machine.execThermalThrottleWindow s.throttle.hot s.throttle.dieP s.throttle.modP s)
  else none

/-- What the core does: another member's trap stops it, an event that is due, a request at a boundary, or a cycle (R327). -/
def State.coreStep (s : State) : Host.Outcome State Fault Refusal :=
  match s.gangBoundary with
  | some t => .next t
  | none =>
    match s.due with
    | some i => exec i s
    | none =>
      match s.ownBoundary with
      | some t => .next t
      | none => s.cycle

/-- A step without a stimulus from outside. -/
def State.inner (s : State) : Host.Outcome State Fault Refusal :=
  match s.clockwork with
  | some o => o
  | none => s.coreStep

/-- What happens while FRZ holds the clocks: the debug port, the release, a cold reset, the loss of power; everything
else waits (R417 to R419). -/
def whileFrozen : Instr → Bool
  | .frzRelease | .readHealth .. | .readScan .. | .scanSize .. | .debugUnknownCommand .. | .debugAbort
  | .debugStallTimeout | .coldReset | .packagePowerLoss => true
  | _ => false

/-- A step of a package that FRZ has stopped: no clock advances (R418). -/
def State.frozenStep (s : State) : Host.Outcome State Fault Refusal :=
  match s.outside.find? Outside.whileFrozen with
  | some x => x.run { s with outside := s.outside.erase x }
  | none =>
    match s.inbox.find? whileFrozen with
    | some i => exec i { s with inbox := s.inbox.erase i }
    | none => .next s

/-- A step whose clocks run: what comes from outside first, then boot, then the core's own. -/
def State.running (s : State) : Host.Outcome State Fault Refusal :=
  match s.inbox with
  | i :: is => exec i { s with inbox := is }
  | [] => if s.boots then .next s.emptyCycle.boot else s.inner

/-- A step of a machine that has power. -/
def State.advanceOn (s : State) : Host.Outcome State Fault Refusal :=
  if s.dbg.frz then s.frozenStep
  else
    match s.outside with
    | x :: xs => x.run { s with outside := xs }
    | [] => s.running

/-- One step of the machine (R4). -/
def State.advance (s : State) : Host.Outcome State Fault Refusal :=
  if s.powered then s.advanceOn
  else
    match s.inbox with
    | .coldReset :: is => exec .coldReset { s with inbox := is }
    | _ => .fault .unpowered

/-! ## Placing an instruction -/

/-- A run of context 0 and partition 0 with one core and a budget, for an instruction placed from outside. -/
def placedRun (core : Nat) : Run where
  ctx := 0
  part := 0
  supervisor := false
  recAddr := 0
  snap := ⟨0, 0, 0, 0xFFFFFFFF, 0, 1, 0, false, 0, 0, 0, 0⟩
  logcore := 0
  members := [core]
  img := ⟨0, 0, [], [], 0, 0, 0, [], [], 1⟩
  model := none
  budget := 0xFFFFFFFF
  cause := 0
  service := false
  interrupts := false
  signalled := 0
  ending := none
  dropped := false
  replays := 0
  replayPc := 0
  behind := false
  kind := none
  parked := none

/-- The agent that may issue a word: a cluster where it may, else the access processor (R51). -/
def agentFor (x : DWord) : AgentId := if agentOk false (wOp x) (wFn x) then 0 else apId

/-- A word that completes a bundle whose first word has E = 0: an empty `fence.m` beside a slot S or V word, a `nop`
beside a slot M word (R37, R159). -/
def companion (x : DWord) : DWord :=
  if slotOf (wOp x) = .m then 0 else (encode (.fenceM 0) true false).getD 0

/-- The state with an instruction stored at the program counter of the agent that may issue it, its page translated and
executable, a run on the core, and nothing else in the way of the next step. -/
def State.placeWord (s : State) (nbits w : Nat) : State :=
  let x : DWord := BitVec.ofNat 64 (w % 2 ^ nbits)
  let a := agentFor x
  let pc := if (s.agent a).pc.toNat / 2 ^ 52 < 30 then (s.agent a).pc.toNat / 8 * 8 else 0
  let run := s.bank.run.getD (placedRun s.coreId)
  let run := { run with budget := max run.budget 1 }
  let ent : TlbEnt := ⟨run.ctx, pc / 4096 * 4096, 8192, pc / 4096 * 4096 % 2 ^ 40, true, true⟩
  let key := ent.key + pc % 4096
  let s := s.mapBank fun b => { b with
    run := some run
    agents := b.agents.map fun (g : Agent) =>
      { g with
        pc := BitVec.ofNat 64 pc, halted := false, stopped := false, waiting := none, banked := 0, loops := []
        locked := none } }
  let s := (s.wr key (bytesOf 8 x.toNat)).wr (key + 8) (bytesOf 8 (companion x).toNat)
  { s with
    tlb := ent :: s.tlb
    walk := none
    walks := []
    freezes := []
    phase := .running
    turn := a
    inbox := []
    outside := []
    svcPend := []
    stopPend := false
    gangStop := none
    powered := true
    stage := 6
    throttle := { s.throttle with judged := some (s.wall / windowCycles) }
    sampled := s.wall / hourCycles
    mailbox := { s.mailbox with running := none }
    dbg := { s.dbg with frz := false }
    refresh := (BitVec.ofNat 6 (s.wall / 512), s.wall / 512 * 512 + 128) }

end Sys2Proof.Machine
end

