-- ==== Sys2Proof/Machine/Step.lean ====
section
/-! DEFINITION. The step of the machine, and placing an instruction where the next step fetches. -/

namespace Sys2Proof.Machine

/-- One step: without power nothing runs but a cold reset (R4); then a stimulus from outside, an event that is due, a
frozen cycle (R27), a cycle without a bundle, or one turn of one agent. -/
def step (s : State) : Host.Outcome State Fault Refusal := s.advance

/-- The state with an instruction stored where the next step fetches. DESIGN CHOICE, log 10. -/
def State.withFetchWord (s : State) (nbits w : Nat) : State := s.placeWord nbits w

end Sys2Proof.Machine
end

