-- ==== Sys2Proof/Laws/Encoding.lean ====
section
/-! SUPPORT. The fields of an encoded word: what the decoder reads at each place of each of the six formats (R40 to R45),
each code field read back, and the one lemma by which an encoding decodes to its instruction. -/

namespace Sys2Proof.Laws
open Sys2Proof

/-- A word with version bit `v`, E and Y over the 60 bits of its format (R35). -/
def word (v e y : Bool) (b : BitVec 60) : DWord :=
  0#1 ++ BitVec.ofBool v ++ BitVec.ofBool e ++ BitVec.ofBool y ++ b

theorem wBits_word (v e y : Bool) (b : BitVec 60) (k n : Nat) (h : k + n ≤ 60) :
    wBits (word v e y b) k n = b.extractLsb' k n :=
  BitVec.extractLsb'_append_eq_of_add_le h

theorem wBit_word (v e y : Bool) (b : BitVec 60) (k : Nat) (h : k < 60) : wBit (word v e y b) k = b.getLsbD k := by
  unfold word wBit
  rw [BitVec.getLsbD_append, if_pos h]

theorem wImm24_word (v e y : Bool) (b : BitVec 60) (k : Nat) (h : k < 60) :
    wImm24 (word v e y b) k = b.getLsbD k := wBit_word v e y b k h

theorem wAux_word (v e y : Bool) (b : BitVec 60) (k : Nat) (h : k < 60) :
    wAux (word v e y b) k = b.getLsbD k := wBit_word v e y b k h

theorem wBits_word_all (v e y : Bool) (b : BitVec 60) : wBits (word v e y b) 0 60 = b := by
  rw [wBits_word v e y b 0 60 (by decide), BitVec.extractLsb'_eq_self]

theorem wBit_word_63 (v e y : Bool) (b : BitVec 60) : wBit (word v e y b) 63 = false := by
  unfold word wBit
  repeat rw [BitVec.getLsbD_append, if_neg (by omega)]
  rfl

theorem wBit_word_62 (v e y : Bool) (b : BitVec 60) : wBit (word v e y b) 62 = v := by
  unfold word wBit
  rw [BitVec.getLsbD_append, if_neg (by omega), BitVec.getLsbD_append, if_neg (by omega), BitVec.getLsbD_append,
    if_neg (by omega), BitVec.getLsbD_append, if_pos (by omega)]
  cases v <;> rfl

theorem wBit_word_61 (v e y : Bool) (b : BitVec 60) : wBit (word v e y b) 61 = e := by
  unfold word wBit
  rw [BitVec.getLsbD_append, if_neg (by omega), BitVec.getLsbD_append, if_neg (by omega), BitVec.getLsbD_append,
    if_pos (by omega)]
  cases e <;> rfl

theorem wBit_word_60 (v e y : Bool) (b : BitVec 60) : wBit (word v e y b) 60 = y := by
  unfold word wBit
  rw [BitVec.getLsbD_append, if_neg (by omega), BitVec.getLsbD_append, if_pos (by omega)]
  cases y <;> rfl

/-! ## Code fields read back -/

theorem opnd_dec_enc (o : Opnd) : Opnd.dec o.enc = o := by
  cases o with
  | q i => revert i; decide
  | k i => revert i; decide
  | g i => revert i; decide
  | sp i => revert i; decide
theorem ty_dec_enc (t : Ty) : Ty.dec t.enc = some t := by cases t <;> rfl
theorem tyI32_dec_enc (b : Bool) : tyI32Dec (tyI32Enc b) = some b := by cases b <;> rfl
theorem rnd_dec_enc (r : Rnd) : Rnd.dec r.enc = r := by
  obtain ⟨m, s⟩ := r
  cases m <;> cases s <;> rfl
theorem scope_dec_enc (s : Scope) : Scope.dec s.enc = some s := by cases s <;> rfl
theorem mord_dec_enc (o : MOrd) : MOrd.dec o.enc = o := by cases o <;> rfl
theorem size_dec_enc (s : Size) : Size.dec s.enc = some s := by cases s <;> rfl
theorem vsize_dec_enc (s : VSize) : VSize.dec s.enc = some s := by cases s <;> rfl
theorem redOp_dec_enc (s : RedOp) : RedOp.dec s.enc = some s := by cases s <;> rfl
theorem cvtSrc_dec_enc (s : CvtSrc) : CvtSrc.dec s.enc = s := by cases s <;> rfl
theorem lv_dec_enc (l : Option (BitVec 4)) : lvDec (lvEnc l) = l := by
  cases l with
  | none => rfl
  | some n => revert n; decide
theorem prod_ofFn_fn (p : Prod) : Prod.ofFn p.fn.toNat = some p := by cases p <;> rfl

/-! ## The fields of each format -/

theorem fA_c (c : BitVec 4) (op : BitVec 6) (d : BitVec 7) (a : BitVec 7) (b : BitVec 7) (x : BitVec 7) (fn : BitVec 8) (t : BitVec 4) (m : BitVec 3) (mi : BitVec 1) (aux : BitVec 6) :
    (fA c op d a b x fn t m mi aux).extractLsb' 56 4 = c := by
  unfold fA
  repeat rw [BitVec.extractLsb'_append_eq_of_le (by omega)]
  exact BitVec.extractLsb'_eq_self
theorem fA_op (c : BitVec 4) (op : BitVec 6) (d : BitVec 7) (a : BitVec 7) (b : BitVec 7) (x : BitVec 7) (fn : BitVec 8) (t : BitVec 4) (m : BitVec 3) (mi : BitVec 1) (aux : BitVec 6) :
    (fA c op d a b x fn t m mi aux).extractLsb' 50 6 = op := by
  unfold fA
  repeat rw [BitVec.extractLsb'_append_eq_of_le (by omega)]
  rw [BitVec.extractLsb'_append_eq_of_add_le (by omega)]
  exact BitVec.extractLsb'_eq_self
theorem fA_d (c : BitVec 4) (op : BitVec 6) (d : BitVec 7) (a : BitVec 7) (b : BitVec 7) (x : BitVec 7) (fn : BitVec 8) (t : BitVec 4) (m : BitVec 3) (mi : BitVec 1) (aux : BitVec 6) :
    (fA c op d a b x fn t m mi aux).extractLsb' 43 7 = d := by
  unfold fA
  repeat rw [BitVec.extractLsb'_append_eq_of_le (by omega)]
  rw [BitVec.extractLsb'_append_eq_of_add_le (by omega)]
  exact BitVec.extractLsb'_eq_self
theorem fA_d_sub (c : BitVec 4) (op : BitVec 6) (d : BitVec 7) (a : BitVec 7) (b : BitVec 7) (x : BitVec 7) (fn : BitVec 8) (t : BitVec 4) (m : BitVec 3) (mi : BitVec 1) (aux : BitVec 6) (k n : Nat)
    (hk : k + n ≤ 7) : (fA c op d a b x fn t m mi aux).extractLsb' (k + 43) n = d.extractLsb' k n := by
  unfold fA
  repeat rw [BitVec.extractLsb'_append_eq_of_le (by omega)]
  rw [BitVec.extractLsb'_append_eq_of_add_le (by omega)]
  congr 1
theorem fA_a (c : BitVec 4) (op : BitVec 6) (d : BitVec 7) (a : BitVec 7) (b : BitVec 7) (x : BitVec 7) (fn : BitVec 8) (t : BitVec 4) (m : BitVec 3) (mi : BitVec 1) (aux : BitVec 6) :
    (fA c op d a b x fn t m mi aux).extractLsb' 36 7 = a := by
  unfold fA
  repeat rw [BitVec.extractLsb'_append_eq_of_le (by omega)]
  rw [BitVec.extractLsb'_append_eq_of_add_le (by omega)]
  exact BitVec.extractLsb'_eq_self
theorem fA_a_sub (c : BitVec 4) (op : BitVec 6) (d : BitVec 7) (a : BitVec 7) (b : BitVec 7) (x : BitVec 7) (fn : BitVec 8) (t : BitVec 4) (m : BitVec 3) (mi : BitVec 1) (aux : BitVec 6) (k n : Nat)
    (hk : k + n ≤ 7) : (fA c op d a b x fn t m mi aux).extractLsb' (k + 36) n = a.extractLsb' k n := by
  unfold fA
  repeat rw [BitVec.extractLsb'_append_eq_of_le (by omega)]
  rw [BitVec.extractLsb'_append_eq_of_add_le (by omega)]
  congr 1
theorem fA_b (c : BitVec 4) (op : BitVec 6) (d : BitVec 7) (a : BitVec 7) (b : BitVec 7) (x : BitVec 7) (fn : BitVec 8) (t : BitVec 4) (m : BitVec 3) (mi : BitVec 1) (aux : BitVec 6) :
    (fA c op d a b x fn t m mi aux).extractLsb' 29 7 = b := by
  unfold fA
  repeat rw [BitVec.extractLsb'_append_eq_of_le (by omega)]
  rw [BitVec.extractLsb'_append_eq_of_add_le (by omega)]
  exact BitVec.extractLsb'_eq_self
theorem fA_b_sub (c : BitVec 4) (op : BitVec 6) (d : BitVec 7) (a : BitVec 7) (b : BitVec 7) (x : BitVec 7) (fn : BitVec 8) (t : BitVec 4) (m : BitVec 3) (mi : BitVec 1) (aux : BitVec 6) (k n : Nat)
    (hk : k + n ≤ 7) : (fA c op d a b x fn t m mi aux).extractLsb' (k + 29) n = b.extractLsb' k n := by
  unfold fA
  repeat rw [BitVec.extractLsb'_append_eq_of_le (by omega)]
  rw [BitVec.extractLsb'_append_eq_of_add_le (by omega)]
  congr 1
theorem fA_x (c : BitVec 4) (op : BitVec 6) (d : BitVec 7) (a : BitVec 7) (b : BitVec 7) (x : BitVec 7) (fn : BitVec 8) (t : BitVec 4) (m : BitVec 3) (mi : BitVec 1) (aux : BitVec 6) :
    (fA c op d a b x fn t m mi aux).extractLsb' 22 7 = x := by
  unfold fA
  repeat rw [BitVec.extractLsb'_append_eq_of_le (by omega)]
  rw [BitVec.extractLsb'_append_eq_of_add_le (by omega)]
  exact BitVec.extractLsb'_eq_self
theorem fA_fn (c : BitVec 4) (op : BitVec 6) (d : BitVec 7) (a : BitVec 7) (b : BitVec 7) (x : BitVec 7) (fn : BitVec 8) (t : BitVec 4) (m : BitVec 3) (mi : BitVec 1) (aux : BitVec 6) :
    (fA c op d a b x fn t m mi aux).extractLsb' 14 8 = fn := by
  unfold fA
  repeat rw [BitVec.extractLsb'_append_eq_of_le (by omega)]
  rw [BitVec.extractLsb'_append_eq_of_add_le (by omega)]
  exact BitVec.extractLsb'_eq_self
theorem fA_t (c : BitVec 4) (op : BitVec 6) (d : BitVec 7) (a : BitVec 7) (b : BitVec 7) (x : BitVec 7) (fn : BitVec 8) (t : BitVec 4) (m : BitVec 3) (mi : BitVec 1) (aux : BitVec 6) :
    (fA c op d a b x fn t m mi aux).extractLsb' 10 4 = t := by
  unfold fA
  repeat rw [BitVec.extractLsb'_append_eq_of_le (by omega)]
  rw [BitVec.extractLsb'_append_eq_of_add_le (by omega)]
  exact BitVec.extractLsb'_eq_self
theorem fA_t_sub (c : BitVec 4) (op : BitVec 6) (d : BitVec 7) (a : BitVec 7) (b : BitVec 7) (x : BitVec 7) (fn : BitVec 8) (t : BitVec 4) (m : BitVec 3) (mi : BitVec 1) (aux : BitVec 6) (k n : Nat)
    (hk : k + n ≤ 4) : (fA c op d a b x fn t m mi aux).extractLsb' (k + 10) n = t.extractLsb' k n := by
  unfold fA
  repeat rw [BitVec.extractLsb'_append_eq_of_le (by omega)]
  rw [BitVec.extractLsb'_append_eq_of_add_le (by omega)]
  congr 1
theorem fA_t_bit (c : BitVec 4) (op : BitVec 6) (d : BitVec 7) (a : BitVec 7) (b : BitVec 7) (x : BitVec 7) (fn : BitVec 8) (t : BitVec 4) (m : BitVec 3) (mi : BitVec 1) (aux : BitVec 6) (k : Nat)
    (hk : k < 4) : (fA c op d a b x fn t m mi aux).getLsbD (k + 10) = t.getLsbD k := by
  unfold fA
  repeat rw [BitVec.getLsbD_append, if_neg (by omega)]
  rw [BitVec.getLsbD_append, if_pos (by omega)]
  congr 1
theorem fA_m (c : BitVec 4) (op : BitVec 6) (d : BitVec 7) (a : BitVec 7) (b : BitVec 7) (x : BitVec 7) (fn : BitVec 8) (t : BitVec 4) (m : BitVec 3) (mi : BitVec 1) (aux : BitVec 6) :
    (fA c op d a b x fn t m mi aux).extractLsb' 7 3 = m := by
  unfold fA
  repeat rw [BitVec.extractLsb'_append_eq_of_le (by omega)]
  rw [BitVec.extractLsb'_append_eq_of_add_le (by omega)]
  exact BitVec.extractLsb'_eq_self
theorem fA_mi (c : BitVec 4) (op : BitVec 6) (d : BitVec 7) (a : BitVec 7) (b : BitVec 7) (x : BitVec 7) (fn : BitVec 8) (t : BitVec 4) (m : BitVec 3) (mi : BitVec 1) (aux : BitVec 6) :
    (fA c op d a b x fn t m mi aux).extractLsb' 6 1 = mi := by
  unfold fA
  repeat rw [BitVec.extractLsb'_append_eq_of_le (by omega)]
  rw [BitVec.extractLsb'_append_eq_of_add_le (by omega)]
  exact BitVec.extractLsb'_eq_self
theorem fA_mi_bit (c : BitVec 4) (op : BitVec 6) (d : BitVec 7) (a : BitVec 7) (b : BitVec 7) (x : BitVec 7) (fn : BitVec 8) (t : BitVec 4) (m : BitVec 3) (mi : BitVec 1) (aux : BitVec 6) (k : Nat)
    (hk : k < 1) : (fA c op d a b x fn t m mi aux).getLsbD (k + 6) = mi.getLsbD k := by
  unfold fA
  repeat rw [BitVec.getLsbD_append, if_neg (by omega)]
  rw [BitVec.getLsbD_append, if_pos (by omega)]
  congr 1
theorem fA_aux (c : BitVec 4) (op : BitVec 6) (d : BitVec 7) (a : BitVec 7) (b : BitVec 7) (x : BitVec 7) (fn : BitVec 8) (t : BitVec 4) (m : BitVec 3) (mi : BitVec 1) (aux : BitVec 6) :
    (fA c op d a b x fn t m mi aux).extractLsb' 0 6 = aux := by
  unfold fA
  rw [BitVec.extractLsb'_append_eq_of_add_le (by omega)]
  exact BitVec.extractLsb'_eq_self
theorem fA_aux_sub (c : BitVec 4) (op : BitVec 6) (d : BitVec 7) (a : BitVec 7) (b : BitVec 7) (x : BitVec 7) (fn : BitVec 8) (t : BitVec 4) (m : BitVec 3) (mi : BitVec 1) (aux : BitVec 6) (k n : Nat)
    (hk : k + n ≤ 6) : (fA c op d a b x fn t m mi aux).extractLsb' (k) n = aux.extractLsb' k n := by
  unfold fA
  rw [BitVec.extractLsb'_append_eq_of_add_le (by omega)]
theorem fA_aux_bit (c : BitVec 4) (op : BitVec 6) (d : BitVec 7) (a : BitVec 7) (b : BitVec 7) (x : BitVec 7) (fn : BitVec 8) (t : BitVec 4) (m : BitVec 3) (mi : BitVec 1) (aux : BitVec 6) (k : Nat)
    (hk : k < 6) : (fA c op d a b x fn t m mi aux).getLsbD (k) = aux.getLsbD k := by
  unfold fA
  rw [BitVec.getLsbD_append, if_pos (by omega)]

theorem wOp_fA (v e y : Bool) (c : BitVec 4) (op : BitVec 6) (d : BitVec 7) (a : BitVec 7) (b : BitVec 7) (x : BitVec 7) (fn : BitVec 8) (t : BitVec 4) (m : BitVec 3) (mi : BitVec 1) (aux : BitVec 6) :
    wOp (word v e y (fA c op d a b x fn t m mi aux)) = op.toNat := by
  rw [wOp, wBits_word _ _ _ _ _ _ (by decide), fA_op]
theorem wFn_fA (v e y : Bool) (c : BitVec 4) (op : BitVec 6) (d : BitVec 7) (a : BitVec 7) (b : BitVec 7) (x : BitVec 7) (fn : BitVec 8) (t : BitVec 4) (m : BitVec 3) (mi : BitVec 1) (aux : BitVec 6)
    (hf : fmtOf op.toNat = .a) : wFn (word v e y (fA c op d a b x fn t m mi aux)) = fn.toNat := by
  rw [wFn, wOp_fA, hf]
  show (wBits _ 14 8).toNat = _
  rw [wBits_word _ _ _ _ _ _ (by decide), fA_fn]
theorem wSched_fA (sch : Sched) (e y : Bool) (op : BitVec 6) (d : BitVec 7) (a : BitVec 7) (b : BitVec 7) (x : BitVec 7) (fn : BitVec 8) (t : BitVec 4) (m : BitVec 3) (mi : BitVec 1) (aux : BitVec 6) :
    wSched (word sch.v e y (fA sch.c op d a b x fn t m mi aux)) = sch := by
  rw [wSched, wBit_word_62, wBits_word _ _ _ _ _ _ (by decide), fA_c]

theorem fI_c (c : BitVec 4) (op : BitVec 6) (d : BitVec 7) (a : BitVec 7) (fn : BitVec 4) (imm : BitVec 32) :
    (fI c op d a fn imm).extractLsb' 56 4 = c := by
  unfold fI
  repeat rw [BitVec.extractLsb'_append_eq_of_le (by omega)]
  exact BitVec.extractLsb'_eq_self
theorem fI_op (c : BitVec 4) (op : BitVec 6) (d : BitVec 7) (a : BitVec 7) (fn : BitVec 4) (imm : BitVec 32) :
    (fI c op d a fn imm).extractLsb' 50 6 = op := by
  unfold fI
  repeat rw [BitVec.extractLsb'_append_eq_of_le (by omega)]
  rw [BitVec.extractLsb'_append_eq_of_add_le (by omega)]
  exact BitVec.extractLsb'_eq_self
theorem fI_d (c : BitVec 4) (op : BitVec 6) (d : BitVec 7) (a : BitVec 7) (fn : BitVec 4) (imm : BitVec 32) :
    (fI c op d a fn imm).extractLsb' 43 7 = d := by
  unfold fI
  repeat rw [BitVec.extractLsb'_append_eq_of_le (by omega)]
  rw [BitVec.extractLsb'_append_eq_of_add_le (by omega)]
  exact BitVec.extractLsb'_eq_self
theorem fI_a (c : BitVec 4) (op : BitVec 6) (d : BitVec 7) (a : BitVec 7) (fn : BitVec 4) (imm : BitVec 32) :
    (fI c op d a fn imm).extractLsb' 36 7 = a := by
  unfold fI
  repeat rw [BitVec.extractLsb'_append_eq_of_le (by omega)]
  rw [BitVec.extractLsb'_append_eq_of_add_le (by omega)]
  exact BitVec.extractLsb'_eq_self
theorem fI_fn (c : BitVec 4) (op : BitVec 6) (d : BitVec 7) (a : BitVec 7) (fn : BitVec 4) (imm : BitVec 32) :
    (fI c op d a fn imm).extractLsb' 32 4 = fn := by
  unfold fI
  repeat rw [BitVec.extractLsb'_append_eq_of_le (by omega)]
  rw [BitVec.extractLsb'_append_eq_of_add_le (by omega)]
  exact BitVec.extractLsb'_eq_self
theorem fI_imm (c : BitVec 4) (op : BitVec 6) (d : BitVec 7) (a : BitVec 7) (fn : BitVec 4) (imm : BitVec 32) :
    (fI c op d a fn imm).extractLsb' 0 32 = imm := by
  unfold fI
  rw [BitVec.extractLsb'_append_eq_of_add_le (by omega)]
  exact BitVec.extractLsb'_eq_self
theorem fI_imm_sub (c : BitVec 4) (op : BitVec 6) (d : BitVec 7) (a : BitVec 7) (fn : BitVec 4) (imm : BitVec 32) (k n : Nat)
    (hk : k + n ≤ 32) : (fI c op d a fn imm).extractLsb' (k) n = imm.extractLsb' k n := by
  unfold fI
  rw [BitVec.extractLsb'_append_eq_of_add_le (by omega)]
theorem wOp_fI (v e y : Bool) (c : BitVec 4) (op : BitVec 6) (d : BitVec 7) (a : BitVec 7) (fn : BitVec 4) (imm : BitVec 32) :
    wOp (word v e y (fI c op d a fn imm)) = op.toNat := by
  rw [wOp, wBits_word _ _ _ _ _ _ (by decide), fI_op]
theorem wFn_fI (v e y : Bool) (c : BitVec 4) (op : BitVec 6) (d : BitVec 7) (a : BitVec 7) (fn : BitVec 4) (imm : BitVec 32)
    (hf : fmtOf op.toNat = .i) : wFn (word v e y (fI c op d a fn imm)) = fn.toNat := by
  rw [wFn, wOp_fI, hf]
  show (wBits _ 32 4).toNat = _
  rw [wBits_word _ _ _ _ _ _ (by decide), fI_fn]
theorem wSched_fI (sch : Sched) (e y : Bool) (op : BitVec 6) (d : BitVec 7) (a : BitVec 7) (fn : BitVec 4) (imm : BitVec 32) :
    wSched (word sch.v e y (fI sch.c op d a fn imm)) = sch := by
  rw [wSched, wBit_word_62, wBits_word _ _ _ _ _ _ (by decide), fI_c]

theorem fM_c (c : BitVec 4) (op : BitVec 6) (d : BitVec 7) (bp : BitVec 4) (fn : BitVec 4) (sz : BitVec 3) (sc : BitVec 3) (ord : BitVec 2) (m : BitVec 3) (off : BitVec 24) :
    (fM c op d bp fn sz sc ord m off).extractLsb' 56 4 = c := by
  unfold fM
  repeat rw [BitVec.extractLsb'_append_eq_of_le (by omega)]
  exact BitVec.extractLsb'_eq_self
theorem fM_op (c : BitVec 4) (op : BitVec 6) (d : BitVec 7) (bp : BitVec 4) (fn : BitVec 4) (sz : BitVec 3) (sc : BitVec 3) (ord : BitVec 2) (m : BitVec 3) (off : BitVec 24) :
    (fM c op d bp fn sz sc ord m off).extractLsb' 50 6 = op := by
  unfold fM
  repeat rw [BitVec.extractLsb'_append_eq_of_le (by omega)]
  rw [BitVec.extractLsb'_append_eq_of_add_le (by omega)]
  exact BitVec.extractLsb'_eq_self
theorem fM_d (c : BitVec 4) (op : BitVec 6) (d : BitVec 7) (bp : BitVec 4) (fn : BitVec 4) (sz : BitVec 3) (sc : BitVec 3) (ord : BitVec 2) (m : BitVec 3) (off : BitVec 24) :
    (fM c op d bp fn sz sc ord m off).extractLsb' 43 7 = d := by
  unfold fM
  repeat rw [BitVec.extractLsb'_append_eq_of_le (by omega)]
  rw [BitVec.extractLsb'_append_eq_of_add_le (by omega)]
  exact BitVec.extractLsb'_eq_self
theorem fM_bp (c : BitVec 4) (op : BitVec 6) (d : BitVec 7) (bp : BitVec 4) (fn : BitVec 4) (sz : BitVec 3) (sc : BitVec 3) (ord : BitVec 2) (m : BitVec 3) (off : BitVec 24) :
    (fM c op d bp fn sz sc ord m off).extractLsb' 39 4 = bp := by
  unfold fM
  repeat rw [BitVec.extractLsb'_append_eq_of_le (by omega)]
  rw [BitVec.extractLsb'_append_eq_of_add_le (by omega)]
  exact BitVec.extractLsb'_eq_self
theorem fM_fn (c : BitVec 4) (op : BitVec 6) (d : BitVec 7) (bp : BitVec 4) (fn : BitVec 4) (sz : BitVec 3) (sc : BitVec 3) (ord : BitVec 2) (m : BitVec 3) (off : BitVec 24) :
    (fM c op d bp fn sz sc ord m off).extractLsb' 35 4 = fn := by
  unfold fM
  repeat rw [BitVec.extractLsb'_append_eq_of_le (by omega)]
  rw [BitVec.extractLsb'_append_eq_of_add_le (by omega)]
  exact BitVec.extractLsb'_eq_self
theorem fM_sz (c : BitVec 4) (op : BitVec 6) (d : BitVec 7) (bp : BitVec 4) (fn : BitVec 4) (sz : BitVec 3) (sc : BitVec 3) (ord : BitVec 2) (m : BitVec 3) (off : BitVec 24) :
    (fM c op d bp fn sz sc ord m off).extractLsb' 32 3 = sz := by
  unfold fM
  repeat rw [BitVec.extractLsb'_append_eq_of_le (by omega)]
  rw [BitVec.extractLsb'_append_eq_of_add_le (by omega)]
  exact BitVec.extractLsb'_eq_self
theorem fM_sc (c : BitVec 4) (op : BitVec 6) (d : BitVec 7) (bp : BitVec 4) (fn : BitVec 4) (sz : BitVec 3) (sc : BitVec 3) (ord : BitVec 2) (m : BitVec 3) (off : BitVec 24) :
    (fM c op d bp fn sz sc ord m off).extractLsb' 29 3 = sc := by
  unfold fM
  repeat rw [BitVec.extractLsb'_append_eq_of_le (by omega)]
  rw [BitVec.extractLsb'_append_eq_of_add_le (by omega)]
  exact BitVec.extractLsb'_eq_self
theorem fM_ord (c : BitVec 4) (op : BitVec 6) (d : BitVec 7) (bp : BitVec 4) (fn : BitVec 4) (sz : BitVec 3) (sc : BitVec 3) (ord : BitVec 2) (m : BitVec 3) (off : BitVec 24) :
    (fM c op d bp fn sz sc ord m off).extractLsb' 27 2 = ord := by
  unfold fM
  repeat rw [BitVec.extractLsb'_append_eq_of_le (by omega)]
  rw [BitVec.extractLsb'_append_eq_of_add_le (by omega)]
  exact BitVec.extractLsb'_eq_self
theorem fM_ord_sub (c : BitVec 4) (op : BitVec 6) (d : BitVec 7) (bp : BitVec 4) (fn : BitVec 4) (sz : BitVec 3) (sc : BitVec 3) (ord : BitVec 2) (m : BitVec 3) (off : BitVec 24) (k n : Nat)
    (hk : k + n ≤ 2) : (fM c op d bp fn sz sc ord m off).extractLsb' (k + 27) n = ord.extractLsb' k n := by
  unfold fM
  repeat rw [BitVec.extractLsb'_append_eq_of_le (by omega)]
  rw [BitVec.extractLsb'_append_eq_of_add_le (by omega)]
  congr 1
theorem fM_ord_bit (c : BitVec 4) (op : BitVec 6) (d : BitVec 7) (bp : BitVec 4) (fn : BitVec 4) (sz : BitVec 3) (sc : BitVec 3) (ord : BitVec 2) (m : BitVec 3) (off : BitVec 24) (k : Nat)
    (hk : k < 2) : (fM c op d bp fn sz sc ord m off).getLsbD (k + 27) = ord.getLsbD k := by
  unfold fM
  repeat rw [BitVec.getLsbD_append, if_neg (by omega)]
  rw [BitVec.getLsbD_append, if_pos (by omega)]
  congr 1
theorem fM_m (c : BitVec 4) (op : BitVec 6) (d : BitVec 7) (bp : BitVec 4) (fn : BitVec 4) (sz : BitVec 3) (sc : BitVec 3) (ord : BitVec 2) (m : BitVec 3) (off : BitVec 24) :
    (fM c op d bp fn sz sc ord m off).extractLsb' 24 3 = m := by
  unfold fM
  repeat rw [BitVec.extractLsb'_append_eq_of_le (by omega)]
  rw [BitVec.extractLsb'_append_eq_of_add_le (by omega)]
  exact BitVec.extractLsb'_eq_self
theorem fM_off (c : BitVec 4) (op : BitVec 6) (d : BitVec 7) (bp : BitVec 4) (fn : BitVec 4) (sz : BitVec 3) (sc : BitVec 3) (ord : BitVec 2) (m : BitVec 3) (off : BitVec 24) :
    (fM c op d bp fn sz sc ord m off).extractLsb' 0 24 = off := by
  unfold fM
  rw [BitVec.extractLsb'_append_eq_of_add_le (by omega)]
  exact BitVec.extractLsb'_eq_self
theorem fM_off_sub (c : BitVec 4) (op : BitVec 6) (d : BitVec 7) (bp : BitVec 4) (fn : BitVec 4) (sz : BitVec 3) (sc : BitVec 3) (ord : BitVec 2) (m : BitVec 3) (off : BitVec 24) (k n : Nat)
    (hk : k + n ≤ 24) : (fM c op d bp fn sz sc ord m off).extractLsb' (k) n = off.extractLsb' k n := by
  unfold fM
  rw [BitVec.extractLsb'_append_eq_of_add_le (by omega)]
theorem wOp_fM (v e y : Bool) (c : BitVec 4) (op : BitVec 6) (d : BitVec 7) (bp : BitVec 4) (fn : BitVec 4) (sz : BitVec 3) (sc : BitVec 3) (ord : BitVec 2) (m : BitVec 3) (off : BitVec 24) :
    wOp (word v e y (fM c op d bp fn sz sc ord m off)) = op.toNat := by
  rw [wOp, wBits_word _ _ _ _ _ _ (by decide), fM_op]
theorem wFn_fM (v e y : Bool) (c : BitVec 4) (op : BitVec 6) (d : BitVec 7) (bp : BitVec 4) (fn : BitVec 4) (sz : BitVec 3) (sc : BitVec 3) (ord : BitVec 2) (m : BitVec 3) (off : BitVec 24)
    (hf : fmtOf op.toNat = .m) : wFn (word v e y (fM c op d bp fn sz sc ord m off)) = fn.toNat := by
  rw [wFn, wOp_fM, hf]
  show (wBits _ 35 4).toNat = _
  rw [wBits_word _ _ _ _ _ _ (by decide), fM_fn]
theorem wSched_fM (sch : Sched) (e y : Bool) (op : BitVec 6) (d : BitVec 7) (bp : BitVec 4) (fn : BitVec 4) (sz : BitVec 3) (sc : BitVec 3) (ord : BitVec 2) (m : BitVec 3) (off : BitVec 24) :
    wSched (word sch.v e y (fM sch.c op d bp fn sz sc ord m off)) = sch := by
  rw [wSched, wBit_word_62, wBits_word _ _ _ _ _ _ (by decide), fM_c]

theorem fB_c (c : BitVec 4) (op : BitVec 6) (p : BitVec 7) (fn : BitVec 3) (aux : BitVec 6) (h : BitVec 2) (disp : BitVec 32) :
    (fB c op p fn aux h disp).extractLsb' 56 4 = c := by
  unfold fB
  repeat rw [BitVec.extractLsb'_append_eq_of_le (by omega)]
  exact BitVec.extractLsb'_eq_self
theorem fB_op (c : BitVec 4) (op : BitVec 6) (p : BitVec 7) (fn : BitVec 3) (aux : BitVec 6) (h : BitVec 2) (disp : BitVec 32) :
    (fB c op p fn aux h disp).extractLsb' 50 6 = op := by
  unfold fB
  repeat rw [BitVec.extractLsb'_append_eq_of_le (by omega)]
  rw [BitVec.extractLsb'_append_eq_of_add_le (by omega)]
  exact BitVec.extractLsb'_eq_self
theorem fB_p (c : BitVec 4) (op : BitVec 6) (p : BitVec 7) (fn : BitVec 3) (aux : BitVec 6) (h : BitVec 2) (disp : BitVec 32) :
    (fB c op p fn aux h disp).extractLsb' 43 7 = p := by
  unfold fB
  repeat rw [BitVec.extractLsb'_append_eq_of_le (by omega)]
  rw [BitVec.extractLsb'_append_eq_of_add_le (by omega)]
  exact BitVec.extractLsb'_eq_self
theorem fB_fn (c : BitVec 4) (op : BitVec 6) (p : BitVec 7) (fn : BitVec 3) (aux : BitVec 6) (h : BitVec 2) (disp : BitVec 32) :
    (fB c op p fn aux h disp).extractLsb' 40 3 = fn := by
  unfold fB
  repeat rw [BitVec.extractLsb'_append_eq_of_le (by omega)]
  rw [BitVec.extractLsb'_append_eq_of_add_le (by omega)]
  exact BitVec.extractLsb'_eq_self
theorem fB_aux (c : BitVec 4) (op : BitVec 6) (p : BitVec 7) (fn : BitVec 3) (aux : BitVec 6) (h : BitVec 2) (disp : BitVec 32) :
    (fB c op p fn aux h disp).extractLsb' 34 6 = aux := by
  unfold fB
  repeat rw [BitVec.extractLsb'_append_eq_of_le (by omega)]
  rw [BitVec.extractLsb'_append_eq_of_add_le (by omega)]
  exact BitVec.extractLsb'_eq_self
theorem fB_aux_sub (c : BitVec 4) (op : BitVec 6) (p : BitVec 7) (fn : BitVec 3) (aux : BitVec 6) (h : BitVec 2) (disp : BitVec 32) (k n : Nat)
    (hk : k + n ≤ 6) : (fB c op p fn aux h disp).extractLsb' (k + 34) n = aux.extractLsb' k n := by
  unfold fB
  repeat rw [BitVec.extractLsb'_append_eq_of_le (by omega)]
  rw [BitVec.extractLsb'_append_eq_of_add_le (by omega)]
  congr 1
theorem fB_h (c : BitVec 4) (op : BitVec 6) (p : BitVec 7) (fn : BitVec 3) (aux : BitVec 6) (h : BitVec 2) (disp : BitVec 32) :
    (fB c op p fn aux h disp).extractLsb' 32 2 = h := by
  unfold fB
  repeat rw [BitVec.extractLsb'_append_eq_of_le (by omega)]
  rw [BitVec.extractLsb'_append_eq_of_add_le (by omega)]
  exact BitVec.extractLsb'_eq_self
theorem fB_disp (c : BitVec 4) (op : BitVec 6) (p : BitVec 7) (fn : BitVec 3) (aux : BitVec 6) (h : BitVec 2) (disp : BitVec 32) :
    (fB c op p fn aux h disp).extractLsb' 0 32 = disp := by
  unfold fB
  rw [BitVec.extractLsb'_append_eq_of_add_le (by omega)]
  exact BitVec.extractLsb'_eq_self
theorem wOp_fB (v e y : Bool) (c : BitVec 4) (op : BitVec 6) (p : BitVec 7) (fn : BitVec 3) (aux : BitVec 6) (h : BitVec 2) (disp : BitVec 32) :
    wOp (word v e y (fB c op p fn aux h disp)) = op.toNat := by
  rw [wOp, wBits_word _ _ _ _ _ _ (by decide), fB_op]
theorem wFn_fB (v e y : Bool) (c : BitVec 4) (op : BitVec 6) (p : BitVec 7) (fn : BitVec 3) (aux : BitVec 6) (h : BitVec 2) (disp : BitVec 32)
    (hf : fmtOf op.toNat = .b) : wFn (word v e y (fB c op p fn aux h disp)) = fn.toNat := by
  rw [wFn, wOp_fB, hf]
  show (wBits _ 40 3).toNat = _
  rw [wBits_word _ _ _ _ _ _ (by decide), fB_fn]
theorem wSched_fB (sch : Sched) (e y : Bool) (op : BitVec 6) (p : BitVec 7) (fn : BitVec 3) (aux : BitVec 6) (h : BitVec 2) (disp : BitVec 32) :
    wSched (word sch.v e y (fB sch.c op p fn aux h disp)) = sch := by
  rw [wSched, wBit_word_62, wBits_word _ _ _ _ _ _ (by decide), fB_c]

theorem fT_c (c : BitVec 4) (op : BitVec 6) (ac : BitVec 4) (sa : BitVec 4) (sb : BitVec 4) (sx : BitVec 4) (ot : BitVec 6) (s : BitVec 1) (j : BitVec 1) (fn : BitVec 8) (t : BitVec 4) (aux : BitVec 14) :
    (fT c op ac sa sb sx ot s j fn t aux).extractLsb' 56 4 = c := by
  unfold fT
  repeat rw [BitVec.extractLsb'_append_eq_of_le (by omega)]
  exact BitVec.extractLsb'_eq_self
theorem fT_op (c : BitVec 4) (op : BitVec 6) (ac : BitVec 4) (sa : BitVec 4) (sb : BitVec 4) (sx : BitVec 4) (ot : BitVec 6) (s : BitVec 1) (j : BitVec 1) (fn : BitVec 8) (t : BitVec 4) (aux : BitVec 14) :
    (fT c op ac sa sb sx ot s j fn t aux).extractLsb' 50 6 = op := by
  unfold fT
  repeat rw [BitVec.extractLsb'_append_eq_of_le (by omega)]
  rw [BitVec.extractLsb'_append_eq_of_add_le (by omega)]
  exact BitVec.extractLsb'_eq_self
theorem fT_ac (c : BitVec 4) (op : BitVec 6) (ac : BitVec 4) (sa : BitVec 4) (sb : BitVec 4) (sx : BitVec 4) (ot : BitVec 6) (s : BitVec 1) (j : BitVec 1) (fn : BitVec 8) (t : BitVec 4) (aux : BitVec 14) :
    (fT c op ac sa sb sx ot s j fn t aux).extractLsb' 46 4 = ac := by
  unfold fT
  repeat rw [BitVec.extractLsb'_append_eq_of_le (by omega)]
  rw [BitVec.extractLsb'_append_eq_of_add_le (by omega)]
  exact BitVec.extractLsb'_eq_self
theorem fT_ac_sub (c : BitVec 4) (op : BitVec 6) (ac : BitVec 4) (sa : BitVec 4) (sb : BitVec 4) (sx : BitVec 4) (ot : BitVec 6) (s : BitVec 1) (j : BitVec 1) (fn : BitVec 8) (t : BitVec 4) (aux : BitVec 14) (k n : Nat)
    (hk : k + n ≤ 4) : (fT c op ac sa sb sx ot s j fn t aux).extractLsb' (k + 46) n = ac.extractLsb' k n := by
  unfold fT
  repeat rw [BitVec.extractLsb'_append_eq_of_le (by omega)]
  rw [BitVec.extractLsb'_append_eq_of_add_le (by omega)]
  congr 1
theorem fT_sa (c : BitVec 4) (op : BitVec 6) (ac : BitVec 4) (sa : BitVec 4) (sb : BitVec 4) (sx : BitVec 4) (ot : BitVec 6) (s : BitVec 1) (j : BitVec 1) (fn : BitVec 8) (t : BitVec 4) (aux : BitVec 14) :
    (fT c op ac sa sb sx ot s j fn t aux).extractLsb' 42 4 = sa := by
  unfold fT
  repeat rw [BitVec.extractLsb'_append_eq_of_le (by omega)]
  rw [BitVec.extractLsb'_append_eq_of_add_le (by omega)]
  exact BitVec.extractLsb'_eq_self
theorem fT_sa_sub (c : BitVec 4) (op : BitVec 6) (ac : BitVec 4) (sa : BitVec 4) (sb : BitVec 4) (sx : BitVec 4) (ot : BitVec 6) (s : BitVec 1) (j : BitVec 1) (fn : BitVec 8) (t : BitVec 4) (aux : BitVec 14) (k n : Nat)
    (hk : k + n ≤ 4) : (fT c op ac sa sb sx ot s j fn t aux).extractLsb' (k + 42) n = sa.extractLsb' k n := by
  unfold fT
  repeat rw [BitVec.extractLsb'_append_eq_of_le (by omega)]
  rw [BitVec.extractLsb'_append_eq_of_add_le (by omega)]
  congr 1
theorem fT_sa_bit (c : BitVec 4) (op : BitVec 6) (ac : BitVec 4) (sa : BitVec 4) (sb : BitVec 4) (sx : BitVec 4) (ot : BitVec 6) (s : BitVec 1) (j : BitVec 1) (fn : BitVec 8) (t : BitVec 4) (aux : BitVec 14) (k : Nat)
    (hk : k < 4) : (fT c op ac sa sb sx ot s j fn t aux).getLsbD (k + 42) = sa.getLsbD k := by
  unfold fT
  repeat rw [BitVec.getLsbD_append, if_neg (by omega)]
  rw [BitVec.getLsbD_append, if_pos (by omega)]
  congr 1
theorem fT_sb (c : BitVec 4) (op : BitVec 6) (ac : BitVec 4) (sa : BitVec 4) (sb : BitVec 4) (sx : BitVec 4) (ot : BitVec 6) (s : BitVec 1) (j : BitVec 1) (fn : BitVec 8) (t : BitVec 4) (aux : BitVec 14) :
    (fT c op ac sa sb sx ot s j fn t aux).extractLsb' 38 4 = sb := by
  unfold fT
  repeat rw [BitVec.extractLsb'_append_eq_of_le (by omega)]
  rw [BitVec.extractLsb'_append_eq_of_add_le (by omega)]
  exact BitVec.extractLsb'_eq_self
theorem fT_sx (c : BitVec 4) (op : BitVec 6) (ac : BitVec 4) (sa : BitVec 4) (sb : BitVec 4) (sx : BitVec 4) (ot : BitVec 6) (s : BitVec 1) (j : BitVec 1) (fn : BitVec 8) (t : BitVec 4) (aux : BitVec 14) :
    (fT c op ac sa sb sx ot s j fn t aux).extractLsb' 34 4 = sx := by
  unfold fT
  repeat rw [BitVec.extractLsb'_append_eq_of_le (by omega)]
  rw [BitVec.extractLsb'_append_eq_of_add_le (by omega)]
  exact BitVec.extractLsb'_eq_self
theorem fT_ot (c : BitVec 4) (op : BitVec 6) (ac : BitVec 4) (sa : BitVec 4) (sb : BitVec 4) (sx : BitVec 4) (ot : BitVec 6) (s : BitVec 1) (j : BitVec 1) (fn : BitVec 8) (t : BitVec 4) (aux : BitVec 14) :
    (fT c op ac sa sb sx ot s j fn t aux).extractLsb' 28 6 = ot := by
  unfold fT
  repeat rw [BitVec.extractLsb'_append_eq_of_le (by omega)]
  rw [BitVec.extractLsb'_append_eq_of_add_le (by omega)]
  exact BitVec.extractLsb'_eq_self
theorem fT_s (c : BitVec 4) (op : BitVec 6) (ac : BitVec 4) (sa : BitVec 4) (sb : BitVec 4) (sx : BitVec 4) (ot : BitVec 6) (s : BitVec 1) (j : BitVec 1) (fn : BitVec 8) (t : BitVec 4) (aux : BitVec 14) :
    (fT c op ac sa sb sx ot s j fn t aux).extractLsb' 27 1 = s := by
  unfold fT
  repeat rw [BitVec.extractLsb'_append_eq_of_le (by omega)]
  rw [BitVec.extractLsb'_append_eq_of_add_le (by omega)]
  exact BitVec.extractLsb'_eq_self
theorem fT_s_bit (c : BitVec 4) (op : BitVec 6) (ac : BitVec 4) (sa : BitVec 4) (sb : BitVec 4) (sx : BitVec 4) (ot : BitVec 6) (s : BitVec 1) (j : BitVec 1) (fn : BitVec 8) (t : BitVec 4) (aux : BitVec 14) (k : Nat)
    (hk : k < 1) : (fT c op ac sa sb sx ot s j fn t aux).getLsbD (k + 27) = s.getLsbD k := by
  unfold fT
  repeat rw [BitVec.getLsbD_append, if_neg (by omega)]
  rw [BitVec.getLsbD_append, if_pos (by omega)]
  congr 1
theorem fT_j (c : BitVec 4) (op : BitVec 6) (ac : BitVec 4) (sa : BitVec 4) (sb : BitVec 4) (sx : BitVec 4) (ot : BitVec 6) (s : BitVec 1) (j : BitVec 1) (fn : BitVec 8) (t : BitVec 4) (aux : BitVec 14) :
    (fT c op ac sa sb sx ot s j fn t aux).extractLsb' 26 1 = j := by
  unfold fT
  repeat rw [BitVec.extractLsb'_append_eq_of_le (by omega)]
  rw [BitVec.extractLsb'_append_eq_of_add_le (by omega)]
  exact BitVec.extractLsb'_eq_self
theorem fT_j_bit (c : BitVec 4) (op : BitVec 6) (ac : BitVec 4) (sa : BitVec 4) (sb : BitVec 4) (sx : BitVec 4) (ot : BitVec 6) (s : BitVec 1) (j : BitVec 1) (fn : BitVec 8) (t : BitVec 4) (aux : BitVec 14) (k : Nat)
    (hk : k < 1) : (fT c op ac sa sb sx ot s j fn t aux).getLsbD (k + 26) = j.getLsbD k := by
  unfold fT
  repeat rw [BitVec.getLsbD_append, if_neg (by omega)]
  rw [BitVec.getLsbD_append, if_pos (by omega)]
  congr 1
theorem fT_fn (c : BitVec 4) (op : BitVec 6) (ac : BitVec 4) (sa : BitVec 4) (sb : BitVec 4) (sx : BitVec 4) (ot : BitVec 6) (s : BitVec 1) (j : BitVec 1) (fn : BitVec 8) (t : BitVec 4) (aux : BitVec 14) :
    (fT c op ac sa sb sx ot s j fn t aux).extractLsb' 18 8 = fn := by
  unfold fT
  repeat rw [BitVec.extractLsb'_append_eq_of_le (by omega)]
  rw [BitVec.extractLsb'_append_eq_of_add_le (by omega)]
  exact BitVec.extractLsb'_eq_self
theorem fT_t (c : BitVec 4) (op : BitVec 6) (ac : BitVec 4) (sa : BitVec 4) (sb : BitVec 4) (sx : BitVec 4) (ot : BitVec 6) (s : BitVec 1) (j : BitVec 1) (fn : BitVec 8) (t : BitVec 4) (aux : BitVec 14) :
    (fT c op ac sa sb sx ot s j fn t aux).extractLsb' 14 4 = t := by
  unfold fT
  repeat rw [BitVec.extractLsb'_append_eq_of_le (by omega)]
  rw [BitVec.extractLsb'_append_eq_of_add_le (by omega)]
  exact BitVec.extractLsb'_eq_self
theorem fT_aux (c : BitVec 4) (op : BitVec 6) (ac : BitVec 4) (sa : BitVec 4) (sb : BitVec 4) (sx : BitVec 4) (ot : BitVec 6) (s : BitVec 1) (j : BitVec 1) (fn : BitVec 8) (t : BitVec 4) (aux : BitVec 14) :
    (fT c op ac sa sb sx ot s j fn t aux).extractLsb' 0 14 = aux := by
  unfold fT
  rw [BitVec.extractLsb'_append_eq_of_add_le (by omega)]
  exact BitVec.extractLsb'_eq_self
theorem fT_aux_sub (c : BitVec 4) (op : BitVec 6) (ac : BitVec 4) (sa : BitVec 4) (sb : BitVec 4) (sx : BitVec 4) (ot : BitVec 6) (s : BitVec 1) (j : BitVec 1) (fn : BitVec 8) (t : BitVec 4) (aux : BitVec 14) (k n : Nat)
    (hk : k + n ≤ 14) : (fT c op ac sa sb sx ot s j fn t aux).extractLsb' (k) n = aux.extractLsb' k n := by
  unfold fT
  rw [BitVec.extractLsb'_append_eq_of_add_le (by omega)]
theorem fT_aux_bit (c : BitVec 4) (op : BitVec 6) (ac : BitVec 4) (sa : BitVec 4) (sb : BitVec 4) (sx : BitVec 4) (ot : BitVec 6) (s : BitVec 1) (j : BitVec 1) (fn : BitVec 8) (t : BitVec 4) (aux : BitVec 14) (k : Nat)
    (hk : k < 14) : (fT c op ac sa sb sx ot s j fn t aux).getLsbD (k) = aux.getLsbD k := by
  unfold fT
  rw [BitVec.getLsbD_append, if_pos (by omega)]

theorem wOp_fT (v e y : Bool) (c : BitVec 4) (op : BitVec 6) (ac : BitVec 4) (sa : BitVec 4) (sb : BitVec 4) (sx : BitVec 4) (ot : BitVec 6) (s : BitVec 1) (j : BitVec 1) (fn : BitVec 8) (t : BitVec 4) (aux : BitVec 14) :
    wOp (word v e y (fT c op ac sa sb sx ot s j fn t aux)) = op.toNat := by
  rw [wOp, wBits_word _ _ _ _ _ _ (by decide), fT_op]
theorem wFn_fT (v e y : Bool) (c : BitVec 4) (op : BitVec 6) (ac : BitVec 4) (sa : BitVec 4) (sb : BitVec 4) (sx : BitVec 4) (ot : BitVec 6) (s : BitVec 1) (j : BitVec 1) (fn : BitVec 8) (t : BitVec 4) (aux : BitVec 14)
    (hf : fmtOf op.toNat = .t) : wFn (word v e y (fT c op ac sa sb sx ot s j fn t aux)) = fn.toNat := by
  rw [wFn, wOp_fT, hf]
  show (wBits _ 18 8).toNat = _
  rw [wBits_word _ _ _ _ _ _ (by decide), fT_fn]
theorem wSched_fT (sch : Sched) (e y : Bool) (op : BitVec 6) (ac : BitVec 4) (sa : BitVec 4) (sb : BitVec 4) (sx : BitVec 4) (ot : BitVec 6) (s : BitVec 1) (j : BitVec 1) (fn : BitVec 8) (t : BitVec 4) (aux : BitVec 14) :
    wSched (word sch.v e y (fT sch.c op ac sa sb sx ot s j fn t aux)) = sch := by
  rw [wSched, wBit_word_62, wBits_word _ _ _ _ _ _ (by decide), fT_c]

theorem fQ_c (c : BitVec 4) (op : BitVec 6) (d : BitVec 7) (bp : BitVec 4) (a : BitVec 7) (fn : BitVec 8) (imm : BitVec 24) :
    (fQ c op d bp a fn imm).extractLsb' 56 4 = c := by
  unfold fQ
  repeat rw [BitVec.extractLsb'_append_eq_of_le (by omega)]
  exact BitVec.extractLsb'_eq_self
theorem fQ_op (c : BitVec 4) (op : BitVec 6) (d : BitVec 7) (bp : BitVec 4) (a : BitVec 7) (fn : BitVec 8) (imm : BitVec 24) :
    (fQ c op d bp a fn imm).extractLsb' 50 6 = op := by
  unfold fQ
  repeat rw [BitVec.extractLsb'_append_eq_of_le (by omega)]
  rw [BitVec.extractLsb'_append_eq_of_add_le (by omega)]
  exact BitVec.extractLsb'_eq_self
theorem fQ_d (c : BitVec 4) (op : BitVec 6) (d : BitVec 7) (bp : BitVec 4) (a : BitVec 7) (fn : BitVec 8) (imm : BitVec 24) :
    (fQ c op d bp a fn imm).extractLsb' 43 7 = d := by
  unfold fQ
  repeat rw [BitVec.extractLsb'_append_eq_of_le (by omega)]
  rw [BitVec.extractLsb'_append_eq_of_add_le (by omega)]
  exact BitVec.extractLsb'_eq_self
theorem fQ_bp (c : BitVec 4) (op : BitVec 6) (d : BitVec 7) (bp : BitVec 4) (a : BitVec 7) (fn : BitVec 8) (imm : BitVec 24) :
    (fQ c op d bp a fn imm).extractLsb' 39 4 = bp := by
  unfold fQ
  repeat rw [BitVec.extractLsb'_append_eq_of_le (by omega)]
  rw [BitVec.extractLsb'_append_eq_of_add_le (by omega)]
  exact BitVec.extractLsb'_eq_self
theorem fQ_a (c : BitVec 4) (op : BitVec 6) (d : BitVec 7) (bp : BitVec 4) (a : BitVec 7) (fn : BitVec 8) (imm : BitVec 24) :
    (fQ c op d bp a fn imm).extractLsb' 32 7 = a := by
  unfold fQ
  repeat rw [BitVec.extractLsb'_append_eq_of_le (by omega)]
  rw [BitVec.extractLsb'_append_eq_of_add_le (by omega)]
  exact BitVec.extractLsb'_eq_self
theorem fQ_fn (c : BitVec 4) (op : BitVec 6) (d : BitVec 7) (bp : BitVec 4) (a : BitVec 7) (fn : BitVec 8) (imm : BitVec 24) :
    (fQ c op d bp a fn imm).extractLsb' 24 8 = fn := by
  unfold fQ
  repeat rw [BitVec.extractLsb'_append_eq_of_le (by omega)]
  rw [BitVec.extractLsb'_append_eq_of_add_le (by omega)]
  exact BitVec.extractLsb'_eq_self
theorem fQ_imm (c : BitVec 4) (op : BitVec 6) (d : BitVec 7) (bp : BitVec 4) (a : BitVec 7) (fn : BitVec 8) (imm : BitVec 24) :
    (fQ c op d bp a fn imm).extractLsb' 0 24 = imm := by
  unfold fQ
  rw [BitVec.extractLsb'_append_eq_of_add_le (by omega)]
  exact BitVec.extractLsb'_eq_self
theorem fQ_imm_sub (c : BitVec 4) (op : BitVec 6) (d : BitVec 7) (bp : BitVec 4) (a : BitVec 7) (fn : BitVec 8) (imm : BitVec 24) (k n : Nat)
    (hk : k + n ≤ 24) : (fQ c op d bp a fn imm).extractLsb' (k) n = imm.extractLsb' k n := by
  unfold fQ
  rw [BitVec.extractLsb'_append_eq_of_add_le (by omega)]
theorem fQ_imm_bit (c : BitVec 4) (op : BitVec 6) (d : BitVec 7) (bp : BitVec 4) (a : BitVec 7) (fn : BitVec 8) (imm : BitVec 24) (k : Nat)
    (hk : k < 24) : (fQ c op d bp a fn imm).getLsbD (k) = imm.getLsbD k := by
  unfold fQ
  rw [BitVec.getLsbD_append, if_pos (by omega)]

theorem wOp_fQ (v e y : Bool) (c : BitVec 4) (op : BitVec 6) (d : BitVec 7) (bp : BitVec 4) (a : BitVec 7) (fn : BitVec 8) (imm : BitVec 24) :
    wOp (word v e y (fQ c op d bp a fn imm)) = op.toNat := by
  rw [wOp, wBits_word _ _ _ _ _ _ (by decide), fQ_op]
theorem wFn_fQ (v e y : Bool) (c : BitVec 4) (op : BitVec 6) (d : BitVec 7) (bp : BitVec 4) (a : BitVec 7) (fn : BitVec 8) (imm : BitVec 24)
    (hf : fmtOf op.toNat = .q) : wFn (word v e y (fQ c op d bp a fn imm)) = fn.toNat := by
  rw [wFn, wOp_fQ, hf]
  show (wBits _ 24 8).toNat = _
  rw [wBits_word _ _ _ _ _ _ (by decide), fQ_fn]
theorem wSched_fQ (sch : Sched) (e y : Bool) (op : BitVec 6) (d : BitVec 7) (bp : BitVec 4) (a : BitVec 7) (fn : BitVec 8) (imm : BitVec 24) :
    wSched (word sch.v e y (fQ sch.c op d bp a fn imm)) = sch := by
  rw [wSched, wBit_word_62, wBits_word _ _ _ _ _ _ (by decide), fQ_c]

/-! ## The parts of a concatenated field -/

theorem ofBool_bit (b : Bool) : (BitVec.ofBool b).getLsbD 0 = b := by cases b <;> rfl
theorem cat_4_2_at_2 (x0 : BitVec 4) (x1 : BitVec 2) :
    (x0 ++ x1 : BitVec 6).extractLsb' 2 4 = x0 := by
  repeat rw [BitVec.extractLsb'_append_eq_of_le (by omega)]
  exact BitVec.extractLsb'_eq_self
theorem cat_4_2_at_0 (x0 : BitVec 4) (x1 : BitVec 2) :
    (x0 ++ x1 : BitVec 6).extractLsb' 0 2 = x1 := by
  rw [BitVec.extractLsb'_append_eq_of_add_le (by omega)]
  exact BitVec.extractLsb'_eq_self
theorem cat_3_1_at_1 (x0 : BitVec 3) (x1 : BitVec 1) :
    (x0 ++ x1 : BitVec 4).extractLsb' 1 3 = x0 := by
  repeat rw [BitVec.extractLsb'_append_eq_of_le (by omega)]
  exact BitVec.extractLsb'_eq_self
theorem cat_3_1_at_0 (x0 : BitVec 3) (x1 : BitVec 1) :
    (x0 ++ x1 : BitVec 4).extractLsb' 0 1 = x1 := by
  rw [BitVec.extractLsb'_append_eq_of_add_le (by omega)]
  exact BitVec.extractLsb'_eq_self
theorem cat_3_1_bit_0 (x0 : BitVec 3) (x1 : BitVec 1) :
    (x0 ++ x1 : BitVec 4).getLsbD 0 = x1.getLsbD 0 := by
  rw [BitVec.getLsbD_append, if_pos (by omega)]
theorem cat_5_1_at_1 (x0 : BitVec 5) (x1 : BitVec 1) :
    (x0 ++ x1 : BitVec 6).extractLsb' 1 5 = x0 := by
  repeat rw [BitVec.extractLsb'_append_eq_of_le (by omega)]
  exact BitVec.extractLsb'_eq_self
theorem cat_5_1_at_0 (x0 : BitVec 5) (x1 : BitVec 1) :
    (x0 ++ x1 : BitVec 6).extractLsb' 0 1 = x1 := by
  rw [BitVec.extractLsb'_append_eq_of_add_le (by omega)]
  exact BitVec.extractLsb'_eq_self
theorem cat_5_1_bit_0 (x0 : BitVec 5) (x1 : BitVec 1) :
    (x0 ++ x1 : BitVec 6).getLsbD 0 = x1.getLsbD 0 := by
  rw [BitVec.getLsbD_append, if_pos (by omega)]
theorem cat_27_5_at_5 (x0 : BitVec 27) (x1 : BitVec 5) :
    (x0 ++ x1 : BitVec 32).extractLsb' 5 27 = x0 := by
  repeat rw [BitVec.extractLsb'_append_eq_of_le (by omega)]
  exact BitVec.extractLsb'_eq_self
theorem cat_27_5_at_0 (x0 : BitVec 27) (x1 : BitVec 5) :
    (x0 ++ x1 : BitVec 32).extractLsb' 0 5 = x1 := by
  rw [BitVec.extractLsb'_append_eq_of_add_le (by omega)]
  exact BitVec.extractLsb'_eq_self
theorem cat_1_5_at_5 (x0 : BitVec 1) (x1 : BitVec 5) :
    (x0 ++ x1 : BitVec 6).extractLsb' 5 1 = x0 := by
  repeat rw [BitVec.extractLsb'_append_eq_of_le (by omega)]
  exact BitVec.extractLsb'_eq_self
theorem cat_1_5_bit_5 (x0 : BitVec 1) (x1 : BitVec 5) :
    (x0 ++ x1 : BitVec 6).getLsbD 5 = x0.getLsbD 0 := by
  repeat rw [BitVec.getLsbD_append, if_neg (by omega)]
theorem cat_1_5_at_0 (x0 : BitVec 1) (x1 : BitVec 5) :
    (x0 ++ x1 : BitVec 6).extractLsb' 0 5 = x1 := by
  rw [BitVec.extractLsb'_append_eq_of_add_le (by omega)]
  exact BitVec.extractLsb'_eq_self
theorem cat_2_4_at_4 (x0 : BitVec 2) (x1 : BitVec 4) :
    (x0 ++ x1 : BitVec 6).extractLsb' 4 2 = x0 := by
  repeat rw [BitVec.extractLsb'_append_eq_of_le (by omega)]
  exact BitVec.extractLsb'_eq_self
theorem cat_2_4_at_0 (x0 : BitVec 2) (x1 : BitVec 4) :
    (x0 ++ x1 : BitVec 6).extractLsb' 0 4 = x1 := by
  rw [BitVec.extractLsb'_append_eq_of_add_le (by omega)]
  exact BitVec.extractLsb'_eq_self
theorem cat_1_1_at_1 (x0 : BitVec 1) (x1 : BitVec 1) :
    (x0 ++ x1 : BitVec 2).extractLsb' 1 1 = x0 := by
  repeat rw [BitVec.extractLsb'_append_eq_of_le (by omega)]
  exact BitVec.extractLsb'_eq_self
theorem cat_1_1_bit_1 (x0 : BitVec 1) (x1 : BitVec 1) :
    (x0 ++ x1 : BitVec 2).getLsbD 1 = x0.getLsbD 0 := by
  repeat rw [BitVec.getLsbD_append, if_neg (by omega)]
theorem cat_1_1_at_0 (x0 : BitVec 1) (x1 : BitVec 1) :
    (x0 ++ x1 : BitVec 2).extractLsb' 0 1 = x1 := by
  rw [BitVec.extractLsb'_append_eq_of_add_le (by omega)]
  exact BitVec.extractLsb'_eq_self
theorem cat_1_1_bit_0 (x0 : BitVec 1) (x1 : BitVec 1) :
    (x0 ++ x1 : BitVec 2).getLsbD 0 = x1.getLsbD 0 := by
  rw [BitVec.getLsbD_append, if_pos (by omega)]
theorem cat_3_2_1_at_3 (x0 : BitVec 3) (x1 : BitVec 2) (x2 : BitVec 1) :
    (x0 ++ x1 ++ x2 : BitVec 6).extractLsb' 3 3 = x0 := by
  repeat rw [BitVec.extractLsb'_append_eq_of_le (by omega)]
  exact BitVec.extractLsb'_eq_self
theorem cat_3_2_1_at_1 (x0 : BitVec 3) (x1 : BitVec 2) (x2 : BitVec 1) :
    (x0 ++ x1 ++ x2 : BitVec 6).extractLsb' 1 2 = x1 := by
  repeat rw [BitVec.extractLsb'_append_eq_of_le (by omega)]
  rw [BitVec.extractLsb'_append_eq_of_add_le (by omega)]
  exact BitVec.extractLsb'_eq_self
theorem cat_3_2_1_at_0 (x0 : BitVec 3) (x1 : BitVec 2) (x2 : BitVec 1) :
    (x0 ++ x1 ++ x2 : BitVec 6).extractLsb' 0 1 = x2 := by
  rw [BitVec.extractLsb'_append_eq_of_add_le (by omega)]
  exact BitVec.extractLsb'_eq_self
theorem cat_3_2_1_bit_0 (x0 : BitVec 3) (x1 : BitVec 2) (x2 : BitVec 1) :
    (x0 ++ x1 ++ x2 : BitVec 6).getLsbD 0 = x2.getLsbD 0 := by
  rw [BitVec.getLsbD_append, if_pos (by omega)]
theorem cat_3_3_at_3 (x0 : BitVec 3) (x1 : BitVec 3) :
    (x0 ++ x1 : BitVec 6).extractLsb' 3 3 = x0 := by
  repeat rw [BitVec.extractLsb'_append_eq_of_le (by omega)]
  exact BitVec.extractLsb'_eq_self
theorem cat_3_3_at_0 (x0 : BitVec 3) (x1 : BitVec 3) :
    (x0 ++ x1 : BitVec 6).extractLsb' 0 3 = x1 := by
  rw [BitVec.extractLsb'_append_eq_of_add_le (by omega)]
  exact BitVec.extractLsb'_eq_self
theorem cat_1_2_3_at_5 (x0 : BitVec 1) (x1 : BitVec 2) (x2 : BitVec 3) :
    (x0 ++ x1 ++ x2 : BitVec 6).extractLsb' 5 1 = x0 := by
  repeat rw [BitVec.extractLsb'_append_eq_of_le (by omega)]
  exact BitVec.extractLsb'_eq_self
theorem cat_1_2_3_bit_5 (x0 : BitVec 1) (x1 : BitVec 2) (x2 : BitVec 3) :
    (x0 ++ x1 ++ x2 : BitVec 6).getLsbD 5 = x0.getLsbD 0 := by
  repeat rw [BitVec.getLsbD_append, if_neg (by omega)]
theorem cat_1_2_3_at_3 (x0 : BitVec 1) (x1 : BitVec 2) (x2 : BitVec 3) :
    (x0 ++ x1 ++ x2 : BitVec 6).extractLsb' 3 2 = x1 := by
  repeat rw [BitVec.extractLsb'_append_eq_of_le (by omega)]
  rw [BitVec.extractLsb'_append_eq_of_add_le (by omega)]
  exact BitVec.extractLsb'_eq_self
theorem cat_1_2_3_at_0 (x0 : BitVec 1) (x1 : BitVec 2) (x2 : BitVec 3) :
    (x0 ++ x1 ++ x2 : BitVec 6).extractLsb' 0 3 = x2 := by
  rw [BitVec.extractLsb'_append_eq_of_add_le (by omega)]
  exact BitVec.extractLsb'_eq_self
theorem cat_1_1_4_at_5 (x0 : BitVec 1) (x1 : BitVec 1) (x2 : BitVec 4) :
    (x0 ++ x1 ++ x2 : BitVec 6).extractLsb' 5 1 = x0 := by
  repeat rw [BitVec.extractLsb'_append_eq_of_le (by omega)]
  exact BitVec.extractLsb'_eq_self
theorem cat_1_1_4_bit_5 (x0 : BitVec 1) (x1 : BitVec 1) (x2 : BitVec 4) :
    (x0 ++ x1 ++ x2 : BitVec 6).getLsbD 5 = x0.getLsbD 0 := by
  repeat rw [BitVec.getLsbD_append, if_neg (by omega)]
theorem cat_1_1_4_at_4 (x0 : BitVec 1) (x1 : BitVec 1) (x2 : BitVec 4) :
    (x0 ++ x1 ++ x2 : BitVec 6).extractLsb' 4 1 = x1 := by
  repeat rw [BitVec.extractLsb'_append_eq_of_le (by omega)]
  rw [BitVec.extractLsb'_append_eq_of_add_le (by omega)]
  exact BitVec.extractLsb'_eq_self
theorem cat_1_1_4_bit_4 (x0 : BitVec 1) (x1 : BitVec 1) (x2 : BitVec 4) :
    (x0 ++ x1 ++ x2 : BitVec 6).getLsbD 4 = x1.getLsbD 0 := by
  repeat rw [BitVec.getLsbD_append, if_neg (by omega)]
  rw [BitVec.getLsbD_append, if_pos (by omega)]
theorem cat_1_1_4_at_0 (x0 : BitVec 1) (x1 : BitVec 1) (x2 : BitVec 4) :
    (x0 ++ x1 ++ x2 : BitVec 6).extractLsb' 0 4 = x2 := by
  rw [BitVec.extractLsb'_append_eq_of_add_le (by omega)]
  exact BitVec.extractLsb'_eq_self
theorem cat_2_1_3_at_4 (x0 : BitVec 2) (x1 : BitVec 1) (x2 : BitVec 3) :
    (x0 ++ x1 ++ x2 : BitVec 6).extractLsb' 4 2 = x0 := by
  repeat rw [BitVec.extractLsb'_append_eq_of_le (by omega)]
  exact BitVec.extractLsb'_eq_self
theorem cat_2_1_3_at_3 (x0 : BitVec 2) (x1 : BitVec 1) (x2 : BitVec 3) :
    (x0 ++ x1 ++ x2 : BitVec 6).extractLsb' 3 1 = x1 := by
  repeat rw [BitVec.extractLsb'_append_eq_of_le (by omega)]
  rw [BitVec.extractLsb'_append_eq_of_add_le (by omega)]
  exact BitVec.extractLsb'_eq_self
theorem cat_2_1_3_bit_3 (x0 : BitVec 2) (x1 : BitVec 1) (x2 : BitVec 3) :
    (x0 ++ x1 ++ x2 : BitVec 6).getLsbD 3 = x1.getLsbD 0 := by
  repeat rw [BitVec.getLsbD_append, if_neg (by omega)]
  rw [BitVec.getLsbD_append, if_pos (by omega)]
theorem cat_2_1_3_at_0 (x0 : BitVec 2) (x1 : BitVec 1) (x2 : BitVec 3) :
    (x0 ++ x1 ++ x2 : BitVec 6).extractLsb' 0 3 = x2 := by
  rw [BitVec.extractLsb'_append_eq_of_add_le (by omega)]
  exact BitVec.extractLsb'_eq_self
theorem cat_4_3_at_3 (x0 : BitVec 4) (x1 : BitVec 3) :
    (x0 ++ x1 : BitVec 7).extractLsb' 3 4 = x0 := by
  repeat rw [BitVec.extractLsb'_append_eq_of_le (by omega)]
  exact BitVec.extractLsb'_eq_self
theorem cat_4_3_at_0 (x0 : BitVec 4) (x1 : BitVec 3) :
    (x0 ++ x1 : BitVec 7).extractLsb' 0 3 = x1 := by
  rw [BitVec.extractLsb'_append_eq_of_add_le (by omega)]
  exact BitVec.extractLsb'_eq_self
theorem cat_17_7_at_7 (x0 : BitVec 17) (x1 : BitVec 7) :
    (x0 ++ x1 : BitVec 24).extractLsb' 7 17 = x0 := by
  repeat rw [BitVec.extractLsb'_append_eq_of_le (by omega)]
  exact BitVec.extractLsb'_eq_self
theorem cat_17_7_at_0 (x0 : BitVec 17) (x1 : BitVec 7) :
    (x0 ++ x1 : BitVec 24).extractLsb' 0 7 = x1 := by
  rw [BitVec.extractLsb'_append_eq_of_add_le (by omega)]
  exact BitVec.extractLsb'_eq_self
theorem cat_4_20_at_20 (x0 : BitVec 4) (x1 : BitVec 20) :
    (x0 ++ x1 : BitVec 24).extractLsb' 20 4 = x0 := by
  repeat rw [BitVec.extractLsb'_append_eq_of_le (by omega)]
  exact BitVec.extractLsb'_eq_self
theorem cat_4_20_at_0 (x0 : BitVec 4) (x1 : BitVec 20) :
    (x0 ++ x1 : BitVec 24).extractLsb' 0 20 = x1 := by
  rw [BitVec.extractLsb'_append_eq_of_add_le (by omega)]
  exact BitVec.extractLsb'_eq_self
theorem cat_2_2_at_2 (x0 : BitVec 2) (x1 : BitVec 2) :
    (x0 ++ x1 : BitVec 4).extractLsb' 2 2 = x0 := by
  repeat rw [BitVec.extractLsb'_append_eq_of_le (by omega)]
  exact BitVec.extractLsb'_eq_self
theorem cat_2_2_at_0 (x0 : BitVec 2) (x1 : BitVec 2) :
    (x0 ++ x1 : BitVec 4).extractLsb' 0 2 = x1 := by
  rw [BitVec.extractLsb'_append_eq_of_add_le (by omega)]
  exact BitVec.extractLsb'_eq_self
theorem cat_1_1_6_6_at_13 (x0 : BitVec 1) (x1 : BitVec 1) (x2 : BitVec 6) (x3 : BitVec 6) :
    (x0 ++ x1 ++ x2 ++ x3 : BitVec 14).extractLsb' 13 1 = x0 := by
  repeat rw [BitVec.extractLsb'_append_eq_of_le (by omega)]
  exact BitVec.extractLsb'_eq_self
theorem cat_1_1_6_6_bit_13 (x0 : BitVec 1) (x1 : BitVec 1) (x2 : BitVec 6) (x3 : BitVec 6) :
    (x0 ++ x1 ++ x2 ++ x3 : BitVec 14).getLsbD 13 = x0.getLsbD 0 := by
  repeat rw [BitVec.getLsbD_append, if_neg (by omega)]
theorem cat_1_1_6_6_at_12 (x0 : BitVec 1) (x1 : BitVec 1) (x2 : BitVec 6) (x3 : BitVec 6) :
    (x0 ++ x1 ++ x2 ++ x3 : BitVec 14).extractLsb' 12 1 = x1 := by
  repeat rw [BitVec.extractLsb'_append_eq_of_le (by omega)]
  rw [BitVec.extractLsb'_append_eq_of_add_le (by omega)]
  exact BitVec.extractLsb'_eq_self
theorem cat_1_1_6_6_bit_12 (x0 : BitVec 1) (x1 : BitVec 1) (x2 : BitVec 6) (x3 : BitVec 6) :
    (x0 ++ x1 ++ x2 ++ x3 : BitVec 14).getLsbD 12 = x1.getLsbD 0 := by
  repeat rw [BitVec.getLsbD_append, if_neg (by omega)]
  rw [BitVec.getLsbD_append, if_pos (by omega)]
theorem cat_1_1_6_6_at_6 (x0 : BitVec 1) (x1 : BitVec 1) (x2 : BitVec 6) (x3 : BitVec 6) :
    (x0 ++ x1 ++ x2 ++ x3 : BitVec 14).extractLsb' 6 6 = x2 := by
  repeat rw [BitVec.extractLsb'_append_eq_of_le (by omega)]
  rw [BitVec.extractLsb'_append_eq_of_add_le (by omega)]
  exact BitVec.extractLsb'_eq_self
theorem cat_1_1_6_6_at_0 (x0 : BitVec 1) (x1 : BitVec 1) (x2 : BitVec 6) (x3 : BitVec 6) :
    (x0 ++ x1 ++ x2 ++ x3 : BitVec 14).extractLsb' 0 6 = x3 := by
  rw [BitVec.extractLsb'_append_eq_of_add_le (by omega)]
  exact BitVec.extractLsb'_eq_self
theorem cat_8_6_at_6 (x0 : BitVec 8) (x1 : BitVec 6) :
    (x0 ++ x1 : BitVec 14).extractLsb' 6 8 = x0 := by
  repeat rw [BitVec.extractLsb'_append_eq_of_le (by omega)]
  exact BitVec.extractLsb'_eq_self
theorem cat_8_6_at_0 (x0 : BitVec 8) (x1 : BitVec 6) :
    (x0 ++ x1 : BitVec 14).extractLsb' 0 6 = x1 := by
  rw [BitVec.extractLsb'_append_eq_of_add_le (by omega)]
  exact BitVec.extractLsb'_eq_self
theorem cat_7_7_at_7 (x0 : BitVec 7) (x1 : BitVec 7) :
    (x0 ++ x1 : BitVec 14).extractLsb' 7 7 = x0 := by
  repeat rw [BitVec.extractLsb'_append_eq_of_le (by omega)]
  exact BitVec.extractLsb'_eq_self
theorem cat_7_7_at_0 (x0 : BitVec 7) (x1 : BitVec 7) :
    (x0 ++ x1 : BitVec 14).extractLsb' 0 7 = x1 := by
  rw [BitVec.extractLsb'_append_eq_of_add_le (by omega)]
  exact BitVec.extractLsb'_eq_self
theorem cat_1_1_1_8_3_at_13 (x0 : BitVec 1) (x1 : BitVec 1) (x2 : BitVec 1) (x3 : BitVec 8) (x4 : BitVec 3) :
    (x0 ++ x1 ++ x2 ++ x3 ++ x4 : BitVec 14).extractLsb' 13 1 = x0 := by
  repeat rw [BitVec.extractLsb'_append_eq_of_le (by omega)]
  exact BitVec.extractLsb'_eq_self
theorem cat_1_1_1_8_3_bit_13 (x0 : BitVec 1) (x1 : BitVec 1) (x2 : BitVec 1) (x3 : BitVec 8) (x4 : BitVec 3) :
    (x0 ++ x1 ++ x2 ++ x3 ++ x4 : BitVec 14).getLsbD 13 = x0.getLsbD 0 := by
  repeat rw [BitVec.getLsbD_append, if_neg (by omega)]
theorem cat_1_1_1_8_3_at_12 (x0 : BitVec 1) (x1 : BitVec 1) (x2 : BitVec 1) (x3 : BitVec 8) (x4 : BitVec 3) :
    (x0 ++ x1 ++ x2 ++ x3 ++ x4 : BitVec 14).extractLsb' 12 1 = x1 := by
  repeat rw [BitVec.extractLsb'_append_eq_of_le (by omega)]
  rw [BitVec.extractLsb'_append_eq_of_add_le (by omega)]
  exact BitVec.extractLsb'_eq_self
theorem cat_1_1_1_8_3_bit_12 (x0 : BitVec 1) (x1 : BitVec 1) (x2 : BitVec 1) (x3 : BitVec 8) (x4 : BitVec 3) :
    (x0 ++ x1 ++ x2 ++ x3 ++ x4 : BitVec 14).getLsbD 12 = x1.getLsbD 0 := by
  repeat rw [BitVec.getLsbD_append, if_neg (by omega)]
  rw [BitVec.getLsbD_append, if_pos (by omega)]
theorem cat_1_1_1_8_3_at_11 (x0 : BitVec 1) (x1 : BitVec 1) (x2 : BitVec 1) (x3 : BitVec 8) (x4 : BitVec 3) :
    (x0 ++ x1 ++ x2 ++ x3 ++ x4 : BitVec 14).extractLsb' 11 1 = x2 := by
  repeat rw [BitVec.extractLsb'_append_eq_of_le (by omega)]
  rw [BitVec.extractLsb'_append_eq_of_add_le (by omega)]
  exact BitVec.extractLsb'_eq_self
theorem cat_1_1_1_8_3_bit_11 (x0 : BitVec 1) (x1 : BitVec 1) (x2 : BitVec 1) (x3 : BitVec 8) (x4 : BitVec 3) :
    (x0 ++ x1 ++ x2 ++ x3 ++ x4 : BitVec 14).getLsbD 11 = x2.getLsbD 0 := by
  repeat rw [BitVec.getLsbD_append, if_neg (by omega)]
  rw [BitVec.getLsbD_append, if_pos (by omega)]
theorem cat_1_1_1_8_3_at_3 (x0 : BitVec 1) (x1 : BitVec 1) (x2 : BitVec 1) (x3 : BitVec 8) (x4 : BitVec 3) :
    (x0 ++ x1 ++ x2 ++ x3 ++ x4 : BitVec 14).extractLsb' 3 8 = x3 := by
  repeat rw [BitVec.extractLsb'_append_eq_of_le (by omega)]
  rw [BitVec.extractLsb'_append_eq_of_add_le (by omega)]
  exact BitVec.extractLsb'_eq_self
theorem cat_1_1_1_8_3_at_0 (x0 : BitVec 1) (x1 : BitVec 1) (x2 : BitVec 1) (x3 : BitVec 8) (x4 : BitVec 3) :
    (x0 ++ x1 ++ x2 ++ x3 ++ x4 : BitVec 14).extractLsb' 0 3 = x4 := by
  rw [BitVec.extractLsb'_append_eq_of_add_le (by omega)]
  exact BitVec.extractLsb'_eq_self
theorem cat_8_2_4_at_6 (x0 : BitVec 8) (x1 : BitVec 2) (x2 : BitVec 4) :
    (x0 ++ x1 ++ x2 : BitVec 14).extractLsb' 6 8 = x0 := by
  repeat rw [BitVec.extractLsb'_append_eq_of_le (by omega)]
  exact BitVec.extractLsb'_eq_self
theorem cat_8_2_4_at_4 (x0 : BitVec 8) (x1 : BitVec 2) (x2 : BitVec 4) :
    (x0 ++ x1 ++ x2 : BitVec 14).extractLsb' 4 2 = x1 := by
  repeat rw [BitVec.extractLsb'_append_eq_of_le (by omega)]
  rw [BitVec.extractLsb'_append_eq_of_add_le (by omega)]
  exact BitVec.extractLsb'_eq_self
theorem cat_8_2_4_at_0 (x0 : BitVec 8) (x1 : BitVec 2) (x2 : BitVec 4) :
    (x0 ++ x1 ++ x2 : BitVec 14).extractLsb' 0 4 = x2 := by
  rw [BitVec.extractLsb'_append_eq_of_add_le (by omega)]
  exact BitVec.extractLsb'_eq_self
theorem cat_10_4_at_4 (x0 : BitVec 10) (x1 : BitVec 4) :
    (x0 ++ x1 : BitVec 14).extractLsb' 4 10 = x0 := by
  repeat rw [BitVec.extractLsb'_append_eq_of_le (by omega)]
  exact BitVec.extractLsb'_eq_self
theorem cat_10_4_at_0 (x0 : BitVec 10) (x1 : BitVec 4) :
    (x0 ++ x1 : BitVec 14).extractLsb' 0 4 = x1 := by
  rw [BitVec.extractLsb'_append_eq_of_add_le (by omega)]
  exact BitVec.extractLsb'_eq_self
theorem cat_6_8_at_8 (x0 : BitVec 6) (x1 : BitVec 8) :
    (x0 ++ x1 : BitVec 14).extractLsb' 8 6 = x0 := by
  repeat rw [BitVec.extractLsb'_append_eq_of_le (by omega)]
  exact BitVec.extractLsb'_eq_self
theorem cat_6_8_at_0 (x0 : BitVec 6) (x1 : BitVec 8) :
    (x0 ++ x1 : BitVec 14).extractLsb' 0 8 = x1 := by
  rw [BitVec.extractLsb'_append_eq_of_add_le (by omega)]
  exact BitVec.extractLsb'_eq_self
theorem cat_13_1_at_1 (x0 : BitVec 13) (x1 : BitVec 1) :
    (x0 ++ x1 : BitVec 14).extractLsb' 1 13 = x0 := by
  repeat rw [BitVec.extractLsb'_append_eq_of_le (by omega)]
  exact BitVec.extractLsb'_eq_self
theorem cat_13_1_at_0 (x0 : BitVec 13) (x1 : BitVec 1) :
    (x0 ++ x1 : BitVec 14).extractLsb' 0 1 = x1 := by
  rw [BitVec.extractLsb'_append_eq_of_add_le (by omega)]
  exact BitVec.extractLsb'_eq_self
theorem cat_13_1_bit_0 (x0 : BitVec 13) (x1 : BitVec 1) :
    (x0 ++ x1 : BitVec 14).getLsbD 0 = x1.getLsbD 0 := by
  rw [BitVec.getLsbD_append, if_pos (by omega)]
theorem cat_4_1_3_6_at_10 (x0 : BitVec 4) (x1 : BitVec 1) (x2 : BitVec 3) (x3 : BitVec 6) :
    (x0 ++ x1 ++ x2 ++ x3 : BitVec 14).extractLsb' 10 4 = x0 := by
  repeat rw [BitVec.extractLsb'_append_eq_of_le (by omega)]
  exact BitVec.extractLsb'_eq_self
theorem cat_4_1_3_6_at_9 (x0 : BitVec 4) (x1 : BitVec 1) (x2 : BitVec 3) (x3 : BitVec 6) :
    (x0 ++ x1 ++ x2 ++ x3 : BitVec 14).extractLsb' 9 1 = x1 := by
  repeat rw [BitVec.extractLsb'_append_eq_of_le (by omega)]
  rw [BitVec.extractLsb'_append_eq_of_add_le (by omega)]
  exact BitVec.extractLsb'_eq_self
theorem cat_4_1_3_6_bit_9 (x0 : BitVec 4) (x1 : BitVec 1) (x2 : BitVec 3) (x3 : BitVec 6) :
    (x0 ++ x1 ++ x2 ++ x3 : BitVec 14).getLsbD 9 = x1.getLsbD 0 := by
  repeat rw [BitVec.getLsbD_append, if_neg (by omega)]
  rw [BitVec.getLsbD_append, if_pos (by omega)]
theorem cat_4_1_3_6_at_6 (x0 : BitVec 4) (x1 : BitVec 1) (x2 : BitVec 3) (x3 : BitVec 6) :
    (x0 ++ x1 ++ x2 ++ x3 : BitVec 14).extractLsb' 6 3 = x2 := by
  repeat rw [BitVec.extractLsb'_append_eq_of_le (by omega)]
  rw [BitVec.extractLsb'_append_eq_of_add_le (by omega)]
  exact BitVec.extractLsb'_eq_self
theorem cat_4_1_3_6_at_0 (x0 : BitVec 4) (x1 : BitVec 1) (x2 : BitVec 3) (x3 : BitVec 6) :
    (x0 ++ x1 ++ x2 ++ x3 : BitVec 14).extractLsb' 0 6 = x3 := by
  rw [BitVec.extractLsb'_append_eq_of_add_le (by omega)]
  exact BitVec.extractLsb'_eq_self
theorem cat_1_23_at_23 (x0 : BitVec 1) (x1 : BitVec 23) :
    (x0 ++ x1 : BitVec 24).extractLsb' 23 1 = x0 := by
  repeat rw [BitVec.extractLsb'_append_eq_of_le (by omega)]
  exact BitVec.extractLsb'_eq_self
theorem cat_1_23_bit_23 (x0 : BitVec 1) (x1 : BitVec 23) :
    (x0 ++ x1 : BitVec 24).getLsbD 23 = x0.getLsbD 0 := by
  repeat rw [BitVec.getLsbD_append, if_neg (by omega)]
theorem cat_1_23_at_0 (x0 : BitVec 1) (x1 : BitVec 23) :
    (x0 ++ x1 : BitVec 24).extractLsb' 0 23 = x1 := by
  rw [BitVec.extractLsb'_append_eq_of_add_le (by omega)]
  exact BitVec.extractLsb'_eq_self
theorem cat_6_18_at_18 (x0 : BitVec 6) (x1 : BitVec 18) :
    (x0 ++ x1 : BitVec 24).extractLsb' 18 6 = x0 := by
  repeat rw [BitVec.extractLsb'_append_eq_of_le (by omega)]
  exact BitVec.extractLsb'_eq_self
theorem cat_6_18_at_0 (x0 : BitVec 6) (x1 : BitVec 18) :
    (x0 ++ x1 : BitVec 24).extractLsb' 0 18 = x1 := by
  rw [BitVec.extractLsb'_append_eq_of_add_le (by omega)]
  exact BitVec.extractLsb'_eq_self
theorem cat_6_18_bit_0 (x0 : BitVec 6) (x1 : BitVec 18) :
    (x0 ++ x1 : BitVec 24).getLsbD 0 = x1.getLsbD 0 := by
  rw [BitVec.getLsbD_append, if_pos (by omega)]
theorem cat_6_17_1_at_18 (x0 : BitVec 6) (x1 : BitVec 17) (x2 : BitVec 1) :
    (x0 ++ x1 ++ x2 : BitVec 24).extractLsb' 18 6 = x0 := by
  repeat rw [BitVec.extractLsb'_append_eq_of_le (by omega)]
  exact BitVec.extractLsb'_eq_self
theorem cat_6_17_1_at_1 (x0 : BitVec 6) (x1 : BitVec 17) (x2 : BitVec 1) :
    (x0 ++ x1 ++ x2 : BitVec 24).extractLsb' 1 17 = x1 := by
  repeat rw [BitVec.extractLsb'_append_eq_of_le (by omega)]
  rw [BitVec.extractLsb'_append_eq_of_add_le (by omega)]
  exact BitVec.extractLsb'_eq_self
theorem cat_6_17_1_at_0 (x0 : BitVec 6) (x1 : BitVec 17) (x2 : BitVec 1) :
    (x0 ++ x1 ++ x2 : BitVec 24).extractLsb' 0 1 = x2 := by
  rw [BitVec.extractLsb'_append_eq_of_add_le (by omega)]
  exact BitVec.extractLsb'_eq_self
theorem cat_6_17_1_bit_0 (x0 : BitVec 6) (x1 : BitVec 17) (x2 : BitVec 1) :
    (x0 ++ x1 ++ x2 : BitVec 24).getLsbD 0 = x2.getLsbD 0 := by
  rw [BitVec.getLsbD_append, if_pos (by omega)]
theorem cat_23_1_at_1 (x0 : BitVec 23) (x1 : BitVec 1) :
    (x0 ++ x1 : BitVec 24).extractLsb' 1 23 = x0 := by
  repeat rw [BitVec.extractLsb'_append_eq_of_le (by omega)]
  exact BitVec.extractLsb'_eq_self
theorem cat_23_1_at_0 (x0 : BitVec 23) (x1 : BitVec 1) :
    (x0 ++ x1 : BitVec 24).extractLsb' 0 1 = x1 := by
  rw [BitVec.extractLsb'_append_eq_of_add_le (by omega)]
  exact BitVec.extractLsb'_eq_self
theorem cat_23_1_bit_0 (x0 : BitVec 23) (x1 : BitVec 1) :
    (x0 ++ x1 : BitVec 24).getLsbD 0 = x1.getLsbD 0 := by
  rw [BitVec.getLsbD_append, if_pos (by omega)]
theorem cat_22_2_at_2 (x0 : BitVec 22) (x1 : BitVec 2) :
    (x0 ++ x1 : BitVec 24).extractLsb' 2 22 = x0 := by
  repeat rw [BitVec.extractLsb'_append_eq_of_le (by omega)]
  exact BitVec.extractLsb'_eq_self
theorem cat_22_2_at_0 (x0 : BitVec 22) (x1 : BitVec 2) :
    (x0 ++ x1 : BitVec 24).extractLsb' 0 2 = x1 := by
  rw [BitVec.extractLsb'_append_eq_of_add_le (by omega)]
  exact BitVec.extractLsb'_eq_self
theorem cat_1_1_2_2_at_5 (x0 : BitVec 1) (x1 : BitVec 1) (x2 : BitVec 2) (x3 : BitVec 2) :
    (x0 ++ x1 ++ x2 ++ x3 : BitVec 6).extractLsb' 5 1 = x0 := by
  repeat rw [BitVec.extractLsb'_append_eq_of_le (by omega)]
  exact BitVec.extractLsb'_eq_self
theorem cat_1_1_2_2_bit_5 (x0 : BitVec 1) (x1 : BitVec 1) (x2 : BitVec 2) (x3 : BitVec 2) :
    (x0 ++ x1 ++ x2 ++ x3 : BitVec 6).getLsbD 5 = x0.getLsbD 0 := by
  repeat rw [BitVec.getLsbD_append, if_neg (by omega)]
theorem cat_1_1_2_2_at_4 (x0 : BitVec 1) (x1 : BitVec 1) (x2 : BitVec 2) (x3 : BitVec 2) :
    (x0 ++ x1 ++ x2 ++ x3 : BitVec 6).extractLsb' 4 1 = x1 := by
  repeat rw [BitVec.extractLsb'_append_eq_of_le (by omega)]
  rw [BitVec.extractLsb'_append_eq_of_add_le (by omega)]
  exact BitVec.extractLsb'_eq_self
theorem cat_1_1_2_2_bit_4 (x0 : BitVec 1) (x1 : BitVec 1) (x2 : BitVec 2) (x3 : BitVec 2) :
    (x0 ++ x1 ++ x2 ++ x3 : BitVec 6).getLsbD 4 = x1.getLsbD 0 := by
  repeat rw [BitVec.getLsbD_append, if_neg (by omega)]
  rw [BitVec.getLsbD_append, if_pos (by omega)]
theorem cat_1_1_2_2_at_2 (x0 : BitVec 1) (x1 : BitVec 1) (x2 : BitVec 2) (x3 : BitVec 2) :
    (x0 ++ x1 ++ x2 ++ x3 : BitVec 6).extractLsb' 2 2 = x2 := by
  repeat rw [BitVec.extractLsb'_append_eq_of_le (by omega)]
  rw [BitVec.extractLsb'_append_eq_of_add_le (by omega)]
  exact BitVec.extractLsb'_eq_self
theorem cat_1_1_2_2_at_0 (x0 : BitVec 1) (x1 : BitVec 1) (x2 : BitVec 2) (x3 : BitVec 2) :
    (x0 ++ x1 ++ x2 ++ x3 : BitVec 6).extractLsb' 0 2 = x3 := by
  rw [BitVec.extractLsb'_append_eq_of_add_le (by omega)]
  exact BitVec.extractLsb'_eq_self
theorem cat_3_1_2_at_3 (x0 : BitVec 3) (x1 : BitVec 1) (x2 : BitVec 2) :
    (x0 ++ x1 ++ x2 : BitVec 6).extractLsb' 3 3 = x0 := by
  repeat rw [BitVec.extractLsb'_append_eq_of_le (by omega)]
  exact BitVec.extractLsb'_eq_self
theorem cat_3_1_2_at_2 (x0 : BitVec 3) (x1 : BitVec 1) (x2 : BitVec 2) :
    (x0 ++ x1 ++ x2 : BitVec 6).extractLsb' 2 1 = x1 := by
  repeat rw [BitVec.extractLsb'_append_eq_of_le (by omega)]
  rw [BitVec.extractLsb'_append_eq_of_add_le (by omega)]
  exact BitVec.extractLsb'_eq_self
theorem cat_3_1_2_bit_2 (x0 : BitVec 3) (x1 : BitVec 1) (x2 : BitVec 2) :
    (x0 ++ x1 ++ x2 : BitVec 6).getLsbD 2 = x1.getLsbD 0 := by
  repeat rw [BitVec.getLsbD_append, if_neg (by omega)]
  rw [BitVec.getLsbD_append, if_pos (by omega)]
theorem cat_3_1_2_at_0 (x0 : BitVec 3) (x1 : BitVec 1) (x2 : BitVec 2) :
    (x0 ++ x1 ++ x2 : BitVec 6).extractLsb' 0 2 = x2 := by
  rw [BitVec.extractLsb'_append_eq_of_add_le (by omega)]
  exact BitVec.extractLsb'_eq_self
theorem cat_24_8_at_8 (x0 : BitVec 24) (x1 : BitVec 8) :
    (x0 ++ x1 : BitVec 32).extractLsb' 8 24 = x0 := by
  repeat rw [BitVec.extractLsb'_append_eq_of_le (by omega)]
  exact BitVec.extractLsb'_eq_self
theorem cat_24_8_at_0 (x0 : BitVec 24) (x1 : BitVec 8) :
    (x0 ++ x1 : BitVec 32).extractLsb' 0 8 = x1 := by
  rw [BitVec.extractLsb'_append_eq_of_add_le (by omega)]
  exact BitVec.extractLsb'_eq_self
theorem cat_25_7_at_7 (x0 : BitVec 25) (x1 : BitVec 7) :
    (x0 ++ x1 : BitVec 32).extractLsb' 7 25 = x0 := by
  repeat rw [BitVec.extractLsb'_append_eq_of_le (by omega)]
  exact BitVec.extractLsb'_eq_self
theorem cat_25_7_at_0 (x0 : BitVec 25) (x1 : BitVec 7) :
    (x0 ++ x1 : BitVec 32).extractLsb' 0 7 = x1 := by
  rw [BitVec.extractLsb'_append_eq_of_add_le (by omega)]
  exact BitVec.extractLsb'_eq_self

/-! ## An encoding decodes to its instruction -/

/-- A word whose major and function name the instruction decodes to it, on an agent that may issue it. -/
theorem decode_word (i : Instr) (b : BitVec 60) (v e y ap : Bool) (hb : i.body = some b) (hw : i.wellFormed = true)
    (op fn : Nat) (ho : wOp (word v e y b) = op) (hf : wFn (word v e y b) = fn) (h1 : op < 0x1F)
    (h2 : fn < fnCount op) (hc : candidate op fn (word v e y b) = some i)
    (ha : agentOk ap (wOp (word v e y b)) (wFn (word v e y b)) = true) :
    decode ap (word v e y b) = .ok ⟨i, e, y⟩ := by
  have hd : decodeFields (word v e y b) = some i := by
    simp only [decodeFields, ho, hf, hc, hw, hb, wBits_word_all, BEq.rfl, Bool.and_self, if_true]
  rw [ho, hf] at ha
  simp only [decode, wBit_word_63, ho, hf, ha, hd, wBit_word_61, wBit_word_60, Nat.not_le_of_lt h1,
    Nat.not_le_of_lt h2, Bool.not_true, Bool.false_eq_true, if_false]

/-- What the family `RoundTrip` says of an instruction: the word the encoder gives it, when it is well formed, decodes to
it with the E and Y bits it was encoded with, on every agent that may issue it. -/
def RoundTrip.Statement (i : Instr) : Prop :=
  ∀ (ap e y : Bool) (w : DWord), i.wellFormed = true → encode i e y = some w →
    agentOk ap (wOp w) (wFn w) = true → decode ap w = .ok ⟨i, e, y⟩

/-- The statement from the fields of the encoding. -/
theorem roundTrip_of (i : Instr) (b : BitVec 60) (v : Bool) (hb : i.body = some b)
    (hv : i.version = v)
    (hc : ∀ e y, ∃ op fn, wOp (word v e y b) = op ∧ wFn (word v e y b) = fn ∧ op < 0x1F ∧ fn < fnCount op ∧
      candidate op fn (word v e y b) = some i) : RoundTrip.Statement i := by
  intro ap e y w hw he ha
  obtain ⟨op, fn, ho, hf, h1, h2, h3⟩ := hc e y
  have : w = word v e y b := by
    rw [encode, hb, hv, Option.map_some, Option.some.injEq] at he
    exact he.symm
  subst this
  exact decode_word i b v e y ap hb hw op fn ho hf h1 h2 h3 ha

end Sys2Proof.Laws
end

