-- ==== Sys2Proof/Laws/PerInstr.lean ====
section
/-! SUPPORT. The family of statements made per instruction: decoding what the encoder writes gives the instruction back
(R35 to R45, R51). -/

namespace Sys2Proof.Laws
open Sys2Proof

set_option Elab.async false

/-! ## Standing forms (R210) -/

theorem standInstall_mma (ac : BitVec 2) (sa : BitVec 4) (sb : BitVec 4) (ot : BitVec 6) (t : Ty) (ta : Bool) (tb :
    Bool) (kc : BitVec 6) :
    RoundTrip.Statement (.standInstall (.mma ac sa sb ot t ta tb kc)) := by
  refine roundTrip_of _ _ false rfl rfl fun e y => ⟨18, 0, wOp_fT .., wFn_fT _ _ _ _ _ _ _ _ _ _ _ _ _ _ _ rfl, by
    decide, by decide, ?_⟩
  simp (disch := decide) only [candidate, standOf, Stand.body, wBits_word, wBit_word, fT_sb, fT_ot, fT_t, fT_ac_sub,
    fT_sa_sub, fT_aux_sub, fT_s_bit, fT_j_bit, fT_aux_bit, cat_2_2_at_0, cat_1_1_6_6_bit_13, cat_1_1_6_6_bit_12,
    cat_1_1_6_6_at_0, ty_dec_enc, Option.bind_some, Option.map_some, ofBool_bit, BitVec.extractLsb'_eq_self]
  rfl

theorem standInstall_tmm (ac : BitVec 2) (sa : BitVec 4) (sb : BitVec 4) (ot : BitVec 6) (ta : Bool) (tb : Bool) (kc :
    BitVec 6) :
    RoundTrip.Statement (.standInstall (.tmm ac sa sb ot ta tb kc)) := by
  refine roundTrip_of _ _ false rfl rfl fun e y => ⟨18, 1, wOp_fT .., wFn_fT _ _ _ _ _ _ _ _ _ _ _ _ _ _ _ rfl, by
    decide, by decide, ?_⟩
  simp (disch := decide) only [candidate, standOf, Stand.body, wBits_word, wBit_word, fT_sb, fT_ot, fT_ac_sub,
    fT_sa_sub, fT_aux_sub, fT_s_bit, fT_j_bit, fT_aux_bit, cat_2_2_at_0, cat_1_1_6_6_bit_13, cat_1_1_6_6_bit_12,
    cat_1_1_6_6_at_0, Option.map_some, ofBool_bit, BitVec.extractLsb'_eq_self]
  rfl

theorem standInstall_tadd (ac : BitVec 2) (sa : BitVec 4) (ot : BitVec 6) (t : Ty) (b : BitVec 2) :
    RoundTrip.Statement (.standInstall (.tadd ac sa ot t b)) := by
  refine roundTrip_of _ _ false rfl rfl fun e y => ⟨19, 0, wOp_fT .., wFn_fT _ _ _ _ _ _ _ _ _ _ _ _ _ _ _ rfl, by
    decide, by decide, ?_⟩
  simp (disch := decide) only [candidate, standOf, Stand.body, wBits_word, wBit_word, fT_ot, fT_t, fT_ac_sub,
    fT_sa_sub, fT_aux_sub, fT_s_bit, cat_2_2_at_0, cat_8_2_4_at_4, ty_dec_enc, Option.bind_some, Option.map_some,
    BitVec.extractLsb'_eq_self]
  rfl

theorem standInstall_tmul (ac : BitVec 2) (sa : BitVec 4) (ot : BitVec 6) (t : Ty) (b : BitVec 2) :
    RoundTrip.Statement (.standInstall (.tmul ac sa ot t b)) := by
  refine roundTrip_of _ _ false rfl rfl fun e y => ⟨19, 1, wOp_fT .., wFn_fT _ _ _ _ _ _ _ _ _ _ _ _ _ _ _ rfl, by
    decide, by decide, ?_⟩
  simp (disch := decide) only [candidate, standOf, Stand.body, wBits_word, wBit_word, fT_ot, fT_t, fT_ac_sub,
    fT_sa_sub, fT_aux_sub, fT_s_bit, cat_2_2_at_0, cat_8_2_4_at_4, ty_dec_enc, Option.bind_some, Option.map_some,
    BitVec.extractLsb'_eq_self]
  rfl

theorem standInstall_tact (ac : BitVec 2) (ot : BitVec 6) (f : BitVec 4) :
    RoundTrip.Statement (.standInstall (.tact ac ot f)) := by
  refine roundTrip_of _ _ false rfl rfl fun e y => ⟨19, 2, wOp_fT .., wFn_fT _ _ _ _ _ _ _ _ _ _ _ _ _ _ _ rfl, by
    decide, by decide, ?_⟩
  simp (disch := decide) only [candidate, standOf, Stand.body, wBits_word, wBit_word, fT_ot, fT_ac_sub, fT_aux_sub,
    fT_s_bit, cat_2_2_at_0, cat_10_4_at_0, Option.map_some]
  rfl

theorem standInstall_tactd (ac : BitVec 2) (sa : BitVec 4) (ot : BitVec 6) (t : Ty) (f : BitVec 4) :
    RoundTrip.Statement (.standInstall (.tactd ac sa ot t f)) := by
  refine roundTrip_of _ _ false rfl rfl fun e y => ⟨19, 3, wOp_fT .., wFn_fT _ _ _ _ _ _ _ _ _ _ _ _ _ _ _ rfl, by
    decide, by decide, ?_⟩
  simp (disch := decide) only [candidate, standOf, Stand.body, wBits_word, wBit_word, fT_ot, fT_t, fT_ac_sub,
    fT_sa_sub, fT_aux_sub, fT_s_bit, cat_2_2_at_0, cat_10_4_at_0, ty_dec_enc, Option.bind_some, Option.map_some,
    BitVec.extractLsb'_eq_self]
  rfl

theorem standInstall_trms (ac : BitVec 2) (sx : BitVec 4) (ot : BitVec 6) (t : Ty) (e : BitVec 8) :
    RoundTrip.Statement (.standInstall (.trms ac sx ot t e)) := by
  refine roundTrip_of _ _ false rfl rfl fun e y => ⟨19, 4, wOp_fT .., wFn_fT _ _ _ _ _ _ _ _ _ _ _ _ _ _ _ rfl, by
    decide, by decide, ?_⟩
  simp (disch := decide) only [candidate, standOf, Stand.body, wBits_word, wBit_word, fT_sx, fT_ot, fT_t, fT_ac_sub,
    fT_aux_sub, fT_s_bit, cat_2_2_at_0, cat_6_8_at_0, ty_dec_enc, Option.bind_some, Option.map_some]
  rfl

theorem standInstall_trmsd (ac : BitVec 2) (sa : BitVec 4) (sx : BitVec 4) (ot : BitVec 6) (t : Ty) (e : BitVec 8) :
    RoundTrip.Statement (.standInstall (.trmsd ac sa sx ot t e)) := by
  refine roundTrip_of _ _ false rfl rfl fun e y => ⟨19, 5, wOp_fT .., wFn_fT _ _ _ _ _ _ _ _ _ _ _ _ _ _ _ rfl, by
    decide, by decide, ?_⟩
  simp (disch := decide) only [candidate, standOf, Stand.body, wBits_word, wBit_word, fT_sx, fT_ot, fT_t, fT_ac_sub,
    fT_sa_sub, fT_aux_sub, fT_s_bit, cat_2_2_at_0, cat_6_8_at_0, ty_dec_enc, Option.bind_some, Option.map_some,
    BitVec.extractLsb'_eq_self]
  rfl

theorem standInstall_tsmax (ac : BitVec 2) (sx : BitVec 4) (ot : BitVec 6) (norm : Bool) :
    RoundTrip.Statement (.standInstall (.tsmax ac sx ot norm)) := by
  refine roundTrip_of _ _ false rfl rfl fun e y => ⟨19, 6, wOp_fT .., wFn_fT _ _ _ _ _ _ _ _ _ _ _ _ _ _ _ rfl, by
    decide, by decide, ?_⟩
  simp (disch := decide) only [candidate, standOf, Stand.body, wBits_word, wBit_word, fT_sx, fT_ot, fT_ac_sub,
    fT_s_bit, fT_aux_bit, cat_2_2_at_0, cat_13_1_bit_0, Option.map_some, ofBool_bit]
  rfl

theorem standInstall_tsmaxd (ac : BitVec 2) (sa : BitVec 4) (ot : BitVec 6) (t : Ty) :
    RoundTrip.Statement (.standInstall (.tsmaxd ac sa ot t)) := by
  refine roundTrip_of _ _ false rfl rfl fun e y => ⟨19, 7, wOp_fT .., wFn_fT _ _ _ _ _ _ _ _ _ _ _ _ _ _ _ rfl, by
    decide, by decide, ?_⟩
  simp (disch := decide) only [candidate, standOf, Stand.body, wBits_word, wBit_word, fT_ot, fT_t, fT_ac_sub,
    fT_sa_sub, fT_s_bit, cat_2_2_at_0, ty_dec_enc, Option.bind_some, Option.map_some, BitVec.extractLsb'_eq_self]
  rfl

theorem standInstall_tscale (ac : BitVec 2) (sa : BitVec 4) (ot : BitVec 6) (t : Ty) :
    RoundTrip.Statement (.standInstall (.tscale ac sa ot t)) := by
  refine roundTrip_of _ _ false rfl rfl fun e y => ⟨19, 8, wOp_fT .., wFn_fT _ _ _ _ _ _ _ _ _ _ _ _ _ _ _ rfl, by
    decide, by decide, ?_⟩
  simp (disch := decide) only [candidate, standOf, Stand.body, wBits_word, wBit_word, fT_ot, fT_t, fT_ac_sub,
    fT_sa_sub, fT_s_bit, cat_2_2_at_0, ty_dec_enc, Option.bind_some, Option.map_some, BitVec.extractLsb'_eq_self]
  rfl

theorem standInstall_vproj (ac : BitVec 2) (sa : BitVec 4) (sb : BitVec 4) (ot : BitVec 6) (t : Ty) (ta : Bool) (tb :
    Bool) (kc : BitVec 6) :
    RoundTrip.Statement (.standInstall (.vproj ac sa sb ot t ta tb kc)) := by
  refine roundTrip_of _ _ false rfl rfl fun e y => ⟨20, 0, wOp_fT .., wFn_fT _ _ _ _ _ _ _ _ _ _ _ _ _ _ _ rfl, by
    decide, by decide, ?_⟩
  simp (disch := decide) only [candidate, standOf, Stand.body, wBits_word, wBit_word, fT_sb, fT_ot, fT_t, fT_ac_sub,
    fT_sa_sub, fT_aux_sub, fT_s_bit, fT_aux_bit, cat_2_2_at_0, cat_1_1_6_6_bit_13, cat_1_1_6_6_bit_12,
    cat_1_1_6_6_at_0, ty_dec_enc, Option.bind_some, Option.map_some, ofBool_bit, BitVec.extractLsb'_eq_self]
  rfl

theorem standInstall_attn (d : Opnd) (bp : BitVec 4) (a : Opnd) (off : BitVec 23) :
    RoundTrip.Statement (.standInstall (.attn d bp a off)) := by
  refine roundTrip_of _ _ false rfl rfl fun e y => ⟨21, 0, wOp_fQ .., wFn_fQ _ _ _ _ _ _ _ _ _ _ rfl, by decide, by
    decide, ?_⟩
  simp (disch := decide) only [candidate, standOf, Stand.body, wBits_word, wBit_word, fQ_d, fQ_bp, fQ_a, fQ_imm_sub,
    fQ_imm_bit, cat_1_23_bit_23, cat_1_23_at_0, opnd_dec_enc, Option.map_some]
  rfl

theorem standInstall_omap (d : Opnd) (bp : BitVec 4) (off : BitVec 23) :
    RoundTrip.Statement (.standInstall (.omap d bp off)) := by
  refine roundTrip_of _ _ false rfl rfl fun e y => ⟨22, 5, wOp_fQ .., wFn_fQ _ _ _ _ _ _ _ _ _ _ rfl, by decide, by
    decide, ?_⟩
  simp (disch := decide) only [candidate, standOf, Stand.body, wBits_word, wBit_word, fQ_d, fQ_bp, fQ_imm_sub,
    fQ_imm_bit, cat_1_23_bit_23, cat_1_23_at_0, opnd_dec_enc, Option.map_some]
  rfl

theorem standInstall_cpy (d : Opnd) (bp : BitVec 4) (a : Opnd) (off : BitVec 23) :
    RoundTrip.Statement (.standInstall (.cpy d bp a off)) := by
  refine roundTrip_of _ _ false rfl rfl fun e y => ⟨24, 0, wOp_fQ .., wFn_fQ _ _ _ _ _ _ _ _ _ _ rfl, by decide, by
    decide, ?_⟩
  simp (disch := decide) only [candidate, standOf, Stand.body, wBits_word, wBit_word, fQ_d, fQ_bp, fQ_a, fQ_imm_sub,
    fQ_imm_bit, cat_1_23_bit_23, cat_1_23_at_0, opnd_dec_enc, Option.map_some]
  rfl

theorem standInstall_roundTrip (f : Stand) : RoundTrip.Statement (.standInstall f) := by
  cases f
  · exact standInstall_mma _ _ _ _ _ _ _ _
  · exact standInstall_tmm _ _ _ _ _ _ _
  · exact standInstall_tadd _ _ _ _ _
  · exact standInstall_tmul _ _ _ _ _
  · exact standInstall_tact _ _ _
  · exact standInstall_tactd _ _ _ _ _
  · exact standInstall_trms _ _ _ _ _
  · exact standInstall_trmsd _ _ _ _ _ _
  · exact standInstall_tsmax _ _ _ _
  · exact standInstall_tsmaxd _ _ _ _
  · exact standInstall_tscale _ _ _ _
  · exact standInstall_vproj _ _ _ _ _ _ _ _
  · exact standInstall_attn _ _ _ _
  · exact standInstall_omap _ _ _
  · exact standInstall_cpy _ _ _ _

/-! ## One lemma per instruction -/

theorem RoundTrip.nop  : RoundTrip.Statement (.nop) := by
  refine roundTrip_of _ _ false rfl rfl fun e y => ⟨0, 0, wOp_fA .., wFn_fA _ _ _ _ _ _ _ _ _ _ _ _ _ _ rfl, by decide,
    by decide, ?_⟩
  rfl

theorem RoundTrip.brk (n : BitVec 6) : RoundTrip.Statement (.brk n) := by
  refine roundTrip_of _ _ false rfl rfl fun e y => ⟨0, 1, wOp_fA .., wFn_fA _ _ _ _ _ _ _ _ _ _ _ _ _ _ rfl, by decide,
    by decide, ?_⟩
  show candSys 1 _ = _
  simp (disch := decide) only [candSys, wBits_word, fA_aux_sub, BitVec.extractLsb'_eq_self]

theorem RoundTrip.trap (n : BitVec 6) : RoundTrip.Statement (.trap n) := by
  refine roundTrip_of _ _ false rfl rfl fun e y => ⟨0, 2, wOp_fA .., wFn_fA _ _ _ _ _ _ _ _ _ _ _ _ _ _ rfl, by decide,
    by decide, ?_⟩
  show candSys 2 _ = _
  simp (disch := decide) only [candSys, wBits_word, fA_aux_sub, BitVec.extractLsb'_eq_self]

theorem RoundTrip.tfence  : RoundTrip.Statement (.tfence) := by
  refine roundTrip_of _ _ false rfl rfl fun e y => ⟨0, 3, wOp_fA .., wFn_fA _ _ _ _ _ _ _ _ _ _ _ _ _ _ rfl, by decide,
    by decide, ?_⟩
  rfl

theorem RoundTrip.sret  : RoundTrip.Statement (.sret) := by
  refine roundTrip_of _ _ false rfl rfl fun e y => ⟨0, 4, wOp_fA .., wFn_fA _ _ _ _ _ _ _ _ _ _ _ _ _ _ rfl, by decide,
    by decide, ?_⟩
  rfl

theorem RoundTrip.tlbinv (a : Opnd) (b : Opnd) (scope : BitVec 2) : RoundTrip.Statement (.tlbinv a b scope) := by
  refine roundTrip_of _ _ false rfl rfl fun e y => ⟨0, 5, wOp_fA .., wFn_fA _ _ _ _ _ _ _ _ _ _ _ _ _ _ rfl, by decide,
    by decide, ?_⟩
  show candSys 5 _ = _
  simp (disch := decide) only [candSys, wBits_word, fA_a_sub, fA_b_sub, fA_aux_sub, cat_4_2_at_0, opnd_dec_enc,
    BitVec.extractLsb'_eq_self]

theorem RoundTrip.halt  : RoundTrip.Statement (.halt) := by
  refine roundTrip_of _ _ false rfl rfl fun e y => ⟨0, 6, wOp_fA .., wFn_fA _ _ _ _ _ _ _ _ _ _ _ _ _ _ rfl, by decide,
    by decide, ?_⟩
  rfl

theorem RoundTrip.add (s : Sched) (d : Opnd) (a : Opnd) (b : Opnd) : RoundTrip.Statement (.add s d a b) := by
  refine roundTrip_of _ _ s.v rfl rfl fun e y => ⟨1, 0, wOp_fA .., wFn_fA _ _ _ _ _ _ _ _ _ _ _ _ _ _ rfl, by decide,
    by decide, ?_⟩
  show candSalu 0 _ = _
  simp (disch := decide) only [candSalu, wBits_word, wSched_fA, fA_d_sub, fA_a_sub, fA_b_sub, opnd_dec_enc,
    BitVec.extractLsb'_eq_self]

theorem RoundTrip.sub (s : Sched) (d : Opnd) (a : Opnd) (b : Opnd) : RoundTrip.Statement (.sub s d a b) := by
  refine roundTrip_of _ _ s.v rfl rfl fun e y => ⟨1, 1, wOp_fA .., wFn_fA _ _ _ _ _ _ _ _ _ _ _ _ _ _ rfl, by decide,
    by decide, ?_⟩
  show candSalu 1 _ = _
  simp (disch := decide) only [candSalu, wBits_word, wSched_fA, fA_d_sub, fA_a_sub, fA_b_sub, opnd_dec_enc,
    BitVec.extractLsb'_eq_self]

theorem RoundTrip.mul (s : Sched) (d : Opnd) (a : Opnd) (b : Opnd) : RoundTrip.Statement (.mul s d a b) := by
  refine roundTrip_of _ _ s.v rfl rfl fun e y => ⟨1, 2, wOp_fA .., wFn_fA _ _ _ _ _ _ _ _ _ _ _ _ _ _ rfl, by decide,
    by decide, ?_⟩
  show candSalu 2 _ = _
  simp (disch := decide) only [candSalu, wBits_word, wSched_fA, fA_d_sub, fA_a_sub, fA_b_sub, opnd_dec_enc,
    BitVec.extractLsb'_eq_self]

theorem RoundTrip.mulh (s : Sched) (d : Opnd) (a : Opnd) (b : Opnd) (nat : Bool) : RoundTrip.Statement (.mulh s d a b
    nat) := by
  refine roundTrip_of _ _ s.v rfl rfl fun e y => ⟨1, 3, wOp_fA .., wFn_fA _ _ _ _ _ _ _ _ _ _ _ _ _ _ rfl, by decide,
    by decide, ?_⟩
  show candSalu 3 _ = _
  simp (disch := decide) only [candSalu, wBits_word, wBit_word, wSched_fA, fA_d_sub, fA_a_sub, fA_b_sub, fA_t_bit,
    cat_3_1_bit_0, opnd_dec_enc, ofBool_bit, BitVec.extractLsb'_eq_self]

theorem RoundTrip.div (s : Sched) (d : Opnd) (a : Opnd) (b : Opnd) : RoundTrip.Statement (.div s d a b) := by
  refine roundTrip_of _ _ s.v rfl rfl fun e y => ⟨1, 4, wOp_fA .., wFn_fA _ _ _ _ _ _ _ _ _ _ _ _ _ _ rfl, by decide,
    by decide, ?_⟩
  show candSalu 4 _ = _
  simp (disch := decide) only [candSalu, wBits_word, wSched_fA, fA_d_sub, fA_a_sub, fA_b_sub, opnd_dec_enc,
    BitVec.extractLsb'_eq_self]

theorem RoundTrip.divn (s : Sched) (d : Opnd) (a : Opnd) (b : Opnd) : RoundTrip.Statement (.divn s d a b) := by
  refine roundTrip_of _ _ s.v rfl rfl fun e y => ⟨1, 5, wOp_fA .., wFn_fA _ _ _ _ _ _ _ _ _ _ _ _ _ _ rfl, by decide,
    by decide, ?_⟩
  show candSalu 5 _ = _
  simp (disch := decide) only [candSalu, wBits_word, wSched_fA, fA_d_sub, fA_a_sub, fA_b_sub, opnd_dec_enc,
    BitVec.extractLsb'_eq_self]

theorem RoundTrip.rem (s : Sched) (d : Opnd) (a : Opnd) (b : Opnd) : RoundTrip.Statement (.rem s d a b) := by
  refine roundTrip_of _ _ s.v rfl rfl fun e y => ⟨1, 6, wOp_fA .., wFn_fA _ _ _ _ _ _ _ _ _ _ _ _ _ _ rfl, by decide,
    by decide, ?_⟩
  show candSalu 6 _ = _
  simp (disch := decide) only [candSalu, wBits_word, wSched_fA, fA_d_sub, fA_a_sub, fA_b_sub, opnd_dec_enc,
    BitVec.extractLsb'_eq_self]

theorem RoundTrip.remn (s : Sched) (d : Opnd) (a : Opnd) (b : Opnd) : RoundTrip.Statement (.remn s d a b) := by
  refine roundTrip_of _ _ s.v rfl rfl fun e y => ⟨1, 7, wOp_fA .., wFn_fA _ _ _ _ _ _ _ _ _ _ _ _ _ _ rfl, by decide,
    by decide, ?_⟩
  show candSalu 7 _ = _
  simp (disch := decide) only [candSalu, wBits_word, wSched_fA, fA_d_sub, fA_a_sub, fA_b_sub, opnd_dec_enc,
    BitVec.extractLsb'_eq_self]

theorem RoundTrip.and (s : Sched) (d : Opnd) (a : Opnd) (b : Opnd) : RoundTrip.Statement (.and s d a b) := by
  refine roundTrip_of _ _ s.v rfl rfl fun e y => ⟨1, 8, wOp_fA .., wFn_fA _ _ _ _ _ _ _ _ _ _ _ _ _ _ rfl, by decide,
    by decide, ?_⟩
  show candSalu 8 _ = _
  simp (disch := decide) only [candSalu, wBits_word, wSched_fA, fA_d_sub, fA_a_sub, fA_b_sub, opnd_dec_enc,
    BitVec.extractLsb'_eq_self]

theorem RoundTrip.or (s : Sched) (d : Opnd) (a : Opnd) (b : Opnd) : RoundTrip.Statement (.or s d a b) := by
  refine roundTrip_of _ _ s.v rfl rfl fun e y => ⟨1, 9, wOp_fA .., wFn_fA _ _ _ _ _ _ _ _ _ _ _ _ _ _ rfl, by decide,
    by decide, ?_⟩
  show candSalu 9 _ = _
  simp (disch := decide) only [candSalu, wBits_word, wSched_fA, fA_d_sub, fA_a_sub, fA_b_sub, opnd_dec_enc,
    BitVec.extractLsb'_eq_self]

theorem RoundTrip.xor (s : Sched) (d : Opnd) (a : Opnd) (b : Opnd) : RoundTrip.Statement (.xor s d a b) := by
  refine roundTrip_of _ _ s.v rfl rfl fun e y => ⟨1, 10, wOp_fA .., wFn_fA _ _ _ _ _ _ _ _ _ _ _ _ _ _ rfl, by decide,
    by decide, ?_⟩
  show candSalu 10 _ = _
  simp (disch := decide) only [candSalu, wBits_word, wSched_fA, fA_d_sub, fA_a_sub, fA_b_sub, opnd_dec_enc,
    BitVec.extractLsb'_eq_self]

theorem RoundTrip.shl (s : Sched) (d : Opnd) (a : Opnd) (b : Opnd) : RoundTrip.Statement (.shl s d a b) := by
  refine roundTrip_of _ _ s.v rfl rfl fun e y => ⟨1, 11, wOp_fA .., wFn_fA _ _ _ _ _ _ _ _ _ _ _ _ _ _ rfl, by decide,
    by decide, ?_⟩
  show candSalu 11 _ = _
  simp (disch := decide) only [candSalu, wBits_word, wSched_fA, fA_d_sub, fA_a_sub, fA_b_sub, opnd_dec_enc,
    BitVec.extractLsb'_eq_self]

theorem RoundTrip.shr (s : Sched) (d : Opnd) (a : Opnd) (b : Opnd) : RoundTrip.Statement (.shr s d a b) := by
  refine roundTrip_of _ _ s.v rfl rfl fun e y => ⟨1, 12, wOp_fA .., wFn_fA _ _ _ _ _ _ _ _ _ _ _ _ _ _ rfl, by decide,
    by decide, ?_⟩
  show candSalu 12 _ = _
  simp (disch := decide) only [candSalu, wBits_word, wSched_fA, fA_d_sub, fA_a_sub, fA_b_sub, opnd_dec_enc,
    BitVec.extractLsb'_eq_self]

theorem RoundTrip.sra (s : Sched) (d : Opnd) (a : Opnd) (b : Opnd) : RoundTrip.Statement (.sra s d a b) := by
  refine roundTrip_of _ _ s.v rfl rfl fun e y => ⟨1, 13, wOp_fA .., wFn_fA _ _ _ _ _ _ _ _ _ _ _ _ _ _ rfl, by decide,
    by decide, ?_⟩
  show candSalu 13 _ = _
  simp (disch := decide) only [candSalu, wBits_word, wSched_fA, fA_d_sub, fA_a_sub, fA_b_sub, opnd_dec_enc,
    BitVec.extractLsb'_eq_self]

theorem RoundTrip.min (s : Sched) (d : Opnd) (a : Opnd) (b : Opnd) : RoundTrip.Statement (.min s d a b) := by
  refine roundTrip_of _ _ s.v rfl rfl fun e y => ⟨1, 14, wOp_fA .., wFn_fA _ _ _ _ _ _ _ _ _ _ _ _ _ _ rfl, by decide,
    by decide, ?_⟩
  show candSalu 14 _ = _
  simp (disch := decide) only [candSalu, wBits_word, wSched_fA, fA_d_sub, fA_a_sub, fA_b_sub, opnd_dec_enc,
    BitVec.extractLsb'_eq_self]

theorem RoundTrip.max (s : Sched) (d : Opnd) (a : Opnd) (b : Opnd) : RoundTrip.Statement (.max s d a b) := by
  refine roundTrip_of _ _ s.v rfl rfl fun e y => ⟨1, 15, wOp_fA .., wFn_fA _ _ _ _ _ _ _ _ _ _ _ _ _ _ rfl, by decide,
    by decide, ?_⟩
  show candSalu 15 _ = _
  simp (disch := decide) only [candSalu, wBits_word, wSched_fA, fA_d_sub, fA_a_sub, fA_b_sub, opnd_dec_enc,
    BitVec.extractLsb'_eq_self]

theorem RoundTrip.minn (s : Sched) (d : Opnd) (a : Opnd) (b : Opnd) : RoundTrip.Statement (.minn s d a b) := by
  refine roundTrip_of _ _ s.v rfl rfl fun e y => ⟨1, 16, wOp_fA .., wFn_fA _ _ _ _ _ _ _ _ _ _ _ _ _ _ rfl, by decide,
    by decide, ?_⟩
  show candSalu 16 _ = _
  simp (disch := decide) only [candSalu, wBits_word, wSched_fA, fA_d_sub, fA_a_sub, fA_b_sub, opnd_dec_enc,
    BitVec.extractLsb'_eq_self]

theorem RoundTrip.maxn (s : Sched) (d : Opnd) (a : Opnd) (b : Opnd) : RoundTrip.Statement (.maxn s d a b) := by
  refine roundTrip_of _ _ s.v rfl rfl fun e y => ⟨1, 17, wOp_fA .., wFn_fA _ _ _ _ _ _ _ _ _ _ _ _ _ _ rfl, by decide,
    by decide, ?_⟩
  show candSalu 17 _ = _
  simp (disch := decide) only [candSalu, wBits_word, wSched_fA, fA_d_sub, fA_a_sub, fA_b_sub, opnd_dec_enc,
    BitVec.extractLsb'_eq_self]

theorem RoundTrip.clz (s : Sched) (d : Opnd) (a : Opnd) : RoundTrip.Statement (.clz s d a) := by
  refine roundTrip_of _ _ s.v rfl rfl fun e y => ⟨1, 18, wOp_fA .., wFn_fA _ _ _ _ _ _ _ _ _ _ _ _ _ _ rfl, by decide,
    by decide, ?_⟩
  show candSalu 18 _ = _
  simp (disch := decide) only [candSalu, wBits_word, wSched_fA, fA_d_sub, fA_a_sub, opnd_dec_enc,
    BitVec.extractLsb'_eq_self]

theorem RoundTrip.ctz (s : Sched) (d : Opnd) (a : Opnd) : RoundTrip.Statement (.ctz s d a) := by
  refine roundTrip_of _ _ s.v rfl rfl fun e y => ⟨1, 19, wOp_fA .., wFn_fA _ _ _ _ _ _ _ _ _ _ _ _ _ _ rfl, by decide,
    by decide, ?_⟩
  show candSalu 19 _ = _
  simp (disch := decide) only [candSalu, wBits_word, wSched_fA, fA_d_sub, fA_a_sub, opnd_dec_enc,
    BitVec.extractLsb'_eq_self]

theorem RoundTrip.popc (s : Sched) (d : Opnd) (a : Opnd) : RoundTrip.Statement (.popc s d a) := by
  refine roundTrip_of _ _ s.v rfl rfl fun e y => ⟨1, 20, wOp_fA .., wFn_fA _ _ _ _ _ _ _ _ _ _ _ _ _ _ rfl, by decide,
    by decide, ?_⟩
  show candSalu 20 _ = _
  simp (disch := decide) only [candSalu, wBits_word, wSched_fA, fA_d_sub, fA_a_sub, opnd_dec_enc,
    BitVec.extractLsb'_eq_self]

theorem RoundTrip.seq (s : Sched) (d : Opnd) (a : Opnd) (b : Opnd) : RoundTrip.Statement (.seq s d a b) := by
  refine roundTrip_of _ _ s.v rfl rfl fun e y => ⟨1, 21, wOp_fA .., wFn_fA _ _ _ _ _ _ _ _ _ _ _ _ _ _ rfl, by decide,
    by decide, ?_⟩
  show candSalu 21 _ = _
  simp (disch := decide) only [candSalu, wBits_word, wSched_fA, fA_d_sub, fA_a_sub, fA_b_sub, opnd_dec_enc,
    BitVec.extractLsb'_eq_self]

theorem RoundTrip.sne (s : Sched) (d : Opnd) (a : Opnd) (b : Opnd) : RoundTrip.Statement (.sne s d a b) := by
  refine roundTrip_of _ _ s.v rfl rfl fun e y => ⟨1, 22, wOp_fA .., wFn_fA _ _ _ _ _ _ _ _ _ _ _ _ _ _ rfl, by decide,
    by decide, ?_⟩
  show candSalu 22 _ = _
  simp (disch := decide) only [candSalu, wBits_word, wSched_fA, fA_d_sub, fA_a_sub, fA_b_sub, opnd_dec_enc,
    BitVec.extractLsb'_eq_self]

theorem RoundTrip.slt (s : Sched) (d : Opnd) (a : Opnd) (b : Opnd) : RoundTrip.Statement (.slt s d a b) := by
  refine roundTrip_of _ _ s.v rfl rfl fun e y => ⟨1, 23, wOp_fA .., wFn_fA _ _ _ _ _ _ _ _ _ _ _ _ _ _ rfl, by decide,
    by decide, ?_⟩
  show candSalu 23 _ = _
  simp (disch := decide) only [candSalu, wBits_word, wSched_fA, fA_d_sub, fA_a_sub, fA_b_sub, opnd_dec_enc,
    BitVec.extractLsb'_eq_self]

theorem RoundTrip.sltn (s : Sched) (d : Opnd) (a : Opnd) (b : Opnd) : RoundTrip.Statement (.sltn s d a b) := by
  refine roundTrip_of _ _ s.v rfl rfl fun e y => ⟨1, 24, wOp_fA .., wFn_fA _ _ _ _ _ _ _ _ _ _ _ _ _ _ rfl, by decide,
    by decide, ?_⟩
  show candSalu 24 _ = _
  simp (disch := decide) only [candSalu, wBits_word, wSched_fA, fA_d_sub, fA_a_sub, fA_b_sub, opnd_dec_enc,
    BitVec.extractLsb'_eq_self]

theorem RoundTrip.sel (s : Sched) (d : Opnd) (a : Opnd) (b : Opnd) (x : Opnd) : RoundTrip.Statement (.sel s d a b x) :=
    by
  refine roundTrip_of _ _ s.v rfl rfl fun e y => ⟨1, 25, wOp_fA .., wFn_fA _ _ _ _ _ _ _ _ _ _ _ _ _ _ rfl, by decide,
    by decide, ?_⟩
  show candSalu 25 _ = _
  simp (disch := decide) only [candSalu, wBits_word, wSched_fA, fA_x, fA_d_sub, fA_a_sub, fA_b_sub, opnd_dec_enc,
    BitVec.extractLsb'_eq_self]

theorem RoundTrip.bfx (s : Sched) (d : Opnd) (a : Opnd) (b : Opnd) (sx : Bool) : RoundTrip.Statement (.bfx s d a b sx)
    := by
  refine roundTrip_of _ _ s.v rfl rfl fun e y => ⟨1, 26, wOp_fA .., wFn_fA _ _ _ _ _ _ _ _ _ _ _ _ _ _ rfl, by decide,
    by decide, ?_⟩
  show candSalu 26 _ = _
  simp (disch := decide) only [candSalu, wBits_word, wBit_word, wSched_fA, fA_d_sub, fA_a_sub, fA_b_sub, fA_aux_bit,
    cat_5_1_bit_0, opnd_dec_enc, ofBool_bit, BitVec.extractLsb'_eq_self]

theorem RoundTrip.bfi (s : Sched) (d : Opnd) (a : Opnd) (b : Opnd) (x : Opnd) : RoundTrip.Statement (.bfi s d a b x) :=
    by
  refine roundTrip_of _ _ s.v rfl rfl fun e y => ⟨1, 27, wOp_fA .., wFn_fA _ _ _ _ _ _ _ _ _ _ _ _ _ _ rfl, by decide,
    by decide, ?_⟩
  show candSalu 27 _ = _
  simp (disch := decide) only [candSalu, wBits_word, wSched_fA, fA_x, fA_d_sub, fA_a_sub, fA_b_sub, opnd_dec_enc,
    BitVec.extractLsb'_eq_self]

theorem RoundTrip.addi (s : Sched) (d : Opnd) (a : Opnd) (imm : Word) : RoundTrip.Statement (.addi s d a imm) := by
  refine roundTrip_of _ _ s.v rfl rfl fun e y => ⟨2, 0, wOp_fI .., wFn_fI _ _ _ _ _ _ _ _ _ rfl, by decide, by decide,
    ?_⟩
  show candSalui 0 _ = _
  simp (disch := decide) only [candSalui, wBits_word, wSched_fI, fI_d, fI_a, fI_imm_sub, opnd_dec_enc,
    BitVec.extractLsb'_eq_self]

theorem RoundTrip.andi (s : Sched) (d : Opnd) (a : Opnd) (imm : Word) : RoundTrip.Statement (.andi s d a imm) := by
  refine roundTrip_of _ _ s.v rfl rfl fun e y => ⟨2, 1, wOp_fI .., wFn_fI _ _ _ _ _ _ _ _ _ rfl, by decide, by decide,
    ?_⟩
  show candSalui 1 _ = _
  simp (disch := decide) only [candSalui, wBits_word, wSched_fI, fI_d, fI_a, fI_imm_sub, opnd_dec_enc,
    BitVec.extractLsb'_eq_self]

theorem RoundTrip.ori (s : Sched) (d : Opnd) (a : Opnd) (imm : Word) : RoundTrip.Statement (.ori s d a imm) := by
  refine roundTrip_of _ _ s.v rfl rfl fun e y => ⟨2, 2, wOp_fI .., wFn_fI _ _ _ _ _ _ _ _ _ rfl, by decide, by decide,
    ?_⟩
  show candSalui 2 _ = _
  simp (disch := decide) only [candSalui, wBits_word, wSched_fI, fI_d, fI_a, fI_imm_sub, opnd_dec_enc,
    BitVec.extractLsb'_eq_self]

theorem RoundTrip.xori (s : Sched) (d : Opnd) (a : Opnd) (imm : Word) : RoundTrip.Statement (.xori s d a imm) := by
  refine roundTrip_of _ _ s.v rfl rfl fun e y => ⟨2, 3, wOp_fI .., wFn_fI _ _ _ _ _ _ _ _ _ rfl, by decide, by decide,
    ?_⟩
  show candSalui 3 _ = _
  simp (disch := decide) only [candSalui, wBits_word, wSched_fI, fI_d, fI_a, fI_imm_sub, opnd_dec_enc,
    BitVec.extractLsb'_eq_self]

theorem RoundTrip.shli (s : Sched) (d : Opnd) (a : Opnd) (n : BitVec 5) : RoundTrip.Statement (.shli s d a n) := by
  refine roundTrip_of _ _ s.v rfl rfl fun e y => ⟨2, 4, wOp_fI .., wFn_fI _ _ _ _ _ _ _ _ _ rfl, by decide, by decide,
    ?_⟩
  show candSalui 4 _ = _
  simp (disch := decide) only [candSalui, wBits_word, wSched_fI, fI_d, fI_a, fI_imm_sub, cat_27_5_at_0, opnd_dec_enc]

theorem RoundTrip.shri (s : Sched) (d : Opnd) (a : Opnd) (n : BitVec 5) : RoundTrip.Statement (.shri s d a n) := by
  refine roundTrip_of _ _ s.v rfl rfl fun e y => ⟨2, 5, wOp_fI .., wFn_fI _ _ _ _ _ _ _ _ _ rfl, by decide, by decide,
    ?_⟩
  show candSalui 5 _ = _
  simp (disch := decide) only [candSalui, wBits_word, wSched_fI, fI_d, fI_a, fI_imm_sub, cat_27_5_at_0, opnd_dec_enc]

theorem RoundTrip.srai (s : Sched) (d : Opnd) (a : Opnd) (n : BitVec 5) : RoundTrip.Statement (.srai s d a n) := by
  refine roundTrip_of _ _ s.v rfl rfl fun e y => ⟨2, 6, wOp_fI .., wFn_fI _ _ _ _ _ _ _ _ _ rfl, by decide, by decide,
    ?_⟩
  show candSalui 6 _ = _
  simp (disch := decide) only [candSalui, wBits_word, wSched_fI, fI_d, fI_a, fI_imm_sub, cat_27_5_at_0, opnd_dec_enc]

theorem RoundTrip.movi (s : Sched) (d : Opnd) (imm : Word) : RoundTrip.Statement (.movi s d imm) := by
  refine roundTrip_of _ _ s.v rfl rfl fun e y => ⟨2, 7, wOp_fI .., wFn_fI _ _ _ _ _ _ _ _ _ rfl, by decide, by decide,
    ?_⟩
  show candSalui 7 _ = _
  simp (disch := decide) only [candSalui, wBits_word, wSched_fI, fI_d, fI_imm_sub, opnd_dec_enc,
    BitVec.extractLsb'_eq_self]

theorem RoundTrip.slti (s : Sched) (d : Opnd) (a : Opnd) (imm : Word) : RoundTrip.Statement (.slti s d a imm) := by
  refine roundTrip_of _ _ s.v rfl rfl fun e y => ⟨2, 8, wOp_fI .., wFn_fI _ _ _ _ _ _ _ _ _ rfl, by decide, by decide,
    ?_⟩
  show candSalui 8 _ = _
  simp (disch := decide) only [candSalui, wBits_word, wSched_fI, fI_d, fI_a, fI_imm_sub, opnd_dec_enc,
    BitVec.extractLsb'_eq_self]

theorem RoundTrip.sltni (s : Sched) (d : Opnd) (a : Opnd) (imm : Word) : RoundTrip.Statement (.sltni s d a imm) := by
  refine roundTrip_of _ _ s.v rfl rfl fun e y => ⟨2, 9, wOp_fI .., wFn_fI _ _ _ _ _ _ _ _ _ rfl, by decide, by decide,
    ?_⟩
  show candSalui 9 _ = _
  simp (disch := decide) only [candSalui, wBits_word, wSched_fI, fI_d, fI_a, fI_imm_sub, opnd_dec_enc,
    BitVec.extractLsb'_eq_self]

theorem RoundTrip.muli (s : Sched) (d : Opnd) (a : Opnd) (imm : Word) : RoundTrip.Statement (.muli s d a imm) := by
  refine roundTrip_of _ _ s.v rfl rfl fun e y => ⟨2, 10, wOp_fI .., wFn_fI _ _ _ _ _ _ _ _ _ rfl, by decide, by decide,
    ?_⟩
  show candSalui 10 _ = _
  simp (disch := decide) only [candSalui, wBits_word, wSched_fI, fI_d, fI_a, fI_imm_sub, opnd_dec_enc,
    BitVec.extractLsb'_eq_self]

theorem RoundTrip.add64 (s : Sched) (d : Opnd) (a : Opnd) (b : Opnd) : RoundTrip.Statement (.add64 s d a b) := by
  refine roundTrip_of _ _ s.v rfl rfl fun e y => ⟨3, 0, wOp_fA .., wFn_fA _ _ _ _ _ _ _ _ _ _ _ _ _ _ rfl, by decide,
    by decide, ?_⟩
  show candSpair 0 _ = _
  simp (disch := decide) only [candSpair, wBits_word, wSched_fA, fA_d_sub, fA_a_sub, fA_b_sub, opnd_dec_enc,
    BitVec.extractLsb'_eq_self]

theorem RoundTrip.sub64 (s : Sched) (d : Opnd) (a : Opnd) (b : Opnd) : RoundTrip.Statement (.sub64 s d a b) := by
  refine roundTrip_of _ _ s.v rfl rfl fun e y => ⟨3, 1, wOp_fA .., wFn_fA _ _ _ _ _ _ _ _ _ _ _ _ _ _ rfl, by decide,
    by decide, ?_⟩
  show candSpair 1 _ = _
  simp (disch := decide) only [candSpair, wBits_word, wSched_fA, fA_d_sub, fA_a_sub, fA_b_sub, opnd_dec_enc,
    BitVec.extractLsb'_eq_self]

theorem RoundTrip.mov64 (s : Sched) (d : Opnd) (a : Opnd) : RoundTrip.Statement (.mov64 s d a) := by
  refine roundTrip_of _ _ s.v rfl rfl fun e y => ⟨3, 2, wOp_fA .., wFn_fA _ _ _ _ _ _ _ _ _ _ _ _ _ _ rfl, by decide,
    by decide, ?_⟩
  show candSpair 2 _ = _
  simp (disch := decide) only [candSpair, wBits_word, wSched_fA, fA_d_sub, fA_a_sub, opnd_dec_enc,
    BitVec.extractLsb'_eq_self]

theorem RoundTrip.shl64 (s : Sched) (d : Opnd) (a : Opnd) (b : Opnd) : RoundTrip.Statement (.shl64 s d a b) := by
  refine roundTrip_of _ _ s.v rfl rfl fun e y => ⟨3, 3, wOp_fA .., wFn_fA _ _ _ _ _ _ _ _ _ _ _ _ _ _ rfl, by decide,
    by decide, ?_⟩
  show candSpair 3 _ = _
  simp (disch := decide) only [candSpair, wBits_word, wSched_fA, fA_d_sub, fA_a_sub, fA_b_sub, opnd_dec_enc,
    BitVec.extractLsb'_eq_self]

theorem RoundTrip.slt64n (s : Sched) (d : Opnd) (a : Opnd) (b : Opnd) : RoundTrip.Statement (.slt64n s d a b) := by
  refine roundTrip_of _ _ s.v rfl rfl fun e y => ⟨3, 4, wOp_fA .., wFn_fA _ _ _ _ _ _ _ _ _ _ _ _ _ _ rfl, by decide,
    by decide, ?_⟩
  show candSpair 4 _ = _
  simp (disch := decide) only [candSpair, wBits_word, wSched_fA, fA_d_sub, fA_a_sub, fA_b_sub, opnd_dec_enc,
    BitVec.extractLsb'_eq_self]

theorem RoundTrip.addi64 (s : Sched) (d : Opnd) (a : Opnd) (imm : Word) : RoundTrip.Statement (.addi64 s d a imm) := by
  refine roundTrip_of _ _ s.v rfl rfl fun e y => ⟨4, 0, wOp_fI .., wFn_fI _ _ _ _ _ _ _ _ _ rfl, by decide, by decide,
    ?_⟩
  show candSpairi 0 _ = _
  simp (disch := decide) only [candSpairi, wBits_word, wSched_fI, fI_d, fI_a, fI_imm_sub, opnd_dec_enc,
    BitVec.extractLsb'_eq_self]

theorem RoundTrip.movi64 (s : Sched) (d : Opnd) (imm : Word) : RoundTrip.Statement (.movi64 s d imm) := by
  refine roundTrip_of _ _ s.v rfl rfl fun e y => ⟨4, 1, wOp_fI .., wFn_fI _ _ _ _ _ _ _ _ _ rfl, by decide, by decide,
    ?_⟩
  show candSpairi 1 _ = _
  simp (disch := decide) only [candSpairi, wBits_word, wSched_fI, fI_d, fI_imm_sub, opnd_dec_enc,
    BitVec.extractLsb'_eq_self]

theorem RoundTrip.sethi (s : Sched) (d : Opnd) (a : Opnd) (imm : Word) : RoundTrip.Statement (.sethi s d a imm) := by
  refine roundTrip_of _ _ s.v rfl rfl fun e y => ⟨4, 2, wOp_fI .., wFn_fI _ _ _ _ _ _ _ _ _ rfl, by decide, by decide,
    ?_⟩
  show candSpairi 2 _ = _
  simp (disch := decide) only [candSpairi, wBits_word, wSched_fI, fI_d, fI_a, fI_imm_sub, opnd_dec_enc,
    BitVec.extractLsb'_eq_self]

theorem RoundTrip.br (h : BitVec 2) (disp : Word) : RoundTrip.Statement (.br h disp) := by
  refine roundTrip_of _ _ false rfl rfl fun e y => ⟨5, 0, wOp_fB .., wFn_fB _ _ _ _ _ _ _ _ _ _ rfl, by decide, by
    decide, ?_⟩
  show candBr 0 _ = _
  simp (disch := decide) only [candBr, wBits_word, fB_h, fB_disp]

theorem RoundTrip.bz (p : Opnd) (h : BitVec 2) (disp : Word) : RoundTrip.Statement (.bz p h disp) := by
  refine roundTrip_of _ _ false rfl rfl fun e y => ⟨5, 1, wOp_fB .., wFn_fB _ _ _ _ _ _ _ _ _ _ rfl, by decide, by
    decide, ?_⟩
  show candBr 1 _ = _
  simp (disch := decide) only [candBr, wBits_word, fB_p, fB_h, fB_disp, opnd_dec_enc]

theorem RoundTrip.bnz (p : Opnd) (h : BitVec 2) (disp : Word) : RoundTrip.Statement (.bnz p h disp) := by
  refine roundTrip_of _ _ false rfl rfl fun e y => ⟨5, 2, wOp_fB .., wFn_fB _ _ _ _ _ _ _ _ _ _ rfl, by decide, by
    decide, ?_⟩
  show candBr 2 _ = _
  simp (disch := decide) only [candBr, wBits_word, fB_p, fB_h, fB_disp, opnd_dec_enc]

theorem RoundTrip.call (s : Sched) (p : Opnd) (h : BitVec 2) (disp : Word) : RoundTrip.Statement (.call s p h disp) :=
    by
  refine roundTrip_of _ _ s.v rfl rfl fun e y => ⟨5, 3, wOp_fB .., wFn_fB _ _ _ _ _ _ _ _ _ _ rfl, by decide, by
    decide, ?_⟩
  show candBr 3 _ = _
  simp (disch := decide) only [candBr, wBits_word, wSched_fB, fB_p, fB_h, fB_disp, opnd_dec_enc]

theorem RoundTrip.ret (p : Opnd) (h : BitVec 2) : RoundTrip.Statement (.ret p h) := by
  refine roundTrip_of _ _ false rfl rfl fun e y => ⟨5, 4, wOp_fB .., wFn_fB _ _ _ _ _ _ _ _ _ _ rfl, by decide, by
    decide, ?_⟩
  show candBr 4 _ = _
  simp (disch := decide) only [candBr, wBits_word, fB_p, fB_h, opnd_dec_enc]

theorem RoundTrip.jmp (p : Opnd) (h : BitVec 2) (disp : Word) : RoundTrip.Statement (.jmp p h disp) := by
  refine roundTrip_of _ _ false rfl rfl fun e y => ⟨5, 5, wOp_fB .., wFn_fB _ _ _ _ _ _ _ _ _ _ rfl, by decide, by
    decide, ?_⟩
  show candBr 5 _ = _
  simp (disch := decide) only [candBr, wBits_word, fB_p, fB_h, fB_disp, opnd_dec_enc]

theorem RoundTrip.brq (h : BitVec 2) (disp : Word) : RoundTrip.Statement (.brq h disp) := by
  refine roundTrip_of _ _ false rfl rfl fun e y => ⟨5, 6, wOp_fB .., wFn_fB _ _ _ _ _ _ _ _ _ _ rfl, by decide, by
    decide, ?_⟩
  show candBr 6 _ = _
  simp (disch := decide) only [candBr, wBits_word, fB_h, fB_disp]

theorem RoundTrip.loop (p : Opnd) (lv : Option (BitVec 4)) (h : BitVec 2) (disp : Word) : RoundTrip.Statement (.loop p
    lv h disp) := by
  refine roundTrip_of _ _ false rfl rfl fun e y => ⟨6, 0, wOp_fB .., wFn_fB _ _ _ _ _ _ _ _ _ _ rfl, by decide, by
    decide, ?_⟩
  show candLoop 0 _ = _
  simp (disch := decide) only [candLoop, wBits_word, fB_p, fB_h, fB_disp, fB_aux_sub, cat_1_5_at_0, opnd_dec_enc,
    lv_dec_enc]

theorem RoundTrip.lbrk (p : Opnd) (h : BitVec 2) (disp : Word) : RoundTrip.Statement (.lbrk p h disp) := by
  refine roundTrip_of _ _ false rfl rfl fun e y => ⟨6, 1, wOp_fB .., wFn_fB _ _ _ _ _ _ _ _ _ _ rfl, by decide, by
    decide, ?_⟩
  show candLoop 1 _ = _
  simp (disch := decide) only [candLoop, wBits_word, fB_p, fB_h, fB_disp, opnd_dec_enc]

theorem RoundTrip.ldrain (h : BitVec 2) (disp : Word) : RoundTrip.Statement (.ldrain h disp) := by
  refine roundTrip_of _ _ false rfl rfl fun e y => ⟨6, 2, wOp_fB .., wFn_fB _ _ _ _ _ _ _ _ _ _ rfl, by decide, by
    decide, ?_⟩
  show candLoop 2 _ = _
  simp (disch := decide) only [candLoop, wBits_word, fB_h, fB_disp]

theorem RoundTrip.lidx (s : Sched) (p : Opnd) (lv : BitVec 4) (h : BitVec 2) : RoundTrip.Statement (.lidx s p lv h) :=
    by
  refine roundTrip_of _ _ s.v rfl rfl fun e y => ⟨6, 3, wOp_fB .., wFn_fB _ _ _ _ _ _ _ _ _ _ rfl, by decide, by
    decide, ?_⟩
  show candLoop 3 _ = _
  simp (disch := decide) only [candLoop, wBits_word, wSched_fB, fB_p, fB_h, fB_aux_sub, cat_2_4_at_0, opnd_dec_enc]

theorem RoundTrip.ld (s : Sched) (d : Opnd) (bp : BitVec 4) (sz : Size) (sc : Scope) (acq : Bool) (off : BitVec 24) :
    RoundTrip.Statement (.ld s d bp sz sc acq off) := by
  refine roundTrip_of _ _ s.v rfl rfl fun e y => ⟨7, 0, wOp_fM .., wFn_fM _ _ _ _ _ _ _ _ _ _ _ _ _ rfl, by decide, by
    decide, ?_⟩
  show candMem 0 _ = _
  simp (disch := decide) only [candMem, wBits_word, wBit_word, wSched_fM, fM_d, fM_bp, fM_sz, fM_sc, fM_off_sub,
    fM_ord_bit, cat_1_1_bit_0, opnd_dec_enc, scope_dec_enc, size_dec_enc, Option.bind_some, ofBool_bit,
    BitVec.extractLsb'_eq_self]

theorem RoundTrip.st (d : Opnd) (bp : BitVec 4) (sz : Size) (sc : Scope) (rel : Bool) (off : BitVec 24) :
    RoundTrip.Statement (.st d bp sz sc rel off) := by
  refine roundTrip_of _ _ false rfl rfl fun e y => ⟨7, 1, wOp_fM .., wFn_fM _ _ _ _ _ _ _ _ _ _ _ _ _ rfl, by decide,
    by decide, ?_⟩
  show candMem 1 _ = _
  simp (disch := decide) only [candMem, wBits_word, wBit_word, fM_d, fM_bp, fM_sz, fM_sc, fM_off_sub, fM_ord_bit,
    cat_1_1_bit_1, opnd_dec_enc, scope_dec_enc, size_dec_enc, Option.bind_some, ofBool_bit, BitVec.extractLsb'_eq_self]

theorem RoundTrip.pref (bp : BitVec 4) (off : BitVec 24) : RoundTrip.Statement (.pref bp off) := by
  refine roundTrip_of _ _ false rfl rfl fun e y => ⟨7, 2, wOp_fM .., wFn_fM _ _ _ _ _ _ _ _ _ _ _ _ _ rfl, by decide,
    by decide, ?_⟩
  show candMem 2 _ = _
  simp (disch := decide) only [candMem, wBits_word, fM_bp, fM_off_sub, BitVec.extractLsb'_eq_self]

theorem RoundTrip.amoadd (s : Sched) (d : Opnd) (a : Opnd) (b : Opnd) (sc : Scope) (o : MOrd) (wide : Bool) :
    RoundTrip.Statement (.amoadd s d a b sc o wide) := by
  refine roundTrip_of _ _ s.v rfl rfl fun e y => ⟨8, 0, wOp_fA .., wFn_fA _ _ _ _ _ _ _ _ _ _ _ _ _ _ rfl, by decide,
    by decide, ?_⟩
  show candAmo 0 _ = _
  simp (disch := decide) only [candAmo, wBits_word, wBit_word, wSched_fA, fA_d_sub, fA_a_sub, fA_b_sub, fA_aux_sub,
    fA_aux_bit, cat_3_2_1_at_3, cat_3_2_1_at_1, cat_3_2_1_bit_0, opnd_dec_enc, scope_dec_enc, mord_dec_enc,
    Option.bind_some, ofBool_bit, BitVec.extractLsb'_eq_self]

theorem RoundTrip.amoswp (s : Sched) (d : Opnd) (a : Opnd) (b : Opnd) (sc : Scope) (o : MOrd) (wide : Bool) :
    RoundTrip.Statement (.amoswp s d a b sc o wide) := by
  refine roundTrip_of _ _ s.v rfl rfl fun e y => ⟨8, 1, wOp_fA .., wFn_fA _ _ _ _ _ _ _ _ _ _ _ _ _ _ rfl, by decide,
    by decide, ?_⟩
  show candAmo 1 _ = _
  simp (disch := decide) only [candAmo, wBits_word, wBit_word, wSched_fA, fA_d_sub, fA_a_sub, fA_b_sub, fA_aux_sub,
    fA_aux_bit, cat_3_2_1_at_3, cat_3_2_1_at_1, cat_3_2_1_bit_0, opnd_dec_enc, scope_dec_enc, mord_dec_enc,
    Option.bind_some, ofBool_bit, BitVec.extractLsb'_eq_self]

theorem RoundTrip.amocas (s : Sched) (d : Opnd) (a : Opnd) (b : Opnd) (x : Opnd) (sc : Scope) (o : MOrd) (wide : Bool)
    : RoundTrip.Statement (.amocas s d a b x sc o wide) := by
  refine roundTrip_of _ _ s.v rfl rfl fun e y => ⟨8, 2, wOp_fA .., wFn_fA _ _ _ _ _ _ _ _ _ _ _ _ _ _ rfl, by decide,
    by decide, ?_⟩
  show candAmo 2 _ = _
  simp (disch := decide) only [candAmo, wBits_word, wBit_word, wSched_fA, fA_x, fA_d_sub, fA_a_sub, fA_b_sub,
    fA_aux_sub, fA_aux_bit, cat_3_2_1_at_3, cat_3_2_1_at_1, cat_3_2_1_bit_0, opnd_dec_enc, scope_dec_enc, mord_dec_enc,
    Option.bind_some, ofBool_bit, BitVec.extractLsb'_eq_self]

theorem RoundTrip.amomin (s : Sched) (d : Opnd) (a : Opnd) (b : Opnd) (sc : Scope) (o : MOrd) (wide : Bool) :
    RoundTrip.Statement (.amomin s d a b sc o wide) := by
  refine roundTrip_of _ _ s.v rfl rfl fun e y => ⟨8, 3, wOp_fA .., wFn_fA _ _ _ _ _ _ _ _ _ _ _ _ _ _ rfl, by decide,
    by decide, ?_⟩
  show candAmo 3 _ = _
  simp (disch := decide) only [candAmo, wBits_word, wBit_word, wSched_fA, fA_d_sub, fA_a_sub, fA_b_sub, fA_aux_sub,
    fA_aux_bit, cat_3_2_1_at_3, cat_3_2_1_at_1, cat_3_2_1_bit_0, opnd_dec_enc, scope_dec_enc, mord_dec_enc,
    Option.bind_some, ofBool_bit, BitVec.extractLsb'_eq_self]

theorem RoundTrip.amomax (s : Sched) (d : Opnd) (a : Opnd) (b : Opnd) (sc : Scope) (o : MOrd) (wide : Bool) :
    RoundTrip.Statement (.amomax s d a b sc o wide) := by
  refine roundTrip_of _ _ s.v rfl rfl fun e y => ⟨8, 4, wOp_fA .., wFn_fA _ _ _ _ _ _ _ _ _ _ _ _ _ _ rfl, by decide,
    by decide, ?_⟩
  show candAmo 4 _ = _
  simp (disch := decide) only [candAmo, wBits_word, wBit_word, wSched_fA, fA_d_sub, fA_a_sub, fA_b_sub, fA_aux_sub,
    fA_aux_bit, cat_3_2_1_at_3, cat_3_2_1_at_1, cat_3_2_1_bit_0, opnd_dec_enc, scope_dec_enc, mord_dec_enc,
    Option.bind_some, ofBool_bit, BitVec.extractLsb'_eq_self]

theorem RoundTrip.amominn (s : Sched) (d : Opnd) (a : Opnd) (b : Opnd) (sc : Scope) (o : MOrd) (wide : Bool) :
    RoundTrip.Statement (.amominn s d a b sc o wide) := by
  refine roundTrip_of _ _ s.v rfl rfl fun e y => ⟨8, 5, wOp_fA .., wFn_fA _ _ _ _ _ _ _ _ _ _ _ _ _ _ rfl, by decide,
    by decide, ?_⟩
  show candAmo 5 _ = _
  simp (disch := decide) only [candAmo, wBits_word, wBit_word, wSched_fA, fA_d_sub, fA_a_sub, fA_b_sub, fA_aux_sub,
    fA_aux_bit, cat_3_2_1_at_3, cat_3_2_1_at_1, cat_3_2_1_bit_0, opnd_dec_enc, scope_dec_enc, mord_dec_enc,
    Option.bind_some, ofBool_bit, BitVec.extractLsb'_eq_self]

theorem RoundTrip.amomaxn (s : Sched) (d : Opnd) (a : Opnd) (b : Opnd) (sc : Scope) (o : MOrd) (wide : Bool) :
    RoundTrip.Statement (.amomaxn s d a b sc o wide) := by
  refine roundTrip_of _ _ s.v rfl rfl fun e y => ⟨8, 6, wOp_fA .., wFn_fA _ _ _ _ _ _ _ _ _ _ _ _ _ _ rfl, by decide,
    by decide, ?_⟩
  show candAmo 6 _ = _
  simp (disch := decide) only [candAmo, wBits_word, wBit_word, wSched_fA, fA_d_sub, fA_a_sub, fA_b_sub, fA_aux_sub,
    fA_aux_bit, cat_3_2_1_at_3, cat_3_2_1_at_1, cat_3_2_1_bit_0, opnd_dec_enc, scope_dec_enc, mord_dec_enc,
    Option.bind_some, ofBool_bit, BitVec.extractLsb'_eq_self]

theorem RoundTrip.amoand (s : Sched) (d : Opnd) (a : Opnd) (b : Opnd) (sc : Scope) (o : MOrd) (wide : Bool) :
    RoundTrip.Statement (.amoand s d a b sc o wide) := by
  refine roundTrip_of _ _ s.v rfl rfl fun e y => ⟨8, 7, wOp_fA .., wFn_fA _ _ _ _ _ _ _ _ _ _ _ _ _ _ rfl, by decide,
    by decide, ?_⟩
  show candAmo 7 _ = _
  simp (disch := decide) only [candAmo, wBits_word, wBit_word, wSched_fA, fA_d_sub, fA_a_sub, fA_b_sub, fA_aux_sub,
    fA_aux_bit, cat_3_2_1_at_3, cat_3_2_1_at_1, cat_3_2_1_bit_0, opnd_dec_enc, scope_dec_enc, mord_dec_enc,
    Option.bind_some, ofBool_bit, BitVec.extractLsb'_eq_self]

theorem RoundTrip.amoor (s : Sched) (d : Opnd) (a : Opnd) (b : Opnd) (sc : Scope) (o : MOrd) (wide : Bool) :
    RoundTrip.Statement (.amoor s d a b sc o wide) := by
  refine roundTrip_of _ _ s.v rfl rfl fun e y => ⟨8, 8, wOp_fA .., wFn_fA _ _ _ _ _ _ _ _ _ _ _ _ _ _ rfl, by decide,
    by decide, ?_⟩
  show candAmo 8 _ = _
  simp (disch := decide) only [candAmo, wBits_word, wBit_word, wSched_fA, fA_d_sub, fA_a_sub, fA_b_sub, fA_aux_sub,
    fA_aux_bit, cat_3_2_1_at_3, cat_3_2_1_at_1, cat_3_2_1_bit_0, opnd_dec_enc, scope_dec_enc, mord_dec_enc,
    Option.bind_some, ofBool_bit, BitVec.extractLsb'_eq_self]

theorem RoundTrip.amoxor (s : Sched) (d : Opnd) (a : Opnd) (b : Opnd) (sc : Scope) (o : MOrd) (wide : Bool) :
    RoundTrip.Statement (.amoxor s d a b sc o wide) := by
  refine roundTrip_of _ _ s.v rfl rfl fun e y => ⟨8, 9, wOp_fA .., wFn_fA _ _ _ _ _ _ _ _ _ _ _ _ _ _ rfl, by decide,
    by decide, ?_⟩
  show candAmo 9 _ = _
  simp (disch := decide) only [candAmo, wBits_word, wBit_word, wSched_fA, fA_d_sub, fA_a_sub, fA_b_sub, fA_aux_sub,
    fA_aux_bit, cat_3_2_1_at_3, cat_3_2_1_at_1, cat_3_2_1_bit_0, opnd_dec_enc, scope_dec_enc, mord_dec_enc,
    Option.bind_some, ofBool_bit, BitVec.extractLsb'_eq_self]

theorem RoundTrip.fenceM (p : BitVec 4) : RoundTrip.Statement (.fenceM p) := by
  refine roundTrip_of _ _ false rfl rfl fun e y => ⟨9, 0, wOp_fA .., wFn_fA _ _ _ _ _ _ _ _ _ _ _ _ _ _ rfl, by decide,
    by decide, ?_⟩
  show candOrdr 0 _ = _
  simp (disch := decide) only [candOrdr, wBits_word, fA_aux_sub, cat_2_4_at_0]

theorem RoundTrip.fenceX (sc : Scope) (a : BitVec 7) (b : BitVec 7) : RoundTrip.Statement (.fenceX sc a b) := by
  refine roundTrip_of _ _ false rfl rfl fun e y => ⟨9, 1, wOp_fA .., wFn_fA _ _ _ _ _ _ _ _ _ _ _ _ _ _ rfl, by decide,
    by decide, ?_⟩
  show candOrdr 1 _ = _
  simp (disch := decide) only [candOrdr, wBits_word, fA_a_sub, fA_b_sub, fA_aux_sub, cat_3_3_at_3, scope_dec_enc,
    Option.bind_some, BitVec.extractLsb'_eq_self]

theorem RoundTrip.bind (s : Sched) (d : Opnd) (a : Opnd) (b : Opnd) (x : Opnd) : RoundTrip.Statement (.bind s d a b x)
    := by
  refine roundTrip_of _ _ s.v rfl rfl fun e y => ⟨9, 2, wOp_fA .., wFn_fA _ _ _ _ _ _ _ _ _ _ _ _ _ _ rfl, by decide,
    by decide, ?_⟩
  show candOrdr 2 _ = _
  simp (disch := decide) only [candOrdr, wBits_word, wSched_fA, fA_x, fA_d_sub, fA_a_sub, fA_b_sub, opnd_dec_enc,
    BitVec.extractLsb'_eq_self]

theorem RoundTrip.unbind (s : Sched) (d : Opnd) (a : Opnd) (b : Opnd) : RoundTrip.Statement (.unbind s d a b) := by
  refine roundTrip_of _ _ s.v rfl rfl fun e y => ⟨9, 3, wOp_fA .., wFn_fA _ _ _ _ _ _ _ _ _ _ _ _ _ _ rfl, by decide,
    by decide, ?_⟩
  show candOrdr 3 _ = _
  simp (disch := decide) only [candOrdr, wBits_word, wSched_fA, fA_d_sub, fA_a_sub, fA_b_sub, opnd_dec_enc,
    BitVec.extractLsb'_eq_self]

theorem RoundTrip.acqAll (sc : Scope) : RoundTrip.Statement (.acqAll sc) := by
  refine roundTrip_of _ _ false rfl rfl fun e y => ⟨9, 4, wOp_fA .., wFn_fA _ _ _ _ _ _ _ _ _ _ _ _ _ _ rfl, by decide,
    by decide, ?_⟩
  show candOrdr 4 _ = _
  simp (disch := decide) only [candOrdr, wBits_word, fA_aux_sub, cat_3_3_at_3, scope_dec_enc, Option.bind_some]

theorem RoundTrip.relAll (sc : Scope) : RoundTrip.Statement (.relAll sc) := by
  refine roundTrip_of _ _ false rfl rfl fun e y => ⟨9, 5, wOp_fA .., wFn_fA _ _ _ _ _ _ _ _ _ _ _ _ _ _ rfl, by decide,
    by decide, ?_⟩
  show candOrdr 5 _ = _
  simp (disch := decide) only [candOrdr, wBits_word, fA_aux_sub, cat_3_3_at_3, scope_dec_enc, Option.bind_some]

theorem RoundTrip.vadd (s : Sched) (d : Opnd) (a : Opnd) (b : Opnd) (t : Ty) (m : Gov) : RoundTrip.Statement (.vadd s d
    a b t m) := by
  refine roundTrip_of _ _ s.v rfl rfl fun e y => ⟨10, 0, wOp_fA .., wFn_fA _ _ _ _ _ _ _ _ _ _ _ _ _ _ rfl, by decide,
    by decide, ?_⟩
  show candVint 0 _ = _
  simp (disch := decide) only [candVint, wBits_word, wBit_word, wSched_fA, fA_m, fA_d_sub, fA_a_sub, fA_b_sub,
    fA_t_sub, fA_mi_bit, opnd_dec_enc, ty_dec_enc, Option.bind_some, ofBool_bit, BitVec.extractLsb'_eq_self]

theorem RoundTrip.vsub (s : Sched) (d : Opnd) (a : Opnd) (b : Opnd) (t : Ty) (m : Gov) : RoundTrip.Statement (.vsub s d
    a b t m) := by
  refine roundTrip_of _ _ s.v rfl rfl fun e y => ⟨10, 1, wOp_fA .., wFn_fA _ _ _ _ _ _ _ _ _ _ _ _ _ _ rfl, by decide,
    by decide, ?_⟩
  show candVint 1 _ = _
  simp (disch := decide) only [candVint, wBits_word, wBit_word, wSched_fA, fA_m, fA_d_sub, fA_a_sub, fA_b_sub,
    fA_t_sub, fA_mi_bit, opnd_dec_enc, ty_dec_enc, Option.bind_some, ofBool_bit, BitVec.extractLsb'_eq_self]

theorem RoundTrip.vmul (s : Sched) (d : Opnd) (a : Opnd) (b : Opnd) (t : Ty) (m : Gov) : RoundTrip.Statement (.vmul s d
    a b t m) := by
  refine roundTrip_of _ _ s.v rfl rfl fun e y => ⟨10, 2, wOp_fA .., wFn_fA _ _ _ _ _ _ _ _ _ _ _ _ _ _ rfl, by decide,
    by decide, ?_⟩
  show candVint 2 _ = _
  simp (disch := decide) only [candVint, wBits_word, wBit_word, wSched_fA, fA_m, fA_d_sub, fA_a_sub, fA_b_sub,
    fA_t_sub, fA_mi_bit, opnd_dec_enc, ty_dec_enc, Option.bind_some, ofBool_bit, BitVec.extractLsb'_eq_self]

theorem RoundTrip.vmin (s : Sched) (d : Opnd) (a : Opnd) (b : Opnd) (t : Ty) (m : Gov) : RoundTrip.Statement (.vmin s d
    a b t m) := by
  refine roundTrip_of _ _ s.v rfl rfl fun e y => ⟨10, 3, wOp_fA .., wFn_fA _ _ _ _ _ _ _ _ _ _ _ _ _ _ rfl, by decide,
    by decide, ?_⟩
  show candVint 3 _ = _
  simp (disch := decide) only [candVint, wBits_word, wBit_word, wSched_fA, fA_m, fA_d_sub, fA_a_sub, fA_b_sub,
    fA_t_sub, fA_mi_bit, opnd_dec_enc, ty_dec_enc, Option.bind_some, ofBool_bit, BitVec.extractLsb'_eq_self]

theorem RoundTrip.vmax (s : Sched) (d : Opnd) (a : Opnd) (b : Opnd) (t : Ty) (m : Gov) : RoundTrip.Statement (.vmax s d
    a b t m) := by
  refine roundTrip_of _ _ s.v rfl rfl fun e y => ⟨10, 4, wOp_fA .., wFn_fA _ _ _ _ _ _ _ _ _ _ _ _ _ _ rfl, by decide,
    by decide, ?_⟩
  show candVint 4 _ = _
  simp (disch := decide) only [candVint, wBits_word, wBit_word, wSched_fA, fA_m, fA_d_sub, fA_a_sub, fA_b_sub,
    fA_t_sub, fA_mi_bit, opnd_dec_enc, ty_dec_enc, Option.bind_some, ofBool_bit, BitVec.extractLsb'_eq_self]

theorem RoundTrip.vabs (s : Sched) (d : Opnd) (a : Opnd) (t : Ty) (m : Gov) : RoundTrip.Statement (.vabs s d a t m) :=
    by
  refine roundTrip_of _ _ s.v rfl rfl fun e y => ⟨10, 5, wOp_fA .., wFn_fA _ _ _ _ _ _ _ _ _ _ _ _ _ _ rfl, by decide,
    by decide, ?_⟩
  show candVint 5 _ = _
  simp (disch := decide) only [candVint, wBits_word, wBit_word, wSched_fA, fA_m, fA_d_sub, fA_a_sub, fA_t_sub,
    fA_mi_bit, opnd_dec_enc, ty_dec_enc, Option.bind_some, ofBool_bit, BitVec.extractLsb'_eq_self]

theorem RoundTrip.vand (s : Sched) (d : Opnd) (a : Opnd) (b : Opnd) (t : Ty) (m : Gov) : RoundTrip.Statement (.vand s d
    a b t m) := by
  refine roundTrip_of _ _ s.v rfl rfl fun e y => ⟨10, 6, wOp_fA .., wFn_fA _ _ _ _ _ _ _ _ _ _ _ _ _ _ rfl, by decide,
    by decide, ?_⟩
  show candVint 6 _ = _
  simp (disch := decide) only [candVint, wBits_word, wBit_word, wSched_fA, fA_m, fA_d_sub, fA_a_sub, fA_b_sub,
    fA_t_sub, fA_mi_bit, opnd_dec_enc, ty_dec_enc, Option.bind_some, ofBool_bit, BitVec.extractLsb'_eq_self]

theorem RoundTrip.vor (s : Sched) (d : Opnd) (a : Opnd) (b : Opnd) (t : Ty) (m : Gov) : RoundTrip.Statement (.vor s d a
    b t m) := by
  refine roundTrip_of _ _ s.v rfl rfl fun e y => ⟨10, 7, wOp_fA .., wFn_fA _ _ _ _ _ _ _ _ _ _ _ _ _ _ rfl, by decide,
    by decide, ?_⟩
  show candVint 7 _ = _
  simp (disch := decide) only [candVint, wBits_word, wBit_word, wSched_fA, fA_m, fA_d_sub, fA_a_sub, fA_b_sub,
    fA_t_sub, fA_mi_bit, opnd_dec_enc, ty_dec_enc, Option.bind_some, ofBool_bit, BitVec.extractLsb'_eq_self]

theorem RoundTrip.vxor (s : Sched) (d : Opnd) (a : Opnd) (b : Opnd) (t : Ty) (m : Gov) : RoundTrip.Statement (.vxor s d
    a b t m) := by
  refine roundTrip_of _ _ s.v rfl rfl fun e y => ⟨10, 8, wOp_fA .., wFn_fA _ _ _ _ _ _ _ _ _ _ _ _ _ _ rfl, by decide,
    by decide, ?_⟩
  show candVint 8 _ = _
  simp (disch := decide) only [candVint, wBits_word, wBit_word, wSched_fA, fA_m, fA_d_sub, fA_a_sub, fA_b_sub,
    fA_t_sub, fA_mi_bit, opnd_dec_enc, ty_dec_enc, Option.bind_some, ofBool_bit, BitVec.extractLsb'_eq_self]

theorem RoundTrip.vshl (s : Sched) (d : Opnd) (a : Opnd) (b : Opnd) (t : Ty) (m : Gov) : RoundTrip.Statement (.vshl s d
    a b t m) := by
  refine roundTrip_of _ _ s.v rfl rfl fun e y => ⟨10, 9, wOp_fA .., wFn_fA _ _ _ _ _ _ _ _ _ _ _ _ _ _ rfl, by decide,
    by decide, ?_⟩
  show candVint 9 _ = _
  simp (disch := decide) only [candVint, wBits_word, wBit_word, wSched_fA, fA_m, fA_d_sub, fA_a_sub, fA_b_sub,
    fA_t_sub, fA_mi_bit, opnd_dec_enc, ty_dec_enc, Option.bind_some, ofBool_bit, BitVec.extractLsb'_eq_self]

theorem RoundTrip.vshr (s : Sched) (d : Opnd) (a : Opnd) (b : Opnd) (t : Ty) (m : Gov) : RoundTrip.Statement (.vshr s d
    a b t m) := by
  refine roundTrip_of _ _ s.v rfl rfl fun e y => ⟨10, 10, wOp_fA .., wFn_fA _ _ _ _ _ _ _ _ _ _ _ _ _ _ rfl, by decide,
    by decide, ?_⟩
  show candVint 10 _ = _
  simp (disch := decide) only [candVint, wBits_word, wBit_word, wSched_fA, fA_m, fA_d_sub, fA_a_sub, fA_b_sub,
    fA_t_sub, fA_mi_bit, opnd_dec_enc, ty_dec_enc, Option.bind_some, ofBool_bit, BitVec.extractLsb'_eq_self]

theorem RoundTrip.vsra (s : Sched) (d : Opnd) (a : Opnd) (b : Opnd) (t : Ty) (m : Gov) : RoundTrip.Statement (.vsra s d
    a b t m) := by
  refine roundTrip_of _ _ s.v rfl rfl fun e y => ⟨10, 11, wOp_fA .., wFn_fA _ _ _ _ _ _ _ _ _ _ _ _ _ _ rfl, by decide,
    by decide, ?_⟩
  show candVint 11 _ = _
  simp (disch := decide) only [candVint, wBits_word, wBit_word, wSched_fA, fA_m, fA_d_sub, fA_a_sub, fA_b_sub,
    fA_t_sub, fA_mi_bit, opnd_dec_enc, ty_dec_enc, Option.bind_some, ofBool_bit, BitVec.extractLsb'_eq_self]

theorem RoundTrip.vadds (s : Sched) (d : Opnd) (a : Opnd) (b : Opnd) (t : Ty) (m : Gov) : RoundTrip.Statement (.vadds s
    d a b t m) := by
  refine roundTrip_of _ _ s.v rfl rfl fun e y => ⟨10, 12, wOp_fA .., wFn_fA _ _ _ _ _ _ _ _ _ _ _ _ _ _ rfl, by decide,
    by decide, ?_⟩
  show candVint 12 _ = _
  simp (disch := decide) only [candVint, wBits_word, wBit_word, wSched_fA, fA_m, fA_d_sub, fA_a_sub, fA_b_sub,
    fA_t_sub, fA_mi_bit, opnd_dec_enc, ty_dec_enc, Option.bind_some, ofBool_bit, BitVec.extractLsb'_eq_self]

theorem RoundTrip.vsubs (s : Sched) (d : Opnd) (a : Opnd) (b : Opnd) (t : Ty) (m : Gov) : RoundTrip.Statement (.vsubs s
    d a b t m) := by
  refine roundTrip_of _ _ s.v rfl rfl fun e y => ⟨10, 13, wOp_fA .., wFn_fA _ _ _ _ _ _ _ _ _ _ _ _ _ _ rfl, by decide,
    by decide, ?_⟩
  show candVint 13 _ = _
  simp (disch := decide) only [candVint, wBits_word, wBit_word, wSched_fA, fA_m, fA_d_sub, fA_a_sub, fA_b_sub,
    fA_t_sub, fA_mi_bit, opnd_dec_enc, ty_dec_enc, Option.bind_some, ofBool_bit, BitVec.extractLsb'_eq_self]

theorem RoundTrip.vcmpeq (s : Sched) (d : Opnd) (a : Opnd) (b : Opnd) (t : Ty) (m : Gov) : RoundTrip.Statement (.vcmpeq
    s d a b t m) := by
  refine roundTrip_of _ _ s.v rfl rfl fun e y => ⟨10, 14, wOp_fA .., wFn_fA _ _ _ _ _ _ _ _ _ _ _ _ _ _ rfl, by decide,
    by decide, ?_⟩
  show candVint 14 _ = _
  simp (disch := decide) only [candVint, wBits_word, wBit_word, wSched_fA, fA_m, fA_d_sub, fA_a_sub, fA_b_sub,
    fA_t_sub, fA_mi_bit, opnd_dec_enc, ty_dec_enc, Option.bind_some, ofBool_bit, BitVec.extractLsb'_eq_self]

theorem RoundTrip.vcmplt (s : Sched) (d : Opnd) (a : Opnd) (b : Opnd) (t : Ty) (m : Gov) : RoundTrip.Statement (.vcmplt
    s d a b t m) := by
  refine roundTrip_of _ _ s.v rfl rfl fun e y => ⟨10, 15, wOp_fA .., wFn_fA _ _ _ _ _ _ _ _ _ _ _ _ _ _ rfl, by decide,
    by decide, ?_⟩
  show candVint 15 _ = _
  simp (disch := decide) only [candVint, wBits_word, wBit_word, wSched_fA, fA_m, fA_d_sub, fA_a_sub, fA_b_sub,
    fA_t_sub, fA_mi_bit, opnd_dec_enc, ty_dec_enc, Option.bind_some, ofBool_bit, BitVec.extractLsb'_eq_self]

theorem RoundTrip.vcmple (s : Sched) (d : Opnd) (a : Opnd) (b : Opnd) (t : Ty) (m : Gov) : RoundTrip.Statement (.vcmple
    s d a b t m) := by
  refine roundTrip_of _ _ s.v rfl rfl fun e y => ⟨10, 16, wOp_fA .., wFn_fA _ _ _ _ _ _ _ _ _ _ _ _ _ _ rfl, by decide,
    by decide, ?_⟩
  show candVint 16 _ = _
  simp (disch := decide) only [candVint, wBits_word, wBit_word, wSched_fA, fA_m, fA_d_sub, fA_a_sub, fA_b_sub,
    fA_t_sub, fA_mi_bit, opnd_dec_enc, ty_dec_enc, Option.bind_some, ofBool_bit, BitVec.extractLsb'_eq_self]

theorem RoundTrip.vfadd (s : Sched) (d : Opnd) (a : Opnd) (b : Opnd) (t : Ty) (m : Gov) (r : Rnd) : RoundTrip.Statement
    (.vfadd s d a b t m r) := by
  refine roundTrip_of _ _ s.v rfl rfl fun e y => ⟨11, 0, wOp_fA .., wFn_fA _ _ _ _ _ _ _ _ _ _ _ _ _ _ rfl, by decide,
    by decide, ?_⟩
  show candVfp 0 _ = _
  simp (disch := decide) only [candVfp, wBits_word, wBit_word, wSched_fA, fA_m, fA_d_sub, fA_a_sub, fA_b_sub, fA_t_sub,
    fA_aux_sub, fA_mi_bit, cat_3_3_at_0, opnd_dec_enc, ty_dec_enc, rnd_dec_enc, Option.bind_some, ofBool_bit,
    BitVec.extractLsb'_eq_self]

theorem RoundTrip.vfsub (s : Sched) (d : Opnd) (a : Opnd) (b : Opnd) (t : Ty) (m : Gov) (r : Rnd) : RoundTrip.Statement
    (.vfsub s d a b t m r) := by
  refine roundTrip_of _ _ s.v rfl rfl fun e y => ⟨11, 1, wOp_fA .., wFn_fA _ _ _ _ _ _ _ _ _ _ _ _ _ _ rfl, by decide,
    by decide, ?_⟩
  show candVfp 1 _ = _
  simp (disch := decide) only [candVfp, wBits_word, wBit_word, wSched_fA, fA_m, fA_d_sub, fA_a_sub, fA_b_sub, fA_t_sub,
    fA_aux_sub, fA_mi_bit, cat_3_3_at_0, opnd_dec_enc, ty_dec_enc, rnd_dec_enc, Option.bind_some, ofBool_bit,
    BitVec.extractLsb'_eq_self]

theorem RoundTrip.vfmul (s : Sched) (d : Opnd) (a : Opnd) (b : Opnd) (t : Ty) (m : Gov) (r : Rnd) : RoundTrip.Statement
    (.vfmul s d a b t m r) := by
  refine roundTrip_of _ _ s.v rfl rfl fun e y => ⟨11, 2, wOp_fA .., wFn_fA _ _ _ _ _ _ _ _ _ _ _ _ _ _ rfl, by decide,
    by decide, ?_⟩
  show candVfp 2 _ = _
  simp (disch := decide) only [candVfp, wBits_word, wBit_word, wSched_fA, fA_m, fA_d_sub, fA_a_sub, fA_b_sub, fA_t_sub,
    fA_aux_sub, fA_mi_bit, cat_3_3_at_0, opnd_dec_enc, ty_dec_enc, rnd_dec_enc, Option.bind_some, ofBool_bit,
    BitVec.extractLsb'_eq_self]

theorem RoundTrip.vfma (s : Sched) (d : Opnd) (a : Opnd) (b : Opnd) (x : Opnd) (t : Ty) (m : Gov) (r : Rnd) :
    RoundTrip.Statement (.vfma s d a b x t m r) := by
  refine roundTrip_of _ _ s.v rfl rfl fun e y => ⟨11, 3, wOp_fA .., wFn_fA _ _ _ _ _ _ _ _ _ _ _ _ _ _ rfl, by decide,
    by decide, ?_⟩
  show candVfp 3 _ = _
  simp (disch := decide) only [candVfp, wBits_word, wBit_word, wSched_fA, fA_x, fA_m, fA_d_sub, fA_a_sub, fA_b_sub,
    fA_t_sub, fA_aux_sub, fA_mi_bit, cat_3_3_at_0, opnd_dec_enc, ty_dec_enc, rnd_dec_enc, Option.bind_some, ofBool_bit,
    BitVec.extractLsb'_eq_self]

theorem RoundTrip.vfms (s : Sched) (d : Opnd) (a : Opnd) (b : Opnd) (x : Opnd) (t : Ty) (m : Gov) (r : Rnd) :
    RoundTrip.Statement (.vfms s d a b x t m r) := by
  refine roundTrip_of _ _ s.v rfl rfl fun e y => ⟨11, 4, wOp_fA .., wFn_fA _ _ _ _ _ _ _ _ _ _ _ _ _ _ rfl, by decide,
    by decide, ?_⟩
  show candVfp 4 _ = _
  simp (disch := decide) only [candVfp, wBits_word, wBit_word, wSched_fA, fA_x, fA_m, fA_d_sub, fA_a_sub, fA_b_sub,
    fA_t_sub, fA_aux_sub, fA_mi_bit, cat_3_3_at_0, opnd_dec_enc, ty_dec_enc, rnd_dec_enc, Option.bind_some, ofBool_bit,
    BitVec.extractLsb'_eq_self]

theorem RoundTrip.vfmin (s : Sched) (d : Opnd) (a : Opnd) (b : Opnd) (t : Ty) (m : Gov) : RoundTrip.Statement (.vfmin s
    d a b t m) := by
  refine roundTrip_of _ _ s.v rfl rfl fun e y => ⟨11, 5, wOp_fA .., wFn_fA _ _ _ _ _ _ _ _ _ _ _ _ _ _ rfl, by decide,
    by decide, ?_⟩
  show candVfp 5 _ = _
  simp (disch := decide) only [candVfp, wBits_word, wBit_word, wSched_fA, fA_m, fA_d_sub, fA_a_sub, fA_b_sub, fA_t_sub,
    fA_mi_bit, opnd_dec_enc, ty_dec_enc, Option.bind_some, ofBool_bit, BitVec.extractLsb'_eq_self]

theorem RoundTrip.vfmax (s : Sched) (d : Opnd) (a : Opnd) (b : Opnd) (t : Ty) (m : Gov) : RoundTrip.Statement (.vfmax s
    d a b t m) := by
  refine roundTrip_of _ _ s.v rfl rfl fun e y => ⟨11, 6, wOp_fA .., wFn_fA _ _ _ _ _ _ _ _ _ _ _ _ _ _ rfl, by decide,
    by decide, ?_⟩
  show candVfp 6 _ = _
  simp (disch := decide) only [candVfp, wBits_word, wBit_word, wSched_fA, fA_m, fA_d_sub, fA_a_sub, fA_b_sub, fA_t_sub,
    fA_mi_bit, opnd_dec_enc, ty_dec_enc, Option.bind_some, ofBool_bit, BitVec.extractLsb'_eq_self]

theorem RoundTrip.vfabs (s : Sched) (d : Opnd) (a : Opnd) (t : Ty) (m : Gov) : RoundTrip.Statement (.vfabs s d a t m)
    := by
  refine roundTrip_of _ _ s.v rfl rfl fun e y => ⟨11, 7, wOp_fA .., wFn_fA _ _ _ _ _ _ _ _ _ _ _ _ _ _ rfl, by decide,
    by decide, ?_⟩
  show candVfp 7 _ = _
  simp (disch := decide) only [candVfp, wBits_word, wBit_word, wSched_fA, fA_m, fA_d_sub, fA_a_sub, fA_t_sub,
    fA_mi_bit, opnd_dec_enc, ty_dec_enc, Option.bind_some, ofBool_bit, BitVec.extractLsb'_eq_self]

theorem RoundTrip.vfneg (s : Sched) (d : Opnd) (a : Opnd) (t : Ty) (m : Gov) : RoundTrip.Statement (.vfneg s d a t m)
    := by
  refine roundTrip_of _ _ s.v rfl rfl fun e y => ⟨11, 8, wOp_fA .., wFn_fA _ _ _ _ _ _ _ _ _ _ _ _ _ _ rfl, by decide,
    by decide, ?_⟩
  show candVfp 8 _ = _
  simp (disch := decide) only [candVfp, wBits_word, wBit_word, wSched_fA, fA_m, fA_d_sub, fA_a_sub, fA_t_sub,
    fA_mi_bit, opnd_dec_enc, ty_dec_enc, Option.bind_some, ofBool_bit, BitVec.extractLsb'_eq_self]

theorem RoundTrip.vfcmpeq (s : Sched) (d : Opnd) (a : Opnd) (b : Opnd) (t : Ty) (m : Gov) : RoundTrip.Statement
    (.vfcmpeq s d a b t m) := by
  refine roundTrip_of _ _ s.v rfl rfl fun e y => ⟨11, 9, wOp_fA .., wFn_fA _ _ _ _ _ _ _ _ _ _ _ _ _ _ rfl, by decide,
    by decide, ?_⟩
  show candVfp 9 _ = _
  simp (disch := decide) only [candVfp, wBits_word, wBit_word, wSched_fA, fA_m, fA_d_sub, fA_a_sub, fA_b_sub, fA_t_sub,
    fA_mi_bit, opnd_dec_enc, ty_dec_enc, Option.bind_some, ofBool_bit, BitVec.extractLsb'_eq_self]

theorem RoundTrip.vfcmplt (s : Sched) (d : Opnd) (a : Opnd) (b : Opnd) (t : Ty) (m : Gov) : RoundTrip.Statement
    (.vfcmplt s d a b t m) := by
  refine roundTrip_of _ _ s.v rfl rfl fun e y => ⟨11, 10, wOp_fA .., wFn_fA _ _ _ _ _ _ _ _ _ _ _ _ _ _ rfl, by decide,
    by decide, ?_⟩
  show candVfp 10 _ = _
  simp (disch := decide) only [candVfp, wBits_word, wBit_word, wSched_fA, fA_m, fA_d_sub, fA_a_sub, fA_b_sub, fA_t_sub,
    fA_mi_bit, opnd_dec_enc, ty_dec_enc, Option.bind_some, ofBool_bit, BitVec.extractLsb'_eq_self]

theorem RoundTrip.vfcmple (s : Sched) (d : Opnd) (a : Opnd) (b : Opnd) (t : Ty) (m : Gov) : RoundTrip.Statement
    (.vfcmple s d a b t m) := by
  refine roundTrip_of _ _ s.v rfl rfl fun e y => ⟨11, 11, wOp_fA .., wFn_fA _ _ _ _ _ _ _ _ _ _ _ _ _ _ rfl, by decide,
    by decide, ?_⟩
  show candVfp 11 _ = _
  simp (disch := decide) only [candVfp, wBits_word, wBit_word, wSched_fA, fA_m, fA_d_sub, fA_a_sub, fA_b_sub, fA_t_sub,
    fA_mi_bit, opnd_dec_enc, ty_dec_enc, Option.bind_some, ofBool_bit, BitVec.extractLsb'_eq_self]

theorem RoundTrip.vfcmpun (s : Sched) (d : Opnd) (a : Opnd) (b : Opnd) (t : Ty) (m : Gov) : RoundTrip.Statement
    (.vfcmpun s d a b t m) := by
  refine roundTrip_of _ _ s.v rfl rfl fun e y => ⟨11, 12, wOp_fA .., wFn_fA _ _ _ _ _ _ _ _ _ _ _ _ _ _ rfl, by decide,
    by decide, ?_⟩
  show candVfp 12 _ = _
  simp (disch := decide) only [candVfp, wBits_word, wBit_word, wSched_fA, fA_m, fA_d_sub, fA_a_sub, fA_b_sub, fA_t_sub,
    fA_mi_bit, opnd_dec_enc, ty_dec_enc, Option.bind_some, ofBool_bit, BitVec.extractLsb'_eq_self]

theorem RoundTrip.vrcp (s : Sched) (d : Opnd) (a : Opnd) (t : Ty) (m : Gov) (r : Rnd) : RoundTrip.Statement (.vrcp s d
    a t m r) := by
  refine roundTrip_of _ _ s.v rfl rfl fun e y => ⟨12, 0, wOp_fA .., wFn_fA _ _ _ _ _ _ _ _ _ _ _ _ _ _ rfl, by decide,
    by decide, ?_⟩
  show candVspc 0 _ = _
  simp (disch := decide) only [candVspc, wBits_word, wBit_word, wSched_fA, fA_m, fA_d_sub, fA_a_sub, fA_t_sub,
    fA_aux_sub, fA_mi_bit, cat_3_3_at_0, opnd_dec_enc, ty_dec_enc, rnd_dec_enc, Option.bind_some, ofBool_bit,
    BitVec.extractLsb'_eq_self]

theorem RoundTrip.vrsqrt (s : Sched) (d : Opnd) (a : Opnd) (t : Ty) (m : Gov) (r : Rnd) : RoundTrip.Statement (.vrsqrt
    s d a t m r) := by
  refine roundTrip_of _ _ s.v rfl rfl fun e y => ⟨12, 1, wOp_fA .., wFn_fA _ _ _ _ _ _ _ _ _ _ _ _ _ _ rfl, by decide,
    by decide, ?_⟩
  show candVspc 1 _ = _
  simp (disch := decide) only [candVspc, wBits_word, wBit_word, wSched_fA, fA_m, fA_d_sub, fA_a_sub, fA_t_sub,
    fA_aux_sub, fA_mi_bit, cat_3_3_at_0, opnd_dec_enc, ty_dec_enc, rnd_dec_enc, Option.bind_some, ofBool_bit,
    BitVec.extractLsb'_eq_self]

theorem RoundTrip.vsqrt (s : Sched) (d : Opnd) (a : Opnd) (t : Ty) (m : Gov) (r : Rnd) : RoundTrip.Statement (.vsqrt s
    d a t m r) := by
  refine roundTrip_of _ _ s.v rfl rfl fun e y => ⟨12, 2, wOp_fA .., wFn_fA _ _ _ _ _ _ _ _ _ _ _ _ _ _ rfl, by decide,
    by decide, ?_⟩
  show candVspc 2 _ = _
  simp (disch := decide) only [candVspc, wBits_word, wBit_word, wSched_fA, fA_m, fA_d_sub, fA_a_sub, fA_t_sub,
    fA_aux_sub, fA_mi_bit, cat_3_3_at_0, opnd_dec_enc, ty_dec_enc, rnd_dec_enc, Option.bind_some, ofBool_bit,
    BitVec.extractLsb'_eq_self]

theorem RoundTrip.vexp2 (s : Sched) (d : Opnd) (a : Opnd) (t : Ty) (m : Gov) (r : Rnd) : RoundTrip.Statement (.vexp2 s
    d a t m r) := by
  refine roundTrip_of _ _ s.v rfl rfl fun e y => ⟨12, 3, wOp_fA .., wFn_fA _ _ _ _ _ _ _ _ _ _ _ _ _ _ rfl, by decide,
    by decide, ?_⟩
  show candVspc 3 _ = _
  simp (disch := decide) only [candVspc, wBits_word, wBit_word, wSched_fA, fA_m, fA_d_sub, fA_a_sub, fA_t_sub,
    fA_aux_sub, fA_mi_bit, cat_3_3_at_0, opnd_dec_enc, ty_dec_enc, rnd_dec_enc, Option.bind_some, ofBool_bit,
    BitVec.extractLsb'_eq_self]

theorem RoundTrip.vlog2 (s : Sched) (d : Opnd) (a : Opnd) (t : Ty) (m : Gov) (r : Rnd) : RoundTrip.Statement (.vlog2 s
    d a t m r) := by
  refine roundTrip_of _ _ s.v rfl rfl fun e y => ⟨12, 4, wOp_fA .., wFn_fA _ _ _ _ _ _ _ _ _ _ _ _ _ _ rfl, by decide,
    by decide, ?_⟩
  show candVspc 4 _ = _
  simp (disch := decide) only [candVspc, wBits_word, wBit_word, wSched_fA, fA_m, fA_d_sub, fA_a_sub, fA_t_sub,
    fA_aux_sub, fA_mi_bit, cat_3_3_at_0, opnd_dec_enc, ty_dec_enc, rnd_dec_enc, Option.bind_some, ofBool_bit,
    BitVec.extractLsb'_eq_self]

theorem RoundTrip.vdiv (s : Sched) (d : Opnd) (a : Opnd) (b : Opnd) (t : Ty) (m : Gov) (r : Rnd) : RoundTrip.Statement
    (.vdiv s d a b t m r) := by
  refine roundTrip_of _ _ s.v rfl rfl fun e y => ⟨12, 5, wOp_fA .., wFn_fA _ _ _ _ _ _ _ _ _ _ _ _ _ _ rfl, by decide,
    by decide, ?_⟩
  show candVspc 5 _ = _
  simp (disch := decide) only [candVspc, wBits_word, wBit_word, wSched_fA, fA_m, fA_d_sub, fA_a_sub, fA_b_sub,
    fA_t_sub, fA_aux_sub, fA_mi_bit, cat_3_3_at_0, opnd_dec_enc, ty_dec_enc, rnd_dec_enc, Option.bind_some, ofBool_bit,
    BitVec.extractLsb'_eq_self]

theorem RoundTrip.vrope (s : Sched) (d : Opnd) (a : Opnd) (b : Opnd) (x : Opnd) (t : Ty) (m : Gov) (r : Rnd) (c :
    BitVec 3) : RoundTrip.Statement (.vrope s d a b x t m r c) := by
  refine roundTrip_of _ _ s.v rfl rfl fun e y => ⟨12, 6, wOp_fA .., wFn_fA _ _ _ _ _ _ _ _ _ _ _ _ _ _ rfl, by decide,
    by decide, ?_⟩
  show candVspc 6 _ = _
  simp (disch := decide) only [candVspc, wBits_word, wBit_word, wSched_fA, fA_x, fA_m, fA_d_sub, fA_a_sub, fA_b_sub,
    fA_t_sub, fA_aux_sub, fA_mi_bit, cat_3_3_at_3, cat_3_3_at_0, opnd_dec_enc, ty_dec_enc, rnd_dec_enc,
    Option.bind_some, ofBool_bit, BitVec.extractLsb'_eq_self]

theorem RoundTrip.vrng (s : Sched) (d : Opnd) (a : Opnd) (m : Gov) : RoundTrip.Statement (.vrng s d a m) := by
  refine roundTrip_of _ _ s.v rfl rfl fun e y => ⟨12, 7, wOp_fA .., wFn_fA _ _ _ _ _ _ _ _ _ _ _ _ _ _ rfl, by decide,
    by decide, ?_⟩
  show candVspc 7 _ = _
  simp (disch := decide) only [candVspc, wBits_word, wBit_word, wSched_fA, fA_m, fA_d_sub, fA_a_sub, fA_mi_bit,
    opnd_dec_enc, ofBool_bit, BitVec.extractLsb'_eq_self]

theorem RoundTrip.vcvt (s : Sched) (d : Opnd) (a : Opnd) (t : Ty) (src : CvtSrc) (m : Gov) (r : Rnd) :
    RoundTrip.Statement (.vcvt s d a t src m r) := by
  refine roundTrip_of _ _ s.v rfl rfl fun e y => ⟨13, 0, wOp_fA .., wFn_fA _ _ _ _ _ _ _ _ _ _ _ _ _ _ rfl, by decide,
    by decide, ?_⟩
  show candVcvt 0 _ = _
  simp (disch := decide) only [candVcvt, wBits_word, wBit_word, wSched_fA, fA_m, fA_d_sub, fA_a_sub, fA_t_sub,
    fA_aux_sub, fA_mi_bit, cat_3_3_at_3, cat_3_3_at_0, opnd_dec_enc, ty_dec_enc, rnd_dec_enc, cvtSrc_dec_enc,
    Option.bind_some, ofBool_bit, BitVec.extractLsb'_eq_self]

theorem RoundTrip.vpack (s : Sched) (d : Opnd) (a : Opnd) (x : Opnd) (t : Ty) (qx : BitVec 2) : RoundTrip.Statement
    (.vpack s d a x t qx) := by
  refine roundTrip_of _ _ s.v rfl rfl fun e y => ⟨13, 1, wOp_fA .., wFn_fA _ _ _ _ _ _ _ _ _ _ _ _ _ _ rfl, by decide,
    by decide, ?_⟩
  show candVcvt 1 _ = _
  simp (disch := decide) only [candVcvt, wBits_word, wSched_fA, fA_x, fA_d_sub, fA_a_sub, fA_t_sub, fA_aux_sub,
    cat_1_2_3_at_3, opnd_dec_enc, ty_dec_enc, Option.bind_some, BitVec.extractLsb'_eq_self]

theorem RoundTrip.vunpk (s : Sched) (d : Opnd) (a : Opnd) (t : Ty) (qx : BitVec 2) (m : Gov) : RoundTrip.Statement
    (.vunpk s d a t qx m) := by
  refine roundTrip_of _ _ s.v rfl rfl fun e y => ⟨13, 2, wOp_fA .., wFn_fA _ _ _ _ _ _ _ _ _ _ _ _ _ _ rfl, by decide,
    by decide, ?_⟩
  show candVcvt 2 _ = _
  simp (disch := decide) only [candVcvt, wBits_word, wBit_word, wSched_fA, fA_m, fA_d_sub, fA_a_sub, fA_t_sub,
    fA_aux_sub, fA_mi_bit, cat_1_2_3_at_3, opnd_dec_enc, ty_dec_enc, Option.bind_some, ofBool_bit,
    BitVec.extractLsb'_eq_self]

theorem RoundTrip.vpk6 (s : Sched) (d : Opnd) (a : Opnd) (x : Opnd) (lo : Bool) (qx : BitVec 4) : RoundTrip.Statement
    (.vpk6 s d a x lo qx) := by
  refine roundTrip_of _ _ s.v rfl rfl fun e y => ⟨13, 3, wOp_fA .., wFn_fA _ _ _ _ _ _ _ _ _ _ _ _ _ _ rfl, by decide,
    by decide, ?_⟩
  show candVcvt 3 _ = _
  simp (disch := decide) only [candVcvt, wBits_word, wBit_word, wSched_fA, fA_x, fA_d_sub, fA_a_sub, fA_aux_sub,
    fA_aux_bit, cat_1_1_4_bit_5, cat_1_1_4_at_0, opnd_dec_enc, ofBool_bit, BitVec.extractLsb'_eq_self]

theorem RoundTrip.vupk6 (s : Sched) (d : Opnd) (a : Opnd) (b : Opnd) (qx : BitVec 3) (h : Bool) (m : Gov) :
    RoundTrip.Statement (.vupk6 s d a b qx h m) := by
  refine roundTrip_of _ _ s.v rfl rfl fun e y => ⟨13, 4, wOp_fA .., wFn_fA _ _ _ _ _ _ _ _ _ _ _ _ _ _ rfl, by decide,
    by decide, ?_⟩
  show candVcvt 4 _ = _
  simp (disch := decide) only [candVcvt, wBits_word, wBit_word, wSched_fA, fA_m, fA_d_sub, fA_a_sub, fA_b_sub,
    fA_aux_sub, fA_mi_bit, fA_aux_bit, cat_2_1_3_bit_3, cat_2_1_3_at_0, opnd_dec_enc, ofBool_bit,
    BitVec.extractLsb'_eq_self]

theorem RoundTrip.vtrit (s : Sched) (d : Opnd) (a : Opnd) (t : Ty) (qx : BitVec 5) (m : Gov) : RoundTrip.Statement
    (.vtrit s d a t qx m) := by
  refine roundTrip_of _ _ s.v rfl rfl fun e y => ⟨13, 5, wOp_fA .., wFn_fA _ _ _ _ _ _ _ _ _ _ _ _ _ _ rfl, by decide,
    by decide, ?_⟩
  show candVcvt 5 _ = _
  simp (disch := decide) only [candVcvt, wBits_word, wBit_word, wSched_fA, fA_m, fA_d_sub, fA_a_sub, fA_t_sub,
    fA_aux_sub, fA_mi_bit, cat_1_5_at_0, opnd_dec_enc, ty_dec_enc, Option.bind_some, ofBool_bit,
    BitVec.extractLsb'_eq_self]

theorem RoundTrip.vtritp (s : Sched) (d : Opnd) (a : Opnd) (x : Opnd) (qx : BitVec 5) : RoundTrip.Statement (.vtritp s
    d a x qx) := by
  refine roundTrip_of _ _ s.v rfl rfl fun e y => ⟨13, 6, wOp_fA .., wFn_fA _ _ _ _ _ _ _ _ _ _ _ _ _ _ rfl, by decide,
    by decide, ?_⟩
  show candVcvt 6 _ = _
  simp (disch := decide) only [candVcvt, wBits_word, wSched_fA, fA_x, fA_d_sub, fA_a_sub, fA_aux_sub, cat_1_5_at_0,
    opnd_dec_enc, BitVec.extractLsb'_eq_self]

theorem RoundTrip.vbcast (s : Sched) (d : Opnd) (a : Opnd) (m : Gov) : RoundTrip.Statement (.vbcast s d a m) := by
  refine roundTrip_of _ _ s.v rfl rfl fun e y => ⟨14, 0, wOp_fA .., wFn_fA _ _ _ _ _ _ _ _ _ _ _ _ _ _ rfl, by decide,
    by decide, ?_⟩
  show candVlane 0 _ = _
  simp (disch := decide) only [candVlane, wBits_word, wBit_word, wSched_fA, fA_m, fA_d_sub, fA_a_sub, fA_mi_bit,
    opnd_dec_enc, ofBool_bit, BitVec.extractLsb'_eq_self]

theorem RoundTrip.vext (s : Sched) (d : Opnd) (a : Opnd) (b : Opnd) : RoundTrip.Statement (.vext s d a b) := by
  refine roundTrip_of _ _ s.v rfl rfl fun e y => ⟨14, 1, wOp_fA .., wFn_fA _ _ _ _ _ _ _ _ _ _ _ _ _ _ rfl, by decide,
    by decide, ?_⟩
  show candVlane 1 _ = _
  simp (disch := decide) only [candVlane, wBits_word, wSched_fA, fA_d_sub, fA_a_sub, fA_b_sub, opnd_dec_enc,
    BitVec.extractLsb'_eq_self]

theorem RoundTrip.vins (s : Sched) (d : Opnd) (a : Opnd) (b : Opnd) (x : Opnd) : RoundTrip.Statement (.vins s d a b x)
    := by
  refine roundTrip_of _ _ s.v rfl rfl fun e y => ⟨14, 2, wOp_fA .., wFn_fA _ _ _ _ _ _ _ _ _ _ _ _ _ _ rfl, by decide,
    by decide, ?_⟩
  show candVlane 2 _ = _
  simp (disch := decide) only [candVlane, wBits_word, wSched_fA, fA_x, fA_d_sub, fA_a_sub, fA_b_sub, opnd_dec_enc,
    BitVec.extractLsb'_eq_self]

theorem RoundTrip.vperm (s : Sched) (d : Opnd) (a : Opnd) (b : Opnd) (x : Opnd) (m : Gov) : RoundTrip.Statement (.vperm
    s d a b x m) := by
  refine roundTrip_of _ _ s.v rfl rfl fun e y => ⟨14, 3, wOp_fA .., wFn_fA _ _ _ _ _ _ _ _ _ _ _ _ _ _ rfl, by decide,
    by decide, ?_⟩
  show candVlane 3 _ = _
  simp (disch := decide) only [candVlane, wBits_word, wBit_word, wSched_fA, fA_x, fA_m, fA_d_sub, fA_a_sub, fA_b_sub,
    fA_mi_bit, opnd_dec_enc, ofBool_bit, BitVec.extractLsb'_eq_self]

theorem RoundTrip.vred (s : Sched) (d : Opnd) (a : Opnd) (t : Ty) (op : RedOp) (m : Gov) (r : Rnd) :
    RoundTrip.Statement (.vred s d a t op m r) := by
  refine roundTrip_of _ _ s.v rfl rfl fun e y => ⟨14, 4, wOp_fA .., wFn_fA _ _ _ _ _ _ _ _ _ _ _ _ _ _ rfl, by decide,
    by decide, ?_⟩
  show candVlane 4 _ = _
  simp (disch := decide) only [candVlane, wBits_word, wBit_word, wSched_fA, fA_m, fA_d_sub, fA_a_sub, fA_t_sub,
    fA_aux_sub, fA_mi_bit, cat_3_3_at_3, cat_3_3_at_0, opnd_dec_enc, ty_dec_enc, rnd_dec_enc, redOp_dec_enc,
    Option.bind_some, ofBool_bit, BitVec.extractLsb'_eq_self]

theorem RoundTrip.vscan (s : Sched) (d : Opnd) (a : Opnd) (t : Ty) (op : RedOp) (m : Gov) (r : Rnd) :
    RoundTrip.Statement (.vscan s d a t op m r) := by
  refine roundTrip_of _ _ s.v rfl rfl fun e y => ⟨14, 5, wOp_fA .., wFn_fA _ _ _ _ _ _ _ _ _ _ _ _ _ _ rfl, by decide,
    by decide, ?_⟩
  show candVlane 5 _ = _
  simp (disch := decide) only [candVlane, wBits_word, wBit_word, wSched_fA, fA_m, fA_d_sub, fA_a_sub, fA_t_sub,
    fA_aux_sub, fA_mi_bit, cat_3_3_at_3, cat_3_3_at_0, opnd_dec_enc, ty_dec_enc, rnd_dec_enc, redOp_dec_enc,
    Option.bind_some, ofBool_bit, BitVec.extractLsb'_eq_self]

theorem RoundTrip.vsortk (s : Sched) (d : Opnd) (a : Opnd) (b : Opnd) (t : Ty) (asc : Bool) (m : Gov) :
    RoundTrip.Statement (.vsortk s d a b t asc m) := by
  refine roundTrip_of _ _ s.v rfl rfl fun e y => ⟨14, 6, wOp_fA .., wFn_fA _ _ _ _ _ _ _ _ _ _ _ _ _ _ rfl, by decide,
    by decide, ?_⟩
  show candVlane 6 _ = _
  simp (disch := decide) only [candVlane, wBits_word, wBit_word, wSched_fA, fA_m, fA_d_sub, fA_a_sub, fA_b_sub,
    fA_t_sub, fA_mi_bit, fA_aux_bit, cat_2_1_3_bit_3, opnd_dec_enc, ty_dec_enc, Option.bind_some, ofBool_bit,
    BitVec.extractLsb'_eq_self]

theorem RoundTrip.vcompress (s : Sched) (d : Opnd) (a : Opnd) (m : Gov) : RoundTrip.Statement (.vcompress s d a m) := by
  refine roundTrip_of _ _ s.v rfl rfl fun e y => ⟨14, 7, wOp_fA .., wFn_fA _ _ _ _ _ _ _ _ _ _ _ _ _ _ rfl, by decide,
    by decide, ?_⟩
  show candVlane 7 _ = _
  simp (disch := decide) only [candVlane, wBits_word, wBit_word, wSched_fA, fA_m, fA_d_sub, fA_a_sub, fA_mi_bit,
    opnd_dec_enc, ofBool_bit, BitVec.extractLsb'_eq_self]

theorem RoundTrip.mand (d : BitVec 3) (a : BitVec 3) (b : BitVec 3) : RoundTrip.Statement (.mand d a b) := by
  refine roundTrip_of _ _ false rfl rfl fun e y => ⟨15, 0, wOp_fA .., wFn_fA _ _ _ _ _ _ _ _ _ _ _ _ _ _ rfl, by
    decide, by decide, ?_⟩
  show candMask 0 _ = _
  simp (disch := decide) only [candMask, wBits_word, fA_d_sub, fA_a_sub, fA_b_sub, cat_4_3_at_0, cat_4_3_at_0,
    cat_4_3_at_0]

theorem RoundTrip.mor (d : BitVec 3) (a : BitVec 3) (b : BitVec 3) : RoundTrip.Statement (.mor d a b) := by
  refine roundTrip_of _ _ false rfl rfl fun e y => ⟨15, 1, wOp_fA .., wFn_fA _ _ _ _ _ _ _ _ _ _ _ _ _ _ rfl, by
    decide, by decide, ?_⟩
  show candMask 1 _ = _
  simp (disch := decide) only [candMask, wBits_word, fA_d_sub, fA_a_sub, fA_b_sub, cat_4_3_at_0, cat_4_3_at_0,
    cat_4_3_at_0]

theorem RoundTrip.mxor (d : BitVec 3) (a : BitVec 3) (b : BitVec 3) : RoundTrip.Statement (.mxor d a b) := by
  refine roundTrip_of _ _ false rfl rfl fun e y => ⟨15, 2, wOp_fA .., wFn_fA _ _ _ _ _ _ _ _ _ _ _ _ _ _ rfl, by
    decide, by decide, ?_⟩
  show candMask 2 _ = _
  simp (disch := decide) only [candMask, wBits_word, fA_d_sub, fA_a_sub, fA_b_sub, cat_4_3_at_0, cat_4_3_at_0,
    cat_4_3_at_0]

theorem RoundTrip.mnot (d : BitVec 3) (a : BitVec 3) : RoundTrip.Statement (.mnot d a) := by
  refine roundTrip_of _ _ false rfl rfl fun e y => ⟨15, 3, wOp_fA .., wFn_fA _ _ _ _ _ _ _ _ _ _ _ _ _ _ rfl, by
    decide, by decide, ?_⟩
  show candMask 3 _ = _
  simp (disch := decide) only [candMask, wBits_word, fA_d_sub, fA_a_sub, cat_4_3_at_0, cat_4_3_at_0]

theorem RoundTrip.mset (d : BitVec 3) (b : Opnd) : RoundTrip.Statement (.mset d b) := by
  refine roundTrip_of _ _ false rfl rfl fun e y => ⟨15, 4, wOp_fA .., wFn_fA _ _ _ _ _ _ _ _ _ _ _ _ _ _ rfl, by
    decide, by decide, ?_⟩
  show candMask 4 _ = _
  simp (disch := decide) only [candMask, wBits_word, fA_d_sub, fA_b_sub, cat_4_3_at_0, opnd_dec_enc,
    BitVec.extractLsb'_eq_self]

theorem RoundTrip.mget (s : Sched) (d : Opnd) (a : BitVec 3) : RoundTrip.Statement (.mget s d a) := by
  refine roundTrip_of _ _ s.v rfl rfl fun e y => ⟨15, 5, wOp_fA .., wFn_fA _ _ _ _ _ _ _ _ _ _ _ _ _ _ rfl, by decide,
    by decide, ?_⟩
  show candMask 5 _ = _
  simp (disch := decide) only [candMask, wBits_word, wSched_fA, fA_d_sub, fA_a_sub, cat_4_3_at_0, opnd_dec_enc,
    BitVec.extractLsb'_eq_self]

theorem RoundTrip.mpop (d : BitVec 3) (a : BitVec 3) : RoundTrip.Statement (.mpop d a) := by
  refine roundTrip_of _ _ false rfl rfl fun e y => ⟨15, 6, wOp_fA .., wFn_fA _ _ _ _ _ _ _ _ _ _ _ _ _ _ rfl, by
    decide, by decide, ?_⟩
  show candMask 6 _ = _
  simp (disch := decide) only [candMask, wBits_word, fA_d_sub, fA_a_sub, cat_4_3_at_0, cat_4_3_at_0]

theorem RoundTrip.mfirst (d : BitVec 3) (a : BitVec 3) : RoundTrip.Statement (.mfirst d a) := by
  refine roundTrip_of _ _ false rfl rfl fun e y => ⟨15, 7, wOp_fA .., wFn_fA _ _ _ _ _ _ _ _ _ _ _ _ _ _ rfl, by
    decide, by decide, ?_⟩
  show candMask 7 _ = _
  simp (disch := decide) only [candMask, wBits_word, fA_d_sub, fA_a_sub, cat_4_3_at_0, cat_4_3_at_0]

theorem RoundTrip.mbit (d : BitVec 3) (a : BitVec 3) (n : BitVec 4) (clr : Bool) : RoundTrip.Statement (.mbit d a n
    clr) := by
  refine roundTrip_of _ _ false rfl rfl fun e y => ⟨15, 8, wOp_fA .., wFn_fA _ _ _ _ _ _ _ _ _ _ _ _ _ _ rfl, by
    decide, by decide, ?_⟩
  show candMask 8 _ = _
  simp (disch := decide) only [candMask, wBits_word, wBit_word, fA_d_sub, fA_a_sub, fA_aux_sub, fA_aux_bit,
    cat_4_3_at_0, cat_4_3_at_0, cat_1_1_4_bit_4, cat_1_1_4_at_0, ofBool_bit]

theorem RoundTrip.vld (s : Sched) (d : Opnd) (bp : BitVec 4) (sz : VSize) (m : BitVec 3) (off : BitVec 24) :
    RoundTrip.Statement (.vld s d bp sz m off) := by
  refine roundTrip_of _ _ s.v rfl rfl fun e y => ⟨16, 0, wOp_fM .., wFn_fM _ _ _ _ _ _ _ _ _ _ _ _ _ rfl, by decide, by
    decide, ?_⟩
  show candVmem 0 _ = _
  simp (disch := decide) only [candVmem, wBits_word, wSched_fM, fM_d, fM_bp, fM_sz, fM_m, fM_off_sub, opnd_dec_enc,
    vsize_dec_enc, Option.bind_some, BitVec.extractLsb'_eq_self]

theorem RoundTrip.vst (d : Opnd) (bp : BitVec 4) (sz : VSize) (m : BitVec 3) (off : BitVec 24) : RoundTrip.Statement
    (.vst d bp sz m off) := by
  refine roundTrip_of _ _ false rfl rfl fun e y => ⟨16, 1, wOp_fM .., wFn_fM _ _ _ _ _ _ _ _ _ _ _ _ _ rfl, by decide,
    by decide, ?_⟩
  show candVmem 1 _ = _
  simp (disch := decide) only [candVmem, wBits_word, fM_d, fM_bp, fM_sz, fM_m, fM_off_sub, opnd_dec_enc, vsize_dec_enc,
    Option.bind_some, BitVec.extractLsb'_eq_self]

theorem RoundTrip.vldg (s : Sched) (d : Opnd) (bp : BitVec 4) (sz : VSize) (m : BitVec 3) (idx : Opnd) (off : BitVec
    17) : RoundTrip.Statement (.vldg s d bp sz m idx off) := by
  refine roundTrip_of _ _ s.v rfl rfl fun e y => ⟨16, 2, wOp_fM .., wFn_fM _ _ _ _ _ _ _ _ _ _ _ _ _ rfl, by decide, by
    decide, ?_⟩
  show candVmem 2 _ = _
  simp (disch := decide) only [candVmem, wBits_word, wSched_fM, fM_d, fM_bp, fM_sz, fM_m, fM_off_sub, cat_17_7_at_7,
    cat_17_7_at_0, opnd_dec_enc, vsize_dec_enc, Option.bind_some]

theorem RoundTrip.vsts (d : Opnd) (bp : BitVec 4) (sz : VSize) (m : BitVec 3) (idx : Opnd) (off : BitVec 17) :
    RoundTrip.Statement (.vsts d bp sz m idx off) := by
  refine roundTrip_of _ _ false rfl rfl fun e y => ⟨16, 3, wOp_fM .., wFn_fM _ _ _ _ _ _ _ _ _ _ _ _ _ rfl, by decide,
    by decide, ?_⟩
  show candVmem 3 _ = _
  simp (disch := decide) only [candVmem, wBits_word, fM_d, fM_bp, fM_sz, fM_m, fM_off_sub, cat_17_7_at_7,
    cat_17_7_at_0, opnd_dec_enc, vsize_dec_enc, Option.bind_some]

theorem RoundTrip.stcfg (sn : BitVec 4) (bp : BitVec 4) (off : BitVec 20) : RoundTrip.Statement (.stcfg sn bp off) := by
  refine roundTrip_of _ _ false rfl rfl fun e y => ⟨17, 0, wOp_fQ .., wFn_fQ _ _ _ _ _ _ _ _ _ _ rfl, by decide, by
    decide, ?_⟩
  show candStrm 0 _ = _
  simp (disch := decide) only [candStrm, wBits_word, fQ_bp, fQ_imm_sub, cat_4_20_at_20, cat_4_20_at_0]

theorem RoundTrip.stadv (sn : BitVec 4) (a : Opnd) : RoundTrip.Statement (.stadv sn a) := by
  refine roundTrip_of _ _ false rfl rfl fun e y => ⟨17, 1, wOp_fQ .., wFn_fQ _ _ _ _ _ _ _ _ _ _ rfl, by decide, by
    decide, ?_⟩
  show candStrm 1 _ = _
  simp (disch := decide) only [candStrm, wBits_word, fQ_a, fQ_imm_sub, cat_4_20_at_20, opnd_dec_enc]

theorem RoundTrip.ststat (s : Sched) (d : Opnd) (sn : BitVec 4) : RoundTrip.Statement (.ststat s d sn) := by
  refine roundTrip_of _ _ s.v rfl rfl fun e y => ⟨17, 2, wOp_fQ .., wFn_fQ _ _ _ _ _ _ _ _ _ _ rfl, by decide, by
    decide, ?_⟩
  show candStrm 2 _ = _
  simp (disch := decide) only [candStrm, wBits_word, wSched_fQ, fQ_d, fQ_imm_sub, cat_4_20_at_20, opnd_dec_enc]

theorem RoundTrip.stcut (sn : BitVec 4) : RoundTrip.Statement (.stcut sn) := by
  refine roundTrip_of _ _ false rfl rfl fun e y => ⟨17, 3, wOp_fQ .., wFn_fQ _ _ _ _ _ _ _ _ _ _ rfl, by decide, by
    decide, ?_⟩
  show candStrm 3 _ = _
  simp (disch := decide) only [candStrm, wBits_word, fQ_imm_sub, cat_4_20_at_20]

theorem RoundTrip.streamFill (sn : BitVec 4) : RoundTrip.Statement (.streamFill sn) := by
  intro ap e y w _ h
  cases h

theorem RoundTrip.streamOutputWrite (sn : BitVec 4) : RoundTrip.Statement (.streamOutputWrite sn) := by
  intro ap e y w _ h
  cases h

theorem RoundTrip.mma (ac : BitVec 2) (sa : BitVec 4) (sb : BitVec 4) (t : Ty) (ta : Bool) (tb : Bool) (kc : BitVec 6)
    : RoundTrip.Statement (.mma ac sa sb t ta tb kc) := by
  refine roundTrip_of _ _ false rfl rfl fun e y => ⟨18, 0, wOp_fT .., wFn_fT _ _ _ _ _ _ _ _ _ _ _ _ _ _ _ rfl, by
    decide, by decide, ?_⟩
  simp (disch := decide) only [candidate, candMtx, wBits_word, wBit_word, fT_sb, fT_t, fT_ac_sub, fT_sa_sub,
    fT_aux_sub, fT_s_bit, fT_j_bit, fT_aux_bit, cat_2_2_at_0, cat_1_1_6_6_bit_13, cat_1_1_6_6_bit_12, cat_1_1_6_6_at_0,
    ty_dec_enc, Option.bind_some, ofBool_bit, BitVec.extractLsb'_eq_self]
  rfl

theorem RoundTrip.tmm (ac : BitVec 2) (sa : BitVec 4) (sb : BitVec 4) (ta : Bool) (tb : Bool) (kc : BitVec 6) :
    RoundTrip.Statement (.tmm ac sa sb ta tb kc) := by
  refine roundTrip_of _ _ false rfl rfl fun e y => ⟨18, 1, wOp_fT .., wFn_fT _ _ _ _ _ _ _ _ _ _ _ _ _ _ _ rfl, by
    decide, by decide, ?_⟩
  simp (disch := decide) only [candidate, candMtx, wBits_word, wBit_word, fT_sb, fT_ac_sub, fT_sa_sub, fT_aux_sub,
    fT_s_bit, fT_j_bit, fT_aux_bit, cat_2_2_at_0, cat_1_1_6_6_bit_13, cat_1_1_6_6_bit_12, cat_1_1_6_6_at_0, ofBool_bit,
    BitVec.extractLsb'_eq_self]
  rfl

theorem RoundTrip.tmmt (ac : BitVec 2) (sa : BitVec 4) (sb : BitVec 4) (t : Ty) (kc : BitVec 6) : RoundTrip.Statement
    (.tmmt ac sa sb t kc) := by
  refine roundTrip_of _ _ false rfl rfl fun e y => ⟨18, 6, wOp_fT .., wFn_fT _ _ _ _ _ _ _ _ _ _ _ _ _ _ _ rfl, by
    decide, by decide, ?_⟩
  simp (disch := decide) only [candidate, candMtx, wBits_word, wBit_word, fT_sb, fT_t, fT_ac_sub, fT_sa_sub,
    fT_aux_sub, fT_s_bit, fT_j_bit, cat_2_2_at_0, cat_8_6_at_0, ty_dec_enc, Option.bind_some,
    BitVec.extractLsb'_eq_self]
  rfl

theorem RoundTrip.tmmw (ac : BitVec 2) (sa : BitVec 4) (sb : BitVec 4) (t : Ty) (kc : BitVec 6) : RoundTrip.Statement
    (.tmmw ac sa sb t kc) := by
  refine roundTrip_of _ _ false rfl rfl fun e y => ⟨18, 7, wOp_fT .., wFn_fT _ _ _ _ _ _ _ _ _ _ _ _ _ _ _ rfl, by
    decide, by decide, ?_⟩
  simp (disch := decide) only [candidate, candMtx, wBits_word, wBit_word, fT_sb, fT_t, fT_ac_sub, fT_sa_sub,
    fT_aux_sub, fT_s_bit, fT_j_bit, cat_2_2_at_0, cat_8_6_at_0, ty_dec_enc, Option.bind_some,
    BitVec.extractLsb'_eq_self]
  rfl

theorem RoundTrip.jointOperation (p : Prod) (ac : BitVec 2) (t : Ty) (ta : Bool) (tb : Bool) (kc : BitVec 6) :
    RoundTrip.Statement (.jointOperation p ac t ta tb kc) := by
  cases p
  · refine roundTrip_of _ _ false rfl rfl fun e y => ⟨18, 0, wOp_fT .., wFn_fT _ _ _ _ _ _ _ _ _ _ _ _ _ _ _ rfl, by
    decide, by decide, ?_⟩
    simp (disch := decide) only [candidate, jointOf, wBits_word, wBit_word, fT_t, fT_ac_sub, fT_aux_sub, fT_s_bit,
      fT_j_bit, fT_aux_bit, cat_2_2_at_0, cat_1_1_6_6_bit_13, cat_1_1_6_6_bit_12, cat_1_1_6_6_at_0, ty_dec_enc,
      Option.bind_some, ofBool_bit]
    rfl
  · refine roundTrip_of _ _ false rfl rfl fun e y => ⟨18, 1, wOp_fT .., wFn_fT _ _ _ _ _ _ _ _ _ _ _ _ _ _ _ rfl, by
    decide, by decide, ?_⟩
    simp (disch := decide) only [candidate, jointOf, wBits_word, wBit_word, fT_t, fT_ac_sub, fT_aux_sub, fT_s_bit,
      fT_j_bit, fT_aux_bit, cat_2_2_at_0, cat_1_1_6_6_bit_13, cat_1_1_6_6_bit_12, cat_1_1_6_6_at_0, ty_dec_enc,
      Option.bind_some, ofBool_bit]
    rfl
  · refine roundTrip_of _ _ false rfl rfl fun e y => ⟨18, 6, wOp_fT .., wFn_fT _ _ _ _ _ _ _ _ _ _ _ _ _ _ _ rfl, by
    decide, by decide, ?_⟩
    simp (disch := decide) only [candidate, jointOf, wBits_word, wBit_word, fT_t, fT_ac_sub, fT_aux_sub, fT_s_bit,
      fT_j_bit, fT_aux_bit, cat_2_2_at_0, cat_1_1_6_6_bit_13, cat_1_1_6_6_bit_12, cat_1_1_6_6_at_0, ty_dec_enc,
      Option.bind_some, ofBool_bit]
    rfl
  · refine roundTrip_of _ _ false rfl rfl fun e y => ⟨18, 7, wOp_fT .., wFn_fT _ _ _ _ _ _ _ _ _ _ _ _ _ _ _ rfl, by
    decide, by decide, ?_⟩
    simp (disch := decide) only [candidate, jointOf, wBits_word, wBit_word, fT_t, fT_ac_sub, fT_aux_sub, fT_s_bit,
      fT_j_bit, fT_aux_bit, cat_2_2_at_0, cat_1_1_6_6_bit_13, cat_1_1_6_6_bit_12, cat_1_1_6_6_at_0, ty_dec_enc,
      Option.bind_some, ofBool_bit]
    rfl

theorem RoundTrip.acfg (ac : BitVec 2) (i32 : Bool) (rows : BitVec 7) (cols : BitVec 7) (discard : Bool) :
    RoundTrip.Statement (.acfg ac i32 rows cols discard) := by
  refine roundTrip_of _ _ false rfl rfl fun e y => ⟨18, 2, wOp_fT .., wFn_fT _ _ _ _ _ _ _ _ _ _ _ _ _ _ _ rfl, by
    decide, by decide, ?_⟩
  simp (disch := decide) only [candidate, candMtx, wBits_word, wBit_word, fT_t, fT_ac_sub, fT_aux_sub, fT_s_bit,
    fT_j_bit, fT_sa_bit, cat_2_2_at_0, cat_3_1_bit_0, cat_7_7_at_7, cat_7_7_at_0, tyI32_dec_enc, Option.bind_some,
    ofBool_bit]
  rfl

theorem RoundTrip.aczero (ac : BitVec 2) (i32 : Bool) : RoundTrip.Statement (.aczero ac i32) := by
  refine roundTrip_of _ _ false rfl rfl fun e y => ⟨18, 3, wOp_fT .., wFn_fT _ _ _ _ _ _ _ _ _ _ _ _ _ _ _ rfl, by
    decide, by decide, ?_⟩
  simp (disch := decide) only [candidate, candMtx, wBits_word, wBit_word, fT_t, fT_ac_sub, fT_s_bit, fT_j_bit,
    cat_2_2_at_0, tyI32_dec_enc, Option.bind_some]
  rfl

theorem RoundTrip.acdrain (ac : BitVec 2) (sa : BitVec 4) (sb : BitVec 4) (sx : BitVec 4) (t : Ty) (rs : Bool) (cs :
    Bool) (keep : Bool) (r : Rnd) : RoundTrip.Statement (.acdrain ac sa sb sx t rs cs keep r) := by
  refine roundTrip_of _ _ false rfl rfl fun e y => ⟨18, 4, wOp_fT .., wFn_fT _ _ _ _ _ _ _ _ _ _ _ _ _ _ _ rfl, by
    decide, by decide, ?_⟩
  simp (disch := decide) only [candidate, candMtx, wBits_word, wBit_word, fT_sb, fT_sx, fT_t, fT_ac_sub, fT_sa_sub,
    fT_aux_sub, fT_s_bit, fT_j_bit, fT_aux_bit, cat_2_2_at_0, cat_1_1_1_8_3_bit_13, cat_1_1_1_8_3_bit_12,
    cat_1_1_1_8_3_bit_11, cat_1_1_1_8_3_at_0, ty_dec_enc, rnd_dec_enc, Option.bind_some, ofBool_bit,
    BitVec.extractLsb'_eq_self]
  rfl

theorem RoundTrip.acload (ac : BitVec 2) (sa : BitVec 4) (i32 : Bool) : RoundTrip.Statement (.acload ac sa i32) := by
  refine roundTrip_of _ _ false rfl rfl fun e y => ⟨18, 5, wOp_fT .., wFn_fT _ _ _ _ _ _ _ _ _ _ _ _ _ _ _ rfl, by
    decide, by decide, ?_⟩
  simp (disch := decide) only [candidate, candMtx, wBits_word, wBit_word, fT_t, fT_ac_sub, fT_sa_sub, fT_s_bit,
    fT_j_bit, cat_2_2_at_0, tyI32_dec_enc, Option.bind_some, BitVec.extractLsb'_eq_self]
  rfl

theorem RoundTrip.tadd (ac : BitVec 2) (sa : BitVec 4) (t : Ty) (b : BitVec 2) : RoundTrip.Statement (.tadd ac sa t b)
    := by
  refine roundTrip_of _ _ false rfl rfl fun e y => ⟨19, 0, wOp_fT .., wFn_fT _ _ _ _ _ _ _ _ _ _ _ _ _ _ _ rfl, by
    decide, by decide, ?_⟩
  simp (disch := decide) only [candidate, candTile, wBits_word, wBit_word, fT_t, fT_ac_sub, fT_sa_sub, fT_aux_sub,
    fT_s_bit, cat_2_2_at_0, cat_8_2_4_at_4, ty_dec_enc, Option.bind_some, BitVec.extractLsb'_eq_self]
  rfl

theorem RoundTrip.tmul (ac : BitVec 2) (sa : BitVec 4) (t : Ty) (b : BitVec 2) : RoundTrip.Statement (.tmul ac sa t b)
    := by
  refine roundTrip_of _ _ false rfl rfl fun e y => ⟨19, 1, wOp_fT .., wFn_fT _ _ _ _ _ _ _ _ _ _ _ _ _ _ _ rfl, by
    decide, by decide, ?_⟩
  simp (disch := decide) only [candidate, candTile, wBits_word, wBit_word, fT_t, fT_ac_sub, fT_sa_sub, fT_aux_sub,
    fT_s_bit, cat_2_2_at_0, cat_8_2_4_at_4, ty_dec_enc, Option.bind_some, BitVec.extractLsb'_eq_self]
  rfl

theorem RoundTrip.tact (ac : BitVec 2) (f : BitVec 4) : RoundTrip.Statement (.tact ac f) := by
  refine roundTrip_of _ _ false rfl rfl fun e y => ⟨19, 2, wOp_fT .., wFn_fT _ _ _ _ _ _ _ _ _ _ _ _ _ _ _ rfl, by
    decide, by decide, ?_⟩
  simp (disch := decide) only [candidate, candTile, wBits_word, wBit_word, fT_ac_sub, fT_aux_sub, fT_s_bit,
    cat_2_2_at_0, cat_10_4_at_0]
  rfl

theorem RoundTrip.tactd (ac : BitVec 2) (sa : BitVec 4) (t : Ty) (f : BitVec 4) : RoundTrip.Statement (.tactd ac sa t
    f) := by
  refine roundTrip_of _ _ false rfl rfl fun e y => ⟨19, 3, wOp_fT .., wFn_fT _ _ _ _ _ _ _ _ _ _ _ _ _ _ _ rfl, by
    decide, by decide, ?_⟩
  simp (disch := decide) only [candidate, candTile, wBits_word, wBit_word, fT_t, fT_ac_sub, fT_sa_sub, fT_aux_sub,
    fT_s_bit, cat_2_2_at_0, cat_10_4_at_0, ty_dec_enc, Option.bind_some, BitVec.extractLsb'_eq_self]
  rfl

theorem RoundTrip.trms (ac : BitVec 2) (sx : BitVec 4) (t : Ty) (e : BitVec 8) : RoundTrip.Statement (.trms ac sx t e)
    := by
  refine roundTrip_of _ _ false rfl rfl fun e y => ⟨19, 4, wOp_fT .., wFn_fT _ _ _ _ _ _ _ _ _ _ _ _ _ _ _ rfl, by
    decide, by decide, ?_⟩
  simp (disch := decide) only [candidate, candTile, wBits_word, wBit_word, fT_sx, fT_t, fT_ac_sub, fT_aux_sub,
    fT_s_bit, cat_2_2_at_0, cat_6_8_at_0, ty_dec_enc, Option.bind_some]
  rfl

theorem RoundTrip.trmsd (ac : BitVec 2) (sa : BitVec 4) (sx : BitVec 4) (t : Ty) (e : BitVec 8) : RoundTrip.Statement
    (.trmsd ac sa sx t e) := by
  refine roundTrip_of _ _ false rfl rfl fun e y => ⟨19, 5, wOp_fT .., wFn_fT _ _ _ _ _ _ _ _ _ _ _ _ _ _ _ rfl, by
    decide, by decide, ?_⟩
  simp (disch := decide) only [candidate, candTile, wBits_word, wBit_word, fT_sx, fT_t, fT_ac_sub, fT_sa_sub,
    fT_aux_sub, fT_s_bit, cat_2_2_at_0, cat_6_8_at_0, ty_dec_enc, Option.bind_some, BitVec.extractLsb'_eq_self]
  rfl

theorem RoundTrip.tsmax (ac : BitVec 2) (sx : BitVec 4) (norm : Bool) : RoundTrip.Statement (.tsmax ac sx norm) := by
  refine roundTrip_of _ _ false rfl rfl fun e y => ⟨19, 6, wOp_fT .., wFn_fT _ _ _ _ _ _ _ _ _ _ _ _ _ _ _ rfl, by
    decide, by decide, ?_⟩
  simp (disch := decide) only [candidate, candTile, wBits_word, wBit_word, fT_sx, fT_ac_sub, fT_s_bit, fT_aux_bit,
    cat_2_2_at_0, cat_13_1_bit_0, ofBool_bit]
  rfl

theorem RoundTrip.tsmaxd (ac : BitVec 2) (sa : BitVec 4) (t : Ty) : RoundTrip.Statement (.tsmaxd ac sa t) := by
  refine roundTrip_of _ _ false rfl rfl fun e y => ⟨19, 7, wOp_fT .., wFn_fT _ _ _ _ _ _ _ _ _ _ _ _ _ _ _ rfl, by
    decide, by decide, ?_⟩
  simp (disch := decide) only [candidate, candTile, wBits_word, wBit_word, fT_t, fT_ac_sub, fT_sa_sub, fT_s_bit,
    cat_2_2_at_0, ty_dec_enc, Option.bind_some, BitVec.extractLsb'_eq_self]
  rfl

theorem RoundTrip.tscale (ac : BitVec 2) (sa : BitVec 4) (t : Ty) : RoundTrip.Statement (.tscale ac sa t) := by
  refine roundTrip_of _ _ false rfl rfl fun e y => ⟨19, 8, wOp_fT .., wFn_fT _ _ _ _ _ _ _ _ _ _ _ _ _ _ _ rfl, by
    decide, by decide, ?_⟩
  simp (disch := decide) only [candidate, candTile, wBits_word, wBit_word, fT_t, fT_ac_sub, fT_sa_sub, fT_s_bit,
    cat_2_2_at_0, ty_dec_enc, Option.bind_some, BitVec.extractLsb'_eq_self]
  rfl

theorem RoundTrip.vproj (ac : BitVec 2) (sa : BitVec 4) (sb : BitVec 4) (t : Ty) (ta : Bool) (tb : Bool) (kc : BitVec
    6) : RoundTrip.Statement (.vproj ac sa sb t ta tb kc) := by
  refine roundTrip_of _ _ false rfl rfl fun e y => ⟨20, 0, wOp_fT .., wFn_fT _ _ _ _ _ _ _ _ _ _ _ _ _ _ _ rfl, by
    decide, by decide, ?_⟩
  simp (disch := decide) only [candidate, candVoc, wBits_word, wBit_word, fT_sb, fT_t, fT_ac_sub, fT_sa_sub,
    fT_aux_sub, fT_s_bit, fT_aux_bit, cat_2_2_at_0, cat_1_1_6_6_bit_13, cat_1_1_6_6_bit_12, cat_1_1_6_6_at_0,
    ty_dec_enc, Option.bind_some, ofBool_bit, BitVec.extractLsb'_eq_self]
  rfl

theorem RoundTrip.vmerge (sa : BitVec 4) (sb : BitVec 4) (sx : BitVec 4) (rows : BitVec 7) : RoundTrip.Statement
    (.vmerge sa sb sx rows) := by
  refine roundTrip_of _ _ false rfl rfl fun e y => ⟨20, 1, wOp_fT .., wFn_fT _ _ _ _ _ _ _ _ _ _ _ _ _ _ _ rfl, by
    decide, by decide, ?_⟩
  simp (disch := decide) only [candidate, candVoc, wBits_word, wBit_word, fT_sb, fT_sx, fT_sa_sub, fT_aux_sub,
    fT_s_bit, cat_7_7_at_0, BitVec.extractLsb'_eq_self]
  rfl

theorem RoundTrip.vprojd (ac : BitVec 2) (sa : BitVec 4) (sb : BitVec 4) (sx : BitVec 4) (t : Ty) (h : BitVec 4) (dw :
    Bool) (kc : BitVec 6) : RoundTrip.Statement (.vprojd ac sa sb sx t h dw kc) := by
  refine roundTrip_of _ _ false rfl rfl fun e y => ⟨20, 2, wOp_fT .., wFn_fT _ _ _ _ _ _ _ _ _ _ _ _ _ _ _ rfl, by
    decide, by decide, ?_⟩
  simp (disch := decide) only [candidate, candVoc, wBits_word, wBit_word, fT_sb, fT_sx, fT_t, fT_ac_sub, fT_sa_sub,
    fT_aux_sub, fT_s_bit, fT_aux_bit, cat_2_2_at_0, cat_4_1_3_6_at_10, cat_4_1_3_6_bit_9, cat_4_1_3_6_at_0, ty_dec_enc,
    Option.bind_some, ofBool_bit, BitVec.extractLsb'_eq_self]
  rfl

theorem RoundTrip.attn (d : Opnd) (bp : BitVec 4) (off : BitVec 23) : RoundTrip.Statement (.attn d bp off) := by
  refine roundTrip_of _ _ false rfl rfl fun e y => ⟨21, 0, wOp_fQ .., wFn_fQ _ _ _ _ _ _ _ _ _ _ rfl, by decide, by
    decide, ?_⟩
  simp (disch := decide) only [candidate, candAtt, wBits_word, wBit_word, fQ_d, fQ_bp, fQ_imm_sub, fQ_imm_bit,
    cat_1_23_bit_23, cat_1_23_at_0, opnd_dec_enc]
  rfl

theorem RoundTrip.attnd (d : Opnd) (bp : BitVec 4) (a : Opnd) (off : BitVec 23) : RoundTrip.Statement (.attnd d bp a
    off) := by
  refine roundTrip_of _ _ false rfl rfl fun e y => ⟨21, 1, wOp_fQ .., wFn_fQ _ _ _ _ _ _ _ _ _ _ rfl, by decide, by
    decide, ?_⟩
  simp (disch := decide) only [candidate, candAtt, wBits_word, wBit_word, fQ_d, fQ_bp, fQ_a, fQ_imm_sub, fQ_imm_bit,
    cat_1_23_bit_23, cat_1_23_at_0, opnd_dec_enc]
  rfl

theorem RoundTrip.otcfg (d : Opnd) (slot : BitVec 6) (bp : BitVec 4) (off : BitVec 18) : RoundTrip.Statement (.otcfg d
    slot bp off) := by
  refine roundTrip_of _ _ false rfl rfl fun e y => ⟨22, 0, wOp_fQ .., wFn_fQ _ _ _ _ _ _ _ _ _ _ rfl, by decide, by
    decide, ?_⟩
  show candOpen 0 _ = _
  simp (disch := decide) only [candOpen, wBits_word, fQ_d, fQ_bp, fQ_imm_sub, cat_6_18_at_18, cat_6_18_at_0,
    opnd_dec_enc]

theorem RoundTrip.extend (d : Opnd) (slot : BitVec 6) (a : Opnd) : RoundTrip.Statement (.extend d slot a) := by
  refine roundTrip_of _ _ false rfl rfl fun e y => ⟨22, 1, wOp_fQ .., wFn_fQ _ _ _ _ _ _ _ _ _ _ rfl, by decide, by
    decide, ?_⟩
  show candOpen 1 _ = _
  simp (disch := decide) only [candOpen, wBits_word, wImm24_word, fQ_d, fQ_a, fQ_imm_sub, fQ_imm_bit, cat_6_18_at_18,
    cat_6_18_bit_0, opnd_dec_enc]
  rfl

theorem RoundTrip.extendC (d : Opnd) (slot : BitVec 6) (a : Opnd) : RoundTrip.Statement (.extendC d slot a) := by
  refine roundTrip_of _ _ false rfl rfl fun e y => ⟨22, 1, wOp_fQ .., wFn_fQ _ _ _ _ _ _ _ _ _ _ rfl, by decide, by
    decide, ?_⟩
  show candOpen 1 _ = _
  simp (disch := decide) only [candOpen, wBits_word, wImm24_word, fQ_d, fQ_a, fQ_imm_sub, fQ_imm_bit, cat_6_17_1_at_18,
    cat_6_17_1_bit_0, opnd_dec_enc]
  rfl

theorem RoundTrip.revoke (d : Opnd) (a : Opnd) : RoundTrip.Statement (.revoke d a) := by
  refine roundTrip_of _ _ false rfl rfl fun e y => ⟨22, 2, wOp_fQ .., wFn_fQ _ _ _ _ _ _ _ _ _ _ rfl, by decide, by
    decide, ?_⟩
  show candOpen 2 _ = _
  simp (disch := decide) only [candOpen, wBits_word, wImm24_word, fQ_d, fQ_bp, fQ_a, fQ_imm_bit, opnd_dec_enc]
  rfl

theorem RoundTrip.revokeAt (d : Opnd) (a : Opnd) (bp : BitVec 4) : RoundTrip.Statement (.revokeAt d a bp) := by
  refine roundTrip_of _ _ false rfl rfl fun e y => ⟨22, 2, wOp_fQ .., wFn_fQ _ _ _ _ _ _ _ _ _ _ rfl, by decide, by
    decide, ?_⟩
  show candOpen 2 _ = _
  simp (disch := decide) only [candOpen, wBits_word, wImm24_word, fQ_d, fQ_bp, fQ_a, fQ_imm_bit, cat_23_1_bit_0,
    opnd_dec_enc]
  rfl

theorem RoundTrip.rlresume (d : Opnd) (a : Opnd) : RoundTrip.Statement (.rlresume d a) := by
  refine roundTrip_of _ _ false rfl rfl fun e y => ⟨22, 3, wOp_fQ .., wFn_fQ _ _ _ _ _ _ _ _ _ _ rfl, by decide, by
    decide, ?_⟩
  show candOpen 3 _ = _
  simp (disch := decide) only [candOpen, wBits_word, fQ_d, fQ_a, opnd_dec_enc]

theorem RoundTrip.rlstat (d : Opnd) (a : Opnd) : RoundTrip.Statement (.rlstat d a) := by
  refine roundTrip_of _ _ false rfl rfl fun e y => ⟨22, 4, wOp_fQ .., wFn_fQ _ _ _ _ _ _ _ _ _ _ rfl, by decide, by
    decide, ?_⟩
  show candOpen 4 _ = _
  simp (disch := decide) only [candOpen, wBits_word, fQ_d, fQ_a, opnd_dec_enc]

theorem RoundTrip.omap (d : Opnd) (bp : BitVec 4) (off : BitVec 23) (a : Opnd) : RoundTrip.Statement (.omap d bp off a)
    := by
  refine roundTrip_of _ _ false rfl rfl fun e y => ⟨22, 5, wOp_fQ .., wFn_fQ _ _ _ _ _ _ _ _ _ _ rfl, by decide, by
    decide, ?_⟩
  simp (disch := decide) only [candidate, candOpen, wBits_word, wBit_word, fQ_d, fQ_bp, fQ_a, fQ_imm_sub, fQ_imm_bit,
    cat_1_23_bit_23, cat_1_23_at_0, opnd_dec_enc]
  rfl

theorem RoundTrip.standInstall (f : Stand) : RoundTrip.Statement (.standInstall f) := standInstall_roundTrip f

theorem RoundTrip.firingRound  : RoundTrip.Statement (.firingRound) := by
  intro ap e y w _ h
  cases h

theorem RoundTrip.firingRetire (rule : BitVec 5) : RoundTrip.Statement (.firingRetire rule) := by
  intro ap e y w _ h
  cases h

theorem RoundTrip.recbeg (d : Opnd) (bp : BitVec 4) (off : BitVec 24) : RoundTrip.Statement (.recbeg d bp off) := by
  refine roundTrip_of _ _ false rfl rfl fun e y => ⟨23, 0, wOp_fQ .., wFn_fQ _ _ _ _ _ _ _ _ _ _ rfl, by decide, by
    decide, ?_⟩
  show candRec 0 _ = _
  simp (disch := decide) only [candRec, wBits_word, fQ_d, fQ_bp, fQ_imm_sub, opnd_dec_enc, BitVec.extractLsb'_eq_self]

theorem RoundTrip.recend (d : Opnd) : RoundTrip.Statement (.recend d) := by
  refine roundTrip_of _ _ false rfl rfl fun e y => ⟨23, 1, wOp_fQ .., wFn_fQ _ _ _ _ _ _ _ _ _ _ rfl, by decide, by
    decide, ?_⟩
  show candRec 1 _ = _
  simp (disch := decide) only [candRec, wBits_word, fQ_d, opnd_dec_enc]

theorem RoundTrip.reverse (d : Opnd) (bp : BitVec 4) (off : BitVec 24) (a : Opnd) : RoundTrip.Statement (.reverse d bp
    off a) := by
  refine roundTrip_of _ _ false rfl rfl fun e y => ⟨23, 2, wOp_fQ .., wFn_fQ _ _ _ _ _ _ _ _ _ _ rfl, by decide, by
    decide, ?_⟩
  show candRec 2 _ = _
  simp (disch := decide) only [candRec, wBits_word, fQ_d, fQ_bp, fQ_a, fQ_imm_sub, opnd_dec_enc,
    BitVec.extractLsb'_eq_self]

theorem RoundTrip.recflag (d : Opnd) (a : Opnd) : RoundTrip.Statement (.recflag d a) := by
  refine roundTrip_of _ _ false rfl rfl fun e y => ⟨23, 3, wOp_fQ .., wFn_fQ _ _ _ _ _ _ _ _ _ _ rfl, by decide, by
    decide, ?_⟩
  show candRec 3 _ = _
  simp (disch := decide) only [candRec, wBits_word, fQ_d, fQ_a, opnd_dec_enc]

theorem RoundTrip.cpy (d : Opnd) (bp : BitVec 4) (off : BitVec 23) : RoundTrip.Statement (.cpy d bp off) := by
  refine roundTrip_of _ _ false rfl rfl fun e y => ⟨24, 0, wOp_fQ .., wFn_fQ _ _ _ _ _ _ _ _ _ _ rfl, by decide, by
    decide, ?_⟩
  simp (disch := decide) only [candidate, candCopy, wBits_word, wBit_word, fQ_d, fQ_bp, fQ_imm_sub, fQ_imm_bit,
    cat_1_23_bit_23, cat_1_23_at_0, opnd_dec_enc]
  rfl

theorem RoundTrip.cpyg (d : Opnd) (bp : BitVec 4) (off : BitVec 23) : RoundTrip.Statement (.cpyg d bp off) := by
  refine roundTrip_of _ _ false rfl rfl fun e y => ⟨24, 1, wOp_fQ .., wFn_fQ _ _ _ _ _ _ _ _ _ _ rfl, by decide, by
    decide, ?_⟩
  simp (disch := decide) only [candidate, candCopy, wBits_word, wBit_word, fQ_d, fQ_bp, fQ_imm_sub, fQ_imm_bit,
    cat_1_23_bit_23, cat_1_23_at_0, opnd_dec_enc]
  rfl

theorem RoundTrip.cpys (d : Opnd) (bp : BitVec 4) (off : BitVec 23) : RoundTrip.Statement (.cpys d bp off) := by
  refine roundTrip_of _ _ false rfl rfl fun e y => ⟨24, 2, wOp_fQ .., wFn_fQ _ _ _ _ _ _ _ _ _ _ rfl, by decide, by
    decide, ?_⟩
  simp (disch := decide) only [candidate, candCopy, wBits_word, wBit_word, fQ_d, fQ_bp, fQ_imm_sub, fQ_imm_bit,
    cat_1_23_bit_23, cat_1_23_at_0, opnd_dec_enc]
  rfl

theorem RoundTrip.cpymc (d : Opnd) (bp : BitVec 4) (off : BitVec 23) : RoundTrip.Statement (.cpymc d bp off) := by
  refine roundTrip_of _ _ false rfl rfl fun e y => ⟨24, 3, wOp_fQ .., wFn_fQ _ _ _ _ _ _ _ _ _ _ rfl, by decide, by
    decide, ?_⟩
  simp (disch := decide) only [candidate, candCopy, wBits_word, wBit_word, fQ_d, fQ_bp, fQ_imm_sub, fQ_imm_bit,
    cat_1_23_bit_23, cat_1_23_at_0, opnd_dec_enc]
  rfl

theorem RoundTrip.cpred (d : Opnd) (bp : BitVec 4) (off : BitVec 23) : RoundTrip.Statement (.cpred d bp off) := by
  refine roundTrip_of _ _ false rfl rfl fun e y => ⟨24, 4, wOp_fQ .., wFn_fQ _ _ _ _ _ _ _ _ _ _ rfl, by decide, by
    decide, ?_⟩
  simp (disch := decide) only [candidate, candCopy, wBits_word, wBit_word, fQ_d, fQ_bp, fQ_imm_sub, fQ_imm_bit,
    cat_1_23_bit_23, cat_1_23_at_0, opnd_dec_enc]
  rfl

theorem RoundTrip.cpwait (d : Opnd) (ch : BitVec 2) (a : Opnd) : RoundTrip.Statement (.cpwait d ch a) := by
  refine roundTrip_of _ _ false rfl rfl fun e y => ⟨24, 5, wOp_fQ .., wFn_fQ _ _ _ _ _ _ _ _ _ _ rfl, by decide, by
    decide, ?_⟩
  show candCopy 5 _ = _
  simp (disch := decide) only [candCopy, wBits_word, fQ_d, fQ_a, fQ_imm_sub, cat_22_2_at_0, opnd_dec_enc]

theorem RoundTrip.cpdone (d : Opnd) (ch : BitVec 2) (a : Opnd) : RoundTrip.Statement (.cpdone d ch a) := by
  refine roundTrip_of _ _ false rfl rfl fun e y => ⟨24, 6, wOp_fQ .., wFn_fQ _ _ _ _ _ _ _ _ _ _ rfl, by decide, by
    decide, ?_⟩
  show candCopy 6 _ = _
  simp (disch := decide) only [candCopy, wBits_word, fQ_d, fQ_a, fQ_imm_sub, cat_22_2_at_0, opnd_dec_enc]

theorem RoundTrip.copyStart (ch : BitVec 2) : RoundTrip.Statement (.copyStart ch) := by
  intro ap e y w _ h
  cases h

theorem RoundTrip.copyComplete (ch : BitVec 2) (id : Word) : RoundTrip.Statement (.copyComplete ch id) := by
  intro ap e y w _ h
  cases h

theorem RoundTrip.copyFaultDelivery (ch : BitVec 2) : RoundTrip.Statement (.copyFaultDelivery ch) := by
  intro ap e y w _ h
  cases h

theorem RoundTrip.qput (n : BitVec 2) (cl : BitVec 2) (all : Bool) (a : Opnd) : RoundTrip.Statement (.qput n cl all a)
    := by
  refine roundTrip_of _ _ false rfl rfl fun e y => ⟨25, 0, wOp_fA .., wFn_fA _ _ _ _ _ _ _ _ _ _ _ _ _ _ rfl, by
    decide, by decide, ?_⟩
  show candXq 0 _ = _
  simp (disch := decide) only [candXq, wBits_word, wBit_word, fA_a_sub, fA_aux_sub, fA_aux_bit, cat_1_1_2_2_bit_4,
    cat_1_1_2_2_at_2, cat_1_1_2_2_at_0, opnd_dec_enc, ofBool_bit, BitVec.extractLsb'_eq_self]

theorem RoundTrip.qget (s : Sched) (d : Opnd) (n : BitVec 2) : RoundTrip.Statement (.qget s d n) := by
  refine roundTrip_of _ _ s.v rfl rfl fun e y => ⟨25, 1, wOp_fA .., wFn_fA _ _ _ _ _ _ _ _ _ _ _ _ _ _ rfl, by decide,
    by decide, ?_⟩
  show candXq 1 _ = _
  simp (disch := decide) only [candXq, wBits_word, wSched_fA, fA_d_sub, fA_aux_sub, cat_4_2_at_0, opnd_dec_enc,
    BitVec.extractLsb'_eq_self]

theorem RoundTrip.bqput (cl : BitVec 2) (all : Bool) (a : Opnd) : RoundTrip.Statement (.bqput cl all a) := by
  refine roundTrip_of _ _ false rfl rfl fun e y => ⟨25, 2, wOp_fA .., wFn_fA _ _ _ _ _ _ _ _ _ _ _ _ _ _ rfl, by
    decide, by decide, ?_⟩
  show candXq 2 _ = _
  simp (disch := decide) only [candXq, wBits_word, wBit_word, fA_a_sub, fA_aux_sub, fA_aux_bit, cat_1_1_2_2_bit_4,
    cat_1_1_2_2_at_2, opnd_dec_enc, ofBool_bit, BitVec.extractLsb'_eq_self]

theorem RoundTrip.qlvl (s : Sched) (d : Opnd) (n : BitVec 2) (isBq : Bool) : RoundTrip.Statement (.qlvl s d n isBq) :=
    by
  refine roundTrip_of _ _ s.v rfl rfl fun e y => ⟨25, 3, wOp_fA .., wFn_fA _ _ _ _ _ _ _ _ _ _ _ _ _ _ rfl, by decide,
    by decide, ?_⟩
  show candXq 3 _ = _
  simp (disch := decide) only [candXq, wBits_word, wBit_word, wSched_fA, fA_d_sub, fA_aux_sub, fA_aux_bit,
    cat_3_1_2_bit_2, cat_3_1_2_at_0, opnd_dec_enc, ofBool_bit, BitVec.extractLsb'_eq_self]

theorem RoundTrip.spawn (d : Opnd) (bp : BitVec 4) (off : BitVec 24) (a : Opnd) : RoundTrip.Statement (.spawn d bp off
    a) := by
  refine roundTrip_of _ _ false rfl rfl fun e y => ⟨26, 0, wOp_fQ .., wFn_fQ _ _ _ _ _ _ _ _ _ _ rfl, by decide, by
    decide, ?_⟩
  show candSched 0 _ = _
  simp (disch := decide) only [candSched, wBits_word, fQ_d, fQ_bp, fQ_a, fQ_imm_sub, opnd_dec_enc,
    BitVec.extractLsb'_eq_self]

theorem RoundTrip.join (d : Opnd) (bp : BitVec 4) (off : BitVec 24) : RoundTrip.Statement (.join d bp off) := by
  refine roundTrip_of _ _ false rfl rfl fun e y => ⟨26, 1, wOp_fQ .., wFn_fQ _ _ _ _ _ _ _ _ _ _ rfl, by decide, by
    decide, ?_⟩
  show candSched 1 _ = _
  simp (disch := decide) only [candSched, wBits_word, fQ_d, fQ_bp, fQ_imm_sub, opnd_dec_enc, BitVec.extractLsb'_eq_self]

theorem RoundTrip.launch (d : Opnd) (bp : BitVec 4) (off : BitVec 24) (a : Opnd) : RoundTrip.Statement (.launch d bp
    off a) := by
  refine roundTrip_of _ _ false rfl rfl fun e y => ⟨26, 2, wOp_fQ .., wFn_fQ _ _ _ _ _ _ _ _ _ _ rfl, by decide, by
    decide, ?_⟩
  show candSched 2 _ = _
  simp (disch := decide) only [candSched, wBits_word, fQ_d, fQ_bp, fQ_a, fQ_imm_sub, opnd_dec_enc,
    BitVec.extractLsb'_eq_self]

theorem RoundTrip.yield (a : Opnd) : RoundTrip.Statement (.yield a) := by
  refine roundTrip_of _ _ false rfl rfl fun e y => ⟨26, 3, wOp_fQ .., wFn_fQ _ _ _ _ _ _ _ _ _ _ rfl, by decide, by
    decide, ?_⟩
  show candSched 3 _ = _
  simp (disch := decide) only [candSched, wBits_word, fQ_a, opnd_dec_enc]

theorem RoundTrip.slend  : RoundTrip.Statement (.slend) := by
  refine roundTrip_of _ _ false rfl rfl fun e y => ⟨26, 4, wOp_fQ .., wFn_fQ _ _ _ _ _ _ _ _ _ _ rfl, by decide, by
    decide, ?_⟩
  rfl

theorem RoundTrip.unpark (d : Opnd) (bp : BitVec 4) (off : BitVec 24) : RoundTrip.Statement (.unpark d bp off) := by
  refine roundTrip_of _ _ false rfl rfl fun e y => ⟨26, 5, wOp_fQ .., wFn_fQ _ _ _ _ _ _ _ _ _ _ rfl, by decide, by
    decide, ?_⟩
  show candSched 5 _ = _
  simp (disch := decide) only [candSched, wBits_word, fQ_d, fQ_bp, fQ_imm_sub, opnd_dec_enc, BitVec.extractLsb'_eq_self]

theorem RoundTrip.evset (a : Opnd) : RoundTrip.Statement (.evset a) := by
  refine roundTrip_of _ _ false rfl rfl fun e y => ⟨27, 0, wOp_fA .., wFn_fA _ _ _ _ _ _ _ _ _ _ _ _ _ _ rfl, by
    decide, by decide, ?_⟩
  show candEvt 0 _ = _
  simp (disch := decide) only [candEvt, wBits_word, wAux_word, fA_a_sub, fA_aux_bit, opnd_dec_enc,
    BitVec.extractLsb'_eq_self]
  rfl

theorem RoundTrip.evsetErr (a : Opnd) : RoundTrip.Statement (.evsetErr a) := by
  refine roundTrip_of _ _ false rfl rfl fun e y => ⟨27, 0, wOp_fA .., wFn_fA _ _ _ _ _ _ _ _ _ _ _ _ _ _ rfl, by
    decide, by decide, ?_⟩
  show candEvt 0 _ = _
  simp (disch := decide) only [candEvt, wBits_word, wAux_word, fA_a_sub, fA_aux_bit, cat_5_1_bit_0, opnd_dec_enc,
    BitVec.extractLsb'_eq_self]
  rfl

theorem RoundTrip.evclr (a : Opnd) : RoundTrip.Statement (.evclr a) := by
  refine roundTrip_of _ _ false rfl rfl fun e y => ⟨27, 1, wOp_fA .., wFn_fA _ _ _ _ _ _ _ _ _ _ _ _ _ _ rfl, by
    decide, by decide, ?_⟩
  show candEvt 1 _ = _
  simp (disch := decide) only [candEvt, wBits_word, fA_a_sub, opnd_dec_enc, BitVec.extractLsb'_eq_self]

theorem RoundTrip.evwait (s : Sched) (d : Opnd) (a : Opnd) : RoundTrip.Statement (.evwait s d a) := by
  refine roundTrip_of _ _ s.v rfl rfl fun e y => ⟨27, 2, wOp_fA .., wFn_fA _ _ _ _ _ _ _ _ _ _ _ _ _ _ rfl, by decide,
    by decide, ?_⟩
  show candEvt 2 _ = _
  simp (disch := decide) only [candEvt, wBits_word, wSched_fA, fA_d_sub, fA_a_sub, opnd_dec_enc,
    BitVec.extractLsb'_eq_self]

theorem RoundTrip.evtest (s : Sched) (d : Opnd) (a : Opnd) : RoundTrip.Statement (.evtest s d a) := by
  refine roundTrip_of _ _ s.v rfl rfl fun e y => ⟨27, 3, wOp_fA .., wFn_fA _ _ _ _ _ _ _ _ _ _ _ _ _ _ rfl, by decide,
    by decide, ?_⟩
  show candEvt 3 _ = _
  simp (disch := decide) only [candEvt, wBits_word, wSched_fA, fA_d_sub, fA_a_sub, opnd_dec_enc,
    BitVec.extractLsb'_eq_self]

theorem RoundTrip.bar  : RoundTrip.Statement (.bar) := by
  refine roundTrip_of _ _ false rfl rfl fun e y => ⟨27, 4, wOp_fA .., wFn_fA _ _ _ _ _ _ _ _ _ _ _ _ _ _ rfl, by
    decide, by decide, ?_⟩
  rfl

theorem RoundTrip.barG  : RoundTrip.Statement (.barG) := by
  refine roundTrip_of _ _ false rfl rfl fun e y => ⟨27, 5, wOp_fA .., wFn_fA _ _ _ _ _ _ _ _ _ _ _ _ _ _ rfl, by
    decide, by decide, ?_⟩
  rfl

theorem RoundTrip.pqpush (s : Sched) (d : Opnd) (b : Opnd) (x : Opnd) (n : BitVec 3) : RoundTrip.Statement (.pqpush s d
    b x n) := by
  refine roundTrip_of _ _ s.v rfl rfl fun e y => ⟨28, 0, wOp_fA .., wFn_fA _ _ _ _ _ _ _ _ _ _ _ _ _ _ rfl, by decide,
    by decide, ?_⟩
  show candPq 0 _ = _
  simp (disch := decide) only [candPq, wBits_word, wSched_fA, fA_x, fA_d_sub, fA_b_sub, fA_aux_sub, cat_3_3_at_0,
    opnd_dec_enc, BitVec.extractLsb'_eq_self]

theorem RoundTrip.pqpop (s : Sched) (d : Opnd) (n : BitVec 3) : RoundTrip.Statement (.pqpop s d n) := by
  refine roundTrip_of _ _ s.v rfl rfl fun e y => ⟨28, 1, wOp_fA .., wFn_fA _ _ _ _ _ _ _ _ _ _ _ _ _ _ rfl, by decide,
    by decide, ?_⟩
  show candPq 1 _ = _
  simp (disch := decide) only [candPq, wBits_word, wSched_fA, fA_d_sub, fA_aux_sub, cat_3_3_at_0, opnd_dec_enc,
    BitVec.extractLsb'_eq_self]

theorem RoundTrip.pqlen (s : Sched) (d : Opnd) (n : BitVec 3) : RoundTrip.Statement (.pqlen s d n) := by
  refine roundTrip_of _ _ s.v rfl rfl fun e y => ⟨28, 2, wOp_fA .., wFn_fA _ _ _ _ _ _ _ _ _ _ _ _ _ _ rfl, by decide,
    by decide, ?_⟩
  show candPq 2 _ = _
  simp (disch := decide) only [candPq, wBits_word, wSched_fA, fA_d_sub, fA_aux_sub, cat_3_3_at_0, opnd_dec_enc,
    BitVec.extractLsb'_eq_self]

theorem RoundTrip.rdsr (s : Sched) (d : Opnd) (n : BitVec 8) : RoundTrip.Statement (.rdsr s d n) := by
  refine roundTrip_of _ _ s.v rfl rfl fun e y => ⟨29, 0, wOp_fI .., wFn_fI _ _ _ _ _ _ _ _ _ rfl, by decide, by decide,
    ?_⟩
  show candSpr 0 _ = _
  simp (disch := decide) only [candSpr, wBits_word, wSched_fI, fI_d, fI_imm_sub, cat_24_8_at_0, opnd_dec_enc]

theorem RoundTrip.wrsr (a : Opnd) (n : BitVec 8) : RoundTrip.Statement (.wrsr a n) := by
  refine roundTrip_of _ _ false rfl rfl fun e y => ⟨29, 1, wOp_fI .., wFn_fI _ _ _ _ _ _ _ _ _ rfl, by decide, by
    decide, ?_⟩
  show candSpr 1 _ = _
  simp (disch := decide) only [candSpr, wBits_word, fI_a, fI_imm_sub, cat_24_8_at_0, opnd_dec_enc]

theorem RoundTrip.clrf (m : BitVec 7) : RoundTrip.Statement (.clrf m) := by
  refine roundTrip_of _ _ false rfl rfl fun e y => ⟨29, 2, wOp_fI .., wFn_fI _ _ _ _ _ _ _ _ _ rfl, by decide, by
    decide, ?_⟩
  show candSpr 2 _ = _
  simp (disch := decide) only [candSpr, wBits_word, fI_imm_sub, cat_25_7_at_0]

theorem RoundTrip.kvxl (s : Sched) (d : Opnd) (bp : BitVec 4) (off : BitVec 24) (a : Opnd) : RoundTrip.Statement (.kvxl
    s d bp off a) := by
  refine roundTrip_of _ _ s.v rfl rfl fun e y => ⟨30, 0, wOp_fQ .., wFn_fQ _ _ _ _ _ _ _ _ _ _ rfl, by decide, by
    decide, ?_⟩
  show candKv 0 _ = _
  simp (disch := decide) only [candKv, wBits_word, wSched_fQ, fQ_d, fQ_bp, fQ_a, fQ_imm_sub, opnd_dec_enc,
    BitVec.extractLsb'_eq_self]

theorem RoundTrip.kvfork (s : Sched) (d : Opnd) (bp : BitVec 4) (off : BitVec 24) (a : Opnd) : RoundTrip.Statement
    (.kvfork s d bp off a) := by
  refine roundTrip_of _ _ s.v rfl rfl fun e y => ⟨30, 1, wOp_fQ .., wFn_fQ _ _ _ _ _ _ _ _ _ _ rfl, by decide, by
    decide, ?_⟩
  show candKv 1 _ = _
  simp (disch := decide) only [candKv, wBits_word, wSched_fQ, fQ_d, fQ_bp, fQ_a, fQ_imm_sub, opnd_dec_enc,
    BitVec.extractLsb'_eq_self]

theorem RoundTrip.kvgrow (s : Sched) (d : Opnd) (bp : BitVec 4) (off : BitVec 24) (a : Opnd) : RoundTrip.Statement
    (.kvgrow s d bp off a) := by
  refine roundTrip_of _ _ s.v rfl rfl fun e y => ⟨30, 2, wOp_fQ .., wFn_fQ _ _ _ _ _ _ _ _ _ _ rfl, by decide, by
    decide, ?_⟩
  show candKv 2 _ = _
  simp (disch := decide) only [candKv, wBits_word, wSched_fQ, fQ_d, fQ_bp, fQ_a, fQ_imm_sub, opnd_dec_enc,
    BitVec.extractLsb'_eq_self]

theorem RoundTrip.kvcommit (s : Sched) (d : Opnd) (bp : BitVec 4) (off : BitVec 24) (a : Opnd) : RoundTrip.Statement
    (.kvcommit s d bp off a) := by
  refine roundTrip_of _ _ s.v rfl rfl fun e y => ⟨30, 3, wOp_fQ .., wFn_fQ _ _ _ _ _ _ _ _ _ _ rfl, by decide, by
    decide, ?_⟩
  show candKv 3 _ = _
  simp (disch := decide) only [candKv, wBits_word, wSched_fQ, fQ_d, fQ_bp, fQ_a, fQ_imm_sub, opnd_dec_enc,
    BitVec.extractLsb'_eq_self]

theorem RoundTrip.memoryDataArrival  : RoundTrip.Statement (.memoryDataArrival) := by
  intro ap e y w _ h
  cases h

theorem RoundTrip.translationWalkComplete  : RoundTrip.Statement (.translationWalkComplete) := by
  intro ap e y w _ h
  cases h

theorem RoundTrip.correctionFreezeEnd  : RoundTrip.Statement (.correctionFreezeEnd) := by
  intro ap e y w _ h
  cases h

theorem RoundTrip.weightStoreRefresh (bank : BitVec 6) : RoundTrip.Statement (.weightStoreRefresh bank) := by
  intro ap e y w _ h
  cases h

theorem RoundTrip.partitionResetComplete (part : BitVec 4) : RoundTrip.Statement (.partitionResetComplete part) := by
  intro ap e y w _ h
  cases h

theorem RoundTrip.invalidationComplete (part : BitVec 4) : RoundTrip.Statement (.invalidationComplete part) := by
  intro ap e y w _ h
  cases h

theorem RoundTrip.watchdog  : RoundTrip.Statement (.watchdog) := by
  intro ap e y w _ h
  cases h

theorem RoundTrip.budgetExhausted  : RoundTrip.Statement (.budgetExhausted) := by
  intro ap e y w _ h
  cases h

theorem RoundTrip.serviceTimer (part : BitVec 4) : RoundTrip.Statement (.serviceTimer part) := by
  intro ap e y w _ h
  cases h

theorem RoundTrip.engineOpComplete  : RoundTrip.Statement (.engineOpComplete) := by
  intro ap e y w _ h
  cases h

theorem RoundTrip.engineFaultDelivery  : RoundTrip.Statement (.engineFaultDelivery) := by
  intro ap e y w _ h
  cases h

theorem RoundTrip.withheldRecordWrite (part : BitVec 4) : RoundTrip.Statement (.withheldRecordWrite part) := by
  intro ap e y w _ h
  cases h

theorem RoundTrip.machineCheck (sub : Byte) : RoundTrip.Statement (.machineCheck sub) := by
  intro ap e y w _ h
  cases h

theorem RoundTrip.serviceRequest (sub : Byte) : RoundTrip.Statement (.serviceRequest sub) := by
  intro ap e y w _ h
  cases h

theorem RoundTrip.stopRequest  : RoundTrip.Statement (.stopRequest) := by
  intro ap e y w _ h
  cases h

theorem RoundTrip.stopForShares  : RoundTrip.Statement (.stopForShares) := by
  intro ap e y w _ h
  cases h

theorem RoundTrip.contextSwitchComplete  : RoundTrip.Statement (.contextSwitchComplete) := by
  intro ap e y w _ h
  cases h

theorem RoundTrip.contextSaveComplete  : RoundTrip.Statement (.contextSaveComplete) := by
  intro ap e y w _ h
  cases h

theorem RoundTrip.gangSelect  : RoundTrip.Statement (.gangSelect) := by
  intro ap e y w _ h
  cases h

theorem RoundTrip.gangEnd  : RoundTrip.Statement (.gangEnd) := by
  intro ap e y w _ h
  cases h

theorem RoundTrip.thermalThrottleWindow (hot : BitVec 16) (diePower : Nat) (modulePower : Nat) : RoundTrip.Statement
    (.thermalThrottleWindow hot diePower modulePower) := by
  intro ap e y w _ h
  cases h

theorem RoundTrip.shareThrottleWindow (part : BitVec 4) (lpBytes : Nat) (wsBytes : Nat) (othersWait : Bool) :
    RoundTrip.Statement (.shareThrottleWindow part lpBytes wsBytes othersWait) := by
  intro ap e y w _ h
  cases h

theorem RoundTrip.wearSample (die : BitVec 5) (wear : List (BitVec 16)) : RoundTrip.Statement (.wearSample die wear) :=
    by
  intro ap e y w _ h
  cases h

theorem RoundTrip.mailboxBusy  : RoundTrip.Statement (.mailboxBusy) := by
  intro ap e y w _ h
  cases h

theorem RoundTrip.mailboxUnsupported (op : BitVec 16) : RoundTrip.Statement (.mailboxUnsupported op) := by
  intro ap e y w _ h
  cases h

theorem RoundTrip.identify (h : MbHdr) : RoundTrip.Statement (.identify h) := by
  intro ap e y w _ h
  cases h

theorem RoundTrip.loadImage (h : MbHdr) (src : DWord) (len : Word) : RoundTrip.Statement (.loadImage h src len) := by
  intro ap e y w _ h
  cases h

theorem RoundTrip.retireImage (h : MbHdr) (addr : DWord) : RoundTrip.Statement (.retireImage h addr) := by
  intro ap e y w _ h
  cases h

theorem RoundTrip.modelDefine (h : MbHdr) (slot : Byte) (mask : Byte) (zero : BitVec 48) (size : DWord) :
    RoundTrip.Statement (.modelDefine h slot mask zero size) := by
  intro ap e y w _ h
  cases h

theorem RoundTrip.weightWrite (h : MbHdr) (slot : Byte) (zero : BitVec 24) (dies : Word) (src : DWord) (off : DWord)
    (len : DWord) : RoundTrip.Statement (.weightWrite h slot zero dies src off len) := by
  intro ap e y w _ h
  cases h

theorem RoundTrip.modelBind (h : MbHdr) (slot : Byte) (zero : BitVec 56) (sig : List Byte) : RoundTrip.Statement
    (.modelBind h slot zero sig) := by
  intro ap e y w _ h
  cases h

theorem RoundTrip.modelUnbind (h : MbHdr) : RoundTrip.Statement (.modelUnbind h) := by
  intro ap e y w _ h
  cases h

theorem RoundTrip.partitionResume (h : MbHdr) : RoundTrip.Statement (.partitionResume h) := by
  intro ap e y w _ h
  cases h

theorem RoundTrip.attest (h : MbHdr) (nonce : List Byte) : RoundTrip.Statement (.attest h nonce) := by
  intro ap e y w _ h
  cases h

theorem RoundTrip.ownerKey (h : MbHdr) (key : List Byte) : RoundTrip.Statement (.ownerKey h key) := by
  intro ap e y w _ h
  cases h

theorem RoundTrip.window (h : MbHdr) (base : DWord) (size : DWord) : RoundTrip.Statement (.window h base size) := by
  intro ap e y w _ h
  cases h

theorem RoundTrip.linkConfig (h : MbHdr) (pkg : BitVec 16) (zero : BitVec 16) (ports : Word) : RoundTrip.Statement
    (.linkConfig h pkg zero ports) := by
  intro ap e y w _ h
  cases h

theorem RoundTrip.linkRoute (h : MbHdr) (dest : BitVec 16) (zero : BitVec 16) (mask : Word) : RoundTrip.Statement
    (.linkRoute h dest zero mask) := by
  intro ap e y w _ h
  cases h

theorem RoundTrip.exportEntry (h : MbHdr) (entry : Byte) (flags : Byte) (srcPart : Byte) (zero : Byte) (srcPkg : BitVec
    16) (zero2 : BitVec 16) (base : DWord) (size : DWord) : RoundTrip.Statement (.exportEntry h entry flags srcPart
    zero srcPkg zero2 base size) := by
  intro ap e y w _ h
  cases h

theorem RoundTrip.linkStatus (h : MbHdr) : RoundTrip.Statement (.linkStatus h) := by
  intro ap e y w _ h
  cases h

theorem RoundTrip.hostMemAccess (hpa : Nat) (acc : ExtAcc) : RoundTrip.Statement (.hostMemAccess hpa acc) := by
  intro ap e y w _ h
  cases h

theorem RoundTrip.unsupportedRequest  : RoundTrip.Statement (.unsupportedRequest) := by
  intro ap e y w _ h
  cases h

theorem RoundTrip.remoteAccess (srcPkg : BitVec 11) (srcPart : BitVec 4) (pa : Nat) (acc : ExtAcc) :
    RoundTrip.Statement (.remoteAccess srcPkg srcPart pa acc) := by
  intro ap e y w _ h
  cases h

theorem RoundTrip.flitForward (dest : BitVec 11) (lane : BitVec 4) (hops : Nat) : RoundTrip.Statement (.flitForward
    dest lane hops) := by
  intro ap e y w _ h
  cases h

theorem RoundTrip.linkPortDown (port : BitVec 5) : RoundTrip.Statement (.linkPortDown port) := by
  intro ap e y w _ h
  cases h

theorem RoundTrip.linkTrainTimeout (port : BitVec 5) : RoundTrip.Statement (.linkTrainTimeout port) := by
  intro ap e y w _ h
  cases h

theorem RoundTrip.partitionEnable (part : BitVec 4) (on : Bool) : RoundTrip.Statement (.partitionEnable part on) := by
  intro ap e y w _ h
  cases h

theorem RoundTrip.partitionReset (part : BitVec 4) : RoundTrip.Statement (.partitionReset part) := by
  intro ap e y w _ h
  cases h

theorem RoundTrip.writeErrorClear (part : BitVec 4) : RoundTrip.Statement (.writeErrorClear part) := by
  intro ap e y w _ h
  cases h

theorem RoundTrip.contextDefine (ctx : BitVec 6) (control : Word) : RoundTrip.Statement (.contextDefine ctx control) :=
    by
  intro ap e y w _ h
  cases h

theorem RoundTrip.serviceDoorbell (part : BitVec 4) (val : Word) : RoundTrip.Statement (.serviceDoorbell part val) := by
  intro ap e y w _ h
  cases h

theorem RoundTrip.invalidationCommand (part : BitVec 4) (val : Word) : RoundTrip.Statement (.invalidationCommand part
    val) := by
  intro ap e y w _ h
  cases h

theorem RoundTrip.counterClear (die : BitVec 5) (off : Byte) : RoundTrip.Statement (.counterClear die off) := by
  intro ap e y w _ h
  cases h

theorem RoundTrip.registerWrite (off : BitVec 18) (wide : Bool) (val : DWord) : RoundTrip.Statement (.registerWrite off
    wide val) := by
  intro ap e y w _ h
  cases h

theorem RoundTrip.frzAssert  : RoundTrip.Statement (.frzAssert) := by
  intro ap e y w _ h
  cases h

theorem RoundTrip.frzRelease  : RoundTrip.Statement (.frzRelease) := by
  intro ap e y w _ h
  cases h

theorem RoundTrip.readHealth (off : Word) (len : Word) (crcOk : Bool) : RoundTrip.Statement (.readHealth off len crcOk)
    := by
  intro ap e y w _ h
  cases h

theorem RoundTrip.readScan (seg : Word) (off : Word) (len : Word) (crcOk : Bool) : RoundTrip.Statement (.readScan seg
    off len crcOk) := by
  intro ap e y w _ h
  cases h

theorem RoundTrip.scanSize (seg : Word) (crcOk : Bool) : RoundTrip.Statement (.scanSize seg crcOk) := by
  intro ap e y w _ h
  cases h

theorem RoundTrip.debugUnknownCommand (code : Byte) (crcOk : Bool) : RoundTrip.Statement (.debugUnknownCommand code
    crcOk) := by
  intro ap e y w _ h
  cases h

theorem RoundTrip.debugAbort  : RoundTrip.Statement (.debugAbort) := by
  intro ap e y w _ h
  cases h

theorem RoundTrip.debugStallTimeout  : RoundTrip.Statement (.debugStallTimeout) := by
  intro ap e y w _ h
  cases h

theorem RoundTrip.coldReset  : RoundTrip.Statement (.coldReset) := by
  intro ap e y w _ h
  cases h

theorem RoundTrip.hotReset  : RoundTrip.Statement (.hotReset) := by
  intro ap e y w _ h
  cases h

theorem RoundTrip.linkPortTrained (port : BitVec 5) : RoundTrip.Statement (.linkPortTrained port) := by
  intro ap e y w _ h
  cases h

theorem RoundTrip.memoryPortLinkDown (port : BitVec 2) : RoundTrip.Statement (.memoryPortLinkDown port) := by
  intro ap e y w _ h
  cases h

theorem RoundTrip.packagePowerLoss  : RoundTrip.Statement (.packagePowerLoss) := by
  intro ap e y w _ h
  cases h

end Sys2Proof.Laws
end

