-- ==== Sys2Proof/Safety.lean ====
section
/-! DEFINITION. What counts as a safe run, in the terms claims use: an operand that can be read, a step that changes
nothing but the bundle at issue, and the invariant of memory. -/

namespace Sys2Proof.Machine

/-- The memory invariant: the listed cells are in canonical form. -/
abbrev MemOk (s : State) : Prop := s.mem.wf = true

/-- The operand can be read by the bundle at issue: nothing it depends on is in flight or marked (R25, R26, R145). -/
abbrev Readable (s : State) (o : Opnd) (r : RdW) : Prop := s.check o r = .ok ()

/-- `t` differs from `s` in nothing but the buffer of the bundle at issue and the numbering of results: every register,
queue, flag, mask and special register of every agent, every byte of memory and all the rest of the machine are as
they were. -/
def OnlyBuffer (s t : State) : Prop :=
  t = { s with bank := { s.bank with
          uid := t.bank.uid
          agents := s.bank.agents.set s.turn { s.cur with bun := t.cur.bun } } }

/-- No access of an agent stands out of the order of its request: no write and no read is pending, nothing is held since it was
read early, and no instruction to come leaves a write or a read pending (R162, R166). -/
abbrev Orderly (s : State) : Prop :=
  s.pend = [] ∧ s.reads = [] ∧ s.held = [] ∧ s.oracle.late = [] ∧ s.oracle.lateReads = []

/-- The translation of the address is at hand: it needs none, or a TLB holds it (R405). -/
abbrev Mapped (s : State) (va : DWord) : Prop := 30 ≤ va.toNat / 2 ^ 52 ∨ (s.tlbFind s.cx va.toNat).isSome = true

/-- A `cpyg` or `cpys` requested before by the access processor, which is at issue, has still to write to the home and lane of a
key: it holds a plain store there back (R167). -/
abbrev Owes (s : State) (key : Nat) : Prop :=
  s.turn = apId ∧ ∃ c ∈ s.workBank.copiesOf, c.kind.indexed = true ∧ c.seq < s.workBank.uid ∧
    (homeOf key, keyLane key) ∈ s.copyLanes ((s.workBank.run.map fun r => r.ctx).getD 0) s.workBank.run c

/-- No such copy is left, wherever it writes. -/
abbrev NoneOwed (s : State) : Prop := s.turn = apId → ∀ c ∈ s.workBank.copiesOf, c.kind.indexed = false

/-- Agent `b` differs from `a` in nothing but the buffer of its bundle, the values of its results in flight, and its deferred
errors: every register, flag, mask and special register, its program counter and its loops are as they were. -/
def AccessAgent (a b : Agent) : Prop :=
  b = { a with bun := b.bun, latches := b.latches, sq := b.sq, vq := b.vq, deferred := b.deferred }

/-- `t` differs from `s` in nothing but the agents as accesses change them, the numbering of results, memory, and what stands
between its agents and memory: pending writes and reads, what has been read early, releases and walks. Where no access was
pending, of the agents only the buffer and the deferred errors of the one at issue may have changed. -/
def OnlyAccess (s t : State) : Prop :=
  t = { s with
    bank := { s.bank with
      uid := t.bank.uid
      agents := t.bank.agents }
    mem := t.mem
    pend := t.pend
    reads := t.reads
    held := t.held
    rels := t.rels
    walks := t.walks
    oracle := { s.oracle with late := t.oracle.late, lateReads := t.oracle.lateReads } } ∧
  (∀ a : AgentId, AccessAgent (s.agent a) (t.agent a)) ∧
  (s.pend = [] → s.reads = [] →
    t.bank.agents = s.bank.agents.set s.turn { s.cur with bun := t.cur.bun, deferred := t.cur.deferred })

/-- A 64-byte block is readable at the address: the access passes checks 1 to 5 at the key, and checks 6 and 7. -/
abbrev BlockRead (s : State) (va : DWord) (key n : Nat) : Prop :=
  s.access .read va n 0 = .ok key ∧ s.served key false = true ∧ s.mem.poisonAt key n = none

/-- The buffer of the bundle at issue with one more result that is a token: its latch, and its queue position unless the
destination is level 11. -/
def withToken (s : State) (d : Opnd) (wide : Bool) (v : DWord) (r : Ready) : Bun :=
  { s.cur.bun with
    latches := ⟨s.bank.uid, .token, d, wide, v, 0, r, 0, none, (false, false)⟩ :: s.cur.bun.latches
    scal := if d.discards then s.cur.bun.scal else ⟨s.bank.uid, v, r, none⟩ :: s.cur.bun.scal }

/-- The instruction's operation has entered the engine's queue as its last, with the next sequence number and the
properties `f`, and its token is pending; of the rest of the machine only the claims of streams and the agent's pending
tag may have changed. -/
def Enters (s t : State) (i : Instr) (d : Opnd) (wide : Bool) (f : EngOp → Prop) : Prop :=
  ∃ (o : EngOp) (tag : DWord),
    o.ins = i ∧ o.seq = s.bank.seq ∧ o.uid = s.bank.uid ∧ o.owner = s.turn ∧ o.pc = s.cur.bun.ipc ∧ o.rule = none ∧ f o ∧
    t = { s with bank := { s.bank with
            eng := s.bank.eng ++ [o]
            seq := s.bank.seq + 1
            uid := s.bank.uid + 1
            streams := t.bank.streams
            agents := s.bank.agents.set s.turn
              { s.cur with bun := withToken s d wide 0 .token, tag := tag } } }

/-- The instructions whose whole effect, when they run, is on the buffer of their bundle: results, a mask, a special
register, flags to clear, or control. -/
def bufferOnly : Instr → Bool
  | .nop | .trap .. | .tfence | .sret | .halt
  | .add .. | .sub .. | .mul .. | .mulh .. | .div .. | .divn .. | .rem .. | .remn .. | .and .. | .or .. | .xor ..
  | .shl .. | .shr .. | .sra .. | .min .. | .max .. | .minn .. | .maxn .. | .clz .. | .ctz .. | .popc .. | .seq ..
  | .sne .. | .slt .. | .sltn .. | .sel .. | .bfx .. | .bfi ..
  | .addi .. | .andi .. | .ori .. | .xori .. | .shli .. | .shri .. | .srai .. | .movi .. | .slti .. | .sltni ..
  | .muli ..
  | .add64 .. | .sub64 .. | .mov64 .. | .shl64 .. | .slt64n .. | .addi64 .. | .movi64 .. | .sethi ..
  | .br .. | .bz .. | .bnz .. | .call .. | .ret .. | .jmp .. | .brq .. | .lbrk .. | .ldrain .. | .lidx ..
  | .pref ..
  | .vadd .. | .vsub .. | .vmul .. | .vmin .. | .vmax .. | .vabs .. | .vand .. | .vor .. | .vxor .. | .vshl ..
  | .vshr .. | .vsra .. | .vadds .. | .vsubs .. | .vcmpeq .. | .vcmplt .. | .vcmple ..
  | .vfadd .. | .vfsub .. | .vfmul .. | .vfma .. | .vfms .. | .vfmin .. | .vfmax .. | .vfabs .. | .vfneg ..
  | .vfcmpeq .. | .vfcmplt .. | .vfcmple .. | .vfcmpun ..
  | .vrcp .. | .vrsqrt .. | .vsqrt .. | .vexp2 .. | .vlog2 .. | .vdiv .. | .vrope .. | .vrng ..
  | .vcvt .. | .vpack .. | .vunpk .. | .vpk6 .. | .vupk6 .. | .vtrit .. | .vtritp ..
  | .vbcast .. | .vext .. | .vins .. | .vperm .. | .vred .. | .vscan .. | .vsortk .. | .vcompress ..
  | .mand .. | .mor .. | .mxor .. | .mnot .. | .mset .. | .mget .. | .mpop .. | .mfirst .. | .mbit ..
  | .qlvl .. | .pqlen .. | .rdsr .. | .wrsr .. | .clrf .. => true
  | _ => false

/-- The instructions that read memory or order it, store nothing themselves, and otherwise have their whole effect on the
buffer of their bundle. -/
def readsOnly : Instr → Bool
  | .ld .. | .vld .. | .vldg .. | .kvxl .. | .fenceM .. | .fenceX .. | .acqAll .. | .relAll .. | .evwait .. | .evtest ..
  | .yield .. | .slend => true
  | _ => false

/-! ## Lanes and floats, as the manual writes them -/

/-- The element of a lane as an integer: its low w bits, signed for i types, natural for n types (R115, R119). -/
def laneInt (t : Ty) (x : Word) : Int :=
  if t.isLaneSigned then Int.bmod x.toNat (2 ^ tyBits t) else (x.toNat % 2 ^ tyBits t : Nat)

/-- The lane that holds an integer modulo 2^w, filled above by the sign for i types and with zeros otherwise (R115). -/
def asLane (t : Ty) (x : Int) : Word :=
  BitVec.ofInt 32 (if t.isLaneSigned then Int.bmod x (2 ^ tyBits t) else x % 2 ^ tyBits t)

/-- A vector whose active lanes `f` gives and whose other lanes are zero (R116). -/
def lanesUnder (act : BitVec 16) (f : Nat → Word) : Vec := mkVec fun i => if act.getLsbD i then f i else 0

/-- A vector result of lanes with flags: the flags of its active lanes together (R74, R116). -/
def lanesWith (s : State) (sc : Sched) (d : Opnd) (n : Nat) (m : Gov) (f : Nat → Word × BitVec 7) :
    Host.Outcome State Fault Refusal :=
  .next (s.putV sc d n (lanesUnder (s.active m) fun i => (f i).1)
    (((List.range 16).filter fun i => (s.active m).getLsbD i).foldl (fun x i => x ||| (f i).2) 0))

/-- The value of a finite float. -/
def ratOf (neg : Bool) (m : Nat) (e : Int) : ℚ := (if neg then -1 else 1) * m * 2 ^ e

end Sys2Proof.Machine
end

