-- ==== Sys2Proof/Certificates/Slice0/Obligations.lean ====
section
/-! DEFINITION. The statements for the provers, each from the rules of spec/ that its docstring names. -/

open Sys2Proof Sys2Proof.Machine

/-! ## Encoding and the step -/

/-- For every encoded instruction of the machine: the word the encoder gives for a well-formed instruction, with its E
and Y bits, decodes to that instruction with those bits, on every agent that may issue it, every operand at every value
its encoding admits. -/
def Obligations.DecodeEncode : Prop :=
  ∀ i : Instr, Laws.RoundTrip.Statement i

/-- Words written out bit by bit from the format tables of 02_encoding.md (R40 to R45), the worked encodings of that file
among them, decode to the instructions they stand for.

The sample words of R55 that are no instructions, and which check of R54 each fails: V = 11; OP = 0x20; SYS with
FN = 7; `nop` with D = k0; `nop` with C = 1; and a slot-V word on the access processor, which R51 forbids it. -/
def Obligations.DecodeWords : Prop :=
  (-- F-A: V 00, E 1, Y 0, C 0100, OP SALU, D g6, A g2, B g5, X 0, FN 0, T 0, M 0, MI 0, AUX 0
  decode false 0b00_1_0_0100_000001_1000110_1000010_1000101_0000000_00000000_0000_000_0_000000#64
      = .ok ⟨.add ⟨false, 4⟩ (.g 6) (.g 2) (.g 5), true, false⟩ ∧
  -- F-M: OP MEM, D g8, BP 5, FN 0, SZ 2, SC 0, ORD 0, M 0, OFF24 0x40
  decode false 0b00_1_0_0000_000111_1001000_0101_0000_010_000_00_000_000000000000000001000000#64
      = .ok ⟨.ld ⟨false, 0⟩ (.g 8) 5 .w .clu false 0x40, true, false⟩ ∧
  -- F-B: OP BR, P g3, FN 2, AUX6 0, hint 0, DISP32 -4
  decode false 0b00_1_0_0000_000101_1000011_010_000000_00_11111111111111111111111111111100#64
      = .ok ⟨.bnz (.g 3) 0 0xFFFFFFFC, true, false⟩ ∧
  -- F-B: OP LOOP, P g4, FN 0, AUX6 01_0001, hint 0, DISP32 5
  decode false 0b00_1_0_0000_000110_1000100_000_010001_00_00000000000000000000000000000101#64
      = .ok ⟨.loop (.g 4) (some 1) 0 5, true, false⟩ ∧
  -- F-I: OP SALUI, D g4, A g4, FN 0 addi, IMM32 -1
  decode true 0b00_1_0_0000_000010_1000100_1000100_0000_11111111111111111111111111111111#64
      = .ok ⟨.addi ⟨false, 0⟩ (.g 4) (.g 4) 0xFFFFFFFF, true, false⟩ ∧
  -- F-T: OP MTX, AC 1, SA 2, SB 3, SX 0, OT 0, S 0, J 0, FN 1 tmm, T 12 t3, AUX14 0
  decode false 0b00_1_0_0000_010010_0001_0010_0011_0000_000000_0_0_00000001_1100_00000000000000#64
      = .ok ⟨.tmm 1 2 3 false false 0, true, false⟩ ∧
  -- F-Q: OP COPY on the access processor, D q, BP 2, A 0, FN 0 cpy, IMM24 0x40
  decode true 0b00_1_0_0000_011000_0000000_0010_0000000_00000000_000000000000000001000000#64
      = .ok ⟨.cpy (.q 0) 2 0x40, true, false⟩ ∧
  -- the all-zero word
  decode false 0#64 = .ok ⟨.nop, false, false⟩) ∧
  (decode false 0xFFFFFFFFFFFFFFFF#64 = .error { cause := 0x02, check := 1 } ∧
  decode false 0x2080000000000000#64 = .error { cause := 0x01, check := 2 } ∧
  decode false 0x200000000001C000#64 = .error { cause := 0x01, check := 3 } ∧
  decode false 0x2001000000000000#64 = .error { cause := 0x02, check := 5 } ∧
  decode false 0x2100000000000000#64 = .error { cause := 0x02, check := 5 } ∧
  decode true 0x2028000000000000#64 = .error { cause := 0x03, check := 4 })

/-- Where the word at the program counter of the agent at issue is a whole bundle, the step of the machine is the
execution of the decoded instruction on an empty buffer, the bundle's commit, and the next agent's turn; nothing from
outside, no event of the package or the core, no walk and no locked bundle that others have still to issue comes before it,
nor, where it holds a `trap`, another member's trap (R327).

What of this the manual leaves open is the model's own choice, by log entries 3, 11, 12, 13 and 67. -/
def Obligations.StepRunsDecoded : Prop :=
  ∀ (s t : State) (w : DWord) (i : Instr),
    s.powered = true → s.dbg.frz = false → s.outside = [] → s.inbox = [] → s.boots = false → s.clockwork = none →
    s.due = none → s.boundary = none → s.freezes = [] → s.walkLate = false → s.phase = .running →
    s.cur.halted = false → s.cur.stopped = false → s.cur.locked ≠ some s.pt → s.mirrorBad = false →
    s.fetch 0 = .ok w → decode s.onAp w = .ok ⟨i, true, false⟩ →
    s.levelOk i = true → isJoint i = false → i.boundOk = true →
    s.spansExit (s.cur.pc + 8) = false → s.bankCycles i ≤ s.cur.banked →
    exec i ((s.startBundle (s.cur.pc + 8) false).atWord s.cur.pc) = .next t → t.verdict = .ok → t.latchesFit = true →
    (t.cur.bun.traps = false ∨ s.gangStop = none) →
    step s = .next t.commitBundle.afterTurn

/-! ## Operands and results -/

/-- The special operands (R15): `zero`, `one`, `idx` and `ones` as a word, as a pair and as a vector, with `one` the
pattern of 1 in the lane's type, an integer's or a float's. -/
def Obligations.SpecialOperands : Prop :=
  ∀ (s : State) (one : Word) (n : Nat), n < 16 →
    s.val32 (.sp 0) = 0 ∧ s.val32 (.sp 1) = 1 ∧ (s.val32 (.sp 2)).toNat = s.turn.val ∧ s.val32 (.sp 3) = 0xFFFFFFFF ∧
    s.val64 (.sp 0) = 0 ∧ s.val64 (.sp 1) = 1 ∧ (s.val64 (.sp 2)).toNat = s.turn.val ∧
    s.val64 (.sp 3) = 0xFFFFFFFFFFFFFFFF ∧
    lane (s.valV one (.sp 0)) n = 0 ∧ lane (s.valV one (.sp 1)) n = one ∧
    (lane (s.valV one (.sp 2)) n).toNat = n ∧ lane (s.valV one (.sp 3)) n = 0xFFFFFFFF ∧
    tyOne .f32 = 0x3F800000 ∧ tyOne .f16 = 0x3C00 ∧ tyOne .bf16 = 0x3F80 ∧ tyOne .e4m3 = 0x38 ∧ tyOne .e5m2 = 0x3C ∧
    tyOne .f6 = 0x0C ∧ ∀ t : Ty, t.isLaneInt = true → tyOne t = 1

/-- A read of an operand on which a result still in flight depends (R25): if no result it depends on is a token that has
not landed, and one of them is readable only after the present program time, the read is refused with cause 0x04 at
the reading bundle; if one is a token still to land, the bundle waits (R26).

A bundle that reads a marked register as an operand raises the mark's cause with its address (R145), here for a main
register with no result in flight.

What of this the manual leaves open is the model's own choice, by log entries 13, 57 and 68. -/
def Obligations.OperandReads : Prop :=
  (∀ (s : State) (o : Opnd) (r : RdW),
    ((∃ t, Ready.at t ∈ s.cur.readyOf o r ∧ s.pt < t) → Ready.token ∉ s.cur.readyOf o r →
      ∃ q : TrapReq, s.check o r = .error (.trap q) ∧ q.cause = 0x04 ∧ q.agent = s.turn ∧ q.pc = s.cur.pc) ∧
    (Ready.token ∈ s.cur.readyOf o r → s.check o r = .error (.wait .token))) ∧
  (∀ (s : State) (i : BitVec 5) (m : Mark) (l : List RegMark),
    s.cur.latches = [] → s.cur.marks = ⟨.g i, false, m⟩ :: l →
    ∃ q : TrapReq, s.check (.g i) .w32 = .error (.trap q) ∧ q.cause = m.cause ∧ q.addr = m.addr ∧ q.pc = s.cur.pc ∧
      q.agent = s.turn)

/-- What a result does to the bundle's buffer (R17, R24, R30): it takes a latch with its destination, its flags and the
program time at which it becomes readable, which is t + L, or t plus the nominal bound where the destination is level
11; and it takes the newest position of its class's queue unless the destination is level 11. Nothing else of the
machine changes. -/
def Obligations.ResultEntersBuffer : Prop :=
  ∀ (s : State) (sc : Sched) (d : Opnd) (n : Nat) (v : Word) (x : DWord) (y : Vec) (f : BitVec 7),
    let at' : Ready := .at (s.pt +
      if d.discards ∨ sc.c = 0 then n else if sc.v then 4 * sc.c.toNat else sc.c.toNat)
    let b := s.cur.bun
    OnlyBuffer s (s.putF sc d n v f) ∧ OnlyBuffer s (s.put64 sc d n x) ∧ OnlyBuffer s (s.putV sc d n y f) ∧
    (s.putF sc d n v f).cur.bun = { b with
      latches := ⟨s.bank.uid, .scalar, d, false, v.setWidth 64, 0, at', f, none, (false, false)⟩ :: b.latches
      scal := if d.discards then b.scal else ⟨s.bank.uid, v.setWidth 64, at', none⟩ :: b.scal } ∧
    (s.put64 sc d n x).cur.bun = { b with
      latches := ⟨s.bank.uid, .pair, d, true, x, 0, at', 0, none, (false, false)⟩ :: b.latches
      scal := if d.discards then b.scal else ⟨s.bank.uid, x, at', none⟩ :: b.scal } ∧
    (s.putV sc d n y f).cur.bun = { b with
      latches := ⟨s.bank.uid, .vector, d, false, 0, y, at', f, none, (false, false)⟩ :: b.latches
      vecs := if d.discards then b.vecs else ⟨s.bank.uid, y, at', none⟩ :: b.vecs }

/-- What an issued bundle leaves (R17, R21, R30, R97, R106): its results stand in front of the queues, which keep the 16
newest; its latches join the agent's; a bundle without control goes on at its next address when no loop level is open;
registers, accrued flags that `clrf` does not name, and memory are as they were.

A bundle with `halt` leaves its agent halted at its own address, one with `trap n` raises cause 0x15 with subcode n,
the bundle's PC and the next address to resume at (R111, R114).

What of this the manual leaves open is the model's own choice, by log entries 12 and 23. -/
def Obligations.BundleCommit : Prop :=
  (∀ (s : State), s.cur.bun.ctl = .fall → s.cur.loops = [] → s.cur.bun.srw = none → s.cur.bun.mask = none →
    s.cur.bun.ends = none →
    let t := s.commitBundle
    t.cur.sq = (s.cur.bun.scal ++ s.cur.sq).take 16 ∧ t.cur.vq = (s.cur.bun.vecs ++ s.cur.vq).take 16 ∧
    t.cur.latches = s.cur.latches ++ s.cur.bun.latches.reverse ∧ t.cur.pc = s.cur.bun.npc ∧
    t.cur.aflags = s.cur.aflags &&& ~~~(s.cur.bun.clr.setWidth 32) ∧
    t.cur.g = s.cur.g ∧ t.cur.k = s.cur.k ∧ t.cur.v = s.cur.v ∧ t.cur.vk = s.cur.vk ∧ t.cur.m = s.cur.m ∧
    t.cur.atrap = s.cur.atrap ∧ t.cur.rope = s.cur.rope ∧ t.cur.rngkey = s.cur.rngkey ∧
    t.mem = s.mem ∧ ∀ a : AgentId, a ≠ s.turn → t.agent a = s.agent a) ∧
  (∀ (s : State), s.cur.loops = [] → s.cur.bun.srw = none → s.cur.bun.ends = none →
    (s.cur.bun.ctl = .halt → s.commitBundle.cur.halted = true ∧ s.commitBundle.cur.pc = s.cur.pc) ∧
    (∀ n, s.cur.bun.ctl = .trapAfter n → ∃ u : State, u.cur.pc = s.cur.bun.npc ∧ u.mem = s.mem ∧
      s.commitBundle = u.takeTrap { u.trapAt 0x15 (n.setWidth 8) 0 with
          pc := s.cur.pc, resume := s.cur.bun.npc, past := true }))

/-- A result lands when its bound has elapsed (R25, R109): a scalar result for gN that is the agent's only latch is in gN
from program time t + L on, with its flags in `sr.aflags`; before, neither changes. No other main register changes.

An older write whose bound elapses later never overwrites a younger one (R25): of two results for gN, the older
readable at `n` and the younger at an earlier `m`, gN holds the younger's value once both have landed. -/
def Obligations.ResultLands : Prop :=
  (∀ (a : Agent) (uid n pt : Nat) (i j : BitVec 5) (v : Word) (f : BitVec 7),
    a.latches = [⟨uid, .scalar, .g i, false, v.setWidth 64, 0, .at n, f, none, (false, false)⟩] →
    (n ≤ pt → (a.commit pt).g[i.toNat] = v ∧ (a.commit pt).aflags = a.aflags ||| f.setWidth 32 ∧
      (a.commit pt).latches = []) ∧
    (pt < n → (a.commit pt).g = a.g ∧ (a.commit pt).aflags = a.aflags ∧ (a.commit pt).latches = a.latches) ∧
    (j ≠ i → (a.commit pt).g[j.toNat] = a.g[j.toNat]) ∧ (a.commit pt).k = a.k ∧ (a.commit pt).v = a.v ∧
    (a.commit pt).vk = a.vk ∧ (a.commit pt).m = a.m) ∧
  (∀ (a : Agent) (u1 u2 n m : Nat) (i : BitVec 5) (v w : Word) (f g : BitVec 7), m < n →
    a.latches = [⟨u1, .scalar, .g i, false, v.setWidth 64, 0, .at n, f, none, (false, false)⟩,
      ⟨u2, .scalar, .g i, false, w.setWidth 64, 0, .at m, g, none, (false, false)⟩] →
    ((a.commit m).commit n).g[i.toNat] = w ∧ (a.commit m).g[i.toNat] = w)

/-! ## Scalar arithmetic -/

/-- The SALU instructions of two operands (R91): what each delivers, with its nominal bound, and no flag.

Counting bits (R91): `clz`, `ctz` and `popc` for every operand.

`sel`, and the bit fields of R93, for every control value: the field starts at c[4:0] and is
w = min(c[13:8], 32, 32 - c[4:0]) bits wide. `bfx` delivers its bits at bit 0, with the field's top bit above them where it
is sign-extended and zeros otherwise; `bfi` replaces the field by b[w-1:0] and leaves the other bits of a.

Division (R92): quotients truncate toward zero, remainders take the dividend's sign, a divisor of zero delivers all
ones or the dividend and raises DZ, and the most negative number divided by -1 wraps without a flag. -/
def Obligations.ScalarResults : Prop :=
  (∀ (s : State) (sc : Sched) (d a b : Opnd), Readable s a .w32 → Readable s b .w32 →
    let x := s.val32 a
    let y := s.val32 b
    exec (.add sc d a b) s = .next (s.put sc d 2 (BitVec.ofNat 32 (x.toNat + y.toNat))) ∧
    exec (.sub sc d a b) s = .next (s.put sc d 2 (BitVec.ofInt 32 (x.toInt - y.toInt))) ∧
    exec (.mul sc d a b) s = .next (s.put sc d 4 (BitVec.ofInt 32 (x.toInt * y.toInt))) ∧
    exec (.mulh sc d a b false) s = .next (s.put sc d 4 (BitVec.ofInt 32 (x.toInt * y.toInt / 2 ^ 32))) ∧
    exec (.mulh sc d a b true) s = .next (s.put sc d 4 (BitVec.ofNat 32 (x.toNat * y.toNat / 2 ^ 32))) ∧
    exec (.and sc d a b) s = .next (s.put sc d 2 (x &&& y)) ∧
    exec (.or sc d a b) s = .next (s.put sc d 2 (x ||| y)) ∧
    exec (.xor sc d a b) s = .next (s.put sc d 2 (x ^^^ y)) ∧
    exec (.shl sc d a b) s = .next (s.put sc d 2 (BitVec.ofNat 32 (x.toNat * 2 ^ (y.toNat % 32)))) ∧
    exec (.shr sc d a b) s = .next (s.put sc d 2 (BitVec.ofNat 32 (x.toNat / 2 ^ (y.toNat % 32)))) ∧
    exec (.sra sc d a b) s = .next (s.put sc d 2 (BitVec.ofInt 32 (x.toInt / 2 ^ (y.toNat % 32)))) ∧
    exec (.min sc d a b) s = .next (s.put sc d 2 (BitVec.ofInt 32 (Min.min x.toInt y.toInt))) ∧
    exec (.max sc d a b) s = .next (s.put sc d 2 (BitVec.ofInt 32 (Max.max x.toInt y.toInt))) ∧
    exec (.minn sc d a b) s = .next (s.put sc d 2 (BitVec.ofNat 32 (Min.min x.toNat y.toNat))) ∧
    exec (.maxn sc d a b) s = .next (s.put sc d 2 (BitVec.ofNat 32 (Max.max x.toNat y.toNat))) ∧
    exec (.seq sc d a b) s = .next (s.put sc d 2 (if x = y then 1 else 0)) ∧
    exec (.sne sc d a b) s = .next (s.put sc d 2 (if x ≠ y then 1 else 0)) ∧
    exec (.slt sc d a b) s = .next (s.put sc d 2 (if x.toInt < y.toInt then 1 else 0)) ∧
    exec (.sltn sc d a b) s = .next (s.put sc d 2 (if x.toNat < y.toNat then 1 else 0))) ∧
  (∀ (s : State) (sc : Sched) (d a : Opnd), Readable s a .w32 →
    let x := s.val32 a
    (∃ n : Nat, n ≤ 32 ∧ exec (.clz sc d a) s = .next (s.put sc d 2 (BitVec.ofNat 32 n)) ∧
      (∀ i, i < n → x.getLsbD (31 - i) = false) ∧ (n < 32 → x.getLsbD (31 - n) = true)) ∧
    (∃ n : Nat, n ≤ 32 ∧ exec (.ctz sc d a) s = .next (s.put sc d 2 (BitVec.ofNat 32 n)) ∧
      (∀ i, i < n → x.getLsbD i = false) ∧ (n < 32 → x.getLsbD n = true)) ∧
    exec (.popc sc d a) s
      = .next (s.put sc d 2 (BitVec.ofNat 32 ((List.range 32).countP fun i => x.getLsbD i)))) ∧
  (∀ (s : State) (sc : Sched) (d a b x : Opnd), Readable s a .w32 → Readable s b .w32 → Readable s x .w32 →
    exec (.sel sc d a b x) s = .next (s.put sc d 2 (if s.val32 x ≠ 0 then s.val32 a else s.val32 b)) ∧
    (let c := (s.val32 b).toNat
     let p := c % 32
     let w := Min.min (Min.min (c / 256 % 64) 32) (32 - p)
     ∀ sx : Bool, ∃ r : Word, exec (.bfx sc d a b sx) s = .next (s.put sc d 2 r) ∧
       (w = 0 → r = 0) ∧
       ∀ i, i < 32 → 0 < w →
         r.getLsbD i = if i < w then (s.val32 a).getLsbD (p + i) else sx && (s.val32 a).getLsbD (p + w - 1)) ∧
    (let c := (s.val32 x).toNat
     let p := c % 32
     let w := Min.min (Min.min (c / 256 % 64) 32) (32 - p)
     ∃ r : Word, exec (.bfi sc d a b x) s = .next (s.put sc d 2 r) ∧
       ∀ i, i < 32 → r.getLsbD i = if p ≤ i ∧ i < p + w then (s.val32 b).getLsbD (i - p) else (s.val32 a).getLsbD i)) ∧
  (∀ (s : State) (sc : Sched) (d a b : Opnd), Readable s a .w32 → Readable s b .w32 →
    let x := s.val32 a
    let y := s.val32 b
    (y = 0 →
      exec (.div sc d a b) s = .next (s.putF sc d 14 0xFFFFFFFF 0x02) ∧
      exec (.divn sc d a b) s = .next (s.putF sc d 14 0xFFFFFFFF 0x02) ∧
      exec (.rem sc d a b) s = .next (s.putF sc d 14 x 0x02) ∧
      exec (.remn sc d a b) s = .next (s.putF sc d 14 x 0x02)) ∧
    (y ≠ 0 →
      exec (.divn sc d a b) s = .next (s.put sc d 14 (BitVec.ofNat 32 (x.toNat / y.toNat))) ∧
      exec (.remn sc d a b) s = .next (s.put sc d 14 (BitVec.ofNat 32 (x.toNat % y.toNat))) ∧
      ∃ q r : Int, exec (.div sc d a b) s = .next (s.put sc d 14 (BitVec.ofInt 32 q)) ∧
        exec (.rem sc d a b) s = .next (s.put sc d 14 (BitVec.ofInt 32 r)) ∧
        x.toInt = q * y.toInt + r ∧ r.natAbs < y.toInt.natAbs ∧ (0 ≤ x.toInt → 0 ≤ r) ∧ (x.toInt ≤ 0 → r ≤ 0)) ∧
    (x = 0x80000000 → y = 0xFFFFFFFF →
      exec (.div sc d a b) s = .next (s.put sc d 14 0x80000000) ∧ exec (.rem sc d a b) s = .next (s.put sc d 14 0)))

/-- The immediate forms (R94) deliver what the SALU operation of the same name delivers with IMM32 in place of b.

The pair instructions (R95, R96): 64-bit values modulo 2^64, a 32-bit shift amount of which B[5:0] counts, a 32-bit
comparison result, and the immediates sign-extended. -/
def Obligations.ImmediatesAndPairs : Prop :=
  (∀ (s : State) (sc : Sched) (d a : Opnd) (imm : Word) (n : BitVec 5), Readable s a .w32 →
    let x := s.val32 a
    exec (.addi sc d a imm) s = .next (s.put sc d 2 (BitVec.ofNat 32 (x.toNat + imm.toNat))) ∧
    exec (.andi sc d a imm) s = .next (s.put sc d 2 (x &&& imm)) ∧
    exec (.ori sc d a imm) s = .next (s.put sc d 2 (x ||| imm)) ∧
    exec (.xori sc d a imm) s = .next (s.put sc d 2 (x ^^^ imm)) ∧
    exec (.shli sc d a n) s = .next (s.put sc d 2 (BitVec.ofNat 32 (x.toNat * 2 ^ n.toNat))) ∧
    exec (.shri sc d a n) s = .next (s.put sc d 2 (BitVec.ofNat 32 (x.toNat / 2 ^ n.toNat))) ∧
    exec (.srai sc d a n) s = .next (s.put sc d 2 (BitVec.ofInt 32 (x.toInt / 2 ^ n.toNat))) ∧
    exec (.movi sc d imm) s = .next (s.put sc d 2 imm) ∧
    exec (.slti sc d a imm) s = .next (s.put sc d 2 (if x.toInt < imm.toInt then 1 else 0)) ∧
    exec (.sltni sc d a imm) s = .next (s.put sc d 2 (if x.toNat < imm.toNat then 1 else 0)) ∧
    exec (.muli sc d a imm) s = .next (s.put sc d 4 (BitVec.ofInt 32 (x.toInt * imm.toInt)))) ∧
  (∀ (s : State) (sc : Sched) (d a b c : Opnd) (imm : Word),
    Readable s a .w64 → Readable s b .w64 → Readable s c .w32 →
    let x := s.val64 a
    let y := s.val64 b
    exec (.add64 sc d a b) s = .next (s.put64 sc d 3 (BitVec.ofNat 64 (x.toNat + y.toNat))) ∧
    exec (.sub64 sc d a b) s = .next (s.put64 sc d 3 (BitVec.ofInt 64 (x.toInt - y.toInt))) ∧
    exec (.mov64 sc d a) s = .next (s.put64 sc d 2 x) ∧
    exec (.shl64 sc d a c) s = .next (s.put64 sc d 3 (BitVec.ofNat 64 (x.toNat * 2 ^ ((s.val32 c).toNat % 64)))) ∧
    exec (.slt64n sc d a b) s = .next (s.put sc d 3 (if x.toNat < y.toNat then 1 else 0)) ∧
    exec (.addi64 sc d a imm) s = .next (s.put64 sc d 2 (BitVec.ofInt 64 (x.toInt + imm.toInt))) ∧
    exec (.movi64 sc d imm) s = .next (s.put64 sc d 2 (BitVec.ofInt 64 imm.toInt)) ∧
    exec (.sethi sc d c imm) s = .next (s.put64 sc d 2 (BitVec.ofNat 64 (imm.toNat * 2 ^ 32 + (s.val32 c).toNat))))

/-! ## Control -/

/-- The branches (R97, R98, R99): a relative target is the branch's own address plus 8 x DISP32, a target from a register
has bits 2 to 0 forced to zero, the target is taken when the bundle has issued, `call` delivers the bundle's next address,
and `brq` takes the head of bq and waits while bq is empty. -/
def Obligations.Branches : Prop :=
  ∀ (s : State) (sc : Sched) (p q : Opnd) (h : BitVec 2) (disp : Word),
    Readable s p .w32 → Readable s q .w64 →
    let here := s.cur.bun.ipc + BitVec.ofInt 64 (8 * disp.toInt)
    let there := BitVec.ofNat 64 ((s.val64 q).toNat / 8 * 8)
    let goes := fun t => s.mapBun fun b => { b with ctl := .jump t }
    exec (.br h disp) s = .next (goes here) ∧
    exec (.bz p h disp) s = .next (if s.val32 p = 0 then goes here else s) ∧
    exec (.bnz p h disp) s = .next (if s.val32 p ≠ 0 then goes here else s) ∧
    exec (.call sc p h disp) s
      = .next ((s.put64 sc p 1 s.cur.bun.npc).mapBun fun b => { b with ctl := .jump here }) ∧
    exec (.ret q h) s = .next (goes there) ∧
    exec (.jmp q h disp) s = .next (goes (there + BitVec.ofInt 64 (8 * disp.toInt))) ∧
    (∀ (e : Bool) (es : List Bool), s.cur.bq = e :: es →
      exec (.brq h disp) s = .next (s.mapBun fun b =>
        { b with bqPop := true, ctl := if e then .jump here else b.ctl })) ∧
    (s.cur.bq = [] → exec (.brq h disp) s = .next { s with verdict := .stall .bq })

/-- `loop` (R100): the count is P, or the extent of the bound table level where P is written `zero`, and 0 where it is not
bound; the first index is the saved count of the bound level, which the `loop` consumes; a count that the first index
has reached makes it a taken branch to the exit address; otherwise it opens a level, unless four are open or the table
level is bound already, which raises cause 0x14.

`lbrk`, `ldrain` and `lidx` (R102, R103, R105): a taken `lbrk` closes the innermost level at the bundle's end, one
with no level open raises cause 0x14 with subcode 0x02; `ldrain` stops the agent only while a drain is pending; `lidx` of
a temporal level delivers the index of the open loop bound to it, or all ones.

The loop unit at an end bundle that falls through (R101): while the innermost level ends there and its index is below
its count after the advance, the next bundle is the body's first; otherwise the level closes, and the same test meets
the next level. The levels of `done`, which end there, have run out. The level that a stop request drains starts no
iteration (R104): it closes, the index it has reached is its table level's saved count, and a drain is pending.

What of this the manual leaves open is the model's own choice, by log entries 17 and 43. -/
def Obligations.HardwareLoops : Prop :=
  (∀ (s : State) (p : Opnd) (lv : Option (BitVec 4)) (h : BitVec 2) (disp : Word), Readable s p .w32 →
    let exit' := s.cur.bun.ipc + BitVec.ofInt 64 (8 * disp.toInt)
    let n := if p = .sp 0 then ((lv.bind s.tableLevel).map (·.extent)).getD 0 else (s.val32 p).toNat
    let first := (lv.bind fun k => s.cur.saved.lookup k).getD 0
    let used := s.mapCur fun a => { a with saved := a.saved.filter fun x => some x.1 != lv }
    let dup := lv.isSome ∧ ∃ l ∈ s.cur.loops, l.bind = lv
    (n ≤ first → exec (.loop p lv h disp) s = .next (used.mapBun fun b => { b with ctl := .jump exit' })) ∧
    (first < n → s.cur.loops.length < 4 → ¬dup →
      exec (.loop p lv h disp) s
        = .next (used.mapBun fun b => { b with ctl := .open ⟨s.cur.bun.npc, exit', first, n, lv, false⟩ })) ∧
    (first < n → 4 ≤ s.cur.loops.length → exec (.loop p lv h disp) s
      = .next { s.takeTrap (s.trapAt 0x14 0x01 0) with verdict := .trapped false }) ∧
    (first < n → s.cur.loops.length < 4 → dup → exec (.loop p lv h disp) s
      = .next { s.takeTrap (s.trapAt 0x14 0x03 0) with verdict := .trapped false })) ∧
  (∀ (s : State) (sc : Sched) (p d : Opnd) (n : BitVec 4) (h : BitVec 2) (disp : Word), Readable s p .w32 →
    let there := s.cur.bun.ipc + BitVec.ofInt 64 (8 * disp.toInt)
    (s.cur.loops ≠ [] → exec (.lbrk p h disp) s
      = .next (if s.val32 p = 0 then s else s.mapBun fun b => { b with ctl := .lbrk there })) ∧
    (s.cur.loops = [] → exec (.lbrk p h disp) s
      = .next { s.takeTrap (s.trapAt 0x14 0x02 0) with verdict := .trapped false }) ∧
    exec (.ldrain h disp) s
      = .next (if s.cur.drainPend then s.mapBun fun b => { b with ctl := .drained there } else s) ∧
    (∃ x, exec (.lidx sc d n h) s = .next (s.put sc d 1 x) ∧
      ∀ r l, s.bank.run = some r → r.img.levels[n.toNat]? = some l → l.kind = 0 →
        x = match s.cur.loops.find? fun y => y.bind == some n with
          | some y => BitVec.ofNat 32 y.index
          | none => 0xFFFFFFFF)) ∧
  (∀ (a : Agent) (done rest : List LoopLvl) (l : LoopLvl) (npc : DWord),
    (∀ x ∈ done, x.exit = npc ∧ x.drain = false ∧ x.count ≤ x.index + 1) →
    (l.exit = npc → l.drain = false → l.index + 1 < l.count →
      loopGo (done ++ l :: rest) npc = ({ l with index := l.index + 1 } :: rest, l.start, none)) ∧
    (l.exit ≠ npc → loopGo (done ++ l :: rest) npc = (l :: rest, npc, none)) ∧
    loopGo done npc = ([], npc, none) ∧
    (l.exit = npc → l.drain = true → a.loops = done ++ l :: rest →
      (a.fallThrough npc).loops = rest ∧ (a.fallThrough npc).pc = npc ∧ (a.fallThrough npc).drainPend = true ∧
      ∀ n, l.bind = some n → (a.fallThrough npc).saved.lookup n = some (l.index + 1)))

/-! ## System instructions and special registers -/

/-- `nop`, `trap`, `halt` and `brk` (R111, R114): `nop` does nothing; `trap n` and `halt` act when their bundle has
issued; `brk n` raises cause 0x16 with subcode n at its bundle.

`tfence` (R110): it waits while a result of its agent is in flight; then it raises cause 0x0B with the enabled flags
that stand as subcode, and does nothing where none stands.

`sret` (R112): in a service slice it ends the slice when its bundle has issued; outside one it raises cause 0x07.

`tlbinv` (R113, R406): in a supervisor context it drops from the TLBs the translations of A in context B, of context
B, or of the partition, and what walks in flight would leave there of them, whatever the size of the page, and whom such a walk
had frozen goes on; it waits
while an agent's access is pending, a copy has started or an output piece is still to be written; outside a supervisor context, with a context that is not the partition's, or with scope 2
and B not zero it raises cause 0x07.

What of this the manual leaves open is the model's own choice, by log entries 18 and 48. -/
def Obligations.SystemInstructions : Prop :=
  (∀ (s : State) (n : BitVec 6),
    exec .nop s = .next s ∧
    exec (.trap n) s = .next (s.mapBun fun b => { b with ctl := .trapAfter n }) ∧
    exec .halt s = .next (s.mapBun fun b => { b with ctl := .halt }) ∧
    exec (.brk n) s = .next { s.takeTrap (s.trapAt 0x16 (n.setWidth 8) 0) with verdict := .trapped false }) ∧
  (∀ (s : State),
    let e : BitVec 7 := (s.cur.aflags &&& s.cur.atrap).setWidth 7
    (s.cur.latches ≠ [] → exec .tfence s = .next { s with verdict := .stall .latch }) ∧
    (s.cur.latches = [] → e = 0 → exec .tfence s = .next s) ∧
    (s.cur.latches = [] → e ≠ 0 →
      exec .tfence s = .next { s.takeTrap (s.trapAt 0x0B (e.setWidth 8) 0) with verdict := .trapped false })) ∧
  (∀ (s : State) (r : Run), s.bank.run = some r →
    (r.service = true → exec .sret s = .next (s.mapBun fun b => { b with ctl := .swapBack })) ∧
    (r.service = false →
      exec .sret s = .next { s.takeTrap (s.trapAt 0x07 0 0) with verdict := .trapped false })) ∧
  (∀ (s : State) (a b : Opnd) (sc : BitVec 2), Readable s a .w64 → Readable s b .w32 → sc ≠ 3 →
    let cx : BitVec 6 := (s.val32 b).setWidth 6
    let mine := (s.val32 b).toNat < 64 ∧ s.ctxs[cx.toNat].defined = true ∧ s.ctxs[cx.toNat].part = s.part
    let hit := fun (e : TlbEnt) =>
      if sc = 0 then e.ctx = cx ∧ e.va ≤ (s.val64 a).toNat ∧ (s.val64 a).toNat < e.va + e.size
      else if sc = 1 then e.ctx = cx else s.ctxs[e.ctx.toNat].part = s.part
    let hitWalk := fun (e : Walk) =>
      if sc = 0 then (∀ p, e.ent = some p → hit p) ∧
        (e.ent = none → e.ctx = cx ∧ e.va / 4096 = (s.val64 a).toNat / 4096)
      else if sc = 1 then e.ctx = cx else s.ctxs[e.ctx.toNat].part = s.part
    let quiet := s.pend = [] ∧ s.reads = [] ∧ ∀ u : Bank, u = s.bank ∨ s.shadow = some u →
      (∀ c ∈ u.chans.toList, c.started = []) ∧ ∀ x ∈ u.streams.toList, x.outq = []
    (s.supervisor = true → (if sc = 2 then s.val32 b = 0 else mine) → quiet →
      ∃ l w v z, exec (.tlbinv a b sc) s = .next { s with tlb := l, walks := w, walk := v, freezes := z } ∧
        (∀ e, e ∈ l ↔ e ∈ s.tlb ∧ ¬hit e) ∧ (∀ e, e ∈ w ↔ e ∈ s.walks ∧ ¬hitWalk e) ∧
        (∀ e, v = some e ↔ s.walk = some e ∧ ¬hitWalk e) ∧
        (w = [] → v = none → ∀ f, f ∈ z ↔ f ∈ s.freezes ∧ f.why ≠ .walk) ∧ ∀ f ∈ s.freezes, f.why ≠ .walk → f ∈ z) ∧
    (s.supervisor = true → (if sc = 2 then s.val32 b = 0 else mine) → ¬quiet →
      exec (.tlbinv a b sc) s = .next { s with verdict := .stall (.fence [] none) }) ∧
    ((s.supervisor = false ∨ ¬(if sc = 2 then s.val32 b = 0 else mine)) →
      exec (.tlbinv a b sc) s = .next { s.takeTrap (s.trapAt 0x07 0 0) with verdict := .trapped false }))

/-- `rdsr`, `wrsr` and `clrf` (R106, R107): a read delivers the register's value at the cycle of issue, a write of a
writable register is held until the bundle has issued, a write of any other raises cause 0x07, and `clrf` names the
flags that its bundle clears. The values of all registers: flags, enable mask, times, deadline, slack, budget, context,
partition, core and package number, logical core, gang size, what a service slice handles, the frame of the run's core area, in
a slice that interrupts a run that run's, the refresh phase, the settings of `vrope`, `vrng`, `pqpop` and the screen, record
status and the channels' marks.

Two writes of one per-core special register in a cycle (R108): the write of the agent with the higher number stands
when the cycle ends, since the agents issue in the order of their numbers; `sr.screen` and `sr.pqwin` are read as they
were until then.

What of this the manual leaves open is the model's own choice, by log entries 12 and 64. -/
def Obligations.SpecialRegisters : Prop :=
  (∀ (s : State) (sc : Sched) (d a : Opnd) (n : BitVec 8) (m : BitVec 7),
    Readable s a .w32 → Readable s a .w64 →
    let wide := n = 0x02 ∨ n = 0x03 ∨ n = 0x04 ∨ n = 0x05 ∨ n = 0x0D ∨ n = 0x12
    (∃ x : DWord, exec (.rdsr sc d n) s
        = .next (if wide then s.put64 sc d 2 x else s.put sc d 2 (x.setWidth 32)) ∧
      (n = 0x00 → x = s.cur.aflags.setWidth 64) ∧ (n = 0x01 → x = s.cur.atrap.setWidth 64) ∧
      (n = 0x02 → x = BitVec.ofNat 64 s.pt) ∧ (n = 0x03 → x = BitVec.ofNat 64 s.wall) ∧
      (n = 0x0E → x = BitVec.ofNat 64 (s.wall % 2 ^ 15)) ∧ (n = 0x0F → x = s.cur.rope.setWidth 64) ∧
      (n = 0x10 → x = s.cur.rngkey.setWidth 64) ∧ (n = 0x11 → x = s.bank.pqwin.setWidth 64) ∧
      (n = 0x12 → x = s.bank.screen) ∧
      (n = 0x09 → s.die < 24 → s.core < 64 → x.toNat % 2 ^ 16 = 64 * s.die + s.core ∧ x.toNat / 2 ^ 16 = s.link.pkg.toNat) ∧
      (n = 0x13 → x.getLsbD 0 = s.bank.recm.on ∧ x.getLsbD 1 = s.bank.recm.overflow ∧ x.toNat % 256 < 4 ∧
        x.toNat / 256 = s.bank.recm.count % 2 ^ 24) ∧
      (∀ k : Fin 4, n.toNat = 0x14 + k.val → x = s.bank.chans[k.val].done.setWidth 64) ∧
      (∀ r, s.bank.run = some r →
        (n = 0x0A → x = BitVec.ofNat 64 r.logcore) ∧ (n = 0x0B → x = BitVec.ofNat 64 r.snap.gang) ∧
        (n = 0x0C → x = r.cause.setWidth 64) ∧
        (n = 0x0D → (r.service && r.interrupts) = false →
          x = BitVec.ofNat 64 (s.ctxs[r.ctx.toNat].save + r.logcore * s.ctxs[r.ctx.toNat].stride)) ∧
        (n = 0x0D → r.service = true → r.interrupts = true → ∀ b q, s.shadow = some b → b.run = some q →
          x = BitVec.ofNat 64 (s.ctxs[q.ctx.toNat].save + q.logcore * s.ctxs[q.ctx.toNat].stride)) ∧
        (n = 0x04 → x = r.snap.deadline) ∧
        (n = 0x05 → x = r.snap.deadline - BitVec.ofNat 64 s.wall - BitVec.ofNat 64 r.budget) ∧
        (n = 0x06 → x = BitVec.ofNat 64 r.budget) ∧ (n = 0x07 → x = r.ctx.setWidth 64) ∧
        (n = 0x08 → x = r.part.setWidth 64))) ∧
    (∀ (q : SRec) (i : Image) (l : List Nat) (k : Nat),
      (q.service = none → (s.newRun q i l k).cause = 0) ∧
      ∀ sub, q.service = some sub → (s.newRun q i l k).cause = sub ++ (0x17 : Byte)) ∧
    exec (.wrsr a n) s = .next
      (if n = 0x00 ∨ n = 0x01 ∨ n = 0x0F ∨ n = 0x10 ∨ n = 0x11 ∨ n = 0x12 then
        s.mapBun fun b => { b with srw := some (n, if wide then s.val64 a else (s.val32 a).setWidth 64) }
      else { s.takeTrap (s.trapAt 0x07 0 0) with verdict := .trapped false }) ∧
    exec (.clrf m) s = .next (s.mapBun fun b => { b with clr := m })) ∧
  (∀ (s : State) (v w : DWord), s.oracle.freezes = [] →
    (s.srPend = [(0x12, v), (0x12, w)] → s.endCycle.bank.screen = w) ∧
    (s.srPend = [(0x11, v), (0x11, w)] → s.endCycle.bank.pqwin = w.setWidth 32) ∧
    s.endCycle.srPend = [])

/-! ## Memory -/

/-- Reads and writes of memory: a byte read where it was written is the byte written, every byte outside a written range
reads as before, and a write keeps the canonical form.

What of this the manual leaves open is the model's own choice, by log entry 4. -/
def Obligations.ReadAfterWrite : Prop :=
  ∀ (s : State) (key : Nat) (bs : List Byte), MemOk s →
    (s.wr key bs).rd key bs.length = bs ∧ MemOk (s.wr key bs) ∧
    ∀ b, b < key ∨ key + bs.length ≤ b → (s.wr key bs).mem.read b = s.mem.read b

/-- The checks of an access in their order (R146, R147), for an access of `w` bytes, w one of 1, 2, 4 and 8: an address
with a bit of [63:57] set raises 0x07 before anything else, a misaligned one 0x08; a local offset outside both windows
raises 0x0A, and so does one of the gang window whose member number is not below the gang size (R137); a store or atomic on the weight-store region raises 0x07; a page that does not permit a write raises 0x07.
A walk that has failed leaves its cause for its access, which is then detected 3 cycles after issue (R31). The subcode
holds the kind in bits [5:4], and the address reported is that of the access.

What of this the manual leaves open is the model's own choice, by log entries 5 and 21. -/
def Obligations.AccessChecks : Prop :=
  ∀ (s : State) (k : AKind) (va : DWord) (w : Nat), w = 1 ∨ w = 2 ∨ w = 4 ∨ w = 8 → k ≠ .fetch →
    let stopsAt := fun (c : Byte) (late : Nat) => s.access k va w 0
      = .error (.trap { s.trapAt c (match k with | .read => 0x00 | .write => 0x10 | .atomic => 0x20 | .fetch => 0x30) va with
          late := late })
    let stops := fun c : Byte => s.walkBad s.cx va.toNat = none → stopsAt c 0
    (2 ^ 57 ≤ va.toNat → stops 0x07) ∧
    (va.toNat < 2 ^ 57 → va.toNat % w ≠ 0 → stops 0x08) ∧
    (va.toNat % w = 0 → ∀ r, s.bank.run = some r → (r.service && r.interrupts) = false →
      va.toNat / 2 ^ 52 = 0x1F → 2 ^ 21 ≤ va.toNat % 2 ^ 52 →
      (va.toNat % 2 ^ 52 < 2 ^ 51 ∨ r.snap.gang ≤ (va.toNat % 2 ^ 52 - 2 ^ 51) / 2 ^ 21) → stops 0x0A) ∧
    (va.toNat % w = 0 → va.toNat / 2 ^ 52 = 0x1E → k ≠ .read → stops 0x07) ∧
    (va.toNat % w = 0 → va.toNat / 2 ^ 52 < 0x1E → ∀ c, s.walkBad s.cx va.toNat = some c → stopsAt c 3) ∧
    (va.toNat % w = 0 → va.toNat / 2 ^ 52 < 0x1E →
      ∀ e, s.tlbFind s.cx va.toNat = some e → k ≠ .read → e.w = false → stops 0x07)

/-- `ld`, `st` and `pref` (R146, R149, R150, R151), where the operands can be read, the access passes checks 1 to 5, its
translation is at hand, no access stands out of order and no deferred error of the agent waits: the address is the base
pair plus the sign-extended offset; a load delivers the little-endian value of 2^SZ bytes with the mark of what it read,
and a store writes the low bytes of its source where the memory serves it, and, a plain one, where no copy of the agent holds
it back (R167); a release is noted, and nothing else changes; `pref` changes nothing.

A load that reads a poisoned granule, or from a location that answers with an error, marks its result and does not
fault (R145, R147): the mark carries the granule's address and the cause that a bundle reading the result raises; poison is
found before the error. It reads the location anew: its path holds no bytes for it since they were read early.

The error of a write that memory does not serve is deferred (R147): the store itself goes on and writes nothing, now
or later; an instruction that waits for writes of its path is then stopped with that error's cause and bit 6 of the subcode
set, and errors of another path leave it as it is.

What of this the manual leaves open is the model's own choice, by log entries 5, 20, 22 and 60. -/
def Obligations.LoadStore : Prop :=
  (∀ (s : State) (sc : Sched) (d : Opnd) (bp : BitVec 4) (sz : Size) (c : Scope) (o : Bool) (off : BitVec 24) (key : Nat),
    Readable s (baseOp bp) .w64 → s.cur.deferred = [] → Orderly s →
    let va := s.val64 (baseOp bp) + BitVec.ofInt 64 off.toInt
    let w := match sz with | .b => 1 | .h => 2 | .w => 4 | .d => 8
    (Mapped s va → s.access .read va w 0 = .ok key →
      exec (.ld sc d bp sz c o off) s
        = .next (s.putM sc d (sz = .d) 6 (BitVec.ofNat 64 (s.rdNat key w)) (s.readMark .own va key w))) ∧
    (Mapped s va → s.access .write va w 0 = .ok key → s.served key true = true → (o = true ∨ ¬Owes s key) →
      Readable s d (if sz = Size.d then .w64 else .w32) →
      ∃ l : List Rel, (o = false → l = s.rels) ∧ exec (.st d bp sz c o off) s
        = .next ({ s with rels := l }.wr key
            (bytesOf w (if sz = Size.d then (s.val64 d).toNat else (s.val32 d).toNat)))) ∧
    exec (.pref bp off) s = .next s) ∧
  (∀ (s : State) (path : Path) (va : DWord) (key w : Nat),
    (∀ h ∈ s.held, h.agent = s.turn → h.path = path → ¬(h.key ≤ key ∧ key + w ≤ h.key + h.bytes.length)) →
    ((∃ g ∈ s.mem.poison, key / 64 ≤ g ∧ g < (key + w + 63) / 64) →
      s.readMark path va key w = some ⟨BitVec.ofNat 64 (va.toNat / 64 * 64), 0x09⟩) ∧
    ((∀ g ∈ s.mem.poison, g < key / 64 ∨ (key + w + 63) / 64 ≤ g) → s.served key false = false →
      s.readMark path va key w = some ⟨BitVec.ofNat 64 (va.toNat / 64 * 64), 0x0A⟩) ∧
    ((∀ g ∈ s.mem.poison, g < key / 64 ∨ (key + w + 63) / 64 ≤ g) → s.served key false = true →
      s.readMark path va key w = none)) ∧
  (∀ (s : State) (path : Path) (clean : Bool) (va : DWord) (key lane : Nat) (bs : List Byte) (c : Scope) (e : Deferred)
    (es : List Deferred), lane < 16 →
    (s.served key true = false → ∀ t ∈ [s.storePlain path va key lane clean bs, s.storeNow .write va key bs],
      t.mem = s.mem ∧ t.pend = s.pend) ∧
    (s.served key true = false →
      (s.storePlain path va key lane clean bs).cur.deferred
        = s.cur.deferred ++ [⟨va, 0x0A, 1, BitVec.ofNat 4 lane, path⟩] ∧
      (s.storeNow .write va key bs).cur.deferred = s.cur.deferred ++ [⟨va, 0x0A, 1, 0, .own⟩]) ∧
    (s.cur.deferred = e :: es → e.path = .own → s.pend = [] → ∃ (u : State) (q : TrapReq), u.cur.deferred = es ∧
      exec (.relAll c) s = .next { u.takeTrap q with verdict := .trapped false } ∧
      q.cause = e.cause ∧ q.addr = e.addr ∧ q.sub.getLsbD 6 = true ∧ q.deferred = true) ∧
    ((∀ x ∈ s.cur.deferred, x.path ≠ .own) → Orderly s → exec (.relAll c) s = .next s))

/-- The atomics (R152, R153) at a location that is served and carries no poison, with the operands readable, the
translation at hand, no access out of order and no deferred error waiting: each delivers the old value and writes the new
one; a failed `amocas` writes nothing; one with release order notes its release, and nothing else changes. `wide` is
the 64-bit form, and signed comparisons are at the operation's width.

What of this the manual leaves open is the model's own choice, by log entries 5 and 60. -/
def Obligations.Atomics : Prop :=
  ∀ (s : State) (sc : Sched) (d a b x : Opnd) (c : Scope) (o : MOrd) (wide : Bool) (key : Nat),
    Readable s a .w64 → Readable s b (if wide then .w64 else .w32) → Readable s x (if wide then .w64 else .w32) →
    s.cur.deferred = [] → Orderly s → Mapped s (s.val64 a) →
    let w := if wide then 8 else 4
    let val := fun y => if wide then (s.val64 y).toNat else (s.val32 y).toNat
    let old := s.rdNat key w
    let signed := fun y : Nat => if wide then (BitVec.ofNat 64 y).toInt else (BitVec.ofNat 32 y).toInt
    let done := fun u : State => Host.Outcome.next (φ := Fault) (ρ := Refusal)
      (u.putM sc d wide 32 (BitVec.ofNat 64 old) none)
    s.access .atomic (s.val64 a) w 0 = .ok key → s.served key false = true → s.served key true = true →
    s.mem.poisonAt key w = none →
    ∃ l : List Rel, (o = .plain ∨ o = .acq → l = s.rels) ∧
    let puts := fun y : Nat => done ({ s with rels := l }.wr key (bytesOf w y))
    exec (.amoadd sc d a b c o wide) s = puts ((old + val b) % 2 ^ (8 * w)) ∧
    exec (.amoswp sc d a b c o wide) s = puts (val b) ∧
    exec (.amocas sc d a b x c o wide) s = (if old = val x then puts (val b) else done s) ∧
    exec (.amomin sc d a b c o wide) s = puts (if signed old < signed (val b) then old else val b) ∧
    exec (.amomax sc d a b c o wide) s = puts (if signed old < signed (val b) then val b else old) ∧
    exec (.amominn sc d a b c o wide) s = puts (Min.min old (val b)) ∧
    exec (.amomaxn sc d a b c o wide) s = puts (Max.max old (val b)) ∧
    exec (.amoand sc d a b c o wide) s = puts (old &&& val b) ∧
    exec (.amoor sc d a b c o wide) s = puts (old ||| val b) ∧
    exec (.amoxor sc d a b c o wide) s = puts (old ^^^ val b)

/-- The fences (R159, R160, R161) of an agent with no deferred error. A `fence.m` that begins while the agent has requests
on a path it names waits, and while it waits it waits for every request that stood before its markers, of whatever path; a
`fence.x` that begins waits while the agent has requests on a path of its first set; an empty set waits for nothing. Where
none is left and no access stands out of order they change nothing, and neither do `acq.all` and `rel.all`.

`bind` and `unbind` (R158): the answers in the order the rule tests them, and the table after them.

What of this the manual leaves open is the model's own choice, by log entries 22, 60 and 68. -/
def Obligations.FencesAndBindings : Prop :=
  (∀ (s : State) (c : Scope) (p : BitVec 4) (a b : BitVec 7), s.cur.deferred = [] →
    let asks := fun (ch : BitVec 2) (x : Copy) =>
      x ∈ s.bank.chans[ch.toNat].queue ∨ x ∈ s.bank.chans[ch.toNat].started
    let ahead := fun (x : Copy) (id : Word) => 2 ^ 31 ≤ (x.id - id).toNat
    let mine := (∃ o ∈ s.bank.eng, o.issuedBy s.turn = true) ∨
      ∃ st ∈ s.bank.streams.toList, ∃ e ∈ st.outq, s.turn ∈ e.agents
    let mineNow := (∃ o ∈ s.bank.eng, o.uid < s.bank.uid ∧ o.issuedBy s.turn = true) ∨
      ∃ st ∈ s.bank.streams.toList, ∃ e ∈ st.outq, e.seq < s.bank.uid ∧ s.turn ∈ e.agents
    let stalls := fun (i : Instr) => ∃ cs e, exec i s = .next { s with verdict := .stall (.fence cs e) }
    (s.cur.waiting = none →
      (s.turn = 4 → ∀ ch x, asks ch x → p.getLsbD (x.kind.path - 2) = false) → (p.getLsbD 2 = true → ¬mine) →
      Orderly s → exec (.fenceM p) s = .next s) ∧
    (s.cur.waiting = none →
      ((s.turn = 4 ∧ ∃ ch x, asks ch x ∧ ahead x s.bank.chans[ch.toNat].next ∧ p.getLsbD (x.kind.path - 2) = true) ∨
        (p.getLsbD 2 = true ∧ mineNow)) → stalls (.fenceM p)) ∧
    (∀ cs n t, s.cur.waiting = some (.fence cs n, t) →
      let left := (∃ k ∈ cs, ∃ x, asks k.1 x ∧ ahead x k.2) ∨ ∃ m, n = some m ∧
        ((∃ o ∈ s.bank.eng, o.uid < m) ∨ ∃ st ∈ s.bank.streams.toList, ∃ e ∈ st.outq, e.seq < m)
      (left → exec (.fenceM p) s = .next { s with verdict := .stall (.fence cs n) }) ∧
      (¬left → Orderly s → exec (.fenceM p) s = .next s)) ∧
    (a = 0 ∨ b = 0 → exec (.fenceX c a b) s = .next s) ∧
    (s.cur.waiting = none →
      (s.turn = 4 → ∀ ch x, asks ch x → a.getLsbD x.kind.path = false) → (a.getLsbD 4 = true → ¬mine) →
      Orderly s → exec (.fenceX c a b) s = .next s) ∧
    (s.cur.waiting = none → a ≠ 0 → b ≠ 0 →
      ((s.turn = 4 ∧ ∃ ch x, asks ch x ∧ ahead x s.bank.chans[ch.toNat].next ∧ a.getLsbD x.kind.path = true) ∨
        (a.getLsbD 4 = true ∧ mineNow)) → stalls (.fenceX c a b)) ∧
    (Orderly s → exec (.acqAll c) s = .next s ∧ exec (.relAll c) s = .next s)) ∧
  (∀ (s : State) (sc : Sched) (d a b x : Opnd), Readable s a .w64 → Readable s b .w64 → Readable s x .w32 →
    let t := s.ctxs[s.cx.toNat].binds
    let u := s.val64 a
    let v := s.val64 b
    let n := (s.val32 x).toNat
    let bad := u.toNat % 8 ≠ 0 ∨ v.toNat % 64 ≠ 0 ∨ n = 0 ∨ n % 64 ≠ 0 ∨ 2 ^ 31 < n
    let gives := fun (y : Word) (t' : List (Nat × DWord × DWord × Nat)) =>
      Host.Outcome.next (φ := Fault) (ρ := Refusal) ((s.mapCtx s.cx fun c => { c with binds := t' }).put sc d 32 y)
    (bad → exec (.bind sc d a b x) s = gives 0xFFFFFFFE t) ∧
    (¬bad → (∃ i, (i, u, v, n) ∈ t) → ∃ i, (i, u, v, n) ∈ t ∧ exec (.bind sc d a b x) s = gives (BitVec.ofNat 32 i) t) ∧
    (¬bad → (∀ i, (i, u, v, n) ∉ t) → (∀ i, i < 256 → ∃ e ∈ t, e.1 = i) →
      exec (.bind sc d a b x) s = gives 0xFFFFFFFF t) ∧
    (¬bad → (∀ i, (i, u, v, n) ∉ t) → ∀ i, i < 256 → (∀ e ∈ t, e.1 ≠ i) → (∀ j, j < i → ∃ e ∈ t, e.1 = j) →
      exec (.bind sc d a b x) s = gives (BitVec.ofNat 32 i) (t ++ [(i, u, v, n)])) ∧
    ((∀ i, i < 256 → ∀ k, (i, u, v, k) ∉ t) → exec (.unbind sc d a b) s = gives 0xFFFFFFFF t) ∧
    (∀ i k, i < 256 → (i, u, v, k) ∈ t → (∀ j, j < i → ∀ k, (j, u, v, k) ∉ t) →
      exec (.unbind sc d a b) s = gives (BitVec.ofNat 32 i) (t.filter fun e => e.1 != i)))

/-- Orders between one agent's accesses and another's (R162, R166, R171, R174), as litmus tests in one core show them. A
plain store may stay unperformed, and does where a copy of its agent holds it back (R167): the others, and the agent's other paths, the matrix engine's among them, read the old
bytes. A plain load may be read later. Bytes that a path has read early are what its plain loads deliver, whatever has been
written since. A `fence.x` leaves no write of its first set unperformed for the agents in its scope, and at system scope
none at all; of what a path of its second set holds it leaves nothing that has missed a write by an agent in the scope. A
release leaves no plain write of the own path unperformed for its scope; an acquire leaves of the own path nothing of its own
location, nothing local that has missed a write in its scope, and nothing of the regions published by a release that it
synchronises with.

What of this the manual leaves open is the model's own choice, by log entry 60. -/
def Obligations.MemoryOrder : Prop :=
  (∀ (s : State) (d : Opnd) (bp : BitVec 4) (sz : Size) (c : Scope) (off : BitVec 24) (key : Nat),
    Readable s (baseOp bp) .w64 → Readable s d (if sz = Size.d then .w64 else .w32) →
    let va := effAddr (s.val64 (baseOp bp)) off
    s.access .write va sz.bytes 0 = .ok key → s.served key true = true → s.pend = [] → s.held = [] →
    (s.oracle.late.head?.map (·.testBit 0) = some true ∨ (Mapped s va ∧ Owes s key)) →
    ∃ t e, exec (.st d bp sz c false off) s = .next t ∧ t.mem = s.mem ∧ t.pend = [e] ∧ e.agent = s.turn ∧
      e.path = .own ∧ e.key = key ∧
      e.bytes = bytesOf sz.bytes (if sz = Size.d then (s.val64 d).toNat else (s.val32 d).toNat) ∧
      ∀ (b : AgentId) (p : Path), (b ≠ s.turn ∨ p ≠ .own) → t.viewOf b p key sz.bytes = s.rd key sz.bytes) ∧
  (∀ (s : State) (sc : Sched) (d : Opnd) (bp : BitVec 4) (sz : Size) (c : Scope) (off : BitVec 24) (key : Nat),
    Readable s (baseOp bp) .w64 →
    let va := effAddr (s.val64 (baseOp bp)) off
    s.access .read va sz.bytes 0 = .ok key → s.pend = [] → s.reads = [] →
    s.oracle.lateReads.head?.map (·.testBit 0) = some true →
    ∃ t, exec (.ld sc d bp sz c false off) s = .next t ∧
      t.reads = [⟨s.turn, .own, s.bank.uid, false, sz.bytes, [(0, va, key)], none, none⟩]) ∧
  (∀ (s : State) (sc : Sched) (d : Opnd) (bp : BitVec 4) (sz : Size) (c : Scope) (off : BitVec 24) (key : Nat) (h : Held),
    Readable s (baseOp bp) .w64 →
    let va := effAddr (s.val64 (baseOp bp)) off
    s.access .read va sz.bytes 0 = .ok key → Mapped s va → s.pend = [] → s.reads = [] → s.oracle.lateReads = [] →
    s.held = [h] → h.agent = s.turn → h.path = .own → h.key ≤ key → key + sz.bytes ≤ h.key + h.bytes.length →
    exec (.ld sc d bp sz c false off) s = .next (s.putM sc d (sz = .d) 6
      (BitVec.ofNat 64 (ofBytes ((h.bytes.drop (key - h.key)).take sz.bytes))) none)) ∧
  (∀ (s t : State) (c : Scope) (a b : BitVec 7), a ≠ 0 → b ≠ 0 →
    exec (.fenceX c a b) s = .next t → t.verdict = .ok →
    (∀ e ∈ t.pend, e.agent = s.turn → inSet a e.path = true → c ≠ .sys ∧ ∃ n, e.seen = some n ∧ reach c ≤ n) ∧
    ∀ h ∈ t.held, h.agent = s.turn → inSet b h.path = true → h.covered = true →
      (∀ n, h.missed = some n → reach c < n) ∧ (h.missed = none → c = .clu)) ∧
  (∀ (s t : State) (d : Opnd) (bp : BitVec 4) (sz : Size) (c : Scope) (off : BitVec 24),
    exec (.st d bp sz c true off) s = .next t → t.verdict = .ok →
    ∀ e ∈ t.pend, e.agent = s.turn → e.path = .own → e.kind = .plain → c ≠ .sys ∧ ∃ n, e.seen = some n ∧ reach c ≤ n) ∧
  (∀ (s t : State) (sc : Sched) (d : Opnd) (bp : BitVec 4) (sz : Size) (c : Scope) (off : BitVec 24) (key : Nat),
    exec (.ld sc d bp sz c true off) s = .next t → t.verdict = .ok →
    s.access .read (effAddr (s.val64 (baseOp bp)) off) sz.bytes 0 = .ok key →
    ∀ h ∈ t.held, h.agent = s.turn → h.path = .own →
      (h.key + h.bytes.length ≤ key ∨ key + sz.bytes ≤ h.key) ∧
      (h.covered = true → (∀ n, h.missed = some n → reach c < n) ∧ (h.missed = none → c = .clu)) ∧
      ((∀ n, h.missed = some n → n ≤ 4) → ∀ r ∈ s.rels, r.syncs s.turn key c = true → ∀ g ∈ r.regions,
        h.key + h.bytes.length ≤ g.1 ∨ g.2 ≤ h.key))

/-- The frame of a store (R150): where `st` runs, every register, queue, flag and the whole machine but memory, what
stands between the agents and memory, and deferred errors are as before, but for results in flight whose pending reads or
atomics it orders before itself; and, no write having been pending, every byte outside the bytes it stores reads as before; the stored
bytes are 2^SZ bytes from the key that the access of the base pair plus the offset goes to.

The frame of the atomics: where one runs, nothing changes but the result in its bundle's buffer, deferred errors, results
in flight whose pending reads or atomics come before it, what stands between the agents and memory, and, no write having been pending,
the bytes of its location.

The frame of the loads, the fences, `acq.all`, `rel.all`, the event waits, `kvxl`, `yield` and `slend`: where one runs,
nothing changes but the buffer of its bundle, what stands between the agents and memory, and results in flight whose pending
reads come before it, and memory and deferred errors only by writes that were pending.

What of this the manual leaves open is the model's own choice, by log entries 5 and 60. -/
def Obligations.MemoryFrames : Prop :=
  (∀ (s t : State) (d : Opnd) (bp : BitVec 4) (sz : Size) (c : Scope) (rel : Bool) (off : BitVec 24),
    exec (.st d bp sz c rel off) s = .next t → t.verdict = .ok →
    OnlyAccess s t ∧ t.bank.uid = s.bank.uid ∧ (s.reads = [] → s.pend = [] → t.cur.bun = s.cur.bun) ∧
    ∀ key, s.access .write (effAddr (s.val64 (baseOp bp)) off) sz.bytes 0 = .ok key → s.pend = [] →
      ∀ x, x < key ∨ key + sz.bytes ≤ x → t.mem.read x = s.mem.read x) ∧
  (∀ (s t : State) (sc : Sched) (d a b x : Opnd) (c : Scope) (o : MOrd) (wide : Bool) (i : Instr),
    i ∈ [.amoadd sc d a b c o wide, .amoswp sc d a b c o wide, .amocas sc d a b x c o wide, .amomin sc d a b c o wide,
      .amomax sc d a b c o wide, .amominn sc d a b c o wide, .amomaxn sc d a b c o wide, .amoand sc d a b c o wide,
      .amoor sc d a b c o wide, .amoxor sc d a b c o wide] →
    exec i s = .next t → t.verdict = .ok →
    OnlyAccess s t ∧
    ∀ key, s.access .atomic (s.val64 a) (if wide then 8 else 4) 0 = .ok key → s.pend = [] →
      ∀ y, y < key ∨ key + (if wide then 8 else 4) ≤ y → t.mem.read y = s.mem.read y) ∧
  (∀ (i : Instr) (s t : State), readsOnly i = true → exec i s = .next t → t.verdict = .ok →
    OnlyAccess s t ∧
    (s.pend = [] → t.mem = s.mem ∧ t.pend = [] ∧ ∀ a : AgentId, (t.agent a).deferred = (s.agent a).deferred))

/-- The frame of every instruction whose effect is on its bundle: the scalar, pair, branch, mask and vector
instructions, special registers and the others `bufferOnly` names. Where one runs, every register,
queue, flag, mask, special register, accumulator and byte of memory of every agent and the rest of the machine are as
before; its result, its mask or register write and its control stand in the bundle's buffer. -/
def Obligations.BufferFrame : Prop :=
  ∀ (i : Instr) (s t : State), bufferOnly i = true → exec i s = .next t → t.verdict = .ok → OnlyBuffer s t

/-! ## Vectors and masks -/

/-- VINT (R115, R116, R119): the integer each active lane holds afterwards, modulo 2^w and filled by type; a comparison
writes all 32 bits; inactive lanes are zero; no flag is set. `a` and `b` are the lane elements, signed for i types and
natural for n types, and `p` and `q` their bit patterns. -/
def Obligations.VintResults : Prop :=
  ∀ (s : State) (sc : Sched) (d A B : Opnd) (t : Ty) (m : Gov), t.isLaneInt = true →
    Readable s A .vec → Readable s B .vec →
    let x := s.valV 1 A
    let y := s.valV 1 B
    let a := fun i => laneInt t (lane x i)
    let b := fun i => laneInt t (lane y i)
    let p := fun i => (lane x i).toNat % 2 ^ tyBits t
    let q := fun i => (lane y i).toNat % 2 ^ tyBits t
    let sh := fun i => (lane y i).toNat % 32
    let lo : Int := if t.isLaneSigned then -2 ^ (tyBits t - 1) else 0
    let hi : Int := if t.isLaneSigned then 2 ^ (tyBits t - 1) - 1 else 2 ^ tyBits t - 1
    let gives := fun (n : Nat) (f : Nat → Word) =>
      Host.Outcome.next (φ := Fault) (ρ := Refusal) (s.putV sc d n (lanesUnder (s.active m) f) 0)
    exec (.vadd sc d A B t m) s = gives 2 (fun i => asLane t (a i + b i)) ∧
    exec (.vsub sc d A B t m) s = gives 2 (fun i => asLane t (a i - b i)) ∧
    exec (.vmul sc d A B t m) s = gives 4 (fun i => asLane t (a i * b i)) ∧
    exec (.vmin sc d A B t m) s = gives 2 (fun i => asLane t (Min.min (a i) (b i))) ∧
    exec (.vmax sc d A B t m) s = gives 2 (fun i => asLane t (Max.max (a i) (b i))) ∧
    exec (.vabs sc d A t m) s = gives 2 (fun i => asLane t (a i).natAbs) ∧
    exec (.vand sc d A B t m) s = gives 2 (fun i => asLane t (p i &&& q i : Nat)) ∧
    exec (.vor sc d A B t m) s = gives 2 (fun i => asLane t (p i ||| q i : Nat)) ∧
    exec (.vxor sc d A B t m) s = gives 2 (fun i => asLane t (p i ^^^ q i : Nat)) ∧
    exec (.vshl sc d A B t m) s = gives 2 (fun i => asLane t (p i * 2 ^ sh i : Nat)) ∧
    exec (.vshr sc d A B t m) s = gives 2 (fun i => asLane t (p i / 2 ^ sh i : Nat)) ∧
    exec (.vsra sc d A B t m) s = gives 2 (fun i => asLane t (a i / 2 ^ sh i)) ∧
    exec (.vadds sc d A B t m) s = gives 2 (fun i => asLane t (Max.max lo (Min.min hi (a i + b i)))) ∧
    exec (.vsubs sc d A B t m) s = gives 2 (fun i => asLane t (Max.max lo (Min.min hi (a i - b i)))) ∧
    exec (.vcmpeq sc d A B t m) s = gives 2 (fun i => if a i = b i then 0xFFFFFFFF else 0) ∧
    exec (.vcmplt sc d A B t m) s = gives 2 (fun i => if a i < b i then 0xFFFFFFFF else 0) ∧
    exec (.vcmple sc d A B t m) s = gives 2 (fun i => if a i ≤ b i then 0xFFFFFFFF else 0)

/-- VFP (R74, R116, R120): the lanes and flags of each instruction, by the rounded operations on the lanes' codes; a flag
is set where an active lane sets it; a true comparison writes all 32 bits of its lane, and the comparisons and the sign
operations raise IV as the table says. -/
def Obligations.VfpResults : Prop :=
  ∀ (s : State) (sc : Sched) (d A B X : Opnd) (t : Ty) (m : Gov) (r : Rnd), t.isLaneFloat = true →
    Readable s A .vec → Readable s B .vec → Readable s X .vec →
    let w := tyBits t
    let a := fun i => (lane (s.valV (tyOne t) A) i).toNat % 2 ^ w
    let b := fun i => (lane (s.valV (tyOne t) B) i).toNat % 2 ^ w
    let x := fun i => (lane (s.valV (tyOne t) X) i).toNat % 2 ^ w
    let code := fun (c : Nat × BitVec 7) => (BitVec.ofNat 32 (c.1 % 2 ^ w), c.2)
    let truth := fun (c : Bool) (f : Bool) => ((if c then 0xFFFFFFFF else 0 : Word), (if f then 0x01 else 0 : BitVec 7))
    let nan := fun (y : Nat) => (fval t y).isNaN
    let sig := fun (y : Nat) => (fval t y).isSig
    exec (.vfadd sc d A B t m r) s = lanesWith s sc d 4 m (fun i => code (fAdd t r (a i) (b i))) ∧
    exec (.vfsub sc d A B t m r) s = lanesWith s sc d 4 m (fun i => code (fSub t r (a i) (b i))) ∧
    exec (.vfmul sc d A B t m r) s = lanesWith s sc d 4 m (fun i => code (fMul t r (a i) (b i))) ∧
    exec (.vfma sc d A B X t m r) s
      = lanesWith s sc d 4 m (fun i => code (fFma t r (fval t (a i)) (fval t (b i)) (fval t (x i)))) ∧
    exec (.vfms sc d A B X t m r) s
      = lanesWith s sc d 4 m (fun i => code (fFma t r (fval t (a i)) (fval t (b i)) (fval t (x i)).negate)) ∧
    exec (.vfmin sc d A B t m) s = lanesWith s sc d 2 m (fun i => code (fMinMax t false (a i) (b i))) ∧
    exec (.vfmax sc d A B t m) s = lanesWith s sc d 2 m (fun i => code (fMinMax t true (a i) (b i))) ∧
    exec (.vfabs sc d A t m) s = lanesWith s sc d 2 m (fun i =>
      code (if nan (a i) then canonNaN t else a i % 2 ^ (w - 1), if sig (a i) then 0x01 else 0)) ∧
    exec (.vfneg sc d A t m) s = lanesWith s sc d 2 m (fun i =>
      code (if nan (a i) then canonNaN t else a i ^^^ 2 ^ (w - 1), if sig (a i) then 0x01 else 0)) ∧
    exec (.vfcmpeq sc d A B t m) s = lanesWith s sc d 2 m (fun i =>
      truth (vEq (fval t (a i)) (fval t (b i))) (sig (a i) || sig (b i))) ∧
    exec (.vfcmplt sc d A B t m) s = lanesWith s sc d 2 m (fun i =>
      truth (vLt (fval t (a i)) (fval t (b i))) (nan (a i) || nan (b i))) ∧
    exec (.vfcmple sc d A B t m) s = lanesWith s sc d 2 m (fun i =>
      truth (vLt (fval t (a i)) (fval t (b i)) || vEq (fval t (a i)) (fval t (b i))) (nan (a i) || nan (b i))) ∧
    exec (.vfcmpun sc d A B t m) s = lanesWith s sc d 2 m (fun i =>
      truth (nan (a i) || nan (b i)) (sig (a i) || sig (b i)))

/-- `vfmin` and `vfmax` on codes of a float type (R121): with one NaN the result is the number, with two the canonical
NaN; of two numbers one of the two is the smaller and the other the larger, in the order of their values, and -0 orders below
+0; a signalling NaN sets IV and nothing else does.

The worked conversions of 04_numbers.md (R76, R77, R78): result and flags of each row.

Special cases of the special functions (R122) in f32: reciprocals and roots of zero, division by zero and of zero by
zero, powers and logarithms of the infinities and of one, and that a NaN gives the canonical NaN. -/
def Obligations.FloatRules : Prop :=
  (∀ (t : Ty) (a b : Nat), t.isLaneFloat = true → a < 2 ^ tyBits t → b < 2 ^ tyBits t →
    let x := fval t a
    let y := fval t b
    (x.isNaN = true → y.isNaN = false → (fMinMax t false a b).1 = b ∧ (fMinMax t true a b).1 = b) ∧
    (x.isNaN = false → y.isNaN = true → (fMinMax t false a b).1 = a ∧ (fMinMax t true a b).1 = a) ∧
    (x.isNaN = true → y.isNaN = true → (fMinMax t false a b).1 = canonNaN t ∧ (fMinMax t true a b).1 = canonNaN t) ∧
    (x.isNaN = false → y.isNaN = false →
      ((fMinMax t false a b).1 = a ∧ (fMinMax t true a b).1 = b ∨ (fMinMax t false a b).1 = b ∧ (fMinMax t true a b).1 = a) ∧
      (vLt x y = true → (fMinMax t false a b).1 = a) ∧ (vLt y x = true → (fMinMax t false a b).1 = b) ∧
      vLt (fval t (fMinMax t true a b).1) (fval t (fMinMax t false a b).1) = false) ∧
    (a = 2 ^ (tyBits t - 1) → b = 0 → (fMinMax t false a b).1 = a ∧ (fMinMax t true a b).1 = b ∧
      (fMinMax t false b a).1 = a ∧ (fMinMax t true b a).1 = b) ∧
    (∀ z, (fMinMax t z a b).2 = if x.isSig ∨ y.isSig then 0x01 else 0)) ∧
  (cvtFF .e4m3 .f32 ⟨.rne, false⟩ 0x43960000 = (0x79, 0x10) ∧
  cvtFF .e4m3 .f32 ⟨.rne, false⟩ 0x43FA0000 = (0x7E, 0x14) ∧
  cvtFF .f6 .f32 ⟨.rne, false⟩ 0x3E99999A = (0x05, 0x10) ∧
  cvtFF .bf16 .f32 ⟨.rne, false⟩ 0x3F808000 = (0x3F80, 0x10) ∧
  cvtFF .bf16 .f32 ⟨.rup, false⟩ 0x3F808000 = (0x3F81, 0x10) ∧
  cvtFF .f16 .f32 ⟨.rne, false⟩ 0x4788B800 = (0x7C00, 0x14) ∧
  cvtFF .f16 .f32 ⟨.rne, true⟩ 0x4788B800 = (0x7BFF, 0x14) ∧
  cvtFI .i32 .f32 .rne 0xC0200000 = (-2, 0x10) ∧
  cvtFI .i32 .f32 .rne 0x4F32D05E = (0x7FFFFFFF, 0x01) ∧
  cvtFF .e4m3 .f16 ⟨.rne, false⟩ 0x7E00 = (0x7F, 0x01)) ∧
  (∀ (r : Rnd),
    fRcp .f32 r 0 = (0x7F800000, 0x02) ∧ fRcp .f32 r 0x80000000 = (0xFF800000, 0x02) ∧
    fRcp .f32 r 0xFF800000 = (0x80000000, 0) ∧
    fRsqrt .f32 r 0 = (0x7F800000, 0x02) ∧ fRsqrt .f32 r 0x80000000 = (0xFF800000, 0x02) ∧
    fRsqrt .f32 r 0xBF800000 = (0x7FC00000, 0x01) ∧ fRsqrt .f32 r 0x7F800000 = (0, 0) ∧
    fSqrt .f32 r 0x80000000 = (0x80000000, 0) ∧ fSqrt .f32 r 0xBF800000 = (0x7FC00000, 0x01) ∧
    fExp2 .f32 r 0xFF800000 = (0, 0) ∧ fExp2 .f32 r 0x7F800000 = (0x7F800000, 0) ∧
    fExp2 .f32 r 0x80000000 = (0x3F800000, 0) ∧
    fLog2 .f32 r 0 = (0xFF800000, 0x02) ∧ fLog2 .f32 r 0xBF800000 = (0x7FC00000, 0x01) ∧
    fLog2 .f32 r 0x3F800000 = (0, 0) ∧ fLog2 .f32 r 0x7F800000 = (0x7F800000, 0) ∧
    fDiv .f32 r 0x3F800000 0x80000000 = (0xFF800000, 0x02) ∧ fDiv .f32 r 0 0 = (0x7FC00000, 0x01) ∧
    fDiv .f32 r 0x7F800000 0x7F800000 = (0x7FC00000, 0x01) ∧
    ∀ x, (fval .f32 x).isNaN = true → ∀ f ∈ [fRcp, fRsqrt, fSqrt, fExp2, fLog2],
      f .f32 r x = (0x7FC00000, if (fval .f32 x).isSig then 0x01 else 0))

/-- Rounding (R75), for f32, f16 and bf16. Where `Round` of an exact magnitude m x 2^e above zero gives a finite value: under RNE no
other finite value of the type lies nearer to the exact one, and where another lies as near the one with the even significand is
delivered; under RDN it is the greatest finite value of the type that is not above the exact one, under RUP the least that is not
below, under RTZ the one of these two on the side of zero.

The exact operations behind one rounding (R69, R75, R120): of finite operands `fAdd`, `fSub`, `fMul` and `fFma` are `Round` of the
exact sum, difference, product, and product and sum; a zero has the sign that IEEE 754 gives it. A NaN operand gives the canonical
NaN, with IV for a signalling one; so do, with IV, the difference of infinities and the product of zero and an infinity, the
latter in `fFma` also beside a quiet NaN. -/
def Obligations.RoundedResults : Prop :=
  (∀ (t : Ty) (mode : RMode) (neg n n' : Bool) (m m₁ m' : Nat) (e e₁ e' : Int) (c : Nat), t.isLaneFloat = true → 0 < m →
    c < 2 ^ tyBits t → fval t c = .fin n' m' e' →
    fval t (roundTo t mode false neg m e false).1 = .fin n m₁ e₁ →
    let x := ratOf neg m e
    let y := ratOf n m₁ e₁
    let z := ratOf n' m' e'
    (mode = .rne → |y - x| ≤ |z - x| ∧ (|y - x| = |z - x| → y ≠ z → m₁ % 2 = 0)) ∧
    (mode = .rdn ∨ mode = .rtz ∧ neg = false → y ≤ x ∧ (z ≤ x → z ≤ y)) ∧
    (mode = .rup ∨ mode = .rtz ∧ neg = true → x ≤ y ∧ (x ≤ z → y ≤ z))) ∧
  (∀ (t : Ty) (r : Rnd) (a b : Nat), t.isLaneFloat = true →
    let gives := fun (y : Nat × BitVec 7) (x : ℚ) (zero : Bool) => ∃ (n : Bool) (m : Nat) (e : Int),
      y = roundTo t r.mode r.sat n m e false ∧ ratOf n m e = x ∧ (x = 0 → n = zero)
    let invalid := fun (y : Nat × BitVec 7) (iv : Bool) => y = (canonNaN t, if iv then 0x01 else 0)
    let nan := fun (y : FVal) => y.isNaN = true
    (∀ na ma ea nb mb eb, fval t a = .fin na ma ea → fval t b = .fin nb mb eb →
      let x := ratOf na ma ea
      let y := ratOf nb mb eb
      gives (fAdd t r a b) (x + y) (if x = 0 ∧ na = nb then na else r.mode == .rdn) ∧
      gives (fSub t r a b) (x - y) (if x = 0 ∧ na ≠ nb then na else r.mode == .rdn) ∧
      gives (fMul t r a b) (x * y) (na != nb) ∧
      ∀ nc mc ec, let z := ratOf nc mc ec
        gives (fFma t r (fval t a) (fval t b) (.fin nc mc ec)) (x * y + z)
          (if z = 0 ∧ (na != nb) = nc then nc else r.mode == .rdn)) ∧
    (nan (fval t a) ∨ nan (fval t b) →
      let iv := (fval t a).isSig || (fval t b).isSig
      invalid (fAdd t r a b) iv ∧ invalid (fSub t r a b) iv ∧ invalid (fMul t r a b) iv ∧
      ∀ x, invalid (fFma t r (fval t a) (fval t b) x) (iv || x.isSig)) ∧
    (∀ n, fval t a = .inf n →
      (fval t b = .inf (!n) → invalid (fAdd t r a b) true) ∧ (fval t b = .inf n → invalid (fSub t r a b) true) ∧
      ((fval t b).isZero = true → invalid (fMul t r a b) true ∧ invalid (fMul t r b a) true ∧
        ∀ x, invalid (fFma t r (fval t a) (fval t b) x) true)))

/-- VSPC (R122, R123, R124): the special functions lane by lane with their flags, the random draw of lane i from
`sr.rngkey` and A + i, and the rotation of pair j = i div 2 by the position that `sr.rope` gives channel pair 8c + j;
counts above 64 raise cause 0x0D.

What of this the manual leaves open is the model's own choice, by log entries 19, 59, 64 and 68. -/
def Obligations.VspcResults : Prop :=
  ∀ (s : State) (sc : Sched) (d A B X a : Opnd) (t : Ty) (m : Gov) (r : Rnd) (c : BitVec 3), t.isLaneFloat = true →
    Readable s A .vec → Readable s B .vec → Readable s X .vec → Readable s a .w32 →
    let w := tyBits t
    let u := s.valV (tyOne t) A
    let v := s.valV (tyOne t) B
    let x := fun i => (lane u i).toNat % 2 ^ w
    let code := fun (z : Nat × BitVec 7) => (BitVec.ofNat 32 (z.1 % 2 ^ w), z.2)
    let tp := s.cur.rope.toNat % 128
    let hp := s.cur.rope.toNat / 2 ^ 8 % 128
    let wp := s.cur.rope.toNat / 2 ^ 16 % 128
    let pos := fun p =>
      if p < tp then some (lane (s.valV 1 X) 0).toInt else if p < tp + hp then some (lane (s.valV 1 X) 1).toInt
      else if p < tp + hp + wp then some (lane (s.valV 1 X) 2).toInt else none
    exec (.vrcp sc d A t m r) s = lanesWith s sc d 8 m (fun i => code (fRcp t r (x i))) ∧
    exec (.vrsqrt sc d A t m r) s = lanesWith s sc d 8 m (fun i => code (fRsqrt t r (x i))) ∧
    exec (.vsqrt sc d A t m r) s = lanesWith s sc d 8 m (fun i => code (fSqrt t r (x i))) ∧
    exec (.vexp2 sc d A t m r) s = lanesWith s sc d 8 m (fun i => code (fExp2 t r (x i))) ∧
    exec (.vlog2 sc d A t m r) s = lanesWith s sc d 8 m (fun i => code (fLog2 t r (x i))) ∧
    exec (.vdiv sc d A B t m r) s
      = lanesWith s sc d 12 m (fun i => code (fDiv t r (x i) ((lane v i).toNat % 2 ^ w))) ∧
    (tp + hp + wp ≤ 64 → exec (.vrope sc d A B X t m r c) s = lanesWith s sc d 8 m (fun i =>
      ropeLane t r (pos (8 * c.toNat + i / 2)) (lane (s.valV 0x3F800000 B) (2 * (i / 2))) (lane u (2 * (i / 2)))
        (lane u (2 * (i / 2) + 1)) (i % 2 == 1))) ∧
    (64 < tp + hp + wp → exec (.vrope sc d A B X t m r c) s
      = .next { s.takeTrap (s.trapAt 0x0D 0 0) with verdict := .trapped false }) ∧
    exec (.vrng sc d a m) s = lanesWith s sc d 5 m (fun i =>
      (BitVec.ofNat 32 (draw s.cur.rngkey (s.val32 a + BitVec.ofNat 32 i)), 0))

/-- `vcvt` (R76, R77, R78, R125): each active lane converted from the source type to the destination type: float to float
by `Round`, with equal types an identity that makes a NaN canonical; float to integer and integer to float by the
rounding mode; integer to integer wrapping, or clamping with AUX[2].

What of this the manual leaves open is the model's own choice, by log entry 64. -/
def Obligations.Conversion : Prop :=
  ∀ (s : State) (sc : Sched) (d A : Opnd) (t : Ty) (src : CvtSrc) (m : Gov) (r : Rnd), t.isCvtDst = true →
    Readable s A .vec →
    let from' : Ty := match src with
      | .f32 => .f32 | .f16 => .f16 | .bf16 => .bf16 | .e4m3 => .e4m3 | .e5m2 => .e5m2 | .f6 => .f6
      | .i32 => .i32 | .n32 => .n32
    let x := fun i => lane (s.valV (tyOne from') A) i
    let c := fun i => (x i).toNat % 2 ^ tyBits from'
    let lo : Int := if t.isLaneSigned then -2 ^ (tyBits t - 1) else 0
    let hi : Int := if t.isLaneSigned then 2 ^ (tyBits t - 1) - 1 else 2 ^ tyBits t - 1
    let code := fun (z : Nat × BitVec 7) => (BitVec.ofNat 32 (z.1 % 2 ^ tyBits t), z.2)
    exec (.vcvt sc d A t src m r) s = lanesWith s sc d 3 m (fun i =>
      if from' = .i32 ∨ from' = .n32 then
        let z := laneInt from' (x i)
        if t.isLaneInt then (asLane t (if r.sat then Max.max lo (Min.min hi z) else z), 0)
        else code (cvtIF t r z)
      else if t.isLaneInt then (asLane t (cvtFI t from' r.mode (c i)).1, (cvtFI t from' r.mode (c i)).2)
      else if t = from' then
        code (if (fval t (c i)).isNaN then canonNaN t else c i, if (fval t (c i)).isSig then 0x01 else 0)
      else code (cvtFF t from' r (c i)))

/-- The packing instructions (R71, R126, R127), by the fields of the vectors: `vpack` and `vpk6` put 16 elements into group
q of X and leave the other fields of X; `vunpk` and `vupk6` take group q out, an integer extended by its type. `at'` is
the field of w bits at bit w x j.

Trits (R72, R128). `vtrit`: active lane i is -1, 0 or +1 in type T, after digit (16q + i) mod 5 of byte
(16q + i) div 5, and a byte above 242 reads as 0 and sets TC. `vtritp`: the sixteen digits of group q take the lanes'
trits, other digits of the touched bytes stay, or are 0 where the byte was above 242, other bytes stay, every touched
byte lies in 0 to 242, and TC is set where a lane is no trit or a touched byte was above 242.

What of this the manual leaves open is the model's own choice, by log entry 68. -/
def Obligations.PackingAndTrits : Prop :=
  (∀ (s : State) (sc : Sched) (d A X : Opnd) (t : Ty) (m : Gov) (q2 : BitVec 2) (q3 : BitVec 3) (q4 : BitVec 4) (h : Bool),
    Readable s A .vec → Readable s X .vec →
    let at' := fun (v : Vec) (w j : Nat) => v.toNat / 2 ^ (w * j) % 2 ^ w
    let u := s.valV (tyOne t) A
    let v := s.valV (tyOne t) X
    let u6 := s.valV 0x0C A
    let v6 := s.valV 0x0C X
    let w := tyBits t
    (w = 8 ∨ w = 16 → w * (16 * q2.toNat) < 512 →
      (∃ y, exec (.vpack sc d A X t q2) s = .next (s.putV sc d 3 y 0) ∧ ∀ j, w * j < 512 →
        at' y w j = if 16 * q2.toNat ≤ j ∧ j < 16 * q2.toNat + 16 then (lane u (j - 16 * q2.toNat)).toNat % 2 ^ w
          else at' v w j) ∧
      exec (.vunpk sc d A t q2 m) s
        = lanesWith s sc d 3 m (fun i => (asLane t (at' u w (16 * q2.toNat + i) : Nat), 0))) ∧
    (q4.toNat < 8 → ∃ y, exec (.vpk6 sc d A X false q4) s = .next (s.putV sc d 3 y 0) ∧ ∀ j, j < 128 →
      at' y 4 j = if 16 * q4.toNat ≤ j ∧ j < 16 * q4.toNat + 16 then (lane u6 (j - 16 * q4.toNat)).toNat / 4 % 16
        else at' v6 4 j) ∧
    (∃ y, exec (.vpk6 sc d A X true q4) s = .next (s.putV sc d 3 y 0) ∧ ∀ j, j < 256 →
      at' y 2 j = if 16 * q4.toNat ≤ j ∧ j < 16 * q4.toNat + 16 then (lane u6 (j - 16 * q4.toNat)).toNat % 4
        else at' v6 2 j) ∧
    exec (.vupk6 sc d A X q3 h m) s = lanesWith s sc d 3 m (fun i =>
      (BitVec.ofNat 32 (at' u6 4 (16 * q3.toNat + i) * 4 +
        at' v6 2 ((if h then 128 else 0) + 16 * q3.toNat + i)), 0))) ∧
  (∀ (s : State) (sc : Sched) (d A X : Opnd) (t : Ty) (m : Gov) (q : BitVec 5),
    Readable s A .vec → Readable s X .vec → q.toNat < 20 → t ∈ [Ty.i32, .i16, .i8, .f32, .f16, .bf16] →
    let byte := fun (v : Vec) (k : Nat) => v.toNat / 2 ^ (8 * k) % 256
    let u := s.valV 1 A
    let v := s.valV 1 X
    let n := fun i => 16 * q.toNat + i
    let plus : Word := match t with | .f32 => 0x3F800000 | .f16 => 0x3C00 | .bf16 => 0x3F80 | _ => 1
    let minus : Word := match t with | .f32 => 0xBF800000 | .f16 => 0xBC00 | .bf16 => 0xBF80 | _ => 0xFFFFFFFF
    let digit := fun b j => if 242 < b then 0 else b / 3 ^ j % 3
    exec (.vtrit sc d A t q m) s = lanesWith s sc d 3 m (fun i =>
      let b := byte u (n i / 5)
      (match digit b (n i % 5) with | 0 => 0 | 1 => plus | _ => minus, if 242 < b then 0x20 else 0)) ∧
    ∃ (y : Vec) (f : BitVec 7), exec (.vtritp sc d A X q) s = .next (s.putV sc d 3 y f) ∧
      (∀ i, i < 16 → byte y (n i / 5) < 243 ∧ byte y (n i / 5) / 3 ^ (n i % 5) % 3 =
        if lane u i = 1 then 1 else if lane u i = 0xFFFFFFFF then 2 else 0) ∧
      (∀ i j, i < 16 → j < 5 → (∀ k, k < 16 → n k ≠ 5 * (n i / 5) + j) →
        byte y (n i / 5) / 3 ^ j % 3 = digit (byte v (n i / 5)) j) ∧
      (∀ k, k < 64 → (∀ i, i < 16 → n i / 5 ≠ k) → byte y k = byte v k) ∧
      f = if (List.range 16).any fun i => decide (242 < byte v (n i / 5) ∨ lane u i ∉ [0, 1, 0xFFFFFFFF]) then 0x20 else 0)

/-- Lane movement (R129, R132): the lanes each instruction delivers.

The mask instructions (R133, R134, R135): the mask each writes when its bundle has issued, with m0 read as all ones,
and what `mget` delivers.

What of this the manual leaves open is the model's own choice, by log entry 68. -/
def Obligations.LanesAndMasks : Prop :=
  (∀ (s : State) (sc : Sched) (d A B X a b : Opnd) (m : Gov),
    Readable s A .vec → Readable s B .vec → Readable s X .vec → Readable s a .w32 → Readable s b .w32 →
    let u := s.valV 1 A
    let act := fun i => (s.active m).getLsbD i
    let before := fun i => ((List.range i).filter act).length
    exec (.vbcast sc d a m) s = .next (s.putV sc d 2 (lanesUnder (s.active m) fun _ => s.val32 a) 0) ∧
    exec (.vext sc d A b) s = .next (s.put sc d 3 (lane u ((s.val32 b).toNat % 16))) ∧
    exec (.vins sc d A a b) s
      = .next (s.putV sc d 2 (mkVec fun i => if i = (s.val32 b).toNat % 16 then s.val32 a else lane u i) 0) ∧
    exec (.vperm sc d A B X m) s = .next (s.putV sc d 3 (lanesUnder (s.active m) fun i =>
      let k := (lane (s.valV 1 B) i).toNat % 32
      if k < 16 then lane u k else lane (s.valV 1 X) (k - 16)) 0) ∧
    ∃ y, exec (.vcompress sc d A m) s = .next (s.putV sc d 3 y 0) ∧
      (∀ i, i < 16 → act i = true → lane y (before i) = lane u i) ∧ (∀ i, before 16 ≤ i → i < 16 → lane y i = 0)) ∧
  (∀ (s : State) (sc : Sched) (D : BitVec 3) (A B : BitVec 3) (d b : Opnd) (n : BitVec 4), Readable s b .w32 →
    let mask := fun i : BitVec 3 => if i = 0 then 0xFFFF else s.cur.m[i.toNat]
    let puts := fun x : BitVec 16 => Host.Outcome.next (φ := Fault) (ρ := Refusal)
      (s.mapBun fun u => { u with mask := some (D, x) })
    exec (.mand D A B) s = puts (mask A &&& mask B) ∧
    exec (.mor D A B) s = puts (mask A ||| mask B) ∧
    exec (.mxor D A B) s = puts (mask A ^^^ mask B) ∧
    exec (.mnot D A) s = puts (~~~mask A) ∧
    exec (.mset D b) s = puts ((s.val32 b).extractLsb' 0 16) ∧
    exec (.mget sc d A) s = .next (s.put sc d 2 ((mask A).setWidth 32)) ∧
    (∃ x : BitVec 16, exec (.mpop D A) s = puts x ∧ ∀ i, i < 16 →
      x.getLsbD i = decide (i < ((List.range 16).filter fun j => (mask A).getLsbD j).length)) ∧
    (∃ x : BitVec 16, exec (.mfirst D A) s = puts x ∧ ∀ i, i < 16 →
      (x.getLsbD i = true ↔ (mask A).getLsbD i = true ∧ ∀ j, j < i → (mask A).getLsbD j = false)) ∧
    (∀ clr, ∃ x : BitVec 16, exec (.mbit D A n clr) s = puts x ∧ ∀ i, i < 16 →
      x.getLsbD i = if i = n.toNat then !clr else (mask A).getLsbD i))

/-- Reductions and scans (R82, R83, R115, R121, R130). For every operation and type of R130 but `lanes`, a `vred` goes up the fixed tree,
the lower index first, with the operation's identity in inactive lanes; the flags of its nodes are set. So an integer `add` delivers
the sum of the active elements, `min` and `max` the least and greatest of them, or the type's greatest and least where no lane
is active, and `and`, `or` and `xor` work bit by bit; `lanes` delivers one bit for each active lane whose element is not zero.
A `vscan` carries its running value through inactive lanes and shows it in the active ones; its flags are those of the steps
of the active lanes after lane 0.

What of this the manual leaves open is the model's own choice, by log entries 19 and 64. -/
def Obligations.ReduceAndScan : Prop :=
  ∀ (s : State) (sc : Sched) (d A : Opnd) (t : Ty) (op : RedOp) (m : Gov) (r : Rnd), Readable s A .vec →
    let w := tyBits t
    let act := fun i => (s.active m).getLsbD i
    let x := fun i => lane (s.valV (tyOne t) A) i
    let e := fun i => laneInt t (x i)
    let on := (List.range 16).filter act
    let int := fun (a : Nat) => laneInt t (BitVec.ofNat 32 a)
    let lo : Int := if t.isLaneSigned then -(2 ^ (w - 1)) else 0
    let hi : Int := if t.isLaneSigned then 2 ^ (w - 1) - 1 else 2 ^ w - 1
    let node := fun (a b : Nat) => match op with
      | .add => if t.isLaneFloat then fAdd t r a b else ((a + b) % 2 ^ w, 0)
      | .min => if t.isLaneFloat then fMinMax t false a b else (if int b < int a then b else a, 0)
      | .max => if t.isLaneFloat then fMinMax t true a b else (if int a < int b then b else a, 0)
      | .and => (a &&& b, 0)
      | .or => (a ||| b, 0)
      | .xor => (a ^^^ b, 0)
      | .lanes => (a, 0)
    let idn := match op with
      | .add => if t.isLaneFloat then 2 ^ (w - 1) else 0
      | .min => if t.isLaneFloat then infCode t else (hi % 2 ^ w).toNat
      | .max => if t.isLaneFloat then 2 ^ (w - 1) + infCode t else (lo % 2 ^ w).toNat
      | .and => 2 ^ w - 1
      | _ => 0
    let shown := fun (a : Nat) => if t.isLaneFloat then BitVec.ofNat 32 (a % 2 ^ w) else asLane t a
    let code := fun i => (x i).toNat % 2 ^ w
    let has := t.isLaneInt = true ∨ t.isLaneFloat = true ∧ (op = .add ∨ op = .min ∨ op = .max)
    let delivers := fun (y : Word) => exec (.vred sc d A t op m r) s = .next (s.put sc d 6 y)
    (op ≠ .lanes → has →
      let join := fun (p q : Nat × BitVec 7) => ((node p.1 q.1).1, p.2 ||| q.2 ||| (node p.1 q.1).2)
      let z := fun i => (if act i then code i else idn, (0 : BitVec 7))
      let n8 := fun i => join (z (2 * i)) (z (2 * i + 1))
      let n4 := fun i => join (n8 (2 * i)) (n8 (2 * i + 1))
      let n2 := fun i => join (n4 (2 * i)) (n4 (2 * i + 1))
      let y := join (n2 0) (n2 1)
      exec (.vred sc d A t op m r) s = .next (s.putF sc d 6 (shown y.1) y.2)) ∧
    (t.isLaneInt = true →
      (op = .add → delivers (asLane t (on.map e).sum)) ∧
      (op = .min → (on = [] → delivers (asLane t hi)) ∧
        ∀ i, i < 16 → act i = true → (∀ j, j < 16 → act j = true → e i ≤ e j) → delivers (asLane t (e i))) ∧
      (op = .max → (on = [] → delivers (asLane t lo)) ∧
        ∀ i, i < 16 → act i = true → (∀ j, j < 16 → act j = true → e j ≤ e i) → delivers (asLane t (e i))) ∧
      (op = .and ∨ op = .or ∨ op = .xor → ∃ v : Word, delivers (asLane t v.toNat) ∧ ∀ j, j < w →
        v.getLsbD j = match op with
          | .and => decide (∀ i ∈ on, (x i).getLsbD j = true)
          | .or => decide (∃ i ∈ on, (x i).getLsbD j = true)
          | _ => decide ((on.filter fun i => (x i).getLsbD j).length % 2 = 1)) ∧
      (op = .lanes → ∃ y : Word, delivers y ∧
        ∀ i, i < 32 → y.getLsbD i = (decide (i < 16) && act i && decide (e i ≠ 0))) ∧
      (op = .add → exec (.vscan sc d A t op m r) s = .next (s.putV sc d 8 (lanesUnder (s.active m) fun i =>
        asLane t (((List.range (i + 1)).filter act).map e).sum) 0))) ∧
    (op ≠ .lanes → has → ∃ (y : Vec) (run : Nat → Nat) (flags : Nat → BitVec 7),
      exec (.vscan sc d A t op m r) s = .next (s.putV sc d 8 y (flags 15)) ∧
      run 0 = (if act 0 then code 0 else idn) ∧ flags 0 = 0 ∧
      (∀ i, i < 15 → run (i + 1) = (if act (i + 1) then (node (run i) (code (i + 1))).1 else run i) ∧
        flags (i + 1) = flags i ||| if act (i + 1) then (node (run i) (code (i + 1))).2 else 0) ∧
      ∀ i, i < 16 → lane y i = if act i then shown (run i) else 0)

/-- `vsortk` (R131): its lanes are a permutation of the lane numbers; the active lanes come first, by key in the direction
asked for, equal keys by tie id and then by lane number; the inactive lanes follow in ascending order; a NaN key of an
active lane sets IV. `place` is the rank of a lane. -/
def Obligations.SortByKey : Prop :=
  ∀ (s : State) (sc : Sched) (d A B : Opnd) (t : Ty) (asc : Bool) (m : Gov), Readable s A .vec → Readable s B .vec →
    let act := fun i => (s.active m).getLsbD i
    let key := fun i => lane (s.valV (tyOne t) A) i
    let tie := fun i => (lane (s.valV 1 B) i).toNat
    ∃ (y : Vec) (place : Nat → Nat),
      exec (.vsortk sc d A B t asc m) s = .next (s.putV sc d 8 y
        (if (List.range 16).any fun i => act i && t.isLaneFloat && (fval t ((key i).toNat % 2 ^ tyBits t)).isNaN
          then 0x01 else 0)) ∧
      (∀ i, i < 16 → place i < 16 ∧ (lane y (place i)).toNat = i) ∧
      (∀ i j, i < 16 → j < 16 → act i = true → act j = false → place i < place j) ∧
      (∀ i j, i < j → j < 16 → act i = false → act j = false → place i < place j) ∧
      (∀ i j, i < 16 → j < 16 → act i = true → act j = true →
        (keyBelow t (key i) (key j) = true → (asc = true → place i < place j) ∧ (asc = false → place j < place i)) ∧
        (keyBelow t (key i) (key j) = false → keyBelow t (key j) (key i) = false →
          tie i < tie j ∨ (tie i = tie j ∧ i < j) → place i < place j))

/-- Vector loads (R146, R154, R155, R156), where every active lane's access passes checks 1 to 5 and goes to the key given,
translations are at hand and no access stands out of order: each active lane receives its element zero-extended, the other lanes zero; an inactive lane is not accessed. `vldg` adds
the element size times the lane's index, read as natural.

Vector stores (R144, R154, R155, R156), where every active lane's access passes checks 1 to 5 and memory serves it,
translations are at hand, no access stands out of order, and no copy of the agent could hold a `vst` back (R167): the
active lanes' low bytes are written in ascending lane order, so the highest of the lanes that name one byte stands, and
every byte outside the active lanes' elements reads as before; a whole aligned granule that one `vst` writes loses its
poison. No register, queue or flag changes. Of the lanes of one instruction that memory does not serve the lowest alone is
reported (R147).

What of this the manual leaves open is the model's own choice, by log entries 5 and 60. -/
def Obligations.VectorMemory : Prop :=
  (∀ (s : State) (sc : Sched) (d X : Opnd) (bp : BitVec 4) (sz : VSize) (m : BitVec 3) (off : BitVec 24) (o17 : BitVec 17)
    (key : Nat → Nat), Readable s (baseOp bp) .w64 → Readable s X .vec → Orderly s →
    let e := match sz with | .full => 4 | .half => 2 | .byte => 1
    let act := s.cur.mask m
    let base := s.val64 (baseOp bp)
    let row := fun i : Nat => base + BitVec.ofInt 64 off.toInt + BitVec.ofNat 64 (e * i)
    let gat := fun i : Nat => base + BitVec.ofInt 64 o17.toInt + BitVec.ofNat 64 (e * (lane (s.valV 1 X) i).toNat)
    let mem := lanesUnder act fun i => BitVec.ofNat 32 (s.rdNat (key i) e)
    let mark := fun (path : Path) (a : Nat → DWord) =>
      ((List.range 16).filter fun i => act.getLsbD i).findSome? fun i => s.readMark path (a i) (key i) e
    ((∀ i, i < 16 → act.getLsbD i = true → Mapped s (row i) ∧ s.access .read (row i) e i = .ok (key i)) →
      exec (.vld sc d bp sz m off) s = .next (s.putVM sc d 6 mem (mark .own row))) ∧
    ((∀ i, i < 16 → act.getLsbD i = true → Mapped s (gat i) ∧ s.access .read (gat i) e i = .ok (key i)) →
      exec (.vldg sc d bp sz m X o17) s = .next (s.putVM sc d 12 mem (mark .ga gat)))) ∧
  (∀ (s : State) (D X : Opnd) (bp : BitVec 4) (sz : VSize) (m : BitVec 3) (off : BitVec 24) (o17 : BitVec 17)
    (key : Nat → Nat), Readable s (baseOp bp) .w64 → Readable s X .vec → Readable s D .vec → Orderly s →
    let e := match sz with | .full => 4 | .half => 2 | .byte => 1
    let act := s.cur.mask m
    let on := (List.range 16).filter fun i => act.getLsbD i
    let base := s.val64 (baseOp bp)
    let row := fun i : Nat => base + BitVec.ofInt 64 off.toInt + BitVec.ofNat 64 (e * i)
    let gat := fun i : Nat => base + BitVec.ofInt 64 o17.toInt + BitVec.ofNat 64 (e * (lane (s.valV 1 X) i).toNat)
    let stored := on.foldl (fun (u : State) i => u.wr (key i) (bytesOf e (lane (s.valV 1 D) i).toNat)) s
    let whole := sz = .full ∧ act = 0xFFFF ∧ (row 0).toNat % 64 = 0
    let served := ∀ i ∈ on, s.served (key i) true = true
    (served → NoneOwed s → (∀ i ∈ on, Mapped s (row i) ∧ s.access .write (row i) e i = .ok (key i)) →
      exec (.vst D bp sz m off) s = .next (if whole then
        { stored with mem := { stored.mem with poison := stored.mem.poison.filter (· != key 15 / 64) } } else stored)) ∧
    (served → (∀ i ∈ on, Mapped s (gat i) ∧ s.access .write (gat i) e i = .ok (key i)) →
      exec (.vsts D bp sz m X o17) s = .next stored) ∧
    (∀ i ∈ on, s.served (key i) true = false → (∀ j ∈ on, j < i → s.served (key j) true = true) →
      (∀ i ∈ on, s.access .write (row i) e i = .ok (key i)) →
      ∃ t, exec (.vst D bp sz m off) s = .next t ∧
        t.cur.deferred = s.cur.deferred ++ [⟨row i, 0x0A, 1, BitVec.ofNat 4 i, .own⟩]) ∧
    ∀ b, (∀ i ∈ on, b < key i ∨ key i + e ≤ b) → stored.mem.read b = s.mem.read b)

/-! ## Streams -/

/-- The STRM instructions (R178, R181, R182, R183) outside service slices, with the operands readable and no access out of
order, on a stream that no rule and no install in the queue has captured, with no operation whose claims are still
unknown: `stcfg` gives the stream the descriptor of its block, with nothing
claimed, or stops with the first field that fails R178; `stadv` claims and consumes pieces, and past the end leaves the
stream exhausted; `ststat` delivers pieces claimed, a fill of 0 to 128, the state and the cause; `stcut` leaves the stream
unconfigured where no claimed piece is still to be delivered or written, and else unconfigured to every claim and STRM
instruction while those pieces are delivered first. Other streams are as before.

Fills and output writes (R179, R180), shown for four-byte types: `streamFill` reads the stream's next piece, element
(i, e) of piece p from base + p x piece stride + i x row stride + 4e, where the gate and the FIFO let it, and changes
nothing else; `streamOutputWrite` writes the oldest piece handed out to a scratchpad stream, row by row, to the same
places, no access standing out of order. Neither does anything while the core is frozen (R27), and no piece is written while one
handed out before it on another stream is still to be written to a home and lane of it (R167).

What of this the manual leaves open is the model's own choice, by log entries 7, 27 and 28. -/
def Obligations.Streams : Prop :=
  (∀ (s : State) (sc : Sched) (d a : Opnd) (n bp : BitVec 4) (off : BitVec 20) (key : Nat),
    Readable s (baseOp bp) .w64 → Readable s a .w32 → Orderly s →
    s.serving = false → s.bank.isCaptured n = false → s.bank.lateClaims = false →
    let va := s.val64 (baseOp bp) + off.setWidth 64
    Mapped s va →
    let x := s.bank.stream n
    let bs := s.rd key 64
    let k := (s.val32 a).toNat
    let sets := fun (y : Strm) => { s with bank := { s.bank with streams := s.bank.streams.set n.toNat y } }
    (BlockRead s va key 64 → (∀ c ∈ strChecks bs, c.2 = false) →
      ∃ y, exec (.stcfg n bp off) s = .next (sets y) ∧ y.desc = strDescOf bs ∧ y.claimed = 0 ∧ y.consumed = 0 ∧
        y.cause = 0 ∧ y.owner = s.turn ∧ y.cut = false ∧ y.gen = x.gen + 1 ∧
        y.state = if (s.rdNat (key + 2) 1).testBit 0 then .output else .input) ∧
    (BlockRead s va key 64 → ∀ c l l', strChecks bs = l ++ (c, true) :: l' → (∀ e ∈ l, e.2 = false) →
      exec (.stcfg n bp off) s = .next { s.takeTrap (s.trapAt 0x0D (BitVec.ofNat 8 (0x80 + c)) va) with
        verdict := .trapped false }) ∧
    (x.cut = false → x.state ∈ [.input, .output, .exhausted] → ∃ y, exec (.stadv n a) s = .next (sets y) ∧ y.desc = x.desc ∧
      if x.desc.flags.testBit 1 = false ∧ x.desc.count ≠ 0 ∧ x.desc.count < x.claimed + k
        then y.claimed = x.desc.count ∧ y.state = .exhausted
        else y.claimed = x.claimed + k ∧ y.consumed = x.claimed + k ∧ y.state = x.state) ∧
    (∃ fill, fill ≤ 128 ∧ exec (.ststat sc d n) s = .next (({ s with free := s.free + 1 }).put64 sc d 2
      (BitVec.ofNat 64 (x.claimed % 2 ^ 32 * 2 ^ 32 + fill * 2 ^ 16 + x.cause.toNat + 2 ^ 8 *
        (match x.state with | .unconf => 0 | .input => 1 | .output => 2 | .exhausted => 3 | .faulted => 4))))) ∧
    (x.cut = true → exec (.stadv n a) s = .next { s.takeTrap (s.trapAt 0x0D 0x01 0) with verdict := .trapped false }) ∧
    (let idle := x.outq = [] ∧ ∀ o ∈ s.bank.eng, ∀ c ∈ o.claims, c.st ≠ n
    ∃ y, exec (.stcut n) s = .next (sets y) ∧ y.desc = x.desc ∧ y.claimed = x.claimed ∧ y.outq = x.outq ∧
      (idle → y.state = .unconf ∧ y.cut = false ∧ y.buf = []) ∧ (¬idle → y.state = x.state ∧ y.cut = true))) ∧
  (∀ (s : State) (n : BitVec 4) (key : Nat → Nat → Nat), s.shadow = none → s.freezes = [] →
    s.held = [] → s.reads = [] → (∀ e ∈ s.pend, e.seen = none) →
    let x := s.bank.stream n
    let sets := fun (y : Strm) => { s with bank := { s.bank with streams := s.bank.streams.set n.toNat y } }
    (∀ p, s.bank.mayFill n = some p → s.fillWaits x.desc p = false → s.refresh.2 ≤ s.wall → x.desc.ty ∈ [0, 1, 6] → x.desc.wraps = false →
      (∀ i e, i < x.desc.rows → e < x.desc.cols →
        s.locateW s.cx s.bank.run .read ((x.desc.base + (p * x.desc.pstr + i * x.desc.rstr) + 4 * e) % 2 ^ 64) 4
          = .at (key i e) ∧ s.served (key i e) false = true) →
      ∃ q : Piece, exec (.streamFill n) s = .next (sets { x with filled := p + 1, buf := x.buf ++ [q] }) ∧ q.idx = p ∧
        q.fault = none ∧ q.elems = (List.range x.desc.rows).flatMap fun i => (List.range x.desc.cols).map fun e =>
          BitVec.ofNat 32 (s.rdNat (key i e) 4)) ∧
    (s.bank.mayFill n = none → exec (.streamFill n) s = .next s) ∧
    (∀ (e : OutP) (rest : List OutP), x.outq = e :: rest →
      (∃ y ∈ s.bank.streams.toList, ∃ e' ∈ y.outq, e'.no < e.no ∧ ∃ l, l ∈ s.outLanes e' ∧ l ∈ s.outLanes e) →
      exec (.streamOutputWrite n) s = .next s) ∧
    (∀ (e : OutP) (rest : List OutP) (r : Run),
      let o := e.desc
      let q := e.piece
      x.outq = e :: rest → x.cut = false →
      (∀ y ∈ s.bank.streams.toList, ∀ e' ∈ y.outq, e'.no < e.no → ∀ l ∈ s.outLanes e', l ∉ s.outLanes e) →
      s.bank.run = some r → (r.service && r.interrupts) = false →
      s.coreId < 1536 → o.ty ∈ [0, 1, 6] → o.wraps = false → q.elems.length = q.rows * q.cols → (∀ b ∈ q.bad, b = false) →
      let place := fun i e => o.base + (q.idx * o.pstr + i * o.rstr) + 4 * e
      (∀ i e, i < q.rows → e < q.cols → 31 * 2 ^ 52 ≤ place i e ∧ place i e + 4 ≤ 31 * 2 ^ 52 + 2 ^ 21 ∧
        place i e % 4 = 0) →
      exec (.streamOutputWrite n) s = .next ((List.range q.rows).foldl (fun u i => (List.range q.cols).foldl (fun u e =>
        u.wr (2 ^ 54 + s.coreId * 2 ^ 21 + (place i e - 31 * 2 ^ 52)) (bytesOf 4 (q.elems.getD (i * q.cols + e) 0).toNat)) u)
        (sets { x with outq := rest }))) ∧
    (x.outq = [] → exec (.streamOutputWrite n) s = .next s) ∧
    ∀ u : State, u.freezes ≠ [] → exec (.streamFill n) u = .next u ∧ exec (.streamOutputWrite n) u = .next u)

/-! ## The engine's queue -/

/-- The instructions of MTX, TILE, VOC, ATT, OPEN and REC enter the engine's queue when they issue, take the next sequence
number and a token that is still to land (R26, R192, R193, R206, R210), with the operands that each reads at issue;
nothing else changes but stream claims and the pending tag, no access standing out of order and the translation of a block
that is read at issue being at hand. `recflag` sets the pending tag where its A is a tag (R270).

The joint operation (R191, R192): C0's part enters one operation for the four clusters, led by the cluster of the core's
joint count modulo 4, and raises the count; each other cluster joins the operation that lacks members, with its own token.

What a service slice may not issue (R342): every instruction of the engine, its installs, the streams and the copy
channels raises cause 0x07 at its bundle there, whatever its operands.

What of this the manual leaves open is the model's own choice, by log entry 57. -/
def Obligations.EngineIssue : Prop :=
  (∀ (s : State) (ac f4 b4 : BitVec 2) (sa sb sx fn hx bp : BitVec 4) (t : Ty) (ta tb x1 x2 : Bool) (kc slot : BitVec 6)
    (rows cols : BitVec 7) (e8 : Byte) (r : Rnd) (d a : Opnd) (o18 : BitVec 18) (o23 : BitVec 23) (o24 : BitVec 24)
    (key : Nat), s.serving = false → s.cur.deferred = [] → Orderly s →
    Readable s (baseOp bp) .w64 → Readable s (baseOp sa) .w64 → Readable s (baseOp sb) .w64 → Readable s (baseOp sx) .w64 →
    Readable s a .w32 → Readable s a .w64 →
    let base := s.val64 (baseOp bp)
    let enters := fun (i : Instr) (d : Opnd) (wide : Bool) (f : EngOp → Prop) =>
      ∃ u, exec i s = .next u ∧ Enters s u i d wide f
    (∀ i ∈ [Instr.mma ac sa sb t ta tb kc, .tmm ac sa sb ta tb kc, .tmmt ac sa sb t kc, .tmmw ac sa sb t kc,
        .acfg ac x1 rows cols x2, .aczero ac x1, .acdrain ac sa sb sx t ta tb x1 r, .acload ac sa x1, .tadd ac sa t f4,
        .tmul ac sa t f4, .tact ac fn, .tactd ac sa t fn, .trms ac sx t e8, .trmsd ac sa sx t e8, .tsmax ac sx x1,
        .tsmaxd ac sa t, .tscale ac sa t, .vproj ac sa sb t ta tb kc, .vprojd ac sa sb sx t hx x1 kc],
      enters i (.q 0) false fun _ => True) ∧
    enters (.vmerge sa sb sx rows) (.q 0) false (fun o =>
      o.valA = s.val64 (baseOp sa) ∧ o.valB = s.val64 (baseOp sb) ∧ o.addr = s.val64 (baseOp sx)) ∧
    enters (.attn d bp o23) d false (fun o => o.addr = base + o23.setWidth 64) ∧
    enters (.attnd d bp a o23) d false (fun o => o.addr = base + o23.setWidth 64 ∧ o.valA = s.val64 a) ∧
    enters (.omap d bp o23 a) d false (fun o => o.addr = base + o23.setWidth 64 ∧ o.valA = (s.val32 a).setWidth 64) ∧
    enters (.recbeg d bp o24) d false (fun o => o.addr = base + o24.setWidth 64) ∧
    enters (.reverse d bp o24 a) d false (fun o => o.addr = base + o24.setWidth 64 ∧ o.valA = (s.val32 a).setWidth 64) ∧
    enters (.recend d) d false (fun _ => True) ∧
    (∃ u, exec (.recflag d a) s = .next u ∧ Enters s u (.recflag d a) d false (fun o => o.valA = s.val64 a) ∧
      u.cur.tag = if (tagOf (s.val64 a)).ok then s.val64 a else s.cur.tag) ∧
    (∀ i ∈ [Instr.extend d slot a, .extendC d slot a, .revoke d a, .rlresume d a, .rlstat d a],
      enters i d true fun o => o.valA = (s.val32 a).setWidth 64) ∧
    enters (.revokeAt d a bp) d true (fun o => o.valA = (s.val32 a).setWidth 64 ∧ o.valB = base) ∧
    (Mapped s (base + o18.setWidth 64) → BlockRead s (base + o18.setWidth 64) key 64 → enters (.otcfg d slot bp o18) d false fun o =>
      o.addr = base + o18.setWidth 64 ∧ o.blk = s.rd key 64) ∧
    (∀ w ∈ [Stand.mma ac sa sb slot t ta tb kc, .tmm ac sa sb slot ta tb kc, .tadd ac sa slot t b4, .tmul ac sa slot t b4,
        .tact ac slot fn, .tactd ac sa slot t fn, .trms ac sx slot t e8, .trmsd ac sa sx slot t e8, .tsmax ac sx slot x1, .tsmaxd ac sa slot t,
        .tscale ac sa slot t, .vproj ac sa sb slot t ta tb kc], enters (.standInstall w) (.q 0) false fun _ => True) ∧
    enters (.standInstall (.attn d bp a o23)) d false (fun o =>
      o.addr = base + o23.setWidth 64 ∧ o.valA = (s.val32 a).setWidth 64) ∧
    enters (.standInstall (.omap d bp o23)) d false (fun o => o.addr = base + o23.setWidth 64) ∧
    (∀ b, s.copyBlock .cpy (base + o23.setWidth 64) = .ok b → BlockRead s (base + o23.setWidth 64) key 64 →
      Mapped s (base + o23.setWidth 64) → (s.val32 a).toNat < 64 → enters (.standInstall (.cpy d bp a o23)) d false fun o =>
        o.addr = base + o23.setWidth 64 ∧ o.valA = (s.val32 a).setWidth 64 ∧ o.blk = s.rd key 64)) ∧
  (∀ (s : State) (p : Prod) (ac : BitVec 2) (t : Ty) (ta tb : Bool) (kc : BitVec 6), s.serving = false →
    let i := Instr.jointOperation p ac t ta tb kc
    (s.turn = 0 → ∃ u o, exec i s = .next u ∧ u.bank.eng = s.bank.eng ++ [o] ∧ o.ins = i ∧ o.seq = s.bank.seq ∧
      o.owner.val = s.bank.joint % 4 ∧ o.members = [(0, s.bank.uid)] ∧ u.bank.joint = s.bank.joint + 1 ∧
      u.bank.seq = s.bank.seq + 1 ∧ u.cur.bun = withToken s (.q 0) false 0 .token ∧ u.mem = s.mem) ∧
    (s.turn ≠ 0 → ∀ l o l', s.bank.eng = l ++ o :: l' → o.lacksMembers = true → (∀ x ∈ l ++ l', x.lacksMembers = false) →
      ∃ u o', exec i s = .next u ∧ u.bank.eng = l ++ o' :: l' ∧ o'.ins = o.ins ∧
      o'.seq = o.seq ∧ o'.owner = o.owner ∧ o'.claims = o.claims ∧ o'.members = o.members ++ [(s.turn, s.bank.uid)] ∧
      u.bank.joint = s.bank.joint ∧ u.cur.bun = withToken s (.q 0) false 0 .token ∧ u.mem = s.mem)) ∧
  (∀ (s : State) (ac b2 f2 ch : BitVec 2) (sa sb sx fn hx bp sn : BitVec 4) (t : Ty) (ta tb x1 x2 : Bool) (kc slot : BitVec 6)
    (rows cols : BitVec 7) (e8 : Byte) (r : Rnd) (sc : Sched) (d a : Opnd) (o18 : BitVec 18) (o20 : BitVec 20)
    (o23 : BitVec 23) (o24 : BitVec 24) (p : Prod) (w : Stand), s.serving = true →
    ∀ i ∈ [Instr.stcfg sn bp o20, .stadv sn a, .ststat sc d sn, .stcut sn, .mma ac sa sb t ta tb kc,
        .tmm ac sa sb ta tb kc, .tmmt ac sa sb t kc, .tmmw ac sa sb t kc, .jointOperation p ac t ta tb kc,
        .acfg ac x1 rows cols x2, .aczero ac x1, .acdrain ac sa sb sx t ta tb x1 r, .acload ac sa x1, .tadd ac sa t b2,
        .tmul ac sa t f2, .tact ac fn, .tactd ac sa t fn, .trms ac sx t e8, .trmsd ac sa sx t e8, .tsmax ac sx x1,
        .tsmaxd ac sa t, .tscale ac sa t, .vproj ac sa sb t ta tb kc, .vmerge sa sb sx rows,
        .vprojd ac sa sb sx t hx x1 kc, .attn d bp o23, .attnd d bp a o23, .otcfg d slot bp o18, .extend d slot a,
        .extendC d slot a, .revoke d a, .revokeAt d a bp, .rlresume d a, .rlstat d a, .omap d bp o23 a, .standInstall w,
        .recbeg d bp o24, .recend d, .reverse d bp o24 a, .recflag d a, .cpy d bp o23, .cpyg d bp o23, .cpys d bp o23,
        .cpymc d bp o23, .cpred d bp o23, .cpwait d ch a, .cpdone d ch a],
      exec i s = .next { s.takeTrap (s.trapAt 0x07 0 0) with verdict := .trapped false })

/-- Claims (R181, R188, R189, R198): an operation that reads one piece of one stream claims the stream's next piece when it
issues, a product the next kc pieces of each of its two streams; a claim past the end of a bounded stream without wrap
is not made, the stream is exhausted, and the operation carries cause 0x0D with subcode 0x02, on an unconfigured one with
subcode 0x01, and on a stream that a rule, or an install ahead in the queue (R212), has captured with subcode 0x12. No install
of `attn` stands in the queue, whose streams are known only when it runs.

What of this the manual leaves open is the model's own choice, by log entry 27. -/
def Obligations.EngineClaims : Prop :=
  ∀ (s : State) (ac b2 : BitVec 2) (n n' : BitVec 4) (t : Ty) (ta tb x1 : Bool) (fn : BitVec 4) (kc : BitVec 6) (e8 : Byte),
    s.serving = false → (∀ o ∈ s.bank.eng, attnInstall o.ins = false) →
    let x := s.bank.stream n
    let x' := s.bank.stream n'
    let ends := fun (y : Strm) (k : Nat) => y.desc.wraps = false ∧ y.desc.count ≠ 0 ∧ y.desc.count < y.claimed + k
    let live := fun (y : Strm) => y.cut = false ∧ (y.state = .input ∨ y.state = .output)
    let free := fun (m : BitVec 4) => s.bank.isCaptured m = false
    let claim := fun (m : BitVec 4) (k : Nat) =>
      (⟨m, (s.bank.stream m).gen, (s.bank.stream m).claimed, k, 0, (s.bank.stream m).desc⟩ : Claim)
    let gives := fun (i : Instr) (P : EngOp → State → Prop) =>
      ∃ u o, exec i s = .next u ∧ u.bank.eng = s.bank.eng ++ [o] ∧ P o u
    (∀ i ∈ [Instr.acload ac n x1, .tadd ac n t b2, .tmul ac n t b2, .tactd ac n t fn, .trms ac n t e8, .tsmax ac n true,
        .tsmaxd ac n t, .tscale ac n t],
      (free n → live x → ¬ends x 1 → gives i fun o u => o.claims = [claim n 1] ∧ o.err = none ∧
        u.bank.streams = s.bank.streams.set n.toNat { x with claimed := x.claimed + 1 }) ∧
      (free n → live x → ends x 1 → gives i fun o u => o.claims = [] ∧ (∃ e, o.err = some e ∧ e.cause = 0x0D ∧ e.sub = 0x02) ∧
        (u.bank.stream n).state = .exhausted) ∧
      (free n → x.state = .unconf → gives i fun o u => o.claims = [] ∧
        (∃ e, o.err = some e ∧ e.cause = 0x0D ∧ e.sub = 0x01) ∧ (u.bank.stream n).state = .unconf) ∧
      (¬free n → gives i fun o u => o.claims = [] ∧ (∃ e, o.err = some e ∧ e.cause = 0x0D ∧ e.sub = 0x12) ∧
        (u.bank.stream n).claimed = x.claimed)) ∧
    (n ≠ n' → free n → free n' → live x → live x' → ¬ends x (kc.toNat + 1) → ¬ends x' (kc.toNat + 1) →
      ∀ i ∈ [Instr.mma ac n n' t ta tb kc, .tmm ac n n' ta tb kc, .tmmt ac n n' t kc, .tmmw ac n n' t kc],
        gives i fun o u => o.claims = [claim n (kc.toNat + 1), claim n' (kc.toNat + 1)] ∧ o.err = none ∧
          u.bank.streams = (s.bank.streams.set n.toNat { x with claimed := x.claimed + (kc.toNat + 1) }).set n'.toNat
            { x' with claimed := x'.claimed + (kc.toNat + 1) })

/-- The engine at the head of its queue (R186, R187, R193, R205, R208, R219, R220), for an operation without a fault on a core
that is neither serving nor recording, issued by one agent: the operation leaves the queue, its token lands with its
sequence number or with the value the operation gives, and the accumulator, slot or rule changes as its rule says.

Operations that read or write one piece, at the head of the queue (R187, R188, R197, R198), with the types and shapes that
their rule asks for, on a core that is neither serving nor recording, where the piece is read without a fault and holds no
poison: `acload` puts the piece into the accumulator; `tadd` adds it modulo 2^32, or for f32 as `tmul` multiplies by it, with
the broadcast of its field; `tscale` multiplies every element by one; `acdrain` without scales hands the accumulator out as
the claimed piece, poisoned row by row, and leaves it live only where KEEP asks so. The claimed piece of an input is
consumed, the token lands, and no byte of memory changes.

A fault of the engine (R195): the operation that stopped stays at the head of the queue and nothing runs past it; its
delivery takes the trap at the issuing agent with the operation's address, subcode and fault
address, and the frame's tail; where no fault is held, delivery changes nothing.

What of this the manual leaves open is the model's own choice, by log entries 6, 11, 27 and 28. -/
def Obligations.EngineRuns : Prop :=
  (∀ (s : State) (o : EngOp) (os : List EngOp) (ac : BitVec 2) (i32 disc : Bool) (rows cols : BitVec 7) (d a : Opnd)
    (slot : BitVec 6), s.shadow = none → s.freezes = [] → s.bank.recm.on = false → (∀ e ∈ s.pend, e.seen = none) →
    s.bank.eng = o :: os → o.err = none → o.rule = none → o.members = [] → o.claims = [] →
    let x := s.bank.acc ac
    let y := s.bank.slot slot
    let r : BitVec 5 := BitVec.ofNat 5 o.valA.toNat
    let n := o.valA.toNat
    let ring := y.ring = false ∨ y.fill + n ≤ y.cap + s.bank.consumeMark slot
    let runs := fun (v : DWord) (P : State → Prop) => ∃ t, exec .engineOpComplete s = .next t ∧ t.bank.eng = os ∧
      t.agent o.owner = (s.agent o.owner).landToken o.uid v 0 ∧ t.mem = s.mem ∧ P t
    let cleared := fun (u : State) (rows cols : Nat) (i32 : Bool) =>
      (u.bank.acc ac).rows = rows ∧ (u.bank.acc ac).cols = cols ∧ (u.bank.acc ac).isI32 = i32 ∧
      (u.bank.acc ac).live = false ∧ (u.bank.acc ac).poison = 0 ∧ ∀ i n, (u.bank.acc ac).at i n = 0
    (o.ins = .acfg ac i32 rows cols disc → x.live = false ∨ disc = true →
      runs (o.seq.setWidth 64) fun u => cleared u (rows.toNat + 1) (cols.toNat + 1) i32) ∧
    (o.ins = .aczero ac i32 → x.isI32 = i32 → runs (o.seq.setWidth 64) fun u => cleared u x.rows x.cols i32) ∧
    (o.ins = .extend d slot a → y.conf = true → s.bank.owesOutput o.owner = false → ring →
      runs (BitVec.ofNat 64 (y.fill + n)) fun u => (u.bank.slot slot) = { y with fill := y.fill + n }) ∧
    (o.ins = .extend d slot a → y.conf = true → s.bank.owesOutput o.owner = false → ¬ring →
      runs 0xFFFFFFFFFFFFFFFF fun u => u.bank.slots = s.bank.slots) ∧
    (o.ins = .rlstat d a → n < 32 → runs (s.bank.status r) fun u => u.bank.rules = s.bank.rules) ∧
    (o.ins = .revoke d a → n < 32 → (s.bank.rule r).state ∈ [.armed, .faulted, .parked] →
      ∃ v, runs v fun u => (u.bank.rule r).state = .revoked ∧ v = u.bank.status r) ∧
    (o.ins = .rlresume d a → n < 32 → (s.bank.rule r).state ∈ [.faulted, .parked] →
      ∃ v, runs v fun u => u.bank.rules = s.bank.rules.set r.toNat { s.bank.rule r with state := .armed, limitHit := false } ∧
        v = u.bank.status r)) ∧
  (∀ (s : State) (o : EngOp) (os : List EngOp) (ac b : BitVec 2) (n m : BitVec 4) (i32 keep : Bool) (r : Rnd) (c : Claim),
    s.shadow = none → s.freezes = [] → s.bank.recm.on = false → (∀ e ∈ s.pend, e.seen = none) →
    s.bank.eng = o :: os → o.err = none → o.rule = none → o.members = [] → o.claims = [c] → o.need = BitVec.allOnes 128 →
    o.flags = 0 → s.opWaits o = false →
    let x := s.bank.acc ac
    let p := s.pieceOf c 0
    let runs := fun (P : State → Prop) => ∃ t f, exec .engineOpComplete s = .next t ∧ t.bank.eng = os ∧ t.mem = s.mem ∧
      t.agent o.owner = (s.agent o.owner).landToken o.uid (o.seq.setWidth 64) f ∧ P t
    let reads := c.desc.isOut = false ∧ p.fault = none ∧ ∀ y ∈ p.bad, y = false
    let shape := fun (k l : Nat) => c.desc.rows = k ∧ c.desc.cols = l
    let bc := if b = 0 then shape x.rows x.cols else if b = 1 then shape 1 x.cols else shape x.rows 1
    let v := fun (i j : Nat) => p.at (if b = 1 then 0 else i) (if b = 0 ∨ b = 1 then j else 0)
    let becomes := fun (poison : BitVec 128) (g : Nat → Nat → Word) (t : State) =>
      (t.bank.acc ac).live = true ∧ (t.bank.acc ac).poison = poison ∧ (t.bank.acc ac).isI32 = x.isI32 ∧
      (t.bank.acc ac).rows = x.rows ∧ (t.bank.acc ac).cols = x.cols ∧
      (∀ i j, i < x.rows → j < x.cols → (t.bank.acc ac).at i j = g i j) ∧
      ((s.bank.stream c.st).gen = c.gen → (t.bank.stream c.st).consumed = c.first + c.count)
    x.rows ≤ 128 →
    (o.ins = .acload ac n i32 → x.isI32 = i32 → reads → c.desc.ty = (if i32 then 0 else 6) → shape x.rows x.cols →
      runs (becomes 0 fun i j => BitVec.ofNat 32 (p.at i j))) ∧
    (o.ins = .tadd ac n .i32 b → x.isI32 = true → reads → c.desc.ty = 0 → bc →
      runs (becomes x.poison fun i j => x.at i j + BitVec.ofNat 32 (v i j))) ∧
    (x.isI32 = false → reads → c.desc.ty = 6 → bc →
      (o.ins = .tadd ac n .f32 b → runs (becomes x.poison fun i j => BitVec.ofNat 32 (f32Add (x.at i j).toNat (v i j)).1)) ∧
      (o.ins = .tmul ac n .f32 b → runs (becomes x.poison fun i j => BitVec.ofNat 32 (f32Mul (x.at i j).toNat (v i j)).1))) ∧
    (o.ins = .tscale ac n .f32 → x.isI32 = false → reads → c.desc.ty = 6 → shape 1 1 →
      runs (becomes x.poison fun i j => BitVec.ofNat 32 (f32Mul (x.at i j).toNat (p.at 0 0)).1)) ∧
    (o.ins = .acdrain ac n m m (if i32 then .i32 else .f32) false false keep r → x.isI32 = i32 → c.desc.isOut = true →
      c.desc.ty = (if i32 then 0 else 6) → shape x.rows x.cols → s.drainBad c x.rows x.cols = none →
      runs fun t => ∃ e : OutP, (t.bank.stream c.st).outq = (s.bank.stream c.st).outq ++ [e] ∧ e.desc = c.desc ∧
        e.piece.idx = c.first ∧ e.piece.rows = x.rows ∧ e.piece.cols = x.cols ∧
        e.piece.elems = ((List.range x.rows).flatMap fun i => (List.range x.cols).map fun j => x.at i j) ∧
        e.piece.bad = ((List.range x.rows).flatMap fun i => List.replicate x.cols (x.poison.getLsbD i)) ∧
        (t.bank.acc ac) = { x with live := x.live && keep })) ∧
  (∀ (s : State) (o : EngOp) (os : List EngOp) (e : EngErr), s.bank.eng = o :: os → o.err = some e → o.rule = none →
    (s.shadow = none → s.freezes = [] → s.held = [] → (∀ x ∈ s.pend, x.seen = none) → exec .engineOpComplete s = .next { s with engAt := s.wall + 1 }) ∧
    (∃ q : TrapReq, exec .engineFaultDelivery s = .next (s.takeTrap q) ∧ q.cause = e.cause ∧ q.sub = e.sub ∧
      q.agent = o.owner ∧ q.pc = o.pc ∧ q.resume = (s.agent o.owner).pc ∧ q.addr = e.addr ∧
      q.tail = (if e.tail.isEmpty then s.bank.engTail o e else e.tail) ∧
      q.engine = true) ∧
    ∀ u : State, u.bank.eng = [] ∨ (∃ o' os', u.bank.eng = o' :: os' ∧ o'.err = none) →
      exec .engineFaultDelivery u = .next u)

/-- The ternary product (R72, R190): for one chunk of a `tmm` whose pieces have the types and shapes of R189, are read
without a fault and hold no poison, element (i, n) of the accumulator takes the sum over k of the trit of B times the
signed byte of A, added modulo 2^32; TA and TB say which side of a piece is k.

What of this the manual leaves open is the model's own choice, by log entry 11. -/
def Obligations.TernaryProduct : Prop :=
  ∀ (s : State) (o : EngOp) (os : List EngOp) (ac : BitVec 2) (sa sb : BitVec 4) (ta tb : Bool) (ca cb : Claim)
    (pa pb : Piece), s.shadow = none → s.freezes = [] → s.bank.recm.on = false → (∀ e ∈ s.pend, e.seen = none) →
    s.bank.eng = o :: os → o.err = none → o.rule = none → o.members = [] → o.ins = .tmm ac sa sb ta tb 0 →
    o.claims = [ca, cb] → o.chunk = 0 → o.need = BitVec.allOnes 128 → o.flags = 0 → s.opWaits o = false →
    let x := s.bank.acc ac
    x.isI32 = true → x.rows ≤ 128 → ca.desc.isOut = false → cb.desc.isOut = false → ca.desc.ty = 4 → cb.desc.ty = 12 →
    (if ta then ca.desc.rows = 32 ∧ ca.desc.cols = x.rows else ca.desc.rows = x.rows ∧ ca.desc.cols = 32) →
    (if tb then cb.desc.rows = x.cols ∧ cb.desc.cols = 32 else cb.desc.rows = 32 ∧ cb.desc.cols = x.cols) →
    ca.desc.sbase = 0 → cb.desc.sbase = 0 → s.pieceOf ca 0 = pa → s.pieceOf cb 0 = pb →
    (∀ p ∈ [pa, pb], p.fault = none ∧ p.scales = [] ∧ p.tc = false ∧ ∀ b ∈ p.bad, b = false) →
    let a := fun i k => (BitVec.ofNat 8 (if ta then pa.at k i else pa.at i k)).toInt
    let b := fun k n => match (if tb then pb.at n k else pb.at k n) with | 1 => (1 : Int) | 2 => -1 | _ => 0
    ∃ t, exec .engineOpComplete s = .next t ∧ t.bank.eng = os ∧ t.mem = s.mem ∧ (t.bank.acc ac).live = true ∧
      t.agent o.owner = (s.agent o.owner).landToken o.uid (o.seq.setWidth 64) 0 ∧
      ∀ i n, i < x.rows → n < x.cols →
        (t.bank.acc ac).at i n
          = BitVec.ofInt 32 ((x.at i n).toInt + ((List.range 32).map fun k => b k n * a i k).sum)

/-! ## Copies -/

/-- The copy instructions (R284, R285, R287, R289, R295) outside service slices, the block's translation being at hand and
no access out of order: a block that passes R287 enters the queue
of its channel under the channel's next identifier, which the token gives, and waits while 16 copies stand there; the
first field that fails raises cause 0x12 with its offset; `cpwait` waits until the done mark has reached its identifier
and `cpdone` says whether it has; an identifier not yet given raises cause 0x12 with subcode 0x01.

What of this the manual leaves open is the model's own choice, by log entry 25. -/
def Obligations.CopyIssue : Prop :=
  ∀ (s : State) (d a : Opnd) (bp : BitVec 4) (off : BitVec 23) (ch : BitVec 2) (key : Nat),
    Readable s (baseOp bp) .w64 → Readable s a .w32 → s.serving = false → Orderly s →
    let va := s.val64 (baseOp bp) + off.setWidth 64
    Mapped s va →
    let c := s.bank.chan ch
    let x := s.val32 a
    let after := fun (y z : Word) => (y - z).toNat < 2 ^ 31
    let fails := fun (i : Instr) (sub : Byte) (v : DWord) =>
      exec i s = .next { s.takeTrap (s.trapAt 0x12 sub v) with verdict := .trapped false }
    (∀ p ∈ [(CopyKind.cpy, Instr.cpy d bp off), (.cpyg, .cpyg d bp off), (.cpys, .cpys d bp off),
        (.cpymc, .cpymc d bp off), (.cpred, .cpred d bp off)],
      (∀ b, s.copyBlock p.1 va = .ok b →
        let y := s.bank.chan b.chan
        (y.queue.length < 16 → exec p.2 s = .next
          (({ s with bank := { s.bank with uid := s.bank.uid + 1, chans := s.bank.chans.set b.chan.toNat { y with
              queue := y.queue ++ [(⟨y.next, p.1, b, none, s.cur.bun.ipc, 0, 0, 0, 0, none, 0, s.bank.uid⟩ : Copy)]
              next := y.next + 1 } } }).putToken d false (y.next.setWidth 64))) ∧
        (16 ≤ y.queue.length → exec p.2 s = .next { s with verdict := .stall .full })) ∧
      (BlockRead s va key 64 → ∀ n l l', s.copyChecks p.1 (s.rd key 64) = l ++ (n, true) :: l' →
        (∀ e ∈ l, e.2 = false) → fails p.2 (BitVec.ofNat 8 (0x80 + n)) va)) ∧
    (¬after x c.next → after c.done x → exec (.cpwait d ch a) s = .next (s.putToken d false (c.done.setWidth 64))) ∧
    (¬after x c.next → ¬after c.done x → exec (.cpwait d ch a) s = .next { s with verdict := .stall .copy }) ∧
    (¬after x c.next → after c.done x → exec (.cpdone d ch a) s = .next (s.putToken d false 1)) ∧
    (¬after x c.next → ¬after c.done x → exec (.cpdone d ch a) s = .next (s.putToken d false 0)) ∧
    (after x c.next → fails (.cpwait d ch a) 0x01 0 ∧ fails (.cpdone d ch a) 0x01 0)

/-- A copy of the modelled core's channel runs (R284, R285, R290, R293, R296): `copyStart` takes the head of a queue whose
scoreboard entries fit; `copyComplete` of a `cpy` with one row, whose two sides are served, disjoint and unpoisoned,
leaves the source's bytes at the destination and every other byte as it was, completes its identifier and raises the fill
mark of the slot that it extends, where no copy requested before it is left and no pending write counts as performed; the delivery of a channel's oldest fault takes its trap at the access processor.

What of this the manual leaves open is the model's own choice, by log entries 11 and 26. -/
def Obligations.CopyRuns : Prop :=
  ∀ (s : State) (ch : BitVec 2) (x : Copy) (src dst n : Nat), s.shadow = none → (∀ e ∈ s.pend, e.seen = none) →
    let c := s.bank.chan ch
    let at' := fun (k : AKind) (va key : Nat) => ∀ i, i < n →
      s.locateW s.cx s.bank.run k ((va + 8 * i) % 2 ^ 64) 8 = .at (key + 8 * i) ∧ s.served (key + 8 * i) k.writes = true
    (x.kind.indexed = false → s.bank.mayStart ch = some x → s.boardFits (s.boardFor s.bank.run ch x) = true →
      x.indices = none → ∃ t, exec (.copyStart ch) s = .next t ∧ (t.bank.chan ch).queue = c.queue.drop 1 ∧
        (t.bank.chan ch).started = c.started ++ [x] ∧ t.mem = s.mem) ∧
    (s.bank.mayStart ch = none → exec (.copyStart ch) s = .next { s with copyAt := s.wall + 1 }) ∧
    (c.started = [x] → x.kind = .cpy → x.rule = none → x.pos = 0 → x.rowBase = 0 → x.indices = none → x.blk.rows = 1 →
      x.blk.len = 8 * n → x.flags = 0 → c.completed = [] → x.id = c.done + 1 →
      at' .read x.blk.src src → at' .write x.blk.dst dst → src + 8 * n ≤ dst ∨ dst + 8 * n ≤ src →
      s.mem.poison = [] → MemOk s → (∀ k, ∀ d ∈ (s.bank.chan k).started ++ (s.bank.chan k).queue, x.seq ≤ d.seq) →
      ∃ t, exec (.copyComplete ch x.id) s = .next t ∧ (t.bank.chan ch).started = [] ∧ (t.bank.chan ch).done = x.id ∧
        t.rd dst (8 * n) = s.rd src (8 * n) ∧ (∀ b, b < dst ∨ dst + 8 * n ≤ b → t.mem.read b = s.mem.read b) ∧
        (x.blk.extends = true → (t.bank.slot x.blk.slot).fill = (s.bank.slot x.blk.slot).fill + x.blk.amount) ∧
        (x.blk.extends = false → t.bank.slots = s.bank.slots)) ∧
    ((∀ y ∈ c.started, y.id ≠ x.id) → exec (.copyComplete ch x.id) s = .next { s with copyAt := s.wall + 1 }) ∧
    (∀ e es, c.faults = e :: es → ∃ q : TrapReq, exec (.copyFaultDelivery ch) s = .next (s.takeTrap q) ∧
      q.cause = e.cause ∧ q.sub = e.sub ∧ q.agent = apId ∧ q.pc = e.copy.pc ∧ q.resume = (s.agent apId).pc ∧
      q.addr = e.addr) ∧
    (c.faults = [] → exec (.copyFaultDelivery ch) s = .next s)

/-! ## Rules -/

/-- Firing (R213, R214, R215): where a round starts, every rule that is ready fires once, in install order, and the first
enters its queue; the retirement of a firing without a fault arms its rule at the next slice, raises its output slots'
fill marks to that slice, and gives its flags to the installing cluster. While the core is frozen neither happens.

What of this the manual leaves open is the model's own choice, by log entries 11 and 35. -/
def Obligations.Firing : Prop :=
  ∀ (s : State) (r : BitVec 5), s.freezes = [] →
    let b := s.bank
    (b.round = [] → b.readyRules = [] → exec .firingRound s = .next { s with ruleAt := s.wall + 1, bank := { b with firings := [] } }) ∧
    (∀ q qs, b.round = [] → b.readyRules = q :: qs →
      (∀ d bp a off, (b.rule q).form ≠ .cpy d bp a off) → ∃ t o, exec .firingRound s = .next t ∧ t.bank.round = qs ∧
      t.bank.eng = b.eng ++ [o] ∧ o.rule = some (q, (b.rule q).next) ∧ o.ins = standInstr (b.rule q).form ∧
      o.seq = b.seq ∧ t.mem = s.mem ∧ (t.bank.rule q).state = .firing) ∧
    (∀ f, s.shadow = none → (b.rule r).fired = some (f, none) → (b.rule r).revoking = false → (b.rule r).limit = none →
      (∀ d bp a off, (b.rule r).form ≠ .cpy d bp a off) →
      ∃ t, exec (.firingRetire r) s = .next t ∧
        t.bank.rule r = { b.rule r with
          state := .armed, next := (b.rule r).next + 1, fired := none, pinned := false, replays := 0,
          limitHit := false } ∧
        t.agent (b.rule r).cluster = (s.agent (b.rule r).cluster).accrue f ∧ t.mem = s.mem ∧
        ∀ k : BitVec 6, (t.bank.slot k).fill =
          if k ∈ b.outsOf (b.rule r) then Max.max (b.slot k).fill ((b.rule r).next + 1) else (b.slot k).fill) ∧
    (s.shadow = none → (b.rule r).fired = none → exec (.firingRetire r) s = .next s) ∧
    ∀ u : State, u.freezes ≠ [] → exec .firingRound u = .next u ∧ exec (.firingRetire r) u = .next u

/-! ## Queues, scheduling, events -/

/-- The queues between agents (R298, R299): a put to one cluster or to all appends the value to the named queue of each and
changes nothing else; a halted target raises cause 0x14 with subcode 0x10, a full queue stalls the put; `qget` takes the
oldest value of its own queue and waits while it is empty; `qlvl` delivers the number of entries. -/
def Obligations.Queues : Prop :=
  ∀ (s : State) (sc : Sched) (d a : Opnd) (n cl : BitVec 2), Readable s a .w64 → Readable s a .w32 →
    let xq := fun (g : Agent) => g.xq[n.toNat]
    let one : AgentId := ⟨cl.toNat, by have := cl.isLt; omega⟩
    let putX := fun (g : Agent) => { g with xq := g.xq.set n.toNat (xq g ++ [s.val64 a]) }
    let putB := fun (g : Agent) => { g with bq := g.bq ++ [decide (s.val32 a ≠ 0)] }
    let trapped := Host.Outcome.next (φ := Fault) (ρ := Refusal)
      { s.takeTrap (s.trapAt 0x14 0x10 0) with verdict := .trapped false }
    let full := Host.Outcome.next (φ := Fault) (ρ := Refusal) { s with verdict := .stall .full }
    (∀ all, let ts : List AgentId := if all then [0, 1, 2, 3] else [one]
      ((∀ t ∈ ts, (s.agent t).halted = false ∧ (xq (s.agent t)).length < 64) →
        exec (.qput n cl all a) s = .next (ts.foldl (fun u t => u.mapAgent t putX) s)) ∧
      ((∀ t ∈ ts, (s.agent t).halted = false ∧ (s.agent t).bq.length < 64) →
        exec (.bqput cl all a) s = .next (ts.foldl (fun u t => u.mapAgent t putB) s)) ∧
      ((∃ t ∈ ts, (s.agent t).halted = true) →
        exec (.qput n cl all a) s = trapped ∧ exec (.bqput cl all a) s = trapped) ∧
      ((∀ t ∈ ts, (s.agent t).halted = false) →
        ((∃ t ∈ ts, 64 ≤ (xq (s.agent t)).length) → exec (.qput n cl all a) s = full) ∧
        ((∃ t ∈ ts, 64 ≤ (s.agent t).bq.length) → exec (.bqput cl all a) s = full))) ∧
    (∀ v vs, xq s.cur = v :: vs → exec (.qget sc d n) s
      = .next ((s.mapCur fun g => { g with xq := g.xq.set n.toNat vs }).put64 sc d 3 v)) ∧
    (xq s.cur = [] → exec (.qget sc d n) s = .next { s with verdict := .stall .xq }) ∧
    exec (.qlvl sc d n false) s = .next (s.put sc d 2 (BitVec.ofNat 32 (xq s.cur).length)) ∧
    exec (.qlvl sc d n true) s = .next (s.put sc d 2 (BitVec.ofNat 32 s.cur.bq.length))

/-- Scheduling (R303, R305, R307, R313, R316 to R319), with the operands readable, the record reachable, no access out of order
and no deferred error waiting. `spawn` and `launch` deliver 0 for a record that they push, which then stands in state 1, and once the
scheduler looks at it in state 2 if its counter is zero and its wait mask is set, and else the status of the check that failed; `launch` needs a supervisor
context and a context of its partition. `join` takes one from a counter that is not zero and delivers what it was;
`unpark` makes a parked record of the partition ready; `yield` and `slend` end the run when their bundle has issued.

What of this the manual leaves open is the model's own choice, by log entry 24. -/
def Obligations.Scheduling : Prop :=
  ∀ (s : State) (d a : Opnd) (bp : BitVec 4) (off : BitVec 24) (key : Nat),
    Readable s (baseOp bp) .w64 → Readable s a .w32 → Readable s a .w64 → s.cur.deferred = [] → Orderly s →
    let va := s.val64 (baseOp bp) + off.setWidth 64
    let x := s.val32 a
    let old := s.rdNat (key + 0x1C) 4
    let denied := Host.Outcome.next (φ := Fault) (ρ := Refusal)
      { s.takeTrap (s.trapAt 0x07 0 0) with verdict := .trapped false }
    let pushes := fun (i : Instr) (cx : BitVec 6) (dn : Nat) =>
      let die := if dn = 31 then s.die else dn
      let st := recordStatus (s.rd key 64) (decide (8192 ≤ s.storeCount die))
      let sn := s.snapOf cx (s.rd key 64)
      (st ≠ 0 → exec i s = .next (s.putToken d false (BitVec.ofNat 64 st))) ∧
      (st = 0 → 24 ≤ die → exec i s = .next (s.putToken d false 0xFFFFFFFD)) ∧
      (st = 0 → die < 24 → (∀ r ∈ s.recs, ¬(r.ctx = cx ∧ r.addr = va)) → MemOk s → ∃ (u : State) (r : SRec),
        exec i s = .next (u.putToken d false 0) ∧ u.recs = s.recs ++ [r] ∧ u.bank = s.bank ∧ r.ctx = cx ∧ r.addr = va ∧
        r.home = key ∧ r.die = die ∧ r.snap = sn ∧ u.rdNat (key + 0x38) 1 = r.state ∧
        (∀ b, b < key + 0x38 ∨ key + 0x40 ≤ b → u.mem.read b = s.mem.read b) ∧ r.state = 1 ∧
        (s.recs = [] → u.wake.recs
          = [if old = 0 ∧ sn.waitMask &&& ~~~s.ctxs[cx.toNat].ev = 0 then { r with state := 2 } else r]))
    (s.recordAt s.cx s.bank.run va = .ok key → pushes (.spawn d bp off a) s.cx (x.toNat % 32)) ∧
    (let cx : BitVec 6 := x.setWidth 6
     let may := s.supervisor = true ∧ s.ctxs[cx.toNat].defined = true ∧ s.ctxs[cx.toNat].part = s.part
     (may → s.recordAt cx none va = .ok key → pushes (.launch d bp off a) cx (x.toNat / 256 % 32)) ∧
     (¬may → exec (.launch d bp off a) s = denied)) ∧
    (s.access .atomic va 64 0 = .ok key → Mapped s va → s.served key false = true → s.served key true = true →
      s.mem.poisonAt key 64 = none → s.served (key + 0x1C) true = true → ∃ l : List Rel,
      let u := { s with rels := l }
      (old = 0 → exec (.join d bp off) s = .next (u.putToken d false 0)) ∧
      (0 < old → exec (.join d bp off) s
        = .next ((u.wr (key + 0x1C) (bytesOf 4 (old - 1))).putToken d false (BitVec.ofNat 64 old)))) ∧
    (s.supervisor = false → exec (.unpark d bp off) s = denied) ∧
    (s.supervisor = true → s.recordAt s.cx s.bank.run va = .ok key →
      (∀ r, s.recs = [r] → r.home = key → r.state = 4 → s.ctxs[r.ctx.toNat].part = s.part → ∃ u : State,
        exec (.unpark d bp off) s = .next (u.putToken d false 0) ∧ u.recs = [{ r with state := 2 }] ∧ u.bank = s.bank) ∧
      ((∀ r ∈ s.recs, r.home = key → r.state ≠ 4) → exec (.unpark d bp off) s = .next (s.putToken d false 1))) ∧
    exec (.yield a) s = .next (s.mapBun fun b => { b with ends := some (some (s.val64 a)) }) ∧
    exec .slend s = .next (s.mapBun fun b => { b with ends := some none })

/-- Events and barriers (R307, R308, R320, R321): the bit is A[7:0] of the context's vector. `evset` sets it, `evset.err` its
companion with it, and the run notes the bit if it is of its set mask; a waiting record whose counter is zero and whose
wait mask is then set becomes ready as the scheduler looks at it; `evclr` clears both, against which what the cycle has set so far
stands; `evtest` delivers bit and companion, `evwait` too once the bit is set, and stalls before; `bar` waits until every other agent of the core
has reached it or has halted, and so does `bar.g`, which waits too while a member core of the gang is behind. No access stands
out of order.

What of this the manual leaves open is the model's own choice, by log entries 1, 23 and 60. -/
def Obligations.Events : Prop :=
  ∀ (s : State) (sc : Sched) (d a : Opnd), Readable s a .w32 → s.cur.deferred = [] → Orderly s →
    let n := (s.val32 a).toNat % 256
    let one : BitVec 256 := 1 <<< n
    let c := s.ctxs[s.cx.toNat]
    let v := BitVec.ofNat 32 ((if c.ev.getLsbD n then 1 else 0) + if c.err.getLsbD n then 2 else 0)
    let sets := fun (i : Instr) (err : BitVec 256) => ∃ t, exec i s = .next t ∧
      t.ctxs[s.cx.toNat].ev = c.ev ||| one ∧ t.ctxs[s.cx.toNat].err = c.err ||| err ∧
      (∀ k : BitVec 6, k ≠ s.cx → t.ctxs[k.toNat] = s.ctxs[k.toNat]) ∧
      (∀ r, s.bank.run = some r →
        t.bank.run = some { r with signalled := r.signalled ||| (one &&& r.snap.setMask) }) ∧
      (∀ k, t.setsOf k = if k = s.cx then ((s.setsOf k).1 ||| one, (s.setsOf k).2 ||| err) else s.setsOf k) ∧
      (∀ r, s.recs = [r] → r.ctx = s.cx → r.state = 1 → s.rdNat (r.home + 0x1C) 4 = 0 → r.snap.waitMask = one →
        t.wake.recs = [{ r with state := 2 }]) ∧
      t.recs = s.recs ∧ t.mem = s.mem
    let behind := ∃ r, s.bank.run = some r ∧ r.behind = true
    let meets := fun (i : Instr) (g : Bool) =>
      (g = true → behind → s.cur.barrier ≠ some (g, true) → exec i s = .next { s with verdict := .stall (.barrier g) }) ∧
      ((g = true → ¬behind) → s.cur.barrier = none → (∀ k : AgentId, k ≠ s.turn → (s.agent k).halted = true ∨ (s.agent k).barrier = some (g, false)) →
        ∃ t, exec i s = .next t ∧ t.mem = s.mem ∧ t.cur.barrier = none ∧
          ∀ k : AgentId, k ≠ s.turn → (s.agent k).barrier = some (g, false) → (t.agent k).barrier = some (g, true)) ∧
      (s.cur.barrier = some (g, true) → exec i s = .next (s.mapCur fun x => { x with barrier := none })) ∧
      (s.cur.barrier = none → (∃ k : AgentId, k ≠ s.turn ∧ (s.agent k).halted = false ∧ (s.agent k).barrier = none) →
        exec i s = .next { s with verdict := .stall (.barrier g) })
    sets (.evset a) 0 ∧ sets (.evsetErr a) one ∧
    exec (.evclr a) s = .next (s.mapCtx s.cx fun c =>
      { c with ev := (c.ev &&& ~~~one) ||| (s.setsOf s.cx).1, err := (c.err &&& ~~~one) ||| (s.setsOf s.cx).2 }) ∧
    (c.ev.getLsbD n = true → exec (.evwait sc d a) s = .next (s.put sc d 8 v)) ∧
    (c.ev.getLsbD n = false → exec (.evwait sc d a) s = .next { s with verdict := .stall .event }) ∧
    exec (.evtest sc d a) s = .next (s.put sc d 8 v) ∧
    meets .bar false ∧ meets .barG true

/-- The priority queues (R322, R323), with no deferred error waiting and no access out of order: on a unit of the partition `pqpush` appends the pair
and delivers 0, or 1 where the unit holds 4,096 entries or the value is all ones; `pqpop` delivers the value of one of the
w smallest keys, an earlier push before a later one of the same key, and takes that entry out, or delivers all ones where
the unit is empty; `pqlen` delivers the number of entries; unit 0 and units of other partitions raise cause 0x07.

What of this the manual leaves open is the model's own choice, by log entries 9 and 60. -/
def Obligations.PriorityQueues : Prop :=
  ∀ (s : State) (sc : Sched) (d b x : Opnd) (n : BitVec 3), Readable s b .w64 → Readable s x .w64 → s.cur.deferred = [] → Orderly s →
    let l := s.pqs[n.toNat]
    let ok := n ≠ 0 ∧ s.parts[s.part.toNat].pqs.getLsbD n.toNat = true
    let w := Min.min (Max.max (s.bank.pqwin.toNat % 16) 1) 8
    let denied := Host.Outcome.next (φ := Fault) (ρ := Refusal)
      { s.takeTrap (s.trapAt 0x07 0 0) with verdict := .trapped false }
    let before := fun i j => (l.getD i (0, 0)).1.toNat < (l.getD j (0, 0)).1.toNat ∨
      ((l.getD i (0, 0)).1 = (l.getD j (0, 0)).1 ∧ i < j)
    (ok → (s.val64 x = 0xFFFFFFFFFFFFFFFF ∨ 4096 ≤ l.length → exec (.pqpush sc d b x n) s = .next (s.put sc d 32 1)) ∧
      (s.val64 x ≠ 0xFFFFFFFFFFFFFFFF → l.length < 4096 → exec (.pqpush sc d b x n) s = .next
        (({ s with pqs := s.pqs.set n.toNat (l ++ [(s.val64 b, s.val64 x)]) }).put sc d 32 0)) ∧
      (l = [] → exec (.pqpop sc d n) s = .next (s.put64 sc d 32 0xFFFFFFFFFFFFFFFF)) ∧
      (l ≠ [] → ∃ (o : Oracle) (i : Nat), i < l.length ∧
        ((List.range l.length).filter fun j => decide (before j i)).length < w ∧
        exec (.pqpop sc d n) s = .next (({ s with oracle := o, pqs := s.pqs.set n.toNat (l.eraseIdx i) }).put64 sc d 32
          (l.getD i (0, 0)).2)) ∧
      exec (.pqlen sc d n) s = .next (s.put sc d 32 (BitVec.ofNat 32 l.length))) ∧
    (¬ok → exec (.pqpush sc d b x n) s = denied ∧ exec (.pqpop sc d n) s = denied ∧ exec (.pqlen sc d n) s = denied)

/-- The KV instructions (R246 to R252), on a list whose header and entries are readable at the keys given, with the operands
readable, the translations at hand, no access out of order and no deferred error waiting. `kvxl` delivers the address of token A: the base of the entry that holds it plus
its place there times the stride, a code for an unshared entry, past the end, and for a list that is not well formed;
`kvgrow` lengthens the last entry or delivers all ones where it may not; `kvcommit` writes the total and delivers the one
before; `kvfork` of a list with one shared entry, where no copy of the agent could hold a write back (R167), copies header and entry and raises the share count in both.

What of this the manual leaves open is the model's own choice, by log entry 58. -/
def Obligations.KvResults : Prop :=
  ∀ (s : State) (sc : Sched) (d a : Opnd) (bp : BitVec 4) (off : BitVec 24) (hk : Nat) (k : Nat → Nat) (kd kd' : Nat),
    Readable s (baseOp bp) .w64 → Readable s a .w32 → Readable s a .w64 → s.cur.deferred = [] → Orderly s →
    let va := s.val64 (baseOp bp) + off.setWidth 64
    let n := s.rdNat hk 1
    let t := (s.val32 a).toNat
    let len := fun e => s.rdNat (k e + 8) 4
    let share := fun e => s.rdNat (k e + 12) 2 % 4096
    let start := fun e => ((List.range e).map len).sum
    let stride := s.rdNat (hk + 8) 4
    let frozen := (s.rdNat (hk + 1) 1).testBit 0
    let wrong := s.rdNat (hk + 2) 2 ≠ 0 ∨ s.rdNat (hk + 13) 3 ≠ 0
    let entry := fun (e : Nat) => va + BitVec.ofNat 64 (16 + 16 * e)
    Mapped s va → BlockRead s va hk 16 → (∀ e, e < n → Mapped s (entry e) ∧ BlockRead s (entry e) (k e) 16) →
    (16 < n ∨ wrong → exec (.kvxl sc d bp off a) s = .next (s.put64 sc d 32 0xFFFFFFFFFFFFFFFD)) ∧
    (n ≤ 16 → ¬wrong → start n ≤ t → exec (.kvxl sc d bp off a) s = .next (s.put64 sc d 32 0xFFFFFFFFFFFFFFFF)) ∧
    (n ≤ 16 → ¬wrong → ∀ e, e < n → start e ≤ t → t < start e + len e → exec (.kvxl sc d bp off a) s
      = .next (s.put64 sc d 32 (if share e = 0 then 0xFFFFFFFFFFFFFFFE
          else BitVec.ofNat 64 (s.rdNat (k e) 8 + (t - start e) * stride)))) ∧
    (16 < n → exec (.kvgrow sc d bp off a) s = .next (s.put sc d 32 0xFFFFFFFD) ∧
      exec (.kvcommit sc d bp off a) s = .next (s.put sc d 32 0xFFFFFFFF) ∧
      exec (.kvfork sc d bp off a) s = .next (s.put sc d 60 0x80000000)) ∧
    (n = 0 → exec (.kvgrow sc d bp off a) s = .next (s.put sc d 32 0xFFFFFFFF)) ∧
    (0 < n → n ≤ 16 → s.access .atomic (entry (n - 1)) 16 0 = .ok (k (n - 1)) →
      s.served (k (n - 1) + 8) true = true →
      let e := n - 1
      if frozen = true ∨ share e = 0 ∨ 1 < share e ∨ 2 ^ s.rdNat (k e + 14) 1 < len e + t then
        exec (.kvgrow sc d bp off a) s = .next (s.put sc d 32 0xFFFFFFFF)
      else exec (.kvgrow sc d bp off a) s
        = .next ((s.wr (k e + 8) (bytesOf 4 (len e + t))).put sc d 32 (BitVec.ofNat 32 (start n + t)))) ∧
    (n ≤ 16 → s.access .atomic va 8 0 = .ok hk → s.served (hk + 4) true = true → ∃ l : List Rel,
      exec (.kvcommit sc d bp off a) s
        = .next (if start n < t then s.put sc d 32 0xFFFFFFFF
          else ({ s with rels := l }.wr (hk + 4) (bytesOf 4 t)).put sc d 32 (BitVec.ofNat 32 (s.rdNat (hk + 4) 4)))) ∧
    (n = 1 → 0 < share 0 → share 0 < 4095 → MemOk s → NoneOwed s →
      (va.toNat + 272 ≤ (s.val64 a).toNat ∨ (s.val64 a).toNat + 272 ≤ va.toNat) →
      (∀ x ∈ [entry 0 + 12, s.val64 a, s.val64 a + 16], Mapped s x) →
      s.access .atomic (entry 0 + 12) 4 0 = .ok (k 0 + 12) → s.access .write (s.val64 a + 16) 16 0 = .ok kd' →
      s.access .write (s.val64 a) 16 0 = .ok kd → (∀ x ∈ [k 0 + 12, kd', kd], s.served x true = true) →
      (∀ x ∈ [(k 0, hk), (k 0, kd), (k 0, kd'), (hk, kd), (hk, kd'), (kd, kd')], x.1 + 16 ≤ x.2 ∨ x.2 + 16 ≤ x.1) →
      ∃ u : State, exec (.kvfork sc d bp off a) s = .next (u.put sc d 60 0) ∧ u.rd kd 16 = s.rd hk 16 ∧
        u.rd kd' 12 = s.rd (k 0) 12 ∧ u.rdNat (kd' + 12) 2 % 4096 = share 0 + 1 ∧
        u.rdNat (k 0 + 12) 2 % 4096 = share 0 + 1 ∧ u.rd (k 0) 12 = s.rd (k 0) 12 ∧ u.bank = s.bank)

/-! ## Traps -/

/-- Taking a trap (R325, R329, R330, R331, R333, R334, R335, R338), of a run that is no service slice and of a fault
without flags of its own. KILL leaves the core to be saved empty: no engine operation, every agent at its reset values, no
freeze but those of throttle and share, and the set-mask bits not yet signalled set with their companions. PARK and REPLAY,
with more than 8 free entries, no result in flight and no access out of order, and frame, ring entry and control line apart,
write the frame's header and the record with its producer index; with 8 free entries or fewer the record is withheld and
counted, and a REPLAY is carried out as PARK. PARK saves the run, REPLAY freezes the core for a cycle and counts, and past
its limit is carried out as PARK. FORWARD writes the record at the frame pointer of the handler's record, which it pushes for
the partition's supervisor context, and saves the run. An entry that is malformed is KILL, and so is cause 0x1A whatever
its entry.

What of this the manual leaves open is the model's own choice, by log entries 38, 39, 40, 61 and 63. -/
def Obligations.TrapActions : Prop :=
  ∀ (s : State) (r : Run) (q : TrapReq) (sv : BitVec 6) (hk fk : Nat), s.bank.run = some r → s.serving = false →
    q.engine = false → q.deferred = false → q.rule = none → q.shown = none → q.redo = .bundle → q.late = 0 → Orderly s →
    let t := s.takeTrap q
    let ent := s.ctxs[r.ctx.toNat].action + 16 * q.cause.toNat
    let act := s.rdNat ent 1
    let limit := s.rdNat (ent + 2) 2
    let malformed := 3 < act ∨ s.rdNat (ent + 1) 1 ≠ 0 ∨ s.rdNat (ent + 4) 4 ≠ 0
    let readable := s.backedPa ent = true ∧ s.mem.poisonAt ent 16 = none
    let p := s.parts[r.part.toNat]
    let n := (if r.replayPc = q.pc then r.replays else 0) + 1
    let f := s.ctxs[r.ctx.toNat].save + r.logcore * s.ctxs[r.ctx.toNat].stride
    let prod := s.rdNat p.ctl 4
    let slot := p.ring + 64 * (prod % 256)
    let apart := fun (a n b m : Nat) => a + n ≤ b ∨ b + m ≤ a
    let clear := apart f 4096 slot 64 ∧ apart f 4096 p.ctl 64 ∧ apart slot 64 p.ctl 64 ∧
      q.tail.length ≤ 64 ∧ ∀ a : AgentId, (s.agent a).latches = []
    let framed := fun (action flags count : Nat) =>
      t.rd f 6 = [q.cause, q.sub, BitVec.ofNat 8 q.agent.val, BitVec.ofNat 8 flags, 0xFF, BitVec.ofNat 8 action] ∧
      t.rdNat (f + 6) 2 = count % 2 ^ 16 ∧ t.rdNat (f + 8) 8 = q.pc.toNat ∧ t.rdNat (f + 0x10) 8 = q.resume.toNat ∧
      t.rdNat (f + 0x18) 8 = q.addr.toNat ∧ t.rdNat (f + 0x20) 8 = q.slice.toNat ∧
      t.rdNat (f + 0x28) 8 = s.pt % 2 ^ 64 ∧ t.rdNat (f + 0x30) 8 = s.wall % 2 ^ 64
    let recorded := fun (action : Nat) =>
      t.rd slot 4 = [q.cause, q.sub, BitVec.ofNat 8 action, r.ctx.setWidth 8] ∧
      t.rdNat (slot + 4) 2 = s.coreId % 2 ^ 16 ∧ t.rdNat (slot + 6) 1 = q.agent.val ∧ t.rdNat (slot + 7) 1 = 0xFF ∧
      t.rdNat (slot + 8) 8 = r.recAddr.toNat ∧ t.rdNat (slot + 0x10) 8 = q.pc.toNat ∧
      t.rdNat (slot + 0x18) 8 = f % 2 ^ 64 ∧ t.rdNat (slot + 0x20) 8 = q.addr.toNat ∧
      t.rdNat (slot + 0x28) 8 = s.wall % 2 ^ 64 ∧ t.rdNat p.ctl 4 = (prod + 1) % 2 ^ 32
    let withheld := fun (action : Nat) => ∃ w : Withheld, t.parts[r.part.toNat].withheld = p.withheld ++ [w] ∧
      w.bytes.take 4 = [q.cause, q.sub, BitVec.ofNat 8 action, r.ctx.setWidth 8] ∧ t.rdNat p.ctl 4 = prod ∧
      t.rdNat (p.ctl + 12) 4 = (s.rdNat (p.ctl + 12) 4 + 1) % 2 ^ 32
    let saves := t.phase = .saving (.park q.cause q.sub)
    let stays := s.freezes.filter fun z => z.why = .thermal ∨ z.why = .share
    let events := s.ctxs[r.ctx.toNat]
    let handler := s.rdNat (ent + 8) 8
    let frame := s.rdNat (hk + 8) 8
    let handled := s.supervisorOf r.part = some sv ∧ handler ≠ 0 ∧ handler % 64 = 0 ∧
      s.locateW sv none .read handler 64 = .at hk ∧ s.locateW sv none .write handler 64 = .at hk ∧
      s.served hk false = true ∧ s.served hk true = true ∧ s.mem.poisonAt hk 64 = none ∧
      recordStatus (s.rd hk 64) (decide (8192 ≤ s.storeCount s.die)) = 0 ∧
      s.locateW sv none .write frame 64 = .at fk ∧ s.served fk true = true ∧
      (30 ≤ frame / 2 ^ 52 ∨ (s.tlbFind sv frame).isSome = true) ∧
      (30 ≤ handler / 2 ^ 52 ∨ (s.tlbFind sv handler).isSome = true) ∧
      apart fk 64 hk 64 ∧ apart fk 64 f 4096 ∧ apart hk 64 f 4096 ∧
      ∀ x ∈ s.recs, ¬(x.ctx = sv ∧ x.addr = BitVec.ofNat 64 handler)
    (readable → (act = 0 ∨ malformed) ∨ q.cause = 0x1A → t.phase = .saving .kill ∧ t.bank.eng = [] ∧
      (∀ a : AgentId, t.agent a = Agent.init) ∧ t.freezes = stays ∧
      t.ctxs[r.ctx.toNat].ev = events.ev ||| (r.snap.setMask &&& ~~~r.signalled) ∧
      t.ctxs[r.ctx.toNat].err = events.err ||| (r.snap.setMask &&& ~~~r.signalled)) ∧
    (readable → ¬malformed → act = 2 → q.cause ≠ 0x1A → clear → MemOk s →
      saves ∧ t.freezes = stays ∧ framed 2 0 (n - 1) ∧
      if 8 < s.queueFree r.part then recorded 2 else withheld 2) ∧
    (readable → ¬malformed → act = 3 → q.cause ≠ 0x1A → clear → MemOk s → handled →
      saves ∧ t.freezes = stays ∧ framed 3 0 (n - 1) ∧
      t.rd fk 4 = [q.cause, q.sub, 3, r.ctx.setWidth 8] ∧ t.parts[r.part.toNat].withheld = p.withheld ∧
      ∃ x ∈ t.recs, x.ctx = sv ∧ x.addr = BitVec.ofNat 64 handler ∧ (x.state = 1 ∨ x.state = 2)) ∧
    (readable → ¬malformed → act = 1 → (limit = 0 ∨ n ≤ limit) → q.cause ≠ 0x1A → clear → s.queueFree r.part ≤ 8 →
      MemOk s → saves ∧ framed 1 0 n ∧ withheld 1) ∧
    (readable → ¬malformed → act = 1 → (limit = 0 ∨ n ≤ limit) → q.cause ≠ 0x1A → clear → 8 < s.queueFree r.part →
      MemOk s → t.phase = s.phase ∧ t.freezes = s.freezes ++ [⟨.replay, 1⟩] ∧ t.bank.agents = s.bank.agents ∧
      t.bank.run = some { r with replays := n, replayPc := q.pc } ∧ framed 1 0 n ∧ recorded 1) ∧
    (readable → ¬malformed → act = 1 → limit ≠ 0 → limit < n → q.cause ≠ 0x1A → clear → 8 < s.queueFree r.part →
      MemOk s → t.phase = .saving (.park q.cause q.sub) ∧ framed 2 32 (n - 1) ∧ recorded (2 + 8))

/-! ## Freezes, throttles, wear -/

/-- The events that end or begin freezes (R28, R142, R402, R405, R412 to R416): a data arrival ends the freezes whose data
is there, of those that wait for data, words, streams or flits, or else all of these; a walk that is over ends its freeze and
leaves the translation that it has read in the TLBs, or the cause of its failure, and one that is not changes nothing; a correction's freeze ends when its cycles are over; a refresh
takes the bank of the calendar phase for 128 cycles; a window of the thermal throttle is judged once, from the average
powers of the last 16 at most, moves f by 256 within 0 and 3,840 and freezes the core f cycles from its start, or the
whole window once tripped at 115 degrees and until below 110; a partition whose share is spent freezes to the window's end
while others wait; a wear sample, once an hour of wall time and for each die, names the monitor with the largest wear.

What of this the manual leaves open is the model's own choice, by log entries 5, 7, 46 and 53. -/
def Obligations.FreezeEvents : Prop :=
  ∀ (s : State) (w : Walk) (hot : BitVec 16) (dp mp lp ws : Nat) (p : BitVec 4) (die : BitVec 5) (wear : List (BitVec 16)),
    let keeps := fun (q : Freeze → Bool) => { s with freezes := s.freezes.filter q }
    let asked := { s.oracle with walks := s.oracle.walks.drop 1 }
    let waits := fun (f : Freeze) => match f.why with
      | .data | .fetch | .underrun | .retry _ => true
      | _ => false
    exec .memoryDataArrival s = .next (if ∃ f ∈ s.freezes, waits f = true ∧ f.left = 0 then keeps fun f => ¬(waits f = true ∧ f.left = 0)
      else keeps fun f => !waits f) ∧
    (s.walk = none → s.walks = [] → exec .translationWalkComplete s = .next s) ∧
    (s.walk = some w → w.bad = none → s.wall < w.till → exec .translationWalkComplete s = .next s) ∧
    (s.walk = some w → w.bad = none → w.till ≤ s.wall →
      (∀ e, w.ent = some e → exec .translationWalkComplete s
        = .next { keeps (fun f => f.why ≠ .walk) with tlb := e :: s.tlb, walk := none, oracle := asked }) ∧
      (w.ent = none → exec .translationWalkComplete s
        = .next { keeps (fun f => f.why ≠ .walk) with walk := some { w with bad := some w.fails }, oracle := asked })) ∧
    (s.walk = none → s.walks = [w] → w.till ≤ s.wall → ∀ e, w.ent = some e →
      exec .translationWalkComplete s
        = .next { keeps (fun f => f.why ≠ .walk) with tlb := e :: s.tlb, walks := [], oracle := asked }) ∧
    exec .correctionFreezeEnd s
      = .next (keeps fun f => match f.why with | .correction _ _ => f.left ≠ 0 | _ => true) ∧
    exec (.weightStoreRefresh (BitVec.ofNat 6 (s.wall / 512))) s
      = .next (if s.wall % 512 < 128 then
          { s with refresh := (BitVec.ofNat 6 (s.wall / 512), s.wall / 512 * 512 + 128) } else s) ∧
    (hot.toInt < 2000 → s.throttle.judged ≠ some (s.wall / 4096) →
      let l := ((dp, mp) :: s.throttle.powers).take 16
      let cool := (l.map (·.1)).sum ≤ 3000 * l.length ∧ (l.map (·.2)).sum ≤ 72000 * l.length
      let f := if 1680 ≤ hot.toInt ∨ ¬cool then Min.min (s.throttle.f + 256) 3840
        else if hot.toInt < 1648 then s.throttle.f - 256 else s.throttle.f
      let trip := decide (1840 ≤ hot.toInt) || (s.throttle.trip && decide (1760 ≤ hot.toInt))
      let stop := (if trip then 4096 else f) - s.wall % 4096
      ∃ t, exec (.thermalThrottleWindow hot dp mp) s = .next t ∧ t.throttle.f = f ∧ t.throttle.trip = trip ∧
        t.throttle.judged = some (s.wall / 4096) ∧
        t.freezes = (if stop = 0 then s.freezes else s.freezes ++ [⟨.thermal, stop⟩]) ∧ t.bank = s.bank ∧ t.mem = s.mem) ∧
    (hot.toInt < 2000 → s.throttle.judged = some (s.wall / 4096) →
      ∃ t, exec (.thermalThrottleWindow hot dp mp) s = .next t ∧ t.throttle.f = s.throttle.f ∧
        t.throttle.trip = s.throttle.trip ∧ t.freezes = s.freezes ∧ t.bank = s.bank ∧ t.mem = s.mem) ∧
    (∀ r, s.bank.run = some r → r.part = p →
      let x := s.parts[p.toNat]
      let spent := x.lpShare * 384 * 4096 ≤ lp * 256 ∨ x.wsShare * 32768 * 4096 ≤ ws * 256
      exec (.shareThrottleWindow p lp ws true) s
        = .next (if spent then { keeps (fun f => f.why ≠ .share) with
            freezes := s.freezes.filter (fun f => f.why ≠ .share) ++ [⟨.share, 4096 - s.wall % 4096⟩] }
          else keeps fun f => f.why ≠ .share) ∧
      exec (.shareThrottleWindow p lp ws false) s = .next (keeps fun f => f.why ≠ .share)) ∧
    (∀ h₀, s.health.toList[die.toNat]? = some h₀ →
      (∀ y, h₀.history.head? = some y → y.1 ≠ s.wall / 6480000000000) → wear ≠ [] →
      ∃ t h, exec (.wearSample die wear) s = .next t ∧ t.health.toList[die.toNat]? = some h ∧
        h.wear = wear.map (·.toNat) ∧ h.worst < wear.length ∧ h.worstWear = h.wear.getD h.worst 0 ∧
        (∀ k, k < wear.length → h.wear.getD k 0 ≤ h.worstWear) ∧ t.bank = s.bank ∧ t.mem = s.mem) ∧
    (∀ h₀ y, s.health.toList[die.toNat]? = some h₀ → h₀.history.head? = some y → y.1 = s.wall / 6480000000000 →
      ∃ t, exec (.wearSample die wear) s = .next t ∧ t.health = s.health ∧ t.bank = s.bank ∧ t.mem = s.mem)

/-! ## The run's own events -/

/-- Watchdog, budget, machine check, service timer and requests (R312, R326, R328, R332, R341, R343, R344, R403, R408): what
each does to a run at work. The watchdog takes cause 0x19 at the lowest agent that has waited for the interval, an
exhausted budget cause 0x0C at the gang's lowest member alone, and a machine check cause 0x1A with its subcode at C0's boundary, where no other
member's trap is about to stop the gang; the timer posts one request
with subcode 0x80, whatever periods were missed, to the lowest core of the partition; requests that cannot be taken at once are held in order of arrival, and a
stop request at a boundary begins the switch of 48 cycles.

What of this the manual leaves open is the model's own choice, by log entries 41, 42 and 67. -/
def Obligations.RunEvents : Prop :=
  ∀ (s : State) (r : Run) (p : BitVec 4) (sub : Byte), s.bank.run = some r →
    let interval := 1024 * (s.parts[s.part.toNat]).now.watchdog
    let late := fun (k : AgentId) => interval ≠ 0 ∧ ∃ w since, (s.agent k).waiting = some (w, since) ∧
      since + interval ≤ s.wall
    let taken := fun (i : Instr) (u : State) (k : AgentId) (cause sub : Byte) => ∃ q : TrapReq,
      exec i s = .next (u.takeTrap q) ∧ q.cause = cause ∧ q.sub = sub ∧ q.agent = k ∧ q.pc = (s.agent k).pc ∧
      q.resume = (s.agent k).pc
    let now := (s.parts[p.toNat]).now
    (∀ k, late k → (∀ j, j < k → ¬late j) → taken .watchdog s k 0x19 0) ∧
    ((∀ k, ¬late k) → exec .watchdog s = .next s) ∧
    (r.budget = 0 → r.logcore = r.snap.origin → taken .budgetExhausted s 0 0x0C 0) ∧
    (r.budget ≠ 0 ∨ r.logcore ≠ r.snap.origin → exec .budgetExhausted s = .next s) ∧
    (s.phase = .running → s.gangStop = none → r.dropped = false → taken (.machineCheck sub) (s.count s.die 5 1) 0 0x1A sub) ∧
    ((s.parts[p.toNat]).enabled = true → now.timer ≠ 0 → now.last + now.timer ≤ s.wall → r.part = p →
      (s.parts[p.toNat]).resetting = false → s.shadow = none → (∀ c ∈ r.members, s.coreId ≤ c) → (∀ c ∈ s.taken, c.2 = p → s.coreId ≤ c.1) →
      ∃ t, exec (.serviceTimer p) s = .next t ∧ t.svcPend = s.svcPend ++ [(p, 0x80, false)] ∧
        (t.parts[p.toNat]).now.last ≤ s.wall ∧ s.wall < (t.parts[p.toNat]).now.last + now.timer ∧
        ((t.parts[p.toNat]).now.last - now.last) % now.timer = 0 ∧ t.bank = s.bank ∧ t.mem = s.mem) ∧
    (s.phase = .running → s.turn ≠ 0 → s.gangStop = none → (s.parts[r.part.toNat]).resetting = false →
      exec (.serviceRequest sub) s = .next { s with svcPend := s.svcPend ++ [(r.part, sub, false)] } ∧
      exec .stopRequest s = .next { s with stopPend := true }) ∧
    (s.phase = .running → s.turn = 0 → s.freezes = [] → s.serving = false → s.reissue = none → s.gangStop = none →
      s.walk = none → r.snap.drainable = false →
      ∃ t, exec .stopRequest s = .next t ∧ t.phase = .switching .ready 48 ∧ t.stopPend = false) ∧
    (s.wantsStop = true → exec .stopForShares s = .next { s with stopPend := true }) ∧
    (s.wantsStop = false → exec .stopForShares s = .next s)

/-- Runs end and begin (R305, R309, R311, R312, R313, R345). When the switch of a stop is over the core saves, and when
nothing it waits for is left its record, in state 2, keeps the budget and the core is idle. A run that has drained at
`slend` sets its set-mask bits, and its record is done; at `yield` its record is pushed again. An idle core starts the one
selectable record, as a gang of one core without a save: each agent at its entry, frame address in g0:g1, record address
in g2:g3.

What of this the manual leaves open is the model's own choice, by log entries 1, 9, 23, 40, 45 and 62. -/
def Obligations.RunEnds : Prop :=
  ∀ (s : State) (r : Run) (x : SRec) (d : DWord), s.recs = [x] → x.ctx = r.ctx → x.addr = r.recAddr →
    (s.bank.run = some r → s.phase = .switching .ready 0 →
      exec .contextSwitchComplete s = .next { s with phase := .saving .ready }) ∧
    (s.bank.run = some r → s.phase = .saving .ready → s.shadow = none → s.board = [] → s.bank.quiet = true →
      ∃ t, exec .contextSaveComplete s = .next t ∧ t.phase = .idle ∧ t.bank.run = none ∧
        t.recs = [{ x with state := 2, resume := some r.budget }]) ∧
    (s.bank.run = some r → s.phase = .draining → s.bank.drained = true → (∀ a : AgentId, (s.agent a).deferred = []) →
      Orderly s → r.behind = false → (r.logcore = r.snap.origin ∨ r.kind = none) → x.state = 3 → s.parts[r.part.toNat].doorbells = [] →
      (r.ending = some none → ∃ t, exec .gangEnd s = .next t ∧ t.phase = .saving .done ∧ t.recs = [] ∧
        t.ctxs[r.ctx.toNat].ev = s.ctxs[r.ctx.toNat].ev ||| r.snap.setMask ∧ t.bank = s.bank) ∧
      (r.ending = some (some d) → ∃ t y, exec .gangEnd s = .next t ∧ t.phase = .saving .done ∧ t.recs = [y] ∧ y.state = 2 ∧
        y.order = s.pushes ∧ t.pushes = s.pushes + 1 ∧ y.snap.deadline = (if d = 0 then x.snap.deadline else d) ∧
        t.ctxs = s.ctxs)) ∧
    (s.phase = .idle → s.taken = [] → s.selectable x = true → x.die = s.die → x.resume = none → ∀ i, s.admission x.ctx x.snap = .ok i →
      x.snap.gang = 1 → (∀ l ∈ i.levels, l.kind = 0) → s.core < 64 → s.die < 24 →
      ∃ t y, exec .gangSelect s = .next t ∧ t.phase = .running ∧ t.bank.run = some y ∧ y.ctx = x.ctx ∧
        y.recAddr = x.addr ∧ y.snap = x.snap ∧ y.budget = x.snap.budget ∧ y.logcore = x.snap.origin ∧
        t.recs = [{ x with
          state := 3, last := (0, 0), model := s.ctxs[x.ctx.toNat].model, replays := 0, reserves := false, begun := true }] ∧
        ∀ k : AgentId, (t.agent k).pc = BitVec.ofNat 64 (i.entries.getD k.val 0) ∧ (t.agent k).halted = false ∧
          (t.agent k).g[1] ++ (t.agent k).g[0] = x.snap.frame ∧ (t.agent k).g[3] ++ (t.agent k).g[2] = x.addr ∧
          ∀ n, (h : n < 32) → 4 ≤ n → (t.agent k).g[n] = 0)

/-! ## Firmware -/

/-- The mailbox (R386 to R388): a doorbell while a command runs, and an opcode outside the set, change nothing but the return
code, apart from those that the CXL register interface requires, none of them among the device's own; a header field outside its limits answers status 2 with its offset; an answer is tag, status, detail and body, and
the completion record, where the header names one, holds tag, status, detail and opcode and raises vector 0; after a hot
reset in the command neither comes. Shown of IDENTIFY and LINK_STATUS, which change nothing else.

What of this the manual leaves open is the model's own choice, by log entries 8 and 49. -/
def Obligations.Mailbox : Prop :=
  ∀ (s : State) (h : MbHdr) (op : BitVec 16), s.mailbox.busy = false → s.mailbox.discard = false → s.stage = 6 →
    let code := fun c => { s with mailbox := { s.mailbox with code := c } }
    let good := h.part.toNat < 16 ∧ (h.ctx.toNat < 64 ∨ h.ctx = 0xFF) ∧ h.zero = 0 ∧ h.compl.toNat % 64 = 0 ∧
      h.compl.toNat < 2 ^ 52
    let said := fun (i : Instr) (st det opc : Nat) (body : List Byte) => ∃ t, exec i s = .next t ∧
      t.mailbox = .idle .success (bytesOf 4 h.tag.toNat ++ bytesOf 2 st ++ bytesOf 2 det ++ body) ∧ t.bank = s.bank ∧
      t.parts = s.parts ∧ t.ctxs = s.ctxs ∧ t.link = s.link ∧ t.models = s.models ∧
      (h.compl = 0 → t.mem = s.mem) ∧
      (h.compl ≠ 0 → good → MemOk s → t.rd (2 ^ 52 + h.compl.toNat) 10
        = bytesOf 4 h.tag.toNat ++ bytesOf 2 st ++ bytesOf 2 det ++ bytesOf 2 opc ∧
        (0 ∉ s.msix.masked → t.msix.sent = s.msix.sent ++ [0]) ∧ (0 ∈ s.msix.masked → 0 ∈ t.msix.pending))
    exec .mailboxBusy s = .next (code .busy) ∧
    (op ∉ opcodes → (0xC000 ≤ op ∧ op ≤ 0xC0FF) ∨ Config.cxlRequired op = false →
      exec (.mailboxUnsupported op) s = .next (code .unsupported)) ∧
    (op ∉ opcodes → ∃ m : Machine.Mailbox, exec (.mailboxUnsupported op) s = .next { s with mailbox := m } ∧ m.busy = false) ∧
    (∀ u : State, (u.mailbox.busy = true ∨ u.stage < 6) →
      exec (.identify h) u = .next { u with mailbox := { u.mailbox with code := .busy } }) ∧
    (16 ≤ h.part.toNat → said (.identify h) 2 4 0xC000 []) ∧
    (h.part.toNat < 16 → 64 ≤ h.ctx.toNat → h.ctx ≠ 0xFF → said (.identify h) 2 5 0xC000 []) ∧
    (h.part.toNat < 16 → h.ctx.toNat < 64 → h.zero ≠ 0 → said (.identify h) 2 6 0xC000 []) ∧
    (good → said (.identify h) 0 0 0xC000 s.identifyBody) ∧
    (good → ∀ u : State, u.mailbox.busy = false → u.mailbox.discard = true → u.stage = 6 →
      exec (.identify h) u = .next { u with mailbox := .idle .success [] }) ∧
    (good → ∃ body, said (.linkStatus h) 0 0 0xC073 body ∧ body.length = 256 ∧
      ∀ k, k < 32 → body[8 * k]? = some (BitVec.ofNat 8
        ((if s.link.up.getLsbD k then 1 else 0) + if s.link.trained.getLsbD k then 2 else 0)) ∧
      body[8 * k + 1]? = some (BitVec.ofNat 8 (Min.min
        (s.link.retries.filter fun x => x.1 = k ∧ s.wall < x.2 + 1800000000).length 255)))

/-- What the firmware's commands do where their checks pass (R383 to R385, R389 to R395), with a good header, of a partition that is not being reset: each leaves exactly the state named, and answers status 0
with the body given.

What of this the manual leaves open is the model's own choice, by log entries 8, 9, 50, 51, 52 and 65. -/
def Obligations.FirmwareCommands : Prop :=
  ∀ (s : State) (h : MbHdr) (slot mask : Byte) (z56 : BitVec 56) (z24 : BitVec 24) (z48 : BitVec 48) (dies ports : Word)
    (src off size addr : DWord) (len : Word) (a16 z16 : BitVec 16) (e8 fl sp : Byte) (nonce sig key : List Byte),
    s.mailbox.busy = false → s.stage = 6 → h.part.toNat < 16 → (h.ctx.toNat < 64 ∨ h.ctx = 0xFF) → h.zero = 0 →
    h.compl.toNat % 64 = 0 → h.compl.toNat < 2 ^ 52 →
    let p : BitVec 4 := BitVec.ofNat 4 h.part.toNat
    let cx : BitVec 6 := BitVec.ofNat 6 h.ctx.toNat
    let part := s.parts[p.toNat]
    let mine := h.ctx ≠ 0xFF ∧ s.ctxs[cx.toNat].defined = true ∧ s.ctxs[cx.toNat].part = p
    let k : BitVec 3 := slot.setWidth 3
    let m := s.models[p.toNat][k.toNat]
    let ok := fun (i : Instr) (op : Nat) (t : State) (body : List Byte) => exec i s = .next (t.answer h op 0 0 body)
    let fails := fun (i : Instr) (op st det : Nat) => exec i s = .next (s.answer h op st det [])
    let table := fun (pkg : BitVec 16) => (s.exports[p.toNat]).setIfInBounds e8.toNat
      (⟨fl.getLsbD 0, fl.getLsbD 1, pkg.toNat, sp.toNat, off.toNat, size.toNat⟩ : Export)
    let modelTo := fun (u : State) (y : Model) =>
      { u with models := u.models.set p.toNat ((u.models[p.toNat]).set k.toNat y) }
    (h.part = 0 → off.toNat % 2 ^ 30 = 0 → size.toNat % 2 ^ 30 = 0 → off.toNat < 3 * 2 ^ 40 →
      size.toNat ≤ 2 ^ 38 → off.toNat + size.toNat ≤ 3 * 2 ^ 40 →
      if s.hostOut = 0 then ok (.window h off size) 0xC060 { s with window := (off.toNat, size.toNat) } []
      else fails (.window h off size) 0xC060 1 0) ∧
    (h.part = 0 → a16.toNat < 2048 → (∀ q ∈ s.parts.toList, q.enabled = false) →
      ok (.linkConfig h a16 0 ports) 0xC070 { s with link := { s.link with
        configured := true, pkg := a16.setWidth 11, enable := ports, up := 0, trained := 0, ever := 0
        trainBy := s.wall + 180000000 } } []) ∧
    (h.part = 0 → a16.toNat < 2048 →
      let routed : Link := { s.link with
        routes := (a16.toNat, ports, s.link.failed a16.toNat &&& ports) :: s.link.routes.filter fun r => r.1 ≠ a16.toNat }
      ∃ t, ok (.linkRoute h a16 0 ports) 0xC071 t [] ∧ t.link = routed ∧
        (s.pend = [] → s.reads = [] → t = { s with link := routed })) ∧
    (part.resetting = true → fails (.modelUnbind h) 0xC023 9 0 ∧ fails (.attest h nonce) 0xC040 9 0) ∧
    (part.resetting = false →
      (e8.toNat < 64 → fl.toNat < 4 → sp.toNat < 16 → off.toNat % 4096 = 0 → size.toNat % 4096 = 0 →
        if fl.getLsbD 0 = true ∧ (p, e8.setWidth 6) ∈ s.exportOut then fails (.exportEntry h e8 fl sp 0 a16 0 off size) 0xC072 1 0
        else ok (.exportEntry h e8 fl sp 0 a16 0 off size) 0xC072 { s with
          exports := s.exports.set p.toNat (table a16)
          exportOut := s.exportOut.filter fun x => x ≠ (p, e8.setWidth 6) } []) ∧
      (slot.toNat < 8 → mask &&& ~~~part.banks = 0 → size.toNat ≤ 2 ^ 26 * (8 * (setBits 8 mask.toNat).length) →
        s.slotHeld p k = false →
        ok (.modelDefine h slot mask 0 size) 0xC020 (modelTo s ⟨true, mask, size.toNat, []⟩) []) ∧
      (slot.toNat < 8 → s.slotHeld p k = true → mask &&& ~~~part.banks = 0 →
        size.toNat ≤ 2 ^ 26 * (8 * (setBits 8 mask.toNat).length) →
        fails (.modelDefine h slot mask 0 size) 0xC020 6 slot.toNat) ∧
      (slot.toNat < 8 → dies.toNat < 2 ^ 24 → src.toNat + size.toNat ≤ 2 ^ 52 → size.toNat % 64 = 0 → m.defined = true →
        off.toNat + size.toNat ≤ m.size → s.slotHeld p k = false →
        let bs := s.rd (2 ^ 52 + src.toNat) size.toNat
        ok (.weightWrite h slot 0 dies src off size) 0xC021 (modelTo
          { s with mem := (setBits 24 dies.toNat).foldl (fun y d => y.writeWeights m d off.toNat bs) s.mem }
          { m with absorbed := m.absorbed ++ bytesOf 8 off.toNat ++ bytesOf 8 size.toNat ++ bs }) (bytesOf 8 size.toNat)) ∧
      (mine → slot.toNat < 8 → m.defined = true → part.ownerKey ≠ [] →
        let dig := shake256 32 m.absorbed
        if falconVerifies part.ownerKey dig (fitBytes 1280 sig) then
          ok (.modelBind h slot 0 sig) 0xC022 (s.mapCtx cx fun c => { c with model := some k }) dig
        else fails (.modelBind h slot 0 sig) 0xC022 4 0) ∧
      (mine → s.ctxs[cx.toNat].model.isSome = true →
        ok (.modelUnbind h) 0xC023 (s.mapCtx cx fun c => { c with model := none }) []) ∧
      (mine → s.ctxs[cx.toNat].model = none → fails (.modelUnbind h) 0xC023 9 0) ∧
      (part.stopped = true → 8 < s.queueFree p → (∀ a ∈ s.heldAreas, a.2.2.2 ≠ none) →
        ok (.partitionResume h) 0xC030 (s.mapPart p fun q => { q with stopped := false }) (bytesOf 4 (s.queueFree p))) ∧
      (part.stopped = false ∨ s.queueFree p ≤ 8 → fails (.partitionResume h) 0xC030 9 0) ∧
      (h.ctx = 0xFF → ∃ body, ok (.attest h nonce) 0xC040 s body ∧ body.take 32 = fitBytes 32 nonce ∧
        ofBytes ((body.drop 64).take 8) = s.wall % 2 ^ 64 ∧ (body.drop 72).take 2 = [h.part, h.ctx]) ∧
      ((∀ c ∈ s.ctxs.toList, c.defined = true → c.part ≠ p) → ok (.ownerKey h key) 0xC050
        (s.mapPart p fun q => { q with ownerKey := fitBytes 1793 key })
        (shake256 32 (fitBytes 1793 key))) ∧
      (∀ c ∈ s.ctxs.toList, c.defined = true → c.part = p → fails (.ownerKey h key) 0xC050 3 0) ∧
      (¬mine → fails (.loadImage h src len) 0xC010 3 0 ∧ fails (.retireImage h addr) 0xC011 3 0) ∧
      (mine → 128 ≤ len.toNat → len.toNat ≤ 2 ^ 28 → src.toNat + len.toNat + 1280 ≤ 2 ^ 52 → part.ownerKey ≠ [] →
        let b := s.rd (2 ^ 52 + src.toNat) len.toNat
        let st := imageStatus b s.ctxs[cx.toNat].model.isSome
        let signed := falconVerifies part.ownerKey b (s.rd (2 ^ 52 + src.toNat + len.toNat) 1280) = true
        (¬signed → fails (.loadImage h src len) 0xC010 4 0) ∧
        (signed → st ≠ 0 → fails (.loadImage h src len) 0xC010 5 st) ∧
        (signed → st = 0 → s.oracle.load = [] → fails (.loadImage h src len) 0xC010 8 0) ∧
        (signed → st = 0 → ∀ va pa rest, s.oracle.load = (va, pa) :: rest →
          let placed := (({ s with oracle := { s.oracle with load := rest } }).wr pa (relocated b va)).mapPages
            s.ctxs[cx.toNat].root b va pa ((List.range (imagePages b)).drop 1 ++ [0]) (pa + 4096 * imagePages b)
          (s.placeOk va pa (imagePages b) = false ∨ placed = none → fails (.loadImage h src len) 0xC010 8 0) ∧
          (s.placeOk va pa (imagePages b) = true → ∀ (t : State) (fresh : Nat), placed = some (t, fresh) →
            ∃ (img : Loaded) (tables : List Nat), img.hdr = va ∧ img.bytes = b ∧
              (∀ y ∈ tables, pa + 4096 * imagePages b ≤ y ∧ y < fresh) ∧
              ok (.loadImage h src len) 0xC010 (t.mapCtx cx fun c =>
                { c with images := img :: c.images, tables := tables ++ c.tables }) (bytesOf 8 va)))) ∧
      (mine → (∀ img ∈ s.ctxs[cx.toNat].images, img.hdr ≠ addr.toNat) → fails (.retireImage h addr) 0xC011 2 0x10) ∧
      (mine → s.imageNamed cx addr.toNat = true → (∃ img ∈ s.ctxs[cx.toNat].images, img.hdr = addr.toNat) →
        fails (.retireImage h addr) 0xC011 1 0))

/-- RETIRE_IMAGE where its checks pass (R387, R390): its pages' leaves are taken out of the context's table, one after
another, the context's translations are dropped, and the loader forgets the image; the answer has status 0 and no body.

What of this the manual leaves open is the model's own choice, by log entry 50. -/
def Obligations.RetireImage : Prop :=
  ∀ (s : State) (h : MbHdr) (addr : DWord) (img : Loaded),
    s.mailbox.busy = false → s.stage = 6 → h.part.toNat < 16 → h.ctx.toNat < 64 → h.zero = 0 →
    h.compl.toNat % 64 = 0 → h.compl.toNat < 2 ^ 52 →
    let p : BitVec 4 := BitVec.ofNat 4 h.part.toNat
    let cx : BitVec 6 := BitVec.ofNat 6 h.ctx.toNat
    let c := s.ctxs[cx.toNat]
    s.parts[p.toNat].resetting = false → c.defined = true → c.part = p →
    c.images.find? (fun i => i.hdr == addr.toNat) = some img → s.imageNamed cx addr.toNat = false →
    let unmapped := img.pages.foldl (fun (u : State) (y : Nat × Nat) => u.unmapPage y.1 5 c.root) s
    ∃ t : State, exec (.retireImage h addr) s = .next (t.answer h 0xC011 0 0 []) ∧ t.mem = unmapped.mem ∧
      t.ctxs[cx.toNat] = { c with images := c.images.erase img } ∧
      (∀ k : BitVec 6, k ≠ cx → t.ctxs[k.toNat] = s.ctxs[k.toNat]) ∧
      (∀ e, e ∈ t.tlb ↔ e ∈ s.tlb ∧ e.ctx ≠ cx) ∧ t.bank = s.bank ∧ t.recs = s.recs ∧ t.parts = s.parts ∧
      t.models = s.models ∧ t.link = s.link

/-! ## Outside accesses and ports -/

/-- Accesses from the host and from other packages, and the ports (R380 to R385): an access within the window, or one that a
valid export entry serves, reads or writes the bytes at its home, and a write of a whole granule ends its poison; any other
changes nothing and is not answered; a flit goes to the port that its lane picks in the route's mask, over at most four
packages, unless that port has failed; a port that goes down has failed in every mask that has it, one whose partner has not
trained in time stays down, an enabled one that trains in time is up; nothing behind a memory port whose link is down is
served.

What of this the manual leaves open is the model's own choice, by log entries 52 and 67. -/
def Obligations.OutsideAccess : Prop :=
  ∀ (s : State) (a n : Nat) (bs : List Byte) (pk : BitVec 11) (pp lane : BitVec 4) (port : BitVec 5) (mp : BitVec 2)
    (hops : Nat),
    let refused := { s with reply := none }
    let got := fun k => { s with reply := some (s.rd k n, (s.mem.poisonAt k n).isSome) }
    let clean := fun k => { s with
      mem := { s.mem.writeN k bs with poison := s.mem.poison.filter fun g => ¬(k ≤ 64 * g ∧ 64 * g + 64 ≤ k + bs.length) }
      reply := some ([], false) }
    let put := fun (i : Instr) (k : Nat) => ∃ t, exec i s = .next t ∧ t.reply = some ([], false) ∧
      (MemOk s → t.rd k bs.length = bs) ∧ (s.pend = [] → s.held = [] → t = clean k)
    let bit' : Word := 1 <<< port.toNat
    let inTime := s.link.ever.getLsbD port.toNat = true ∨ s.wall ≤ s.link.trainBy
    let entry := fun (m : Nat) (w : Bool) (e : Export) => e.valid = true ∧ e.srcPkg = pk.toNat ∧ e.srcPart = pp.toNat ∧
      e.base ≤ a ∧ a + m ≤ e.base + e.size ∧ (w = true → e.writable = true)
    let exported := fun (m : Nat) (w : Bool) => ∃ t ∈ s.exports.toList, ∃ e ∈ t.toList, entry m w e
    (a + n ≤ s.window.2 → exec (.hostMemAccess a (.read n)) s = .next (got (s.window.1 + a))) ∧
    (a + bs.length ≤ s.window.2 → put (.hostMemAccess a (.write bs)) (s.window.1 + a)) ∧
    (s.window.2 < a + n → exec (.hostMemAccess a (.read n)) s = .next refused) ∧
    (s.window.2 < a + bs.length → exec (.hostMemAccess a (.write bs)) s = .next refused) ∧
    exec .unsupportedRequest s = .next refused ∧
    (s.link.configured = true → 0 < n → a + n ≤ 3 * 2 ^ 40 → exported n false →
      exec (.remoteAccess pk pp a (.read n)) s = .next (got a)) ∧
    (s.link.configured = true → bs ≠ [] → a + bs.length ≤ 3 * 2 ^ 40 → exported bs.length true →
      put (.remoteAccess pk pp a (.write bs)) a) ∧
    (¬exported n false → exec (.remoteAccess pk pp a (.read n)) s = .next refused) ∧
    (¬exported bs.length true → exec (.remoteAccess pk pp a (.write bs)) s = .next refused) ∧
    (∀ mask failed : Word, s.link.configured = true → s.link.routes.lookup pk.toNat = some (mask, failed) → hops < 4 →
      ∀ q, (setBits 32 mask.toNat)[lane.toNat % (setBits 32 mask.toNat).length]? = some q →
      exec (.flitForward pk lane hops) s = .next
        (if s.link.up.getLsbD q = true ∧ failed.getLsbD q = false then
          { s with link := { s.link with forwarded := s.link.forwarded ++ [(q, pk.toNat)] } } else refused)) ∧
    (s.link.routes.lookup pk.toNat = none ∨ 4 ≤ hops → exec (.flitForward pk lane hops) s = .next refused) ∧
    (let down : Link := { s.link with
      up := s.link.up &&& ~~~bit', trained := s.link.trained &&& ~~~bit'
      routes := s.link.routes.map fun r => (r.1, r.2.1, r.2.2 ||| (r.2.1 &&& bit')) }
    ∃ t, exec (.linkPortDown port) s = .next t ∧ t.link = down ∧
      (s.pend = [] → s.reads = [] → t = { s with link := down })) ∧
    exec (.linkTrainTimeout port) s = .next (if inTime then s
      else { s with link := { s.link with up := s.link.up &&& ~~~bit', trained := s.link.trained &&& ~~~bit' } }) ∧
    exec (.linkPortTrained port) s = .next
      (if s.link.configured = true ∧ s.link.enable.getLsbD port.toNat = true ∧ inTime then
        { s with link := { s.link with
          up := s.link.up ||| bit', trained := s.link.trained ||| bit', ever := s.link.ever ||| bit' } } else s) ∧
    (let off := { s with portsUp := s.portsUp &&& ~~~((1 : BitVec 4) <<< mp.toNat) }
    exec (.memoryPortLinkDown mp) s = .next off ∧
      ∀ (key : Nat) (w : Bool), 2 ^ 42 * (mp.toNat + 1) ≤ key → key < 2 ^ 42 * (mp.toNat + 2) → off.served key w = false)

/-! ## Partitions and contexts -/

/-- The register blocks (R398 to R401, R406, R408, R413): enabling a partition starts its count and timer; a value outside a
limit, a fixed register of an enabled partition, a second supervisor context or a context with a record or a running gang sets
bit 7 and changes nothing else; a context is defined with empty event vector and bindings; a doorbell goes to the core that runs
the partition, or, during a reset, into the queue of the core's die, 64 deep; an invalidation drops translations and is busy until started copies are done;
a counter's write clears it, but for what it counts in the same cycle.

What of this the manual leaves open is the model's own choice, by log entries 47 and 48. -/
def Obligations.PartitionRegisters : Prop :=
  ∀ (s : State) (p : BitVec 4) (cx : BitVec 6) (v : Word) (die : BitVec 5) (n : Nat) (sup : Bool),
    let x := s.parts[p.toNat]
    let c := s.ctxs[cx.toNat]
    let err := s.mapPart p fun y => { y with writeErr := true }
    let core := v.toNat % 2048
    let sub : Byte := BitVec.ofNat 8 (v.toNat / 65536 % 128)
    let icx : BitVec 6 := BitVec.ofNat 6 v.toNat
    let scope := v.toNat / 256 % 4
    let drops := fun (e : TlbEnt) =>
      if scope = 0 then e.ctx = icx ∧ e.va ≤ x.invAddr.toNat ∧ x.invAddr.toNat < e.va + e.size
      else if scope = 1 then e.ctx = icx else s.ctxs[e.ctx.toNat].part = p
    exec (.partitionEnable p true) s = .next (s.mapPart p fun y =>
      if y.enabled then y else { y with enabled := true, used := 0, now := { y.now with last := s.wall } }) ∧
    exec (.partitionEnable p false) s = .next (s.mapPart p fun y => { y with enabled := false }) ∧
    exec (.writeErrorClear p) s = .next (s.mapPart p fun y => { y with writeErr := false }) ∧
    (∀ val : DWord, exec (.registerWrite (BitVec.ofNat 18 (p.toNat * 0x1000 + 0x38)) true val) s
      = .next (s.mapPart p fun y => { y with timer := val.toNat })) ∧
    (∀ val : DWord, val.toNat % 16384 = 0 → x.enabled = false →
      exec (.registerWrite (BitVec.ofNat 18 (p.toNat * 0x1000 + 0x20)) true val) s
        = .next (s.mapPart p fun y => { y with ring := val.toNat })) ∧
    (∀ val : DWord, val.toNat % 16384 ≠ 0 ∨ x.enabled = true →
      exec (.registerWrite (BitVec.ofNat 18 (p.toNat * 0x1000 + 0x20)) true val) s = .next err) ∧
    (c.defined = false → c.limits = true → s.backedPa c.action = true → MemOk s →
      (∀ y, s.supervisorOf p = some y → sup = false ∨ y = cx) →
      ∃ t, exec (.contextDefine cx (BitVec.ofNat 32 (1 + (if sup then 2 else 0) + 256 * p.toNat))) s = .next t ∧
        t.ctxs[cx.toNat] = { c with
          defined := true, supervisor := sup, part := p, ev := 0, err := 0, binds := [], model := none, images := [], tables := [] } ∧
        t.rdNat (c.action + 16 * 0x06) 16 = 2 ∧ t.rdNat (c.action + 16 * 0x07) 16 = 0) ∧
    (c.defined = false → c.limits = false →
      exec (.contextDefine cx (BitVec.ofNat 32 (1 + 256 * p.toNat))) s = .next err) ∧
    (c.defined = false → ∀ y, s.supervisorOf p = some y → y ≠ cx →
      exec (.contextDefine cx (BitVec.ofNat 32 (3 + 256 * p.toNat))) s = .next err) ∧
    (c.defined = true → ((∃ y ∈ s.recs, y.ctx = cx) ∨ (∃ r, s.bank.run = some r ∧ r.ctx = cx) ∨
        ∃ b r, s.shadow = some b ∧ b.run = some r ∧ r.ctx = cx) →
      let bit7 := s.mapPart c.part fun y => { y with writeErr := true }
      exec (.contextDefine cx v) s = .next bit7 ∧
      ∀ val : DWord, exec (.registerWrite (BitVec.ofNat 18 (0x10000 + cx.toNat * 0x80 + 8)) true val) s = .next bit7) ∧
    (1536 ≤ core → exec (.serviceDoorbell p v) s = .next err) ∧
    (core < 1536 → x.enabled = false → exec (.serviceDoorbell p v) s = .next s) ∧
    (core = s.coreId → core < 1536 → x.enabled = true → x.resetting = false → s.runsPart p = true →
      exec (.serviceDoorbell p v) s = .next { s with svcPend := s.svcPend ++ [(p, sub, false)] }) ∧
    (core ≠ s.coreId → core < 1536 → x.enabled = true → x.resetting = false → (core, p) ∈ s.taken →
      exec (.serviceDoorbell p v) s = .next s) ∧
    (core < 1536 → x.enabled = true → x.resetting = true → s.core < 64 →
      exec (.serviceDoorbell p v) s = .next
        (if (x.doorbells.filter fun q => q.1 == core / 64).length < 64 then
          s.mapPart p fun y => { y with doorbells := y.doorbells ++ [(core / 64, sub)] } else err)) ∧
    (x.invBusy = true ∨ scope = 3 → exec (.invalidationCommand p v) s = .next err) ∧
    (x.invBusy = false → scope = 2 ∨ (scope < 2 ∧ s.ctxs[icx.toNat].defined = true ∧ s.ctxs[icx.toNat].part = p) →
      ∃ t, exec (.invalidationCommand p v) s = .next t ∧ t.parts[p.toNat].invBusy = true ∧ t.mem = s.mem ∧ t.bank = s.bank ∧
        ∀ e, e ∈ t.tlb ↔ e ∈ s.tlb ∧ ¬drops e) ∧
    (s.settled = true → exec (.invalidationComplete p) s = .next (s.mapPart p fun y => { y with invBusy := false })) ∧
    (s.settled = false → exec (.invalidationComplete p) s = .next s) ∧
    (die.toNat < 24 → n < 10 →
      let now := ((s.tally.filter fun y => y.1 = die.toNat ∧ y.2.1 = n).map (·.2.2)).sum
      ∃ t, exec (.counterClear die (BitVec.ofNat 8 (8 * n))) s = .next t ∧
      ∀ k, k < 24 → ∀ h, s.health.toList[k]? = some h → t.health.toList[k]? = some
        (if k = die.toNat then { h with counters := h.counters.set n now } else h))

/-- Partition reset and withheld records (R335, R409, R410): it starts with the control bit; a mailbox command of the
partition that is in progress is answered with status 9 first; the partition's records are dropped with status state 6, and
those of others stay; the run of the core is discarded, and its rules, slots and streams are gone; a second one meanwhile does
nothing; it ends once no run of the partition holds the core, no invalidation command is pending and every access that was
requested has been performed, with event vectors and bindings clear, queue units empty and vector 3
raised; the oldest withheld record is written when more than 8 entries are free.

What of this the manual leaves open is the model's own choice, by log entry 48. -/
def Obligations.PartitionReset : Prop :=
  ∀ (s : State) (p : BitVec 4) (r : Run),
    let x := s.parts[p.toNat]
    (x.resetting = true → exec (.partitionReset p) s = .next s) ∧
    (x.resetting = false → s.bank.run = some r → r.part = p → s.shadow = none → s.mailbox.running = none → Orderly s →
      ∃ t, exec (.partitionReset p) s = .next t ∧ t.parts[p.toNat].resetting = true ∧ t.phase = .saving .kill ∧
        t.bank.eng = [] ∧ (∀ k : BitVec 4, t.bank.stream k = Strm.init) ∧ (∀ k : BitVec 6, t.bank.slot k = OSlot.init) ∧
        (∀ a : AgentId, t.agent a = Agent.init) ∧ (∀ k : BitVec 5, (t.bank.rule k).state ∈ [.idle, .revoked]) ∧
        (∀ ch, (t.bank.chan ch).queue = [] ∧ (t.bank.chan ch).started = (s.bank.chan ch).started) ∧
        t.recs = s.recs.filter (fun y => s.ctxs[y.ctx.toNat].part ≠ p) ∧
        (MemOk s → ∀ a, (∀ y ∈ s.recs, s.ctxs[y.ctx.toNat].part = p → a < y.home + 0x38 ∨ y.home + 0x40 ≤ a) →
          t.mem.read a = s.mem.read a) ∧
        (MemOk s → (∀ y ∈ s.recs, ∀ z ∈ s.recs, y = z ∨ ((y.ctx ≠ z.ctx ∨ y.addr ≠ z.addr) ∧
            (y.home + 64 ≤ z.home ∨ z.home + 64 ≤ y.home))) →
          ∀ y ∈ s.recs, s.ctxs[y.ctx.toNat].part = p → t.rd (y.home + 0x38) 4 = [6, 0, 0, 0] ∧
            t.rdNat (y.home + 0x3C) 4 = s.rdNat (y.home + 0x3C) 4)) ∧
    (∀ (i : Instr) (h : MbHdr) (op : Nat), x.resetting = false → s.mailbox.running = some i → mailOf i = some (h, op, true) →
      h.p = p → ∃ t, exec (.partitionReset p) s = .next t ∧ t.parts[p.toNat].resetting = true ∧
        t.mailbox = (s.answer h op 9 0 []).mailbox) ∧
    (x.resetting = true → x.invBusy = false → s.runsPart p = false → s.pend = [] → s.reads = [] → x.doorbells = [] →
      MemOk s →
      ∃ t, exec (.partitionResetComplete p) s = .next t ∧ t.parts[p.toNat].resetting = false ∧
        t.parts[p.toNat].stopped = false ∧ (x.msixBase + 3 ∈ t.msix.sent ∨ x.msixBase + 3 ∈ t.msix.pending) ∧
        (∀ c : BitVec 6, s.ctxs[c.toNat].defined = true → s.ctxs[c.toNat].part = p →
          t.ctxs[c.toNat].ev = 0 ∧ t.ctxs[c.toNat].err = 0 ∧ t.ctxs[c.toNat].binds = []) ∧
        (∀ u, u < 8 → x.pqs.getLsbD u = true → t.pqs.toList[u]? = some []) ∧
        (∀ e ∈ t.tlb, s.ctxs[e.ctx.toNat].part ≠ p) ∧
        ∀ c ∈ x.ran, ∀ o, o < 2 ^ 21 → t.mem.read (2 ^ 54 + c * 2 ^ 21 + o) = 0) ∧
    (x.resetting = false ∨ x.invBusy = true ∨ s.runsPart p = true ∨ s.pend ≠ [] ∨ s.reads ≠ [] → exec (.partitionResetComplete p) s = .next s) ∧
    (∀ w ws, x.withheld = w :: ws → w.slice = none → w.rule = none → 8 < s.queueFree p →
      ∃ t, exec (.withheldRecordWrite p) s = .next t ∧ t.parts[p.toNat].withheld = ws ∧ t.bank = s.bank ∧ t.recs = s.recs ∧
        (MemOk s → x.ring + 16384 ≤ x.ctl ∨ x.ctl + 64 ≤ x.ring → w.bytes.length = 64 →
          t.rd (x.ring + 64 * (s.rdNat x.ctl 4 % 256)) 64 = w.bytes ∧
          t.rdNat x.ctl 4 = (s.rdNat x.ctl 4 + 1) % 2 ^ 32)) ∧
    (x.withheld = [] ∨ s.queueFree p ≤ 8 → exec (.withheldRecordWrite p) s = .next s)

/-! ## Debug port, resets, power -/

/-- The debug port (R417 to R420): FRZ stops every clock until its release, so that a step takes nothing but the port, a cold
reset or the loss of power; a frame that is too short is answered with status 2 and one with a bad CRC with status 1, both
without bytes; otherwise an answer is 0x5A,
status 0, the bytes and their CRC: a scan while FRZACK stands, a scratchpad byte where no partition was enabled at the
freeze, and 0xFF eight times for a scan without it or an unknown code; an abort or a stall discards the transaction.

What of this the manual leaves open is the model's own choice, by log entries 8, 54 and 66. -/
def Obligations.DebugPort : Prop :=
  ∀ (s : State) (seg off len : Word) (code : Byte),
    let said := fun (st : Byte) (bs : List Byte) => Host.Outcome.next (φ := Fault) (ρ := Refusal)
      { s with dbg := { s.dbg with
        answer := 0x5A :: st :: bs ++ bytesOf 2 (crc16 (st :: bs)).toNat, busy := true } }
    let die := seg.toNat / 1024 % 32
    let core := seg.toNat / 16 % 64
    let dropped := Host.Outcome.next (φ := Fault) (ρ := Refusal) { s with dbg := { s.dbg with answer := [], busy := false } }
    (s.dbg.frz = false → ∃ t, exec .frzAssert s = .next t ∧ t.dbg.frz = true ∧ t.dbg.ack = true ∧ t.mem = s.mem ∧
      t.bank = s.bank ∧ t.wall = s.wall ∧ (t.dbg.partsOff = true ↔ ∀ q ∈ s.parts.toList, q.enabled = false)) ∧
    (s.dbg.frz = true → exec .frzAssert s = .next s) ∧
    exec .frzRelease s = .next { s with dbg := { s.dbg with frz := false, ack := false } } ∧
    (s.powered = true → s.dbg.frz = true → (∀ i ∈ s.inbox, whileFrozen i = false) →
      (∀ y ∈ s.outside, y.whileFrozen = false) → step s = .next s) ∧
    (∀ l, l.length < 3 → s.debugFrame (0xA5 :: l) = said 2 []) ∧
    (∃ bs, bs.length = len.toNat ∧ exec (.readHealth off len true) s = said 0 bs) ∧
    exec (.readHealth off len false) s = said 1 [] ∧ exec (.readScan seg off len false) s = said 1 [] ∧
    exec (.scanSize seg false) s = said 1 [] ∧ exec (.debugUnknownCommand code false) s = said 1 [] ∧
    exec (.debugUnknownCommand code true) s = said 0 (List.replicate 8 0xFF) ∧
    (s.dbg.ack = false → exec (.readScan seg off len true) s = said 0 (List.replicate 8 0xFF)) ∧
    (s.dbg.ack = true → die < 24 → seg.toNat % 16 = 2 → off.toNat + len.toNat ≤ 2 ^ 21 → s.dbg.partsOff = true →
      exec (.readScan seg off len true) s
        = said 0 (s.rd (2 ^ 54 + (die * 64 + core) * 2 ^ 21 + off.toNat) len.toNat)) ∧
    (s.dbg.ack = true → die < 24 → seg.toNat % 16 = 2 ∨ seg.toNat % 16 = 3 → s.dbg.partsOff = false →
      exec (.readScan seg off len true) s = said 0 (List.replicate len.toNat 0)) ∧
    (die < 24 → seg.toNat % 16 = 2 → exec (.scanSize seg true) s = said 0 (bytesOf 8 (2 ^ 21))) ∧
    exec .debugAbort s = dropped ∧ exec .debugStallTimeout s = dropped

/-- Resets and power (R4, R393, R397): a cold reset leaves the reset state at boot stage 1, with zeros in the scratchpads,
and all other memory and the wear as they were; boot goes on a stage at a time, and scrubs LPDDR, unless a channel fails,
then the weight store; a hot reset in a command discards its response; without power a step runs nothing but a cold
reset.

What of this the manual leaves open is the model's own choice, by log entries 2 and 55. -/
def Obligations.Resets : Prop :=
  ∀ (s : State),
    (∃ t, exec .coldReset s = .next t ∧ t.stage = 1 ∧ t.mediaBad = false ∧ t.powered = true ∧ t.bank = Bank.init ∧
      t.phase = .idle ∧ t.parts = State.reset.parts ∧ t.ctxs = State.reset.ctxs ∧ t.recs = [] ∧ t.wall = 0 ∧ t.pt = 0 ∧
      (MemOk s → ∀ a, t.mem.read a = if 2 ^ 54 ≤ a ∧ a < 2 ^ 56 then 0 else s.mem.read a) ∧
      t.health.toList.map (·.wear) = s.health.toList.map (·.wear) ∧
      ∀ h ∈ t.health.toList, h.counters = List.replicate 10 0) ∧
    (s.powered = true → s.dbg.frz = false → s.outside = [] → s.inbox = [] → s.stage < 6 → s.mediaBad = false →
      step s = .next s.emptyCycle.boot) ∧
    (s.stage = 1 ∨ s.stage = 3 ∨ s.stage = 4 ∨ s.stage = 5 → s.boot.stage = s.stage + 1) ∧
    (s.stage = 2 → (s.boot.stage = 2 ∧ s.boot.mediaBad = true) ∨
      (s.boot.stage = 3 ∧ (MemOk s → ∀ a, a < 2 ^ 42 → s.boot.mem.read a = 0))) ∧
    (s.stage = 3 → MemOk s → ∀ a, 2 ^ 56 ≤ a → a < 2 ^ 60 → s.boot.mem.read a = 0) ∧
    (s.stage = 5 → s.boot.window = (0, 0)) ∧
    (s.mailbox.busy = true →
      exec .hotReset s = .next { s with mailbox := { s.mailbox with response := [], discard := true } }) ∧
    (s.mailbox.busy = false → exec .hotReset s = .next s) ∧
    exec .packagePowerLoss s = .next { s with powered := false } ∧
    (s.powered = false → (∀ is, s.inbox ≠ .coldReset :: is) → step s = .fault .unpowered) ∧
    (s.powered = false → ∀ is, s.inbox = .coldReset :: is → step s = exec .coldReset { s with inbox := is })

/-- The state after reset (R17, R183, R184, R191, R193, R202, R265, R269, R285, R397): the core is idle at boot stage 6 with no
record pushed, no context defined and no partition enabled; memory lists nothing and is canonical; a new context's queue
positions read as zero without a pending result, its streams and slots are unconfigured, accumulators 128 x 128 f32
zeros, sequence number and joint count 0, channel identifiers at 1 with done mark 0, record mode off, and the default
tag.

What of this the manual leaves open is the model's own choice, by log entries 2 and 4. -/
def Obligations.ResetState : Prop :=
  let s := State.reset
  MemOk s ∧ s.mem = ⟨[], [], []⟩ ∧ s.phase = .idle ∧ s.stage = 6 ∧ s.powered = true ∧ s.recs = [] ∧
  (∀ c : BitVec 6, s.ctxs[c.toNat].defined = false) ∧ (∀ p : BitVec 4, s.parts[p.toNat].enabled = false) ∧
  (∀ a : AgentId, (s.agent a).sq = List.replicate 16 ⟨0, 0, .at 0, none⟩ ∧
    (s.agent a).vq = List.replicate 16 ⟨0, 0, .at 0, none⟩ ∧ (s.agent a).latches = [] ∧ (s.agent a).loops = [] ∧
    (s.agent a).aflags = 0 ∧ (s.agent a).tag = 0x0003FFFFFFFFFFFF) ∧
  (∀ k : BitVec 2, (s.bank.acc k).rows = 128 ∧ (s.bank.acc k).cols = 128 ∧ (s.bank.acc k).isI32 = false ∧
    (s.bank.acc k).live = false ∧ (s.bank.acc k).poison = 0 ∧ ∀ i n, (s.bank.acc k).at i n = 0) ∧
  (∀ k : BitVec 4, (s.bank.stream k).state = .unconf) ∧ (∀ k : BitVec 6, (s.bank.slot k).conf = false) ∧
  (∀ k : BitVec 2, (s.bank.chan k).next = 1 ∧ (s.bank.chan k).done = 0 ∧ (s.bank.chan k).queue = []) ∧
  s.bank.eng = [] ∧ s.bank.seq = 0 ∧ s.bank.joint = 0 ∧ s.bank.recm.on = false

/-- Every step keeps memory in its canonical form: keys strictly rising, and no cell listed that holds what an unlisted
address reads as. It is the model's own form of memory, and every statement that reads memory rests on it.

What of this the manual leaves open is the model's own choice, by log entry 4. -/
def Obligations.MemInvariant : Prop :=
  ∀ s t : State, MemOk s → step s = .next t → MemOk t
end

