-- ==== Sys2Proof/Laws/Memory.lean ====
section
/-! SUPPORT. Memory: a read after a write, and that every operation keeps the canonical form. -/

namespace Sys2Proof.Machine

/-! ## Rising lists of cells -/

/-- Every key of the list lies above `a`. -/
def above (a : Nat) (l : List Host.Cell) : Prop := ∀ c ∈ l, a < c.1

theorem risingCells_cons (c : Host.Cell) (l : List Host.Cell) :
    risingCells (c :: l) = true ↔ above c.1 l ∧ risingCells l = true := by
  induction l generalizing c with
  | nil => simp [risingCells, above]
  | cons d t ih =>
    obtain ⟨a, v⟩ := c
    obtain ⟨b, w⟩ := d
    simp only [risingCells, Bool.and_eq_true, decide_eq_true_eq, above, List.mem_cons, forall_eq_or_imp]
    constructor
    · rintro ⟨h, r⟩
      exact ⟨⟨h, fun c hc => Nat.lt_trans h (((ih (b, w)).1 r).1 c hc)⟩, r⟩
    · rintro ⟨⟨h, -⟩, r⟩
      exact ⟨h, r⟩

theorem mem_insertCell (l : List Host.Cell) (a : Nat) (v : Byte) (c : Host.Cell) (h : c ∈ insertCell l a v) :
    c = (a, v) ∨ c ∈ l := by
  induction l with
  | nil => simpa [insertCell] using h
  | cons d t ih =>
    simp only [insertCell] at h
    split at h
    · simpa using h
    · split at h <;> simp only [List.mem_cons] at h ⊢ <;> grind

theorem mem_eraseCell (l : List Host.Cell) (a : Nat) (c : Host.Cell) (h : c ∈ eraseCell l a) : c ∈ l := by
  induction l with
  | nil => simp [eraseCell] at h
  | cons d t ih =>
    simp only [eraseCell] at h
    split at h <;> simp only [List.mem_cons] at h ⊢ <;> grind

theorem risingCells_insert (l : List Host.Cell) (a : Nat) (v : Byte) (h : risingCells l = true) :
    risingCells (insertCell l a v) = true := by
  induction l with
  | nil => rfl
  | cons d t ih =>
    have hd := (risingCells_cons d t).1 h
    simp only [insertCell]
    split
    · next hlt =>
      refine (risingCells_cons _ _).2 ⟨fun c hc => ?_, h⟩
      rcases List.mem_cons.1 hc with rfl | hc
      · exact hlt
      · exact Nat.lt_trans hlt (hd.1 c hc)
    · split
      · next he => exact (risingCells_cons _ _).2 ⟨by simpa [above, he] using hd.1, hd.2⟩
      · refine (risingCells_cons _ _).2 ⟨fun c hc => ?_, ih hd.2⟩
        rcases mem_insertCell t a v c hc with rfl | hc
        · simp only; omega
        · exact hd.1 c hc

theorem risingCells_erase (l : List Host.Cell) (a : Nat) (h : risingCells l = true) :
    risingCells (eraseCell l a) = true := by
  induction l with
  | nil => rfl
  | cons d t ih =>
    have hd := (risingCells_cons d t).1 h
    simp only [eraseCell]
    split
    · exact hd.2
    · exact (risingCells_cons _ _).2 ⟨fun c hc => hd.1 c (mem_eraseCell t a c hc), ih hd.2⟩

theorem risingCells_filter (l : List Host.Cell) (p : Host.Cell → Bool) (h : risingCells l = true) :
    risingCells (l.filter p) = true := by
  induction l with
  | nil => rfl
  | cons d t ih =>
    have hd := (risingCells_cons d t).1 h
    simp only [List.filter_cons]
    split
    · exact (risingCells_cons _ _).2 ⟨fun c hc => hd.1 c (List.mem_filter.1 hc).1, ih hd.2⟩
    · exact ih hd.2

theorem lookup_insertCell (l : List Host.Cell) (a b : Nat) (v : Byte) :
    (insertCell l a v).lookup b = if b = a then some v else l.lookup b := by
  induction l with
  | nil => simp [insertCell, List.lookup_cons]; grind
  | cons d t ih => simp only [insertCell]; grind

theorem lookup_above (l : List Host.Cell) (a : Nat) (h : above a l) : l.lookup a = none := by
  induction l with
  | nil => rfl
  | cons d t ih =>
    have h1 : a < d.1 := h d (by simp)
    have h2 : (a == d.1) = false := by simp; omega
    rw [show (d :: t).lookup a = t.lookup a by obtain ⟨x, y⟩ := d; simp only [List.lookup_cons, h2]]
    exact ih fun c hc => h c (List.mem_cons_of_mem _ hc)

theorem lookup_eraseCell_ne (l : List Host.Cell) {a b : Nat} (h : b ≠ a) : (eraseCell l a).lookup b = l.lookup b := by
  induction l with
  | nil => rfl
  | cons d t ih => simp only [eraseCell]; grind

theorem lookup_eraseCell (l : List Host.Cell) (a : Nat) (h : risingCells l = true) : (eraseCell l a).lookup a = none := by
  induction l with
  | nil => rfl
  | cons d t ih =>
    have hd := (risingCells_cons d t).1 h
    simp only [eraseCell]
    split
    · next he => exact lookup_above t a (by simpa [he] using hd.1)
    · next he =>
      have h2 : (a == d.1) = false := by simpa using fun e => he e.symm
      rw [show (d :: eraseCell t a).lookup a = (eraseCell t a).lookup a by
        obtain ⟨x, y⟩ := d; simp only [List.lookup_cons, h2]]
      exact ih hd.2

/-! ## Reads and writes of one byte -/

@[simp] theorem Memory.base_write (m : Memory) (a b : Nat) (v : Byte) : (m.write a v).base b = m.base b := rfl

theorem Memory.wf_iff (m : Memory) : m.wf = true ↔ risingCells m.cells = true ∧ ∀ c ∈ m.cells, c.2 ≠ m.base c.1 := by
  simp [Memory.wf]

/-- A byte read after it was written is the byte written. -/
theorem Memory.read_write (m : Memory) (a : Nat) (v : Byte) (h : m.wf = true) : (m.write a v).read a = v := by
  have hr := ((m.wf_iff).1 h).1
  unfold Memory.read
  simp only [Memory.write]
  split
  · next b hb =>
    split at hb
    · simp [lookup_eraseCell _ _ hr] at hb
    · simp [lookup_insertCell] at hb; exact hb.symm
  · next hb =>
    split at hb
    · next he => exact he.symm
    · simp [lookup_insertCell] at hb

/-- A write leaves every other byte alone. -/
theorem Memory.read_write_ne (m : Memory) {a b : Nat} (v : Byte) (h : b ≠ a) : (m.write a v).read b = m.read b := by
  have hl : (m.write a v).cells.lookup b = m.cells.lookup b := by
    simp only [Memory.write]
    split
    · exact lookup_eraseCell_ne _ h
    · simp [lookup_insertCell, h]
  simp [Memory.read, hl]

/-- A write of one byte keeps the canonical form. -/
theorem Memory.wf_write (m : Memory) (a : Nat) (v : Byte) (h : m.wf = true) : (m.write a v).wf = true := by
  obtain ⟨hr, hb⟩ := (m.wf_iff).1 h
  refine (Memory.wf_iff _).2 ⟨?_, fun c hc => ?_⟩
  · simp only [Memory.write]
    split
    · exact risingCells_erase _ _ hr
    · exact risingCells_insert _ _ _ hr
  · rw [Memory.base_write]
    simp only [Memory.write] at hc
    split at hc
    · exact hb c (mem_eraseCell _ _ _ hc)
    · next hne =>
      rcases mem_insertCell _ _ _ _ hc with rfl | hc
      · exact hne
      · exact hb c hc

/-! ## Byte lists -/

theorem Memory.wf_writeN (bs : List Byte) (m : Memory) (a : Nat) (h : m.wf = true) : (m.writeN a bs).wf = true := by
  induction bs generalizing m a with
  | nil => exact h
  | cons b bs ih => exact ih _ _ (m.wf_write a b h)

/-- A write of a byte list leaves the bytes outside its range alone. -/
theorem Memory.read_writeN_out (bs : List Byte) (m : Memory) (a b : Nat) (h : b < a ∨ a + bs.length ≤ b) :
    (m.writeN a bs).read b = m.read b := by
  induction bs generalizing m a with
  | nil => rfl
  | cons x bs ih =>
    simp only [List.length_cons] at h
    rw [Memory.writeN, ih _ _ (by omega), m.read_write_ne x (by omega)]

/-- A byte inside a written range reads as it was written. -/
theorem Memory.read_writeN_in (bs : List Byte) (m : Memory) (a i : Nat) (h : m.wf = true) (hi : i < bs.length) :
    (m.writeN a bs).read (a + i) = bs[i] := by
  induction bs generalizing m a i with
  | nil => simp at hi
  | cons x bs ih =>
    have hw := m.wf_write a x h
    rw [Memory.writeN]
    cases i with
    | zero => rw [Memory.read_writeN_out _ _ _ _ (by omega), Nat.add_zero, m.read_write a x h]; rfl
    | succ i =>
      have := ih (m.write a x) (a + 1) i hw (by simpa using hi)
      rw [show a + (i + 1) = a + 1 + i by omega, this]; rfl

/-- A byte list read where it was written is the list written. -/
theorem Memory.readN_writeN (bs : List Byte) (m : Memory) (a : Nat) (h : m.wf = true) :
    (m.writeN a bs).readN a bs.length = bs := by
  induction bs generalizing m a with
  | nil => rfl
  | cons x bs ih =>
    have hw := m.wf_write a x h
    simp only [List.length_cons, Memory.readN, Memory.writeN]
    rw [Memory.read_writeN_out _ _ _ _ (by omega), m.read_write a x h, ih _ _ hw]

theorem Memory.readN_congr (m m' : Memory) (n a : Nat) (h : ∀ i, i < n → m'.read (a + i) = m.read (a + i)) :
    m'.readN a n = m.readN a n := by
  induction n generalizing a with
  | zero => rfl
  | succ n ih =>
    simp only [Memory.readN]
    rw [ih (a + 1) fun i hi => by
      have := h (i + 1) (by omega)
      rwa [show a + (i + 1) = a + 1 + i by omega] at this]
    have := h 0 (by omega)
    simpa using this

/-! ## The other operations -/

theorem find?_congr_filter {α : Type} (l : List α) (p q : α → Bool) (h : ∀ x ∈ l, p x = true → q x = true) :
    (l.filter q).find? p = l.find? p := by
  induction l with
  | nil => rfl
  | cons x l ih =>
    have ih' := ih fun y hy => h y (List.mem_cons_of_mem _ hy)
    simp only [List.filter_cons, List.find?_cons]
    cases hp : p x with
    | true => simp [h x (by simp) hp, hp]
    | false =>
      cases hq : q x with
      | true => simp [hp, ih']
      | false => simpa using ih'

/-- Outside a forgotten range an unlisted address reads as before. -/
theorem Memory.base_forget (m : Memory) (lo hi tag b : Nat) (h : ¬(lo ≤ b ∧ b < hi)) :
    (m.forget lo hi tag).base b = m.base b := by
  have hf : (m.forget lo hi tag).rangeTag b = m.rangeTag b := by
    unfold Memory.rangeTag
    simp only [Memory.forget, List.find?_cons]
    have h1 : (decide (lo ≤ b) && decide (b < hi)) = false := by simpa using fun x => Nat.not_lt.1 fun y => h ⟨x, y⟩
    simp only [h1]
    rw [find?_congr_filter]
    intro r _ hr
    simp only [Bool.and_eq_true, decide_eq_true_eq] at hr
    simp only [Bool.not_eq_true', Bool.and_eq_false_imp, decide_eq_true_eq, decide_eq_false_iff_not]
    omega
  simp [Memory.base, hf]

theorem Memory.wf_forget (m : Memory) (lo hi tag : Nat) (h : m.wf = true) : (m.forget lo hi tag).wf = true := by
  obtain ⟨hr, hb⟩ := (m.wf_iff).1 h
  refine (Memory.wf_iff _).2 ⟨risingCells_filter _ _ hr, fun c hc => ?_⟩
  obtain ⟨hc, ho⟩ := List.mem_filter.1 hc
  rw [Memory.base_forget _ _ _ _ _ (by simp at ho; omega)]
  exact hb c hc

@[simp] theorem Memory.wf_poisonGranule (m : Memory) (g : Nat) : (m.poisonGranule g).wf = m.wf := rfl
@[simp] theorem Memory.wf_cleanGranule (m : Memory) (g : Nat) : (m.cleanGranule g).wf = m.wf := rfl

@[simp] theorem State.mem_count (s : State) (d k n : Nat) : (s.count d k n).mem = s.mem := rfl

@[simp] theorem State.wf_wr (s : State) (key : Nat) (bs : List Byte) (h : s.mem.wf = true) : (s.wr key bs).mem.wf = true :=
  s.mem.wf_writeN bs key h

@[simp] theorem State.wf_poisonKey (s : State) (key : Nat) : (s.poisonKey key).mem.wf = s.mem.wf := by
  unfold State.poisonKey; simp only; split <;> rfl

@[simp] theorem State.mem_deferTo (s : State) (a : AgentId) (d : Deferred) : (s.deferTo a d).mem = s.mem := rfl

@[simp] theorem State.mem_dropOf (s : State) (a : AgentId) (path : Path) (key n : Nat) :
    (s.dropOf a path key n).mem = s.mem := by
  unfold State.dropOf; split <;> rfl

@[simp] theorem State.mem_dropAt (s : State) (path : Path) (key n : Nat) : (s.dropAt path key n).mem = s.mem :=
  s.mem_dropOf _ _ _ _

@[simp] theorem State.mem_wholeOf (s : State) (a : AgentId) (path : Path) (key n : Nat) :
    (s.wholeOf a path key n).mem = s.mem := by
  unfold State.wholeOf; split
  · rfl
  · exact s.mem_dropOf _ _ _ _

/-- Reading elements of a pending read changes registers and what is held alone. -/
theorem State.mem_readElements (xs : List (Nat × DWord × Nat)) (s : State) (r : PendR) :
    (State.readElements xs s r).1.mem = s.mem := by
  induction xs generalizing s r with
  | nil => rfl
  | cons x xs ih => exact (ih _ _).trans (s.mem_wholeOf _ _ _ _)

/-- So does performing pending reads. -/
@[simp] theorem State.mem_readsWhere (s : State) (p : PendR → Nat × DWord × Nat → Bool) :
    (s.readsWhere p).mem = s.mem := by
  have go : ∀ (rs kept : List PendR) (s : State), (State.readGo p rs kept s).mem = s.mem := by
    intro rs
    induction rs with
    | nil => intros; rfl
    | cons r rs ih => intro kept s; exact (ih _ _).trans (State.mem_readElements _ _ _)
  unfold State.readsWhere
  split
  · rfl
  · exact go _ _ _

@[simp] theorem State.mem_readsAt (s : State) (a : AgentId) (path : Path) (key n : Nat) :
    (s.readsAt a path key n).mem = s.mem := s.mem_readsWhere _

@[simp] theorem State.mem_readTo (s : State) (r : Nat) (p : PendR → Bool) : (s.readTo r p).mem = s.mem := by
  unfold State.readTo; split
  · exact s.mem_readsWhere _
  · rfl

@[simp] theorem State.mem_noteWrite (s : State) (who : Party) (path : Path) (key n upto : Nat) :
    (s.noteWrite who path key n upto).mem = s.mem := by
  unfold State.noteWrite
  dsimp only
  split
  · exact s.mem_readsWhere _
  · exact s.mem_readsWhere _

@[simp] theorem State.mem_noteRelease (s : State) (r : Rel) : (s.noteRelease r).mem = s.mem := by
  unfold State.noteRelease; split <;> rfl

@[simp] theorem State.mem_noteReleases (s : State) (r : Option Rel) : (s.noteReleases r).mem = s.mem := by
  cases r with
  | none => rfl
  | some r => exact s.mem_noteRelease r

theorem State.wf_land (s : State) (e : PendW) (bs : List Byte) (h : s.mem.wf = true) : (s.land e bs).mem.wf = true :=
  State.wf_wr _ _ _ (by rwa [State.mem_noteWrite])

/-- An atomic leaves the canonical form, whether it stores or fails. -/
theorem State.wf_performAmo (s : State) (e : PendW) (uid : Nat) (o : AmoOp) (b x : Nat) (d : Bool) (r : Option Rel)
    (h : s.mem.wf = true) : (s.performAmo e uid o b x d r).mem.wf = true := by
  unfold State.performAmo
  dsimp only
  split
  · split <;> exact h
  · split
    · rw [State.mem_noteReleases]; exact State.wf_land _ _ _ h
    · exact h

/-- Performing a pending write keeps the canonical form. -/
theorem State.wf_perform (s : State) (e : PendW) (h : s.mem.wf = true) : (s.perform e).mem.wf = true := by
  have w : (if e.clean then { s.land e e.bytes with mem := (s.land e e.bytes).mem.cleanGranule (e.key / 64) }
      else s.land e e.bytes).mem.wf = true := by
    split
    · exact s.wf_land e e.bytes h
    · exact s.wf_land e e.bytes h
  unfold State.perform
  split
  · exact s.wf_performAmo _ _ _ _ _ _ _ h
  · dsimp only
    split
    · split
      · rw [State.mem_noteRelease]; exact w
      · exact w
    · exact h

/-- So does performing any of them, whichever stay. -/
theorem State.wf_settleGo (stays : Nat → PendW → Bool) (es : List PendW) (i : Nat) (kept : List PendW) (s : State)
    (h : s.mem.wf = true) : (State.settleGo stays i es kept s).mem.wf = true := by
  induction es generalizing i kept s with
  | nil => exact h
  | cons e es ih =>
    simp only [State.settleGo]
    split
    · exact ih _ _ _ h
    · exact ih _ _ _ (s.wf_perform e h)

theorem State.wf_flushWhere (s : State) (p : PendW → Bool) (h : s.mem.wf = true) : (s.flushWhere p).mem.wf = true := by
  unfold State.flushWhere
  split
  · exact h
  · exact State.wf_settleGo _ _ _ _ _ h

theorem State.wf_quiesce (s : State) (h : s.mem.wf = true) : s.quiesce.mem.wf = true :=
  State.wf_flushWhere _ _ (by rwa [State.mem_readsWhere])

/-- A requested write, performed at once or later. -/
theorem State.wf_request (s : State) (late : Bool) (e : PendW) (h : s.mem.wf = true) : (s.request late e).mem.wf = true := by
  have w : ∀ p : PendW → Bool, (((s.flushWhere p).readsAt s.turn e.path e.key e.bytes.length).dropAt e.path e.key
      e.bytes.length).mem.wf = true := fun p => by
    rw [State.mem_dropAt, State.mem_readsAt]; exact s.wf_flushWhere p h
  unfold State.request
  dsimp only
  split
  · exact w _
  · exact State.wf_perform _ e (w _)

theorem State.wf_settle (s : State) (ps : List (Nat × Bool)) (g : Nat) : (s.settle ps g).mem.wf = s.mem.wf := by
  unfold State.settle; simp only; split
  · exact s.wf_poisonKey _
  · split <;> rfl

theorem State.wf_settleAll (s : State) (ps : List (Nat × Bool)) : (s.settleAll ps).mem.wf = s.mem.wf := by
  unfold State.settleAll
  induction (ps.map (·.1 / 64)).eraseDups generalizing s with
  | nil => rfl
  | cons g l ih => rw [List.foldl_cons, ih, s.wf_settle]

theorem Memory.wf_foldl {α : Type} (f : Memory → α → Memory) (hf : ∀ m x, m.wf = true → (f m x).wf = true) (l : List α)
    (m : Memory) (h : m.wf = true) : (l.foldl f m).wf = true := by
  induction l generalizing m with
  | nil => exact h
  | cons x l ih => exact ih _ (hf _ _ h)

/-- A scrub leaves what an unlisted address outside its range reads as. -/
theorem Memory.base_scrub (m : Memory) (lo hi a : Nat) (h : a < lo ∨ hi ≤ a) : (m.scrub lo hi).base a = m.base a := by
  have key : ∀ l : List (Nat × Nat × Nat),
      ((l.flatMap fun r => clipRange 0 lo r ++ clipRange hi r.2.1 r).find?
        fun r => decide (r.1 ≤ a) && decide (a < r.2.1)).map (·.2.2)
      = (l.find? fun r => decide (r.1 ≤ a) && decide (a < r.2.1)).map (·.2.2) := by
    intro l
    induction l with
    | nil => rfl
    | cons r l ih =>
      obtain ⟨x, y, tag⟩ := r
      rw [List.flatMap_cons, List.find?_append, List.find?_cons]
      by_cases hin : x ≤ a ∧ a < y
      · have : ∃ z, (clipRange 0 lo (x, y, tag) ++ clipRange hi y (x, y, tag)).find?
            (fun r => decide (r.1 ≤ a) && decide (a < r.2.1)) = some z ∧ z.2.2 = tag := by
          simp only [clipRange, Nat.zero_max]
          rcases Nat.lt_or_ge a lo with h1 | h1
          · rw [if_pos (by omega)]
            exact ⟨_, by rw [List.cons_append, List.find?_cons_of_pos]; simp; omega, rfl⟩
          · split <;> (rw [if_pos (by omega)]; simp only [List.cons_append, List.nil_append])
            · rw [List.find?_cons_of_neg (by simp; omega), List.find?_cons_of_pos (by simp; omega)]
              exact ⟨_, rfl, rfl⟩
            · rw [List.find?_cons_of_pos (by simp; omega)]
              exact ⟨_, rfl, rfl⟩
        obtain ⟨z, hz, ht⟩ := this
        have hf : (decide (x ≤ a) && decide (a < y)) = true := by simp [hin]
        simp only [hz, Option.some_or, hf, Option.map_some, ht]
      · have : (clipRange 0 lo (x, y, tag) ++ clipRange hi y (x, y, tag)).find?
            (fun r => decide (r.1 ≤ a) && decide (a < r.2.1)) = none := by
          refine List.find?_eq_none.2 fun z hz => ?_
          simp only [clipRange, Nat.zero_max, List.mem_append] at hz
          rcases hz with hz | hz <;> split at hz <;> simp at hz <;> subst hz <;> simp <;> omega
        have hf : (decide (x ≤ a) && decide (a < y)) = false := by simp; omega
        simp only [this, Option.none_or, hf]
        exact ih
  unfold Memory.base Memory.rangeTag
  exact congrArg (fun o => match o with | some (t + 1) => Config.freeByte (t + 1) a | _ => 0) (key m.undefs)

theorem Memory.wf_scrub (m : Memory) (lo hi : Nat) (h : m.wf = true) : (m.scrub lo hi).wf = true := by
  obtain ⟨hr, hb⟩ := m.wf_iff.1 h
  refine (Memory.wf_iff _).2 ⟨risingCells_filter _ _ hr, fun c hc => ?_⟩
  obtain ⟨hm, hk⟩ := List.mem_filter.1 hc
  rw [m.base_scrub lo hi _ (by simpa using hk)]
  exact hb c hm

theorem Memory.wf_writeWeights (bs : List Byte) (m : Memory) (x : Model) (die o : Nat) (h : m.wf = true) :
    (m.writeWeights x die o bs).wf = true := by
  induction bs generalizing m o with
  | nil => exact h
  | cons b bs ih => exact ih _ _ (m.wf_write _ _ h)

/-- Memory right after reset is in canonical form. -/
theorem reset_wf : State.reset.mem.wf = true := rfl

end Sys2Proof.Machine
end

