-- ==== Sys2Proof/Laws/State.lean ====
section
/-! SUPPORT. What each update of the state leaves alone, field by field: no later proof unfolds a record update. -/

namespace Sys2Proof.Machine

variable (s : State)

/-! ## mapBank -/

@[simp] theorem State.mapBank_pt (f : Bank → Bank) : (s.mapBank f).pt = s.pt := rfl
@[simp] theorem State.mapBank_wall (f : Bank → Bank) : (s.mapBank f).wall = s.wall := rfl
@[simp] theorem State.mapBank_reads (f : Bank → Bank) : (s.mapBank f).reads = s.reads := rfl
@[simp] theorem State.mapBank_reader (f : Bank → Bank) : (s.mapBank f).reader = s.reader := rfl
@[simp] theorem State.mapBank_monitors (f : Bank → Bank) : (s.mapBank f).monitors = s.monitors := rfl
@[simp] theorem State.mapBank_sampled (f : Bank → Bank) : (s.mapBank f).sampled = s.sampled := rfl
@[simp] theorem State.mapBank_phase (f : Bank → Bank) : (s.mapBank f).phase = s.phase := rfl
@[simp] theorem State.mapBank_shadow (f : Bank → Bank) : (s.mapBank f).shadow = s.shadow := rfl
@[simp] theorem State.mapBank_areas (f : Bank → Bank) : (s.mapBank f).areas = s.areas := rfl
@[simp] theorem State.mapBank_heldAreas (f : Bank → Bank) : (s.mapBank f).heldAreas = s.heldAreas := rfl
@[simp] theorem State.mapBank_freezes (f : Bank → Bank) : (s.mapBank f).freezes = s.freezes := rfl
@[simp] theorem State.mapBank_board (f : Bank → Bank) : (s.mapBank f).board = s.board := rfl
@[simp] theorem State.mapBank_restoreAt (f : Bank → Bank) : (s.mapBank f).restoreAt = s.restoreAt := rfl
@[simp] theorem State.mapBank_srPend (f : Bank → Bank) : (s.mapBank f).srPend = s.srPend := rfl
@[simp] theorem State.mapBank_evSets (f : Bank → Bank) : (s.mapBank f).evSets = s.evSets := rfl
@[simp] theorem State.mapBank_turn (f : Bank → Bank) : (s.mapBank f).turn = s.turn := rfl
@[simp] theorem State.mapBank_die (f : Bank → Bank) : (s.mapBank f).die = s.die := rfl
@[simp] theorem State.mapBank_core (f : Bank → Bank) : (s.mapBank f).core = s.core := rfl
@[simp] theorem State.mapBank_verdict (f : Bank → Bank) : (s.mapBank f).verdict = s.verdict := rfl
@[simp] theorem State.mapBank_mem (f : Bank → Bank) : (s.mapBank f).mem = s.mem := rfl
@[simp] theorem State.mapBank_pend (f : Bank → Bank) : (s.mapBank f).pend = s.pend := rfl
@[simp] theorem State.mapBank_held (f : Bank → Bank) : (s.mapBank f).held = s.held := rfl
@[simp] theorem State.mapBank_rels (f : Bank → Bank) : (s.mapBank f).rels = s.rels := rfl
@[simp] theorem State.mapBank_tlb (f : Bank → Bank) : (s.mapBank f).tlb = s.tlb := rfl
@[simp] theorem State.mapBank_walk (f : Bank → Bank) : (s.mapBank f).walk = s.walk := rfl
@[simp] theorem State.mapBank_walks (f : Bank → Bank) : (s.mapBank f).walks = s.walks := rfl
@[simp] theorem State.mapBank_refresh (f : Bank → Bank) : (s.mapBank f).refresh = s.refresh := rfl
@[simp] theorem State.mapBank_svcPend (f : Bank → Bank) : (s.mapBank f).svcPend = s.svcPend := rfl
@[simp] theorem State.mapBank_stopPend (f : Bank → Bank) : (s.mapBank f).stopPend = s.stopPend := rfl
@[simp] theorem State.mapBank_reposted (f : Bank → Bank) : (s.mapBank f).reposted = s.reposted := rfl
@[simp] theorem State.mapBank_gangStop (f : Bank → Bank) : (s.mapBank f).gangStop = s.gangStop := rfl
@[simp] theorem State.mapBank_reissue (f : Bank → Bank) : (s.mapBank f).reissue = s.reissue := rfl
@[simp] theorem State.mapBank_ctxs (f : Bank → Bank) : (s.mapBank f).ctxs = s.ctxs := rfl
@[simp] theorem State.mapBank_parts (f : Bank → Bank) : (s.mapBank f).parts = s.parts := rfl
@[simp] theorem State.mapBank_recs (f : Bank → Bank) : (s.mapBank f).recs = s.recs := rfl
@[simp] theorem State.mapBank_pushes (f : Bank → Bank) : (s.mapBank f).pushes = s.pushes := rfl
@[simp] theorem State.mapBank_taken (f : Bank → Bank) : (s.mapBank f).taken = s.taken := rfl
@[simp] theorem State.mapBank_pqs (f : Bank → Bank) : (s.mapBank f).pqs = s.pqs := rfl
@[simp] theorem State.mapBank_models (f : Bank → Bank) : (s.mapBank f).models = s.models := rfl
@[simp] theorem State.mapBank_exports (f : Bank → Bank) : (s.mapBank f).exports = s.exports := rfl
@[simp] theorem State.mapBank_link (f : Bank → Bank) : (s.mapBank f).link = s.link := rfl
@[simp] theorem State.mapBank_portsUp (f : Bank → Bank) : (s.mapBank f).portsUp = s.portsUp := rfl
@[simp] theorem State.mapBank_portsErr (f : Bank → Bank) : (s.mapBank f).portsErr = s.portsErr := rfl
@[simp] theorem State.mapBank_mapped (f : Bank → Bank) : (s.mapBank f).mapped = s.mapped := rfl
@[simp] theorem State.mapBank_devices (f : Bank → Bank) : (s.mapBank f).devices = s.devices := rfl
@[simp] theorem State.mapBank_window (f : Bank → Bank) : (s.mapBank f).window = s.window := rfl
@[simp] theorem State.mapBank_hostOut (f : Bank → Bank) : (s.mapBank f).hostOut = s.hostOut := rfl
@[simp] theorem State.mapBank_exportOut (f : Bank → Bank) : (s.mapBank f).exportOut = s.exportOut := rfl
@[simp] theorem State.mapBank_msix (f : Bank → Bank) : (s.mapBank f).msix = s.msix := rfl
@[simp] theorem State.mapBank_mailbox (f : Bank → Bank) : (s.mapBank f).mailbox = s.mailbox := rfl
@[simp] theorem State.mapBank_health (f : Bank → Bank) : (s.mapBank f).health = s.health := rfl
@[simp] theorem State.mapBank_tally (f : Bank → Bank) : (s.mapBank f).tally = s.tally := rfl
@[simp] theorem State.mapBank_throttle (f : Bank → Bank) : (s.mapBank f).throttle = s.throttle := rfl
@[simp] theorem State.mapBank_dbg (f : Bank → Bank) : (s.mapBank f).dbg = s.dbg := rfl
@[simp] theorem State.mapBank_powered (f : Bank → Bank) : (s.mapBank f).powered = s.powered := rfl
@[simp] theorem State.mapBank_stage (f : Bank → Bank) : (s.mapBank f).stage = s.stage := rfl
@[simp] theorem State.mapBank_mediaBad (f : Bank → Bank) : (s.mapBank f).mediaBad = s.mediaBad := rfl
@[simp] theorem State.mapBank_inbox (f : Bank → Bank) : (s.mapBank f).inbox = s.inbox := rfl
@[simp] theorem State.mapBank_outside (f : Bank → Bank) : (s.mapBank f).outside = s.outside := rfl
@[simp] theorem State.mapBank_oracle (f : Bank → Bank) : (s.mapBank f).oracle = s.oracle := rfl
@[simp] theorem State.mapBank_free (f : Bank → Bank) : (s.mapBank f).free = s.free := rfl
@[simp] theorem State.mapBank_engAt (f : Bank → Bank) : (s.mapBank f).engAt = s.engAt := rfl
@[simp] theorem State.mapBank_copyAt (f : Bank → Bank) : (s.mapBank f).copyAt = s.copyAt := rfl
@[simp] theorem State.mapBank_ruleAt (f : Bank → Bank) : (s.mapBank f).ruleAt = s.ruleAt := rfl
@[simp] theorem State.mapBank_reply (f : Bank → Bank) : (s.mapBank f).reply = s.reply := rfl

/-! ## mapAgent -/

@[simp] theorem State.mapAgent_pt (a : AgentId) (f : Agent → Agent) : (s.mapAgent a f).pt = s.pt := rfl
@[simp] theorem State.mapAgent_wall (a : AgentId) (f : Agent → Agent) : (s.mapAgent a f).wall = s.wall := rfl
@[simp] theorem State.mapAgent_reads (a : AgentId) (f : Agent → Agent) : (s.mapAgent a f).reads = s.reads := rfl
@[simp] theorem State.mapAgent_reader (a : AgentId) (f : Agent → Agent) : (s.mapAgent a f).reader = s.reader := rfl
@[simp] theorem State.mapAgent_monitors (a : AgentId) (f : Agent → Agent) : (s.mapAgent a f).monitors = s.monitors := rfl
@[simp] theorem State.mapAgent_sampled (a : AgentId) (f : Agent → Agent) : (s.mapAgent a f).sampled = s.sampled := rfl
@[simp] theorem State.mapAgent_phase (a : AgentId) (f : Agent → Agent) : (s.mapAgent a f).phase = s.phase := rfl
@[simp] theorem State.mapAgent_shadow (a : AgentId) (f : Agent → Agent) : (s.mapAgent a f).shadow = s.shadow := rfl
@[simp] theorem State.mapAgent_areas (a : AgentId) (f : Agent → Agent) : (s.mapAgent a f).areas = s.areas := rfl
@[simp] theorem State.mapAgent_heldAreas (a : AgentId) (f : Agent → Agent) : (s.mapAgent a f).heldAreas = s.heldAreas := rfl
@[simp] theorem State.mapAgent_freezes (a : AgentId) (f : Agent → Agent) : (s.mapAgent a f).freezes = s.freezes := rfl
@[simp] theorem State.mapAgent_board (a : AgentId) (f : Agent → Agent) : (s.mapAgent a f).board = s.board := rfl
@[simp] theorem State.mapAgent_restoreAt (a : AgentId) (f : Agent → Agent) : (s.mapAgent a f).restoreAt = s.restoreAt := rfl
@[simp] theorem State.mapAgent_srPend (a : AgentId) (f : Agent → Agent) : (s.mapAgent a f).srPend = s.srPend := rfl
@[simp] theorem State.mapAgent_evSets (a : AgentId) (f : Agent → Agent) : (s.mapAgent a f).evSets = s.evSets := rfl
@[simp] theorem State.mapAgent_turn (a : AgentId) (f : Agent → Agent) : (s.mapAgent a f).turn = s.turn := rfl
@[simp] theorem State.mapAgent_die (a : AgentId) (f : Agent → Agent) : (s.mapAgent a f).die = s.die := rfl
@[simp] theorem State.mapAgent_core (a : AgentId) (f : Agent → Agent) : (s.mapAgent a f).core = s.core := rfl
@[simp] theorem State.mapAgent_verdict (a : AgentId) (f : Agent → Agent) : (s.mapAgent a f).verdict = s.verdict := rfl
@[simp] theorem State.mapAgent_mem (a : AgentId) (f : Agent → Agent) : (s.mapAgent a f).mem = s.mem := rfl
@[simp] theorem State.mapAgent_pend (a : AgentId) (f : Agent → Agent) : (s.mapAgent a f).pend = s.pend := rfl
@[simp] theorem State.mapAgent_held (a : AgentId) (f : Agent → Agent) : (s.mapAgent a f).held = s.held := rfl
@[simp] theorem State.mapAgent_rels (a : AgentId) (f : Agent → Agent) : (s.mapAgent a f).rels = s.rels := rfl
@[simp] theorem State.mapAgent_tlb (a : AgentId) (f : Agent → Agent) : (s.mapAgent a f).tlb = s.tlb := rfl
@[simp] theorem State.mapAgent_walk (a : AgentId) (f : Agent → Agent) : (s.mapAgent a f).walk = s.walk := rfl
@[simp] theorem State.mapAgent_walks (a : AgentId) (f : Agent → Agent) : (s.mapAgent a f).walks = s.walks := rfl
@[simp] theorem State.mapAgent_refresh (a : AgentId) (f : Agent → Agent) : (s.mapAgent a f).refresh = s.refresh := rfl
@[simp] theorem State.mapAgent_svcPend (a : AgentId) (f : Agent → Agent) : (s.mapAgent a f).svcPend = s.svcPend := rfl
@[simp] theorem State.mapAgent_stopPend (a : AgentId) (f : Agent → Agent) : (s.mapAgent a f).stopPend = s.stopPend := rfl
@[simp] theorem State.mapAgent_reposted (a : AgentId) (f : Agent → Agent) : (s.mapAgent a f).reposted = s.reposted := rfl
@[simp] theorem State.mapAgent_gangStop (a : AgentId) (f : Agent → Agent) : (s.mapAgent a f).gangStop = s.gangStop := rfl
@[simp] theorem State.mapAgent_reissue (a : AgentId) (f : Agent → Agent) : (s.mapAgent a f).reissue = s.reissue := rfl
@[simp] theorem State.mapAgent_ctxs (a : AgentId) (f : Agent → Agent) : (s.mapAgent a f).ctxs = s.ctxs := rfl
@[simp] theorem State.mapAgent_parts (a : AgentId) (f : Agent → Agent) : (s.mapAgent a f).parts = s.parts := rfl
@[simp] theorem State.mapAgent_recs (a : AgentId) (f : Agent → Agent) : (s.mapAgent a f).recs = s.recs := rfl
@[simp] theorem State.mapAgent_pushes (a : AgentId) (f : Agent → Agent) : (s.mapAgent a f).pushes = s.pushes := rfl
@[simp] theorem State.mapAgent_taken (a : AgentId) (f : Agent → Agent) : (s.mapAgent a f).taken = s.taken := rfl
@[simp] theorem State.mapAgent_pqs (a : AgentId) (f : Agent → Agent) : (s.mapAgent a f).pqs = s.pqs := rfl
@[simp] theorem State.mapAgent_models (a : AgentId) (f : Agent → Agent) : (s.mapAgent a f).models = s.models := rfl
@[simp] theorem State.mapAgent_exports (a : AgentId) (f : Agent → Agent) : (s.mapAgent a f).exports = s.exports := rfl
@[simp] theorem State.mapAgent_link (a : AgentId) (f : Agent → Agent) : (s.mapAgent a f).link = s.link := rfl
@[simp] theorem State.mapAgent_portsUp (a : AgentId) (f : Agent → Agent) : (s.mapAgent a f).portsUp = s.portsUp := rfl
@[simp] theorem State.mapAgent_portsErr (a : AgentId) (f : Agent → Agent) : (s.mapAgent a f).portsErr = s.portsErr := rfl
@[simp] theorem State.mapAgent_mapped (a : AgentId) (f : Agent → Agent) : (s.mapAgent a f).mapped = s.mapped := rfl
@[simp] theorem State.mapAgent_devices (a : AgentId) (f : Agent → Agent) : (s.mapAgent a f).devices = s.devices := rfl
@[simp] theorem State.mapAgent_window (a : AgentId) (f : Agent → Agent) : (s.mapAgent a f).window = s.window := rfl
@[simp] theorem State.mapAgent_hostOut (a : AgentId) (f : Agent → Agent) : (s.mapAgent a f).hostOut = s.hostOut := rfl
@[simp] theorem State.mapAgent_exportOut (a : AgentId) (f : Agent → Agent) : (s.mapAgent a f).exportOut = s.exportOut := rfl
@[simp] theorem State.mapAgent_msix (a : AgentId) (f : Agent → Agent) : (s.mapAgent a f).msix = s.msix := rfl
@[simp] theorem State.mapAgent_mailbox (a : AgentId) (f : Agent → Agent) : (s.mapAgent a f).mailbox = s.mailbox := rfl
@[simp] theorem State.mapAgent_health (a : AgentId) (f : Agent → Agent) : (s.mapAgent a f).health = s.health := rfl
@[simp] theorem State.mapAgent_tally (a : AgentId) (f : Agent → Agent) : (s.mapAgent a f).tally = s.tally := rfl
@[simp] theorem State.mapAgent_throttle (a : AgentId) (f : Agent → Agent) : (s.mapAgent a f).throttle = s.throttle := rfl
@[simp] theorem State.mapAgent_dbg (a : AgentId) (f : Agent → Agent) : (s.mapAgent a f).dbg = s.dbg := rfl
@[simp] theorem State.mapAgent_powered (a : AgentId) (f : Agent → Agent) : (s.mapAgent a f).powered = s.powered := rfl
@[simp] theorem State.mapAgent_stage (a : AgentId) (f : Agent → Agent) : (s.mapAgent a f).stage = s.stage := rfl
@[simp] theorem State.mapAgent_mediaBad (a : AgentId) (f : Agent → Agent) : (s.mapAgent a f).mediaBad = s.mediaBad := rfl
@[simp] theorem State.mapAgent_inbox (a : AgentId) (f : Agent → Agent) : (s.mapAgent a f).inbox = s.inbox := rfl
@[simp] theorem State.mapAgent_outside (a : AgentId) (f : Agent → Agent) : (s.mapAgent a f).outside = s.outside := rfl
@[simp] theorem State.mapAgent_oracle (a : AgentId) (f : Agent → Agent) : (s.mapAgent a f).oracle = s.oracle := rfl
@[simp] theorem State.mapAgent_free (a : AgentId) (f : Agent → Agent) : (s.mapAgent a f).free = s.free := rfl
@[simp] theorem State.mapAgent_engAt (a : AgentId) (f : Agent → Agent) : (s.mapAgent a f).engAt = s.engAt := rfl
@[simp] theorem State.mapAgent_copyAt (a : AgentId) (f : Agent → Agent) : (s.mapAgent a f).copyAt = s.copyAt := rfl
@[simp] theorem State.mapAgent_ruleAt (a : AgentId) (f : Agent → Agent) : (s.mapAgent a f).ruleAt = s.ruleAt := rfl
@[simp] theorem State.mapAgent_reply (a : AgentId) (f : Agent → Agent) : (s.mapAgent a f).reply = s.reply := rfl
@[simp] theorem State.mapAgent_bank_accs (a : AgentId) (f : Agent → Agent) : (s.mapAgent a f).bank.accs = s.bank.accs := rfl
@[simp] theorem State.mapAgent_bank_streams (a : AgentId) (f : Agent → Agent) : (s.mapAgent a f).bank.streams = s.bank.streams := rfl
@[simp] theorem State.mapAgent_bank_eng (a : AgentId) (f : Agent → Agent) : (s.mapAgent a f).bank.eng = s.bank.eng := rfl
@[simp] theorem State.mapAgent_bank_seq (a : AgentId) (f : Agent → Agent) : (s.mapAgent a f).bank.seq = s.bank.seq := rfl
@[simp] theorem State.mapAgent_bank_slots (a : AgentId) (f : Agent → Agent) : (s.mapAgent a f).bank.slots = s.bank.slots := rfl
@[simp] theorem State.mapAgent_bank_rules (a : AgentId) (f : Agent → Agent) : (s.mapAgent a f).bank.rules = s.bank.rules := rfl
@[simp] theorem State.mapAgent_bank_round (a : AgentId) (f : Agent → Agent) : (s.mapAgent a f).bank.round = s.bank.round := rfl
@[simp] theorem State.mapAgent_bank_installs (a : AgentId) (f : Agent → Agent) : (s.mapAgent a f).bank.installs = s.bank.installs := rfl
@[simp] theorem State.mapAgent_bank_held (a : AgentId) (f : Agent → Agent) : (s.mapAgent a f).bank.held = s.bank.held := rfl
@[simp] theorem State.mapAgent_bank_chans (a : AgentId) (f : Agent → Agent) : (s.mapAgent a f).bank.chans = s.bank.chans := rfl
@[simp] theorem State.mapAgent_bank_pqwin (a : AgentId) (f : Agent → Agent) : (s.mapAgent a f).bank.pqwin = s.bank.pqwin := rfl
@[simp] theorem State.mapAgent_bank_screen (a : AgentId) (f : Agent → Agent) : (s.mapAgent a f).bank.screen = s.bank.screen := rfl
@[simp] theorem State.mapAgent_bank_recm (a : AgentId) (f : Agent → Agent) : (s.mapAgent a f).bank.recm = s.bank.recm := rfl
@[simp] theorem State.mapAgent_bank_joint (a : AgentId) (f : Agent → Agent) : (s.mapAgent a f).bank.joint = s.bank.joint := rfl
@[simp] theorem State.mapAgent_bank_run (a : AgentId) (f : Agent → Agent) : (s.mapAgent a f).bank.run = s.bank.run := rfl
@[simp] theorem State.mapAgent_bank_uid (a : AgentId) (f : Agent → Agent) : (s.mapAgent a f).bank.uid = s.bank.uid := rfl
@[simp] theorem State.mapAgent_bank_pad (a : AgentId) (f : Agent → Agent) : (s.mapAgent a f).bank.pad = s.bank.pad := rfl

/-! ## mapCur -/

@[simp] theorem State.mapCur_pt (f : Agent → Agent) : (s.mapCur f).pt = s.pt := rfl
@[simp] theorem State.mapCur_wall (f : Agent → Agent) : (s.mapCur f).wall = s.wall := rfl
@[simp] theorem State.mapCur_reads (f : Agent → Agent) : (s.mapCur f).reads = s.reads := rfl
@[simp] theorem State.mapCur_reader (f : Agent → Agent) : (s.mapCur f).reader = s.reader := rfl
@[simp] theorem State.mapCur_monitors (f : Agent → Agent) : (s.mapCur f).monitors = s.monitors := rfl
@[simp] theorem State.mapCur_sampled (f : Agent → Agent) : (s.mapCur f).sampled = s.sampled := rfl
@[simp] theorem State.mapCur_phase (f : Agent → Agent) : (s.mapCur f).phase = s.phase := rfl
@[simp] theorem State.mapCur_shadow (f : Agent → Agent) : (s.mapCur f).shadow = s.shadow := rfl
@[simp] theorem State.mapCur_areas (f : Agent → Agent) : (s.mapCur f).areas = s.areas := rfl
@[simp] theorem State.mapCur_heldAreas (f : Agent → Agent) : (s.mapCur f).heldAreas = s.heldAreas := rfl
@[simp] theorem State.mapCur_freezes (f : Agent → Agent) : (s.mapCur f).freezes = s.freezes := rfl
@[simp] theorem State.mapCur_board (f : Agent → Agent) : (s.mapCur f).board = s.board := rfl
@[simp] theorem State.mapCur_restoreAt (f : Agent → Agent) : (s.mapCur f).restoreAt = s.restoreAt := rfl
@[simp] theorem State.mapCur_srPend (f : Agent → Agent) : (s.mapCur f).srPend = s.srPend := rfl
@[simp] theorem State.mapCur_evSets (f : Agent → Agent) : (s.mapCur f).evSets = s.evSets := rfl
@[simp] theorem State.mapCur_turn (f : Agent → Agent) : (s.mapCur f).turn = s.turn := rfl
@[simp] theorem State.mapCur_die (f : Agent → Agent) : (s.mapCur f).die = s.die := rfl
@[simp] theorem State.mapCur_core (f : Agent → Agent) : (s.mapCur f).core = s.core := rfl
@[simp] theorem State.mapCur_verdict (f : Agent → Agent) : (s.mapCur f).verdict = s.verdict := rfl
@[simp] theorem State.mapCur_mem (f : Agent → Agent) : (s.mapCur f).mem = s.mem := rfl
@[simp] theorem State.mapCur_pend (f : Agent → Agent) : (s.mapCur f).pend = s.pend := rfl
@[simp] theorem State.mapCur_held (f : Agent → Agent) : (s.mapCur f).held = s.held := rfl
@[simp] theorem State.mapCur_rels (f : Agent → Agent) : (s.mapCur f).rels = s.rels := rfl
@[simp] theorem State.mapCur_tlb (f : Agent → Agent) : (s.mapCur f).tlb = s.tlb := rfl
@[simp] theorem State.mapCur_walk (f : Agent → Agent) : (s.mapCur f).walk = s.walk := rfl
@[simp] theorem State.mapCur_walks (f : Agent → Agent) : (s.mapCur f).walks = s.walks := rfl
@[simp] theorem State.mapCur_refresh (f : Agent → Agent) : (s.mapCur f).refresh = s.refresh := rfl
@[simp] theorem State.mapCur_svcPend (f : Agent → Agent) : (s.mapCur f).svcPend = s.svcPend := rfl
@[simp] theorem State.mapCur_stopPend (f : Agent → Agent) : (s.mapCur f).stopPend = s.stopPend := rfl
@[simp] theorem State.mapCur_reposted (f : Agent → Agent) : (s.mapCur f).reposted = s.reposted := rfl
@[simp] theorem State.mapCur_gangStop (f : Agent → Agent) : (s.mapCur f).gangStop = s.gangStop := rfl
@[simp] theorem State.mapCur_reissue (f : Agent → Agent) : (s.mapCur f).reissue = s.reissue := rfl
@[simp] theorem State.mapCur_ctxs (f : Agent → Agent) : (s.mapCur f).ctxs = s.ctxs := rfl
@[simp] theorem State.mapCur_parts (f : Agent → Agent) : (s.mapCur f).parts = s.parts := rfl
@[simp] theorem State.mapCur_recs (f : Agent → Agent) : (s.mapCur f).recs = s.recs := rfl
@[simp] theorem State.mapCur_pushes (f : Agent → Agent) : (s.mapCur f).pushes = s.pushes := rfl
@[simp] theorem State.mapCur_taken (f : Agent → Agent) : (s.mapCur f).taken = s.taken := rfl
@[simp] theorem State.mapCur_pqs (f : Agent → Agent) : (s.mapCur f).pqs = s.pqs := rfl
@[simp] theorem State.mapCur_models (f : Agent → Agent) : (s.mapCur f).models = s.models := rfl
@[simp] theorem State.mapCur_exports (f : Agent → Agent) : (s.mapCur f).exports = s.exports := rfl
@[simp] theorem State.mapCur_link (f : Agent → Agent) : (s.mapCur f).link = s.link := rfl
@[simp] theorem State.mapCur_portsUp (f : Agent → Agent) : (s.mapCur f).portsUp = s.portsUp := rfl
@[simp] theorem State.mapCur_portsErr (f : Agent → Agent) : (s.mapCur f).portsErr = s.portsErr := rfl
@[simp] theorem State.mapCur_mapped (f : Agent → Agent) : (s.mapCur f).mapped = s.mapped := rfl
@[simp] theorem State.mapCur_devices (f : Agent → Agent) : (s.mapCur f).devices = s.devices := rfl
@[simp] theorem State.mapCur_window (f : Agent → Agent) : (s.mapCur f).window = s.window := rfl
@[simp] theorem State.mapCur_hostOut (f : Agent → Agent) : (s.mapCur f).hostOut = s.hostOut := rfl
@[simp] theorem State.mapCur_exportOut (f : Agent → Agent) : (s.mapCur f).exportOut = s.exportOut := rfl
@[simp] theorem State.mapCur_msix (f : Agent → Agent) : (s.mapCur f).msix = s.msix := rfl
@[simp] theorem State.mapCur_mailbox (f : Agent → Agent) : (s.mapCur f).mailbox = s.mailbox := rfl
@[simp] theorem State.mapCur_health (f : Agent → Agent) : (s.mapCur f).health = s.health := rfl
@[simp] theorem State.mapCur_tally (f : Agent → Agent) : (s.mapCur f).tally = s.tally := rfl
@[simp] theorem State.mapCur_throttle (f : Agent → Agent) : (s.mapCur f).throttle = s.throttle := rfl
@[simp] theorem State.mapCur_dbg (f : Agent → Agent) : (s.mapCur f).dbg = s.dbg := rfl
@[simp] theorem State.mapCur_powered (f : Agent → Agent) : (s.mapCur f).powered = s.powered := rfl
@[simp] theorem State.mapCur_stage (f : Agent → Agent) : (s.mapCur f).stage = s.stage := rfl
@[simp] theorem State.mapCur_mediaBad (f : Agent → Agent) : (s.mapCur f).mediaBad = s.mediaBad := rfl
@[simp] theorem State.mapCur_inbox (f : Agent → Agent) : (s.mapCur f).inbox = s.inbox := rfl
@[simp] theorem State.mapCur_outside (f : Agent → Agent) : (s.mapCur f).outside = s.outside := rfl
@[simp] theorem State.mapCur_oracle (f : Agent → Agent) : (s.mapCur f).oracle = s.oracle := rfl
@[simp] theorem State.mapCur_free (f : Agent → Agent) : (s.mapCur f).free = s.free := rfl
@[simp] theorem State.mapCur_engAt (f : Agent → Agent) : (s.mapCur f).engAt = s.engAt := rfl
@[simp] theorem State.mapCur_copyAt (f : Agent → Agent) : (s.mapCur f).copyAt = s.copyAt := rfl
@[simp] theorem State.mapCur_ruleAt (f : Agent → Agent) : (s.mapCur f).ruleAt = s.ruleAt := rfl
@[simp] theorem State.mapCur_reply (f : Agent → Agent) : (s.mapCur f).reply = s.reply := rfl
@[simp] theorem State.mapCur_bank_accs (f : Agent → Agent) : (s.mapCur f).bank.accs = s.bank.accs := rfl
@[simp] theorem State.mapCur_bank_streams (f : Agent → Agent) : (s.mapCur f).bank.streams = s.bank.streams := rfl
@[simp] theorem State.mapCur_bank_eng (f : Agent → Agent) : (s.mapCur f).bank.eng = s.bank.eng := rfl
@[simp] theorem State.mapCur_bank_seq (f : Agent → Agent) : (s.mapCur f).bank.seq = s.bank.seq := rfl
@[simp] theorem State.mapCur_bank_slots (f : Agent → Agent) : (s.mapCur f).bank.slots = s.bank.slots := rfl
@[simp] theorem State.mapCur_bank_rules (f : Agent → Agent) : (s.mapCur f).bank.rules = s.bank.rules := rfl
@[simp] theorem State.mapCur_bank_round (f : Agent → Agent) : (s.mapCur f).bank.round = s.bank.round := rfl
@[simp] theorem State.mapCur_bank_installs (f : Agent → Agent) : (s.mapCur f).bank.installs = s.bank.installs := rfl
@[simp] theorem State.mapCur_bank_held (f : Agent → Agent) : (s.mapCur f).bank.held = s.bank.held := rfl
@[simp] theorem State.mapCur_bank_chans (f : Agent → Agent) : (s.mapCur f).bank.chans = s.bank.chans := rfl
@[simp] theorem State.mapCur_bank_pqwin (f : Agent → Agent) : (s.mapCur f).bank.pqwin = s.bank.pqwin := rfl
@[simp] theorem State.mapCur_bank_screen (f : Agent → Agent) : (s.mapCur f).bank.screen = s.bank.screen := rfl
@[simp] theorem State.mapCur_bank_recm (f : Agent → Agent) : (s.mapCur f).bank.recm = s.bank.recm := rfl
@[simp] theorem State.mapCur_bank_joint (f : Agent → Agent) : (s.mapCur f).bank.joint = s.bank.joint := rfl
@[simp] theorem State.mapCur_bank_run (f : Agent → Agent) : (s.mapCur f).bank.run = s.bank.run := rfl
@[simp] theorem State.mapCur_bank_uid (f : Agent → Agent) : (s.mapCur f).bank.uid = s.bank.uid := rfl
@[simp] theorem State.mapCur_bank_pad (f : Agent → Agent) : (s.mapCur f).bank.pad = s.bank.pad := rfl

/-! ## mapBun -/

@[simp] theorem State.mapBun_pt (f : Bun → Bun) : (s.mapBun f).pt = s.pt := rfl
@[simp] theorem State.mapBun_wall (f : Bun → Bun) : (s.mapBun f).wall = s.wall := rfl
@[simp] theorem State.mapBun_reads (f : Bun → Bun) : (s.mapBun f).reads = s.reads := rfl
@[simp] theorem State.mapBun_reader (f : Bun → Bun) : (s.mapBun f).reader = s.reader := rfl
@[simp] theorem State.mapBun_monitors (f : Bun → Bun) : (s.mapBun f).monitors = s.monitors := rfl
@[simp] theorem State.mapBun_sampled (f : Bun → Bun) : (s.mapBun f).sampled = s.sampled := rfl
@[simp] theorem State.mapBun_phase (f : Bun → Bun) : (s.mapBun f).phase = s.phase := rfl
@[simp] theorem State.mapBun_shadow (f : Bun → Bun) : (s.mapBun f).shadow = s.shadow := rfl
@[simp] theorem State.mapBun_areas (f : Bun → Bun) : (s.mapBun f).areas = s.areas := rfl
@[simp] theorem State.mapBun_heldAreas (f : Bun → Bun) : (s.mapBun f).heldAreas = s.heldAreas := rfl
@[simp] theorem State.mapBun_freezes (f : Bun → Bun) : (s.mapBun f).freezes = s.freezes := rfl
@[simp] theorem State.mapBun_board (f : Bun → Bun) : (s.mapBun f).board = s.board := rfl
@[simp] theorem State.mapBun_restoreAt (f : Bun → Bun) : (s.mapBun f).restoreAt = s.restoreAt := rfl
@[simp] theorem State.mapBun_srPend (f : Bun → Bun) : (s.mapBun f).srPend = s.srPend := rfl
@[simp] theorem State.mapBun_evSets (f : Bun → Bun) : (s.mapBun f).evSets = s.evSets := rfl
@[simp] theorem State.mapBun_turn (f : Bun → Bun) : (s.mapBun f).turn = s.turn := rfl
@[simp] theorem State.mapBun_die (f : Bun → Bun) : (s.mapBun f).die = s.die := rfl
@[simp] theorem State.mapBun_core (f : Bun → Bun) : (s.mapBun f).core = s.core := rfl
@[simp] theorem State.mapBun_verdict (f : Bun → Bun) : (s.mapBun f).verdict = s.verdict := rfl
@[simp] theorem State.mapBun_mem (f : Bun → Bun) : (s.mapBun f).mem = s.mem := rfl
@[simp] theorem State.mapBun_pend (f : Bun → Bun) : (s.mapBun f).pend = s.pend := rfl
@[simp] theorem State.mapBun_held (f : Bun → Bun) : (s.mapBun f).held = s.held := rfl
@[simp] theorem State.mapBun_rels (f : Bun → Bun) : (s.mapBun f).rels = s.rels := rfl
@[simp] theorem State.mapBun_tlb (f : Bun → Bun) : (s.mapBun f).tlb = s.tlb := rfl
@[simp] theorem State.mapBun_walk (f : Bun → Bun) : (s.mapBun f).walk = s.walk := rfl
@[simp] theorem State.mapBun_walks (f : Bun → Bun) : (s.mapBun f).walks = s.walks := rfl
@[simp] theorem State.mapBun_refresh (f : Bun → Bun) : (s.mapBun f).refresh = s.refresh := rfl
@[simp] theorem State.mapBun_svcPend (f : Bun → Bun) : (s.mapBun f).svcPend = s.svcPend := rfl
@[simp] theorem State.mapBun_stopPend (f : Bun → Bun) : (s.mapBun f).stopPend = s.stopPend := rfl
@[simp] theorem State.mapBun_reposted (f : Bun → Bun) : (s.mapBun f).reposted = s.reposted := rfl
@[simp] theorem State.mapBun_gangStop (f : Bun → Bun) : (s.mapBun f).gangStop = s.gangStop := rfl
@[simp] theorem State.mapBun_reissue (f : Bun → Bun) : (s.mapBun f).reissue = s.reissue := rfl
@[simp] theorem State.mapBun_ctxs (f : Bun → Bun) : (s.mapBun f).ctxs = s.ctxs := rfl
@[simp] theorem State.mapBun_parts (f : Bun → Bun) : (s.mapBun f).parts = s.parts := rfl
@[simp] theorem State.mapBun_recs (f : Bun → Bun) : (s.mapBun f).recs = s.recs := rfl
@[simp] theorem State.mapBun_pushes (f : Bun → Bun) : (s.mapBun f).pushes = s.pushes := rfl
@[simp] theorem State.mapBun_taken (f : Bun → Bun) : (s.mapBun f).taken = s.taken := rfl
@[simp] theorem State.mapBun_pqs (f : Bun → Bun) : (s.mapBun f).pqs = s.pqs := rfl
@[simp] theorem State.mapBun_models (f : Bun → Bun) : (s.mapBun f).models = s.models := rfl
@[simp] theorem State.mapBun_exports (f : Bun → Bun) : (s.mapBun f).exports = s.exports := rfl
@[simp] theorem State.mapBun_link (f : Bun → Bun) : (s.mapBun f).link = s.link := rfl
@[simp] theorem State.mapBun_portsUp (f : Bun → Bun) : (s.mapBun f).portsUp = s.portsUp := rfl
@[simp] theorem State.mapBun_portsErr (f : Bun → Bun) : (s.mapBun f).portsErr = s.portsErr := rfl
@[simp] theorem State.mapBun_mapped (f : Bun → Bun) : (s.mapBun f).mapped = s.mapped := rfl
@[simp] theorem State.mapBun_devices (f : Bun → Bun) : (s.mapBun f).devices = s.devices := rfl
@[simp] theorem State.mapBun_window (f : Bun → Bun) : (s.mapBun f).window = s.window := rfl
@[simp] theorem State.mapBun_hostOut (f : Bun → Bun) : (s.mapBun f).hostOut = s.hostOut := rfl
@[simp] theorem State.mapBun_exportOut (f : Bun → Bun) : (s.mapBun f).exportOut = s.exportOut := rfl
@[simp] theorem State.mapBun_msix (f : Bun → Bun) : (s.mapBun f).msix = s.msix := rfl
@[simp] theorem State.mapBun_mailbox (f : Bun → Bun) : (s.mapBun f).mailbox = s.mailbox := rfl
@[simp] theorem State.mapBun_health (f : Bun → Bun) : (s.mapBun f).health = s.health := rfl
@[simp] theorem State.mapBun_tally (f : Bun → Bun) : (s.mapBun f).tally = s.tally := rfl
@[simp] theorem State.mapBun_throttle (f : Bun → Bun) : (s.mapBun f).throttle = s.throttle := rfl
@[simp] theorem State.mapBun_dbg (f : Bun → Bun) : (s.mapBun f).dbg = s.dbg := rfl
@[simp] theorem State.mapBun_powered (f : Bun → Bun) : (s.mapBun f).powered = s.powered := rfl
@[simp] theorem State.mapBun_stage (f : Bun → Bun) : (s.mapBun f).stage = s.stage := rfl
@[simp] theorem State.mapBun_mediaBad (f : Bun → Bun) : (s.mapBun f).mediaBad = s.mediaBad := rfl
@[simp] theorem State.mapBun_inbox (f : Bun → Bun) : (s.mapBun f).inbox = s.inbox := rfl
@[simp] theorem State.mapBun_outside (f : Bun → Bun) : (s.mapBun f).outside = s.outside := rfl
@[simp] theorem State.mapBun_oracle (f : Bun → Bun) : (s.mapBun f).oracle = s.oracle := rfl
@[simp] theorem State.mapBun_free (f : Bun → Bun) : (s.mapBun f).free = s.free := rfl
@[simp] theorem State.mapBun_engAt (f : Bun → Bun) : (s.mapBun f).engAt = s.engAt := rfl
@[simp] theorem State.mapBun_copyAt (f : Bun → Bun) : (s.mapBun f).copyAt = s.copyAt := rfl
@[simp] theorem State.mapBun_ruleAt (f : Bun → Bun) : (s.mapBun f).ruleAt = s.ruleAt := rfl
@[simp] theorem State.mapBun_reply (f : Bun → Bun) : (s.mapBun f).reply = s.reply := rfl
@[simp] theorem State.mapBun_bank_accs (f : Bun → Bun) : (s.mapBun f).bank.accs = s.bank.accs := rfl
@[simp] theorem State.mapBun_bank_streams (f : Bun → Bun) : (s.mapBun f).bank.streams = s.bank.streams := rfl
@[simp] theorem State.mapBun_bank_eng (f : Bun → Bun) : (s.mapBun f).bank.eng = s.bank.eng := rfl
@[simp] theorem State.mapBun_bank_seq (f : Bun → Bun) : (s.mapBun f).bank.seq = s.bank.seq := rfl
@[simp] theorem State.mapBun_bank_slots (f : Bun → Bun) : (s.mapBun f).bank.slots = s.bank.slots := rfl
@[simp] theorem State.mapBun_bank_rules (f : Bun → Bun) : (s.mapBun f).bank.rules = s.bank.rules := rfl
@[simp] theorem State.mapBun_bank_round (f : Bun → Bun) : (s.mapBun f).bank.round = s.bank.round := rfl
@[simp] theorem State.mapBun_bank_installs (f : Bun → Bun) : (s.mapBun f).bank.installs = s.bank.installs := rfl
@[simp] theorem State.mapBun_bank_held (f : Bun → Bun) : (s.mapBun f).bank.held = s.bank.held := rfl
@[simp] theorem State.mapBun_bank_chans (f : Bun → Bun) : (s.mapBun f).bank.chans = s.bank.chans := rfl
@[simp] theorem State.mapBun_bank_pqwin (f : Bun → Bun) : (s.mapBun f).bank.pqwin = s.bank.pqwin := rfl
@[simp] theorem State.mapBun_bank_screen (f : Bun → Bun) : (s.mapBun f).bank.screen = s.bank.screen := rfl
@[simp] theorem State.mapBun_bank_recm (f : Bun → Bun) : (s.mapBun f).bank.recm = s.bank.recm := rfl
@[simp] theorem State.mapBun_bank_joint (f : Bun → Bun) : (s.mapBun f).bank.joint = s.bank.joint := rfl
@[simp] theorem State.mapBun_bank_run (f : Bun → Bun) : (s.mapBun f).bank.run = s.bank.run := rfl
@[simp] theorem State.mapBun_bank_uid (f : Bun → Bun) : (s.mapBun f).bank.uid = s.bank.uid := rfl
@[simp] theorem State.mapBun_bank_pad (f : Bun → Bun) : (s.mapBun f).bank.pad = s.bank.pad := rfl

/-! ## mapRun -/

@[simp] theorem State.mapRun_pt (f : Run → Run) : (s.mapRun f).pt = s.pt := rfl
@[simp] theorem State.mapRun_wall (f : Run → Run) : (s.mapRun f).wall = s.wall := rfl
@[simp] theorem State.mapRun_reads (f : Run → Run) : (s.mapRun f).reads = s.reads := rfl
@[simp] theorem State.mapRun_reader (f : Run → Run) : (s.mapRun f).reader = s.reader := rfl
@[simp] theorem State.mapRun_monitors (f : Run → Run) : (s.mapRun f).monitors = s.monitors := rfl
@[simp] theorem State.mapRun_sampled (f : Run → Run) : (s.mapRun f).sampled = s.sampled := rfl
@[simp] theorem State.mapRun_phase (f : Run → Run) : (s.mapRun f).phase = s.phase := rfl
@[simp] theorem State.mapRun_shadow (f : Run → Run) : (s.mapRun f).shadow = s.shadow := rfl
@[simp] theorem State.mapRun_areas (f : Run → Run) : (s.mapRun f).areas = s.areas := rfl
@[simp] theorem State.mapRun_heldAreas (f : Run → Run) : (s.mapRun f).heldAreas = s.heldAreas := rfl
@[simp] theorem State.mapRun_freezes (f : Run → Run) : (s.mapRun f).freezes = s.freezes := rfl
@[simp] theorem State.mapRun_board (f : Run → Run) : (s.mapRun f).board = s.board := rfl
@[simp] theorem State.mapRun_restoreAt (f : Run → Run) : (s.mapRun f).restoreAt = s.restoreAt := rfl
@[simp] theorem State.mapRun_srPend (f : Run → Run) : (s.mapRun f).srPend = s.srPend := rfl
@[simp] theorem State.mapRun_evSets (f : Run → Run) : (s.mapRun f).evSets = s.evSets := rfl
@[simp] theorem State.mapRun_turn (f : Run → Run) : (s.mapRun f).turn = s.turn := rfl
@[simp] theorem State.mapRun_die (f : Run → Run) : (s.mapRun f).die = s.die := rfl
@[simp] theorem State.mapRun_core (f : Run → Run) : (s.mapRun f).core = s.core := rfl
@[simp] theorem State.mapRun_verdict (f : Run → Run) : (s.mapRun f).verdict = s.verdict := rfl
@[simp] theorem State.mapRun_mem (f : Run → Run) : (s.mapRun f).mem = s.mem := rfl
@[simp] theorem State.mapRun_pend (f : Run → Run) : (s.mapRun f).pend = s.pend := rfl
@[simp] theorem State.mapRun_held (f : Run → Run) : (s.mapRun f).held = s.held := rfl
@[simp] theorem State.mapRun_rels (f : Run → Run) : (s.mapRun f).rels = s.rels := rfl
@[simp] theorem State.mapRun_tlb (f : Run → Run) : (s.mapRun f).tlb = s.tlb := rfl
@[simp] theorem State.mapRun_walk (f : Run → Run) : (s.mapRun f).walk = s.walk := rfl
@[simp] theorem State.mapRun_walks (f : Run → Run) : (s.mapRun f).walks = s.walks := rfl
@[simp] theorem State.mapRun_refresh (f : Run → Run) : (s.mapRun f).refresh = s.refresh := rfl
@[simp] theorem State.mapRun_svcPend (f : Run → Run) : (s.mapRun f).svcPend = s.svcPend := rfl
@[simp] theorem State.mapRun_stopPend (f : Run → Run) : (s.mapRun f).stopPend = s.stopPend := rfl
@[simp] theorem State.mapRun_reposted (f : Run → Run) : (s.mapRun f).reposted = s.reposted := rfl
@[simp] theorem State.mapRun_gangStop (f : Run → Run) : (s.mapRun f).gangStop = s.gangStop := rfl
@[simp] theorem State.mapRun_reissue (f : Run → Run) : (s.mapRun f).reissue = s.reissue := rfl
@[simp] theorem State.mapRun_ctxs (f : Run → Run) : (s.mapRun f).ctxs = s.ctxs := rfl
@[simp] theorem State.mapRun_parts (f : Run → Run) : (s.mapRun f).parts = s.parts := rfl
@[simp] theorem State.mapRun_recs (f : Run → Run) : (s.mapRun f).recs = s.recs := rfl
@[simp] theorem State.mapRun_pushes (f : Run → Run) : (s.mapRun f).pushes = s.pushes := rfl
@[simp] theorem State.mapRun_taken (f : Run → Run) : (s.mapRun f).taken = s.taken := rfl
@[simp] theorem State.mapRun_pqs (f : Run → Run) : (s.mapRun f).pqs = s.pqs := rfl
@[simp] theorem State.mapRun_models (f : Run → Run) : (s.mapRun f).models = s.models := rfl
@[simp] theorem State.mapRun_exports (f : Run → Run) : (s.mapRun f).exports = s.exports := rfl
@[simp] theorem State.mapRun_link (f : Run → Run) : (s.mapRun f).link = s.link := rfl
@[simp] theorem State.mapRun_portsUp (f : Run → Run) : (s.mapRun f).portsUp = s.portsUp := rfl
@[simp] theorem State.mapRun_portsErr (f : Run → Run) : (s.mapRun f).portsErr = s.portsErr := rfl
@[simp] theorem State.mapRun_mapped (f : Run → Run) : (s.mapRun f).mapped = s.mapped := rfl
@[simp] theorem State.mapRun_devices (f : Run → Run) : (s.mapRun f).devices = s.devices := rfl
@[simp] theorem State.mapRun_window (f : Run → Run) : (s.mapRun f).window = s.window := rfl
@[simp] theorem State.mapRun_hostOut (f : Run → Run) : (s.mapRun f).hostOut = s.hostOut := rfl
@[simp] theorem State.mapRun_exportOut (f : Run → Run) : (s.mapRun f).exportOut = s.exportOut := rfl
@[simp] theorem State.mapRun_msix (f : Run → Run) : (s.mapRun f).msix = s.msix := rfl
@[simp] theorem State.mapRun_mailbox (f : Run → Run) : (s.mapRun f).mailbox = s.mailbox := rfl
@[simp] theorem State.mapRun_health (f : Run → Run) : (s.mapRun f).health = s.health := rfl
@[simp] theorem State.mapRun_tally (f : Run → Run) : (s.mapRun f).tally = s.tally := rfl
@[simp] theorem State.mapRun_throttle (f : Run → Run) : (s.mapRun f).throttle = s.throttle := rfl
@[simp] theorem State.mapRun_dbg (f : Run → Run) : (s.mapRun f).dbg = s.dbg := rfl
@[simp] theorem State.mapRun_powered (f : Run → Run) : (s.mapRun f).powered = s.powered := rfl
@[simp] theorem State.mapRun_stage (f : Run → Run) : (s.mapRun f).stage = s.stage := rfl
@[simp] theorem State.mapRun_mediaBad (f : Run → Run) : (s.mapRun f).mediaBad = s.mediaBad := rfl
@[simp] theorem State.mapRun_inbox (f : Run → Run) : (s.mapRun f).inbox = s.inbox := rfl
@[simp] theorem State.mapRun_outside (f : Run → Run) : (s.mapRun f).outside = s.outside := rfl
@[simp] theorem State.mapRun_oracle (f : Run → Run) : (s.mapRun f).oracle = s.oracle := rfl
@[simp] theorem State.mapRun_free (f : Run → Run) : (s.mapRun f).free = s.free := rfl
@[simp] theorem State.mapRun_engAt (f : Run → Run) : (s.mapRun f).engAt = s.engAt := rfl
@[simp] theorem State.mapRun_copyAt (f : Run → Run) : (s.mapRun f).copyAt = s.copyAt := rfl
@[simp] theorem State.mapRun_ruleAt (f : Run → Run) : (s.mapRun f).ruleAt = s.ruleAt := rfl
@[simp] theorem State.mapRun_reply (f : Run → Run) : (s.mapRun f).reply = s.reply := rfl
@[simp] theorem State.mapRun_bank_agents (f : Run → Run) : (s.mapRun f).bank.agents = s.bank.agents := rfl
@[simp] theorem State.mapRun_bank_accs (f : Run → Run) : (s.mapRun f).bank.accs = s.bank.accs := rfl
@[simp] theorem State.mapRun_bank_streams (f : Run → Run) : (s.mapRun f).bank.streams = s.bank.streams := rfl
@[simp] theorem State.mapRun_bank_eng (f : Run → Run) : (s.mapRun f).bank.eng = s.bank.eng := rfl
@[simp] theorem State.mapRun_bank_seq (f : Run → Run) : (s.mapRun f).bank.seq = s.bank.seq := rfl
@[simp] theorem State.mapRun_bank_slots (f : Run → Run) : (s.mapRun f).bank.slots = s.bank.slots := rfl
@[simp] theorem State.mapRun_bank_rules (f : Run → Run) : (s.mapRun f).bank.rules = s.bank.rules := rfl
@[simp] theorem State.mapRun_bank_round (f : Run → Run) : (s.mapRun f).bank.round = s.bank.round := rfl
@[simp] theorem State.mapRun_bank_installs (f : Run → Run) : (s.mapRun f).bank.installs = s.bank.installs := rfl
@[simp] theorem State.mapRun_bank_held (f : Run → Run) : (s.mapRun f).bank.held = s.bank.held := rfl
@[simp] theorem State.mapRun_bank_chans (f : Run → Run) : (s.mapRun f).bank.chans = s.bank.chans := rfl
@[simp] theorem State.mapRun_bank_pqwin (f : Run → Run) : (s.mapRun f).bank.pqwin = s.bank.pqwin := rfl
@[simp] theorem State.mapRun_bank_screen (f : Run → Run) : (s.mapRun f).bank.screen = s.bank.screen := rfl
@[simp] theorem State.mapRun_bank_recm (f : Run → Run) : (s.mapRun f).bank.recm = s.bank.recm := rfl
@[simp] theorem State.mapRun_bank_joint (f : Run → Run) : (s.mapRun f).bank.joint = s.bank.joint := rfl
@[simp] theorem State.mapRun_bank_uid (f : Run → Run) : (s.mapRun f).bank.uid = s.bank.uid := rfl
@[simp] theorem State.mapRun_bank_pad (f : Run → Run) : (s.mapRun f).bank.pad = s.bank.pad := rfl

/-! ## wr -/

@[simp] theorem State.wr_pt (k : Nat) (bs : List Byte) : (s.wr k bs).pt = s.pt := rfl
@[simp] theorem State.wr_wall (k : Nat) (bs : List Byte) : (s.wr k bs).wall = s.wall := rfl
@[simp] theorem State.wr_reads (k : Nat) (bs : List Byte) : (s.wr k bs).reads = s.reads := rfl
@[simp] theorem State.wr_reader (k : Nat) (bs : List Byte) : (s.wr k bs).reader = s.reader := rfl
@[simp] theorem State.wr_monitors (k : Nat) (bs : List Byte) : (s.wr k bs).monitors = s.monitors := rfl
@[simp] theorem State.wr_sampled (k : Nat) (bs : List Byte) : (s.wr k bs).sampled = s.sampled := rfl
@[simp] theorem State.wr_phase (k : Nat) (bs : List Byte) : (s.wr k bs).phase = s.phase := rfl
@[simp] theorem State.wr_bank (k : Nat) (bs : List Byte) : (s.wr k bs).bank = s.bank := rfl
@[simp] theorem State.wr_shadow (k : Nat) (bs : List Byte) : (s.wr k bs).shadow = s.shadow := rfl
@[simp] theorem State.wr_areas (k : Nat) (bs : List Byte) : (s.wr k bs).areas = s.areas := rfl
@[simp] theorem State.wr_heldAreas (k : Nat) (bs : List Byte) : (s.wr k bs).heldAreas = s.heldAreas := rfl
@[simp] theorem State.wr_freezes (k : Nat) (bs : List Byte) : (s.wr k bs).freezes = s.freezes := rfl
@[simp] theorem State.wr_board (k : Nat) (bs : List Byte) : (s.wr k bs).board = s.board := rfl
@[simp] theorem State.wr_restoreAt (k : Nat) (bs : List Byte) : (s.wr k bs).restoreAt = s.restoreAt := rfl
@[simp] theorem State.wr_srPend (k : Nat) (bs : List Byte) : (s.wr k bs).srPend = s.srPend := rfl
@[simp] theorem State.wr_evSets (k : Nat) (bs : List Byte) : (s.wr k bs).evSets = s.evSets := rfl
@[simp] theorem State.wr_turn (k : Nat) (bs : List Byte) : (s.wr k bs).turn = s.turn := rfl
@[simp] theorem State.wr_die (k : Nat) (bs : List Byte) : (s.wr k bs).die = s.die := rfl
@[simp] theorem State.wr_core (k : Nat) (bs : List Byte) : (s.wr k bs).core = s.core := rfl
@[simp] theorem State.wr_verdict (k : Nat) (bs : List Byte) : (s.wr k bs).verdict = s.verdict := rfl
@[simp] theorem State.wr_pend (k : Nat) (bs : List Byte) : (s.wr k bs).pend = s.pend := rfl
@[simp] theorem State.wr_held (k : Nat) (bs : List Byte) : (s.wr k bs).held = s.held := rfl
@[simp] theorem State.wr_rels (k : Nat) (bs : List Byte) : (s.wr k bs).rels = s.rels := rfl
@[simp] theorem State.wr_tlb (k : Nat) (bs : List Byte) : (s.wr k bs).tlb = s.tlb := rfl
@[simp] theorem State.wr_walk (k : Nat) (bs : List Byte) : (s.wr k bs).walk = s.walk := rfl
@[simp] theorem State.wr_walks (k : Nat) (bs : List Byte) : (s.wr k bs).walks = s.walks := rfl
@[simp] theorem State.wr_refresh (k : Nat) (bs : List Byte) : (s.wr k bs).refresh = s.refresh := rfl
@[simp] theorem State.wr_svcPend (k : Nat) (bs : List Byte) : (s.wr k bs).svcPend = s.svcPend := rfl
@[simp] theorem State.wr_stopPend (k : Nat) (bs : List Byte) : (s.wr k bs).stopPend = s.stopPend := rfl
@[simp] theorem State.wr_reposted (k : Nat) (bs : List Byte) : (s.wr k bs).reposted = s.reposted := rfl
@[simp] theorem State.wr_gangStop (k : Nat) (bs : List Byte) : (s.wr k bs).gangStop = s.gangStop := rfl
@[simp] theorem State.wr_reissue (k : Nat) (bs : List Byte) : (s.wr k bs).reissue = s.reissue := rfl
@[simp] theorem State.wr_ctxs (k : Nat) (bs : List Byte) : (s.wr k bs).ctxs = s.ctxs := rfl
@[simp] theorem State.wr_parts (k : Nat) (bs : List Byte) : (s.wr k bs).parts = s.parts := rfl
@[simp] theorem State.wr_recs (k : Nat) (bs : List Byte) : (s.wr k bs).recs = s.recs := rfl
@[simp] theorem State.wr_pushes (k : Nat) (bs : List Byte) : (s.wr k bs).pushes = s.pushes := rfl
@[simp] theorem State.wr_taken (k : Nat) (bs : List Byte) : (s.wr k bs).taken = s.taken := rfl
@[simp] theorem State.wr_pqs (k : Nat) (bs : List Byte) : (s.wr k bs).pqs = s.pqs := rfl
@[simp] theorem State.wr_models (k : Nat) (bs : List Byte) : (s.wr k bs).models = s.models := rfl
@[simp] theorem State.wr_exports (k : Nat) (bs : List Byte) : (s.wr k bs).exports = s.exports := rfl
@[simp] theorem State.wr_link (k : Nat) (bs : List Byte) : (s.wr k bs).link = s.link := rfl
@[simp] theorem State.wr_portsUp (k : Nat) (bs : List Byte) : (s.wr k bs).portsUp = s.portsUp := rfl
@[simp] theorem State.wr_portsErr (k : Nat) (bs : List Byte) : (s.wr k bs).portsErr = s.portsErr := rfl
@[simp] theorem State.wr_mapped (k : Nat) (bs : List Byte) : (s.wr k bs).mapped = s.mapped := rfl
@[simp] theorem State.wr_devices (k : Nat) (bs : List Byte) : (s.wr k bs).devices = s.devices := rfl
@[simp] theorem State.wr_window (k : Nat) (bs : List Byte) : (s.wr k bs).window = s.window := rfl
@[simp] theorem State.wr_hostOut (k : Nat) (bs : List Byte) : (s.wr k bs).hostOut = s.hostOut := rfl
@[simp] theorem State.wr_exportOut (k : Nat) (bs : List Byte) : (s.wr k bs).exportOut = s.exportOut := rfl
@[simp] theorem State.wr_msix (k : Nat) (bs : List Byte) : (s.wr k bs).msix = s.msix := rfl
@[simp] theorem State.wr_mailbox (k : Nat) (bs : List Byte) : (s.wr k bs).mailbox = s.mailbox := rfl
@[simp] theorem State.wr_health (k : Nat) (bs : List Byte) : (s.wr k bs).health = s.health := rfl
@[simp] theorem State.wr_tally (k : Nat) (bs : List Byte) : (s.wr k bs).tally = s.tally := rfl
@[simp] theorem State.wr_throttle (k : Nat) (bs : List Byte) : (s.wr k bs).throttle = s.throttle := rfl
@[simp] theorem State.wr_dbg (k : Nat) (bs : List Byte) : (s.wr k bs).dbg = s.dbg := rfl
@[simp] theorem State.wr_powered (k : Nat) (bs : List Byte) : (s.wr k bs).powered = s.powered := rfl
@[simp] theorem State.wr_stage (k : Nat) (bs : List Byte) : (s.wr k bs).stage = s.stage := rfl
@[simp] theorem State.wr_mediaBad (k : Nat) (bs : List Byte) : (s.wr k bs).mediaBad = s.mediaBad := rfl
@[simp] theorem State.wr_inbox (k : Nat) (bs : List Byte) : (s.wr k bs).inbox = s.inbox := rfl
@[simp] theorem State.wr_outside (k : Nat) (bs : List Byte) : (s.wr k bs).outside = s.outside := rfl
@[simp] theorem State.wr_oracle (k : Nat) (bs : List Byte) : (s.wr k bs).oracle = s.oracle := rfl
@[simp] theorem State.wr_free (k : Nat) (bs : List Byte) : (s.wr k bs).free = s.free := rfl
@[simp] theorem State.wr_engAt (k : Nat) (bs : List Byte) : (s.wr k bs).engAt = s.engAt := rfl
@[simp] theorem State.wr_copyAt (k : Nat) (bs : List Byte) : (s.wr k bs).copyAt = s.copyAt := rfl
@[simp] theorem State.wr_ruleAt (k : Nat) (bs : List Byte) : (s.wr k bs).ruleAt = s.ruleAt := rfl
@[simp] theorem State.wr_reply (k : Nat) (bs : List Byte) : (s.wr k bs).reply = s.reply := rfl

/-! ## wrNat -/

@[simp] theorem State.wrNat_pt (k n x : Nat) : (s.wrNat k n x).pt = s.pt := rfl
@[simp] theorem State.wrNat_wall (k n x : Nat) : (s.wrNat k n x).wall = s.wall := rfl
@[simp] theorem State.wrNat_reads (k n x : Nat) : (s.wrNat k n x).reads = s.reads := rfl
@[simp] theorem State.wrNat_reader (k n x : Nat) : (s.wrNat k n x).reader = s.reader := rfl
@[simp] theorem State.wrNat_monitors (k n x : Nat) : (s.wrNat k n x).monitors = s.monitors := rfl
@[simp] theorem State.wrNat_sampled (k n x : Nat) : (s.wrNat k n x).sampled = s.sampled := rfl
@[simp] theorem State.wrNat_phase (k n x : Nat) : (s.wrNat k n x).phase = s.phase := rfl
@[simp] theorem State.wrNat_bank (k n x : Nat) : (s.wrNat k n x).bank = s.bank := rfl
@[simp] theorem State.wrNat_shadow (k n x : Nat) : (s.wrNat k n x).shadow = s.shadow := rfl
@[simp] theorem State.wrNat_areas (k n x : Nat) : (s.wrNat k n x).areas = s.areas := rfl
@[simp] theorem State.wrNat_heldAreas (k n x : Nat) : (s.wrNat k n x).heldAreas = s.heldAreas := rfl
@[simp] theorem State.wrNat_freezes (k n x : Nat) : (s.wrNat k n x).freezes = s.freezes := rfl
@[simp] theorem State.wrNat_board (k n x : Nat) : (s.wrNat k n x).board = s.board := rfl
@[simp] theorem State.wrNat_restoreAt (k n x : Nat) : (s.wrNat k n x).restoreAt = s.restoreAt := rfl
@[simp] theorem State.wrNat_srPend (k n x : Nat) : (s.wrNat k n x).srPend = s.srPend := rfl
@[simp] theorem State.wrNat_evSets (k n x : Nat) : (s.wrNat k n x).evSets = s.evSets := rfl
@[simp] theorem State.wrNat_turn (k n x : Nat) : (s.wrNat k n x).turn = s.turn := rfl
@[simp] theorem State.wrNat_die (k n x : Nat) : (s.wrNat k n x).die = s.die := rfl
@[simp] theorem State.wrNat_core (k n x : Nat) : (s.wrNat k n x).core = s.core := rfl
@[simp] theorem State.wrNat_verdict (k n x : Nat) : (s.wrNat k n x).verdict = s.verdict := rfl
@[simp] theorem State.wrNat_pend (k n x : Nat) : (s.wrNat k n x).pend = s.pend := rfl
@[simp] theorem State.wrNat_held (k n x : Nat) : (s.wrNat k n x).held = s.held := rfl
@[simp] theorem State.wrNat_rels (k n x : Nat) : (s.wrNat k n x).rels = s.rels := rfl
@[simp] theorem State.wrNat_tlb (k n x : Nat) : (s.wrNat k n x).tlb = s.tlb := rfl
@[simp] theorem State.wrNat_walk (k n x : Nat) : (s.wrNat k n x).walk = s.walk := rfl
@[simp] theorem State.wrNat_walks (k n x : Nat) : (s.wrNat k n x).walks = s.walks := rfl
@[simp] theorem State.wrNat_refresh (k n x : Nat) : (s.wrNat k n x).refresh = s.refresh := rfl
@[simp] theorem State.wrNat_svcPend (k n x : Nat) : (s.wrNat k n x).svcPend = s.svcPend := rfl
@[simp] theorem State.wrNat_stopPend (k n x : Nat) : (s.wrNat k n x).stopPend = s.stopPend := rfl
@[simp] theorem State.wrNat_reposted (k n x : Nat) : (s.wrNat k n x).reposted = s.reposted := rfl
@[simp] theorem State.wrNat_gangStop (k n x : Nat) : (s.wrNat k n x).gangStop = s.gangStop := rfl
@[simp] theorem State.wrNat_reissue (k n x : Nat) : (s.wrNat k n x).reissue = s.reissue := rfl
@[simp] theorem State.wrNat_ctxs (k n x : Nat) : (s.wrNat k n x).ctxs = s.ctxs := rfl
@[simp] theorem State.wrNat_parts (k n x : Nat) : (s.wrNat k n x).parts = s.parts := rfl
@[simp] theorem State.wrNat_recs (k n x : Nat) : (s.wrNat k n x).recs = s.recs := rfl
@[simp] theorem State.wrNat_pushes (k n x : Nat) : (s.wrNat k n x).pushes = s.pushes := rfl
@[simp] theorem State.wrNat_taken (k n x : Nat) : (s.wrNat k n x).taken = s.taken := rfl
@[simp] theorem State.wrNat_pqs (k n x : Nat) : (s.wrNat k n x).pqs = s.pqs := rfl
@[simp] theorem State.wrNat_models (k n x : Nat) : (s.wrNat k n x).models = s.models := rfl
@[simp] theorem State.wrNat_exports (k n x : Nat) : (s.wrNat k n x).exports = s.exports := rfl
@[simp] theorem State.wrNat_link (k n x : Nat) : (s.wrNat k n x).link = s.link := rfl
@[simp] theorem State.wrNat_portsUp (k n x : Nat) : (s.wrNat k n x).portsUp = s.portsUp := rfl
@[simp] theorem State.wrNat_portsErr (k n x : Nat) : (s.wrNat k n x).portsErr = s.portsErr := rfl
@[simp] theorem State.wrNat_mapped (k n x : Nat) : (s.wrNat k n x).mapped = s.mapped := rfl
@[simp] theorem State.wrNat_devices (k n x : Nat) : (s.wrNat k n x).devices = s.devices := rfl
@[simp] theorem State.wrNat_window (k n x : Nat) : (s.wrNat k n x).window = s.window := rfl
@[simp] theorem State.wrNat_hostOut (k n x : Nat) : (s.wrNat k n x).hostOut = s.hostOut := rfl
@[simp] theorem State.wrNat_exportOut (k n x : Nat) : (s.wrNat k n x).exportOut = s.exportOut := rfl
@[simp] theorem State.wrNat_msix (k n x : Nat) : (s.wrNat k n x).msix = s.msix := rfl
@[simp] theorem State.wrNat_mailbox (k n x : Nat) : (s.wrNat k n x).mailbox = s.mailbox := rfl
@[simp] theorem State.wrNat_health (k n x : Nat) : (s.wrNat k n x).health = s.health := rfl
@[simp] theorem State.wrNat_tally (k n x : Nat) : (s.wrNat k n x).tally = s.tally := rfl
@[simp] theorem State.wrNat_throttle (k n x : Nat) : (s.wrNat k n x).throttle = s.throttle := rfl
@[simp] theorem State.wrNat_dbg (k n x : Nat) : (s.wrNat k n x).dbg = s.dbg := rfl
@[simp] theorem State.wrNat_powered (k n x : Nat) : (s.wrNat k n x).powered = s.powered := rfl
@[simp] theorem State.wrNat_stage (k n x : Nat) : (s.wrNat k n x).stage = s.stage := rfl
@[simp] theorem State.wrNat_mediaBad (k n x : Nat) : (s.wrNat k n x).mediaBad = s.mediaBad := rfl
@[simp] theorem State.wrNat_inbox (k n x : Nat) : (s.wrNat k n x).inbox = s.inbox := rfl
@[simp] theorem State.wrNat_outside (k n x : Nat) : (s.wrNat k n x).outside = s.outside := rfl
@[simp] theorem State.wrNat_oracle (k n x : Nat) : (s.wrNat k n x).oracle = s.oracle := rfl
@[simp] theorem State.wrNat_free (k n x : Nat) : (s.wrNat k n x).free = s.free := rfl
@[simp] theorem State.wrNat_engAt (k n x : Nat) : (s.wrNat k n x).engAt = s.engAt := rfl
@[simp] theorem State.wrNat_copyAt (k n x : Nat) : (s.wrNat k n x).copyAt = s.copyAt := rfl
@[simp] theorem State.wrNat_ruleAt (k n x : Nat) : (s.wrNat k n x).ruleAt = s.ruleAt := rfl
@[simp] theorem State.wrNat_reply (k n x : Nat) : (s.wrNat k n x).reply = s.reply := rfl

/-! ## mapPart -/

@[simp] theorem State.mapPart_pt (p : BitVec 4) (f : Part → Part) : (s.mapPart p f).pt = s.pt := rfl
@[simp] theorem State.mapPart_wall (p : BitVec 4) (f : Part → Part) : (s.mapPart p f).wall = s.wall := rfl
@[simp] theorem State.mapPart_reads (p : BitVec 4) (f : Part → Part) : (s.mapPart p f).reads = s.reads := rfl
@[simp] theorem State.mapPart_reader (p : BitVec 4) (f : Part → Part) : (s.mapPart p f).reader = s.reader := rfl
@[simp] theorem State.mapPart_monitors (p : BitVec 4) (f : Part → Part) : (s.mapPart p f).monitors = s.monitors := rfl
@[simp] theorem State.mapPart_sampled (p : BitVec 4) (f : Part → Part) : (s.mapPart p f).sampled = s.sampled := rfl
@[simp] theorem State.mapPart_phase (p : BitVec 4) (f : Part → Part) : (s.mapPart p f).phase = s.phase := rfl
@[simp] theorem State.mapPart_bank (p : BitVec 4) (f : Part → Part) : (s.mapPart p f).bank = s.bank := rfl
@[simp] theorem State.mapPart_shadow (p : BitVec 4) (f : Part → Part) : (s.mapPart p f).shadow = s.shadow := rfl
@[simp] theorem State.mapPart_areas (p : BitVec 4) (f : Part → Part) : (s.mapPart p f).areas = s.areas := rfl
@[simp] theorem State.mapPart_heldAreas (p : BitVec 4) (f : Part → Part) : (s.mapPart p f).heldAreas = s.heldAreas := rfl
@[simp] theorem State.mapPart_freezes (p : BitVec 4) (f : Part → Part) : (s.mapPart p f).freezes = s.freezes := rfl
@[simp] theorem State.mapPart_board (p : BitVec 4) (f : Part → Part) : (s.mapPart p f).board = s.board := rfl
@[simp] theorem State.mapPart_restoreAt (p : BitVec 4) (f : Part → Part) : (s.mapPart p f).restoreAt = s.restoreAt := rfl
@[simp] theorem State.mapPart_srPend (p : BitVec 4) (f : Part → Part) : (s.mapPart p f).srPend = s.srPend := rfl
@[simp] theorem State.mapPart_evSets (p : BitVec 4) (f : Part → Part) : (s.mapPart p f).evSets = s.evSets := rfl
@[simp] theorem State.mapPart_turn (p : BitVec 4) (f : Part → Part) : (s.mapPart p f).turn = s.turn := rfl
@[simp] theorem State.mapPart_die (p : BitVec 4) (f : Part → Part) : (s.mapPart p f).die = s.die := rfl
@[simp] theorem State.mapPart_core (p : BitVec 4) (f : Part → Part) : (s.mapPart p f).core = s.core := rfl
@[simp] theorem State.mapPart_verdict (p : BitVec 4) (f : Part → Part) : (s.mapPart p f).verdict = s.verdict := rfl
@[simp] theorem State.mapPart_mem (p : BitVec 4) (f : Part → Part) : (s.mapPart p f).mem = s.mem := rfl
@[simp] theorem State.mapPart_pend (p : BitVec 4) (f : Part → Part) : (s.mapPart p f).pend = s.pend := rfl
@[simp] theorem State.mapPart_held (p : BitVec 4) (f : Part → Part) : (s.mapPart p f).held = s.held := rfl
@[simp] theorem State.mapPart_rels (p : BitVec 4) (f : Part → Part) : (s.mapPart p f).rels = s.rels := rfl
@[simp] theorem State.mapPart_tlb (p : BitVec 4) (f : Part → Part) : (s.mapPart p f).tlb = s.tlb := rfl
@[simp] theorem State.mapPart_walk (p : BitVec 4) (f : Part → Part) : (s.mapPart p f).walk = s.walk := rfl
@[simp] theorem State.mapPart_walks (p : BitVec 4) (f : Part → Part) : (s.mapPart p f).walks = s.walks := rfl
@[simp] theorem State.mapPart_refresh (p : BitVec 4) (f : Part → Part) : (s.mapPart p f).refresh = s.refresh := rfl
@[simp] theorem State.mapPart_svcPend (p : BitVec 4) (f : Part → Part) : (s.mapPart p f).svcPend = s.svcPend := rfl
@[simp] theorem State.mapPart_stopPend (p : BitVec 4) (f : Part → Part) : (s.mapPart p f).stopPend = s.stopPend := rfl
@[simp] theorem State.mapPart_reposted (p : BitVec 4) (f : Part → Part) : (s.mapPart p f).reposted = s.reposted := rfl
@[simp] theorem State.mapPart_gangStop (p : BitVec 4) (f : Part → Part) : (s.mapPart p f).gangStop = s.gangStop := rfl
@[simp] theorem State.mapPart_reissue (p : BitVec 4) (f : Part → Part) : (s.mapPart p f).reissue = s.reissue := rfl
@[simp] theorem State.mapPart_ctxs (p : BitVec 4) (f : Part → Part) : (s.mapPart p f).ctxs = s.ctxs := rfl
@[simp] theorem State.mapPart_recs (p : BitVec 4) (f : Part → Part) : (s.mapPart p f).recs = s.recs := rfl
@[simp] theorem State.mapPart_pushes (p : BitVec 4) (f : Part → Part) : (s.mapPart p f).pushes = s.pushes := rfl
@[simp] theorem State.mapPart_taken (p : BitVec 4) (f : Part → Part) : (s.mapPart p f).taken = s.taken := rfl
@[simp] theorem State.mapPart_pqs (p : BitVec 4) (f : Part → Part) : (s.mapPart p f).pqs = s.pqs := rfl
@[simp] theorem State.mapPart_models (p : BitVec 4) (f : Part → Part) : (s.mapPart p f).models = s.models := rfl
@[simp] theorem State.mapPart_exports (p : BitVec 4) (f : Part → Part) : (s.mapPart p f).exports = s.exports := rfl
@[simp] theorem State.mapPart_link (p : BitVec 4) (f : Part → Part) : (s.mapPart p f).link = s.link := rfl
@[simp] theorem State.mapPart_portsUp (p : BitVec 4) (f : Part → Part) : (s.mapPart p f).portsUp = s.portsUp := rfl
@[simp] theorem State.mapPart_portsErr (p : BitVec 4) (f : Part → Part) : (s.mapPart p f).portsErr = s.portsErr := rfl
@[simp] theorem State.mapPart_mapped (p : BitVec 4) (f : Part → Part) : (s.mapPart p f).mapped = s.mapped := rfl
@[simp] theorem State.mapPart_devices (p : BitVec 4) (f : Part → Part) : (s.mapPart p f).devices = s.devices := rfl
@[simp] theorem State.mapPart_window (p : BitVec 4) (f : Part → Part) : (s.mapPart p f).window = s.window := rfl
@[simp] theorem State.mapPart_hostOut (p : BitVec 4) (f : Part → Part) : (s.mapPart p f).hostOut = s.hostOut := rfl
@[simp] theorem State.mapPart_exportOut (p : BitVec 4) (f : Part → Part) : (s.mapPart p f).exportOut = s.exportOut := rfl
@[simp] theorem State.mapPart_msix (p : BitVec 4) (f : Part → Part) : (s.mapPart p f).msix = s.msix := rfl
@[simp] theorem State.mapPart_mailbox (p : BitVec 4) (f : Part → Part) : (s.mapPart p f).mailbox = s.mailbox := rfl
@[simp] theorem State.mapPart_health (p : BitVec 4) (f : Part → Part) : (s.mapPart p f).health = s.health := rfl
@[simp] theorem State.mapPart_tally (p : BitVec 4) (f : Part → Part) : (s.mapPart p f).tally = s.tally := rfl
@[simp] theorem State.mapPart_throttle (p : BitVec 4) (f : Part → Part) : (s.mapPart p f).throttle = s.throttle := rfl
@[simp] theorem State.mapPart_dbg (p : BitVec 4) (f : Part → Part) : (s.mapPart p f).dbg = s.dbg := rfl
@[simp] theorem State.mapPart_powered (p : BitVec 4) (f : Part → Part) : (s.mapPart p f).powered = s.powered := rfl
@[simp] theorem State.mapPart_stage (p : BitVec 4) (f : Part → Part) : (s.mapPart p f).stage = s.stage := rfl
@[simp] theorem State.mapPart_mediaBad (p : BitVec 4) (f : Part → Part) : (s.mapPart p f).mediaBad = s.mediaBad := rfl
@[simp] theorem State.mapPart_inbox (p : BitVec 4) (f : Part → Part) : (s.mapPart p f).inbox = s.inbox := rfl
@[simp] theorem State.mapPart_outside (p : BitVec 4) (f : Part → Part) : (s.mapPart p f).outside = s.outside := rfl
@[simp] theorem State.mapPart_oracle (p : BitVec 4) (f : Part → Part) : (s.mapPart p f).oracle = s.oracle := rfl
@[simp] theorem State.mapPart_free (p : BitVec 4) (f : Part → Part) : (s.mapPart p f).free = s.free := rfl
@[simp] theorem State.mapPart_engAt (p : BitVec 4) (f : Part → Part) : (s.mapPart p f).engAt = s.engAt := rfl
@[simp] theorem State.mapPart_copyAt (p : BitVec 4) (f : Part → Part) : (s.mapPart p f).copyAt = s.copyAt := rfl
@[simp] theorem State.mapPart_ruleAt (p : BitVec 4) (f : Part → Part) : (s.mapPart p f).ruleAt = s.ruleAt := rfl
@[simp] theorem State.mapPart_reply (p : BitVec 4) (f : Part → Part) : (s.mapPart p f).reply = s.reply := rfl

/-! ## mapCtx -/

@[simp] theorem State.mapCtx_pt (c : BitVec 6) (f : Ctx → Ctx) : (s.mapCtx c f).pt = s.pt := rfl
@[simp] theorem State.mapCtx_wall (c : BitVec 6) (f : Ctx → Ctx) : (s.mapCtx c f).wall = s.wall := rfl
@[simp] theorem State.mapCtx_reads (c : BitVec 6) (f : Ctx → Ctx) : (s.mapCtx c f).reads = s.reads := rfl
@[simp] theorem State.mapCtx_reader (c : BitVec 6) (f : Ctx → Ctx) : (s.mapCtx c f).reader = s.reader := rfl
@[simp] theorem State.mapCtx_monitors (c : BitVec 6) (f : Ctx → Ctx) : (s.mapCtx c f).monitors = s.monitors := rfl
@[simp] theorem State.mapCtx_sampled (c : BitVec 6) (f : Ctx → Ctx) : (s.mapCtx c f).sampled = s.sampled := rfl
@[simp] theorem State.mapCtx_phase (c : BitVec 6) (f : Ctx → Ctx) : (s.mapCtx c f).phase = s.phase := rfl
@[simp] theorem State.mapCtx_bank (c : BitVec 6) (f : Ctx → Ctx) : (s.mapCtx c f).bank = s.bank := rfl
@[simp] theorem State.mapCtx_shadow (c : BitVec 6) (f : Ctx → Ctx) : (s.mapCtx c f).shadow = s.shadow := rfl
@[simp] theorem State.mapCtx_areas (c : BitVec 6) (f : Ctx → Ctx) : (s.mapCtx c f).areas = s.areas := rfl
@[simp] theorem State.mapCtx_heldAreas (c : BitVec 6) (f : Ctx → Ctx) : (s.mapCtx c f).heldAreas = s.heldAreas := rfl
@[simp] theorem State.mapCtx_freezes (c : BitVec 6) (f : Ctx → Ctx) : (s.mapCtx c f).freezes = s.freezes := rfl
@[simp] theorem State.mapCtx_board (c : BitVec 6) (f : Ctx → Ctx) : (s.mapCtx c f).board = s.board := rfl
@[simp] theorem State.mapCtx_restoreAt (c : BitVec 6) (f : Ctx → Ctx) : (s.mapCtx c f).restoreAt = s.restoreAt := rfl
@[simp] theorem State.mapCtx_srPend (c : BitVec 6) (f : Ctx → Ctx) : (s.mapCtx c f).srPend = s.srPend := rfl
@[simp] theorem State.mapCtx_evSets (c : BitVec 6) (f : Ctx → Ctx) : (s.mapCtx c f).evSets = s.evSets := rfl
@[simp] theorem State.mapCtx_turn (c : BitVec 6) (f : Ctx → Ctx) : (s.mapCtx c f).turn = s.turn := rfl
@[simp] theorem State.mapCtx_die (c : BitVec 6) (f : Ctx → Ctx) : (s.mapCtx c f).die = s.die := rfl
@[simp] theorem State.mapCtx_core (c : BitVec 6) (f : Ctx → Ctx) : (s.mapCtx c f).core = s.core := rfl
@[simp] theorem State.mapCtx_verdict (c : BitVec 6) (f : Ctx → Ctx) : (s.mapCtx c f).verdict = s.verdict := rfl
@[simp] theorem State.mapCtx_mem (c : BitVec 6) (f : Ctx → Ctx) : (s.mapCtx c f).mem = s.mem := rfl
@[simp] theorem State.mapCtx_pend (c : BitVec 6) (f : Ctx → Ctx) : (s.mapCtx c f).pend = s.pend := rfl
@[simp] theorem State.mapCtx_held (c : BitVec 6) (f : Ctx → Ctx) : (s.mapCtx c f).held = s.held := rfl
@[simp] theorem State.mapCtx_rels (c : BitVec 6) (f : Ctx → Ctx) : (s.mapCtx c f).rels = s.rels := rfl
@[simp] theorem State.mapCtx_tlb (c : BitVec 6) (f : Ctx → Ctx) : (s.mapCtx c f).tlb = s.tlb := rfl
@[simp] theorem State.mapCtx_walk (c : BitVec 6) (f : Ctx → Ctx) : (s.mapCtx c f).walk = s.walk := rfl
@[simp] theorem State.mapCtx_walks (c : BitVec 6) (f : Ctx → Ctx) : (s.mapCtx c f).walks = s.walks := rfl
@[simp] theorem State.mapCtx_refresh (c : BitVec 6) (f : Ctx → Ctx) : (s.mapCtx c f).refresh = s.refresh := rfl
@[simp] theorem State.mapCtx_svcPend (c : BitVec 6) (f : Ctx → Ctx) : (s.mapCtx c f).svcPend = s.svcPend := rfl
@[simp] theorem State.mapCtx_stopPend (c : BitVec 6) (f : Ctx → Ctx) : (s.mapCtx c f).stopPend = s.stopPend := rfl
@[simp] theorem State.mapCtx_reposted (c : BitVec 6) (f : Ctx → Ctx) : (s.mapCtx c f).reposted = s.reposted := rfl
@[simp] theorem State.mapCtx_gangStop (c : BitVec 6) (f : Ctx → Ctx) : (s.mapCtx c f).gangStop = s.gangStop := rfl
@[simp] theorem State.mapCtx_reissue (c : BitVec 6) (f : Ctx → Ctx) : (s.mapCtx c f).reissue = s.reissue := rfl
@[simp] theorem State.mapCtx_parts (c : BitVec 6) (f : Ctx → Ctx) : (s.mapCtx c f).parts = s.parts := rfl
@[simp] theorem State.mapCtx_recs (c : BitVec 6) (f : Ctx → Ctx) : (s.mapCtx c f).recs = s.recs := rfl
@[simp] theorem State.mapCtx_pushes (c : BitVec 6) (f : Ctx → Ctx) : (s.mapCtx c f).pushes = s.pushes := rfl
@[simp] theorem State.mapCtx_taken (c : BitVec 6) (f : Ctx → Ctx) : (s.mapCtx c f).taken = s.taken := rfl
@[simp] theorem State.mapCtx_pqs (c : BitVec 6) (f : Ctx → Ctx) : (s.mapCtx c f).pqs = s.pqs := rfl
@[simp] theorem State.mapCtx_models (c : BitVec 6) (f : Ctx → Ctx) : (s.mapCtx c f).models = s.models := rfl
@[simp] theorem State.mapCtx_exports (c : BitVec 6) (f : Ctx → Ctx) : (s.mapCtx c f).exports = s.exports := rfl
@[simp] theorem State.mapCtx_link (c : BitVec 6) (f : Ctx → Ctx) : (s.mapCtx c f).link = s.link := rfl
@[simp] theorem State.mapCtx_portsUp (c : BitVec 6) (f : Ctx → Ctx) : (s.mapCtx c f).portsUp = s.portsUp := rfl
@[simp] theorem State.mapCtx_portsErr (c : BitVec 6) (f : Ctx → Ctx) : (s.mapCtx c f).portsErr = s.portsErr := rfl
@[simp] theorem State.mapCtx_mapped (c : BitVec 6) (f : Ctx → Ctx) : (s.mapCtx c f).mapped = s.mapped := rfl
@[simp] theorem State.mapCtx_devices (c : BitVec 6) (f : Ctx → Ctx) : (s.mapCtx c f).devices = s.devices := rfl
@[simp] theorem State.mapCtx_window (c : BitVec 6) (f : Ctx → Ctx) : (s.mapCtx c f).window = s.window := rfl
@[simp] theorem State.mapCtx_hostOut (c : BitVec 6) (f : Ctx → Ctx) : (s.mapCtx c f).hostOut = s.hostOut := rfl
@[simp] theorem State.mapCtx_exportOut (c : BitVec 6) (f : Ctx → Ctx) : (s.mapCtx c f).exportOut = s.exportOut := rfl
@[simp] theorem State.mapCtx_msix (c : BitVec 6) (f : Ctx → Ctx) : (s.mapCtx c f).msix = s.msix := rfl
@[simp] theorem State.mapCtx_mailbox (c : BitVec 6) (f : Ctx → Ctx) : (s.mapCtx c f).mailbox = s.mailbox := rfl
@[simp] theorem State.mapCtx_health (c : BitVec 6) (f : Ctx → Ctx) : (s.mapCtx c f).health = s.health := rfl
@[simp] theorem State.mapCtx_tally (c : BitVec 6) (f : Ctx → Ctx) : (s.mapCtx c f).tally = s.tally := rfl
@[simp] theorem State.mapCtx_throttle (c : BitVec 6) (f : Ctx → Ctx) : (s.mapCtx c f).throttle = s.throttle := rfl
@[simp] theorem State.mapCtx_dbg (c : BitVec 6) (f : Ctx → Ctx) : (s.mapCtx c f).dbg = s.dbg := rfl
@[simp] theorem State.mapCtx_powered (c : BitVec 6) (f : Ctx → Ctx) : (s.mapCtx c f).powered = s.powered := rfl
@[simp] theorem State.mapCtx_stage (c : BitVec 6) (f : Ctx → Ctx) : (s.mapCtx c f).stage = s.stage := rfl
@[simp] theorem State.mapCtx_mediaBad (c : BitVec 6) (f : Ctx → Ctx) : (s.mapCtx c f).mediaBad = s.mediaBad := rfl
@[simp] theorem State.mapCtx_inbox (c : BitVec 6) (f : Ctx → Ctx) : (s.mapCtx c f).inbox = s.inbox := rfl
@[simp] theorem State.mapCtx_outside (c : BitVec 6) (f : Ctx → Ctx) : (s.mapCtx c f).outside = s.outside := rfl
@[simp] theorem State.mapCtx_oracle (c : BitVec 6) (f : Ctx → Ctx) : (s.mapCtx c f).oracle = s.oracle := rfl
@[simp] theorem State.mapCtx_free (c : BitVec 6) (f : Ctx → Ctx) : (s.mapCtx c f).free = s.free := rfl
@[simp] theorem State.mapCtx_engAt (c : BitVec 6) (f : Ctx → Ctx) : (s.mapCtx c f).engAt = s.engAt := rfl
@[simp] theorem State.mapCtx_copyAt (c : BitVec 6) (f : Ctx → Ctx) : (s.mapCtx c f).copyAt = s.copyAt := rfl
@[simp] theorem State.mapCtx_ruleAt (c : BitVec 6) (f : Ctx → Ctx) : (s.mapCtx c f).ruleAt = s.ruleAt := rfl
@[simp] theorem State.mapCtx_reply (c : BitVec 6) (f : Ctx → Ctx) : (s.mapCtx c f).reply = s.reply := rfl

/-! ## mapRec -/

@[simp] theorem State.mapRec_pt (c : BitVec 6) (a : DWord) (f : SRec → SRec) : (s.mapRec c a f).pt = s.pt := rfl
@[simp] theorem State.mapRec_wall (c : BitVec 6) (a : DWord) (f : SRec → SRec) : (s.mapRec c a f).wall = s.wall := rfl
@[simp] theorem State.mapRec_reads (c : BitVec 6) (a : DWord) (f : SRec → SRec) : (s.mapRec c a f).reads = s.reads := rfl
@[simp] theorem State.mapRec_reader (c : BitVec 6) (a : DWord) (f : SRec → SRec) : (s.mapRec c a f).reader = s.reader := rfl
@[simp] theorem State.mapRec_monitors (c : BitVec 6) (a : DWord) (f : SRec → SRec) : (s.mapRec c a f).monitors = s.monitors := rfl
@[simp] theorem State.mapRec_sampled (c : BitVec 6) (a : DWord) (f : SRec → SRec) : (s.mapRec c a f).sampled = s.sampled := rfl
@[simp] theorem State.mapRec_phase (c : BitVec 6) (a : DWord) (f : SRec → SRec) : (s.mapRec c a f).phase = s.phase := rfl
@[simp] theorem State.mapRec_bank (c : BitVec 6) (a : DWord) (f : SRec → SRec) : (s.mapRec c a f).bank = s.bank := rfl
@[simp] theorem State.mapRec_shadow (c : BitVec 6) (a : DWord) (f : SRec → SRec) : (s.mapRec c a f).shadow = s.shadow := rfl
@[simp] theorem State.mapRec_areas (c : BitVec 6) (a : DWord) (f : SRec → SRec) : (s.mapRec c a f).areas = s.areas := rfl
@[simp] theorem State.mapRec_heldAreas (c : BitVec 6) (a : DWord) (f : SRec → SRec) : (s.mapRec c a f).heldAreas = s.heldAreas := rfl
@[simp] theorem State.mapRec_freezes (c : BitVec 6) (a : DWord) (f : SRec → SRec) : (s.mapRec c a f).freezes = s.freezes := rfl
@[simp] theorem State.mapRec_board (c : BitVec 6) (a : DWord) (f : SRec → SRec) : (s.mapRec c a f).board = s.board := rfl
@[simp] theorem State.mapRec_restoreAt (c : BitVec 6) (a : DWord) (f : SRec → SRec) : (s.mapRec c a f).restoreAt = s.restoreAt := rfl
@[simp] theorem State.mapRec_srPend (c : BitVec 6) (a : DWord) (f : SRec → SRec) : (s.mapRec c a f).srPend = s.srPend := rfl
@[simp] theorem State.mapRec_evSets (c : BitVec 6) (a : DWord) (f : SRec → SRec) : (s.mapRec c a f).evSets = s.evSets := rfl
@[simp] theorem State.mapRec_turn (c : BitVec 6) (a : DWord) (f : SRec → SRec) : (s.mapRec c a f).turn = s.turn := rfl
@[simp] theorem State.mapRec_die (c : BitVec 6) (a : DWord) (f : SRec → SRec) : (s.mapRec c a f).die = s.die := rfl
@[simp] theorem State.mapRec_core (c : BitVec 6) (a : DWord) (f : SRec → SRec) : (s.mapRec c a f).core = s.core := rfl
@[simp] theorem State.mapRec_verdict (c : BitVec 6) (a : DWord) (f : SRec → SRec) : (s.mapRec c a f).verdict = s.verdict := rfl
@[simp] theorem State.mapRec_mem (c : BitVec 6) (a : DWord) (f : SRec → SRec) : (s.mapRec c a f).mem = s.mem := rfl
@[simp] theorem State.mapRec_pend (c : BitVec 6) (a : DWord) (f : SRec → SRec) : (s.mapRec c a f).pend = s.pend := rfl
@[simp] theorem State.mapRec_held (c : BitVec 6) (a : DWord) (f : SRec → SRec) : (s.mapRec c a f).held = s.held := rfl
@[simp] theorem State.mapRec_rels (c : BitVec 6) (a : DWord) (f : SRec → SRec) : (s.mapRec c a f).rels = s.rels := rfl
@[simp] theorem State.mapRec_tlb (c : BitVec 6) (a : DWord) (f : SRec → SRec) : (s.mapRec c a f).tlb = s.tlb := rfl
@[simp] theorem State.mapRec_walk (c : BitVec 6) (a : DWord) (f : SRec → SRec) : (s.mapRec c a f).walk = s.walk := rfl
@[simp] theorem State.mapRec_walks (c : BitVec 6) (a : DWord) (f : SRec → SRec) : (s.mapRec c a f).walks = s.walks := rfl
@[simp] theorem State.mapRec_refresh (c : BitVec 6) (a : DWord) (f : SRec → SRec) : (s.mapRec c a f).refresh = s.refresh := rfl
@[simp] theorem State.mapRec_svcPend (c : BitVec 6) (a : DWord) (f : SRec → SRec) : (s.mapRec c a f).svcPend = s.svcPend := rfl
@[simp] theorem State.mapRec_stopPend (c : BitVec 6) (a : DWord) (f : SRec → SRec) : (s.mapRec c a f).stopPend = s.stopPend := rfl
@[simp] theorem State.mapRec_reposted (c : BitVec 6) (a : DWord) (f : SRec → SRec) : (s.mapRec c a f).reposted = s.reposted := rfl
@[simp] theorem State.mapRec_gangStop (c : BitVec 6) (a : DWord) (f : SRec → SRec) : (s.mapRec c a f).gangStop = s.gangStop := rfl
@[simp] theorem State.mapRec_reissue (c : BitVec 6) (a : DWord) (f : SRec → SRec) : (s.mapRec c a f).reissue = s.reissue := rfl
@[simp] theorem State.mapRec_ctxs (c : BitVec 6) (a : DWord) (f : SRec → SRec) : (s.mapRec c a f).ctxs = s.ctxs := rfl
@[simp] theorem State.mapRec_parts (c : BitVec 6) (a : DWord) (f : SRec → SRec) : (s.mapRec c a f).parts = s.parts := rfl
@[simp] theorem State.mapRec_pushes (c : BitVec 6) (a : DWord) (f : SRec → SRec) : (s.mapRec c a f).pushes = s.pushes := rfl
@[simp] theorem State.mapRec_taken (c : BitVec 6) (a : DWord) (f : SRec → SRec) : (s.mapRec c a f).taken = s.taken := rfl
@[simp] theorem State.mapRec_pqs (c : BitVec 6) (a : DWord) (f : SRec → SRec) : (s.mapRec c a f).pqs = s.pqs := rfl
@[simp] theorem State.mapRec_models (c : BitVec 6) (a : DWord) (f : SRec → SRec) : (s.mapRec c a f).models = s.models := rfl
@[simp] theorem State.mapRec_exports (c : BitVec 6) (a : DWord) (f : SRec → SRec) : (s.mapRec c a f).exports = s.exports := rfl
@[simp] theorem State.mapRec_link (c : BitVec 6) (a : DWord) (f : SRec → SRec) : (s.mapRec c a f).link = s.link := rfl
@[simp] theorem State.mapRec_portsUp (c : BitVec 6) (a : DWord) (f : SRec → SRec) : (s.mapRec c a f).portsUp = s.portsUp := rfl
@[simp] theorem State.mapRec_portsErr (c : BitVec 6) (a : DWord) (f : SRec → SRec) : (s.mapRec c a f).portsErr = s.portsErr := rfl
@[simp] theorem State.mapRec_mapped (c : BitVec 6) (a : DWord) (f : SRec → SRec) : (s.mapRec c a f).mapped = s.mapped := rfl
@[simp] theorem State.mapRec_devices (c : BitVec 6) (a : DWord) (f : SRec → SRec) : (s.mapRec c a f).devices = s.devices := rfl
@[simp] theorem State.mapRec_window (c : BitVec 6) (a : DWord) (f : SRec → SRec) : (s.mapRec c a f).window = s.window := rfl
@[simp] theorem State.mapRec_hostOut (c : BitVec 6) (a : DWord) (f : SRec → SRec) : (s.mapRec c a f).hostOut = s.hostOut := rfl
@[simp] theorem State.mapRec_exportOut (c : BitVec 6) (a : DWord) (f : SRec → SRec) : (s.mapRec c a f).exportOut = s.exportOut := rfl
@[simp] theorem State.mapRec_msix (c : BitVec 6) (a : DWord) (f : SRec → SRec) : (s.mapRec c a f).msix = s.msix := rfl
@[simp] theorem State.mapRec_mailbox (c : BitVec 6) (a : DWord) (f : SRec → SRec) : (s.mapRec c a f).mailbox = s.mailbox := rfl
@[simp] theorem State.mapRec_health (c : BitVec 6) (a : DWord) (f : SRec → SRec) : (s.mapRec c a f).health = s.health := rfl
@[simp] theorem State.mapRec_tally (c : BitVec 6) (a : DWord) (f : SRec → SRec) : (s.mapRec c a f).tally = s.tally := rfl
@[simp] theorem State.mapRec_throttle (c : BitVec 6) (a : DWord) (f : SRec → SRec) : (s.mapRec c a f).throttle = s.throttle := rfl
@[simp] theorem State.mapRec_dbg (c : BitVec 6) (a : DWord) (f : SRec → SRec) : (s.mapRec c a f).dbg = s.dbg := rfl
@[simp] theorem State.mapRec_powered (c : BitVec 6) (a : DWord) (f : SRec → SRec) : (s.mapRec c a f).powered = s.powered := rfl
@[simp] theorem State.mapRec_stage (c : BitVec 6) (a : DWord) (f : SRec → SRec) : (s.mapRec c a f).stage = s.stage := rfl
@[simp] theorem State.mapRec_mediaBad (c : BitVec 6) (a : DWord) (f : SRec → SRec) : (s.mapRec c a f).mediaBad = s.mediaBad := rfl
@[simp] theorem State.mapRec_inbox (c : BitVec 6) (a : DWord) (f : SRec → SRec) : (s.mapRec c a f).inbox = s.inbox := rfl
@[simp] theorem State.mapRec_outside (c : BitVec 6) (a : DWord) (f : SRec → SRec) : (s.mapRec c a f).outside = s.outside := rfl
@[simp] theorem State.mapRec_oracle (c : BitVec 6) (a : DWord) (f : SRec → SRec) : (s.mapRec c a f).oracle = s.oracle := rfl
@[simp] theorem State.mapRec_free (c : BitVec 6) (a : DWord) (f : SRec → SRec) : (s.mapRec c a f).free = s.free := rfl
@[simp] theorem State.mapRec_engAt (c : BitVec 6) (a : DWord) (f : SRec → SRec) : (s.mapRec c a f).engAt = s.engAt := rfl
@[simp] theorem State.mapRec_copyAt (c : BitVec 6) (a : DWord) (f : SRec → SRec) : (s.mapRec c a f).copyAt = s.copyAt := rfl
@[simp] theorem State.mapRec_ruleAt (c : BitVec 6) (a : DWord) (f : SRec → SRec) : (s.mapRec c a f).ruleAt = s.ruleAt := rfl
@[simp] theorem State.mapRec_reply (c : BitVec 6) (a : DWord) (f : SRec → SRec) : (s.mapRec c a f).reply = s.reply := rfl

/-! ## dropRec -/

@[simp] theorem State.dropRec_pt (c : BitVec 6) (a : DWord) : (s.dropRec c a).pt = s.pt := rfl
@[simp] theorem State.dropRec_wall (c : BitVec 6) (a : DWord) : (s.dropRec c a).wall = s.wall := rfl
@[simp] theorem State.dropRec_reads (c : BitVec 6) (a : DWord) : (s.dropRec c a).reads = s.reads := rfl
@[simp] theorem State.dropRec_reader (c : BitVec 6) (a : DWord) : (s.dropRec c a).reader = s.reader := rfl
@[simp] theorem State.dropRec_monitors (c : BitVec 6) (a : DWord) : (s.dropRec c a).monitors = s.monitors := rfl
@[simp] theorem State.dropRec_sampled (c : BitVec 6) (a : DWord) : (s.dropRec c a).sampled = s.sampled := rfl
@[simp] theorem State.dropRec_phase (c : BitVec 6) (a : DWord) : (s.dropRec c a).phase = s.phase := rfl
@[simp] theorem State.dropRec_bank (c : BitVec 6) (a : DWord) : (s.dropRec c a).bank = s.bank := rfl
@[simp] theorem State.dropRec_shadow (c : BitVec 6) (a : DWord) : (s.dropRec c a).shadow = s.shadow := rfl
@[simp] theorem State.dropRec_areas (c : BitVec 6) (a : DWord) : (s.dropRec c a).areas = s.areas := rfl
@[simp] theorem State.dropRec_heldAreas (c : BitVec 6) (a : DWord) : (s.dropRec c a).heldAreas = s.heldAreas := rfl
@[simp] theorem State.dropRec_freezes (c : BitVec 6) (a : DWord) : (s.dropRec c a).freezes = s.freezes := rfl
@[simp] theorem State.dropRec_board (c : BitVec 6) (a : DWord) : (s.dropRec c a).board = s.board := rfl
@[simp] theorem State.dropRec_restoreAt (c : BitVec 6) (a : DWord) : (s.dropRec c a).restoreAt = s.restoreAt := rfl
@[simp] theorem State.dropRec_srPend (c : BitVec 6) (a : DWord) : (s.dropRec c a).srPend = s.srPend := rfl
@[simp] theorem State.dropRec_evSets (c : BitVec 6) (a : DWord) : (s.dropRec c a).evSets = s.evSets := rfl
@[simp] theorem State.dropRec_turn (c : BitVec 6) (a : DWord) : (s.dropRec c a).turn = s.turn := rfl
@[simp] theorem State.dropRec_die (c : BitVec 6) (a : DWord) : (s.dropRec c a).die = s.die := rfl
@[simp] theorem State.dropRec_core (c : BitVec 6) (a : DWord) : (s.dropRec c a).core = s.core := rfl
@[simp] theorem State.dropRec_verdict (c : BitVec 6) (a : DWord) : (s.dropRec c a).verdict = s.verdict := rfl
@[simp] theorem State.dropRec_mem (c : BitVec 6) (a : DWord) : (s.dropRec c a).mem = s.mem := rfl
@[simp] theorem State.dropRec_pend (c : BitVec 6) (a : DWord) : (s.dropRec c a).pend = s.pend := rfl
@[simp] theorem State.dropRec_held (c : BitVec 6) (a : DWord) : (s.dropRec c a).held = s.held := rfl
@[simp] theorem State.dropRec_rels (c : BitVec 6) (a : DWord) : (s.dropRec c a).rels = s.rels := rfl
@[simp] theorem State.dropRec_tlb (c : BitVec 6) (a : DWord) : (s.dropRec c a).tlb = s.tlb := rfl
@[simp] theorem State.dropRec_walk (c : BitVec 6) (a : DWord) : (s.dropRec c a).walk = s.walk := rfl
@[simp] theorem State.dropRec_walks (c : BitVec 6) (a : DWord) : (s.dropRec c a).walks = s.walks := rfl
@[simp] theorem State.dropRec_refresh (c : BitVec 6) (a : DWord) : (s.dropRec c a).refresh = s.refresh := rfl
@[simp] theorem State.dropRec_svcPend (c : BitVec 6) (a : DWord) : (s.dropRec c a).svcPend = s.svcPend := rfl
@[simp] theorem State.dropRec_stopPend (c : BitVec 6) (a : DWord) : (s.dropRec c a).stopPend = s.stopPend := rfl
@[simp] theorem State.dropRec_reposted (c : BitVec 6) (a : DWord) : (s.dropRec c a).reposted = s.reposted := rfl
@[simp] theorem State.dropRec_gangStop (c : BitVec 6) (a : DWord) : (s.dropRec c a).gangStop = s.gangStop := rfl
@[simp] theorem State.dropRec_reissue (c : BitVec 6) (a : DWord) : (s.dropRec c a).reissue = s.reissue := rfl
@[simp] theorem State.dropRec_ctxs (c : BitVec 6) (a : DWord) : (s.dropRec c a).ctxs = s.ctxs := rfl
@[simp] theorem State.dropRec_parts (c : BitVec 6) (a : DWord) : (s.dropRec c a).parts = s.parts := rfl
@[simp] theorem State.dropRec_pushes (c : BitVec 6) (a : DWord) : (s.dropRec c a).pushes = s.pushes := rfl
@[simp] theorem State.dropRec_taken (c : BitVec 6) (a : DWord) : (s.dropRec c a).taken = s.taken := rfl
@[simp] theorem State.dropRec_pqs (c : BitVec 6) (a : DWord) : (s.dropRec c a).pqs = s.pqs := rfl
@[simp] theorem State.dropRec_models (c : BitVec 6) (a : DWord) : (s.dropRec c a).models = s.models := rfl
@[simp] theorem State.dropRec_exports (c : BitVec 6) (a : DWord) : (s.dropRec c a).exports = s.exports := rfl
@[simp] theorem State.dropRec_link (c : BitVec 6) (a : DWord) : (s.dropRec c a).link = s.link := rfl
@[simp] theorem State.dropRec_portsUp (c : BitVec 6) (a : DWord) : (s.dropRec c a).portsUp = s.portsUp := rfl
@[simp] theorem State.dropRec_portsErr (c : BitVec 6) (a : DWord) : (s.dropRec c a).portsErr = s.portsErr := rfl
@[simp] theorem State.dropRec_mapped (c : BitVec 6) (a : DWord) : (s.dropRec c a).mapped = s.mapped := rfl
@[simp] theorem State.dropRec_devices (c : BitVec 6) (a : DWord) : (s.dropRec c a).devices = s.devices := rfl
@[simp] theorem State.dropRec_window (c : BitVec 6) (a : DWord) : (s.dropRec c a).window = s.window := rfl
@[simp] theorem State.dropRec_hostOut (c : BitVec 6) (a : DWord) : (s.dropRec c a).hostOut = s.hostOut := rfl
@[simp] theorem State.dropRec_exportOut (c : BitVec 6) (a : DWord) : (s.dropRec c a).exportOut = s.exportOut := rfl
@[simp] theorem State.dropRec_msix (c : BitVec 6) (a : DWord) : (s.dropRec c a).msix = s.msix := rfl
@[simp] theorem State.dropRec_mailbox (c : BitVec 6) (a : DWord) : (s.dropRec c a).mailbox = s.mailbox := rfl
@[simp] theorem State.dropRec_health (c : BitVec 6) (a : DWord) : (s.dropRec c a).health = s.health := rfl
@[simp] theorem State.dropRec_tally (c : BitVec 6) (a : DWord) : (s.dropRec c a).tally = s.tally := rfl
@[simp] theorem State.dropRec_throttle (c : BitVec 6) (a : DWord) : (s.dropRec c a).throttle = s.throttle := rfl
@[simp] theorem State.dropRec_dbg (c : BitVec 6) (a : DWord) : (s.dropRec c a).dbg = s.dbg := rfl
@[simp] theorem State.dropRec_powered (c : BitVec 6) (a : DWord) : (s.dropRec c a).powered = s.powered := rfl
@[simp] theorem State.dropRec_stage (c : BitVec 6) (a : DWord) : (s.dropRec c a).stage = s.stage := rfl
@[simp] theorem State.dropRec_mediaBad (c : BitVec 6) (a : DWord) : (s.dropRec c a).mediaBad = s.mediaBad := rfl
@[simp] theorem State.dropRec_inbox (c : BitVec 6) (a : DWord) : (s.dropRec c a).inbox = s.inbox := rfl
@[simp] theorem State.dropRec_outside (c : BitVec 6) (a : DWord) : (s.dropRec c a).outside = s.outside := rfl
@[simp] theorem State.dropRec_oracle (c : BitVec 6) (a : DWord) : (s.dropRec c a).oracle = s.oracle := rfl
@[simp] theorem State.dropRec_free (c : BitVec 6) (a : DWord) : (s.dropRec c a).free = s.free := rfl
@[simp] theorem State.dropRec_engAt (c : BitVec 6) (a : DWord) : (s.dropRec c a).engAt = s.engAt := rfl
@[simp] theorem State.dropRec_copyAt (c : BitVec 6) (a : DWord) : (s.dropRec c a).copyAt = s.copyAt := rfl
@[simp] theorem State.dropRec_ruleAt (c : BitVec 6) (a : DWord) : (s.dropRec c a).ruleAt = s.ruleAt := rfl
@[simp] theorem State.dropRec_reply (c : BitVec 6) (a : DWord) : (s.dropRec c a).reply = s.reply := rfl

/-! ## defer -/

@[simp] theorem State.defer_pt (path : Path) (va : DWord) (c : Byte) (k : AKind) (l : Nat) : (s.defer path va c k l).pt = s.pt := rfl
@[simp] theorem State.defer_wall (path : Path) (va : DWord) (c : Byte) (k : AKind) (l : Nat) : (s.defer path va c k l).wall = s.wall := rfl
@[simp] theorem State.defer_reads (path : Path) (va : DWord) (c : Byte) (k : AKind) (l : Nat) : (s.defer path va c k l).reads = s.reads := rfl
@[simp] theorem State.defer_reader (path : Path) (va : DWord) (c : Byte) (k : AKind) (l : Nat) : (s.defer path va c k l).reader = s.reader := rfl
@[simp] theorem State.defer_monitors (path : Path) (va : DWord) (c : Byte) (k : AKind) (l : Nat) : (s.defer path va c k l).monitors = s.monitors := rfl
@[simp] theorem State.defer_sampled (path : Path) (va : DWord) (c : Byte) (k : AKind) (l : Nat) : (s.defer path va c k l).sampled = s.sampled := rfl
@[simp] theorem State.defer_phase (path : Path) (va : DWord) (c : Byte) (k : AKind) (l : Nat) : (s.defer path va c k l).phase = s.phase := rfl
@[simp] theorem State.defer_shadow (path : Path) (va : DWord) (c : Byte) (k : AKind) (l : Nat) : (s.defer path va c k l).shadow = s.shadow := rfl
@[simp] theorem State.defer_areas (path : Path) (va : DWord) (c : Byte) (k : AKind) (l : Nat) : (s.defer path va c k l).areas = s.areas := rfl
@[simp] theorem State.defer_heldAreas (path : Path) (va : DWord) (c : Byte) (k : AKind) (l : Nat) : (s.defer path va c k l).heldAreas = s.heldAreas := rfl
@[simp] theorem State.defer_freezes (path : Path) (va : DWord) (c : Byte) (k : AKind) (l : Nat) : (s.defer path va c k l).freezes = s.freezes := rfl
@[simp] theorem State.defer_board (path : Path) (va : DWord) (c : Byte) (k : AKind) (l : Nat) : (s.defer path va c k l).board = s.board := rfl
@[simp] theorem State.defer_restoreAt (path : Path) (va : DWord) (c : Byte) (k : AKind) (l : Nat) : (s.defer path va c k l).restoreAt = s.restoreAt := rfl
@[simp] theorem State.defer_srPend (path : Path) (va : DWord) (c : Byte) (k : AKind) (l : Nat) : (s.defer path va c k l).srPend = s.srPend := rfl
@[simp] theorem State.defer_evSets (path : Path) (va : DWord) (c : Byte) (k : AKind) (l : Nat) : (s.defer path va c k l).evSets = s.evSets := rfl
@[simp] theorem State.defer_turn (path : Path) (va : DWord) (c : Byte) (k : AKind) (l : Nat) : (s.defer path va c k l).turn = s.turn := rfl
@[simp] theorem State.defer_die (path : Path) (va : DWord) (c : Byte) (k : AKind) (l : Nat) : (s.defer path va c k l).die = s.die := rfl
@[simp] theorem State.defer_core (path : Path) (va : DWord) (c : Byte) (k : AKind) (l : Nat) : (s.defer path va c k l).core = s.core := rfl
@[simp] theorem State.defer_verdict (path : Path) (va : DWord) (c : Byte) (k : AKind) (l : Nat) : (s.defer path va c k l).verdict = s.verdict := rfl
@[simp] theorem State.defer_mem (path : Path) (va : DWord) (c : Byte) (k : AKind) (l : Nat) : (s.defer path va c k l).mem = s.mem := rfl
@[simp] theorem State.defer_pend (path : Path) (va : DWord) (c : Byte) (k : AKind) (l : Nat) : (s.defer path va c k l).pend = s.pend := rfl
@[simp] theorem State.defer_held (path : Path) (va : DWord) (c : Byte) (k : AKind) (l : Nat) : (s.defer path va c k l).held = s.held := rfl
@[simp] theorem State.defer_rels (path : Path) (va : DWord) (c : Byte) (k : AKind) (l : Nat) : (s.defer path va c k l).rels = s.rels := rfl
@[simp] theorem State.defer_tlb (path : Path) (va : DWord) (c : Byte) (k : AKind) (l : Nat) : (s.defer path va c k l).tlb = s.tlb := rfl
@[simp] theorem State.defer_walk (path : Path) (va : DWord) (c : Byte) (k : AKind) (l : Nat) : (s.defer path va c k l).walk = s.walk := rfl
@[simp] theorem State.defer_walks (path : Path) (va : DWord) (c : Byte) (k : AKind) (l : Nat) : (s.defer path va c k l).walks = s.walks := rfl
@[simp] theorem State.defer_refresh (path : Path) (va : DWord) (c : Byte) (k : AKind) (l : Nat) : (s.defer path va c k l).refresh = s.refresh := rfl
@[simp] theorem State.defer_svcPend (path : Path) (va : DWord) (c : Byte) (k : AKind) (l : Nat) : (s.defer path va c k l).svcPend = s.svcPend := rfl
@[simp] theorem State.defer_stopPend (path : Path) (va : DWord) (c : Byte) (k : AKind) (l : Nat) : (s.defer path va c k l).stopPend = s.stopPend := rfl
@[simp] theorem State.defer_reposted (path : Path) (va : DWord) (c : Byte) (k : AKind) (l : Nat) : (s.defer path va c k l).reposted = s.reposted := rfl
@[simp] theorem State.defer_gangStop (path : Path) (va : DWord) (c : Byte) (k : AKind) (l : Nat) : (s.defer path va c k l).gangStop = s.gangStop := rfl
@[simp] theorem State.defer_reissue (path : Path) (va : DWord) (c : Byte) (k : AKind) (l : Nat) : (s.defer path va c k l).reissue = s.reissue := rfl
@[simp] theorem State.defer_ctxs (path : Path) (va : DWord) (c : Byte) (k : AKind) (l : Nat) : (s.defer path va c k l).ctxs = s.ctxs := rfl
@[simp] theorem State.defer_parts (path : Path) (va : DWord) (c : Byte) (k : AKind) (l : Nat) : (s.defer path va c k l).parts = s.parts := rfl
@[simp] theorem State.defer_recs (path : Path) (va : DWord) (c : Byte) (k : AKind) (l : Nat) : (s.defer path va c k l).recs = s.recs := rfl
@[simp] theorem State.defer_pushes (path : Path) (va : DWord) (c : Byte) (k : AKind) (l : Nat) : (s.defer path va c k l).pushes = s.pushes := rfl
@[simp] theorem State.defer_taken (path : Path) (va : DWord) (c : Byte) (k : AKind) (l : Nat) : (s.defer path va c k l).taken = s.taken := rfl
@[simp] theorem State.defer_pqs (path : Path) (va : DWord) (c : Byte) (k : AKind) (l : Nat) : (s.defer path va c k l).pqs = s.pqs := rfl
@[simp] theorem State.defer_models (path : Path) (va : DWord) (c : Byte) (k : AKind) (l : Nat) : (s.defer path va c k l).models = s.models := rfl
@[simp] theorem State.defer_exports (path : Path) (va : DWord) (c : Byte) (k : AKind) (l : Nat) : (s.defer path va c k l).exports = s.exports := rfl
@[simp] theorem State.defer_link (path : Path) (va : DWord) (c : Byte) (k : AKind) (l : Nat) : (s.defer path va c k l).link = s.link := rfl
@[simp] theorem State.defer_portsUp (path : Path) (va : DWord) (c : Byte) (k : AKind) (l : Nat) : (s.defer path va c k l).portsUp = s.portsUp := rfl
@[simp] theorem State.defer_portsErr (path : Path) (va : DWord) (c : Byte) (k : AKind) (l : Nat) : (s.defer path va c k l).portsErr = s.portsErr := rfl
@[simp] theorem State.defer_mapped (path : Path) (va : DWord) (c : Byte) (k : AKind) (l : Nat) : (s.defer path va c k l).mapped = s.mapped := rfl
@[simp] theorem State.defer_devices (path : Path) (va : DWord) (c : Byte) (k : AKind) (l : Nat) : (s.defer path va c k l).devices = s.devices := rfl
@[simp] theorem State.defer_window (path : Path) (va : DWord) (c : Byte) (k : AKind) (l : Nat) : (s.defer path va c k l).window = s.window := rfl
@[simp] theorem State.defer_hostOut (path : Path) (va : DWord) (c : Byte) (k : AKind) (l : Nat) : (s.defer path va c k l).hostOut = s.hostOut := rfl
@[simp] theorem State.defer_exportOut (path : Path) (va : DWord) (c : Byte) (k : AKind) (l : Nat) : (s.defer path va c k l).exportOut = s.exportOut := rfl
@[simp] theorem State.defer_msix (path : Path) (va : DWord) (c : Byte) (k : AKind) (l : Nat) : (s.defer path va c k l).msix = s.msix := rfl
@[simp] theorem State.defer_mailbox (path : Path) (va : DWord) (c : Byte) (k : AKind) (l : Nat) : (s.defer path va c k l).mailbox = s.mailbox := rfl
@[simp] theorem State.defer_health (path : Path) (va : DWord) (c : Byte) (k : AKind) (l : Nat) : (s.defer path va c k l).health = s.health := rfl
@[simp] theorem State.defer_tally (path : Path) (va : DWord) (c : Byte) (k : AKind) (l : Nat) : (s.defer path va c k l).tally = s.tally := rfl
@[simp] theorem State.defer_throttle (path : Path) (va : DWord) (c : Byte) (k : AKind) (l : Nat) : (s.defer path va c k l).throttle = s.throttle := rfl
@[simp] theorem State.defer_dbg (path : Path) (va : DWord) (c : Byte) (k : AKind) (l : Nat) : (s.defer path va c k l).dbg = s.dbg := rfl
@[simp] theorem State.defer_powered (path : Path) (va : DWord) (c : Byte) (k : AKind) (l : Nat) : (s.defer path va c k l).powered = s.powered := rfl
@[simp] theorem State.defer_stage (path : Path) (va : DWord) (c : Byte) (k : AKind) (l : Nat) : (s.defer path va c k l).stage = s.stage := rfl
@[simp] theorem State.defer_mediaBad (path : Path) (va : DWord) (c : Byte) (k : AKind) (l : Nat) : (s.defer path va c k l).mediaBad = s.mediaBad := rfl
@[simp] theorem State.defer_inbox (path : Path) (va : DWord) (c : Byte) (k : AKind) (l : Nat) : (s.defer path va c k l).inbox = s.inbox := rfl
@[simp] theorem State.defer_outside (path : Path) (va : DWord) (c : Byte) (k : AKind) (l : Nat) : (s.defer path va c k l).outside = s.outside := rfl
@[simp] theorem State.defer_oracle (path : Path) (va : DWord) (c : Byte) (k : AKind) (l : Nat) : (s.defer path va c k l).oracle = s.oracle := rfl
@[simp] theorem State.defer_free (path : Path) (va : DWord) (c : Byte) (k : AKind) (l : Nat) : (s.defer path va c k l).free = s.free := rfl
@[simp] theorem State.defer_engAt (path : Path) (va : DWord) (c : Byte) (k : AKind) (l : Nat) : (s.defer path va c k l).engAt = s.engAt := rfl
@[simp] theorem State.defer_copyAt (path : Path) (va : DWord) (c : Byte) (k : AKind) (l : Nat) : (s.defer path va c k l).copyAt = s.copyAt := rfl
@[simp] theorem State.defer_ruleAt (path : Path) (va : DWord) (c : Byte) (k : AKind) (l : Nat) : (s.defer path va c k l).ruleAt = s.ruleAt := rfl
@[simp] theorem State.defer_reply (path : Path) (va : DWord) (c : Byte) (k : AKind) (l : Nat) : (s.defer path va c k l).reply = s.reply := rfl
@[simp] theorem State.defer_bank_accs (path : Path) (va : DWord) (c : Byte) (k : AKind) (l : Nat) : (s.defer path va c k l).bank.accs = s.bank.accs := rfl
@[simp] theorem State.defer_bank_streams (path : Path) (va : DWord) (c : Byte) (k : AKind) (l : Nat) : (s.defer path va c k l).bank.streams = s.bank.streams := rfl
@[simp] theorem State.defer_bank_eng (path : Path) (va : DWord) (c : Byte) (k : AKind) (l : Nat) : (s.defer path va c k l).bank.eng = s.bank.eng := rfl
@[simp] theorem State.defer_bank_seq (path : Path) (va : DWord) (c : Byte) (k : AKind) (l : Nat) : (s.defer path va c k l).bank.seq = s.bank.seq := rfl
@[simp] theorem State.defer_bank_slots (path : Path) (va : DWord) (c : Byte) (k : AKind) (l : Nat) : (s.defer path va c k l).bank.slots = s.bank.slots := rfl
@[simp] theorem State.defer_bank_rules (path : Path) (va : DWord) (c : Byte) (k : AKind) (l : Nat) : (s.defer path va c k l).bank.rules = s.bank.rules := rfl
@[simp] theorem State.defer_bank_round (path : Path) (va : DWord) (c : Byte) (k : AKind) (l : Nat) : (s.defer path va c k l).bank.round = s.bank.round := rfl
@[simp] theorem State.defer_bank_installs (path : Path) (va : DWord) (c : Byte) (k : AKind) (l : Nat) : (s.defer path va c k l).bank.installs = s.bank.installs := rfl
@[simp] theorem State.defer_bank_held (path : Path) (va : DWord) (c : Byte) (k : AKind) (l : Nat) : (s.defer path va c k l).bank.held = s.bank.held := rfl
@[simp] theorem State.defer_bank_chans (path : Path) (va : DWord) (c : Byte) (k : AKind) (l : Nat) : (s.defer path va c k l).bank.chans = s.bank.chans := rfl
@[simp] theorem State.defer_bank_pqwin (path : Path) (va : DWord) (c : Byte) (k : AKind) (l : Nat) : (s.defer path va c k l).bank.pqwin = s.bank.pqwin := rfl
@[simp] theorem State.defer_bank_screen (path : Path) (va : DWord) (c : Byte) (k : AKind) (l : Nat) : (s.defer path va c k l).bank.screen = s.bank.screen := rfl
@[simp] theorem State.defer_bank_recm (path : Path) (va : DWord) (c : Byte) (k : AKind) (l : Nat) : (s.defer path va c k l).bank.recm = s.bank.recm := rfl
@[simp] theorem State.defer_bank_joint (path : Path) (va : DWord) (c : Byte) (k : AKind) (l : Nat) : (s.defer path va c k l).bank.joint = s.bank.joint := rfl
@[simp] theorem State.defer_bank_run (path : Path) (va : DWord) (c : Byte) (k : AKind) (l : Nat) : (s.defer path va c k l).bank.run = s.bank.run := rfl
@[simp] theorem State.defer_bank_uid (path : Path) (va : DWord) (c : Byte) (k : AKind) (l : Nat) : (s.defer path va c k l).bank.uid = s.bank.uid := rfl
@[simp] theorem State.defer_bank_pad (path : Path) (va : DWord) (c : Byte) (k : AKind) (l : Nat) : (s.defer path va c k l).bank.pad = s.bank.pad := rfl

/-! ## deliver -/

@[simp] theorem State.deliver_pt (c : LCls) (d : Opnd) (w : Bool) (v : DWord) (vv : Vec) (r : Ready) (f : BitVec 7) (m : Option Mark) : (s.deliver c d w v vv r f m).pt = s.pt := rfl
@[simp] theorem State.deliver_wall (c : LCls) (d : Opnd) (w : Bool) (v : DWord) (vv : Vec) (r : Ready) (f : BitVec 7) (m : Option Mark) : (s.deliver c d w v vv r f m).wall = s.wall := rfl
@[simp] theorem State.deliver_reads (c : LCls) (d : Opnd) (w : Bool) (v : DWord) (vv : Vec) (r : Ready) (f : BitVec 7) (m : Option Mark) : (s.deliver c d w v vv r f m).reads = s.reads := rfl
@[simp] theorem State.deliver_reader (c : LCls) (d : Opnd) (w : Bool) (v : DWord) (vv : Vec) (r : Ready) (f : BitVec 7) (m : Option Mark) : (s.deliver c d w v vv r f m).reader = s.reader := rfl
@[simp] theorem State.deliver_monitors (c : LCls) (d : Opnd) (w : Bool) (v : DWord) (vv : Vec) (r : Ready) (f : BitVec 7) (m : Option Mark) : (s.deliver c d w v vv r f m).monitors = s.monitors := rfl
@[simp] theorem State.deliver_sampled (c : LCls) (d : Opnd) (w : Bool) (v : DWord) (vv : Vec) (r : Ready) (f : BitVec 7) (m : Option Mark) : (s.deliver c d w v vv r f m).sampled = s.sampled := rfl
@[simp] theorem State.deliver_phase (c : LCls) (d : Opnd) (w : Bool) (v : DWord) (vv : Vec) (r : Ready) (f : BitVec 7) (m : Option Mark) : (s.deliver c d w v vv r f m).phase = s.phase := rfl
@[simp] theorem State.deliver_shadow (c : LCls) (d : Opnd) (w : Bool) (v : DWord) (vv : Vec) (r : Ready) (f : BitVec 7) (m : Option Mark) : (s.deliver c d w v vv r f m).shadow = s.shadow := rfl
@[simp] theorem State.deliver_areas (c : LCls) (d : Opnd) (w : Bool) (v : DWord) (vv : Vec) (r : Ready) (f : BitVec 7) (m : Option Mark) : (s.deliver c d w v vv r f m).areas = s.areas := rfl
@[simp] theorem State.deliver_heldAreas (c : LCls) (d : Opnd) (w : Bool) (v : DWord) (vv : Vec) (r : Ready) (f : BitVec 7) (m : Option Mark) : (s.deliver c d w v vv r f m).heldAreas = s.heldAreas := rfl
@[simp] theorem State.deliver_freezes (c : LCls) (d : Opnd) (w : Bool) (v : DWord) (vv : Vec) (r : Ready) (f : BitVec 7) (m : Option Mark) : (s.deliver c d w v vv r f m).freezes = s.freezes := rfl
@[simp] theorem State.deliver_board (c : LCls) (d : Opnd) (w : Bool) (v : DWord) (vv : Vec) (r : Ready) (f : BitVec 7) (m : Option Mark) : (s.deliver c d w v vv r f m).board = s.board := rfl
@[simp] theorem State.deliver_restoreAt (c : LCls) (d : Opnd) (w : Bool) (v : DWord) (vv : Vec) (r : Ready) (f : BitVec 7) (m : Option Mark) : (s.deliver c d w v vv r f m).restoreAt = s.restoreAt := rfl
@[simp] theorem State.deliver_srPend (c : LCls) (d : Opnd) (w : Bool) (v : DWord) (vv : Vec) (r : Ready) (f : BitVec 7) (m : Option Mark) : (s.deliver c d w v vv r f m).srPend = s.srPend := rfl
@[simp] theorem State.deliver_evSets (c : LCls) (d : Opnd) (w : Bool) (v : DWord) (vv : Vec) (r : Ready) (f : BitVec 7) (m : Option Mark) : (s.deliver c d w v vv r f m).evSets = s.evSets := rfl
@[simp] theorem State.deliver_turn (c : LCls) (d : Opnd) (w : Bool) (v : DWord) (vv : Vec) (r : Ready) (f : BitVec 7) (m : Option Mark) : (s.deliver c d w v vv r f m).turn = s.turn := rfl
@[simp] theorem State.deliver_die (c : LCls) (d : Opnd) (w : Bool) (v : DWord) (vv : Vec) (r : Ready) (f : BitVec 7) (m : Option Mark) : (s.deliver c d w v vv r f m).die = s.die := rfl
@[simp] theorem State.deliver_core (c : LCls) (d : Opnd) (w : Bool) (v : DWord) (vv : Vec) (r : Ready) (f : BitVec 7) (m : Option Mark) : (s.deliver c d w v vv r f m).core = s.core := rfl
@[simp] theorem State.deliver_verdict (c : LCls) (d : Opnd) (w : Bool) (v : DWord) (vv : Vec) (r : Ready) (f : BitVec 7) (m : Option Mark) : (s.deliver c d w v vv r f m).verdict = s.verdict := rfl
@[simp] theorem State.deliver_mem (c : LCls) (d : Opnd) (w : Bool) (v : DWord) (vv : Vec) (r : Ready) (f : BitVec 7) (m : Option Mark) : (s.deliver c d w v vv r f m).mem = s.mem := rfl
@[simp] theorem State.deliver_pend (c : LCls) (d : Opnd) (w : Bool) (v : DWord) (vv : Vec) (r : Ready) (f : BitVec 7) (m : Option Mark) : (s.deliver c d w v vv r f m).pend = s.pend := rfl
@[simp] theorem State.deliver_held (c : LCls) (d : Opnd) (w : Bool) (v : DWord) (vv : Vec) (r : Ready) (f : BitVec 7) (m : Option Mark) : (s.deliver c d w v vv r f m).held = s.held := rfl
@[simp] theorem State.deliver_rels (c : LCls) (d : Opnd) (w : Bool) (v : DWord) (vv : Vec) (r : Ready) (f : BitVec 7) (m : Option Mark) : (s.deliver c d w v vv r f m).rels = s.rels := rfl
@[simp] theorem State.deliver_tlb (c : LCls) (d : Opnd) (w : Bool) (v : DWord) (vv : Vec) (r : Ready) (f : BitVec 7) (m : Option Mark) : (s.deliver c d w v vv r f m).tlb = s.tlb := rfl
@[simp] theorem State.deliver_walk (c : LCls) (d : Opnd) (w : Bool) (v : DWord) (vv : Vec) (r : Ready) (f : BitVec 7) (m : Option Mark) : (s.deliver c d w v vv r f m).walk = s.walk := rfl
@[simp] theorem State.deliver_walks (c : LCls) (d : Opnd) (w : Bool) (v : DWord) (vv : Vec) (r : Ready) (f : BitVec 7) (m : Option Mark) : (s.deliver c d w v vv r f m).walks = s.walks := rfl
@[simp] theorem State.deliver_refresh (c : LCls) (d : Opnd) (w : Bool) (v : DWord) (vv : Vec) (r : Ready) (f : BitVec 7) (m : Option Mark) : (s.deliver c d w v vv r f m).refresh = s.refresh := rfl
@[simp] theorem State.deliver_svcPend (c : LCls) (d : Opnd) (w : Bool) (v : DWord) (vv : Vec) (r : Ready) (f : BitVec 7) (m : Option Mark) : (s.deliver c d w v vv r f m).svcPend = s.svcPend := rfl
@[simp] theorem State.deliver_stopPend (c : LCls) (d : Opnd) (w : Bool) (v : DWord) (vv : Vec) (r : Ready) (f : BitVec 7) (m : Option Mark) : (s.deliver c d w v vv r f m).stopPend = s.stopPend := rfl
@[simp] theorem State.deliver_reposted (c : LCls) (d : Opnd) (w : Bool) (v : DWord) (vv : Vec) (r : Ready) (f : BitVec 7) (m : Option Mark) : (s.deliver c d w v vv r f m).reposted = s.reposted := rfl
@[simp] theorem State.deliver_gangStop (c : LCls) (d : Opnd) (w : Bool) (v : DWord) (vv : Vec) (r : Ready) (f : BitVec 7) (m : Option Mark) : (s.deliver c d w v vv r f m).gangStop = s.gangStop := rfl
@[simp] theorem State.deliver_reissue (c : LCls) (d : Opnd) (w : Bool) (v : DWord) (vv : Vec) (r : Ready) (f : BitVec 7) (m : Option Mark) : (s.deliver c d w v vv r f m).reissue = s.reissue := rfl
@[simp] theorem State.deliver_ctxs (c : LCls) (d : Opnd) (w : Bool) (v : DWord) (vv : Vec) (r : Ready) (f : BitVec 7) (m : Option Mark) : (s.deliver c d w v vv r f m).ctxs = s.ctxs := rfl
@[simp] theorem State.deliver_parts (c : LCls) (d : Opnd) (w : Bool) (v : DWord) (vv : Vec) (r : Ready) (f : BitVec 7) (m : Option Mark) : (s.deliver c d w v vv r f m).parts = s.parts := rfl
@[simp] theorem State.deliver_recs (c : LCls) (d : Opnd) (w : Bool) (v : DWord) (vv : Vec) (r : Ready) (f : BitVec 7) (m : Option Mark) : (s.deliver c d w v vv r f m).recs = s.recs := rfl
@[simp] theorem State.deliver_pushes (c : LCls) (d : Opnd) (w : Bool) (v : DWord) (vv : Vec) (r : Ready) (f : BitVec 7) (m : Option Mark) : (s.deliver c d w v vv r f m).pushes = s.pushes := rfl
@[simp] theorem State.deliver_taken (c : LCls) (d : Opnd) (w : Bool) (v : DWord) (vv : Vec) (r : Ready) (f : BitVec 7) (m : Option Mark) : (s.deliver c d w v vv r f m).taken = s.taken := rfl
@[simp] theorem State.deliver_pqs (c : LCls) (d : Opnd) (w : Bool) (v : DWord) (vv : Vec) (r : Ready) (f : BitVec 7) (m : Option Mark) : (s.deliver c d w v vv r f m).pqs = s.pqs := rfl
@[simp] theorem State.deliver_models (c : LCls) (d : Opnd) (w : Bool) (v : DWord) (vv : Vec) (r : Ready) (f : BitVec 7) (m : Option Mark) : (s.deliver c d w v vv r f m).models = s.models := rfl
@[simp] theorem State.deliver_exports (c : LCls) (d : Opnd) (w : Bool) (v : DWord) (vv : Vec) (r : Ready) (f : BitVec 7) (m : Option Mark) : (s.deliver c d w v vv r f m).exports = s.exports := rfl
@[simp] theorem State.deliver_link (c : LCls) (d : Opnd) (w : Bool) (v : DWord) (vv : Vec) (r : Ready) (f : BitVec 7) (m : Option Mark) : (s.deliver c d w v vv r f m).link = s.link := rfl
@[simp] theorem State.deliver_portsUp (c : LCls) (d : Opnd) (w : Bool) (v : DWord) (vv : Vec) (r : Ready) (f : BitVec 7) (m : Option Mark) : (s.deliver c d w v vv r f m).portsUp = s.portsUp := rfl
@[simp] theorem State.deliver_portsErr (c : LCls) (d : Opnd) (w : Bool) (v : DWord) (vv : Vec) (r : Ready) (f : BitVec 7) (m : Option Mark) : (s.deliver c d w v vv r f m).portsErr = s.portsErr := rfl
@[simp] theorem State.deliver_mapped (c : LCls) (d : Opnd) (w : Bool) (v : DWord) (vv : Vec) (r : Ready) (f : BitVec 7) (m : Option Mark) : (s.deliver c d w v vv r f m).mapped = s.mapped := rfl
@[simp] theorem State.deliver_devices (c : LCls) (d : Opnd) (w : Bool) (v : DWord) (vv : Vec) (r : Ready) (f : BitVec 7) (m : Option Mark) : (s.deliver c d w v vv r f m).devices = s.devices := rfl
@[simp] theorem State.deliver_window (c : LCls) (d : Opnd) (w : Bool) (v : DWord) (vv : Vec) (r : Ready) (f : BitVec 7) (m : Option Mark) : (s.deliver c d w v vv r f m).window = s.window := rfl
@[simp] theorem State.deliver_hostOut (c : LCls) (d : Opnd) (w : Bool) (v : DWord) (vv : Vec) (r : Ready) (f : BitVec 7) (m : Option Mark) : (s.deliver c d w v vv r f m).hostOut = s.hostOut := rfl
@[simp] theorem State.deliver_exportOut (c : LCls) (d : Opnd) (w : Bool) (v : DWord) (vv : Vec) (r : Ready) (f : BitVec 7) (m : Option Mark) : (s.deliver c d w v vv r f m).exportOut = s.exportOut := rfl
@[simp] theorem State.deliver_msix (c : LCls) (d : Opnd) (w : Bool) (v : DWord) (vv : Vec) (r : Ready) (f : BitVec 7) (m : Option Mark) : (s.deliver c d w v vv r f m).msix = s.msix := rfl
@[simp] theorem State.deliver_mailbox (c : LCls) (d : Opnd) (w : Bool) (v : DWord) (vv : Vec) (r : Ready) (f : BitVec 7) (m : Option Mark) : (s.deliver c d w v vv r f m).mailbox = s.mailbox := rfl
@[simp] theorem State.deliver_health (c : LCls) (d : Opnd) (w : Bool) (v : DWord) (vv : Vec) (r : Ready) (f : BitVec 7) (m : Option Mark) : (s.deliver c d w v vv r f m).health = s.health := rfl
@[simp] theorem State.deliver_tally (c : LCls) (d : Opnd) (w : Bool) (v : DWord) (vv : Vec) (r : Ready) (f : BitVec 7) (m : Option Mark) : (s.deliver c d w v vv r f m).tally = s.tally := rfl
@[simp] theorem State.deliver_throttle (c : LCls) (d : Opnd) (w : Bool) (v : DWord) (vv : Vec) (r : Ready) (f : BitVec 7) (m : Option Mark) : (s.deliver c d w v vv r f m).throttle = s.throttle := rfl
@[simp] theorem State.deliver_dbg (c : LCls) (d : Opnd) (w : Bool) (v : DWord) (vv : Vec) (r : Ready) (f : BitVec 7) (m : Option Mark) : (s.deliver c d w v vv r f m).dbg = s.dbg := rfl
@[simp] theorem State.deliver_powered (c : LCls) (d : Opnd) (w : Bool) (v : DWord) (vv : Vec) (r : Ready) (f : BitVec 7) (m : Option Mark) : (s.deliver c d w v vv r f m).powered = s.powered := rfl
@[simp] theorem State.deliver_stage (c : LCls) (d : Opnd) (w : Bool) (v : DWord) (vv : Vec) (r : Ready) (f : BitVec 7) (m : Option Mark) : (s.deliver c d w v vv r f m).stage = s.stage := rfl
@[simp] theorem State.deliver_mediaBad (c : LCls) (d : Opnd) (w : Bool) (v : DWord) (vv : Vec) (r : Ready) (f : BitVec 7) (m : Option Mark) : (s.deliver c d w v vv r f m).mediaBad = s.mediaBad := rfl
@[simp] theorem State.deliver_inbox (c : LCls) (d : Opnd) (w : Bool) (v : DWord) (vv : Vec) (r : Ready) (f : BitVec 7) (m : Option Mark) : (s.deliver c d w v vv r f m).inbox = s.inbox := rfl
@[simp] theorem State.deliver_outside (c : LCls) (d : Opnd) (w : Bool) (v : DWord) (vv : Vec) (r : Ready) (f : BitVec 7) (m : Option Mark) : (s.deliver c d w v vv r f m).outside = s.outside := rfl
@[simp] theorem State.deliver_oracle (c : LCls) (d : Opnd) (w : Bool) (v : DWord) (vv : Vec) (r : Ready) (f : BitVec 7) (m : Option Mark) : (s.deliver c d w v vv r f m).oracle = s.oracle := rfl
@[simp] theorem State.deliver_free (c : LCls) (d : Opnd) (w : Bool) (v : DWord) (vv : Vec) (r : Ready) (f : BitVec 7) (m : Option Mark) : (s.deliver c d w v vv r f m).free = s.free := rfl
@[simp] theorem State.deliver_engAt (c : LCls) (d : Opnd) (w : Bool) (v : DWord) (vv : Vec) (r : Ready) (f : BitVec 7) (m : Option Mark) : (s.deliver c d w v vv r f m).engAt = s.engAt := rfl
@[simp] theorem State.deliver_copyAt (c : LCls) (d : Opnd) (w : Bool) (v : DWord) (vv : Vec) (r : Ready) (f : BitVec 7) (m : Option Mark) : (s.deliver c d w v vv r f m).copyAt = s.copyAt := rfl
@[simp] theorem State.deliver_ruleAt (c : LCls) (d : Opnd) (w : Bool) (v : DWord) (vv : Vec) (r : Ready) (f : BitVec 7) (m : Option Mark) : (s.deliver c d w v vv r f m).ruleAt = s.ruleAt := rfl
@[simp] theorem State.deliver_reply (c : LCls) (d : Opnd) (w : Bool) (v : DWord) (vv : Vec) (r : Ready) (f : BitVec 7) (m : Option Mark) : (s.deliver c d w v vv r f m).reply = s.reply := rfl
@[simp] theorem State.deliver_bank_accs (c : LCls) (d : Opnd) (w : Bool) (v : DWord) (vv : Vec) (r : Ready) (f : BitVec 7) (m : Option Mark) : (s.deliver c d w v vv r f m).bank.accs = s.bank.accs := rfl
@[simp] theorem State.deliver_bank_streams (c : LCls) (d : Opnd) (w : Bool) (v : DWord) (vv : Vec) (r : Ready) (f : BitVec 7) (m : Option Mark) : (s.deliver c d w v vv r f m).bank.streams = s.bank.streams := rfl
@[simp] theorem State.deliver_bank_eng (c : LCls) (d : Opnd) (w : Bool) (v : DWord) (vv : Vec) (r : Ready) (f : BitVec 7) (m : Option Mark) : (s.deliver c d w v vv r f m).bank.eng = s.bank.eng := rfl
@[simp] theorem State.deliver_bank_seq (c : LCls) (d : Opnd) (w : Bool) (v : DWord) (vv : Vec) (r : Ready) (f : BitVec 7) (m : Option Mark) : (s.deliver c d w v vv r f m).bank.seq = s.bank.seq := rfl
@[simp] theorem State.deliver_bank_slots (c : LCls) (d : Opnd) (w : Bool) (v : DWord) (vv : Vec) (r : Ready) (f : BitVec 7) (m : Option Mark) : (s.deliver c d w v vv r f m).bank.slots = s.bank.slots := rfl
@[simp] theorem State.deliver_bank_rules (c : LCls) (d : Opnd) (w : Bool) (v : DWord) (vv : Vec) (r : Ready) (f : BitVec 7) (m : Option Mark) : (s.deliver c d w v vv r f m).bank.rules = s.bank.rules := rfl
@[simp] theorem State.deliver_bank_round (c : LCls) (d : Opnd) (w : Bool) (v : DWord) (vv : Vec) (r : Ready) (f : BitVec 7) (m : Option Mark) : (s.deliver c d w v vv r f m).bank.round = s.bank.round := rfl
@[simp] theorem State.deliver_bank_installs (c : LCls) (d : Opnd) (w : Bool) (v : DWord) (vv : Vec) (r : Ready) (f : BitVec 7) (m : Option Mark) : (s.deliver c d w v vv r f m).bank.installs = s.bank.installs := rfl
@[simp] theorem State.deliver_bank_held (c : LCls) (d : Opnd) (w : Bool) (v : DWord) (vv : Vec) (r : Ready) (f : BitVec 7) (m : Option Mark) : (s.deliver c d w v vv r f m).bank.held = s.bank.held := rfl
@[simp] theorem State.deliver_bank_chans (c : LCls) (d : Opnd) (w : Bool) (v : DWord) (vv : Vec) (r : Ready) (f : BitVec 7) (m : Option Mark) : (s.deliver c d w v vv r f m).bank.chans = s.bank.chans := rfl
@[simp] theorem State.deliver_bank_pqwin (c : LCls) (d : Opnd) (w : Bool) (v : DWord) (vv : Vec) (r : Ready) (f : BitVec 7) (m : Option Mark) : (s.deliver c d w v vv r f m).bank.pqwin = s.bank.pqwin := rfl
@[simp] theorem State.deliver_bank_screen (c : LCls) (d : Opnd) (w : Bool) (v : DWord) (vv : Vec) (r : Ready) (f : BitVec 7) (m : Option Mark) : (s.deliver c d w v vv r f m).bank.screen = s.bank.screen := rfl
@[simp] theorem State.deliver_bank_recm (c : LCls) (d : Opnd) (w : Bool) (v : DWord) (vv : Vec) (r : Ready) (f : BitVec 7) (m : Option Mark) : (s.deliver c d w v vv r f m).bank.recm = s.bank.recm := rfl
@[simp] theorem State.deliver_bank_joint (c : LCls) (d : Opnd) (w : Bool) (v : DWord) (vv : Vec) (r : Ready) (f : BitVec 7) (m : Option Mark) : (s.deliver c d w v vv r f m).bank.joint = s.bank.joint := rfl
@[simp] theorem State.deliver_bank_run (c : LCls) (d : Opnd) (w : Bool) (v : DWord) (vv : Vec) (r : Ready) (f : BitVec 7) (m : Option Mark) : (s.deliver c d w v vv r f m).bank.run = s.bank.run := rfl
@[simp] theorem State.deliver_bank_pad (c : LCls) (d : Opnd) (w : Bool) (v : DWord) (vv : Vec) (r : Ready) (f : BitVec 7) (m : Option Mark) : (s.deliver c d w v vv r f m).bank.pad = s.bank.pad := rfl

/-! ## setCtl -/

@[simp] theorem State.setCtl_pt (c : Ctl) : (s.setCtl c).pt = s.pt := rfl
@[simp] theorem State.setCtl_wall (c : Ctl) : (s.setCtl c).wall = s.wall := rfl
@[simp] theorem State.setCtl_reads (c : Ctl) : (s.setCtl c).reads = s.reads := rfl
@[simp] theorem State.setCtl_reader (c : Ctl) : (s.setCtl c).reader = s.reader := rfl
@[simp] theorem State.setCtl_monitors (c : Ctl) : (s.setCtl c).monitors = s.monitors := rfl
@[simp] theorem State.setCtl_sampled (c : Ctl) : (s.setCtl c).sampled = s.sampled := rfl
@[simp] theorem State.setCtl_phase (c : Ctl) : (s.setCtl c).phase = s.phase := rfl
@[simp] theorem State.setCtl_shadow (c : Ctl) : (s.setCtl c).shadow = s.shadow := rfl
@[simp] theorem State.setCtl_areas (c : Ctl) : (s.setCtl c).areas = s.areas := rfl
@[simp] theorem State.setCtl_heldAreas (c : Ctl) : (s.setCtl c).heldAreas = s.heldAreas := rfl
@[simp] theorem State.setCtl_freezes (c : Ctl) : (s.setCtl c).freezes = s.freezes := rfl
@[simp] theorem State.setCtl_board (c : Ctl) : (s.setCtl c).board = s.board := rfl
@[simp] theorem State.setCtl_restoreAt (c : Ctl) : (s.setCtl c).restoreAt = s.restoreAt := rfl
@[simp] theorem State.setCtl_srPend (c : Ctl) : (s.setCtl c).srPend = s.srPend := rfl
@[simp] theorem State.setCtl_evSets (c : Ctl) : (s.setCtl c).evSets = s.evSets := rfl
@[simp] theorem State.setCtl_turn (c : Ctl) : (s.setCtl c).turn = s.turn := rfl
@[simp] theorem State.setCtl_die (c : Ctl) : (s.setCtl c).die = s.die := rfl
@[simp] theorem State.setCtl_core (c : Ctl) : (s.setCtl c).core = s.core := rfl
@[simp] theorem State.setCtl_verdict (c : Ctl) : (s.setCtl c).verdict = s.verdict := rfl
@[simp] theorem State.setCtl_mem (c : Ctl) : (s.setCtl c).mem = s.mem := rfl
@[simp] theorem State.setCtl_pend (c : Ctl) : (s.setCtl c).pend = s.pend := rfl
@[simp] theorem State.setCtl_held (c : Ctl) : (s.setCtl c).held = s.held := rfl
@[simp] theorem State.setCtl_rels (c : Ctl) : (s.setCtl c).rels = s.rels := rfl
@[simp] theorem State.setCtl_tlb (c : Ctl) : (s.setCtl c).tlb = s.tlb := rfl
@[simp] theorem State.setCtl_walk (c : Ctl) : (s.setCtl c).walk = s.walk := rfl
@[simp] theorem State.setCtl_walks (c : Ctl) : (s.setCtl c).walks = s.walks := rfl
@[simp] theorem State.setCtl_refresh (c : Ctl) : (s.setCtl c).refresh = s.refresh := rfl
@[simp] theorem State.setCtl_svcPend (c : Ctl) : (s.setCtl c).svcPend = s.svcPend := rfl
@[simp] theorem State.setCtl_stopPend (c : Ctl) : (s.setCtl c).stopPend = s.stopPend := rfl
@[simp] theorem State.setCtl_reposted (c : Ctl) : (s.setCtl c).reposted = s.reposted := rfl
@[simp] theorem State.setCtl_gangStop (c : Ctl) : (s.setCtl c).gangStop = s.gangStop := rfl
@[simp] theorem State.setCtl_reissue (c : Ctl) : (s.setCtl c).reissue = s.reissue := rfl
@[simp] theorem State.setCtl_ctxs (c : Ctl) : (s.setCtl c).ctxs = s.ctxs := rfl
@[simp] theorem State.setCtl_parts (c : Ctl) : (s.setCtl c).parts = s.parts := rfl
@[simp] theorem State.setCtl_recs (c : Ctl) : (s.setCtl c).recs = s.recs := rfl
@[simp] theorem State.setCtl_pushes (c : Ctl) : (s.setCtl c).pushes = s.pushes := rfl
@[simp] theorem State.setCtl_taken (c : Ctl) : (s.setCtl c).taken = s.taken := rfl
@[simp] theorem State.setCtl_pqs (c : Ctl) : (s.setCtl c).pqs = s.pqs := rfl
@[simp] theorem State.setCtl_models (c : Ctl) : (s.setCtl c).models = s.models := rfl
@[simp] theorem State.setCtl_exports (c : Ctl) : (s.setCtl c).exports = s.exports := rfl
@[simp] theorem State.setCtl_link (c : Ctl) : (s.setCtl c).link = s.link := rfl
@[simp] theorem State.setCtl_portsUp (c : Ctl) : (s.setCtl c).portsUp = s.portsUp := rfl
@[simp] theorem State.setCtl_portsErr (c : Ctl) : (s.setCtl c).portsErr = s.portsErr := rfl
@[simp] theorem State.setCtl_mapped (c : Ctl) : (s.setCtl c).mapped = s.mapped := rfl
@[simp] theorem State.setCtl_devices (c : Ctl) : (s.setCtl c).devices = s.devices := rfl
@[simp] theorem State.setCtl_window (c : Ctl) : (s.setCtl c).window = s.window := rfl
@[simp] theorem State.setCtl_hostOut (c : Ctl) : (s.setCtl c).hostOut = s.hostOut := rfl
@[simp] theorem State.setCtl_exportOut (c : Ctl) : (s.setCtl c).exportOut = s.exportOut := rfl
@[simp] theorem State.setCtl_msix (c : Ctl) : (s.setCtl c).msix = s.msix := rfl
@[simp] theorem State.setCtl_mailbox (c : Ctl) : (s.setCtl c).mailbox = s.mailbox := rfl
@[simp] theorem State.setCtl_health (c : Ctl) : (s.setCtl c).health = s.health := rfl
@[simp] theorem State.setCtl_tally (c : Ctl) : (s.setCtl c).tally = s.tally := rfl
@[simp] theorem State.setCtl_throttle (c : Ctl) : (s.setCtl c).throttle = s.throttle := rfl
@[simp] theorem State.setCtl_dbg (c : Ctl) : (s.setCtl c).dbg = s.dbg := rfl
@[simp] theorem State.setCtl_powered (c : Ctl) : (s.setCtl c).powered = s.powered := rfl
@[simp] theorem State.setCtl_stage (c : Ctl) : (s.setCtl c).stage = s.stage := rfl
@[simp] theorem State.setCtl_mediaBad (c : Ctl) : (s.setCtl c).mediaBad = s.mediaBad := rfl
@[simp] theorem State.setCtl_inbox (c : Ctl) : (s.setCtl c).inbox = s.inbox := rfl
@[simp] theorem State.setCtl_outside (c : Ctl) : (s.setCtl c).outside = s.outside := rfl
@[simp] theorem State.setCtl_oracle (c : Ctl) : (s.setCtl c).oracle = s.oracle := rfl
@[simp] theorem State.setCtl_free (c : Ctl) : (s.setCtl c).free = s.free := rfl
@[simp] theorem State.setCtl_engAt (c : Ctl) : (s.setCtl c).engAt = s.engAt := rfl
@[simp] theorem State.setCtl_copyAt (c : Ctl) : (s.setCtl c).copyAt = s.copyAt := rfl
@[simp] theorem State.setCtl_ruleAt (c : Ctl) : (s.setCtl c).ruleAt = s.ruleAt := rfl
@[simp] theorem State.setCtl_reply (c : Ctl) : (s.setCtl c).reply = s.reply := rfl
@[simp] theorem State.setCtl_bank_accs (c : Ctl) : (s.setCtl c).bank.accs = s.bank.accs := rfl
@[simp] theorem State.setCtl_bank_streams (c : Ctl) : (s.setCtl c).bank.streams = s.bank.streams := rfl
@[simp] theorem State.setCtl_bank_eng (c : Ctl) : (s.setCtl c).bank.eng = s.bank.eng := rfl
@[simp] theorem State.setCtl_bank_seq (c : Ctl) : (s.setCtl c).bank.seq = s.bank.seq := rfl
@[simp] theorem State.setCtl_bank_slots (c : Ctl) : (s.setCtl c).bank.slots = s.bank.slots := rfl
@[simp] theorem State.setCtl_bank_rules (c : Ctl) : (s.setCtl c).bank.rules = s.bank.rules := rfl
@[simp] theorem State.setCtl_bank_round (c : Ctl) : (s.setCtl c).bank.round = s.bank.round := rfl
@[simp] theorem State.setCtl_bank_installs (c : Ctl) : (s.setCtl c).bank.installs = s.bank.installs := rfl
@[simp] theorem State.setCtl_bank_held (c : Ctl) : (s.setCtl c).bank.held = s.bank.held := rfl
@[simp] theorem State.setCtl_bank_chans (c : Ctl) : (s.setCtl c).bank.chans = s.bank.chans := rfl
@[simp] theorem State.setCtl_bank_pqwin (c : Ctl) : (s.setCtl c).bank.pqwin = s.bank.pqwin := rfl
@[simp] theorem State.setCtl_bank_screen (c : Ctl) : (s.setCtl c).bank.screen = s.bank.screen := rfl
@[simp] theorem State.setCtl_bank_recm (c : Ctl) : (s.setCtl c).bank.recm = s.bank.recm := rfl
@[simp] theorem State.setCtl_bank_joint (c : Ctl) : (s.setCtl c).bank.joint = s.bank.joint := rfl
@[simp] theorem State.setCtl_bank_run (c : Ctl) : (s.setCtl c).bank.run = s.bank.run := rfl
@[simp] theorem State.setCtl_bank_uid (c : Ctl) : (s.setCtl c).bank.uid = s.bank.uid := rfl
@[simp] theorem State.setCtl_bank_pad (c : Ctl) : (s.setCtl c).bank.pad = s.bank.pad := rfl

/-! ## putMask -/

@[simp] theorem State.putMask_pt (d : BitVec 3) (x : BitVec 16) : (s.putMask d x).pt = s.pt := rfl
@[simp] theorem State.putMask_wall (d : BitVec 3) (x : BitVec 16) : (s.putMask d x).wall = s.wall := rfl
@[simp] theorem State.putMask_reads (d : BitVec 3) (x : BitVec 16) : (s.putMask d x).reads = s.reads := rfl
@[simp] theorem State.putMask_reader (d : BitVec 3) (x : BitVec 16) : (s.putMask d x).reader = s.reader := rfl
@[simp] theorem State.putMask_monitors (d : BitVec 3) (x : BitVec 16) : (s.putMask d x).monitors = s.monitors := rfl
@[simp] theorem State.putMask_sampled (d : BitVec 3) (x : BitVec 16) : (s.putMask d x).sampled = s.sampled := rfl
@[simp] theorem State.putMask_phase (d : BitVec 3) (x : BitVec 16) : (s.putMask d x).phase = s.phase := rfl
@[simp] theorem State.putMask_shadow (d : BitVec 3) (x : BitVec 16) : (s.putMask d x).shadow = s.shadow := rfl
@[simp] theorem State.putMask_areas (d : BitVec 3) (x : BitVec 16) : (s.putMask d x).areas = s.areas := rfl
@[simp] theorem State.putMask_heldAreas (d : BitVec 3) (x : BitVec 16) : (s.putMask d x).heldAreas = s.heldAreas := rfl
@[simp] theorem State.putMask_freezes (d : BitVec 3) (x : BitVec 16) : (s.putMask d x).freezes = s.freezes := rfl
@[simp] theorem State.putMask_board (d : BitVec 3) (x : BitVec 16) : (s.putMask d x).board = s.board := rfl
@[simp] theorem State.putMask_restoreAt (d : BitVec 3) (x : BitVec 16) : (s.putMask d x).restoreAt = s.restoreAt := rfl
@[simp] theorem State.putMask_srPend (d : BitVec 3) (x : BitVec 16) : (s.putMask d x).srPend = s.srPend := rfl
@[simp] theorem State.putMask_evSets (d : BitVec 3) (x : BitVec 16) : (s.putMask d x).evSets = s.evSets := rfl
@[simp] theorem State.putMask_turn (d : BitVec 3) (x : BitVec 16) : (s.putMask d x).turn = s.turn := rfl
@[simp] theorem State.putMask_die (d : BitVec 3) (x : BitVec 16) : (s.putMask d x).die = s.die := rfl
@[simp] theorem State.putMask_core (d : BitVec 3) (x : BitVec 16) : (s.putMask d x).core = s.core := rfl
@[simp] theorem State.putMask_verdict (d : BitVec 3) (x : BitVec 16) : (s.putMask d x).verdict = s.verdict := rfl
@[simp] theorem State.putMask_mem (d : BitVec 3) (x : BitVec 16) : (s.putMask d x).mem = s.mem := rfl
@[simp] theorem State.putMask_pend (d : BitVec 3) (x : BitVec 16) : (s.putMask d x).pend = s.pend := rfl
@[simp] theorem State.putMask_held (d : BitVec 3) (x : BitVec 16) : (s.putMask d x).held = s.held := rfl
@[simp] theorem State.putMask_rels (d : BitVec 3) (x : BitVec 16) : (s.putMask d x).rels = s.rels := rfl
@[simp] theorem State.putMask_tlb (d : BitVec 3) (x : BitVec 16) : (s.putMask d x).tlb = s.tlb := rfl
@[simp] theorem State.putMask_walk (d : BitVec 3) (x : BitVec 16) : (s.putMask d x).walk = s.walk := rfl
@[simp] theorem State.putMask_walks (d : BitVec 3) (x : BitVec 16) : (s.putMask d x).walks = s.walks := rfl
@[simp] theorem State.putMask_refresh (d : BitVec 3) (x : BitVec 16) : (s.putMask d x).refresh = s.refresh := rfl
@[simp] theorem State.putMask_svcPend (d : BitVec 3) (x : BitVec 16) : (s.putMask d x).svcPend = s.svcPend := rfl
@[simp] theorem State.putMask_stopPend (d : BitVec 3) (x : BitVec 16) : (s.putMask d x).stopPend = s.stopPend := rfl
@[simp] theorem State.putMask_reposted (d : BitVec 3) (x : BitVec 16) : (s.putMask d x).reposted = s.reposted := rfl
@[simp] theorem State.putMask_gangStop (d : BitVec 3) (x : BitVec 16) : (s.putMask d x).gangStop = s.gangStop := rfl
@[simp] theorem State.putMask_reissue (d : BitVec 3) (x : BitVec 16) : (s.putMask d x).reissue = s.reissue := rfl
@[simp] theorem State.putMask_ctxs (d : BitVec 3) (x : BitVec 16) : (s.putMask d x).ctxs = s.ctxs := rfl
@[simp] theorem State.putMask_parts (d : BitVec 3) (x : BitVec 16) : (s.putMask d x).parts = s.parts := rfl
@[simp] theorem State.putMask_recs (d : BitVec 3) (x : BitVec 16) : (s.putMask d x).recs = s.recs := rfl
@[simp] theorem State.putMask_pushes (d : BitVec 3) (x : BitVec 16) : (s.putMask d x).pushes = s.pushes := rfl
@[simp] theorem State.putMask_taken (d : BitVec 3) (x : BitVec 16) : (s.putMask d x).taken = s.taken := rfl
@[simp] theorem State.putMask_pqs (d : BitVec 3) (x : BitVec 16) : (s.putMask d x).pqs = s.pqs := rfl
@[simp] theorem State.putMask_models (d : BitVec 3) (x : BitVec 16) : (s.putMask d x).models = s.models := rfl
@[simp] theorem State.putMask_exports (d : BitVec 3) (x : BitVec 16) : (s.putMask d x).exports = s.exports := rfl
@[simp] theorem State.putMask_link (d : BitVec 3) (x : BitVec 16) : (s.putMask d x).link = s.link := rfl
@[simp] theorem State.putMask_portsUp (d : BitVec 3) (x : BitVec 16) : (s.putMask d x).portsUp = s.portsUp := rfl
@[simp] theorem State.putMask_portsErr (d : BitVec 3) (x : BitVec 16) : (s.putMask d x).portsErr = s.portsErr := rfl
@[simp] theorem State.putMask_mapped (d : BitVec 3) (x : BitVec 16) : (s.putMask d x).mapped = s.mapped := rfl
@[simp] theorem State.putMask_devices (d : BitVec 3) (x : BitVec 16) : (s.putMask d x).devices = s.devices := rfl
@[simp] theorem State.putMask_window (d : BitVec 3) (x : BitVec 16) : (s.putMask d x).window = s.window := rfl
@[simp] theorem State.putMask_hostOut (d : BitVec 3) (x : BitVec 16) : (s.putMask d x).hostOut = s.hostOut := rfl
@[simp] theorem State.putMask_exportOut (d : BitVec 3) (x : BitVec 16) : (s.putMask d x).exportOut = s.exportOut := rfl
@[simp] theorem State.putMask_msix (d : BitVec 3) (x : BitVec 16) : (s.putMask d x).msix = s.msix := rfl
@[simp] theorem State.putMask_mailbox (d : BitVec 3) (x : BitVec 16) : (s.putMask d x).mailbox = s.mailbox := rfl
@[simp] theorem State.putMask_health (d : BitVec 3) (x : BitVec 16) : (s.putMask d x).health = s.health := rfl
@[simp] theorem State.putMask_tally (d : BitVec 3) (x : BitVec 16) : (s.putMask d x).tally = s.tally := rfl
@[simp] theorem State.putMask_throttle (d : BitVec 3) (x : BitVec 16) : (s.putMask d x).throttle = s.throttle := rfl
@[simp] theorem State.putMask_dbg (d : BitVec 3) (x : BitVec 16) : (s.putMask d x).dbg = s.dbg := rfl
@[simp] theorem State.putMask_powered (d : BitVec 3) (x : BitVec 16) : (s.putMask d x).powered = s.powered := rfl
@[simp] theorem State.putMask_stage (d : BitVec 3) (x : BitVec 16) : (s.putMask d x).stage = s.stage := rfl
@[simp] theorem State.putMask_mediaBad (d : BitVec 3) (x : BitVec 16) : (s.putMask d x).mediaBad = s.mediaBad := rfl
@[simp] theorem State.putMask_inbox (d : BitVec 3) (x : BitVec 16) : (s.putMask d x).inbox = s.inbox := rfl
@[simp] theorem State.putMask_outside (d : BitVec 3) (x : BitVec 16) : (s.putMask d x).outside = s.outside := rfl
@[simp] theorem State.putMask_oracle (d : BitVec 3) (x : BitVec 16) : (s.putMask d x).oracle = s.oracle := rfl
@[simp] theorem State.putMask_free (d : BitVec 3) (x : BitVec 16) : (s.putMask d x).free = s.free := rfl
@[simp] theorem State.putMask_engAt (d : BitVec 3) (x : BitVec 16) : (s.putMask d x).engAt = s.engAt := rfl
@[simp] theorem State.putMask_copyAt (d : BitVec 3) (x : BitVec 16) : (s.putMask d x).copyAt = s.copyAt := rfl
@[simp] theorem State.putMask_ruleAt (d : BitVec 3) (x : BitVec 16) : (s.putMask d x).ruleAt = s.ruleAt := rfl
@[simp] theorem State.putMask_reply (d : BitVec 3) (x : BitVec 16) : (s.putMask d x).reply = s.reply := rfl
@[simp] theorem State.putMask_bank_accs (d : BitVec 3) (x : BitVec 16) : (s.putMask d x).bank.accs = s.bank.accs := rfl
@[simp] theorem State.putMask_bank_streams (d : BitVec 3) (x : BitVec 16) : (s.putMask d x).bank.streams = s.bank.streams := rfl
@[simp] theorem State.putMask_bank_eng (d : BitVec 3) (x : BitVec 16) : (s.putMask d x).bank.eng = s.bank.eng := rfl
@[simp] theorem State.putMask_bank_seq (d : BitVec 3) (x : BitVec 16) : (s.putMask d x).bank.seq = s.bank.seq := rfl
@[simp] theorem State.putMask_bank_slots (d : BitVec 3) (x : BitVec 16) : (s.putMask d x).bank.slots = s.bank.slots := rfl
@[simp] theorem State.putMask_bank_rules (d : BitVec 3) (x : BitVec 16) : (s.putMask d x).bank.rules = s.bank.rules := rfl
@[simp] theorem State.putMask_bank_round (d : BitVec 3) (x : BitVec 16) : (s.putMask d x).bank.round = s.bank.round := rfl
@[simp] theorem State.putMask_bank_installs (d : BitVec 3) (x : BitVec 16) : (s.putMask d x).bank.installs = s.bank.installs := rfl
@[simp] theorem State.putMask_bank_held (d : BitVec 3) (x : BitVec 16) : (s.putMask d x).bank.held = s.bank.held := rfl
@[simp] theorem State.putMask_bank_chans (d : BitVec 3) (x : BitVec 16) : (s.putMask d x).bank.chans = s.bank.chans := rfl
@[simp] theorem State.putMask_bank_pqwin (d : BitVec 3) (x : BitVec 16) : (s.putMask d x).bank.pqwin = s.bank.pqwin := rfl
@[simp] theorem State.putMask_bank_screen (d : BitVec 3) (x : BitVec 16) : (s.putMask d x).bank.screen = s.bank.screen := rfl
@[simp] theorem State.putMask_bank_recm (d : BitVec 3) (x : BitVec 16) : (s.putMask d x).bank.recm = s.bank.recm := rfl
@[simp] theorem State.putMask_bank_joint (d : BitVec 3) (x : BitVec 16) : (s.putMask d x).bank.joint = s.bank.joint := rfl
@[simp] theorem State.putMask_bank_run (d : BitVec 3) (x : BitVec 16) : (s.putMask d x).bank.run = s.bank.run := rfl
@[simp] theorem State.putMask_bank_uid (d : BitVec 3) (x : BitVec 16) : (s.putMask d x).bank.uid = s.bank.uid := rfl
@[simp] theorem State.putMask_bank_pad (d : BitVec 3) (x : BitVec 16) : (s.putMask d x).bank.pad = s.bank.pad := rfl

/-! ## startBundle -/

@[simp] theorem State.startBundle_pt (n : DWord) (y : Bool) : (s.startBundle n y).pt = s.pt := rfl
@[simp] theorem State.startBundle_wall (n : DWord) (y : Bool) : (s.startBundle n y).wall = s.wall := rfl
@[simp] theorem State.startBundle_reads (n : DWord) (y : Bool) : (s.startBundle n y).reads = s.reads := rfl
@[simp] theorem State.startBundle_reader (n : DWord) (y : Bool) : (s.startBundle n y).reader = s.reader := rfl
@[simp] theorem State.startBundle_monitors (n : DWord) (y : Bool) : (s.startBundle n y).monitors = s.monitors := rfl
@[simp] theorem State.startBundle_sampled (n : DWord) (y : Bool) : (s.startBundle n y).sampled = s.sampled := rfl
@[simp] theorem State.startBundle_phase (n : DWord) (y : Bool) : (s.startBundle n y).phase = s.phase := rfl
@[simp] theorem State.startBundle_shadow (n : DWord) (y : Bool) : (s.startBundle n y).shadow = s.shadow := rfl
@[simp] theorem State.startBundle_areas (n : DWord) (y : Bool) : (s.startBundle n y).areas = s.areas := rfl
@[simp] theorem State.startBundle_heldAreas (n : DWord) (y : Bool) : (s.startBundle n y).heldAreas = s.heldAreas := rfl
@[simp] theorem State.startBundle_freezes (n : DWord) (y : Bool) : (s.startBundle n y).freezes = s.freezes := rfl
@[simp] theorem State.startBundle_board (n : DWord) (y : Bool) : (s.startBundle n y).board = s.board := rfl
@[simp] theorem State.startBundle_restoreAt (n : DWord) (y : Bool) : (s.startBundle n y).restoreAt = s.restoreAt := rfl
@[simp] theorem State.startBundle_srPend (n : DWord) (y : Bool) : (s.startBundle n y).srPend = s.srPend := rfl
@[simp] theorem State.startBundle_evSets (n : DWord) (y : Bool) : (s.startBundle n y).evSets = s.evSets := rfl
@[simp] theorem State.startBundle_turn (n : DWord) (y : Bool) : (s.startBundle n y).turn = s.turn := rfl
@[simp] theorem State.startBundle_die (n : DWord) (y : Bool) : (s.startBundle n y).die = s.die := rfl
@[simp] theorem State.startBundle_core (n : DWord) (y : Bool) : (s.startBundle n y).core = s.core := rfl
@[simp] theorem State.startBundle_mem (n : DWord) (y : Bool) : (s.startBundle n y).mem = s.mem := rfl
@[simp] theorem State.startBundle_pend (n : DWord) (y : Bool) : (s.startBundle n y).pend = s.pend := rfl
@[simp] theorem State.startBundle_held (n : DWord) (y : Bool) : (s.startBundle n y).held = s.held := rfl
@[simp] theorem State.startBundle_rels (n : DWord) (y : Bool) : (s.startBundle n y).rels = s.rels := rfl
@[simp] theorem State.startBundle_tlb (n : DWord) (y : Bool) : (s.startBundle n y).tlb = s.tlb := rfl
@[simp] theorem State.startBundle_walk (n : DWord) (y : Bool) : (s.startBundle n y).walk = s.walk := rfl
@[simp] theorem State.startBundle_walks (n : DWord) (y : Bool) : (s.startBundle n y).walks = s.walks := rfl
@[simp] theorem State.startBundle_refresh (n : DWord) (y : Bool) : (s.startBundle n y).refresh = s.refresh := rfl
@[simp] theorem State.startBundle_svcPend (n : DWord) (y : Bool) : (s.startBundle n y).svcPend = s.svcPend := rfl
@[simp] theorem State.startBundle_stopPend (n : DWord) (y : Bool) : (s.startBundle n y).stopPend = s.stopPend := rfl
@[simp] theorem State.startBundle_reposted (n : DWord) (y : Bool) : (s.startBundle n y).reposted = s.reposted := rfl
@[simp] theorem State.startBundle_gangStop (n : DWord) (y : Bool) : (s.startBundle n y).gangStop = s.gangStop := rfl
@[simp] theorem State.startBundle_reissue (n : DWord) (y : Bool) : (s.startBundle n y).reissue = s.reissue := rfl
@[simp] theorem State.startBundle_ctxs (n : DWord) (y : Bool) : (s.startBundle n y).ctxs = s.ctxs := rfl
@[simp] theorem State.startBundle_parts (n : DWord) (y : Bool) : (s.startBundle n y).parts = s.parts := rfl
@[simp] theorem State.startBundle_recs (n : DWord) (y : Bool) : (s.startBundle n y).recs = s.recs := rfl
@[simp] theorem State.startBundle_pushes (n : DWord) (y : Bool) : (s.startBundle n y).pushes = s.pushes := rfl
@[simp] theorem State.startBundle_taken (n : DWord) (y : Bool) : (s.startBundle n y).taken = s.taken := rfl
@[simp] theorem State.startBundle_pqs (n : DWord) (y : Bool) : (s.startBundle n y).pqs = s.pqs := rfl
@[simp] theorem State.startBundle_models (n : DWord) (y : Bool) : (s.startBundle n y).models = s.models := rfl
@[simp] theorem State.startBundle_exports (n : DWord) (y : Bool) : (s.startBundle n y).exports = s.exports := rfl
@[simp] theorem State.startBundle_link (n : DWord) (y : Bool) : (s.startBundle n y).link = s.link := rfl
@[simp] theorem State.startBundle_portsUp (n : DWord) (y : Bool) : (s.startBundle n y).portsUp = s.portsUp := rfl
@[simp] theorem State.startBundle_portsErr (n : DWord) (y : Bool) : (s.startBundle n y).portsErr = s.portsErr := rfl
@[simp] theorem State.startBundle_mapped (n : DWord) (y : Bool) : (s.startBundle n y).mapped = s.mapped := rfl
@[simp] theorem State.startBundle_devices (n : DWord) (y : Bool) : (s.startBundle n y).devices = s.devices := rfl
@[simp] theorem State.startBundle_window (n : DWord) (y : Bool) : (s.startBundle n y).window = s.window := rfl
@[simp] theorem State.startBundle_hostOut (n : DWord) (y : Bool) : (s.startBundle n y).hostOut = s.hostOut := rfl
@[simp] theorem State.startBundle_exportOut (n : DWord) (y : Bool) : (s.startBundle n y).exportOut = s.exportOut := rfl
@[simp] theorem State.startBundle_msix (n : DWord) (y : Bool) : (s.startBundle n y).msix = s.msix := rfl
@[simp] theorem State.startBundle_mailbox (n : DWord) (y : Bool) : (s.startBundle n y).mailbox = s.mailbox := rfl
@[simp] theorem State.startBundle_health (n : DWord) (y : Bool) : (s.startBundle n y).health = s.health := rfl
@[simp] theorem State.startBundle_tally (n : DWord) (y : Bool) : (s.startBundle n y).tally = s.tally := rfl
@[simp] theorem State.startBundle_throttle (n : DWord) (y : Bool) : (s.startBundle n y).throttle = s.throttle := rfl
@[simp] theorem State.startBundle_dbg (n : DWord) (y : Bool) : (s.startBundle n y).dbg = s.dbg := rfl
@[simp] theorem State.startBundle_powered (n : DWord) (y : Bool) : (s.startBundle n y).powered = s.powered := rfl
@[simp] theorem State.startBundle_stage (n : DWord) (y : Bool) : (s.startBundle n y).stage = s.stage := rfl
@[simp] theorem State.startBundle_mediaBad (n : DWord) (y : Bool) : (s.startBundle n y).mediaBad = s.mediaBad := rfl
@[simp] theorem State.startBundle_inbox (n : DWord) (y : Bool) : (s.startBundle n y).inbox = s.inbox := rfl
@[simp] theorem State.startBundle_outside (n : DWord) (y : Bool) : (s.startBundle n y).outside = s.outside := rfl
@[simp] theorem State.startBundle_oracle (n : DWord) (y : Bool) : (s.startBundle n y).oracle = s.oracle := rfl
@[simp] theorem State.startBundle_free (n : DWord) (y : Bool) : (s.startBundle n y).free = s.free := rfl
@[simp] theorem State.startBundle_engAt (n : DWord) (y : Bool) : (s.startBundle n y).engAt = s.engAt := rfl
@[simp] theorem State.startBundle_copyAt (n : DWord) (y : Bool) : (s.startBundle n y).copyAt = s.copyAt := rfl
@[simp] theorem State.startBundle_ruleAt (n : DWord) (y : Bool) : (s.startBundle n y).ruleAt = s.ruleAt := rfl
@[simp] theorem State.startBundle_reply (n : DWord) (y : Bool) : (s.startBundle n y).reply = s.reply := rfl
@[simp] theorem State.startBundle_bank_accs (n : DWord) (y : Bool) : (s.startBundle n y).bank.accs = s.bank.accs := rfl
@[simp] theorem State.startBundle_bank_streams (n : DWord) (y : Bool) : (s.startBundle n y).bank.streams = s.bank.streams := rfl
@[simp] theorem State.startBundle_bank_eng (n : DWord) (y : Bool) : (s.startBundle n y).bank.eng = s.bank.eng := rfl
@[simp] theorem State.startBundle_bank_seq (n : DWord) (y : Bool) : (s.startBundle n y).bank.seq = s.bank.seq := rfl
@[simp] theorem State.startBundle_bank_slots (n : DWord) (y : Bool) : (s.startBundle n y).bank.slots = s.bank.slots := rfl
@[simp] theorem State.startBundle_bank_rules (n : DWord) (y : Bool) : (s.startBundle n y).bank.rules = s.bank.rules := rfl
@[simp] theorem State.startBundle_bank_round (n : DWord) (y : Bool) : (s.startBundle n y).bank.round = s.bank.round := rfl
@[simp] theorem State.startBundle_bank_installs (n : DWord) (y : Bool) : (s.startBundle n y).bank.installs = s.bank.installs := rfl
@[simp] theorem State.startBundle_bank_held (n : DWord) (y : Bool) : (s.startBundle n y).bank.held = s.bank.held := rfl
@[simp] theorem State.startBundle_bank_chans (n : DWord) (y : Bool) : (s.startBundle n y).bank.chans = s.bank.chans := rfl
@[simp] theorem State.startBundle_bank_pqwin (n : DWord) (y : Bool) : (s.startBundle n y).bank.pqwin = s.bank.pqwin := rfl
@[simp] theorem State.startBundle_bank_screen (n : DWord) (y : Bool) : (s.startBundle n y).bank.screen = s.bank.screen := rfl
@[simp] theorem State.startBundle_bank_recm (n : DWord) (y : Bool) : (s.startBundle n y).bank.recm = s.bank.recm := rfl
@[simp] theorem State.startBundle_bank_joint (n : DWord) (y : Bool) : (s.startBundle n y).bank.joint = s.bank.joint := rfl
@[simp] theorem State.startBundle_bank_run (n : DWord) (y : Bool) : (s.startBundle n y).bank.run = s.bank.run := rfl
@[simp] theorem State.startBundle_bank_uid (n : DWord) (y : Bool) : (s.startBundle n y).bank.uid = s.bank.uid := rfl
@[simp] theorem State.startBundle_bank_pad (n : DWord) (y : Bool) : (s.startBundle n y).bank.pad = s.bank.pad := rfl

/-! ## atWord -/

@[simp] theorem State.atWord_pt (i : DWord) : (s.atWord i).pt = s.pt := rfl
@[simp] theorem State.atWord_wall (i : DWord) : (s.atWord i).wall = s.wall := rfl
@[simp] theorem State.atWord_reads (i : DWord) : (s.atWord i).reads = s.reads := rfl
@[simp] theorem State.atWord_reader (i : DWord) : (s.atWord i).reader = s.reader := rfl
@[simp] theorem State.atWord_monitors (i : DWord) : (s.atWord i).monitors = s.monitors := rfl
@[simp] theorem State.atWord_sampled (i : DWord) : (s.atWord i).sampled = s.sampled := rfl
@[simp] theorem State.atWord_phase (i : DWord) : (s.atWord i).phase = s.phase := rfl
@[simp] theorem State.atWord_shadow (i : DWord) : (s.atWord i).shadow = s.shadow := rfl
@[simp] theorem State.atWord_areas (i : DWord) : (s.atWord i).areas = s.areas := rfl
@[simp] theorem State.atWord_heldAreas (i : DWord) : (s.atWord i).heldAreas = s.heldAreas := rfl
@[simp] theorem State.atWord_freezes (i : DWord) : (s.atWord i).freezes = s.freezes := rfl
@[simp] theorem State.atWord_board (i : DWord) : (s.atWord i).board = s.board := rfl
@[simp] theorem State.atWord_restoreAt (i : DWord) : (s.atWord i).restoreAt = s.restoreAt := rfl
@[simp] theorem State.atWord_srPend (i : DWord) : (s.atWord i).srPend = s.srPend := rfl
@[simp] theorem State.atWord_evSets (i : DWord) : (s.atWord i).evSets = s.evSets := rfl
@[simp] theorem State.atWord_turn (i : DWord) : (s.atWord i).turn = s.turn := rfl
@[simp] theorem State.atWord_die (i : DWord) : (s.atWord i).die = s.die := rfl
@[simp] theorem State.atWord_core (i : DWord) : (s.atWord i).core = s.core := rfl
@[simp] theorem State.atWord_verdict (i : DWord) : (s.atWord i).verdict = s.verdict := rfl
@[simp] theorem State.atWord_mem (i : DWord) : (s.atWord i).mem = s.mem := rfl
@[simp] theorem State.atWord_pend (i : DWord) : (s.atWord i).pend = s.pend := rfl
@[simp] theorem State.atWord_held (i : DWord) : (s.atWord i).held = s.held := rfl
@[simp] theorem State.atWord_rels (i : DWord) : (s.atWord i).rels = s.rels := rfl
@[simp] theorem State.atWord_tlb (i : DWord) : (s.atWord i).tlb = s.tlb := rfl
@[simp] theorem State.atWord_walk (i : DWord) : (s.atWord i).walk = s.walk := rfl
@[simp] theorem State.atWord_walks (i : DWord) : (s.atWord i).walks = s.walks := rfl
@[simp] theorem State.atWord_refresh (i : DWord) : (s.atWord i).refresh = s.refresh := rfl
@[simp] theorem State.atWord_svcPend (i : DWord) : (s.atWord i).svcPend = s.svcPend := rfl
@[simp] theorem State.atWord_stopPend (i : DWord) : (s.atWord i).stopPend = s.stopPend := rfl
@[simp] theorem State.atWord_reposted (i : DWord) : (s.atWord i).reposted = s.reposted := rfl
@[simp] theorem State.atWord_gangStop (i : DWord) : (s.atWord i).gangStop = s.gangStop := rfl
@[simp] theorem State.atWord_reissue (i : DWord) : (s.atWord i).reissue = s.reissue := rfl
@[simp] theorem State.atWord_ctxs (i : DWord) : (s.atWord i).ctxs = s.ctxs := rfl
@[simp] theorem State.atWord_parts (i : DWord) : (s.atWord i).parts = s.parts := rfl
@[simp] theorem State.atWord_recs (i : DWord) : (s.atWord i).recs = s.recs := rfl
@[simp] theorem State.atWord_pushes (i : DWord) : (s.atWord i).pushes = s.pushes := rfl
@[simp] theorem State.atWord_taken (i : DWord) : (s.atWord i).taken = s.taken := rfl
@[simp] theorem State.atWord_pqs (i : DWord) : (s.atWord i).pqs = s.pqs := rfl
@[simp] theorem State.atWord_models (i : DWord) : (s.atWord i).models = s.models := rfl
@[simp] theorem State.atWord_exports (i : DWord) : (s.atWord i).exports = s.exports := rfl
@[simp] theorem State.atWord_link (i : DWord) : (s.atWord i).link = s.link := rfl
@[simp] theorem State.atWord_portsUp (i : DWord) : (s.atWord i).portsUp = s.portsUp := rfl
@[simp] theorem State.atWord_portsErr (i : DWord) : (s.atWord i).portsErr = s.portsErr := rfl
@[simp] theorem State.atWord_mapped (i : DWord) : (s.atWord i).mapped = s.mapped := rfl
@[simp] theorem State.atWord_devices (i : DWord) : (s.atWord i).devices = s.devices := rfl
@[simp] theorem State.atWord_window (i : DWord) : (s.atWord i).window = s.window := rfl
@[simp] theorem State.atWord_hostOut (i : DWord) : (s.atWord i).hostOut = s.hostOut := rfl
@[simp] theorem State.atWord_exportOut (i : DWord) : (s.atWord i).exportOut = s.exportOut := rfl
@[simp] theorem State.atWord_msix (i : DWord) : (s.atWord i).msix = s.msix := rfl
@[simp] theorem State.atWord_mailbox (i : DWord) : (s.atWord i).mailbox = s.mailbox := rfl
@[simp] theorem State.atWord_health (i : DWord) : (s.atWord i).health = s.health := rfl
@[simp] theorem State.atWord_tally (i : DWord) : (s.atWord i).tally = s.tally := rfl
@[simp] theorem State.atWord_throttle (i : DWord) : (s.atWord i).throttle = s.throttle := rfl
@[simp] theorem State.atWord_dbg (i : DWord) : (s.atWord i).dbg = s.dbg := rfl
@[simp] theorem State.atWord_powered (i : DWord) : (s.atWord i).powered = s.powered := rfl
@[simp] theorem State.atWord_stage (i : DWord) : (s.atWord i).stage = s.stage := rfl
@[simp] theorem State.atWord_mediaBad (i : DWord) : (s.atWord i).mediaBad = s.mediaBad := rfl
@[simp] theorem State.atWord_inbox (i : DWord) : (s.atWord i).inbox = s.inbox := rfl
@[simp] theorem State.atWord_outside (i : DWord) : (s.atWord i).outside = s.outside := rfl
@[simp] theorem State.atWord_oracle (i : DWord) : (s.atWord i).oracle = s.oracle := rfl
@[simp] theorem State.atWord_free (i : DWord) : (s.atWord i).free = s.free := rfl
@[simp] theorem State.atWord_engAt (i : DWord) : (s.atWord i).engAt = s.engAt := rfl
@[simp] theorem State.atWord_copyAt (i : DWord) : (s.atWord i).copyAt = s.copyAt := rfl
@[simp] theorem State.atWord_ruleAt (i : DWord) : (s.atWord i).ruleAt = s.ruleAt := rfl
@[simp] theorem State.atWord_reply (i : DWord) : (s.atWord i).reply = s.reply := rfl
@[simp] theorem State.atWord_bank_accs (i : DWord) : (s.atWord i).bank.accs = s.bank.accs := rfl
@[simp] theorem State.atWord_bank_streams (i : DWord) : (s.atWord i).bank.streams = s.bank.streams := rfl
@[simp] theorem State.atWord_bank_eng (i : DWord) : (s.atWord i).bank.eng = s.bank.eng := rfl
@[simp] theorem State.atWord_bank_seq (i : DWord) : (s.atWord i).bank.seq = s.bank.seq := rfl
@[simp] theorem State.atWord_bank_slots (i : DWord) : (s.atWord i).bank.slots = s.bank.slots := rfl
@[simp] theorem State.atWord_bank_rules (i : DWord) : (s.atWord i).bank.rules = s.bank.rules := rfl
@[simp] theorem State.atWord_bank_round (i : DWord) : (s.atWord i).bank.round = s.bank.round := rfl
@[simp] theorem State.atWord_bank_installs (i : DWord) : (s.atWord i).bank.installs = s.bank.installs := rfl
@[simp] theorem State.atWord_bank_held (i : DWord) : (s.atWord i).bank.held = s.bank.held := rfl
@[simp] theorem State.atWord_bank_chans (i : DWord) : (s.atWord i).bank.chans = s.bank.chans := rfl
@[simp] theorem State.atWord_bank_pqwin (i : DWord) : (s.atWord i).bank.pqwin = s.bank.pqwin := rfl
@[simp] theorem State.atWord_bank_screen (i : DWord) : (s.atWord i).bank.screen = s.bank.screen := rfl
@[simp] theorem State.atWord_bank_recm (i : DWord) : (s.atWord i).bank.recm = s.bank.recm := rfl
@[simp] theorem State.atWord_bank_joint (i : DWord) : (s.atWord i).bank.joint = s.bank.joint := rfl
@[simp] theorem State.atWord_bank_run (i : DWord) : (s.atWord i).bank.run = s.bank.run := rfl
@[simp] theorem State.atWord_bank_uid (i : DWord) : (s.atWord i).bank.uid = s.bank.uid := rfl
@[simp] theorem State.atWord_bank_pad (i : DWord) : (s.atWord i).bank.pad = s.bank.pad := rfl

/-! ## arrive -/

@[simp] theorem State.arrive_pt (g : Bool) : (s.arrive g).pt = s.pt := rfl
@[simp] theorem State.arrive_wall (g : Bool) : (s.arrive g).wall = s.wall := rfl
@[simp] theorem State.arrive_reads (g : Bool) : (s.arrive g).reads = s.reads := rfl
@[simp] theorem State.arrive_reader (g : Bool) : (s.arrive g).reader = s.reader := rfl
@[simp] theorem State.arrive_monitors (g : Bool) : (s.arrive g).monitors = s.monitors := rfl
@[simp] theorem State.arrive_sampled (g : Bool) : (s.arrive g).sampled = s.sampled := rfl
@[simp] theorem State.arrive_phase (g : Bool) : (s.arrive g).phase = s.phase := rfl
@[simp] theorem State.arrive_shadow (g : Bool) : (s.arrive g).shadow = s.shadow := rfl
@[simp] theorem State.arrive_areas (g : Bool) : (s.arrive g).areas = s.areas := rfl
@[simp] theorem State.arrive_heldAreas (g : Bool) : (s.arrive g).heldAreas = s.heldAreas := rfl
@[simp] theorem State.arrive_freezes (g : Bool) : (s.arrive g).freezes = s.freezes := rfl
@[simp] theorem State.arrive_board (g : Bool) : (s.arrive g).board = s.board := rfl
@[simp] theorem State.arrive_restoreAt (g : Bool) : (s.arrive g).restoreAt = s.restoreAt := rfl
@[simp] theorem State.arrive_srPend (g : Bool) : (s.arrive g).srPend = s.srPend := rfl
@[simp] theorem State.arrive_evSets (g : Bool) : (s.arrive g).evSets = s.evSets := rfl
@[simp] theorem State.arrive_turn (g : Bool) : (s.arrive g).turn = s.turn := rfl
@[simp] theorem State.arrive_die (g : Bool) : (s.arrive g).die = s.die := rfl
@[simp] theorem State.arrive_core (g : Bool) : (s.arrive g).core = s.core := rfl
@[simp] theorem State.arrive_verdict (g : Bool) : (s.arrive g).verdict = s.verdict := rfl
@[simp] theorem State.arrive_mem (g : Bool) : (s.arrive g).mem = s.mem := rfl
@[simp] theorem State.arrive_pend (g : Bool) : (s.arrive g).pend = s.pend := rfl
@[simp] theorem State.arrive_held (g : Bool) : (s.arrive g).held = s.held := rfl
@[simp] theorem State.arrive_rels (g : Bool) : (s.arrive g).rels = s.rels := rfl
@[simp] theorem State.arrive_tlb (g : Bool) : (s.arrive g).tlb = s.tlb := rfl
@[simp] theorem State.arrive_walk (g : Bool) : (s.arrive g).walk = s.walk := rfl
@[simp] theorem State.arrive_walks (g : Bool) : (s.arrive g).walks = s.walks := rfl
@[simp] theorem State.arrive_refresh (g : Bool) : (s.arrive g).refresh = s.refresh := rfl
@[simp] theorem State.arrive_svcPend (g : Bool) : (s.arrive g).svcPend = s.svcPend := rfl
@[simp] theorem State.arrive_stopPend (g : Bool) : (s.arrive g).stopPend = s.stopPend := rfl
@[simp] theorem State.arrive_reposted (g : Bool) : (s.arrive g).reposted = s.reposted := rfl
@[simp] theorem State.arrive_gangStop (g : Bool) : (s.arrive g).gangStop = s.gangStop := rfl
@[simp] theorem State.arrive_reissue (g : Bool) : (s.arrive g).reissue = s.reissue := rfl
@[simp] theorem State.arrive_ctxs (g : Bool) : (s.arrive g).ctxs = s.ctxs := rfl
@[simp] theorem State.arrive_parts (g : Bool) : (s.arrive g).parts = s.parts := rfl
@[simp] theorem State.arrive_recs (g : Bool) : (s.arrive g).recs = s.recs := rfl
@[simp] theorem State.arrive_pushes (g : Bool) : (s.arrive g).pushes = s.pushes := rfl
@[simp] theorem State.arrive_taken (g : Bool) : (s.arrive g).taken = s.taken := rfl
@[simp] theorem State.arrive_pqs (g : Bool) : (s.arrive g).pqs = s.pqs := rfl
@[simp] theorem State.arrive_models (g : Bool) : (s.arrive g).models = s.models := rfl
@[simp] theorem State.arrive_exports (g : Bool) : (s.arrive g).exports = s.exports := rfl
@[simp] theorem State.arrive_link (g : Bool) : (s.arrive g).link = s.link := rfl
@[simp] theorem State.arrive_portsUp (g : Bool) : (s.arrive g).portsUp = s.portsUp := rfl
@[simp] theorem State.arrive_portsErr (g : Bool) : (s.arrive g).portsErr = s.portsErr := rfl
@[simp] theorem State.arrive_mapped (g : Bool) : (s.arrive g).mapped = s.mapped := rfl
@[simp] theorem State.arrive_devices (g : Bool) : (s.arrive g).devices = s.devices := rfl
@[simp] theorem State.arrive_window (g : Bool) : (s.arrive g).window = s.window := rfl
@[simp] theorem State.arrive_hostOut (g : Bool) : (s.arrive g).hostOut = s.hostOut := rfl
@[simp] theorem State.arrive_exportOut (g : Bool) : (s.arrive g).exportOut = s.exportOut := rfl
@[simp] theorem State.arrive_msix (g : Bool) : (s.arrive g).msix = s.msix := rfl
@[simp] theorem State.arrive_mailbox (g : Bool) : (s.arrive g).mailbox = s.mailbox := rfl
@[simp] theorem State.arrive_health (g : Bool) : (s.arrive g).health = s.health := rfl
@[simp] theorem State.arrive_tally (g : Bool) : (s.arrive g).tally = s.tally := rfl
@[simp] theorem State.arrive_throttle (g : Bool) : (s.arrive g).throttle = s.throttle := rfl
@[simp] theorem State.arrive_dbg (g : Bool) : (s.arrive g).dbg = s.dbg := rfl
@[simp] theorem State.arrive_powered (g : Bool) : (s.arrive g).powered = s.powered := rfl
@[simp] theorem State.arrive_stage (g : Bool) : (s.arrive g).stage = s.stage := rfl
@[simp] theorem State.arrive_mediaBad (g : Bool) : (s.arrive g).mediaBad = s.mediaBad := rfl
@[simp] theorem State.arrive_inbox (g : Bool) : (s.arrive g).inbox = s.inbox := rfl
@[simp] theorem State.arrive_outside (g : Bool) : (s.arrive g).outside = s.outside := rfl
@[simp] theorem State.arrive_oracle (g : Bool) : (s.arrive g).oracle = s.oracle := rfl
@[simp] theorem State.arrive_free (g : Bool) : (s.arrive g).free = s.free := rfl
@[simp] theorem State.arrive_engAt (g : Bool) : (s.arrive g).engAt = s.engAt := rfl
@[simp] theorem State.arrive_copyAt (g : Bool) : (s.arrive g).copyAt = s.copyAt := rfl
@[simp] theorem State.arrive_ruleAt (g : Bool) : (s.arrive g).ruleAt = s.ruleAt := rfl
@[simp] theorem State.arrive_reply (g : Bool) : (s.arrive g).reply = s.reply := rfl
@[simp] theorem State.arrive_bank_accs (g : Bool) : (s.arrive g).bank.accs = s.bank.accs := rfl
@[simp] theorem State.arrive_bank_streams (g : Bool) : (s.arrive g).bank.streams = s.bank.streams := rfl
@[simp] theorem State.arrive_bank_eng (g : Bool) : (s.arrive g).bank.eng = s.bank.eng := rfl
@[simp] theorem State.arrive_bank_seq (g : Bool) : (s.arrive g).bank.seq = s.bank.seq := rfl
@[simp] theorem State.arrive_bank_slots (g : Bool) : (s.arrive g).bank.slots = s.bank.slots := rfl
@[simp] theorem State.arrive_bank_rules (g : Bool) : (s.arrive g).bank.rules = s.bank.rules := rfl
@[simp] theorem State.arrive_bank_round (g : Bool) : (s.arrive g).bank.round = s.bank.round := rfl
@[simp] theorem State.arrive_bank_installs (g : Bool) : (s.arrive g).bank.installs = s.bank.installs := rfl
@[simp] theorem State.arrive_bank_held (g : Bool) : (s.arrive g).bank.held = s.bank.held := rfl
@[simp] theorem State.arrive_bank_chans (g : Bool) : (s.arrive g).bank.chans = s.bank.chans := rfl
@[simp] theorem State.arrive_bank_pqwin (g : Bool) : (s.arrive g).bank.pqwin = s.bank.pqwin := rfl
@[simp] theorem State.arrive_bank_screen (g : Bool) : (s.arrive g).bank.screen = s.bank.screen := rfl
@[simp] theorem State.arrive_bank_recm (g : Bool) : (s.arrive g).bank.recm = s.bank.recm := rfl
@[simp] theorem State.arrive_bank_joint (g : Bool) : (s.arrive g).bank.joint = s.bank.joint := rfl
@[simp] theorem State.arrive_bank_run (g : Bool) : (s.arrive g).bank.run = s.bank.run := rfl
@[simp] theorem State.arrive_bank_uid (g : Bool) : (s.arrive g).bank.uid = s.bank.uid := rfl
@[simp] theorem State.arrive_bank_pad (g : Bool) : (s.arrive g).bank.pad = s.bank.pad := rfl

/-! ## waitFor -/

@[simp] theorem State.waitFor_pt (w : Waits) : (s.waitFor w).pt = s.pt := rfl
@[simp] theorem State.waitFor_wall (w : Waits) : (s.waitFor w).wall = s.wall := rfl
@[simp] theorem State.waitFor_reads (w : Waits) : (s.waitFor w).reads = s.reads := rfl
@[simp] theorem State.waitFor_reader (w : Waits) : (s.waitFor w).reader = s.reader := rfl
@[simp] theorem State.waitFor_monitors (w : Waits) : (s.waitFor w).monitors = s.monitors := rfl
@[simp] theorem State.waitFor_sampled (w : Waits) : (s.waitFor w).sampled = s.sampled := rfl
@[simp] theorem State.waitFor_phase (w : Waits) : (s.waitFor w).phase = s.phase := rfl
@[simp] theorem State.waitFor_shadow (w : Waits) : (s.waitFor w).shadow = s.shadow := rfl
@[simp] theorem State.waitFor_areas (w : Waits) : (s.waitFor w).areas = s.areas := rfl
@[simp] theorem State.waitFor_heldAreas (w : Waits) : (s.waitFor w).heldAreas = s.heldAreas := rfl
@[simp] theorem State.waitFor_freezes (w : Waits) : (s.waitFor w).freezes = s.freezes := rfl
@[simp] theorem State.waitFor_board (w : Waits) : (s.waitFor w).board = s.board := rfl
@[simp] theorem State.waitFor_restoreAt (w : Waits) : (s.waitFor w).restoreAt = s.restoreAt := rfl
@[simp] theorem State.waitFor_srPend (w : Waits) : (s.waitFor w).srPend = s.srPend := rfl
@[simp] theorem State.waitFor_evSets (w : Waits) : (s.waitFor w).evSets = s.evSets := rfl
@[simp] theorem State.waitFor_turn (w : Waits) : (s.waitFor w).turn = s.turn := rfl
@[simp] theorem State.waitFor_die (w : Waits) : (s.waitFor w).die = s.die := rfl
@[simp] theorem State.waitFor_core (w : Waits) : (s.waitFor w).core = s.core := rfl
@[simp] theorem State.waitFor_verdict (w : Waits) : (s.waitFor w).verdict = s.verdict := rfl
@[simp] theorem State.waitFor_mem (w : Waits) : (s.waitFor w).mem = s.mem := rfl
@[simp] theorem State.waitFor_pend (w : Waits) : (s.waitFor w).pend = s.pend := rfl
@[simp] theorem State.waitFor_held (w : Waits) : (s.waitFor w).held = s.held := rfl
@[simp] theorem State.waitFor_rels (w : Waits) : (s.waitFor w).rels = s.rels := rfl
@[simp] theorem State.waitFor_tlb (w : Waits) : (s.waitFor w).tlb = s.tlb := rfl
@[simp] theorem State.waitFor_walk (w : Waits) : (s.waitFor w).walk = s.walk := rfl
@[simp] theorem State.waitFor_walks (w : Waits) : (s.waitFor w).walks = s.walks := rfl
@[simp] theorem State.waitFor_refresh (w : Waits) : (s.waitFor w).refresh = s.refresh := rfl
@[simp] theorem State.waitFor_svcPend (w : Waits) : (s.waitFor w).svcPend = s.svcPend := rfl
@[simp] theorem State.waitFor_stopPend (w : Waits) : (s.waitFor w).stopPend = s.stopPend := rfl
@[simp] theorem State.waitFor_reposted (w : Waits) : (s.waitFor w).reposted = s.reposted := rfl
@[simp] theorem State.waitFor_gangStop (w : Waits) : (s.waitFor w).gangStop = s.gangStop := rfl
@[simp] theorem State.waitFor_reissue (w : Waits) : (s.waitFor w).reissue = s.reissue := rfl
@[simp] theorem State.waitFor_ctxs (w : Waits) : (s.waitFor w).ctxs = s.ctxs := rfl
@[simp] theorem State.waitFor_parts (w : Waits) : (s.waitFor w).parts = s.parts := rfl
@[simp] theorem State.waitFor_recs (w : Waits) : (s.waitFor w).recs = s.recs := rfl
@[simp] theorem State.waitFor_pushes (w : Waits) : (s.waitFor w).pushes = s.pushes := rfl
@[simp] theorem State.waitFor_taken (w : Waits) : (s.waitFor w).taken = s.taken := rfl
@[simp] theorem State.waitFor_pqs (w : Waits) : (s.waitFor w).pqs = s.pqs := rfl
@[simp] theorem State.waitFor_models (w : Waits) : (s.waitFor w).models = s.models := rfl
@[simp] theorem State.waitFor_exports (w : Waits) : (s.waitFor w).exports = s.exports := rfl
@[simp] theorem State.waitFor_link (w : Waits) : (s.waitFor w).link = s.link := rfl
@[simp] theorem State.waitFor_portsUp (w : Waits) : (s.waitFor w).portsUp = s.portsUp := rfl
@[simp] theorem State.waitFor_portsErr (w : Waits) : (s.waitFor w).portsErr = s.portsErr := rfl
@[simp] theorem State.waitFor_mapped (w : Waits) : (s.waitFor w).mapped = s.mapped := rfl
@[simp] theorem State.waitFor_devices (w : Waits) : (s.waitFor w).devices = s.devices := rfl
@[simp] theorem State.waitFor_window (w : Waits) : (s.waitFor w).window = s.window := rfl
@[simp] theorem State.waitFor_hostOut (w : Waits) : (s.waitFor w).hostOut = s.hostOut := rfl
@[simp] theorem State.waitFor_exportOut (w : Waits) : (s.waitFor w).exportOut = s.exportOut := rfl
@[simp] theorem State.waitFor_msix (w : Waits) : (s.waitFor w).msix = s.msix := rfl
@[simp] theorem State.waitFor_mailbox (w : Waits) : (s.waitFor w).mailbox = s.mailbox := rfl
@[simp] theorem State.waitFor_health (w : Waits) : (s.waitFor w).health = s.health := rfl
@[simp] theorem State.waitFor_tally (w : Waits) : (s.waitFor w).tally = s.tally := rfl
@[simp] theorem State.waitFor_throttle (w : Waits) : (s.waitFor w).throttle = s.throttle := rfl
@[simp] theorem State.waitFor_dbg (w : Waits) : (s.waitFor w).dbg = s.dbg := rfl
@[simp] theorem State.waitFor_powered (w : Waits) : (s.waitFor w).powered = s.powered := rfl
@[simp] theorem State.waitFor_stage (w : Waits) : (s.waitFor w).stage = s.stage := rfl
@[simp] theorem State.waitFor_mediaBad (w : Waits) : (s.waitFor w).mediaBad = s.mediaBad := rfl
@[simp] theorem State.waitFor_inbox (w : Waits) : (s.waitFor w).inbox = s.inbox := rfl
@[simp] theorem State.waitFor_outside (w : Waits) : (s.waitFor w).outside = s.outside := rfl
@[simp] theorem State.waitFor_oracle (w : Waits) : (s.waitFor w).oracle = s.oracle := rfl
@[simp] theorem State.waitFor_free (w : Waits) : (s.waitFor w).free = s.free := rfl
@[simp] theorem State.waitFor_engAt (w : Waits) : (s.waitFor w).engAt = s.engAt := rfl
@[simp] theorem State.waitFor_copyAt (w : Waits) : (s.waitFor w).copyAt = s.copyAt := rfl
@[simp] theorem State.waitFor_ruleAt (w : Waits) : (s.waitFor w).ruleAt = s.ruleAt := rfl
@[simp] theorem State.waitFor_reply (w : Waits) : (s.waitFor w).reply = s.reply := rfl
@[simp] theorem State.waitFor_bank_accs (w : Waits) : (s.waitFor w).bank.accs = s.bank.accs := rfl
@[simp] theorem State.waitFor_bank_streams (w : Waits) : (s.waitFor w).bank.streams = s.bank.streams := rfl
@[simp] theorem State.waitFor_bank_eng (w : Waits) : (s.waitFor w).bank.eng = s.bank.eng := rfl
@[simp] theorem State.waitFor_bank_seq (w : Waits) : (s.waitFor w).bank.seq = s.bank.seq := rfl
@[simp] theorem State.waitFor_bank_slots (w : Waits) : (s.waitFor w).bank.slots = s.bank.slots := rfl
@[simp] theorem State.waitFor_bank_rules (w : Waits) : (s.waitFor w).bank.rules = s.bank.rules := rfl
@[simp] theorem State.waitFor_bank_round (w : Waits) : (s.waitFor w).bank.round = s.bank.round := rfl
@[simp] theorem State.waitFor_bank_installs (w : Waits) : (s.waitFor w).bank.installs = s.bank.installs := rfl
@[simp] theorem State.waitFor_bank_held (w : Waits) : (s.waitFor w).bank.held = s.bank.held := rfl
@[simp] theorem State.waitFor_bank_chans (w : Waits) : (s.waitFor w).bank.chans = s.bank.chans := rfl
@[simp] theorem State.waitFor_bank_pqwin (w : Waits) : (s.waitFor w).bank.pqwin = s.bank.pqwin := rfl
@[simp] theorem State.waitFor_bank_screen (w : Waits) : (s.waitFor w).bank.screen = s.bank.screen := rfl
@[simp] theorem State.waitFor_bank_recm (w : Waits) : (s.waitFor w).bank.recm = s.bank.recm := rfl
@[simp] theorem State.waitFor_bank_joint (w : Waits) : (s.waitFor w).bank.joint = s.bank.joint := rfl
@[simp] theorem State.waitFor_bank_run (w : Waits) : (s.waitFor w).bank.run = s.bank.run := rfl
@[simp] theorem State.waitFor_bank_uid (w : Waits) : (s.waitFor w).bank.uid = s.bank.uid := rfl
@[simp] theorem State.waitFor_bank_pad (w : Waits) : (s.waitFor w).bank.pad = s.bank.pad := rfl

/-! ## Agents -/

@[simp] theorem State.mapBank_bank (f : Bank → Bank) : (s.mapBank f).bank = f s.bank := rfl

@[simp] theorem State.wr_mem (k : Nat) (bs : List Byte) : (s.wr k bs).mem = s.mem.writeN k bs := rfl

@[simp] theorem State.agent_mapAgent (a : AgentId) (f : Agent → Agent) : (s.mapAgent a f).agent a = f (s.agent a) := by
  simp [State.agent, State.mapAgent, State.mapBank]

theorem State.agent_mapAgent_ne {a b : AgentId} (h : a ≠ b) (f : Agent → Agent) :
    (s.mapAgent a f).agent b = s.agent b := by
  have h' : (a : Nat) ≠ b := fun e => h (Fin.ext e)
  simp [State.agent, State.mapAgent, State.mapBank, Vector.getElem_set_ne, h']

@[simp] theorem State.cur_mapCur (f : Agent → Agent) : (s.mapCur f).cur = f s.cur := by
  simp [State.cur, State.mapCur]

@[simp] theorem State.cur_mapBun (f : Bun → Bun) : (s.mapBun f).cur = { s.cur with bun := f s.cur.bun } := by
  simp [State.mapBun]

theorem State.agent_mapCur_ne {b : AgentId} (h : s.turn ≠ b) (f : Agent → Agent) : (s.mapCur f).agent b = s.agent b :=
  s.agent_mapAgent_ne h f

@[simp] theorem State.agent_mapBank_uid (n : Nat) (a : AgentId) :
    (s.mapBank fun b => { b with uid := n }).agent a = s.agent a := rfl

/-- A delivery is the agent's buffer with one more result. -/
@[simp] theorem State.cur_deliver (c : LCls) (d : Opnd) (w : Bool) (v : DWord) (vv : Vec) (r : Ready) (f : BitVec 7)
    (m : Option Mark) :
    (s.deliver c d w v vv r f m).cur
      = { s.cur with bun := s.cur.bun.push (newLatch s.bank.uid c d w v vv r f m) } := by
  unfold State.deliver
  rw [State.cur_mapBun]
  rfl

@[simp] theorem State.deliver_uid (c : LCls) (d : Opnd) (w : Bool) (v : DWord) (vv : Vec) (r : Ready) (f : BitVec 7)
    (m : Option Mark) : (s.deliver c d w v vv r f m).bank.uid = s.bank.uid + 1 := rfl

theorem State.agent_deliver_ne {b : AgentId} (h : s.turn ≠ b) (c : LCls) (d : Opnd) (w : Bool) (v : DWord) (vv : Vec)
    (r : Ready) (f : BitVec 7) (m : Option Mark) : (s.deliver c d w v vv r f m).agent b = s.agent b := by
  unfold State.deliver State.mapBun
  exact State.agent_mapCur_ne (s := s.mapBank _) h _

end Sys2Proof.Machine
end

