-- ==== Sys2Proof/Laws/Ops.lean ====
section
/-! SUPPORT. What each shared operation can do, said once: how a result becomes a step, what the operand reads give, and
what the shapes of the instruction families deliver. -/

namespace Sys2Proof.Machine

/-! ## Outcomes -/

@[simp] theorem finish_ok (s t : State) : s.finish (.ok t) = .next t := rfl

@[simp] theorem finish_wait (s : State) (w : Waits) :
    s.finish (.error (.wait w)) = .next { s with verdict := .stall w } := rfl

@[simp] theorem finish_freeze (s : State) (f : Freeze) (w : Option Walk) :
    s.finish (.error (.freeze f w)) = .next { s with
      verdict := .stall .frozen
      freezes := s.freezes ++ [f]
      walk := w
      held := if f.why = .board then s.held.filter fun h => h.agent != s.turn else s.held } :=
  rfl

@[simp] theorem finish_trap (s : State) (t : TrapReq) :
    s.finish (.error (.trap t)) = .next { s.takeTrap t with verdict := .trapped t.early } := rfl

@[simp] theorem finish_trapNow (s : State) (c b : Byte) (x : DWord) :
    s.finish (s.trapNow c b x) = .next { s.takeTrap (s.trapAt c b x) with verdict := .trapped false } := rfl

/-- An instruction ends in a next state whatever becomes of it. -/
theorem finish_next (s : State) (r : Except Stop State) : ∃ t, s.finish r = .next t := by
  match r with
  | .ok t => exact ⟨t, rfl⟩
  | .error (.wait w) => exact ⟨_, rfl⟩
  | .error (.freeze f w) => exact ⟨_, rfl⟩
  | .error (.trap t) => exact ⟨_, rfl⟩

/-- A next state whose verdict is `ok` is the one the meaning made: nothing waited, froze or trapped. -/
theorem finish_verdict {s t : State} {r : Except Stop State} (h : s.finish r = .next t) (v : t.verdict = .ok) :
    r = .ok t := by
  match r with
  | .ok u => rw [finish_ok] at h; cases h; rfl
  | .error (.wait w) => rw [finish_wait] at h; cases h; exact absurd v (by simp)
  | .error (.freeze f w) => rw [finish_freeze] at h; cases h; exact absurd v (by simp)
  | .error (.trap q) => rw [finish_trap] at h; cases h; exact absurd v (by simp)

/-- A test picks out no write that a copy holds back where none is pending. -/
theorem heldBack_nil {s : State} (h : s.pend = []) (p : PendW → Bool) : s.heldBack p = false := by
  simp [State.heldBack, State.heldBackGo, h]

/-- Where no write is pending none is performed because it fails. -/
theorem failPending_nil {s : State} (h : s.pend = []) (p : Path → Bool) : s.failPending p = s := by
  simp [State.failPending, State.flushWhere, h]

/-- With no deferred error of the agent and no pending write an instruction that waits for writes ends as any other. -/
theorem finishWaiting_eq {s : State} (h : s.cur.deferred = []) (hp : s.pend = []) (p : Path → Bool) (r : Except Stop State) :
    s.finishWaiting p r = s.finish r := by
  cases r with
  | error e => rfl
  | ok t => simp [State.finishWaiting, heldBack_nil hp, failPending_nil hp, State.deferredStop, h]

theorem finishOrdered_eq {s : State} (h : s.cur.deferred = []) (hp : s.pend = []) (r : Except Stop State) :
    s.finishOrdered r = s.finish r := finishWaiting_eq h hp _ r

theorem finishWaiting_next (s : State) (p : Path → Bool) (r : Except Stop State) : ∃ t, s.finishWaiting p r = .next t := by
  cases r with
  | error e => exact finish_next s _
  | ok t =>
    simp only [State.finishWaiting]
    split
    · exact finish_next s _
    · split <;> exact ⟨_, rfl⟩

theorem finishOrdered_next (s : State) (r : Except Stop State) : ∃ t, s.finishOrdered r = .next t := finishWaiting_next s _ r

theorem finishWaiting_verdict {s t : State} {p : Path → Bool} {r : Except Stop State} (h : s.finishWaiting p r = .next t)
    (v : t.verdict = .ok) : r = .ok t := by
  cases r with
  | error e => exact finish_verdict h v
  | ok u =>
    simp only [State.finishWaiting] at h
    split at h
    · rw [finish_wait] at h; cases h; exact absurd v (by simp)
    · split at h
      · cases h; exact absurd v (by simp)
      · cases h; rfl

theorem finishOrdered_verdict {s t : State} {r : Except Stop State} (h : s.finishOrdered r = .next t)
    (v : t.verdict = .ok) : r = .ok t := finishWaiting_verdict h v

/-! ## Operand reads -/

theorem rd32_ok {s : State} {o : Opnd} (h : Readable s o .w32) : s.rd32 o = .ok (s.val32 o) := by
  unfold Readable at h; simp [State.rd32, h]

theorem rd64_ok {s : State} {o : Opnd} (h : Readable s o .w64) : s.rd64 o = .ok (s.val64 o) := by
  unfold Readable at h; simp [State.rd64, h]

theorem rdV_ok {s : State} {one : Word} {o : Opnd} (h : Readable s o .vec) : s.rdV one o = .ok (s.valV one o) := by
  unfold Readable at h; simp [State.rdV, h]

theorem rdBase_ok {s : State} {bp : BitVec 4} (h : Readable s (baseOp bp) .w64) :
    s.rdBase bp = .ok (s.val64 (baseOp bp)) := rd64_ok h

/-- Special operands can always be read: no result in flight and no mark names them. -/
theorem readable_sp (s : State) (i : BitVec 5) (r : RdW) : Readable s (.sp i) r := by
  have ho : ∀ x w, overlaps x w (.sp i) (r == .w64) = false := by intro x w; cases x <;> rfl
  have hf : ∀ l : List RegMark, l.find? (fun _ => false) = none := by intro l; induction l <;> simp_all
  simp [Readable, State.check, Agent.readyOf, Agent.pendingOn, Agent.markOf, ho, hf]

/-! ## The shapes of the scalar families -/

section
variable {s : State} {sc : Sched} {d a b x : Opnd} {n : Nat}

theorem alu1_ok {f : Word → Word} (ha : Readable s a .w32) :
    s.alu1 sc d a n f = .next (s.put sc d n (f (s.val32 a))) := by
  simp [State.alu1, rd32_ok ha, bind, Except.bind, pure, Except.pure]

theorem alu2F_ok {f : Word → Word → Word} {g : Word → Word → BitVec 7} (ha : Readable s a .w32) (hb : Readable s b .w32) :
    s.alu2F sc d a b n f g = .next (s.putF sc d n (f (s.val32 a) (s.val32 b)) (g (s.val32 a) (s.val32 b))) := by
  simp [State.alu2F, rd32_ok ha, rd32_ok hb, bind, Except.bind, pure, Except.pure]

theorem alu2_ok {f : Word → Word → Word} (ha : Readable s a .w32) (hb : Readable s b .w32) :
    s.alu2 sc d a b n f = .next (s.put sc d n (f (s.val32 a) (s.val32 b))) := alu2F_ok ha hb

theorem alu3_ok {f : Word → Word → Word → Word} (ha : Readable s a .w32) (hb : Readable s b .w32)
    (hx : Readable s x .w32) :
    s.alu3 sc d a b x n f = .next (s.put sc d n (f (s.val32 a) (s.val32 b) (s.val32 x))) := by
  simp [State.alu3, rd32_ok ha, rd32_ok hb, rd32_ok hx, bind, Except.bind, pure, Except.pure]

theorem pair1_ok {f : DWord → DWord} (ha : Readable s a .w64) :
    s.pair1 sc d a n f = .next (s.put64 sc d n (f (s.val64 a))) := by
  simp [State.pair1, rd64_ok ha, bind, Except.bind, pure, Except.pure]

theorem pair2_ok {f : DWord → DWord → DWord} (ha : Readable s a .w64) (hb : Readable s b .w64) :
    s.pair2 sc d a b n f = .next (s.put64 sc d n (f (s.val64 a) (s.val64 b))) := by
  simp [State.pair2, rd64_ok ha, rd64_ok hb, bind, Except.bind, pure, Except.pure]

/-! ## The shapes of the vector families -/

theorem vec1_ok {t : Ty} {m : Gov} {f : Word → Word × BitVec 7} (ha : Readable s a .vec) :
    s.vec1 sc d a t m n f = .next (s.putLanes sc d n m fun i => f (lane (s.valV (tyOne t) a) i)) := by
  simp [State.vec1, rdV_ok ha, bind, Except.bind, pure, Except.pure]

theorem vec2_ok {t : Ty} {m : Gov} {f : Word → Word → Word × BitVec 7} (ha : Readable s a .vec) (hb : Readable s b .vec) :
    s.vec2 sc d a b t m n f
      = .next (s.putLanes sc d n m fun i => f (lane (s.valV (tyOne t) a) i) (lane (s.valV (tyOne t) b) i)) := by
  simp [State.vec2, rdV_ok ha, rdV_ok hb, bind, Except.bind, pure, Except.pure]

theorem vec3_ok {t : Ty} {m : Gov} {f : Word → Word → Word → Word × BitVec 7} (ha : Readable s a .vec)
    (hb : Readable s b .vec) (hx : Readable s x .vec) :
    s.vec3 sc d a b x t m n f
      = .next (s.putLanes sc d n m fun i =>
          f (lane (s.valV (tyOne t) a) i) (lane (s.valV (tyOne t) b) i) (lane (s.valV (tyOne t) x) i)) := by
  simp [State.vec3, rdV_ok ha, rdV_ok hb, rdV_ok hx, bind, Except.bind, pure, Except.pure]

end

end Sys2Proof.Machine
end

