-- ==== Sys2Proof/Tests/Slice0.lean ====
section
/-! SUPPORT. Tests: an ill-formed term for each check of well-formedness, words of every family written out from the
encoding tables, single steps with results worked by hand from the manual, and for every statement states and operands
that meet its hypotheses. -/

namespace Sys2Proof.Tests

open Sys2Proof.Machine

set_option Elab.async false

/-! ## Small states -/

/-- A core that runs a context of partition 0. -/
def base : State :=
  { State.reset with
    phase := .running
    bank := { Bank.init with run := some (placedRun 0) }
    tlb := [⟨0, 0x10000, 0x10000, 0x20000, true, true⟩, ⟨0, 0x30000, 0x1000, 0x40000, false, false⟩] }

/-- C0 changed. -/
def base.with (f : Agent → Agent) : State := base.mapCur f

/-- C0 with values in g0 to g7: a pair with an address of mapped memory stands in g4:g5. -/
def regs : State :=
  base.mapCur fun a => { a with g := Vector.ofFn fun i =>
    ([7, 0xFFFFFFFE, 0x80000000, 0xFFFFFFFF, 0x10040, 0, 0, 0x0C04] : List Word).getD i.val 0 }

/-- C0 with two vectors. -/
def vecs : State :=
  regs.mapCur fun a => { a with
    v := Vector.ofFn fun i => if i.val = 1 then mkVec (fun n => BitVec.ofNat 32 (100 - n))
      else if i.val = 2 then mkVec (fun n => BitVec.ofNat 32 (0x3F800000 + 0x00800000 * n)) else 0
    m := Vector.ofFn fun i => if i.val = 1 then 0x00F5 else 0 }

/-- The access processor at issue. -/
def onAp (s : State) : State := { s with turn := 4 }

/-- The same core in a service slice that interrupts a context. -/
def serving : State :=
  { regs with bank := { regs.bank with run := some { placedRun 0 with service := true, interrupts := true } } }

/-- The same core in a supervisor context that is defined. -/
def super : State :=
  { regs with
    bank := { regs.bank with run := some { placedRun 0 with supervisor := true } }
    ctxs := regs.ctxs.set 0 { Ctx.init with defined := true, supervisor := true } }

/-- A schedule with the nominal bound. -/
def sc0 : Sched := ⟨false, 0⟩

/-- All lanes. -/
def all : Gov := ⟨0, false⟩

/-! ## Well-formedness refuses each ill-formed field -/

/-- R14, R38: a source index beyond its level. -/
theorem test_bad_source : (Instr.add sc0 (.g 1) (.k 16) (.g 2)).wellFormed = false := by decide
/-- R16: a queue destination other than `q`. -/
theorem test_bad_destination : (Instr.add sc0 (.q 1) (.g 1) (.g 2)).wellFormed = false := by decide
/-- R24: C with a level-11 destination. -/
theorem test_bad_bound : (Instr.add ⟨false, 3⟩ (.sp 0) (.g 1) (.g 2)).wellFormed = false := by decide
/-- R19: an odd pair source. -/
theorem test_bad_pair_source : (Instr.mov64 sc0 (.g 2) (.g 3)).wellFormed = false := by decide
/-- R95: an odd pair destination. -/
theorem test_bad_pair_destination : (Instr.mov64 sc0 (.g 3) (.g 2)).wellFormed = false := by decide
/-- R40: MI = 1 with M = 0. -/
theorem test_bad_mask : (Instr.vadd sc0 (.g 1) (.g 2) (.g 3) .i32 ⟨0, true⟩).wellFormed = false := by decide
/-- R119: a float type for VINT, and n types for `vabs` and `vsra`. -/
theorem test_bad_vint_type : (Instr.vadd sc0 (.g 1) (.g 2) (.g 3) .f32 all).wellFormed = false ∧
    (Instr.vabs sc0 (.g 1) (.g 2) .n16 all).wellFormed = false ∧
    (Instr.vsra sc0 (.g 1) (.g 2) (.g 3) .n8 all).wellFormed = false := by decide
/-- R120: an integer type for VFP. -/
theorem test_bad_vfp_type : (Instr.vfadd sc0 (.g 1) (.g 2) (.g 3) .i32 all ⟨.rne, false⟩).wellFormed = false := by decide
/-- R125: t3 as a destination type. -/
theorem test_bad_cvt_type : (Instr.vcvt sc0 (.g 1) (.g 2) .t3 .f32 all ⟨.rne, false⟩).wellFormed = false := by decide
/-- R126: q = 2 for 16-bit types. -/
theorem test_bad_pack : (Instr.vpack sc0 (.g 1) (.g 2) (.g 3) .f16 2).wellFormed = false := by decide
/-- R127: q = 8 for the nibble plane. -/
theorem test_bad_pk6 : (Instr.vpk6 sc0 (.g 1) (.g 2) (.g 3) false 8).wellFormed = false := by decide
/-- R128: q = 20, and n32 as the type of `vtrit`. -/
theorem test_bad_trit : (Instr.vtritp sc0 (.g 1) (.g 2) (.g 3) 20).wellFormed = false ∧
    (Instr.vtrit sc0 (.g 1) (.g 2) .n32 0 all).wellFormed = false := by decide
/-- R130: a rounding mode with `min`, a float `and`, and `lanes` in a scan. -/
theorem test_bad_reduction : (Instr.vred sc0 (.g 1) (.g 2) .f32 .min all ⟨.rtz, false⟩).wellFormed = false ∧
    (Instr.vred sc0 (.g 1) (.g 2) .f32 .and all ⟨.rne, false⟩).wellFormed = false ∧
    (Instr.vscan sc0 (.g 1) (.g 2) .i32 .lanes all ⟨.rne, false⟩).wellFormed = false := by decide
/-- R131: i16 as a key type. -/
theorem test_bad_sort : (Instr.vsortk sc0 (.g 1) (.g 2) (.g 3) .i16 false all).wellFormed = false := by decide
/-- R134: m0 as a destination. -/
theorem test_bad_mask_destination : (Instr.mand 0 1 2).wellFormed = false := by decide
/-- R42, R149: an ordered access that is not 64-bit, and a plain one with a scope. -/
theorem test_bad_order : (Instr.ld sc0 (.g 2) 0 .w .cor true 0).wellFormed = false ∧
    (Instr.st (.g 2) 0 .d .die false 0).wellFormed = false := by decide
/-- R152: an ordered atomic of 32 bits. -/
theorem test_bad_atomic : (Instr.amoadd sc0 (.g 1) (.g 2) (.g 4) .cor .acq false).wellFormed = false := by decide
/-- R97, R100: the reserved hint, and a loop body shorter than two units. -/
theorem test_bad_branch : (Instr.br 3 8).wellFormed = false ∧ (Instr.loop (.g 1) none 0 1).wellFormed = false := by decide
/-- R113: scope 3. -/
theorem test_bad_tlbinv : (Instr.tlbinv (.g 2) (.g 4) 3).wellFormed = false := by decide
/-- R106: a register number beyond the table. -/
theorem test_bad_special_register : (Instr.rdsr sc0 (.g 1) 0x18).wellFormed = false := by decide
/-- R189, R198: an operand type that the products, and one that the drains do not take. -/
theorem test_bad_matrix_type : (Instr.mma 0 1 2 .f32 false false 0).wellFormed = false ∧
    (Instr.acdrain 0 0 0 1 .i16 false false false ⟨.rne, false⟩).wellFormed = false := by decide
/-- R198: SA named although no row scale is asked for. -/
theorem test_bad_drain_scale : (Instr.acdrain 0 1 0 1 .f32 false false false ⟨.rne, false⟩).wellFormed = false := by decide
/-- R191: a joint product over vocabulary weights with a transpose. -/
theorem test_bad_joint : (Instr.jointOperation .tmmt 0 .bf16 true false 0).wellFormed = false := by decide

/-! ## Decoding: the manual's worked words, and words written out from the format tables -/

/-- Worked words of 02, 05, 06, 07 (R54, R103, R134, R150, R153, R160). -/
theorem test_decode_scalar_memory :
    decode false 0x2019130400000000 = .ok ⟨.lidx sc0 (.k 2) 1 0, true, false⟩ ∧
    decode false 0x242E24185100D980 = .ok ⟨.vfma ⟨false, 4⟩ (.g 4) (.g 1) (.g 2) (.g 4) .f32 ⟨3, false⟩ ⟨.rne, false⟩, true, false⟩ ∧
    decode false 0x203C10100002000C = .ok ⟨.mbit 2 1 12 false, true, false⟩ ∧
    decode false 0x201E310368000000 = .ok ⟨.ld sc0 (.g 6) 2 .d .pkg true 0, true, false⟩ ∧
    decode false 0x202254491180801F = .ok ⟨.amocas sc0 (.g 10) (.g 4) (.g 8) (.g 6) .pkg .acqrel true, true, false⟩ ∧
    decode true 0x2024004020004010 = .ok ⟨.fenceX .die 4 1, true, false⟩ := by decide +kernel

/-- Worked words of 09, 10, 11 (R182, R189, R198, R207, R210, R232, R238). -/
theorem test_decode_engine :
    decode true 0x2044010000000100 = .ok ⟨.stcfg 0 2 0x100, true, false⟩ ∧
    decode false 0x2048404000024001 = .ok ⟨.mma 1 0 1 .e4m3 false false 1, true, false⟩ ∧
    decode false 0x20484C080011E000 = .ok ⟨.acdrain 1 3 0 2 .f16 true false false ⟨.rne, false⟩, true, false⟩ ∧
    decode false 0x2058010000040040 = .ok ⟨.otcfg (.q 0) 1 2 0x40, true, false⟩ ∧
    decode false 0x2059010005800080 = .ok ⟨.standInstall (.omap (.k 0) 2 0x80), true, false⟩ ∧
    decode false 0x2050004000024003 = .ok ⟨.vproj 0 0 1 .e4m3 false false 3, true, false⟩ ∧
    decode false 0x2050159000058000 = .ok ⟨.vmerge 5 6 4 0, true, false⟩ := by decide +kernel

/-- Worked words of 12, 13, 14, 15 (R248, R255, R273, R289, R299, R316, R320, R322). -/
theorem test_decode_requests :
    decode false 0x2054014601000080 = .ok ⟨.attnd (.q 0) 2 (.g 6) 0x80, true, false⟩ ∧
    decode false 0x207A414300000000 = .ok ⟨.kvxl sc0 (.g 8) 2 0 (.g 3), true, false⟩ ∧
    decode false 0x205C014302000000 = .ok ⟨.reverse (.q 0) 2 0 (.g 3), true, false⟩ ∧
    decode true 0x2061016100800040 = .ok ⟨.standInstall (.cpy (.k 0) 2 (.sp 1) 0x40), true, false⟩ ∧
    decode true 0x2060004305000001 = .ok ⟨.cpwait (.q 0) 1 (.g 3), true, false⟩ ∧
    decode true 0x2064044000000006 = .ok ⟨.qput 2 1 false (.g 4), true, false⟩ ∧
    decode false 0x2069014300000000 = .ok ⟨.spawn (.k 0) 2 0 (.g 3), true, false⟩ ∧
    decode false 0x206E343000008000 = .ok ⟨.evwait sc0 (.g 6) (.g 3), true, false⟩ ∧
    decode false 0x206C043000000001 = .ok ⟨.evsetErr (.g 3), true, false⟩ ∧
    decode false 0x2072100892000001 = .ok ⟨.pqpush sc0 (.g 2) (.g 4) (.g 8) 1, true, false⟩ ∧
    decode true 0x2074054100000001 = .ok ⟨.wrsr (.g 20) 1, true, false⟩ := by decide +kernel

/-- Words of the other families, field by field from R40, R41, R42, R44 and the FN numbers of R51. -/
theorem test_decode_by_fields :
    -- SPAIR 0x03: D g2, A g4, B g6, FN 1 sub64
    decode true 0b00_1_0_0000_000011_1000010_1000100_1000110_0000000_00000001_0000_000_0_000000#64
      = .ok ⟨.sub64 sc0 (.g 2) (.g 4) (.g 6), true, false⟩ ∧
    -- SPAIRI 0x04: D g4, A zero field, FN 1 movi64, IMM32 0x40
    decode true 0b00_1_0_0000_000100_1000100_0000000_0001_00000000000000000000000001000000#64
      = .ok ⟨.movi64 sc0 (.g 4) 0x40, true, false⟩ ∧
    -- VINT 0x0A: D v3, A v1, B v2, FN 1 vsub, T i16, M 4, MI 1
    decode false 0b00_1_0_0000_001010_1000011_1000001_1000010_0000000_00000001_0010_100_1_000000#64
      = .ok ⟨.vsub sc0 (.g 3) (.g 1) (.g 2) .i16 ⟨4, true⟩, true, false⟩ ∧
    -- VSPC 0x0C: V 01, C 4: bound 16; D v2, A v1, FN 2 vsqrt, T f16, AUX rounding RUP and saturation
    decode false 0b01_1_0_0100_001100_1000010_1000001_0000000_0000000_00000010_0111_000_0_000111#64
      = .ok ⟨.vsqrt ⟨true, 4⟩ (.g 2) (.g 1) .f16 all ⟨.rup, true⟩, true, false⟩ ∧
    -- VCVT 0x0D: D v2, A v1, FN 0 vcvt, T e4m3, AUX[5:3] source bf16
    decode false 0b00_1_0_0000_001101_1000010_1000001_0000000_0000000_00000000_1001_000_0_010000#64
      = .ok ⟨.vcvt sc0 (.g 2) (.g 1) .e4m3 .bf16 all ⟨.rne, false⟩, true, false⟩ ∧
    -- VLANE 0x0E: D v1, A v2, B g3, X k4, FN 2 vins
    decode false 0b00_1_0_0000_001110_1000001_1000010_1000011_0100100_00000010_0000_000_0_000000#64
      = .ok ⟨.vins sc0 (.g 1) (.g 2) (.g 3) (.k 4), true, false⟩ ∧
    -- VMEM 0x10: D v1, BP 2, FN 1 vst, SZ 5, SC 0, ORD 0, M 3, OFF24 -64
    decode false 0b00_1_0_0000_010000_1000001_0010_0001_101_000_00_011_111111111111111111000000#64
      = .ok ⟨.vst (.g 1) 2 .half 3 0xFFFFC0, true, false⟩ ∧
    -- TILE 0x13: AC 2, SA 5, FN 3 tactd, T bf16, AUX14 f = 4
    decode false 0b00_1_0_0000_010011_0010_0101_0000_0000_000000_0_0_00000011_1000_00000000000100#64
      = .ok ⟨.tactd 2 5 .bf16 4, true, false⟩ := by decide +kernel

/-- A step of a placed word runs it: `addi g4, g4, -1` at the reset program counter. -/
theorem test_step_runs_placed_word :
    (match step (State.reset.withFetchWord 64 0x200A2440FFFFFFFF) with
      | .next t => (t.bank.agents[0].latches.map (·.val)) == [0xFFFFFFFF] && t.turn == 1
      | _ => false) = true := by decide +kernel

/-! ## Single steps, with results worked by hand from the manual -/

/-- What the newest result of the bundle at issue is. -/
def newest (o : Host.Outcome State Fault Refusal) : Option (DWord × Vec × BitVec 7) :=
  match o with
  | .next t => t.cur.bun.latches.head?.map fun l => (l.val, l.vec, l.flags)
  | _ => none

/-- The scalar value and flags of the newest result. -/
def scal (o : Host.Outcome State Fault Refusal) : Option (DWord × BitVec 7) := (newest o).map fun x => (x.1, x.2.2)

/-- A lane of the newest result. -/
def laneOf (o : Host.Outcome State Fault Refusal) (i : Nat) : Option Word := (newest o).map fun x => lane x.2.1 i

/-- The cause and the subcode of a trap that KILL took: the status the record shows. -/
def stalled (o : Host.Outcome State Fault Refusal) : Bool :=
  match o with
  | .next t => t.verdict == .trapped false
  | _ => false

/-- R91, R92: 7 + (-2) wraps to 5; 7 times -2; the high words of 0x80000000 squared; -2^31 div -1; 7 div 0 sets DZ;
-2 rem 7 is -2. -/
theorem test_scalar_arithmetic :
    scal (exec (.add sc0 (.g 9) (.g 0) (.g 1)) regs) = some (5, 0) ∧
    scal (exec (.mul sc0 (.g 9) (.g 0) (.g 1)) regs) = some (0xFFFFFFF2, 0) ∧
    scal (exec (.mulh sc0 (.g 9) (.g 2) (.g 2) false) regs) = some (0x40000000, 0) ∧
    scal (exec (.div sc0 (.g 9) (.g 2) (.g 3)) regs) = some (0x80000000, 0) ∧
    scal (exec (.div sc0 (.g 9) (.g 0) (.sp 0)) regs) = some (0xFFFFFFFF, 2) ∧
    scal (exec (.rem sc0 (.g 9) (.g 1) (.g 0)) regs) = some (0xFFFFFFFE, 0) := by decide +kernel

/-- The worked fields of R93: c = 0x0C04. -/
theorem test_bit_fields :
    let s := regs.mapCur fun a => { a with g := (a.g.set 8 0x12345678).set 9 0xABC |>.set 10 0x1234A678 }
    scal (exec (.bfx sc0 (.g 11) (.g 8) (.g 7) false) s) = some (0x567, 0) ∧
    scal (exec (.bfx sc0 (.g 11) (.g 10) (.g 7) true) s) = some (0xFFFFFA67, 0) ∧
    scal (exec (.bfi sc0 (.g 11) (.g 8) (.g 9) (.g 7)) s) = some (0x1234ABC8, 0) := by decide +kernel

/-- R95, R96: a pair sum that carries into the high word, and `sethi` of the local region's worked address. -/
theorem test_pairs :
    let s := regs.mapCur fun a => { a with g := (a.g.set 8 0xFFFFFFFF).set 9 0 }
    scal (exec (.add64 sc0 (.g 10) (.g 8) (.sp 1)) s) = some (0x100000000, 0) ∧
    scal (exec (.sethi sc0 (.g 4) (.sp 0) 0x01F00000) s) = some (0x01F0000000000000, 0) := by decide +kernel

/-- R98: a branch of -4 units from 0x20 goes to 0; `ret` clears bits 2 to 0. -/
theorem test_branches :
    let s := regs.mapBun fun b => { b with ipc := 0x20 }
    let ctl := fun (o : Host.Outcome State Fault Refusal) => match o with | .next t => t.cur.bun.ctl | _ => .fall
    ctl (exec (.bnz (.g 0) 0 0xFFFFFFFC) s) = .jump 0 ∧ ctl (exec (.bz (.g 0) 0 0xFFFFFFFC) s) = .fall ∧
    ctl (exec (.ret (.g 4) 0) (s.mapCur fun a => { a with g := a.g.set 4 0x10047 })) = .jump 0x10040 := by decide +kernel

/-- The ternary example of R72 and R128: byte 0 = 0x58 gives +1, -1, 0, 0, +1. -/
theorem test_trits :
    let s := regs.mapCur fun a => { a with v := a.v.set 1 0x58 }
    (List.range 5).map (laneOf (exec (.vtrit sc0 (.g 2) (.g 1) .i8 0 all) s))
      = [some 1, some 0xFFFFFFFF, some 0, some 0, some 1] := by decide +kernel

/-- The example of chapter 06: `vcmplt`, `vred.lanes`, `vcompress`, `vsortk`. -/
theorem test_sorted_survivors :
    let v4 : Vec := mkVec fun n => BitVec.ofInt 32 (([4, -3, 0, 7, 2, -1, -8, 5, 1, 0, 6, -2, 3, -5, 9, 0] : List Int).getD n 0)
    let v6 : Vec := mkVec fun n => BitVec.ofInt 32 (([4, 7, 2, 5, 1, 6, 3, 9] : List Int).getD n 0)
    let s := regs.mapCur fun a => { a with v := (a.v.set 4 v4).set 6 v6, m := (a.m.set 2 0x5599).set 3 0x00FF }
    laneOf (exec (.vcmplt sc0 (.g 5) (.sp 0) (.g 4) .i32 all) s) 3 = some 0xFFFFFFFF ∧
    (newest (exec (.vcompress sc0 (.g 6) (.g 4) ⟨2, false⟩) s)).map (·.2.1) = some v6 ∧
    (newest (exec (.vsortk sc0 (.g 8) (.g 6) (.sp 2) .i32 false ⟨3, false⟩) s)).map (·.2.1)
      = some (mkVec fun n => BitVec.ofNat 32 (([7, 1, 5, 3, 0, 6, 2, 4, 8, 9, 10, 11, 12, 13, 14, 15] : List Nat).getD n 0)) := by
  decide +kernel

/-- R124 and R87: with key 1 and A = 0, lane 0 draws 0x688990 x 2^-24, which is the f32 0x3ED11320. -/
theorem test_random :
    laneOf (exec (.vrng sc0 (.g 2) (.sp 0) all) (regs.mapCur fun a => { a with rngkey := 1 })) 0 = some 0x3ED11320 := by
  decide +kernel

/-- R150, R153: a word stored at the base pair's address is loaded again; `amoadd` delivers the old value. -/
theorem test_memory :
    let s := regs.wr 0x20040 (bytesOf 4 0x11223344)
    scal (exec (.ld sc0 (.g 9) 2 .h .clu false 0) s) = some (0x3344, 0) ∧
    scal (exec (.amoadd sc0 (.g 9) (.g 4) (.g 0) .clu .plain false) s) = some (0x11223344, 0) ∧
    (match exec (.amoadd sc0 (.g 9) (.g 4) (.g 0) .clu .plain false) s with
      | .next t => t.rdNat 0x20040 4 | _ => 0) = 0x1122334B := by decide +kernel

/-- R147: a misaligned word, a page without the write permission, and an address with a bit of [63:57] set. -/
theorem test_access_faults :
    stalled (exec (.ld sc0 (.g 9) 2 .d .clu false 4) regs) = true ∧
    stalled (exec (.st (.g 0) 2 .w .clu false 0) (regs.mapCur fun a => { a with g := a.g.set 4 0x30000 })) = true ∧
    stalled (exec (.ld sc0 (.g 9) 2 .w .clu false 0) (regs.mapCur fun a => { a with g := a.g.set 5 0x02000000 })) = true := by
  decide +kernel

/-- R78: the worked conversion of f32 300.0 into e4m3, 288 with NX. -/
theorem test_conversion :
    let s := regs.mapCur fun a => { a with v := a.v.set 1 0x43960000 }
    (newest (exec (.vcvt sc0 (.g 2) (.g 1) .e4m3 .f32 ⟨1, true⟩ ⟨.rne, false⟩)
      (s.mapCur fun a => { a with m := a.m.set 1 0xFFFE }))).map (fun x => (lane x.2.1 0, x.2.2)) = some (0x79, 0x10) := by
  decide +kernel

/-- R298: values leave a queue in the order they were put. -/
theorem test_queue :
    let s := regs.mapCur fun a => { a with xq := a.xq.set 1 [3, 4] }
    scal (exec (.qget sc0 (.g 8) 1) s) = some (3, 0) ∧
    scal (exec (.qlvl sc0 (.g 8) 1 false) s) = some (2, 0) := by decide +kernel


/-- R308, R320: of the updates of one cycle the clears come first: a bit that the cycle has set stands, one that stood is cleared. -/
theorem test_event_updates :
    let ev := fun (o : Host.Outcome State Fault Refusal) => match o with
      | .next t => t.ctxs[t.cx.toNat].ev
      | _ => 0
    (match exec (.evset (.sp 1)) regs with
      | .next t => ev (exec (.evclr (.sp 1)) t)
      | _ => 0) = 2 ∧
    ev (exec (.evclr (.sp 1)) (regs.mapCtx regs.cx fun c => { c with ev := 6 })) = 4 := by decide +kernel

/-! ## States and operands that meet the hypotheses of the statements

Each theorem below is named after its statement and shows, clause by clause, concrete states and operands that meet all
of the clause's hypotheses together, at the ends of a range where there is one. -/

theorem witness_DecodeEncode :
    (Instr.add ⟨false, 4⟩ (.g 6) (.g 2) (.g 5)).wellFormed = true ∧
    encode (.add ⟨false, 4⟩ (.g 6) (.g 2) (.g 5)) true false = some 0x24063428A0000000 ∧
    agentOk false (wOp 0x24063428A0000000) (wFn 0x24063428A0000000) = true := by decide +kernel

/-- `addi g4, g4, -1` placed at the reset program counter. -/
def placed : State := State.reset.withFetchWord 64 0x200A2440FFFFFFFF

theorem witness_StepRunsDecoded :
    let i : Instr := .addi sc0 (.g 4) (.g 4) 0xFFFFFFFF
    placed.powered = true ∧ placed.dbg.frz = false ∧ placed.outside = [] ∧ placed.inbox = [] ∧ placed.boots = false ∧
    placed.clockwork.isNone = true ∧ placed.cur.locked ≠ some placed.pt ∧ placed.walkLate = false ∧ placed.due = none ∧ placed.boundary = none ∧
    placed.freezes = [] ∧ placed.phase = .running ∧ placed.cur.halted = false ∧ placed.cur.stopped = false ∧
    placed.mirrorBad = false ∧ placed.fetch 0 = .ok 0x200A2440FFFFFFFF ∧
    decode placed.onAp 0x200A2440FFFFFFFF = .ok ⟨i, true, false⟩ ∧ placed.levelOk i = true ∧ isJoint i = false ∧
    i.boundOk = true ∧ placed.spansExit (placed.cur.pc + 8) = false ∧ placed.bankCycles i ≤ placed.cur.banked ∧
    placed.lockBanks = false ∧ placed.jointFails = none ∧
    (match exec i ((placed.startBundle (placed.cur.pc + 8) false).atWord placed.cur.pc) with
      | .next t => decide (t.verdict = .ok) && t.latchesFit && !t.cur.bun.traps
      | _ => false) = true := by decide +kernel

theorem witness_SpecialOperands : 0 < 16 ∧ 15 < 16 ∧ Ty.n8.isLaneInt = true := by decide

/-- C0 with a result for g8 readable from a time on, or a token. -/
def inFlight (r : Ready) : State :=
  regs.mapCur fun a => { a with latches := [⟨3, .scalar, .g 8, false, 9, 0, r, 0, none, (false, false)⟩] }

theorem witness_OperandReads :
    (Ready.at 1 ∈ (inFlight (.at 1)).cur.readyOf (.g 8) .w32 ∧ (inFlight (.at 1)).pt < 1 ∧
      Ready.token ∉ (inFlight (.at 1)).cur.readyOf (.g 8) .w32) ∧
    Ready.token ∈ (inFlight .token).cur.readyOf (.g 8) .w64 ∧
    (let s := regs.mapCur fun a => { a with marks := [⟨.g 2, false, ⟨0x10000, 9⟩⟩] }
     s.cur.latches = [] ∧ s.cur.marks = [⟨.g 2, false, ⟨0x10000, 9⟩⟩]) := by decide +kernel

/-- The control of the bundle at issue set. -/
def ctlIs (c : Ctl) : State := regs.mapBun fun b => { b with ctl := c }

theorem witness_BundleCommit :
    (regs.cur.bun.ctl = .fall ∧ regs.cur.loops = [] ∧ regs.cur.bun.srw = none ∧ regs.cur.bun.mask = none ∧
      regs.cur.bun.ends = none) ∧
    ((ctlIs .halt).cur.loops = [] ∧ (ctlIs .halt).cur.bun.srw = none ∧ (ctlIs .halt).cur.bun.ctl = .halt ∧
      (ctlIs .halt).cur.bun.ends = none) ∧
    ((ctlIs (.trapAfter 5)).cur.loops = [] ∧ (ctlIs (.trapAfter 5)).cur.bun.srw = none ∧
      (ctlIs (.trapAfter 5)).cur.bun.ctl = .trapAfter 5) := by decide +kernel

/-- An agent with results for g3 in flight. -/
def landing (l : List (Nat × Word)) : Agent :=
  { Agent.init with latches := l.map fun p => ⟨p.1, .scalar, .g 3, false, p.2.setWidth 64, 0, .at p.1, 2, none, (false, false)⟩ }

theorem witness_ResultLands :
    (landing [(5, 9)]).latches = [⟨5, .scalar, .g 3, false, (9 : Word).setWidth 64, 0, .at 5, 2, none, (false, false)⟩] ∧
    5 ≤ 5 ∧ 4 < 5 ∧ (4 : BitVec 5) ≠ 3 ∧
    (4 < 5 ∧ (landing [(5, 9), (4, 8)]).latches = [⟨5, .scalar, .g 3, false, (9 : Word).setWidth 64, 0, .at 5, 2, none, (false, false)⟩,
      ⟨4, .scalar, .g 3, false, (8 : Word).setWidth 64, 0, .at 4, 2, none, (false, false)⟩]) := by decide +kernel

theorem witness_ScalarResults :
    Readable regs (.g 0) .w32 ∧ Readable regs (.g 1) .w32 ∧ Readable regs (.sp 0) .w32 ∧
    regs.val32 (.sp 0) = 0 ∧ regs.val32 (.g 1) ≠ 0 ∧ regs.val32 (.g 2) = 0x80000000 ∧ regs.val32 (.g 3) = 0xFFFFFFFF ∧
    Readable regs (.g 2) .w32 ∧ Readable regs (.g 3) .w32 ∧
    -- bit fields: a full width, a width of 0, a field that ends at bit 31, and indices at both ends
    (let w := fun c : Nat => Min.min (Min.min (c / 256 % 64) 32) (32 - c % 32)
     w 0x2000 = 32 ∧ w 0 = 0 ∧ w 0x3F1F = 1 ∧ 0 < 32 ∧ 31 < 32) := by decide +kernel

theorem witness_ImmediatesAndPairs :
    Readable regs (.g 0) .w32 ∧ Readable regs (.g 4) .w64 ∧ Readable regs (.k 2) .w64 ∧ Readable regs (.sp 2) .w32 := by
  decide +kernel

theorem witness_Branches :
    Readable regs (.g 0) .w32 ∧ Readable regs (.g 4) .w64 ∧ regs.cur.bq = [] ∧
    (regs.mapCur fun a => { a with bq := [true, false] }).cur.bq = true :: [false] := by decide +kernel

/-- A level of the loop unit. -/
def lvl (exit : DWord) (i n : Nat) (b : Option (BitVec 4)) : LoopLvl := ⟨0x10000, exit, i, n, b, false⟩

/-- C0 with open loop levels, and a table of one temporal level. -/
def looping (l : List LoopLvl) : State :=
  let s := regs.mapCur fun a => { a with loops := l }
  { s with bank := { s.bank with run := some { placedRun 0 with img := ⟨0, 0, [], [⟨0, true, 0, 10⟩], 0, 0, 0, [], [], 1⟩ } } }

theorem witness_HardwareLoops :
    (Readable (looping []) (.sp 0) .w32 ∧ Readable (looping []) (.g 0) .w32) ∧
    -- a count of 0, a count of 1 with fewer than four levels, four levels, a level bound twice
    (0 ≤ 0 ∧ 0 < ((looping []).val32 (.sp 1)).toNat ∧
      (looping [lvl 0 0 1 none, lvl 0 0 1 none, lvl 0 0 1 none]).cur.loops.length < 4 ∧
      ¬((none : Option (BitVec 4)).isSome = true ∧ ∃ l ∈ (looping [lvl 0 0 1 none]).cur.loops, l.bind = none) ∧
      4 ≤ (looping [lvl 0 0 1 none, lvl 0 0 1 none, lvl 0 0 1 none, lvl 0 0 1 none]).cur.loops.length ∧
      ((some 0 : Option (BitVec 4)).isSome = true ∧ ∃ l ∈ (looping [lvl 0 0 1 (some 0)]).cur.loops, l.bind = some 0)) ∧
    ((looping [lvl 0 0 1 none]).cur.loops ≠ [] ∧ (looping []).cur.loops = [] ∧
      (looping []).bank.run = some { placedRun 0 with img := ⟨0, 0, [], [⟨0, true, 0, 10⟩], 0, 0, 0, [], [], 1⟩ } ∧
      ([⟨0, true, 0, 10⟩] : List TblLvl)[(0 : BitVec 4).toNat]? = some ⟨0, true, 0, 10⟩) ∧
    (∀ x ∈ [lvl 0x40 9 10 none], x.exit = 0x40 ∧ x.drain = false ∧ x.count ≤ x.index + 1) ∧
    ((lvl 0x40 8 10 none).exit = 0x40 ∧ (lvl 0x40 8 10 none).drain = false ∧ (lvl 0x40 8 10 none).index + 1 < (lvl 0x40 8 10 none).count) ∧
    (let l := { lvl 0x40 8 10 (some 0) with drain := true }
     l.exit = 0x40 ∧ l.drain = true ∧ (looping [lvl 0x40 9 10 none, l]).cur.loops = [lvl 0x40 9 10 none] ++ l :: []) ∧
    (lvl 0x48 8 10 none).exit ≠ 0x40 := by decide +kernel

/-- C0 with accrued and enabled flags. -/
def flagged (f e : Word) : State := regs.mapCur fun a => { a with aflags := f, atrap := e }

theorem witness_SystemInstructions :
    (inFlight (.at 5)).cur.latches ≠ [] ∧
    ((flagged 1 2).cur.latches = [] ∧ ((flagged 1 2).cur.aflags &&& (flagged 1 2).cur.atrap).setWidth 7 = (0 : BitVec 7)) ∧
    ((flagged 2 2).cur.latches = [] ∧ ((flagged 2 2).cur.aflags &&& (flagged 2 2).cur.atrap).setWidth 7 ≠ (0 : BitVec 7)) ∧
    (serving.bank.run = some { placedRun 0 with service := true, interrupts := true } ∧
      regs.bank.run = some (placedRun 0) ∧ (placedRun 0).service = false) ∧
    (Readable super (.g 4) .w64 ∧ Readable super (.sp 0) .w32 ∧ (0 : BitVec 2) ≠ 3 ∧ super.supervisor = true ∧
      super.shadow = none ∧ (∀ c ∈ super.bank.chans.toList, c.started = []) ∧ (∀ x ∈ super.bank.streams.toList, x.outq = []) ∧
      super.val32 (.sp 0) = 0 ∧ (super.val32 (.sp 0)).toNat < 64 ∧ super.ctxs[0].defined = true ∧
      super.ctxs[0].part = super.part) ∧
    (regs.supervisor = false ∧ super.val32 (.g 0) ≠ 0 ∧ ¬(super.val32 (.g 1)).toNat < 64) := by decide +kernel

/-- A snapshot with nothing to wait for, of a gang of one core. -/
def snap0 : Snap := ⟨0x10000, 0x12340, 0, 100, 0, 1, 0, false, 0, 0, 0, 0⟩

/-- A record at 0x10040 in a state. -/
def srec (st : Nat) : SRec := ⟨0, 0x10040, 0x20040, 0, snap0, st, 0, none, 0, 0, false, none, none, (0, 0), decide (3 ≤ st)⟩

theorem witness_SpecialRegisters :
    Readable regs (.g 4) .w32 ∧ Readable regs (.g 4) .w64 ∧ regs.bank.run = some (placedRun 0) ∧
    regs.die < 24 ∧ regs.core < 64 ∧ ((placedRun 0).service && (placedRun 0).interrupts) = false ∧
    (let s := { serving with shadow := some regs.bank }
     s.bank.run = some { placedRun 0 with service := true, interrupts := true } ∧ s.shadow = some regs.bank ∧
     Readable s (.g 4) .w32 ∧ Readable s (.g 4) .w64 ∧ (srec 2).service = none ∧
     ({ srec 2 with service := some 5 } : SRec).service = some 5) ∧
    (let s := { regs with srPend := [(0x12, 1), (0x12, 2)] }
     s.oracle.freezes = [] ∧ s.srPend = [(0x12, 1), (0x12, 2)]) ∧
    (let s := { regs with srPend := [(0x11, 1), (0x11, 2)] }
     s.oracle.freezes = [] ∧ s.srPend = [(0x11, 1), (0x11, 2)]) := by decide +kernel

theorem witness_ReadAfterWrite :
    MemOk (regs.wr 0x20040 [1, 2]) ∧ (0x2003F < 0x20040 ∨ 0x20040 + 2 ≤ 0x2003F) ∧ (0x20042 < 0x20040 ∨ 0x20040 + 2 ≤ 0x20042) := by
  decide +kernel

theorem witness_AccessChecks :
    (2 ^ 57 ≤ (0x0200000000000000 : DWord).toNat) ∧
    ((0x01FFFFFFFFFFFFFF : DWord).toNat < 2 ^ 57 ∧ (0x01FFFFFFFFFFFFFF : DWord).toNat % 2 ≠ 0) ∧
    (regs.bank.run = some (placedRun 0) ∧ ((placedRun 0).service && (placedRun 0).interrupts) = false ∧
      (0x01F0000000200000 : DWord).toNat % 8 = 0 ∧ (0x01F0000000200000 : DWord).toNat / 2 ^ 52 = 0x1F ∧
      2 ^ 21 ≤ (0x01F0000000200000 : DWord).toNat % 2 ^ 52 ∧
      (0x01F7FFFFFFFFFFF8 : DWord).toNat % 8 = 0 ∧ (0x01F7FFFFFFFFFFF8 : DWord).toNat / 2 ^ 52 = 0x1F ∧
      (0x01F7FFFFFFFFFFF8 : DWord).toNat % 2 ^ 52 < 2 ^ 51 ∧
      -- the first member number past a gang of one core
      (0x01F8000000200000 : DWord).toNat % 8 = 0 ∧ (0x01F8000000200000 : DWord).toNat / 2 ^ 52 = 0x1F ∧
      (placedRun 0).snap.gang ≤ ((0x01F8000000200000 : DWord).toNat % 2 ^ 52 - 2 ^ 51) / 2 ^ 21) ∧
    ((0x01E0000000000000 : DWord).toNat % 4 = 0 ∧ (0x01E0000000000000 : DWord).toNat / 2 ^ 52 = 0x1E ∧
      AKind.write ≠ .read ∧ AKind.atomic ≠ .fetch) ∧
    (let s := { regs with walk := some ⟨0, 0x50000, 0, 0, some 0x05, none, 0x05⟩ }
     (0x50FFC : DWord).toNat % 4 = 0 ∧ (0x50FFC : DWord).toNat / 2 ^ 52 < 0x1E ∧ s.walkBad s.cx 0x50FFC = some 0x05) ∧
    ((0x30FFC : DWord).toNat % 4 = 0 ∧ (0x30FFC : DWord).toNat / 2 ^ 52 < 0x1E ∧ regs.walkBad regs.cx 0x30FFC = none ∧
      regs.tlbFind regs.cx 0x30FFC = some ⟨0, 0x30000, 0x1000, 0x40000, false, false⟩) := by decide +kernel

/-- The core with a poisoned granule at the base pair's address. -/
def poisoned : State := { regs with mem := regs.mem.poisonGranule 0x801 }

/-- The core whose base pair points to memory that no port backs. -/
def unbacked : State := { regs with tlb := [⟨0, 0x10000, 0x10000, 3 * 2 ^ 40, true, true⟩] }

theorem witness_LoadStore :
    (Readable regs (baseOp 2) .w64 ∧ regs.cur.deferred = [] ∧ Orderly regs ∧
      Mapped regs (regs.val64 (baseOp 2) + BitVec.ofInt 64 (0 : BitVec 24).toInt) ∧
      Mapped regs (regs.val64 (baseOp 2) + BitVec.ofInt 64 (-8 : BitVec 24).toInt) ∧
      regs.access .read (regs.val64 (baseOp 2) + BitVec.ofInt 64 (0 : BitVec 24).toInt) 8 0 = .ok 0x20040 ∧
      regs.access .write (regs.val64 (baseOp 2) + BitVec.ofInt 64 (-8 : BitVec 24).toInt) 8 0 = .ok 0x20038 ∧
      regs.served 0x20038 true = true ∧ ¬Owes regs 0x20038 ∧ Readable regs (.g 0) .w64 ∧ Readable regs (.g 0) .w32) ∧
    (regs.held = [] ∧ unbacked.served (3 * 2 ^ 40 + 0x40) false = false ∧
      (regs.served 0x20040 false = true ∧ (∀ g ∈ regs.mem.poison, g < 0x20040 / 64 ∨ (0x20040 + 4 + 63) / 64 ≤ g)) ∧
      (poisoned.served 0x2007C false = true ∧
        ∃ g ∈ poisoned.mem.poison, 0x2007C / 64 ≤ g ∧ g < (0x2007C + 4 + 63) / 64)) ∧
    (unbacked.served (3 * 2 ^ 40 + 0x40) true = false ∧ regs.pend = [] ∧
      (∀ x ∈ (regs.mapCur fun a => { a with deferred := [⟨0x10, 0x0A, 1, 0, .ga⟩] }).cur.deferred, x.path ≠ .own) ∧
      (regs.mapCur fun a => { a with deferred := [⟨0x10, 0x0A, 1, 0, .own⟩] }).cur.deferred = [⟨0x10, 0x0A, 1, 0, .own⟩]) := by
  decide +kernel

theorem witness_Atomics :
    Readable regs (.g 4) .w64 ∧ Readable regs (.g 0) .w64 ∧ Readable regs (.g 2) .w64 ∧ Readable regs (.g 0) .w32 ∧
    Readable regs (.g 2) .w32 ∧ regs.cur.deferred = [] ∧ Orderly regs ∧ Mapped regs (regs.val64 (.g 4)) ∧ regs.access .atomic (regs.val64 (.g 4)) 8 0 = .ok 0x20040 ∧
    regs.access .atomic (regs.val64 (.g 4)) 4 0 = .ok 0x20040 ∧ regs.served 0x20040 false = true ∧
    regs.served 0x20040 true = true ∧ regs.mem.poisonAt 0x20040 8 = none := by decide +kernel

/-- A copy of channel 0 that stands in its queue. -/
def aCopy (k : CopyKind) (id : Word) (n : Nat) : Copy :=
  ⟨id, k, ⟨0, 0, 0, 0, 1, 0x10040, 0x10080, n, 0, 0, 0, 0, 0⟩, none, 0, 0, 0, 0, 0, none, 0, 1⟩

/-- The access processor with copies queued and started on channel 0. -/
def copying (q st : List Copy) : State :=
  let s := onAp regs
  { s with bank := { s.bank with chans := s.bank.chans.set 0 ⟨q, st, 2, 0, [], []⟩ } }

theorem witness_FencesAndBindings_none :
    regs.cur.deferred = [] ∧ regs.cur.waiting = none ∧ regs.turn ≠ 4 ∧ Orderly regs ∧ regs.bank.eng = [] ∧
    ∀ st ∈ regs.bank.streams.toList, st.outq = [] := by decide +kernel

/-- The access processor at a fence that waits for the copies of channel 0 before identifier 2. -/
def fencing (q : List Copy) (e : Option Nat) : State :=
  (copying q []).mapCur fun a => { a with waiting := some (.fence [(0, 2)] e, 0) }

theorem witness_FencesAndBindings_waits :
    (let s := copying [aCopy .cpy 1 8] []
     s.cur.deferred = [] ∧ s.cur.waiting = none ∧ s.turn = 4 ∧ aCopy .cpy 1 8 ∈ (s.bank.chan 0).queue ∧
     2 ^ 31 ≤ ((aCopy .cpy 1 8).id - (s.bank.chan 0).next).toNat) ∧
    ((fencing [aCopy .cpy 1 8] none).cur.waiting = some (.fence [(0, 2)] none, 0) ∧
      (fencing [aCopy .cpy 1 8] none).cur.deferred = [] ∧ 2 ^ 31 ≤ ((aCopy .cpy 1 8).id - 2).toNat) ∧
    ((fencing [aCopy .cpy 2 8] (some 1)).cur.waiting = some (.fence [(0, 2)] (some 1), 0) ∧
      Orderly (fencing [aCopy .cpy 2 8] (some 1)) ∧ ¬2 ^ 31 ≤ ((aCopy .cpy 2 8).id - 2).toNat ∧
      (fencing [aCopy .cpy 2 8] (some 1)).bank.eng = []) := by decide +kernel

theorem witness_FencesAndBindings :
    ((1 : BitVec 4).getLsbD ((aCopy .cpy 1 8).kind.path - 2) = true ∧ (4 : BitVec 7).getLsbD (aCopy .cpy 1 8).kind.path = true ∧
     (0x0E : BitVec 4).getLsbD ((aCopy .cpy 1 8).kind.path - 2) = false ∧ (0x7B : BitVec 7).getLsbD (aCopy .cpy 1 8).kind.path = false ∧
     (4 : BitVec 7) ≠ 0 ∧ (1 : BitVec 7) ≠ 0) ∧
    (let bad := fun (u v : DWord) (n : Nat) => u.toNat % 8 != 0 || v.toNat % 64 != 0 || n == 0 || n % 64 != 0 || decide (2 ^ 31 < n)
     Readable regs (.g 4) .w64 ∧ Readable regs (.sp 0) .w64 ∧ Readable regs (.g 2) .w32 ∧
     bad 0x10040 0 0 = true ∧ bad 0x10040 0x40 64 = false ∧ bad 0 0 (2 ^ 31) = false ∧ bad 0 0 (2 ^ 31 + 64) = true) ∧
    (let t : List (Nat × DWord × DWord × Nat) := [(0, 0x10040, 0x40, 64)]
     (0, 0x10040, 0x40, 64) ∈ t ∧ (∀ e ∈ t, e.2.1 ≠ 0x10048) ∧ (∀ e ∈ t, e.1 ≠ 1) ∧
     (∀ j, j < 1 → ∃ e ∈ t, e.1 = j) ∧
     (let full := (List.range 256).map fun i => (i, (0x10040 : DWord), (0x40 : DWord), 64)
      full.map (fun e => e.1) = List.range 256 ∧ ∀ e ∈ full, e.2.1 ≠ 0x10048)) := by decide +kernel

/-- An outcome is a next state at which nothing waits or traps. -/
def runs (o : Host.Outcome State Fault Refusal) : Bool :=
  match o with
  | .next t => t.verdict == .ok
  | _ => false

/-- The next state has these writes pending that no agent has been shown, and these bytes held. -/
def leaves (o : Host.Outcome State Fault Refusal) (ws : List PendW) (hs : List Held) : Bool :=
  match o with
  | .next t => decide (t.pend.filter (fun e => e.seen.isNone) = ws ∧ t.held = hs)
  | _ => false

/-- C0 with a write that its store instruction will leave pending, or with a line that its path has read early. -/
def pendingNext : State := { regs with oracle := { regs.oracle with late := [1] } }

/-- The line of the base pair's address, read early by C0. -/
def early : Held := ⟨0, .own, 0x10040, 0x20040, List.replicate 64 9, none, 0⟩

/-- C0 before an access with an order: a write of its own and one of its gathers and scatters pending, bytes that a gather
has read early and that have missed a write of another agent of the core, and a release by C1. -/
def unordered : State :=
  { regs with
    held := [{ early with path := .ga, va := 0x10080, key := 0x20080, missed := some 1 }]
    pend := [⟨0, .own, 0x01F0000000000040, 0, 2 ^ 54 + 0x40, [5], false, none, 0, .plain⟩,
      ⟨0, .ga, 0x01F0000000000080, 0, 2 ^ 54 + 0x80, [5], false, none, 1, .plain⟩]
    rels := [⟨0, 0x20040, .here 1, .cor, [(0x20048, 0x20100)]⟩] }

theorem witness_MemoryOrder :
    (Readable pendingNext (baseOp 2) .w64 ∧ Readable pendingNext (.g 0) .w32 ∧ Readable pendingNext (.g 0) .w64 ∧
      pendingNext.access .write (effAddr (pendingNext.val64 (baseOp 2)) 0) (Size.w).bytes 0 = .ok 0x20040 ∧
      pendingNext.served 0x20040 true = true ∧ pendingNext.pend = [] ∧ pendingNext.held = [] ∧
      pendingNext.oracle.late.head?.map (·.testBit 0) = some true) ∧
    (let c := { aCopy .cpyg 1 8 with blk := { (aCopy .cpyg 1 8).blk with dst := 0x01F0000000000080 } }
     let s := { copying [c] [] with bank := { (copying [c] []).bank with uid := 2 } }
     -- the copy has still to write where the access processor stores
     Mapped s 0x01F0000000000080 ∧ Owes s (2 ^ 54 + 0x80) ∧ s.served (2 ^ 54 + 0x80) true = true ∧
      s.access .write 0x01F0000000000080 8 0 = .ok (2 ^ 54 + 0x80)) ∧
    (let s := { regs with oracle := { regs.oracle with lateReads := [1] } }
     Readable s (baseOp 2) .w64 ∧ s.access .read (effAddr (s.val64 (baseOp 2)) 0) (Size.w).bytes 0 = .ok 0x20040 ∧
     s.pend = [] ∧ s.reads = [] ∧ s.oracle.lateReads.head?.map (·.testBit 0) = some true) ∧
    (let s := { regs with held := [early] }
     Readable s (baseOp 2) .w64 ∧ s.access .read (effAddr (s.val64 (baseOp 2)) 0) (Size.w).bytes 0 = .ok 0x20040 ∧
     Mapped s (effAddr (s.val64 (baseOp 2)) 0) ∧ s.pend = [] ∧ s.reads = [] ∧ s.oracle.lateReads = [] ∧ s.held = [early] ∧
     early.agent = s.turn ∧ early.path = .own ∧ early.key ≤ 0x20040 ∧ 0x20040 + (Size.w).bytes ≤ early.key + early.bytes.length) ∧
    (let h := { early with path := .ga, va := 0x10080, key := 0x20080, missed := some 1 }
     let e : PendW := ⟨0, .ga, 0x01F0000000000080, 0, 2 ^ 54 + 0x80, [5], false, none, 1, .plain⟩
     -- a fence of core scope leaves the pending scatter, which it does not name; one of the agent's own scope leaves the bytes
     -- that have missed another agent's write
     (8 : BitVec 7) ≠ 0 ∧ runs (exec (.fenceX .cor 1 8) unordered) = true ∧ runs (exec (.fenceX .clu 1 8) unordered) = true ∧
     leaves (exec (.fenceX .cor 1 8) unordered) [e] [] = true ∧ leaves (exec (.fenceX .clu 1 8) unordered) [e] [h] = true) ∧
    (runs (exec (.st (.g 2) 2 .d .cor true 0) unordered) = true ∧ runs (exec (.ld sc0 (.g 8) 2 .d .cor true 0) unordered) = true ∧
     unordered.access .read (effAddr (unordered.val64 (baseOp 2)) 0) (Size.d).bytes 0 = .ok 0x20040 ∧
     (⟨0, 0x20040, .here 1, .cor, [(0x20048, 0x20100)]⟩ : Rel).syncs unordered.turn 0x20040 .cor = true) := by
  decide +kernel

theorem witness_MemoryFrames :
    (runs (exec (.st (.g 0) 2 .w .clu false 0) regs) = true ∧
      regs.access .write (effAddr (regs.val64 (baseOp 2)) 0) (Size.w).bytes 0 = .ok 0x20040) ∧
    (runs (exec (.amoadd sc0 (.g 9) (.g 4) (.g 0) .clu .plain true) regs) = true ∧
      regs.access .atomic (regs.val64 (.g 4)) 8 0 = .ok 0x20040 ∧ regs.pend = []) ∧
    (readsOnly (.ld sc0 (.g 9) 2 .w .clu false 0) = true ∧ runs (exec (.ld sc0 (.g 9) 2 .w .clu false 0) regs) = true) := by
  decide +kernel

theorem witness_BufferFrame :
    bufferOnly (.add sc0 (.g 9) (.g 0) (.g 1)) = true ∧ runs (exec (.add sc0 (.g 9) (.g 0) (.g 1)) regs) = true := by
  decide +kernel

theorem witness_VintResults :
    Ty.i8.isLaneInt = true ∧ Ty.n32.isLaneInt = true ∧ Readable vecs (.g 1) .vec ∧ Readable vecs (.g 2) .vec := by
  decide +kernel

theorem witness_VfpResults :
    Ty.f16.isLaneFloat = true ∧ Ty.f32.isLaneFloat = true ∧ Readable vecs (.g 1) .vec ∧ Readable vecs (.g 2) .vec ∧
    Readable vecs (.sp 1) .vec := by decide +kernel

/-- NaNs and numbers of f16, the two zeros, and the largest code. -/
theorem witness_FloatRules :
    Ty.f16.isLaneFloat = true ∧ 0xFFFF < 2 ^ tyBits .f16 ∧ (fval .f16 0x7E00).isNaN = true ∧ (fval .f16 0x3C00).isNaN = false ∧
    (fval .f16 0xFFFF).isNaN = true ∧ (fval .f16 0x7C00).isNaN = false ∧
    vLt (fval .f16 0x3C00) (fval .f16 0x7C00) = true ∧ 0x8000 = 2 ^ (tyBits .f16 - 1) ∧
    (fval .f32 0x7F800001).isNaN = true := by decide +kernel

theorem witness_RoundedResults :
    -- 257 x 2^-8 lies between 128 x 2^-7 and 129 x 2^-7, as near the one as the other
    Ty.bf16.isLaneFloat = true ∧ 0 < 257 ∧ 0x3F81 < 2 ^ tyBits .bf16 ∧ fval .bf16 0x3F81 = .fin false 129 (-7) ∧
    fval .bf16 (roundTo .bf16 .rne false false 257 (-8) false).1 = .fin false 128 (-7) ∧
    (fval .bf16 (roundTo .bf16 .rup false false 257 (-8) false).1 = .fin false 129 (-7) ∧
      fval .bf16 (roundTo .bf16 .rdn false true 257 (-8) false).1 = .fin true 129 (-7) ∧
      fval .bf16 (roundTo .bf16 .rtz false true 257 (-8) false).1 = .fin true 128 (-7)) ∧
    (fval .bf16 0x3F80 = .fin false 128 (-7) ∧ (fval .bf16 0x7F81).isSig = true ∧ fval .bf16 0x7F80 = .inf false ∧
      fval .bf16 0xFF80 = .inf (!false) ∧ (fval .bf16 0x8000).isZero = true ∧ fval .bf16 0x8000 = .fin true 0 (-133)) ∧
    |ratOf false 128 (-7) - ratOf false 257 (-8)| = |ratOf false 129 (-7) - ratOf false 257 (-8)| ∧
    ratOf false 128 (-7) ≠ ratOf false 129 (-7) := by
  refine ⟨by decide, by decide, by decide +kernel, by decide +kernel, by decide +kernel, by decide +kernel, by decide +kernel,
    ?_, ?_⟩ <;> norm_num [ratOf]

theorem witness_VspcResults :
    Ty.f32.isLaneFloat = true ∧ Readable vecs (.g 1) .vec ∧ Readable vecs (.g 2) .vec ∧ Readable vecs (.sp 0) .vec ∧
    Readable vecs (.g 0) .w32 ∧
    (let n := fun (r : Word) => r.toNat % 128 + r.toNat / 2 ^ 8 % 128 + r.toNat / 2 ^ 16 % 128
     n 0x00101020 ≤ 64 ∧ 64 < n 0x00101021 ∧ n 0 ≤ 64) := by decide +kernel

theorem witness_Conversion :
    Ty.f6.isCvtDst = true ∧ Ty.i32.isCvtDst = true ∧ Readable vecs (.g 1) .vec := by decide +kernel

theorem witness_PackingAndTrits :
    Readable vecs (.g 1) .vec ∧ Readable vecs (.g 2) .vec ∧
    (tyBits .n8 = 8 ∧ tyBits .n8 * (16 * (3 : BitVec 2).toNat) < 512 ∧ tyBits .f16 = 16 ∧
      tyBits .f16 * (16 * (1 : BitVec 2).toNat) < 512 ∧ 8 * 63 < 512 ∧ (7 : BitVec 4).toNat < 8 ∧ 127 < 128 ∧ 255 < 256) ∧
    ((19 : BitVec 5).toNat < 20 ∧ Ty.bf16 ∈ [Ty.i32, .i16, .i8, .f32, .f16, .bf16] ∧
      -- the first group touches bytes 0 to 3, of which byte 3 keeps its digits 1 to 4
      (let n := fun i => 16 * (0 : BitVec 5).toNat + i
       (15 < 16 ∧ 4 < 5 ∧ ∀ k, k < 16 → n k ≠ 5 * (n 15 / 5) + 4) ∧ 4 < 64 ∧ ∀ i, i < 16 → n i / 5 ≠ 4)) := by
  decide +kernel

theorem witness_LanesAndMasks :
    Readable vecs (.g 1) .vec ∧ Readable vecs (.g 2) .vec ∧ Readable vecs (.sp 0) .vec ∧ Readable vecs (.g 0) .w32 ∧
    Readable vecs (.g 1) .w32 ∧
    -- lanes 0 and 7 of m1 = 0x00F5 are active, and lanes 6 to 15 of the compressed vector are zero
    ((vecs.active ⟨1, false⟩).getLsbD 0 = true ∧ (vecs.active ⟨1, false⟩).getLsbD 7 = true ∧
      ((List.range 16).filter fun i => (vecs.active ⟨1, false⟩).getLsbD i).length = 6) := by decide +kernel

theorem witness_ReduceAndScan :
    Readable vecs (.g 1) .vec ∧ Ty.n32.isLaneInt = true ∧ Ty.f32.isLaneFloat = true ∧
    (let act := fun i => (vecs.active ⟨1, false⟩).getLsbD i
     let e := fun i => laneInt .i32 (lane (vecs.valV (tyOne .i32) (.g 1)) i)
     (7 < 16 ∧ act 7 = true ∧ ∀ j, j < 16 → act j = true → e 7 ≤ e j) ∧
     (0 < 16 ∧ act 0 = true ∧ ∀ j, j < 16 → act j = true → e j ≤ e 0)) ∧
    -- no active lane, and each operation with a type it has
    ((List.range 16).filter (fun i => (vecs.active ⟨2, false⟩).getLsbD i) = []) ∧
    (∀ op ∈ [RedOp.add, .min, .max, .and, .or, .xor], op ≠ .lanes) ∧
    (RedOp.max = .add ∨ RedOp.max = .min ∨ RedOp.max = .max) := by decide +kernel

theorem witness_SortByKey :
    Readable vecs (.g 1) .vec ∧ Readable vecs (.sp 2) .vec ∧
    (let act := fun i => (vecs.active ⟨1, false⟩).getLsbD i
     act 0 = true ∧ act 1 = false ∧ act 15 = false ∧ 1 < 15 ∧
     keyBelow .i32 (lane (vecs.valV 1 (.g 1)) 7) (lane (vecs.valV 1 (.g 1)) 0) = true ∧
     keyBelow .i32 (lane (vecs.valV 1 (.g 1)) 0) (lane (vecs.valV 1 (.g 1)) 0) = false) := by decide +kernel

/-- The vectors, over memory that no port backs. -/
def unbackedVecs : State := { vecs with tlb := unbacked.tlb }

theorem witness_VectorMemory :
    Readable vecs (baseOp 2) .w64 ∧ Readable vecs (.sp 2) .vec ∧ Readable vecs (.g 1) .vec ∧
    (let base := vecs.val64 (baseOp 2)
     let row := fun i : Nat => base + BitVec.ofInt 64 (0 : BitVec 24).toInt + BitVec.ofNat 64 (4 * i)
     let gat := fun i : Nat => base + BitVec.ofInt 64 (0 : BitVec 17).toInt + BitVec.ofNat 64 (4 * (lane (vecs.valV 1 (.sp 2)) i).toNat)
     let on := (List.range 16).filter fun i => (vecs.cur.mask 0).getLsbD i
     let key := fun i => 0x20040 + 4 * i
     Orderly vecs ∧ (∀ i ∈ on, Mapped vecs (row i)) ∧ (∀ i ∈ on, Mapped vecs (gat i)) ∧
     (∀ i ∈ on, vecs.access .read (row i) 4 i = .ok (key i)) ∧ (∀ i ∈ on, vecs.access .read (gat i) 4 i = .ok (key i)) ∧
     (∀ i ∈ on, vecs.access .write (row i) 4 i = .ok (key i)) ∧ (∀ i ∈ on, vecs.access .write (gat i) 4 i = .ok (key i)) ∧
     NoneOwed vecs ∧ (∀ i ∈ on, vecs.served (key i) true = true) ∧ (∀ i ∈ on, unbackedVecs.served (3 * 2 ^ 40 + 0x40 + 4 * i) true = false) ∧
     (∀ i ∈ on, unbackedVecs.access .write (row i) 4 i = .ok (3 * 2 ^ 40 + 0x40 + 4 * i)) ∧ (vecs.cur.mask 0 = 0xFFFF ∧ (row 0).toNat % 64 = 0) ∧
     (∀ i ∈ on, 0x2003F < key i ∨ key i + 4 ≤ 0x2003F) ∧ (∀ i ∈ on, 0x20080 < key i ∨ key i + 4 ≤ 0x20080)) := by
  decide +kernel

/-- C0 with the bank changed. -/
def bank (f : Bank → Bank) : State := { regs with bank := f regs.bank }

/-- C0 with numbers in memory: key, bytes, value. -/
def laid (l : List (Nat × Nat × Nat)) : State := l.foldl (fun s e => s.wrNat e.1 e.2.1 e.2.2) regs

/-- A descriptor of kind 2, type i32, one row of four elements from 0x10000. -/
def desc (count : Nat) : StrDesc := ⟨2, 0, 0, 0, 1, 4, 0x10000, 0, 0, 16, count, 0, 0, 0⟩

/-- A stream that has claimed a number of pieces. -/
def strm (st : StState) (count claimed : Nat) : Strm := { Strm.init with state := st, desc := desc count, claimed := claimed }

/-- C0 with streams 0 and 1. -/
def streaming (x y : Strm) : State := bank fun b => { b with streams := (b.streams.set 0 x).set 1 y }

/-- A piece of a scratchpad output, handed out. -/
def handedOut : OutP :=
  ⟨[0], 0, 0, { desc 4 with kind := 1, flags := 1, base := 31 * 2 ^ 52 + 0x40 },
    ⟨1, 0, 1, 4, [1, 2, 3, 4], [false, false, false, false], [], false, none⟩⟩

theorem witness_Streams :
    (Readable regs (baseOp 2) .w64 ∧ Readable regs (.sp 1) .w32 ∧ regs.serving = false ∧ regs.bank.isCaptured 0 = false ∧
      regs.bank.lateClaims = false ∧ Orderly regs ∧ Mapped regs (regs.val64 (baseOp 2) + (0 : BitVec 20).setWidth 64)) ∧
    (let s := laid [(0x20040, 1, 2), (0x20044, 2, 1), (0x20046, 2, 4), (0x20048, 8, 0x10000)]
     BlockRead s (s.val64 (baseOp 2) + (0 : BitVec 20).setWidth 64) 0x20040 64 ∧ (∀ c ∈ strChecks (s.rd 0x20040 64), c.2 = false)) ∧
    (BlockRead regs (regs.val64 (baseOp 2) + (0 : BitVec 20).setWidth 64) 0x20040 64 ∧
      (let l := strChecks (regs.rd 0x20040 64)
       l = l.take 4 ++ (0x04, true) :: l.drop 5 ∧ ∀ e ∈ l.take 4, e.2 = false)) ∧
    ((strm .input 2 1).cut = false ∧ ({ strm .input 2 1 with cut := true } : Strm).cut = true ∧
      (streaming (strm .input 2 1) Strm.init).bank.stream 0 = strm .input 2 1 ∧
      2 < (strm .input 2 1).claimed + ((regs.val32 (.sp 1)).toNat + 1) ∧ ¬2 < (strm .input 2 1).claimed + (regs.val32 (.sp 1)).toNat) := by decide +kernel

theorem witness_Streams_traffic :
    (let s := { streaming (strm .input 4 0) Strm.init with wall := 128 }
     s.shadow = none ∧ s.freezes = [] ∧ s.held = [] ∧ s.reads = [] ∧ s.pend = [] ∧ s.refresh.2 ≤ s.wall ∧ s.bank.mayFill 0 = some 0 ∧ s.fillWaits (desc 4) 0 = false ∧ (desc 4).wraps = false ∧
     (∀ i, i < 1 → ∀ e, e < 4 →
        s.locateW s.cx s.bank.run .read (((desc 4).base + (0 * (desc 4).pstr + i * (desc 4).rstr) + 4 * e) % 2 ^ 64) 4
          = .at (0x20000 + 4 * e) ∧ s.served (0x20000 + 4 * e) false = true)) ∧
    (regs.bank.mayFill 0 = none ∧ (regs.bank.stream 0).outq = []) ∧
    (let s := streaming { strm .output 4 1 with outq := [handedOut] } Strm.init
     (s.bank.stream 0).outq = handedOut :: [] ∧ s.bank.run = some (placedRun 0) ∧ s.coreId < 1536 ∧
     (s.bank.stream 0).cut = false ∧ (∀ y ∈ s.bank.streams.toList, ∀ e ∈ y.outq, handedOut.no ≤ e.no) ∧
     -- a piece of stream 1 that has been handed out later and goes to the same home and lane
     (let t := streaming { strm .output 4 1 with outq := [handedOut] } { strm .output 4 1 with outq := [{ handedOut with no := 1 }] }
      (t.bank.stream 1).outq = { handedOut with no := 1 } :: [] ∧ handedOut ∈ (t.bank.stream 0).outq ∧ handedOut.no < 1 ∧
      (Home.pad 0, 0) ∈ t.outLanes handedOut ∧ (Home.pad 0, 0) ∈ t.outLanes { handedOut with no := 1 }) ∧
     handedOut.desc.ty ∈ [0, 1, 6] ∧ handedOut.desc.wraps = false ∧ handedOut.piece.elems.length = handedOut.piece.rows * handedOut.piece.cols ∧
     (∀ b ∈ handedOut.piece.bad, b = false) ∧ ({ s with freezes := [⟨.data, 0⟩] } : State).freezes ≠ [] ∧
     (∀ e, e < 4 → let a := handedOut.desc.base + 4 * e
       31 * 2 ^ 52 ≤ a ∧ a + 4 ≤ 31 * 2 ^ 52 + 2 ^ 21 ∧ a % 4 = 0)) := by decide +kernel

/-- An operation of C0 in the engine's queue. -/
def op (i : Instr) : EngOp :=
  ⟨0, 1, 0, [], 0x10000, i, 0, [], 3, 0, 0, 0, 0, 0, 0, none, [], 0, 0, BitVec.allOnes 128, [], 0, false, 0, [], none, [], 0, none⟩

/-- C0 with operations in the engine's queue, and slot 0 and rule 3 changed. -/
def queued (l : List EngOp) (y : OSlot) (r : Rule) : State :=
  bank fun b => { b with eng := l, slots := b.slots.set 0 y, rules := b.rules.set 3 r }

/-- A slot, or a ring that software consumes, with fill and capacity. -/
def slot (ring : Bool) (fill cap : Nat) : OSlot := ⟨true, 0, 0, 1, if ring then 3 else 0, 1, 1, 1, 64, fill, none, 0, cap⟩

theorem witness_EngineIssue :
    (regs.serving = false ∧ regs.cur.deferred = [] ∧ Orderly regs ∧ Mapped regs (regs.val64 (baseOp 2) + (0 : BitVec 18).setWidth 64) ∧
      Mapped regs (regs.val64 (baseOp 2) + (0 : BitVec 23).setWidth 64) ∧ Readable regs (baseOp 2) .w64 ∧ Readable regs (baseOp 0) .w64 ∧
      Readable regs (baseOp 15) .w64 ∧ Readable regs (.sp 1) .w32 ∧ Readable regs (.sp 1) .w64 ∧
      BlockRead regs (regs.val64 (baseOp 2) + (0 : BitVec 18).setWidth 64) 0x20040 64) ∧
    (tagOf (regs.val64 (.sp 0))).ok = true ∧ (tagOf (regs.val64 (.sp 3))).ok = false ∧
    (let s := laid [(0x20044, 4, 1), (0x20048, 8, 0x10080), (0x20050, 8, 0x100C0), (0x20058, 4, 64)]
     (match s.copyBlock .cpy (s.val64 (baseOp 2) + (0 : BitVec 23).setWidth 64) with | .ok _ => true | .error _ => false) = true ∧
     BlockRead s (s.val64 (baseOp 2) + (0 : BitVec 23).setWidth 64) 0x20040 64 ∧ (s.val32 (.sp 1)).toNat < 64) ∧
    (regs.turn = 0 ∧ (onAp regs).turn ≠ 0 ∧ (let o := op (.jointOperation .mma 0 .i8 false false 0)
     (onAp (queued [o, op .nop] OSlot.init Rule.init)).bank.eng = [] ++ o :: [op .nop] ∧ o.lacksMembers = true ∧
      ∀ x ∈ ([] ++ [op .nop] : List EngOp), x.lacksMembers = false)) := by
  decide +kernel

theorem witness_EngineClaims :
    (let s := streaming (strm .input 4 0) (strm .input 0 7)
     s.serving = false ∧ s.bank.eng = [] ∧ s.bank.isCaptured 0 = false ∧ s.bank.isCaptured 1 = false ∧ (0 : BitVec 4) ≠ 1 ∧
     (s.bank.stream 0).cut = false ∧ (s.bank.stream 1).cut = false ∧
     ({ s with bank := { s.bank with streams := s.bank.streams.set 0 { strm .input 4 0 with captured := some 3 } } } : State).bank.isCaptured 0 = true ∧
     (s.bank.stream 0).state = .input ∧ (s.bank.stream 1).state = .input ∧
     ¬(4 < (s.bank.stream 0).claimed + ((3 : BitVec 6).toNat + 1)) ∧ (s.bank.stream 1).desc.count = 0) ∧
    (let s := streaming (strm .input 4 4) Strm.init
     (s.bank.stream 0).state = .input ∧ (s.bank.stream 0).cut = false ∧ (s.bank.stream 0).desc.wraps = false ∧ (s.bank.stream 0).desc.count ≠ 0 ∧
     (s.bank.stream 0).desc.count < (s.bank.stream 0).claimed + 1 ∧ (s.bank.stream 1).state = .unconf) := by decide +kernel

theorem witness_ServiceLimits : serving.serving = true := by decide +kernel

theorem witness_EngineRuns :
    (let s := queued [op (.acfg 0 true 3 3 false)] OSlot.init Rule.init
     s.shadow = none ∧ s.freezes = [] ∧ s.pend = [] ∧ s.bank.recm.on = false ∧ s.bank.eng = op (.acfg 0 true 3 3 false) :: [] ∧ (s.bank.acc 0).live = false) ∧
    ((queued [op (.aczero 0 false)] OSlot.init Rule.init).bank.eng = op (.aczero 0 false) :: [] ∧
      ((queued [op (.aczero 0 false)] OSlot.init Rule.init).bank.acc 0).isI32 = false) ∧
    (let o := op (.extend (.q 0) 0 (.g 0))
     let s := queued [o] (slot false 2 0) Rule.init
     let u := queued [o] (slot true 2 5) Rule.init
     let w := queued [o] (slot true 3 5) Rule.init
     s.bank.eng = o :: [] ∧ (s.bank.slot 0).conf = true ∧ s.bank.owesOutput o.owner = false ∧ (s.bank.slot 0).ring = false ∧
     (u.bank.slot 0).ring = true ∧ (u.bank.slot 0).fill + 3 ≤ (u.bank.slot 0).cap + u.bank.consumeMark 0 ∧
     (w.bank.slot 0).ring = true ∧ ¬(w.bank.slot 0).fill + 3 ≤ (w.bank.slot 0).cap + w.bank.consumeMark 0) ∧
    (∀ i ∈ [Instr.rlstat (.q 0) (.g 0), .revoke (.q 0) (.g 0), .rlresume (.q 0) (.g 0)],
      let s := queued [op i] OSlot.init { Rule.init with state := .parked }
      s.bank.eng = op i :: [] ∧ (op i).valA.toNat < 32 ∧ (s.bank.rule (BitVec.ofNat 5 (op i).valA.toNat)).state = .parked) ∧
    (let o := { op .nop with err := some ⟨0x0D, 0x02, 0, 0, 0, []⟩ }
     (queued [o] OSlot.init Rule.init).bank.eng = o :: [] ∧ (queued [o] OSlot.init Rule.init).shadow = none ∧
     (queued [o] OSlot.init Rule.init).held = [] ∧ (queued [o] OSlot.init Rule.init).pend = [] ∧
     regs.bank.eng = [] ∧ (queued [op .nop] OSlot.init Rule.init).bank.eng = op .nop :: []) := by decide +kernel

/-- A piece that lies read in a stream's buffer. -/
def piece (rows cols : Nat) (l : List Word) : Piece := ⟨0, 0, rows, cols, l, [], [], false, none⟩

/-- An operation on accumulator 0, which has 2 x 2 elements, and the claimed piece of stream 0. -/
def tile (i : Instr) (i32 out : Bool) (ty rows cols : Nat) (p : Piece) : State :=
  let c : Claim := ⟨0, 0, 0, 1, 0, { desc 0 with ty := ty, rows := rows, cols := cols, flags := if out then 1 else 0 }⟩
  let s := streaming { Strm.init with state := if out then .output else .input, desc := c.desc, buf := [p] } Strm.init
  { s with bank := { s.bank with
    eng := [{ op i with claims := [c] }]
    accs := s.bank.accs.set 0 { Acc.init with rows := 2, cols := 2, isI32 := i32 } } }

/-- What the statement asks of the operation at the head of the queue, and of its claimed piece. -/
def tileReady (s : State) (i32 : Bool) (out : Bool) (ty rows cols : Nat) : Bool :=
  match s.bank.eng with
  | [o] =>
    match o.claims with
    | [c] => decide (s.shadow = none ∧ s.freezes = [] ∧ s.bank.recm.on = false ∧ s.pend = [] ∧ o.err = none ∧ o.rule = none ∧
        o.members = [] ∧ o.need = BitVec.allOnes 128 ∧ o.flags = 0 ∧ s.opWaits o = false ∧ (s.bank.acc 0).isI32 = i32 ∧
        (s.bank.acc 0).rows ≤ 128 ∧ c.desc.isOut = out ∧ c.desc.ty = ty ∧ c.desc.rows = rows ∧ c.desc.cols = cols ∧
        (out = false → (s.pieceOf c 0).fault = none ∧ ∀ y ∈ (s.pieceOf c 0).bad, y = false) ∧
        (out = true → s.drainBad c 2 2 = none))
    | _ => false
  | _ => false

theorem witness_EngineRuns_tiles :
    tileReady (tile (.acload 0 0 true) true false 0 2 2 (piece 2 2 [1, 2, 3, 4])) true false 0 2 2 = true ∧
    tileReady (tile (.tadd 0 0 .i32 0) true false 0 2 2 (piece 2 2 [1, 2, 3, 4])) true false 0 2 2 = true ∧
    tileReady (tile (.tadd 0 0 .f32 1) false false 6 1 2 (piece 1 2 [1, 2])) false false 6 1 2 = true ∧
    tileReady (tile (.tmul 0 0 .f32 2) false false 6 2 1 (piece 2 1 [1, 2])) false false 6 2 1 = true ∧
    tileReady (tile (.tscale 0 0 .f32) false false 6 1 1 (piece 1 1 [1])) false false 6 1 1 = true ∧
    tileReady (tile (.acdrain 0 0 0 0 .i32 false false true ⟨.rne, false⟩) true true 0 2 2 (piece 0 0 [])) true true 0 2 2 = true := by
  decide +kernel

theorem witness_TernaryProduct :
    let da := { desc 0 with ty := 4, rows := 2, cols := 32 }
    let db := { desc 0 with ty := 12, rows := 32, cols := 1 }
    let ca : Claim := ⟨0, 0, 0, 1, 0, da⟩
    let cb : Claim := ⟨1, 0, 0, 1, 0, db⟩
    let o := { op (.tmm 0 0 1 false false 0) with claims := [ca, cb] }
    let pa := piece 2 32 (List.replicate 64 0xFF)
    let pb := piece 32 1 (List.replicate 32 2)
    let s0 := streaming { Strm.init with state := .input, desc := da, buf := [pa] } { Strm.init with state := .input, desc := db, buf := [pb] }
    let s := { s0 with bank := { s0.bank with eng := [o], accs := s0.bank.accs.set 0 { Acc.init with rows := 2, cols := 1, isI32 := true } } }
    s.shadow = none ∧ s.freezes = [] ∧ s.pend = [] ∧ s.bank.recm.on = false ∧ s.bank.eng = o :: [] ∧ o.err = none ∧ o.chunk = 0 ∧
    o.need = BitVec.allOnes 128 ∧ o.flags = 0 ∧ s.opWaits o = false ∧
    (s.bank.acc 0).isI32 = true ∧ (s.bank.acc 0).rows = 2 ∧ da.isOut = false ∧ db.isOut = false ∧ s.pieceOf ca 0 = pa ∧
    s.pieceOf cb 0 = pb ∧ (∀ p ∈ [pa, pb], p.fault = none ∧ p.scales = [] ∧ p.tc = false ∧ ∀ b ∈ p.bad, b = false) := by
  decide +kernel

theorem witness_CopyIssue :
    (Readable regs (baseOp 2) .w64 ∧ regs.serving = false ∧ Orderly regs ∧ Mapped regs (regs.val64 (baseOp 2) + (0 : BitVec 23).setWidth 64)) ∧
    (let s := laid [(0x20044, 4, 1), (0x20048, 8, 0x10080), (0x20050, 8, 0x100C0), (0x20058, 4, 64)]
     (match s.copyBlock .cpy (s.val64 (baseOp 2) + (0 : BitVec 23).setWidth 64) with
        | .ok b => decide ((s.bank.chan b.chan).queue.length < 16) | .error _ => false) = true) ∧
    16 ≤ ((copying (List.replicate 16 (aCopy .cpy 1 8)) []).bank.chan 0).queue.length ∧
    (BlockRead regs (regs.val64 (baseOp 2) + (0 : BitVec 23).setWidth 64) 0x20040 64 ∧
      (let l := regs.copyChecks .cpy (regs.rd 0x20040 64)
       l = l.take 4 ++ (0x04, true) :: l.drop 5 ∧ ∀ e ∈ l.take 4, e.2 = false)) ∧
    (let c := (copying [] []).bank.chan 0
     -- identifiers 0 (done), 1 (the last given: the channel's next one is 2) and 2 (still to give)
     c.next = 2 ∧ c.done = 0 ∧ Readable (copying [] []) (.sp 0) .w32 ∧
     ¬(0 - c.next).toNat < 2 ^ 31 ∧ (c.done - 0).toNat < 2 ^ 31 ∧
     ¬(1 - c.next).toNat < 2 ^ 31 ∧ ¬(c.done - 1).toNat < 2 ^ 31 ∧ (2 - c.next).toNat < 2 ^ 31) := by decide +kernel

theorem witness_CopyRuns :
    (let x := aCopy .cpy 1 8
     let s := copying [x] []
     s.shadow = none ∧ s.pend = [] ∧ x.kind.indexed = false ∧ s.bank.mayStart 0 = some x ∧
     s.boardFits (s.boardFor s.bank.run 0 x) = true ∧ x.indices = none ∧ regs.bank.mayStart 0 = none) ∧
    (let x := aCopy .cpy 1 8
     let s := copying [] [x]
     (s.bank.chan 0).started = [x] ∧ x.blk.rows = 1 ∧ x.blk.len = 8 * 1 ∧ (s.bank.chan 0).completed = [] ∧
     x.id = (s.bank.chan 0).done + 1 ∧ x.blk.extends = false ∧
     { x.blk with flags := 1 }.extends = true ∧
     s.locateW s.cx s.bank.run .read (x.blk.src % 2 ^ 64) 8 = .at 0x20040 ∧ s.served 0x20040 false = true ∧
     s.locateW s.cx s.bank.run .write (x.blk.dst % 2 ^ 64) 8 = .at 0x20080 ∧ s.served 0x20080 true = true ∧
     0x20040 + 8 ≤ 0x20080 ∧ s.mem.poison = [] ∧ MemOk s ∧ (∀ y ∈ (regs.bank.chan 0).started, y.id ≠ x.id) ∧
     (∀ k : BitVec 2, ∀ d ∈ (s.bank.chan k).started ++ (s.bank.chan k).queue, x.seq ≤ d.seq)) ∧
    (let e : CopyErr := ⟨0x06, none, 1, 0, 2, aCopy .cpy 1 8⟩
     let s := bank fun b => { b with chans := b.chans.set 0 { Chan.init with faults := [e] } }
     (s.bank.chan 0).faults = e :: [] ∧ (regs.bank.chan 0).faults = []) := by decide +kernel

/-- An armed rule of the form `tact` whose driving slot is slot 0. -/
def armed : Rule := { Rule.init with state := .armed }

theorem witness_Firing :
    (regs.freezes = [] ∧ regs.bank.round = [] ∧ regs.bank.readyRules = [] ∧ ({ regs with freezes := [⟨.data, 0⟩] } : State).freezes ≠ []) ∧
    (let s := queued [] (slot false 1 0) armed
     s.bank.round = [] ∧ s.bank.readyRules = 3 :: [] ∧ (s.bank.rule 3).form = .tact 0 0 0) ∧
    (let s := queued [] (slot false 1 0) { armed with state := .firing, fired := some (0x10, none) }
     s.shadow = none ∧ (s.bank.rule 3).fired = some (0x10, none) ∧ (s.bank.rule 3).revoking = false ∧
     (s.bank.rule 3).limit = none ∧ (s.bank.rule 3).form = .tact 0 0 0) ∧
    (regs.bank.rule 3).fired = none := by decide +kernel

/-- C0 with queues to C1: entries of queue 0 and of the branch queue. -/
def crowded (x b : Nat) (halted : Bool) : State :=
  regs.mapAgent 1 fun a => { a with
    xq := a.xq.set 0 (List.replicate x 5), bq := List.replicate b true, halted := halted }

theorem witness_Queues :
    (Readable regs (.g 4) .w64 ∧ Readable regs (.g 4) .w32) ∧
    (let s := crowded 63 63 false
     ∀ t ∈ ([0, 1, 2, 3] : List AgentId), (s.agent t).halted = false ∧ ((s.agent t).xq[(0 : BitVec 2).toNat]).length < 64 ∧
      (s.agent t).bq.length < 64) ∧
    ((crowded 0 0 true).agent 1).halted = true ∧
    (let s := crowded 64 64 false
     (∀ t ∈ ([0, 1, 2, 3] : List AgentId), (s.agent t).halted = false) ∧
     64 ≤ ((s.agent 1).xq[(0 : BitVec 2).toNat]).length ∧ 64 ≤ (s.agent 1).bq.length) ∧
    ((regs.mapCur fun a => { a with xq := a.xq.set 0 [5, 6] }).cur.xq[(0 : BitVec 2).toNat] = 5 :: [6] ∧
      regs.cur.xq[(0 : BitVec 2).toNat] = []) := by decide +kernel

/-- A record in memory that passes the checks of a push, with a counter. -/
def pushable (cnt : Nat) : State := laid [(0x20058, 4, 100), (0x2005C, 4, cnt), (0x20062, 2, 1)]

/-- The state in a supervisor context that is defined. -/
def asSuper (s : State) : State := { s with bank := super.bank, ctxs := super.ctxs }

theorem witness_Scheduling :
    (Readable regs (baseOp 2) .w64 ∧ Readable regs (.sp 0) .w32 ∧ Readable regs (.sp 0) .w64 ∧ regs.cur.deferred = [] ∧
      Orderly regs ∧ Mapped regs (regs.val64 (baseOp 2) + (0 : BitVec 24).setWidth 64)) ∧
    (let va := regs.val64 (baseOp 2) + (0 : BitVec 24).setWidth 64
     -- a good record with a counter of 0 and of 1, one without a budget, and a die beyond the package
     (∀ n ∈ [0, 1], (pushable n).recordAt (pushable n).cx (pushable n).bank.run va = .ok 0x20040 ∧
      recordStatus ((pushable n).rd 0x20040 64) (decide (8192 ≤ (pushable n).storeCount 0)) = 0 ∧ (pushable n).recs = [] ∧
      MemOk (pushable n) ∧ (pushable n).rdNat (0x20040 + 0x1C) 4 = n ∧
      (asSuper (pushable n)).recordAt 0 none va = .ok 0x20040) ∧
     recordStatus (regs.rd 0x20040 64) false ≠ 0 ∧
     (let u := (pushable 0).mapCur fun a => { a with g := a.g.set 0 24 }
      24 ≤ (u.val32 (.g 0)).toNat % 32 ∧ Readable u (.g 0) .w32) ∧
     (let s := asSuper (pushable 0)
      s.supervisor = true ∧ s.ctxs[((s.val32 (.sp 0)).setWidth 6 : BitVec 6).toNat].defined = true ∧
      s.ctxs[((s.val32 (.sp 0)).setWidth 6 : BitVec 6).toNat].part = s.part) ∧
     regs.supervisor = false ∧
     (∀ n ∈ [0, 1, 2], (pushable n).access .atomic va 64 0 = .ok 0x20040 ∧ (pushable n).served 0x20040 false = true ∧
      (pushable n).mem.poisonAt 0x20040 64 = none ∧ (pushable n).served (0x20040 + 0x1C) true = true ∧
      ∀ r ∈ (pushable n).recs, r.home ≠ 0x20040) ∧
     (let s := { asSuper regs with recs := [srec 4] }
      s.supervisor = true ∧ s.recordAt s.cx s.bank.run va = .ok 0x20040 ∧ (srec 4).home = 0x20040 ∧ (srec 4).state = 4 ∧
      s.ctxs[(srec 4).ctx.toNat].part = s.part ∧ ∀ r ∈ super.recs, r.home = 0x20040 → r.state ≠ 4)) := by decide +kernel

/-- C0 with its own barrier state and that of the other agents. -/
def meeting (own : Option (Bool × Bool)) (other : Option (Bool × Bool)) : State :=
  let s := regs.mapCur fun a => { a with barrier := own }
  ([1, 2, 3, 4] : List AgentId).foldl (fun s k => s.mapAgent k fun a => { a with barrier := other }) s

theorem witness_Events :
    (Readable regs (.sp 0) .w32 ∧ regs.cur.deferred = [] ∧ Orderly regs ∧ regs.bank.run = some (placedRun 0) ∧ regs.recs = []) ∧
    ((placedRun 0).behind = false ∧ ({ placedRun 0 with behind := true } : Run).behind = true) ∧
    (let r := { srec 1 with snap := { snap0 with waitMask := 1 } }
     let s := { regs with recs := [r] }
     s.recs = [r] ∧ r.ctx = s.cx ∧ r.state = 1 ∧ s.rdNat (r.home + 0x1C) 4 = 0 ∧ r.snap.waitMask = (1 : BitVec 256) <<< ((s.val32 (.sp 0)).toNat % 256)) ∧
    regs.ctxs[regs.cx.toNat].ev.getLsbD 0 = false ∧
    ({ regs with ctxs := regs.ctxs.set 0 { Ctx.init with ev := 1 } } : State).ctxs[regs.cx.toNat].ev.getLsbD 0 = true ∧
    (∀ g : Bool, (meeting none (some (g, false))).cur.barrier = none ∧
      (∀ k : AgentId, k ≠ (meeting none (some (g, false))).turn →
        ((meeting none (some (g, false))).agent k).barrier = some (g, false)) ∧
      (meeting (some (g, true)) none).cur.barrier = some (g, true)) ∧
    ((meeting none none).cur.barrier = none ∧ (1 : AgentId) ≠ (meeting none none).turn ∧
      ((meeting none none).agent 1).halted = false ∧ ((meeting none none).agent 1).barrier = none) := by decide +kernel

/-- C0 in a partition with unit 1, which holds entries. -/
def units (l : List (DWord × DWord)) : State :=
  { regs with parts := regs.parts.set 0 { Part.init with pqs := 2 }, pqs := regs.pqs.set 1 l }

theorem witness_PriorityQueues :
    (Readable regs (.g 4) .w64 ∧ Readable regs (.sp 3) .w64 ∧ regs.cur.deferred = [] ∧ Orderly regs) ∧
    ((1 : BitVec 3) ≠ 0 ∧ (units []).parts[(units []).part.toNat].pqs.getLsbD (1 : BitVec 3).toNat = true) ∧
    ((units []).val64 (.sp 3) = 0xFFFFFFFFFFFFFFFF ∧ (units []).val64 (.sp 0) ≠ 0xFFFFFFFFFFFFFFFF) ∧
    4096 ≤ ((units (List.replicate 4096 (5, 6))).pqs[(1 : BitVec 3).toNat]).length ∧
    ((units (List.replicate 4095 (5, 6))).pqs[(1 : BitVec 3).toNat]).length < 4096 ∧
    (units []).pqs[(1 : BitVec 3).toNat] = [] ∧ (units [(5, 6), (4, 7)]).pqs[(1 : BitVec 3).toNat] ≠ [] ∧
    (units []).parts[(units []).part.toNat].pqs.getLsbD (2 : BitVec 3).toNat = false := by decide +kernel

/-- A list with a header and entries: length, share word, capacity exponent and base of each. -/
def kv (n flags : Nat) (es : List (Nat × Nat × Nat)) : State :=
  (List.range es.length).foldl (fun s e =>
    let x := es.getD e (0, 0, 0)
    ((((s.wrNat (0x20050 + 16 * e) 8 (0x1000 * (e + 1))).wrNat (0x20058 + 16 * e) 4 x.1).wrNat (0x2005C + 16 * e) 2 x.2.1).wrNat
      (0x2005E + 16 * e) 1 x.2.2))
    (laid [(0x20040, 1, n), (0x20041, 1, flags), (0x20048, 4, 64)])

/-- The list's header and entries are readable, for a list of n entries. -/
def kvReads (s : State) (n : Nat) : Bool :=
  decide (s.rdNat 0x20040 1 = n ∧ BlockRead s (s.val64 (baseOp 2) + (0 : BitVec 24).setWidth 64) 0x20040 16 ∧
    ∀ e ∈ List.range n, BlockRead s (s.val64 (baseOp 2) + (0 : BitVec 24).setWidth 64 + BitVec.ofNat 64 (16 + 16 * e)) (0x20050 + 16 * e) 16)

theorem witness_KvResults :
    (Readable regs (baseOp 2) .w64 ∧ Readable regs (.sp 0) .w32 ∧ Readable regs (.sp 0) .w64 ∧ regs.cur.deferred = [] ∧
      Orderly regs ∧ Mapped regs (regs.val64 (baseOp 2) + (0 : BitVec 24).setWidth 64) ∧
      Mapped regs (regs.val64 (baseOp 2) + (0 : BitVec 24).setWidth 64 + BitVec.ofNat 64 256)) ∧
    kvReads (kv 0 0 []) 0 = true ∧ kvReads (kv 2 0 [(5, 1, 3), (2, 1, 2)]) 2 = true ∧ kvReads (kv 16 0 []) 16 = true ∧
    kvReads (kv 17 0 []) 17 = true := by decide +kernel

theorem witness_KvResults_find :
    (let s := (kv 2 0 []).wrNat 0x20042 2 1
     kvReads s 2 = true ∧ s.rdNat (0x20040 + 2) 2 ≠ 0) ∧
    (let s := kv 2 0 [(5, 1, 3), (2, 0, 2)]
     let len := fun e => s.rdNat (0x20050 + 16 * e + 8) 4
     -- token 0 lies in entry 0, token 6 in entry 1, which is not shared, and tokens from 7 on past the end
     len 0 = 5 ∧ len 1 = 2 ∧ (s.val32 (.sp 0)).toNat < len 0 ∧ s.rdNat (0x20050 + 12) 2 % 4096 = 1 ∧
     s.rdNat (0x20060 + 12) 2 % 4096 = 0 ∧ (s.val32 (.g 0)).toNat = len 0 + len 1 ∧
     (let u := s.mapCur fun a => { a with g := a.g.set 0 6 }
      len 0 ≤ (u.val32 (.g 0)).toNat ∧ (u.val32 (.g 0)).toNat < len 0 + len 1)) := by decide +kernel

theorem witness_KvResults_fork :
    (let s := kv 1 0 [(5, 1, 3)]
     let va := s.val64 (baseOp 2) + (0 : BitVec 24).setWidth 64
     s.access .atomic (va + BitVec.ofNat 64 16) 16 0 = .ok 0x20050 ∧ s.served (0x20050 + 8) true = true ∧
     s.access .atomic va 8 0 = .ok 0x20040 ∧ s.served (0x20040 + 4) true = true ∧ MemOk s ∧
     (let u := s.mapCur fun a => { a with g := (a.g.set 0 0x11000).set 1 0 }
      NoneOwed u ∧ va.toNat + 272 ≤ (u.val64 (.g 0)).toNat ∧ u.access .atomic (va + BitVec.ofNat 64 16 + 12) 4 0 = .ok (0x20050 + 12) ∧
      u.access .write (u.val64 (.g 0) + 16) 16 0 = .ok 0x21010 ∧ u.access .write (u.val64 (.g 0)) 16 0 = .ok 0x21000 ∧
      Mapped u (va + BitVec.ofNat 64 16 + 12) ∧ Mapped u (u.val64 (.g 0)) ∧ Mapped u (u.val64 (.g 0) + 16) ∧
      (∀ x ∈ [0x20050 + 12, 0x21010, 0x21000], u.served x true = true) ∧
      (∀ x ∈ [(0x20050, 0x20040), (0x20050, 0x21000), (0x20050, 0x21010), (0x20040, 0x21000), (0x20040, 0x21010), (0x21000, 0x21010)],
        x.1 + 16 ≤ x.2 ∨ x.2 + 16 ≤ x.1))) := by decide +kernel

/-- C0 with an entry for cause 0x10 in its action table: action and replay limit. -/
def actions (act limit : Nat) : State :=
  let s := laid [(0x50100, 1, act), (0x50102, 2, limit)]
  { s with
    ctxs := s.ctxs.set 0 { Ctx.init with action := 0x50000, save := 0x60000, stride := 0x11000 }
    parts := s.parts.set 0 { Part.init with ring := 0x80000, ctl := 0x90000 } }

theorem witness_TrapActions :
    (let s := actions 2 0
     let q := s.trapAt 0x10 3 0x1234
     s.bank.run = some (placedRun 0) ∧ s.serving = false ∧ q.engine = false ∧ q.deferred = false ∧ q.rule = none ∧
     q.shown = none ∧ q.redo = .bundle ∧ q.late = 0 ∧ Orderly s ∧ q.cause ≠ 0x1A ∧ q.tail.length ≤ 64 ∧ (∀ a : AgentId, (s.agent a).latches = []) ∧
     8 < s.queueFree 0 ∧ MemOk s ∧
     0x60000 + 4096 ≤ 0x80000 + 64 * (s.rdNat 0x90000 4 % 256) ∧ 0x60000 + 4096 ≤ 0x90000 ∧
     0x80000 + 64 * (s.rdNat 0x90000 4 % 256) + 64 ≤ 0x90000) ∧
    (∀ x ∈ [(0, 0), (1, 0), (1, 1), (2, 0), (4, 0)], let s := actions x.1 x.2
      s.backedPa 0x50100 = true ∧ s.mem.poisonAt 0x50100 16 = none ∧ s.rdNat 0x50100 1 = x.1 ∧ s.rdNat 0x50102 2 = x.2 ∧
      s.rdNat 0x50101 1 = 0 ∧ s.rdNat 0x50104 4 = 0) ∧
    -- the first replay at a pc is within a limit of 1, and the second one past it
    ((placedRun 0).replays + 1 ≤ 1 ∧ ({ placedRun 0 with replays := 1 } : Run).replays + 1 > 1) ∧
    (regs.trapAt 0x1A 0 0).cause = 0x1A ∧
    -- a queue with 8 free entries, where the record is withheld
    ((actions 2 0).wrNat 0x90000 4 248).queueFree 0 ≤ 8 := by decide +kernel

/-- FORWARD: the record of the supervisor context at the handler's address can be pushed, and its frame pointer can be written. -/
theorem witness_TrapActions_forward :
    let u := actions 3 0
    let s : State := { ((((u.wrNat 0x50108 8 0x11000).wrNat 0x21008 8 0x12000).wrNat 0x21018 4 100).wrNat 0x21022 2 1) with
      ctxs := u.ctxs.set 1 { Ctx.init with defined := true, supervisor := true }
      tlb := ⟨1, 0x10000, 0x10000, 0x20000, true, true⟩ :: u.tlb }
    s.supervisorOf 0 = some 1 ∧ s.rdNat 0x50100 1 = 3 ∧ s.rdNat 0x50108 8 = 0x11000 ∧ 0x11000 % 64 = 0 ∧
    s.locateW 1 none .read 0x11000 64 = .at 0x21000 ∧ s.locateW 1 none .write 0x11000 64 = .at 0x21000 ∧
    s.served 0x21000 false = true ∧ s.served 0x21000 true = true ∧ s.mem.poisonAt 0x21000 64 = none ∧
    recordStatus (s.rd 0x21000 64) (decide (8192 ≤ s.storeCount s.die)) = 0 ∧ s.rdNat (0x21000 + 8) 8 = 0x12000 ∧
    s.locateW 1 none .write 0x12000 64 = .at 0x22000 ∧ s.served 0x22000 true = true ∧ (s.tlbFind 1 0x12000).isSome = true ∧ (s.tlbFind 1 0x11000).isSome = true ∧
    0x22000 + 64 ≤ 0x60000 ∧ 0x21000 + 64 ≤ 0x22000 ∧ s.recs = [] ∧ Orderly s := by decide +kernel

/-- C0 with page tables that map 0x10000 to 0x5000, and a walk. -/
def walking (va : Nat) : State :=
  { laid [(0, 8, 0x1001), (0x1000, 8, 0x2001), (0x2000, 8, 0x3001), (0x3000, 8, 0x4001), (0x4080, 8, 0x500F)] with
    walk := some ⟨0, va, 0, 0, none, some ⟨0, 0x10000, 0x1000, 0x5000, true, true⟩, 0x06⟩ }

theorem witness_FreezeEvents :
    regs.walk = none ∧ regs.walks = [] ∧
    (let w : Walk := ⟨0, 0x10000, 0, 0, none, some ⟨0, 0x10000, 0x1000, 0x5000, true, true⟩, 0x06⟩
     let s := { walking 0x10000 with walk := none, walks := [w] }
     s.walk = none ∧ s.walks = [w] ∧ w.till ≤ s.wall ∧ w.ent = some ⟨0, 0x10000, 0x1000, 0x5000, true, true⟩) ∧
    -- a walk that has read a translation, one that has failed, and one that is not over
    (let w : Walk := ⟨0, 0x10000, 0, 0, none, some ⟨0, 0x10000, 0x1000, 0x5000, true, true⟩, 0x06⟩
     (walking 0x10000).walk = some w ∧ w.bad = none ∧ w.till ≤ (walking 0x10000).wall ∧
      (walking 0x10000).walkVa 0 0x10000 = .ok ⟨0, 0x10000, 0x1000, 0x5000, true, true⟩ ∧ { w with ent := none }.ent = none ∧
      (walking 0x10000).wall < { w with till := 1 }.till) ∧
    ((∃ f ∈ ({ regs with freezes := [⟨.data, 0⟩] } : State).freezes, f.why = .data ∧ f.left = 0) ∧
      ∀ f ∈ ({ regs with freezes := [⟨.data, 7⟩] } : State).freezes, f.left ≠ 0) ∧
    ((0 : BitVec 16).toInt < 2000 ∧ (1840 : BitVec 16).toInt < 2000 ∧ (0xFFFF : BitVec 16).toInt < 2000) ∧
    (regs.bank.run = some (placedRun 0) ∧ (placedRun 0).part = 0) ∧
    (regs.throttle.judged ≠ some (regs.wall / 4096) ∧
      ({ regs with throttle := { regs.throttle with judged := some 0 } } : State).throttle.judged = some (regs.wall / 4096)) ∧
    (regs.health.toList[(23 : BitVec 5).toNat]? = some Health.init ∧ (Health.init.history.head?.map (·.1)) ≠ some (regs.wall / 6480000000000) ∧
      (Health.init.sampled 0 [1] 0).history.head?.map (·.1) = some (regs.wall / 6480000000000) ∧ ([1, 3, 2] : List (BitVec 16)) ≠ []) := by
  decide +kernel

/-- C0 in a partition with a watchdog of 1,024 cycles and a timer of 100, waiting since time 0, at time 1,024. -/
def late : State :=
  let s := regs.mapCur fun a => { a with waiting := some (.token, 0) }
  { s with wall := 1024, parts := s.parts.set 0 { Part.init with enabled := true, now := ⟨1, 0, 100, 0⟩ } }

/-- A ready record that would miss its deadline, and a run whose deadline is later. -/
def sharing : State :=
  { regs with
    bank := { regs.bank with run := some { placedRun 0 with snap := { snap0 with deadline := 5 } } }
    ctxs := regs.ctxs.set 0 { Ctx.init with defined := true }
    parts := regs.parts.set 0 { Part.init with enabled := true, weight := 1, preDeadlines := true }
    recs := [srec 2] }

theorem witness_RunEvents :
    (regs.bank.run = some (placedRun 0) ∧ late.bank.run = some (placedRun 0)) ∧
    (1024 * (late.parts[late.part.toNat]).now.watchdog ≠ 0 ∧ (late.agent 0).waiting = some (.token, 0) ∧
      0 + 1024 * (late.parts[late.part.toNat]).now.watchdog ≤ late.wall) ∧
    (1024 * (regs.parts[regs.part.toNat]).now.watchdog = 0) ∧
    ({ placedRun 0 with budget := 0 } : Run).budget = 0 ∧ ({ placedRun 0 with budget := 1 } : Run).budget ≠ 0 ∧
    (placedRun 0).logcore = (placedRun 0).snap.origin ∧ ({ placedRun 0 with logcore := 1 } : Run).logcore ≠ (placedRun 0).snap.origin ∧
    (placedRun 0).dropped = false ∧ regs.walk = none ∧ (regs.parts[(0 : BitVec 4).toNat]).resetting = false ∧
    (late.parts[(0 : BitVec 4).toNat]).resetting = false ∧
    ((late.parts[(0 : BitVec 4).toNat]).enabled = true ∧ (late.parts[(0 : BitVec 4).toNat]).now.timer ≠ 0 ∧
      (late.parts[(0 : BitVec 4).toNat]).now.last + (late.parts[(0 : BitVec 4).toNat]).now.timer ≤ late.wall ∧ (placedRun 0).part = 0 ∧
      late.shadow = none ∧ (∀ c ∈ (placedRun 0).members, late.coreId ≤ c) ∧ late.taken = []) ∧
    (regs.phase = .running ∧ (onAp regs).turn ≠ 0 ∧ regs.gangStop = none) ∧
    (regs.turn = 0 ∧ regs.freezes = [] ∧ regs.serving = false ∧ regs.reissue = none ∧ (placedRun 0).snap.drainable = false) ∧
    sharing.wantsStop = true ∧ regs.wantsStop = false := by decide +kernel

/-- A run of the record, in a phase. -/
def ending (p : Phase) (e : Option (Option DWord)) : State :=
  { regs with
    phase := p
    bank := { regs.bank with run := some { placedRun 0 with recAddr := 0x10040, ending := e } }
    recs := [srec 3] }

/-- An idle core with a ready record of an image at 0x10000: its header and one temporal level. -/
def startable : State :=
  { laid [(0x20000, 4, 0x4B34325A), (0x20004, 2, 1), (0x20010, 4, 0x80), (0x20014, 4, 0x100), (0x20034, 4, 0x80),
      (0x20038, 2, 1), (0x20068, 2, 1), (0x20084, 4, 10)] with
    phase := .idle
    bank := Bank.init
    ctxs := regs.ctxs.set 0 { Ctx.init with defined := true, areas := 1, stride := 0x20000 }
    parts := regs.parts.set 0 { Part.init with enabled := true, cap := 1, weight := 1 }
    recs := [srec 2] }

theorem witness_RunEnds :
    (let r := { placedRun 0 with recAddr := (0x10040 : DWord) }
     (ending (.switching .ready 0) none).recs = [srec 3] ∧ (srec 3).ctx = r.ctx ∧ (srec 3).addr = r.recAddr ∧
     (ending (.switching .ready 0) none).bank.run = some r ∧ (ending (.saving .ready) none).bank.quiet = true ∧
     (ending (.saving .ready) none).shadow = none ∧ (ending (.saving .ready) none).board = [] ∧
     (ending .draining (some none)).bank.run = some { r with ending := (some none) } ∧
     (ending .draining (some (some 0))).bank.run = some { r with ending := (some (some 0)) } ∧
     (ending .draining (some (some 7))).bank.run = some { r with ending := (some (some 7)) } ∧
     (ending .draining (some none)).bank.drained = true ∧ (∀ a : AgentId, ((ending .draining (some none)).agent a).deferred = []) ∧
     Orderly (ending .draining (some none)) ∧ r.behind = false ∧ r.logcore = r.snap.origin ∧ r.kind = none ∧
     (srec 3).state = 3 ∧ (ending .draining (some none)).parts[r.part.toNat].doorbells = []) ∧
    (startable.recs = [srec 2] ∧ startable.phase = .idle ∧ (srec 2).die = startable.die ∧
      startable.taken = [] ∧ startable.selectable (srec 2) = true ∧ (srec 2).resume = none ∧
      (match startable.admission (srec 2).ctx (srec 2).snap with
        | .ok i => decide ((srec 2).snap.gang = 1 ∧ ∀ l ∈ i.levels, l.kind = 0) | .error _ => false) = true ∧
      startable.core < 64 ∧ startable.die < 24) := by decide +kernel

/-- A header of a mailbox command for partition and context 0. -/
def hdr : MbHdr := ⟨7, 0, 0, 0, 0⟩

theorem witness_Mailbox :
    (regs.mailbox.busy = false ∧ regs.mailbox.discard = false ∧ regs.stage = 6 ∧ (0xC001 : BitVec 16) ∉ opcodes ∧ (0xC0FF : BitVec 16) ∉ opcodes ∧
      (0x1234 : BitVec 16) ∉ opcodes ∧ 0xC000 ≤ (0xC001 : BitVec 16) ∧ (0xC0FF : BitVec 16) ≤ 0xC0FF ∧ 0 ∉ regs.msix.masked ∧
      ({ regs with msix := ⟨[], [0], []⟩ } : State).msix.masked = [0]) ∧
    (({ regs with mailbox := { regs.mailbox with discard := true } } : State).mailbox.discard = true) ∧
    (({ regs with mailbox := { regs.mailbox with busy := true } } : State).mailbox.busy = true ∧ ({ regs with stage := 5 } : State).stage < 6) ∧
    (hdr.part.toNat < 16 ∧ hdr.ctx.toNat < 64 ∧ hdr.zero = 0 ∧ hdr.compl.toNat % 64 = 0 ∧ hdr.compl.toNat < 2 ^ 52 ∧ hdr.compl = 0) ∧
    (let h := { hdr with part := 15, ctx := 0xFF, compl := 0xFFFFFFFFFFFC0 }
     h.part.toNat < 16 ∧ h.ctx = 0xFF ∧ h.compl.toNat % 64 = 0 ∧ h.compl.toNat < 2 ^ 52 ∧ h.compl ≠ 0 ∧ MemOk regs) ∧
    (16 ≤ ({ hdr with part := 16 } : MbHdr).part.toNat ∧ 64 ≤ ({ hdr with ctx := 64 } : MbHdr).ctx.toNat ∧
      ({ hdr with ctx := 64 } : MbHdr).ctx ≠ 0xFF ∧ ({ hdr with ctx := 63, zero := 1 } : MbHdr).ctx.toNat < 64 ∧
      ({ hdr with ctx := 63, zero := 1 } : MbHdr).zero ≠ 0) := by decide +kernel

/-- The package with context 0 defined, an owner key, and model slot 0 of partition 0. -/
def owned : State :=
  { regs with
    ctxs := regs.ctxs.set 0 { Ctx.init with defined := true, model := some 0 }
    parts := regs.parts.set 0 { Part.init with ownerKey := [1], stopped := true, banks := 3 }
    models := regs.models.set 0 ((regs.models[(0 : Nat)]).set 0 ⟨true, 3, 256, []⟩) }

/-- An image of 320 bytes in host memory: one temporal level, entries at its only instruction; and the tables of the context. -/
def imaged : State :=
  let k := 2 ^ 52
  { [(k, 4, 0x4B34325A), (k + 4, 2, 1), (k + 8, 8, 320), (k + 0x10, 4, 0x100), (k + 0x14, 4, 0x40), (k + 0x2C, 4, 0x80),
      (k + 0x30, 4, 0), (k + 0x34, 4, 0x80), (k + 0x38, 2, 1), (k + 0x68, 2, 1), (k + 0x84, 4, 10),
      (0, 8, 0x1001), (0x1000, 8, 0x2001), (0x2000, 8, 0x3001), (0x3000, 8, 0x4001)].foldl
      (fun (s : State) (e : Nat × Nat × Nat) => s.wrNat e.1 e.2.1 e.2.2) owned with
    oracle := { regs.oracle with load := [(0x40000, 0x100000)] } }

/-- A loaded image of one page, and context 0 with it. -/
def loadedImg : Loaded := ⟨0x40000, 320, [], [(0x40000, 0x100000)]⟩

/-- See `loadedImg`. -/
def holding : State := { owned with ctxs := owned.ctxs.set 0 { Ctx.init with defined := true, images := [loadedImg] } }

theorem witness_FirmwareCommands :
    (owned.mailbox.busy = false ∧ owned.stage = 6 ∧ hdr.part.toNat < 16 ∧ hdr.ctx.toNat < 64 ∧ hdr.zero = 0 ∧ hdr.compl = 0 ∧
      hdr.part = 0) ∧
    -- the window's last place, and the largest package number
    ((0x2BFC0000000 : DWord).toNat % 2 ^ 30 = 0 ∧ (0x40000000 : DWord).toNat % 2 ^ 30 = 0 ∧ (0x2BFC0000000 : DWord).toNat < 3 * 2 ^ 40 ∧
      (0x4000000000 : DWord).toNat ≤ 2 ^ 38 ∧ (0x2BFC0000000 : DWord).toNat + (0x40000000 : DWord).toNat ≤ 3 * 2 ^ 40) ∧
    ((2047 : BitVec 16).toNat < 2048 ∧ owned.pend = [] ∧ owned.reads = [] ∧ ∀ q ∈ owned.parts.toList, q.enabled = false) ∧
    (({ Part.init with resetting := true } : Part).resetting = true ∧ owned.parts[(0 : BitVec 4).toNat].resetting = false) ∧
    (owned.hostOut = 0 ∧ ({ owned with hostOut := 1 } : State).hostOut ≠ 0 ∧ owned.exportOut = [] ∧
      ((0 : BitVec 4), (63 : Byte).setWidth 6) ∈ ({ owned with exportOut := [(0, 63)] } : State).exportOut) ∧
    ((63 : Byte).toNat < 64 ∧ (3 : Byte).toNat < 4 ∧ (15 : Byte).toNat < 16 ∧ (0x1000 : DWord).toNat % 4096 = 0) ∧
    ((7 : Byte).toNat < 8 ∧ (3 : Byte) &&& ~~~owned.parts[(0 : BitVec 4).toNat].banks = 0 ∧
      (0x40000000 : DWord).toNat ≤ 2 ^ 26 * (8 * (setBits 8 (3 : Byte).toNat).length) ∧ owned.slotHeld 0 0 = false ∧
      (let s := { owned with bank := { owned.bank with run := some { placedRun 0 with model := some 0 } } }
       s.slotHeld 0 0 = true ∧ s.stage = 6)) ∧
    ((0xFFFFFF : Word).toNat < 2 ^ 24 ∧ (0x40 : DWord).toNat + (128 : DWord).toNat ≤ 2 ^ 52 ∧ (128 : DWord).toNat % 64 = 0 ∧
      (owned.models[(0 : BitVec 4).toNat][(0 : BitVec 3).toNat]).defined = true ∧
      (128 : DWord).toNat + (128 : DWord).toNat ≤ (owned.models[(0 : BitVec 4).toNat][(0 : BitVec 3).toNat]).size) ∧
    (hdr.ctx ≠ 0xFF ∧ owned.ctxs[(0 : BitVec 6).toNat].defined = true ∧ owned.ctxs[(0 : BitVec 6).toNat].part = 0 ∧
      owned.parts[(0 : BitVec 4).toNat].ownerKey ≠ [] ∧ owned.ctxs[(0 : BitVec 6).toNat].model.isSome = true ∧
      ({ Ctx.init with defined := true } : Ctx).model = none) ∧
    (owned.parts[(0 : BitVec 4).toNat].stopped = true ∧ 8 < owned.queueFree 0 ∧ (∀ a ∈ owned.heldAreas, a.2.2.2 ≠ none) ∧
      regs.parts[(0 : BitVec 4).toNat].stopped = false ∧
      ({ laid [(0x90000, 4, 248)] with parts := regs.parts.set 0 { Part.init with ctl := 0x90000, stopped := true } } : State).queueFree 0 ≤ 8) ∧
    (({ hdr with ctx := 0xFF } : MbHdr).ctx = 0xFF ∧ (∀ c ∈ regs.ctxs.toList, c.defined = true → c.part ≠ 0) ∧
      Ctx.init.defined = false ∧ ∃ c ∈ owned.ctxs.toList, c.defined = true ∧ c.part = 0) := by decide +kernel

/-- `LOAD_IMAGE` and `RETIRE_IMAGE`: an image that passes the checks of its format and can be placed, one that does not pass,
and a loaded image that no record names. -/
theorem witness_FirmwareCommands_images :
    (128 ≤ (320 : Word).toNat ∧ (320 : Word).toNat ≤ 2 ^ 28 ∧ (0 : DWord).toNat + (320 : Word).toNat + 1280 ≤ 2 ^ 52 ∧
      imaged.parts[(0 : BitVec 4).toNat].ownerKey ≠ [] ∧ imageStatus (imaged.rd (2 ^ 52) 320) true = 0 ∧
      imageStatus (owned.rd (2 ^ 52) 128) true ≠ 0 ∧ imaged.oracle.load = (0x40000, 0x100000) :: [] ∧
      imaged.placeOk 0x40000 0x100000 (imagePages (imaged.rd (2 ^ 52) 320)) = true ∧ imagePages (imaged.rd (2 ^ 52) 320) = 1) ∧
    ((∀ img ∈ owned.ctxs[(0 : BitVec 6).toNat].images, img.hdr ≠ 0x40000) ∧
      ({ holding with recs := [{ srec 2 with snap := { snap0 with code := 0x40000 } }] } : State).imageNamed 0 0x40000 = true ∧
      ∃ img ∈ holding.ctxs[(0 : BitVec 6).toNat].images, img.hdr = 0x40000) := by decide +kernel

theorem witness_RetireImage :
    holding.mailbox.busy = false ∧ holding.stage = 6 ∧ hdr.part.toNat < 16 ∧ hdr.ctx.toNat < 64 ∧ hdr.zero = 0 ∧
    hdr.compl.toNat % 64 = 0 ∧ hdr.compl.toNat < 2 ^ 52 ∧ holding.parts[(0 : BitVec 4).toNat].resetting = false ∧
    holding.ctxs[(0 : BitVec 6).toNat].defined = true ∧ holding.ctxs[(0 : BitVec 6).toNat].part = 0 ∧
    holding.ctxs[(0 : BitVec 6).toNat].images.find? (fun i => i.hdr == (0x40000 : DWord).toNat) = some loadedImg ∧
    holding.imageNamed 0 (0x40000 : DWord).toNat = false := by decide +kernel

/-- The tables of the context have room for the image's page. -/
theorem witness_FirmwareCommands_tables :
    (match (imaged.wr 0x100000 (relocated (imaged.rd (2 ^ 52) 320) 0x40000)).mapPages imaged.ctxs[(0 : BitVec 6).toNat].root
        (imaged.rd (2 ^ 52) 320) 0x40000 0x100000 ((List.range 1).drop 1 ++ [0]) (0x100000 + 4096 * 1) with
      | some _ => true | none => false) = true ∧
    -- a place that is not aligned, and one whose tables would lie where no memory is
    imaged.placeOk 0x40001 0x100000 1 = false ∧
    (owned.mapPages (3 * 2 ^ 40) (imaged.rd (2 ^ 52) 320) 0x40000 0x100000 [0] 0x101000).isNone = true := by decide +kernel

theorem witness_OutsideAccess :
    (let s := { regs with window := (0x20000, 0x1000) }
     0xFF8 + 8 ≤ s.window.2 ∧ s.window.2 < 0xFF9 + 8 ∧ s.pend = [] ∧ s.held = [] ∧ s.reads = [] ∧ MemOk s) ∧
    (let s := { regs with
      link := { Link.init with configured := true, enable := 1, up := 1, trained := 1, routes := [(3, 1, 0)] }
      exports := regs.exports.set 0 ((regs.exports[(0 : Nat)]).set 0 ⟨true, true, 3, 0, 0x1000, 0x1000⟩) }
     s.link.configured = true ∧ 0x1FF8 + 8 ≤ 3 * 2 ^ 40 ∧
     (let e := (s.exports[(0 : Nat)])[(0 : Nat)]
      e.valid = true ∧ e.srcPkg = (3 : BitVec 11).toNat ∧ e.srcPart = (0 : BitVec 4).toNat ∧
      e.base ≤ 0x1FF8 ∧ 0x1FF8 + 8 ≤ e.base + e.size ∧ e.writable = true) ∧
     (∀ t ∈ regs.exports.toList, ∀ e ∈ t.toList, e.valid = false) ∧
     s.link.routes.lookup (3 : BitVec 11).toNat = some (1, 0) ∧
     (setBits 32 (1 : Word).toNat)[(15 : BitVec 4).toNat % (setBits 32 (1 : Word).toNat).length]? = some 0 ∧
     2 ^ 42 * ((0 : BitVec 2).toNat + 1) ≤ 2 ^ 42 ∧ 2 ^ 44 + 2 ^ 42 - 1 < 2 ^ 42 * ((3 : BitVec 2).toNat + 2) ∧
     s.link.up.getLsbD 0 = true ∧ regs.link.routes.lookup (3 : BitVec 11).toNat = none) := by decide +kernel

/-- Partition 1 enabled, or enabled and being reset, on a core that runs partition 0; context 1 belongs to it. -/
def twoParts (resetting : Bool) : State :=
  { regs with
    ctxs := regs.ctxs.set 1 { Ctx.init with areas := 1536, stride := 68 * 1024 }
    parts := (regs.parts.set 0 { Part.init with enabled := true }).set 1 { Part.init with enabled := true, resetting := resetting, ring := 0x4000 } }

theorem witness_PartitionRegisters :
    ((0x8000 : DWord).toNat % 16384 = 0 ∧ regs.parts[(1 : BitVec 4).toNat].enabled = false ∧ (0x8001 : DWord).toNat % 16384 ≠ 0 ∧
      (twoParts false).parts[(1 : BitVec 4).toNat].enabled = true) ∧
    (let c := (twoParts false).ctxs[(1 : BitVec 6).toNat]
     c.defined = false ∧ c.limits = true ∧ (twoParts false).backedPa c.action = true ∧ MemOk (twoParts false) ∧
     (twoParts false).supervisorOf 1 = none ∧ regs.ctxs[(1 : BitVec 6).toNat].limits = false) ∧
    -- a second supervisor context, and a context with a record, with a running gang, and with one in the shadow bank
    (super.supervisorOf 0 = some 0 ∧ (0 : BitVec 6) ≠ 1 ∧ super.ctxs[(1 : BitVec 6).toNat].defined = false ∧
      super.ctxs[(0 : BitVec 6).toNat].defined = true ∧ super.bank.run = some { placedRun 0 with supervisor := true } ∧
      (placedRun 0).ctx = 0 ∧ srec 2 ∈ ({ super with recs := [srec 2] } : State).recs ∧ (srec 2).ctx = 0 ∧
      ({ super with shadow := some super.bank } : State).shadow = some super.bank) ∧
    (1536 ≤ (0x0600 : Word).toNat % 2048 ∧ (0x05FF : Word).toNat % 2048 < 1536) ∧
    ((0 : Word).toNat % 2048 = (twoParts false).coreId ∧ (twoParts false).parts[(0 : BitVec 4).toNat].enabled = true ∧
      (twoParts false).runsPart 0 = true ∧ (twoParts false).parts[(0 : BitVec 4).toNat].resetting = false) ∧
    ((twoParts true).core < 64 ∧ (twoParts false).parts[(1 : BitVec 4).toNat].resetting = false ∧
      ((0x41, 1) : Nat × BitVec 4) ∈ ({ twoParts true with taken := [(0x41, 1)] } : State).taken ∧
      (0x0041 : Word).toNat % 2048 ≠ (twoParts true).coreId ∧ (twoParts true).parts[(1 : BitVec 4).toNat].resetting = true) ∧
    (({ Part.init with invBusy := true } : Part).invBusy = true ∧ (0x300 : Word).toNat / 256 % 4 = 3 ∧
      regs.parts[(0 : BitVec 4).toNat].invBusy = false ∧ (0x200 : Word).toNat / 256 % 4 = 2 ∧ (0x100 : Word).toNat / 256 % 4 < 2 ∧
      super.ctxs[(BitVec.ofNat 6 (0x100 : Word).toNat).toNat].defined = true ∧
      super.ctxs[(BitVec.ofNat 6 (0x100 : Word).toNat).toNat].part = 0) ∧
    (regs.settled = true ∧ (copying [] [aCopy .cpy 1 8]).settled = false) ∧ ((23 : BitVec 5).toNat < 24 ∧ 9 < 10) := by
  decide +kernel

/-- Partition 0 with a record withheld, its ring and its control line, where a number of entries is taken. -/
def withholding (used : Nat) : State :=
  { laid [(0x90000, 4, used)] with
    parts := regs.parts.set 0 { Part.init with ring := 0x80000, ctl := 0x90000, withheld := [⟨List.replicate 64 5, none, none⟩] } }

theorem witness_PartitionReset :
    ((twoParts true).parts[(1 : BitVec 4).toNat].resetting = true ∧ (twoParts true).runsPart 1 = false ∧
      (twoParts true).parts[(1 : BitVec 4).toNat].doorbells = [] ∧
      (twoParts true).parts[(1 : BitVec 4).toNat].invBusy = false ∧ (twoParts true).pend = [] ∧ (twoParts true).reads = [] ∧ MemOk (twoParts true)) ∧
    (regs.parts[(0 : BitVec 4).toNat].resetting = false ∧ regs.bank.run = some (placedRun 0) ∧ (placedRun 0).part = 0 ∧
      regs.shadow = none ∧ regs.mailbox.running = none ∧ Orderly regs ∧ regs.runsPart 0 = true ∧
      ({ regs with pend := [⟨0, .own, 0x10040, 0, 0x20040, [5], false, none, 0, .plain⟩] } : State).pend ≠ [] ∧
      ({ regs with reads := [⟨0, .own, 1, false, 4, [(0, 0x10040, 0x20040)], none, none⟩] } : State).reads ≠ []) ∧
    -- a record of the partition and one of another, whose homes do not meet
    (let l := [srec 2, { srec 1 with ctx := 1, home := 0x20080 }]
     let s := { regs with recs := l, ctxs := regs.ctxs.set 1 { Ctx.init with defined := true, part := 1 } }
     s.recs = l ∧ s.ctxs[(0 : BitVec 6).toNat].part = 0 ∧ s.ctxs[(1 : BitVec 6).toNat].part ≠ 0 ∧
     (∀ y ∈ l, ∀ z ∈ l, y = z ∨ ((y.ctx ≠ z.ctx ∨ y.addr ≠ z.addr) ∧ (y.home + 64 ≤ z.home ∨ z.home + 64 ≤ y.home)))) ∧
    (let s := { regs with mailbox := { regs.mailbox with busy := true, running := some (.modelUnbind hdr) } }
     s.mailbox.running = some (.modelUnbind hdr) ∧ mailOf (.modelUnbind hdr) = some (hdr, 0xC023, true) ∧ hdr.p = 0) ∧
    ((withholding 247).parts[(0 : BitVec 4).toNat].withheld = ⟨List.replicate 64 5, none, none⟩ :: [] ∧ 8 < (withholding 247).queueFree 0 ∧
      MemOk (withholding 247) ∧ 0x80000 + 16384 ≤ 0x90000 ∧ (List.replicate 64 (5 : Byte)).length = 64) ∧
    (regs.parts[(0 : BitVec 4).toNat].withheld = [] ∧ (withholding 248).queueFree 0 ≤ 8) := by decide +kernel

/-- The core frozen by the debug port. -/
def frozen (off : Bool) : State := { regs with dbg := ⟨true, true, [], false, off, 0⟩ }

theorem witness_DebugPort :
    (regs.dbg.frz = false ∧ regs.dbg.ack = false) ∧ ((frozen true).dbg.frz = true ∧ (frozen true).powered = true ∧
      (frozen true).inbox = [] ∧ (frozen true).outside = []) ∧
    ((frozen true).dbg.ack = true ∧ (0x5FF2 : Word).toNat / 1024 % 32 < 24 ∧ (0x5FF2 : Word).toNat % 16 = 2 ∧
      (0x1FFFF8 : Word).toNat + (8 : Word).toNat ≤ 2 ^ 21 ∧ (frozen true).dbg.partsOff = true) ∧
    ((0x5FF3 : Word).toNat % 16 = 3 ∧ (frozen false).dbg.partsOff = false) := by decide +kernel

theorem witness_Resets :
    (MemOk regs ∧ regs.powered = true ∧ regs.dbg.frz = false ∧ regs.outside = [] ∧ regs.inbox = [] ∧ regs.mediaBad = false) ∧
    (∀ n ∈ [1, 2, 3, 4, 5], ({ regs with stage := n } : State).stage < 6) ∧
    (regs.mailbox.busy = false ∧ ({ regs with mailbox := { regs.mailbox with busy := true } } : State).mailbox.busy = true) ∧
    (let s := { regs with powered := false }
     s.powered = false ∧ s.inbox = []) ∧
    (let s := { regs with powered := false, inbox := [.coldReset] }
     s.powered = false ∧ s.inbox = .coldReset :: []) := by decide +kernel

theorem witness_MemInvariant :
    MemOk placed ∧ (match step placed with | .next _ => true | _ => false) = true := by decide +kernel

end Sys2Proof.Tests
end

section
/-! Reads and writes of memory, and resets and power: what a read gives after a write and after a scrub, what each boot stage
does, and what a step does where boot has not ended or power is off. -/

namespace Sys2Proof.Machine

/-! ## Memory after a scrub -/

theorem lookup_filter_key (l : List Host.Cell) (p : Nat → Bool) (a : Nat) :
    (l.filter fun c => p c.1).lookup a = if p a then l.lookup a else none := by
  induction l with
  | nil => simp
  | cons c l ih =>
    obtain ⟨k, v⟩ := c
    rw [List.filter_cons]
    by_cases hk : a = k
    · subst hk
      cases hp : p a with
      | true => simp
      | false => simp [ih, hp]
    · have hb : (a == k) = false := by simpa using hk
      cases hp : p k <;> simp [List.lookup_cons, hb, ih]

/-- A clipped range lies within the addresses it is clipped to. -/
theorem clipRange_bounds {lo hi : Nat} {r z : Nat × Nat × Nat} (h : z ∈ clipRange lo hi r) : lo ≤ z.1 ∧ z.2.1 ≤ hi := by
  unfold clipRange at h
  split at h
  · obtain rfl := List.mem_singleton.1 h
    exact ⟨Nat.le_max_left _ _, Nat.min_le_left _ _⟩
  · simp at h

/-- No undefined range is left where a scrub went. -/
theorem Memory.rangeTag_scrub_in (m : Memory) {lo hi a : Nat} (hlo : lo ≤ a) (hhi : a < hi) :
    (m.scrub lo hi).rangeTag a = none := by
  refine Option.map_eq_none_iff.2 (List.find?_eq_none.2 fun z hz => ?_)
  obtain ⟨r, -, hz⟩ := List.mem_flatMap.1 hz
  rcases List.mem_append.1 hz with hz | hz
  · have := (clipRange_bounds hz).2
    simp; omega
  · have := (clipRange_bounds hz).1
    simp; omega

/-- A byte reads as zero where memory was scrubbed, and as before elsewhere. -/
theorem Memory.read_scrub (m : Memory) (lo hi a : Nat) :
    (m.scrub lo hi).read a = if lo ≤ a ∧ a < hi then 0 else m.read a := by
  have hl : (m.scrub lo hi).cells.lookup a = if (decide (a < lo) || decide (hi ≤ a)) then m.cells.lookup a else none :=
    lookup_filter_key m.cells (fun k => decide (k < lo) || decide (hi ≤ k)) a
  unfold Memory.read
  rw [hl]
  split_ifs with hout hin hin
  · simp at hout; omega
  · rw [m.base_scrub lo hi a (by simpa using hout)]
  · obtain ⟨hlo, hhi⟩ := hin
    simp [Memory.base, m.rangeTag_scrub_in hlo hhi]
  · simp at hout; omega

/-! ## Cold reset -/

@[simp] theorem Health.restarted_wear (h : Health) : h.restarted.wear = h.wear := rfl

@[simp] theorem Health.restarted_counters (h : Health) : h.restarted.counters = List.replicate 10 0 := rfl

/-! ## Boot, a stage at a time (R397) -/

section
variable {s : State}

theorem State.boot_at_one (h : s.stage = 1) : s.boot = { s with stage := 2 } := by simp [State.boot, h]

theorem State.boot_at_two_fails (h : s.stage = 2) (hf : Config.channelFails s.free = true) :
    s.boot = { s with mediaBad := true, free := s.free + 1 } := by simp [State.boot, h, hf]

theorem State.boot_at_two_trained (h : s.stage = 2) (hf : Config.channelFails s.free = false) :
    s.boot = { s with mem := s.mem.scrub 0 (2 ^ 42), stage := 3, free := s.free + 1 } := by simp [State.boot, h, hf]

theorem State.boot_at_three (h : s.stage = 3) :
    s.boot = { s with mem := s.mem.scrub (2 ^ 56) (2 ^ 60), stage := 4 } := by simp [State.boot, h]

theorem State.boot_at_four (h : s.stage = 4) :
    s.boot = { s with mapped := some ((List.range 4).map s.deviceGiB), stage := 5 } := by simp [State.boot, h]

theorem State.boot_at_five (h : s.stage = 5) : s.boot = { s with window := (0, 0), stage := 6 } := by simp [State.boot, h]

/-- Boot goes on to the next stage, but for the stage in which a channel may fail. -/
theorem State.boot_stage_next (h : s.stage = 1 ∨ s.stage = 3 ∨ s.stage = 4 ∨ s.stage = 5) :
    s.boot.stage = s.stage + 1 := by
  rcases h with h | h | h | h
  · rw [boot_at_one h, h]
  · rw [boot_at_three h, h]
  · rw [boot_at_four h, h]
  · rw [boot_at_five h, h]

/-- At stage 2 a failing channel stops boot with media status set; else LPDDR reads as zero. -/
theorem State.boot_at_two_cases (h : s.stage = 2) :
    (s.boot.stage = 2 ∧ s.boot.mediaBad = true) ∨ (s.boot.stage = 3 ∧ ∀ a, a < 2 ^ 42 → s.boot.mem.read a = 0) := by
  cases hf : Config.channelFails s.free with
  | true => exact .inl (by rw [boot_at_two_fails h hf]; exact ⟨h, rfl⟩)
  | false =>
    refine .inr ?_
    rw [boot_at_two_trained h hf]
    exact ⟨rfl, fun a ha => by rw [Memory.read_scrub, if_pos ⟨Nat.zero_le a, ha⟩]⟩

/-- Stage 3 leaves zeros in the weight store. -/
theorem State.boot_at_three_zeros (h : s.stage = 3) {a : Nat} (hlo : 2 ^ 56 ≤ a) (hhi : a < 2 ^ 60) :
    s.boot.mem.read a = 0 := by
  rw [boot_at_three h, Memory.read_scrub, if_pos ⟨hlo, hhi⟩]

/-! ## The step while boot goes on, and without power -/

theorem step_boots (hp : s.powered = true) (hd : s.dbg.frz = false) (ho : s.outside = []) (hi : s.inbox = [])
    (hs : s.stage < 6) (hm : s.mediaBad = false) : step s = .next s.emptyCycle.boot := by
  have hb : s.boots = true := by simp [State.boots, hs, hm]
  simp [step, State.advance, State.advanceOn, State.running, hp, hd, ho, hi, hb]

theorem step_unpowered (hp : s.powered = false) (hi : ∀ is, s.inbox ≠ .coldReset :: is) : step s = .fault .unpowered := by
  unfold step State.advance
  rw [if_neg (by simp [hp])]
  split
  · next is he => exact absurd he (hi is)
  · rfl

theorem step_unpowered_coldReset (hp : s.powered = false) {is : List Instr} (hi : s.inbox = .coldReset :: is) :
    step s = exec .coldReset { s with inbox := is } := by
  unfold step State.advance
  rw [if_neg (by simp [hp]), hi]

end

/-! ## Hot reset (R393) -/

theorem hotReset_busy {s : State} (h : s.mailbox.busy = true) :
    exec .hotReset s = .next { s with mailbox := { s.mailbox with response := [], discard := true } } := by
  change execHotReset s = _
  simp [execHotReset, h]

theorem hotReset_free {s : State} (h : s.mailbox.busy = false) : exec .hotReset s = .next s := by
  change execHotReset s = _
  simp [execHotReset, h]

/-! ## The statements -/

/-- Settles O15: the laws of a byte list written, for the memory of the state. -/
theorem readAfterWrite : Obligations.ReadAfterWrite := by
  intro s key bs hok
  exact ⟨s.mem.readN_writeN bs key hok, s.wf_wr key bs hok, fun b hb => s.mem.read_writeN_out bs key b hb⟩

/-- Settles O58: the state a cold reset leaves, field by field, and the equations of boot, of a hot reset and of a step
without power. A scrub gives zeros whether memory is canonical or not, so `MemOk` is not used. -/
theorem resets : Obligations.Resets := by
  intro s
  refine ⟨⟨_, rfl, rfl, rfl, rfl, rfl, rfl, rfl, rfl, rfl, rfl, rfl, ?mem, ?wear, ?counters⟩, step_boots,
    State.boot_stage_next, ?two, ?three, fun h => by rw [State.boot_at_five h], hotReset_busy, hotReset_free, rfl,
    step_unpowered, fun h _ => step_unpowered_coldReset h⟩
  case mem => exact fun _ a => s.mem.read_scrub (2 ^ 54) (2 ^ 56) a
  case wear => simp [Vector.toList_map, Function.comp_def]
  case counters => simp [Vector.toList_map]
  case two => exact fun h => (State.boot_at_two_cases h).imp_right fun ⟨hs, hz⟩ => ⟨hs, fun _ => hz⟩
  case three => exact fun h _ _ hlo hhi => State.boot_at_three_zeros h hlo hhi

end Sys2Proof.Machine
end

section
/-! Operands, results and landing: what the special operands and a pending or marked operand read as, what a result puts into
its bundle, when it lands, and what reset leaves. -/

namespace Sys2Proof

/-! ## Lanes of a vector that a function gives (R115) -/

/-- A bit of a vector built lane by lane is that bit of one of the lanes. -/
theorem getLsbD_orLanes (f : Nat → Word) (l : List Nat) (k : Nat) (hk : k < 512) :
    (l.foldr (fun i acc => acc ||| ((f i).setWidth 512 <<< (32 * i))) (0 : Vec)).getLsbD k
      = l.any fun i => decide (32 * i ≤ k) && (f i).getLsbD (k - 32 * i) := by
  induction l with
  | nil => simp
  | cons i l ih =>
    have hi : k - 32 * i < 512 := by omega
    have hn : (!decide (k < 32 * i)) = decide (32 * i ≤ k) := by rw [← decide_not]; simp
    rw [List.foldr_cons, BitVec.getLsbD_or, ih, List.any_cons, BitVec.getLsbD_shiftLeft, BitVec.getLsbD_setWidth, hn,
      decide_eq_true hk, decide_eq_true hi, Bool.true_and, Bool.true_and, Bool.or_comm]

theorem lane_mkVec (f : Nat → Word) {n : Nat} (hn : n < 16) : lane (mkVec f) n = f n := by
  refine BitVec.eq_of_getLsbD_eq fun j hj => ?_
  have hk : 32 * n + j < 512 := by omega
  have hone : ∀ i, (decide (32 * i ≤ 32 * n + j) && (f i).getLsbD (32 * n + j - 32 * i)) = true →
      i = n := by
    intro i hi
    obtain ⟨hle, hbit⟩ := Bool.and_eq_true_iff.1 hi
    have hlt := BitVec.lt_of_getLsbD hbit
    have hle := of_decide_eq_true hle
    omega
  rw [lane, BitVec.getLsbD_extractLsb', mkVec, getLsbD_orLanes f _ _ hk, decide_eq_true hj, Bool.true_and,
    Bool.eq_iff_iff, List.any_eq_true]
  constructor
  · rintro ⟨i, -, hi⟩
    obtain rfl := hone i hi
    simpa using hi
  · intro h
    exact ⟨n, List.mem_range.2 hn, by simpa using h⟩

theorem lane_zero (n : Nat) : lane 0 n = 0 := by simp [lane]

theorem lane_allOnes {n : Nat} (hn : n < 16) : lane (BitVec.allOnes 512) n = 0xFFFFFFFF := by
  refine BitVec.eq_of_getLsbD_eq fun j hj => ?_
  have hk : 32 * n + j < 512 := by omega
  rw [lane, BitVec.getLsbD_extractLsb', BitVec.getLsbD_allOnes, decide_eq_true hj, decide_eq_true hk]
  have hones : ∀ j : Fin 32, (0xFFFFFFFF : Word).getLsbD j = true := by decide
  exact (hones ⟨j, hj⟩).symm

end Sys2Proof

namespace Sys2Proof.Machine

/-! ## Operand reads -/

/-- Settles O4: words and pairs by evaluation, a vector lane by lane. -/
theorem specialOperands : Obligations.SpecialOperands := by
  intro s one n hn
  have hidx : s.idx < 5 := s.turn.isLt
  have hidx' : s.idx = s.turn.val := rfl
  refine ⟨rfl, rfl, ?_, rfl, rfl, rfl, ?_, rfl, ?_, ?_, ?_, ?_, rfl, rfl, rfl, rfl, rfl, rfl, ?_⟩
  · show (BitVec.ofNat 32 s.idx).toNat = _
    rw [BitVec.toNat_ofNat]; omega
  · show (BitVec.ofNat 64 s.idx).toNat = _
    rw [BitVec.toNat_ofNat]; omega
  · exact lane_zero n
  · exact lane_mkVec (fun _ => one) hn
  · show (lane (mkVec fun n => BitVec.ofNat 32 n) n).toNat = n
    rw [lane_mkVec _ hn, BitVec.toNat_ofNat]; omega
  · exact lane_allOnes hn
  · intro t
    cases t <;> simp [Ty.isLaneInt, tyOne]

/-- Settles O5: the first two clauses are the order of the tests of `State.check`, the third its last. -/
theorem operandReads : Obligations.OperandReads := by
  refine ⟨fun s o r => ⟨?_, ?_⟩, ?_⟩
  · rintro ⟨t, ht, hlt⟩ hno
    have hall : ((s.cur.readyOf o r).all (·.by s.pt)) = false := by
      rw [List.all_eq_false]
      exact ⟨_, ht, by simp [Ready.by]; omega⟩
    refine ⟨{ s.trapAt 0x04 0 0 with early := true }, ?_, rfl, rfl, rfl⟩
    simp [State.check, hno, hall]
  · intro h
    simp [State.check, h]
  · intro s i m l hl hm
    refine ⟨{ s.trapAt m.cause 0 m.addr with early := true }, ?_, rfl, rfl, rfl, rfl⟩
    have hready : s.cur.readyOf (.g i) .w32 = [] := by simp [Agent.readyOf, Agent.pendingOn, hl]
    have hmark : s.cur.markOf (.g i) .w32 = some m := by
      simp [Agent.markOf, hm, overlaps, bit]
    simp [State.check, hready, hmark]

/-! ## What changes nothing but the bundle's buffer -/

theorem onlyBuffer_mapBun (s : State) (f : Bun → Bun) : OnlyBuffer s (s.mapBun f) := by
  unfold OnlyBuffer
  rw [State.cur_mapBun]
  rfl

theorem onlyBuffer_deliver (s : State) (c : LCls) (d : Opnd) (w : Bool) (v : DWord) (vv : Vec) (r : Ready) (f : BitVec 7)
    (m : Option Mark) : OnlyBuffer s (s.deliver c d w v vv r f m) := by
  unfold OnlyBuffer
  rw [State.cur_deliver]
  rfl

theorem onlyBuffer_putF (s : State) (sc : Sched) (d : Opnd) (n : Nat) (v : Word) (f : BitVec 7) :
    OnlyBuffer s (s.putF sc d n v f) := onlyBuffer_deliver ..

theorem onlyBuffer_put64 (s : State) (sc : Sched) (d : Opnd) (n : Nat) (v : DWord) :
    OnlyBuffer s (s.put64 sc d n v) := onlyBuffer_deliver ..

theorem onlyBuffer_putV (s : State) (sc : Sched) (d : Opnd) (n : Nat) (v : Vec) (f : BitVec 7) :
    OnlyBuffer s (s.putV sc d n v f) := onlyBuffer_deliver ..

/-- A result is readable t + L, or t plus the nominal bound where the bound code is 0 or the result is discarded (R24). -/
theorem State.landing_eq (s : State) (sc : Sched) (d : Opnd) (n : Nat) :
    s.landing sc d n
      = .at (s.pt + if d.discards ∨ sc.c = 0 then n else if sc.v then 4 * sc.c.toNat else sc.c.toNat) := by
  cases hd : d.discards <;> by_cases hc : sc.c = 0 <;> simp [State.landing, Sched.bound, hd, hc]

/-- Settles O6: every form of result is one delivery, with the time at which it is readable. -/
theorem resultEntersBuffer : Obligations.ResultEntersBuffer := by
  intro s sc d n v x y f
  simp only [← State.landing_eq]
  refine ⟨onlyBuffer_putF .., onlyBuffer_put64 .., onlyBuffer_putV .., ?_, ?_, ?_⟩ <;>
    simp [State.putF, State.put64, State.putV, Bun.push, newLatch]

/-! ## Landing (R25, R109) -/

/-- The latch of a scalar result for a main register, readable at `n`; `dead` where a younger result has overtaken it. -/
def mainLatch (uid : Nat) (i : BitVec 5) (v : Word) (n : Nat) (f : BitVec 7) (dead : Bool) : Latch :=
  ⟨uid, .scalar, .g i, false, v.setWidth 64, 0, .at n, f, none, (dead, false)⟩

/-- A main register takes a landing result unless a younger one has overtaken it; its flags accrue in any case. -/
theorem Agent.land_mainLatch (a : Agent) (uid : Nat) (i : BitVec 5) (v : Word) (n : Nat) (f : BitVec 7) (dead : Bool) :
    ∃ marks, a.land (mainLatch uid i v n f dead)
      = { a with g := if dead then a.g else a.g.set i.toNat v, aflags := a.aflags ||| f.setWidth 32, marks := marks } := by
  have hv : (v.setWidth 64).setWidth 32 = v := by simp
  have hset : ∀ g : Vector Word 32, g.setIfInBounds i.toNat v = g.set i.toNat v := fun g =>
    Vector.ext fun k hk => by simp [Vector.getElem_set, Vector.getElem_setIfInBounds]
  cases dead with
  | true => exact ⟨_, rfl⟩
  | false => exact ⟨_, by simp only [Agent.land, mainLatch, Agent.accrue, Agent.setScalar, hv, hset]; rfl⟩

theorem Agent.commit_one_late {a : Agent} {l : Latch} {pt : Nat} (hl : a.latches = [l]) (h : l.ready.by pt = false) :
    a.commit pt = a := by
  have hkept : a.commit pt = { a with latches := [l] } := by simp [Agent.commit, hl, Agent.landGo, h]
  rw [hkept, ← hl]

theorem Agent.commit_one_due {a : Agent} {l : Latch} {pt : Nat} (hl : a.latches = [l]) (h : l.ready.by pt = true) :
    a.commit pt = { a.land l with latches := [] } := by
  simp [Agent.commit, hl, Agent.landGo, h]

/-- A younger result that lands first marks the older one that stays behind it. -/
theorem Agent.commit_two_younger {a : Agent} {l y : Latch} {pt : Nat} (hl : a.latches = [l, y])
    (h : l.ready.by pt = false) (hy : y.ready.by pt = true) :
    a.commit pt = { a.land y with latches := [l.overtaken y] } := by
  simp [Agent.commit, hl, Agent.landGo, h, hy]

theorem overtaken_mainLatch (u1 u2 : Nat) (i : BitVec 5) (v w : Word) (n m : Nat) (f g : BitVec 7) :
    (mainLatch u1 i v n f false).overtaken (mainLatch u2 i w m g false) = mainLatch u1 i v n f true := by
  simp [Latch.overtaken, mainLatch, overlaps, bit]

theorem mainLatch_by (u : Nat) (i : BitVec 5) (v : Word) (n : Nat) (f : BitVec 7) (d : Bool) (pt : Nat) :
    (mainLatch u i v n f d).ready.by pt = decide (n ≤ pt) := rfl

/-- Settles O8: a latch that is due lands alone, and one that a younger result has overtaken leaves its register alone. -/
theorem resultLands : Obligations.ResultLands := by
  refine ⟨fun a uid n pt i j v f hl => ?_, fun a u1 u2 n m i v w f g hmn hl => ?_⟩
  · change a.latches = [mainLatch uid i v n f false] at hl
    rcases Nat.lt_or_ge pt n with hlt | hge
    · have hc := Agent.commit_one_late (pt := pt) hl (by simp [mainLatch_by]; omega)
      rw [hc]
      exact ⟨fun h => absurd h (by omega), fun _ => ⟨rfl, rfl, rfl⟩, fun _ => rfl, rfl, rfl, rfl, rfl⟩
    · have hc := Agent.commit_one_due (pt := pt) hl (by simpa [mainLatch_by] using hge)
      obtain ⟨marks, hland⟩ := a.land_mainLatch uid i v n f false
      rw [hc, hland]
      refine ⟨fun _ => ⟨by simp, rfl, rfl⟩, fun h => absurd h (by omega), fun hj => ?_, rfl, rfl, rfl, rfl⟩
      have hne : i.toNat ≠ j.toNat := fun e => hj (BitVec.eq_of_toNat_eq e.symm)
      simp [Vector.getElem_set_ne, hne]
  · change a.latches = [mainLatch u1 i v n f false, mainLatch u2 i w m g false] at hl
    have hc := Agent.commit_two_younger (pt := m) hl (by simpa [mainLatch_by] using hmn) (by simp [mainLatch_by])
    obtain ⟨marks, hland⟩ := a.land_mainLatch u2 i w m g false
    rw [overtaken_mainLatch, hland] at hc
    have hc' := Agent.commit_one_due (a := a.commit m) (pt := n) (l := mainLatch u1 i v n f true) (by rw [hc])
      (by simp [mainLatch_by])
    obtain ⟨marks', hland'⟩ := (a.commit m).land_mainLatch u1 i v n f true
    rw [hc', hland', hc]
    exact ⟨by simp, by simp⟩

/-! ## Reset -/

theorem Acc.init_at (i n : Nat) : Acc.init.at i n = 0 := rfl

/-- Settles O59: the reset state field by field. -/
theorem resetState : Obligations.ResetState := by
  refine ⟨rfl, rfl, rfl, rfl, rfl, rfl, ?_, ?_, ?_, ?_, ?_, ?_, ?_, rfl, rfl, rfl, rfl⟩
  · intro c
    simp [State.reset, Ctx.init]
  · intro p
    simp [State.reset, Part.init]
  · intro a
    simp [State.reset, State.agent, Bank.init, Agent.init, SEnt.zero, VEnt.zero, defaultTag]
  · intro k
    have hk : State.reset.bank.acc k = Acc.init := by simp [State.reset, Bank.acc, Bank.init]
    rw [hk]
    exact ⟨rfl, rfl, rfl, rfl, rfl, Acc.init_at⟩
  · intro k
    simp [State.reset, Bank.stream, Bank.init, Strm.init]
  · intro k
    have hk : State.reset.bank.slot k = OSlot.init := by
      simp [State.reset, Bank.slot, Bank.init, Vector.getD, k.isLt]
    rw [hk]
    rfl
  · intro k
    simp [State.reset, Bank.chan, Bank.init, Chan.init]

end Sys2Proof.Machine
end

section
/-! Bundles: what one leaves when it commits, and the step of the machine that issues a bundle of one word. -/

namespace Sys2Proof.Machine

/-! ## Committing a bundle (R17, R21, R97) -/

theorem Agent.fallThrough_noLoop {a : Agent} (h : a.loops = []) (npc : DWord) : a.fallThrough npc = { a with pc := npc } := by
  simp only [Agent.fallThrough, h, loopGo]

section
variable {s : State} {a : Agent}

/-- Outside every loop, with no special register written, a bundle without control and one with `trap` go on at the next
address. -/
theorem State.afterBundle_falls (hl : a.loops = []) (hw : a.bun.srw = none)
    (hc : a.bun.ctl = .fall ∨ ∃ n, a.bun.ctl = .trapAfter n) :
    s.afterBundle a = { a.flush with pc := a.bun.npc, locked := if a.bun.sync then some s.pt else none } := by
  have hfall : s.control a.flush = a.flush.fallThrough a.bun.npc := by
    rcases hc with hc | ⟨n, hc⟩ <;> simp [State.control, Agent.flush, Agent.clearFlags, hc]
  simp only [State.afterBundle, hw]
  rw [hfall, Agent.fallThrough_noLoop (a := a.flush) hl]

theorem State.afterBundle_halts (hw : a.bun.srw = none) (hc : a.bun.ctl = .halt) :
    s.afterBundle a = { a.flush with halted := true, locked := if a.bun.sync then some s.pt else none } := by
  have hhalt : s.control a.flush = { a.flush with halted := true } := by
    simp [State.control, Agent.flush, Agent.clearFlags, hc]
  simp only [State.afterBundle, hw]
  rw [hhalt]

end

/-- The machine once the bundle's results and writes have taken their places and control has gone on. -/
def State.flushed (s : State) : State :=
  { s.mapCur s.afterBundle with walk := none, reissue := if s.reissue = some s.turn then none else s.reissue }

section
variable {s : State}

@[simp] theorem State.flushed_mem : s.flushed.mem = s.mem := rfl

@[simp] theorem State.flushed_cur : s.flushed.cur = s.afterBundle s.cur := s.cur_mapCur _

theorem State.flushed_agent_ne {b : AgentId} (h : b ≠ s.turn) : s.flushed.agent b = s.agent b :=
  s.agent_mapCur_ne h.symm _

variable (hw : s.cur.bun.srw = none) (he : s.cur.bun.ends = none)
include hw he

theorem State.commitBundle_fall (hc : s.cur.bun.ctl = .fall) : s.commitBundle = s.flushed := by
  simp [State.commitBundle, State.pendSr, hw, he, hc, State.flushed]

theorem State.commitBundle_halt (hc : s.cur.bun.ctl = .halt) : s.commitBundle = s.flushed := by
  simp [State.commitBundle, State.pendSr, hw, he, hc, State.flushed]

theorem State.commitBundle_trapAfter {n : BitVec 6} (hc : s.cur.bun.ctl = .trapAfter n) :
    s.commitBundle = s.flushed.takeTrap
      { s.flushed.trapAt 0x15 (n.setWidth 8) 0 with pc := s.cur.pc, resume := s.flushed.cur.pc, past := true } := by
  simp [State.commitBundle, State.pendSr, hw, he, hc, State.flushed]

end

/-- Settles O7: without loops, special register writes and an end, a bundle leaves the state of `State.flushed`. -/
theorem bundleCommit : Obligations.BundleCommit := by
  refine ⟨fun s hc hl hw hm he => ?_, fun s hl hw he => ⟨fun hc => ?_, fun n hc => ?_⟩⟩
  · intro t
    have ht : t = s.flushed := State.commitBundle_fall hw he hc
    have hcur : t.cur = { s.cur.flush with pc := s.cur.bun.npc, locked := if s.cur.bun.sync then some s.pt else none } := by
      rw [ht, State.flushed_cur, State.afterBundle_falls hl hw (.inl hc)]
    have hmask : s.cur.flush.m = s.cur.m := by simp [Agent.flush, Agent.clearFlags, hm]
    rw [hcur, ht]
    exact ⟨rfl, rfl, rfl, rfl, rfl, rfl, rfl, rfl, rfl, hmask, rfl, rfl, rfl, rfl, fun _ => State.flushed_agent_ne⟩
  · rw [State.commitBundle_halt hw he hc, State.flushed_cur, State.afterBundle_halts hw hc]
    exact ⟨rfl, rfl⟩
  · have hpc : s.flushed.cur.pc = s.cur.bun.npc := by
      rw [State.flushed_cur, State.afterBundle_falls hl hw (.inr ⟨n, hc⟩)]
    refine ⟨s.flushed, hpc, rfl, ?_⟩
    rw [State.commitBundle_trapAfter hw he hc, hpc]

/-! ## The step of a one-word bundle (R21, R36) -/

/-- What a word that decodes says of its Y bit. -/
theorem decode_y {ap : Bool} {w : DWord} {d : Decoded} (h : decode ap w = .ok d) : wBit w 60 = d.y := by
  unfold decode at h
  split_ifs at h
  split at h
  · cases h; rfl
  · cases h

theorem cluster_of_ne_ap : ∀ {c : AgentId}, c ≠ apId → c ∈ clusters := by decide

section
variable {s : State} {w : DWord} {i : Instr} (hf : s.fetch 0 = .ok w) (hd : decode s.onAp w = .ok ⟨i, true, false⟩)
include hf hd

theorem State.decodeFrom_single (hlv : s.levelOk i = true) (hj : isJoint i = false) (hb : i.boundOk = true) (n : Nat) :
    s.decodeFrom (n + 1) 0 [] false = .ok [(i, s.cur.pc)] := by
  simp [State.decodeFrom, hf, hd, hlv, hj, hb]

theorem State.decodeBundle_single (hm : s.mirrorBad = false) (hlv : s.levelOk i = true) (hj : isJoint i = false)
    (hb : i.boundOk = true) : s.decodeBundle = .ok [(i, s.cur.pc)] := by
  have h := State.decodeFrom_single hf hd hlv hj hb
  cases ha : s.onAp <;> simp [State.decodeBundle, hm, ha, h]

theorem State.not_standsAtSync : s.standsAtSync s.turn = false := by
  have hy : wBit w 60 = false := decode_y hd
  simp [State.standsAtSync, hf, hy]

theorem State.jointFails_none (hj : isJoint i = false) : s.jointFails = none := by
  have hs := State.not_standsAtSync hf hd
  cases ha : s.onAp with
  | true => simp [State.jointFails, ha]
  | false =>
    have hnone : s.jointOf s.turn = none := by
      rw [ha] at hd
      simp [State.jointOf, State.jointFrom, hf, hd, hj]
    have hcluster : s.turn ∈ clusters := cluster_of_ne_ap (by simpa [State.onAp] using ha)
    have hall : (clusters.all fun c => s.standsAtSync c) = false :=
      List.all_eq_false.2 ⟨s.turn, hcluster, by simp [hs]⟩
    unfold clusters at hall
    simp [State.jointFails, ha, hnone, hall]

end

/-- A bundle of one word that runs to its end runs as that word does alone. -/
theorem runWords_single {i : Instr} {pc : DWord} {s t : State} (h : exec i (s.atWord pc) = .next t) (hv : t.verdict = .ok) :
    runWords [(i, pc)] s = .next t := by
  simp [runWords, h, stopsIn, stallsIn, trapsIn, hv, foldWords]

/-- A bundle of one word issues if its instruction runs to its end and its latches fit. -/
theorem State.tryBundle_single {s t : State} {w : DWord} {i : Instr} (hf : s.fetch 0 = .ok w)
    (hd : decode s.onAp w = .ok ⟨i, true, false⟩) (hm : s.mirrorBad = false) (hlv : s.levelOk i = true)
    (hj : isJoint i = false) (hb : i.boundOk = true) (hx : s.spansExit (s.cur.pc + 8) = false)
    (hbank : s.bankCycles i ≤ s.cur.banked) (he : exec i ((s.startBundle (s.cur.pc + 8) false).atWord s.cur.pc) = .next t)
    (hv : t.verdict = .ok) (hfit : t.latchesFit = true) : s.tryBundle = .next t := by
  have hnext : s.nextOf 1 = s.cur.pc + 8 := rfl
  have hbank' : ¬s.cur.banked < s.bankCycles i := Nat.not_lt.2 hbank
  have hrun := runWords_single he hv
  rw [← hnext] at hx hrun
  simp [State.tryBundle, State.decodeBundle_single hf hd hm hlv hj hb, hx, State.jointFails_none hf hd hj,
    State.not_standsAtSync hf hd, hbank', hrun, hfit]

/-- An agent whose bundle is not in lockstep issues it, commits it and gives the turn on; a `trap` of it does so where no other
member's trap waits (R327). -/
theorem State.issue_commits {s t : State} (hh : s.cur.halted = false) (hst : s.cur.stopped = false)
    (hlock : s.cur.locked ≠ some s.pt) (hsync : s.standsAtSync s.turn = false) (ht : s.tryBundle = .next t)
    (hv : t.verdict = .ok) (hg : t.cur.bun.traps = false ∨ s.gangStop = none) :
    s.issue = .next t.commitBundle.afterTurn := by
  have hzero : s.turn = 0 → s.standsAtSync 0 = false := fun h => h ▸ hsync
  have hbanks : s.lockBanks = false := by
    by_cases h : s.turn = 0 <;> simp [State.lockBanks, h, clusters, hzero]
  have hfreeze : s.lockFreeze = none := by
    by_cases h : s.turn = 0 <;> simp [State.lockFreeze, h, hzero]
  have hahead : s.lockAhead = false := by simp [State.lockAhead, hlock]
  have hhere : (if t.cur.bun.traps then s.memberHere else none) = none := by
    rcases hg with hg | hg <;> simp [hg, State.memberHere]
  simp [State.issue, hh, hst, hahead, hbanks, hfreeze, hsync, ht, hv, hhere]

/-- Where nothing else is due the step of the machine is the turn of the agent at issue. -/
theorem step_issues {s : State} (hp : s.powered = true) (hz : s.dbg.frz = false) (ho : s.outside = []) (hi : s.inbox = [])
    (hb : s.boots = false) (hc : s.clockwork = none) (hd : s.due = none) (hbd : s.boundary = none) (hfz : s.freezes = [])
    (hw : s.walkLate = false) (hph : s.phase = .running) : step s = s.issue := by
  have hgang : s.gangBoundary = none := by
    cases h : s.gangBoundary with
    | none => rfl
    | some t => simp [State.boundary, h] at hbd
  have hown : s.ownBoundary = none := by simpa [State.boundary, hgang] using hbd
  simp [step, State.advance, State.advanceOn, State.running, State.inner, State.coreStep, State.cycle, hp, hz, ho, hi, hb, hc,
    hgang, hd, hown, hfz, hw, hph]

/-- Settles O3: the step is the turn of the agent at issue, and the turn issues and commits the bundle. -/
theorem stepRunsDecoded : Obligations.StepRunsDecoded := by
  intro s t w i hp hz ho hi hb hc hd hbd hfz hw hph hh hst hlock hm hf hdec hlv hj hbound hx hbank he hv hfit hg
  rw [step_issues hp hz ho hi hb hc hd hbd hfz hw hph]
  exact State.issue_commits hh hst hlock (State.not_standsAtSync hf hdec)
    (State.tryBundle_single hf hdec hm hlv hj hbound hx hbank he hv hfit) hv hg

end Sys2Proof.Machine
end

section
/-! The frame of the instructions whose whole effect is on the buffer of their bundle. -/

namespace Sys2Proof.Machine

/-! ## The frame of the instructions whose whole effect is on their bundle -/

theorem onlyBuffer_iff {s t : State} :
    OnlyBuffer s t ↔ ∃ n b, t = (s.mapBank fun x => { x with uid := n }).mapBun fun _ => b := by
  constructor
  · intro h
    exact ⟨t.bank.uid, t.cur.bun, h⟩
  · rintro ⟨n, b, rfl⟩
    unfold OnlyBuffer
    rw [State.cur_mapBun]
    rfl

theorem onlyBuffer_refl (s : State) : OnlyBuffer s s := by
  refine onlyBuffer_iff.2 ⟨s.bank.uid, s.cur.bun, ?_⟩
  have hset : s.bank.agents.set s.turn s.cur = s.bank.agents := Vector.set_getElem_self ..
  change s = { s with bank := { s.bank with agents := s.bank.agents.set s.turn s.cur } }
  rw [hset]

theorem onlyBuffer_trans {s t u : State} (h : OnlyBuffer s t) (h' : OnlyBuffer t u) : OnlyBuffer s u := by
  obtain ⟨n, b, rfl⟩ := onlyBuffer_iff.1 h
  obtain ⟨m, c, rfl⟩ := onlyBuffer_iff.1 h'
  refine onlyBuffer_iff.2 ⟨m, c, ?_⟩
  simp [State.mapBun, State.mapCur, State.mapAgent, State.mapBank]

/-- Whatever state a computation ends in differs from `s` in the bundle's buffer alone. -/
def Buffers (s : State) (r : Except Stop State) : Prop := ∀ t, r = .ok t → OnlyBuffer s t

/-- An outcome whose state goes on differs from `s` in the bundle's buffer alone. -/
def BuffersOut (s : State) (o : Host.Outcome State Fault Refusal) : Prop :=
  ∀ t, o = .next t → t.verdict = .ok → OnlyBuffer s t

section
variable {s : State}

theorem buffers_ok {t : State} (h : OnlyBuffer s t) : Buffers s (.ok t) := fun _ e => by cases e; exact h

theorem buffers_error (e : Stop) : Buffers s (.error e) := fun _ h => nomatch h

theorem buffers_bind {α : Type} {r : Except Stop α} {f : α → Except Stop State} (h : ∀ x, Buffers s (f x)) :
    Buffers s (r >>= f) := by
  cases r with
  | ok x => exact h x
  | error e => exact buffers_error e

theorem buffers_ite {c : Prop} [Decidable c] {r r' : Except Stop State} (h : Buffers s r) (h' : Buffers s r') :
    Buffers s (if c then r else r') := by
  split
  · exact h
  · exact h'

theorem buffers_deliver {c : LCls} {d : Opnd} {w : Bool} {v : DWord} {vv : Vec} {r : Ready} {f : BitVec 7}
    {m : Option Mark} : Buffers s (.ok (s.deliver c d w v vv r f m)) := buffers_ok (onlyBuffer_deliver ..)

theorem buffers_mapBun {f : Bun → Bun} : Buffers s (.ok (s.mapBun f)) := buffers_ok (onlyBuffer_mapBun ..)

theorem onlyBuffer_branchIf (c : Bool) (t : DWord) : OnlyBuffer s (s.branchIf c t) := by
  unfold State.branchIf
  split
  · exact onlyBuffer_mapBun ..
  · exact onlyBuffer_refl s

theorem buffersOut_finish {r : Except Stop State} (h : Buffers s r) : BuffersOut s (s.finish r) :=
  fun t ht hv => h t (finish_verdict ht hv)

/-! ## The shapes of the families: operands are read, then one result is delivered -/

variable {sc : Sched} {d a b x : Opnd} {n : Nat} {t : Ty} {m : Gov}

theorem buffersOut_one {α : Type} {r : Except Stop α} {f : α → Except Stop State} (h : ∀ u, Buffers s (f u)) :
    BuffersOut s (s.finish (r >>= f)) := buffersOut_finish (buffers_bind h)

theorem buffersOut_two {α β : Type} {r : Except Stop α} {q : α → Except Stop β} {f : α → β → Except Stop State}
    (h : ∀ u v, Buffers s (f u v)) : BuffersOut s (s.finish (r >>= fun u => q u >>= f u)) :=
  buffersOut_one fun u => buffers_bind (h u)

theorem buffersOut_three {α β γ : Type} {r : Except Stop α} {q : α → Except Stop β} {p : α → β → Except Stop γ}
    {f : α → β → γ → Except Stop State} (h : ∀ u v w, Buffers s (f u v w)) :
    BuffersOut s (s.finish (r >>= fun u => q u >>= fun v => p u v >>= f u v)) :=
  buffersOut_two fun u v => buffers_bind (h u v)

theorem buffersOut_alu1 {f : Word → Word} : BuffersOut s (s.alu1 sc d a n f) := buffersOut_one fun _ => buffers_deliver

theorem buffersOut_alu2F {f : Word → Word → Word} {g : Word → Word → BitVec 7} : BuffersOut s (s.alu2F sc d a b n f g) :=
  buffersOut_two fun _ _ => buffers_deliver

theorem buffersOut_alu3 {f : Word → Word → Word → Word} : BuffersOut s (s.alu3 sc d a b x n f) :=
  buffersOut_three fun _ _ _ => buffers_deliver

theorem buffersOut_pair1 {f : DWord → DWord} : BuffersOut s (s.pair1 sc d a n f) :=
  buffersOut_one fun _ => buffers_deliver

theorem buffersOut_pair2 {f : DWord → DWord → DWord} : BuffersOut s (s.pair2 sc d a b n f) :=
  buffersOut_two fun _ _ => buffers_deliver

theorem buffersOut_vec1 {f : Word → Word × BitVec 7} : BuffersOut s (s.vec1 sc d a t m n f) :=
  buffersOut_one fun _ => buffers_deliver

theorem buffersOut_vec2 {f : Word → Word → Word × BitVec 7} : BuffersOut s (s.vec2 sc d a b t m n f) :=
  buffersOut_two fun _ _ => buffers_deliver

theorem buffersOut_vec3 {f : Word → Word → Word → Word × BitVec 7} : BuffersOut s (s.vec3 sc d a b x t m n f) :=
  buffersOut_three fun _ _ _ => buffers_deliver

/-! ## Control and special registers, which test more than their operands -/

theorem buffersOut_brq (h : BitVec 2) (disp : Word) : BuffersOut s (exec (.brq h disp) s) := by
  refine buffersOut_finish ?_
  split
  · exact buffers_error _
  · exact buffers_ok (onlyBuffer_trans (onlyBuffer_mapBun ..) (onlyBuffer_branchIf ..))

theorem buffersOut_call (p : Opnd) (h : BitVec 2) (disp : Word) : BuffersOut s (exec (.call sc p h disp) s) :=
  buffersOut_finish (buffers_ok (onlyBuffer_trans (onlyBuffer_put64 ..) (onlyBuffer_mapBun ..)))

theorem buffersOut_lbrk (p : Opnd) (h : BitVec 2) (disp : Word) : BuffersOut s (exec (.lbrk p h disp) s) := by
  refine buffersOut_one fun u => buffers_ite (buffers_error _) (buffers_ok ?_)
  split
  · exact onlyBuffer_refl s
  · exact onlyBuffer_mapBun ..

theorem buffersOut_ldrain (h : BitVec 2) (disp : Word) : BuffersOut s (exec (.ldrain h disp) s) := by
  refine buffersOut_finish (buffers_ok ?_)
  split
  · exact onlyBuffer_mapBun ..
  · exact onlyBuffer_refl s

theorem buffersOut_sret : BuffersOut s (exec .sret s) := by
  refine buffersOut_finish ?_
  split
  · exact buffers_ite buffers_mapBun (buffers_error _)
  · exact buffers_error _

theorem buffersOut_rdsr (n : BitVec 8) : BuffersOut s (exec (.rdsr sc d n) s) := by
  refine buffersOut_finish (buffers_ok ?_)
  split
  · exact onlyBuffer_put64 ..
  · exact onlyBuffer_putF ..

end

/-! ## All of them -/

theorem exec_buffers {i : Instr} (h : bufferOnly i = true) (s : State) : BuffersOut s (exec i s) := by
  cases i with
  | nop => exact buffersOut_finish (buffers_ok (onlyBuffer_refl s))
  | pref => exact buffersOut_one fun _ => buffers_ok (onlyBuffer_refl s)
  | clz | ctz | popc | addi | andi | ori | xori | shli | shri | srai | slti | sltni | muli => exact buffersOut_alu1
  | add | sub | mul | mulh | div | divn | rem | remn | and | or | xor | shl | shr | sra | min | max | minn | maxn | seq
  | sne | slt | sltn | bfx => exact buffersOut_alu2F
  | sel | bfi => exact buffersOut_alu3
  | mov64 | addi64 => exact buffersOut_pair1
  | add64 | sub64 => exact buffersOut_pair2
  | vabs | vfabs | vfneg | vrcp | vrsqrt | vsqrt | vexp2 | vlog2 | vcvt =>
    dsimp only [exec]
    exact buffersOut_vec1
  | vadd | vsub | vmul | vmin | vmax | vand | vor | vxor | vshl | vshr | vsra | vadds | vsubs | vcmpeq | vcmplt | vcmple
  | vfadd | vfsub | vfmul | vfmin | vfmax | vfcmpeq | vfcmplt | vfcmple | vfcmpun | vdiv =>
    dsimp only [exec]
    exact buffersOut_vec2
  | vfma | vfms =>
    dsimp only [exec]
    exact buffersOut_vec3
  | movi | movi64 | lidx | mget | qlvl => exact buffersOut_finish buffers_deliver
  | pqlen => exact buffersOut_finish (buffers_ite (buffers_error _) buffers_deliver)
  | sethi | vrng | vunpk | vtrit | vbcast | vscan | vcompress => exact buffersOut_one fun _ => buffers_deliver
  | vred => exact buffersOut_one fun _ => buffers_ite buffers_deliver buffers_deliver
  | shl64 | slt64n | vpack | vpk6 | vupk6 | vtritp | vext | vsortk => exact buffersOut_two fun _ _ => buffers_deliver
  | vins | vperm => exact buffersOut_three fun _ _ _ => buffers_deliver
  | vrope => exact buffersOut_three fun _ _ _ => buffers_ite (buffers_error _) buffers_deliver
  | trap | halt | br | clrf | mand | mor | mxor | mnot | mpop | mfirst | mbit => exact buffersOut_finish buffers_mapBun
  | ret | jmp | mset => exact buffersOut_one fun _ => buffers_mapBun
  | wrsr => exact buffersOut_one fun _ => buffers_ite buffers_mapBun (buffers_error _)
  | bz | bnz => exact buffersOut_one fun _ => buffers_ok (onlyBuffer_branchIf ..)
  | tfence =>
    exact buffersOut_finish (buffers_ite (buffers_error _) (buffers_ite (buffers_ok (onlyBuffer_refl s)) (buffers_error _)))
  | brq => exact buffersOut_brq _ _
  | call => exact buffersOut_call _ _ _
  | lbrk => exact buffersOut_lbrk _ _ _
  | ldrain => exact buffersOut_ldrain _ _
  | sret => exact buffersOut_sret
  | rdsr => exact buffersOut_rdsr _
  | _ => exact absurd h Bool.false_ne_true

/-- Settles O22: `exec_buffers` goes through the instructions by the shape of what they do. -/
theorem bufferFrame : Obligations.BufferFrame :=
  fun _ s t h he hv => exec_buffers h s t he hv

end Sys2Proof.Machine
end

section
/-! The events that begin and end freezes, and wear samples (R28, R142, R402, R405, R412 to R416): an equation for each. -/

namespace Sys2Proof.Machine

variable {s : State}

/-! ## Arrivals, walks, corrections, refreshes -/

/-- Arriving data ends the freezes whose data is there, or where there is none of these all that wait for data. -/
theorem memoryDataArrival_eq (s : State) :
    exec .memoryDataArrival s = .next (if ∃ f ∈ s.freezes, f.why.arrives = true ∧ f.left = 0
      then s.keepFreezes fun f => ¬(f.why.arrives = true ∧ f.left = 0) else s.keepFreezes fun f => !f.why.arrives) := by
  have hany : (s.freezes.any Freeze.arrived = true) ↔ ∃ f ∈ s.freezes, f.why.arrives = true ∧ f.left = 0 := by
    simp [List.any_eq_true, Freeze.arrived]
  have hkeep : (fun f : Freeze => !f.arrived) = fun f => decide ¬(f.why.arrives = true ∧ f.left = 0) := by
    funext f
    by_cases h : f.left = 0 <;> simp [Freeze.arrived, h]
  change Host.Outcome.next (if s.freezes.any Freeze.arrived then _ else _) = _
  rw [hkeep]
  simp only [hany]

theorem translationWalkComplete_idle (hw : s.walk = none) (hws : s.walks = []) :
    exec .translationWalkComplete s = .next s := by
  change Host.Outcome.next _ = _
  simp [State.walkOver, hw, hws]

section
variable {w : Walk} (hw : s.walk = some w) (hb : w.bad = none)
include hw hb

theorem translationWalkComplete_early (ht : s.wall < w.till) : exec .translationWalkComplete s = .next s := by
  have hlate : ¬w.till ≤ s.wall := Nat.not_le.2 ht
  change Host.Outcome.next _ = _
  simp [State.walkOver, hw, Option.filter, hb, hlate]

theorem translationWalkComplete_over (ht : w.till ≤ s.wall) :
    exec .translationWalkComplete s = .next (s.walkDone w) := by
  change Host.Outcome.next _ = _
  simp [State.walkOver, hw, Option.filter, hb, ht]

end

theorem translationWalkComplete_issued {w : Walk} (hw : s.walk = none) (hws : s.walks = [w]) (ht : w.till ≤ s.wall) :
    exec .translationWalkComplete s = .next (s.issuedWalkDone w) := by
  change Host.Outcome.next _ = _
  simp [State.walkOver, hw, hws, ht]

/-- The test that keeps the freezes of other causes. -/
theorem keep_others (y : FreezeWhy) : (fun f : Freeze => f.why != y) = fun f => decide (f.why ≠ y) := by
  funext f
  simp [bne, beq_eq_decide]

theorem State.walkDone_found {w : Walk} {e : TlbEnt} (he : w.ent = some e) :
    s.walkDone w = { s with
      freezes := s.freezes.filter fun f => f.why ≠ .walk
      tlb := e :: s.tlb
      walk := none
      oracle := { s.oracle with walks := s.oracle.walks.drop 1 } } := by
  simp only [State.walkDone, keep_others, he]
  rfl

theorem State.walkDone_failed {w : Walk} (he : w.ent = none) :
    s.walkDone w = { s with
      freezes := s.freezes.filter fun f => f.why ≠ .walk
      walk := some { w with bad := some w.fails }
      oracle := { s.oracle with walks := s.oracle.walks.drop 1 } } := by
  simp only [State.walkDone, keep_others, he]
  rfl

theorem State.issuedWalkDone_last {w : Walk} {e : TlbEnt} (hws : s.walks = [w]) (he : w.ent = some e) :
    s.issuedWalkDone w = { s with
      freezes := s.freezes.filter fun f => f.why ≠ .walk
      tlb := e :: s.tlb
      walks := []
      oracle := { s.oracle with walks := s.oracle.walks.drop 1 } } := by
  have hnone : s.walks.erase w = [] := by simp [hws]
  simp only [State.issuedWalkDone, hnone, State.walkLate, List.any_nil, keep_others, he]
  rfl

theorem correctionFreezeEnd_eq (s : State) :
    exec .correctionFreezeEnd s = .next { s with freezes := s.freezes.filter fun f =>
      match f.why with
      | .correction _ _ => f.left ≠ 0
      | _ => true } := by
  have hkeep : (fun f : Freeze => !f.corrected) = fun f =>
      match f.why with
      | .correction _ _ => decide (f.left ≠ 0)
      | _ => true := by
    funext f
    unfold Freeze.corrected
    cases f.why <;> simp [beq_eq_decide]
  change Host.Outcome.next (s.keepFreezes _) = _
  rw [hkeep]
  rfl

theorem weightStoreRefresh_due (s : State) :
    exec (.weightStoreRefresh (BitVec.ofNat 6 (s.wall / 512))) s
      = .next (if s.wall % 512 < 128 then
          { s with refresh := (BitVec.ofNat 6 (s.wall / 512), s.wall / 512 * 512 + 128) } else s) := by
  change Host.Outcome.next _ = _
  by_cases h : s.wall % 512 < 128 <;> simp [State.calendar, h]

/-! ## Throttles -/

theorem Part.spent_iff (x : Part) (lp ws : Nat) : x.spent lp ws = true ↔
    x.lpShare * 384 * 4096 ≤ lp * 256 ∨ x.wsShare * 32768 * 4096 ≤ ws * 256 := by
  rw [Part.spent, Bool.or_eq_true, decide_eq_true_iff, decide_eq_true_iff]
  rfl

theorem shareThrottleWindow_eq {r : Run} {p : BitVec 4} (hr : s.bank.run = some r) (hp : r.part = p) (lp ws : Nat)
    (others : Bool) :
    exec (.shareThrottleWindow p lp ws others) s
      = .next (if others && s.parts[p.toNat].spent lp ws then
          { s with freezes := s.freezes.filter (fun f => f.why ≠ .share) ++ [⟨.share, 4096 - s.wall % 4096⟩] }
        else { s with freezes := s.freezes.filter fun f => f.why ≠ .share }) := by
  subst hp
  change execShareThrottleWindow r.part lp ws others s = _
  simp only [execShareThrottleWindow, hr, keep_others]
  simp [State.keepFreezes, windowCycles]

/-- The running sum of a list by a fold. -/
theorem foldl_add_eq_sum {α : Type} (f : α → Nat) (l : List α) : l.foldl (fun n p => n + f p) 0 = (l.map f).sum := by
  rw [List.sum_eq_foldl, List.foldl_map]

theorem Throttle.cool_iff (t : Throttle) :
    t.cool = true ↔ (t.lastPowers.map (·.1)).sum ≤ 3000 * t.lastPowers.length ∧
      (t.lastPowers.map (·.2)).sum ≤ 72000 * t.lastPowers.length := by
  simp [Throttle.cool, foldl_add_eq_sum]

/-- The depth of the throttle after a window: up by 256 where it is hot or the powers are too high, down where it is cold. -/
theorem Throttle.window_f (t : Throttle) (n : Nat) :
    (t.window n).f = if 1680 ≤ t.hot.toInt ∨ ¬t.cool = true then min (t.f + 256) 3840
      else if t.hot.toInt < 1648 then t.f - 256 else t.f := by
  cases hc : t.cool <;> simp [Throttle.window, hc]

theorem State.judge_throttle (s : State) : s.judge.throttle = s.throttle.window (s.wall / 4096) := by
  simp only [State.judge]
  split <;> rfl

theorem State.judge_freezes (s : State) :
    s.judge.freezes = if s.judge.throttle.frozen - s.wall % 4096 = 0 then s.freezes
      else s.freezes ++ [⟨.thermal, s.judge.throttle.frozen - s.wall % 4096⟩] := by
  rw [State.judge_throttle]
  by_cases h : (s.throttle.window (s.wall / 4096)).frozen - s.wall % 4096 = 0 <;> simp [State.judge, windowCycles, h]

theorem State.judge_bank (s : State) : s.judge.bank = s.bank := by
  simp only [State.judge]
  split <;> rfl

theorem State.judge_mem (s : State) : s.judge.mem = s.mem := by
  simp only [State.judge]
  split <;> rfl

section
variable {hot : BitVec 16} {dp mp : Nat} (hh : hot.toInt < 2000)
include hh

theorem thermalThrottleWindow_due (hj : s.throttle.judged ≠ some (s.wall / 4096)) :
    exec (.thermalThrottleWindow hot dp mp) s = .next (s.readSensors hot dp mp).judge := by
  have hdue : (s.readSensors hot dp mp).windowDue = true := by
    simpa [State.windowDue, State.readSensors, State.sense, windowCycles] using hj
  have hcold : ¬2000 ≤ hot.toInt := Int.not_le.2 hh
  change execThermalThrottleWindow hot dp mp s = _
  simp only [execThermalThrottleWindow, hdue, hcold, if_true, if_false]

theorem thermalThrottleWindow_judged (hj : s.throttle.judged = some (s.wall / 4096)) :
    exec (.thermalThrottleWindow hot dp mp) s = .next (s.readSensors hot dp mp) := by
  have hdue : (s.readSensors hot dp mp).windowDue = false := by
    simpa [State.windowDue, State.readSensors, State.sense, windowCycles] using hj
  have hcold : ¬2000 ≤ hot.toInt := Int.not_le.2 hh
  change execThermalThrottleWindow hot dp mp s = _
  simp only [execThermalThrottleWindow, hdue, hcold, Bool.false_eq_true, if_false]

end

/-! ## Wear samples (R415) -/

/-- The last of the greatest, of a start and the members of a list, by a fold: it is one of them and none exceeds it. -/
theorem foldl_argmax (g : Nat → Nat) (l : List Nat) (b : Nat) :
    let r := l.foldl (fun b k => if g b < g k then k else b) b
    (r = b ∨ r ∈ l) ∧ g b ≤ g r ∧ ∀ k ∈ l, g k ≤ g r := by
  induction l generalizing b with
  | nil => simp
  | cons x l ih =>
    obtain ⟨hmem, hb, hall⟩ := ih (if g b < g x then x else b)
    have hstart : g b ≤ g (if g b < g x then x else b) ∧ g x ≤ g (if g b < g x then x else b) := by
      split <;> omega
    refine ⟨?_, hstart.1.trans hb, ?_⟩
    · rcases hmem with hmem | hmem
      · rw [List.foldl_cons, hmem]
        split <;> simp
      · exact .inr (List.mem_cons_of_mem _ hmem)
    · intro k hk
      rcases List.mem_cons.1 hk with rfl | hk
      · exact hstart.2.trans hb
      · exact hall k hk

/-- The monitor that `worstOf` names is one of those there are. -/
theorem worstOf_lt {wear : List Nat} (h : wear ≠ []) : worstOf wear < wear.length := by
  have hpos : 0 < wear.length := List.length_pos_of_ne_nil h
  rcases (foldl_argmax (wear.getD · 0) (List.range wear.length) 0).1 with he | hmem
  · exact (show worstOf wear = 0 from he) ▸ hpos
  · exact List.mem_range.1 hmem

theorem le_worstOf (wear : List Nat) {k : Nat} (hk : k < wear.length) : wear.getD k 0 ≤ wear.getD (worstOf wear) 0 :=
  (foldl_argmax (wear.getD · 0) (List.range wear.length) 0).2.2 k (List.mem_range.2 hk)

theorem Health.isSampled_iff (h : Health) (hour : Nat) :
    h.isSampled hour = true ↔ ∃ y, h.history.head? = some y ∧ y.1 = hour := by
  cases hh : h.history.head? <;> simp [Health.isSampled, hh]

/-- The state after a sample of one die. -/
def State.afterSample (s : State) (die : BitVec 5) (wear : List (BitVec 16)) : State :=
  (s.setMonitors die.toNat (wear.map (·.toNat))).sampleDies (· == die.toNat)

theorem wearSample_eq (s : State) (die : BitVec 5) (wear : List (BitVec 16)) :
    exec (.wearSample die wear) s = .next (s.afterSample die wear) := rfl

theorem State.monitorsOf_setMonitors (s : State) (d : Nat) (wear : List Nat) (h : Health) :
    (s.setMonitors d wear).monitorsOf d h = wear := by
  simp [State.monitorsOf, State.setMonitors]

/-- A die that this hour has not been sampled takes the sample. -/
theorem State.afterSample_fresh {die : BitVec 5} {wear : List (BitVec 16)} {h : Health}
    (hd : s.health.toList[die.toNat]? = some h) (hs : h.isSampled (s.wall / 6480000000000) = false) :
    ∃ free, (s.afterSample die wear).health.toList[die.toNat]?
      = some (h.sampled (s.wall / 6480000000000) (wear.map (·.toNat)) free) := by
  obtain ⟨hlt, hget⟩ := List.getElem?_eq_some_iff.1 hd
  have hlt' : die.toNat < 24 := by simpa using hlt
  have hget' : s.health[die.toNat] = h := by simpa using hget
  refine ⟨Config.freeRate (s.free + die.toNat) % 2 ^ 32, ?_⟩
  simp only [State.afterSample, State.sampleDies]
  rw [List.getElem?_eq_some_iff]
  refine ⟨by simpa using hlt', ?_⟩
  simp [State.monitorsOf_setMonitors, hourCycles]
  simp [State.setMonitors, hget', hs]

/-- Where the die has been sampled this hour no record changes. -/
theorem State.afterSample_sampled {die : BitVec 5} {wear : List (BitVec 16)} {h : Health}
    (hd : s.health.toList[die.toNat]? = some h) (hs : h.isSampled (s.wall / 6480000000000) = true) :
    (s.afterSample die wear).health = s.health := by
  obtain ⟨hlt, hget⟩ := List.getElem?_eq_some_iff.1 hd
  have hget' : s.health[die.toNat]'(by simpa using hlt) = h := by simpa using hget
  refine Vector.ext fun i hi => ?_
  simp only [State.afterSample, State.sampleDies, Vector.getElem_mapIdx, hourCycles]
  by_cases he : i = die.toNat
  · subst he
    simp [State.setMonitors, hget', hs]
  · simp [he, State.setMonitors]

/-! ## The statement -/

/-- Settles O48: the events one after another. -/
theorem freezeEvents : Obligations.FreezeEvents := by
  intro s w hot dp mp lp ws p die wear
  refine ⟨?arrival, translationWalkComplete_idle, translationWalkComplete_early,
    fun hw hb ht => ⟨fun e he => ?found, fun he => ?failed⟩, fun hw hws ht e he => ?issued, correctionFreezeEnd_eq s,
    weightStoreRefresh_due s, fun hh hj => ?window, fun hh hj => ?judged, fun r hr hp => ?share,
    fun h₀ hd hfresh hne => ?fresh, fun h₀ y hd hy hhour => ?sampled⟩
  case arrival => exact memoryDataArrival_eq s
  case found => rw [translationWalkComplete_over hw hb ht, State.walkDone_found he]
  case failed => rw [translationWalkComplete_over hw hb ht, State.walkDone_failed he]
  case issued => rw [translationWalkComplete_issued hw hws ht, State.issuedWalkDone_last hws he]
  case window =>
    intro l cool f trip stop
    have hcool : (s.readSensors hot dp mp).throttle.cool = true ↔ cool := Throttle.cool_iff _
    have hf : (s.readSensors hot dp mp).judge.throttle.f = f := by
      rw [State.judge_throttle, Throttle.window_f]
      simp only [hcool]
      rfl
    have htrip : (s.readSensors hot dp mp).judge.throttle.trip = trip := by
      rw [State.judge_throttle]
      rfl
    have hfrozen : (s.readSensors hot dp mp).judge.throttle.frozen = if trip then 4096 else f := by
      simp only [Throttle.frozen, hf, htrip, windowCycles]
    refine ⟨_, thermalThrottleWindow_due hh hj, hf, htrip, ?_, ?_, State.judge_bank _, State.judge_mem _⟩
    · rw [State.judge_throttle]
      rfl
    · rw [State.judge_freezes, hfrozen]
      rfl
  case judged => exact ⟨_, thermalThrottleWindow_judged hh hj, rfl, rfl, rfl, rfl, rfl⟩
  case share =>
    intro x spent
    have hspent : (s.parts[p.toNat].spent lp ws = true) ↔ spent := Part.spent_iff x lp ws
    refine ⟨?_, ?_⟩
    · rw [shareThrottleWindow_eq hr hp]
      simp only [Bool.true_and, hspent]
    · rw [shareThrottleWindow_eq hr hp]
      rfl
  case fresh =>
    have hs : h₀.isSampled (s.wall / 6480000000000) = false :=
      Bool.eq_false_iff.2 fun h => by
        obtain ⟨y, hy, hhour⟩ := (h₀.isSampled_iff _).1 h
        exact hfresh y hy hhour
    obtain ⟨free, hrec⟩ := State.afterSample_fresh (wear := wear) hd hs
    refine ⟨_, _, wearSample_eq .., hrec, rfl, ?_, rfl, fun k hk => ?_, rfl, rfl⟩
    · have hworst := worstOf_lt (wear := wear.map (·.toNat)) (by simpa using hne)
      rwa [List.length_map] at hworst
    · exact le_worstOf (wear.map (·.toNat)) (by rwa [List.length_map])
  case sampled =>
    have hs : h₀.isSampled (s.wall / 6480000000000) = true := (h₀.isSampled_iff _).2 ⟨y, hy, hhour⟩
    exact ⟨_, wearSample_eq .., State.afterSample_sampled hd hs, rfl, rfl⟩

end Sys2Proof.Machine
end

section
/-! How operations enter the engine's queue (R181, R191 to R193), and what a service slice may not issue (R342). -/

namespace Sys2Proof.Machine

/-! ## Claims change streams alone -/

/-- `c` differs from `b` in nothing but its streams. -/
def OnlyStreams (b c : Bank) : Prop := ∃ ss, c = { b with streams := ss }

theorem onlyStreams_refl (b : Bank) : OnlyStreams b b := ⟨b.streams, rfl⟩

theorem onlyStreams_trans {b c d : Bank} (h : OnlyStreams b c) (h' : OnlyStreams c d) : OnlyStreams b d := by
  obtain ⟨ss, rfl⟩ := h
  obtain ⟨ss', rfl⟩ := h'
  exact ⟨ss', rfl⟩

theorem claim_onlyStreams (b : Bank) (n : BitVec 4) (k : Nat) (rule : Option (BitVec 5)) (taken : Bool) :
    OnlyStreams b (b.claim n k rule taken).1 := by
  unfold Bank.claim
  dsimp only
  split
  · exact ⟨_, rfl⟩
  · split
    · exact ⟨_, rfl⟩
    · exact onlyStreams_refl b
    · split <;> exact ⟨_, rfl⟩

theorem claimAll_onlyStreams (rule : Option (BitVec 5)) (taken : BitVec 4 → Bool) (l : List (BitVec 4 × Nat)) (b : Bank)
    (cs : List Claim) : OnlyStreams b (claimAll rule taken l b cs).1 := by
  induction l generalizing b cs with
  | nil => exact onlyStreams_refl b
  | cons x l ih =>
    have hb := claim_onlyStreams b x.1 x.2 rule (taken x.1)
    unfold claimAll
    split
    · next c hc =>
      rw [hc] at hb
      exact onlyStreams_trans hb (ih ..)
    · next hc =>
      rw [hc] at hb
      exact hb

/-- An operation claims pieces of streams: of the bank the streams change, of the operation its claims and its fault. -/
theorem claimIn_eq (o : EngOp) (needs : List (BitVec 4 × Nat)) (taken : BitVec 4 → Bool) (b : Bank) :
    ∃ ss cs e, o.claimIn needs taken b = ({ b with streams := ss }, { o with claims := cs, err := e }) := by
  obtain ⟨ss, hss⟩ := claimAll_onlyStreams (o.rule.map (·.1)) taken (needs.drop o.claims.length) b o.claims
  exact ⟨ss, _, _, Prod.ext hss rfl⟩

theorem claimBehind_eq (o : EngOp) (ahead : List EngOp) (b : Bank) :
    ∃ ss cs e, o.claimBehind ahead b = ({ b with streams := ss }, { o with claims := cs, err := e }) := by
  unfold EngOp.claimBehind
  split
  · exact claimIn_eq ..
  · split
    · exact ⟨_, _, _, rfl⟩
    · exact claimIn_eq ..

/-- An operation enters the queue as its last, with the next sequence number and the claims that it could make. -/
theorem Bank.enter_eq (b : Bank) (o : EngOp) :
    ∃ ss cs e, b.enter o = { b with
      streams := ss
      eng := b.eng ++ [{ o with seq := b.seq, claims := cs, err := e }]
      seq := b.seq + 1 } := by
  obtain ⟨ss, cs, e, h⟩ := claimBehind_eq { o with seq := b.seq } b.eng b
  exact ⟨ss, cs, e, by simp only [Bank.enter, h]⟩

/-! ## The token of an operation -/

/-- The machine with the pending tag `tag` of the agent at issue and a token still to land in its bundle's buffer. -/
def State.tokenIssued (s : State) (d : Opnd) (wide : Bool) (tag : DWord) : State :=
  { s with bank := { s.bank with
      uid := s.bank.uid + 1
      agents := s.bank.agents.set s.turn { s.cur with bun := withToken s d wide 0 .token, tag := tag } } }

theorem State.putPending_eq (s : State) (d : Opnd) (wide : Bool) (tag : DWord) :
    (s.mapCur fun a => { a with tag := tag }).putPending d wide = (s.tokenIssued d wide tag, s.bank.uid) := by
  simp [State.putPending, State.deliver, State.mapBun, State.mapCur, State.mapAgent, State.mapBank, State.tokenIssued,
    withToken, Bun.push, newLatch, State.cur, State.agent]

theorem State.mapCur_tag_self (s : State) : (s.mapCur fun a => { a with tag := s.cur.tag }) = s := by
  have hset : s.bank.agents.set s.turn s.cur = s.bank.agents := Vector.set_getElem_self ..
  change { s with bank := { s.bank with agents := s.bank.agents.set s.turn s.cur } } = s
  rw [hset]

/-- An operation that record mode logs takes the pending tag, and any other leaves it (R270). -/
theorem State.takeTag_eq (s : State) (i : Instr) :
    ∃ tag x, s.takeTag i = (s.mapCur fun a => { a with tag := tag }, x) := by
  unfold State.takeTag
  dsimp only
  split
  · exact ⟨_, _, rfl⟩
  · split
    · exact ⟨_, _, rfl⟩
    · exact ⟨s.cur.tag, _, by rw [s.mapCur_tag_self]⟩

/-! ## Entering the queue -/

/-- The machine once operation `o` stands in the queue with its token pending. -/
def State.entered (s : State) (o : EngOp) (ss : Vector Strm 16) (d : Opnd) (wide : Bool) (tag : DWord) : State :=
  { s with bank := { s.bank with
      eng := s.bank.eng ++ [o]
      seq := s.bank.seq + 1
      uid := s.bank.uid + 1
      streams := ss
      agents := s.bank.agents.set s.turn { s.cur with bun := withToken s d wide 0 .token, tag := tag } } }

theorem State.entered_cur (s : State) (o : EngOp) (ss : Vector Strm 16) (d : Opnd) (wide : Bool) (tag : DWord) :
    (s.entered o ss d wide tag).cur = { s.cur with bun := withToken s d wide 0 .token, tag := tag } := by
  simp [State.entered, State.cur, State.agent]

theorem State.entered_setTag (s : State) (o : EngOp) (ss : Vector Strm 16) (d : Opnd) (wide : Bool) (tag tag' : DWord) :
    ((s.entered o ss d wide tag).mapCur fun a => { a with tag := tag' }) = s.entered o ss d wide tag' := by
  simp [State.entered, State.mapCur, State.mapAgent, State.mapBank]

/-- The operation of an instruction at issue, before its operands are read; `x` is the tag that it takes. -/
def State.freshOp (s : State) (i : Instr) (x : DWord) : EngOp :=
  { newOp 0 s.bank.uid s.turn s.cur.bun.ipc i with
    rngkey := s.cur.rngkey, atrap := s.cur.atrap, screen := s.bank.screen, tag := x, word := s.rawWord }

/-- What an operation is made of that its claims do not change: the instruction, its numbers, its owner, its address, and the
operands `f` that it reads at issue. -/
def IssuedAs (s : State) (i : Instr) (f : EngOp → Prop) (o : EngOp) : Prop :=
  o.ins = i ∧ o.seq = s.bank.seq ∧ o.uid = s.bank.uid ∧ o.owner = s.turn ∧ o.pc = s.cur.bun.ipc ∧ o.rule = none ∧ f o

theorem enters_entered {s : State} {i : Instr} {f : EngOp → Prop} {o : EngOp} (h : IssuedAs s i f o) (ss : Vector Strm 16)
    (d : Opnd) (wide : Bool) (tag : DWord) : Enters s (s.entered o ss d wide tag) i d wide f := by
  obtain ⟨hi, hseq, huid, hown, hpc, hrule, hf⟩ := h
  exact ⟨o, tag, hi, hseq, huid, hown, hpc, hrule, hf, rfl⟩

/-- `setup` gives an operation operands that meet `f`, whatever its claims, and leaves the rest of it alone. -/
def Loads (setup : EngOp → EngOp) (f : EngOp → Prop) : Prop :=
  ∀ o q cs e, let p := { setup o with seq := q, claims := cs, err := e }
    p.ins = o.ins ∧ p.uid = o.uid ∧ p.owner = o.owner ∧ p.pc = o.pc ∧ p.rule = o.rule ∧ f p

section
variable {s : State} {i : Instr} {d : Opnd} {wide : Bool} {setup : EngOp → EngOp} {f : EngOp → Prop}

theorem State.engIssue_entered (hl : Loads setup f) {tag x : DWord}
    (ht : s.takeTag i = (s.mapCur fun a => { a with tag := tag }, x)) :
    ∃ o ss, IssuedAs s i f o ∧ s.engIssue i d wide setup = s.entered o ss d wide tag := by
  obtain ⟨ss, cs, e, henter⟩ := (s.tokenIssued d wide tag).bank.enter_eq (setup (s.freshOp i x))
  obtain ⟨hins, huid, hown, hpc, hrule, hf⟩ := hl (s.freshOp i x) s.bank.seq cs e
  refine ⟨_, ss, ⟨hins, rfl, huid, hown, hpc, hrule, hf⟩, ?_⟩
  unfold State.freshOp at henter
  simp only [State.engIssue, ht, State.putPending_eq, State.mapBank, henter]
  rfl

theorem enters_engIssue (hl : Loads setup f) : Enters s (s.engIssue i d wide setup) i d wide f := by
  obtain ⟨tag, x, ht⟩ := s.takeTag_eq i
  obtain ⟨o, ss, ho, he⟩ := State.engIssue_entered (d := d) (wide := wide) hl ht
  rw [he]
  exact enters_entered ho ss d wide tag

/-- Issuing an operation touches no access that has been requested or read early. -/
theorem State.engIssue_accesses (hl : Loads setup f) :
    (s.engIssue i d wide setup).pend = s.pend ∧ (s.engIssue i d wide setup).reads = s.reads ∧
      (s.engIssue i d wide setup).held = s.held := by
  obtain ⟨tag, x, ht⟩ := s.takeTag_eq i
  obtain ⟨o, ss, -, he⟩ := State.engIssue_entered (d := d) (wide := wide) hl ht
  rw [he]
  exact ⟨rfl, rfl, rfl⟩

end

/-! ## Outside a service slice -/

theorem State.unserved_off {s : State} (hs : s.serving = false) (r : Except Stop State) : s.unserved r = r := by
  simp [State.unserved, hs]

/-- The instructions of MTX, TILE and VOC that read nothing at issue. -/
def plainIssue : Instr → Bool
  | .mma .. | .tmm .. | .tmmt .. | .tmmw .. | .acfg .. | .aczero .. | .acdrain .. | .acload .. | .tadd .. | .tmul ..
  | .tact .. | .tactd .. | .trms .. | .trmsd .. | .tsmax .. | .tsmaxd .. | .tscale .. | .vproj .. | .vprojd .. => true
  | _ => false

theorem exec_plainIssue {i : Instr} (h : plainIssue i = true) (s : State) : exec i s = s.engPlain i := by
  cases i with
  | mma | tmm | tmmt | tmmw | acfg | aczero | acdrain | acload | tadd | tmul | tact | tactd | trms | trmsd | tsmax
  | tsmaxd | tscale | vproj | vprojd => rfl
  | _ => exact absurd h Bool.false_ne_true

/-- The standing forms whose install reads nothing at issue. -/
def plainStand : Stand → Bool
  | .attn .. | .omap .. | .cpy .. => false
  | _ => true

theorem exec_plainStand {w : Stand} (h : plainStand w = true) (s : State) :
    exec (.standInstall w) s = s.engPlain (.standInstall w) := by
  cases w with
  | attn | omap | cpy => exact absurd h Bool.false_ne_true
  | _ => rfl

section
variable {s : State} (hs : s.serving = false)
include hs

section
variable {i : Instr} {d : Opnd} {wide : Bool} {f : EngOp → Prop}

/-- An instruction that reads no operand at issue. -/
theorem enters_plain (he : exec i s = s.finish (s.unserved (.ok (s.engIssue i d wide id)))) :
    ∃ u, exec i s = .next u ∧ Enters s u i d wide fun _ => True := by
  refine ⟨_, ?_, enters_engIssue (setup := id) fun _ _ _ _ => ⟨rfl, rfl, rfl, rfl, rfl, trivial⟩⟩
  rw [he, State.unserved_off hs, finish_ok]

/-- An instruction that reads one operand and then issues its operation. -/
theorem enters_read {α : Type} {r : Except Stop α} {x : α} {setup : α → EngOp → EngOp}
    (he : exec i s = s.finish (s.unserved (r >>= fun u => pure (s.engIssue i d wide (setup u)))))
    (hr : r = .ok x) (hl : Loads (setup x) f) : ∃ u, exec i s = .next u ∧ Enters s u i d wide f := by
  refine ⟨_, ?_, enters_engIssue hl⟩
  rw [he, State.unserved_off hs, hr]
  rfl

/-- An instruction that reads two operands and then issues its operation. -/
theorem enters_read_two {α β : Type} {r : Except Stop α} {q : Except Stop β} {x : α} {y : β}
    {setup : α → β → EngOp → EngOp}
    (he : exec i s
      = s.finish (s.unserved (r >>= fun u => q >>= fun v => pure (s.engIssue i d wide (setup u v)))))
    (hr : r = .ok x) (hq : q = .ok y) (hl : Loads (setup x y) f) : ∃ u, exec i s = .next u ∧ Enters s u i d wide f :=
  enters_read hs (setup := fun u => setup u y) (by rw [he, hq]; rfl) hr hl

/-- An instruction that reads three operands and then issues its operation. -/
theorem enters_read_three {α β γ : Type} {r : Except Stop α} {q : Except Stop β} {p : Except Stop γ}
    {x : α} {y : β} {z : γ} {setup : α → β → γ → EngOp → EngOp}
    (he : exec i s = s.finish (s.unserved
      (r >>= fun u => q >>= fun v => p >>= fun w => pure (s.engIssue i d wide (setup u v w)))))
    (hr : r = .ok x) (hq : q = .ok y) (hp : p = .ok z) (hl : Loads (setup x y z) f) :
    ∃ u, exec i s = .next u ∧ Enters s u i d wide f :=
  enters_read_two hs (setup := fun u v => setup u v z) (by rw [he, hp]; rfl) hr hq hl

end

end

/-! ## Blocks read at issue, and marks that advance, with no access out of order -/

section
variable {s : State}

theorem State.noteWalk_mapped {va : DWord} (h : Mapped s va) : s.noteWalk va = s := by
  unfold State.noteWalk
  rw [if_neg]
  rintro ⟨hlt, hnone, -⟩
  rcases h with h | h
  · omega
  · simp [Option.isNone_iff_eq_none.1 hnone] at h

theorem State.reading_orderly (ho : Orderly s) {va : DWord} (hm : Mapped s va) (path : Path) (key n : Nat) :
    s.reading path va key n = s := by
  obtain ⟨hp, hr, hh, -, -⟩ := ho
  simp [State.reading, State.noteWalk_mapped hm, State.beforeRead, State.flushAt, State.flushWhere, hp, State.readsAt,
    State.readsWhere, hr, State.wholeOf, State.heldAt, hh, State.dropOf]

theorem State.atBlock_orderly (ho : Orderly s) {va : DWord} (hm : Mapped s va) (key n : Nat) : s.atBlock va key n = s := by
  rw [State.atBlock, State.reading_orderly ho hm]
  obtain ⟨-, -, hh, -, -⟩ := ho
  simp [State.atHome, State.dropAt, State.dropOf, hh]

theorem State.blockAt_ok (ho : Orderly s) {va : DWord} {key : Nat} (h : BlockRead s va key 64) : s.blockAt va = .ok key := by
  obtain ⟨hacc, hserved, hpoison⟩ := h
  simp [State.blockAt, State.exactRead, hacc, hpoison, hserved, State.unowed, heldBack_nil ho.1, Except.map]

theorem State.mxBlock_ok (ho : Orderly s) {va : DWord} {key : Nat} (hm : Mapped s va) (h : BlockRead s va key 64) :
    s.mxBlock va = .ok (s, s.rd key 64) := by
  have hread := State.reading_orderly ho hm .mx key 64
  obtain ⟨hacc, hserved, hpoison⟩ := h
  obtain ⟨hp, -, hh, -, -⟩ := ho
  have hmark : s.readMark .mx va key 64 = none := by
    simp [State.readMark, State.markOf, State.heldAt, hh, hpoison, hserved]
  have hview : s.view .mx key 64 = s.rd key 64 := by simp [State.view, State.viewOf, State.heldAt, hh, hp]
  simp [State.mxBlock, hacc, hread, hmark, hview, bind, Except.bind, pure, Except.pure]

theorem State.readTo_noRead (hr : s.reads = []) (n : Nat) (p : PendR → Bool) : s.readTo n p = s := by
  unfold State.readTo
  split
  · simp [State.readsWhere, hr]
  · rw [hr, List.map_nil, ← hr]

theorem State.publish_noWrite (hp : s.pend = []) (n : Nat) (p : PendW → Bool) : s.publish n p = s := by
  unfold State.publish
  split
  · simp [State.flushWhere, hp]
  · rw [hp, List.filter_nil, List.foldl_nil, List.map_nil, ← hp]

theorem State.readAnew_noneHeld (hh : s.held = []) (n : Nat) (p : Held → Bool) : s.readAnew n p = s := by
  unfold State.readAnew
  rw [hh, List.filter_nil, ← hh]

theorem State.firingsAnew_noneHeld (hh : s.held = []) : s.firingsAnew = s := by
  unfold State.firingsAnew
  rw [hh, List.filter_nil, ← hh]

/-- Where no access stands out of order, an advance of a mark has none to order (R209). -/
theorem State.extendOrder_quiet (hp : s.pend = []) (hr : s.reads = []) (hh : s.held = []) : s.extendOrder = s := by
  simp only [State.extendOrder, State.acquireAll, State.readOwn, State.readTo_noRead hr, State.publish_noWrite hp,
    State.readAnew_noneHeld hh, State.firingsAnew_noneHeld hh]

end

/-! ## Instructions that read more, or order accesses -/

section
variable {s : State} (hs : s.serving = false)
include hs

theorem recflag_enters {d a : Opnd} (ha : Readable s a .w64) :
    ∃ u, exec (.recflag d a) s = .next u ∧ Enters s u (.recflag d a) d false (fun o => o.valA = s.val64 a) ∧
      u.cur.tag = if (tagOf (s.val64 a)).ok then s.val64 a else s.cur.tag := by
  have htag : s.takeTag (.recflag d a) = (s.mapCur fun g => { g with tag := s.cur.tag }, defaultTag) := by
    rw [s.mapCur_tag_self]
    rfl
  obtain ⟨o, ss, ho, he⟩ := State.engIssue_entered (d := d) (wide := false) (setup := fun o => { o with valA := s.val64 a })
    (f := fun o => o.valA = s.val64 a) (fun _ _ _ _ => ⟨rfl, rfl, rfl, rfl, rfl, rfl⟩) htag
  have hexec : exec (.recflag d a) s = .next (if (tagOf (s.val64 a)).ok
      then (s.entered o ss d false s.cur.tag).mapCur fun g => { g with tag := s.val64 a }
      else s.entered o ss d false s.cur.tag) := by
    change execRecflag d a s = _
    rw [execRecflag, State.unserved_off hs, rd64_ok ha, ← he]
    rfl
  refine ⟨_, hexec, ?_⟩
  cases hok : (tagOf (s.val64 a)).ok with
  | true =>
    rw [if_pos rfl, if_pos rfl, State.entered_setTag, State.entered_cur]
    exact ⟨enters_entered ho .., rfl⟩
  | false =>
    rw [if_neg Bool.false_ne_true, if_neg Bool.false_ne_true, State.entered_cur]
    exact ⟨enters_entered ho .., rfl⟩

/-- `extend` and `extend.c`: with no deferred error and no access out of order there is nothing to wait for or to order. -/
theorem extend_enters {i : Instr} {d a : Opnd} (he : exec i s = s.finishOrdered (s.extendIssue i d a))
    (hdef : s.cur.deferred = []) (ho : Orderly s) (ha : Readable s a .w32) :
    ∃ u, exec i s = .next u ∧ Enters s u i d true fun o => o.valA = (s.val32 a).setWidth 64 := by
  have hl : Loads (fun o : EngOp => { o with valA := (s.val32 a).setWidth 64 }) fun o => o.valA = (s.val32 a).setWidth 64 :=
    fun _ _ _ _ => ⟨rfl, rfl, rfl, rfl, rfl, rfl⟩
  refine ⟨_, ?_, enters_engIssue hl⟩
  obtain ⟨hp, hr, hh, -, -⟩ := ho
  obtain ⟨hp', hr', hh'⟩ := State.engIssue_accesses (s := s) (i := i) (d := d) (wide := true) hl
  have hopen : s.openIssue i d a = .ok (s.engIssue i d true fun o => { o with valA := (s.val32 a).setWidth 64 }) := by
    rw [State.openIssue, State.unserved_off hs, rd32_ok ha]
    rfl
  rw [he, finishOrdered_eq hdef hp, State.extendIssue, hopen, Except.map,
    State.extendOrder_quiet (hp'.trans hp) (hr'.trans hr) (hh'.trans hh), finish_ok]

theorem openIssue_enters {i : Instr} {d a : Opnd} (he : exec i s = s.finish (s.openIssue i d a)) (ha : Readable s a .w32) :
    ∃ u, exec i s = .next u ∧ Enters s u i d true fun o => o.valA = (s.val32 a).setWidth 64 :=
  enters_read hs he (rd32_ok ha) fun _ _ _ _ => ⟨rfl, rfl, rfl, rfl, rfl, rfl⟩

theorem otcfg_enters {d : Opnd} {slot : BitVec 6} {bp : BitVec 4} {off : BitVec 18} {key : Nat} (ho : Orderly s)
    (hb : Readable s (baseOp bp) .w64) (hm : Mapped s (s.val64 (baseOp bp) + off.setWidth 64))
    (hr : BlockRead s (s.val64 (baseOp bp) + off.setWidth 64) key 64) :
    ∃ u, exec (.otcfg d slot bp off) s = .next u ∧ Enters s u (.otcfg d slot bp off) d false fun o =>
      o.addr = s.val64 (baseOp bp) + off.setWidth 64 ∧ o.blk = s.rd key 64 := by
  refine ⟨_, ?_, enters_engIssue (setup := fun o => { o with
    addr := s.val64 (baseOp bp) + off.setWidth 64, blk := s.rd key 64 }) fun _ _ _ _ => ⟨rfl, rfl, rfl, rfl, rfl, rfl, rfl⟩⟩
  change execOtcfg d slot bp off s = _
  simp only [execOtcfg, State.unserved_off hs, rdBase_ok hb, bind, Except.bind, State.mxBlock_ok ho hm hr, pure, Except.pure,
    finish_ok]

theorem standCpy_enters {d a : Opnd} {bp : BitVec 4} {off : BitVec 23} {key : Nat} {b : CopyBlk} (ho : Orderly s)
    (hb : Readable s (baseOp bp) .w64) (ha : Readable s a .w32)
    (hblk : s.copyBlock .cpy (s.val64 (baseOp bp) + off.setWidth 64) = .ok b)
    (hr : BlockRead s (s.val64 (baseOp bp) + off.setWidth 64) key 64)
    (hm : Mapped s (s.val64 (baseOp bp) + off.setWidth 64)) (hlt : (s.val32 a).toNat < 64) :
    ∃ u, exec (.standInstall (.cpy d bp a off)) s = .next u ∧ Enters s u (.standInstall (.cpy d bp a off)) d false fun o =>
      o.addr = s.val64 (baseOp bp) + off.setWidth 64 ∧ o.valA = (s.val32 a).setWidth 64 ∧ o.blk = s.rd key 64 := by
  have hdiv : ¬(s.val32 a).toNat / 64 ≠ 0 := by omega
  refine ⟨_, ?_, enters_engIssue (setup := fun o => { o with
    addr := s.val64 (baseOp bp) + off.setWidth 64, valA := (s.val32 a).setWidth 64, blk := s.rd key 64 })
    fun _ _ _ _ => ⟨rfl, rfl, rfl, rfl, rfl, rfl, rfl, rfl⟩⟩
  change execStandInstall (.cpy d bp a off) s = _
  simp only [execStandInstall, State.unserved_off hs, rdBase_ok hb, rd32_ok ha, bind, Except.bind, hblk, State.blockAt_ok ho hr,
    State.atBlock_orderly ho hm, if_neg hdiv, pure, Except.pure, finish_ok]

end

/-! ## Joint operations (R191, R192) -/

/-- Leading changes an operation's address and its tag, nothing else. -/
theorem EngOp.ledBy_eq (o : EngOp) (c : AgentId) (pc tag : DWord) :
    ∃ pc' tag', o.ledBy c pc tag = { o with pc := pc', tag := tag' } := by
  unfold EngOp.ledBy
  split
  · exact ⟨pc, tag, rfl⟩
  · exact ⟨o.pc, o.tag, rfl⟩

/-- The operation that C0 issues for the four clusters: led by the joint count's cluster, C0 its first member. -/
def State.jointOp (s : State) (i : Instr) (x : DWord) : EngOp :=
  { newOp 0 s.bank.uid s.bank.lead s.cur.bun.ipc i with members := [(0, s.bank.uid)], word := s.rawWord }.ledBy 0
    s.cur.bun.ipc x

theorem State.jointOp_parts (s : State) (i : Instr) (x : DWord) :
    (s.jointOp i x).ins = i ∧ (s.jointOp i x).owner = s.bank.lead ∧ (s.jointOp i x).members = [(0, s.bank.uid)] := by
  obtain ⟨pc, tag, h⟩ := EngOp.ledBy_eq
    { newOp 0 s.bank.uid s.bank.lead s.cur.bun.ipc i with members := [(0, s.bank.uid)], word := s.rawWord } 0 s.cur.bun.ipc x
  rw [State.jointOp, h]
  exact ⟨rfl, rfl, rfl⟩

theorem joinOpen_none {l : List EngOp} (h : ∀ o ∈ l, o.lacksMembers = false) (c : AgentId) (uid : Nat) (pc tag : DWord) :
    joinOpen c uid pc tag l = l := by
  refine (List.map_congr_left fun o ho => ?_).trans (List.map_id l)
  simp [h o ho]

/-- A member joins the one operation that lacks members; the others of the queue stay as they are. -/
theorem joinOpen_one {l l' : List EngOp} {o : EngOp} (ho : o.lacksMembers = true)
    (hothers : ∀ x ∈ l ++ l', x.lacksMembers = false) (c : AgentId) (uid : Nat) (pc tag : DWord) :
    joinOpen c uid pc tag (l ++ o :: l') = l ++ { o with members := o.members ++ [(c, uid)] }.ledBy c pc tag :: l' := by
  have hl := joinOpen_none (fun x hx => hothers x (List.mem_append_left _ hx)) c uid pc tag
  have hl' := joinOpen_none (fun x hx => hothers x (List.mem_append_right _ hx)) c uid pc tag
  unfold joinOpen at hl hl' ⊢
  rw [List.map_append, List.map_cons, if_pos ho, hl, hl']

section
variable {s : State}

theorem State.tokenIssued_cur (d : Opnd) (wide : Bool) (tag : DWord) :
    (s.tokenIssued d wide tag).cur = { s.cur with bun := withToken s d wide 0 .token, tag := tag } := by
  simp [State.tokenIssued, State.cur, State.agent]

/-- C0's part of a joint operation enters for the four clusters and raises the joint count. -/
theorem State.jointIssue_lead (i : Instr) (ht : s.turn = 0) : ∃ o,
    (s.jointIssue i).bank.eng = s.bank.eng ++ [o] ∧ o.ins = i ∧ o.seq = s.bank.seq ∧ o.owner.val = s.bank.joint % 4 ∧
    o.members = [(0, s.bank.uid)] ∧ (s.jointIssue i).bank.joint = s.bank.joint + 1 ∧
    (s.jointIssue i).bank.seq = s.bank.seq + 1 ∧ (s.jointIssue i).cur.bun = withToken s (.q 0) false 0 .token ∧
    (s.jointIssue i).mem = s.mem := by
  obtain ⟨tag, x, htag⟩ := s.takeTag_eq i
  obtain ⟨ss, cs, e, henter⟩ := (s.tokenIssued (.q 0) false tag).bank.enter_eq (s.jointOp i x)
  obtain ⟨hins, hown, hmem⟩ := s.jointOp_parts i x
  have hissue : s.jointIssue i = (s.tokenIssued (.q 0) false tag).mapBank fun b =>
      { b.enter (s.jointOp i x) with joint := b.joint + 1 } := by
    simp only [State.jointIssue, htag, State.putPending_eq, if_pos ht]
    rfl
  have hcur : (s.jointIssue i).cur = (s.tokenIssued (.q 0) false tag).cur := by
    simp only [hissue, State.mapBank, henter]
    rfl
  refine ⟨{ s.jointOp i x with seq := s.bank.seq, claims := cs, err := e }, ?_, hins, rfl, ?_, hmem, ?_, ?_, ?_, ?_⟩
  · simp only [hissue, State.mapBank, henter]
    rfl
  · exact congrArg Fin.val hown
  · rw [hissue]
    rfl
  · simp only [hissue, State.mapBank, henter]
    rfl
  · rw [hcur, State.tokenIssued_cur]
  · rw [hissue]
    rfl

/-- Another cluster joins the operation that lacks members, with its own token. -/
theorem State.jointIssue_joins (i : Instr) (ht : s.turn ≠ 0) {l l' : List EngOp} {o : EngOp}
    (hq : s.bank.eng = l ++ o :: l') (ho : o.lacksMembers = true) (hothers : ∀ x ∈ l ++ l', x.lacksMembers = false) :
    ∃ o', (s.jointIssue i).bank.eng = l ++ o' :: l' ∧ o'.ins = o.ins ∧ o'.seq = o.seq ∧ o'.owner = o.owner ∧
      o'.claims = o.claims ∧ o'.members = o.members ++ [(s.turn, s.bank.uid)] ∧
      (s.jointIssue i).bank.joint = s.bank.joint ∧ (s.jointIssue i).cur.bun = withToken s (.q 0) false 0 .token ∧
      (s.jointIssue i).mem = s.mem := by
  obtain ⟨tag, x, htag⟩ := s.takeTag_eq i
  have hissue : s.jointIssue i = (s.tokenIssued (.q 0) false tag).mapBank fun b =>
      { b with eng := joinOpen s.turn s.bank.uid s.cur.bun.ipc x b.eng } := by
    simp only [State.jointIssue, htag, State.putPending_eq, if_neg ht]
  obtain ⟨pc, tag', hled⟩ := EngOp.ledBy_eq { o with members := o.members ++ [(s.turn, s.bank.uid)] } s.turn s.cur.bun.ipc x
  have heng : joinOpen s.turn s.bank.uid s.cur.bun.ipc x s.bank.eng
      = l ++ { o with members := o.members ++ [(s.turn, s.bank.uid)], pc := pc, tag := tag' } :: l' := by
    rw [hq, joinOpen_one ho hothers, hled]
  refine ⟨{ o with members := o.members ++ [(s.turn, s.bank.uid)], pc := pc, tag := tag' },
    ?_, rfl, rfl, rfl, rfl, rfl, ?_, ?_, ?_⟩
  · rw [hissue, ← heng]
    rfl
  · rw [hissue]
    rfl
  · rw [hissue]
    exact congrArg Agent.bun (State.tokenIssued_cur (.q 0) false tag)
  · rw [hissue]
    rfl

end

/-! ## In a service slice (R342) -/

/-- The instructions that a service slice may not issue: those of the engine, its installs, the streams and the copy channels. -/
def unservedInstr : Instr → Bool
  | .stcfg .. | .stadv .. | .ststat .. | .stcut .. | .mma .. | .tmm .. | .tmmt .. | .tmmw .. | .jointOperation .. | .acfg ..
  | .aczero .. | .acdrain .. | .acload .. | .tadd .. | .tmul .. | .tact .. | .tactd .. | .trms .. | .trmsd .. | .tsmax ..
  | .tsmaxd .. | .tscale .. | .vproj .. | .vmerge .. | .vprojd .. | .attn .. | .attnd .. | .otcfg .. | .extend .. | .extendC ..
  | .revoke .. | .revokeAt .. | .rlresume .. | .rlstat .. | .omap .. | .standInstall .. | .recbeg .. | .recend .. | .reverse ..
  | .recflag .. | .cpy .. | .cpyg .. | .cpys .. | .cpymc .. | .cpred .. | .cpwait .. | .cpdone .. => true
  | _ => false

section
variable {s : State} (hs : s.serving = true)
include hs

theorem State.unserved_on (r : Except Stop State) : s.unserved r = s.trapNow 0x07 0 0 := by
  simp [State.unserved, hs]

/-- Such an instruction is refused before it reads an operand. -/
theorem finish_unserved {o : Host.Outcome State Fault Refusal} {r : Except Stop State} (h : o = s.finish (s.unserved r)) :
    o = .next { s.takeTrap (s.trapAt 0x07 0 0) with verdict := .trapped false } := by
  rw [h, State.unserved_on hs, finish_trapNow]

theorem finishOrdered_extendIssue (i : Instr) (d a : Opnd) : s.finishOrdered (s.extendIssue i d a)
    = .next { s.takeTrap (s.trapAt 0x07 0 0) with verdict := .trapped false } := by
  rw [State.extendIssue, State.openIssue, State.unserved_on hs]
  rfl

theorem exec_unserved {i : Instr} (h : unservedInstr i = true) :
    exec i s = .next { s.takeTrap (s.trapAt 0x07 0 0) with verdict := .trapped false } := by
  cases i with
  | stcfg | stadv | ststat | stcut | mma | tmm | tmmt | tmmw | jointOperation | acfg | aczero | acdrain | acload | tadd
  | tmul | tact | tactd | trms | trmsd | tsmax | tsmaxd | tscale | vproj | vmerge | vprojd | attn | attnd | otcfg | revoke
  | revokeAt | rlresume | rlstat | omap | standInstall | recbeg | recend | reverse | recflag | cpy | cpyg | cpys | cpymc
  | cpred | cpwait | cpdone => exact finish_unserved hs rfl
  | extend | extendC => exact finishOrdered_extendIssue hs ..
  | _ => exact absurd h Bool.false_ne_true

end

/-! ## The engine's queue at issue -/

theorem exec_jointOperation {s : State} (hs : s.serving = false) (p : Prod) (ac : BitVec 2) (t : Ty) (ta tb : Bool)
    (kc : BitVec 6) : exec (.jointOperation p ac t ta tb kc) s = .next (s.jointIssue (.jointOperation p ac t ta tb kc)) := by
  change execJointOperation p ac t ta tb kc s = _
  rw [execJointOperation, State.unserved_off hs, finish_ok]

/-- Settles O35: each instruction's issue is its reads and then one entry into the queue, on which claims change streams alone;
a joint operation enters or is joined in the queue; a service slice is refused before any operand is read. -/
theorem engineIssue : Obligations.EngineIssue := by
  unfold Obligations.EngineIssue
  refine ⟨?issued, ?joint, ?served⟩
  case issued =>
    intro s ac f4 b4 sa sb sx fn hx bp t ta tb x1 x2 kc slot rows cols e8 r d a o18 o23 o24 key hs hdef ho hbp hsa hsb hsx
      h32 h64 base enters
    refine ⟨fun i hi => ?mtx, ?vmerge, ?attn, ?attnd, ?omap, ?recbeg, ?reverse, ?recend, recflag_enters hs h64,
      fun i hi => ?slots, ?revokeAt, fun hm hr => otcfg_enters hs ho hbp hm hr, fun w hw => ?stand, ?standAttn, ?standOmap,
      fun b hblk hr hm hlt => standCpy_enters hs ho hbp h32 hblk hr hm hlt⟩
    case mtx => exact enters_plain hs (exec_plainIssue (List.all_eq_true.1 rfl i hi) s)
    case vmerge =>
      exact enters_read_three hs rfl (rdBase_ok hsa) (rdBase_ok hsb) (rdBase_ok hsx)
        fun _ _ _ _ => ⟨rfl, rfl, rfl, rfl, rfl, rfl, rfl, rfl⟩
    case attn => exact enters_read hs rfl (rdBase_ok hbp) fun _ _ _ _ => ⟨rfl, rfl, rfl, rfl, rfl, rfl⟩
    case attnd =>
      exact enters_read_two hs rfl (rdBase_ok hbp) (rd64_ok h64) fun _ _ _ _ => ⟨rfl, rfl, rfl, rfl, rfl, rfl, rfl⟩
    case omap =>
      exact enters_read_two hs rfl (rdBase_ok hbp) (rd32_ok h32) fun _ _ _ _ => ⟨rfl, rfl, rfl, rfl, rfl, rfl, rfl⟩
    case recbeg => exact enters_read hs rfl (rdBase_ok hbp) fun _ _ _ _ => ⟨rfl, rfl, rfl, rfl, rfl, rfl⟩
    case reverse =>
      exact enters_read_two hs rfl (rdBase_ok hbp) (rd32_ok h32) fun _ _ _ _ => ⟨rfl, rfl, rfl, rfl, rfl, rfl, rfl⟩
    case recend => exact enters_plain hs rfl
    case slots =>
      simp only [List.mem_cons, List.not_mem_nil, or_false] at hi
      obtain rfl | rfl | rfl | rfl | rfl := hi
      · exact extend_enters hs rfl hdef ho h32
      · exact extend_enters hs rfl hdef ho h32
      · exact openIssue_enters hs rfl h32
      · exact openIssue_enters hs rfl h32
      · exact openIssue_enters hs rfl h32
    case revokeAt =>
      exact enters_read_two hs rfl (rd32_ok h32) (rdBase_ok hbp) fun _ _ _ _ => ⟨rfl, rfl, rfl, rfl, rfl, rfl, rfl⟩
    case stand => exact enters_plain hs (exec_plainStand (List.all_eq_true.1 rfl w hw) s)
    case standAttn =>
      exact enters_read_two hs rfl (rdBase_ok hbp) (rd32_ok h32) fun _ _ _ _ => ⟨rfl, rfl, rfl, rfl, rfl, rfl, rfl⟩
    case standOmap => exact enters_read hs rfl (rdBase_ok hbp) fun _ _ _ _ => ⟨rfl, rfl, rfl, rfl, rfl, rfl⟩
  case joint =>
    intro s p ac t ta tb kc hs i
    have hexec := exec_jointOperation hs p ac t ta tb kc
    refine ⟨fun ht => ?_, fun ht l o l' hq hlack hothers => ?_⟩
    · obtain ⟨o, h⟩ := State.jointIssue_lead i ht
      exact ⟨_, o, hexec, h⟩
    · obtain ⟨o', h⟩ := State.jointIssue_joins i ht hq hlack hothers
      exact ⟨_, o', hexec, h⟩
  case served =>
    intro s ac b2 f2 ch sa sb sx fn hx bp sn t ta tb x1 x2 kc slot rows cols e8 r sc d a o18 o20 o23 o24 p w hs i hi
    exact exec_unserved hs (List.all_eq_true.1 rfl i hi)

end Sys2Proof.Machine
end

section
/-! The encoder and the decoder: the round trip of every instruction (R35 to R45), and words that the checks of R54
accept and reject. -/

namespace Sys2Proof.Laws

/-! ## The round trip -/

/-- An event, which no word encodes, meets the statement. -/
theorem roundTrip_of_noWord {i : Instr} (h : i.body = none) : RoundTrip.Statement i := by
  intro ap e y w _ he
  rw [encode, h] at he
  cases he

/-- Settles O1: an encoded instruction by the lemma of its constructor, an event because it has no word. -/
theorem decodeEncode : Obligations.DecodeEncode := by
  intro i
  cases i with
  -- SYS (R111)
  | nop => apply RoundTrip.nop | brk => apply RoundTrip.brk | trap => apply RoundTrip.trap
  | tfence => apply RoundTrip.tfence | sret => apply RoundTrip.sret | tlbinv => apply RoundTrip.tlbinv
  | halt => apply RoundTrip.halt
  -- SALU (R91)
  | add => apply RoundTrip.add | sub => apply RoundTrip.sub | mul => apply RoundTrip.mul
  | mulh => apply RoundTrip.mulh | div => apply RoundTrip.div | divn => apply RoundTrip.divn
  | rem => apply RoundTrip.rem | remn => apply RoundTrip.remn | and => apply RoundTrip.and
  | or => apply RoundTrip.or | xor => apply RoundTrip.xor | shl => apply RoundTrip.shl
  | shr => apply RoundTrip.shr | sra => apply RoundTrip.sra | min => apply RoundTrip.min
  | max => apply RoundTrip.max | minn => apply RoundTrip.minn | maxn => apply RoundTrip.maxn
  | clz => apply RoundTrip.clz | ctz => apply RoundTrip.ctz | popc => apply RoundTrip.popc
  | seq => apply RoundTrip.seq | sne => apply RoundTrip.sne | slt => apply RoundTrip.slt
  | sltn => apply RoundTrip.sltn | sel => apply RoundTrip.sel | bfx => apply RoundTrip.bfx
  | bfi => apply RoundTrip.bfi
  -- SALUI (R94)
  | addi => apply RoundTrip.addi | andi => apply RoundTrip.andi | ori => apply RoundTrip.ori
  | xori => apply RoundTrip.xori | shli => apply RoundTrip.shli | shri => apply RoundTrip.shri
  | srai => apply RoundTrip.srai | movi => apply RoundTrip.movi | slti => apply RoundTrip.slti
  | sltni => apply RoundTrip.sltni | muli => apply RoundTrip.muli
  -- SPAIR, SPAIRI (R95, R96)
  | add64 => apply RoundTrip.add64 | sub64 => apply RoundTrip.sub64 | mov64 => apply RoundTrip.mov64
  | shl64 => apply RoundTrip.shl64 | slt64n => apply RoundTrip.slt64n | addi64 => apply RoundTrip.addi64
  | movi64 => apply RoundTrip.movi64 | sethi => apply RoundTrip.sethi
  -- BR (R98)
  | br => apply RoundTrip.br | bz => apply RoundTrip.bz | bnz => apply RoundTrip.bnz
  | call => apply RoundTrip.call | ret => apply RoundTrip.ret | jmp => apply RoundTrip.jmp
  | brq => apply RoundTrip.brq
  -- LOOP (R100 to R105)
  | loop => apply RoundTrip.loop | lbrk => apply RoundTrip.lbrk | ldrain => apply RoundTrip.ldrain
  | lidx => apply RoundTrip.lidx
  -- MEM (R149)
  | ld => apply RoundTrip.ld | st => apply RoundTrip.st | pref => apply RoundTrip.pref
  -- AMO (R153)
  | amoadd => apply RoundTrip.amoadd | amoswp => apply RoundTrip.amoswp | amocas => apply RoundTrip.amocas
  | amomin => apply RoundTrip.amomin | amomax => apply RoundTrip.amomax | amominn => apply RoundTrip.amominn
  | amomaxn => apply RoundTrip.amomaxn | amoand => apply RoundTrip.amoand | amoor => apply RoundTrip.amoor
  | amoxor => apply RoundTrip.amoxor
  -- ORDR (R158 to R161)
  | fenceM => apply RoundTrip.fenceM | fenceX => apply RoundTrip.fenceX | bind => apply RoundTrip.bind
  | unbind => apply RoundTrip.unbind | acqAll => apply RoundTrip.acqAll | relAll => apply RoundTrip.relAll
  -- VINT (R119)
  | vadd => apply RoundTrip.vadd | vsub => apply RoundTrip.vsub | vmul => apply RoundTrip.vmul
  | vmin => apply RoundTrip.vmin | vmax => apply RoundTrip.vmax | vabs => apply RoundTrip.vabs
  | vand => apply RoundTrip.vand | vor => apply RoundTrip.vor | vxor => apply RoundTrip.vxor
  | vshl => apply RoundTrip.vshl | vshr => apply RoundTrip.vshr | vsra => apply RoundTrip.vsra
  | vadds => apply RoundTrip.vadds | vsubs => apply RoundTrip.vsubs | vcmpeq => apply RoundTrip.vcmpeq
  | vcmplt => apply RoundTrip.vcmplt | vcmple => apply RoundTrip.vcmple
  -- VFP (R120)
  | vfadd => apply RoundTrip.vfadd | vfsub => apply RoundTrip.vfsub | vfmul => apply RoundTrip.vfmul
  | vfma => apply RoundTrip.vfma | vfms => apply RoundTrip.vfms | vfmin => apply RoundTrip.vfmin
  | vfmax => apply RoundTrip.vfmax | vfabs => apply RoundTrip.vfabs | vfneg => apply RoundTrip.vfneg
  | vfcmpeq => apply RoundTrip.vfcmpeq | vfcmplt => apply RoundTrip.vfcmplt | vfcmple => apply RoundTrip.vfcmple
  | vfcmpun => apply RoundTrip.vfcmpun
  -- VSPC (R122 to R124)
  | vrcp => apply RoundTrip.vrcp | vrsqrt => apply RoundTrip.vrsqrt | vsqrt => apply RoundTrip.vsqrt
  | vexp2 => apply RoundTrip.vexp2 | vlog2 => apply RoundTrip.vlog2 | vdiv => apply RoundTrip.vdiv
  | vrope => apply RoundTrip.vrope | vrng => apply RoundTrip.vrng
  -- VCVT (R125 to R128)
  | vcvt => apply RoundTrip.vcvt | vpack => apply RoundTrip.vpack | vunpk => apply RoundTrip.vunpk
  | vpk6 => apply RoundTrip.vpk6 | vupk6 => apply RoundTrip.vupk6 | vtrit => apply RoundTrip.vtrit
  | vtritp => apply RoundTrip.vtritp
  -- VLANE (R129 to R132)
  | vbcast => apply RoundTrip.vbcast | vext => apply RoundTrip.vext | vins => apply RoundTrip.vins
  | vperm => apply RoundTrip.vperm | vred => apply RoundTrip.vred | vscan => apply RoundTrip.vscan
  | vsortk => apply RoundTrip.vsortk | vcompress => apply RoundTrip.vcompress
  -- MASK (R134)
  | mand => apply RoundTrip.mand | mor => apply RoundTrip.mor | mxor => apply RoundTrip.mxor
  | mnot => apply RoundTrip.mnot | mset => apply RoundTrip.mset | mget => apply RoundTrip.mget
  | mpop => apply RoundTrip.mpop | mfirst => apply RoundTrip.mfirst | mbit => apply RoundTrip.mbit
  -- VMEM (R154 to R156)
  | vld => apply RoundTrip.vld | vst => apply RoundTrip.vst | vldg => apply RoundTrip.vldg
  | vsts => apply RoundTrip.vsts
  -- STRM (R182)
  | stcfg => apply RoundTrip.stcfg | stadv => apply RoundTrip.stadv | ststat => apply RoundTrip.ststat
  | stcut => apply RoundTrip.stcut
  -- MTX (R186 to R191)
  | mma => apply RoundTrip.mma | tmm => apply RoundTrip.tmm | tmmt => apply RoundTrip.tmmt
  | tmmw => apply RoundTrip.tmmw | jointOperation => apply RoundTrip.jointOperation
  | acfg => apply RoundTrip.acfg | aczero => apply RoundTrip.aczero | acdrain => apply RoundTrip.acdrain
  | acload => apply RoundTrip.acload
  -- TILE (R198 to R200)
  | tadd => apply RoundTrip.tadd | tmul => apply RoundTrip.tmul | tact => apply RoundTrip.tact
  | tactd => apply RoundTrip.tactd | trms => apply RoundTrip.trms | trmsd => apply RoundTrip.trmsd
  | tsmax => apply RoundTrip.tsmax | tsmaxd => apply RoundTrip.tsmaxd | tscale => apply RoundTrip.tscale
  -- VOC (R232, R238, R241)
  | vproj => apply RoundTrip.vproj | vmerge => apply RoundTrip.vmerge | vprojd => apply RoundTrip.vprojd
  -- ATT (R255)
  | attn => apply RoundTrip.attn | attnd => apply RoundTrip.attnd
  -- OPEN (R207 to R226), installs (R210 to R216)
  | otcfg => apply RoundTrip.otcfg | extend => apply RoundTrip.extend | extendC => apply RoundTrip.extendC
  | revoke => apply RoundTrip.revoke | revokeAt => apply RoundTrip.revokeAt
  | rlresume => apply RoundTrip.rlresume | rlstat => apply RoundTrip.rlstat | omap => apply RoundTrip.omap
  | standInstall => apply standInstall_roundTrip
  -- REC (R273)
  | recbeg => apply RoundTrip.recbeg | recend => apply RoundTrip.recend | reverse => apply RoundTrip.reverse
  | recflag => apply RoundTrip.recflag
  -- COPY (R289, R295)
  | cpy => apply RoundTrip.cpy | cpyg => apply RoundTrip.cpyg | cpys => apply RoundTrip.cpys
  | cpymc => apply RoundTrip.cpymc | cpred => apply RoundTrip.cpred | cpwait => apply RoundTrip.cpwait
  | cpdone => apply RoundTrip.cpdone
  -- XQ (R299)
  | qput => apply RoundTrip.qput | qget => apply RoundTrip.qget | bqput => apply RoundTrip.bqput
  | qlvl => apply RoundTrip.qlvl
  -- SCHED (R316)
  | spawn => apply RoundTrip.spawn | join => apply RoundTrip.join | launch => apply RoundTrip.launch
  | yield => apply RoundTrip.yield | slend => apply RoundTrip.slend | unpark => apply RoundTrip.unpark
  -- EVT (R320)
  | evset => apply RoundTrip.evset | evsetErr => apply RoundTrip.evsetErr | evclr => apply RoundTrip.evclr
  | evwait => apply RoundTrip.evwait | evtest => apply RoundTrip.evtest | bar => apply RoundTrip.bar
  | barG => apply RoundTrip.barG
  -- PQ (R322)
  | pqpush => apply RoundTrip.pqpush | pqpop => apply RoundTrip.pqpop | pqlen => apply RoundTrip.pqlen
  -- SPR (R106)
  | rdsr => apply RoundTrip.rdsr | wrsr => apply RoundTrip.wrsr | clrf => apply RoundTrip.clrf
  -- KV (R248)
  | kvxl => apply RoundTrip.kvxl | kvfork => apply RoundTrip.kvfork | kvgrow => apply RoundTrip.kvgrow
  | kvcommit => apply RoundTrip.kvcommit
  -- the events of the opcode table
  | _ => exact roundTrip_of_noWord rfl

/-! ## The checks of R54 that reject a word -/

section
variable {ap : Bool} {w : DWord}

theorem decode_reservedVersion (h : wBit w 63 = true) : decode ap w = .error ⟨1, 0x02⟩ := by
  rw [decode, if_pos h]

theorem decode_unknownMajor (hv : wBit w 63 = false) (h : 0x1F ≤ wOp w) : decode ap w = .error ⟨2, 0x01⟩ := by
  rw [decode, if_neg (by simp [hv]), if_pos h]

theorem decode_unknownFunction (hv : wBit w 63 = false) (ho : wOp w < 0x1F) (h : fnCount (wOp w) ≤ wFn w) :
    decode ap w = .error ⟨3, 0x01⟩ := by
  rw [decode, if_neg (by simp [hv]), if_neg (by omega), if_pos h]

theorem decode_wrongAgent (hv : wBit w 63 = false) (ho : wOp w < 0x1F) (hf : wFn w < fnCount (wOp w))
    (h : agentOk ap (wOp w) (wFn w) = false) : decode ap w = .error ⟨4, 0x03⟩ := by
  rw [decode, if_neg (by simp [hv]), if_neg (by omega), if_neg (by omega), if_pos (by simp [h])]

/-- Check 5 where the major and function name an instruction whose own fields are not those of the word (R39). -/
theorem decode_fieldFault (hv : wBit w 63 = false) (ho : wOp w < 0x1F) (hf : wFn w < fnCount (wOp w))
    (ha : agentOk ap (wOp w) (wFn w) = true) {i : Instr} (hi : candidate (wOp w) (wFn w) w = some i)
    (h : i.body ≠ some (wBits w 0 60)) : decode ap w = .error ⟨5, 0x02⟩ := by
  have hd : decodeFields w = none := by simp [decodeFields, hi, h]
  rw [decode, if_neg (by simp [hv]), if_neg (by omega), if_neg (by omega), if_neg (by simp [ha]), hd]

end

/-- Settles O2: a word of the format tables is what the encoder gives for its instruction, so that the round trip decodes
it; a rejected word fails its check and passes those before it. -/
theorem decodeWords : Obligations.DecodeWords := by
  refine ⟨⟨?add, ?ld, ?bnz, ?loop, ?addi, ?tmm, ?cpy, ?nop⟩, ?version, ?major, ?function, ?operand, ?control, ?agent⟩
  case add | ld | bnz | loop | addi | tmm | cpy | nop => exact decodeEncode _ _ _ _ _ rfl rfl rfl
  case version => exact decode_reservedVersion rfl
  case major => exact decode_unknownMajor rfl (by decide)
  case function => exact decode_unknownFunction rfl (by decide) (by decide)
  case operand | control => exact decode_fieldFault rfl (by decide) (by decide) rfl (i := .nop) rfl (by decide)
  case agent => exact decode_wrongAgent rfl (by decide) (by decide) rfl

end Sys2Proof.Laws
end

section
/-! The float vector instructions and the conversions: a lane-wise result as the statements write it, elements and
integers of a lane, and the results of VFP and `vcvt`. -/

namespace Sys2Proof.Machine

/-! ## Lane-wise results -/

/-- The flags of the active lanes, gathered lane by lane. -/
theorem laneFlags_eq_foldl (act : BitVec 16) (f : Nat → BitVec 7) :
    laneFlags act f = ((List.range 16).filter fun i => act.getLsbD i).foldl (fun x i => x ||| f i) 0 := by
  rw [laneFlags, orFlags, List.foldl_map, lanesOf]

theorem next_putLanes (s : State) (sc : Sched) (d : Opnd) (n : Nat) (m : Gov) (f : Nat → Word × BitVec 7) :
    .next (s.putLanes sc d n m f) = lanesWith s sc d n m f := by
  rw [State.putLanes, laneFlags_eq_foldl]; rfl

section
variable {s : State} {sc : Sched} {d A B X : Opnd} {t : Ty} {m : Gov} {n : Nat} {g : Nat → Word × BitVec 7}

theorem vec1_lanes {f : Word → Word × BitVec 7} (ha : Readable s A .vec)
    (h : ∀ i, f (lane (s.valV (tyOne t) A) i) = g i) : s.vec1 sc d A t m n f = lanesWith s sc d n m g := by
  rw [vec1_ok ha, next_putLanes, funext h]

theorem vec2_lanes {f : Word → Word → Word × BitVec 7} (ha : Readable s A .vec) (hb : Readable s B .vec)
    (h : ∀ i, f (lane (s.valV (tyOne t) A) i) (lane (s.valV (tyOne t) B) i) = g i) :
    s.vec2 sc d A B t m n f = lanesWith s sc d n m g := by
  rw [vec2_ok ha hb, next_putLanes, funext h]

theorem vec3_lanes {f : Word → Word → Word → Word × BitVec 7} (ha : Readable s A .vec) (hb : Readable s B .vec)
    (hx : Readable s X .vec)
    (h : ∀ i, f (lane (s.valV (tyOne t) A) i) (lane (s.valV (tyOne t) B) i) (lane (s.valV (tyOne t) X) i) = g i) :
    s.vec3 sc d A B X t m n f = lanesWith s sc d n m g := by
  rw [vec3_ok ha hb hx, next_putLanes, funext h]

end

/-! ## Elements and integers of a lane (R115, R119) -/

theorem tyBits_pos (t : Ty) : 0 < tyBits t := by cases t <;> decide

theorem Ty.isLaneSigned_of_not_int {t : Ty} (h : t.isLaneInt = false) : t.isLaneSigned = false := by
  cases t with
  | i32 | n32 | i16 | n16 | i8 | n8 => exact absurd h (by decide)
  | _ => rfl

theorem Ty.isLaneInt_of_float {t : Ty} (h : t.isLaneFloat = true) : t.isLaneInt = false := by
  cases t with
  | f32 | f16 | bf16 => rfl
  | _ => exact absurd h (by decide)

/-- The two's-complement reading of the low bits is the balanced remainder. -/
theorem sgnW_eq_bmod {w : Nat} (hw : 0 < w) (x : Nat) : sgnW w x = Int.bmod x (2 ^ w) := by
  obtain ⟨k, rfl⟩ : ∃ k, w = k + 1 := ⟨w - 1, by omega⟩
  have hp : 2 ^ (k + 1) = 2 * 2 ^ k := Nat.pow_succ'
  have hi : (2 : Int) ^ (k + 1) = ((2 * 2 ^ k : Nat) : Int) := by push_cast; exact pow_succ' 2 k
  have hx : ((x : Int) % ((2 * 2 ^ k : Nat) : Int)) = ((x % (2 * 2 ^ k) : Nat) : Int) := rfl
  unfold sgnW Int.bmod
  simp only [hp, hi, hx, Nat.add_sub_cancel]
  split <;> split <;> omega

theorem elemInt_eq_laneInt {t : Ty} (x : Word) : elemInt t x = laneInt t x := by
  unfold elemInt laneInt
  split
  · exact sgnW_eq_bmod (tyBits_pos t) _
  · rfl

theorem wrapW_cast (w : Nat) (x : Int) : ((wrapW w x : Nat) : Int) = x % 2 ^ w := by
  unfold wrapW
  rw [Int.toNat_of_nonneg (Int.emod_nonneg _ (by positivity))]
  push_cast; rfl

/-- An element of a type that is not signed fills its lane with zeros. -/
theorem extend_unsigned {t : Ty} (h : t.isLaneSigned = false) (x : Nat) : extend t x = BitVec.ofNat 32 (x % 2 ^ tyBits t) := by
  cases t with
  | i32 | i16 | i8 => exact absurd h (by decide)
  | _ => rfl

theorem signExtend_ofNat {w : Nat} (x : Nat) : (BitVec.ofNat w x).signExtend 32 = BitVec.ofInt 32 (Int.bmod x (2 ^ w)) := by
  rw [BitVec.signExtend, BitVec.toInt_ofNat']

/-- An element in its lane, filled above its width by type. -/
theorem extend_eq_asLane (t : Ty) (x : Nat) : extend t x = asLane t x := by
  cases hs : t.isLaneSigned with
  | false =>
    rw [extend_unsigned hs, asLane, if_neg (by simp [hs])]
    exact (BitVec.ofInt_natCast 32 (x % 2 ^ tyBits t)).symm
  | true =>
    rw [asLane, if_pos hs]
    cases t with
    | i8 | i16 => exact signExtend_ofNat x
    | i32 =>
      refine BitVec.eq_of_toInt_eq ?_
      show (BitVec.ofNat 32 (x % 2 ^ 32)).toInt = (BitVec.ofInt 32 (Int.bmod x (2 ^ 32))).toInt
      rw [BitVec.toInt_ofNat', BitVec.toInt_ofInt, Int.bmod_bmod, Int.natCast_mod, Int.emod_bmod]
    | _ => exact absurd hs (by decide)

/-- A lane depends on its integer modulo 2^w alone. -/
theorem asLane_congr {t : Ty} {x y : Int} (h : x % 2 ^ tyBits t = y % 2 ^ tyBits t) : asLane t x = asLane t y := by
  unfold asLane
  have hb : Int.bmod x (2 ^ tyBits t) = Int.bmod y (2 ^ tyBits t) := by
    unfold Int.bmod; push_cast; rw [h]
  rw [h, hb]

theorem intLane_eq_asLane (t : Ty) (x : Int) : intLane t x = asLane t x := by
  rw [intLane, extend_eq_asLane]
  exact asLane_congr (by rw [wrapW_cast, Int.emod_emod])

theorem floatLane_eq {t : Ty} (h : t.isLaneInt = false) (z : Nat × BitVec 7) :
    floatLane t z = (BitVec.ofNat 32 (z.1 % 2 ^ tyBits t), z.2) := by
  rw [floatLane, extend_unsigned (Ty.isLaneSigned_of_not_int h)]

/-! ## VFP (R120) -/

theorem signBit_eq {t : Ty} (h : t.isLaneFloat = true) : signBit t = 2 ^ (tyBits t - 1) := by
  cases t with
  | f32 | f16 | bf16 => rfl
  | _ => exact absurd h (by decide)

theorem signOp_eq {t : Ty} (h : t.isLaneFloat = true) (f : Nat → Nat) (a : Word) :
    signOp t f a = (BitVec.ofNat 32 ((if (fval t (elem t a)).isNaN then canonNaN t else f (elem t a)) % 2 ^ tyBits t),
      if (fval t (elem t a)).isSig then 0x01 else 0) := by
  rw [signOp, extend_unsigned (Ty.isLaneSigned_of_not_int (Ty.isLaneInt_of_float h))]; rfl

theorem floatCmp_any (t : Ty) (f : FVal → FVal → Bool) (a b : Word) : floatCmp t true f a b =
    ((if f (fval t (elem t a)) (fval t (elem t b)) then 0xFFFFFFFF else 0),
      if (fval t (elem t a)).isNaN || (fval t (elem t b)).isNaN then 0x01 else 0) := rfl

theorem floatCmp_sig (t : Ty) (f : FVal → FVal → Bool) (a b : Word) : floatCmp t false f a b =
    ((if f (fval t (elem t a)) (fval t (elem t b)) then 0xFFFFFFFF else 0),
      if (fval t (elem t a)).isSig || (fval t (elem t b)).isSig then 0x01 else 0) := rfl

/-- Settles O24: each instruction by the shape of its family, its lanes by the operation the model gives them. -/
theorem vfpResults : Obligations.VfpResults := by
  intro s sc d A B X t m r ht ha hb hx
  have hint := Ty.isLaneInt_of_float ht
  refine ⟨?add, ?sub, ?mul, ?fma, ?fms, ?min, ?max, ?abs, ?neg, ?eq, ?lt, ?le, ?un⟩
  all_goals dsimp only [exec]
  case add | sub | mul | min | max => exact vec2_lanes ha hb fun i => floatLane_eq hint _
  case fma | fms => exact vec3_lanes ha hb hx fun i => floatLane_eq hint _
  case abs | neg => exact vec1_lanes ha fun i => by rw [signOp_eq ht, signBit_eq ht]; rfl
  case eq | un => exact vec2_lanes ha hb fun i => floatCmp_sig ..
  case lt | le => exact vec2_lanes ha hb fun i => floatCmp_any ..

/-! ## `vcvt` (R125) -/

theorem intRange_eq (t : Ty) : intRange t = (if t.isLaneSigned then -2 ^ (tyBits t - 1) else 0,
    if t.isLaneSigned then 2 ^ (tyBits t - 1) - 1 else 2 ^ tyBits t - 1) := by
  unfold intRange; split <;> rfl

theorem extend_cvtII (t : Ty) (sat : Bool) (z : Int) :
    extend t (cvtII t sat z) = asLane t (if sat then clampTo t z else z) := intLane_eq_asLane t _

/-- One converted lane, by the kinds of the source and of the destination. -/
theorem cvtLane_eq (t src : Ty) (r : Rnd) (x : Word) :
    cvtLane t src r x =
      let code := fun (z : Nat × BitVec 7) => (BitVec.ofNat 32 (z.1 % 2 ^ tyBits t), z.2)
      if src = .i32 ∨ src = .n32 then
        if t.isLaneInt then (asLane t (if r.sat then clampTo t (laneInt src x) else laneInt src x), 0)
        else code (cvtIF t r (laneInt src x))
      else if t.isLaneInt then (asLane t (cvtFI t src r.mode (elem src x)).1, (cvtFI t src r.mode (elem src x)).2)
      else if t = src then
        code (if (fval t (elem src x)).isNaN then canonNaN t else elem src x, if (fval t (elem src x)).isSig then 0x01 else 0)
      else code (cvtFF t src r (elem src x)) := by
  unfold cvtLane
  cases hi : t.isLaneInt with
  | true => simp only [if_true, elemInt_eq_laneInt, extend_cvtII, intLane_eq_asLane]
  | false =>
    simp only [if_neg Bool.false_ne_true, floatLane_eq hi, elemInt_eq_laneInt,
      extend_unsigned (Ty.isLaneSigned_of_not_int hi)]
    by_cases hd : t = src
    · subst hd; rfl
    · simp only [if_neg hd]

/-- Settles O28: the lanes of the one-vector shape, by the kinds of the two types. -/
theorem conversion : Obligations.Conversion := by
  intro s sc d A t src m r _ ha
  refine vec1_lanes ha fun i => (cvtLane_eq t (srcTy src) r _).trans ?_
  rw [clampTo, intRange_eq]
  rfl

end Sys2Proof.Machine
end

section
/-! The ternary product of one chunk (R72, R190): the engine at the head of its queue, a chunk of one piece of each operand,
the accumulator element by element, and what completion leaves. -/

namespace Sys2Proof.Machine

/-! ## Writes that no agent has seen stay pending (R163) -/

theorem needed_none {p : PendW → Bool} {l : List PendW} (h : ∀ e ∈ l, p e = false) :
    needed p l = List.replicate l.length false := by
  induction l with
  | nil => rfl
  | cons e l ih =>
    have hl : ∀ f ∈ l, p f = false := fun f hf => h f (List.mem_cons_of_mem e hf)
    have ha : (l.any fun f => p f && e.before f) = false :=
      List.any_eq_false.2 fun f hf => by simp [hl f hf]
    rw [needed, ih hl, h e List.mem_cons_self, ha]; rfl

theorem settleGo_stays {stays : Nat → PendW → Bool} (es : List PendW) (i : Nat) (kept : List PendW) (s : State)
    (h : ∀ k e, k < i + es.length → stays k e = true) :
    State.settleGo stays i es kept s = { s with pend := kept ++ es } := by
  induction es generalizing i kept with
  | nil => simp [State.settleGo]
  | cons e es ih =>
    have hi : stays i e = true := h i e (by simp)
    rw [State.settleGo, if_pos (by simp [hi]), ih _ _ fun k f hk => h k f (by simp at hk ⊢; omega)]
    simp

/-- Where a test picks out no pending write, none is performed. -/
theorem flushWhere_none {s : State} {p : PendW → Bool} (h : ∀ e ∈ s.pend, p e = false) : s.flushWhere p = s := by
  unfold State.flushWhere
  split
  · rfl
  · rw [needed_none h, settleGo_stays]
    · rfl
    · intro k e hk
      simp at hk
      simp [List.getD_eq_getElem?_getD, hk]

theorem surface_unseen {s : State} (h : ∀ e ∈ s.pend, e.seen = none) (a : AgentId) : s.surface a = s :=
  flushWhere_none fun e he => by simp [PendW.seenBy, PendW.seenAt, h e he]

/-! ## The engine goes on with the head of its queue (R192) -/

theorem unlessFrozen_running {s : State} (h : s.freezes = []) (f : State → State) : s.unlessFrozen f = .next (f s) := by
  simp [State.unlessFrozen, h]

theorem onWork_unshadowed {s : State} (h : s.shadow = none) (f : State → State) : s.onWork f = f s := by
  simp [State.onWork, h]

/-- An operation that has all its claims makes none. -/
theorem claimIn_claimed {o : EngOp} {needs : List (BitVec 4 × Nat)} (h : needs.length ≤ o.claims.length) (he : o.err = none)
    (taken : BitVec 4 → Bool) (b : Bank) : o.claimIn needs taken b = (b, o) := by
  rw [EngOp.claimIn, List.drop_eq_nil_of_le h, claimAll, ← he]

theorem setHead_self {b : Bank} {o : EngOp} {os : List EngOp} (h : b.eng = o :: os) : b.setHead o = b := by
  rw [Bank.setHead, h, List.drop_one, List.tail_cons, ← h]

theorem headStep_claimed {s : State} {o : EngOp} {os : List EngOp} (hq : s.bank.eng = o :: os) (he : o.err = none)
    (h : (needsOf o.ins).length ≤ o.claims.length) : s.headStep o = s.runHead o := by
  simp only [State.headStep, he, claimIn_claimed h he, setHead_self hq]

/-- The state in which the engine runs an operation of the agent `a` that observes no other's writes. -/
abbrev State.readBy (s : State) (a : AgentId) : State := { s with reader := some a }

/-- The event runs the operation at the head, where the core neither is frozen nor serves a slice, and none of the pending
writes has been seen. -/
theorem engineOpComplete_runs {s : State} {o : EngOp} {os : List EngOp} (hs : s.shadow = none) (hf : s.freezes = [])
    (hp : ∀ e ∈ s.pend, e.seen = none) (hq : s.bank.eng = o :: os) (he : o.err = none) (hm : o.lacksMembers = false)
    (ho : observes o.ins = none) (hc : (needsOf o.ins).length ≤ o.claims.length) :
    exec .engineOpComplete s
      = .next { (s.readBy o.owner).runHead o with reader := s.reader, engAt := s.wall + 1 } := by
  have hfor : s.engineFor o = s.readBy o.owner := by simp only [State.engineFor, ho, surface_unseen hp]
  have hstep : s.engineStep = { (s.readBy o.owner).runHead o with reader := s.reader } := by
    simp only [State.engineStep, hq, hm, hfor, Bool.false_eq_true, if_false]
    rw [headStep_claimed (by exact hq) he hc]
  change execEngineOpComplete s = _
  rw [execEngineOpComplete, unlessFrozen_running hf, onWork_unshadowed hs, hstep]

/-! ## Completion (R193) -/

theorem settleCut_onlyStreams (b : Bank) (n : BitVec 4) : OnlyStreams b (b.settleCut n) := by
  unfold Bank.settleCut
  split
  · exact ⟨_, rfl⟩
  · exact onlyStreams_refl b

theorem foldl_onlyStreams {α : Type} {f : Bank → α → Bank} (h : ∀ b x, OnlyStreams b (f b x)) (l : List α) (b : Bank) :
    OnlyStreams b (l.foldl f b) := by
  induction l generalizing b with
  | nil => exact onlyStreams_refl b
  | cons x l ih => exact onlyStreams_trans (h b x) (ih _)

theorem settleCuts_onlyStreams (b : Bank) : OnlyStreams b b.settleCuts := by
  unfold Bank.settleCuts
  split
  · exact foldl_onlyStreams settleCut_onlyStreams _ b
  · exact onlyStreams_refl b

/-- The pieces of an operation are consumed: streams alone change. -/
theorem consumeAll_onlyStreams (s : State) (o : EngOp) :
    ∃ ss, s.consumeAll o = { s with bank := { s.bank with streams := ss } } := by
  obtain ⟨ss, h⟩ := foldl_onlyStreams (fun b c => ⟨_, (rfl : b.consume c = _)⟩) o.claims s.bank
  exact ⟨ss, by rw [State.consumeAll, State.mapBank, h]⟩

/-- The head leaves the queue; but for an install of `attn` no operation behind it changes. -/
theorem popEng_eq {b : Bank} {o : EngOp} {os : List EngOp} (hq : b.eng = o :: os) (hi : attnInstall o.ins = false) :
    ∃ ss, b.popEng = { b with eng := os, held := b.held - 1, streams := ss } := by
  obtain ⟨ss, h⟩ := settleCuts_onlyStreams { b with eng := os, held := b.held - 1 }
  refine ⟨ss, ?_⟩
  rw [← h]
  simp [Bank.popEng, hq, hi]

/-- A directly issued operation of one agent completes: it leaves the queue and its token lands; streams apart, nothing else
changes. -/
theorem opDone_direct {s : State} {o : EngOp} {os : List EngOp} (hq : s.bank.eng = o :: os) (hi : attnInstall o.ins = false)
    (hr : o.rule = none) (hm : o.members = []) (tok : Option DWord) (f : BitVec 7) :
    ∃ ss, s.opDone o tok f = { s with bank := { s.bank with
      eng := os, held := s.bank.held - 1, streams := ss } }.mapAgent o.owner
        fun a => a.landToken o.uid (tok.getD (o.seq.setWidth 64)) f := by
  obtain ⟨ss, h⟩ := popEng_eq hq hi
  exact ⟨ss, by simp only [State.opDone, hr, State.landTokens, hm, List.isEmpty_nil, if_true, State.mapBank, h]⟩

/-- What is left when the operation's pieces are consumed and it completes. -/
theorem opDone_consumed {s : State} {o : EngOp} {os : List EngOp} (hq : s.bank.eng = o :: os)
    (hi : attnInstall o.ins = false) (hr : o.rule = none) (hm : o.members = []) (tok : Option DWord) (f : BitVec 7) :
    let t := (s.consumeAll o).opDone o tok f
    t.bank.eng = os ∧ t.mem = s.mem ∧ t.bank.accs = s.bank.accs ∧
      t.agent o.owner = (s.agent o.owner).landToken o.uid (tok.getD (o.seq.setWidth 64)) f := by
  obtain ⟨ss, hss⟩ := consumeAll_onlyStreams s o
  obtain ⟨ss', hdone⟩ := opDone_direct (s := { s with bank := { s.bank with streams := ss } }) hq hi hr hm tok f
  rw [hss, hdone]
  exact ⟨rfl, rfl, rfl, State.agent_mapAgent ..⟩

/-! ## Elements of an accumulator (R184) -/

theorem length_flatMap_range {α : Type} (f : Nat → Nat → α) (rows cols : Nat) :
    ((List.range rows).flatMap fun i => (List.range cols).map fun n => f i n).length = rows * cols := by
  simp [List.length_flatMap]

/-- Rows one after the other: element (i, n) stands at i x cols + n. -/
theorem getElem?_flatMap_range {α : Type} (f : Nat → Nat → α) {rows cols i n : Nat} (hi : i < rows) (hn : n < cols) :
    ((List.range rows).flatMap fun i => (List.range cols).map fun n => f i n)[i * cols + n]? = some (f i n) := by
  induction rows with
  | zero => omega
  | succ r ih =>
    rw [List.range_succ, List.flatMap_append, List.flatMap_singleton]
    rcases Nat.lt_succ_iff_lt_or_eq.1 hi with h | rfl
    · have hlt : i * cols + n < r * cols :=
        calc i * cols + n < i * cols + cols := by omega
          _ = (i + 1) * cols := (Nat.succ_mul i cols).symm
          _ ≤ r * cols := Nat.mul_le_mul_right cols h
      rw [List.getElem?_append_left (by rwa [length_flatMap_range]), ih h]
    · rw [List.getElem?_append_right (by rw [length_flatMap_range]; omega), length_flatMap_range,
        Nat.add_sub_cancel_left]
      simp [hn]

theorem addChunk_at (x : Acc) (c : Chunk) (int : Bool) (rows : BitVec 128) {i n : Nat} (hi : i < x.rows) (hn : n < x.cols)
    (hr : rows.getLsbD i = true) :
    (x.addChunk c int rows).1.at i n = BitVec.ofNat 32 (c.step int (x.at i n).toNat i n).1 := by
  simp only [Acc.addChunk, Acc.at, List.getElem?_map]
  rw [getElem?_flatMap_range _ hi hn]
  simp [hr]

theorem orFlags_zero {l : List (BitVec 7)} (h : ∀ f ∈ l, f = 0) : orFlags l = 0 := by
  rw [orFlags]
  induction l with
  | nil => rfl
  | cons f l ih => rw [List.foldl_cons, h f List.mem_cons_self]; exact ih fun g hg => h g (List.mem_cons_of_mem f hg)

/-- An integer product raises no flag but that of a ternary byte above 242. -/
theorem addChunk_int_flags (x : Acc) {c : Chunk} (h : c.tc = false) (rows : BitVec 128) : (x.addChunk c true rows).2 = 0 := by
  simp only [Acc.addChunk, h]
  rw [orFlags_zero]
  · rfl
  · intro f hf
    simp only [List.mem_map, List.mem_flatMap] at hf
    obtain ⟨p, ⟨i, -, n, -, rfl⟩, rfl⟩ := hf
    split <;> rfl

@[simp] theorem addChunk_live (x : Acc) (c : Chunk) (int : Bool) (rows : BitVec 128) :
    (x.addChunk c int rows).1.live = true := rfl

/-- An integer step adds the products over k, modulo 2^32. -/
theorem step_int (c : Chunk) (acc : Word) (i n : Nat) :
    BitVec.ofNat 32 (c.step true acc.toNat i n).1
      = BitVec.ofInt 32 (acc.toInt + ((List.range 32).map fun k => tritVal (c.b k n) * sgnW 8 (c.a i k)).sum) := by
  have hsum : ∀ (f : Nat → Int) (l : List Nat) (z : Int), l.foldl (fun s k => s + f k) z = z + (l.map f).sum := by
    intro f l
    induction l with
    | nil => simp
    | cons k l ih => intro z; rw [List.foldl_cons, ih, List.map_cons, List.sum_cons, Int.add_assoc]
  simp only [Chunk.step, if_true, hsum, Int.zero_add]
  refine BitVec.eq_of_toInt_eq ?_
  rw [BitVec.toInt_ofNat', BitVec.toInt_ofInt, wrapW_cast, BitVec.toInt_eq_toNat_bmod, Int.bmod_add_bmod]
  exact_mod_cast Int.emod_bmod _ (2 ^ 32)

/-! ## A chunk of one piece of each operand (R190) -/

/-- A piece that was read without a fault and holds no poison, no scales and no ternary byte above 242. -/
structure Piece.Clean (p : Piece) : Prop where
  fault : p.fault = none
  scales : p.scales = []
  tc : p.tc = false
  bad : ∀ b ∈ p.bad, b = false

theorem Piece.Clean.badAt {p : Piece} (h : p.Clean) (r c : Nat) : p.badAt r c = false := by
  unfold Piece.badAt
  rw [List.getD_eq_getElem?_getD]
  cases hb : p.bad[r * p.cols + c]? with
  | none => rfl
  | some b => exact h.bad b (List.mem_of_getElem? hb)

theorem Piece.Clean.pieceFault {p : Piece} (h : p.Clean) (n : Nat) (st : BitVec 4) : pieceFault n [(st, p)] = none := by
  simp [Machine.pieceFault, h.fault, h.scales]

section
variable {pa pb : Piece} (tyA tyB : Ty) (na nb : BitVec 4) (ta tb : Bool) (rows cols : Nat)

/-- The chunk of one piece of each operand. -/
abbrev chunkOne (pa pb : Piece) : Chunk := chunkOf [(tyA, na, pa)] [(tyB, nb, pb)] ta tb rows cols

theorem chunkOne_a (i k : Nat) : (chunkOne tyA tyB na nb ta tb rows cols pa pb).a i k = if ta then pa.at k i else pa.at i k := rfl

theorem chunkOne_b (k n : Nat) : (chunkOne tyA tyB na nb ta tb rows cols pa pb).b k n = if tb then pb.at n k else pb.at k n := rfl

variable (ha : pa.Clean) (hb : pb.Clean)
include ha hb

theorem chunkOne_fault : (chunkOne tyA tyB na nb ta tb rows cols pa pb).fault = none := by
  simp [chunkOne, chunkOf, ha.pieceFault, hb.pieceFault]

theorem chunkOne_tc : (chunkOne tyA tyB na nb ta tb rows cols pa pb).tc = false := by
  simp [chunkOne, chunkOf, ha.tc, hb.tc]

theorem chunkOne_poisoned (r c : Nat) : (chunkOne tyA tyB na nb ta tb rows cols pa pb).poisoned r c = 0 := by
  simp [chunkOne, chunkOf, Chunk.poisoned, Piece.scale, ha.scales, hb.scales, ha.badAt, hb.badAt, maskOf]

end

/-! ## `tmm` of one chunk (R189, R190) -/

section
variable {s : State} {o : EngOp} {ac : BitVec 2} {sa sb : BitVec 4} {ta tb : Bool} {ca cb : Claim}

/-- What R189 asks of the descriptors of a `tmm`, for the accumulator `x`. -/
structure TmmShape (x : Acc) (da db : StrDesc) (ta tb : Bool) : Prop where
  i32 : x.isI32 = true
  aIn : da.isOut = false
  bIn : db.isOut = false
  aTy : da.ty = 4
  bTy : db.ty = 12
  aShape : if ta then da.rows = 32 ∧ da.cols = x.rows else da.rows = x.rows ∧ da.cols = 32
  bShape : if tb then db.rows = x.cols ∧ db.cols = 32 else db.rows = 32 ∧ db.cols = x.cols
  aScale : da.sbase = 0
  bScale : db.sbase = 0

theorem tmm_check {x : Acc} {da db : StrDesc} (h : TmmShape x da db ta tb) (kc : Nat) :
    ProdSpec.check ⟨.tmm, ac, .t3, ta, tb, kc, false⟩ x [da] [db] = none := by
  have hat : (if ta then da.shape 32 x.rows else da.shape x.rows 32) = true := by
    have := h.aShape
    split at this <;> simp_all [StrDesc.shape]
  have hbt : (if tb then db.shape x.cols 32 else db.shape 32 x.cols) = true := by
    have := h.bShape
    split at this <;> simp_all [StrDesc.shape]
  simp [ProdSpec.check, ProdSpec.typesOk, firstBad, h.i32, h.aIn, h.bIn, h.aTy, h.bTy, h.aScale, h.bScale, hat, hbt]

/-- One chunk of clean pieces is added to every row. -/
theorem chunkGo_one (hpa : (s.pieceOf ca 0).Clean) (hpb : (s.pieceOf cb 0).Clean) (x : Acc) :
    s.chunkGo [ca] [cb] ta tb true 0 1 0 x 0 (BitVec.allOnes 128)
      = .all (x.addChunk (chunkOne ca.desc.elTy cb.desc.elTy ca.st cb.st ta tb x.rows x.cols (s.pieceOf ca 0) (s.pieceOf cb 0))
          true (BitVec.allOnes 128)).1 0 := by
  simp only [State.chunkGo, State.chunkPieces, List.map_cons, List.map_nil, Nat.add_zero]
  rw [chunkOne_fault _ _ _ _ _ _ _ _ hpa hpb]
  simp only [chunkOne_poisoned _ _ _ _ _ _ _ _ hpa hpb]
  simp [addChunk_int_flags x (chunkOne_tc ca.desc.elTy cb.desc.elTy ca.st cb.st ta tb x.rows x.cols hpa hpb)]

/-- The accumulator after the chunk. -/
abbrev State.tmmResult (s : State) (ac : BitVec 2) (ca cb : Claim) (ta tb : Bool) : Acc :=
  let x := s.bank.acc ac
  (x.addChunk (chunkOne ca.desc.elTy cb.desc.elTy ca.st cb.st ta tb x.rows x.cols (s.pieceOf ca 0) (s.pieceOf cb 0)) true
    (BitVec.allOnes 128)).1

theorem runHead_tmm (ho : o.ins = .tmm ac sa sb ta tb 0) (hrec : s.bank.recm.on = false) (hc : o.claims = [ca, cb])
    (hk : o.chunk = 0) (hn : o.need = BitVec.allOnes 128) (hf : o.flags = 0) (hw : s.opWaits o = false)
    (hd : TmmShape (s.bank.acc ac) ca.desc cb.desc ta tb) (hpa : (s.pieceOf ca 0).Clean) (hpb : (s.pieceOf cb 0).Clean) :
    s.runHead o = ((s.mapBank fun b => b.setAcc ac (s.tmmResult ac ca cb ta tb)).consumeAll o).opDone o none 0 := by
  have hrun : s.runProd o ⟨.tmm, ac, .t3, ta, tb, 1, false⟩
      = .done ((s.mapBank fun b => b.setAcc ac (s.tmmResult ac ca cb ta tb)).consumeAll o) o none 0 := by
    have hgo := chunkGo_one (ta := ta) (tb := tb) hpa hpb (s.bank.acc ac)
    simp only [State.runProd, hc, hk, hn, hf, hw, Bool.false_eq_true, if_false, List.take_succ_cons, List.take_zero,
      List.drop_succ_cons, List.drop_zero, List.map_cons, List.map_nil, tmm_check hd, Nat.sub_zero, beq_self_eq_true, hgo]
  have hop : s.runOp o = s.runProd o ⟨.tmm, ac, .t3, ta, tb, 1, false⟩ := by
    simp only [State.runOp, hrec, Bool.false_and, Bool.false_eq_true, if_false, runPlain, ho, State.runTileOp]
    rfl
  have hpass : s.passesOutput o = false := by simp [State.passesOutput, EngOp.writesMemory, ho, hrec]
  simp only [State.runHead, hpass, hop, hrun, Bool.false_eq_true, if_false]

end

theorem acc_setAcc (b : Bank) (k : BitVec 2) (x : Acc) : (b.setAcc k x).acc k = x := by
  simp [Bank.acc, Bank.setAcc]

/-- An element of the result: the sum over k of trit times signed byte, added modulo 2^32. -/
theorem tmmResult_at (s : State) (ac : BitVec 2) (ca cb : Claim) (ta tb : Bool) {i n : Nat}
    (hr : (s.bank.acc ac).rows ≤ 128) (hi : i < (s.bank.acc ac).rows) (hn : n < (s.bank.acc ac).cols) :
    (s.tmmResult ac ca cb ta tb).at i n = BitVec.ofInt 32 (((s.bank.acc ac).at i n).toInt + ((List.range 32).map fun k =>
      tritVal (if tb then (s.pieceOf cb 0).at n k else (s.pieceOf cb 0).at k n)
        * sgnW 8 (if ta then (s.pieceOf ca 0).at k i else (s.pieceOf ca 0).at i k)).sum) := by
  have hbit : (BitVec.allOnes 128).getLsbD i = true := by rw [BitVec.getLsbD_allOnes, decide_eq_true (by omega)]
  rw [State.tmmResult, addChunk_at _ _ _ _ hi hn hbit, step_int]; rfl

theorem toInt_ofNat_byte (x : Nat) : (BitVec.ofNat 8 x).toInt = sgnW 8 x := by
  rw [BitVec.toInt_ofNat', sgnW_eq_bmod (by decide)]

/-- The trit of a digit, case by case. -/
theorem tritVal_eq (d : Nat) : tritVal d = match d with | 1 => 1 | 2 => -1 | _ => 0 := by
  match d with
  | 0 | 1 | 2 | _ + 3 => rfl

/-- Settles O38: the head of the queue runs, its chunk reaches every row, and it completes. -/
theorem ternaryProduct : Obligations.TernaryProduct := by
  intro s o os ac sa sb ta tb ca cb pa pb hs hf hrec hp hq he hr hm ho hc hk hn hfl hw x hi32 hrows ha hb hta htb hsa hsb hba hbb
    hpa hpb hclean a b
  subst hpa hpb
  have hca : (s.pieceOf ca 0).Clean := by
    obtain ⟨hfault, hscales, htc, hbad⟩ := hclean _ List.mem_cons_self
    exact ⟨hfault, hscales, htc, hbad⟩
  have hcb : (s.pieceOf cb 0).Clean := by
    obtain ⟨hfault, hscales, htc, hbad⟩ := hclean _ (List.mem_cons_of_mem _ List.mem_cons_self)
    exact ⟨hfault, hscales, htc, hbad⟩
  have hrun := runHead_tmm (s := s.readBy o.owner) ho hrec hc hk hn hfl hw ⟨hi32, ha, hb, hta, htb, hsa, hsb, hba, hbb⟩ hca hcb
  obtain ⟨heng, hmem, haccs, hagent⟩ := opDone_consumed
    (s := (s.readBy o.owner).mapBank fun b => b.setAcc ac ((s.readBy o.owner).tmmResult ac ca cb ta tb)) hq (by rw [ho]; rfl)
    hr hm none 0
  have hgo := engineOpComplete_runs hs hf hp hq he (by simp [EngOp.lacksMembers, ho]) (by rw [ho]; rfl)
    (by simp [ho, needsOf, hc])
  rw [hrun] at hgo
  have hacc := (congrArg (fun l => l[ac.toNat]) haccs).trans (acc_setAcc s.bank ac ((s.readBy o.owner).tmmResult ac ca cb ta tb))
  refine ⟨_, hgo, heng, hmem, ?live, hagent, fun i n hi hn => ?elem⟩
  case live => exact (congrArg Acc.live hacc).trans rfl
  case elem =>
    refine (congrArg (fun y : Acc => y.at i n) hacc).trans ((tmmResult_at s ac ca cb ta tb hrows hi hn).trans ?_)
    simp only [a, b, toInt_ofNat_byte, tritVal_eq] <;> rfl

end Sys2Proof.Machine
end

section
/-! Packing and trits (R71, R72, R126 to R128): replacing one digit of a number, the fields of a vector, and the digits of its
bytes. -/

namespace Sys2Proof.Machine

/-! ## One digit of a number replaced

A number is `x % A + A * (x / A % B + B * (x / A / B))`; a field of bits and a trit of a byte are both its middle digit. -/

/-- The number with the digit of base `B` at place value `A` replaced. -/
def replaceDigit (x A B v : Nat) : Nat := x - x / A % B * A + v * A

section
variable {x A B v : Nat}

theorem replaceDigit_eq : replaceDigit x A B v = x % A + A * (v + B * (x / A / B)) := by
  have h1 := Nat.mod_add_div x A
  have h2 := Nat.mod_add_div (x / A) B
  have h3 : A * (x / A) = A * (x / A % B) + A * (B * (x / A / B)) := by rw [← Nat.mul_add, h2]
  rw [replaceDigit, Nat.mul_add, Nat.mul_comm (x / A % B) A, Nat.mul_comm v A]
  omega

theorem replaceDigit_div (hA : 0 < A) : replaceDigit x A B v / A = v + B * (x / A / B) := by
  rw [replaceDigit_eq, Nat.add_mul_div_left _ _ hA, Nat.div_eq_of_lt (Nat.mod_lt _ hA), Nat.zero_add]

theorem replaceDigit_same (hA : 0 < A) (hv : v < B) : replaceDigit x A B v / A % B = v := by
  rw [replaceDigit_div hA, Nat.add_mul_mod_self_left, Nat.mod_eq_of_lt hv]

/-- What lies above the digit stays. -/
theorem replaceDigit_above (hA : 0 < A) (hv : v < B) {C : Nat} (h : A * B ∣ C) : replaceDigit x A B v / C = x / C := by
  obtain ⟨D, rfl⟩ := h
  have hB : 0 < B := by omega
  rw [← Nat.div_div_eq_div_mul, ← Nat.div_div_eq_div_mul, replaceDigit_div hA, Nat.add_mul_div_left _ _ hB,
    Nat.div_eq_of_lt hv, Nat.zero_add, Nat.div_div_eq_div_mul, Nat.div_div_eq_div_mul, Nat.mul_assoc]

/-- The digits below stay. -/
theorem replaceDigit_below {C D : Nat} (h : C * D ∣ A) : replaceDigit x A B v / C % D = x / C % D := by
  have hmod : replaceDigit x A B v % A = x % A := by rw [replaceDigit_eq, Nat.add_mul_mod_self_left, Nat.mod_mod]
  rw [← Nat.mod_mul_right_div_self, ← Nat.mod_mul_right_div_self, ← Nat.mod_mod_of_dvd _ h, hmod, Nat.mod_mod_of_dvd _ h]

theorem replaceDigit_lt (hA : 0 < A) (hv : v < B) {C : Nat} (h : x < C) (hC : A * B ∣ C) : replaceDigit x A B v < C := by
  rw [← Nat.div_eq_zero_iff_lt (by omega), replaceDigit_above hA hv hC, Nat.div_eq_of_lt h]

end

/-! ## Fields of a vector -/

theorem setField_toNat {off w : Nat} (h : off + w ≤ 512) (x : Vec) (v : Nat) :
    (setField x off w v).toNat = replaceDigit x.toNat (2 ^ off) (2 ^ w) (v % 2 ^ w) := by
  have hlt := replaceDigit_lt (Nat.two_pow_pos off) (Nat.mod_lt v (Nat.two_pow_pos w)) x.isLt
    ((pow_add 2 off w).symm.dvd.trans (pow_dvd_pow 2 h))
  rw [setField, BitVec.toNat_ofNat]
  exact Nat.mod_eq_of_lt hlt

/-- A field of the grid of width `w` after one of them is replaced. -/
theorem getField_setField {w k : Nat} (h : w * k + w ≤ 512) (x : Vec) (v j : Nat) :
    getField (setField x (w * k) w v) (w * j) w = if j = k then v % 2 ^ w else getField x (w * j) w := by
  have hA := Nat.two_pow_pos (w * k)
  have hv := Nat.mod_lt v (Nat.two_pow_pos w)
  rw [getField, setField_toNat h]
  rcases Nat.lt_trichotomy j k with hjk | rfl | hjk
  · have hle : w * j + w ≤ w * k := by rw [← Nat.mul_succ]; exact Nat.mul_le_mul_left w hjk
    rw [if_neg (by omega), replaceDigit_below (by rw [← Nat.pow_add]; exact Nat.pow_dvd_pow 2 hle), getField]
  · rw [if_pos rfl, replaceDigit_same hA hv]
  · have hle : w * k + w ≤ w * j := by rw [← Nat.mul_succ]; exact Nat.mul_le_mul_left w hjk
    rw [if_neg (by omega), replaceDigit_above hA hv (by rw [← Nat.pow_add]; exact Nat.pow_dvd_pow 2 hle), getField]

/-- A field of the grid after sixteen neighbours from `b` on are replaced. -/
theorem getField_setFields {w b : Nat} (h : w * (b + 16) ≤ 512) (x : Vec) (v : Nat → Nat) (j : Nat) :
    getField (setFields x w (fun i => w * (b + i)) v) (w * j) w
      = if b ≤ j ∧ j < b + 16 then v (j - b) % 2 ^ w else getField x (w * j) w := by
  have hn : ∀ n, n ≤ 16 → getField ((List.range n).foldl (fun x i => setField x (w * (b + i)) w (v i)) x) (w * j) w
      = if b ≤ j ∧ j < b + n then v (j - b) % 2 ^ w else getField x (w * j) w := by
    intro n hn
    induction n with
    | zero => rw [if_neg (by omega)]; rfl
    | succ n ih =>
      have hfit : w * (b + n) + w ≤ 512 :=
        calc w * (b + n) + w = w * (b + n + 1) := (Nat.mul_succ ..).symm
          _ ≤ w * (b + 16) := Nat.mul_le_mul_left w (by omega)
          _ ≤ 512 := h
      rw [List.range_succ, List.foldl_append, List.foldl_cons, List.foldl_nil, getField_setField hfit, ih (by omega)]
      by_cases hj : j = b + n
      · rw [if_pos hj, if_pos (by omega), hj, Nat.add_sub_cancel_left]
      · rw [if_neg hj]
        exact if_congr (by omega) rfl rfl
  exact hn 16 (Nat.le_refl _)

/-! ## Packing (R126, R127) -/

section
variable {s : State} {sc : Sched} {d A X : Opnd} {m : Gov}

theorem exec_vpack (ha : Readable s A .vec) (hx : Readable s X .vec) (t : Ty) (q : BitVec 2) :
    exec (.vpack sc d A X t q) s = .next (s.putV sc d 3 (setFields (s.valV (tyOne t) X) (tyBits t)
      (fun i => tyBits t * (16 * q.toNat + i)) fun i => elem t (lane (s.valV (tyOne t) A) i)) 0) := by
  dsimp only [exec, execVpack]
  rw [rdV_ok ha, rdV_ok hx]; rfl

theorem exec_vunpk (ha : Readable s A .vec) (t : Ty) (q : BitVec 2) :
    exec (.vunpk sc d A t q m) s = lanesWith s sc d 3 m fun i =>
      (extend t (getField (s.valV (tyOne t) A) (tyBits t * (16 * q.toNat + i)) (tyBits t)), 0) := by
  dsimp only [exec, execVunpk]
  rw [rdV_ok ha]; exact next_putLanes ..

theorem exec_vpk6_hi (ha : Readable s A .vec) (hx : Readable s X .vec) (q : BitVec 4) :
    exec (.vpk6 sc d A X false q) s = .next (s.putV sc d 3 (setFields (s.valV 0x0C X) 4
      (fun i => 4 * (16 * q.toNat + i)) fun i => (lane (s.valV 0x0C A) i).toNat / 4 % 16) 0) := by
  dsimp only [exec, execVpk6]
  rw [rdV_ok ha, rdV_ok hx]; rfl

theorem exec_vpk6_lo (ha : Readable s A .vec) (hx : Readable s X .vec) (q : BitVec 4) :
    exec (.vpk6 sc d A X true q) s = .next (s.putV sc d 3 (setFields (s.valV 0x0C X) 2
      (fun i => 2 * (16 * q.toNat + i)) fun i => (lane (s.valV 0x0C A) i).toNat % 4) 0) := by
  dsimp only [exec, execVpk6]
  rw [rdV_ok ha, rdV_ok hx]; rfl

theorem exec_vupk6 (ha : Readable s A .vec) (hx : Readable s X .vec) (q : BitVec 3) (h : Bool) :
    exec (.vupk6 sc d A X q h m) s = lanesWith s sc d 3 m fun i =>
      (BitVec.ofNat 32 (getField (s.valV 0x0C A) (4 * (16 * q.toNat + i)) 4 * 4 +
        getField (s.valV 0x0C X) (2 * (128 * bit h + (16 * q.toNat + i))) 2), 0) := by
  dsimp only [exec, execVupk6]
  rw [rdV_ok ha, rdV_ok hx]; exact next_putLanes ..

end

/-! ## Trits of a byte (R72) -/

theorem setDigit_eq (b i dg : Nat) : setDigit b i dg = replaceDigit (if 242 < b then 0 else b) (3 ^ i) 3 dg := rfl

/-- A byte above 242 has the digits of zero. -/
theorem tritDigit_eq (b j : Nat) : tritDigit b j = (if 242 < b then 0 else b) / 3 ^ j % 3 := by
  unfold tritDigit; split <;> simp

theorem setDigit_lt {b i dg : Nat} (hi : i < 5) (hd : dg < 3) : setDigit b i dg < 243 := by
  have hdvd : 3 ^ i * 3 ∣ 3 ^ 5 := Nat.pow_dvd_pow (m := i + 1) 3 hi
  refine replaceDigit_lt (C := 3 ^ 5) (Nat.pow_pos (by decide)) hd ?_ hdvd
  split <;> omega

/-- The digit written is read; the others are those that were read before. -/
theorem tritDigit_setDigit {b i dg : Nat} (hi : i < 5) (hd : dg < 3) (j : Nat) :
    tritDigit (setDigit b i dg) j = if j = i then dg else tritDigit b j := by
  have hA : 0 < 3 ^ i := Nat.pow_pos (by decide)
  have hlt := setDigit_lt (b := b) hi hd
  rw [tritDigit_eq (setDigit b i dg), if_neg (Nat.not_lt.2 (Nat.le_of_lt_succ hlt)), setDigit_eq, tritDigit_eq b]
  rcases Nat.lt_trichotomy j i with hji | rfl | hji
  · rw [if_neg (Nat.ne_of_lt hji), replaceDigit_below (C := 3 ^ j) (Nat.pow_dvd_pow (m := j + 1) 3 hji)]
  · rw [if_pos rfl, replaceDigit_same hA hd]
  · rw [if_neg (Nat.ne_of_gt hji), replaceDigit_above hA hd (C := 3 ^ j) (Nat.pow_dvd_pow (m := i + 1) 3 hji)]

/-! ## `vtrit` (R128) -/

theorem tritIn_eq (t : Ty) (dg : Nat) : t ∈ [Ty.i32, .i16, .i8, .f32, .f16, .bf16] → tritIn t dg =
    match dg with
    | 0 => 0
    | 1 => (match t with | .f32 => 0x3F800000 | .f16 => 0x3C00 | .bf16 => 0x3F80 | _ => 1)
    | _ => (match t with | .f32 => 0xBF800000 | .f16 => 0xBC00 | .bf16 => 0xBF80 | _ => 0xFFFFFFFF) := by
  intro h
  cases t with
  | i32 | i16 | i8 | f32 | f16 | bf16 =>
    match dg with
    | 0 | 1 | _ + 2 => rfl
  | _ => exact absurd h (by decide)

/-! ## `vtritp` (R128) -/

/-- Byte `k` of a vector. -/
abbrev byteAt (v : Vec) (k : Nat) : Nat := getField v (8 * k) 8

theorem byteAt_eq (v : Vec) (k : Nat) : byteAt v k = v.toNat / 2 ^ (8 * k) % 256 := rfl

theorem tritOf_fst (w : Word) : (tritOf w).1 = if w = 1 then 1 else if w = 0xFFFFFFFF then 2 else 0 := by
  unfold tritOf
  by_cases h0 : w = 0
  · subst h0; rfl
  · rw [if_neg h0]
    split
    · rfl
    · split <;> rfl

theorem tritOf_fst_lt (w : Word) : (tritOf w).1 < 3 := by
  rw [tritOf_fst]; split_ifs <;> decide

theorem tritOf_snd (w : Word) : (tritOf w).2 = decide (w ∉ [0, 1, 0xFFFFFFFF]) := by
  unfold tritOf
  split_ifs <;> simp_all

/-- The vector and the flags of `vtritp` after its first `n` lanes. -/
def tritFold (u v : Vec) (q n : Nat) : Vec × BitVec 7 := (List.range n).foldl (tritStep u q) (v, 0)

theorem tritFold_succ (u v : Vec) (q n : Nat) : tritFold u v q (n + 1) = tritStep u q (tritFold u v q n) n := by
  rw [tritFold, List.range_succ, List.foldl_append]; rfl

theorem byteAt_tritStep {q i : Nat} (h : 16 * q + i < 320) (u : Vec) (p : Vec × BitVec 7) (k : Nat) :
    byteAt (tritStep u q p i).1 k = if k = (16 * q + i) / 5
      then setDigit (byteAt p.1 k) ((16 * q + i) % 5) (tritOf (lane u i)).1 else byteAt p.1 k := by
  have hlt := setDigit_lt (b := byteAt p.1 ((16 * q + i) / 5)) (Nat.mod_lt (16 * q + i) (by decide : 0 < 5))
    (tritOf_fst_lt (lane u i))
  refine (getField_setField (by omega) ..).trans ?_
  split
  · next hk => rw [hk]; exact Nat.mod_eq_of_lt (Nat.lt_trans hlt (by decide))
  · rfl

/-- What `vtritp` has done after `n` lanes: lane i's digit stands at digit 16q + i of the bytes, the other digits are as
read before, a byte that no lane touched is as before, and every other lies in 0 to 242. -/
structure TritState (u v : Vec) (q n : Nat) (p : Vec × BitVec 7) : Prop where
  digit : ∀ k j, j < 5 → tritDigit (byteAt p.1 k) j = if 16 * q ≤ 5 * k + j ∧ 5 * k + j < 16 * q + n
    then (tritOf (lane u (5 * k + j - 16 * q))).1 else tritDigit (byteAt v k) j
  other : ∀ k, (∀ i, i < n → (16 * q + i) / 5 ≠ k) → byteAt p.1 k = byteAt v k
  touched : ∀ i, i < n → byteAt p.1 ((16 * q + i) / 5) < 243
  flags : p.2 = flagIf ((List.range n).any fun i => decide (242 < byteAt v ((16 * q + i) / 5)) || (tritOf (lane u i)).2) flTC

theorem flagIf_decide (p : Prop) [Decidable p] (f : BitVec 7) : flagIf (decide p) f = if p then f else 0 := by
  unfold flagIf; split <;> simp_all

theorem flagIf_or (a b : Bool) (f : BitVec 7) : flagIf a f ||| flagIf b f = flagIf (a || b) f := by
  cases a <;> cases b <;> simp [flagIf]

theorem tritState_step {u v : Vec} {q n : Nat} {p : Vec × BitVec 7} (h : 16 * q + n < 320) (hp : TritState u v q n p) :
    TritState u v q (n + 1) (tritStep u q p n) := by
  have hmod : (16 * q + n) % 5 < 5 := Nat.mod_lt _ (by decide)
  have hdg := tritOf_fst_lt (lane u n)
  have hmd := Nat.div_add_mod (16 * q + n) 5
  refine ⟨fun k j hj => ?digit, fun k hk => ?other, fun i hi => ?touched, ?flags⟩
  case digit =>
    rw [byteAt_tritStep h]
    split
    · next hk =>
      rw [tritDigit_setDigit hmod hdg, hp.digit k j hj]
      by_cases hjm : j = (16 * q + n) % 5
      · have hn : 5 * k + j = 16 * q + n := by omega
        rw [if_pos hjm, if_pos (by omega), hn, Nat.add_sub_cancel_left]
      · rw [if_neg hjm]
        exact if_congr (by omega) rfl rfl
    · rw [hp.digit k j hj]
      exact if_congr (by omega) rfl rfl
  case other =>
    rw [byteAt_tritStep h, if_neg (Ne.symm (hk n (Nat.lt_succ_self n)))]
    exact hp.other k fun i hi => hk i (by omega)
  case touched =>
    rw [byteAt_tritStep h]
    split
    · exact setDigit_lt hmod hdg
    · exact hp.touched i (by
        rcases Nat.lt_succ_iff_lt_or_eq.1 hi with hi | rfl
        · exact hi
        · contradiction)
  case flags =>
    show p.2 ||| flagIf (decide (242 < byteAt p.1 ((16 * q + n) / 5)) || (tritOf (lane u n)).2) flTC = _
    rw [hp.flags, flagIf_or, List.range_succ, List.any_append, List.any_cons, List.any_nil, Bool.or_false]
    congr 1
    by_cases ht : ∃ i, i < n ∧ (16 * q + i) / 5 = (16 * q + n) / 5
    · obtain ⟨i, hi, hk⟩ := ht
      have hlow : ¬242 < byteAt p.1 ((16 * q + n) / 5) := by
        have := hp.touched i hi
        rw [hk] at this; omega
      by_cases hv : 242 < byteAt v ((16 * q + n) / 5)
      · have hany : ((List.range n).any fun i =>
            decide (242 < byteAt v ((16 * q + i) / 5)) || (tritOf (lane u i)).2) = true :=
          List.any_eq_true.2 ⟨i, List.mem_range.2 hi, by rw [hk, decide_eq_true hv]; rfl⟩
        rw [hany, Bool.true_or, Bool.true_or]
      · rw [decide_eq_false hlow, decide_eq_false hv]
    · rw [hp.other _ fun i hi hk => ht ⟨i, hi, hk⟩]

theorem tritState_fold {u v : Vec} {q : Nat} (hq : q < 20) {n : Nat} (hn : n ≤ 16) : TritState u v q n (tritFold u v q n) := by
  induction n with
  | zero =>
    refine ⟨fun k j _ => ?_, fun _ _ => rfl, fun _ hi => absurd hi (Nat.not_lt_zero _), rfl⟩
    rw [if_neg (by omega)]; rfl
  | succ n ih => rw [tritFold_succ]; exact tritState_step (by omega) (ih (by omega))

section
variable {s : State} {sc : Sched} {d A X : Opnd} {m : Gov}

theorem exec_vtrit (ha : Readable s A .vec) (t : Ty) (q : BitVec 5) :
    exec (.vtrit sc d A t q m) s = lanesWith s sc d 3 m fun i =>
      let b := byteAt (s.valV 1 A) ((16 * q.toNat + i) / 5)
      (tritIn t (tritDigit b ((16 * q.toNat + i) % 5)), flagIf (242 < b) flTC) := by
  dsimp only [exec, execVtrit]
  rw [rdV_ok ha]; exact next_putLanes ..

theorem exec_vtritp (ha : Readable s A .vec) (hx : Readable s X .vec) (q : BitVec 5) :
    exec (.vtritp sc d A X q) s = .next (s.putV sc d 3 (tritFold (s.valV 1 A) (s.valV 1 X) q.toNat 16).1
      (tritFold (s.valV 1 A) (s.valV 1 X) q.toNat 16).2) := by
  dsimp only [exec, execVtritp]
  rw [rdV_ok ha, rdV_ok hx]; rfl

end

/-! ## The statement -/

/-- Settles O29: the packed fields by `getField_setFields`, the trits by the invariant of the lanes of `vtritp`. -/
theorem packingAndTrits : Obligations.PackingAndTrits := by
  refine ⟨fun s sc d A X t m q2 q3 q4 h ha hx => ⟨fun hw hfit => ⟨?pack, ?unpk⟩, fun hq => ?hi, ?lo, ?upk6⟩,
    fun s sc d A X t m q ha hx hq ht => ⟨?trit, ?tritp⟩⟩
  case pack =>
    refine ⟨_, exec_vpack ha hx t q2, fun j _ => ?_⟩
    have hroom : tyBits t * (16 * q2.toNat + 16) ≤ 512 := by
      have := q2.isLt
      rcases hw with hw | hw <;> rw [hw] at hfit ⊢ <;> omega
    exact (getField_setFields hroom ..).trans (if_congr Iff.rfl (Nat.mod_mod ..) rfl)
  case unpk =>
    rw [exec_vunpk ha]
    simp only [extend_eq_asLane]
    rfl
  case hi =>
    refine ⟨_, exec_vpk6_hi ha hx q4, fun j _ => ?_⟩
    exact (getField_setFields (by omega) ..).trans (if_congr Iff.rfl (Nat.mod_mod ..) rfl)
  case lo =>
    refine ⟨_, exec_vpk6_lo ha hx q4, fun j _ => ?_⟩
    have := q4.isLt
    exact (getField_setFields (by omega) ..).trans (if_congr Iff.rfl (Nat.mod_mod ..) rfl)
  case upk6 =>
    rw [exec_vupk6 ha hx]
    cases h <;> simp only [bit, Bool.false_eq_true, if_true, if_false, Nat.mul_zero, Nat.mul_one, Nat.zero_add, Nat.add_assoc] <;>
      rfl
  case trit =>
    rw [exec_vtrit ha]
    refine congrArg (lanesWith s sc d 3 m) (funext fun i => ?_)
    dsimp only
    rw [← byteAt_eq]
    exact Prod.ext (tritIn_eq t (tritDigit _ _) ht) (flagIf_decide ..)
  case tritp =>
    have hst := tritState_fold (u := s.valV 1 A) (v := s.valV 1 X) hq (Nat.le_refl 16)
    refine ⟨_, _, exec_vtritp ha hx q, fun i hi => ⟨hst.touched i hi, ?here⟩, fun i j hi hj hn => ?elsewhere,
      fun k _ hk => hst.other k hk, ?flags⟩
    case here =>
      have hdig := hst.digit ((16 * q.toNat + i) / 5) ((16 * q.toNat + i) % 5) (Nat.mod_lt _ (by decide))
      rw [Nat.div_add_mod, if_pos (by omega), Nat.add_sub_cancel_left, tritOf_fst, tritDigit,
        if_neg (Nat.not_lt.2 (Nat.le_of_lt_succ (hst.touched i hi)))] at hdig
      exact hdig
    case elsewhere =>
      have hdig := hst.digit ((16 * q.toNat + i) / 5) j hj
      rw [if_neg, tritDigit, if_neg (Nat.not_lt.2 (Nat.le_of_lt_succ (hst.touched i hi)))] at hdig
      · exact hdig
      · rintro ⟨hlo, hhi⟩
        exact hn (5 * ((16 * q.toNat + i) / 5) + j - 16 * q.toNat) (by omega) (by dsimp only; omega)
    case flags =>
      rw [hst.flags, flagIf]
      simp only [tritOf_snd, Bool.decide_or]
      rfl

end Sys2Proof.Machine
end

section
/-! Reductions and scans (R82, R83, R130): the node and the identity of each operation, the fixed tree as a fold, and the
running values of a scan. -/

namespace Sys2Proof.Machine

/-! ## The fixed tree (R82) -/

/-- A node of the tree with the flags of what stands below it. -/
abbrev joinNode (f : Nat → Nat → Nat × BitVec 7) (p q : Nat × BitVec 7) : Nat × BitVec 7 :=
  ((f p.1 q.1).1, p.2 ||| q.2 ||| (f p.1 q.1).2)

theorem treeLevel_cons (f : Nat → Nat → Nat × BitVec 7) (p q : Nat × BitVec 7) (l : List (Nat × BitVec 7)) :
    treeLevel f (p :: q :: l) = joinNode f p q :: treeLevel f l := rfl

/-- The four levels over sixteen lanes, written out. -/
theorem tree16_range (f : Nat → Nat → Nat × BitVec 7) (x : Nat → Nat) :
    tree16 f ((List.range 16).map x) =
      let z := fun i => (x i, (0 : BitVec 7))
      let n8 := fun i => joinNode f (z (2 * i)) (z (2 * i + 1))
      let n4 := fun i => joinNode f (n8 (2 * i)) (n8 (2 * i + 1))
      let n2 := fun i => joinNode f (n4 (2 * i)) (n4 (2 * i + 1))
      joinNode f (n2 0) (n2 1) := rfl

section
variable {M : Type} {op : M → M → M} {f : Nat → Nat → Nat × BitVec 7} {g : Nat × BitVec 7 → M}
  {P : Nat × BitVec 7 → Prop}

/-- A level keeps what its nodes keep, and the fold of what they combine. -/
theorem treeLevel_fold (hop : ∀ x y z, op (op x y) z = op x (op y z))
    (hf : ∀ p q, P p → P q → P (joinNode f p q) ∧ g (joinNode f p q) = op (g p) (g q)) (e : M)
    (l : List (Nat × BitVec 7)) (hl : ∀ p ∈ l, P p) :
    (∀ p ∈ treeLevel f l, P p) ∧
      (treeLevel f l).foldr (fun p m => op (g p) m) e = l.foldr (fun p m => op (g p) m) e := by
  induction l using treeLevel.induct f with
  | case1 p q l ih =>
    simp only [List.forall_mem_cons] at hl
    obtain ⟨hp, hq, hl⟩ := hl
    obtain ⟨hP, hg⟩ := hf p q hp hq
    obtain ⟨ihP, ihg⟩ := ih hl
    rw [treeLevel_cons]
    exact ⟨List.forall_mem_cons.2 ⟨hP, ihP⟩, by rw [List.foldr_cons, hg, ihg, hop]; rfl⟩
  | case2 l h =>
    have hid : treeLevel f l = l := by
      match l, h with
      | [], _ => rfl
      | [_], _ => rfl
      | p :: q :: l, h => exact absurd rfl (h p q l)
    exact hid.symm ▸ ⟨hl, rfl⟩

/-- The reduction of sixteen values as a fold over them. -/
theorem tree16_fold (hop : ∀ x y z, op (op x y) z = op x (op y z))
    (hf : ∀ p q, P p → P q → P (joinNode f p q) ∧ g (joinNode f p q) = op (g p) (g q)) {e : M} (he : ∀ x, op x e = x)
    (x : Nat → Nat) (hx : ∀ i, P (x i, 0)) :
    P (tree16 f ((List.range 16).map x)) ∧
      g (tree16 f ((List.range 16).map x)) = (List.range 16).foldr (fun i m => op (g (x i, 0)) m) e := by
  let l := ((List.range 16).map x).map fun a => (a, (0 : BitVec 7))
  have hl : ∀ p ∈ l, P p := by
    intro p hp
    obtain ⟨a, ha, rfl⟩ := List.mem_map.1 hp
    obtain ⟨i, -, rfl⟩ := List.mem_map.1 ha
    exact hx i
  obtain ⟨h8, e8⟩ := treeLevel_fold hop hf e l hl
  obtain ⟨h4, e4⟩ := treeLevel_fold hop hf e _ h8
  obtain ⟨h2, e2⟩ := treeLevel_fold hop hf e _ h4
  obtain ⟨h1, e1⟩ := treeLevel_fold hop hf e _ h2
  have hone : treeLevel f (treeLevel f (treeLevel f (treeLevel f l))) = [tree16 f ((List.range 16).map x)] := rfl
  rw [hone] at h1 e1
  refine ⟨h1 _ List.mem_cons_self, ?_⟩
  have hfold := ((e1.trans e2).trans e4).trans e8
  rw [List.foldr_cons, List.foldr_nil, he] at hfold
  rw [hfold]
  simp only [l, List.map_map, List.foldr_map]
  rfl

end

/-! ## The node and the identity of an operation (R130) -/

/-- A number that is an element of the type, where the type is an integer's. -/
def Fits (t : Ty) (a : Nat) : Prop := t.isLaneInt = true → a < 2 ^ tyBits t

/-- A number read as the integer of a lane. -/
abbrev natInt (t : Ty) (a : Nat) : Int := laneInt t (BitVec.ofNat 32 a)

theorem tyBits_le_32 {t : Ty} (h : t.isLaneInt = true ∨ t.isLaneFloat = true) : tyBits t ≤ 32 := by
  cases t with
  | i64 => exact absurd h (by decide)
  | _ => decide

theorem natInt_signed {t : Ty} (h : t.isLaneSigned = true) (a : Nat) : natInt t a = sgnW (tyBits t) a := by
  have hw : tyBits t ≤ 32 := tyBits_le_32 (by
    cases t with
    | i32 | i16 | i8 => exact .inl rfl
    | _ => exact absurd h (by decide))
  rw [natInt, ← elemInt_eq_laneInt, elemInt, if_pos h, BitVec.toNat_ofNat, sgnW, sgnW,
    Nat.mod_mod_of_dvd _ (Nat.pow_dvd_pow 2 hw)]

theorem natInt_unsigned {t : Ty} (h : t.isLaneSigned = false) (hi : t.isLaneInt = true) {a : Nat} (ha : Fits t a) :
    natInt t a = a := by
  have hw : tyBits t ≤ 32 := tyBits_le_32 (.inl hi)
  rw [natInt, laneInt, if_neg (by simp [h]), BitVec.toNat_ofNat, Nat.mod_mod_of_dvd _ (Nat.pow_dvd_pow 2 hw),
    Nat.mod_eq_of_lt (ha hi)]

/-- The integer of an element is the element modulo 2^w. -/
theorem natInt_emod {t : Ty} (hi : t.isLaneInt = true) {a : Nat} (ha : Fits t a) :
    natInt t a % 2 ^ tyBits t = (a : Int) % 2 ^ tyBits t := by
  cases hs : t.isLaneSigned with
  | false => rw [natInt_unsigned hs hi ha]
  | true =>
    rw [natInt_signed hs, sgnW_eq_bmod (tyBits_pos t)]
    exact_mod_cast Int.bmod_emod (x := (a : Int)) (m := 2 ^ tyBits t)

/-- The node of a reduction as R130 has it, minimum and maximum by the integers of the lanes. -/
def nodeBy (t : Ty) (op : RedOp) (r : Rnd) (a b : Nat) : Nat × BitVec 7 :=
  match op with
  | .add => if t.isLaneFloat then fAdd t r a b else ((a + b) % 2 ^ tyBits t, 0)
  | .min => if t.isLaneFloat then fMinMax t false a b else (if natInt t b < natInt t a then b else a, 0)
  | .max => if t.isLaneFloat then fMinMax t true a b else (if natInt t a < natInt t b then b else a, 0)
  | .and => (a &&& b, 0)
  | .or => (a ||| b, 0)
  | .xor => (a ^^^ b, 0)
  | .lanes => (a, 0)

theorem Ty.isLaneFloat_of_int {t : Ty} (h : t.isLaneInt = true) : t.isLaneFloat = false := by
  cases t with
  | i32 | n32 | i16 | n16 | i8 | n8 => rfl
  | _ => exact absurd h (by decide)

/-- The types and operations of R130. -/
def RedHas (t : Ty) (op : RedOp) : Prop :=
  t.isLaneInt = true ∨ t.isLaneFloat = true ∧ (op = .add ∨ op = .min ∨ op = .max)

theorem redNode_min {t : Ty} (r : Rnd) (h : t.isLaneInt = true) {a b : Nat} (ha : Fits t a) (hb : Fits t b) :
    redNode t .min r a b = (if natInt t b < natInt t a then b else a, 0) := by
  simp only [redNode, Ty.isLaneFloat_of_int h, Bool.false_eq_true, if_false]
  cases hs : t.isLaneSigned with
  | true => simp only [natInt_signed hs, if_true]
  | false =>
    simp only [natInt_unsigned hs h ha, natInt_unsigned hs h hb, Bool.false_eq_true, if_false]
    split <;> simp <;> omega

theorem redNode_max {t : Ty} (r : Rnd) (h : t.isLaneInt = true) {a b : Nat} (ha : Fits t a) (hb : Fits t b) :
    redNode t .max r a b = (if natInt t a < natInt t b then b else a, 0) := by
  simp only [redNode, Ty.isLaneFloat_of_int h, Bool.false_eq_true, if_false]
  cases hs : t.isLaneSigned with
  | true => simp only [natInt_signed hs, if_true]
  | false =>
    simp only [natInt_unsigned hs h ha, natInt_unsigned hs h hb, Bool.false_eq_true, if_false]
    split <;> simp <;> omega

theorem redNode_eq_nodeBy {t : Ty} {op : RedOp} (r : Rnd) (h : RedHas t op) {a b : Nat} (ha : Fits t a) (hb : Fits t b) :
    redNode t op r a b = nodeBy t op r a b := by
  rcases h with h | ⟨h, -⟩
  · have hf := Ty.isLaneFloat_of_int h
    cases op with
    | min => simp only [redNode_min r h ha hb, nodeBy, hf, Bool.false_eq_true, if_false]
    | max => simp only [redNode_max r h ha hb, nodeBy, hf, Bool.false_eq_true, if_false]
    | _ => rfl
  · cases op with
    | min | max => simp only [redNode, nodeBy, h, if_true]
    | _ => rfl

/-- A node of elements is an element. -/
theorem redNode_fits {t : Ty} {op : RedOp} (r : Rnd) {a b : Nat} (ha : Fits t a) (hb : Fits t b) :
    Fits t (redNode t op r a b).1 := by
  intro h
  cases op with
  | add =>
    simp only [redNode, Ty.isLaneFloat_of_int h, Bool.false_eq_true, if_false]
    exact Nat.mod_lt _ (Nat.two_pow_pos _)
  | min => rw [redNode_min r h ha hb]; dsimp only; split; exacts [hb h, ha h]
  | max => rw [redNode_max r h ha hb]; dsimp only; split; exacts [hb h, ha h]
  | and => exact Nat.and_lt_two_pow _ (hb h)
  | or => exact Nat.or_lt_two_pow (ha h) (hb h)
  | xor => exact Nat.xor_lt_two_pow (ha h) (hb h)
  | lanes => exact ha h

theorem redNode_int_flags {t : Ty} (h : t.isLaneInt = true) (op : RedOp) (r : Rnd) {a b : Nat} (ha : Fits t a) (hb : Fits t b) :
    (redNode t op r a b).2 = 0 := by
  cases op with
  | add => simp only [redNode, Ty.isLaneFloat_of_int h, Bool.false_eq_true, if_false]
  | min => rw [redNode_min r h ha hb]
  | max => rw [redNode_max r h ha hb]
  | _ => rfl

/-- The least and the greatest integer of a type. -/
theorem redId_fits (t : Ty) (op : RedOp) : Fits t (redId t op) := by
  intro h
  have hw : ∀ x : Int, wrapW (tyBits t) x < 2 ^ tyBits t := by
    intro x
    have := wrapW_cast (tyBits t) x
    have hlt := Int.emod_lt_of_pos x (by positivity : (0 : Int) < 2 ^ tyBits t)
    rw [← this] at hlt
    exact_mod_cast hlt
  have hp := Nat.two_pow_pos (tyBits t)
  cases op with
  | add | or | xor | lanes => simpa only [redId, Ty.isLaneFloat_of_int h, Bool.false_eq_true, if_false] using hp
  | min | max => simpa only [redId, Ty.isLaneFloat_of_int h, Bool.false_eq_true, if_false] using hw _
  | and => exact Nat.sub_lt hp Nat.one_pos

/-- The identity of an operation as R130 has it, by the range of the type. -/
def idBy (t : Ty) (op : RedOp) : Nat :=
  match op with
  | .add => if t.isLaneFloat then 2 ^ (tyBits t - 1) else 0
  | .min => if t.isLaneFloat then infCode t else ((intRange t).2 % 2 ^ tyBits t).toNat
  | .max => if t.isLaneFloat then 2 ^ (tyBits t - 1) + infCode t else ((intRange t).1 % 2 ^ tyBits t).toNat
  | .and => 2 ^ tyBits t - 1
  | _ => 0

theorem redId_eq_idBy {t : Ty} {op : RedOp} (h : RedHas t op) : redId t op = idBy t op := by
  have hwrap : ∀ x, wrapW (tyBits t) x = (x % 2 ^ tyBits t).toNat := fun x => by rw [wrapW]; push_cast; rfl
  rcases h with h | ⟨h, -⟩
  · have hf := Ty.isLaneFloat_of_int h
    cases op with
    | add | min | max => simp only [redId, idBy, hf, hwrap, Bool.false_eq_true, if_false]
    | _ => rfl
  · cases op with
    | max => simp only [redId, idBy, h, if_true, withSign, signBit_eq h, Nat.add_comm]
    | add | min => simp only [redId, idBy, h, if_true, signBit_eq h]
    | _ => rfl

theorem extend_eq_shown {t : Ty} (a : Nat) :
    extend t a = if t.isLaneFloat then BitVec.ofNat 32 (a % 2 ^ tyBits t) else asLane t a := by
  split
  · next h => exact extend_unsigned (Ty.isLaneSigned_of_not_int (Ty.isLaneInt_of_float h)) a
  · exact extend_eq_asLane t a

/-! ## `vred` (R130) -/

section
variable {S : Nat → Prop} {f g : Nat → Nat → Nat × BitVec 7}

theorem treeLevel_congr (h : ∀ a b, S a → S b → f a b = g a b ∧ S (f a b).1) (l : List (Nat × BitVec 7))
    (hl : ∀ p ∈ l, S p.1) : treeLevel f l = treeLevel g l ∧ ∀ p ∈ treeLevel f l, S p.1 := by
  induction l using treeLevel.induct f with
  | case1 p q l ih =>
    simp only [List.forall_mem_cons] at hl
    obtain ⟨hp, hq, hl⟩ := hl
    obtain ⟨heq, hS⟩ := h p.1 q.1 hp hq
    obtain ⟨iheq, ihS⟩ := ih hl
    rw [treeLevel_cons, treeLevel_cons, ← iheq, joinNode, joinNode, ← heq]
    exact ⟨rfl, List.forall_mem_cons.2 ⟨hS, ihS⟩⟩
  | case2 l h =>
    have hid : ∀ f, treeLevel f l = l := by
      intro f
      match l, h with
      | [], _ => rfl
      | [_], _ => rfl
      | p :: q :: l, h => exact absurd rfl (h p q l)
    rw [hid, hid]
    exact ⟨rfl, hl⟩

theorem tree16_congr (h : ∀ a b, S a → S b → f a b = g a b ∧ S (f a b).1) {l : List Nat} (hl : ∀ a ∈ l, S a) :
    tree16 f l = tree16 g l := by
  have h0 : ∀ p ∈ l.map fun a => (a, (0 : BitVec 7)), S p.1 := by
    intro p hp
    obtain ⟨a, ha, rfl⟩ := List.mem_map.1 hp
    exact hl a ha
  obtain ⟨e8, h8⟩ := treeLevel_congr h _ h0
  obtain ⟨e4, h4⟩ := treeLevel_congr h _ h8
  obtain ⟨e2, h2⟩ := treeLevel_congr h _ h4
  obtain ⟨e1, -⟩ := treeLevel_congr h _ h2
  rw [tree16, tree16, e1, e2, e4, e8]

end

/-- What lane `i` puts into a reduction: its element, or the identity where it is inactive. -/
abbrev redIn (t : Ty) (op : RedOp) (act : BitVec 16) (u : Vec) (i : Nat) : Nat :=
  if act.getLsbD i then elem t (lane u i) else redId t op

theorem elem_fits (t : Ty) (x : Word) : Fits t (elem t x) := fun _ => Nat.mod_lt _ (Nat.two_pow_pos _)

theorem redIn_fits (t : Ty) (op : RedOp) (act : BitVec 16) (u : Vec) (i : Nat) : Fits t (redIn t op act u i) := by
  unfold redIn
  split
  · exact elem_fits t _
  · exact redId_fits t op

section
variable {s : State} {sc : Sched} {d A : Opnd} {t : Ty} {op : RedOp} {m : Gov} {r : Rnd}

/-- The number that a reduction comes to, with its flags. -/
abbrev State.reduced (s : State) (A : Opnd) (t : Ty) (op : RedOp) (m : Gov) (r : Rnd) : Nat × BitVec 7 :=
  tree16 (redNode t op r) ((List.range 16).map (redIn t op (s.active m) (s.valV (tyOne t) A)))

theorem exec_vred (ha : Readable s A .vec) (h : op ≠ .lanes) : exec (.vred sc d A t op m r) s
    = .next (s.putF sc d 6 (extend t (s.reduced A t op m r).1) (s.reduced A t op m r).2) := by
  dsimp only [exec, execVred]
  rw [rdV_ok ha]
  simp only [bind, Except.bind, if_neg h]
  rfl

theorem exec_vred_lanes (ha : Readable s A .vec) : exec (.vred sc d A t .lanes m r) s
    = .next (s.put sc d 6 (BitVec.ofNat 32 (lanesBits t (s.active m) (s.valV (tyOne t) A)))) := by
  dsimp only [exec, execVred]
  rw [rdV_ok ha]
  rfl

/-- The node may be taken as R130 has it. -/
theorem reduced_eq_nodeBy (h : RedHas t op) : s.reduced A t op m r
    = tree16 (nodeBy t op r) ((List.range 16).map (redIn t op (s.active m) (s.valV (tyOne t) A))) := by
  refine tree16_congr (S := Fits t) (fun a b ha hb => ⟨redNode_eq_nodeBy r h ha hb, redNode_fits r ha hb⟩) fun a ha => ?_
  obtain ⟨i, -, rfl⟩ := List.mem_map.1 ha
  exact redIn_fits _ _ _ _ i

/-- `vred` with the tree written out, for a node and an identity that are those of R130. -/
theorem exec_vred_tree (ha : Readable s A .vec) (hop : op ≠ .lanes) (h : RedHas t op) {node : Nat → Nat → Nat × BitVec 7}
    {idn : Nat} (hnode : nodeBy t op r = node) (hid : idBy t op = idn) :
    let z := fun i => (if (s.active m).getLsbD i then elem t (lane (s.valV (tyOne t) A) i) else idn, (0 : BitVec 7))
    let n8 := fun i => joinNode node (z (2 * i)) (z (2 * i + 1))
    let n4 := fun i => joinNode node (n8 (2 * i)) (n8 (2 * i + 1))
    let n2 := fun i => joinNode node (n4 (2 * i)) (n4 (2 * i + 1))
    let y := joinNode node (n2 0) (n2 1)
    exec (.vred sc d A t op m r) s
      = .next (s.putF sc d 6 (if t.isLaneFloat then BitVec.ofNat 32 (y.1 % 2 ^ tyBits t) else asLane t y.1) y.2) := by
  subst hnode hid
  rw [exec_vred ha hop, reduced_eq_nodeBy h, tree16_range, extend_eq_shown, ← redId_eq_idBy h]

/-- An integer reduction raises no flag, comes to an element, and is read as a fold wherever its node is. -/
theorem reduced_fold {M : Type} {o : M → M → M} {g : Nat → M} {e : M} (h : t.isLaneInt = true)
    (ho : ∀ x y z, o (o x y) z = o x (o y z)) (he : ∀ x, o x e = x)
    (hg : ∀ a b, Fits t a → Fits t b → g (redNode t op r a b).1 = o (g a) (g b)) :
    Fits t (s.reduced A t op m r).1 ∧ (s.reduced A t op m r).2 = 0 ∧ g (s.reduced A t op m r).1
      = (List.range 16).foldr (fun i y => o (g (redIn t op (s.active m) (s.valV (tyOne t) A) i)) y) e := by
  obtain ⟨⟨hfit, hflag⟩, hfold⟩ := tree16_fold (f := redNode t op r) (g := fun p => g p.1)
    (P := fun p => Fits t p.1 ∧ p.2 = 0) ho (fun p q hp hq => ⟨⟨redNode_fits r hp.1 hq.1, by
      rw [joinNode, hp.2, hq.2, redNode_int_flags h op r hp.1 hq.1]; rfl⟩, hg p.1 q.1 hp.1 hq.1⟩) he
    (redIn t op (s.active m) (s.valV (tyOne t) A)) fun i => ⟨redIn_fits _ _ _ _ i, rfl⟩
  exact ⟨hfit, hflag, hfold⟩

end

/-! ## Integer reductions -/

/-- A fold by conjunction over lanes. -/
theorem foldr_and_iff (p : Nat → Prop) (l : List Nat) : l.foldr (fun i q => p i ∧ q) True ↔ ∀ i ∈ l, p i := by
  induction l with
  | nil => simp
  | cons i l ih => rw [List.foldr_cons, ih, List.forall_mem_cons]

/-- A sum over lanes in which the inactive ones add nothing. -/
theorem foldr_add_filter {M : Type} [AddCommMonoid M] (act : Nat → Bool) (x : Nat → M) (l : List Nat) :
    l.foldr (fun i y => (if act i then x i else 0) + y) 0 = ((l.filter act).map x).sum := by
  induction l with
  | nil => rfl
  | cons i l ih =>
    rw [List.foldr_cons, ih, List.filter_cons]
    split <;> simp

theorem foldr_band_filter (act p : Nat → Bool) (l : List Nat) :
    l.foldr (fun i y => (if act i then p i else true) && y) true = decide (∀ i ∈ l.filter act, p i = true) := by
  induction l with
  | nil => simp
  | cons i l ih =>
    rw [List.foldr_cons, ih]
    cases h : act i <;> simp [h]

theorem foldr_bor_filter (act p : Nat → Bool) (l : List Nat) :
    l.foldr (fun i y => (if act i then p i else false) || y) false = decide (∃ i ∈ l.filter act, p i = true) := by
  induction l with
  | nil => simp
  | cons i l ih =>
    rw [List.foldr_cons, ih]
    cases h : act i with
    | false => simp [h]
    | true => rw [List.filter_cons_of_pos h, if_pos rfl]; simp only [List.exists_mem_cons_iff, Bool.decide_or, Bool.decide_eq_true]

/-- One more changes the parity. -/
theorem decide_succ_odd (n : Nat) : decide ((n + 1) % 2 = 1) = !decide (n % 2 = 1) := by
  rw [← decide_not]; exact decide_eq_decide.2 (by omega)

theorem foldr_xor_filter (act p : Nat → Bool) (l : List Nat) :
    l.foldr (fun i y => Bool.xor (if act i then p i else false) y) false
      = decide (((l.filter act).filter p).length % 2 = 1) := by
  induction l with
  | nil => rfl
  | cons i l ih =>
    rw [List.foldr_cons, ih]
    cases h : act i with
    | false => simp [h]
    | true =>
      cases hp : p i with
      | false => simp [h, hp]
      | true => rw [List.filter_cons_of_pos h, List.filter_cons_of_pos hp, List.length_cons, decide_succ_odd, if_pos rfl,
          Bool.true_xor]

section
variable {s : State} {sc : Sched} {d A : Opnd} {t : Ty} {op : RedOp} {m : Gov} {r : Rnd}

/-- An integer reduction delivers the number that it comes to, without flags. -/
theorem exec_vred_int (ha : Readable s A .vec) (h : t.isLaneInt = true) (hop : op ≠ .lanes) : exec (.vred sc d A t op m r) s
    = .next (s.put sc d 6 (asLane t (s.reduced A t op m r).1)) := by
  have hflags : (s.reduced A t op m r).2 = 0 :=
    (reduced_fold (o := fun _ _ => ()) (e := ()) h (fun _ _ _ => rfl) (fun _ => rfl) (g := fun _ => ()) fun _ _ _ _ => rfl).2.1
  rw [exec_vred ha hop, hflags, extend_eq_asLane]; rfl

theorem reduced_fits (h : t.isLaneInt = true) : Fits t (s.reduced A t op m r).1 :=
  (reduced_fold (o := fun _ _ => ()) (e := ()) h (fun _ _ _ => rfl) (fun _ => rfl) (g := fun _ => ()) fun _ _ _ _ => rfl).1

/-- The integer of an element of the vector. -/
theorem natInt_elem {t : Ty} (h : t.isLaneInt = true) (x : Word) : natInt t (elem t x) = laneInt t x := by
  have hw : tyBits t ≤ 32 := tyBits_le_32 (.inl h)
  cases hs : t.isLaneSigned with
  | true => rw [natInt_signed hs, ← elemInt_eq_laneInt, elemInt, if_pos hs, elem, sgnW, sgnW, Nat.mod_mod]
  | false => rw [natInt_unsigned hs h (elem_fits t x), laneInt, if_neg (by simp [hs])]; rfl

theorem asLane_natInt {t : Ty} (h : t.isLaneInt = true) {a : Nat} (ha : Fits t a) : asLane t (natInt t a) = asLane t a :=
  asLane_congr (natInt_emod h ha)

theorem cast_eq_iff_emod (w : Nat) (x y : Int) : (x : ZMod (2 ^ w)) = y ↔ x % 2 ^ w = y % 2 ^ w := by
  rw [ZMod.intCast_eq_intCast_iff']; push_cast; rfl

/-- `add` comes to the sum of the active elements, modulo 2^w. -/
theorem reduced_add (h : t.isLaneInt = true) : asLane t (s.reduced A t .add m r).1
    = asLane t ((((List.range 16).filter fun i => (s.active m).getLsbD i).map
        fun i => laneInt t (lane (s.valV (tyOne t) A) i)).sum) := by
  have hf := Ty.isLaneFloat_of_int h
  obtain ⟨-, -, hsum⟩ := reduced_fold (s := s) (A := A) (m := m) (r := r) (op := .add) (t := t)
    (g := fun a : Nat => (a : ZMod (2 ^ tyBits t))) h add_assoc add_zero fun a b _ _ => by
      simp only [redNode, hf, Bool.false_eq_true, if_false]
      push_cast [ZMod.natCast_mod]; rfl
  have hid : redId t .add = 0 := by simp [redId, hf]
  have hlane : ∀ i, ((redIn t .add (s.active m) (s.valV (tyOne t) A) i : Nat) : ZMod (2 ^ tyBits t))
      = if (s.active m).getLsbD i then ((laneInt t (lane (s.valV (tyOne t) A) i) : Int) : ZMod (2 ^ tyBits t)) else 0 := by
    intro i
    unfold redIn
    split
    · rw [← Int.cast_natCast, cast_eq_iff_emod, ← natInt_emod h (elem_fits t _), natInt_elem h]
    · rw [hid, Nat.cast_zero]
  simp only [hlane] at hsum
  rw [foldr_add_filter, ← Int.cast_natCast] at hsum
  refine asLane_congr ((cast_eq_iff_emod _ _ _).1 (hsum.trans ?_))
  push_cast [List.map_map]; rfl

/-- The greatest and the least integer of a type, which inactive lanes put into `min` and `max`. -/
theorem natInt_redId_min (h : t.isLaneInt = true) : natInt t (redId t .min) = (intRange t).2 := by
  cases t with
  | i32 | n32 | i16 | n16 | i8 | n8 => decide
  | _ => exact absurd h (by decide)

theorem natInt_redId_max (h : t.isLaneInt = true) : natInt t (redId t .max) = (intRange t).1 := by
  cases t with
  | i32 | n32 | i16 | n16 | i8 | n8 => decide
  | _ => exact absurd h (by decide)

theorem natInt_redIn (h : t.isLaneInt = true) (act : BitVec 16) (u : Vec) (i : Nat) : natInt t (redIn t op act u i)
    = if act.getLsbD i then laneInt t (lane u i) else natInt t (redId t op) := by
  unfold redIn
  split
  · exact natInt_elem h _
  · rfl

/-- The order in which `min` and `max` both take the least. -/
def redKey (op : RedOp) (x : Int) : Int := if op = .max then -x else x

theorem redKey_injective (op : RedOp) : Function.Injective (redKey op) := by
  intro x y h
  unfold redKey at h
  split at h <;> omega

/-- `min` and `max` come to the greatest lower bound, in their order, of what the lanes put in. -/
theorem le_reduced_key (h : t.isLaneInt = true) (hop : op = .min ∨ op = .max) (c : Int) :
    c ≤ redKey op (natInt t (s.reduced A t op m r).1) ↔
      ∀ i, i < 16 → c ≤ redKey op (natInt t (redIn t op (s.active m) (s.valV (tyOne t) A) i)) := by
  obtain ⟨-, -, hall⟩ := reduced_fold (s := s) (A := A) (m := m) (r := r) (op := op) (g := fun a => c ≤ redKey op (natInt t a))
    (o := And) (e := True) h (fun _ _ _ => propext and_assoc) and_true fun a b ha hb => by
      refine propext ?_
      rcases hop with rfl | rfl
      · rw [redNode_min r h ha hb]
        simp only [redKey, reduceCtorEq, if_false]
        split <;> omega
      · rw [redNode_max r h ha hb]
        simp only [redKey, if_true]
        split <;> omega
  rw [hall, foldr_and_iff]
  simp only [List.mem_range]

theorem laneInt_range (h : t.isLaneInt = true) (x : Word) : (intRange t).1 ≤ laneInt t x ∧ laneInt t x ≤ (intRange t).2 := by
  rw [← elemInt_eq_laneInt]
  cases t with
  | i32 | i16 | i8 => simp only [elemInt, Ty.isLaneSigned, sgnW, intRange, tyBits, if_true]; split_ifs <;> omega
  | n32 | n16 | n8 => simp only [elemInt, Ty.isLaneSigned, elem, intRange, tyBits, Bool.false_eq_true, if_false]; omega
  | _ => exact absurd h (by decide)

theorem redKey_elem_le (h : t.isLaneInt = true) (hop : op = .min ∨ op = .max) (x : Word) :
    redKey op (laneInt t x) ≤ redKey op (natInt t (redId t op)) := by
  obtain ⟨hlo, hhi⟩ := laneInt_range h x
  rcases hop with rfl | rfl
  · simpa only [redKey, reduceCtorEq, if_false, natInt_redId_min h] using hhi
  · simpa only [redKey, if_true, natInt_redId_max h, neg_le_neg_iff] using hlo

/-- Where no lane is active `min` and `max` come to their identity. -/
theorem reduced_none (h : t.isLaneInt = true) (hop : op = .min ∨ op = .max)
    (hn : ∀ i, i < 16 → (s.active m).getLsbD i = false) :
    asLane t (s.reduced A t op m r).1 = asLane t (natInt t (redId t op)) := by
  have hin : ∀ i, i < 16 → natInt t (redIn t op (s.active m) (s.valV (tyOne t) A) i) = natInt t (redId t op) := fun i hi => by
    rw [natInt_redIn h, hn i hi, if_neg Bool.false_ne_true]
  rw [← asLane_natInt h (reduced_fits h)]
  refine congrArg (asLane t) (redKey_injective op (le_antisymm ?_ ?_))
  · exact ((le_reduced_key h hop _).1 le_rfl 0 (by decide)).trans (by rw [hin 0 (by decide)])
  · exact (le_reduced_key h hop _).2 fun i hi => by rw [hin i hi]

/-- `min` and `max` come to the active element that comes first in their order. -/
theorem reduced_some (h : t.isLaneInt = true) (hop : op = .min ∨ op = .max) {i : Nat} (hi : i < 16)
    (ha : (s.active m).getLsbD i = true) (hm : ∀ j, j < 16 → (s.active m).getLsbD j = true →
      redKey op (laneInt t (lane (s.valV (tyOne t) A) i)) ≤ redKey op (laneInt t (lane (s.valV (tyOne t) A) j))) :
    asLane t (s.reduced A t op m r).1 = asLane t (laneInt t (lane (s.valV (tyOne t) A) i)) := by
  rw [← asLane_natInt h (reduced_fits h)]
  refine congrArg (asLane t) (redKey_injective op (le_antisymm ?_ ((le_reduced_key h hop _).2 fun j hj => ?_)))
  · refine ((le_reduced_key h hop _).1 le_rfl i hi).trans ?_
    rw [natInt_redIn h, if_pos ha]
  · rw [natInt_redIn h]
    split
    · next hact => exact hm j hj hact
    · exact redKey_elem_le h hop _

/-- Bit `j` of what a bitwise operation comes to. -/
theorem testBit_reduced {o : Bool → Bool → Bool} {e : Bool} (h : t.isLaneInt = true) (ho : ∀ x y z, o (o x y) z = o x (o y z))
    (he : ∀ x, o x e = x) {j : Nat} (hid : (redId t op).testBit j = e)
    (hop : ∀ a b, (redNode t op r a b).1.testBit j = o (a.testBit j) (b.testBit j)) (hj : j < tyBits t) :
    (s.reduced A t op m r).1.testBit j = (List.range 16).foldr (fun i y =>
      o (if (s.active m).getLsbD i then (lane (s.valV (tyOne t) A) i).getLsbD j else e) y) e := by
  have hin : ∀ i, (redIn t op (s.active m) (s.valV (tyOne t) A) i).testBit j
      = if (s.active m).getLsbD i then (lane (s.valV (tyOne t) A) i).getLsbD j else e := by
    intro i
    unfold redIn
    split
    · rw [elem, Nat.testBit_mod_two_pow, decide_eq_true hj, Bool.true_and]; rfl
    · exact hid
  obtain ⟨-, -, hfold⟩ := reduced_fold (s := s) (A := A) (m := m) (r := r) (op := op) (g := fun a => a.testBit j) h ho he
    fun a b _ _ => hop a b
  rw [hfold]
  simp only [hin]

/-- What a bitwise operation delivers, bit by bit. -/
theorem reduced_bits (ha : Readable s A .vec) {o : Bool → Bool → Bool} {e : Bool} (h : t.isLaneInt = true)
    (hop : op = .and ∨ op = .or ∨ op = .xor) (ho : ∀ x y z, o (o x y) z = o x (o y z)) (he : ∀ x, o x e = x)
    (hid : ∀ j, j < tyBits t → (redId t op).testBit j = e)
    (hbit : ∀ a b j, (redNode t op r a b).1.testBit j = o (a.testBit j) (b.testBit j)) :
    ∃ v : Word, exec (.vred sc d A t op m r) s = .next (s.put sc d 6 (asLane t v.toNat)) ∧ ∀ j, j < tyBits t →
      v.getLsbD j = (List.range 16).foldr (fun i y =>
        o (if (s.active m).getLsbD i then (lane (s.valV (tyOne t) A) i).getLsbD j else e) y) e := by
  have hne : op ≠ .lanes := by rcases hop with rfl | rfl | rfl <;> decide
  have hw : tyBits t ≤ 32 := tyBits_le_32 (.inl h)
  have hlt : (s.reduced A t op m r).1 < 2 ^ 32 :=
    Nat.lt_of_lt_of_le (reduced_fits h h) (Nat.pow_le_pow_right (by decide) hw)
  refine ⟨BitVec.ofNat 32 (s.reduced A t op m r).1, ?_, fun j hj => ?_⟩
  · rw [exec_vred_int ha h hne, BitVec.toNat_ofNat, Nat.mod_eq_of_lt hlt]
  · rw [BitVec.getLsbD_ofNat, decide_eq_true (by omega), Bool.true_and]
    exact testBit_reduced h ho he (hid j hj) (fun a b => hbit a b j) hj

end

/-! ## `lanes` -/

/-- A sum of distinct powers of two below 2^n has the bits that it was made of. -/
theorem foldl_bits (p : Nat → Bool) (n i : Nat) :
    let x := (List.range n).foldl (fun y i => if p i then y + 2 ^ i else y) 0
    x < 2 ^ n ∧ x.testBit i = (decide (i < n) && p i) := by
  induction n with
  | zero => exact ⟨Nat.one_pos, by simp⟩
  | succ n ih =>
    obtain ⟨hlt, hbit⟩ := ih
    have hpow : 2 ^ (n + 1) = 2 * 2 ^ n := Nat.pow_succ'
    rw [List.range_succ, List.foldl_append]
    simp only [List.foldl_cons, List.foldl_nil]
    cases hp : p n with
    | false =>
      refine ⟨by simp only [Bool.false_eq_true, if_false]; omega, ?_⟩
      simp only [Bool.false_eq_true, if_false, hbit]
      by_cases hi : i = n
      · rw [hi, hp, Bool.and_false, Bool.and_false]
      · rw [show decide (i < n + 1) = decide (i < n) from decide_eq_decide.2 (by omega)]
    | true =>
      refine ⟨by simp only [if_true]; omega, ?_⟩
      simp only [if_true]
      have hor := Nat.two_pow_add_eq_or_of_lt hlt 1
      rw [Nat.mul_one] at hor
      rw [Nat.add_comm, hor, Nat.testBit_or, hbit, Nat.testBit_two_pow]
      by_cases hi : i = n
      · subst hi; simp [hp]
      · rw [show decide (i < n + 1) = decide (i < n) from decide_eq_decide.2 (by omega),
          decide_eq_false (fun h => hi h.symm), Bool.false_or]

theorem laneInt_eq_zero_iff {t : Ty} (x : Word) : laneInt t x = 0 ↔ elem t x = 0 := by
  have hlt := Nat.mod_lt x.toNat (Nat.two_pow_pos (tyBits t))
  rw [← elemInt_eq_laneInt, elemInt]
  split
  · have hi : ((x.toNat % 2 ^ tyBits t : Nat) : Int) < 2 ^ tyBits t := by exact_mod_cast hlt
    have hpos := Nat.two_pow_pos (tyBits t - 1)
    rw [sgnW, elem]
    split <;> omega
  · exact Int.natCast_eq_zero

theorem getLsbD_lanesBits (t : Ty) (act : BitVec 16) (u : Vec) (i : Nat) :
    (BitVec.ofNat 32 (lanesBits t act u)).getLsbD i
      = (decide (i < 16) && act.getLsbD i && decide (laneInt t (lane u i) ≠ 0)) := by
  have hsum : lanesBits t act u = (List.range 16).foldl
      (fun y i => if (act.getLsbD i && decide (laneInt t (lane u i) ≠ 0)) then y + 2 ^ i else y) 0 := by
    rw [lanesBits, lanesOf, List.foldl_filter]
    refine congrArg (fun f => (List.range 16).foldl f 0) (funext fun y => funext fun j => ?_)
    cases act.getLsbD j with
    | false => rfl
    | true => simp [laneInt_eq_zero_iff]
  obtain ⟨-, hbit⟩ := foldl_bits (fun i => act.getLsbD i && decide (laneInt t (lane u i) ≠ 0)) 16 i
  rw [BitVec.getLsbD_ofNat, hsum, hbit, ← Bool.and_assoc, ← Bool.and_assoc]
  by_cases hi : i < 16
  · rw [decide_eq_true (by omega : i < 32), Bool.true_and]
  · rw [decide_eq_false hi]; simp

/-! ## `vscan` (R83, R130) -/

/-- The running value of a scan at lane `i` and the flags of its steps so far. -/
def scanRun (t : Ty) (op : RedOp) (r : Rnd) (act : BitVec 16) (u : Vec) : Nat → Nat × BitVec 7
  | 0 => (redIn t op act u 0, 0)
  | i + 1 =>
    let p := scanRun t op r act u i
    if act.getLsbD (i + 1) then
      ((redNode t op r p.1 (elem t (lane u (i + 1)))).1, p.2 ||| (redNode t op r p.1 (elem t (lane u (i + 1)))).2)
    else p

section
variable {t : Ty} {op : RedOp} {r : Rnd} {act : BitVec 16} {u : Vec}

theorem scanRun_fits (i : Nat) : Fits t (scanRun t op r act u i).1 := by
  induction i with
  | zero => exact redIn_fits _ _ _ _ 0
  | succ i ih =>
    rw [scanRun]
    split
    · exact redNode_fits r ih (elem_fits t _)
    · exact ih

/-- The flags of step `i + 1` alone. -/
abbrev scanFlags (t : Ty) (op : RedOp) (r : Rnd) (act : BitVec 16) (u : Vec) (i : Nat) : BitVec 7 :=
  if act.getLsbD (i + 1) then (redNode t op r (scanRun t op r act u i).1 (elem t (lane u (i + 1)))).2 else 0

theorem scanRun_succ_fst (i : Nat) : (scanRun t op r act u (i + 1)).1 = if act.getLsbD (i + 1)
    then (redNode t op r (scanRun t op r act u i).1 (elem t (lane u (i + 1)))).1 else (scanRun t op r act u i).1 := by
  rw [scanRun]
  split <;> rfl

theorem scanRun_succ_snd (i : Nat) :
    (scanRun t op r act u (i + 1)).2 = (scanRun t op r act u i).2 ||| scanFlags t op r act u i := by
  rw [scanRun, scanFlags]
  split
  · rfl
  · exact (BitVec.or_zero).symm

/-- What a scan shows in lane `i`, with the flags of that lane's step. -/
def scanShown (t : Ty) (op : RedOp) (r : Rnd) (act : BitVec 16) (u : Vec) : Nat → Nat × BitVec 7
  | 0 => (if act.getLsbD 0 then (scanRun t op r act u 0).1 else 0, 0)
  | i + 1 => (if act.getLsbD (i + 1) then (scanRun t op r act u (i + 1)).1 else 0, scanFlags t op r act u i)

theorem scanShown_fst (i : Nat) :
    (scanShown t op r act u i).1 = if act.getLsbD i then (scanRun t op r act u i).1 else 0 := by
  cases i <;> rfl

/-- From lane `k + 1` on, the running value being that of lane `k`. -/
theorem scanGo_from (n k : Nat) :
    scanGo t op r ((List.range' (k + 1) n).map fun i => (act.getLsbD i, elem t (lane u i))) (some (scanRun t op r act u k).1)
      = (List.range' (k + 1) n).map (scanShown t op r act u) := by
  induction n generalizing k with
  | zero => rfl
  | succ n ih =>
    have hrun : (if act.getLsbD (k + 1) then redNode t op r (scanRun t op r act u k).1 (elem t (lane u (k + 1)))
        else ((scanRun t op r act u k).1, 0)) = ((scanRun t op r act u (k + 1)).1, scanFlags t op r act u k) := by
      rw [scanRun_succ_fst, scanFlags]
      split <;> rfl
    rw [List.range'_succ, List.map_cons, List.map_cons, scanGo]
    simp only [hrun]
    rw [ih (k + 1), scanShown]

theorem scanGo_all (n : Nat) :
    scanGo t op r ((List.range (n + 1)).map fun i => (act.getLsbD i, elem t (lane u i))) none
      = (List.range (n + 1)).map (scanShown t op r act u) := by
  rw [List.range_eq_range', List.range'_succ, List.map_cons, List.map_cons, scanGo]
  exact congrArg _ (scanGo_from n 0)

/-- The flags of all steps together. -/
theorem orFlags_scan (n : Nat) :
    orFlags (((List.range (n + 1)).map (scanShown t op r act u)).map (·.2)) = (scanRun t op r act u n).2 := by
  induction n with
  | zero => exact BitVec.or_self
  | succ n ih =>
    rw [List.range_succ, List.map_append, List.map_append, orFlags, List.foldl_append, ← orFlags, ih, scanRun_succ_snd]
    rfl

end

theorem mkVec_congr {f g : Nat → Word} (h : ∀ i, i < 16 → f i = g i) : mkVec f = mkVec g := by
  unfold mkVec
  exact List.foldr_ext _ _ _ fun i hi _ => by rw [h i (List.mem_range.1 hi)]

section
variable {s : State} {sc : Sched} {d A : Opnd} {t : Ty} {op : RedOp} {m : Gov} {r : Rnd}

theorem exec_vscan (ha : Readable s A .vec) : exec (.vscan sc d A t op m r) s
    = .next (s.putV sc d 8 (lanesUnder (s.active m) fun i =>
        extend t (scanRun t op r (s.active m) (s.valV (tyOne t) A) i).1)
      (scanRun t op r (s.active m) (s.valV (tyOne t) A) 15).2) := by
  dsimp only [exec, execVscan]
  rw [rdV_ok ha]
  simp only [bind, Except.bind]
  rw [scanGo_all 15, orFlags_scan]
  refine congrArg (fun y => Host.Outcome.next (s.putV sc d 8 y _)) (mkVec_congr fun i hi => ?_)
  split
  · next hact =>
    dsimp only
    rw [List.getD_eq_getElem?_getD, List.getElem?_map, List.getElem?_range hi, Option.map_some, Option.getD_some,
      scanShown_fst, if_pos hact]
  · rfl

/-- An integer scan raises no flag. -/
theorem scanRun_int_flags (h : t.isLaneInt = true) (act : BitVec 16) (u : Vec) (i : Nat) : (scanRun t op r act u i).2 = 0 := by
  induction i with
  | zero => rfl
  | succ i ih =>
    rw [scanRun_succ_snd, ih, scanFlags, redNode_int_flags h op r (scanRun_fits i) (elem_fits t _)]
    split <;> rfl

/-- The running sum is that of the active elements up to the lane, modulo 2^w. -/
theorem scanRun_add (h : t.isLaneInt = true) (act : BitVec 16) (u : Vec) (i : Nat) :
    ((scanRun t .add r act u i).1 : Int) % 2 ^ tyBits t
      = (((List.range (i + 1)).filter fun i => act.getLsbD i).map fun i => laneInt t (lane u i)).sum % 2 ^ tyBits t := by
  have hf := Ty.isLaneFloat_of_int h
  have hel : ∀ i, (elem t (lane u i) : Int) % 2 ^ tyBits t = laneInt t (lane u i) % 2 ^ tyBits t := fun i => by
    rw [← natInt_emod h (elem_fits t _), natInt_elem h]
  have hone : ∀ i, (List.filter (fun i => act.getLsbD i) [i]).map (fun i => laneInt t (lane u i))
      = if act.getLsbD i then [laneInt t (lane u i)] else [] := fun i => by
    rw [List.filter_cons, List.filter_nil]; split <;> rfl
  induction i with
  | zero =>
    rw [scanRun, redIn, List.range_one, hone]
    cases act.getLsbD 0 with
    | true => simpa using hel 0
    | false => simp [redId, hf]
  | succ i ih =>
    rw [scanRun_succ_fst, List.range_succ, List.filter_append, List.map_append, List.sum_append, hone]
    cases act.getLsbD (i + 1) with
    | true =>
      simp only [redNode, hf, Bool.false_eq_true, if_false, if_true, List.sum_singleton]
      push_cast
      rw [Int.emod_emod, Int.add_emod, ih, hel, ← Int.add_emod]
    | false => simpa using ih

end

/-! ## The statement -/

/-- Settles O31: the tree with `nodeBy` for its node, the folds that an integer tree comes to, and the running values. -/
theorem reduceAndScan : Obligations.ReduceAndScan := by
  intro s sc d A t op m r ha w act x e on int lo hi node idn shown code has delivers
  have hnode : nodeBy t op r = node := rfl
  have hidn : idBy t op = idn := by unfold idBy; rw [intRange_eq] <;> rfl
  have hnone : on = [] → ∀ i, i < 16 → (s.active m).getLsbD i = false := fun hon i hi => by
    simpa [act] using List.filter_eq_nil_iff.1 hon i (List.mem_range.2 hi)
  refine ⟨fun hop hhas => ?tree, fun h => ⟨?add, ?min, ?max, ?bits, ?lanes, ?scanAdd⟩, fun hop hhas => ?scan⟩
  case tree =>
    clear_value node idn
    exact exec_vred_tree ha hop hhas hnode hidn
  case add =>
    rintro rfl
    exact (exec_vred_int ha h (by decide)).trans (by rw [reduced_add h])
  case min =>
    rintro rfl
    have hdel := exec_vred_int (sc := sc) (d := d) (m := m) (r := r) ha h (show RedOp.min ≠ .lanes by decide)
    refine ⟨fun hon => ?_, fun i hi hact hle => ?_⟩
    · rw [reduced_none h (.inl rfl) fun i hi => hnone hon i hi, natInt_redId_min h, intRange_eq] at hdel
      exact hdel
    · rw [reduced_some h (.inl rfl) hi hact fun j hj hactj => hle j hj hactj] at hdel
      exact hdel
  case max =>
    rintro rfl
    have hdel := exec_vred_int (sc := sc) (d := d) (m := m) (r := r) ha h (show RedOp.max ≠ .lanes by decide)
    refine ⟨fun hon => ?_, fun i hi hact hle => ?_⟩
    · rw [reduced_none h (.inr rfl) fun i hi => hnone hon i hi, natInt_redId_max h, intRange_eq] at hdel
      exact hdel
    · rw [reduced_some h (.inr rfl) hi hact fun j hj hactj => neg_le_neg (hle j hj hactj)] at hdel
      exact hdel
  case bits =>
    rintro (rfl | rfl | rfl)
    · obtain ⟨v, hv, hbits⟩ := reduced_bits (sc := sc) (d := d) (op := .and) (m := m) (r := r) (o := and) ha h (.inl rfl)
        Bool.and_assoc Bool.and_true (fun j hj => by rw [redId, Nat.testBit_two_pow_sub_one, decide_eq_true hj])
        fun a b j => Nat.testBit_and a b j
      exact ⟨v, hv, fun j hj => (hbits j hj).trans (foldr_band_filter ..)⟩
    · obtain ⟨v, hv, hbits⟩ := reduced_bits (sc := sc) (d := d) (op := .or) (m := m) (r := r) (o := or) ha h (.inr (.inl rfl))
        Bool.or_assoc Bool.or_false (fun j _ => Nat.zero_testBit j) fun a b j => Nat.testBit_or a b j
      exact ⟨v, hv, fun j hj => (hbits j hj).trans (foldr_bor_filter ..)⟩
    · obtain ⟨v, hv, hbits⟩ := reduced_bits (sc := sc) (d := d) (op := .xor) (m := m) (r := r) (o := Bool.xor) ha h
        (.inr (.inr rfl)) Bool.xor_assoc Bool.xor_false (fun j _ => Nat.zero_testBit j) fun a b j => Nat.testBit_xor a b j
      exact ⟨v, hv, fun j hj => (hbits j hj).trans (foldr_xor_filter ..)⟩
  case lanes =>
    rintro rfl
    exact ⟨_, exec_vred_lanes ha, fun i _ => getLsbD_lanesBits t _ _ i⟩
  case scanAdd =>
    rintro rfl
    rw [exec_vscan ha, scanRun_int_flags h]
    simp only [extend_eq_asLane, asLane_congr (scanRun_add h _ _ _)]
    rfl
  case scan =>
    refine ⟨_, fun i => (scanRun t op r (s.active m) (s.valV (tyOne t) A) i).1,
      fun i => (scanRun t op r (s.active m) (s.valV (tyOne t) A) i).2, exec_vscan ha, ?first, rfl, fun i hi => ?step,
      fun i hi => ?shown⟩
    case first =>
      rw [← hidn, ← redId_eq_idBy hhas]
      rfl
    case step =>
      dsimp only
      rw [scanRun_succ_fst, scanRun_succ_snd, scanFlags, redNode_eq_nodeBy r hhas (scanRun_fits i) (elem_fits t _)]
      exact ⟨rfl, rfl⟩
    case shown =>
      rw [lanesUnder, lane_mkVec _ hi]
      simp only [extend_eq_shown]
      rfl

end Sys2Proof.Machine
end

section
/-! Rounding (R69, R75, R120): the finite values of a float type, the grid that a magnitude is rounded to, what each mode
delivers, and the exact operations behind one rounding. -/

namespace Sys2Proof.Machine

/-! ## Exact operations (R69, R120) -/

theorem ratOf_neg (n : Bool) (m : Nat) (e : Int) : ratOf (!n) m e = -ratOf n m e := by
  cases n <;> simp [ratOf]

theorem ratOf_mul (n n' : Bool) (m m' : Nat) (e e' : Int) : ratOf (n != n') (m * m') (e + e') = ratOf n m e * ratOf n' m' e' := by
  rw [ratOf, ratOf, ratOf, zpow_add₀ (by norm_num)]
  push_cast
  cases n <;> cases n' <;> simp <;> ring

/-- A signed integer in units of 2^e. -/
theorem ratOf_ofInt (s : Int) (e : Int) : ratOf (decide (s < 0)) s.natAbs e = s * 2 ^ e := by
  rw [ratOf]
  by_cases hs : s < 0
  · rw [decide_eq_true hs, ← Int.cast_natCast, Int.ofNat_natAbs_of_nonpos (by omega)]
    push_cast; simp
  · rw [decide_eq_false hs, ← Int.cast_natCast, Int.natAbs_of_nonneg (by omega)]
    simp

/-- A magnitude in units of a smaller power of two. -/
theorem ratOf_rescale (n : Bool) (m : Nat) {e e' : Int} (h : e' ≤ e) :
    ratOf n m e = ((if n then -((m * 2 ^ (e - e').toNat : Nat) : Int) else ((m * 2 ^ (e - e').toNat : Nat) : Int) : Int) : ℚ)
      * 2 ^ e' := by
  have he : (2 : ℚ) ^ e = 2 ^ (e - e').toNat * 2 ^ e' := by
    rw [← zpow_natCast, ← zpow_add₀ (by norm_num), Int.toNat_of_nonneg (by omega), Int.sub_add_cancel]
  rw [ratOf, he]
  cases n <;> push_cast <;> simp <;> ring

theorem ratOf_eq_zero_iff (n : Bool) (m : Nat) (e : Int) : ratOf n m e = 0 ↔ m = 0 := by
  have h2 : (2 : ℚ) ^ e ≠ 0 := zpow_ne_zero e (by norm_num)
  cases n <;> simp [ratOf, h2]

/-- A number of units as a value, zero with a sign of its own. -/
theorem fin_of_units (b : Bool) (s e : Int) : ∃ (n : Bool) (m : Nat),
    (if s = 0 then FVal.fin b 0 e else .fin (decide (s < 0)) s.natAbs e) = .fin n m e ∧
      ratOf n m e = s * 2 ^ e ∧ (m = 0 → n = b) := by
  by_cases hs : s = 0
  · exact ⟨b, 0, if_pos hs, by rw [hs]; simp [ratOf], fun _ => rfl⟩
  · exact ⟨_, _, if_neg hs, ratOf_ofInt s e, fun h => absurd (Int.natAbs_eq_zero.1 h) hs⟩

/-- The exact sum, with the sign of a zero. -/
theorem finAdd_eq (mode : RMode) (n₁ n₂ : Bool) (m₁ m₂ : Nat) (e₁ e₂ : Int) :
    ∃ (n : Bool) (m : Nat) (e : Int), finAdd mode n₁ m₁ e₁ n₂ m₂ e₂ = .fin n m e ∧
      ratOf n m e = ratOf n₁ m₁ e₁ + ratOf n₂ m₂ e₂ ∧ (m = 0 → n = if n₁ == n₂ then n₁ else mode == .rdn) := by
  obtain ⟨n, m, heq, hval, hsign⟩ := fin_of_units (if n₁ == n₂ then n₁ else mode == .rdn) _ (min e₁ e₂)
  refine ⟨n, m, _, heq, hval.trans ?_, hsign⟩
  rw [Int.cast_add, add_mul, ratOf_rescale n₁ m₁ (min_le_left e₁ e₂), ratOf_rescale n₂ m₂ (min_le_right e₁ e₂)]

theorem finishVal_fin (t : Ty) (mode : RMode) (sat n : Bool) (m : Nat) (e : Int) :
    finishVal t mode sat (.fin n m e, false) = roundTo t mode sat n m e false :=
  Prod.ext rfl BitVec.or_zero

theorem finishVal_nan (t : Ty) (mode : RMode) (sat iv : Bool) :
    finishVal t mode sat (.nan false, iv) = (canonNaN t, if iv then 0x01 else 0) :=
  Prod.ext rfl BitVec.zero_or

/-- A rounded exact value, with the sign that a zero takes. -/
def Gives (t : Ty) (r : Rnd) (y : Nat × BitVec 7) (x : ℚ) (zero : Bool) : Prop :=
  ∃ (n : Bool) (m : Nat) (e : Int), y = roundTo t r.mode r.sat n m e false ∧ ratOf n m e = x ∧ (x = 0 → n = zero)

theorem gives_congr {t : Ty} {r : Rnd} {y : Nat × BitVec 7} {x x' : ℚ} {b b' : Bool} (h : Gives t r y x b) (hx : x = x')
    (hb : x = 0 → b = b') : Gives t r y x' b' := by
  obtain ⟨n, m, e, hy, hval, hsign⟩ := h
  exact ⟨n, m, e, hy, hval.trans hx, fun h0 => (hsign (hx.trans h0)).trans (hb (hx.trans h0))⟩

theorem gives_sum (t : Ty) (r : Rnd) (n₁ n₂ : Bool) (m₁ m₂ : Nat) (e₁ e₂ : Int) :
    Gives t r (finishVal t r.mode r.sat (vAdd r.mode (.fin n₁ m₁ e₁) (.fin n₂ m₂ e₂)))
      (ratOf n₁ m₁ e₁ + ratOf n₂ m₂ e₂) (if n₁ == n₂ then n₁ else r.mode == .rdn) := by
  obtain ⟨n, m, e, hadd, hval, hsign⟩ := finAdd_eq r.mode n₁ n₂ m₁ m₂ e₁ e₂
  exact ⟨n, m, e, by rw [vAdd, hadd, finishVal_fin], hval, fun h0 => hsign ((ratOf_eq_zero_iff n m e).1 (hval.trans h0))⟩

theorem gives_product (t : Ty) (r : Rnd) (n₁ n₂ : Bool) (m₁ m₂ : Nat) (e₁ e₂ : Int) :
    Gives t r (finishVal t r.mode r.sat (vMul (.fin n₁ m₁ e₁) (.fin n₂ m₂ e₂)))
      (ratOf n₁ m₁ e₁ * ratOf n₂ m₂ e₂) (n₁ != n₂) :=
  ⟨_, _, _, finishVal_fin .., ratOf_mul .., fun _ => rfl⟩

/-- Two values of one sign add to zero only as zeros. -/
theorem ratOf_add_eq_zero {n : Bool} {m₁ m₂ : Nat} {e₁ e₂ : Int} (h : ratOf n m₁ e₁ + ratOf n m₂ e₂ = 0) :
    ratOf n m₁ e₁ = 0 ∧ ratOf n m₂ e₂ = 0 := by
  have h₁ : (0 : ℚ) ≤ m₁ * 2 ^ e₁ := by positivity
  have h₂ : (0 : ℚ) ≤ m₂ * 2 ^ e₂ := by positivity
  cases n <;> simp only [ratOf, Bool.false_eq_true, if_false, if_true, one_mul, neg_mul] at h ⊢ <;> constructor <;> linarith

/-! ## Invalid operations (R69) -/

theorem vAdd_nan (mode : RMode) {x y : FVal} (h : x.isNaN = true ∨ y.isNaN = true) :
    vAdd mode x y = (.nan false, x.isSig || y.isSig) := by
  cases x with
  | nan => rfl
  | inf | fin =>
    cases y with
    | nan a => cases a <;> rfl
    | inf | fin => simp [FVal.isNaN] at h

theorem vMul_nan {x y : FVal} (h : x.isNaN = true ∨ y.isNaN = true) : vMul x y = (.nan false, x.isSig || y.isSig) := by
  cases x with
  | nan => rfl
  | inf | fin =>
    cases y with
    | nan a => cases a <;> rfl
    | inf | fin => simp [FVal.isNaN] at h

theorem vMul_inf_zero (n : Bool) {y : FVal} (h : y.isZero = true) :
    vMul (.inf n) y = (.nan false, true) ∧ vMul y (.inf n) = (.nan false, true) := by
  cases y with
  | nan | inf => simp [FVal.isZero] at h
  | fin => simp [vMul, h]

theorem isNaN_negate (x : FVal) : x.negate.isNaN = x.isNaN := by cases x <;> rfl

theorem isSig_negate (x : FVal) : x.negate.isSig = x.isSig := by cases x <;> rfl

section
variable (t : Ty) (r : Rnd) (a b : Nat)

/-- A product that is no number leaves `fFma` none, whatever is added. -/
theorem fFma_nan {u v : FVal} {iv : Bool} (h : vMul u v = (.nan false, iv)) (x : FVal) :
    fFma t r u v x = (canonNaN t, if iv || x.isSig then 0x01 else 0) := by
  rw [fFma, h, vAdd_nan _ (.inl rfl), finishVal_nan]
  cases iv <;> cases x.isSig <;> rfl

/-- `fAdd`, `fSub`, `fMul` and `fFma` of finite operands. -/
theorem exact_ops {na ma ea nb mb eb} (ha : fval t a = .fin na ma ea) (hb : fval t b = .fin nb mb eb) :
    let x := ratOf na ma ea
    let y := ratOf nb mb eb
    Gives t r (fAdd t r a b) (x + y) (if x = 0 ∧ na = nb then na else r.mode == .rdn) ∧
    Gives t r (fSub t r a b) (x - y) (if x = 0 ∧ na ≠ nb then na else r.mode == .rdn) ∧
    Gives t r (fMul t r a b) (x * y) (na != nb) ∧
    ∀ nc mc ec, Gives t r (fFma t r (fval t a) (fval t b) (.fin nc mc ec)) (x * y + ratOf nc mc ec)
      (if ratOf nc mc ec = 0 ∧ (na != nb) = nc then nc else r.mode == .rdn) := by
  refine ⟨?add, ?sub, ?mul, fun nc mc ec => ?fma⟩
  case add =>
    rw [fAdd, ha, hb]
    refine gives_congr (gives_sum t r na nb ma mb ea eb) rfl fun h0 => ?_
    by_cases hn : na = nb
    · subst hn
      rw [if_pos (by simp), if_pos ⟨(ratOf_add_eq_zero h0).1, rfl⟩]
    · rw [if_neg (by simpa using hn), if_neg fun h => hn h.2]
  case sub =>
    rw [fSub, ha, hb]
    refine gives_congr (gives_sum t r na (!nb) ma mb ea eb) (by rw [ratOf_neg, sub_eq_add_neg]) fun h0 => ?_
    by_cases hn : na = !nb
    · subst hn
      rw [if_pos (by simp), if_pos ⟨(ratOf_add_eq_zero h0).1, by cases nb <;> decide⟩]
    · rw [if_neg (by simpa using hn), if_neg fun h => hn (by revert h; cases na <;> cases nb <;> simp)]
  case mul =>
    rw [fMul, ha, hb]
    exact gives_product ..
  case fma =>
    rw [fFma, ha, hb]
    refine gives_congr (gives_sum t r (na != nb) nc (ma * mb) mc (ea + eb) ec) (by rw [ratOf_mul]) fun h0 => ?_
    by_cases hn : (na != nb) = nc
    · rw [hn] at h0 ⊢
      rw [if_pos (by simp), if_pos ⟨(ratOf_add_eq_zero h0).2, rfl⟩]
    · rw [if_neg (by simpa using hn), if_neg fun h => hn h.2]

/-- What a NaN operand gives. -/
theorem nan_ops (h : (fval t a).isNaN = true ∨ (fval t b).isNaN = true) :
    let invalid := (canonNaN t, if (fval t a).isSig || (fval t b).isSig then (0x01 : BitVec 7) else 0)
    fAdd t r a b = invalid ∧ fSub t r a b = invalid ∧ fMul t r a b = invalid ∧
      ∀ x, fFma t r (fval t a) (fval t b) x
        = (canonNaN t, if (fval t a).isSig || (fval t b).isSig || x.isSig then 0x01 else 0) := by
  refine ⟨?_, ?_, ?_, fFma_nan t r (vMul_nan h)⟩
  · rw [fAdd, vAdd_nan _ h, finishVal_nan]
  · rw [fSub, vAdd_nan _ (by rwa [isNaN_negate]), finishVal_nan, isSig_negate]
  · rw [fMul, vMul_nan h, finishVal_nan]

/-- Infinities that cancel, and an infinity times zero. -/
theorem inf_ops {n : Bool} (h : fval t a = .inf n) :
    (fval t b = .inf (!n) → fAdd t r a b = (canonNaN t, 0x01)) ∧ (fval t b = .inf n → fSub t r a b = (canonNaN t, 0x01)) ∧
    ((fval t b).isZero = true → fMul t r a b = (canonNaN t, 0x01) ∧ fMul t r b a = (canonNaN t, 0x01) ∧
      ∀ x, fFma t r (fval t a) (fval t b) x = (canonNaN t, 0x01)) := by
  refine ⟨fun hb => ?_, fun hb => ?_, fun hb => ?_⟩
  · rw [fAdd, h, hb]
    have hadd : vAdd r.mode (.inf n) (.inf !n) = (.nan false, true) := by cases n <;> rfl
    rw [hadd, finishVal_nan]; rfl
  · rw [fSub, h, hb]
    have hadd : vAdd r.mode (.inf n) (FVal.inf n).negate = (.nan false, true) := by cases n <;> rfl
    rw [hadd, finishVal_nan]; rfl
  · obtain ⟨hab, hba⟩ := vMul_inf_zero n hb
    refine ⟨?_, ?_, fun x => ?_⟩
    · rw [fMul, h, hab, finishVal_nan]; rfl
    · rw [fMul, h, hba, finishVal_nan]; rfl
    · rw [h, fFma_nan t r hab]; rfl

end

end Sys2Proof.Machine
end

section
/-! The codes of a float type with infinities, and the values that they stand for. -/

namespace Sys2Proof.Machine

/-! ## The finite values of a float type (R68) -/

/-- The exponent of the least unit of a type. -/
def expMin (t : Ty) : Int := 1 - (ffmt t).bias - (ffmt t).mb

/-- The exponent of the unit of the greatest finite values. -/
def expMax (t : Ty) : Int := 2 ^ (ffmt t).eb - 2 - (ffmt t).bias - (ffmt t).mb

/-- A code of a type with infinities: exponent field, then significand. -/
theorem fval_eq {t : Ty} (ht : t.isLaneFloat = true) (c : Nat) : fval t c =
    let neg := c.testBit ((ffmt t).eb + (ffmt t).mb)
    let ex := c / 2 ^ (ffmt t).mb % 2 ^ (ffmt t).eb
    let m := c % 2 ^ (ffmt t).mb
    if ex = 2 ^ (ffmt t).eb - 1 then (if m = 0 then .inf neg else .nan (!m.testBit ((ffmt t).mb - 1)))
    else if ex = 0 then .fin neg m (expMin t)
    else .fin neg (2 ^ (ffmt t).mb + m) ((ex : Int) - (ffmt t).bias - (ffmt t).mb) := by
  have hinf : (ffmt t).hasInf = true ∧ (t == .e4m3) = false ∧ decide (t ≠ .e5m2) = true := by
    cases t with
    | f32 | f16 | bf16 => exact ⟨rfl, rfl, rfl⟩
    | _ => exact absurd ht (by decide)
  obtain ⟨hi, h4, h5⟩ := hinf
  simp only [fval, hi, h4, h5, expMin, Bool.and_true, Bool.and_false, Bool.false_and, Bool.true_and, decide_eq_true_eq,
    Bool.false_eq_true, if_false]

/-- What every finite value is: a significand of mb + 1 bits at an exponent within the range. -/
theorem fval_fin_bounds {t : Ty} (ht : t.isLaneFloat = true) {c m : Nat} {n : Bool} {e : Int} (h : fval t c = .fin n m e) :
    m < 2 ^ ((ffmt t).mb + 1) ∧ expMin t ≤ e ∧ e ≤ expMax t := by
  have hm := Nat.mod_lt c (Nat.two_pow_pos (ffmt t).mb)
  have hex := Nat.mod_lt (c / 2 ^ (ffmt t).mb) (Nat.two_pow_pos (ffmt t).eb)
  have hrange : expMin t ≤ expMax t := by
    cases t with
    | f32 | f16 | bf16 => decide
    | _ => exact absurd ht (by decide)
  have hpow : 2 ^ ((ffmt t).mb + 1) = 2 * 2 ^ (ffmt t).mb := Nat.pow_succ'
  have hcast : (2 : Int) ^ (ffmt t).eb = ((2 ^ (ffmt t).eb : Nat) : Int) := by push_cast; rfl
  rw [fval_eq ht] at h
  dsimp only at h
  split_ifs at h with htop h0
  · cases h
    exact ⟨by omega, le_refl _, hrange⟩
  · cases h
    refine ⟨by omega, ?_, ?_⟩
    · rw [expMin]; omega
    · rw [expMax, hcast]; omega

/-- The value of a code below infinity's, with a sign. -/
theorem fval_withSign {t : Ty} (ht : t.isLaneFloat = true) (neg : Bool) {c : Nat} (hc : c < infCode t) :
    fval t (withSign t neg c) = if c < 2 ^ (ffmt t).mb then .fin neg c (expMin t)
      else .fin neg (2 ^ (ffmt t).mb + c % 2 ^ (ffmt t).mb) ((c / 2 ^ (ffmt t).mb : Nat) - (ffmt t).bias - (ffmt t).mb) := by
  have hA := Nat.two_pow_pos (ffmt t).mb
  have hE := Nat.two_pow_pos (ffmt t).eb
  have hdiv : c / 2 ^ (ffmt t).mb < 2 ^ (ffmt t).eb - 1 := (Nat.div_lt_iff_lt_mul hA).2 hc
  have hsign : withSign t neg c = 2 ^ ((ffmt t).eb + (ffmt t).mb) * bit neg + c := by
    cases neg <;> simp [withSign, signBit, bit, Nat.add_comm]
  have hlt : c < 2 ^ ((ffmt t).eb + (ffmt t).mb) := by
    rw [Nat.pow_add]
    exact Nat.lt_of_lt_of_le hc (Nat.mul_le_mul_right _ (Nat.sub_le _ _))
  have hneg : (withSign t neg c).testBit ((ffmt t).eb + (ffmt t).mb) = neg := by
    rw [hsign, Nat.testBit_two_pow_mul_add _ hlt, if_neg (by omega), Nat.sub_self]
    cases neg <;> rfl
  have hquot : withSign t neg c / 2 ^ (ffmt t).mb % 2 ^ (ffmt t).eb = c / 2 ^ (ffmt t).mb := by
    rw [hsign, Nat.add_comm (ffmt t).eb, Nat.pow_add, Nat.mul_assoc, Nat.mul_add_div hA, Nat.mul_add_mod, Nat.mod_eq_of_lt (by omega)]
  have hrem : withSign t neg c % 2 ^ (ffmt t).mb = c % 2 ^ (ffmt t).mb := by
    rw [hsign, Nat.add_comm (ffmt t).eb, Nat.pow_add, Nat.mul_assoc, Nat.mul_add_mod]
  rw [fval_eq ht]
  simp only [hneg, hquot, hrem]
  rw [if_neg (by omega)]
  by_cases hs : c < 2 ^ (ffmt t).mb
  · rw [if_pos (Nat.div_eq_of_lt hs), if_pos hs, Nat.mod_eq_of_lt hs]
  · rw [if_neg (fun h => hs ((Nat.div_eq_zero_iff_lt hA).1 h)), if_neg hs]

/-- The code of `r` units of 2^q. -/
def codeOf (t : Ty) (r : Nat) (q : Int) : Nat :=
  if r < 2 ^ (ffmt t).mb then r
  else (q + (ffmt t).mb + (ffmt t).bias).toNat * 2 ^ (ffmt t).mb + (r - 2 ^ (ffmt t).mb)

/-- A magnitude that does not pass the greatest finite one is at an exponent below the last, or at the last with room left. -/
theorem units_fit {t : Ty} {r : Nat} {q : Int} (hq : expMin t ≤ q) (hle : expMin t ≤ expMax t)
    (hr : 2 ^ (ffmt t).mb ≤ r)
    (hlim : r * 2 ^ (q - expMin t).toNat ≤ (2 ^ ((ffmt t).mb + 1) - 1) * 2 ^ (expMax t - expMin t).toNat) :
    q ≤ expMax t ∧ (2 ^ ((ffmt t).mb + 1) ≤ r → q < expMax t) := by
  have hlt : r * 2 ^ (q - expMin t).toNat < 2 ^ ((ffmt t).mb + 1) * 2 ^ (expMax t - expMin t).toNat :=
    Nat.lt_of_le_of_lt hlim (Nat.mul_lt_mul_of_pos_right (Nat.sub_lt (Nat.two_pow_pos _) Nat.one_pos) (Nat.two_pow_pos _))
  have hexp : ∀ k, 2 ^ k ≤ r → k + (q - expMin t).toNat < (ffmt t).mb + 1 + (expMax t - expMin t).toNat := by
    intro k hk
    refine (Nat.pow_lt_pow_iff_right (a := 2) (by decide)).1 ?_
    rw [Nat.pow_add, Nat.pow_add]
    exact Nat.lt_of_le_of_lt (Nat.mul_le_mul_right _ hk) hlt
  exact ⟨by have := hexp _ hr; omega, fun h => by have := hexp _ h; omega⟩

/-- The value of a code given by its exponent field and its significand. -/
theorem fval_fields {t : Ty} (ht : t.isLaneFloat = true) (neg : Bool) {w o : Nat} (hw : 0 < w)
    (hwmax : w < 2 ^ (ffmt t).eb - 1) (ho : o < 2 ^ (ffmt t).mb) :
    fval t (withSign t neg (w * 2 ^ (ffmt t).mb + o))
      = .fin neg (2 ^ (ffmt t).mb + o) ((w : Int) - (ffmt t).bias - (ffmt t).mb) := by
  have hA := Nat.two_pow_pos (ffmt t).mb
  have hlow : 2 ^ (ffmt t).mb ≤ w * 2 ^ (ffmt t).mb := Nat.le_mul_of_pos_left _ hw
  have hinf : w * 2 ^ (ffmt t).mb + o < infCode t :=
    calc w * 2 ^ (ffmt t).mb + o < w * 2 ^ (ffmt t).mb + 2 ^ (ffmt t).mb := by omega
      _ = (w + 1) * 2 ^ (ffmt t).mb := (Nat.succ_mul ..).symm
      _ ≤ infCode t := Nat.mul_le_mul_right _ hwmax
  have hmod : (w * 2 ^ (ffmt t).mb + o) % 2 ^ (ffmt t).mb = o := by
    rw [Nat.mul_comm, Nat.mul_add_mod, Nat.mod_eq_of_lt ho]
  have hdiv : (w * 2 ^ (ffmt t).mb + o) / 2 ^ (ffmt t).mb = w := by
    rw [Nat.mul_comm, Nat.mul_add_div hA, Nat.div_eq_of_lt ho, Nat.add_zero]
  rw [fval_withSign ht neg hinf, if_neg (by omega), hmod, hdiv]

/-- A code stands for the units that it was made of; even units have an even significand. -/
theorem fval_codeOf {t : Ty} (ht : t.isLaneFloat = true) (neg : Bool) {r : Nat} {q : Int} (hq : expMin t ≤ q)
    (hr : r ≤ 2 ^ ((ffmt t).mb + 1)) (hsub : r < 2 ^ (ffmt t).mb → q = expMin t)
    (hlim : r * 2 ^ (q - expMin t).toNat ≤ (2 ^ ((ffmt t).mb + 1) - 1) * 2 ^ (expMax t - expMin t).toNat) :
    ∃ (m : Nat) (e : Int), fval t (withSign t neg (codeOf t r q)) = .fin neg m e ∧ ((m : ℚ) * 2 ^ e = r * 2 ^ q) ∧
      (r % 2 = 0 → m % 2 = 0) := by
  have hfmt : expMin t ≤ expMax t ∧ 0 < (ffmt t).mb ∧ 1 < 2 ^ (ffmt t).eb := by
    cases t with
    | f32 | f16 | bf16 => decide
    | _ => exact absurd ht (by decide)
  obtain ⟨hle, hmb, heb⟩ := hfmt
  have hA := Nat.two_pow_pos (ffmt t).mb
  have hpow : 2 ^ ((ffmt t).mb + 1) = 2 * 2 ^ (ffmt t).mb := Nat.pow_succ'
  by_cases hs : r < 2 ^ (ffmt t).mb
  · have hc : codeOf t r q = r := if_pos hs
    have hinf : r < infCode t := Nat.lt_of_lt_of_le hs (Nat.le_mul_of_pos_left _ (by omega))
    exact ⟨r, q, by rw [hc, fval_withSign ht neg hinf, if_pos hs, ← hsub hs], rfl, id⟩
  · obtain ⟨hqmax, hqlt⟩ := units_fit hq hle (Nat.le_of_not_lt hs) hlim
    have hw : ((q + (ffmt t).mb + (ffmt t).bias).toNat : Int) = q + (ffmt t).mb + (ffmt t).bias :=
      Int.toNat_of_nonneg (by rw [expMin] at hq; omega)
    have hcast : (2 : Int) ^ (ffmt t).eb = ((2 ^ (ffmt t).eb : Nat) : Int) := by push_cast; rfl
    generalize hwd : (q + (ffmt t).mb + (ffmt t).bias).toNat = w at hw
    have hc : codeOf t r q = w * 2 ^ (ffmt t).mb + (r - 2 ^ (ffmt t).mb) := by rw [codeOf, if_neg hs, hwd]
    have hpos : 0 < w := by rw [expMin] at hq; omega
    rcases Nat.lt_or_ge r (2 ^ ((ffmt t).mb + 1)) with hr' | hr'
    · refine ⟨r, q, ?_, rfl, id⟩
      rw [hc, fval_fields ht neg hpos (by rw [expMax, hcast] at hqmax; omega) (by omega),
        show 2 ^ (ffmt t).mb + (r - 2 ^ (ffmt t).mb) = r by omega, hw]
      congr 1; omega
    · have hreq : r = 2 * 2 ^ (ffmt t).mb := by omega
      have hqtop := hqlt hr'
      refine ⟨2 ^ (ffmt t).mb, q + 1, ?_, ?_, fun _ => ?_⟩
      · rw [hc, hreq, show w * 2 ^ (ffmt t).mb + (2 * 2 ^ (ffmt t).mb - 2 ^ (ffmt t).mb) = (w + 1) * 2 ^ (ffmt t).mb + 0 by
          rw [Nat.succ_mul w]; omega, fval_fields ht neg (Nat.succ_pos w) (by rw [expMax, hcast] at hqtop; omega) hA]
        congr 1
        push_cast; omega
      · rw [hreq, zpow_add_one₀ (by norm_num)]
        push_cast; ring
      · obtain ⟨k, hk⟩ := Nat.exists_eq_succ_of_ne_zero (Nat.pos_iff_ne_zero.1 hmb)
        rw [hk, Nat.pow_succ]; omega

end Sys2Proof.Machine
end

section
/-! What `Round` delivers: a magnitude on the grid of the result's unit, the neighbour that a mode takes, and why no other finite
value of the type is better. -/

namespace Sys2Proof.Machine

/-! ## Rounding to a grid (R75) -/

/-- The mode rounds a magnitude of this sign toward zero. -/
def Inward (mode : RMode) (neg : Bool) : Prop := mode = .rtz ∨ mode = .rdn ∧ neg = false ∨ mode = .rup ∧ neg = true

/-- The mode rounds a magnitude of this sign away from zero. -/
def Outward (mode : RMode) (neg : Bool) : Prop := mode = .rdn ∧ neg = true ∨ mode = .rup ∧ neg = false

/-- `r` units of `u` are the magnitude `x` rounded: of the two neighbours `k` and `k + 1` that enclose it the one that the mode
takes. -/
structure RoundsTo (mode : RMode) (neg : Bool) (x u : ℚ) (k r : Nat) : Prop where
  lo : k * u ≤ x
  hi : x < (k + 1) * u
  inward : Inward mode neg → r = k
  outward : Outward mode neg → x = k * u ∧ r = k ∨ k * u < x ∧ r = k + 1
  nearest : mode = .rne → r = k ∧ 2 * (x - k * u) ≤ u ∧ (2 * (x - k * u) = u → k % 2 = 0) ∨
    r = k + 1 ∧ u ≤ 2 * (x - k * u) ∧ (2 * (x - k * u) = u → k % 2 = 1)

/-- The magnitude m x 2^e in units of 2^q, in whole units and a remainder. -/
theorem quantize_parts (mode : RMode) (neg : Bool) (m : Nat) (e q : Int) :
    ∃ (k rem sh : Nat) (v : Int), (m : ℚ) * 2 ^ e = (k * 2 ^ sh + rem) * 2 ^ v ∧ (2 : ℚ) ^ q = 2 ^ sh * 2 ^ v ∧
      rem < 2 ^ sh ∧ (quantize mode neg m e q false).1 = k + bit (roundsUp mode neg k rem sh false) := by
  unfold quantize
  by_cases h : e < q
  · refine ⟨m / 2 ^ (q - e).toNat, m % 2 ^ (q - e).toNat, (q - e).toNat, e, ?_, ?_, Nat.mod_lt _ (Nat.two_pow_pos _), ?_⟩
    · have hm : (m : ℚ) = (m / 2 ^ (q - e).toNat : Nat) * 2 ^ (q - e).toNat + (m % 2 ^ (q - e).toNat : Nat) := by
        exact_mod_cast (Nat.div_add_mod' m _).symm
      rw [← hm]
    · rw [← zpow_natCast, ← zpow_add₀ (by norm_num), Int.toNat_of_nonneg (by omega), Int.sub_add_cancel]
    · rw [if_pos h]
  · refine ⟨m * 2 ^ (e - q).toNat, 0, 0, q, ?_, by simp, by simp, ?_⟩
    · have he : (2 : ℚ) ^ e = 2 ^ (e - q).toNat * 2 ^ q := by
        rw [← zpow_natCast, ← zpow_add₀ (by norm_num), Int.toNat_of_nonneg (by omega), Int.sub_add_cancel]
      rw [he]; push_cast; ring
    · rw [if_neg h]

/-- The model's rounding takes the neighbour that its mode asks for. -/
theorem quantize_roundsTo (mode : RMode) (neg : Bool) (m : Nat) (e q : Int) :
    ∃ k, RoundsTo mode neg (m * 2 ^ e) (2 ^ q) k (quantize mode neg m e q false).1 := by
  obtain ⟨k, rem, sh, v, hx, hu, hrem, hr⟩ := quantize_parts mode neg m e q
  have hv : (0 : ℚ) < 2 ^ v := by positivity
  have hremq : (rem : ℚ) < 2 ^ sh := by exact_mod_cast hrem
  have hdiff : (m : ℚ) * 2 ^ e - k * 2 ^ q = rem * 2 ^ v := by rw [hx, hu]; ring
  have hrem0 : (0 : ℚ) ≤ rem * 2 ^ v := by positivity
  have hlt : (rem : ℚ) * 2 ^ v < 2 ^ q := by rw [hu]; exact mul_lt_mul_of_pos_right hremq hv
  rw [hr]
  refine ⟨k, by linarith, by linarith, ?inward, ?outward, ?nearest⟩
  case inward =>
    rintro (rfl | ⟨rfl, rfl⟩ | ⟨rfl, rfl⟩) <;> simp [roundsUp, bit]
  case outward =>
    intro hmode
    by_cases h0 : rem = 0
    · left
      refine ⟨by rw [h0] at hdiff; push_cast at hdiff; linarith, ?_⟩
      obtain ⟨rfl, rfl⟩ | ⟨rfl, rfl⟩ := hmode <;> simp [roundsUp, bit, h0]
    · right
      have hpos : (0 : ℚ) < rem * 2 ^ v := mul_pos (by exact_mod_cast Nat.pos_of_ne_zero h0) hv
      refine ⟨by linarith, ?_⟩
      obtain ⟨rfl, rfl⟩ | ⟨rfl, rfl⟩ := hmode <;> simp [roundsUp, bit, h0]
  case nearest =>
    rintro rfl
    have htwo : 2 * ((m : ℚ) * 2 ^ e - k * 2 ^ q) = (2 * rem : Nat) * 2 ^ v := by rw [hdiff]; push_cast; ring
    have hunit : (2 : ℚ) ^ q = (2 ^ sh : Nat) * 2 ^ v := by rw [hu]; push_cast; rfl
    rw [htwo, hunit, mul_le_mul_iff_left₀ hv, mul_le_mul_iff_left₀ hv, mul_left_inj' hv.ne', Nat.cast_le, Nat.cast_le, Nat.cast_inj]
    rcases Nat.lt_trichotomy (2 * rem) (2 ^ sh) with h | h | h
    · exact .inl ⟨by simp [roundsUp, bit, h.ne, h.le], h.le, fun heq => absurd heq h.ne⟩
    · have hsh : 0 < sh := Nat.pos_of_ne_zero fun h0 => by rw [h0] at h; omega
      rcases Nat.mod_two_eq_zero_or_one k with hk | hk
      · exact .inl ⟨by simp [roundsUp, bit, h, hk], h.le, fun _ => hk⟩
      · exact .inr ⟨by simp [roundsUp, bit, h, hk, hsh], h.ge, fun _ => hk⟩
    · exact .inr ⟨by simp [roundsUp, bit, h], h.le, fun heq => absurd heq h.ne'⟩

/-- What a mode asks of a delivered magnitude `y` of `x` beside another value `z`; `even` is asked of a tie. -/
structure Best (mode : RMode) (neg : Bool) (x y z : ℚ) (even : Prop) : Prop where
  inward : Inward mode neg → y ≤ x ∧ (z ≤ x → z ≤ y)
  outward : Outward mode neg → x ≤ y ∧ (x ≤ z → y ≤ z)
  nearest : mode = .rne → |y - x| ≤ |z - x| ∧ (|y - x| = |z - x| → y ≠ z → even)

/-- A value that does not lie between the two neighbours is never better than the one that the mode takes. -/
theorem RoundsTo.best {mode : RMode} {neg : Bool} {x u z : ℚ} {k r : Nat} {even : Prop} (h : RoundsTo mode neg x u k r)
    (hz : z ≤ k * u ∨ (k + 1) * u ≤ z) (heven : r % 2 = 0 → even) : Best mode neg x (r * u) z even := by
  obtain ⟨hlo, hhi, hin, hout, hnear⟩ := h
  refine ⟨fun hmode => ?_, fun hmode => ?_, fun hmode => ?_⟩
  · rw [hin hmode]
    refine ⟨hlo, fun hzx => ?_⟩
    rcases hz with hz | hz
    · exact hz
    · linarith
  · obtain ⟨hx, rfl⟩ | ⟨hx, rfl⟩ := hout hmode
    · exact ⟨hx.le, fun hxz => hx ▸ hxz⟩
    · push_cast
      refine ⟨hhi.le, fun hxz => ?_⟩
      rcases hz with hz | hz
      · linarith
      · exact hz
  · obtain ⟨rfl, hle, htie⟩ | ⟨rfl, hle, htie⟩ := hnear hmode
    · rw [abs_of_nonpos (by linarith)]
      rcases hz with hz | hz
      · rw [abs_of_nonpos (by linarith)]
        exact ⟨by linarith, fun heq hne => absurd (by linarith) hne⟩
      · rw [abs_of_nonneg (by linarith)]
        exact ⟨by linarith, fun heq _ => heven (htie (by linarith))⟩
    · push_cast
      rw [abs_of_nonneg (by linarith)]
      rcases hz with hz | hz
      · rw [abs_of_nonpos (by linarith)]
        refine ⟨by linarith, fun heq _ => heven ?_⟩
        have := htie (by linarith)
        omega
      · rw [abs_of_nonneg (by linarith)]
        exact ⟨by linarith, fun heq hne => absurd (by linarith) hne⟩

/-- No finite value lies strictly between two neighbours of the grid that a magnitude is rounded to. -/
theorem grid_gap {t : Ty} {q : Int} {k m : Nat} {e : Int} (b : Bool) (hm : m < 2 ^ ((ffmt t).mb + 1)) (he : expMin t ≤ e)
    (hk : q = expMin t ∨ 2 ^ (ffmt t).mb ≤ k) : ratOf b m e ≤ k * 2 ^ q ∨ (k + 1) * 2 ^ q ≤ ratOf b m e := by
  have hu : (0 : ℚ) < 2 ^ q := by positivity
  have hw : (0 : ℚ) < 2 ^ e := by positivity
  have hk0 : (0 : ℚ) ≤ k * 2 ^ q := by positivity
  cases b with
  | true =>
    left
    have : (0 : ℚ) ≤ m * 2 ^ e := by positivity
    simp only [ratOf, if_true]
    linarith
  | false =>
    simp only [ratOf, Bool.false_eq_true, if_false, one_mul]
    rcases le_or_gt q e with hqe | hqe
    · have hwe : (2 : ℚ) ^ e = (2 ^ (e - q).toNat : Nat) * 2 ^ q := by
        rw [Nat.cast_pow, Nat.cast_ofNat, ← zpow_natCast, ← zpow_add₀ (by norm_num), Int.toNat_of_nonneg (by omega), Int.sub_add_cancel]
      rw [hwe, ← mul_assoc, mul_le_mul_iff_left₀ hu, mul_le_mul_iff_left₀ hu]
      exact_mod_cast Nat.lt_or_ge k (m * 2 ^ (e - q).toNat) |>.symm
    · left
      have hbig : 2 ^ (ffmt t).mb ≤ k := hk.resolve_left (by omega)
      have hstep : (2 : ℚ) * 2 ^ e ≤ 2 ^ q := by
        rw [← zpow_one_add₀ (by norm_num)]
        exact zpow_le_zpow_right₀ (by norm_num) (by omega)
      have hmle : (m : ℚ) ≤ 2 * k := by
        have : 2 ^ ((ffmt t).mb + 1) = 2 * 2 ^ (ffmt t).mb := Nat.pow_succ'
        exact_mod_cast (by omega : m ≤ 2 * k)
      calc (m : ℚ) * 2 ^ e ≤ 2 * k * 2 ^ e := mul_le_mul_of_nonneg_right hmle hw.le
        _ = k * (2 * 2 ^ e) := by ring
        _ ≤ k * 2 ^ q := mul_le_mul_of_nonneg_left hstep (Nat.cast_nonneg k)

/-! ## What `Round` delivers (R75) -/

/-- The exponent of the unit that a magnitude is rounded to. -/
def unitExp (t : Ty) (m : Nat) (e : Int) : Int := max (m.log2 + e - (ffmt t).mb) (expMin t)

/-- The greatest finite magnitude in least units. -/
def limitUnits (t : Ty) : Nat := (2 ^ ((ffmt t).mb + 1) - 1) * 2 ^ (expMax t - expMin t).toNat

theorem fval_maxFinite {t : Ty} (ht : t.isLaneFloat = true) (neg : Bool) :
    fval t (withSign t neg (maxFinite t)) = .fin neg (2 ^ ((ffmt t).mb + 1) - 1) (expMax t) := by
  cases t with
  | f32 | f16 | bf16 => cases neg <;> rfl
  | _ => exact absurd ht (by decide)

theorem fval_infCode {t : Ty} (ht : t.isLaneFloat = true) (neg : Bool) : fval t (withSign t neg (infCode t)) = .inf neg := by
  cases t with
  | f32 | f16 | bf16 => cases neg <;> rfl
  | _ => exact absurd ht (by decide)

/-- The code that `Round` delivers: the overflow result above the greatest finite magnitude, else the rounded units. -/
theorem roundTo_code {t : Ty} (ht : t.isLaneFloat = true) (mode : RMode) (neg : Bool) {m : Nat} (hm : 0 < m) (e : Int) :
    (roundTo t mode false neg m e false).1 =
      if limitUnits t < (quantize mode neg m e (unitExp t m e) false).1 * 2 ^ (unitExp t m e - expMin t).toNat
      then overflowCode t mode false neg
      else withSign t neg (codeOf t (quantize mode neg m e (unitExp t m e) false).1 (unitExp t m e)) := by
  have hmax := fval_maxFinite ht false
  rw [withSign, if_neg (by decide)] at hmax
  rw [roundTo, if_neg (by simp; omega)]
  simp only [hmax]
  rw [apply_ite Prod.fst]
  rfl

/-- A finite overflow result is the greatest finite value, by the modes that round toward zero. -/
theorem overflow_fin {t : Ty} (ht : t.isLaneFloat = true) {mode : RMode} {neg n : Bool} {m : Nat} {e : Int}
    (h : fval t (overflowCode t mode false neg) = .fin n m e) :
    Inward mode neg ∧ n = neg ∧ m = 2 ^ ((ffmt t).mb + 1) - 1 ∧ e = expMax t := by
  have hinf : (ffmt t).hasInf = true := by
    cases t with
    | f32 | f16 | bf16 => rfl
    | _ => exact absurd ht (by decide)
  have hfin : fval t (withSign t neg (maxFinite t)) = .fin n m e →
      n = neg ∧ m = 2 ^ ((ffmt t).mb + 1) - 1 ∧ e = expMax t := by
    rw [fval_maxFinite ht]
    rintro ⟨⟩
    exact ⟨rfl, rfl, rfl⟩
  have hnot : fval t (withSign t neg (infCode t)) ≠ .fin n m e := by
    rw [fval_infCode ht]; simp
  simp only [overflowCode, hinf, Bool.not_false, Bool.true_and] at h
  cases mode with
  | rne => exact absurd h hnot
  | rtz => exact ⟨.inl rfl, hfin h⟩
  | rdn =>
    cases neg with
    | false => exact ⟨.inr (.inl ⟨rfl, rfl⟩), hfin h⟩
    | true => exact absurd h hnot
  | rup =>
    cases neg with
    | false => exact absurd h hnot
    | true => exact ⟨.inr (.inr ⟨rfl, rfl⟩), hfin h⟩

theorem Inward.not_outward {mode : RMode} {neg : Bool} (h : Inward mode neg) : ¬ Outward mode neg := by
  rintro (⟨rfl, rfl⟩ | ⟨rfl, rfl⟩) <;> simp [Inward] at h

theorem Inward.ne_rne {mode : RMode} {neg : Bool} (h : Inward mode neg) : mode ≠ .rne := by
  rintro rfl; simp [Inward] at h

/-- Every finite value is at most the greatest one. -/
theorem ratOf_le_limit {t : Ty} (ht : t.isLaneFloat = true) {c m : Nat} {n : Bool} {e : Int} (h : fval t c = .fin n m e) (b : Bool) :
    ratOf b m e ≤ (2 ^ ((ffmt t).mb + 1) - 1 : Nat) * 2 ^ expMax t := by
  obtain ⟨hm, -, he⟩ := fval_fin_bounds ht h
  have hpow : (2 : ℚ) ^ e ≤ 2 ^ expMax t := zpow_le_zpow_right₀ (by norm_num) he
  have hmle : (m : ℚ) ≤ (2 ^ ((ffmt t).mb + 1) - 1 : Nat) := by exact_mod_cast Nat.le_sub_one_of_lt hm
  have hmag : (m : ℚ) * 2 ^ e ≤ (2 ^ ((ffmt t).mb + 1) - 1 : Nat) * 2 ^ expMax t :=
    mul_le_mul hmle hpow (by positivity) (Nat.cast_nonneg _)
  have h0 : (0 : ℚ) ≤ m * 2 ^ e := by positivity
  cases b <;> simp only [ratOf, Bool.false_eq_true, if_true, if_false] <;> linarith

/-- Units of a power of two in units of a smaller one. -/
theorem units_rescale (r : Nat) {p q : Int} (h : p ≤ q) : (r : ℚ) * 2 ^ q = (r * 2 ^ (q - p).toNat : Nat) * 2 ^ p := by
  rw [Nat.cast_mul, Nat.cast_pow, Nat.cast_ofNat, mul_assoc, ← zpow_natCast, ← zpow_add₀ (by norm_num),
    Int.toNat_of_nonneg (by omega), Int.sub_add_cancel]

/-- A rounded magnitude has at most mb + 1 bits, and mb + 1 bits where its unit is not the least one. -/
theorem units_bounds {t : Ty} {mode : RMode} {neg : Bool} {m k r : Nat} {e : Int} (hm : 0 < m)
    (h : RoundsTo mode neg (m * 2 ^ e) (2 ^ unitExp t m e) k r) :
    k < 2 ^ ((ffmt t).mb + 1) ∧ (unitExp t m e = expMin t ∨ 2 ^ (ffmt t).mb ≤ k) := by
  have hu : (0 : ℚ) < 2 ^ unitExp t m e := by positivity
  have hw : (0 : ℚ) < 2 ^ e := by positivity
  have hlog : 2 ^ m.log2 ≤ m := Nat.log2_self_le (by omega)
  have hlog' : m < 2 ^ (m.log2 + 1) := Nat.lt_log2_self
  have htop : (m.log2 : Int) + e - (ffmt t).mb ≤ unitExp t m e := le_max_left _ _
  constructor
  · have hx : (m : ℚ) * 2 ^ e < (2 ^ ((ffmt t).mb + 1) : Nat) * 2 ^ unitExp t m e :=
      calc (m : ℚ) * 2 ^ e < (2 ^ (m.log2 + 1) : Nat) * 2 ^ e := mul_lt_mul_of_pos_right (by exact_mod_cast hlog') hw
        _ = 2 ^ ((m.log2 + 1 : Nat) + e) := by rw [zpow_add₀ (by norm_num), zpow_natCast]; push_cast; rfl
        _ ≤ 2 ^ (((ffmt t).mb + 1 : Nat) + unitExp t m e) := zpow_le_zpow_right₀ (by norm_num) (by push_cast; omega)
        _ = (2 ^ ((ffmt t).mb + 1) : Nat) * 2 ^ unitExp t m e := by rw [zpow_add₀ (by norm_num), zpow_natCast]; push_cast; rfl
    exact_mod_cast lt_of_mul_lt_mul_right (lt_of_le_of_lt h.lo hx) hu.le
  · rcases max_choice ((m.log2 : Int) + e - (ffmt t).mb) (expMin t) with hq | hq
    · right
      replace hq : unitExp t m e = m.log2 + e - (ffmt t).mb := hq
      have hx : (2 ^ (ffmt t).mb : Nat) * (2 : ℚ) ^ unitExp t m e ≤ m * 2 ^ e :=
        calc (2 ^ (ffmt t).mb : Nat) * (2 : ℚ) ^ unitExp t m e = 2 ^ ((ffmt t).mb + unitExp t m e) := by
              rw [zpow_add₀ (by norm_num), zpow_natCast]; push_cast; rfl
          _ = (2 ^ m.log2 : Nat) * 2 ^ e := by
              rw [hq, show ((ffmt t).mb : Int) + (m.log2 + e - (ffmt t).mb) = m.log2 + e by omega, zpow_add₀ (by norm_num), zpow_natCast]
              push_cast; rfl
          _ ≤ m * 2 ^ e := mul_le_mul_of_nonneg_right (by exact_mod_cast hlog) hw.le
      have hlt : ((2 ^ (ffmt t).mb : Nat) : ℚ) < k + 1 := lt_of_mul_lt_mul_right (lt_of_le_of_lt hx h.hi) hu.le
      exact Nat.le_of_lt_succ (by exact_mod_cast hlt)
    · exact .inl hq

theorem RoundsTo.le_succ {mode : RMode} {neg : Bool} {x u : ℚ} {k r : Nat} (h : RoundsTo mode neg x u k r) : k ≤ r ∧ r ≤ k + 1 := by
  have hmode : Inward mode neg ∨ Outward mode neg ∨ mode = .rne := by
    cases mode <;> cases neg <;> simp [Inward, Outward]
  rcases hmode with hmode | hmode | hmode
  · have := h.inward hmode; omega
  · rcases h.outward hmode with ⟨-, hr⟩ | ⟨-, hr⟩ <;> omega
  · rcases h.nearest hmode with ⟨hr, -⟩ | ⟨hr, -⟩ <;> omega

/-- A finite result of `Round` beside any other finite value, both with the exact value's sign taken off. -/
theorem roundTo_best {t : Ty} (ht : t.isLaneFloat = true) {mode : RMode} {neg n n' : Bool} {m m₁ m' c : Nat} {e e₁ e' : Int}
    (hm : 0 < m) (hz : fval t c = .fin n' m' e') (hy : fval t (roundTo t mode false neg m e false).1 = .fin n m₁ e₁) (b : Bool) :
    n = neg ∧ Best mode neg (m * 2 ^ e) (m₁ * 2 ^ e₁) (ratOf b m' e') (m₁ % 2 = 0) := by
  obtain ⟨k, hround⟩ := quantize_roundsTo mode neg m e (unitExp t m e)
  obtain ⟨hk, hklow⟩ := units_bounds hm hround
  obtain ⟨hkr, hrk⟩ := hround.le_succ
  have hq : expMin t ≤ unitExp t m e := le_max_right _ _
  obtain ⟨hm', he', -⟩ := fval_fin_bounds ht hz
  rw [roundTo_code ht mode neg hm e] at hy
  split_ifs at hy with hbig
  · obtain ⟨hin, hn, rfl, rfl⟩ := overflow_fin ht hy
    have hlimit := ratOf_le_limit ht hz b
    have hle : expMin t ≤ expMax t := by
      cases t with
      | f32 | f16 | bf16 => decide
      | _ => exact absurd ht (by decide)
    have hx : ((2 ^ ((ffmt t).mb + 1) - 1 : Nat) : ℚ) * 2 ^ expMax t ≤ m * 2 ^ e := by
      refine le_trans ?_ hround.lo
      rw [hround.inward hin] at hbig
      rw [units_rescale _ hle, units_rescale _ hq]
      exact mul_le_mul_of_nonneg_right (by exact_mod_cast hbig.le) (by positivity)
    exact ⟨hn, fun _ => ⟨hx, fun _ => hlimit⟩, fun hout => absurd hout hin.not_outward, fun hne => absurd hne hin.ne_rne⟩
  · obtain ⟨m₂, e₂, hcode, hval, heven⟩ := fval_codeOf ht neg hq (by omega) (fun hs => hklow.resolve_right (by omega))
      (Nat.le_of_not_lt hbig)
    rw [hcode] at hy
    cases hy
    exact ⟨rfl, hval ▸ hround.best (grid_gap b hm' he' hklow) heven⟩

/-- The signed value of a rounding, from its magnitude's. -/
theorem Best.signed {mode : RMode} {neg : Bool} {x y z : ℚ} {even : Prop}
    (h : Best mode neg x y (if neg then -z else z) even) :
    let s : ℚ := if neg then -1 else 1
    (mode = .rne → |s * y - s * x| ≤ |z - s * x| ∧ (|s * y - s * x| = |z - s * x| → s * y ≠ z → even)) ∧
    (mode = .rdn ∨ mode = .rtz ∧ neg = false → s * y ≤ s * x ∧ (z ≤ s * x → z ≤ s * y)) ∧
    (mode = .rup ∨ mode = .rtz ∧ neg = true → s * x ≤ s * y ∧ (s * x ≤ z → s * y ≤ z)) := by
  obtain ⟨hin, hout, hnear⟩ := h
  cases neg with
  | false =>
    simp only [Bool.false_eq_true, if_false, one_mul] at *
    refine ⟨hnear, fun hmode => hin ?_, fun hmode => hout ?_⟩
    · rcases hmode with rfl | ⟨rfl, -⟩ <;> simp [Inward]
    · rcases hmode with rfl | ⟨-, h⟩
      · simp [Outward]
      · exact absurd h (by decide)
  | true =>
    simp only [if_true, neg_one_mul] at *
    refine ⟨fun hmode => ?_, fun hmode => ?_, fun hmode => ?_⟩
    · have hyx : |-y - -x| = |y - x| := by rw [← abs_neg]; congr 1; ring
      have hzx : |z - -x| = |-z - x| := by rw [← abs_neg]; congr 1; ring
      rw [hyx, hzx]
      exact ⟨(hnear hmode).1, fun heq hne => (hnear hmode).2 heq fun h => hne (by rw [h, neg_neg])⟩
    · have hmode' : Outward mode true := by
        rcases hmode with rfl | ⟨-, h⟩
        · simp [Outward]
        · exact absurd h (by decide)
      obtain ⟨hle, hmin⟩ := hout hmode'
      exact ⟨neg_le_neg hle, fun hz => le_neg_of_le_neg (hmin (le_neg_of_le_neg hz))⟩
    · have hmode' : Inward mode true := by
        rcases hmode with rfl | ⟨rfl, -⟩ <;> simp [Inward]
      obtain ⟨hle, hmax⟩ := hin hmode'
      exact ⟨neg_le_neg hle, fun hz => neg_le_of_neg_le (hmax (neg_le_of_neg_le hz))⟩

/-- Settles O26: a rounded magnitude is one of its two neighbours on the grid of the result's unit, and no finite value of the
type lies strictly between them. -/
theorem roundedResults : Obligations.RoundedResults := by
  unfold Obligations.RoundedResults
  refine ⟨fun t mode neg n n' m m₁ m' e e₁ e' c ht hm _ hz hy => ?_, fun t r a b ht => ?_⟩
  · obtain ⟨rfl, hbest⟩ := roundTo_best ht hm hz hy (n' != n)
    have hsign : ratOf (n' != n) m' e' = if n then -ratOf n' m' e' else ratOf n' m' e' := by
      cases n with
      | false => simp
      | true => simpa using ratOf_neg n' m' e'
    have hval : ∀ (m : Nat) (e : Int), ratOf n m e = (if n then -1 else 1) * (m * 2 ^ e) := fun m e => mul_assoc _ _ _
    rw [hsign] at hbest
    rw [hval, hval]
    exact hbest.signed
  · exact ⟨fun na ma ea nb mb eb ha hb => exact_ops t r a b ha hb, fun h => nan_ops t r a b h, fun n h => inf_ops t r a b h⟩

end Sys2Proof.Machine
end

section
/-! Scalar arithmetic (R91 to R96): each operation as arithmetic on the numbers that its operands stand for, its bits where
the manual speaks of bits, and what its instruction delivers. -/

namespace Sys2Proof.Machine

/-! ## Sums, products and shifts as numbers -/

theorem sub_eq_ofInt {w : Nat} (x y : BitVec w) : x - y = BitVec.ofInt w (x.toInt - y.toInt) := by
  rw [Int.sub_eq_add_neg, BitVec.ofInt_add, BitVec.ofInt_neg, BitVec.ofInt_toInt, BitVec.ofInt_toInt,
    BitVec.sub_eq_add_neg]

theorem mul_eq_ofInt {w : Nat} (x y : BitVec w) : x * y = BitVec.ofInt w (x.toInt * y.toInt) := by
  rw [BitVec.ofInt_mul, BitVec.ofInt_toInt, BitVec.ofInt_toInt]

theorem shiftLeft_eq_ofNat {w : Nat} (x : BitVec w) (n : Nat) : x <<< n = BitVec.ofNat w (x.toNat * 2 ^ n) := by
  apply BitVec.eq_of_toNat_eq
  rw [BitVec.toNat_shiftLeft, BitVec.toNat_ofNat, Nat.shiftLeft_eq]

theorem ushiftRight_eq_ofNat {w : Nat} (x : BitVec w) (n : Nat) : x >>> n = BitVec.ofNat w (x.toNat / 2 ^ n) := by
  rw [← Nat.shiftRight_eq_div_pow, ← BitVec.toNat_ushiftRight, BitVec.ofNat_toNat, BitVec.setWidth_eq]

theorem sshiftRight_eq_ofInt {w : Nat} (x : BitVec w) (n : Nat) : x.sshiftRight n = BitVec.ofInt w (x.toInt / 2 ^ n) := by
  rw [BitVec.sshiftRight, Int.shiftRight_eq_div_pow, Nat.cast_pow, Nat.cast_ofNat]

theorem mulhW_eq_ofInt (x y : Word) : mulhW x y = BitVec.ofInt 32 (x.toInt * y.toInt / 2 ^ 32) := by
  apply BitVec.eq_of_toNat_eq
  rw [mulhW, BitVec.extractLsb'_toNat, Nat.shiftRight_eq_div_pow, BitVec.toNat_ofInt, BitVec.toNat_ofInt]
  generalize x.toInt * y.toInt = z
  omega

theorem mulhnW_eq_ofNat (x y : Word) : mulhnW x y = BitVec.ofNat 32 (x.toNat * y.toNat / 2 ^ 32) := by
  apply BitVec.eq_of_toNat_eq
  rw [mulhnW, BitVec.extractLsb'_toNat, Nat.shiftRight_eq_div_pow, BitVec.toNat_ofNat, BitVec.toNat_ofNat]
  generalize x.toNat * y.toNat = z
  omega

/-- Of two words the one whose number is the smaller. -/
theorem pick_min {α β : Type} [LinearOrder β] {f : α → β} {g : β → α} (h : ∀ x, g (f x) = x) (x y : α) :
    (if f y < f x then y else x) = g (Min.min (f x) (f y)) := by
  split
  case isTrue hlt => rw [min_eq_right hlt.le, h]
  case isFalse hle => rw [min_eq_left (not_lt.1 hle), h]

/-- Of two words the one whose number is the larger. -/
theorem pick_max {α β : Type} [LinearOrder β] {f : α → β} {g : β → α} (h : ∀ x, g (f x) = x) (x y : α) :
    (if f x < f y then y else x) = g (Max.max (f x) (f y)) := by
  split
  case isTrue hlt => rw [max_eq_right hlt.le, h]
  case isFalse hle => rw [max_eq_left (not_lt.1 hle), h]

theorem ofNat_toNat_self {w : Nat} (x : BitVec w) : BitVec.ofNat w x.toNat = x := by
  rw [BitVec.ofNat_toNat, BitVec.setWidth_eq]

theorem sneW_eq_ite (x y : Word) : sneW x y = if x ≠ y then 1 else 0 := by
  unfold sneW
  split <;> simp_all

theorem selW_eq_ite (a b x : Word) : selW a b x = if x ≠ 0 then a else b := by
  unfold selW
  split <;> simp_all

/-! ## Counting bits (R91) -/

/-- The number of zero bits above the highest bit that is set. -/
def leadingZeros (x : Word) : Nat := if x = 0 then 32 else 31 - x.toNat.log2

theorem clzW_eq_ofNat (x : Word) : clzW x = BitVec.ofNat 32 (leadingZeros x) := by
  unfold clzW leadingZeros
  split <;> rfl

theorem leadingZeros_spec (x : Word) : leadingZeros x ≤ 32 ∧ (∀ i, i < leadingZeros x → x.getLsbD (31 - i) = false) ∧
    (leadingZeros x < 32 → x.getLsbD (31 - leadingZeros x) = true) := by
  by_cases h : x = 0
  · subst h
    exact ⟨le_rfl, fun i _ => by simp, fun h => absurd h (by decide)⟩
  · have hne : x.toNat ≠ 0 := fun e => h (BitVec.eq_of_toNat_eq e)
    have hlog : x.toNat.log2 < 32 := (Nat.log2_lt hne).2 x.isLt
    rw [leadingZeros, if_neg h]
    refine ⟨by omega, fun i hi => ?_, fun _ => ?_⟩
    · exact Nat.testBit_lt_two_pow (Nat.lt_log2_self.trans_le (Nat.pow_le_pow_right (by decide) (by omega)))
    · rw [show 31 - (31 - x.toNat.log2) = x.toNat.log2 by omega]
      exact Nat.testBit_log2 hne

/-- The search from bit `i` finds the lowest of the next `n` bits that is set, or ends past them. -/
theorem ctzGo_spec (x : Word) (n i : Nat) : i ≤ ctzGo x n i ∧ ctzGo x n i ≤ i + n ∧
    (∀ j, i ≤ j → j < ctzGo x n i → x.getLsbD j = false) ∧ (ctzGo x n i < i + n → x.getLsbD (ctzGo x n i) = true) := by
  induction n generalizing i with
  | zero => exact ⟨le_rfl, le_rfl, fun j h h' => absurd h' (Nat.not_lt.2 h), fun h => absurd h (Nat.lt_irrefl _)⟩
  | succ n ih =>
    rw [ctzGo]
    by_cases hbit : x.getLsbD i = true
    · rw [if_pos hbit]
      exact ⟨le_rfl, by omega, fun j h h' => absurd h' (Nat.not_lt.2 h), fun _ => hbit⟩
    · rw [if_neg hbit]
      obtain ⟨hlo, hhi, hclear, hset⟩ := ih (i + 1)
      refine ⟨by omega, by omega, fun j hj hj' => ?_, fun h => hset (by omega)⟩
      rcases Nat.eq_or_lt_of_le hj with rfl | hlt
      · simpa using hbit
      · exact hclear j hlt hj'

theorem popGo_eq_countP (x : Word) (n : Nat) : popGo x n = (List.range n).countP fun i => x.getLsbD i := by
  induction n with
  | zero => rfl
  | succ n ih =>
    rw [popGo, ih, List.range_succ, List.countP_append, Nat.add_comm]
    cases h : x.getLsbD n <;> simp [h, bit]

theorem popcW_eq_countP (x : Word) : popcW x = BitVec.ofNat 32 ((List.range 32).countP fun i => x.getLsbD i) := by
  rw [popcW, popGo_eq_countP]

/-! ## Bit fields (R93) -/

theorem fieldOfCtl_fits (c : Word) : (fieldOfCtl c).2 ≤ 32 ∧ (fieldOfCtl c).1 + (fieldOfCtl c).2 ≤ 32 := by
  have hstart : c.toNat % 32 < 32 := Nat.mod_lt _ (by decide)
  have hdef : fieldOfCtl c = (c.toNat % 32, min (min (c.toNat / 256 % 64) 32) (32 - c.toNat % 32)) := rfl
  rw [hdef]
  constructor <;> dsimp only <;> omega

/-- A bit field is the word's bits at the field's place, extended to a word. -/
theorem bfxW_eq_extend (a c : Word) (sx : Bool) : bfxW a c sx =
    let f := a.extractLsb' (fieldOfCtl c).1 (fieldOfCtl c).2
    if sx then f.signExtend 32 else f.setWidth 32 := by
  obtain ⟨hw, -⟩ := fieldOfCtl_fits c
  generalize hf : fieldOfCtl c = f at hw
  obtain ⟨p, w⟩ := f
  simp only [bfxW, hf]
  have hx : (a.extractLsb' p w).toNat = a.toNat / 2 ^ p % 2 ^ w := by
    rw [BitVec.extractLsb'_toNat, Nat.shiftRight_eq_div_pow]
  have hmsb : (a.extractLsb' p w).msb = (a.toNat / 2 ^ p % 2 ^ w).testBit (w - 1) := by
    rw [BitVec.msb_eq_getLsbD_last, ← BitVec.testBit_toNat, hx]
  rw [← hx] at hmsb ⊢
  generalize a.extractLsb' p w = y at hmsb
  rw [← hmsb]
  by_cases h0 : w = 0
  · subst h0
    simp [BitVec.of_length_zero (x := y)]
  · rw [if_neg h0]
    cases sx with
    | false => simp [BitVec.ofNat_toNat]
    | true => cases hm : y.msb <;> simp [hm, BitVec.signExtend, BitVec.toInt_eq_msb_cond]

theorem getLsbD_bfxW (a c : Word) (sx : Bool) {i : Nat} (hi : i < 32) (hw : 0 < (fieldOfCtl c).2) :
    (bfxW a c sx).getLsbD i = if i < (fieldOfCtl c).2 then a.getLsbD ((fieldOfCtl c).1 + i)
      else sx && a.getLsbD ((fieldOfCtl c).1 + (fieldOfCtl c).2 - 1) := by
  have hfits := (fieldOfCtl_fits c).1
  have hin : ∀ k, k < (fieldOfCtl c).2 → (a.extractLsb' (fieldOfCtl c).1 (fieldOfCtl c).2).getLsbD k
      = a.getLsbD ((fieldOfCtl c).1 + k) := fun k hk => by simp [hk]
  have htop := hin ((fieldOfCtl c).2 - 1) (by omega)
  rw [← Nat.add_sub_assoc hw] at htop
  rw [bfxW_eq_extend]
  cases sx with
  | true =>
    rw [if_pos rfl, BitVec.getLsbD_signExtend, BitVec.msb_eq_getLsbD_last, htop, decide_eq_true hi, Bool.true_and,
      Bool.true_and]
    split
    case isTrue hlt => exact hin i hlt
    case isFalse => rfl
  | false =>
    rw [if_neg Bool.false_ne_true, BitVec.getLsbD_setWidth, decide_eq_true hi, Bool.true_and, Bool.false_and]
    split
    case isTrue hlt => exact hin i hlt
    case isFalse hge => exact BitVec.getLsbD_of_ge _ _ (not_lt.1 hge)

theorem bfxW_width_zero {c : Word} (h : (fieldOfCtl c).2 = 0) (a : Word) (sx : Bool) : bfxW a c sx = 0 := by
  simp only [bfxW, h, if_true]

theorem getLsbD_bfiW (a b c : Word) {i : Nat} (hi : i < 32) : (bfiW a b c).getLsbD i =
    if (fieldOfCtl c).1 ≤ i ∧ i < (fieldOfCtl c).1 + (fieldOfCtl c).2 then b.getLsbD (i - (fieldOfCtl c).1)
    else a.getLsbD i := by
  generalize hf : fieldOfCtl c = f
  obtain ⟨p, w⟩ := f
  have hmask : (BitVec.ofNat 32 ((2 ^ w - 1) * 2 ^ p)).getLsbD i = decide (p ≤ i ∧ i < p + w) := by
    rw [BitVec.getLsbD_ofNat, Nat.testBit_mul_two_pow, Nat.testBit_two_pow_sub_one, decide_eq_true hi, Bool.true_and,
      ← Bool.decide_and, decide_eq_decide]
    omega
  simp only [bfiW, hf, BitVec.getLsbD_or, BitVec.getLsbD_and, BitVec.getLsbD_not, BitVec.getLsbD_shiftLeft, hmask, hi]
  by_cases hin : p ≤ i ∧ i < p + w
  · simp [hin]
  · simp [hin]

/-! ## Division (R92) -/

theorem divFlags_ne {y : Word} (h : y ≠ 0) : divFlags y = 0 := by
  rw [divFlags, beq_false_of_ne h]; rfl

/-- The quotient truncates toward zero: the remainder is smaller than the divisor and has the dividend's sign. -/
theorem tdiv_tmod_spec {x y : Int} (h : y ≠ 0) : x = x.tdiv y * y + x.tmod y ∧ (x.tmod y).natAbs < y.natAbs ∧
    (0 ≤ x → 0 ≤ x.tmod y) ∧ (x ≤ 0 → x.tmod y ≤ 0) := by
  refine ⟨?_, ?_, Int.tmod_nonneg y, fun hx => ?_⟩
  · rw [mul_comm, Int.mul_tdiv_add_tmod]
  · rw [Int.natAbs_tmod]
    exact Nat.mod_lt _ (Int.natAbs_pos.2 h)
  · have hneg := Int.tmod_nonneg y (neg_nonneg.2 hx)
    rw [Int.neg_tmod] at hneg
    omega

theorem divW_overflow : divW 0x80000000 0xFFFFFFFF = 0x80000000 := by decide

theorem remW_overflow : remW 0x80000000 0xFFFFFFFF = 0 := by decide

/-! ## What the instructions deliver -/

section
variable {s : State} {sc : Sched} {d a b x : Opnd} {n : Nat} {v : Word}

theorem alu1_value {f : Word → Word} (ha : Readable s a .w32) (h : f (s.val32 a) = v) :
    s.alu1 sc d a n f = .next (s.put sc d n v) := h ▸ alu1_ok ha

theorem alu2_value {f : Word → Word → Word} (ha : Readable s a .w32) (hb : Readable s b .w32)
    (h : f (s.val32 a) (s.val32 b) = v) : s.alu2 sc d a b n f = .next (s.put sc d n v) := h ▸ alu2_ok ha hb

/-- A division by zero delivers its result with DZ. -/
theorem divide_zero {f : Word → Word → Word} (ha : Readable s a .w32) (hb : Readable s b .w32) (hy : s.val32 b = 0)
    (h : f (s.val32 a) 0 = v) : (s.alu2F sc d a b n f fun _ y => divFlags y) = .next (s.putF sc d n v 0x02) := by
  rw [alu2F_ok ha hb, hy, h]; rfl

/-- Any other division raises no flag. -/
theorem divide_ne {f : Word → Word → Word} (ha : Readable s a .w32) (hb : Readable s b .w32) (hy : s.val32 b ≠ 0)
    (h : f (s.val32 a) (s.val32 b) = v) : (s.alu2F sc d a b n f fun _ y => divFlags y) = .next (s.put sc d n v) := by
  rw [alu2F_ok ha hb, divFlags_ne hy, h]; rfl

end

/-- Settles O9: the value of each operation, then the instruction that delivers it. -/
theorem scalarResults : Obligations.ScalarResults := by
  refine ⟨fun s sc d a b ha hb => ?_, fun s sc d a ha => ?_, fun s sc d a b x ha hb hx => ?_, fun s sc d a b ha hb => ?_⟩
  · exact ⟨alu2_ok ha hb, alu2_value ha hb (sub_eq_ofInt ..), alu2_value ha hb (mul_eq_ofInt ..),
      alu2_value ha hb (mulhW_eq_ofInt ..), alu2_value ha hb (mulhnW_eq_ofNat ..), alu2_ok ha hb, alu2_ok ha hb,
      alu2_ok ha hb, alu2_value ha hb (shiftLeft_eq_ofNat ..), alu2_value ha hb (ushiftRight_eq_ofNat ..),
      alu2_value ha hb (sshiftRight_eq_ofInt ..), alu2_value ha hb (pick_min (fun _ => BitVec.ofInt_toInt) ..),
      alu2_value ha hb (pick_max (fun _ => BitVec.ofInt_toInt) ..), alu2_value ha hb (pick_min ofNat_toNat_self ..),
      alu2_value ha hb (pick_max ofNat_toNat_self ..), alu2_ok ha hb, alu2_value ha hb (sneW_eq_ite ..), alu2_ok ha hb,
      alu2_ok ha hb⟩
  · obtain ⟨hclz, hclz'⟩ := leadingZeros_spec (s.val32 a)
    obtain ⟨-, hctz, hctz', hctz''⟩ := ctzGo_spec (s.val32 a) 32 0
    exact ⟨⟨_, hclz, alu1_value ha (clzW_eq_ofNat _), hclz'⟩,
      ⟨_, hctz, alu1_ok ha, fun i hi => hctz' i (Nat.zero_le i) hi, hctz''⟩,
      alu1_value ha (popcW_eq_countP _)⟩
  · refine ⟨?_, fun sx => ⟨_, alu2_ok ha hb, fun hw => bfxW_width_zero hw .., fun i hi hw => getLsbD_bfxW _ _ _ hi hw⟩,
      ⟨_, alu3_ok ha hb hx, fun i hi => getLsbD_bfiW _ _ _ hi⟩⟩
    rw [← selW_eq_ite]
    exact alu3_ok ha hb hx
  · refine ⟨fun hy => ?_, fun hy => ?_, fun hx hy => ?_⟩
    · exact ⟨divide_zero ha hb hy rfl, divide_zero ha hb hy rfl, divide_zero ha hb hy rfl, divide_zero ha hb hy rfl⟩
    · have hint : (s.val32 b).toInt ≠ 0 := fun h => hy (BitVec.toInt_inj.1 h)
      exact ⟨divide_ne ha hb hy (if_neg hy), divide_ne ha hb hy (if_neg hy), _, _, divide_ne ha hb hy (if_neg hy),
        divide_ne ha hb hy (if_neg hy), tdiv_tmod_spec hint⟩
    · have hne : s.val32 b ≠ 0 := by rw [hy]; decide
      exact ⟨divide_ne ha hb hne (by rw [hx, hy]; exact divW_overflow),
        divide_ne ha hb hne (by rw [hx, hy]; exact remW_overflow)⟩

/-! ## Immediates and pairs (R94 to R96) -/

theorem shiftAmt_setWidth (n : BitVec 5) : shiftAmt (n.setWidth 32) = n.toNat := by
  rw [shiftAmt, BitVec.toNat_setWidth]
  omega

theorem sext64_eq_ofInt (w : Word) : sext64 w = BitVec.ofInt 64 w.toInt := rfl

theorem add_sext64 (x : DWord) (imm : Word) : x + sext64 imm = BitVec.ofInt 64 (x.toInt + imm.toInt) := by
  rw [BitVec.ofInt_add, BitVec.ofInt_toInt, sext64_eq_ofInt]

theorem append_eq_ofNat (h l : Word) : h ++ l = BitVec.ofNat 64 (h.toNat * 2 ^ 32 + l.toNat) := by
  apply BitVec.eq_of_toNat_eq
  rw [BitVec.toNat_append, BitVec.toNat_ofNat, ← Nat.shiftLeft_add_eq_or_of_lt l.isLt, Nat.shiftLeft_eq]
  omega

section
variable {s : State} {sc : Sched} {d a b c : Opnd} {v : Word} {n : Nat} {x : DWord}

theorem pair1_value {f : DWord → DWord} (ha : Readable s a .w64) (h : f (s.val64 a) = x) :
    s.pair1 sc d a n f = .next (s.put64 sc d n x) := h ▸ pair1_ok ha

theorem pair2_value {f : DWord → DWord → DWord} (ha : Readable s a .w64) (hb : Readable s b .w64)
    (h : f (s.val64 a) (s.val64 b) = x) : s.pair2 sc d a b n f = .next (s.put64 sc d n x) := h ▸ pair2_ok ha hb

/-- An instruction that reads a word and then goes on. -/
theorem finish_rd32 {f : Word → Except Stop State} (ha : Readable s a .w32) :
    s.finish (s.rd32 a >>= f) = s.finish (f (s.val32 a)) := by rw [rd32_ok ha]; rfl

/-- An instruction that reads a pair and then goes on. -/
theorem finish_rd64 {f : DWord → Except Stop State} (ha : Readable s a .w64) :
    s.finish (s.rd64 a >>= f) = s.finish (f (s.val64 a)) := by rw [rd64_ok ha]; rfl

theorem exec_shl64 (ha : Readable s a .w64) (hc : Readable s c .w32) :
    exec (.shl64 sc d a c) s = .next (s.put64 sc d 3 (s.val64 a <<< ((s.val32 c).toNat % 64))) :=
  (finish_rd64 ha).trans (finish_rd32 hc)

theorem exec_slt64n (ha : Readable s a .w64) (hb : Readable s b .w64) : exec (.slt64n sc d a b) s
    = .next (s.put sc d 3 (if (s.val64 a).toNat < (s.val64 b).toNat then 1 else 0)) :=
  (finish_rd64 ha).trans (finish_rd64 hb)

theorem exec_sethi (hc : Readable s c .w32) (imm : Word) :
    exec (.sethi sc d c imm) s = .next (s.put64 sc d 2 (imm ++ s.val32 c)) := finish_rd32 hc

end

/-- Settles O10: an immediate form is the operation of the same name, a pair instruction its 64-bit value. -/
theorem immediatesAndPairs : Obligations.ImmediatesAndPairs := by
  refine ⟨fun s sc d a imm n ha => ?_, fun s sc d a b c imm ha hb hc => ?_⟩
  · have hshl : shlW (s.val32 a) (n.setWidth 32) = BitVec.ofNat 32 ((s.val32 a).toNat * 2 ^ n.toNat) := by
      rw [shlW, shiftAmt_setWidth, shiftLeft_eq_ofNat]
    have hshr : shrW (s.val32 a) (n.setWidth 32) = BitVec.ofNat 32 ((s.val32 a).toNat / 2 ^ n.toNat) := by
      rw [shrW, shiftAmt_setWidth, ushiftRight_eq_ofNat]
    have hsra : sraW (s.val32 a) (n.setWidth 32) = BitVec.ofInt 32 ((s.val32 a).toInt / 2 ^ n.toNat) := by
      rw [sraW, shiftAmt_setWidth, sshiftRight_eq_ofInt]
    exact ⟨alu1_ok ha, alu1_ok ha, alu1_ok ha, alu1_ok ha, alu1_value ha hshl, alu1_value ha hshr, alu1_value ha hsra, rfl,
      alu1_ok ha, alu1_ok ha, alu1_value ha (mul_eq_ofInt ..)⟩
  · refine ⟨pair2_ok ha hb, pair2_value ha hb (sub_eq_ofInt ..), pair1_ok ha, ?_, exec_slt64n ha hb,
      pair1_value ha (add_sext64 ..), rfl, ?_⟩
    · rw [← shiftLeft_eq_ofNat]
      exact exec_shl64 ha hc
    · rw [← append_eq_ofNat]
      exact exec_sethi hc imm

end Sys2Proof.Machine
end

section
/-! Branches and hardware loops (R97 to R105): where a branch goes, what a `loop` opens, and what the loop unit does at an end
bundle. -/

namespace Sys2Proof.Machine

/-! ## Branch targets (R97) -/

theorem sext64_mul_eight (disp : Word) : sext64 disp * 8 = BitVec.ofInt 64 (8 * disp.toInt) := by
  rw [BitVec.ofInt_mul, sext64_eq_ofInt, mul_comm]; rfl

theorem alignPc_eq_ofNat (t : DWord) : alignPc t = BitVec.ofNat 64 (t.toNat / 8 * 8) := by
  have hlow : ∀ i, i < 64 → (~~~(7 : DWord)).getLsbD i = decide (3 ≤ i) := by decide
  refine BitVec.eq_of_getLsbD_eq fun i hi => ?_
  rw [alignPc, BitVec.getLsbD_and, hlow i hi, BitVec.getLsbD_ofNat, decide_eq_true hi, Bool.true_and,
    show t.toNat / 8 * 8 = t.toNat / 2 ^ 3 * 2 ^ 3 from rfl, Nat.testBit_mul_two_pow, Nat.testBit_div_two_pow,
    BitVec.testBit_toNat, Bool.and_comm]
  by_cases h : 3 ≤ i
  · simp [h]
  · simp [h]

section
variable {s : State} {sc : Sched} {p q : Opnd}

theorem exec_bz (hp : Readable s p .w32) (h : BitVec 2) (disp : Word) :
    exec (.bz p h disp) s = .next (if s.val32 p = 0 then s.setCtl (.jump (s.relTarget disp)) else s) := by
  refine (finish_rd32 hp).trans (congrArg Host.Outcome.next ?_)
  by_cases hz : s.val32 p = 0 <;> simp [State.branchIf, hz]

theorem exec_bnz (hp : Readable s p .w32) (h : BitVec 2) (disp : Word) :
    exec (.bnz p h disp) s = .next (if s.val32 p ≠ 0 then s.setCtl (.jump (s.relTarget disp)) else s) := by
  refine (finish_rd32 hp).trans (congrArg Host.Outcome.next ?_)
  by_cases hz : s.val32 p = 0 <;> simp [State.branchIf, hz]

theorem exec_ret (hq : Readable s q .w64) (h : BitVec 2) :
    exec (.ret q h) s = .next (s.setCtl (.jump (alignPc (s.val64 q)))) := finish_rd64 hq

theorem exec_jmp (hq : Readable s q .w64) (h : BitVec 2) (disp : Word) :
    exec (.jmp q h disp) s = .next (s.setCtl (.jump (alignPc (s.val64 q) + sext64 disp * 8))) := finish_rd64 hq

theorem State.mapBun_mapBun (s : State) (f g : Bun → Bun) : (s.mapBun f).mapBun g = s.mapBun fun b => g (f b) := by
  simp [State.mapBun, State.mapCur, State.mapAgent, State.mapBank]

/-- A `brq` takes the head of bq, and branches if it is set. -/
theorem exec_brq_cons {e : Bool} {es : List Bool} (hb : s.cur.bq = e :: es) (h : BitVec 2) (disp : Word) :
    exec (.brq h disp) s = .next (s.mapBun fun b =>
      { b with bqPop := true, ctl := if e then .jump (s.relTarget disp) else b.ctl }) := by
  have hexec : exec (.brq h disp) s
      = .next ((s.mapBun fun x => { x with bqPop := true }).branchIf e (s.relTarget disp)) := by
    change execBrq h disp s = _
    simp [execBrq, hb]
  rw [hexec]
  cases e with
  | true => rw [State.branchIf, if_pos rfl, State.setCtl, State.mapBun_mapBun]; rfl
  | false => rfl

theorem exec_brq_nil (hb : s.cur.bq = []) (h : BitVec 2) (disp : Word) :
    exec (.brq h disp) s = .next { s with verdict := .stall .bq } := by
  change execBrq h disp s = _
  simp [execBrq, hb]

end

/-- Settles O11: each branch with its target, the relative ones counted from their own word. -/
theorem branches : Obligations.Branches := by
  intro s sc p q h disp hp hq
  simp only [← alignPc_eq_ofNat, ← sext64_mul_eight]
  exact ⟨rfl, exec_bz hp h disp, exec_bnz hp h disp, rfl, exec_ret hq h, exec_jmp hq h disp,
    fun e es hb => exec_brq_cons hb h disp, fun hb => exec_brq_nil hb h disp⟩

/-! ## Opening a loop (R100) -/

theorem State.loopCount_eq (s : State) (p : Opnd) (lv : Option (BitVec 4)) (x : Word) :
    s.loopCount p lv x = if p = .sp 0 then ((lv.bind s.tableLevel).map (·.extent)).getD 0 else x.toNat := by
  unfold State.loopCount
  cases lv.bind s.tableLevel <;> rfl

theorem Agent.loopStart_eq (a : Agent) (lv : Option (BitVec 4)) :
    a.loopStart lv = (lv.bind fun k => a.saved.lookup k).getD 0 := by
  cases lv <;> rfl

theorem Agent.takeSaved_eq (a : Agent) (lv : Option (BitVec 4)) :
    a.takeSaved lv = { a with saved := a.saved.filter fun x => some x.1 != lv } := by
  cases lv with
  | none =>
    have hall : (a.saved.filter fun x => some x.1 != none) = a.saved := List.filter_eq_self.2 fun _ _ => rfl
    rw [hall]; rfl
  | some n => simp [Agent.takeSaved, bne]

section
variable {s : State} {sc : Sched} {p d : Opnd} {lv : Option (BitVec 4)} {h : BitVec 2} {disp : Word}

theorem exec_loop_skips (hp : Readable s p .w32) (hn : s.loopCount p lv (s.val32 p) ≤ s.cur.loopStart lv) :
    exec (.loop p lv h disp) s = .next ((s.mapCur fun a => a.takeSaved lv).setCtl (.jump (s.relTarget disp))) := by
  refine (finish_rd32 hp).trans ?_
  rw [if_pos hn]; rfl

theorem exec_loop_full (hp : Readable s p .w32) (hn : s.cur.loopStart lv < s.loopCount p lv (s.val32 p))
    (hfull : 4 ≤ s.cur.loops.length) :
    exec (.loop p lv h disp) s = .next { s.takeTrap (s.trapAt 0x14 0x01 0) with verdict := .trapped false } := by
  refine (finish_rd32 hp).trans ?_
  rw [if_neg (not_le.2 hn), if_pos hfull]; rfl

theorem exec_loop_bound (hp : Readable s p .w32) (hn : s.cur.loopStart lv < s.loopCount p lv (s.val32 p))
    (hfree : s.cur.loops.length < 4) (hdup : (lv.isSome && s.cur.loops.any fun l => l.bind == lv) = true) :
    exec (.loop p lv h disp) s = .next { s.takeTrap (s.trapAt 0x14 0x03 0) with verdict := .trapped false } := by
  refine (finish_rd32 hp).trans ?_
  rw [if_neg (not_le.2 hn), if_neg (not_le.2 hfree), if_pos hdup]; rfl

theorem exec_loop_opens (hp : Readable s p .w32) (hn : s.cur.loopStart lv < s.loopCount p lv (s.val32 p))
    (hfree : s.cur.loops.length < 4) (hdup : ¬(lv.isSome && s.cur.loops.any fun l => l.bind == lv) = true) :
    exec (.loop p lv h disp) s = .next ((s.mapCur fun a => a.takeSaved lv).setCtl
      (.open ⟨s.cur.bun.npc, s.relTarget disp, s.cur.loopStart lv, s.loopCount p lv (s.val32 p), lv, false⟩)) := by
  refine (finish_rd32 hp).trans ?_
  rw [if_neg (not_le.2 hn), if_neg (not_le.2 hfree), if_neg hdup]; rfl

/-! ## Leaving a loop (R102, R103, R105) -/

theorem exec_lbrk_closes (hp : Readable s p .w32) (hl : s.cur.loops ≠ []) : exec (.lbrk p h disp) s
    = .next (if s.val32 p = 0 then s else s.setCtl (.lbrk (s.relTarget disp))) := by
  refine (finish_rd32 hp).trans ?_
  rw [if_neg (by simpa using hl)]; rfl

theorem exec_lbrk_outside (hp : Readable s p .w32) (hl : s.cur.loops = []) : exec (.lbrk p h disp) s
    = .next { s.takeTrap (s.trapAt 0x14 0x02 0) with verdict := .trapped false } := by
  refine (finish_rd32 hp).trans ?_
  rw [if_pos (by simp [hl])]; rfl

theorem State.levelIndex_temporal {n : BitVec 4} {r : Run} {l : TblLvl} (hr : s.bank.run = some r)
    (hl : r.img.levels[n.toNat]? = some l) (hk : l.kind = 0) :
    s.levelIndex n = match s.cur.loops.find? fun y => y.bind == some n with
      | some y => BitVec.ofNat 32 y.index
      | none => 0xFFFFFFFF := by
  have ht : s.tableLevel n = some l := by rw [State.tableLevel, hr]; exact hl
  simp only [State.levelIndex, hr, ht]
  exact if_pos hk

end

/-! ## The loop unit at an end bundle (R101, R104) -/

section
variable {done rest : List LoopLvl} {l : LoopLvl} {npc : DWord}

/-- Levels that end at the next address and have run out close. -/
theorem loopGo_append (hdone : ∀ x ∈ done, x.exit = npc ∧ x.drain = false ∧ x.count ≤ x.index + 1) (ls : List LoopLvl) :
    loopGo (done ++ ls) npc = loopGo ls npc := by
  induction done with
  | nil => rfl
  | cons x xs ih =>
    obtain ⟨hexit, hdrain, hcount⟩ := hdone x List.mem_cons_self
    rw [List.cons_append, loopGo, if_pos hexit, if_neg (by simp [hdrain]), if_neg (by omega)]
    exact ih fun y hy => hdone y (List.mem_cons_of_mem _ hy)

theorem loopGo_iterates (hexit : l.exit = npc) (hdrain : l.drain = false) (hcount : l.index + 1 < l.count) :
    loopGo (l :: rest) npc = ({ l with index := l.index + 1 } :: rest, l.start, none) := by
  rw [loopGo, if_pos hexit, if_neg (by simp [hdrain]), if_pos hcount]

theorem loopGo_elsewhere (hexit : l.exit ≠ npc) : loopGo (l :: rest) npc = (l :: rest, npc, none) := by
  rw [loopGo, if_neg hexit]

theorem loopGo_drains (hexit : l.exit = npc) (hdrain : l.drain = true) : loopGo (l :: rest) npc = (rest, npc, some l) := by
  rw [loopGo, if_pos hexit, if_pos hdrain]

theorem Agent.fallThrough_drains {a : Agent} (h : loopGo a.loops npc = (rest, npc, some l)) :
    a.fallThrough npc = ({ a with loops := rest, pc := npc } : Agent).drained l := by
  simp only [Agent.fallThrough, h]

theorem Agent.drained_saved (a : Agent) {n : BitVec 4} (h : l.bind = some n) :
    (a.drained l).saved.lookup n = some (l.index + 1) := by
  simp [Agent.drained, h]

end

/-- Settles O12: `loop` by the four ways its tests can end, `lbrk`, `ldrain` and `lidx` by one test each, and the loop unit by
what becomes of the innermost level that has not run out. -/
theorem hardwareLoops : Obligations.HardwareLoops := by
  refine ⟨fun s p lv h disp hp => ?_, fun s sc p d n h disp hp => ?_, fun a done rest l npc hdone => ?_⟩
  · simp only [← sext64_mul_eight, ← State.loopCount_eq, ← Agent.loopStart_eq, ← Agent.takeSaved_eq]
    have hdup : (lv.isSome && s.cur.loops.any fun l => l.bind == lv) = true ↔ (lv.isSome ∧ ∃ l ∈ s.cur.loops, l.bind = lv) := by
      simp
    rw [← hdup]
    exact ⟨exec_loop_skips hp, exec_loop_opens hp, exec_loop_full hp, exec_loop_bound hp⟩
  · simp only [← sext64_mul_eight]
    exact ⟨exec_lbrk_closes hp, exec_lbrk_outside hp, rfl,
      ⟨s.levelIndex n, rfl, fun r l hr hl hk => State.levelIndex_temporal hr hl hk⟩⟩
  · simp only [loopGo_append hdone]
    refine ⟨loopGo_iterates, loopGo_elsewhere, ?_, fun hexit hdrain ha => ?_⟩
    · simpa [loopGo] using loopGo_append hdone []
    · have hgo : loopGo a.loops npc = (rest, npc, some l) := by
        rw [ha, loopGo_append hdone, loopGo_drains hexit hdrain]
      rw [Agent.fallThrough_drains hgo]
      exact ⟨rfl, rfl, rfl, fun n hn => Agent.drained_saved _ hn⟩

end Sys2Proof.Machine
end

section
/-! System instructions (R110 to R114): traps on request, `tfence`, `sret`, `halt`, and what `tlbinv` drops. -/

namespace Sys2Proof.Machine

/-! ## `tfence` and `sret` (R110, R112) -/

section
variable {s : State}

theorem exec_tfence_waits (h : s.cur.latches ≠ []) : exec .tfence s = .next { s with verdict := .stall .latch } := by
  change execTfence s = _
  rw [execTfence, if_pos (by simpa using h), finish_wait]

theorem exec_tfence_quiet (hl : s.cur.latches = []) (hf : s.cur.fence = 0) : exec .tfence s = .next s := by
  change execTfence s = _
  rw [execTfence, if_neg (by simp [hl]), if_pos hf, finish_ok]

theorem exec_tfence_raises (hl : s.cur.latches = []) (hf : s.cur.fence ≠ 0) : exec .tfence s
    = .next { s.takeTrap (s.trapAt 0x0B (s.cur.fence.setWidth 8) 0) with verdict := .trapped false } := by
  change execTfence s = _
  rw [execTfence, if_neg (by simp [hl]), if_neg hf, finish_trapNow]

theorem exec_sret {r : Run} (hr : s.bank.run = some r) :
    exec .sret s = s.finish (if r.service then .ok (s.setCtl .swapBack) else s.trapNow 0x07 0 0) := by
  change execSret s = _
  rw [execSret, hr]

end

/-! ## What an invalidation drops (R113, R406) -/

section
variable {s : State} {sc : BitVec 2} {cx : BitVec 6} {va : Nat}

/-- A `tlbinv` of the scope `sc` names the translation. -/
def State.Drops (s : State) (sc : BitVec 2) (cx : BitVec 6) (va : Nat) (e : TlbEnt) : Prop :=
  if sc = 0 then e.ctx = cx ∧ e.va ≤ va ∧ va < e.va + e.size
  else if sc = 1 then e.ctx = cx else s.ctxs[e.ctx.toNat].part = s.part

/-- It names what a walk in flight would leave. -/
def State.DropsWalk (s : State) (sc : BitVec 2) (cx : BitVec 6) (va : Nat) (w : Walk) : Prop :=
  if sc = 0 then (∀ p, w.ent = some p → s.Drops sc cx va p) ∧ (w.ent = none → w.ctx = cx ∧ w.va / 4096 = va / 4096)
  else if sc = 1 then w.ctx = cx else s.ctxs[w.ctx.toNat].part = s.part

theorem scope_cases : ∀ sc : BitVec 2, sc ≠ 3 → sc = 0 ∨ sc = 1 ∨ sc = 2 := by decide

theorem named_iff (hsc : sc ≠ 3) (e : TlbEnt) : s.named s.part sc.toNat cx va e = true ↔ s.Drops sc cx va e := by
  rcases scope_cases sc hsc with rfl | rfl | rfl
  · simp [State.named, State.Drops, and_assoc]
  · simp [State.named, State.Drops]
  · simp [State.named, State.Drops]

theorem namedWalk_iff (hsc : sc ≠ 3) (w : Walk) : s.namedWalk s.part sc.toNat cx va w = true ↔ s.DropsWalk sc cx va w := by
  rcases scope_cases sc hsc with rfl | rfl | rfl
  · have hpage := fun e => named_iff (s := s) (cx := cx) (va := va) (sc := 0) (by decide) e
    cases hw : w.ent with
    | none => simp [State.namedWalk, State.DropsWalk, hw]
    | some e =>
      simp only [State.namedWalk, State.DropsWalk, hw]
      simpa using hpage e
  · simp [State.namedWalk, State.DropsWalk]
  · simp [State.namedWalk, State.DropsWalk]

/-- Whom a walk had frozen goes on where no walk is left; every other freeze stays. -/
theorem walksOver_freezes (s : State) : ∃ z, s.walksOver = { s with freezes := z } ∧
    (s.walks = [] → s.walk = none → ∀ f, f ∈ z ↔ f ∈ s.freezes ∧ f.why ≠ .walk) ∧
    ∀ f ∈ s.freezes, f.why ≠ .walk → f ∈ z := by
  unfold State.walksOver
  split
  case isTrue h =>
    refine ⟨s.freezes, rfl, fun hw hv => ?_, fun f hf _ => hf⟩
    simp [State.walkLate, hw, hv] at h
  case isFalse h =>
    exact ⟨_, rfl, fun _ _ f => by simp, fun f hf hne => by simp [hf, hne]⟩

/-- What an invalidation leaves of the TLBs, of the walks in flight and of the freezes. -/
theorem invalidate_drops (hsc : sc ≠ 3) : ∃ l w v z,
    s.invalidate s.part sc.toNat cx va = { s with tlb := l, walks := w, walk := v, freezes := z } ∧
    (∀ e, e ∈ l ↔ e ∈ s.tlb ∧ ¬s.Drops sc cx va e) ∧ (∀ e, e ∈ w ↔ e ∈ s.walks ∧ ¬s.DropsWalk sc cx va e) ∧
    (∀ e, v = some e ↔ s.walk = some e ∧ ¬s.DropsWalk sc cx va e) ∧
    (w = [] → v = none → ∀ f, f ∈ z ↔ f ∈ s.freezes ∧ f.why ≠ .walk) ∧ ∀ f ∈ s.freezes, f.why ≠ .walk → f ∈ z := by
  obtain ⟨z, hz, hnone, hstay⟩ := walksOver_freezes { s with
    tlb := s.tlb.filter fun e => !s.named s.part sc.toNat cx va e
    walk := s.walk.filter fun w => !s.namedWalk s.part sc.toNat cx va w
    walks := s.walks.filter fun w => !s.namedWalk s.part sc.toNat cx va w }
  refine ⟨_, _, _, z, hz, fun e => ?_, fun e => ?_, fun e => ?_, hnone, hstay⟩
  · rw [List.mem_filter, ← named_iff hsc]; simp
  · rw [List.mem_filter, ← namedWalk_iff hsc]; simp
  · rw [Option.filter_eq_some_iff, ← namedWalk_iff hsc]; simp

end

/-! ## `tlbinv` (R113, R406) -/

section
variable {s : State} {a b : Opnd} {sc : BitVec 2}

/-- A bank has no copy under way and no output piece still to be written. -/
def Bank.Quiet (u : Bank) : Prop := (∀ c ∈ u.chans.toList, c.started = []) ∧ ∀ x ∈ u.streams.toList, x.outq = []

theorem bank_quiet_iff (u : Bank) :
    (u.chans.toList.all (·.started.isEmpty) && u.streams.toList.all (·.outq.isEmpty)) = true ↔ u.Quiet := by
  simp only [Bool.and_eq_true, List.all_eq_true, List.isEmpty_iff, Bank.Quiet]

/-- Nor has the core an access pending. -/
def State.Quiet (s : State) : Prop :=
  s.pend = [] ∧ s.reads = [] ∧ ∀ u : Bank, u = s.bank ∨ s.shadow = some u → u.Quiet

theorem settled_iff (s : State) : s.settled = true ↔ s.Quiet := by
  have hbanks : (∀ u : Bank, u = s.bank ∨ s.shadow = some u → u.Quiet)
      ↔ s.bank.Quiet ∧ ∀ u, s.shadow = some u → u.Quiet :=
    ⟨fun h => ⟨h _ (.inl rfl), fun u hu => h u (.inr hu)⟩, fun h u hu => hu.elim (fun e => e ▸ h.1) (h.2 u)⟩
  have hperf : s.performed = true ↔ s.pend = [] ∧ s.reads = [] := by simp [State.performed]
  rw [State.Quiet, hbanks, ← and_assoc, ← hperf]
  unfold State.settled
  rw [Bool.and_eq_true]
  refine and_congr_right' ?_
  cases hs : s.shadow with
  | none => simp only [Bool.and_true, bank_quiet_iff, reduceCtorEq, false_implies, implies_true, and_true]
  | some u => rw [Bool.and_eq_true, bank_quiet_iff, bank_quiet_iff]; simp

/-- The context that `tlbinv` names is one of the partition. -/
def State.OwnCtx (s : State) (x : Word) : Prop :=
  let cx : BitVec 6 := x.setWidth 6
  x.toNat < 64 ∧ s.ctxs[cx.toNat].defined = true ∧ s.ctxs[cx.toNat].part = s.part

variable (ha : Readable s a .w64) (hb : Readable s b .w32)
include ha hb

theorem exec_tlbinv_drops (hsup : s.supervisor = true) (hok : if sc = 2 then s.val32 b = 0 else s.OwnCtx (s.val32 b)) :
    exec (.tlbinv a b sc) s
      = s.finish (s.dropNow (s.invalidate s.part sc.toNat ((s.val32 b).setWidth 6) (s.val64 a).toNat)) := by
  refine (finish_rd64 ha).trans ((finish_rd32 hb).trans (congrArg s.finish ?_))
  rw [if_neg (by simp [hsup])]
  by_cases hsc : sc = 2
  · subst hsc
    rw [if_pos rfl] at hok ⊢
    exact if_pos hok
  · rw [if_neg hsc] at hok ⊢
    exact if_pos hok

theorem exec_tlbinv_refused (h : s.supervisor = false ∨ ¬(if sc = 2 then s.val32 b = 0 else s.OwnCtx (s.val32 b))) :
    exec (.tlbinv a b sc) s = .next { s.takeTrap (s.trapAt 0x07 0 0) with verdict := .trapped false } := by
  refine (finish_rd64 ha).trans ((finish_rd32 hb).trans ((congrArg s.finish ?_).trans (finish_trapNow s 0x07 0 0)))
  by_cases hsup : s.supervisor = true
  · have hbad := h.resolve_left (by simp [hsup])
    rw [if_neg (by simp [hsup])]
    by_cases hsc : sc = 2
    · rw [if_pos hsc] at hbad ⊢
      exact if_neg hbad
    · rw [if_neg hsc] at hbad ⊢
      exact if_neg hbad
  · exact if_pos (by simp [hsup])

end

/-- Settles O13: each instruction by the tests it makes. -/
theorem systemInstructions : Obligations.SystemInstructions := by
  refine ⟨fun s n => ⟨rfl, rfl, rfl, rfl⟩, fun s => ⟨exec_tfence_waits, exec_tfence_quiet, exec_tfence_raises⟩,
    fun s r hr => ⟨fun h => ?_, fun h => ?_⟩, fun s a b sc ha hb hsc => ?_⟩
  · rw [exec_sret hr, if_pos h]; rfl
  · rw [exec_sret hr, if_neg (by simp [h])]; rfl
  · refine ⟨fun hsup hok hq => ?_, fun hsup hok hq => ?_, exec_tlbinv_refused ha hb⟩
    · obtain ⟨l, w, v, z, heq, hspec⟩ :=
        invalidate_drops (s := s) (cx := (s.val32 b).setWidth 6) (va := (s.val64 a).toNat) hsc
      refine ⟨l, w, v, z, ?_, hspec⟩
      rw [exec_tlbinv_drops ha hb hsup hok, heq, State.dropNow, if_pos ((settled_iff s).2 hq), finish_ok]
    · rw [exec_tlbinv_drops ha hb hsup hok, State.dropNow, if_neg fun h => hq ((settled_iff s).1 h), finish_wait]

end Sys2Proof.Machine
end

section
/-! Special registers (R106 to R108): what each reads as, which may be written, and that the writes of the core's own registers
take effect in their order as the cycle ends. -/

namespace Sys2Proof.Machine

/-! ## Reads and writes at issue (R106, R107) -/

theorem srWide_iff (n : BitVec 8) :
    srWide n = true ↔ n = 0x02 ∨ n = 0x03 ∨ n = 0x04 ∨ n = 0x05 ∨ n = 0x0D ∨ n = 0x12 := by
  revert n; decide

theorem srWritable_iff (n : BitVec 8) :
    srWritable n = true ↔ n = 0x00 ∨ n = 0x01 ∨ n = 0x0F ∨ n = 0x10 ∨ n = 0x11 ∨ n = 0x12 := by
  revert n; decide

section
variable {s : State} {sc : Sched} {d a : Opnd} {r : Run}

theorem exec_rdsr (n : BitVec 8) : exec (.rdsr sc d n) s
    = .next (if srWide n then s.put64 sc d 2 (s.readSr n) else s.put sc d 2 ((s.readSr n).setWidth 32)) := rfl

theorem rdSz_ok (ha : Readable s a .w32) (ha' : Readable s a .w64) (wide : Bool) :
    s.rdSz wide a = .ok (if wide then s.val64 a else (s.val32 a).setWidth 64) := by
  cases wide with
  | true => exact rd64_ok ha'
  | false => rw [State.rdSz, if_neg Bool.false_ne_true, rd32_ok ha]; rfl

theorem exec_wrsr (ha : Readable s a .w32) (ha' : Readable s a .w64) (n : BitVec 8) : exec (.wrsr a n) s = .next (
    if srWritable n then
      s.mapBun fun b => { b with srw := some (n, if srWide n then s.val64 a else (s.val32 a).setWidth 64) }
    else { s.takeTrap (s.trapAt 0x07 0 0) with verdict := .trapped false }) := by
  change execWrsr a n s = _
  rw [execWrsr, rdSz_ok ha ha']
  cases srWritable n <;> rfl

/-! ## Values that the run gives (R107) -/

theorem ofRun_eq (hr : s.bank.run = some r) (f : Run → Nat) : s.ofRun f = f r := by rw [State.ofRun, hr]

theorem srSlack_eq (hr : s.bank.run = some r) :
    s.srSlack = r.snap.deadline - BitVec.ofNat 64 s.wall - BitVec.ofNat 64 r.budget := by rw [State.srSlack, hr]

theorem srFrame_own (hr : s.bank.run = some r) (h : (r.service && r.interrupts) = false) : s.srFrame = s.frameOf r := by
  simp only [State.srFrame, hr, h, Bool.false_eq_true, if_false]

/-- In a slice that interrupts a run the frame is that run's. -/
theorem srFrame_interrupted (hr : s.bank.run = some r) (hs : r.service = true) (hi : r.interrupts = true) {b : Bank} {q : Run}
    (hb : s.shadow = some b) (hq : b.run = some q) : s.srFrame = s.frameOf q := by
  simp [State.srFrame, hr, hs, hi, hb, hq]

theorem readSr_at {n k : BitVec 8} {x : DWord} (h : s.readSr k = x) : n = k → s.readSr n = x := fun e => e ▸ h

/-- The registers whose values are the run's. -/
theorem readSr_run (hr : s.bank.run = some r) {n : BitVec 8} :
    (n = 0x0A → s.readSr n = BitVec.ofNat 64 r.logcore) ∧ (n = 0x0B → s.readSr n = BitVec.ofNat 64 r.snap.gang) ∧
    (n = 0x0C → s.readSr n = r.cause.setWidth 64) ∧
    (n = 0x0D → (r.service && r.interrupts) = false → s.readSr n = BitVec.ofNat 64 (s.frameOf r)) ∧
    (n = 0x0D → r.service = true → r.interrupts = true → ∀ b q, s.shadow = some b → b.run = some q →
      s.readSr n = BitVec.ofNat 64 (s.frameOf q)) ∧
    (n = 0x04 → s.readSr n = r.snap.deadline) ∧
    (n = 0x05 → s.readSr n = r.snap.deadline - BitVec.ofNat 64 s.wall - BitVec.ofNat 64 r.budget) ∧
    (n = 0x06 → s.readSr n = BitVec.ofNat 64 r.budget) ∧ (n = 0x07 → s.readSr n = r.ctx.setWidth 64) ∧
    (n = 0x08 → s.readSr n = r.part.setWidth 64) := by
  have hof : ∀ f : Run → Nat, BitVec.ofNat 64 (s.ofRun f) = BitVec.ofNat 64 (f r) := fun f => by rw [ofRun_eq hr]
  have hofBits : ∀ {w : Nat} (f : Run → BitVec w), BitVec.ofNat 64 (s.ofRun fun r => (f r).toNat) = (f r).setWidth 64 :=
    fun f => (hof _).trans (BitVec.ofNat_toNat ..)
  refine ⟨readSr_at (hof _), readSr_at (hof _), readSr_at (hofBits _), fun e h => ?_, fun e hs hi b q hb hq => ?_,
    readSr_at ((hofBits _).trans (BitVec.setWidth_eq _)), readSr_at (srSlack_eq hr), readSr_at (hof _),
    readSr_at (hofBits _), readSr_at (hofBits _)⟩
  · exact readSr_at (k := 0x0D) (congrArg (BitVec.ofNat 64) (srFrame_own hr h)) e
  · exact readSr_at (k := 0x0D) (congrArg (BitVec.ofNat 64) (srFrame_interrupted hr hs hi hb hq)) e

/-! ## Values made of several fields (R107, R275) -/

theorem coreid_fields (s : State) (hd : s.die < 24) (hc : s.core < 64) :
    (s.readSr 0x09).toNat % 2 ^ 16 = 64 * s.die + s.core ∧ (s.readSr 0x09).toNat / 2 ^ 16 = s.link.pkg.toNat := by
  have hval : s.readSr 0x09 = BitVec.ofNat 64 (s.die * 64 + s.core + s.link.pkg.toNat * 2 ^ 16) := rfl
  have hpkg := s.link.pkg.isLt
  rw [hval, BitVec.toNat_ofNat]
  omega

/-- Two bits under a number. -/
theorem twoBits_fields (a b : Bool) (c : Nat) : let x := bit a + 2 * bit b + c * 256
    x.testBit 0 = a ∧ x.testBit 1 = b ∧ x % 256 < 4 ∧ x / 256 = c := by
  intro x
  have hx : x = bit a + 2 * bit b + c * 256 := rfl
  have hbit : ∀ b, bit b < 2 ∧ decide (bit b = 1) = b := by decide
  obtain ⟨ha, ha'⟩ := hbit a
  obtain ⟨hb, hb'⟩ := hbit b
  have hlow : x % 2 = bit a := by omega
  have hnext : x / 2 % 2 = bit b := by omega
  rw [Nat.testBit_zero, Nat.testBit_succ, Nat.testBit_zero, hlow, hnext]
  exact ⟨ha', hb', by omega, by omega⟩

theorem recstat_fields (s : State) : (s.readSr 0x13).getLsbD 0 = s.bank.recm.on ∧
    (s.readSr 0x13).getLsbD 1 = s.bank.recm.overflow ∧ (s.readSr 0x13).toNat % 256 < 4 ∧
    (s.readSr 0x13).toNat / 256 = s.bank.recm.count % 2 ^ 24 := by
  have hlt : s.srRecstat < 2 ^ 64 := by
    have hbit : ∀ b, bit b < 2 := by decide
    have hon := hbit s.bank.recm.on
    have hov := hbit s.bank.recm.overflow
    rw [State.srRecstat]
    omega
  have hval : (s.readSr 0x13).toNat = s.srRecstat := Nat.mod_eq_of_lt hlt
  rw [← BitVec.testBit_toNat, ← BitVec.testBit_toNat, hval]
  exact twoBits_fields ..

theorem readSr_chan {n : BitVec 8} {k : Fin 4} (h : n.toNat = 0x14 + k.val) :
    s.readSr n = s.bank.chans[k.val].done.setWidth 64 := by
  fin_cases k <;> simp [State.readSr, h]

end

/-! ## The core's own registers as a cycle ends (R108) -/

/-- The special registers of the core itself, and the writes of them that wait for the end of the cycle. -/
def State.coreSrs (s : State) : Word × DWord × List (BitVec 8 × DWord) := (s.bank.pqwin, s.bank.screen, s.srPend)

section
variable (s : State)

@[simp] theorem coreSrs_mapAgent (a : AgentId) (f : Agent → Agent) : (s.mapAgent a f).coreSrs = s.coreSrs := rfl

@[simp] theorem coreSrs_wr (key : Nat) (bs : List Byte) : (s.wr key bs).coreSrs = s.coreSrs := rfl

/-! ### Budgets and counts -/

@[simp] theorem coreSrs_spendBudget : s.spendBudget.coreSrs = s.coreSrs := by
  unfold State.spendBudget
  split
  · rfl
  · dsimp only
    have hrun : (if s.phase.stopped then s else s.mapRun fun r => { r with budget := r.budget - 1 }).coreSrs = s.coreSrs := by
      split <;> rfl
    split <;> exact hrun

@[simp] theorem coreSrs_chargeCycle : s.chargeCycle.coreSrs = s.coreSrs := by
  have hcount : ∀ t : State, t.countCores.coreSrs = t.coreSrs := fun t => by unfold State.countCores; split <;> rfl
  rw [State.chargeCycle, hcount, coreSrs_spendBudget]

/-! ### Reads and writes that are performed -/

@[simp] theorem coreSrs_dropOf (a : AgentId) (path : Path) (key n : Nat) : (s.dropOf a path key n).coreSrs = s.coreSrs := by
  unfold State.dropOf; split <;> rfl

@[simp] theorem coreSrs_wholeOf (a : AgentId) (path : Path) (key n : Nat) : (s.wholeOf a path key n).coreSrs = s.coreSrs := by
  unfold State.wholeOf
  split
  · rfl
  · exact coreSrs_dropOf ..

theorem coreSrs_readElements (xs : List (Nat × DWord × Nat)) (s : State) (r : PendR) :
    (State.readElements xs s r).1.coreSrs = s.coreSrs := by
  induction xs generalizing s r with
  | nil => rfl
  | cons x xs ih => exact (ih _ _).trans (coreSrs_wholeOf s ..)

theorem coreSrs_readGo (p : PendR → Nat × DWord × Nat → Bool) (rs kept : List PendR) (s : State) :
    (State.readGo p rs kept s).coreSrs = s.coreSrs := by
  induction rs generalizing kept s with
  | nil => rfl
  | cons r rs ih => exact (ih _ _).trans (coreSrs_readElements ..)

@[simp] theorem coreSrs_readsWhere (p : PendR → Nat × DWord × Nat → Bool) : (s.readsWhere p).coreSrs = s.coreSrs := by
  unfold State.readsWhere
  split
  · rfl
  · exact coreSrs_readGo ..

@[simp] theorem coreSrs_noteWrite (who : Party) (path : Path) (key n upto : Nat) :
    (s.noteWrite who path key n upto).coreSrs = s.coreSrs := by
  unfold State.noteWrite
  dsimp only
  split <;> exact coreSrs_readsWhere ..

@[simp] theorem coreSrs_noteRelease (r : Rel) : (s.noteRelease r).coreSrs = s.coreSrs := by
  unfold State.noteRelease; split <;> rfl

@[simp] theorem coreSrs_noteReleases (r : Option Rel) : (s.noteReleases r).coreSrs = s.coreSrs := by
  cases r with
  | none => rfl
  | some r => exact coreSrs_noteRelease s r

@[simp] theorem coreSrs_land (e : PendW) (bs : List Byte) : (s.land e bs).coreSrs = s.coreSrs := by
  rw [State.land, coreSrs_wr, coreSrs_noteWrite]

theorem coreSrs_performAmo (e : PendW) (uid : Nat) (o : AmoOp) (b x : Nat) (d : Bool) (r : Option Rel) :
    (s.performAmo e uid o b x d r).coreSrs = s.coreSrs := by
  unfold State.performAmo
  dsimp only
  split
  · split <;> rfl
  · split
    · rw [coreSrs_noteReleases, coreSrs_land, coreSrs_mapAgent]
    · rfl

@[simp] theorem coreSrs_perform (e : PendW) : (s.perform e).coreSrs = s.coreSrs := by
  have hland : (if e.clean then { s.land e e.bytes with mem := (s.land e e.bytes).mem.cleanGranule (e.key / 64) }
      else s.land e e.bytes).coreSrs = s.coreSrs := by
    split <;> exact coreSrs_land ..
  unfold State.perform
  split
  · exact coreSrs_performAmo ..
  · dsimp only
    split
    · split
      · rw [coreSrs_noteRelease]; exact hland
      · exact hland
    · rfl

theorem coreSrs_settleGo (stays : Nat → PendW → Bool) (i : Nat) (es kept : List PendW) (s : State) :
    (State.settleGo stays i es kept s).coreSrs = s.coreSrs := by
  induction es generalizing i kept s with
  | nil => rfl
  | cons e es ih =>
    rw [State.settleGo]
    split
    · exact ih ..
    · exact (ih ..).trans (coreSrs_perform s e)

@[simp] theorem coreSrs_readEarly (x : AgentId × Path × Nat × Nat) : (s.readEarly x).coreSrs = s.coreSrs := by
  unfold State.readEarly
  dsimp only
  split
  · rfl
  · split
    · split
      · exact coreSrs_dropOf ..
      · rfl
    · rfl

/-- What leaves the core's registers alone at each element of a list does so at all of them. -/
theorem coreSrs_foldl {α : Type} {f : State → α → State} (hf : ∀ s x, (f s x).coreSrs = s.coreSrs) (l : List α) (s : State) :
    (l.foldl f s).coreSrs = s.coreSrs := by
  induction l generalizing s with
  | nil => rfl
  | cons x l ih => exact (ih _).trans (hf s x)

@[simp] theorem coreSrs_memoryCycle : s.memoryCycle.coreSrs = s.coreSrs := by
  unfold State.memoryCycle
  refine (coreSrs_foldl coreSrs_readEarly _ _).trans ?_
  split
  · exact coreSrs_readsWhere ..
  · exact (coreSrs_settleGo ..).trans (coreSrs_readsWhere ..)

/-! ### The scheduler and the end of the cycle -/

theorem coreSrs_moveRec (cx : BitVec 6) (addr : DWord) (st : Nat) (c b : Byte) (n : Nat) :
    (s.moveRec cx addr st c b n).coreSrs = s.coreSrs := by
  unfold State.moveRec
  split
  · dsimp only
    split <;> rfl
  · rfl

theorem coreSrs_wakeRec (r : SRec) : (s.wakeRec r).coreSrs = s.coreSrs := by
  unfold State.wakeRec
  split
  · exact coreSrs_moveRec ..
  · rfl

@[simp] theorem coreSrs_schedule : s.schedule.coreSrs = s.coreSrs := by
  have hreserve : ∀ t : State, t.reserveCores.coreSrs = t.coreSrs := fun t => by unfold State.reserveCores; split <;> rfl
  rw [State.schedule, hreserve]
  exact coreSrs_foldl coreSrs_wakeRec ..

@[simp] theorem coreSrs_restoreTick : s.restoreTick.coreSrs = s.coreSrs := by
  unfold State.restoreTick; split <;> rfl

@[simp] theorem coreSrs_counted (f : Option Freeze) : (s.counted f).coreSrs = s.coreSrs := by
  unfold State.counted; split <;> rfl

@[simp] theorem coreSrs_strike : s.strike.coreSrs = s.coreSrs := by
  unfold State.strike
  split
  · rfl
  · exact coreSrs_counted ..

/-- Of all that a cycle does as it ends, only the writes that wait for it change the core's registers. -/
theorem coreSrs_endCycle : s.endCycle.coreSrs = s.chargeCycle.settleSr.coreSrs := by
  rw [State.endCycle, coreSrs_strike, coreSrs_restoreTick]
  exact (coreSrs_schedule _).trans (coreSrs_memoryCycle _)

theorem chargeCycle_srPend : s.chargeCycle.srPend = s.srPend := congrArg (·.2.2) (coreSrs_chargeCycle s)

theorem endCycle_pqwin :
    s.endCycle.bank.pqwin = (s.srPend.foldl (fun b w => b.writeSr w.1 w.2) s.chargeCycle.bank).pqwin := by
  rw [← chargeCycle_srPend]
  exact congrArg (·.1) (coreSrs_endCycle s)

theorem endCycle_screen :
    s.endCycle.bank.screen = (s.srPend.foldl (fun b w => b.writeSr w.1 w.2) s.chargeCycle.bank).screen := by
  rw [← chargeCycle_srPend]
  exact congrArg (·.2.1) (coreSrs_endCycle s)

theorem endCycle_srPend : s.endCycle.srPend = [] := congrArg (·.2.2) (coreSrs_endCycle s)

end

/-- Settles O14: a read by the register's number, a write by whether it may be written, and the end of a cycle by the order in
which the waiting writes take effect. -/
theorem specialRegisters : Obligations.SpecialRegisters := by
  refine ⟨fun s sc d a n m ha ha' => ⟨⟨s.readSr n, ?_, ?_⟩, fun q i l k => ⟨?_, ?_⟩, ?_, rfl⟩,
    fun s v w _ => ⟨fun h => ?_, fun h => ?_, endCycle_srPend s⟩⟩
  · simp only [← srWide_iff]
    exact exec_rdsr n
  · refine ⟨readSr_at rfl, readSr_at rfl, readSr_at rfl, readSr_at rfl, readSr_at rfl, readSr_at rfl, readSr_at rfl,
      readSr_at rfl, readSr_at rfl, ?_, ?_, fun k => readSr_chan, fun r hr => readSr_run hr⟩
    · rintro rfl
      exact coreid_fields s
    · rintro rfl
      exact recstat_fields s
  · intro h
    simp only [State.newRun, h]
  · intro sub h
    simp only [State.newRun, h]
  · simp only [← srWide_iff, ← srWritable_iff]
    exact exec_wrsr ha ha' n
  · rw [endCycle_screen, h]; rfl
  · rw [endCycle_pqwin, h]; rfl

end Sys2Proof.Machine
end

section
/-! Integer vector instructions and special functions (R115, R116, R119, R122 to R124): lane-wise results without flags, the
lanes of VINT as integers, and the results of VSPC. -/

namespace Sys2Proof.Machine

/-! ## Lane-wise results without flags (R74, R116) -/

theorem lanesWith_noFlags (s : State) (sc : Sched) (d : Opnd) (n : Nat) (m : Gov) (f : Nat → Word) :
    lanesWith s sc d n m (fun i => (f i, 0)) = .next (s.putV sc d n (lanesUnder (s.active m) f) 0) := by
  have hflags : ∀ l : List Nat, l.foldl (fun (x : BitVec 7) _ => x ||| 0) 0 = 0 := fun l => by
    induction l with
    | nil => rfl
    | cons i l ih => exact ih
  rw [lanesWith, hflags]

section
variable {s : State} {sc : Sched} {d A B : Opnd} {t : Ty} {m : Gov} {n : Nat} {g : Nat → Word}

theorem tyOne_of_int (h : t.isLaneInt = true) : tyOne t = 1 := by
  cases t with
  | i32 | n32 | i16 | n16 | i8 | n8 => rfl
  | _ => exact absurd h (by decide)

/-- A lane-wise instruction of one vector that sets no flag. -/
theorem vec1_noFlags {f : Word → Word × BitVec 7} (ht : t.isLaneInt = true) (ha : Readable s A .vec)
    (h : ∀ i, f (lane (s.valV 1 A) i) = (g i, 0)) :
    s.vec1 sc d A t m n f = .next (s.putV sc d n (lanesUnder (s.active m) g) 0) := by
  rw [vec1_lanes ha fun i => (tyOne_of_int ht).symm ▸ h i, lanesWith_noFlags]

/-- A lane-wise instruction of two vectors that sets no flag. -/
theorem vec2_noFlags {f : Word → Word → Word × BitVec 7} (ht : t.isLaneInt = true) (ha : Readable s A .vec)
    (hb : Readable s B .vec) (h : ∀ i, f (lane (s.valV 1 A) i) (lane (s.valV 1 B) i) = (g i, 0)) :
    s.vec2 sc d A B t m n f = .next (s.putV sc d n (lanesUnder (s.active m) g) 0) := by
  rw [vec2_lanes ha hb fun i => (tyOne_of_int ht).symm ▸ h i, lanesWith_noFlags]

end

/-! ## VINT (R119) -/

theorem intOp_eq (t : Ty) (f : Int → Int → Int) (a b : Word) :
    intOp t f a b = (asLane t (f (laneInt t a) (laneInt t b)), 0) := by
  rw [intOp, intLane_eq_asLane, elemInt_eq_laneInt, elemInt_eq_laneInt]

theorem intSat_eq (t : Ty) (f : Int → Int → Int) (a b : Word) :
    intSat t f a b = (asLane t (clampTo t (f (laneInt t a) (laneInt t b))), 0) := by
  rw [intSat, intLane_eq_asLane, elemInt_eq_laneInt, elemInt_eq_laneInt]

theorem bitOp_eq (t : Ty) (f : Nat → Nat → Nat) (a b : Word) : bitOp t f a b = (asLane t (f (elem t a) (elem t b) : Nat), 0) := by
  rw [bitOp, extend_eq_asLane]

theorem shiftOp_eq (t : Ty) (f : Nat → Nat → Nat) (a b : Word) :
    shiftOp t f a b = (asLane t (f (elem t a) (b.toNat % 32) : Nat), 0) := by
  rw [shiftOp, extend_eq_asLane]

theorem sraOp_eq (t : Ty) (a b : Word) : sraOp t a b = (asLane t (laneInt t a / 2 ^ (b.toNat % 32)), 0) := by
  rw [sraOp, intLane_eq_asLane, elemInt_eq_laneInt]

theorem intCmp_eq (t : Ty) (p : Int → Int → Prop) [∀ x y, Decidable (p x y)] (a b : Word) :
    intCmp t (fun x y => decide (p x y)) a b = (if p (laneInt t a) (laneInt t b) then 0xFFFFFFFF else 0, 0) := by
  simp only [intCmp, laneBool, elemInt_eq_laneInt, decide_eq_true_eq]

/-- Settles O23: each instruction by the shape of its family, its lane by the equation of its operation. -/
theorem vintResults : Obligations.VintResults := by
  intro s sc d A B t m ht ha hb
  have hclamp : ∀ z : Int, clampTo t z = Max.max (if t.isLaneSigned then -2 ^ (tyBits t - 1) else 0)
      (Min.min (if t.isLaneSigned then 2 ^ (tyBits t - 1) - 1 else 2 ^ tyBits t - 1) z) := fun z => by
    rw [clampTo, intRange_eq]
  refine ⟨?add, ?sub, ?mul, ?min, ?max, ?abs, ?and, ?or, ?xor, ?shl, ?shr, ?sra, ?adds, ?subs, ?eq, ?lt, ?le⟩
  all_goals dsimp only [exec]
  case add | sub | mul | min | max => exact vec2_noFlags ht ha hb fun i => intOp_eq t _ _ _
  case abs => exact vec1_noFlags ht ha fun i => by rw [intLane_eq_asLane, elemInt_eq_laneInt]
  case and | or | xor => exact vec2_noFlags ht ha hb fun i => bitOp_eq t _ _ _
  case shl | shr => exact vec2_noFlags ht ha hb fun i => shiftOp_eq t _ _ _
  case sra => exact vec2_noFlags ht ha hb fun i => sraOp_eq t _ _
  case adds | subs => exact vec2_noFlags ht ha hb fun i => by rw [intSat_eq, hclamp]
  case eq | lt | le => exact vec2_noFlags ht ha hb fun i => intCmp_eq t _ _ _

/-! ## VSPC (R122 to R124) -/

/-- `vrope` with its vectors readable: the counts are tested before any lane is rotated. -/
theorem exec_vrope {s : State} {A B X : Opnd} (ha : Readable s A .vec) (hb : Readable s B .vec) (hx : Readable s X .vec)
    (sc : Sched) (d : Opnd) (t : Ty) (m : Gov) (r : Rnd) (c : BitVec 3) :
    exec (.vrope sc d A B X t m r c) s = s.finish (if 64 < ropePairs s.cur.rope then s.trapNow 0x0D 0 0
      else .ok (s.putLanes sc d 8 m fun i => ropeLane t r (ropePos s.cur.rope (s.valV 1 X) (8 * c.toNat + i / 2))
        (lane (s.valV (tyOne .f32) B) (2 * (i / 2))) (lane (s.valV (tyOne t) A) (2 * (i / 2)))
        (lane (s.valV (tyOne t) A) (2 * (i / 2) + 1)) (i % 2 == 1))) := by
  simp only [exec, execVrope, rdV_ok ha, rdV_ok hb, rdV_ok hx, bind, Except.bind, pure, Except.pure]

/-- Settles O27: the functions by the shape of their family, the rotation by the test of its counts. -/
theorem vspcResults : Obligations.VspcResults := by
  intro s sc d A B X a t m r c ht ha hb hx hs
  have hint := Ty.isLaneInt_of_float ht
  refine ⟨?rcp, ?rsqrt, ?sqrt, ?exp2, ?log2, ?div, fun h => ?rope, fun h => ?counts, ?rng⟩
  case rcp | rsqrt | sqrt | exp2 | log2 =>
    dsimp only [exec]
    exact vec1_lanes ha fun i => floatLane_eq hint _
  case div =>
    dsimp only [exec]
    exact vec2_lanes ha hb fun i => floatLane_eq hint _
  case rope =>
    have hfit : ropePairs s.cur.rope ≤ 64 := h
    rw [exec_vrope ha hb hx, if_neg (Nat.not_lt.2 hfit), finish_ok, next_putLanes]
    rfl
  case counts =>
    have hover : 64 < ropePairs s.cur.rope := h
    rw [exec_vrope ha hb hx, if_pos hover, finish_trapNow]
  case rng =>
    dsimp only [exec, execVrng]
    rw [rd32_ok hs]
    exact next_putLanes ..

end Sys2Proof.Machine
end

section
/-! Moves of lanes and the mask instructions (R129, R132 to R135): the lanes that a mask keeps, in order, and the bits that a
mask instruction writes. -/

namespace Sys2Proof.Machine

/-! ## The members of a range that a test keeps -/

/-- A kept number stands where as many kept numbers are below it. -/
theorem getElem?_filter_range {p : Nat → Bool} {n i : Nat} (hi : i < n) (hp : p i = true) :
    ((List.range n).filter p)[((List.range i).filter p).length]? = some i := by
  obtain ⟨k, rfl⟩ : ∃ k, n = (i + 1) + k := ⟨n - (i + 1), by omega⟩
  rw [List.range_add, List.range_succ, List.filter_append, List.filter_append, List.append_assoc,
    List.getElem?_append_right (le_refl _), Nat.sub_self, List.filter_cons_of_pos hp]
  rfl

/-- The first kept number is kept, and none below it is. -/
theorem first_of_filter_range {p : Nat → Bool} {n i : Nat} {l : List Nat} (h : (List.range n).filter p = i :: l) :
    i < n ∧ p i = true ∧ ∀ j, j < i → p j = false := by
  have hmem : ∀ j, j ∈ i :: l ↔ j < n ∧ p j = true := fun j => by rw [← h, List.mem_filter, List.mem_range]
  have hsorted : (i :: l).Pairwise (· < ·) := h ▸ List.Pairwise.filter p List.pairwise_lt_range
  obtain ⟨hin, hpi⟩ := (hmem i).1 List.mem_cons_self
  refine ⟨hin, hpi, fun j hj => Bool.eq_false_iff.2 fun hpj => ?_⟩
  rcases List.mem_cons.1 ((hmem j).2 ⟨hj.trans hin, hpj⟩) with rfl | hl
  · exact Nat.lt_irrefl _ hj
  · exact Nat.lt_asymm hj ((List.pairwise_cons.1 hsorted).1 j hl)

/-! ## VLANE (R129, R132) -/

/-- An index of `vperm` names a lane of X from 16 on, by bit 4. -/
theorem vperm_lane (u w : Vec) (b : Word) : (if b.getLsbD 4 then lane w (b.toNat % 16) else lane u (b.toNat % 16))
    = if b.toNat % 32 < 16 then lane u (b.toNat % 32) else lane w (b.toNat % 32 - 16) := by
  have hbit : b.getLsbD 4 = decide (b.toNat / 2 ^ 4 % 2 = 1) := Nat.testBit_eq_decide_div_mod_eq
  by_cases h : b.toNat % 32 < 16
  · rw [hbit, decide_eq_false (by omega), if_pos h, show b.toNat % 32 = b.toNat % 16 by omega]; rfl
  · rw [hbit, decide_eq_true (by omega), if_neg h, show b.toNat % 32 - 16 = b.toNat % 16 by omega]; rfl

/-- The lanes that a mask keeps, moved together. -/
def packed (act : BitVec 16) (u : Vec) : Vec := mkVec fun i => match (lanesOf act)[i]? with | some j => lane u j | none => 0

theorem lane_packed_kept {act : BitVec 16} (u : Vec) {i : Nat} (hi : i < 16) (h : act.getLsbD i = true) :
    lane (packed act u) ((List.range i).filter fun j => act.getLsbD j).length = lane u i := by
  have hlt : ((List.range i).filter fun j => act.getLsbD j).length < 16 :=
    Nat.lt_of_le_of_lt ((List.length_filter_le _ _).trans_eq List.length_range) hi
  rw [packed, lane_mkVec _ hlt, lanesOf, getElem?_filter_range hi h]

theorem lane_packed_rest {act : BitVec 16} (u : Vec) {i : Nat} (hi : i < 16)
    (h : ((List.range 16).filter fun j => act.getLsbD j).length ≤ i) : lane (packed act u) i = 0 := by
  rw [packed, lane_mkVec _ hi, lanesOf, List.getElem?_eq_none h]

section
variable {s : State} {A B X a b : Opnd}

theorem exec_vbcast (ha : Readable s a .w32) (sc : Sched) (d : Opnd) (m : Gov) :
    exec (.vbcast sc d a m) s = .next (s.putV sc d 2 (lanesUnder (s.active m) fun _ => s.val32 a) 0) := by
  rw [← lanesWith_noFlags, ← next_putLanes]
  simp only [exec, execVbcast, rd32_ok ha, bind, Except.bind, pure, Except.pure, finish_ok]

theorem exec_vext (ha : Readable s A .vec) (hb : Readable s b .w32) (sc : Sched) (d : Opnd) :
    exec (.vext sc d A b) s = .next (s.put sc d 3 (lane (s.valV 1 A) ((s.val32 b).toNat % 16))) := by
  simp only [exec, execVext, rdV_ok ha, rd32_ok hb, bind, Except.bind, pure, Except.pure, finish_ok]

theorem exec_vins (hA : Readable s A .vec) (ha : Readable s a .w32) (hb : Readable s b .w32) (sc : Sched) (d : Opnd) :
    exec (.vins sc d A a b) s = .next (s.putV sc d 2
      (mkVec fun i => if i = (s.val32 b).toNat % 16 then s.val32 a else lane (s.valV 1 A) i) 0) := by
  simp only [exec, execVins, rdV_ok hA, rd32_ok ha, rd32_ok hb, bind, Except.bind, pure, Except.pure, finish_ok]

theorem exec_vperm (ha : Readable s A .vec) (hb : Readable s B .vec) (hx : Readable s X .vec) (sc : Sched) (d : Opnd) (m : Gov) :
    exec (.vperm sc d A B X m) s = .next (s.putV sc d 3 (lanesUnder (s.active m) fun i =>
      let k := (lane (s.valV 1 B) i).toNat % 32
      if k < 16 then lane (s.valV 1 A) k else lane (s.valV 1 X) (k - 16)) 0) := by
  rw [← lanesWith_noFlags, ← next_putLanes]
  simp only [exec, execVperm, rdV_ok ha, rdV_ok hb, rdV_ok hx, bind, Except.bind, pure, Except.pure, finish_ok, vperm_lane]

theorem exec_vcompress (ha : Readable s A .vec) (sc : Sched) (d : Opnd) (m : Gov) :
    exec (.vcompress sc d A m) s = .next (s.putV sc d 3 (packed (s.active m) (s.valV 1 A)) 0) := by
  simp only [exec, execVcompress, rdV_ok ha, bind, Except.bind, pure, Except.pure, finish_ok]
  rfl

end

/-! ## MASK (R133 to R135) -/

/-- Mask register 0 reads as all ones. -/
theorem mask_eq (a : Agent) (i : BitVec 3) : a.mask i = if i = 0 then 0xFFFF else a.m[i.toNat] := by
  have hi : i.toNat < a.m.toArray.size := a.m.size_toArray.symm ▸ i.isLt
  rw [Agent.mask, Vector.getD, Array.getD, dif_pos hi]; rfl

theorem getLsbD_ones {n i : Nat} (hi : i < 16) : (BitVec.ofNat 16 (2 ^ n - 1)).getLsbD i = decide (i < n) := by
  rw [BitVec.getLsbD_ofNat, decide_eq_true hi, Bool.true_and, Nat.testBit_two_pow_sub_one]

theorem getLsbD_one_bit {n i : Nat} (hi : i < 16) : (BitVec.ofNat 16 (2 ^ n)).getLsbD i = decide (n = i) := by
  rw [BitVec.getLsbD_ofNat, decide_eq_true hi, Bool.true_and, Nat.testBit_two_pow]

/-- The mask of the lowest bit that is set. -/
def firstBit (x : BitVec 16) : BitVec 16 :=
  match lanesOf x with
  | i :: _ => BitVec.ofNat 16 (2 ^ i)
  | [] => 0

theorem getLsbD_firstBit (x : BitVec 16) {i : Nat} (hi : i < 16) :
    (firstBit x).getLsbD i = true ↔ x.getLsbD i = true ∧ ∀ j, j < i → x.getLsbD j = false := by
  unfold firstBit
  split
  next k l hk =>
    obtain ⟨-, hset, hbelow⟩ := first_of_filter_range hk
    rw [getLsbD_one_bit hi, decide_eq_true_eq]
    constructor
    · rintro rfl
      exact ⟨hset, hbelow⟩
    · rintro ⟨hxi, hfirst⟩
      rcases Nat.lt_trichotomy k i with h | h | h
      · exact absurd hset (by simp [hfirst k h])
      · exact h
      · exact absurd hxi (by simp [hbelow i h])
  next hnil =>
    have hclear : x.getLsbD i ≠ true := List.filter_eq_nil_iff.1 hnil i (List.mem_range.2 hi)
    simp [hclear]

/-- The mask with one bit set or cleared. -/
def withBit (x : BitVec 16) (n : BitVec 4) (clr : Bool) : BitVec 16 :=
  if clr then x &&& ~~~BitVec.ofNat 16 (2 ^ n.toNat) else x ||| BitVec.ofNat 16 (2 ^ n.toNat)

theorem getLsbD_withBit (x : BitVec 16) (n : BitVec 4) (clr : Bool) {i : Nat} (hi : i < 16) :
    (withBit x n clr).getLsbD i = if i = n.toNat then !clr else x.getLsbD i := by
  unfold withBit
  cases clr with
  | true =>
    rw [if_pos rfl, BitVec.getLsbD_and, BitVec.getLsbD_not, decide_eq_true hi, getLsbD_one_bit hi, Bool.true_and]
    by_cases h : i = n.toNat <;> simp [h, eq_comm]
  | false =>
    rw [if_neg (by decide), BitVec.getLsbD_or, getLsbD_one_bit hi]
    by_cases h : i = n.toNat <;> simp [h, eq_comm]

theorem exec_mset {s : State} {b : Opnd} (hb : Readable s b .w32) (D : BitVec 3) :
    exec (.mset D b) s = .next (s.putMask D ((s.val32 b).setWidth 16)) := by
  simp only [exec, execMset, rd32_ok hb, bind, Except.bind, pure, Except.pure, finish_ok]

/-- Settles O30: each move by its equation, each mask by its bits. -/
theorem lanesAndMasks : Obligations.LanesAndMasks := by
  refine ⟨fun s sc d A B X a b m hA hB hX ha hb => ?lanes, fun s sc D A B d b n hb => ?masks⟩
  case lanes =>
    exact ⟨exec_vbcast ha sc d m, exec_vext hA hb sc d, exec_vins hA ha hb sc d, exec_vperm hA hB hX sc d m, _,
      exec_vcompress hA sc d m, fun i hi h => lane_packed_kept _ hi h, fun i h hi => lane_packed_rest _ hi h⟩
  case masks =>
    simp only [← mask_eq]
    refine ⟨rfl, rfl, rfl, rfl, ?mset, rfl, ⟨_, rfl, fun i hi => getLsbD_ones hi⟩,
      ⟨firstBit (s.cur.mask A), rfl, fun i hi => getLsbD_firstBit _ hi⟩,
      fun clr => ⟨withBit (s.cur.mask A) n clr, rfl, fun i hi => getLsbD_withBit _ n clr hi⟩⟩
    case mset => rw [exec_mset hb, BitVec.setWidth_eq_extractLsb' (by decide)]; rfl

end Sys2Proof.Machine
end

section
/-! The order of the codes of a float type (R120, R121, R131): it is the order of sign and magnitude, -0 below +0. -/

namespace Sys2Proof.Machine

/-! ## Codes in the order of their values -/

/-- An integer of a sign and a magnitude. -/
def signedInt (n : Bool) (x : Nat) : Int := if n then -x else x

theorem signedInt_mul (n : Bool) (x k : Nat) : signedInt n (x * k) = signedInt n x * k := by
  unfold signedInt
  split <;> push_cast <;> ring

/-- Against a larger magnitude the larger one's sign decides. -/
theorem signedInt_lt_larger {x y : Nat} (h : x < y) (n n' : Bool) : signedInt n x < signedInt n' y ↔ n' = false := by
  cases n <;> cases n' <;> simp [signedInt] <;> omega

theorem larger_lt_signedInt {x y : Nat} (h : x < y) (n n' : Bool) : signedInt n' y < signedInt n x ↔ n' = true := by
  cases n <;> cases n' <;> simp [signedInt] <;> omega

/-- Finite values compare as their magnitudes in a unit that divides both. -/
theorem vLt_units {u e₁ e₂ : Int} (h₁ : u ≤ e₁) (h₂ : u ≤ e₂) (n₁ n₂ : Bool) (m₁ m₂ : Nat) :
    vLt (.fin n₁ m₁ e₁) (.fin n₂ m₂ e₂)
      = decide (signedInt n₁ (m₁ * 2 ^ (e₁ - u).toNat) < signedInt n₂ (m₂ * 2 ^ (e₂ - u).toNat)) := by
  have hu : u ≤ min e₁ e₂ := le_min h₁ h₂
  have hsplit : ∀ (m : Nat) (e : Int), min e₁ e₂ ≤ e →
      m * 2 ^ (e - u).toNat = m * 2 ^ (e - min e₁ e₂).toNat * 2 ^ (min e₁ e₂ - u).toNat := fun m e he => by
    rw [Nat.mul_assoc, ← Nat.pow_add]
    congr 2; omega
  have hpos : (0 : Int) < (2 ^ (min e₁ e₂ - u).toNat : Nat) := by positivity
  rw [hsplit m₁ e₁ (min_le_left _ _), hsplit m₂ e₂ (min_le_right _ _), signedInt_mul n₁, signedInt_mul n₂]
  exact decide_eq_decide.2 (mul_lt_mul_iff_left₀ hpos).symm

/-- The magnitude of a finite code without its sign, in the least unit of its type. -/
def codeUnits (t : Ty) (c : Nat) : Nat :=
  if c < 2 ^ (ffmt t).mb then c else (2 ^ (ffmt t).mb + c % 2 ^ (ffmt t).mb) * 2 ^ (c / 2 ^ (ffmt t).mb - 1)

theorem codeUnits_lt (t : Ty) (c : Nat) : codeUnits t c < 2 ^ (ffmt t).mb * 2 ^ (c / 2 ^ (ffmt t).mb) := by
  have hA := Nat.two_pow_pos (ffmt t).mb
  unfold codeUnits
  split
  case isTrue hs => exact Nat.lt_of_lt_of_le hs (Nat.le_mul_of_pos_right _ (Nat.two_pow_pos _))
  case isFalse hn =>
    obtain ⟨q, hq⟩ := Nat.exists_eq_succ_of_ne_zero (Nat.div_pos (Nat.le_of_not_lt hn) hA).ne'
    have hlt : 2 ^ (ffmt t).mb + c % 2 ^ (ffmt t).mb < 2 * 2 ^ (ffmt t).mb := by have := Nat.mod_lt c hA; omega
    calc (2 ^ (ffmt t).mb + c % 2 ^ (ffmt t).mb) * 2 ^ (c / 2 ^ (ffmt t).mb - 1)
        < 2 * 2 ^ (ffmt t).mb * 2 ^ q := by rw [hq]; exact Nat.mul_lt_mul_of_pos_right hlt (Nat.two_pow_pos _)
      _ = 2 ^ (ffmt t).mb * 2 ^ (c / 2 ^ (ffmt t).mb) := by rw [hq, Nat.pow_succ]; ring

theorem codeUnits_strictMono (t : Ty) : StrictMono (codeUnits t) := by
  intro c d h
  have hA := Nat.two_pow_pos (ffmt t).mb
  rcases (Nat.div_le_div_right (c := 2 ^ (ffmt t).mb) h.le).lt_or_eq with hq | hq
  · have hd : ¬ d < 2 ^ (ffmt t).mb := fun hs => by rw [Nat.div_eq_of_lt hs] at hq; exact Nat.not_lt_zero _ hq
    calc codeUnits t c < 2 ^ (ffmt t).mb * 2 ^ (c / 2 ^ (ffmt t).mb) := codeUnits_lt t c
      _ ≤ (2 ^ (ffmt t).mb + d % 2 ^ (ffmt t).mb) * 2 ^ (d / 2 ^ (ffmt t).mb - 1) :=
        Nat.mul_le_mul (Nat.le_add_right _ _) (Nat.pow_le_pow_right (by decide) (by omega))
      _ = codeUnits t d := by rw [codeUnits, if_neg hd]
  · unfold codeUnits
    have hside : c < 2 ^ (ffmt t).mb ↔ d < 2 ^ (ffmt t).mb := by
      rw [← Nat.div_eq_zero_iff_lt hA, hq, Nat.div_eq_zero_iff_lt hA]
    have hrem : c % 2 ^ (ffmt t).mb < d % 2 ^ (ffmt t).mb := by
      have hc := Nat.div_add_mod c (2 ^ (ffmt t).mb)
      have hd := Nat.div_add_mod d (2 ^ (ffmt t).mb)
      rw [hq] at hc
      omega
    by_cases hs : d < 2 ^ (ffmt t).mb
    · rwa [if_pos (hside.2 hs), if_pos hs]
    · rw [if_neg (hside.not.2 hs), if_neg hs, hq]
      exact Nat.mul_lt_mul_of_pos_right (by omega) (Nat.two_pow_pos _)

section
variable {t : Ty} (ht : t.isLaneFloat = true)
include ht

/-- A code below infinity's stands for that many of the least units. -/
theorem fval_fin_units (neg : Bool) {c : Nat} (hc : c < infCode t) : ∃ (m : Nat) (e : Int),
    fval t (withSign t neg c) = .fin neg m e ∧ expMin t ≤ e ∧ m * 2 ^ (e - expMin t).toNat = codeUnits t c ∧ (m = 0 ↔ c = 0) := by
  have hA := Nat.two_pow_pos (ffmt t).mb
  rw [fval_withSign ht neg hc, codeUnits]
  by_cases hs : c < 2 ^ (ffmt t).mb
  · exact ⟨c, expMin t, if_pos hs, le_refl _, by rw [if_pos hs, Int.sub_self]; exact Nat.mul_one c, Iff.rfl⟩
  · have hq := Nat.div_pos (Nat.le_of_not_lt hs) hA
    refine ⟨_, _, if_neg hs, by rw [expMin]; omega, ?_, by omega⟩
    rw [if_neg hs, expMin]
    congr 2; omega

/-- Codes up to infinity's compare as their units with their signs. -/
theorem vLt_codes (n n' : Bool) {c d : Nat} (hc : c ≤ infCode t) (hd : d ≤ infCode t) :
    vLt (fval t (withSign t n c)) (fval t (withSign t n' d))
      = decide (signedInt n (codeUnits t c) < signedInt n' (codeUnits t d)) := by
  rcases hc.lt_or_eq with hc | rfl
  · obtain ⟨m, e, h, he, hu, -⟩ := fval_fin_units ht n hc
    rcases hd.lt_or_eq with hd | rfl
    · obtain ⟨m', e', h', he', hu', -⟩ := fval_fin_units ht n' hd
      rw [h, h', vLt_units he he', hu, hu']
    · rw [h, fval_infCode ht, decide_eq_decide.2 (signedInt_lt_larger (codeUnits_strictMono t hc) n n')]
      cases n' <;> rfl
  · rw [fval_infCode ht]
    rcases hd.lt_or_eq with hd | rfl
    · obtain ⟨m', e', h', -⟩ := fval_fin_units ht n' hd
      rw [h', decide_eq_decide.2 (larger_lt_signedInt (codeUnits_strictMono t hd) n' n)]
      cases n <;> rfl
    · have hpos : 0 < codeUnits t (infCode t) := by
        refine lt_of_lt_of_le ?_ (codeUnits_strictMono t).le_apply
        cases t with
        | f32 | f16 | bf16 => decide
        | _ => exact absurd ht (by decide)
      have hneg : -(codeUnits t (infCode t) : Int) < codeUnits t (infCode t) := by omega
      rw [fval_infCode ht]
      cases n <;> cases n' <;> simp [vLt, signedInt, hneg]

theorem isZero_code (n : Bool) {c : Nat} (hc : c ≤ infCode t) : (fval t (withSign t n c)).isZero = decide (c = 0) := by
  rcases hc.lt_or_eq with hc | rfl
  · obtain ⟨m, e, h, -, -, hz⟩ := fval_fin_units ht n hc
    rw [h, ← decide_eq_decide.2 hz]; rfl
  · rw [fval_infCode ht]
    cases t with
    | f32 | f16 | bf16 => rfl
    | _ => exact absurd ht (by decide)

theorem neg_code (n : Bool) {c : Nat} (hc : c ≤ infCode t) : (fval t (withSign t n c)).neg = n := by
  rcases hc.lt_or_eq with hc | rfl
  · obtain ⟨m, e, h, -⟩ := fval_fin_units ht n hc
    rw [h]; rfl
  · rw [fval_infCode ht]; rfl

theorem isNaN_of_fields {a : Nat} (he : a / 2 ^ (ffmt t).mb % 2 ^ (ffmt t).eb = 2 ^ (ffmt t).eb - 1)
    (hm : a % 2 ^ (ffmt t).mb ≠ 0) : (fval t a).isNaN = true := by
  rw [fval_eq ht]
  dsimp only
  rw [if_pos he, if_neg hm]; rfl

/-- A code above infinity's, its sign left out, is a NaN. -/
theorem isNaN_withSign (neg : Bool) {c : Nat} (hc : infCode t < c) (hs : c < signBit t) :
    (fval t (withSign t neg c)).isNaN = true := by
  obtain ⟨he, hm⟩ : withSign t neg c / 2 ^ (ffmt t).mb % 2 ^ (ffmt t).eb = 2 ^ (ffmt t).eb - 1 ∧
      withSign t neg c % 2 ^ (ffmt t).mb ≠ 0 := by
    unfold withSign
    cases t with
    | f32 | f16 | bf16 =>
      simp only [infCode, signBit, ffmt] at hc hs ⊢
      split <;> omega
    | _ => exact absurd ht (by decide)
  exact isNaN_of_fields ht he hm

theorem codes_of_number {a : Nat} (ha : a < 2 ^ tyBits t) (hn : (fval t a).isNaN = false) :
    ∃ (neg : Bool) (c : Nat), a = withSign t neg c ∧ c ≤ infCode t := by
  have hw : 2 ^ tyBits t = 2 * signBit t := by
    cases t with
    | f32 | f16 | bf16 => rfl
    | _ => exact absurd ht (by decide)
  have key : ∀ neg c, a = withSign t neg c → c < signBit t → c ≤ infCode t := fun neg c hac hc => by
    by_contra hlt
    rw [hac, isNaN_withSign ht neg (Nat.not_le.1 hlt) hc] at hn
    exact Bool.noConfusion hn
  by_cases hs : a < signBit t
  · exact ⟨false, a, rfl, key false a rfl hs⟩
  · have hac : a = withSign t true (a - signBit t) := by rw [withSign, if_pos rfl]; omega
    exact ⟨true, _, hac, key true _ hac (by omega)⟩

end

/-- The place of a code in the order of values: -0 just below +0. -/
def codeKey (t : Ty) (a : Nat) : Int := if a < signBit t then a else -((a - signBit t : Nat) : Int) - 1

theorem codeKey_injective (t : Ty) : Function.Injective (codeKey t) := by
  intro a b h
  unfold codeKey at h
  split at h <;> split at h <;> omega

theorem codeKey_withSign {t : Ty} (neg : Bool) {c : Nat} (h : c < signBit t) :
    codeKey t (withSign t neg c) = if neg then -(c : Int) - 1 else c := by
  cases neg with
  | false => exact if_pos h
  | true =>
    have hc : withSign t true c - signBit t = c := Nat.add_sub_cancel ..
    rw [codeKey, if_neg (by rw [withSign, if_pos rfl]; omega), hc, if_pos rfl]

/-- Of numbers of a float type the one with the lower key orders below. -/
theorem vBelow_eq {t : Ty} (ht : t.isLaneFloat = true) {a b : Nat} (ha : a < 2 ^ tyBits t) (hb : b < 2 ^ tyBits t)
    (hna : (fval t a).isNaN = false) (hnb : (fval t b).isNaN = false) :
    vBelow (fval t a) (fval t b) = decide (codeKey t a < codeKey t b) := by
  have hinf : infCode t < signBit t := by
    cases t with
    | f32 | f16 | bf16 => decide
    | _ => exact absurd ht (by decide)
  obtain ⟨n₁, c, rfl, hc⟩ := codes_of_number ht ha hna
  obtain ⟨n₂, d, rfl, hd⟩ := codes_of_number ht hb hnb
  rw [codeKey_withSign n₁ (hc.trans_lt hinf), codeKey_withSign n₂ (hd.trans_lt hinf)]
  have hmono : codeUnits t c < codeUnits t d ↔ c < d := (codeUnits_strictMono t).lt_iff_lt
  have hmono' : codeUnits t d < codeUnits t c ↔ d < c := (codeUnits_strictMono t).lt_iff_lt
  have hle : c ≤ codeUnits t c ∧ d ≤ codeUnits t d :=
    ⟨(codeUnits_strictMono t).le_apply, (codeUnits_strictMono t).le_apply⟩
  rw [vBelow, vLt_codes ht n₁ n₂ hc hd, isZero_code ht n₁ hc, isZero_code ht n₂ hd, neg_code ht n₁ hc, neg_code ht n₂ hd,
    Bool.eq_iff_iff]
  match n₁, n₂ with
  | false, false | true, true => simp [signedInt]; omega
  | true, false | false, true => simp [signedInt]; omega

end Sys2Proof.Machine
end

section
/-! Minimum and maximum by the order of the codes (R121), the worked conversions (R76 to R78) and the special values of the
special functions (R122). -/

namespace Sys2Proof.Machine

/-! ## `vfmin` and `vfmax` (R121) -/

theorem vBelow_of_vLt {x y : FVal} (h : vLt x y = true) : vBelow x y = true := by rw [vBelow, h, Bool.true_or]

theorem fMinMax_flags (t : Ty) (isMax : Bool) (a b : Nat) : (fMinMax t isMax a b).2
    = if (fval t a).isSig ∨ (fval t b).isSig then 0x01 else 0 := by
  simp only [fMinMax, flagIf, flIV, Bool.or_eq_true]

/-- Minimum and maximum where an operand is no number. -/
theorem fMinMax_nan_left {t : Ty} {a b : Nat} (hx : (fval t a).isNaN = true) (hy : (fval t b).isNaN = false) (isMax : Bool) :
    (fMinMax t isMax a b).1 = b := by simp [fMinMax, hx, hy]

theorem fMinMax_nan_right {t : Ty} {a b : Nat} (hx : (fval t a).isNaN = false) (hy : (fval t b).isNaN = true) (isMax : Bool) :
    (fMinMax t isMax a b).1 = a := by simp [fMinMax, hx, hy]

theorem fMinMax_nans {t : Ty} {a b : Nat} (hx : (fval t a).isNaN = true) (hy : (fval t b).isNaN = true) (isMax : Bool) :
    (fMinMax t isMax a b).1 = canonNaN t := by simp [fMinMax, hx, hy]

section
variable {t : Ty} {a b : Nat} (ht : t.isLaneFloat = true) (ha : a < 2 ^ tyBits t) (hb : b < 2 ^ tyBits t)
  (hx : (fval t a).isNaN = false) (hy : (fval t b).isNaN = false)
include ht ha hb hx hy

/-- Of two numbers the minimum is the one with the lower key. -/
theorem fMin_numbers : (fMinMax t false a b).1 = if codeKey t b < codeKey t a then b else a := by
  simp [fMinMax, hx, hy, vBelow_eq ht hb ha hy hx]

theorem fMax_numbers : (fMinMax t true a b).1 = if codeKey t a < codeKey t b then b else a := by
  simp [fMinMax, hx, hy, vBelow_eq ht ha hb hx hy]

theorem codeKey_lt_of_vLt (h : vLt (fval t a) (fval t b) = true) : codeKey t a < codeKey t b :=
  of_decide_eq_true ((vBelow_eq ht ha hb hx hy).symm.trans (vBelow_of_vLt h))

/-- Of two numbers one is the minimum and the other the maximum. -/
theorem fMinMax_pair : (fMinMax t false a b).1 = a ∧ (fMinMax t true a b).1 = b ∧ codeKey t a ≤ codeKey t b ∨
    (fMinMax t false a b).1 = b ∧ (fMinMax t true a b).1 = a ∧ codeKey t b ≤ codeKey t a := by
  rw [fMin_numbers ht ha hb hx hy, fMax_numbers ht ha hb hx hy]
  rcases lt_trichotomy (codeKey t a) (codeKey t b) with h | h | h
  · exact .inl ⟨if_neg h.not_gt, if_pos h, h.le⟩
  · have hab : a = b := codeKey_injective t h
    subst hab
    exact .inl ⟨ite_self _, ite_self _, le_refl _⟩
  · exact .inr ⟨if_pos h, if_neg h.not_gt, h.le⟩

theorem vLt_fMax_fMin : vLt (fval t (fMinMax t true a b).1) (fval t (fMinMax t false a b).1) = false := by
  refine Bool.eq_false_iff.2 fun h => ?_
  rcases fMinMax_pair ht ha hb hx hy with ⟨hmin, hmax, hle⟩ | ⟨hmin, hmax, hle⟩
  · rw [hmin, hmax] at h
    exact hle.not_gt (codeKey_lt_of_vLt ht hb ha hy hx h)
  · rw [hmin, hmax] at h
    exact hle.not_gt (codeKey_lt_of_vLt ht ha hb hx hy h)

end

/-- -0 orders below +0. -/
theorem fMinMax_zeros {t : Ty} (ht : t.isLaneFloat = true) :
    (fMinMax t false (2 ^ (tyBits t - 1)) 0).1 = 2 ^ (tyBits t - 1) ∧ (fMinMax t true (2 ^ (tyBits t - 1)) 0).1 = 0 ∧
    (fMinMax t false 0 (2 ^ (tyBits t - 1))).1 = 2 ^ (tyBits t - 1) ∧ (fMinMax t true 0 (2 ^ (tyBits t - 1))).1 = 0 := by
  cases t with
  | f32 | f16 | bf16 => decide +kernel
  | _ => exact absurd ht (by decide)

/-! ## Worked conversions and special values (R76 to R78, R122) -/

/-- The rows of 04_numbers.md. -/
theorem worked_conversions :
    cvtFF .e4m3 .f32 ⟨.rne, false⟩ 0x43960000 = (0x79, 0x10) ∧
    cvtFF .e4m3 .f32 ⟨.rne, false⟩ 0x43FA0000 = (0x7E, 0x14) ∧
    cvtFF .f6 .f32 ⟨.rne, false⟩ 0x3E99999A = (0x05, 0x10) ∧
    cvtFF .bf16 .f32 ⟨.rne, false⟩ 0x3F808000 = (0x3F80, 0x10) ∧
    cvtFF .bf16 .f32 ⟨.rup, false⟩ 0x3F808000 = (0x3F81, 0x10) ∧
    cvtFF .f16 .f32 ⟨.rne, false⟩ 0x4788B800 = (0x7C00, 0x14) ∧
    cvtFF .f16 .f32 ⟨.rne, true⟩ 0x4788B800 = (0x7BFF, 0x14) ∧
    cvtFI .i32 .f32 .rne 0xC0200000 = (-2, 0x10) ∧
    cvtFI .i32 .f32 .rne 0x4F32D05E = (0x7FFFFFFF, 0x01) ∧
    cvtFF .e4m3 .f16 ⟨.rne, false⟩ 0x7E00 = (0x7F, 0x01) := by decide +kernel

/-- `Round` of 1 is exact in every mode. -/
theorem roundTo_one (r : Rnd) : roundTo .f32 r.mode r.sat false 1 0 false = (0x3F800000, 0) := by
  obtain ⟨mode, sat⟩ := r
  cases mode <;> decide +kernel +revert

/-- 2^0 is 1, whatever the sign of the zero. -/
theorem exp2Fin_zero (t : Ty) (r : Rnd) (neg : Bool) (e : Int) :
    exp2Fin t r neg 0 e = roundTo t r.mode r.sat false 1 0 false := by
  simp only [exp2Fin, Nat.zero_mul, ite_self, Nat.cast_zero, neg_zero, Int.zero_ediv, Int.zero_mul, Int.sub_self,
    Int.toNat_zero, if_true]
  rfl

/-- The logarithm of a power of two is its exponent. -/
theorem log2Fin_pow (t : Ty) (r : Rnd) (l : Nat) (e : Int) :
    log2Fin t r (2 ^ l) e = roundTo t r.mode r.sat (decide ((l : Int) + e < 0)) ((l : Int) + e).natAbs 0 false := by
  simp only [log2Fin, Nat.log2_two_pow, if_true]

/-- The f32 codes of the zeros, the infinities, and 1 and -1. -/
theorem f32_codes : fval .f32 0 = .fin false 0 (-149) ∧ fval .f32 0x80000000 = .fin true 0 (-149) ∧
    fval .f32 0x7F800000 = .inf false ∧ fval .f32 0xFF800000 = .inf true ∧
    fval .f32 0x3F800000 = .fin false (2 ^ 23) (-23) ∧ fval .f32 0xBF800000 = .fin true (2 ^ 23) (-23) := by decide +kernel

/-- A NaN gives the canonical NaN, with IV where it is a signalling one. -/
theorem special_nan {r : Rnd} {x : Nat} (hx : (fval .f32 x).isNaN = true) {f : Ty → Rnd → Nat → Nat × BitVec 7}
    (hf : f ∈ [fRcp, fRsqrt, fSqrt, fExp2, fLog2]) :
    f .f32 r x = (0x7FC00000, if (fval .f32 x).isSig then 0x01 else 0) := by
  obtain ⟨sig, hval⟩ : ∃ sig, fval .f32 x = .nan sig := by
    cases hv : fval .f32 x with
    | nan sig => exact ⟨sig, rfl⟩
    | inf n => rw [hv] at hx; exact Bool.noConfusion hx
    | fin n m e => rw [hv] at hx; exact Bool.noConfusion hx
  simp only [List.mem_cons, List.not_mem_nil, or_false] at hf
  rcases hf with rfl | rfl | rfl | rfl | rfl <;> simp only [fRcp, fRsqrt, fSqrt, fExp2, fLog2, hval] <;> rfl

/-- Settles O25: minimum and maximum by the order of the codes, the conversions by evaluation, the special values by the kind of
value that each code stands for. -/
theorem floatRules : Obligations.FloatRules := by
  refine ⟨fun t a b ht ha hb => ⟨fun hx hy => ?left, fun hx hy => ?right, fun hx hy => ?nans, fun hx hy => ?numbers, ?zeros,
    fun z => fMinMax_flags t z a b⟩, worked_conversions, fun r => ?special⟩
  case left => exact ⟨fMinMax_nan_left hx hy false, fMinMax_nan_left hx hy true⟩
  case right => exact ⟨fMinMax_nan_right hx hy false, fMinMax_nan_right hx hy true⟩
  case nans => exact ⟨fMinMax_nans hx hy false, fMinMax_nans hx hy true⟩
  case numbers =>
    refine ⟨?pair, fun h => ?less, fun h => ?greater, vLt_fMax_fMin ht ha hb hx hy⟩
    case pair =>
      exact (fMinMax_pair ht ha hb hx hy).imp (fun ⟨hmin, hmax, _⟩ => ⟨hmin, hmax⟩) fun ⟨hmin, hmax, _⟩ => ⟨hmin, hmax⟩
    case less => rw [fMin_numbers ht ha hb hx hy, if_neg (codeKey_lt_of_vLt ht ha hb hx hy h).not_gt]
    case greater => rw [fMin_numbers ht ha hb hx hy, if_pos (codeKey_lt_of_vLt ht hb ha hy hx h)]
  case zeros =>
    rintro rfl rfl
    exact fMinMax_zeros ht
  case special =>
    obtain ⟨hzero, hzero', hinf, hinf', hone, hone'⟩ := f32_codes
    simp only [fRcp, fRsqrt, fSqrt, fExp2, fLog2, fDiv, hzero, hzero', hinf, hinf', hone, hone', exp2Fin_zero, log2Fin_pow,
      roundTo_one]
    exact ⟨rfl, rfl, rfl, rfl, rfl, rfl, rfl, rfl, rfl, rfl, rfl, trivial, rfl, rfl, rfl, rfl, rfl, rfl, rfl,
      fun x hx f hf => special_nan hx hf⟩

end Sys2Proof.Machine
end

section
/-! The ranking of lanes by key (R131): a key's rank, the order of delivery, and a lane's place in it. -/

namespace Sys2Proof.Machine

/-! ## `vsortk` (R131) -/

/-- Where a lane stands by its key alone: a NaN below every number. -/
def keyRank (t : Ty) (w : Word) : Int :=
  if t.isLaneFloat then (if (fval t (elem t w)).isNaN then -2 ^ tyBits t else codeKey t (elem t w)) else elemInt t w

theorem codeKey_gt {t : Ty} (ht : t.isLaneFloat = true) {a : Nat} (ha : a < 2 ^ tyBits t) : -2 ^ tyBits t < codeKey t a := by
  have hp : ((2 ^ tyBits t : Nat) : Int) = 2 ^ tyBits t := by push_cast; rfl
  have hw : signBit t < 2 ^ tyBits t ∧ 1 < signBit t := by
    cases t with
    | f32 | f16 | bf16 => decide
    | _ => exact absurd ht (by decide)
  rw [codeKey, ← hp]
  split <;> omega

theorem keyBelow_eq (t : Ty) (a b : Word) : keyBelow t a b = decide (keyRank t a < keyRank t b) := by
  unfold keyBelow keyRank
  by_cases ht : t.isLaneFloat = true
  · have hlt : ∀ w, elem t w < 2 ^ tyBits t := fun w => Nat.mod_lt _ (Nat.two_pow_pos _)
    have hgt : ∀ w, -2 ^ tyBits t < codeKey t (elem t w) := fun w => codeKey_gt ht (hlt w)
    simp only [if_pos ht]
    cases hx : (fval t (elem t a)).isNaN <;> cases hy : (fval t (elem t b)).isNaN
    case false.false => simp [vBelow_eq ht (hlt a) (hlt b) hx hy]
    case false.true => simp [(hgt a).le]
    case true.false => simp [hgt b]
    case true.true => simp
  · simp only [if_neg ht]

/-- Rank of an active lane: its key in the direction asked for, then its tie id, then its number. -/
def sortKey (t : Ty) (asc : Bool) (key tie : Vec) (i : Nat) : ℤ ×ₗ ℕ ×ₗ ℕ :=
  toLex (if asc then keyRank t (lane key i) else -keyRank t (lane key i), toLex ((lane tie i).toNat, i))

theorem sortKey_lt_iff (t : Ty) (asc : Bool) (key tie : Vec) (i j : Nat) :
    sortKey t asc key tie i < sortKey t asc key tie j ↔
      (if asc then keyRank t (lane key i) < keyRank t (lane key j) else keyRank t (lane key j) < keyRank t (lane key i)) ∨
      keyRank t (lane key i) = keyRank t (lane key j) ∧
        ((lane tie i).toNat < (lane tie j).toNat ∨ (lane tie i).toNat = (lane tie j).toNat ∧ i < j) := by
  rw [sortKey, sortKey, Prod.Lex.toLex_lt_toLex, Prod.Lex.toLex_lt_toLex]
  cases asc <;> simp

theorem ranksBefore_iff (t : Ty) (asc : Bool) (key tie : Vec) (i j : Nat) :
    ranksBefore t asc key tie i j = true ↔ sortKey t asc key tie i < sortKey t asc key tie j := by
  rw [sortKey_lt_iff, ranksBefore, keyBelow_eq, keyBelow_eq]
  rcases lt_trichotomy (keyRank t (lane key i)) (keyRank t (lane key j)) with h | h | h
  · cases asc <;> simp [h, h.not_gt, h.ne]
  · simp [h]
  · cases asc <;> simp [h, h.not_gt, h.ne']

section
variable {α : Type} [LinearOrder α] {before : Nat → Nat → Bool} {f : Nat → α}

theorem rankInsert_eq (before : Nat → Nat → Bool) (i : Nat) (l : List Nat) :
    rankInsert before i l = l.orderedInsert (fun i j => before i j = true) i := by
  induction l with
  | nil => rfl
  | cons j js ih => rw [rankInsert, List.orderedInsert_cons, ih]

theorem rankInsert_perm (before : Nat → Nat → Bool) (i : Nat) (l : List Nat) : (rankInsert before i l).Perm (i :: l) :=
  rankInsert_eq before i l ▸ List.perm_orderedInsert _ i l

theorem rankSort_perm (before : Nat → Nat → Bool) (l : List Nat) : (rankSort before l).Perm l := by
  induction l with
  | nil => exact .refl _
  | cons i l ih => exact (rankInsert_perm before i _).trans (ih.cons i)

theorem rankInsert_pairwise (h : ∀ i j, before i j = true ↔ f i < f j) (i : Nat) {l : List Nat}
    (hl : l.Pairwise fun a b => f a ≤ f b) : (rankInsert before i l).Pairwise fun a b => f a ≤ f b := by
  induction l with
  | nil => exact List.pairwise_singleton _ _
  | cons j js ih =>
    obtain ⟨hj, hjs⟩ := List.pairwise_cons.1 hl
    rw [rankInsert]
    by_cases hb : before i j = true
    · have hij : f i ≤ f j := ((h i j).1 hb).le
      rw [if_pos hb]
      refine List.pairwise_cons.2 ⟨fun k hk => ?_, hl⟩
      rcases List.mem_cons.1 hk with rfl | hk
      · exact hij
      · exact hij.trans (hj k hk)
    · have hji : f j ≤ f i := not_lt.1 fun hlt => hb ((h i j).2 hlt)
      rw [if_neg hb]
      refine List.pairwise_cons.2 ⟨fun k hk => ?_, ih hjs⟩
      rcases List.mem_cons.1 ((rankInsert_perm before i js).mem_iff.1 hk) with rfl | hk
      · exact hji
      · exact hj k hk

/-- Lanes ranked by a test that compares keys stand in the order of their keys. -/
theorem rankSort_pairwise (h : ∀ i j, before i j = true ↔ f i < f j) (l : List Nat) :
    (rankSort before l).Pairwise fun a b => f a ≤ f b := by
  induction l with
  | nil => exact .nil
  | cons i l ih => exact rankInsert_pairwise h i ih

end

/-- In a list where a relation leads from every member to each later one, a member that it does not lead to from another
stands before that other. -/
theorem idxOf_lt_of_pairwise {R : Nat → Nat → Prop} {l : List Nat} (h : l.Pairwise R) {i j : Nat} (hi : i ∈ l) (hj : j ∈ l)
    (hne : i ≠ j) (hn : ¬ R j i) : l.idxOf i < l.idxOf j := by
  have hi' := List.idxOf_lt_length_iff.2 hi
  have hj' := List.idxOf_lt_length_iff.2 hj
  rcases Nat.lt_trichotomy (l.idxOf i) (l.idxOf j) with hlt | heq | hgt
  · exact hlt
  · exact absurd ((List.idxOf_inj hi).1 heq) hne
  · have hrel := List.pairwise_iff_getElem.1 h _ _ hj' hi' hgt
    rw [List.getElem_idxOf, List.getElem_idxOf] at hrel
    exact absurd hrel hn

theorem mem_lanesOf {x : BitVec 16} {i : Nat} : i ∈ lanesOf x ↔ i < 16 ∧ x.getLsbD i = true := by
  rw [lanesOf, List.mem_filter, List.mem_range]

theorem lanesOf_not (x : BitVec 16) : lanesOf (~~~x) = (List.range 16).filter fun i => !x.getLsbD i :=
  List.filter_congr fun i hi => by
    rw [BitVec.getLsbD_not, decide_eq_true (List.mem_range.1 hi), Bool.true_and]

section
variable (t : Ty) (asc : Bool) (act : BitVec 16) (key tie : Vec)

/-- The order in which `vsortk` delivers the lanes. -/
def sortOrder : List Nat := rankSort (ranksBefore t asc key tie) (lanesOf act) ++ lanesOf (~~~act)

theorem sortOrder_perm : (sortOrder t asc act key tie).Perm (List.range 16) := by
  rw [sortOrder, lanesOf_not]
  exact ((rankSort_perm _ _).append_right _).trans (List.filter_append_perm _ _)

/-- What holds of a lane and each lane delivered after it. -/
def Precedes (i j : Nat) : Prop :=
  if act.getLsbD i = true then act.getLsbD j = true → sortKey t asc key tie i ≤ sortKey t asc key tie j
  else act.getLsbD j = false ∧ i < j

/-- The lane numbers as `vsortk` delivers them. -/
def sortedLanes : Vec := mkVec fun r => BitVec.ofNat 32 ((sortOrder t asc act key tie).getD r 0)

/-- The rank of a lane. -/
def sortPlace (i : Nat) : Nat := (sortOrder t asc act key tie).idxOf i

variable {t asc act key tie} {i j : Nat}

theorem precedes_active (h : act.getLsbD i = true) : Precedes t asc act key tie i j ↔
    (act.getLsbD j = true → sortKey t asc key tie i ≤ sortKey t asc key tie j) := by rw [Precedes, if_pos h]

theorem precedes_inactive (h : act.getLsbD i = false) :
    Precedes t asc act key tie i j ↔ act.getLsbD j = false ∧ i < j := by rw [Precedes, if_neg (by rw [h]; decide)]

theorem sortOrder_pairwise : (sortOrder t asc act key tie).Pairwise (Precedes t asc act key tie) := by
  have hon : ∀ i ∈ rankSort (ranksBefore t asc key tie) (lanesOf act), act.getLsbD i = true := fun i hi =>
    (mem_lanesOf.1 ((rankSort_perm _ _).mem_iff.1 hi)).2
  have hoff : ∀ i ∈ lanesOf (~~~act), act.getLsbD i = false := fun i hi => by
    rw [lanesOf_not] at hi
    exact (Bool.not_eq_true' _).mp (List.mem_filter.1 hi).2
  refine List.pairwise_append.2 ⟨?active, ?inactive, fun i hi j hj => ?both⟩
  case active =>
    exact (rankSort_pairwise (ranksBefore_iff t asc key tie) _).imp_of_mem fun hi _ hle =>
      (precedes_active (hon _ hi)).2 fun _ => hle
  case inactive =>
    exact (List.Pairwise.filter _ List.pairwise_lt_range).imp_of_mem fun hi hj hlt =>
      (precedes_inactive (hoff _ hi)).2 ⟨hoff _ hj, hlt⟩
  case both => exact (precedes_active (hon i hi)).2 fun h => absurd h (by rw [hoff j hj]; decide)

theorem mem_sortOrder (hi : i < 16) : i ∈ sortOrder t asc act key tie :=
  (sortOrder_perm t asc act key tie).mem_iff.2 (List.mem_range.2 hi)

theorem sortPlace_lt_16 (hi : i < 16) : sortPlace t asc act key tie i < 16 := by
  have hlen : (sortOrder t asc act key tie).length = 16 :=
    (sortOrder_perm t asc act key tie).length_eq.trans List.length_range
  exact hlen ▸ List.idxOf_lt_length_iff.2 (mem_sortOrder hi)

/-- At a lane's rank stands the lane. -/
theorem lane_sortedLanes (hi : i < 16) :
    (lane (sortedLanes t asc act key tie) (sortPlace t asc act key tie i)).toNat = i := by
  have hlt : sortPlace t asc act key tie i < (sortOrder t asc act key tie).length :=
    List.idxOf_lt_length_iff.2 (mem_sortOrder hi)
  have hat : (sortOrder t asc act key tie).getD (sortPlace t asc act key tie i) 0 = i :=
    (List.getD_eq_getElem _ _ hlt).trans (List.getElem_idxOf hlt)
  rw [sortedLanes, lane_mkVec _ (sortPlace_lt_16 hi), hat, BitVec.toNat_ofNat]
  exact Nat.mod_eq_of_lt (by omega)

theorem sortPlace_lt (hi : i < 16) (hj : j < 16) (hne : i ≠ j) (hn : ¬ Precedes t asc act key tie j i) :
    sortPlace t asc act key tie i < sortPlace t asc act key tie j :=
  idxOf_lt_of_pairwise sortOrder_pairwise (mem_sortOrder hi) (mem_sortOrder hj) hne hn

theorem sortPlace_active_first (hi : i < 16) (hj : j < 16) (hai : act.getLsbD i = true) (haj : act.getLsbD j = false) :
    sortPlace t asc act key tie i < sortPlace t asc act key tie j := by
  have hne : i ≠ j := by
    rintro rfl
    exact Bool.false_ne_true (haj.symm.trans hai)
  refine sortPlace_lt hi hj hne fun h => ?_
  obtain ⟨hoff, -⟩ := (precedes_inactive haj).1 h
  exact Bool.false_ne_true (hoff.symm.trans hai)

theorem sortPlace_inactive (hij : i < j) (hj : j < 16) (haj : act.getLsbD j = false) :
    sortPlace t asc act key tie i < sortPlace t asc act key tie j :=
  sortPlace_lt (hij.trans hj) hj hij.ne fun h => Nat.lt_asymm hij ((precedes_inactive haj).1 h).2

theorem sortPlace_of_key_lt (hi : i < 16) (hj : j < 16) (hai : act.getLsbD i = true) (haj : act.getLsbD j = true)
    (h : sortKey t asc key tie i < sortKey t asc key tie j) :
    sortPlace t asc act key tie i < sortPlace t asc act key tie j :=
  sortPlace_lt hi hj (fun hij => h.ne (hij ▸ rfl)) fun hle => ((precedes_active haj).1 hle hai).not_gt h

end

theorem exec_vsortk {s : State} {A B : Opnd} (ha : Readable s A .vec) (hb : Readable s B .vec) (sc : Sched) (d : Opnd) (t : Ty)
    (asc : Bool) (m : Gov) : exec (.vsortk sc d A B t asc m) s = .next (s.putV sc d 8
      (sortedLanes t asc (s.active m) (s.valV (tyOne t) A) (s.valV 1 B))
      (flagIf ((List.range 16).any fun i => (s.active m).getLsbD i && (t.isLaneFloat &&
        (fval t (elem t (lane (s.valV (tyOne t) A) i))).isNaN)) flIV)) := by
  simp only [exec, execVsortk, rdV_ok ha, rdV_ok hb, bind, Except.bind, pure, Except.pure, finish_ok, sortedLanes,
    sortOrder]
  rw [lanesOf, List.any_filter]

/-- Settles O32: the order of delivery ranks the active lanes by `sortKey`. -/
theorem sortByKey : Obligations.SortByKey := by
  intro s sc d A B t asc m hA hB
  refine ⟨sortedLanes t asc (s.active m) (s.valV (tyOne t) A) (s.valV 1 B),
    sortPlace t asc (s.active m) (s.valV (tyOne t) A) (s.valV 1 B), ?exec, fun i hi => ⟨sortPlace_lt_16 hi, lane_sortedLanes hi⟩,
    fun i j => sortPlace_active_first, fun i j hij hj _ haj => sortPlace_inactive hij hj haj,
    fun i j hi hj hai haj => ?active⟩
  case exec =>
    simp only [Bool.and_assoc]
    exact exec_vsortk hA hB sc d t asc m
  case active =>
    have hrank : ∀ {a b}, a < 16 → b < 16 → (s.active m).getLsbD a = true → (s.active m).getLsbD b = true → _ → _ :=
      fun ha hb haa hab h => sortPlace_of_key_lt (key := s.valV (tyOne t) A) (tie := s.valV 1 B) ha hb haa hab
        ((sortKey_lt_iff t asc _ _ _ _).2 h)
    simp only [keyBelow_eq, decide_eq_true_eq, decide_eq_false_iff_not]
    refine ⟨fun hlt => ⟨fun hasc => ?up, fun hasc => ?down⟩, fun hij hji htie => ?ties⟩
    case up => exact hrank hi hj hai haj (.inl (by rwa [if_pos hasc]))
    case down => exact hrank hj hi haj hai (.inl (by rwa [if_neg (by rw [hasc]; decide)]))
    case ties => exact hrank hi hj hai haj (.inr ⟨le_antisymm (not_lt.1 hji) (not_lt.1 hij), htie⟩)

end Sys2Proof.Machine
end

section
/-! Every step keeps memory in canonical form (R144): pushes, records, traps and what they do to memory. -/

namespace Sys2Proof.Machine

/-! ## Where a state may come out of an operation -/

/-- Memory is in canonical form: `MemOk`, as a definition of its own that is not unfolded at sight. -/
def Canon (s : State) : Prop := s.mem.wf = true

theorem canon_iff (s : State) : Canon s ↔ MemOk s := Iff.rfl

/-- Every result of a computation that ends well meets a property. -/
def Yields {ε α : Type} (r : Except ε α) (p : α → Prop) : Prop := ∀ x, r = .ok x → p x

/-- The result of a computation, if there is one, meets a property. -/
def Offers {α : Type} (r : Option α) (p : α → Prop) : Prop := ∀ x, r = some x → p x

/-- The next state of an outcome, if there is one, has canonical memory. -/
def NextOk (o : Host.Outcome State Fault Refusal) : Prop := ∀ t, o = .next t → Canon t

section
variable {ε α β : Type} {p : α → Prop} {q : β → Prop}

theorem yields_ok {x : α} (h : p x) : Yields (.ok x : Except ε α) p := fun _ e => by cases e; exact h

theorem yields_error (e : ε) : Yields (.error e : Except ε α) p := fun _ h => nomatch h

theorem yields_bind {r : Except ε α} {f : α → Except ε β} (h : Yields r p) (hf : ∀ x, p x → Yields (f x) q) :
    Yields (r >>= f) q := by
  cases r with
  | ok x => exact hf x (h x rfl)
  | error e => exact yields_error e

/-- What is read before does not matter. -/
theorem yields_after {r : Except ε α} {f : α → Except ε β} (hf : ∀ x, Yields (f x) q) : Yields (r >>= f) q :=
  yields_bind (p := fun _ => True) (fun _ _ => trivial) fun x _ => hf x

theorem yields_ite {c : Prop} [Decidable c] {r r' : Except ε α} (h : Yields r p) (h' : Yields r' p) :
    Yields (if c then r else r') p := by
  split
  · exact h
  · exact h'

theorem offers_some {x : α} (h : p x) : Offers (some x) p := fun _ e => by cases e; exact h

theorem offers_none : Offers none p := fun _ h => nomatch h

theorem offers_ite {c : Prop} [Decidable c] {r r' : Option α} (h : Offers r p) (h' : Offers r' p) :
    Offers (if c then r else r') p := by
  split
  · exact h
  · exact h'

end

theorem canon_ite {c : Prop} [Decidable c] {s t : State} (hs : Canon s) (ht : Canon t) : Canon (if c then s else t) := by
  split
  · exact hs
  · exact ht

theorem canon_foldl {α : Type} {f : State → α → State} (hf : ∀ s x, Canon s → Canon (f s x)) (l : List α) {s : State}
    (h : Canon s) : Canon (l.foldl f s) := by
  induction l generalizing s with
  | nil => exact h
  | cons x l ih => exact ih (hf s x h)

/-- Forgetting several ranges keeps the canonical form. -/
theorem Memory.wf_forgetAll (us : List (Nat × Nat × Nat)) {m : Memory} (h : m.wf = true) :
    (us.foldr (fun u (m : Memory) => m.forget u.1 u.2.1 u.2.2) m).wf = true := by
  induction us with
  | nil => exact h
  | cons u us ih => exact Memory.wf_forget _ _ _ _ ih

theorem canon_of_mem {s t : State} (e : t.mem = s.mem) (h : Canon s) : Canon t := by
  unfold Canon
  rwa [e]

theorem nextOk_next {s : State} (h : Canon s) : NextOk (.next s) := fun _ e => by cases e; exact h

theorem nextOk_fault (r : Fault) : NextOk (.fault r) := fun _ h => nomatch h

theorem nextOk_ite {c : Prop} [Decidable c] {o o' : Host.Outcome State Fault Refusal} (h : NextOk o) (h' : NextOk o') :
    NextOk (if c then o else o') := by
  split
  · exact h
  · exact h'

section
variable {s : State} (h : Canon s)
include h

/-! ## Updates that leave memory alone -/

theorem canon_mapBank (f : Bank → Bank) : Canon (s.mapBank f) := h
theorem canon_mapRun (f : Run → Run) : Canon (s.mapRun f) := h
theorem canon_mapPart (p : BitVec 4) (f : Part → Part) : Canon (s.mapPart p f) := h
theorem canon_mapRec (c : BitVec 6) (a : DWord) (f : SRec → SRec) : Canon (s.mapRec c a f) := h
theorem canon_raiseVector (p : BitVec 4) (k : Nat) : Canon (s.raiseVector p k) := h
theorem canon_settleSr : Canon s.settleSr := h
theorem canon_thawed : Canon s.thawed := h
theorem canon_swapBack : Canon s.swapBack := h
theorem canon_killEvents (r : Run) : Canon (s.killEvents r) := h
theorem canon_holdAreas (r : Run) (lost : Bool) : Canon (s.holdAreas r lost) := h

/-! ## Accesses in the order of requests -/

theorem canon_wrNat (key n x : Nat) : Canon (s.wrNat key n x) := s.wf_wr _ _ h

theorem canon_forget (lo hi tag : Nat) : (s.mem.forget lo hi tag).wf = true := s.mem.wf_forget lo hi tag h

theorem canon_readsWhere (p : PendR → Nat × DWord × Nat → Bool) : Canon (s.readsWhere p) :=
  canon_of_mem (s.mem_readsWhere p) h

theorem canon_readTo (r : Nat) (p : PendR → Bool) : Canon (s.readTo r p) := canon_of_mem (s.mem_readTo r p) h

theorem canon_noteWrite (who : Party) (path : Path) (key n upto : Nat) : Canon (s.noteWrite who path key n upto) :=
  canon_of_mem (s.mem_noteWrite ..) h

theorem canon_noteRelease (r : Rel) : Canon (s.noteRelease r) := canon_of_mem (s.mem_noteRelease r) h

theorem canon_noteReleases (r : Option Rel) : Canon (s.noteReleases r) := canon_of_mem (s.mem_noteReleases r) h

theorem canon_dropAt (path : Path) (key n : Nat) : Canon (s.dropAt path key n) := canon_of_mem (s.mem_dropAt ..) h

theorem canon_noteWalk (va : DWord) : Canon (s.noteWalk va) := canon_ite h h

theorem canon_publish (r : Nat) (p : PendW → Bool) : Canon (s.publish r p) :=
  canon_ite (s.wf_flushWhere p h) (canon_foldl (fun _ _ h => canon_noteWrite h ..) (s.pend.filter p) h)

theorem canon_beforeRelease (sc : Scope) : Canon (s.beforeRelease sc) := canon_publish (canon_readTo h _ _) _ _

theorem canon_release (sc : Scope) (va : DWord) (key : Nat) : Canon (s.release sc va key) :=
  canon_noteRelease (canon_beforeRelease h sc) _

theorem canon_acquireAll (sc : Scope) : Canon (s.acquireAll sc) := canon_readTo h _ _

theorem canon_releaseAll (sc : Scope) : Canon (s.releaseAll sc) := canon_publish h _ _

theorem canon_fenceOwn (sc : Scope) (a b : BitVec 7) : Canon (s.fenceOwn sc a b) := canon_publish (canon_readTo h _ _) _ _

theorem canon_fenceMarks (ga : Bool) : Canon (s.fenceMarks ga) :=
  State.wf_flushWhere (s.readsWhere _) _ (canon_readsWhere h _)

theorem canon_extendOrder : Canon s.extendOrder := canon_acquireAll (canon_publish (canon_readTo h _ _) _ _) _

theorem canon_beforeRead (path : Path) (key n : Nat) : Canon (s.beforeRead path key n) :=
  canon_of_mem ((State.mem_wholeOf ..).trans (State.mem_readsAt ..)) (s.wf_flushWhere _ h)

theorem canon_storeNow (k : AKind) (va : DWord) (key : Nat) (bs : List Byte) : Canon (s.storeNow k va key bs) :=
  canon_ite (State.wf_wr _ _ _ (canon_noteWrite (canon_readsWhere (s.wf_flushWhere _ h) _) ..)) h

theorem canon_storeAs (kind : PendK) (path : Path) (va : DWord) (key lane : Nat) (clean : Bool) (bs : List Byte) :
    Canon (s.storeAs kind path va key lane clean bs) :=
  canon_ite (s.wf_request _ _ h) h

theorem canon_readLater (path : Path) (uid : Nat) (vec : Bool) (w : Nat) (xs : List (Nat × DWord × Nat))
    (m : Option (Nat × Mark)) : Canon (s.readLater path uid vec w xs m) := canon_ite h h

theorem canon_readEarly (x : AgentId × Path × Nat × Nat) : Canon (s.readEarly x) := by
  refine canon_ite h ?_
  split
  · exact canon_ite (canon_of_mem (s.mem_dropOf ..) h) h
  · exact h

theorem canon_memoryCycle : Canon s.memoryCycle := by
  have hr := canon_readsWhere h fun r _ =>
    s.landsNow r.agent r.uid || !(s.oracle.keepReads.headD 0).testBit (s.reads.findIdx (· == r))
  exact canon_foldl (fun _ x h => canon_readEarly h x) _ (canon_ite hr (State.wf_settleGo _ _ _ _ _ hr))

theorem canon_fillTlb (cx : BitVec 6) (va : Nat) : Canon (s.fillTlb cx va) := by
  refine canon_ite ?_ h
  split <;> exact h

theorem yields_engWrite (cx : BitVec 6) (run : Option Run) (va w : Nat) (bs : List Byte) :
    Yields (s.engWrite cx run va w bs) Canon := by
  unfold State.engWrite
  split
  · refine yields_ite (yields_ok (State.wf_wr _ _ _ (canon_noteWrite (canon_fillTlb h _ _) ..))) ?_
    split
    · exact yields_ok h
    · exact yields_error _
  · exact yields_error _
  · exact yields_error _

/-! ## Records and the trap queue -/

theorem canon_spendBudget : Canon s.spendBudget := by
  unfold State.spendBudget
  split
  · exact h
  · extract_lets spent
    have hspent : Canon spent := canon_ite (canon_mapRun h fun r => { r with budget := r.budget - 1 }) h
    clear_value spent
    split <;> exact hspent

theorem canon_countCores : Canon s.countCores := canon_ite h h

theorem canon_chargeCycle : Canon s.chargeCycle := canon_countCores (canon_spendBudget h)

theorem canon_setStatus (home st : Nat) (cause sub : Byte) (add : Nat) : Canon (s.setStatus home st cause sub add) :=
  s.wf_wr _ _ h

theorem canon_moveRec (cx : BitVec 6) (addr : DWord) (st : Nat) (cause sub : Byte) (add : Nat) :
    Canon (s.moveRec cx addr st cause sub add) := by
  unfold State.moveRec
  split
  · exact canon_ite (canon_setStatus h ..) (canon_setStatus h ..)
  · exact h

theorem canon_wakeRec (r : SRec) : Canon (s.wakeRec r) := canon_ite (canon_moveRec h ..) h

theorem canon_wake : Canon s.wake := canon_foldl (fun _ r h => canon_wakeRec h r) _ h

theorem canon_enqueue (cx : BitVec 6) (addr : DWord) (home die : Nat) (bs : List Byte) (svc : Option Byte) :
    Canon (s.enqueue cx addr home die bs svc) := canon_setStatus h ..

theorem canon_pushBy (cx : BitVec 6) (addr die : Nat) (svc : Option Byte) :
    Offers (s.pushBy cx addr die svc) Canon := by
  unfold State.pushBy
  split
  · exact offers_ite offers_none (offers_ite (offers_some (canon_enqueue h ..)) offers_none)
  · exact offers_none

theorem canon_writeRecord (p : BitVec 4) (bs : List Byte) : Canon (s.writeRecord p bs) := by
  unfold State.writeRecord
  extract_lets c prod was written
  have hwritten : Canon written := canon_wrNat (s.wf_wr _ _ h) ..
  clear_value written
  exact canon_ite (canon_raiseVector hwritten ..) hwritten

theorem canon_bumpLine (p : BitVec 4) (off : Nat) : Canon (s.bumpLine p off) := s.wf_wr _ _ h

theorem canon_fatalRecord (p : BitVec 4) (bs : List Byte) : Canon (s.fatalRecord p bs) :=
  canon_ite (canon_writeRecord h p bs) (canon_raiseVector (canon_mapPart (canon_bumpLine h p 8) ..) ..)

theorem canon_plainRecord (p : BitVec 4) (bs : List Byte) (resume : Option (BitVec 6 × DWord))
    (rule : Option (BitVec 6 × Nat × BitVec 5)) : Canon (s.plainRecord p bs resume rule).1 := by
  unfold State.plainRecord
  split
  · exact canon_writeRecord h p bs
  · exact canon_mapPart (canon_bumpLine h p 12) ..

/-! ## Traps -/

theorem canon_writeLatches (t : TrapReq) (frame : Nat) : Canon (s.writeLatches t frame) :=
  canon_foldl (fun u _ hu => u.wf_wr _ _ hu) _ h

theorem canon_writeFrame (r : Run) (t : TrapReq) (flags action replays : Nat) :
    Canon (s.writeFrame r t flags action replays) :=
  State.wf_wr _ _ _ (canon_writeLatches (s.wf_wr _ _ h) t _)

theorem canon_unpackPad (b : Bank) : Canon (s.unpackPad b) := by
  unfold State.unpackPad
  split
  · next cells undefs bad _ _ =>
    exact Memory.wf_foldl _ (fun m g hm => (m.wf_poisonGranule g).trans hm) bad _
      (Memory.wf_foldl _ (fun m c hm => m.wf_write _ _ hm) cells _
        (Memory.wf_forgetAll undefs (Memory.wf_forget _ _ _ _ (canon_forget h ..))))
  · exact h

theorem canon_doKill (r : Run) (t : TrapReq) : Canon (s.doKill r t) := by
  unfold State.doKill
  exact canon_forget (canon_thawed (canon_moveRec (canon_killEvents h r) ..)) ..

theorem canon_redo (t : TrapReq) : Canon (s.redo t) := by
  unfold State.redo
  split <;> exact h

theorem canon_doPark (t : TrapReq) : Canon (s.doPark t) := by
  unfold State.doPark
  extract_lets suspended
  have hs : Canon suspended := canon_mapBank (canon_settleSr (canon_redo h t)) _
  exact canon_thawed hs

theorem canon_doReplay (t : TrapReq) : Canon (s.doReplay t) := by
  unfold State.doReplay
  extract_lets again
  have hs : Canon again := canon_mapBank (canon_redo h t) _
  exact hs

omit h in
theorem canon_elapse (n : Nat) {s : State} (h : Canon s) : Canon (s.elapse n) := by
  induction n generalizing s with
  | zero => exact h
  | succ n ih => exact ih (canon_chargeCycle h)

theorem canon_undefinedAt (cx : BitVec 6) (va n : Nat) : Canon (s.undefinedAt cx va n) := by
  unfold State.undefinedAt
  split
  · exact canon_forget h ..
  · exact h

theorem canon_parkRun (r : Run) (t : TrapReq) : Canon (s.parkRun r t) :=
  canon_ite (canon_swapBack (canon_moveRec (canon_mapBank (canon_settleSr (canon_redo h t)) _) ..)) (canon_doPark h t)

theorem canon_trapKill (r : Run) (t : TrapReq) (base bad n : Nat) : Canon (s.trapKill r t base bad n) := by
  unfold State.trapKill
  extract_lets framed bs lost kept vec stop tag
  have hframed : Canon framed := canon_writeFrame h ..
  have hkept : Canon kept := canon_holdAreas (canon_fatalRecord hframed ..) ..
  have hvec : Canon vec := canon_ite (canon_raiseVector hkept ..) hkept
  clear_value vec
  have hstop : Canon stop := canon_ite hvec hvec
  clear_value stop
  have hfree : Canon { stop with free := tag } := hstop
  exact canon_ite (canon_swapBack (canon_moveRec (canon_killEvents (canon_mapBank hfree _) r) ..)) (canon_doKill hstop r t)

theorem canon_trapReplay (r : Run) (t : TrapReq) (base bad n : Nat) : Canon (s.trapReplay r t base bad n) := by
  -- unfolded as a function: compared with its arguments, the match would make the kernel compute the queue's length
  rw [show @State.trapReplay = _ by delta State.trapReplay; exact rfl]
  extract_lets framed bs counted
  have hcounted : Canon counted := canon_mapRun (canon_writeFrame h ..) _
  clear_value counted
  have hrec := canon_plainRecord hcounted r.part bs (some (r.ctx, r.recAddr)) none
  split
  · next u e =>
    rw [e] at hrec
    exact canon_doReplay hrec t
  · next u e =>
    rw [e] at hrec
    exact canon_parkRun hrec r t

theorem canon_trapPark (r : Run) (t : TrapReq) (base extra n : Nat) : Canon (s.trapPark r t base extra n) :=
  canon_parkRun (canon_plainRecord (canon_writeFrame h ..) ..) ..

/-- Either state that it may go on from. -/
theorem canon_forward (p : BitVec 4) (handler : Nat) (bs : List Byte) :
    (∀ u, s.forward p handler bs = .ok u → Canon u) ∧ ∀ u, s.forward p handler bs = .error u → Canon u := by
  have stays : ∀ {t : State}, Canon t → (∀ u, (.error t : Except State State) = .ok u → Canon u) ∧
      ∀ u, (.error t : Except State State) = .error u → Canon u :=
    fun ht => ⟨fun _ e => (nomatch e), fun u e => by cases e; exact ht⟩
  unfold State.forward
  split
  · exact stays h
  · next sv _ =>
    split
    · exact stays h
    · split
      · split
        · exact stays h
        · split
          · exact stays h
          · dsimp only
            split
            · exact stays h
            · next t e =>
              have ht := yields_engWrite h _ _ _ _ _ t e
              split
              · next u e => exact ⟨fun v hv => by cases hv; exact canon_pushBy ht _ _ _ _ _ e, fun _ e => nomatch e⟩
              · exact stays (canon_undefinedAt ht ..)
      · exact stays h

theorem canon_trapForward (r : Run) (t : TrapReq) (e : ActEnt) (base bad n : Nat) :
    Canon (s.trapForward r t e base bad n) := by
  have hf := canon_forward h r.part e.handler
    (trapRecord t .forward bad r.ctx s.coreId r.recAddr (s.frameOf r) (s.recordBody t .forward r.signalled))
  unfold State.trapForward
  dsimp only
  split
  · next u hu => exact canon_parkRun (canon_writeFrame (hf.1 u hu) ..) ..
  · next u hu => exact canon_trapPark (hf.2 u hu) ..

/-- A trap keeps the canonical form, whichever action it takes. -/
theorem canon_takeTrap (t : TrapReq) : Canon (s.takeTrap t) := by
  unfold State.takeTrap
  split
  · exact h
  · next r _ =>
    extract_lets late e n limit bad base r' replayed noted cleared ready
    have hlate : Canon late := canon_elapse t.late (s.wf_quiesce h)
    have hcleared : Canon cleared := canon_mapBank (canon_mapRec (canon_mapRun hlate _) ..) _
    have hready : Canon ready := hcleared
    split
    · exact canon_trapKill hready ..
    · exact canon_ite (canon_trapPark hready ..) (canon_trapReplay hready ..)
    · exact canon_trapPark hready ..
    · exact canon_trapForward hready ..

/-! ## How an instruction ends -/

theorem nextOk_finish {r : Except Stop State} (hr : Yields r Canon) : NextOk (s.finish r) := by
  match r with
  | .ok t => exact nextOk_next (hr t rfl)
  | .error (.wait _) => exact nextOk_next h
  | .error (.freeze _ _) => exact nextOk_next h
  | .error (.trap t) => exact nextOk_next (canon_takeTrap h t)

omit h in
theorem deferredStop_mem {p : Path → Bool} {t : State} {q : TrapReq} (e : s.deferredStop p = some (t, q)) :
    t.mem = s.mem := by
  unfold State.deferredStop at e
  split at e
  · cases e; rfl
  · cases e

theorem nextOk_finishWaiting {p : Path → Bool} {r : Except Stop State} (hr : Yields r Canon) :
    NextOk (s.finishWaiting p r) := by
  cases r with
  | error e => exact nextOk_finish h hr
  | ok t =>
    refine nextOk_ite (nextOk_finish h (yields_error _)) ?_
    split
    · next u q e =>
      exact nextOk_next (canon_takeTrap (canon_of_mem (deferredStop_mem e) (s.wf_flushWhere _ h)) q)
    · exact nextOk_next (hr t rfl)

theorem nextOk_finishOrdered {r : Except Stop State} (hr : Yields r Canon) : NextOk (s.finishOrdered r) :=
  nextOk_finishWaiting h hr

end
end Sys2Proof.Machine
end

section
/-! Every step keeps memory in canonical form (R144): the instructions of the agents. -/

namespace Sys2Proof.Machine

section
variable {s : State} (h : Canon s)
include h

/-! ## Updates that leave memory alone -/

theorem canon_mapAgent (a : AgentId) (f : Agent → Agent) : Canon (s.mapAgent a f) := h
theorem canon_mapAgents (f : Agent → Agent) : Canon (s.mapAgents f) := h
theorem canon_mapCur (f : Agent → Agent) : Canon (s.mapCur f) := h
theorem canon_mapBun (f : Bun → Bun) : Canon (s.mapBun f) := h
theorem canon_mapCtx (c : BitVec 6) (f : Ctx → Ctx) : Canon (s.mapCtx c f) := h
theorem canon_setCtl (c : Ctl) : Canon (s.setCtl c) := h
theorem canon_setEvents (c : BitVec 6) (x y : BitVec 256) : Canon (s.setEvents c x y) := h
theorem canon_signal (x : BitVec 256) : Canon (s.signal x) := h
theorem canon_endBy (v : Option DWord) : Canon (s.endBy v) := h
theorem canon_unheld (c : BitVec 6) (a : DWord) : Canon (s.unheld c a) := h
theorem canon_acquire (sc : Scope) (obj : Nat) : Canon (s.acquire sc obj) := h
theorem canon_usedLate : Canon s.usedLate := h
theorem canon_deliver (c : LCls) (d : Opnd) (w : Bool) (v : DWord) (vv : Vec) (r : Ready) (f : BitVec 7) (m : Option Mark) :
    Canon (s.deliver c d w v vv r f m) := h
theorem canon_putToken (d : Opnd) (w : Bool) (v : DWord) : Canon (s.putToken d w v) := h
theorem canon_putM (sc : Sched) (d : Opnd) (w : Bool) (n : Nat) (v : DWord) (m : Option Mark) :
    Canon (s.putM sc d w n v m) := h
theorem canon_put (sc : Sched) (d : Opnd) (n : Nat) (v : Word) : Canon (s.put sc d n v) := h
theorem canon_put64 (sc : Sched) (d : Opnd) (n : Nat) (v : DWord) : Canon (s.put64 sc d n v) := h
theorem canon_defer (path : Path) (va : DWord) (c : Byte) (k : AKind) (lane : Nat) : Canon (s.defer path va c k lane) := h

theorem canon_branchIf (c : Bool) (t : DWord) : Canon (s.branchIf c t) := canon_ite h h

theorem canon_atHome (key n : Nat) : Canon (s.atHome key n) := canon_dropAt h ..

theorem canon_reading (path : Path) (va : DWord) (key n : Nat) : Canon (s.reading path va key n) :=
  canon_beforeRead (canon_noteWalk h va) ..

theorem canon_atBlock (va : DWord) (key w : Nat) : Canon (s.atBlock va key w) := canon_atHome (canon_reading h ..) ..

/-! ## The shapes of the families: operands are read, then one result is delivered -/

theorem nextOk_one {α : Type} {r : Except Stop α} {f : α → Except Stop State} (hf : ∀ u, Yields (f u) Canon) :
    NextOk (s.finish (r >>= f)) := nextOk_finish h (yields_after hf)

theorem nextOk_two {α β : Type} {r : Except Stop α} {q : α → Except Stop β} {f : α → β → Except Stop State}
    (hf : ∀ u v, Yields (f u v) Canon) : NextOk (s.finish (r >>= fun u => q u >>= f u)) :=
  nextOk_one h fun u => yields_after (hf u)

theorem nextOk_three {α β γ : Type} {r : Except Stop α} {q : α → Except Stop β} {p : α → β → Except Stop γ}
    {f : α → β → γ → Except Stop State} (hf : ∀ u v w, Yields (f u v w) Canon) :
    NextOk (s.finish (r >>= fun u => q u >>= fun v => p u v >>= f u v)) :=
  nextOk_two h fun u v => yields_after (hf u v)

section
variable {sc : Sched} {d a b x : Opnd} {n : Nat} {t : Ty} {m : Gov}

theorem nextOk_alu1 {f : Word → Word} : NextOk (s.alu1 sc d a n f) := nextOk_one h fun _ => yields_ok h

theorem nextOk_alu2F {f : Word → Word → Word} {g : Word → Word → BitVec 7} : NextOk (s.alu2F sc d a b n f g) :=
  nextOk_two h fun _ _ => yields_ok h

theorem nextOk_alu3 {f : Word → Word → Word → Word} : NextOk (s.alu3 sc d a b x n f) :=
  nextOk_three h fun _ _ _ => yields_ok h

theorem nextOk_pair1 {f : DWord → DWord} : NextOk (s.pair1 sc d a n f) := nextOk_one h fun _ => yields_ok h

theorem nextOk_pair2 {f : DWord → DWord → DWord} : NextOk (s.pair2 sc d a b n f) := nextOk_two h fun _ _ => yields_ok h

theorem nextOk_vec1 {f : Word → Word × BitVec 7} : NextOk (s.vec1 sc d a t m n f) := nextOk_one h fun _ => yields_ok h

theorem nextOk_vec2 {f : Word → Word → Word × BitVec 7} : NextOk (s.vec2 sc d a b t m n f) :=
  nextOk_two h fun _ _ => yields_ok h

theorem nextOk_vec3 {f : Word → Word → Word → Word × BitVec 7} : NextOk (s.vec3 sc d a b x t m n f) :=
  nextOk_three h fun _ _ _ => yields_ok h

end

/-! ## Loads, stores and atomics -/

theorem canon_loadResult (sc : Sched) (d : Opnd) (sz : Size) (va : DWord) (key : Nat) :
    Canon (s.loadResult sc d sz va key) := h

theorem canon_loadPlain (sc : Sched) (d : Opnd) (sz : Size) (va : DWord) (key : Nat) :
    Canon (s.loadPlain sc d sz va key) := canon_loadResult (canon_readLater h ..) ..

theorem canon_atomicLater (sc : Sched) (d : Opnd) (wide : Bool) (o : AmoOp) (va : DWord) (key b x : Nat) (r : Option Rel) :
    Canon (s.atomicLater sc d wide o va key b x r) := h

theorem canon_atomicAt (sc : Sched) (d : Opnd) (wide : Bool) (o : AmoOp) (va : DWord) (key b x : Nat) :
    Canon (s.atomicAt sc d wide o va key b x) := by
  unfold State.atomicAt
  dsimp only
  split
  · exact canon_putM (canon_ite (canon_defer h ..) h) ..
  · split
    · exact canon_putM (canon_storeNow h ..) ..
    · exact canon_putM h ..

/-- `finish` and its ordered form end alike. -/
theorem nextOk_finishEither {c : Prop} [Decidable c] {p : Path → Bool} {r : Except Stop State} (hr : Yields r Canon) :
    NextOk ((if c then s.finishWaiting p else s.finish) r) ∧ NextOk ((if c then s.finish else s.finishWaiting p) r) := by
  split
  · exact ⟨nextOk_finishWaiting h hr, nextOk_finish h hr⟩
  · exact ⟨nextOk_finish h hr, nextOk_finishWaiting h hr⟩

theorem nextOk_ld (sc : Sched) (d : Opnd) (bp : BitVec 4) (sz : Size) (scope : Scope) (acq : Bool) (off : BitVec 24) :
    NextOk (execLd sc d bp sz scope acq off s) := by
  have hload := fun base key => canon_reading h .own (effAddr base off) key sz.bytes
  have hend := fun base key => canon_ite (c := acq = true)
    (canon_acquire (canon_loadResult (canon_atHome (hload base key) key sz.bytes) sc d sz (effAddr base off) key) scope key)
    (canon_loadPlain (hload base key) sc d sz (effAddr base off) key)
  exact (nextOk_finishEither h (yields_after fun base => yields_after fun key =>
    yields_ite (yields_after fun _ => yields_ok (hend base key)) (yields_ok (hend base key)))).1

theorem nextOk_st (d : Opnd) (bp : BitVec 4) (sz : Size) (scope : Scope) (rel : Bool) (off : BitVec 24) :
    NextOk (execSt d bp sz scope rel off s) :=
  (nextOk_finishEither h (yields_after fun base => yields_after fun _ => yields_after fun _ => yields_ok
    (canon_usedLate (canon_ite (canon_storeAs (canon_beforeRelease (canon_noteWalk h _) scope) ..)
      (canon_storeAs (canon_noteWalk h (effAddr base off)) ..))))).1

theorem nextOk_amo (sc : Sched) (d a b x : Opnd) (scope : Scope) (ord : MOrd) (wide : Bool) (o : AmoOp) :
    NextOk (s.amo sc d a b x scope ord wide o) := by
  refine (nextOk_finishEither h ?_).2
  refine yields_after fun va => yields_after fun v => yields_after fun c => yields_after fun key => yields_after fun _ => ?_
  extract_lets read writes rel ready done
  have hread : Canon read := canon_atHome (canon_reading h ..) ..
  have hready : Canon ready := canon_ite (canon_beforeRelease hread scope) hread
  have hdone : Canon done := canon_ite (canon_atomicLater hready ..) (canon_atomicAt (canon_noteReleases hready _) ..)
  exact yields_ok (canon_ite (canon_acquire (canon_usedLate hdone) ..) (canon_usedLate hdone))

theorem canon_storeLanes (path : Path) (w : Nat) (addr : Nat → DWord) (v : Vec) (whole : Bool) (ks : List (Nat × Nat)) :
    Canon (s.storeLanes path w addr v whole ks) :=
  canon_usedLate (canon_foldl (fun _ _ h => canon_ite (canon_storeAs h ..) h) ks h)

theorem canon_noteLanes (addr : Nat → DWord) (ks : List (Nat × Nat)) : Canon (s.noteLanes addr ks) :=
  canon_foldl (fun _ _ h => canon_noteWalk h _) ks h

theorem yields_loadLanes (path : Path) (sc : Sched) (d : Opnd) (nominal w : Nat) (addr : Nat → DWord) (m : BitVec 3) :
    Yields (s.loadLanes path sc d nominal w addr m) Canon :=
  yields_after fun ks => yields_ok
    (canon_readLater (canon_foldl (fun _ _ h => canon_beforeRead h ..) ks (canon_noteLanes h addr ks)) ..)

/-! ## Scheduling, events and barriers -/

theorem canon_pushRecord (d : Opnd) (cx : BitVec 6) (va : DWord) (key die : Nat) : Canon (s.pushRecord d cx va key die) := by
  unfold State.pushRecord
  extract_lets bs st
  split
  · exact canon_putToken h ..
  · split
    · exact canon_putToken h ..
    · exact canon_putToken (canon_enqueue h ..) ..

theorem canon_joinAt (d : Opnd) (va : DWord) (key : Nat) : Canon (s.joinAt d va key) := by
  unfold State.joinAt
  dsimp only
  split
  · exact canon_deliver (canon_ite (canon_defer h ..) h) ..
  · exact canon_putToken (canon_ite h (canon_storeNow h ..)) ..

theorem canon_unparkAt (p : BitVec 4) (key : Nat) : Canon (s.unparkAt p key).2 := by
  unfold State.unparkAt
  split
  · split
    · exact canon_unheld (canon_moveRec h ..) ..
    · exact h
  · exact h

theorem canon_surface (a : AgentId) : Canon (s.surface a) := s.wf_flushWhere _ h

theorem nextOk_spawn (d : Opnd) (bp : BitVec 4) (off : BitVec 24) (a : Opnd) : NextOk (execSpawn d bp off a s) :=
  nextOk_finishWaiting h (yields_after fun _ => yields_after fun _ => yields_after fun _ =>
    yields_ok (canon_pushRecord (canon_surface (canon_releaseAll h _) _) ..))

theorem nextOk_launch (d : Opnd) (bp : BitVec 4) (off : BitVec 24) (a : Opnd) : NextOk (execLaunch d bp off a s) :=
  nextOk_finishWaiting h (yields_after fun _ => yields_after fun _ => yields_ite (yields_error _)
    (yields_after fun _ => yields_ok (canon_pushRecord (canon_surface (canon_releaseAll h _) _) ..)))

theorem nextOk_join (d : Opnd) (bp : BitVec 4) (off : BitVec 24) : NextOk (execJoin d bp off s) :=
  nextOk_finishWaiting h (yields_after fun _ => yields_after fun _ =>
    yields_ok (canon_acquire (canon_joinAt (canon_release (canon_atHome (canon_reading h ..) ..) ..) ..) ..))

theorem nextOk_unpark (d : Opnd) (bp : BitVec 4) (off : BitVec 24) : NextOk (execUnpark d bp off s) :=
  nextOk_finish h (yields_after fun _ => yields_ite (yields_error _)
    (yields_after fun _ => yields_ok (canon_putToken (canon_unparkAt h ..) ..)))

theorem yields_putAll (ts : List AgentId) (full : Agent → Bool) (f : Agent → Agent) :
    Yields (s.putAll ts full f) Canon :=
  yields_ite (yields_error _) (yields_ite (yields_error _) (yields_ok (canon_foldl (fun _ _ h => canon_mapAgent h ..) ts h)))

theorem nextOk_eventSet (a : Opnd) (err : Bool) : NextOk (s.eventSet a err) :=
  nextOk_finishWaiting h (yields_after fun _ => yields_ok (canon_signal (canon_setEvents (canon_releaseAll h _) ..) _))

theorem canon_barrierOrder (g : Bool) : Canon (s.barrierOrder g) := by
  unfold State.barrierOrder
  extract_lets r seen
  have hseen : Canon seen := canon_publish (canon_readsWhere h _) ..
  exact hseen

theorem canon_leaveBar (g : Bool) : Canon (s.leaveBar g) :=
  canon_ite (canon_mapCur h _) (canon_mapCur (canon_mapAgents (canon_barrierOrder h g) _) _)

theorem yields_barrierOf (g : Bool) : Yields (s.barrierOf g) Canon :=
  yields_ite (yields_ok (canon_leaveBar h g)) (yields_error _)

/-! ## Lists of KV blocks -/

theorem yields_kvRead (va : DWord) : Yields (s.kvRead va) fun q => Canon q.1 := by
  unfold State.kvRead
  split
  · exact yields_error _
  · exact yields_ok (canon_reading h ..)

theorem yields_readHdr (va : DWord) : Yields (s.readHdr va) fun q => Canon q.1 := by
  unfold State.readHdr
  split
  · exact yields_error _
  · next e => exact yields_ok (yields_kvRead h va _ e)

omit h in
theorem yields_readEntries (va : DWord) (n e : Nat) {s : State} (h : Canon s) :
    Yields (State.readEntries va n e s) fun q => Canon q.1 := by
  induction n generalizing e s with
  | zero => exact yields_ok h
  | succ n ih =>
    unfold State.readEntries
    split
    · exact yields_error _
    · next u _ hread =>
      have hs : Canon u := yields_kvRead h _ _ hread
      split
      · exact yields_error _
      · next hrest =>
        have hr := ih _ hs _ hrest
        exact yields_ok hr

theorem canon_kvPut (va : DWord) (key i : Nat) (bs : List Byte) : Canon (s.kvPut va key i bs) :=
  canon_ite (s.wf_request _ _ h) (canon_defer h ..)

omit h in
theorem yields_translate (va : DWord) (stride t n e : Nat) {s : State} (h : Canon s) :
    Yields (State.translate va stride t n e s) fun q => Canon q.1 := by
  induction n generalizing t e s with
  | zero => exact yields_ok h
  | succ n ih =>
    unfold State.translate
    split
    · exact yields_error _
    · next u _ hread =>
      have hs : Canon u := yields_kvRead h _ _ hread
      exact yields_ite (yields_ok hs) (ih _ _ hs)

theorem canon_incShare (va : DWord) (key : Nat) : Canon (s.incShare va key).1 := canon_storeNow (canon_atBlock h ..) ..

theorem canon_forkEntry (src dst : DWord) (e : Nat) (ks : Nat × Nat) : Canon (s.forkEntry src dst e ks).1 := by
  have hput : ∀ {u : State}, Canon u → ∀ bs, Canon ((u.noteWalk (entryAddr dst e)).kvPut (entryAddr dst e) ks.2 e bs) :=
    fun hu bs => canon_kvPut (canon_noteWalk hu _) ..
  have hread := canon_reading h .own (entryAddr src e) ks.1 16
  unfold State.forkEntry
  extract_lets s' bs x put
  split
  · exact hput hread _
  · split
    · exact hput hread _
    · exact hput (canon_incShare hread ..) _

omit h in
theorem canon_forkEntries (src dst : DWord) (ks : List (Nat × Nat)) (e m : Nat) {s : State} (h : Canon s) :
    Canon (State.forkEntries src dst ks e s m).1 := by
  induction ks generalizing e m s with
  | nil => exact h
  | cons k ks ih => exact ih _ _ (canon_forkEntry h ..)

theorem yields_fork (sc : Sched) (d : Opnd) (src dst : DWord) : Yields (s.fork sc d src dst) Canon :=
  yields_after fun _ => yields_ite (yields_ok (canon_put (canon_reading h ..) ..))
    (yields_after fun ks => yields_after fun _ => yields_ok (canon_put (canon_usedLate (canon_kvPut (canon_beforeRead
      (canon_noteWalk (canon_forkEntries src dst ks 0 0 (canon_reading h ..)) _) ..) ..)) ..))

theorem yields_grow (sc : Sched) (d : Opnd) (va : DWord) (n : Nat) : Yields (s.grow sc d va n) Canon :=
  yields_bind (yields_readHdr h va) fun _ hhd => yields_ite (yields_ok (canon_put hhd ..))
    (yields_bind (yields_readEntries _ _ _ hhd) fun _ hr => yields_ite (yields_ok (canon_put hr ..))
      (yields_after fun _ => yields_ite (yields_ok (canon_put (canon_atBlock hr ..) ..))
        (yields_ok (canon_put (canon_storeNow (canon_atBlock hr ..) ..) ..))))

theorem yields_commitTotal (sc : Sched) (d : Opnd) (va : DWord) (t : Word) : Yields (s.commitTotal sc d va t) Canon :=
  yields_bind (yields_readHdr (canon_releaseAll h _) va) fun _ hhd => yields_ite (yields_ok (canon_put hhd ..))
    (yields_bind (yields_readEntries _ _ _ hhd) fun _ hr => yields_after fun _ =>
      yields_ite (yields_ok (canon_put (canon_atBlock hr ..) ..))
        (yields_ok (canon_put (canon_storeNow (canon_release (canon_atBlock hr ..) ..) ..) ..)))

theorem nextOk_kvxl (sc : Sched) (d : Opnd) (bp : BitVec 4) (off : BitVec 24) (a : Opnd) :
    NextOk (execKvxl sc d bp off a s) :=
  nextOk_two h fun _ _ => yields_bind (yields_readHdr h _) fun _ hhd =>
    yields_ite (yields_ok (canon_put64 hhd ..))
      (yields_bind (yields_translate _ _ _ _ _ hhd) fun _ hv => yields_ok (canon_put64 hv ..))

end
end Sys2Proof.Machine
end

section
/-! Every step keeps memory in canonical form (R144): copies, streams, and what the engine writes. -/

namespace Sys2Proof.Machine

section
variable {s : State} (h : Canon s)
include h

/-! ## Updates that leave memory alone -/

theorem canon_mapChan (ch : BitVec 2) (f : Chan → Chan) : Canon (s.mapChan ch f) := h
theorem canon_firingsAnew : Canon s.firingsAnew := h
theorem canon_dropBoard (ch : BitVec 2) (id : Word) : Canon (s.dropBoard ch id) := h
theorem canon_deferTo (a : AgentId) (d : Deferred) : Canon (s.deferTo a d) := h
theorem canon_freezeFor (n : Nat) : Canon (s.freezeFor n) := h
theorem canon_noteVoc (key n : Nat) : Canon (s.noteVoc key n) := canon_ite h h

omit h in
theorem yields_unserved {r : Except Stop State} (hr : Yields r Canon) : Yields (s.unserved r) Canon :=
  yields_ite (yields_error _) hr

theorem nextOk_unserved {r : Except Stop State} (hr : Yields r Canon) : NextOk (s.finish (s.unserved r)) :=
  nextOk_finish h (yields_unserved hr)

/-- Both banks lie beside memory. -/
theorem canon_swapped : Canon s.swapped := by
  unfold State.swapped
  split <;> exact h

theorem canon_onWork {f : State → State} (hf : ∀ t, Canon t → Canon (f t)) : Canon (s.onWork f) :=
  canon_ite (canon_swapped (hf _ (canon_swapped h))) (hf s h)

theorem nextOk_unlessFrozen {f : State → State} (hf : ∀ t, Canon t → Canon (f t)) : NextOk (s.unlessFrozen f) :=
  nextOk_next (canon_ite (hf s h) h)

/-! ## Copies -/

theorem nextOk_copyIssue (k : CopyKind) (d : Opnd) (bp : BitVec 4) (off : BitVec 23) : NextOk (s.copyIssue k d bp off) :=
  nextOk_unserved h (yields_after fun _ => yields_after fun _ => yields_after fun _ =>
    yields_ite (yields_error _) (yields_ok (canon_putToken (canon_mapBank (canon_atBlock h ..) _) ..)))

theorem canon_settleAll (ps : List (Nat × Bool)) : Canon (s.settleAll ps) := (s.wf_settleAll ps).trans h

theorem canon_writeRow (row : List RowPiece) (dst : List Nat) : Canon (s.writeRow row dst) :=
  canon_settleAll (canon_foldl (fun t _ ht => t.wf_wr _ _ ht) _ h) _

theorem canon_poisonKey (key : Nat) : Canon (s.poisonKey key) := (s.wf_poisonKey key).trans h

theorem canon_reducePiece (b : CopyBlk) (w src dst n : Nat) (f : BitVec 7) : Canon (s.reducePiece b w src dst n f).1 := by
  induction n with
  | zero => exact h
  | succ n ih =>
    unfold State.reducePiece
    extract_lets p o r put kept
    have hput : Canon put := canon_wrNat ih ..
    exact canon_ite (canon_poisonKey hput _) hput

theorem canon_reduceRow (b : CopyBlk) (src dst : List Nat) (f : BitVec 7) : Canon (s.reduceRow b src dst f).1 := by
  unfold State.reduceRow
  extract_lets w
  suffices ∀ l : List (Nat × Nat), ∀ q : State × BitVec 7, Canon q.1 →
      Canon (l.foldl (fun p x => p.1.reducePiece b w x.1 x.2 (8 / w) p.2) q).1 from this _ (s, f) h
  intro l
  induction l with
  | nil => exact fun _ hq => hq
  | cons x l ih => exact fun q hq => ih _ (canon_reducePiece hq ..)

theorem canon_noteRow (k : CopyKind) (ds : List (List Nat)) : Canon (s.noteRow k ds) :=
  canon_ite h (canon_foldl (fun _ _ ht => canon_noteWrite ht ..) ds.flatten h)

/-- A row that has been moved. -/
theorem canon_copyRow (cx : BitVec 6) (run : Option Run) (c : Copy) (r : Nat) (f : BitVec 7) {t : State} {g : BitVec 7}
    (e : s.copyRow cx run c r f = .moved t g) : Canon t := by
  unfold State.copyRow at e
  split at e
  · cases e; exact h
  · dsimp only at e
    split at e
    · cases e
    · split at e
      · cases e
      · next ds _ =>
        have hn := canon_noteRow h c.kind ds
        split at e
        · cases e; exact canon_reduceRow hn ..
        · cases e; exact canon_foldl (fun _ _ ht => canon_writeRow ht ..) ds hn

omit h in
theorem canon_moveRows (cx : BitVec 6) (run : Option Run) (c : Copy) (n r : Nat) (f : BitVec 7) {s : State} (h : Canon s) :
    Canon (State.moveRows cx run c n r s f).s := by
  induction n generalizing r f s with
  | zero => exact h
  | succ n ih =>
    unfold State.moveRows
    split
    · next e => exact ih _ _ (canon_copyRow h _ _ _ _ _ e)
    · exact h
    · exact h

theorem canon_forgetRows (c : Copy) (n : Nat) : Canon (s.forgetRows c n) := by
  unfold State.forgetRows
  extract_lets tag forget row
  refine Memory.wf_foldl row (fun m r hm => ?_) _ s.mem h
  dsimp only [row]
  split
  · exact Memory.wf_foldl forget (fun m k hm => m.wf_forget _ _ _ hm) _ m hm
  · exact hm

theorem canon_copyFails (ch : BitVec 2) (c : Copy) (e : CopyFail) : Canon (s.copyFails ch c e) := by
  unfold State.copyFails
  extract_lets c' sub va t
  have ht : Canon t := canon_dropBoard h ..
  clear_value t
  split
  · exact canon_mapBank (canon_forgetRows ht ..) _
  · exact canon_ite (canon_mapChan ht ..) (canon_mapChan ht ..)

theorem canon_startCopy (ch : BitVec 2) : Canon (s.startCopy ch) := by
  unfold State.startCopy
  split
  · exact h
  · extract_lets t idx t'
    have ht : Canon t := canon_surface h _
    have ht' : Canon t' := canon_mapChan ht ..
    clear_value idx t' t
    cases idx with
    | error e => exact canon_copyFails ht' ..
    | ok l => exact canon_ite ht ht

theorem canon_copyDone (ch : BitVec 2) (c : Copy) (f : BitVec 7) : Canon (s.copyDone ch c f) := by
  unfold State.copyDone
  extract_lets t u
  have ht : Canon t := canon_mapBank (canon_dropBoard h ..) _
  have hu : Canon u := canon_ite (canon_firingsAnew ht) ht
  clear_value u
  split
  · exact canon_mapBank hu _
  · exact canon_mapAgent hu ..

theorem canon_beforeMove (c : Copy) : Canon (s.beforeMove c) := canon_ite h (s.wf_flushWhere _ h)

theorem canon_moveCopy (ch : BitVec 2) (id : Word) (n : Nat) : Canon (s.moveCopy ch id n) := by
  unfold State.moveCopy
  split
  · exact h
  · next c _ =>
    refine canon_ite ?_ h
    extract_lets n r
    have hr : Canon r.s := canon_moveRows _ _ _ _ _ _ (canon_beforeMove h c)
    clear_value r
    split
    · exact canon_ite (canon_copyDone hr ..) (canon_mapChan hr ..)
    · exact canon_copyFails hr ..

theorem canon_runCopy (ch : BitVec 2) (id : Word) : Canon (s.runCopy ch id) := canon_moveCopy h ..

theorem nextOk_copyStart (ch : BitVec 2) : NextOk (execCopyStart ch s) :=
  nextOk_next (show Canon { s.onWork fun s => s.startCopy ch with copyAt := s.wall + 1 } from
    canon_onWork h fun _ ht => canon_startCopy ht ch)

theorem nextOk_copyComplete (ch : BitVec 2) (id : Word) : NextOk (execCopyComplete ch id s) :=
  nextOk_next (show Canon { s.onWork fun s => s.runCopy ch id with copyAt := s.wall + 1 } from
    canon_onWork h fun _ ht => canon_runCopy ht ch id)

theorem nextOk_copyFaultDelivery (ch : BitVec 2) : NextOk (execCopyFaultDelivery ch s) := by
  unfold execCopyFaultDelivery
  split
  · exact nextOk_next (canon_takeTrap h _)
  · exact nextOk_next h

/-! ## Streams -/

theorem nextOk_stcfg (sn bp : BitVec 4) (off : BitVec 20) : NextOk (execStcfg sn bp off s) :=
  nextOk_unserved h (yields_after fun _ => yields_after fun _ => yields_after fun _ => yields_ite (yields_error _) (by
    split
    · exact yields_error _
    · exact yields_ok (canon_mapBank (canon_atBlock h ..) _)))

theorem nextOk_stadv (sn : BitVec 4) (a : Opnd) : NextOk (execStadv sn a s) :=
  nextOk_unserved h (yields_after fun _ => yields_after fun _ => yields_ite (yields_error _) (yields_ite (yields_error _)
    (yields_ite (yields_error _) (yields_ok (canon_mapBank h _)))))

theorem nextOk_ststat (sc : Sched) (d : Opnd) (sn : BitVec 4) : NextOk (execStstat sc d sn s) :=
  nextOk_unserved h (yields_ok h)

theorem nextOk_stcut (sn : BitVec 4) : NextOk (execStcut sn s) :=
  nextOk_unserved h (yields_after fun _ => yields_ite (yields_error _) (yields_ok (canon_mapBank h _)))

theorem canon_fillStream (n : BitVec 4) : Canon (s.fillStream n) := by
  unfold State.fillStream
  split
  · exact h
  · exact canon_ite h (canon_ite (canon_freezeFor h _) (canon_mapBank (canon_surface h _) _))

theorem nextOk_streamFill (sn : BitVec 4) : NextOk (execStreamFill sn s) :=
  nextOk_unlessFrozen h fun _ ht => canon_onWork ht fun _ hu => canon_fillStream hu sn

theorem canon_drainWrite (n : BitVec 4) (agent : AgentId) (bad : Bool) (w : Nat × List Byte) :
    Canon (s.drainWrite n agent bad w) := by
  unfold State.drainWrite
  split
  · next key _ =>
    have hput : Canon ((s.noteWrite (.here agent) .mx key w.2.length 4).wr key w.2) :=
      State.wf_wr _ _ _ (canon_noteWrite h ..)
    exact canon_ite (canon_deferTo h ..) (canon_ite (canon_poisonKey hput _) hput)
  · exact canon_mapBank h _
  · exact h

theorem canon_drainStream (n : BitVec 4) : Canon (s.drainStream n) := by
  unfold State.drainStream
  split
  · exact h
  · next e rest _ =>
    exact canon_ite (canon_mapBank (canon_foldl (fun _ _ ht => canon_foldl (fun _ w hu => canon_drainWrite hu ..) _ ht) _
      (canon_mapBank (canon_surface h _) _)) _) h

theorem nextOk_streamOutputWrite (sn : BitVec 4) : NextOk (execStreamOutputWrite sn s) :=
  nextOk_unlessFrozen h fun _ ht => canon_onWork ht fun _ hu => canon_drainStream hu sn

/-! ## An operation enters the engine -/

theorem canon_putPending (d : Opnd) (w : Bool) : Canon (s.putPending d w).1 := h

theorem canon_takeTag (i : Instr) : Canon (s.takeTag i).1 := by
  unfold State.takeTag
  extract_lets tag
  split
  · exact canon_mapCur h _
  · split
    · exact canon_mapCur h _
    · exact h

theorem canon_engIssue (ins : Instr) (d : Opnd) (wide : Bool) (setup : EngOp → EngOp) :
    Canon (s.engIssue ins d wide setup) := canon_mapBank (canon_putPending (canon_takeTag h ins) ..) _

theorem nextOk_engPlain (ins : Instr) : NextOk (s.engPlain ins) := nextOk_unserved h (yields_ok (canon_engIssue h ..))

theorem canon_jointIssue (ins : Instr) : Canon (s.jointIssue ins) := by
  have hp := canon_putPending (canon_takeTag h ins) (.q 0) false
  unfold State.jointIssue
  exact canon_ite (canon_mapBank hp _) (canon_mapBank hp _)

theorem yields_mxBlock (va : DWord) : Yields (s.mxBlock va) fun q => Canon q.1 :=
  yields_after fun key => by
    have hr := canon_reading h .mx va key 64
    dsimp only
    split
    · exact yields_error _
    · exact yields_ok hr

theorem yields_openIssue (ins : Instr) (d a : Opnd) : Yields (s.openIssue ins d a) Canon :=
  yields_unserved (yields_after fun _ => yields_ok (canon_engIssue h ..))

theorem yields_extendIssue (ins : Instr) (d a : Opnd) : Yields (s.extendIssue ins d a) Canon := by
  have ho := yields_openIssue h ins d a
  unfold State.extendIssue
  cases e : s.openIssue ins d a with
  | error x => exact yields_error _
  | ok t => exact yields_ok (canon_extendOrder (ho t e))

/-! ## Words that operations write -/

theorem yields_writeWordsBy (last : Bool) {write : State → Nat → List Byte → Except (Byte × Nat) State} (va : Nat)
    (bs : List Byte) (hw : ∀ t va bs, Canon t → Yields (write t va bs) Canon) : Yields (s.writeWordsBy last write va bs) Canon := by
  unfold State.writeWordsBy
  split
  · exact yields_error _
  · clear * - h hw
    generalize List.range (bs.length / 8) = l
    induction l generalizing s with
    | nil => exact yields_ok h
    | cons i l ih =>
      rw [List.foldlM_cons]
      exact yields_bind (hw _ _ _ h) fun _ ht => ih ht

theorem yields_writeWords (va : Nat) (bs : List Byte) : Yields (s.writeWords va bs) Canon :=
  yields_writeWordsBy h _ _ _ fun _ _ _ ht => yields_engWrite ht _ _ _ _ _

theorem yields_vocWrite (va w : Nat) (bs : List Byte) : Yields (s.vocWrite va w bs) Canon := by
  have hw := yields_engWrite h s.cx s.bank.run va w bs
  unfold State.vocWrite
  split
  · exact yields_error _
  · split
    · cases e : s.engWrite s.cx s.bank.run va w bs with
      | error x => exact yields_error _
      | ok t => exact yields_ok (canon_noteVoc (hw t e) ..)
    · exact hw

theorem yields_vocWords (va : Nat) (bs : List Byte) : Yields (s.vocWords va bs) Canon :=
  yields_writeWordsBy h _ _ _ fun _ _ _ ht => yields_vocWrite ht _ _ _

theorem canon_spill (c : VCfg) (row shard rank : Nat) (x : Cand) : Canon (s.spill c row shard rank x).1 := by
  unfold State.spill
  split
  · exact h
  · split
    · exact h
    · dsimp only
      split
      · exact h
      · split
        · exact h
        · next t e =>
          have ht := yields_vocWrite h _ _ _ t e
          split
          · exact ht
          · next u e => exact yields_vocWords ht _ _ u e

end
end Sys2Proof.Machine
end

section
/-! Every step keeps memory in canonical form (R144): what the operations of the matrix engine leave. -/

namespace Sys2Proof.Machine

/-- Whatever an operation comes to, the state it leaves has canonical memory. -/
def ResOk : EngRes → Prop
  | .done s _ _ _ => Canon s
  | .fault s _ _ => Canon s
  | .waits s _ => Canon s

theorem resOk_ite {c : Prop} [Decidable c] {r r' : EngRes} (h : ResOk r) (h' : ResOk r') : ResOk (if c then r else r') := by
  split
  · exact h
  · exact h'

theorem canon_fst {α : Type} {p : State × α} {s : State} {x : α} (e : p = (s, x)) (h : Canon p.1) : Canon s := by
  rw [e] at h
  exact h

section
variable {s : State} (h : Canon s)
include h

theorem resOk_stopAt (o : EngOp) (sub : Byte) : ResOk (stopAt s o sub) := h
theorem resOk_fillStop (o : EngOp) (f : BitVec 4 × Byte × DWord) (chunk : Nat) : ResOk (fillStop s o f chunk) :=
  canon_mapBank h _
theorem canon_consumeAll (o : EngOp) : Canon (s.consumeAll o) := h
theorem canon_handOut (o : EngOp) (c : Claim) (rows cols : Nat) (elems : List Word) (bad : List Bool) :
    Canon (s.handOut o c rows cols elems bad) := h
theorem canon_ownerReads (o : EngOp) : Canon (s.ownerReads o) := h
theorem canon_mapRec' (f : RecMode → RecMode) : Canon (s.mapRec' f) := h

/-! ## MTX and TILE (R185 to R200) -/

theorem resOk_runProd (o : EngOp) (p : ProdSpec) : ResOk (s.runProd o p) := by
  unfold State.runProd
  extract_lets x n ca cb
  split
  · exact resOk_stopAt h ..
  · refine resOk_ite h ?_
    split
    · exact canon_consumeAll (canon_mapBank h _) o
    · exact canon_mapBank h _
    · exact resOk_fillStop (canon_mapBank h _) ..

theorem resOk_runAcload (o : EngOp) (ac : BitVec 2) (i32 : Bool) : ResOk (s.runAcload o ac i32) := by
  unfold State.runAcload
  extract_lets x c
  split
  · exact resOk_stopAt h ..
  · refine resOk_ite h ?_
    extract_lets
    split
    · exact resOk_fillStop h ..
    · exact canon_consumeAll (canon_mapBank h _) o

theorem resOk_runAcdrain (o : EngOp) (ac : BitVec 2) (t : Ty) (rs cs keep : Bool) (r : Rnd) :
    ResOk (s.runAcdrain o ac t rs cs keep r) := by
  unfold State.runAcdrain
  extract_lets x ci a b scales
  split
  · exact resOk_stopAt h ..
  · refine resOk_ite h ?_
    extract_lets
    split
    · exact resOk_fillStop h ..
    · exact canon_mapBank (canon_consumeAll (canon_handOut h ..) o) _

theorem resOk_runRows (o : EngOp) (ac : BitVec 2) (ps : List (BitVec 4 × Piece)) (bad : Nat → Bool)
    (f : Nat → List Nat → Fm (List Nat)) : ResOk (s.runRows o ac ps bad f) := by
  unfold State.runRows
  extract_lets x
  split
  · exact resOk_fillStop h ..
  · exact resOk_ite (canon_consumeAll (canon_mapBank h _) o) (canon_mapBank h _)

theorem resOk_runElem (o : EngOp) (ac : BitVec 2) (t : Ty) (b : BitVec 2) (mul : Bool) :
    ResOk (s.runElem o ac t b mul) := by
  unfold State.runElem
  extract_lets x c
  split
  · exact resOk_stopAt h ..
  · exact resOk_ite h (resOk_runRows h ..)

theorem resOk_runTile1 (o : EngOp) (ac : BitVec 2) (t : Ty) (one : Bool) (f : List Nat → List Nat → Fm (List Nat)) :
    ResOk (s.runTile1 o ac t one f) := by
  unfold State.runTile1
  extract_lets x c
  split
  · exact resOk_stopAt h ..
  · exact resOk_ite h (resOk_runRows h ..)

theorem resOk_runTrmsd (o : EngOp) (ac : BitVec 2) (t : Ty) (e : Nat) : ResOk (s.runTrmsd o ac t e) := by
  unfold State.runTrmsd
  extract_lets x ca cw
  split
  · exact resOk_stopAt h ..
  · exact resOk_ite h (resOk_runRows h ..)

theorem resOk_runTsmax (o : EngOp) (ac : BitVec 2) (norm : Bool) : ResOk (s.runTsmax o ac norm) := by
  unfold State.runTsmax
  extract_lets x c
  split
  · exact resOk_stopAt h ..
  · exact resOk_ite h (resOk_runRows (canon_ite (canon_handOut h ..) h) ..)

theorem resOk_runTscale (o : EngOp) (ac : BitVec 2) (t : Ty) : ResOk (s.runTscale o ac t) := by
  unfold State.runTscale
  extract_lets x c
  split
  · exact resOk_stopAt h ..
  · exact resOk_ite h (resOk_runRows h ..)

theorem resOk_runTileOp (o : EngOp) : ResOk (s.runTileOp o) := by
  unfold State.runTileOp
  split
  case h_1 | h_2 | h_3 | h_4 | h_5 => exact resOk_runProd h ..
  case h_6 | h_7 => exact resOk_ite (resOk_stopAt h ..) (canon_mapBank h _)
  case h_8 => exact resOk_runAcload h ..
  case h_9 => exact resOk_runAcdrain h ..
  case h_10 | h_11 => exact resOk_runElem h ..
  case h_12 => exact resOk_ite (resOk_stopAt h ..) (resOk_runRows h ..)
  case h_13 | h_14 | h_17 => exact resOk_runTile1 h ..
  case h_15 => exact resOk_runTrmsd h ..
  case h_16 => exact resOk_runTsmax h ..
  case h_18 => exact resOk_runTscale h ..
  case h_19 => exact h

/-! ## Projection over a vocabulary (R227 to R242) -/

omit h in
theorem canon_certGo (c : VCfg) (norm : Nat × Nat) (row shard from' : Nat) (xs : List Cand) {r : CertRes} (h : Canon r.s) :
    Canon (certGo c norm row shard from' xs r).s := by
  induction xs generalizing r with
  | nil => exact h
  | cons x xs ih =>
    have hs : Canon (if r.k < from' then (r.s, none) else r.s.spill c row shard r.k x).1 := by
      split
      · exact h
      · exact canon_spill h ..
    unfold certGo
    split
    · exact h
    · split
      · next e => exact canon_fst e hs
      · next e => exact ih (canon_fst e hs)

theorem canon_certify (c : VCfg) (norm : Nat × Nat) (row shard count from' : Nat) (l : List Cand) (f : BitVec 7) :
    Canon (s.certify c norm row shard count from' l f).1.s := by
  unfold State.certify
  split
  · exact h
  · dsimp only
    split
    · exact canon_certGo c norm row shard from' _ h
    · exact h

theorem canon_finishRow (c : VCfg) (va row shard extra from' : Nat) (done' : Bool) (r : RowScr) (f : BitVec 7) :
    Canon (s.finishRow c va row shard extra from' done' r f).1 := by
  unfold State.finishRow
  extract_lets count w
  have hw : Yields w Canon := yields_ite (yields_ok h) (yields_vocWords h _ _)
  clear_value w
  split
  · exact h
  · next t =>
    extract_lets p
    have hp : Canon p.1.s := canon_certify (hw t rfl) ..
    clear_value p
    split
    · exact hp
    · split
      · exact hp
      · next u e => exact yields_vocWrite hp _ _ _ u e

omit h in
theorem canon_rowsGo (c : VCfg) (row va : Nat → Nat) (lb : Nat → Bool) (rs : List RowScr) (i from' : Nat) (done' : Bool)
    {s : State} (h : Canon s) (f : BitVec 7) : Canon (State.rowsGo c row va lb rs i from' done' s f).1 := by
  induction rs generalizing i from' done' s f with
  | nil => exact h
  | cons r rs ih =>
    have hr := canon_finishRow h c (va i) (row i) c.shard (8 * bit (lb i)) from' done' r f
    unfold State.rowsGo
    split
    · next e => exact ih _ _ _ (canon_fst e hr) _
    · next e => exact canon_fst e hr

theorem canon_mergeAt (c : VCfg) (fa qa ra i from' : Nat) (held : List Byte) (fl' : BitVec 7) :
    Canon (s.mergeAt c fa qa ra i from' held fl').1 := by
  unfold State.mergeAt
  split
  · split
    · exact h
    · split
      · exact h
      · dsimp only
        split
        · exact h
        · split
          · next e => exact canon_fst e (canon_finishRow h ..)
          · next e => exact canon_fst e (canon_finishRow h ..)
  · dsimp only
    split
    · next e => exact canon_fst e (canon_finishRow h ..)
    · next e => exact canon_fst e (canon_finishRow h ..)

omit h in
theorem canon_mergeGo (c : VCfg) (fa qa ra n i from' : Nat) (held : List Byte) {s : State} (h : Canon s) (f : BitVec 7) :
    Canon (State.mergeGo c fa qa ra n i from' held s f).1 := by
  induction n generalizing i from' held s f with
  | zero => exact h
  | succ n ih =>
    have hm := canon_mergeAt h c fa qa ra i from' held f
    unfold State.mergeGo
    split
    · next e => exact ih _ _ _ (canon_fst e hm) _
    · next e => exact canon_fst e hm

theorem resOk_runVmerge (o : EngOp) (rows : Nat) : ResOk (s.runVmerge o rows) := by
  unfold State.runVmerge
  split
  · exact h
  · extract_lets c n held
    refine resOk_ite (resOk_stopAt h ..) ?_
    have hm := canon_mergeGo c o.valA.toNat o.valB.toNat o.addr.toNat (rows - o.row) o.row o.rank held h o.flags
    split
    · next e => exact canon_fst e hm
    · next e => exact canon_fst e hm

theorem resOk_runVproj (o : EngOp) (ac : BitVec 2) (sa sb : BitVec 4) (t : Ty) (ta tb : Bool) (kc : Nat) :
    ResOk (s.runVproj o ac sa sb t ta tb kc) := by
  unfold State.runVproj
  split
  · exact h
  · extract_lets c nb cl s' o'
    have hs : Canon s' := h
    clear_value s' o'
    split
    · exact hs
    · split
      · exact hs
      · extract_lets o'' ca cb
        split
        · exact resOk_stopAt hs ..
        · refine resOk_ite hs ?_
          extract_lets
          split
          · exact canon_mapBank hs _
          · exact resOk_fillStop (canon_mapBank hs _) ..
          · exact hs
          · extract_lets lb f'
            split
            · next e => exact canon_consumeAll (canon_fst e (canon_rowsGo _ _ _ _ _ _ _ _ (canon_mapBank hs _) _)) _
            · next e => exact canon_fst e (canon_rowsGo _ _ _ _ _ _ _ _ (canon_mapBank hs _) _)

end
end Sys2Proof.Machine
end

section
/-! Every step keeps memory in canonical form (R144): attention, open rules and record mode. -/

namespace Sys2Proof.Machine

section
variable {s : State} (h : Canon s)
include h

/-! ## `vprojd` (R242) -/

theorem canon_dwOut (o : EngOp) (cx : Option Claim) (ch : Nat → Chunk) (kc b : Nat) (dl : List (List Nat)) (f : BitVec 7) :
    Canon (s.dwOut o cx ch kc b dl f).1 := by
  unfold State.dwOut
  split
  · exact h
  · next c =>
    generalize List.range kc = l, f = g
    induction l generalizing s g with
    | nil => exact h
    | cons j l ih => exact ih (canon_handOut h ..) _

/-- Whatever the blocks come to. -/
def DEnd.Ok : DEnd → Prop
  | .all s _ _ _ => Canon s
  | .stop s _ _ _ => Canon s
  | .full s _ _ _ _ => Canon s

omit h in
theorem canon_dGo (op : EngOp) (c : VCfg) (ca cb : Claim) (cx : Option Claim) (kc hh : Nat) (rs : List RowGrad) (n b j : Nat)
    (need : BitVec 128) (z : Acc) {s : State} (h : Canon s) (x : Acc) (f : BitVec 7) :
    (State.dGo op c ca cb cx kc hh rs n b j need z s x f).Ok := by
  induction n generalizing b j need z s x f with
  | zero => exact h
  | succ n ih =>
    unfold State.dGo
    split
    · exact h
    · split
      · exact ih _ _ _ _ (canon_dwOut h ..) _ _
      · exact h

theorem resOk_runVprojd (o : EngOp) (ac : BitVec 2) (sa sb sx : BitVec 4) (t : Ty) (hh : Nat) (dw : Bool) (kc : Nat) :
    ResOk (s.runVprojd o ac sa sb sx t hh dw kc) := by
  unfold State.runVprojd
  extract_lets x z at' put
  have hput : ∀ {t : State}, Canon t → ∀ x z, Canon (put t x z) := fun ht _ _ => canon_mapBank ht _
  clear_value put
  split
  · exact h
  · extract_lets c nb cl s' o'
    have hs : Canon s' := h
    clear_value s' o'
    split
    · exact hs
    · split
      · exact hs
      · extract_lets o'' ca cb cx out outShape rs z'
        split
        · exact resOk_stopAt hs ..
        · refine resOk_ite hs ?_
          have hd := canon_dGo o'' c ca cb cx kc hh rs (nb - o''.block) o''.block o''.chunk o''.need z' hs x o''.flags
          split
          · next e => rw [e] at hd; exact canon_consumeAll (hput hd ..) _
          · next e => rw [e] at hd; exact hput hd ..
          · next e =>
            rw [e] at hd
            extract_lets
            split
            · exact hput hd ..
            · exact resOk_fillStop (hput hd ..) ..
            · exact hput hd ..

/-! ## Attention (R255 to R261) -/

theorem canon_acquireHead (va : Nat) : Canon (s.acquireHead va) := by
  unfold State.acquireHead
  split
  · exact h
  · split <;> exact h

theorem canon_acquireHeads (r : AttnReq) (adj : Option AdjBlk) : Canon (s.acquireHeads r adj) :=
  canon_ite h (canon_foldl (fun _ va ht => canon_acquireHead ht va) _ h)

theorem canon_lateClaim (o : EngOp) (ns : List (BitVec 4)) : Canon (s.lateClaim o ns).1 := h

theorem yields_attnRow (c : AttnCtx) (nout i : Nat) (q : List FVal) (f : BitVec 7) :
    Yields (s.attnRow c nout i q f) fun p => Canon p.1 := by
  unfold State.attnRow
  split
  · exact yields_error _
  · dsimp only
    split
    · split
      · exact yields_error _
      · next t e => exact yields_ok (yields_engWrite h _ _ _ _ _ t e)
    · exact yields_ok h

omit h in
theorem canon_attnRows (c : AttnCtx) (nout : Nat) (p : Piece) (t : Ty) (n i : Nat) {s : State} (h : Canon s) (out : List Nat)
    (f : BitVec 7) : Canon (State.attnRows c nout p t n i s out f).s := by
  induction n generalizing i s out f with
  | zero => exact h
  | succ n ih =>
    unfold State.attnRows
    split
    · exact h
    · split
      · exact h
      · next e => exact ih _ (yields_attnRow h _ _ _ _ _ _ e) _ _

theorem resOk_attnGo (o : EngOp) (r : AttnReq) : ResOk (s.attnGo o r) := by
  unfold State.attnGo
  extract_lets s' cq co p
  have hs : Canon s' := canon_acquireHeads h ..
  clear_value s'
  split
  · exact resOk_stopAt hs ..
  · split
    · exact hs
    · extract_lets o' n nout z o'' t
      have hz : Canon z.s := canon_attnRows _ _ _ _ _ _ hs _ _
      have ht : Canon t := canon_handOut hz ..
      clear_value t z
      refine resOk_ite hs ?_
      split
      · exact resOk_fillStop hs ..
      · split
        · exact hz
        · exact canon_consumeAll ht _

theorem resOk_runAttn (o : EngOp) : ResOk (s.runAttn o) := by
  unfold State.runAttn
  split
  · exact h
  · extract_lets r p
    have hp : Canon p.1 := canon_lateClaim h ..
    clear_value p
    split
    · exact hp
    · exact resOk_attnGo hp ..

theorem yields_bump (va x : Nat) (f : BitVec 7) : Yields (s.bump va x f) fun p => Canon p.1 := by
  unfold State.bump
  split
  · exact yields_error _
  · dsimp only
    split
    · exact yields_error _
    · next t e => exact yields_ok (yields_engWrite h _ _ _ _ _ t e)

theorem yields_bumpTok (va a : Nat) (xs : List Nat) (c : Nat) (f : BitVec 7) :
    Yields (s.bumpTok va a xs c f) fun p => Canon p.1 := by
  induction xs generalizing s c f with
  | nil => exact yields_ok h
  | cons x xs ih =>
    unfold State.bumpTok
    dsimp only
    split
    · exact yields_error _
    · next e => exact ih (yields_bump h _ _ _ _ e) _ _

theorem yields_bumpIf (k : Option KList) (j a : Nat) (xs : List Nat) (f : BitVec 7) :
    Yields (s.bumpIf k j a xs f) fun p => Canon p.1 := by
  unfold State.bumpIf
  split
  · exact yields_ok h
  · exact yields_bumpTok h _ _ _ _ _

omit h in
theorem yields_attndKeys (c : AttnCtx) (i : Nat) (r : DRow) (n j : Nat) {s : State} (h : Canon s) (g : List Nat) (f : BitVec 7) :
    Yields (State.attndKeys c i r n j s g f) fun p => Canon p.1 := by
  induction n generalizing j s g f with
  | zero => exact yields_ok h
  | succ n ih =>
    unfold State.attndKeys
    split
    · exact ih _ h _ _
    · split
      · exact yields_error _
      · split
        · exact yields_error _
        · extract_lets
          split
          · exact ih _ h _ _
          · split
            · exact yields_error _
            · next e =>
              have ht := yields_bumpIf h _ _ _ _ _ _ e
              split
              · exact yields_error _
              · next e => exact ih _ (yields_bumpIf ht _ _ _ _ _ _ e) _ _

theorem yields_attndRow (c : AttnCtx) (p : DPieces) (i : Nat) (norm : Nat × Nat) (forms : Bool) (f : BitVec 7) :
    Yields (s.attndRow c p i norm forms f) fun p => Canon p.1 := yields_attndKeys _ _ _ _ _ h _ _

omit h in
theorem canon_attndRows (c : AttnCtx) (p : DPieces) (oty : Ty) (n i : Nat) {s : State} (h : Canon s) (out : List Nat)
    (f : BitVec 7) : Canon (State.attndRows c p oty n i s out f).s := by
  induction n generalizing i s out f with
  | zero => exact h
  | succ n ih =>
    unfold State.attndRows
    split
    · exact h
    · split
      · exact h
      · split
        · exact h
        · next e => exact ih _ (yields_attndRow h _ _ _ _ _ _ _ e) _ _

theorem resOk_attndGo (o : EngOp) (r : AttnReq) (a : AdjBlk) : ResOk (s.attndGo o r a) := by
  unfold State.attndGo
  extract_lets s' cl os
  have hs : Canon s' := canon_acquireHeads h ..
  clear_value s'
  split
  · exact resOk_stopAt hs ..
  · split
    · exact hs
    · extract_lets o' pc p z o'' t
      have hz : Canon z.s := canon_attndRows _ _ _ _ _ hs _ _
      have ht : Canon t := canon_handOut hz ..
      clear_value t z
      refine resOk_ite hs ?_
      split
      · exact resOk_fillStop hs ..
      · split
        · exact hz
        · exact canon_consumeAll ht _

theorem resOk_runAttnd (o : EngOp) : ResOk (s.runAttnd o) := by
  unfold State.runAttnd
  split
  · exact h
  · extract_lets r a p
    have hp : Canon p.1 := canon_lateClaim h ..
    clear_value p
    split
    · exact hp
    · exact resOk_attndGo hp ..

/-! ## Open tensors and rules (R203 to R226) -/

theorem resOk_runOtcfg (o : EngOp) (n : BitVec 6) : ResOk (s.runOtcfg o n) := by
  unfold State.runOtcfg
  split
  · exact h
  · exact resOk_ite (resOk_stopAt h ..) (canon_mapBank h _)

theorem resOk_runExtend (o : EngOp) (n : BitVec 6) : ResOk (s.runExtend o n) :=
  resOk_ite (resOk_stopAt h ..) (resOk_ite h (resOk_ite (canon_ownerReads (canon_mapBank h _) o) (canon_ownerReads h o)))

theorem resOk_runExtendC (o : EngOp) (n : BitVec 6) : ResOk (s.runExtendC o n) :=
  resOk_ite (resOk_stopAt h ..) (resOk_ite (resOk_stopAt h ..) (resOk_ite h (canon_ownerReads (canon_mapBank h _) o)))

theorem resOk_runRuleOp (o : EngOp) (f : Bank → BitVec 5 → Bank) : ResOk (s.runRuleOp o f) :=
  resOk_ite (resOk_stopAt h ..) (canon_mapBank h _)

theorem yields_mapWrite (o : OSlot) (n e₀ : Nat) (r : Vec) (ks : List Nat) : Yields (s.mapWrite o n e₀ r ks) Canon := by
  induction ks generalizing s with
  | nil => exact yields_ok h
  | cons k ks ih =>
    unfold State.mapWrite
    dsimp only
    split
    · exact yields_error _
    · next t e => exact ih (yields_engWrite h _ _ _ _ _ t e)

theorem yields_mapPass (j : MapJob) (p : Nat) : Yields (s.mapPass j p) fun q => Canon q.1 := by
  unfold State.mapPass
  extract_lets e₀ ks
  split
  · exact yields_error _
  · extract_lets v act
    split
    · exact yields_error _
    · next t e => exact yields_ok (yields_mapWrite h _ _ _ _ _ t e)

omit h in
theorem canon_mapGo (j : MapJob) (k p : Nat) {s : State} (h : Canon s) (f : BitVec 7) : Canon (State.mapGo j k p s f).1 := by
  induction k generalizing p s f with
  | zero => exact h
  | succ k ih =>
    unfold State.mapGo
    split
    · exact h
    · next e => exact ih _ (yields_mapPass h _ _ _ e) _

theorem resOk_runOmap (o : EngOp) : ResOk (s.runOmap o) := by
  unfold State.runOmap
  split
  · exact h
  · extract_lets m
    split
    · exact resOk_stopAt h ..
    · extract_lets
      have hm := fun j k => canon_mapGo j k o.row h o.flags
      split
      · next e => exact canon_fst e (hm _ _)
      · next e => exact canon_fst e (hm _ _)

theorem resOk_runInstall (o : EngOp) (f : Stand) : ResOk (s.runInstall o f) := by
  unfold State.runInstall
  split
  · exact h
  · refine resOk_ite (resOk_stopAt h ..) (resOk_ite (resOk_stopAt h ..) ?_)
    split
    · exact resOk_stopAt h ..
    · exact canon_mapBank h _

theorem resOk_runOpenOp (o : EngOp) : ResOk (s.runOpenOp o) := by
  unfold State.runOpenOp
  split
  case h_1 => exact resOk_runOtcfg h ..
  case h_2 => exact resOk_runExtend h ..
  case h_3 => exact resOk_runExtendC h ..
  case h_4 | h_5 | h_6 | h_7 => exact resOk_runRuleOp h ..
  case h_8 => exact resOk_runOmap h o
  case h_9 => exact resOk_runInstall h ..
  case h_10 => exact h

/-! ## Record mode (R265 to R275) -/

theorem yields_logPut (va w x : Nat) : Yields (s.logPut va w x) Canon := by
  unfold State.logPut
  split
  · exact yields_error _
  · next t e => exact yields_ok (yields_engWrite h _ _ _ _ _ t e)

theorem yields_logPuts (va : Nat) (l : List (Nat × Nat × Nat)) : Yields (s.logPuts va l) Canon := by
  unfold State.logPuts
  induction l generalizing s with
  | nil => exact yields_ok h
  | cons f l ih =>
    rw [List.foldlM_cons]
    exact yields_bind (yields_logPut h _ _ _) fun _ ht => ih ht

/-- What a reservation leaves. -/
def Reserve.Ok : Reserve → Prop
  | .fits s => Canon s
  | .over s => Canon s
  | .bad _ => True

theorem reserve_ok (n : Nat) : (s.reserve n).Ok := by
  unfold State.reserve
  extract_lets r sized
  cases sized with
  | error e => trivial
  | ok size =>
    dsimp only
    split
    · exact canon_mapRec' h _
    · split
      · trivial
      · next t e => exact canon_mapRec' (yields_logPut h _ _ _ t e) _

theorem yields_append (bs : List Byte) (result : Nat) : Yields (s.append bs result) Canon := by
  unfold State.append
  extract_lets r
  split
  · exact yields_error _
  · next t e =>
    have ht := yields_writeWords h _ _ t e
    split
    · exact yields_error _
    · next u e => exact yields_ok (canon_mapRec' (yields_logPuts ht _ _ u e) _)

theorem canon_drainAll : Canon s.drainAll := canon_foldl (fun _ n ht => canon_drainStream ht n) _ h

theorem resOk_recorded (o : EngOp) {run : EngOp → State → EngRes} (hrun : ∀ o t, Canon t → ResOk (run o t)) :
    ResOk (s.recorded o run) := by
  unfold State.recorded
  extract_lets t o' guard
  have hguard : ∀ o'' {k : State → EngRes}, (∀ u, Canon u → ResOk (k u)) → ResOk (guard o'' k) := by
    intro o'' k hk
    have hr := reserve_ok h (o''.entrySize t (s.accBefore o'))
    dsimp only [guard]
    split
    · exact h
    · next e => rw [e] at hr; exact hr
    · next e => rw [e] at hr; exact hk _ hr
  clear_value guard
  have hres := hrun o' s h
  split
  · next e => rw [e] at hres; exact hres
  · next e =>
    rw [e] at hres
    exact resOk_ite hres (hguard _ fun _ _ => hres)
  · next e =>
    rw [e] at hres
    refine hguard _ fun z hz => resOk_ite hres ?_
    extract_lets s''
    have hs : Canon s'' := canon_mapRec' (canon_drainAll hres) _
    clear_value s''
    split
    · exact h
    · next u e => exact yields_append hs _ _ u e

theorem resOk_runRecbeg (o : EngOp) : ResOk (s.runRecbeg o) := by
  unfold State.runRecbeg
  extract_lets va
  split
  · exact h
  · refine resOk_ite h (resOk_ite h ?_)
    split
    · exact h
    · next t e => exact canon_mapRec' (yields_logPuts h _ _ t e) _

theorem resOk_runRecend (o : EngOp) : ResOk (s.runRecend o) := by
  unfold State.runRecend
  extract_lets r
  refine resOk_ite h ?_
  split
  · exact h
  · next t e => exact canon_mapRec' (yields_logPuts h _ _ t e) _

/-! ## The reverse walk (R276 to R281) -/

theorem yields_gradAdd (va x : Nat) (f : BitVec 7) : Yields (s.gradAdd va x f) fun p => Canon p.1 := by
  unfold State.gradAdd
  split
  · exact yields_error _
  · dsimp only
    split
    · exact yields_error _
    · next t e => exact yields_ok (yields_engWrite h _ _ _ _ _ t e)

omit h in
/-- A fold that threads a state and flags. -/
theorem yields_foldlM {α ε : Type} {g : State × BitVec 7 → α → Except ε (State × BitVec 7)}
    (hg : ∀ p x, Canon p.1 → Yields (g p x) fun q => Canon q.1) (l : List α) {p : State × BitVec 7} (hp : Canon p.1) :
    Yields (l.foldlM g p) fun q => Canon q.1 := by
  induction l generalizing p with
  | nil => exact yields_ok hp
  | cons x l ih =>
    rw [List.foldlM_cons]
    exact yields_bind (hg p x hp) fun _ hq => ih hq

theorem yields_contribute (l : LogHdr) (slice : Nat) (c : Contrib) (f : BitVec 7) :
    Yields (s.contribute l slice c f) fun p => Canon p.1 := by
  unfold State.contribute
  split
  · exact yields_error _
  · exact yields_ite (yields_ok h) (yields_foldlM (fun _ _ hp => yields_gradAdd hp _ _ _) _ h)

theorem yields_attnAgain (e : Ent) (qp : List Piece) (adj : Option AdjBlk) :
    Yields (s.attnAgain e qp adj) fun a => Canon a.s := by
  refine yields_after fun bs => ?_
  have hs := canon_acquireHeads h (attnReqOf bs) adj
  refine yields_after fun c => yields_ite (yields_error _) ?_
  split
  · exact yields_ok hs
  · exact yields_error _

omit h in
theorem yields_adjAttnRows (c : AttnCtx) (p : DPieces) (norms : List (Nat × Nat)) (forms : Bool) (n i : Nat) {s : State}
    (h : Canon s) (out : List (List Nat)) (f : BitVec 7) :
    Yields (State.adjAttnRows c p norms forms n i s out f) fun q => Canon q.1 := by
  induction n generalizing i s out f with
  | zero => exact yields_ok h
  | succ n ih =>
    unfold State.adjAttnRows
    split
    · exact yields_error _
    · next e => exact ih _ (yields_attndRow h _ _ _ _ _ _ _ e) _ _

theorem yields_adjAttn (j : Adj) (f : BitVec 7) : Yields (s.adjAttn j f) fun q => Canon q.1 :=
  yields_after fun _ => yields_after fun _ => yields_bind (yields_attnAgain h _ _ _) fun _ ha => yields_after fun _ =>
    yields_bind (yields_adjAttnRows _ _ _ _ _ _ ha _ _) fun _ hr => yields_ok hr

theorem yields_adjoint (j : Adj) (f : BitVec 7) : Yields (s.adjoint j f) fun q => Canon q.1 := by
  unfold State.adjoint
  extract_lets same
  have hsame : ∀ r, Yields (same r) fun q => Canon q.1 := by
    intro r
    cases r with
    | error e => exact yields_error _
    | ok x => exact yields_ok h
  clear_value same
  split
  case h_4 => exact yields_ok h
  case h_11 => exact yields_adjAttn h j f
  case h_12 => exact yields_error _
  all_goals exact hsame _

theorem yields_applyAll (arena : Nat) (l : LogHdr) (e : Ent) (f : BitVec 7) :
    Yields (s.applyAll arena l e f) fun q => Canon q.1 := by
  have hall := fun g => yields_bind (yields_adjoint h ⟨arena, l, e, g⟩ f) fun r hr =>
    yields_foldlM (g := fun p c => p.1.contribute l e.slice c p.2) (fun _ _ hp => yields_contribute hp _ _ _ _) r.2.1
      (p := (r.1, r.2.2)) hr
  refine yields_ite (yields_error _) (yields_after fun _ => yields_ite (yields_ok h) (yields_after fun _ => ?_))
  extract_lets go
  split
  · exact yields_after hall
  · exact yields_after hall

theorem yields_applyEntry (arena : Nat) (l : LogHdr) (e : Ent) (f : BitVec 7) :
    Yields (s.applyEntry arena l e f) fun q => Canon q.1 := by
  have ha := yields_applyAll h arena l e f
  unfold State.applyEntry
  cases e : s.applyAll arena l e f with
  | error x => exact yields_error _
  | ok x => exact yields_ok (ha x e)

theorem yields_walkEntry (arena : Nat) (l : LogHdr) (f : BitVec 7) :
    Yields (s.walkEntry arena l f) fun q => Canon q.1 := by
  refine yields_after fun p => ?_
  extract_lets go
  have hgo : ∀ r, Canon r.1 → Yields (go r) fun q => Canon q.1 := fun r hr =>
    yields_bind (yields_logPuts hr _ _) fun _ ht => yields_ok ht
  clear_value go
  exact yields_ite (yields_after fun _ => yields_bind (yields_applyEntry h _ _ _ _) hgo)
    (yields_bind (p := fun q => Canon q.1) (yields_ok h) hgo)

omit h in
theorem canon_walkLog (arena a n : Nat) (l : LogHdr) {w : Walked} (h : Canon w.s) : Canon (State.walkLog arena a n l w).s := by
  induction n generalizing l w with
  | zero => exact h
  | succ n ih =>
    unfold State.walkLog
    split
    · exact h
    · split
      · exact h
      · next e => exact ih _ (yields_walkEntry h _ _ _ _ e)

theorem resOk_runReverse (o : EngOp) : ResOk (s.runReverse o) := by
  unfold State.runReverse
  refine resOk_ite h ?_
  split
  · exact h
  · extract_lets w
    have hw : Canon w.s := canon_walkLog _ _ _ _ h
    clear_value w
    split <;> exact hw

theorem resOk_runRecOp (o : EngOp) : ResOk (s.runRecOp o) := by
  unfold State.runRecOp
  split
  · exact resOk_runRecbeg h o
  · exact resOk_runRecend h o
  · exact resOk_runReverse h o
  · exact h
  · exact h

theorem resOk_runPlain (o : EngOp) : ResOk (runPlain o s) := by
  unfold runPlain
  split
  case h_1 => exact resOk_runVproj h ..
  case h_2 => exact resOk_runVprojd h ..
  case h_3 => exact resOk_runVmerge h ..
  case h_4 => exact resOk_runAttn h o
  case h_5 => exact resOk_runAttnd h o
  case h_19 => exact resOk_runTileOp h o
  case h_15 | h_16 | h_17 | h_18 => exact resOk_runRecOp h o
  all_goals exact resOk_runOpenOp h o

/-- An operation of the engine keeps the canonical form, whatever it comes to. -/
theorem resOk_runOp (o : EngOp) : ResOk (s.runOp o) :=
  resOk_ite (resOk_recorded h o fun o _ ht => resOk_runPlain ht o) (resOk_runPlain h o)

end
end Sys2Proof.Machine
end

section
/-! Every step keeps memory in canonical form (R144): how bundles and cycles end, firings, the engine, and runs. -/

namespace Sys2Proof.Machine

section
variable {s : State} (h : Canon s)
include h

/-! ## Updates that leave memory alone -/

theorem canon_count (d k n : Nat) : Canon (s.count d k n) := h
theorem canon_raiseDriver : Canon s.raiseDriver := h
theorem canon_setRule (r : BitVec 5) (st : RlState) : Canon (s.setRule r st) := h
theorem canon_keepFreezes (p : Freeze → Bool) : Canon (s.keepFreezes p) := h
theorem canon_readSensors (hot : BitVec 16) (d m : Nat) : Canon (s.readSensors hot d m) := h
theorem canon_dropRequest (p : BitVec 4) : Canon (s.dropRequest p) := h
theorem canon_takeArea (c : BitVec 6) (n : Nat) : Canon (s.takeArea c n) := h
theorem canon_stow (c : BitVec 6) (n : Nat) (b : Bank) : Canon (s.stow c n b) := h
theorem canon_goIdle : Canon s.goIdle := h
theorem canon_goOn : Canon s.goOn := h
theorem canon_overtake (rs : List SRec) (r : SRec) : Canon (s.overtake rs r) := h
theorem canon_holdGang (r : Run) : Canon (s.holdGang r) := h
theorem canon_restamp (r : Run) (cause sub : Byte) (act : Act) : Canon (s.restamp r cause sub act) := s.wf_wr _ _ h
theorem canon_walksOver : Canon s.walksOver := canon_ite h h
theorem canon_invalidate (p : BitVec 4) (scope : Nat) (cx : BitVec 6) (va : Nat) : Canon (s.invalidate p scope cx va) :=
  canon_walksOver (by exact h)
theorem canon_reserveCores : Canon s.reserveCores := canon_ite h h

/-! ## The end of a bundle and of a cycle -/

theorem canon_restoreTick : Canon s.restoreTick := canon_ite h h

theorem canon_counted (f : Option Freeze) : Canon (s.counted f) := by
  unfold State.counted
  split <;> exact h

theorem canon_strike : Canon s.strike := by
  unfold State.strike
  split
  · exact h
  · exact canon_counted (by exact h) _

theorem canon_schedule : Canon s.schedule :=
  canon_reserveCores (canon_wake (show Canon { s with evSets := [] } from h))

theorem canon_endCycle : Canon s.endCycle := by
  unfold State.endCycle
  extract_lets t u
  have ht : Canon t := canon_schedule (canon_memoryCycle (canon_settleSr (canon_chargeCycle h)))
  have hu : Canon u := canon_mapBank ht _
  clear_value u
  exact canon_strike (canon_restoreTick (by exact hu))

theorem canon_emptyCycle : Canon s.emptyCycle := by
  unfold State.emptyCycle
  extract_lets t
  have ht : Canon t := canon_schedule (State.wf_flushWhere _ _ (canon_chargeCycle h))
  clear_value t
  exact canon_restoreTick (by exact ht)

theorem canon_frozenCycle : Canon s.frozenCycle := by
  unfold State.frozenCycle
  extract_lets has t u v w
  have ht : Canon t := canon_count (canon_schedule (canon_chargeCycle h)) ..
  have hu : Canon u := canon_ite (canon_count ht ..) ht
  have hv : Canon v := canon_ite (canon_count hu ..) hu
  exact canon_restoreTick (show Canon w from hv)

theorem canon_nextTurn : Canon s.nextTurn := by
  unfold State.nextTurn
  split
  · exact h
  · exact canon_ite (canon_swapBack (canon_endCycle h)) (canon_endCycle h)

theorem canon_afterTurn : Canon s.afterTurn := by
  unfold State.afterTurn
  split
  case h_4 => exact h
  all_goals exact canon_nextTurn h

theorem canon_pendSr (b : Bun) : Canon (s.pendSr b) := by
  unfold State.pendSr
  split
  · exact canon_ite h h
  · exact h

theorem canon_reachEnd (y : Option DWord) : Canon (s.reachEnd y) := by
  unfold State.reachEnd
  extract_lets new t
  have ht : Canon t := canon_mapRun h _
  clear_value t
  split
  · split
    · exact canon_ite (canon_setEvents ht ..) ht
    · exact ht
  · exact ht

theorem canon_returnRun : Canon s.returnRun := canon_ite (canon_mapRun h _) (canon_reachEnd h none)

theorem canon_commitBundle : Canon s.commitBundle := by
  unfold State.commitBundle
  extract_lets old b t u v
  have ht : Canon t := canon_mapCur (canon_pendSr h b) _
  clear_value t
  have hu : Canon u := ht
  have hv : Canon v := by
    clear_value u
    dsimp only [v]
    split
    · exact canon_reachEnd hu _
    · exact hu
  clear_value v
  split
  · exact canon_takeTrap hv _
  · exact canon_returnRun hv
  · exact hv

/-! ## The mailbox (R393) -/

theorem canon_complete (m : MbHdr) (op status detail : Nat) : Canon (s.complete m op status detail) :=
  canon_ite h (canon_raiseDriver (s.wf_wr _ _ h))

theorem canon_answer (m : MbHdr) (op status detail : Nat) (body : List Byte) : Canon (s.answer m op status detail body) :=
  canon_ite h (canon_complete (by exact h) ..)

theorem canon_resolveCommand (p : BitVec 4) : Canon (s.resolveCommand p) := by
  unfold State.resolveCommand
  split
  · exact canon_ite (canon_answer h ..) h
  · exact h

/-! ## Firings (R213 to R219) -/

theorem canon_rulePark (run : Run) (r : BitVec 5) (t : TrapReq) (base extra n : Nat) :
    Canon (s.rulePark run r t base extra n) := canon_setRule (canon_plainRecord (canon_writeFrame h ..) ..) ..

theorem canon_ruleReplay (run : Run) (r : BitVec 5) (t : TrapReq) (base bad n : Nat) :
    Canon (s.ruleReplay run r t base bad n) :=
  canon_setRule (canon_mapBank (canon_plainRecord (canon_writeFrame h ..) ..) _) ..

theorem canon_actOnRule (run : Run) (r : BitVec 5) (t : TrapReq) : Canon (s.actOnRule run r t) := by
  unfold State.actOnRule
  extract_lets e n limit bad base rec
  split
  · exact canon_trapKill (canon_setRule h ..) ..
  · exact canon_ite (canon_rulePark (canon_mapBank h _) ..) (canon_ruleReplay h ..)
  · exact canon_rulePark h ..
  · have hf := canon_forward h run.part e.handler rec
    split
    · next u hu => exact canon_setRule (canon_writeFrame (hf.1 u hu) ..) ..
    · next u hu => exact canon_rulePark (hf.2 u hu) ..

theorem canon_pinRule (r : BitVec 5) (e : EngErr) : Canon (s.pinRule r e) := h

theorem canon_ruleFault (r : BitVec 5) (e : EngErr) : Canon (s.ruleFault r e) := by
  unfold State.ruleFault
  extract_lets was t u v
  have hu : Canon u := canon_pinRule h r e
  have hv : Canon v := by
    clear_value u
    dsimp only [v]
    split
    · exact canon_actOnRule hu ..
    · exact hu
  clear_value v
  exact canon_ite (canon_mapBank hv _) hv

theorem nextOk_firingRetire (r : BitVec 5) : NextOk (execFiringRetire r s) :=
  nextOk_unlessFrozen h fun _ ht => canon_onWork ht fun u hu => by
    split
    · exact canon_mapBank (canon_mapAgent hu ..) _
    · exact canon_ite hu (canon_ruleFault hu ..)
    · exact hu

theorem nextOk_firingRound : NextOk (execFiringRound s) :=
  nextOk_unlessFrozen h fun _ ht => ht

/-! ## The engine goes on (R192 to R195, R215 to R217) -/

theorem canon_forgetFiring (o : EngOp) (whole : Bool) : Canon (s.forgetFiring o whole) := by
  unfold State.forgetFiring
  extract_lets tag t m
  have ht : Canon t := canon_ite (canon_mapBank h _) h
  clear_value t
  refine Memory.wf_foldl _ (fun m w hm => ?_) _ _ ht
  split
  · exact Memory.wf_forget _ _ _ _ hm
  · exact hm

theorem canon_endFiring (o : EngOp) (r : BitVec 5) (f : BitVec 7) (e : Option EngErr) (whole : Bool) :
    Canon (s.endFiring o r f e whole) := by
  unfold State.endFiring
  split
  · exact canon_mapBank h _
  · exact canon_mapBank (canon_forgetFiring h ..) _

theorem canon_landTokens (o : EngOp) (v : DWord) (f : BitVec 7) : Canon (s.landTokens o v f) :=
  canon_ite (canon_mapAgent h ..) (canon_foldl (fun _ _ ht => canon_mapAgent ht ..) o.members h)

theorem canon_opDone (o : EngOp) (tok : Option DWord) (f : BitVec 7) : Canon (s.opDone o tok f) := by
  unfold State.opDone
  split
  · exact canon_landTokens (canon_mapBank h _) ..
  · exact canon_ite (canon_endFiring h ..) (canon_endFiring h ..)

theorem canon_opFault (o : EngOp) (e : EngErr) : Canon (s.opFault o e) := by
  unfold State.opFault
  split
  · exact canon_mapBank h _
  · exact canon_endFiring h ..

theorem canon_headWaits (o : EngOp) : Canon (s.headWaits o) := canon_ite h (canon_ite h h)

theorem canon_runHead (o : EngOp) : Canon (s.runHead o) := by
  have hr := resOk_runOp h o
  unfold State.runHead
  split
  · exact canon_headWaits h o
  · split
    · next e => rw [e] at hr; exact canon_opDone hr ..
    · next e => rw [e] at hr; exact canon_opFault hr ..
    · next e => rw [e] at hr; exact canon_headWaits hr ..

theorem canon_headStep (o : EngOp) : Canon (s.headStep o) := by
  unfold State.headStep
  split
  · exact canon_ite (canon_opFault h ..) h
  · extract_lets c t
    have ht : Canon t := h
    clear_value t
    split
    · exact canon_opFault ht ..
    · exact canon_runHead ht _

theorem canon_engineFor (o : EngOp) : Canon (s.engineFor o) := by
  unfold State.engineFor
  extract_lets t
  have ht : Canon t := canon_surface h _
  clear_value t
  split <;> exact ht

theorem canon_engineStep : Canon s.engineStep := by
  unfold State.engineStep
  split
  · exact h
  · exact canon_ite h (canon_headStep (canon_engineFor h _) _)

theorem nextOk_engineOpComplete : NextOk (execEngineOpComplete s) :=
  nextOk_unlessFrozen h fun _ ht => canon_onWork ht fun _ hu => canon_engineStep hu

theorem nextOk_engineFaultDelivery : NextOk (execEngineFaultDelivery s) := by
  unfold execEngineFaultDelivery
  split
  · exact nextOk_next (canon_takeTrap h _)
  · exact nextOk_next h

/-! ## Freezes and throttles (R28, R142, R402, R405, R414) -/

theorem canon_walkDone (w : Walk) : Canon (s.walkDone w) := by
  unfold State.walkDone
  dsimp only
  split <;> exact h

theorem canon_issuedWalkDone (w : Walk) : Canon (s.issuedWalkDone w) := by
  unfold State.issuedWalkDone
  extract_lets o t u
  have ht : Canon t := h
  have hu : Canon u := canon_ite ht (canon_keepFreezes ht _)
  clear_value u
  split <;> exact hu

theorem nextOk_translationWalkComplete : NextOk (execTranslationWalkComplete s) := by
  refine nextOk_next ?_
  split
  · exact canon_walkDone h _
  · exact canon_issuedWalkDone h _
  · exact h

theorem nextOk_weightStoreRefresh (bank : BitVec 6) : NextOk (execWeightStoreRefresh bank s) := by
  refine nextOk_next ?_
  split
  · exact canon_ite h h
  · exact h

theorem canon_machineCheck (sub : Byte) : Canon (s.machineCheck sub) :=
  canon_ite (canon_takeTrap (canon_count h ..) _) (canon_count h ..)

theorem canon_judge : Canon s.judge := canon_ite h h

theorem nextOk_thermalThrottleWindow (hot : BitVec 16) (d m : Nat) : NextOk (execThermalThrottleWindow hot d m s) := by
  have hr := canon_readSensors h hot d m
  have hj : Canon (if (s.readSensors hot d m).windowDue then (s.readSensors hot d m).judge else s.readSensors hot d m) :=
    canon_ite (canon_judge hr) hr
  exact nextOk_next (canon_ite (canon_machineCheck hj _) hj)

theorem nextOk_shareThrottleWindow (part : BitVec 4) (lp ws : Nat) (w : Bool) :
    NextOk (execShareThrottleWindow part lp ws w s) := nextOk_next (canon_ite h (canon_ite h h))

/-! ## The service record's queue (R408) -/

omit h in
theorem canon_pumpGo (p : BitVec 4) (n : Nat) {s : State} (h : Canon s) : Canon (State.pumpGo p n s) := by
  induction n generalizing s with
  | zero => exact h
  | succ n ih =>
    unfold State.pumpGo
    split
    · exact h
    · next die sub rest _ =>
      have hm := canon_mapPart h p fun x => { x with doorbells := rest }
      dsimp only
      split
      · exact ih (canon_dropRequest hm p)
      · exact canon_ite h (canon_ite (canon_enqueue hm ..) (ih (canon_dropRequest hm p)))

theorem canon_pump (p : BitVec 4) : Canon (s.pump p) := canon_ite h (canon_pumpGo p _ h)

/-! ## Runs start (R311, R346) -/

theorem canon_runRec (r : SRec) (model : Option (BitVec 3)) : Canon (s.runRec r model) :=
  canon_mapRec (canon_moveRec (canon_wrNat h ..) ..) ..

theorem canon_startRun (r : SRec) (i : Image) (members : List Nat) (n : Nat) : Canon (s.startRun r i members n) := by
  unfold State.startRun
  extract_lets run b t
  have ht : Canon t := canon_runRec (canon_takeArea h ..) ..
  exact ht

theorem canon_resumeRun (r : SRec) (members : List Nat) (n budget : Nat) : Canon (s.resumeRun r members n budget) := by
  unfold State.resumeRun
  extract_lets lc b run b' t
  have ht : Canon t := canon_runRec (canon_unpackPad (canon_takeArea h ..) _) ..
  exact ht

theorem canon_bindGang (r : SRec) (i : Image) (spot : Spot) : Canon (s.bindGang r i spot) := by
  unfold State.bindGang
  extract_lets members n o t u
  have hu : Canon u := canon_mapPart (show Canon t from h) ..
  clear_value u
  split
  · exact canon_resumeRun hu ..
  · exact canon_startRun hu ..

theorem canon_admitKill (r : SRec) (sub : Byte) (bad : Nat) : Canon (s.admitKill r sub bad) :=
  canon_pump (canon_moveRec (canon_setEvents (canon_fatalRecord h ..) ..) ..) _

theorem canon_admitPark (r : SRec) (sub : Byte) (flags : Nat) : Canon (s.admitPark r sub flags) :=
  canon_moveRec (canon_plainRecord h ..) ..

theorem canon_admitReplay (r : SRec) (sub : Byte) (bad : Nat) : Canon (s.admitReplay r sub bad) := by
  have hp := canon_plainRecord h (s.partOf r) (s.admitRecord r sub .replay bad) (some (r.ctx, r.addr)) none
  rw [show @State.admitReplay = _ by delta State.admitReplay; exact rfl]
  split
  · next e => rw [e] at hp; exact canon_mapRec (canon_emptyCycle hp) ..
  · next e => rw [e] at hp; exact canon_moveRec hp ..

theorem canon_admitTrap (r : SRec) (sub : Byte) : Canon (s.admitTrap r sub) := by
  unfold State.admitTrap
  extract_lets e bad t
  have ht : Canon t := h
  clear_value t
  split
  · exact canon_admitKill ht ..
  · exact canon_ite (canon_admitPark ht ..) (canon_admitReplay ht ..)
  · exact canon_admitPark ht ..
  · have hf := canon_forward ht (t.partOf r) e.handler (t.admitRecord r sub .forward bad)
    split
    · next u hu => exact canon_moveRec (hf.1 u hu) ..
    · next u hu => exact canon_admitPark (hf.2 u hu) ..

theorem canon_selectGang : Canon s.selectGang := by
  unfold State.selectGang
  split
  · exact h
  · extract_lets rs c
    split
    · exact h
    · extract_lets t
      have ht : Canon t := canon_overtake (by exact h) ..
      clear_value t
      split
      · exact canon_admitTrap ht ..
      · split
        · exact canon_bindGang ht ..
        · exact ht

theorem nextOk_gangSelect : NextOk (execGangSelect s) := nextOk_next (canon_ite (canon_selectGang h) h)

/-! ## Runs end (R313) -/

theorem canon_endDeferred (k : AgentId) : Canon (s.endDeferred k) := by
  unfold State.endDeferred
  split
  · exact canon_takeTrap (canon_mapAgent h ..) _
  · exact h

theorem canon_repush (r : Run) (d : DWord) : Canon (s.repush r d) := by
  unfold State.repush
  split
  · exact h
  · extract_lets t
    have ht : Canon t := canon_mapRec (canon_moveRec h ..) ..
    exact ht

theorem canon_finishRec (r : Run) : Canon (s.finishRec r) := canon_pump (canon_moveRec (canon_setEvents h ..) ..) _

theorem canon_endRun (r : Run) : Canon (s.endRun r) := by
  unfold State.endRun
  extract_lets t
  have ht : Canon t := by
    dsimp only [t]
    split
    · exact canon_repush h ..
    · exact canon_finishRec h r
  exact ht

theorem nextOk_gangEnd : NextOk (execGangEnd s) := by
  refine nextOk_next ?_
  split
  · refine canon_ite ?_ h
    dsimp only
    split
    · exact canon_endDeferred (s.wf_quiesce h) _
    · exact canon_ite (s.wf_quiesce h) (canon_endRun (s.wf_quiesce h) _)
  · exact h

end
end Sys2Proof.Machine
end

section
/-! Every step keeps memory in canonical form (R144): switches and saves, partitions, firmware, links and accesses from outside. -/

namespace Sys2Proof.Machine

section
variable {s : State} (h : Canon s)
include h

/-! ## Updates that leave memory alone -/

theorem canon_mapModel (p : BitVec 4) (k : BitVec 3) (f : Model → Model) : Canon (s.mapModel p k f) := h
theorem canon_writeErr (p : BitVec 4) : Canon (s.writeErr p) := h
theorem canon_enable (p : BitVec 4) (on : Bool) : Canon (s.enable p on) := h
theorem canon_keepArea (r : Run) : Canon (s.keepArea r) := h
theorem canon_leaveArea (r : Run) : Canon (s.leaveArea r) := h
theorem canon_resetAreas (p : BitVec 4) : Canon (s.resetAreas p) := h
theorem canon_clearCtxs (p : BitVec 4) : Canon (s.clearCtxs p) := h
theorem canon_refuseBusy : Canon s.refuseBusy := h
theorem canon_releaseLost (p : BitVec 4) : Canon (s.releaseLost p) := h

/-! ## Switches and stops (R32 to R34, R341 to R344) -/

theorem canon_beginSwitch (a : After) (cause sub : Byte) (action : Nat) (drained again : Bool) :
    Canon (s.beginSwitch a cause sub action drained again) := by
  unfold State.beginSwitch
  split
  · exact h
  · extract_lets t flags u
    have hu : Canon u := canon_writeFrame (canon_settleSr (s.wf_quiesce h)) ..
    clear_value u
    have hv : Canon (u.mapBank fun b => b.suspend (fun _ => u.pt) fun a => a.locked == some u.pt).thawed :=
      canon_thawed (canon_mapBank hu _)
    exact hv

theorem canon_takeService (p : BitVec 4) (sub : Byte) (again : Bool) : Canon (s.takeService p sub again) := by
  unfold State.takeService
  split
  · exact canon_beginSwitch h ..
  · exact canon_dropRequest h p

theorem canon_stopNow (drained : Bool) : Canon (s.stopNow drained) := canon_beginSwitch (by exact h) ..

theorem canon_takeStop (r : Run) : Canon (s.takeStop r) := by
  unfold State.takeStop
  refine canon_ite (canon_stopNow h _) ?_
  extract_lets t
  have ht : Canon t := canon_foldl (fun _ _ hu => canon_mapAgent hu ..) _ h
  exact ht

theorem canon_memberStop (r : Run) (cause sub : Byte) (act : Act) : Canon (s.memberStop r cause sub act) := by
  unfold State.memberStop
  extract_lets u t v
  have hv : Canon v := canon_writeFrame (s.wf_quiesce h) ..
  clear_value v
  exact canon_ite (canon_doKill (canon_holdGang hv r) ..) (canon_doPark hv _)

theorem canon_shadowStop (b : Bank) (r : Run) (cause sub : Byte) (act : Act) : Canon (s.shadowStop b r cause sub act) := by
  unfold State.shadowStop
  extract_lets t u tag base v
  have ht : Canon t := canon_restamp h ..
  have hv : Canon v := canon_moveRec (canon_killEvents (canon_holdGang ht r) r) ..
  clear_value v
  exact canon_ite (canon_forget hv ..) ht

theorem canon_laterStop (r : Run) (cause sub : Byte) (act : Act) (ph : Phase) : Canon (s.laterStop r cause sub act ph) :=
  canon_ite (canon_doKill (canon_holdGang (canon_restamp h ..) r) ..) (canon_restamp h ..)

omit h in
theorem offers_map {α : Type} {o : Option α} {f : α → State} (hf : ∀ x, Canon (f x)) : Offers (o.map f) Canon := by
  intro t e
  obtain ⟨x, -, rfl⟩ := Option.map_eq_some_iff.1 e
  exact hf x

theorem offers_gangBoundary : Offers s.gangBoundary Canon := by
  unfold State.gangBoundary
  split
  · exact offers_none
  · next cause sub act _ =>
    extract_lets t
    have ht : Canon t := h
    clear_value t
    split
    · split
      · exact offers_map fun r => canon_ite ht (canon_shadowStop ht ..)
      · exact offers_some ht
    · split
      case h_1 | h_2 | h_3 => exact offers_ite (offers_map fun r => canon_memberStop ht ..) offers_none
      case h_4 | h_5 => exact offers_none
      case h_6 | h_7 => exact offers_map fun r => canon_laterStop ht ..
      case h_8 => exact offers_some ht

theorem offers_memberHere : Offers s.memberHere Canon := by
  unfold State.memberHere
  split
  · exact offers_ite offers_none (offers_map fun r => canon_memberStop (by exact h) ..)
  · exact offers_none

theorem canon_queueDoorbell (p : BitVec 4) (die : Nat) (sub : Byte) : Canon (s.queueDoorbell p die sub) :=
  canon_ite (canon_dropRequest h p) (canon_pump (canon_mapPart h ..) p)

theorem canon_queueRequest (p : BitVec 4) (sub : Byte) : Canon (s.queueRequest p sub) :=
  canon_ite h (canon_queueDoorbell h ..)

theorem offers_idleRequest : Offers s.idleRequest Canon :=
  offers_ite (offers_map fun _ => canon_queueRequest (by exact h) ..) offers_none

theorem offers_ownBoundary : Offers s.ownBoundary Canon := by
  unfold State.ownBoundary
  refine offers_ite (offers_some (canon_stopNow h true)) (offers_ite ?_ (offers_idleRequest h))
  split
  · exact offers_none
  · refine offers_ite (offers_some (canon_takeStop h _)) ?_
    split
    · exact offers_some (canon_takeService (by exact h) ..)
    · exact offers_none

theorem offers_boundary : Offers s.boundary Canon := by
  have hg := offers_gangBoundary h
  unfold State.boundary
  split
  · next t e => exact offers_some (hg t e)
  · exact offers_ownBoundary h

theorem canon_getD {o : Option State} (ho : Offers o Canon) : Canon (o.getD s) := by
  cases o with
  | none => exact h
  | some t => exact ho t rfl

theorem canon_postService (p : BitVec 4) (sub : Byte) : Canon (s.postService p sub) := canon_ite (canon_queueRequest h ..) h

theorem nextOk_serviceRequest (sub : Byte) : NextOk (execServiceRequest sub s) := by
  have hp : Canon (if s.bank.run.isSome then s.postService s.part sub else s) := canon_ite (canon_postService h ..) h
  exact nextOk_next (canon_getD hp (offers_boundary hp))

theorem canon_postStop : Canon s.postStop := canon_ite h h

theorem nextOk_stopRequest : NextOk (execStopRequest s) :=
  nextOk_next (canon_getD (canon_postStop h) (offers_boundary (canon_postStop h)))

theorem canon_startService (p : BitVec 4) (sub : Byte) : Canon (s.startService p sub) := by
  unfold State.startService
  refine canon_ite (canon_goOn (canon_queueRequest h ..)) ?_
  split
  · extract_lets t frame old
    have ht : Canon t := canon_mapRec (canon_enqueue h ..) ..
    clear_value old t
    split
    · exact ht
    · extract_lets src run b u
      have hu : Canon u := canon_runRec (canon_takeArea ht ..) ..
      clear_value u
      exact hu
  · exact canon_goOn (canon_dropRequest h p)

theorem canon_endService : Canon s.endService := by
  unfold State.endService
  split
  · exact h
  · split
    · exact canon_ite (canon_mapRec (canon_stow h ..) ..) (canon_pump (canon_moveRec (canon_stow h ..) ..) _)
    · exact canon_pump (canon_stow h ..) _

theorem canon_swapIn (b : Bank) : Canon (s.swapIn b) := by
  unfold State.swapIn
  extract_lets gone t
  have ht : Canon t := h
  clear_value t
  refine canon_ite ht (canon_ite ht ?_)
  split <;> exact ht

theorem canon_switchDone (a : After) : Canon (s.switchDone a) := by
  unfold State.switchDone
  split
  · exact canon_startService h ..
  · split
    · exact canon_swapIn (canon_endService h) _
    · exact canon_goIdle (canon_endService h)
  · exact h

theorem nextOk_contextSwitchComplete : NextOk (execContextSwitchComplete s) := by
  refine nextOk_next ?_
  split
  · exact canon_switchDone h _
  · exact h

theorem canon_saveRun (b : Bank) (r : Run) (st : Nat) (cause sub : Byte) : Canon (s.saveRun b r st cause sub) :=
  canon_mapRec (canon_moveRec (canon_stow h ..) ..) ..

theorem canon_saveShadow : Canon s.saveShadow := by
  unfold State.saveShadow
  split
  · next b r c _ =>
    have hs := canon_saveRun h b r 4 c.1 c.2
    exact hs
  · exact h

theorem canon_saveDone (a : After) (r : Run) : Canon (s.saveDone a r) := by
  cases a with
  | park c sub => exact canon_goIdle (canon_saveRun h s.bank r 4 c sub)
  | ready => exact canon_goIdle (canon_saveRun h s.bank r 2 _ _)
  | kill => exact canon_pump (canon_goIdle (canon_leaveArea h r)) r.part
  | done => exact canon_goIdle (canon_keepArea h r)
  | service p sub => exact h
  | back => exact h

theorem nextOk_contextSaveComplete : NextOk (execContextSaveComplete s) := by
  refine nextOk_next (canon_ite (canon_saveShadow h) ?_)
  split
  · exact canon_ite (canon_saveDone h ..) h
  · exact canon_goIdle h
  · exact h

theorem nextOk_watchdog : NextOk (execWatchdog s) := by
  refine nextOk_next ?_
  split
  · exact canon_takeTrap h _
  · exact h

theorem nextOk_serviceTimer (p : BitVec 4) : NextOk (execServiceTimer p s) := by
  refine nextOk_next (canon_ite ?_ h)
  extract_lets n t
  have ht : Canon t := canon_mapPart h ..
  clear_value t
  exact canon_ite (canon_postService ht ..) ht

theorem canon_mapBankOf (c : BitVec 6) (n : Nat) (f : Bank → Bank) : Canon (s.mapBankOf c n f) :=
  canon_ite (canon_mapBank h _) (canon_ite h h)

theorem canon_releaseSlice (c : BitVec 6) (a : DWord) : Canon (s.releaseSlice c a) := by
  unfold State.releaseSlice
  split
  · exact canon_ite (canon_moveRec h ..) (canon_ite h h)
  · exact h

theorem canon_releaseHeld (w : Withheld) : Canon (s.releaseHeld w) := by
  unfold State.releaseHeld
  extract_lets t
  have ht : Canon t := by
    dsimp only [t]
    split
    · exact canon_releaseSlice h ..
    · exact h
  clear_value t
  split
  · exact canon_mapBankOf ht ..
  · exact ht

theorem nextOk_withheldRecordWrite (p : BitVec 4) : NextOk (execWithheldRecordWrite p s) := by
  refine nextOk_next (canon_ite ?_ h)
  split
  · exact canon_releaseHeld (canon_wrNat (canon_writeRecord (canon_mapPart h ..) ..) ..) _
  · exact h

/-! ## Partitions and contexts (R398 to R413) -/

theorem canon_resetServing (p : BitVec 4) (b : Bank) : Canon (s.resetServing p b) := by
  unfold State.resetServing
  extract_lets t u
  have ht : Canon t := h
  clear_value t
  refine canon_ite ?_ ht
  have hu : Canon u := t.wf_quiesce ht
  clear_value u
  exact canon_ite hu (canon_swapBack hu)

theorem canon_resetCore (p : BitVec 4) : Canon (s.resetCore p) := by
  unfold State.resetCore
  split
  · exact canon_resetServing h ..
  · have hq := canon_thawed (s.wf_quiesce h)
    exact canon_ite hq h

theorem canon_dropRecs (p : BitVec 4) : Canon (s.dropRecs p) := canon_foldl (fun _ _ ht => canon_moveRec ht ..) _ h

theorem canon_requeue (p : BitVec 4) : Canon (s.requeue p) :=
  canon_foldl (fun _ _ ht => canon_queueRequest ht ..) _ (by exact h)

theorem canon_beginReset (p : BitVec 4) : Canon (s.beginReset p) :=
  canon_ite h (canon_resetCore (canon_resetAreas (canon_dropRecs (canon_requeue
    (canon_mapPart (canon_resolveCommand h p) ..) p) p) p) p)

theorem canon_zeroCores (p : BitVec 4) : Canon (s.zeroCores p) :=
  Memory.wf_foldl _ (fun _ _ hm => Memory.wf_forget _ _ _ _ hm) _ _ h

theorem canon_endReset (p : BitVec 4) : Canon (s.endReset p) :=
  canon_pump (canon_raiseVector (canon_mapPart (canon_clearCtxs (canon_zeroCores (canon_invalidate h ..) p) p) ..) ..) p

theorem canon_defaultActions (table : Nat) : Canon (s.defaultActions table) :=
  canon_ite (canon_foldl (fun _ _ ht => canon_wrNat ht ..) _ h) h

theorem canon_defineCtx (c : BitVec 6) (sup : Bool) (p : BitVec 4) : Canon (s.defineCtx c sup p) :=
  canon_defaultActions (by exact h) _

theorem canon_writeCtxControl (c : BitVec 6) (v : Word) : Canon (s.writeCtxControl c v) :=
  canon_ite (canon_writeErr h _) (canon_ite (canon_ite (canon_writeErr h _) (canon_defineCtx h ..)) (canon_mapCtx h ..))

theorem canon_doorbell (p : BitVec 4) (val : Word) : Canon (s.doorbell p val) :=
  canon_ite (canon_writeErr h p) (canon_ite h (canon_ite (canon_postService h ..) (canon_ite h (canon_queueDoorbell h ..))))

theorem canon_invalidateCmd (p : BitVec 4) (val : Word) : Canon (s.invalidateCmd p val) :=
  canon_ite (canon_writeErr h p) (canon_mapPart (canon_invalidate h ..) ..)

theorem canon_writePartReg (p : BitVec 4) (o n val : Nat) (r : Reg Part) : Canon (s.writePartReg p o n val r) :=
  canon_ite h (canon_ite (canon_writeErr h p) (canon_mapPart h ..))

theorem canon_writeControl (p : BitVec 4) (v : Nat) : Canon (s.writeControl p v) := by
  refine canon_ite (canon_writeErr h p) ?_
  exact canon_ite (canon_beginReset (canon_mapPart (canon_enable h ..) ..) p) (canon_mapPart (canon_enable h ..) ..)

theorem canon_writePart (p : BitVec 4) (o n val : Nat) : Canon (s.writePart p o n val) :=
  canon_ite (canon_writeControl h ..) (canon_ite (canon_ite h (canon_writeErr h p)) (canon_ite (canon_doorbell h ..)
    (canon_ite (canon_invalidateCmd h ..) (canon_foldl (fun _ _ ht => canon_writePartReg ht ..) _ h))))

theorem canon_writeCtxReg (c : BitVec 6) (o n val : Nat) (r : Reg Ctx) : Canon (s.writeCtxReg c o n val r) :=
  canon_ite h (canon_ite (canon_writeErr h _) (canon_mapCtx h ..))

theorem canon_writeCtx (c : BitVec 6) (o n val : Nat) : Canon (s.writeCtx c o n val) :=
  canon_ite (canon_ite (canon_writeErr h _) (canon_writeCtxControl h ..)) (canon_ite (canon_writeErr h _)
    (canon_ite (canon_ite h (canon_writeErr h _)) (canon_foldl (fun _ _ ht => canon_writeCtxReg ht ..) _ h)))

theorem canon_clearCounter (d o : Nat) : Canon (s.clearCounter d o) := canon_ite h h

theorem canon_barWrite (off n val : Nat) : Canon (s.barWrite off n val) :=
  canon_ite h (canon_ite (canon_writePart h ..) (canon_ite (canon_writeCtx h ..) (canon_ite (canon_clearCounter h ..) h)))

/-! ## Firmware commands (R386 to R396) -/

theorem nextOk_command (m : MbHdr) (op : Nat) {f : State → Cmd} (hf : Yields (f s) fun q => Canon q.1) :
    NextOk (s.command m op f) := by
  refine nextOk_next (canon_ite (canon_refuseBusy h) ?_)
  split
  · exact canon_answer h ..
  · split
    · exact canon_answer h ..
    · next r e => exact canon_answer (hf r e) ..

omit h in
theorem yields_partCmd {m : MbHdr} {r : Cmd} (hr : Yields r fun q => Canon q.1) : Yields (s.partCmd m r) fun q => Canon q.1 :=
  yields_ite (yields_error _) hr

theorem offers_mapPage (va leaf n table fresh : Nat) : Offers (s.mapPage va leaf n table fresh) fun q => Canon q.1 := by
  induction n generalizing s table fresh with
  | zero => exact offers_none
  | succ n ih =>
    exact offers_ite offers_none (offers_ite (offers_ite offers_none (offers_some (canon_wrNat h ..)))
      (offers_ite (offers_ite offers_none (ih h _ _)) (offers_ite offers_none
        (ih (canon_wrNat (s.wf_wr _ _ h) ..) _ _))))

theorem offers_mapPages (root : Nat) (b : List Byte) (va pa : Nat) (ks : List Nat) (fresh : Nat) :
    Offers (s.mapPages root b va pa ks fresh) fun q => Canon q.1 := by
  induction ks generalizing s fresh with
  | nil => exact offers_some h
  | cons k ks ih =>
    unfold State.mapPages
    split
    · next r e => exact ih (offers_mapPage h _ _ _ _ _ r e) _
    · exact offers_none

theorem yields_placeImage (c : BitVec 6) (b : List Byte) : Yields (s.placeImage c b) fun q => Canon q.1 := by
  unfold State.placeImage
  split
  · exact yields_error _
  · next va pa rest _ =>
    extract_lets n o t
    have ht : Canon t := h
    clear_value t
    refine yields_ite (yields_error _) ?_
    split
    · exact yields_error _
    · next u fresh e => exact yields_ok (canon_mapCtx (offers_mapPages (t.wf_wr _ _ ht) _ _ _ _ _ _ _ e) ..)

theorem yields_loadImage (m : MbHdr) (src len : Nat) : Yields (s.loadImage m src len) fun q => Canon q.1 :=
  yields_after fun _ => yields_ite (yields_error _) (yields_ite (yields_error _) (yields_ite (yields_error _)
    (yields_ite (yields_error _) (yields_placeImage h _ _))))

theorem canon_unmapPage (va n table : Nat) : Canon (s.unmapPage va n table) := by
  induction n generalizing table with
  | zero => exact h
  | succ n ih => exact canon_ite h (canon_ite (canon_wrNat h ..) (canon_ite h (ih _)))

theorem yields_retireImage (m : MbHdr) (addr : Nat) : Yields (s.retireImage m addr) fun q => Canon q.1 := by
  refine yields_after fun c => ?_
  dsimp only
  split
  · exact yields_error _
  · exact yields_ite (yields_error _) (yields_ok (canon_mapCtx (canon_invalidate
      (canon_foldl (fun _ _ ht => canon_unmapPage ht ..) _ h) ..) ..))

theorem yields_modelDefine (m : MbHdr) (slot mask : Byte) (zero : BitVec 48) (size : Nat) :
    Yields (s.modelDefine m slot mask zero size) fun q => Canon q.1 :=
  yields_ite (yields_error _) (yields_ite (yields_error _) (yields_ite (yields_error _) (yields_ite (yields_error _)
    (yields_ite (yields_error _) (yields_ok (canon_mapModel h ..))))))

theorem yields_weightWrite (m : MbHdr) (slot : Byte) (zero : BitVec 24) (dies : Word) (src off len : Nat) :
    Yields (s.weightWrite m slot zero dies src off len) fun q => Canon q.1 :=
  yields_ite (yields_error _) (yields_ite (yields_error _) (yields_ite (yields_error _) (yields_ite (yields_error _)
    (yields_ite (yields_error _) (yields_ite (yields_error _) (yields_ite (yields_error _) (yields_ite (yields_error _)
      (yields_ok (Memory.wf_foldl _ (fun x _ hm => x.wf_writeWeights _ _ _ _ hm) _ _ h)))))))))

theorem yields_modelBind (m : MbHdr) (slot : Byte) (zero : BitVec 56) (sig : List Byte) :
    Yields (s.modelBind m slot zero sig) fun q => Canon q.1 :=
  yields_after fun _ => yields_ite (yields_error _) (yields_ite (yields_error _) (yields_ite (yields_error _)
    (yields_ite (yields_error _) (yields_ok (canon_mapCtx h ..)))))

theorem yields_modelUnbind (m : MbHdr) : Yields (s.modelUnbind m) fun q => Canon q.1 := by
  unfold State.modelUnbind
  split
  · exact yields_error _
  · exact yields_ite (yields_error _) (yields_ok (canon_mapCtx h ..))

theorem yields_partitionResume (m : MbHdr) : Yields (s.partitionResume m) fun q => Canon q.1 :=
  yields_ite (yields_error _) (yields_ok (canon_releaseLost (canon_mapPart h ..) _))

theorem yields_attest (m : MbHdr) (nonce : List Byte) : Yields (s.attest m nonce) fun q => Canon q.1 := by
  have hall := fun c => yields_ok (ε := Nat × Nat) (p := fun q : State × List Byte => Canon q.1)
    (x := (s, s.report m nonce c ++ fitBytes 1280 (Config.falconSign identityKey.1 (s.report m nonce c)))) h
  exact yields_ite (yields_after hall) (yields_after hall)

theorem yields_setOwnerKey (m : MbHdr) (key : List Byte) : Yields (s.setOwnerKey m key) fun q => Canon q.1 :=
  yields_ite (yields_error _) (yields_ok (canon_mapPart h ..))

/-! ## Links and accesses from outside (R379 to R385) -/

theorem yields_setWindow (m : MbHdr) (base size : Nat) : Yields (s.setWindow m base size) fun q => Canon q.1 :=
  yields_ite (yields_error _) (yields_ite (yields_error _) (yields_ite (yields_error _) (yields_ite (yields_error _)
    (yields_ite (yields_error _) (yields_ite (yields_error _) (yields_ok h))))))

theorem yields_linkConfig (m : MbHdr) (pkg zero : BitVec 16) (ports : Word) :
    Yields (s.linkConfig m pkg zero ports) fun q => Canon q.1 :=
  yields_ite (yields_error _) (yields_ite (yields_error _) (yields_ite (yields_error _) (yields_ite (yields_error _)
    (yields_ok h))))

theorem canon_endRequests (p : Nat → Bool) : Canon (s.endRequests p) := State.wf_flushWhere _ _ (canon_readsWhere h _)

theorem yields_linkRoute (m : MbHdr) (dest zero : BitVec 16) (mask : Word) :
    Yields (s.linkRoute m dest zero mask) fun q => Canon q.1 := by
  have he := canon_endRequests h (toPackage dest.toNat)
  exact yields_ite (yields_error _) (yields_ite (yields_error _) (yields_ite (yields_error _) (yields_ok he)))

theorem yields_setExport (m : MbHdr) (entry flags srcPart zero : Byte) (srcPkg zero2 : BitVec 16) (base size : Nat) :
    Yields (s.setExport m entry flags srcPart zero srcPkg zero2 base size) fun q => Canon q.1 :=
  yields_ite (yields_error _) (yields_ite (yields_error _) (yields_ite (yields_error _) (yields_ite (yields_error _)
    (yields_ite (yields_error _) (yields_ite (yields_error _) (yields_ite (yields_error _) (yields_ite (yields_error _)
      (yields_ok h))))))))

theorem canon_writeFrom (distance pa : Nat) (bs : List Byte) : Canon (s.writeFrom distance pa bs) := by
  unfold State.writeFrom
  extract_lets u t first
  have ht : Canon t := State.wf_wr _ _ _ (canon_noteWrite (s.wf_flushWhere _ h) ..)
  clear_value t
  exact Memory.wf_foldl _ (fun m i hm => (m.wf_cleanGranule (first + i)).trans hm) _ _ ht

theorem canon_serve (pa : Nat) (acc : ExtAcc) : Canon (s.serve pa acc) := by
  unfold State.serve
  split
  · exact h
  · next bs =>
    have hw := canon_writeFrom h 4 pa bs
    exact hw

theorem nextOk_hostMemAccess (hpa : Nat) (acc : ExtAcc) : NextOk (execHostMemAccess hpa acc s) :=
  nextOk_next (canon_ite (canon_serve h ..) h)

theorem nextOk_remoteAccess (pkg : BitVec 11) (part : BitVec 4) (pa : Nat) (acc : ExtAcc) :
    NextOk (execRemoteAccess pkg part pa acc s) := nextOk_next (canon_ite (canon_serve h ..) h)

theorem canon_remoteAtomic (pkg : BitVec 11) (part : BitVec 4) (pa w : Nat) (op : AmoOp) (b x : Nat) :
    Canon (s.remoteAtomic pkg part pa w op b x) := by
  unfold State.remoteAtomic
  extract_lets old bad t
  have ht : Canon t := by
    dsimp only [t]
    split
    · exact canon_ite h (canon_serve h ..)
    · exact h
  clear_value t
  exact canon_ite h ht

theorem nextOk_flitForward (dest : BitVec 11) (lane : BitVec 4) (hops : Nat) : NextOk (execFlitForward dest lane hops s) := by
  refine nextOk_next ?_
  split
  · exact canon_ite h h
  · exact h

theorem nextOk_linkPortDown (port : BitVec 5) : NextOk (execLinkPortDown port s) :=
  nextOk_next (canon_endRequests (by exact h) _)

theorem nextOk_debugFrame (bytes : List Byte) : NextOk (s.debugFrame bytes) := by
  unfold State.debugFrame
  split
  · dsimp only
    refine nextOk_ite (nextOk_next h) ?_
    split <;> exact nextOk_next h
  · exact nextOk_next h

/-! ## Resets and boot (R415 to R418) -/

theorem nextOk_coldReset : NextOk (execColdReset s) := nextOk_next (s.mem.wf_scrub (2 ^ 54) (2 ^ 56) h)

theorem canon_boot : Canon s.boot := by
  unfold State.boot
  split
  · exact h
  · exact canon_ite h (s.mem.wf_scrub 0 (2 ^ 42) h)
  · exact s.mem.wf_scrub (2 ^ 56) (2 ^ 60) h
  · exact h
  · exact h
  · exact h

end
end Sys2Proof.Machine
end

section
/-! Every step keeps memory in canonical form (R144): every instruction and event, and the step itself. -/

namespace Sys2Proof.Machine

theorem yields_dropNow {s t : State} (ht : Canon t) : Yields (s.dropNow t) Canon :=
  yields_ite (yields_ok ht) (yields_error _)

section
variable {s : State} (h : Canon s)
include h

theorem nextOk_ok {t : State} (ht : Canon t) : NextOk (s.finish (.ok t)) := nextOk_finish h (yields_ok ht)

theorem nextOk_brq (hd : BitVec 2) (disp : Word) : NextOk (execBrq hd disp s) := by
  refine nextOk_finish h ?_
  split
  · exact yields_error _
  · exact yields_ok (canon_branchIf (canon_mapBun h _) ..)

theorem nextOk_loop (p : Opnd) (lv : Option (BitVec 4)) (hd : BitVec 2) (disp : Word) : NextOk (execLoop p lv hd disp s) :=
  nextOk_one h fun _ => yields_ite (yields_ok (canon_setCtl (canon_mapCur h _) _)) (yields_ite (yields_error _)
    (yields_ite (yields_error _) (yields_ok (canon_setCtl (canon_mapCur h _) _))))

theorem nextOk_brk (n : BitVec 6) : NextOk (execBrk n s) := nextOk_finish h (yields_error _)

theorem nextOk_relAll (scope : Scope) : NextOk (execRelAll scope s) :=
  nextOk_finishWaiting h (yields_ok (canon_releaseAll h _))

theorem nextOk_kvcommit (sc : Sched) (d : Opnd) (bp : BitVec 4) (off : BitVec 24) (a : Opnd) :
    NextOk (execKvcommit sc d bp off a s) :=
  nextOk_finishWaiting h (yields_after fun _ => yields_after fun _ => yields_commitTotal h _ _ _ _)

theorem nextOk_sret : NextOk (execSret s) := by
  refine nextOk_finish h ?_
  split
  · exact yields_ite (yields_ok (canon_setCtl h _)) (yields_error _)
  · exact yields_error _

theorem nextOk_tlbinv (a b : Opnd) (scope : BitVec 2) : NextOk (execTlbinv a b scope s) :=
  nextOk_two h fun _ _ => yields_ite (yields_error _) (yields_ite
    (yields_ite (yields_dropNow (canon_invalidate h ..)) (yields_error _))
    (yields_ite (yields_dropNow (canon_invalidate h ..)) (yields_error _)))

theorem nextOk_fenceM (p : BitVec 4) : NextOk (execFenceM p s) :=
  nextOk_finish h (yields_ite (yields_error _) (yields_ite (yields_ok h) (yields_ok (canon_fenceMarks h _))))

theorem nextOk_fenceX (scope : Scope) (a b : BitVec 7) : NextOk (execFenceX scope a b s) :=
  nextOk_ite (nextOk_ok h h) (nextOk_finishWaiting h (yields_ite (yields_error _) (yields_ok (canon_fenceOwn h ..))))

theorem nextOk_vst (d : Opnd) (bp : BitVec 4) (sz : VSize) (m : BitVec 3) (off : BitVec 24) :
    NextOk (execVst d bp sz m off s) :=
  nextOk_three h fun _ _ _ => yields_ok (canon_storeLanes (canon_noteLanes h ..) ..)

theorem nextOk_vsts (d : Opnd) (bp : BitVec 4) (sz : VSize) (m : BitVec 3) (idx : Opnd) (off : BitVec 17) :
    NextOk (execVsts d bp sz m idx off s) :=
  nextOk_three h fun _ _ _ => yields_after fun _ => yields_ok (canon_storeLanes (canon_noteLanes h ..) ..)

theorem nextOk_qget (sc : Sched) (d : Opnd) (n : BitVec 2) : NextOk (execQget sc d n s) := by
  refine nextOk_finish h ?_
  split
  · exact yields_error _
  · exact yields_ok (canon_put64 (canon_mapCur h _) ..)

theorem nextOk_pqpush (sc : Sched) (d b x : Opnd) (n : BitVec 3) : NextOk (execPqpush sc d b x n s) := by
  have hr := canon_releaseAll h .die
  exact nextOk_finishWaiting h (yields_after fun _ => yields_after fun _ => yields_ite (yields_error _)
    (yields_ite (yields_ok (canon_put h ..)) (yields_ok hr)))

theorem nextOk_pqpop (sc : Sched) (d : Opnd) (n : BitVec 3) : NextOk (execPqpop sc d n s) := by
  have hr := canon_acquireAll h .die
  exact nextOk_finish h (yields_ite (yields_error _) (yields_ite (yields_ok (canon_put64 h ..)) (yields_ok hr)))

theorem nextOk_standInstall (f : Stand) : NextOk (execStandInstall f s) := by
  refine nextOk_unserved h ?_
  split
  · exact yields_after fun _ => yields_after fun _ => yields_after fun _ => yields_after fun _ =>
      yields_ite (yields_error _) (yields_ok (canon_engIssue (canon_atBlock h ..) ..))
  · exact yields_after fun _ => yields_after fun _ => yields_ok (canon_engIssue h ..)
  · exact yields_after fun _ => yields_ok (canon_engIssue h ..)
  · exact yields_ok (canon_engIssue h ..)

theorem nextOk_recflag (d a : Opnd) : NextOk (execRecflag d a s) :=
  nextOk_unserved h (yields_after fun _ => yields_ok
    (canon_ite (canon_mapCur (canon_engIssue h ..) _) (canon_engIssue h ..)))

theorem nextOk_otcfg (d : Opnd) (slot : BitVec 6) (bp : BitVec 4) (off : BitVec 18) : NextOk (execOtcfg d slot bp off s) :=
  nextOk_unserved h (yields_after fun _ => yields_bind (yields_mxBlock h _) fun _ hr => yields_ok (canon_engIssue hr ..))

theorem nextOk_evtest (sc : Sched) (d a : Opnd) : NextOk (execEvtest sc d a s) :=
  nextOk_one h fun _ => yields_ok (canon_put (canon_ite (canon_acquireAll h _) h) ..)

theorem nextOk_rdsr (sc : Sched) (d : Opnd) (n : BitVec 8) : NextOk (execRdsr sc d n s) :=
  nextOk_ok h (canon_ite (canon_put64 h ..) (canon_put h ..))

/-! ## Firmware commands, one by one -/

theorem nextOk_identify (m : MbHdr) : NextOk (execIdentify m s) :=
  nextOk_command h _ _ (yields_ok h)

theorem nextOk_linkStatus (m : MbHdr) : NextOk (execLinkStatus m s) :=
  nextOk_command h _ _ (yields_ok h)

theorem nextOk_loadImage (m : MbHdr) (src : DWord) (len : Word) : NextOk (execLoadImage m src len s) :=
  nextOk_command h _ _ (yields_partCmd (yields_loadImage h _ _ _))

theorem nextOk_retireImage (m : MbHdr) (addr : DWord) : NextOk (execRetireImage m addr s) :=
  nextOk_command h _ _ (yields_partCmd (yields_retireImage h _ _))

theorem nextOk_modelDefine (m : MbHdr) (slot mask : Byte) (zero : BitVec 48) (size : DWord) :
    NextOk (execModelDefine m slot mask zero size s) :=
  nextOk_command h _ _ (yields_partCmd (yields_modelDefine h _ _ _ _ _))

theorem nextOk_weightWrite (m : MbHdr) (slot : Byte) (zero : BitVec 24) (dies : Word) (src off len : DWord) :
    NextOk (execWeightWrite m slot zero dies src off len s) :=
  nextOk_command h _ _ (yields_partCmd (yields_weightWrite h _ _ _ _ _ _ _))

theorem nextOk_modelBind (m : MbHdr) (slot : Byte) (zero : BitVec 56) (sig : List Byte) :
    NextOk (execModelBind m slot zero sig s) :=
  nextOk_command h _ _ (yields_partCmd (yields_modelBind h _ _ _ _))

theorem nextOk_modelUnbind (m : MbHdr) : NextOk (execModelUnbind m s) :=
  nextOk_command h _ _ (yields_partCmd (yields_modelUnbind h _))

theorem nextOk_partitionResume (m : MbHdr) : NextOk (execPartitionResume m s) :=
  nextOk_command h _ _ (yields_partCmd (yields_partitionResume h _))

theorem nextOk_attest (m : MbHdr) (nonce : List Byte) : NextOk (execAttest m nonce s) :=
  nextOk_command h _ _ (yields_partCmd (yields_attest h _ _))

theorem nextOk_ownerKey (m : MbHdr) (key : List Byte) : NextOk (execOwnerKey m key s) :=
  nextOk_command h _ _ (yields_partCmd (yields_setOwnerKey h _ _))

theorem nextOk_window (m : MbHdr) (base size : DWord) : NextOk (execWindow m base size s) :=
  nextOk_command h _ _ (yields_setWindow h _ _ _)

theorem nextOk_linkConfig (m : MbHdr) (pkg zero : BitVec 16) (ports : Word) : NextOk (execLinkConfig m pkg zero ports s) :=
  nextOk_command h _ _ (yields_linkConfig h _ _ _ _)

theorem nextOk_linkRoute (m : MbHdr) (dest zero : BitVec 16) (mask : Word) : NextOk (execLinkRoute m dest zero mask s) :=
  nextOk_command h _ _ (yields_linkRoute h _ _ _ _)

theorem nextOk_exportEntry (m : MbHdr) (entry flags srcPart zero : Byte) (srcPkg zero2 : BitVec 16) (base size : DWord) :
    NextOk (execExportEntry m entry flags srcPart zero srcPkg zero2 base size s) :=
  nextOk_command h _ _ (yields_partCmd (yields_setExport h _ _ _ _ _ _ _ _ _))

end
end Sys2Proof.Machine
end

section
/-! Every step keeps memory in canonical form (R144): every instruction and event. -/

namespace Sys2Proof.Machine

section
variable {s : State} (h : Canon s)
include h

/-- Every instruction and event keeps the canonical form; the cases follow the shape of what they do. -/
theorem exec_nextOk (i : Instr) : NextOk (exec i s) := by
  cases i with
  | clz | ctz | popc | addi | andi | ori | xori | shli | shri | srai | slti | sltni | muli => exact nextOk_alu1 h
  | add | sub | mul | mulh | div | divn | rem | remn | and | or | xor | shl | shr | sra | min | max | minn | maxn | seq
  | sne | slt | sltn | bfx => exact nextOk_alu2F h
  | sel | bfi => exact nextOk_alu3 h
  | mov64 | addi64 => exact nextOk_pair1 h
  | add64 | sub64 => exact nextOk_pair2 h
  | vabs | vfabs | vfneg | vrcp | vrsqrt | vsqrt | vexp2 | vlog2 | vcvt =>
    dsimp only [exec]
    exact nextOk_vec1 h
  | vadd | vsub | vmul | vmin | vmax | vand | vor | vxor | vshl | vshr | vsra | vadds | vsubs | vcmpeq | vcmplt | vcmple
  | vfadd | vfsub | vfmul | vfmin | vfmax | vfcmpeq | vfcmplt | vfcmple | vfcmpun | vdiv =>
    dsimp only [exec]
    exact nextOk_vec2 h
  | vfma | vfms =>
    dsimp only [exec]
    exact nextOk_vec3 h
  | nop | trap | halt | br | call | clrf | mand | mor | mxor | mnot | mpop | mfirst | mbit | movi | movi64 | lidx | mget
  | qlvl => exact nextOk_ok h h
  | pref | ret | jmp | mset | sethi | vrng | vunpk | vtrit | vbcast | vscan | vcompress | evclr =>
    exact nextOk_one h fun _ => yields_ok h
  | bz | bnz => exact nextOk_one h fun _ => yields_ok (canon_branchIf h ..)
  | shl64 | slt64n | vpack | vpk6 | vupk6 | vtritp | vext | vsortk | unbind => exact nextOk_two h fun _ _ => yields_ok h
  | vins | vperm | bind => exact nextOk_three h fun _ _ _ => yields_ok h
  | vrope => exact nextOk_three h fun _ _ _ => yields_ite (yields_error _) (yields_ok h)
  | vred => exact nextOk_one h fun _ => yields_ite (yields_ok h) (yields_ok h)
  | wrsr => exact nextOk_one h fun _ => yields_ite (yields_ok h) (yields_error _)
  | lbrk => exact nextOk_one h fun _ => yields_ite (yields_error _) (yields_ok (canon_ite h h))
  | ldrain => exact nextOk_ok h (canon_ite (canon_setCtl h _) h)
  | brk => exact nextOk_brk h _
  | tfence => exact nextOk_finish h (yields_ite (yields_error _) (yields_ite (yields_ok h) (yields_error _)))
  | pqlen => exact nextOk_finish h (yields_ite (yields_error _) (yields_ok h))
  | brq hd disp => exact nextOk_brq h hd disp
  | loop p lv hd disp => exact nextOk_loop h p lv hd disp
  | sret => exact nextOk_sret h
  | tlbinv => exact nextOk_tlbinv h _ _ _
  | rdsr => exact nextOk_rdsr h _ _ _
  | ld => exact nextOk_ld h _ _ _ _ _ _ _
  | st => exact nextOk_st h _ _ _ _ _ _
  | amoadd | amoswp | amocas | amomin | amomax | amominn | amomaxn | amoand | amoor | amoxor =>
    exact nextOk_amo h _ _ _ _ _ _ _ _ _
  | fenceM => exact nextOk_fenceM h _
  | fenceX => exact nextOk_fenceX h _ _ _
  | acqAll => exact nextOk_ok h (canon_acquireAll h _)
  | relAll => exact nextOk_relAll h _
  | vld => exact nextOk_one h fun _ => yields_loadLanes h _ _ _ _ _ _ _
  | vldg => exact nextOk_two h fun _ _ => yields_loadLanes h _ _ _ _ _ _ _
  | vst => exact nextOk_vst h _ _ _ _ _
  | vsts => exact nextOk_vsts h _ _ _ _ _ _
  | stcfg => exact nextOk_stcfg h _ _ _
  | stadv => exact nextOk_stadv h _ _
  | ststat => exact nextOk_ststat h _ _ _
  | stcut => exact nextOk_stcut h _
  | streamFill => exact nextOk_streamFill h _
  | streamOutputWrite => exact nextOk_streamOutputWrite h _
  | mma | tmm | tmmt | tmmw | acfg | aczero | acdrain | acload | tadd | tmul | tact | tactd | trms | trmsd | tsmax | tsmaxd
  | tscale | vproj | vprojd => exact nextOk_engPlain h _
  | jointOperation => exact nextOk_unserved h (yields_ok (canon_jointIssue h _))
  | vmerge =>
    exact nextOk_unserved h (yields_after fun _ => yields_after fun _ => yields_after fun _ => yields_ok (canon_engIssue h ..))
  | attn | recbeg => exact nextOk_unserved h (yields_after fun _ => yields_ok (canon_engIssue h ..))
  | attnd | omap | revokeAt | reverse =>
    exact nextOk_unserved h (yields_after fun _ => yields_after fun _ => yields_ok (canon_engIssue h ..))
  | recend => exact nextOk_unserved h (yields_ok (canon_engIssue h ..))
  | recflag => exact nextOk_recflag h _ _
  | otcfg => exact nextOk_otcfg h _ _ _ _
  | extend | extendC => exact nextOk_finishOrdered h (yields_extendIssue h _ _ _)
  | revoke | rlresume | rlstat => exact nextOk_finish h (yields_openIssue h _ _ _)
  | standInstall => exact nextOk_standInstall h _
  | firingRound => exact nextOk_firingRound h
  | firingRetire => exact nextOk_firingRetire h _
  | cpy | cpyg | cpys | cpymc | cpred => exact nextOk_copyIssue h _ _ _ _
  | cpwait =>
    exact nextOk_unserved h (yields_after fun _ => yields_ite (yields_error _) (yields_ite (yields_ok h) (yields_error _)))
  | cpdone => exact nextOk_unserved h (yields_after fun _ => yields_ite (yields_error _) (yields_ok h))
  | copyStart => exact nextOk_copyStart h _
  | copyComplete => exact nextOk_copyComplete h _ _
  | copyFaultDelivery => exact nextOk_copyFaultDelivery h _
  | qput | bqput => exact nextOk_one h fun _ => yields_putAll h _ _ _
  | qget => exact nextOk_qget h _ _ _
  | spawn => exact nextOk_spawn h _ _ _ _
  | join => exact nextOk_join h _ _ _
  | launch => exact nextOk_launch h _ _ _ _
  | yield => exact nextOk_finishOrdered h (yields_after fun _ => yields_ok (canon_endBy (canon_releaseAll h _) _))
  | slend => exact nextOk_finishOrdered h (yields_ok (canon_endBy (canon_releaseAll h _) _))
  | unpark => exact nextOk_unpark h _ _ _
  | evset | evsetErr => exact nextOk_eventSet h _ _
  | evwait => exact nextOk_one h fun _ => yields_ite (yields_ok (canon_put (canon_acquireAll h _) ..)) (yields_error _)
  | evtest => exact nextOk_evtest h _ _ _
  | bar | barG => exact nextOk_finish h (yields_barrierOf h _)
  | pqpush => exact nextOk_pqpush h _ _ _ _ _
  | pqpop => exact nextOk_pqpop h _ _ _
  | kvxl => exact nextOk_kvxl h _ _ _ _ _
  | kvfork => exact nextOk_two h fun _ _ => yields_fork h _ _ _ _
  | kvgrow => exact nextOk_two h fun _ _ => yields_grow h _ _ _ _
  | kvcommit => exact nextOk_kvcommit h _ _ _ _ _
  | memoryDataArrival => exact nextOk_next (canon_ite (canon_keepFreezes h _) (canon_keepFreezes h _))
  | translationWalkComplete => exact nextOk_translationWalkComplete h
  | correctionFreezeEnd | unsupportedRequest | frzRelease | debugAbort | debugStallTimeout | packagePowerLoss | mailboxBusy
  | memoryPortLinkDown | partitionEnable | writeErrorClear | readHealth | readScan | scanSize | debugUnknownCommand
  | wearSample => exact nextOk_next h
  | weightStoreRefresh => exact nextOk_weightStoreRefresh h _
  | partitionResetComplete => exact nextOk_next (canon_ite (canon_endReset h _) h)
  | invalidationComplete => exact nextOk_next (canon_ite (canon_mapPart h ..) h)
  | watchdog => exact nextOk_watchdog h
  | budgetExhausted => exact nextOk_next (canon_ite (canon_takeTrap h _) h)
  | serviceTimer => exact nextOk_serviceTimer h _
  | engineOpComplete => exact nextOk_engineOpComplete h
  | engineFaultDelivery => exact nextOk_engineFaultDelivery h
  | withheldRecordWrite => exact nextOk_withheldRecordWrite h _
  | machineCheck => exact nextOk_next (canon_machineCheck h _)
  | serviceRequest => exact nextOk_serviceRequest h _
  | stopRequest => exact nextOk_stopRequest h
  | stopForShares => exact nextOk_next (canon_ite (canon_postStop h) h)
  | contextSwitchComplete => exact nextOk_contextSwitchComplete h
  | contextSaveComplete => exact nextOk_contextSaveComplete h
  | gangSelect => exact nextOk_gangSelect h
  | gangEnd => exact nextOk_gangEnd h
  | thermalThrottleWindow => exact nextOk_thermalThrottleWindow h _ _ _
  | shareThrottleWindow => exact nextOk_shareThrottleWindow h _ _ _ _
  | mailboxUnsupported => exact nextOk_next (canon_ite h (canon_ite h (canon_ite h h)))
  | identify => exact nextOk_identify h _
  | linkStatus => exact nextOk_linkStatus h _
  | loadImage => exact nextOk_loadImage h _ _ _
  | retireImage => exact nextOk_retireImage h _ _
  | modelDefine => exact nextOk_modelDefine h _ _ _ _ _
  | weightWrite => exact nextOk_weightWrite h _ _ _ _ _ _ _
  | modelBind => exact nextOk_modelBind h _ _ _ _
  | modelUnbind => exact nextOk_modelUnbind h _
  | partitionResume => exact nextOk_partitionResume h _
  | attest => exact nextOk_attest h _ _
  | ownerKey => exact nextOk_ownerKey h _ _
  | window => exact nextOk_window h _ _ _
  | linkConfig => exact nextOk_linkConfig h _ _ _ _
  | linkRoute => exact nextOk_linkRoute h _ _ _ _
  | exportEntry => exact nextOk_exportEntry h _ _ _ _ _ _ _ _ _
  | hostMemAccess => exact nextOk_hostMemAccess h _ _
  | remoteAccess => exact nextOk_remoteAccess h _ _ _ _
  | flitForward => exact nextOk_flitForward h _ _ _
  | linkPortDown => exact nextOk_linkPortDown h _
  | linkTrainTimeout | linkPortTrained | hotReset | frzAssert => exact nextOk_next (canon_ite h h)
  | partitionReset => exact nextOk_next (canon_beginReset h _)
  | contextDefine => exact nextOk_next (canon_writeCtxControl h ..)
  | serviceDoorbell => exact nextOk_next (canon_doorbell h ..)
  | invalidationCommand => exact nextOk_next (canon_invalidateCmd h ..)
  | counterClear => exact nextOk_next (canon_clearCounter h ..)
  | registerWrite => exact nextOk_next (canon_ite (canon_barWrite h ..) (canon_barWrite h ..))
  | coldReset => exact nextOk_coldReset h

end
end Sys2Proof.Machine
end

section
/-! Every step keeps memory in canonical form (R144): happenings outside the core, issue, cycles and the step itself. -/

namespace Sys2Proof.Machine

section
variable {s : State} (h : Canon s)
include h

/-! ## Happenings outside the core -/

theorem canon_peerSets (cx : BitVec 6) (bits err : BitVec 256) (member : Bool) : Canon (s.peerSets cx bits err member) :=
  canon_ite (canon_onWork (canon_setEvents h ..) fun _ ht => canon_mapRun ht _) (canon_setEvents h ..)

theorem canon_memberTrap (cause sub : Byte) (act : Act) : Canon (s.memberTrap cause sub act) :=
  canon_ite (canon_onWork h fun _ ht => canon_mapBank ht _) (canon_ite h h)

theorem canon_ringDoorbell (i : Instr) : Canon (s.ringDoorbell i) :=
  canon_ite h (canon_ite (canon_refuseBusy h) h)

theorem nextOk_commandEnds : NextOk s.commandEnds := by
  unfold State.commandEnds
  split
  · exact exec_nextOk (by exact h) _
  · exact nextOk_next h

theorem canon_sensors (die : Nat) (hot : BitVec 16) (dieP modP : Nat) : Canon (s.sensors die hot dieP modP) :=
  canon_ite h (canon_ite (canon_machineCheck (canon_readSensors h ..) _) (canon_readSensors h ..))

/-- Every happening outside the core keeps the canonical form. -/
theorem outside_nextOk (x : Outside) : NextOk (x.run s) := by
  cases x with
  | peerWrite => exact nextOk_next (canon_writeFrom h ..)
  | peerCopyBegins | barRead => exact nextOk_next (canon_ite h h)
  | peerSets => exact nextOk_next (canon_peerSets h ..)
  | peerRelease => exact nextOk_next (canon_noteRelease h _)
  | memberTrap => exact nextOk_next (canon_memberTrap h ..)
  | memoryError => exact nextOk_next (canon_poisonKey h _)
  | accError => exact nextOk_next (canon_onWork h fun _ ht => canon_mapBank ht _)
  | copyRows => exact nextOk_next (canon_onWork h fun _ ht => canon_moveCopy ht ..)
  | doorbell => exact nextOk_next (canon_ringDoorbell h _)
  | commandEnds => exact nextOk_commandEnds h
  | remoteAtomic => exact nextOk_next (canon_remoteAtomic h ..)
  | sensors => exact nextOk_next (canon_sensors h ..)
  | debugFrame => exact nextOk_debugFrame h _
  | peerCopyEnds | peerClears | peersBehind | peersReached | coreBusy | coreFree | statusRead | configRead | deviceRegRead
  | vectorMask | vectorTaken | hostAccess | exported | linkRetry | dieCounts | deviceGiB | deviceErrors | monitors =>
    exact nextOk_next h

/-! ## Issue -/

theorem canon_atWord (ipc : DWord) : Canon (s.atWord ipc) := canon_mapBun h _

theorem canon_startBundle (npc : DWord) (sync : Bool) : Canon (s.startBundle npc sync) := h

/-- An outcome among those of the words of a bundle keeps the canonical form. -/
theorem nextOk_of_find {ws : List (Instr × DWord)} {p : Host.Outcome State Fault Refusal → Bool}
    {o : Host.Outcome State Fault Refusal} (e : (ws.map fun w => exec w.1 (s.atWord w.2)).find? p = some o) : NextOk o := by
  obtain ⟨w, -, rfl⟩ := List.mem_map.1 (List.mem_of_find?_eq_some e)
  exact exec_nextOk (canon_atWord h _) _

omit h in
theorem nextOk_foldWords (ws : List (Instr × DWord)) {s : State} (h : Canon s) : NextOk (foldWords ws s) := by
  induction ws generalizing s with
  | nil => exact nextOk_next h
  | cons w ws ih =>
    have hw : NextOk (exec w.1 (s.atWord w.2)) := exec_nextOk (canon_atWord h _) _
    unfold foldWords
    split
    · next t e => exact ih (hw t e)
    · exact hw

theorem nextOk_runWords (ws : List (Instr × DWord)) : NextOk (runWords ws s) := by
  unfold runWords
  extract_lets alone
  repeat'
    split
    · next e => exact nextOk_of_find h e
  exact nextOk_foldWords ws h

theorem nextOk_tryBundle : NextOk s.tryBundle := by
  unfold State.tryBundle
  split
  · exact nextOk_finish h (yields_error _)
  · next ws _ =>
    extract_lets npc
    have hr : NextOk (runWords ws (s.startBundle npc (s.standsAtSync s.turn))) := nextOk_runWords (canon_startBundle h ..) ws
    refine nextOk_ite (nextOk_finish h (yields_error _)) (nextOk_ite (nextOk_finish h (yields_error _))
      (nextOk_ite (nextOk_next h) ?_))
    split
    · next t e => exact nextOk_ite (nextOk_next h) (nextOk_next (hr t e))
    · exact hr

theorem canon_waitFor (w : Waits) : Canon (s.waitFor w) := canon_mapCur h _

theorem canon_arrive (g : Bool) : Canon (s.arrive g) := canon_mapCur h _

theorem canon_waitLock : Canon s.waitLock := by
  unfold State.waitLock
  split
  · exact canon_waitFor (canon_arrive h _) _
  · exact canon_waitFor h _

theorem offers_freezeOf (o : Host.Outcome State Fault Refusal) : Offers (s.freezeOf o) Canon := by
  unfold State.freezeOf
  split
  · exact offers_ite (offers_some h) offers_none
  · exact offers_none

theorem offers_lockFreeze : Offers s.lockFreeze Canon := by
  refine offers_ite (fun t e => ?_) offers_none
  obtain ⟨c, -, hc⟩ := List.exists_of_findSome?_eq_some e
  exact offers_freezeOf h _ t hc

theorem nextOk_issue : NextOk s.issue := by
  unfold State.issue
  refine nextOk_ite (nextOk_next (canon_nextTurn h)) (nextOk_ite ?_ ?_)
  · have hb := canon_foldl (f := fun s c => s.mapAgent c fun a => { a with banked := a.banked + 1 })
      (fun _ _ ht => canon_mapAgent ht ..) clusters h
    exact nextOk_next (canon_nextTurn (canon_waitFor hb _))
  · split
    · next t e => exact nextOk_next (offers_lockFreeze h t e)
    · refine nextOk_ite (nextOk_next (canon_nextTurn (canon_waitLock h))) ?_
      split
      · next t e =>
        have ht : Canon t := nextOk_tryBundle h t e
        split
        · exact nextOk_next (canon_getD (canon_afterTurn (canon_commitBundle ht))
            (offers_ite (offers_memberHere h) offers_none))
        · exact nextOk_next h
        · refine nextOk_next (canon_nextTurn (canon_waitFor ?_ _))
          split
          · exact canon_arrive (canon_mapCur (canon_ite (canon_mapBank h _) h) _) _
          · exact canon_mapCur (canon_ite (canon_mapBank h _) h) _
        · exact nextOk_next (canon_getD ht (offers_memberHere h))
      · exact nextOk_tryBundle h

theorem nextOk_cycle : NextOk s.cycle := by
  unfold State.cycle
  refine nextOk_ite (nextOk_next (canon_frozenCycle h)) (nextOk_ite (nextOk_next h) ?_)
  split
  · exact nextOk_issue h
  · exact nextOk_issue h
  · exact nextOk_ite (nextOk_next (canon_endCycle h)) (nextOk_issue h)
  · exact nextOk_next (canon_emptyCycle h)
  · exact nextOk_next (canon_emptyCycle h)

/-! ## The step -/

theorem nextOk_coreStep : NextOk s.coreStep := by
  unfold State.coreStep
  split
  · next t e => exact nextOk_next (offers_gangBoundary h t e)
  · split
    · exact exec_nextOk (by exact h) _
    · split
      · next t e => exact nextOk_next (offers_ownBoundary h t e)
      · exact nextOk_cycle h

theorem offers_clockwork : Offers s.clockwork NextOk :=
  offers_ite offers_none (offers_ite (offers_some (nextOk_next h)) (offers_ite (offers_some (nextOk_commandEnds h))
    (offers_ite (offers_some (nextOk_thermalThrottleWindow h _ _ _)) offers_none)))

theorem nextOk_inner : NextOk s.inner := by
  unfold State.inner
  split
  · next o e => exact offers_clockwork h o e
  · exact nextOk_coreStep h

theorem nextOk_frozenStep : NextOk s.frozenStep := by
  unfold State.frozenStep
  split
  · exact outside_nextOk (by exact h) _
  · split
    · exact exec_nextOk (by exact h) _
    · exact nextOk_next h

theorem nextOk_running : NextOk s.running := by
  unfold State.running
  split
  · exact exec_nextOk (by exact h) _
  · exact nextOk_ite (nextOk_next (canon_boot (canon_emptyCycle h))) (nextOk_inner h)

theorem nextOk_advanceOn : NextOk s.advanceOn := by
  refine nextOk_ite (nextOk_frozenStep h) ?_
  split
  · exact outside_nextOk (by exact h) _
  · exact nextOk_running h

theorem nextOk_advance : NextOk s.advance := by
  refine nextOk_ite (nextOk_advanceOn h) ?_
  split
  · exact nextOk_coldReset h
  · exact nextOk_fault _

end

/-- Settles O60: each part of a step that changes memory keeps the canonical form, by the `canon_` lemmas above. -/
theorem memInvariant : Obligations.MemInvariant := by
  unfold Obligations.MemInvariant
  intro s t hs ht
  exact (canon_iff t).1 (nextOk_advance ((canon_iff s).2 hs) t ht)

end Sys2Proof.Machine
end

section
/-! The checks of an access in their order (R146, R147). -/

namespace Sys2Proof.Machine

/-- The bits [5:4] of the subcode that a data access of lane 0 reports. -/
def kindSub : AKind → Byte
  | .read => 0x00
  | .write => 0x10
  | .atomic => 0x20
  | .fetch => 0x30

/-- An access of lane 0 stops with a cause, detected so many cycles after issue. -/
def StopsAt (s : State) (k : AKind) (va : DWord) (w : Nat) (c : Byte) (late : Nat) : Prop :=
  s.access k va w 0 = .error (.trap { s.trapAt c (kindSub k) va with late := late })

theorem accessSub_zero (k : AKind) (h : k ≠ .fetch) : accessSub k 0 = kindSub k := by
  cases k with
  | fetch => exact absurd rfl h
  | read | write | atomic => rfl

section
variable {s : State} {k : AKind} {va : DWord} {w : Nat} {c : Byte}

/-- A check that fails stops the access with its cause. -/
theorem access_of_bad (hk : k ≠ .fetch) (h : s.locate s.cx s.bank.run k va.toNat w = .bad c) :
    StopsAt s k va w c (s.lateness s.cx va.toNat) := by
  unfold StopsAt State.access
  rw [h, ← accessSub_zero k hk]

/-- No walk of the access having failed, its trap is detected at issue. -/
theorem access_of_bad_of_walkBad_none (hk : k ≠ .fetch) (h : s.locate s.cx s.bank.run k va.toNat w = .bad c)
    (hw : s.walkBad s.cx va.toNat = none) : StopsAt s k va w c 0 := by
  have hl : s.lateness s.cx va.toNat = 0 := by simp [State.lateness, hw]
  exact hl ▸ access_of_bad hk h

end

/-! ## Checks 1 to 5, one by one -/

section
variable (s : State) (cx : BitVec 6) (run : Option Run) (k : AKind) {va w : Nat}

theorem locate_bits (h : 2 ^ 57 ≤ va) : s.locate cx run k va w = .bad 0x07 := if_pos h

theorem locate_misaligned (h : va < 2 ^ 57) (hw : va % w ≠ 0) : s.locate cx run k va w = .bad 0x08 := by
  unfold State.locate
  rw [if_neg (Nat.not_le.2 h), if_pos hw]

theorem locate_local (hk : k ≠ .fetch) (hw : va % w = 0) (h : va / 2 ^ 52 = 0x1F) :
    s.locate cx run k va w = s.locateLocal run (va % 2 ^ 52) w := by
  unfold State.locate
  rw [if_neg (by omega), if_neg (not_not.2 hw), if_pos h, if_neg (by simpa using hk)]

theorem locate_weights (hk : k ≠ .fetch) (hw : va % w = 0) (h : va / 2 ^ 52 = 0x1E) :
    s.locate cx run k va w = s.locateWeights run k (va % 2 ^ 52) w := by
  unfold State.locate
  rw [if_neg (by omega), if_neg (not_not.2 hw), if_neg (by omega), if_pos h, if_neg (by simpa using hk)]

/-- A walk that has failed leaves its cause. -/
theorem locate_walkBad {c : Byte} (hw : va % w = 0) (h : va / 2 ^ 52 < 0x1E) (hc : s.walkBad cx va = some c) :
    s.locate cx run k va w = .bad c := by
  unfold State.locate
  rw [if_neg (by omega), if_neg (not_not.2 hw), if_neg (by omega), if_neg (by omega), hc]

/-- Else the translation at hand decides. -/
theorem locate_tlb {e : TlbEnt} (hw : va % w = 0) (h : va / 2 ^ 52 < 0x1E) (hc : s.walkBad cx va = none)
    (he : s.tlbFind cx va = some e) : s.locate cx run k va w = e.target k va := by
  unfold State.locate
  rw [if_neg (by omega), if_neg (not_not.2 hw), if_neg (by omega), if_neg (by omega), hc, he]

/-- A local offset outside both windows, or of a member that the gang does not have (R137). -/
theorem locateLocal_outside {r : Run} {off : Nat} (hi : (r.service && r.interrupts) = false) (hw : 0 < w)
    (h : 2 ^ 21 ≤ off) (hg : off < 2 ^ 51 ∨ r.snap.gang ≤ (off - 2 ^ 51) / 2 ^ 21) :
    s.locateLocal (some r) off w = .bad 0x0A := by
  unfold State.locateLocal
  dsimp only
  rw [if_neg (by simp [hi]), if_neg (by omega), if_neg (by omega)]

/-- The weight store takes reads alone (R138). -/
theorem locateWeights_of_ne_read {off : Nat} (h : k ≠ .read) : s.locateWeights run k off w = .bad 0x07 := by
  unfold State.locateWeights
  split
  · exact if_neg (by simp [h])
  · rfl

end

/-- A page that does not permit a write (R147). -/
theorem TlbEnt.target_of_not_w (e : TlbEnt) {k : AKind} (va : Nat) (hk : k ≠ .fetch) (h : k ≠ .read) (he : e.w = false) :
    e.target k va = .bad 0x07 := by
  refine if_pos ?_
  cases k with
  | read => exact absurd rfl h
  | fetch => exact absurd rfl hk
  | write | atomic => simp [AKind.writes, he]

/-- Settles O16: each clause is the check of `State.locate` that fails first. -/
theorem accessChecks : Obligations.AccessChecks := by
  unfold Obligations.AccessChecks
  intro s k va w hw hk stopsAt stops
  have hstop : ∀ c late, StopsAt s k va w c late → stopsAt c late := fun c late h => h.trans (by cases k <;> rfl)
  have hbad : ∀ c, s.locate s.cx s.bank.run k va.toNat w = .bad c → stops c :=
    fun c h hn => hstop c 0 (access_of_bad_of_walkBad_none hk h hn)
  refine ⟨fun h => hbad _ (locate_bits _ _ _ _ h), fun h hm => hbad _ (locate_misaligned _ _ _ _ h hm), ?_, ?_, ?_, ?_⟩
  · intro hm r hr hi hreg hoff hg
    refine hbad _ ?_
    rw [locate_local s _ _ _ hk hm hreg, hr]
    exact locateLocal_outside s hi (by omega) hoff hg
  · intro hm hreg hread
    exact hbad _ ((locate_weights s _ _ _ hk hm hreg).trans (locateWeights_of_ne_read s _ _ hread))
  · intro hm hreg c hc
    have hl : s.lateness s.cx va.toNat = 3 := by simp [State.lateness, hc]
    exact hstop c 3 (hl ▸ access_of_bad hk (locate_walkBad s _ _ _ hm hreg hc))
  · intro hm hreg e he hread hew hn
    exact hbad _ ((locate_tlb s _ _ _ hm hreg hn he).trans (e.target_of_not_w _ hk hread hew)) hn

end Sys2Proof.Machine
end

section
/-! Fences (R159 to R161) and bindings (R158). -/

namespace Sys2Proof.Machine

/-! ## Orders with nothing to order -/

section
variable {s : State}

theorem fenceMarks_orderly (ho : Orderly s) (ga : Bool) : s.fenceMarks ga = s := by
  obtain ⟨hp, hr, hh, -, -⟩ := ho
  have hreads : (s.readsWhere fun r _ => r.agent == s.turn && r.path == .ga && ga) = s := by simp [State.readsWhere, hr]
  simp only [State.fenceMarks, hreads, flushWhere_none (s := s) (p := fun e => _) (by simp [hp]), State.readAnew_noneHeld hh]

theorem fenceOwn_orderly (ho : Orderly s) (sc : Scope) (a b : BitVec 7) : s.fenceOwn sc a b = s := by
  obtain ⟨hp, hr, hh, -, -⟩ := ho
  simp only [State.fenceOwn, State.readTo_noRead hr, State.publish_noWrite hp, State.readAnew_noneHeld hh]

theorem acquireAll_orderly (ho : Orderly s) (sc : Scope) : s.acquireAll sc = s := by
  obtain ⟨hp, hr, hh, -, -⟩ := ho
  simp only [State.acquireAll, State.readOwn, State.readTo_noRead hr, State.readAnew_noneHeld hh]

theorem releaseAll_orderly (ho : Orderly s) (sc : Scope) : s.releaseAll sc = s := by
  obtain ⟨hp, hr, hh, -, -⟩ := ho
  simp only [State.releaseAll, State.publishOwn, State.publish_noWrite hp, State.readAnew_noneHeld hh]

/-- `rel.all` where no access is out of order and none of the own path has failed. -/
theorem execRelAll_orderly (ho : Orderly s) (hd : ∀ x ∈ s.cur.deferred, x.path ≠ .own) (c : Scope) :
    execRelAll c s = .next s := by
  have hfind : (s.cur.deferred.find? fun d => d.path == .own) = none := by simpa using hd
  simp [execRelAll, State.finishWaiting, heldBack_nil ho.1, failPending_nil ho.1, State.deferredStop, hfind,
    releaseAll_orderly ho]

end

/-! ## What a fence waits for -/

/-- A copy is requested on a channel and not yet done. -/
def Asks (s : State) (ch : BitVec 2) (x : Copy) : Prop :=
  x ∈ s.bank.chans[ch.toNat].queue ∨ x ∈ s.bank.chans[ch.toNat].started

/-- A copy stands before an identifier. -/
def Ahead (x : Copy) (id : Word) : Prop := 2 ^ 31 ≤ (x.id - id).toNat

theorem mem_before (s : State) (ch : BitVec 2) (id : Word) (x : Copy) :
    x ∈ s.bank.chans[ch.toNat].before id ↔ Asks s ch x ∧ Ahead x id := by
  simp only [Chan.before, idBefore, Asks, Ahead, List.mem_filter, List.mem_append, decide_eq_true_eq]

theorem mem_channels (ch : BitVec 2) : ch ∈ channels := by
  revert ch
  decide

/-- The engine holds work of a number below `n` that a test picks out. -/
theorem engBefore_iff (b : Bank) (n : Nat) (p : EngOp → Bool) (q : OutP → Bool) : b.engBefore n p q = true ↔
    (∃ o ∈ b.eng, o.uid < n ∧ p o = true) ∨ ∃ st ∈ b.streams.toList, ∃ e ∈ st.outq, e.seq < n ∧ q e = true := by
  simp [Bank.engBefore, -Vector.mem_toList_iff, -Vector.any_toList]

/-- Work of any agent. -/
theorem engBefore_any (b : Bank) (n : Nat) : b.engBefore n (fun _ => true) (fun _ => true) = true ↔
    (∃ o ∈ b.eng, o.uid < n) ∨ ∃ st ∈ b.streams.toList, ∃ e ∈ st.outq, e.seq < n := by
  simp only [engBefore_iff, and_true]

/-- The agent at issue has work in the engine. -/
def Works (s : State) : Prop :=
  (∃ o ∈ s.bank.eng, o.issuedBy s.turn = true) ∨ ∃ st ∈ s.bank.streams.toList, ∃ e ∈ st.outq, s.turn ∈ e.agents

/-- It has some of a number that has been given already. -/
def WorksNow (s : State) : Prop :=
  (∃ o ∈ s.bank.eng, o.uid < s.bank.uid ∧ o.issuedBy s.turn = true) ∨
    ∃ st ∈ s.bank.streams.toList, ∃ e ∈ st.outq, e.seq < s.bank.uid ∧ s.turn ∈ e.agents

theorem WorksNow.works {s : State} (h : WorksNow s) : Works s :=
  h.imp (fun ⟨o, ho, _, hi⟩ => ⟨o, ho, hi⟩) fun ⟨st, hst, e, he, _, hi⟩ => ⟨st, hst, e, he, hi⟩

theorem WorksNow.before {s : State} (h : WorksNow s) :
    (∃ o ∈ s.bank.eng, o.uid < s.bank.uid) ∨ ∃ st ∈ s.bank.streams.toList, ∃ e ∈ st.outq, e.seq < s.bank.uid :=
  h.imp (fun ⟨o, ho, hlt, _⟩ => ⟨o, ho, hlt⟩) fun ⟨st, hst, e, he, hlt, _⟩ => ⟨st, hst, e, he, hlt⟩

theorem engBefore_works (s : State) :
    s.bank.engBefore s.bank.uid (·.issuedBy s.turn) (·.agents.contains s.turn) = true ↔ WorksNow s := by
  simp only [engBefore_iff, WorksNow, List.contains_iff_mem]

/-- The path of a copy is named by the set of `fence.m` that has its bit. -/
theorem contains_markPaths (p : BitVec 4) (k : CopyKind) : (markPaths p).contains k.path = p.getLsbD (k.path - 2) := by
  have h : ∀ i, i < 4 → ((markPaths p).contains (i + 2) = p.getLsbD i) := by
    intro i hi
    simp [markPaths, setBits, hi, BitVec.getLsbD]
  cases k with
  | cpy | cpymc => exact h 0 (by decide)
  | cpyg | cpys => exact h 1 (by decide)
  | cpred => exact h 3 (by decide)

/-- The path of a copy is named by the set of `fence.x` that has its bit. -/
theorem contains_copyPaths (a : BitVec 7) (k : CopyKind) :
    ([2, 3, 5].filter fun i => a.getLsbD i).contains k.path = a.getLsbD k.path := by
  cases k with
  | cpy | cpymc | cpyg | cpys | cpred => simp [CopyKind.path, List.contains_eq_mem]

section
variable {s : State} {paths : List Nat} {mx : Bool} {named : Nat → Bool}

/-- The channels that a fence marks. -/
theorem mem_markers (hn : ∀ k : CopyKind, paths.contains k.path = named k.path) (c : BitVec 2 × Word) :
    c ∈ (s.markers paths mx).1 ↔
      s.turn = 4 ∧ c.2 = s.bank.chans[c.1.toNat].next ∧ ∃ x, Asks s c.1 x ∧ named x.kind.path = true := by
  obtain ⟨ch, id⟩ := c
  have hany : ∀ ch : BitVec 2, ((s.bank.chans[ch.toNat].queue ++ s.bank.chans[ch.toNat].started).any fun x =>
      paths.contains x.kind.path) = true ↔ ∃ x, Asks s ch x ∧ named x.kind.path = true := by
    intro ch
    simp only [List.any_eq_true, List.mem_append, hn, Asks]
  by_cases ht : s.turn = 4
  · have hap : s.onAp = true := by simp [State.onAp, ht]
    simp only [State.markers, hap, if_true, List.mem_map, List.mem_filter, mem_channels, true_and, hany, ht, Prod.mk.injEq]
    constructor
    · rintro ⟨c, hx, rfl, rfl⟩
      exact ⟨rfl, hx⟩
    · rintro ⟨hid, hx⟩
      exact ⟨ch, hx, rfl, hid.symm⟩
  · have hap : s.onAp = false := by simp [State.onAp, ht]
    simp [State.markers, hap, ht]

/-- No channel is marked where the access processor has no request on the paths. -/
theorem markers_fst_nil (hn : ∀ k : CopyKind, paths.contains k.path = named k.path)
    (h : s.turn = 4 → ∀ ch x, Asks s ch x → named x.kind.path = false) : (s.markers paths mx).1 = [] := by
  refine List.eq_nil_iff_forall_not_mem.2 fun c hc => ?_
  obtain ⟨ht, -, x, hx, hp⟩ := (mem_markers hn c).1 hc
  exact Bool.false_ne_true ((h ht _ x hx).symm.trans hp)

/-- The engine is marked at the next number where the agent has work there. -/
theorem markers_snd_of_work (hm : mx = true) (h : WorksNow s) : (s.markers paths mx).2 = some s.bank.uid :=
  if_pos (by rw [hm, Bool.true_and, engBefore_works]; exact h)

theorem markers_snd_none (h : mx = true → ¬Works s) : (s.markers paths mx).2 = none := by
  refine if_neg fun hw => ?_
  obtain ⟨hm, hw⟩ := Bool.and_eq_true_iff.1 hw
  exact h hm ((engBefore_works s).1 hw).works

end

section
variable {s : State} {m : List (BitVec 2 × Word) × Option Nat}

theorem marksWait_iff : s.marksWait m = true ↔ (∃ c ∈ m.1, ∃ x, Asks s c.1 x ∧ Ahead x c.2) ∨
    ∃ n, m.2 = some n ∧ s.bank.engBefore n (fun _ => true) (fun _ => true) = true := by
  obtain ⟨cs, e⟩ := m
  have hcs : (cs.any fun c => !(s.bank.chans[c.1.toNat].before c.2).isEmpty) = true
      ↔ ∃ c ∈ cs, ∃ x, Asks s c.1 x ∧ Ahead x c.2 := by
    simp only [List.any_eq_true, Bool.not_eq_true', List.isEmpty_eq_false_iff_exists_mem, mem_before]
  rw [← hcs, State.marksWait]
  cases e <;> simp

theorem pathsWait_iff {a : BitVec 7} : s.pathsWait a m = true ↔
    (∃ c ∈ m.1, ∃ x, Asks s c.1 x ∧ Ahead x c.2 ∧ a.getLsbD x.kind.path = true) ∨
    ∃ n, m.2 = some n ∧ s.bank.engBefore n (·.issuedBy s.turn) (·.agents.contains s.turn) = true := by
  obtain ⟨cs, e⟩ := m
  have hcs : (cs.any fun c => (s.bank.chans[c.1.toNat].before c.2).any fun x => a.getLsbD x.kind.path) = true
      ↔ ∃ c ∈ cs, ∃ x, Asks s c.1 x ∧ Ahead x c.2 ∧ a.getLsbD x.kind.path = true := by
    simp only [List.any_eq_true, mem_before, and_assoc]
  rw [← hcs, State.pathsWait]
  cases e <;> simp

theorem marksWait_nil : s.marksWait ([], none) = false := rfl

theorem pathsWait_nil (a : BitVec 7) : s.pathsWait a ([], none) = false := rfl

theorem marksOf_begins (h : s.cur.waiting = none) (paths : List Nat) (mx : Bool) : s.marksOf paths mx = s.markers paths mx := by
  simp [State.marksOf, h]

theorem marksOf_waits {cs : List (BitVec 2 × Word)} {e : Option Nat} {t : Nat} (h : s.cur.waiting = some (.fence cs e, t))
    (paths : List Nat) (mx : Bool) : s.marksOf paths mx = (cs, e) := by
  simp [State.marksOf, h]

/-- `fence.m` waits while a marker has not reached its queue's head. -/
theorem execFenceM_waits {p : BitVec 4} (h : s.marksOf (markPaths p) (p.getLsbD 2) = m) (hw : s.marksWait m = true) :
    execFenceM p s = .next { s with verdict := .stall (.fence m.1 m.2) } := by
  simp only [execFenceM, h, hw, if_true, finish_wait]

theorem execFenceM_ends {p : BitVec 4} (h : s.marksOf (markPaths p) (p.getLsbD 2) = m) (hw : s.marksWait m = false)
    (ho : Orderly s) : execFenceM p s = .next s := by
  simp only [execFenceM, h, hw, Bool.false_eq_true, if_false, fenceMarks_orderly ho, ite_self, finish_ok]

theorem execFenceX_waits {c : Scope} {a b : BitVec 7} (ha : a ≠ 0) (hb : b ≠ 0)
    (h : s.marksOf ([2, 3, 5].filter fun i => a.getLsbD i) (a.getLsbD 4) = m) (hw : s.pathsWait a m = true) :
    execFenceX c a b s = .next { s with verdict := .stall (.fence m.1 m.2) } := by
  simp only [execFenceX, ha, hb, or_self, h, hw, if_true, if_false]
  rfl

theorem execFenceX_ends {c : Scope} {a b : BitVec 7}
    (h : s.marksOf ([2, 3, 5].filter fun i => a.getLsbD i) (a.getLsbD 4) = m) (hw : s.pathsWait a m = false)
    (hd : s.cur.deferred = []) (ho : Orderly s) : execFenceX c a b s = .next s := by
  simp only [execFenceX, h, hw, Bool.false_eq_true, if_false, fenceOwn_orderly ho, finishWaiting_eq hd ho.1, finish_ok,
    ite_self]

end

/-! ## Bindings -/

/-- The parameters of a binding that the rule does not allow. -/
def BadBind (a b : DWord) (x : Nat) : Prop := a.toNat % 8 ≠ 0 ∨ b.toNat % 64 ≠ 0 ∨ x = 0 ∨ x % 64 ≠ 0 ∨ 2 ^ 31 < x

section
variable {t : List (Nat × DWord × DWord × Nat)} {u v : DWord} {n : Nat}

theorem bindStep_bad (h : BadBind u v n) : bindStep t u v n = (0xFFFFFFFE, t) := if_pos h

/-- A binding that stands already is found. -/
theorem bindStep_found (h : ¬BadBind u v n) (hf : ∃ i, (i, u, v, n) ∈ t) :
    ∃ i, (i, u, v, n) ∈ t ∧ bindStep t u v n = (BitVec.ofNat 32 i, t) := by
  obtain ⟨i, hi⟩ := hf
  obtain ⟨e, he⟩ : ∃ e, (t.find? fun e => e.2 == (u, v, n)) = some e :=
    Option.isSome_iff_exists.1 (List.find?_isSome.2 ⟨_, hi, by simp⟩)
  obtain ⟨j, w⟩ := e
  obtain rfl : w = (u, v, n) := by simpa using List.find?_some he
  refine ⟨j, List.mem_of_find?_eq_some he, ?_⟩
  unfold bindStep
  rw [if_neg (show ¬(_ ∨ _) from h), he]

/-- Else it takes the lowest free index, if there is one. -/
theorem bindStep_new (h : ¬BadBind u v n) (hf : ∀ i, (i, u, v, n) ∉ t) {o : Option Nat}
    (ho : ((List.range 256).find? fun i => !t.any fun e => e.1 == i) = o) :
    bindStep t u v n = (o.elim 0xFFFFFFFF (BitVec.ofNat 32), o.elim t fun i => t ++ [(i, u, v, n)]) := by
  have hnone : (t.find? fun e => e.2 == (u, v, n)) = none := by
    refine List.find?_eq_none.2 fun e he hp => ?_
    obtain ⟨i, w⟩ := e
    obtain rfl : w = (u, v, n) := by simpa using hp
    exact hf i he
  unfold bindStep
  rw [if_neg (show ¬(_ ∨ _) from h), hnone, ho]
  cases o <;> rfl

theorem bindStep_full (h : ¬BadBind u v n) (hf : ∀ i, (i, u, v, n) ∉ t) (hall : ∀ i, i < 256 → ∃ e ∈ t, e.1 = i) :
    bindStep t u v n = (0xFFFFFFFF, t) :=
  bindStep_new h hf (o := none) (by simpa [List.find?_range_eq_none] using hall)

theorem bindStep_free (h : ¬BadBind u v n) (hf : ∀ i, (i, u, v, n) ∉ t) {i : Nat} (hi : i < 256) (hfree : ∀ e ∈ t, e.1 ≠ i)
    (hlow : ∀ j, j < i → ∃ e ∈ t, e.1 = j) : bindStep t u v n = (BitVec.ofNat 32 i, t ++ [(i, u, v, n)]) :=
  bindStep_new h hf (o := some i) (by
    rw [List.find?_range_eq_some]
    exact ⟨by simpa using hfree, by simpa using hi, by simpa using hlow⟩)

/-- The index binds these two addresses. -/
theorem any_binds (i : Nat) : (t.any fun e => e.1 == i && e.2.1 == u && e.2.2.1 == v) = true ↔ ∃ k, (i, u, v, k) ∈ t := by
  simp only [List.any_eq_true, Bool.and_eq_true, beq_iff_eq]
  constructor
  · rintro ⟨⟨i, u, v, k⟩, hm, ⟨rfl, rfl⟩, rfl⟩
    exact ⟨k, hm⟩
  · rintro ⟨k, hm⟩
    exact ⟨_, hm, ⟨rfl, rfl⟩, rfl⟩

theorem unbindStep_none (h : ∀ i, i < 256 → ∀ k, (i, u, v, k) ∉ t) : unbindStep t u v = (0xFFFFFFFF, t) := by
  have hnone : ((List.range 256).find? fun i => t.any fun e => e.1 == i && e.2.1 == u && e.2.2.1 == v) = none := by
    refine List.find?_range_eq_none.2 fun i hi => ?_
    rw [Bool.not_eq_true', Bool.eq_false_iff, Ne, any_binds]
    rintro ⟨k, hm⟩
    exact h i hi k hm
  rw [unbindStep, hnone]

theorem unbindStep_lowest {i k : Nat} (hi : i < 256) (hm : (i, u, v, k) ∈ t) (hlow : ∀ j, j < i → ∀ k, (j, u, v, k) ∉ t) :
    unbindStep t u v = (BitVec.ofNat 32 i, t.filter fun e => e.1 != i) := by
  have hsome : ((List.range 256).find? fun i => t.any fun e => e.1 == i && e.2.1 == u && e.2.2.1 == v) = some i := by
    refine List.find?_range_eq_some.2 ⟨(any_binds i).2 ⟨k, hm⟩, List.mem_range.2 hi, fun j hj => ?_⟩
    rw [Bool.not_eq_true', Bool.eq_false_iff, Ne, any_binds]
    rintro ⟨k, hm⟩
    exact hlow j hj k hm
  rw [unbindStep, hsome]

end

section
variable {s : State} {a b x : Opnd} (ha : Readable s a .w64) (hb : Readable s b .w64) {y : Word}
  {t : List (Nat × DWord × DWord × Nat)}
include ha hb

theorem execBind_of_step (hx : Readable s x .w32) (sc : Sched) (d : Opnd)
    (h : bindStep s.bindings (s.val64 a) (s.val64 b) (s.val32 x).toNat = (y, t)) :
    execBind sc d a b x s = .next ((s.mapCtx s.cx fun c => { c with binds := t }).put sc d 32 y) := by
  simp only [execBind, rd64_ok ha, rd64_ok hb, rd32_ok hx, bind, Except.bind, pure, Except.pure, h, finish_ok]

theorem execUnbind_of_step (sc : Sched) (d : Opnd) (h : unbindStep s.bindings (s.val64 a) (s.val64 b) = (y, t)) :
    execUnbind sc d a b s = .next ((s.mapCtx s.cx fun c => { c with binds := t }).put sc d 32 y) := by
  simp only [execUnbind, rd64_ok ha, rd64_ok hb, bind, Except.bind, pure, Except.pure, h, finish_ok]

end

/-! ## The statement -/

/-- Settles O19: the markers of a fence name what it waits for, and each answer of `bind` and `unbind` is a case of
`bindStep` and `unbindStep`. -/
theorem fencesAndBindings : Obligations.FencesAndBindings := by
  unfold Obligations.FencesAndBindings
  refine ⟨fun s c p a b hd => ?_, fun s sc d a b x ha hb hx => ?_⟩
  · refine ⟨fun hb hcp hmx ho => ?_, fun hb hleft => ?_, fun cs n t hb => ⟨fun hleft => ?_, fun hleft ho => ?_⟩,
      fun h => if_pos h, fun hb hcp hmx ho => ?_, fun hb h0 h1 hleft => ?_,
      fun ho => ⟨congrArg Host.Outcome.next (acquireAll_orderly ho c), ?_⟩⟩
    case refine_1 =>
      refine execFenceM_ends ((marksOf_begins hb ..).trans (Prod.ext (markers_fst_nil (named := fun i => p.getLsbD (i - 2))
        (contains_markPaths p) hcp)
        (markers_snd_none hmx))) marksWait_nil ho
    case refine_2 =>
      refine ⟨_, _, execFenceM_waits (marksOf_begins hb ..) (marksWait_iff.2 ?_)⟩
      rcases hleft with ⟨ht, ch, x, hx, hax, hpx⟩ | ⟨hm, hw⟩
      · exact .inl ⟨(ch, _), (mem_markers (named := fun i => p.getLsbD (i - 2)) (contains_markPaths p) _).2
          ⟨ht, rfl, x, hx, hpx⟩, x, hx, hax⟩
      · exact .inr ⟨_, markers_snd_of_work hm hw, (engBefore_any ..).2 (WorksNow.before hw)⟩
    case refine_3 =>
      refine execFenceM_waits (marksOf_waits hb ..) (marksWait_iff.2 ?_)
      simpa only [engBefore_any, Asks, Ahead] using hleft
    case refine_4 =>
      refine execFenceM_ends (marksOf_waits hb ..) (Bool.eq_false_iff.2 fun hw => hleft ?_) ho
      simpa only [engBefore_any, Asks, Ahead] using marksWait_iff.1 hw
    case refine_5 =>
      exact execFenceX_ends ((marksOf_begins hb ..).trans (Prod.ext (markers_fst_nil (contains_copyPaths a) hcp)
        (markers_snd_none hmx))) (pathsWait_nil a) hd ho
    case refine_6 =>
      refine ⟨_, _, execFenceX_waits h0 h1 (marksOf_begins hb ..) (pathsWait_iff.2 ?_)⟩
      rcases hleft with ⟨ht, ch, x, hx, hax, hpx⟩ | ⟨hm, hw⟩
      · exact .inl ⟨(ch, _), (mem_markers (contains_copyPaths a) _).2 ⟨ht, rfl, x, hx, hpx⟩, x, hx, hax, hpx⟩
      · exact .inr ⟨_, markers_snd_of_work hm hw, (engBefore_works s).2 hw⟩
    case refine_7 => exact execRelAll_orderly ho (by simp [hd]) c
  · refine ⟨fun h => ?_, fun h hf => ?_, fun h hf hall => ?_, fun h hf i hi hfree hlow => ?_, fun h => ?_,
      fun i k hi hm hlow => ?_⟩
    · exact execBind_of_step ha hb hx sc d (bindStep_bad h)
    · obtain ⟨i, hi, hstep⟩ := bindStep_found h hf
      exact ⟨i, hi, execBind_of_step ha hb hx sc d hstep⟩
    · exact execBind_of_step ha hb hx sc d (bindStep_full h hf hall)
    · exact execBind_of_step ha hb hx sc d (bindStep_free h hf hi hfree hlow)
    · exact execUnbind_of_step ha hb sc d (unbindStep_none h)
    · exact execUnbind_of_step ha hb sc d (unbindStep_lowest hi hm hlow)

end Sys2Proof.Machine
end

section
/-! Accesses of the agent at issue where none stands out of order (R162, R166): what each operation on them amounts to. -/

namespace Sys2Proof.Machine

section
variable {s : State}

/-! ## Reads -/

theorem noteLanes_mapped {addr : Nat → DWord} {ks : List (Nat × Nat)} (h : ∀ p ∈ ks, Mapped s (addr p.1)) :
    s.noteLanes addr ks = s := by
  unfold State.noteLanes
  induction ks with
  | nil => rfl
  | cons p ks ih =>
    rw [List.foldl_cons, State.noteWalk_mapped (h p List.mem_cons_self)]
    exact ih fun q hq => h q (List.mem_cons_of_mem _ hq)

theorem beforeRead_orderly (ho : Orderly s) (path : Path) (key n : Nat) : s.beforeRead path key n = s := by
  obtain ⟨hp, hr, hh, -, -⟩ := ho
  simp [State.beforeRead, State.flushAt, State.flushWhere, hp, State.readsAt, State.readsWhere, hr, State.wholeOf,
    State.heldAt, hh, State.dropOf]

theorem view_orderly (ho : Orderly s) (path : Path) (key n : Nat) : s.view path key n = s.rd key n := by
  obtain ⟨hp, -, hh, -, -⟩ := ho
  simp [State.view, State.viewOf, State.heldAt, hh, hp]

theorem dropAt_noneHeld (hh : s.held = []) (path : Path) (key n : Nat) : s.dropAt path key n = s := by
  simp [State.dropAt, State.dropOf, hh]

theorem lateRead_none (h : s.oracle.lateReads = []) (i : Nat) : s.lateRead i = false := by simp [State.lateRead, h]

/-- A load that leaves no element for later reads them all at once. -/
theorem readLater_none (h : s.oracle.lateReads = []) (path : Path) (uid : Nat) (vec : Bool) (w : Nat)
    (m : Option (Nat × Mark)) : s.readLater path uid vec w [] m = s := by
  unfold State.readLater
  rw [h, List.drop_nil, if_pos List.isEmpty_nil, ← h]

/-- An acquire finds nothing to read anew. -/
theorem acquire_noneHeld (hh : s.held = []) (sc : Scope) (obj : Nat) : s.acquire sc obj = s := by
  simp only [State.acquire, State.readAnew_noneHeld hh]

/-! ## Writes -/

theorem lateMask_none (h : s.oracle.late = []) (i : Nat) : s.lateMask.testBit i = false := by simp [State.lateMask, h]

theorem usedLate_none (h : s.oracle.late = []) : s.usedLate = s := by
  unfold State.usedLate
  rw [h, List.drop_nil, ← h]

theorem noteWrite_quiet (hr : s.reads = []) (hh : s.held = []) (who : Party) (path : Path) (key n upto : Nat) :
    s.noteWrite who path key n upto = s := by
  simp [State.noteWrite, State.readsWhere, hr, hh]

theorem beforeRelease_orderly (ho : Orderly s) (sc : Scope) : s.beforeRelease sc = s := by
  obtain ⟨hp, hr, -, -, -⟩ := ho
  simp only [State.beforeRelease, State.readOwn, State.readTo_noRead hr, State.publishOwn, State.publish_noWrite hp]

/-- A copy holds back plain writes of the access processor's own path alone (R167). -/
theorem owed_eq_false_of (e : PendW) (h : e.path ≠ .own ∨ e.kind ≠ .plain) : s.owed e = false := by
  rcases h with h | h <;> simp [State.owed, h]

theorem owed_of_noneOwed (h : NoneOwed s) {e : PendW} (he : e.agent = s.turn) : s.owed e = false := by
  by_cases ht : s.turn = apId
  · have hnone : (s.workBank.copiesOf.filter fun c => c.kind.indexed && decide (c.seq < e.no)) = [] :=
      List.filter_eq_nil_iff.2 fun c hc => by simp [h ht c hc]
    simp [State.owed, hnone]
  · have hagent : e.agent ≠ apId := he ▸ ht
    simp [State.owed, hagent]

/-- What a copy owes at a key is said by the plain write of the agent at issue there. -/
theorem owed_of_not_owes {e : PendW} (h : ¬Owes s e.key) (he : e.agent = s.turn) (hno : e.no = s.workBank.uid) :
    s.owed e = false := by
  refine Bool.eq_false_iff.2 fun hw => h ?_
  simp only [State.owed, Bool.and_eq_true, beq_iff_eq, List.any_eq_true, List.mem_filter, decide_eq_true_eq,
    List.contains_iff_mem] at hw
  obtain ⟨⟨⟨ht, -⟩, -⟩, c, ⟨hc, hi, hlt⟩, hl⟩ := hw
  exact ⟨he ▸ ht, c, hc, hi, hno ▸ hlt, hl⟩

/-- Where no access stands out of order a write that nothing holds back is performed at once. -/
theorem request_orderly (ho : Orderly s) {e : PendW} (he : s.owed e = false) : s.request false e = s.perform e := by
  obtain ⟨hp, hr, hh, -, -⟩ := ho
  simp [State.request, State.flushWhere, hp, State.readsAt, State.readsWhere, hr, dropAt_noneHeld hh, he]

/-- A write lands. -/
theorem land_orderly (ho : Orderly s) (e : PendW) (bs : List Byte) : s.land e bs = s.wr e.key bs := by
  obtain ⟨-, hr, hh, -, -⟩ := ho
  rw [State.land, noteWrite_quiet hr hh]

theorem storeAs_orderly (ho : Orderly s) {kind : PendK} {path : Path} {va : DWord} {key lane : Nat} {clean : Bool}
    {bs : List Byte} (hs : s.served key true = true)
    (he : s.owed ⟨s.turn, path, va, lane, key, bs, clean, none, s.workBank.uid, kind⟩ = false) :
    s.storeAs kind path va key lane clean bs
      = s.perform ⟨s.turn, path, va, lane, key, bs, clean, none, s.workBank.uid, kind⟩ := by
  rw [State.storeAs, if_pos hs, lateMask_none ho.2.2.2.1, request_orderly ho he]

/-- A plain write is performed: its bytes, and a granule that it writes whole is clean (R144). -/
theorem perform_plain_orderly (ho : Orderly s) {e : PendW} (hk : e.kind = .plain) (hs : s.served e.key true = true) :
    s.perform e = if e.clean then { s.wr e.key e.bytes with mem := (s.wr e.key e.bytes).mem.cleanGranule (e.key / 64) }
      else s.wr e.key e.bytes := by
  rw [State.perform, hk]
  simp only [hs, if_true, land_orderly ho]

theorem noteRelease_wr (r : Rel) (key : Nat) (bs : List Byte) :
    (s.wr key bs).noteRelease r = { s with rels := (s.noteRelease r).rels }.wr key bs := by
  unfold State.noteRelease
  cases h : s.rels.find? fun x => x.ctx == r.ctx && x.obj == r.obj && x.who == r.who && x.scope == r.scope with
  | none => simp [State.wr, h]
  | some x => simp [State.wr, h]

/-- A release is performed: its bytes, and the release is noted. -/
theorem perform_rel_orderly (ho : Orderly s) {e : PendW} {r : Rel} (hk : e.kind = .rel r) (hc : e.clean = false)
    (hs : s.served e.key true = true) :
    s.perform e = { s with rels := (s.noteRelease r).rels }.wr e.key e.bytes := by
  rw [State.perform, hk]
  simp only [hs, if_true, land_orderly ho, hc, Bool.false_eq_true, if_false, noteRelease_wr]

end

end Sys2Proof.Machine
end

section
/-! Loads and stores (R146, R149 to R151), the marks of what is read (R145), and deferred errors (R147). -/

namespace Sys2Proof.Machine

/-! ## Loads and stores with no access out of order -/

section
variable {s : State}

/-- The read of a value of the access size. -/
theorem rdSz_ok_of_width {wide : Bool} {o : Opnd} (h : Readable s o (if wide then .w64 else .w32)) :
    s.rdSz wide o = .ok (if wide then s.val64 o else (s.val32 o).setWidth 64) := by
  cases wide with
  | true => exact rd64_ok h
  | false => simp [State.rdSz, rd32_ok (show Readable s o .w32 from h), Except.map]

/-- Its number is that of the pair or of the register. -/
theorem toNat_rdSz (wide : Bool) (o : Opnd) : (if wide then s.val64 o else (s.val32 o).setWidth 64).toNat
    = if wide then (s.val64 o).toNat else (s.val32 o).toNat := by
  cases wide with
  | true => rfl
  | false => exact BitVec.toNat_setWidth_of_le (by decide)

theorem loadResult_orderly (ho : Orderly s) (sc : Sched) (d : Opnd) (sz : Size) (va : DWord) (key : Nat) :
    s.loadResult sc d sz va key = s.putM sc d (sz = .d) 6 (BitVec.ofNat 64 (s.rdNat key sz.bytes))
      (s.readMark .own va key sz.bytes) := by
  rw [State.loadResult, view_orderly ho, State.rdNat]

theorem loadPlain_orderly (ho : Orderly s) (sc : Sched) (d : Opnd) (sz : Size) (va : DWord) (key : Nat) :
    s.loadPlain sc d sz va key = s.loadResult sc d sz va key := by
  obtain ⟨-, -, -, -, hl⟩ := ho
  simp only [State.loadPlain, lateRead_none hl, Bool.false_eq_true, if_false, readLater_none hl]

/-- `ld` of either order delivers what its location holds, with its mark. -/
theorem execLd_orderly (ho : Orderly s) (hd : s.cur.deferred = []) {bp : BitVec 4} (hb : Readable s (baseOp bp) .w64)
    {off : BitVec 24} {sz : Size} {key : Nat} (hm : Mapped s (effAddr (s.val64 (baseOp bp)) off))
    (ha : s.access .read (effAddr (s.val64 (baseOp bp)) off) sz.bytes 0 = .ok key) (sc : Sched) (d : Opnd) (c : Scope)
    (acq : Bool) :
    execLd sc d bp sz c acq off s = .next (s.loadResult sc d sz (effAddr (s.val64 (baseOp bp)) off) key) := by
  obtain ⟨hp, hr, hh, hl, hlr⟩ := id ho
  cases acq with
  | false =>
    simp only [execLd, Bool.false_eq_true, if_false, rdBase_ok hb, bind, Except.bind, ha, State.reading_orderly ho hm,
      loadPlain_orderly ho, pure, Except.pure, finish_ok]
  | true =>
    have hacq : ∀ u : State, u.held = [] → ∀ sc obj, u.acquire sc obj = u := fun u hu => acquire_noneHeld hu
    have hheld : (s.loadResult sc d sz (effAddr (s.val64 (baseOp bp)) off) key).held = [] := hh
    simp only [execLd, if_true, rdBase_ok hb, bind, Except.bind, ha, State.unowed, heldBack_nil hp, Bool.false_eq_true,
      if_false, State.reading_orderly ho hm, State.atHome, dropAt_noneHeld hh, hacq _ hheld, pure, Except.pure,
      finishWaiting_eq hd hp, finish_ok]

/-- A plain `st` writes its bytes where nothing holds it back. -/
theorem execSt_plain (ho : Orderly s) {bp : BitVec 4} (hb : Readable s (baseOp bp) .w64)
    {off : BitVec 24} {sz : Size} {key : Nat} (hm : Mapped s (effAddr (s.val64 (baseOp bp)) off))
    (ha : s.access .write (effAddr (s.val64 (baseOp bp)) off) sz.bytes 0 = .ok key) (hs : s.served key true = true)
    (ho' : ¬Owes s key) {d : Opnd} {v : DWord} (hv : s.rdSz (sz = .d) d = .ok v) (c : Scope) :
    execSt d bp sz c false off s = .next (s.wr key (bytesOf sz.bytes v.toNat)) := by
  have hstore : ∀ va bs, s.storePlain .own va key 0 false bs = s.wr key bs := fun va bs => by
    rw [State.storePlain, storeAs_orderly ho hs (owed_of_not_owes ho' rfl rfl), perform_plain_orderly ho rfl hs,
      if_neg Bool.false_ne_true]
  have hlate : (s.wr key (bytesOf sz.bytes v.toNat)).usedLate = s.wr key (bytesOf sz.bytes v.toNat) :=
    usedLate_none ho.2.2.2.1
  simp only [execSt, Bool.false_eq_true, if_false, rdBase_ok hb, hv, bind, Except.bind, ha, State.noteWalk_mapped hm,
    hstore, hlate, pure, Except.pure, finish_ok]

/-- A releasing `st` writes its bytes, and its release is noted. -/
theorem execSt_release (ho : Orderly s) (hd : s.cur.deferred = []) {bp : BitVec 4} (hb : Readable s (baseOp bp) .w64)
    {off : BitVec 24} {sz : Size} {key : Nat} (hm : Mapped s (effAddr (s.val64 (baseOp bp)) off))
    (ha : s.access .write (effAddr (s.val64 (baseOp bp)) off) sz.bytes 0 = .ok key) (hs : s.served key true = true)
    {d : Opnd} {v : DWord} (hv : s.rdSz (sz = .d) d = .ok v) (c : Scope) :
    ∃ l, execSt d bp sz c true off s = .next ({ s with rels := l }.wr key (bytesOf sz.bytes v.toNat)) := by
  have hstore : ∀ r va bs, s.storeAs (.rel r) .own va key 0 false bs
      = { s with rels := (s.noteRelease r).rels }.wr key bs := fun r va bs => by
    have hkind : PendK.rel r ≠ .plain := nofun
    rw [storeAs_orderly ho hs (owed_eq_false_of _ (.inr hkind)), perform_rel_orderly ho rfl rfl hs]
  have hlate : ∀ l, ({ s with rels := l }.wr key (bytesOf sz.bytes v.toNat)).usedLate
      = { s with rels := l }.wr key (bytesOf sz.bytes v.toNat) := fun l => usedLate_none ho.2.2.2.1
  refine ⟨(s.noteRelease (s.relOf c (effAddr (s.val64 (baseOp bp)) off) key)).rels, ?_⟩
  simp only [execSt, if_true, rdBase_ok hb, hv, bind, Except.bind, ha, State.noteWalk_mapped hm, beforeRelease_orderly ho,
    hstore, hlate, pure, Except.pure, finishWaiting_eq hd ho.1, finish_ok]

end

/-! ## Marks -/

section
variable {s : State}

theorem granuleOf_eq (va : DWord) : granuleOf va = BitVec.ofNat 64 (va.toNat / 64 * 64) := by
  refine BitVec.eq_of_getLsbD_eq fun i hi => ?_
  have hshift : va.toNat / 64 * 64 = va.toNat >>> 6 <<< 6 := by rw [Nat.shiftRight_eq_div_pow, Nat.shiftLeft_eq]
  have hmask : ∀ i : Fin 64, (~~~(0x3F : DWord)).getLsbD i = decide (6 ≤ i.val) := by decide
  rw [granuleOf, BitVec.getLsbD_and, hmask ⟨i, hi⟩, hshift, BitVec.getLsbD_ofNat, Nat.testBit_shiftLeft,
    Nat.testBit_shiftRight, decide_eq_true hi, Bool.true_and]
  by_cases h : 6 ≤ i
  · simp [h, BitVec.getLsbD]
  · simp [h]

/-- A granule of the range is poisoned. -/
theorem poisonAt_isSome (m : Memory) (key w : Nat) :
    (m.poisonAt key w).isSome = true ↔ ∃ g ∈ m.poison, key / 64 ≤ g ∧ g < (key + w + 63) / 64 := by
  simp only [Memory.poisonAt, List.find?_isSome, List.mem_map, List.mem_range, List.contains_iff_mem]
  constructor
  · rintro ⟨_, ⟨k, hk, rfl⟩, hg⟩
    exact ⟨_, hg, by omega, by omega⟩
  · rintro ⟨g, hg, hlo, hhi⟩
    exact ⟨g, ⟨g - key / 64, by omega, by omega⟩, hg⟩

theorem poisonAt_eq_none (m : Memory) {key w : Nat} (h : ∀ g ∈ m.poison, g < key / 64 ∨ (key + w + 63) / 64 ≤ g) :
    m.poisonAt key w = none := by
  refine Option.not_isSome_iff_eq_none.1 fun hs => ?_
  obtain ⟨g, hg, hlo, hhi⟩ := (poisonAt_isSome m key w).1 hs
  rcases h g hg with h | h <;> omega

theorem heldAt_eq_none {path : Path} {key w : Nat}
    (h : ∀ x ∈ s.held, x.agent = s.turn → x.path = path → ¬(x.key ≤ key ∧ key + w ≤ x.key + x.bytes.length)) :
    s.heldAt s.turn path key w = none := by
  refine Option.map_eq_none_iff.2 (List.find?_eq_none.2 fun x hx hc => ?_)
  simp only [Held.covers, Bool.and_eq_true, beq_iff_eq, decide_eq_true_eq] at hc
  obtain ⟨⟨⟨ha, hp⟩, hlo⟩, hhi⟩ := hc
  exact h x hx ha hp ⟨hlo, hhi⟩

/-- The marks of a read whose path holds no bytes for it: poison first, then an error of the location. -/
theorem readMark_anew {path : Path} {key w : Nat} (h : s.heldAt s.turn path key w = none) (va : DWord) :
    s.readMark path va key w = if (s.mem.poisonAt key w).isSome then some ⟨granuleOf va, 0x09⟩
      else if !s.served key false then some ⟨granuleOf va, 0x0A⟩ else none := by
  rw [State.readMark, State.markOf, h]
  exact if_neg Bool.false_ne_true

end

/-! ## Deferred errors -/

section
variable {s : State}

theorem defer_deferred (path : Path) (va : DWord) (c : Byte) (k : AKind) (lane : Nat) :
    (s.defer path va c k lane).cur.deferred
      = s.cur.deferred ++ [⟨va, c, BitVec.ofNat 2 k.code, BitVec.ofNat 4 lane, path⟩] :=
  congrArg Agent.deferred (s.agent_mapAgent s.turn _)

/-- The write of an element that memory does not serve is deferred. -/
theorem storePlain_unserved {key : Nat} (hs : s.served key true = false) (path : Path) (va : DWord) (lane : Nat) (clean : Bool)
    (bs : List Byte) : s.storePlain path va key lane clean bs = s.defer path va 0x0A .write lane := by
  rw [State.storePlain, State.storeAs, if_neg (by simp [hs])]

theorem storeNow_unserved {key : Nat} (hs : s.served key true = false) (k : AKind) (va : DWord) (bs : List Byte) :
    s.storeNow k va key bs = s.defer .own va 0x0A k 0 := by
  rw [State.storeNow, if_neg (by simp [hs])]

/-- The subcode of a deferred error has bit 6 set. -/
theorem deferredSub_bit (k : BitVec 2) (l : BitVec 4) : (BitVec.ofNat 8 (0x40 + 16 * k.toNat + l.toNat)).getLsbD 6 = true := by
  revert k l
  decide

end

section
variable {s : State}

/-- `rel.all` is stopped by the agent's oldest error where its path is the agent's own. -/
theorem execRelAll_stops {e : Deferred} {es : List Deferred} (hd : s.cur.deferred = e :: es) (he : e.path = .own)
    (hp : s.pend = []) (c : Scope) : ∃ (u : State) (q : TrapReq), u.cur.deferred = es ∧
      execRelAll c s = .next { u.takeTrap q with verdict := .trapped false } ∧
      q.cause = e.cause ∧ q.addr = e.addr ∧ q.sub.getLsbD 6 = true ∧ q.deferred = true := by
  have hfind : (s.cur.deferred.find? fun d => d.path == .own) = some e := by
    rw [hd, List.find?_cons_of_pos (by simp [he])]
  refine ⟨s.mapCur fun a => { a with deferred := a.deferred.erase e },
    { s.trapAt e.cause (BitVec.ofNat 8 (0x40 + 16 * e.kind.toNat + e.lane.toNat)) e.addr with deferred := true }, ?_, ?_,
    rfl, rfl, deferredSub_bit .., rfl⟩
  · rw [State.cur_mapCur, hd, List.erase_cons_head]
  · simp [execRelAll, State.finishWaiting, heldBack_nil hp, failPending_nil hp, State.deferredStop, hfind]

end

/-- Settles O17: with no access out of order each is its own access alone; marks and deferred errors are cases of
`State.markOf` and of the stores. -/
theorem loadStore : Obligations.LoadStore := by
  unfold Obligations.LoadStore
  refine ⟨fun s sc d bp sz c o off key hb hd ho => ⟨fun hm ha => ?_, fun hm ha hs how hv => ?_, ?_⟩,
    fun s path va key w hheld => ⟨fun hp => ?_, fun hp hs => ?_, fun hp hs => ?_⟩,
    fun s path clean va key lane bs c e es hl => ⟨fun hs t ht => ?_, fun hs => ⟨?_, ?_⟩, fun hd he hp => ?_, fun hd ho => ?_⟩⟩
  case refine_1 => exact (execLd_orderly ho hd hb hm ha sc d c o).trans (congrArg _ (loadResult_orderly ho sc d sz _ key))
  case refine_2 =>
    have hbytes : bytesOf sz.bytes (if sz = Size.d then (s.val64 d).toNat else (s.val32 d).toNat)
        = bytesOf sz.bytes (if decide (sz = .d) then s.val64 d else (s.val32 d).setWidth 64).toNat := by
      rw [toNat_rdSz]
      simp only [decide_eq_true_eq]
    have hval := rdSz_ok_of_width (s := s) (wide := decide (sz = .d)) (o := d) (by simpa using hv)
    cases o with
    | false =>
      refine ⟨s.rels, fun _ => rfl, (execSt_plain ho hb hm ha hs (how.resolve_left Bool.false_ne_true) hval c).trans ?_⟩
      rw [← hbytes]
      rfl
    | true =>
      obtain ⟨l, hl⟩ := execSt_release ho hd hb hm ha hs hval c
      refine ⟨l, fun h => absurd h.symm Bool.false_ne_true, hl.trans ?_⟩
      rw [← hbytes]
      rfl
  case refine_3 =>
    change execPref bp off s = _
    rw [execPref, rdBase_ok hb]
    rfl
  case refine_4 =>
    rw [readMark_anew (heldAt_eq_none hheld), if_pos ((poisonAt_isSome ..).2 hp), granuleOf_eq]
  case refine_5 =>
    rw [readMark_anew (heldAt_eq_none hheld), poisonAt_eq_none _ hp, Option.isSome_none, if_neg Bool.false_ne_true,
      if_pos (by simp [hs]), granuleOf_eq]
  case refine_6 =>
    rw [readMark_anew (heldAt_eq_none hheld), poisonAt_eq_none _ hp, Option.isSome_none, if_neg Bool.false_ne_true,
      if_neg (by simp [hs])]
  case refine_7 =>
    rw [storePlain_unserved hs, storeNow_unserved hs] at ht
    rcases List.mem_pair.1 ht with rfl | rfl <;> exact ⟨rfl, rfl⟩
  case refine_8 => rw [storePlain_unserved hs, defer_deferred]; rfl
  case refine_9 => rw [storeNow_unserved hs, defer_deferred]; rfl
  case refine_10 => exact execRelAll_stops hd he hp c
  case refine_11 => exact execRelAll_orderly ho hd c

end Sys2Proof.Machine
end

section
/-! Atomics (R152, R153) with no access out of order. -/

namespace Sys2Proof.Machine

/-- The bytes of an atomic's location. -/
def amoBytes (wide : Bool) : Nat := if wide then 8 else 4

/-- The releases that are noted once an atomic of this order has written. -/
def State.relsBy (s : State) (c : Scope) (o : MOrd) (va : DWord) (key : Nat) : List Rel :=
  if releases o then (s.noteRelease (s.relOf c va key)).rels else s.rels

section
variable {s : State}

theorem relsBy_of_not_releases {o : MOrd} (h : o = .plain ∨ o = .acq) (c : Scope) (va : DWord) (key : Nat) :
    s.relsBy c o va key = s.rels := by
  rcases h with rfl | rfl <;> rfl

/-- Noting a release changes nothing else. -/
theorem noteRelease_eq (r : Rel) : s.noteRelease r = { s with rels := (s.noteRelease r).rels } := by
  unfold State.noteRelease
  split <;> rfl

theorem noteReleases_relsBy (c : Scope) (o : MOrd) (va : DWord) (key : Nat) :
    s.noteReleases (if releases o then some (s.relOf c va key) else none) = { s with rels := s.relsBy c o va key } := by
  cases h : releases o with
  | true => rw [State.relsBy, if_pos rfl, if_pos h]; exact noteRelease_eq _
  | false => rw [State.relsBy, if_neg Bool.false_ne_true, if_neg (by simp [h])]; rfl

/-- The location of an atomic answers: its result has no mark. -/
theorem atomicMark_none (hh : s.held = []) {key w : Nat} (hr : s.served key false = true) (hw : s.served key true = true)
    (hp : s.mem.poisonAt key w = none) (va : DWord) : s.atomicMark s.turn va key w = none := by
  simp [State.atomicMark, State.markOf, State.heldAt, hh, hp, hr, hw]

theorem storeNow_orderly (ho : Orderly s) {key : Nat} (hw : s.served key true = true) (k : AKind) (va : DWord)
    (bs : List Byte) : s.storeNow k va key bs = s.wr key bs := by
  obtain ⟨hp, hr, hh, -, -⟩ := ho
  rw [State.storeNow, if_pos hw, State.flushAt, flushWhere_none (by simp [hp]), State.readsAt]
  rw [show (s.readsWhere fun r x => r.agent == s.turn && r.path == .own && meets x.2.2 r.w key bs.length) = s by
    simp [State.readsWhere, hr], noteWrite_quiet hr hh]

end

section
variable {s : State} {d a b x : Opnd} {wide : Bool} {key : Nat} {o : MOrd}

/-- What an atomic leaves, by the value that its operation writes. -/
def State.amoDone (s : State) (sc : Sched) (d : Opnd) (c : Scope) (o : MOrd) (wide : Bool) (va : DWord) (key : Nat) :
    Option Nat → State
  | some y => ({ s with rels := s.relsBy c o va key }.wr key (bytesOf (amoBytes wide) y)).putM sc d wide 32
      (BitVec.ofNat 64 (s.rdNat key (amoBytes wide))) none
  | none => s.putM sc d wide 32 (BitVec.ofNat 64 (s.rdNat key (amoBytes wide))) none

/-- The atomic itself, once its release is noted. -/
theorem atomicAt_relsBy (ho : Orderly s) {sc : Sched} {c : Scope} {va : DWord} (hr : s.served key false = true)
    (hw : s.served key true = true) (hp : s.mem.poisonAt key (amoBytes wide) = none) (p : AmoOp) (v y : Nat) :
    (s.noteReleases (if (releases o && (p.new (amoBytes wide) (s.rdNat key (amoBytes wide)) v y).isSome) = true
      then some (s.relOf c va key) else none)).atomicAt sc d wide p va key v y
      = s.amoDone sc d c o wide va key (p.new (amoBytes wide) (s.rdNat key (amoBytes wide)) v y) := by
  have hmark : ∀ l, ({ s with rels := l } : State).atomicMark s.turn va key (amoBytes wide) = none :=
    fun l => atomicMark_none (s := { s with rels := l }) ho.2.2.1 hr hw hp va
  have hstore : ∀ l bs, ({ s with rels := l } : State).storeNow .atomic va key bs = { s with rels := l }.wr key bs :=
    fun l bs => storeNow_orderly (s := { s with rels := l }) ho hw .atomic va bs
  cases hnew : p.new (amoBytes wide) (s.rdNat key (amoBytes wide)) v y with
  | none =>
    simp only [Option.isSome_none, Bool.and_false, Bool.false_eq_true, if_false]
    change s.atomicAt sc d wide p va key v y = _
    have hnone : s.atomicMark s.turn va key (amoBytes wide) = none := hmark s.rels
    simp only [State.atomicAt, ← amoBytes.eq_1, hnone, hnew]
    rfl
  | some z =>
    rw [Option.isSome_some, Bool.and_true, noteReleases_relsBy]
    have hnone := hmark (s.relsBy c o va key)
    have hread : ({ s with rels := s.relsBy c o va key } : State).rdNat key (amoBytes wide) = s.rdNat key (amoBytes wide) := rfl
    simp only [State.atomicAt, ← amoBytes.eq_1, hread, hnone, hnew, hstore]
    rfl

/-- An atomic at a location that answers writes what its operation gives and delivers the old value. -/
theorem amo_orderly (ho : Orderly s) (hd : s.cur.deferred = []) (ha : Readable s a .w64) {v y : DWord}
    (hv : s.rdSz wide b = .ok v) (hy : s.rdSz wide x = .ok y) (hm : Mapped s (s.val64 a))
    (hk : s.access .atomic (s.val64 a) (amoBytes wide) 0 = .ok key) (hr : s.served key false = true)
    (hw : s.served key true = true) (hp : s.mem.poisonAt key (amoBytes wide) = none) (sc : Sched) (c : Scope) (p : AmoOp) :
    s.amo sc d a b x c o wide p = .next (s.amoDone sc d c o wide (s.val64 a) key
      (p.new (amoBytes wide) (s.rdNat key (amoBytes wide)) v.toNat y.toNat)) := by
  obtain ⟨hpend, -, hh, hl, -⟩ := id ho
  have hfinish : ∀ r, (if o = .plain then s.finish else s.finishWaiting (· == .own)) r = s.finish r := fun r => by
    split
    · rfl
    · exact finishWaiting_eq hd hpend _ r
  have hhome : s.atHome key (amoBytes wide) = s := dropAt_noneHeld hh ..
  have hbefore : ∀ rel : Option Rel, (if rel.isSome then s.beforeRelease c else s) = s := fun rel => by
    rw [beforeRelease_orderly ho, ite_self]
  have hat := atomicAt_relsBy (sc := sc) (d := d) (c := c) (o := o) (va := s.val64 a) ho hr hw hp p v.toNat y.toNat
  have hafter : ∀ n, (if acquires o then (s.amoDone sc d c o wide (s.val64 a) key n).usedLate.acquire c key
      else (s.amoDone sc d c o wide (s.val64 a) key n).usedLate) = s.amoDone sc d c o wide (s.val64 a) key n := fun n => by
    have hlate : (s.amoDone sc d c o wide (s.val64 a) key n).oracle.late = [] := by cases n <;> exact hl
    have hheld : (s.amoDone sc d c o wide (s.val64 a) key n).held = [] := by cases n <;> exact hh
    rw [usedLate_none hlate, acquire_noneHeld hheld, ite_self]
  unfold State.amo
  rw [hfinish]
  simp only [rd64_ok ha, hv, hy, bind, Except.bind, ← amoBytes.eq_1, hk, State.unowed, heldBack_nil hpend,
    Bool.false_eq_true, if_false, State.reading_orderly ho hm, hhome, hbefore, lateMask_none hl, Bool.false_and, pure,
    Except.pure, finish_ok, hat, hafter]

/-- The comparison of signed atomics is that of two's-complement numbers of the width. -/
theorem sgnW_eq (wide : Bool) (y : Nat) :
    sgnW (8 * amoBytes wide) y = if wide then (BitVec.ofNat 64 y).toInt else (BitVec.ofNat 32 y).toInt := by
  cases wide with
  | true =>
    simp only [sgnW, amoBytes, if_true, BitVec.toInt, BitVec.toNat_ofNat]
    omega
  | false =>
    simp only [sgnW, amoBytes, Bool.false_eq_true, if_false, BitVec.toInt, BitVec.toNat_ofNat]
    omega

end

theorem new_minn (w y z x : Nat) : AmoOp.minn.new w y z x = some (Min.min y z) :=
  congrArg some (by split <;> omega)

theorem new_maxn (w y z x : Nat) : AmoOp.maxn.new w y z x = some (Max.max y z) :=
  congrArg some (by split <;> omega)

/-- Settles O18: each atomic is the model's `State.amo` with its operation. -/
theorem atomics : Obligations.Atomics := by
  unfold Obligations.Atomics
  intro s sc d a b x c o wide key ha hb hx hd ho hm w val old signed done hk hr hw hp
  have hsp : Readable s (.sp 0) (if wide then .w64 else .w32) := readable_sp s 0 _
  have hval : ∀ z, (if wide then s.val64 z else (s.val32 z).setWidth 64).toNat = val z := toNat_rdSz wide
  have hamo : ∀ z, Readable s z (if wide then .w64 else .w32) → ∀ (p : AmoOp) (n : Option Nat),
      p.new w old (val b) (val z) = n → s.amo sc d a b z c o wide p
        = .next (s.amoDone sc d c o wide (s.val64 a) key n) := fun z hz p n hn => by
    rw [amo_orderly ho hd ha (rdSz_ok_of_width hb) (rdSz_ok_of_width hz) hm hk hr hw hp, hval, hval, ← hn]
    rfl
  have hlt : sgnW (8 * w) old < sgnW (8 * w) (val b) ↔ signed old < signed (val b) := by
    rw [show w = amoBytes wide from rfl, sgnW_eq, sgnW_eq]
  refine ⟨s.relsBy c o (s.val64 a) key, fun h => relsBy_of_not_releases h .., hamo _ hsp .add _ rfl, hamo _ hsp .swp _ rfl,
    ?_, hamo _ hsp .min (some _) ?_, hamo _ hsp .max (some _) ?_, hamo _ hsp .minn _ (new_minn ..), hamo _ hsp .maxn _ (new_maxn ..),
    hamo _ hsp .and _ rfl, hamo _ hsp .or _ rfl, hamo _ hsp .xor _ rfl⟩
  · refine (hamo x hx .cas _ rfl).trans ?_
    simp only [AmoOp.new]
    split <;> rfl
  · simp only [AmoOp.new, decide_eq_true_eq, hlt]
  · simp only [AmoOp.new, decide_eq_true_eq, hlt]

end Sys2Proof.Machine
end

section
/-! Vector loads, gathers, stores and scatters (R144, R154 to R156) with no access out of order. -/

namespace Sys2Proof.Machine

/-- Lanes with the keys they go to. -/
def keyed (key : Nat → Nat) (l : List Nat) : List (Nat × Nat) := l.map fun i => (i, key i)

theorem lookup_keyed (key : Nat → Nat) (l : List Nat) (i : Nat) :
    (keyed key l).lookup i = if i ∈ l then some (key i) else none := by
  induction l with
  | nil => rfl
  | cons j l ih =>
    rw [keyed, List.map_cons, List.lookup_cons]
    by_cases h : i = j
    · simp [h]
    · rw [show (i == j) = false by simpa using h]
      simpa [h, keyed] using ih

section
variable {s : State}

/-- Lanes whose accesses all pass their checks. -/
theorem accessLanes_ok {k : AKind} {w : Nat} {addr : Nat → DWord} {key : Nat → Nat} {l : List Nat}
    (h : ∀ i ∈ l, s.access k (addr i) w i = .ok (key i)) : s.accessLanes k w addr l = .ok (keyed key l) := by
  induction l with
  | nil => rfl
  | cons i l ih =>
    rw [State.accessLanes, h i List.mem_cons_self, ih fun j hj => h j (List.mem_cons_of_mem _ hj)]
    rfl

/-! ## Loads -/

theorem foldl_beforeRead_orderly (ho : Orderly s) (path : Path) (w : Nat) (ks : List (Nat × Nat)) :
    ks.foldl (fun t p => t.beforeRead path p.2 w) s = s := by
  induction ks with
  | nil => rfl
  | cons p ks ih => rw [List.foldl_cons, beforeRead_orderly ho, ih]

theorem lateLanes_none (h : s.oracle.lateReads = []) (w : Nat) (ks : List (Nat × Nat)) : s.lateLanes w ks = [] := by
  unfold State.lateLanes
  induction ks with
  | nil => rfl
  | cons p ks ih =>
    rw [List.foldl_cons, lateRead_none h, List.any_nil, Bool.or_self, if_neg Bool.false_ne_true]
    exact ih

theorem lanesVec_orderly (ho : Orderly s) (path : Path) (w : Nat) (act : BitVec 16) (key : Nat → Nat) :
    s.lanesVec path w (keyed key (lanesOf act)) = lanesUnder act fun i => BitVec.ofNat 32 (s.rdNat (key i) w) := by
  refine mkVec_congr fun i hi => ?_
  simp only [lookup_keyed, mem_lanesOf, hi, true_and, view_orderly ho, State.rdNat]
  split <;> simp_all

theorem lanesMark_keyed (path : Path) (w : Nat) (addr : Nat → DWord) (key : Nat → Nat) (l : List Nat) :
    (s.lanesMark path w addr (keyed key l)).map (·.2) = l.findSome? fun i => s.readMark path (addr i) (key i) w := by
  induction l with
  | nil => rfl
  | cons i l ih =>
    rw [State.lanesMark, keyed, List.map_cons, List.findSome?_cons, List.findSome?_cons]
    cases s.readMark path (addr i) (key i) w with
    | some m => rfl
    | none => exact ih

/-- A load of lanes delivers every active lane's element, with the mark of the lowest marked lane. -/
theorem loadLanes_orderly (ho : Orderly s) {w : Nat} {addr : Nat → DWord} {key : Nat → Nat} {m : BitVec 3}
    (h : ∀ i, i < 16 → (s.cur.mask m).getLsbD i = true → Mapped s (addr i) ∧ s.access .read (addr i) w i = .ok (key i))
    (path : Path) (sc : Sched) (d : Opnd) (nominal : Nat) :
    s.loadLanes path sc d nominal w addr m = .ok (s.putVM sc d nominal
      (lanesUnder (s.cur.mask m) fun i => BitVec.ofNat 32 (s.rdNat (key i) w))
      ((lanesOf (s.cur.mask m)).findSome? fun i => s.readMark path (addr i) (key i) w)) := by
  have hon : ∀ i ∈ lanesOf (s.cur.mask m), Mapped s (addr i) ∧ s.access .read (addr i) w i = .ok (key i) := fun i hi =>
    h i (mem_lanesOf.1 hi).1 (mem_lanesOf.1 hi).2
  have hkeyed : ∀ p ∈ keyed key (lanesOf (s.cur.mask m)), Mapped s (addr p.1) := fun p hp => by
    obtain ⟨i, hi, rfl⟩ := List.mem_map.1 hp
    exact (hon i hi).1
  simp only [State.loadLanes, accessLanes_ok fun i hi => (hon i hi).2, bind, Except.bind, noteLanes_mapped hkeyed,
    foldl_beforeRead_orderly ho, lateLanes_none ho.2.2.2.2, List.map_nil, readLater_none ho.2.2.2.2, lanesVec_orderly ho,
    List.contains_nil, Bool.not_false, List.filter_true, lanesMark_keyed, pure, Except.pure]

/-! ## Stores -/

theorem refusedLane_none {key : Nat → Nat} {l : List Nat} (h : ∀ i ∈ l, s.served (key i) true = true) :
    s.refusedLane (keyed key l) = none := by
  refine Option.map_eq_none_iff.2 (List.find?_eq_none.2 fun p hp => ?_)
  obtain ⟨i, hi, rfl⟩ := List.mem_map.1 hp
  simp [h i hi]

/-- Where memory serves every lane each is stored, in ascending order. -/
theorem storeLanes_served {key : Nat → Nat} {l : List Nat} (h : ∀ i ∈ l, s.served (key i) true = true) (path : Path) (w : Nat)
    (addr : Nat → DWord) (v : Vec) (whole : Bool) : s.storeLanes path w addr v whole (keyed key l)
      = (l.foldl (fun t i => t.storePlain path (addr i) (key i) i (whole && decide (i = 15)) (bytesOf w (lane v i).toNat))
          s).usedLate := by
  have hbad := refusedLane_none h
  have hwhole : s.wholeGranule whole (keyed key l) = whole := by simp [State.wholeGranule, hbad]
  unfold State.storeLanes
  rw [hwhole, hbad, keyed]
  dsimp only
  rw [List.foldl_map]
  refine congrArg _ (List.foldl_ext _ _ _ fun t i hi => ?_)
  simp [h i hi]

/-- Nothing holds a plain write of this path back, whatever memory holds. -/
def Free (s : State) (path : Path) : Prop := path ≠ .own ∨ NoneOwed s

/-- A plain write that nothing holds back writes its bytes, and cleans the granule that it writes whole. -/
theorem storePlain_orderly (ho : Orderly s) {path : Path} (hf : Free s path) {key : Nat} (hs : s.served key true = true)
    (va : DWord) (lane : Nat) (clean : Bool) (bs : List Byte) : s.storePlain path va key lane clean bs
      = if clean then { s.wr key bs with mem := (s.wr key bs).mem.cleanGranule (key / 64) } else s.wr key bs := by
  have howed := hf.elim (fun hp => owed_eq_false_of (s := s)
    ⟨s.turn, path, va, lane, key, bs, clean, none, s.workBank.uid, .plain⟩ (.inl hp)) fun hn => owed_of_noneOwed hn rfl
  rw [State.storePlain, storeAs_orderly ho hs howed, perform_plain_orderly ho rfl hs]

/-- Plain writes in a row, none of which cleans a granule. -/
theorem foldl_storePlain_orderly {path : Path} {addr : Nat → DWord} {key : Nat → Nat} {clean : Nat → Bool}
    {bytes : Nat → List Byte} {l : List Nat} {s : State} (ho : Orderly s) (hf : Free s path)
    (hs : ∀ i ∈ l, s.served (key i) true = true) (hc : ∀ i ∈ l, clean i = false) :
    l.foldl (fun t i => t.storePlain path (addr i) (key i) i (clean i) (bytes i)) s
      = l.foldl (fun (u : State) i => u.wr (key i) (bytes i)) s := by
  induction l generalizing s with
  | nil => rfl
  | cons i l ih =>
    rw [List.foldl_cons, List.foldl_cons, storePlain_orderly ho hf (hs i List.mem_cons_self), hc i List.mem_cons_self,
      if_neg Bool.false_ne_true]
    exact ih ho hf (fun j hj => hs j (List.mem_cons_of_mem _ hj)) fun j hj => hc j (List.mem_cons_of_mem _ hj)

/-- Writes in a row leave every byte outside all of them. -/
theorem read_foldl_wr {key : Nat → Nat} {bytes : Nat → List Byte} {l : List Nat} {s : State} {b : Nat}
    (h : ∀ i ∈ l, b < key i ∨ key i + (bytes i).length ≤ b) :
    (l.foldl (fun (u : State) i => u.wr (key i) (bytes i)) s).mem.read b = s.mem.read b := by
  induction l generalizing s with
  | nil => rfl
  | cons i l ih =>
    rw [List.foldl_cons, ih fun j hj => h j (List.mem_cons_of_mem _ hj)]
    exact Memory.read_writeN_out _ _ _ _ (h i List.mem_cons_self)

theorem foldl_wr_eq {key : Nat → Nat} {bytes : Nat → List Byte} (l : List Nat) (s : State) :
    ∃ m, l.foldl (fun (u : State) i => u.wr (key i) (bytes i)) s = { s with mem := m } := by
  induction l generalizing s with
  | nil => exact ⟨s.mem, rfl⟩
  | cons i l ih => exact ih (s.wr (key i) (bytes i))

theorem length_bytesOf (n x : Nat) : (bytesOf n x).length = n := by
  induction n generalizing x with
  | zero => rfl
  | succ n ih => rw [bytesOf, List.length_cons, ih]

end

/-! ## The lane that memory does not serve -/

/-- All that stands out of order is plain writes of the own path of the agent at issue. -/
structure OnlyPlain (s : State) : Prop where
  reads : s.reads = []
  held : s.held = []
  late : s.oracle.late = []
  pend : ∀ e ∈ s.pend, e.agent = s.turn ∧ e.path = .own ∧ e.kind = .plain

/-- A plain write lets plain writes of its path wait. -/
theorem OnlyPlain.flushWhere {s : State} (h : OnlyPlain s) {e : PendW} (hp : e.path = .own) (hk : e.kind = .plain) :
    (s.flushWhere fun f => f.touches e.key e.bytes.length &&
      ((f.agent == s.turn && (f.path != e.path || !e.plain || !f.plain) && (f.path == e.path || f.seen.isSome))
        || (f.agent != s.turn && f.seenAt 1))) = s := by
  refine flushWhere_none fun f hf => ?_
  obtain ⟨ha, hpath, hkind⟩ := h.pend f hf
  simp [ha, hpath, hkind, hp, hk, PendW.plain]

/-- Such a write changes memory or waits; nothing else happens. -/
theorem OnlyPlain.storePlain {s : State} (h : OnlyPlain s) {key : Nat} (hs : s.served key true = true) (va : DWord) (lane : Nat)
    (bs : List Byte) : ∃ m q, s.storePlain .own va key lane false bs = { s with mem := m, pend := q } ∧
      OnlyPlain { s with mem := m, pend := q } := by
  have hreads : (s.readsAt s.turn .own key bs.length) = s := by simp [State.readsAt, State.readsWhere, h.reads]
  rw [State.storePlain, State.storeAs, if_pos hs, lateMask_none h.late, State.request, h.flushWhere rfl rfl, hreads,
    dropAt_noneHeld h.held]
  split
  · refine ⟨s.mem, _, rfl, h.reads, h.held, h.late, fun e he => ?_⟩
    rcases List.mem_append.1 he with he | he
    · exact h.pend e he
    · obtain rfl := List.mem_singleton.1 he
      exact ⟨rfl, rfl, rfl⟩
  · refine ⟨(s.wr key bs).mem, s.pend, ?_, h.reads, h.held, h.late, h.pend⟩
    simp only [State.perform, hs, if_true, State.land, noteWrite_quiet h.reads h.held, Bool.false_eq_true, if_false]
    rfl

/-- Stores of lanes that memory serves change memory and pending writes alone. -/
theorem OnlyPlain.foldl_storePlain {addr : Nat → DWord} {key : Nat → Nat} {bytes : Nat → List Byte}
    {c : Nat → Bool} {l : List Nat} {s : State} (h : OnlyPlain s) (hs : ∀ i ∈ l, c i = true → s.served (key i) true = true) :
    ∃ m q, l.foldl (fun t i => if c i then t.storePlain .own (addr i) (key i) i false (bytes i) else t) s
        = { s with mem := m, pend := q } ∧ OnlyPlain { s with mem := m, pend := q } := by
  induction l generalizing s with
  | nil => exact ⟨s.mem, s.pend, rfl, h⟩
  | cons i l ih =>
    have hl : ∀ j ∈ l, c j = true → s.served (key j) true = true := fun j hj => hs j (List.mem_cons_of_mem _ hj)
    rw [List.foldl_cons]
    by_cases hi : c i = true
    · obtain ⟨m, q, he, hq⟩ := h.storePlain (hs i List.mem_cons_self hi) (addr i) i (bytes i)
      rw [if_pos hi, he]
      exact ih hq hl
    · rw [if_neg hi]
      exact ih h hl

theorem noteLanes_eq (s : State) (addr : Nat → DWord) (ks : List (Nat × Nat)) :
    ∃ ws, s.noteLanes addr ks = { s with walks := ws } := by
  unfold State.noteLanes
  induction ks generalizing s with
  | nil => exact ⟨s.walks, rfl⟩
  | cons p ks ih =>
    obtain ⟨ws, hw⟩ : ∃ ws, s.noteWalk (addr p.1) = { s with walks := ws } := by
      unfold State.noteWalk
      split
      · exact ⟨_, rfl⟩
      · exact ⟨s.walks, rfl⟩
    obtain ⟨us, hu⟩ := ih { s with walks := ws }
    exact ⟨us, by rw [List.foldl_cons, hw, hu]⟩

/-- Of the lanes that memory does not serve the lowest alone is reported. -/
theorem storeLanes_refused {s : State} (h : OnlyPlain s) {l : List Nat} (hl : l.Pairwise (· < ·)) {key : Nat → Nat} {i : Nat}
    (hi : i ∈ l) (hs : s.served (key i) true = false) (hlow : ∀ j ∈ l, j < i → s.served (key j) true = true) (w : Nat)
    (addr : Nat → DWord) (v : Vec) (whole : Bool) :
    (s.storeLanes .own w addr v whole (keyed key l)).cur.deferred
      = s.cur.deferred ++ [⟨addr i, 0x0A, 1, BitVec.ofNat 4 i, .own⟩] := by
  obtain ⟨l₁, l₂, rfl⟩ := List.append_of_mem hi
  obtain ⟨-, hl₂, hl₁⟩ := List.pairwise_append.1 hl
  have hbelow : ∀ j ∈ l₁, s.served (key j) true = true := fun j hj =>
    hlow j (List.mem_append_left _ hj) (hl₁ j hj i List.mem_cons_self)
  have habove : ∀ j ∈ l₂, j ≠ i := fun j hj => ((List.pairwise_cons.1 hl₂).1 j hj).ne'
  have hbad : s.refusedLane (keyed key (l₁ ++ i :: l₂)) = some i := by
    have hnone : (keyed key l₁).find? (fun p => !s.served p.2 true) = none := Option.map_eq_none_iff.1 (refusedLane_none hbelow)
    rw [State.refusedLane, keyed, List.map_append, List.find?_append, ← keyed, hnone, List.map_cons,
      List.find?_cons_of_pos (by simp [hs])]
    rfl
  have hclean : s.wholeGranule whole (keyed key (l₁ ++ i :: l₂)) = false := by simp [State.wholeGranule, hbad]
  have hstep : ∀ (t : State) (j : Nat), (if (s.served (key j) true || some i == some j) = true then
      t.storePlain .own (addr j) (key j) j (false && decide (j = 15)) (bytesOf w (lane v j).toNat) else t)
      = if (s.served (key j) true || some i == some j) = true then
        t.storePlain .own (addr j) (key j) j false (bytesOf w (lane v j).toNat) else t := fun t j => by rw [Bool.false_and]
  have hfold : s.storeLanes .own w addr v whole (keyed key (l₁ ++ i :: l₂)) = ((l₁ ++ i :: l₂).foldl
      (fun t j => if (s.served (key j) true || some i == some j) = true then
        t.storePlain .own (addr j) (key j) j false (bytesOf w (lane v j).toNat) else t) s).usedLate := by
    unfold State.storeLanes
    rw [hclean, hbad, keyed]
    dsimp only
    rw [List.foldl_map]
    simp only [hstep]
  have hserved : ∀ j, j ∈ l₂ → (s.served (key j) true || some i == some j) = true → s.served (key j) true = true := by
    intro j hj hc
    have hne : (some i == some j) = false := by simpa using (habove j hj).symm
    rwa [hne, Bool.or_false] at hc
  obtain ⟨m₁, q₁, he₁, hp₁⟩ := h.foldl_storePlain (addr := addr) (bytes := fun j => bytesOf w (lane v j).toNat)
    (c := fun j => s.served (key j) true || some i == some j) fun j hj _ => hbelow j hj
  obtain ⟨m₂, q₂, he₂, -⟩ := OnlyPlain.foldl_storePlain
    (s := State.defer { s with mem := m₁, pend := q₁ } .own (addr i) 0x0A .write i) (l := l₂) (addr := addr) (key := key) (bytes := fun j => bytesOf w (lane v j).toNat)
    (c := fun j => s.served (key j) true || some i == some j) ⟨hp₁.reads, hp₁.held, hp₁.late, hp₁.pend⟩ hserved
  have hdefer : State.storePlain { s with mem := m₁, pend := q₁ } .own (addr i) (key i) i false (bytesOf w (lane v i).toNat)
      = State.defer { s with mem := m₁, pend := q₁ } .own (addr i) 0x0A .write i :=
    storePlain_unserved (s := { s with mem := m₁, pend := q₁ }) hs ..
  rw [hfold, List.foldl_append, he₁, List.foldl_cons, if_pos (by simp), hdefer, he₂]
  exact defer_deferred (s := { s with mem := m₁, pend := q₁ }) .own (addr i) 0x0A .write i

/-! ## The statement -/

section
variable {s : State} {bp : BitVec 4} (hb : Readable s (baseOp bp) .w64)
include hb

theorem execVld_of_lanes (sc : Sched) (d : Opnd) (sz : VSize) (m : BitVec 3) (off : BitVec 24) {t : State}
    (h : s.loadLanes .own sc d 6 sz.bytes (rowAddr (effAddr (s.val64 (baseOp bp)) off) sz.bytes) m = .ok t) :
    execVld sc d bp sz m off s = .next t := by
  simp only [execVld, rdBase_ok hb, bind, Except.bind, h, finish_ok]

theorem execVldg_of_lanes {X : Opnd} (hX : Readable s X .vec) (sc : Sched) (d : Opnd) (sz : VSize) (m : BitVec 3)
    (off : BitVec 17) {t : State}
    (h : s.loadLanes .ga sc d 12 sz.bytes (gatherAddr (s.val64 (baseOp bp)) off sz.bytes (s.valV 1 X)) m = .ok t) :
    execVldg sc d bp sz m X off s = .next t := by
  simp only [execVldg, rdBase_ok hb, rdV_ok hX, bind, Except.bind, h, finish_ok]

theorem execVst_of_lanes {D : Opnd} (hD : Readable s D .vec) (sz : VSize) (m : BitVec 3) (off : BitVec 24)
    {ks : List (Nat × Nat)} (h : s.accessLanes .write sz.bytes (rowAddr (effAddr (s.val64 (baseOp bp)) off) sz.bytes)
      (lanesOf (s.cur.mask m)) = .ok ks) :
    execVst D bp sz m off s = .next ((s.noteLanes (rowAddr (effAddr (s.val64 (baseOp bp)) off) sz.bytes) ks).storeLanes .own
      sz.bytes (rowAddr (effAddr (s.val64 (baseOp bp)) off) sz.bytes) (s.valV 1 D)
      (isWhole sz (s.cur.mask m) (effAddr (s.val64 (baseOp bp)) off)) ks) := by
  simp only [execVst, rdBase_ok hb, rdV_ok hD, bind, Except.bind, h, pure, Except.pure, finish_ok]

theorem execVsts_of_lanes {X D : Opnd} (hX : Readable s X .vec) (hD : Readable s D .vec) (sz : VSize) (m : BitVec 3)
    (off : BitVec 17) {ks : List (Nat × Nat)}
    (h : s.accessLanes .write sz.bytes (gatherAddr (s.val64 (baseOp bp)) off sz.bytes (s.valV 1 X))
      (lanesOf (s.cur.mask m)) = .ok ks) :
    execVsts D bp sz m X off s = .next ((s.noteLanes (gatherAddr (s.val64 (baseOp bp)) off sz.bytes (s.valV 1 X))
      ks).storeLanes .ga sz.bytes (gatherAddr (s.val64 (baseOp bp)) off sz.bytes (s.valV 1 X)) (s.valV 1 D) false ks) := by
  simp only [execVsts, rdBase_ok hb, rdV_ok hX, rdV_ok hD, bind, Except.bind, h, pure, Except.pure, finish_ok]

end

theorem lanesOf_rising (act : BitVec 16) : (lanesOf act).Pairwise (· < ·) :=
  List.Pairwise.filter _ List.pairwise_lt_range

/-- A `vst` of every lane writes the last lane last, and its granule is clean. -/
theorem foldl_storePlain_whole {s : State} (ho : Orderly s) (hf : Free s .own) {addr : Nat → DWord} {key : Nat → Nat}
    {bytes : Nat → List Byte} (hs : ∀ i ∈ lanesOf 0xFFFF, s.served (key i) true = true) :
    (lanesOf 0xFFFF).foldl (fun t i => t.storePlain .own (addr i) (key i) i (true && decide (i = 15)) (bytes i)) s
      = (let stored := (lanesOf 0xFFFF).foldl (fun (u : State) i => u.wr (key i) (bytes i)) s
        { stored with mem := stored.mem.cleanGranule (key 15 / 64) }) := by
  have hl : lanesOf 0xFFFF = List.range 15 ++ [15] := by decide
  rw [hl] at hs ⊢
  obtain ⟨m, hm⟩ := foldl_wr_eq (key := key) (bytes := bytes) (List.range 15) s
  rw [List.foldl_append, List.foldl_append, foldl_storePlain_orderly ho hf
    (fun i hi => hs i (List.mem_append_left _ hi)) fun i hi => by
      have := List.mem_range.1 hi
      simp
      omega, hm]
  exact storePlain_orderly (s := { s with mem := m }) ho hf (hs 15 (by simp)) (addr 15) 15 true (bytes 15)

theorem isWhole_iff (sz : VSize) (act : BitVec 16) (va : DWord) :
    isWhole sz act va = true ↔ sz = .full ∧ act = 0xFFFF ∧ (rowAddr va sz.bytes 0).toNat % 64 = 0 := by
  simp [isWhole, rowAddr, and_assoc]

section
variable {s : State} {w : Nat} {addr : Nat → DWord} {key : Nat → Nat} {act : BitVec 16}
  (ho : Orderly s) (hs : ∀ i ∈ lanesOf act, s.served (key i) true = true)
  (hm : ∀ i ∈ lanesOf act, Mapped s (addr i))
include ho hs hm

/-- Stores of lanes where no access stands out of order and nothing holds them back. -/
theorem storeLanes_orderly {path : Path} (hf : Free s path) (v : Vec) {whole : Bool}
    (hw : whole = true → path = .own ∧ act = 0xFFFF) :
    (s.noteLanes addr (keyed key (lanesOf act))).storeLanes path w addr v whole (keyed key (lanesOf act))
      = (let stored := (lanesOf act).foldl (fun (u : State) i => u.wr (key i) (bytesOf w (lane v i).toNat)) s
        if whole then { stored with mem := stored.mem.cleanGranule (key 15 / 64) } else stored) := by
  have hkeyed : ∀ p ∈ keyed key (lanesOf act), Mapped s (addr p.1) := fun p hp => by
    obtain ⟨i, hi, rfl⟩ := List.mem_map.1 hp
    exact hm i hi
  obtain ⟨m, hstored⟩ := foldl_wr_eq (key := key) (bytes := fun i => bytesOf w (lane v i).toNat) (lanesOf act) s
  rw [noteLanes_mapped hkeyed, storeLanes_served hs]
  cases whole with
  | true =>
    obtain ⟨rfl, rfl⟩ := hw rfl
    rw [foldl_storePlain_whole ho hf hs, hstored]
    exact usedLate_none ho.2.2.2.1
  | false =>
    rw [foldl_storePlain_orderly ho hf hs fun i _ => Bool.false_and _, hstored]
    exact usedLate_none ho.2.2.2.1

end

/-- Settles O33: lanes are accessed one after another in ascending order, each as a load or a store of its element. -/
theorem vectorMemory : Obligations.VectorMemory := by
  unfold Obligations.VectorMemory
  refine ⟨fun s sc d X bp sz m off o17 key hb hX ho => ⟨fun h => ?_, fun h => ?_⟩,
    fun s D X bp sz m off o17 key hb hX hD ho => ⟨fun hs hn h => ?_, fun hs h => ?_, fun i hi hs hlow h => ?_, fun b hb => ?_⟩⟩
  case refine_1 => exact execVld_of_lanes hb sc d sz m off (loadLanes_orderly ho h .own sc d 6)
  case refine_2 => exact execVldg_of_lanes hb hX sc d sz m o17 (loadLanes_orderly ho h .ga sc d 12)
  case refine_3 =>
    refine (execVst_of_lanes hb hD sz m off (accessLanes_ok fun i hi => (h i hi).2)).trans (congrArg _ ?_)
    refine (storeLanes_orderly ho hs (fun i hi => (h i hi).1) (.inr hn) (s.valV 1 D)
      fun hw => ⟨rfl, ((isWhole_iff ..).1 hw).2.1⟩).trans ?_
    simp only [isWhole_iff]
    rfl
  case refine_4 =>
    refine (execVsts_of_lanes hb hX hD sz m o17 (accessLanes_ok fun i hi => (h i hi).2)).trans (congrArg _ ?_)
    exact storeLanes_orderly ho hs (fun i hi => (h i hi).1) (.inl (by decide)) (s.valV 1 D) (whole := false) nofun
  case refine_5 =>
    obtain ⟨ws, hws⟩ := noteLanes_eq s (rowAddr (effAddr (s.val64 (baseOp bp)) off) sz.bytes)
      (keyed key (lanesOf (s.cur.mask m)))
    obtain ⟨hp, hr, hh, hl, -⟩ := ho
    have hplain : OnlyPlain { s with walks := ws } := ⟨hr, hh, hl, by simp [hp]⟩
    refine ⟨_, execVst_of_lanes hb hD sz m off (accessLanes_ok h), ?_⟩
    rw [hws]
    exact storeLanes_refused hplain (lanesOf_rising _) hi hs hlow _ _ _ _
  case refine_6 => exact read_foldl_wr fun i hi => by rw [length_bytesOf]; exact hb i hi

end Sys2Proof.Machine
end

section
/-! Frames of accesses: what ordering accesses may change (R162 to R174), and what a load, a store or an atomic ends with. -/

namespace Sys2Proof.Machine

/-! ## Agents -/

theorem accessAgent_refl (a : Agent) : AccessAgent a a := rfl

theorem accessAgent_trans {a b c : Agent} (h : AccessAgent a b) (h' : AccessAgent b c) : AccessAgent a c := by
  unfold AccessAgent at h h' ⊢
  rw [h] at h'
  exact h'

theorem accessAgent_patch (a : Agent) (uid : Nat) (f : DWord → DWord) (g : Vec → Vec) (m : Option Mark) :
    AccessAgent a (a.patch uid f g m) := rfl

theorem accessAgent_defer (a : Agent) (ds : List Deferred) : AccessAgent a { a with deferred := ds } := rfl

theorem accessAgent_bun (a : Agent) (b : Bun) (ds : List Deferred) : AccessAgent a { a with bun := b, deferred := ds } := rfl

/-! ## Changes that accesses make -/

/-- `t` is `s` but for its agents, the numbering of results, memory, and what stands between agents and memory. -/
def SameBut (s t : State) : Prop :=
  t = { s with
    bank := { s.bank with uid := t.bank.uid, agents := t.bank.agents }
    mem := t.mem
    pend := t.pend
    reads := t.reads
    held := t.held
    rels := t.rels
    walks := t.walks
    oracle := { s.oracle with late := t.oracle.late, lateReads := t.oracle.lateReads } }

theorem sameBut_trans {s t u : State} (h : SameBut s t) (h' : SameBut t u) : SameBut s u := by
  unfold SameBut at h h' ⊢
  rw [h] at h'
  exact h'

theorem SameBut.turn {s t : State} (h : SameBut s t) : t.turn = s.turn := by rw [h]

/-- Accesses have been performed or dropped: no result is numbered, and of the agents only what accesses touch has changed. -/
structure Accesses (s t : State) : Prop where
  same : SameBut s t
  uid : t.bank.uid = s.bank.uid
  agents : ∀ a : AgentId, AccessAgent (s.agent a) (t.agent a)

theorem Accesses.refl (s : State) : Accesses s s := ⟨rfl, rfl, fun _ => rfl⟩

theorem Accesses.trans {s t u : State} (h : Accesses s t) (h' : Accesses t u) : Accesses s u :=
  ⟨sameBut_trans h.same h'.same, h'.uid.trans h.uid, fun a => accessAgent_trans (h.agents a) (h'.agents a)⟩

/-- Memory, pending accesses, what is held, releases and walks may be any. -/
theorem Accesses.between (s : State) (m : Memory) (p : List PendW) (r : List PendR) (x : List Held) (l : List Rel) (w : List Walk) :
    Accesses s { s with mem := m, pend := p, reads := r, held := x, rels := l, walks := w } := ⟨rfl, rfl, fun _ => rfl⟩

theorem Accesses.mapAgent {s : State} {a : AgentId} {f : Agent → Agent} (h : AccessAgent (s.agent a) (f (s.agent a))) :
    Accesses s (s.mapAgent a f) := by
  refine ⟨rfl, rfl, fun b => ?_⟩
  by_cases hb : a = b
  · subst hb
    rwa [State.agent_mapAgent]
  · rw [s.agent_mapAgent_ne hb]
    exact accessAgent_refl _

theorem Accesses.foldl {α : Type} {f : State → α → State} (hf : ∀ s x, Accesses s (f s x)) (l : List α) (s : State) :
    Accesses s (l.foldl f s) := by
  induction l generalizing s with
  | nil => exact .refl s
  | cons x l ih => exact (hf s x).trans (ih _)

theorem Accesses.ite {s t u : State} {c : Prop} [Decidable c] (h : Accesses s t) (h' : Accesses s u) :
    Accesses s (if c then t else u) := by
  split
  · exact h
  · exact h'

section
variable (s : State)

theorem accesses_dropOf (a : AgentId) (path : Path) (key n : Nat) : Accesses s (s.dropOf a path key n) :=
  .ite (.refl s) (.between ..)

theorem accesses_wholeOf (a : AgentId) (path : Path) (key n : Nat) : Accesses s (s.wholeOf a path key n) :=
  .ite (.refl s) (accesses_dropOf ..)

theorem accesses_patch (a : AgentId) (uid : Nat) (f : DWord → DWord) (g : Vec → Vec) (m : Option Mark) :
    Accesses s (s.mapAgent a fun x => x.patch uid f g m) :=
  .mapAgent (f := fun x => x.patch uid f g m) (accessAgent_patch ..)

theorem accesses_readElement (r : PendR) (x : Nat × DWord × Nat) : Accesses s (s.readElement r x).1 := by
  refine (accesses_wholeOf s r.agent r.path x.2.2 r.w).trans ?_
  exact accesses_patch ..

theorem accesses_readElements (xs : List (Nat × DWord × Nat)) (r : PendR) : Accesses s (State.readElements xs s r).1 := by
  induction xs generalizing s r with
  | nil => exact .refl s
  | cons x xs ih => exact (accesses_readElement s r x).trans (ih ..)

theorem accesses_readGo (p : PendR → Nat × DWord × Nat → Bool) (rs kept : List PendR) : Accesses s (State.readGo p rs kept s) := by
  induction rs generalizing s kept with
  | nil => exact .between ..
  | cons r rs ih => exact (accesses_readElements s ..).trans (ih ..)

theorem accesses_readsWhere (p : PendR → Nat × DWord × Nat → Bool) : Accesses s (s.readsWhere p) :=
  .ite (.refl s) (accesses_readGo ..)

theorem accesses_noteWrite (who : Party) (path : Path) (key n upto : Nat) : Accesses s (s.noteWrite who path key n upto) := by
  refine .trans (accesses_readsWhere s fun r x =>
    meets x.2.2 r.w key n && (r.upto.map fun m => decide (who.distance r.agent ≤ min m upto)).getD false) ?_
  exact .ite (.refl _) (.between ..)

theorem accesses_deferTo (a : AgentId) (d : Deferred) : Accesses s (s.deferTo a d) := .mapAgent (accessAgent_defer ..)

theorem accesses_noteRelease (r : Rel) : Accesses s (s.noteRelease r) := by
  rw [noteRelease_eq]
  exact .between ..

theorem accesses_noteReleases (r : Option Rel) : Accesses s (s.noteReleases r) := by
  cases r with
  | none => exact .refl s
  | some r => exact accesses_noteRelease s r

theorem accesses_wr (key : Nat) (bs : List Byte) : Accesses s (s.wr key bs) := .between ..

theorem accesses_land (e : PendW) (bs : List Byte) : Accesses s (s.land e bs) := (accesses_noteWrite s ..).trans (accesses_wr ..)

theorem accesses_performAmo (e : PendW) (uid : Nat) (o : AmoOp) (b x : Nat) (d : Bool) (r : Option Rel) :
    Accesses s (s.performAmo e uid o b x d r) := by
  have htake : ∀ m, Accesses s (s.mapAgent e.agent fun a =>
      a.patch uid (fun _ => BitVec.ofNat 64 (s.rdNat e.key e.bytes.length)) id m) :=
    fun m => accesses_patch ..
  unfold State.performAmo
  extract_lets w old take
  split
  · exact .ite ((htake none).trans (accesses_deferTo ..)) (htake _)
  · split
    · exact (htake none).trans ((accesses_land ..).trans (accesses_noteReleases ..))
    · exact htake none

theorem accesses_perform (e : PendW) : Accesses s (s.perform e) := by
  unfold State.perform
  split
  · exact accesses_performAmo ..
  · split
    · extract_lets t u
      have hu : Accesses s u := by
        refine .trans (accesses_land s e e.bytes) ?_
        exact .ite (.between ..) (.refl _)
      split
      · exact hu.trans (accesses_noteRelease ..)
      · exact hu
    · exact accesses_deferTo ..

theorem accesses_settleGo (stays : Nat → PendW → Bool) (es : List PendW) (i : Nat) (kept : List PendW) :
    Accesses s (State.settleGo stays i es kept s) := by
  induction es generalizing s i kept with
  | nil => exact .between ..
  | cons e es ih => exact .ite (ih ..) ((accesses_perform s e).trans (ih ..))

theorem accesses_flushWhere (p : PendW → Bool) : Accesses s (s.flushWhere p) := .ite (.refl s) (accesses_settleGo ..)

end

/-! ## Ordering accesses -/

/-- `t` is `s` after accesses have been ordered: with none pending no agent and no byte has changed. -/
structure Orders (s t : State) : Prop where
  accesses : Accesses s t
  quiet : s.reads = [] → s.pend = [] → t.reads = [] ∧ t.bank.agents = s.bank.agents
  kept : s.pend = [] → t.mem = s.mem ∧ t.pend = [] ∧ ∀ a : AgentId, (t.agent a).deferred = (s.agent a).deferred

theorem Orders.refl (s : State) : Orders s s := ⟨.refl s, fun h _ => ⟨h, rfl⟩, fun h => ⟨rfl, h, fun _ => rfl⟩⟩

theorem Orders.trans {s t u : State} (h : Orders s t) (h' : Orders t u) : Orders s u := by
  refine ⟨h.accesses.trans h'.accesses, fun hr hp => ?_, fun hp => ?_⟩
  · obtain ⟨htr, hta⟩ := h.quiet hr hp
    obtain ⟨hur, hua⟩ := h'.quiet htr (h.kept hp).2.1
    exact ⟨hur, hua.trans hta⟩
  · obtain ⟨hm, hp', hd⟩ := h.kept hp
    obtain ⟨hm', hp'', hd'⟩ := h'.kept hp'
    exact ⟨hm'.trans hm, hp'', fun a => (hd' a).trans (hd a)⟩

theorem Orders.ite {s t u : State} {c : Prop} [Decidable c] (h : Orders s t) (h' : Orders s u) :
    Orders s (if c then t else u) := by
  split
  · exact h
  · exact h'

theorem Orders.foldl {α : Type} {f : State → α → State} (hf : ∀ s x, Orders s (f s x)) (l : List α) (s : State) :
    Orders s (l.foldl f s) := by
  induction l generalizing s with
  | nil => exact .refl s
  | cons x l ih => exact (hf s x).trans (ih _)

/-- What is held, releases and walks may be any. -/
theorem Orders.between (s : State) (x : List Held) (l : List Rel) (w : List Walk) :
    Orders s { s with held := x, rels := l, walks := w } :=
  ⟨.between .., fun h _ => ⟨h, rfl⟩, fun h => ⟨rfl, h, fun _ => rfl⟩⟩

section
variable (s : State)

theorem orders_dropOf (a : AgentId) (path : Path) (key n : Nat) : Orders s (s.dropOf a path key n) :=
  .ite (.refl s) (.between s _ s.rels s.walks)

theorem orders_dropAt (path : Path) (key n : Nat) : Orders s (s.dropAt path key n) := orders_dropOf ..

theorem orders_atHome (key n : Nat) : Orders s (s.atHome key n) := orders_dropAt ..

theorem orders_wholeOf (a : AgentId) (path : Path) (key n : Nat) : Orders s (s.wholeOf a path key n) :=
  .ite (.refl s) (orders_dropOf ..)

theorem orders_readAnew (r : Nat) (p : Held → Bool) : Orders s (s.readAnew r p) := .between s _ s.rels s.walks

theorem orders_noteRelease (r : Rel) : Orders s (s.noteRelease r) := by
  rw [noteRelease_eq]
  exact .between s s.held _ s.walks

theorem orders_noteReleases (r : Option Rel) : Orders s (s.noteReleases r) := by
  cases r with
  | none => exact .refl s
  | some r => exact orders_noteRelease s r

theorem orders_noteWalk (va : DWord) : Orders s (s.noteWalk va) := .ite (.between s s.held s.rels _) (.refl s)

theorem orders_noteLanes (addr : Nat → DWord) (ks : List (Nat × Nat)) : Orders s (s.noteLanes addr ks) :=
  .foldl (α := Nat × Nat) (f := fun t p => t.noteWalk (addr p.1)) (fun t p => orders_noteWalk t (addr p.1)) ks s

/-- Where no write is pending none is performed. -/
theorem orders_flushWhere (p : PendW → Bool) : Orders s (s.flushWhere p) := by
  refine ⟨accesses_flushWhere s p, fun hr hp => ?_, fun hp => ?_⟩ <;>
    rw [flushWhere_none (s := s) (p := p) (by simp [hp])]
  · exact ⟨hr, rfl⟩
  · exact ⟨rfl, hp, fun _ => rfl⟩

end

/-! ## Reads change no byte, no pending write and no deferred error -/

/-- Reads have been performed: memory, pending writes and deferred errors are as before. -/
structure ReadsOnly (s t : State) : Prop where
  mem : t.mem = s.mem
  pend : t.pend = s.pend
  deferred : ∀ a : AgentId, (t.agent a).deferred = (s.agent a).deferred

theorem ReadsOnly.refl (s : State) : ReadsOnly s s := ⟨rfl, rfl, fun _ => rfl⟩

theorem ReadsOnly.trans {s t u : State} (h : ReadsOnly s t) (h' : ReadsOnly t u) : ReadsOnly s u :=
  ⟨h'.mem.trans h.mem, h'.pend.trans h.pend, fun a => (h'.deferred a).trans (h.deferred a)⟩

section
variable (s : State)

theorem readsOnly_wholeOf (a : AgentId) (path : Path) (key n : Nat) : ReadsOnly s (s.wholeOf a path key n) := by
  unfold State.wholeOf State.dropOf
  split
  · exact .refl s
  · split
    · exact .refl s
    · exact ⟨rfl, rfl, fun _ => rfl⟩

theorem readsOnly_patch (a : AgentId) (uid : Nat) (f : DWord → DWord) (g : Vec → Vec) (m : Option Mark) :
    ReadsOnly s (s.mapAgent a fun x => x.patch uid f g m) := by
  refine ⟨rfl, rfl, fun b => ?_⟩
  by_cases hb : a = b
  · subst hb
    rw [State.agent_mapAgent]
    rfl
  · rw [s.agent_mapAgent_ne hb]

theorem readsOnly_readElement (r : PendR) (x : Nat × DWord × Nat) : ReadsOnly s (s.readElement r x).1 := by
  refine (readsOnly_wholeOf s r.agent r.path x.2.2 r.w).trans ?_
  exact readsOnly_patch ..

theorem readsOnly_readElements (xs : List (Nat × DWord × Nat)) (r : PendR) : ReadsOnly s (State.readElements xs s r).1 := by
  induction xs generalizing s r with
  | nil => exact .refl s
  | cons x xs ih => exact (readsOnly_readElement s r x).trans (ih ..)

theorem readsOnly_readGo (p : PendR → Nat × DWord × Nat → Bool) (rs kept : List PendR) :
    ReadsOnly s (State.readGo p rs kept s) := by
  induction rs generalizing s kept with
  | nil => exact ⟨rfl, rfl, fun _ => rfl⟩
  | cons r rs ih => exact (readsOnly_readElements s ..).trans (ih ..)

theorem readsOnly_readsWhere (p : PendR → Nat × DWord × Nat → Bool) : ReadsOnly s (s.readsWhere p) := by
  unfold State.readsWhere
  split
  · exact .refl s
  · exact readsOnly_readGo ..

theorem readsWhere_none {s : State} (h : s.reads = []) (p : PendR → Nat × DWord × Nat → Bool) : s.readsWhere p = s := by
  simp [State.readsWhere, h]

/-- Where no read is pending none is performed; a read changes neither memory nor what is pending to be written. -/
theorem orders_readsWhere (p : PendR → Nat × DWord × Nat → Bool) : Orders s (s.readsWhere p) := by
  obtain ⟨hm, hw, hd⟩ := readsOnly_readsWhere s p
  refine ⟨accesses_readsWhere s p, fun hr _ => ?_, fun hp => ⟨hm, hw.trans hp, hd⟩⟩
  rw [readsWhere_none hr]
  exact ⟨hr, rfl⟩

theorem orders_readsAt (a : AgentId) (path : Path) (key n : Nat) : Orders s (s.readsAt a path key n) := orders_readsWhere ..

theorem orders_readTo (r : Nat) (p : PendR → Bool) : Orders s (s.readTo r p) := by
  refine .ite (orders_readsWhere ..) ⟨.between .., fun hr _ => ⟨?_, rfl⟩, fun hp => ⟨rfl, hp, fun _ => rfl⟩⟩
  exact List.map_eq_nil_iff.2 hr

theorem orders_noteWrite (who : Party) (path : Path) (key n upto : Nat) : Orders s (s.noteWrite who path key n upto) := by
  refine .trans (orders_readsWhere s fun r x =>
    meets x.2.2 r.w key n && (r.upto.map fun m => decide (who.distance r.agent ≤ min m upto)).getD false) ?_
  exact .ite (.refl _) (.between _ _ (State.rels _) (State.walks _))

theorem accesses_publish (r : Nat) (p : PendW → Bool) : Accesses s (s.publish r p) := by
  refine .ite (accesses_flushWhere ..) ?_
  have hfold : Accesses s ((s.pend.filter p).foldl
      (fun t e => t.noteWrite (.here e.agent) e.path e.key e.bytes.length r) s) := .foldl (fun t e => accesses_noteWrite t ..) _ s
  exact hfold.trans (.between ..)

theorem orders_publish (r : Nat) (p : PendW → Bool) : Orders s (s.publish r p) := by
  refine ⟨accesses_publish s r p, fun hr hp => ?_, fun hp => ?_⟩ <;> rw [State.publish_noWrite hp]
  · exact ⟨hr, rfl⟩
  · exact ⟨rfl, hp, fun _ => rfl⟩

theorem orders_flushAt (path : Path) (key n : Nat) : Orders s (s.flushAt path key n) := orders_flushWhere ..

theorem orders_beforeRead (path : Path) (key n : Nat) : Orders s (s.beforeRead path key n) :=
  (orders_flushAt s path key n).trans ((orders_readsAt _ s.turn path key n).trans (orders_wholeOf _ s.turn path key n))

theorem orders_reading (path : Path) (va : DWord) (key n : Nat) : Orders s (s.reading path va key n) :=
  (orders_noteWalk s va).trans (orders_beforeRead _ path key n)

theorem orders_readOwn (r : Nat) : Orders s (s.readOwn r) := orders_readTo ..

theorem orders_publishOwn (r : Nat) : Orders s (s.publishOwn r) := orders_publish ..

theorem orders_beforeRelease (sc : Scope) : Orders s (s.beforeRelease sc) :=
  (orders_readOwn s (reach sc)).trans (orders_publishOwn _ (reach sc))

theorem orders_acquireAll (sc : Scope) : Orders s (s.acquireAll sc) :=
  (orders_readOwn s (reach sc)).trans (orders_readAnew ..)

theorem orders_releaseAll (sc : Scope) : Orders s (s.releaseAll sc) :=
  (orders_publishOwn s (reach sc)).trans (orders_readAnew ..)

theorem orders_fenceOwn (sc : Scope) (a b : BitVec 7) : Orders s (s.fenceOwn sc a b) :=
  (orders_readTo s (reach sc) _).trans ((orders_publish _ (reach sc) _).trans (orders_readAnew ..))

theorem orders_fenceMarks (ga : Bool) : Orders s (s.fenceMarks ga) :=
  (orders_readsWhere s _).trans ((orders_flushWhere _ _).trans (orders_readAnew ..))

end

end Sys2Proof.Machine
end

section
/-! Frames of loads, stores, atomics and orders (R150, R153): accesses are ordered, then the instruction ends. -/

namespace Sys2Proof.Machine

/-! ## What an instruction ends with -/

/-- The agents with the one at issue replaced. -/
def State.withCur (s : State) (g : Agent) : Vector Agent 5 := s.bank.agents.set s.turn g

/-- Of the agents only the one at issue has changed, in the buffer of its bundle and its deferred errors. -/
def CurOnly (s t : State) : Prop :=
  t.bank.agents = s.withCur { s.cur with bun := t.cur.bun, deferred := t.cur.deferred }

section
variable {s t u : State}

theorem withCur_congr (ht : t.turn = s.turn) (ha : t.bank.agents = s.bank.agents) (g : Agent) : t.withCur g = s.withCur g := by
  simp only [State.withCur, ht, ha]

theorem withCur_withCur (ht : t.turn = s.turn) {g : Agent} (ha : t.bank.agents = s.withCur g) (g' : Agent) :
    t.withCur g' = s.withCur g' := by
  simp only [State.withCur, ht, ha, Vector.set_set]

theorem withCur_cur (s : State) : s.withCur s.cur = s.bank.agents := Vector.set_getElem_self ..

theorem cur_of_agents (ht : t.turn = s.turn) (ha : t.bank.agents = s.bank.agents) : t.cur = s.cur := by
  simp only [State.cur, State.agent, ha, ht]

theorem cur_of_withCur (ht : t.turn = s.turn) {g : Agent} (ha : t.bank.agents = s.withCur g) : t.cur = g := by
  simp only [State.cur, State.agent, ha, ht]
  exact Vector.getElem_set_self ..

theorem agent_of_withCur {g : Agent} (ha : t.bank.agents = s.withCur g) {a : AgentId} (h : a ≠ s.turn) :
    t.agent a = s.agent a := by
  have hne : (s.turn : Nat) ≠ a := fun e => h (Fin.ext e.symm)
  simp only [State.agent, ha]
  exact Vector.getElem_set_ne _ _ hne

theorem CurOnly.of_agents (ht : t.turn = s.turn) (ha : t.bank.agents = s.bank.agents) : CurOnly s t := by
  have hcur : ({ s.cur with bun := t.cur.bun, deferred := t.cur.deferred } : Agent) = s.cur := by
    rw [cur_of_agents ht ha]
  rw [CurOnly, hcur, withCur_cur, ha]

theorem CurOnly.trans (ht : t.turn = s.turn) (h : CurOnly s t) (h' : CurOnly t u) : CurOnly s u := by
  have hcur : ({ t.cur with bun := u.cur.bun, deferred := u.cur.deferred } : Agent)
      = { s.cur with bun := u.cur.bun, deferred := u.cur.deferred } := by
    rw [cur_of_withCur ht h]
  rw [CurOnly, h', withCur_withCur ht h, hcur]

theorem CurOnly.agents (ht : t.turn = s.turn) (h : CurOnly s t) (a : AgentId) : AccessAgent (s.agent a) (t.agent a) := by
  by_cases ha : a = s.turn
  · subst ha
    have hcur : t.agent s.turn = t.cur := by rw [State.cur, ht]
    rw [hcur, cur_of_withCur ht h]
    exact accessAgent_bun ..
  · rw [agent_of_withCur h ha]
    exact accessAgent_refl _

theorem CurOnly.mapCur (s : State) {f : Agent → Agent}
    (hf : f s.cur = { s.cur with bun := (f s.cur).bun, deferred := (f s.cur).deferred }) : CurOnly s (s.mapCur f) := by
  rw [CurOnly, State.cur_mapCur, ← hf]
  rfl

end

/-- The end of an instruction that accesses `n` bytes at a key: of the agents it changes the one at issue alone, and of memory
those bytes alone. -/
structure Ends (key n : Nat) (s t : State) : Prop where
  same : SameBut s t
  cur : CurOnly s t
  out : ∀ x, x < key ∨ key + n ≤ x → t.mem.read x = s.mem.read x

/-- The end of a store: it delivers nothing. -/
structure Stores (key n : Nat) (s t : State) : Prop extends Ends key n s t where
  uid : t.bank.uid = s.bank.uid
  bun : t.cur.bun = s.cur.bun

/-- The end of an instruction that writes nothing. -/
structure Delivers (s t : State) : Prop where
  same : SameBut s t
  cur : CurOnly s t
  mem : t.mem = s.mem
  pend : t.pend = s.pend
  deferred : t.cur.deferred = s.cur.deferred

section
variable {key n : Nat} {s t u : State}

theorem Ends.refl (key n : Nat) (s : State) : Ends key n s s := ⟨rfl, .of_agents rfl rfl, fun _ _ => rfl⟩

theorem Ends.trans (h : Ends key n s t) (h' : Ends key n t u) : Ends key n s u :=
  ⟨sameBut_trans h.same h'.same, h.cur.trans h.same.turn h'.cur, fun x hx => (h'.out x hx).trans (h.out x hx)⟩

theorem Stores.trans (h : Stores key n s t) (h' : Stores key n t u) : Stores key n s u :=
  ⟨h.toEnds.trans h'.toEnds, h'.uid.trans h.uid, h'.bun.trans h.bun⟩

theorem Delivers.refl (s : State) : Delivers s s := ⟨rfl, .of_agents rfl rfl, rfl, rfl, rfl⟩

theorem Delivers.trans (h : Delivers s t) (h' : Delivers t u) : Delivers s u :=
  ⟨sameBut_trans h.same h'.same, h.cur.trans h.same.turn h'.cur, h'.mem.trans h.mem, h'.pend.trans h.pend,
    h'.deferred.trans h.deferred⟩

theorem Delivers.ends (h : Delivers s t) (key n : Nat) : Ends key n s t := ⟨h.same, h.cur, fun _ _ => by rw [h.mem]⟩

/-- What is pending, held or noted may be any. -/
theorem Stores.between (key n : Nat) (s : State) (p : List PendW) (x : List Held) (l : List Rel) (o : List Nat) :
    Stores key n s { s with pend := p, held := x, rels := l, oracle := { s.oracle with late := o } } :=
  ⟨⟨rfl, .of_agents rfl rfl, fun _ _ => rfl⟩, rfl, rfl⟩

theorem stores_wr (s : State) (key : Nat) (bs : List Byte) : Stores key bs.length s (s.wr key bs) :=
  ⟨⟨rfl, .of_agents rfl rfl, fun _ hx => Memory.read_writeN_out _ _ _ _ hx⟩, rfl, rfl⟩

theorem stores_defer (key n : Nat) (s : State) (path : Path) (va : DWord) (c : Byte) (k : AKind) (lane : Nat) :
    Stores key n s (s.defer path va c k lane) := by
  have hcur : (s.defer path va c k lane).cur = { s.cur with
    deferred := s.cur.deferred ++ [⟨va, c, BitVec.ofNat 2 k.code, BitVec.ofNat 4 lane, path⟩] } :=
    s.agent_mapAgent s.turn _
  exact ⟨⟨rfl, .mapCur s rfl, fun _ _ => rfl⟩, rfl, by rw [hcur]⟩

theorem stores_usedLate (key n : Nat) (s : State) : Stores key n s s.usedLate := .between key n s s.pend s.held s.rels _

theorem delivers_of_buffer (h : OnlyBuffer s t) : Delivers s t := by
  obtain ⟨k, b, rfl⟩ := onlyBuffer_iff.1 h
  refine ⟨rfl, CurOnly.mapCur (s.mapBank fun x => { x with uid := k }) rfl, rfl, rfl, ?_⟩
  rw [State.cur_mapBun]
  rfl

theorem delivers_readAnew (s : State) (r : Nat) (p : Held → Bool) : Delivers s (s.readAnew r p) :=
  ⟨rfl, .of_agents rfl rfl, rfl, rfl, rfl⟩

theorem delivers_readLater (s : State) (path : Path) (uid : Nat) (vec : Bool) (w : Nat) (xs : List (Nat × DWord × Nat))
    (m : Option (Nat × Mark)) : Delivers s (s.readLater path uid vec w xs m) := by
  unfold State.readLater
  extract_lets t
  split
  · exact ⟨rfl, .of_agents rfl rfl, rfl, rfl, rfl⟩
  · exact ⟨rfl, .of_agents rfl rfl, rfl, rfl, rfl⟩

theorem delivers_acquire (s : State) (sc : Scope) (obj : Nat) : Delivers s (s.acquire sc obj) :=
  (delivers_readAnew s (reach sc) _).trans (delivers_readAnew ..)

/-- Accesses are ordered, then the instruction ends. -/
theorem Ends.onlyAccess (h : Orders s t) (h' : Ends key n t u) : OnlyAccess s u := by
  have ht := h.accesses.same.turn
  refine ⟨sameBut_trans h.accesses.same h'.same, fun a => accessAgent_trans (h.accesses.agents a) (h'.cur.agents h'.same.turn a),
    fun hp hr => ?_⟩
  have ha := (h.quiet hr hp).2
  have hcur := h'.cur
  rw [CurOnly, withCur_congr ht ha, cur_of_agents ht ha] at hcur
  exact hcur

end

/-! ## Stores -/

/-- Accesses are ordered, then `n` bytes at a key are stored. -/
def Stored (key n : Nat) (s t : State) : Prop := ∃ u, Orders s u ∧ Stores key n u t

section
variable {key n : Nat} {s t u : State}

theorem Stored.after (h : Orders s t) (h' : Stored key n t u) : Stored key n s u := by
  obtain ⟨v, hv, hu⟩ := h'
  exact ⟨v, h.trans hv, hu⟩

theorem Stored.andThen (h : Stored key n s t) (h' : Stores key n t u) : Stored key n s u := by
  obtain ⟨v, hv, ht⟩ := h
  exact ⟨v, hv, ht.trans h'⟩

theorem Stores.stored (h : Stores key n s t) : Stored key n s t := ⟨s, .refl s, h⟩

end

/-- The write is no atomic and leaves the poison of its granule. -/
def PendW.simple (e : PendW) : Prop := e.clean = false ∧ (e.kind = .plain ∨ ∃ r, e.kind = .rel r)

section
variable (s : State)

theorem stores_noteRelease (key n : Nat) (r : Rel) : Stores key n s (s.noteRelease r) := by
  rw [noteRelease_eq]
  exact .between key n s s.pend s.held _ s.oracle.late

theorem stored_land (e : PendW) (bs : List Byte) : Stored e.key bs.length s (s.land e bs) :=
  ⟨_, orders_noteWrite s (.here e.agent) e.path e.key bs.length 4, stores_wr _ e.key bs⟩

theorem stored_perform {e : PendW} (he : e.simple) (ha : e.agent = s.turn) : Stored e.key e.bytes.length s (s.perform e) := by
  obtain ⟨hc, hk⟩ := he
  have hdefer : Stored e.key e.bytes.length s
      (s.deferTo e.agent ⟨e.va, 0x0A, 1, BitVec.ofNat 4 e.lane, e.path⟩) := by
    rw [ha]
    exact (stores_defer e.key e.bytes.length s e.path e.va 0x0A .write e.lane).stored
  unfold State.perform
  rcases hk with hk | ⟨r, hk⟩
  · simp only [hk, hc, Bool.false_eq_true, if_false]
    split
    · exact stored_land ..
    · exact hdefer
  · simp only [hk, hc, Bool.false_eq_true, if_false]
    split
    · exact (stored_land s e e.bytes).andThen (stores_noteRelease ..)
    · exact hdefer

theorem stored_request (late : Bool) {e : PendW} (he : e.simple) (ha : e.agent = s.turn) :
    Stored e.key e.bytes.length s (s.request late e) := by
  unfold State.request
  extract_lets n t
  have ht : Orders s t := (orders_flushWhere s _).trans ((orders_readsAt _ _ _ _ _).trans (orders_dropAt ..))
  have hturn : e.agent = t.turn := ha.trans ht.accesses.same.turn.symm
  clear_value t
  refine .after ht ?_
  split
  · exact (Stores.between e.key e.bytes.length t (t.pend ++ [e]) t.held t.rels t.oracle.late).stored
  · exact stored_perform t he hturn

theorem stored_storeAs {kind : PendK} (hk : kind = .plain ∨ ∃ r, kind = .rel r) (path : Path) (va : DWord) (key lane : Nat)
    (bs : List Byte) : Stored key bs.length s (s.storeAs kind path va key lane false bs) := by
  unfold State.storeAs
  split
  · exact stored_request s _ (e := ⟨s.turn, path, va, lane, key, bs, false, none, s.workBank.uid, kind⟩) ⟨rfl, hk⟩ rfl
  · exact (stores_defer ..).stored

end

theorem yields_self {ε α : Type} (r : Except ε α) : Yields r fun x => r = .ok x := fun _ h => h

theorem yields_rd64 (s : State) (o : Opnd) : Yields (s.rd64 o) fun x => x = s.val64 o := by
  intro x h
  unfold State.rd64 at h
  split at h
  · exact (Except.ok.inj h).symm
  · exact nomatch h

theorem yields_rdBase (s : State) (bp : BitVec 4) : Yields (s.rdBase bp) fun x => x = s.val64 (baseOp bp) :=
  yields_rd64 s _

section
variable {s t : State}

/-- What an instruction that waits or not leaves, where it runs. -/
theorem runs_of_yields {c : Prop} [Decidable c] {p : Path → Bool} {r : Except Stop State} {q : State → Prop} (hr : Yields r q)
    (h : (if c then s.finishWaiting p else s.finish) r = .next t) (hv : t.verdict = .ok) : q t := by
  split at h
  · exact hr t (finishWaiting_verdict h hv)
  · exact hr t (finish_verdict h hv)

theorem runs_of_yields_not {c : Prop} [Decidable c] {p : Path → Bool} {r : Except Stop State} {q : State → Prop}
    (hr : Yields r q) (h : (if c then s.finish else s.finishWaiting p) r = .next t) (hv : t.verdict = .ok) : q t := by
  split at h
  · exact hr t (finish_verdict h hv)
  · exact hr t (finishWaiting_verdict h hv)

/-- What `st` leaves: its bytes lie where its access goes. -/
theorem execSt_stored {d : Opnd} {bp : BitVec 4} {sz : Size} {c : Scope} {rel : Bool} {off : BitVec 24}
    (h : execSt d bp sz c rel off s = .next t) (hv : t.verdict = .ok) : ∃ key,
      s.access .write (effAddr (s.val64 (baseOp bp)) off) sz.bytes 0 = .ok key ∧ Stored key sz.bytes s t := by
  refine runs_of_yields (q := fun t => ∃ key, s.access .write (effAddr (s.val64 (baseOp bp)) off) sz.bytes 0 = .ok key ∧
    Stored key sz.bytes s t) (yields_bind (yields_rdBase s bp) fun base hb => yields_after fun v => yields_bind (yields_self _)
    fun key hk => yields_ok ⟨key, hb ▸ hk, ?_⟩) h hv
  have hstore : ∀ {u : State} {kind : PendK}, (kind = .plain ∨ ∃ r, kind = .rel r) →
      Stored key sz.bytes u (u.storeAs kind .own (effAddr base off) key 0 false (bytesOf sz.bytes v.toNat)).usedLate := by
    intro u kind hk
    have hst := stored_storeAs u hk .own (effAddr base off) key 0 (bytesOf sz.bytes v.toNat)
    rw [length_bytesOf] at hst
    exact hst.andThen (stores_usedLate ..)
  refine .after (orders_noteWalk s (effAddr base off)) ?_
  cases rel with
  | true => exact .after (orders_beforeRelease ..) (hstore (.inr ⟨_, rfl⟩))
  | false => exact hstore (.inl rfl)

end

/-! ## Atomics -/

/-- Accesses are ordered, then the instruction ends, with `n` bytes at a key perhaps changed. -/
def Ended (key n : Nat) (s t : State) : Prop := ∃ u, Orders s u ∧ Ends key n u t

section
variable {key n : Nat} {s t u : State}

theorem Ended.after (h : Orders s t) (h' : Ended key n t u) : Ended key n s u := by
  obtain ⟨v, hv, hu⟩ := h'
  exact ⟨v, h.trans hv, hu⟩

theorem Ended.andThen (h : Ended key n s t) (h' : Ends key n t u) : Ended key n s u := by
  obtain ⟨v, hv, ht⟩ := h
  exact ⟨v, hv, ht.trans h'⟩

theorem Ended.ite {c : Prop} [Decidable c] (h : Ended key n s t) (h' : Ended key n s u) :
    Ended key n s (if c then t else u) := by
  split
  · exact h
  · exact h'

theorem Ends.ended (h : Ends key n s t) : Ended key n s t := ⟨s, .refl s, h⟩

theorem Stored.uid (h : Stored key n s t) : t.bank.uid = s.bank.uid := by
  obtain ⟨u, hu, ht⟩ := h
  exact ht.uid.trans hu.accesses.uid

/-- With nothing pending the buffer of the bundle is as before. -/
theorem Stored.bun (h : Stored key n s t) (hr : s.reads = []) (hp : s.pend = []) : t.cur.bun = s.cur.bun := by
  obtain ⟨u, hu, ht⟩ := h
  rw [ht.bun, cur_of_agents hu.accesses.same.turn (hu.quiet hr hp).2]

theorem Stored.ended (h : Stored key n s t) : Ended key n s t := by
  obtain ⟨u, hu, ht⟩ := h
  exact ⟨u, hu, ht.toEnds⟩

theorem Ended.onlyAccess (h : Ended key n s t) : OnlyAccess s t := by
  obtain ⟨u, hu, ht⟩ := h
  exact ht.onlyAccess hu

theorem Ended.out (h : Ended key n s t) (hp : s.pend = []) (x : Nat) (hx : x < key ∨ key + n ≤ x) :
    t.mem.read x = s.mem.read x := by
  obtain ⟨u, hu, ht⟩ := h
  rw [ht.out x hx, (hu.kept hp).1]

end

section
variable (s : State)

theorem ends_putM (key n : Nat) (sc : Sched) (d : Opnd) (wide : Bool) (k : Nat) (v : DWord) (m : Option Mark) :
    Ends key n s (s.putM sc d wide k v m) := (delivers_of_buffer (onlyBuffer_deliver ..)).ends key n

theorem stored_storeNow (k : AKind) (va : DWord) (key : Nat) (bs : List Byte) :
    Stored key bs.length s (s.storeNow k va key bs) := by
  unfold State.storeNow
  split
  · exact ⟨_, (orders_flushAt s .own key bs.length).trans ((orders_readsAt _ s.turn .own key bs.length).trans
      (orders_noteWrite _ (.here s.turn) .own key bs.length 4)), stores_wr ..⟩
  · exact (stores_defer ..).stored

theorem ended_atomicAt (sc : Sched) (d : Opnd) (wide : Bool) (o : AmoOp) (va : DWord) (key b x : Nat) :
    Ended key (amoBytes wide) s (s.atomicAt sc d wide o va key b x) := by
  unfold State.atomicAt
  extract_lets w old u
  split
  · extract_lets t
    have ht : Ended key (amoBytes wide) s t := by
      dsimp only [t]
      split
      · exact (stores_defer ..).toEnds.ended
      · exact (Ends.refl ..).ended
    exact ht.andThen (ends_putM ..)
  · have hu : Ended key (amoBytes wide) s u := by
      dsimp only [u]
      split
      · next v _ =>
        have hst := stored_storeNow s .atomic va key (bytesOf w v)
        rw [length_bytesOf] at hst
        exact hst.ended
      · exact (Ends.refl ..).ended
    exact hu.andThen (ends_putM ..)

theorem ended_atomicLater (sc : Sched) (d : Opnd) (wide : Bool) (o : AmoOp) (va : DWord) (key b x : Nat) (r : Option Rel) :
    Ended key (amoBytes wide) s (s.atomicLater sc d wide o va key b x r) := by
  have hput := ends_putM s key (amoBytes wide) sc d wide 32 0 none
  exact (hput.trans (Stores.between key (amoBytes wide) (s.putM sc d wide 32 0 none) _ s.held s.rels s.oracle.late).toEnds).ended

end

section
variable {s t : State}

/-- What an atomic leaves: it writes nothing but the bytes of its location. -/
theorem amo_ended {sc : Sched} {d a b x : Opnd} {c : Scope} {o : MOrd} {wide : Bool} {p : AmoOp}
    (h : s.amo sc d a b x c o wide p = .next t) (hv : t.verdict = .ok) : ∃ key,
      s.access .atomic (s.val64 a) (amoBytes wide) 0 = .ok key ∧ Ended key (amoBytes wide) s t := by
  refine runs_of_yields_not (q := fun t => ∃ key, s.access .atomic (s.val64 a) (amoBytes wide) 0 = .ok key ∧
    Ended key (amoBytes wide) s t) (yields_bind (yields_rd64 s a) fun va hva => yields_after fun v => yields_after fun y =>
    yields_bind (yields_self _) fun key hk => yields_after fun _ => yields_ok ⟨key, hva ▸ hk, ?_⟩) h hv
  have hend : ∀ {u : State}, Ended key (amoBytes wide) s u →
      Ended key (amoBytes wide) s (if acquires o then u.usedLate.acquire c key else u.usedLate) := fun hu => by
    have hlate := hu.andThen (stores_usedLate key (amoBytes wide) _).toEnds
    exact .ite (hlate.andThen ((delivers_acquire ..).ends ..)) hlate
  refine hend (.after ((orders_reading s .own va key (amoBytes wide)).trans (orders_atHome _ key (amoBytes wide))) ?_)
  refine .after (.ite (orders_beforeRelease _ c) (.refl _)) (.ite (ended_atomicLater ..) ?_)
  exact .after (orders_noteReleases ..) (ended_atomicAt ..)

end

/-! ## Instructions that store nothing -/

/-- Accesses are ordered, then the instruction ends and has written nothing. -/
def Delivered (s t : State) : Prop := ∃ u, Orders s u ∧ Delivers u t

section
variable {s t u : State}

theorem Delivered.after (h : Orders s t) (h' : Delivered t u) : Delivered s u := by
  obtain ⟨v, hv, hu⟩ := h'
  exact ⟨v, h.trans hv, hu⟩

theorem Delivers.delivered (h : Delivers s t) : Delivered s t := ⟨s, .refl s, h⟩

theorem Orders.delivered (h : Orders s t) : Delivered s t := ⟨t, h, .refl t⟩

theorem Delivered.onlyAccess (h : Delivered s t) : OnlyAccess s t := by
  obtain ⟨u, hu, ht⟩ := h
  exact (ht.ends 0 0).onlyAccess hu

/-- Where no write was pending memory and deferred errors are as before. -/
theorem Delivered.kept (h : Delivered s t) (hp : s.pend = []) :
    t.mem = s.mem ∧ t.pend = [] ∧ ∀ a : AgentId, (t.agent a).deferred = (s.agent a).deferred := by
  obtain ⟨u, hu, ht⟩ := h
  obtain ⟨hm, hpu, hd⟩ := hu.kept hp
  refine ⟨ht.mem.trans hm, ht.pend.trans hpu, fun a => .trans ?_ (hd a)⟩
  by_cases ha : a = u.turn
  · have hcur : t.agent a = t.cur := by rw [State.cur, ht.same.turn, ha]
    rw [hcur, ht.deferred, ha]
    rfl
  · rw [agent_of_withCur ht.cur ha]

end

section
variable (s : State)

theorem delivers_deliver (c : LCls) (d : Opnd) (w : Bool) (v : DWord) (vv : Vec) (r : Ready) (f : BitVec 7) (m : Option Mark) :
    Delivers s (s.deliver c d w v vv r f m) := delivers_of_buffer (onlyBuffer_deliver ..)

theorem delivers_loadResult (sc : Sched) (d : Opnd) (sz : Size) (va : DWord) (key : Nat) :
    Delivers s (s.loadResult sc d sz va key) := delivers_deliver ..

theorem delivers_loadPlain (sc : Sched) (d : Opnd) (sz : Size) (va : DWord) (key : Nat) :
    Delivers s (s.loadPlain sc d sz va key) :=
  (delivers_readLater s .own s.bank.uid false sz.bytes _ none).trans (delivers_loadResult ..)

theorem delivers_endBy (y : Option DWord) : Delivers s (s.endBy y) := delivers_of_buffer (onlyBuffer_mapBun ..)

theorem yields_loadLanes_delivered (path : Path) (sc : Sched) (d : Opnd) (nominal w : Nat) (addr : Nat → DWord) (m : BitVec 3) :
    Yields (s.loadLanes path sc d nominal w addr m) (Delivered s) := by
  refine yields_after fun ks => yields_ok ?_
  have hread : Orders s (ks.foldl (fun t p => t.beforeRead path p.2 w) (s.noteLanes addr ks)) :=
    (orders_noteLanes s addr ks).trans (.foldl (α := Nat × Nat) (f := fun t p => t.beforeRead path p.2 w)
      (fun t p => orders_beforeRead t path p.2 w) ks _)
  exact .after hread ((delivers_readLater _ path _ true w _ _).trans (delivers_deliver ..)).delivered

/-! ### Extent lists -/

theorem kvRead_orders (va : DWord) : Yields (s.kvRead va) fun q => Orders s q.1 := by
  unfold State.kvRead
  split
  · exact yields_error _
  · exact yields_ok (p := fun q : State × _ => Orders s q.1) (orders_reading ..)

theorem readHdr_orders (va : DWord) : Yields (s.readHdr va) fun q => Orders s q.1 := by
  unfold State.readHdr
  split
  · exact yields_error _
  · next u bs e => exact yields_ok (p := fun q : State × _ => Orders s q.1) (kvRead_orders s va (u, bs) e)

theorem translate_orders (va : DWord) (stride t n e : Nat) :
    Yields (State.translate va stride t n e s) fun q => Orders s q.1 := by
  induction n generalizing s t e with
  | zero => exact yields_ok (p := fun q : State × _ => Orders s q.1) (.refl s)
  | succ n ih =>
    unfold State.translate
    split
    · exact yields_error _
    · next u bs he =>
      have hu : Orders s u := kvRead_orders s _ (u, bs) he
      exact yields_ite (yields_ok (p := fun q : State × _ => Orders s q.1) hu) fun q hq =>
        hu.trans (ih _ _ _ q hq)

end

section
variable {s t : State}

theorem execKvxl_delivered {sc : Sched} {d : Opnd} {bp : BitVec 4} {off : BitVec 24} {a : Opnd}
    (h : execKvxl sc d bp off a s = .next t) (hv : t.verdict = .ok) : Delivered s t := by
  have hend : ∀ {q : State × DWord}, Orders s q.1 → Delivered s (q.1.put64 sc d 32 q.2) := fun hq =>
    .after hq (delivers_deliver ..).delivered
  refine (show Yields _ (Delivered s) from ?_) t (finish_verdict h hv)
  have hjoin : ∀ {r : Except Stop (State × DWord)}, Yields r (fun q => Orders s q.1) →
      Yields (r >>= fun q => .ok (q.1.put64 sc d 32 q.2)) (Delivered s) := fun hr =>
    yields_bind hr fun q hq => yields_ok (hend hq)
  refine yields_after fun base => yields_after fun x => yields_bind (readHdr_orders s _) fun hdr hh =>
    yields_ite (hjoin (yields_ok hh)) (hjoin fun q hq => ?_)
  exact hh.trans (translate_orders _ _ _ _ _ _ q hq)

theorem execLd_delivered {sc : Sched} {d : Opnd} {bp : BitVec 4} {sz : Size} {c : Scope} {acq : Bool} {off : BitVec 24}
    (h : execLd sc d bp sz c acq off s = .next t) (hv : t.verdict = .ok) : Delivered s t := by
  refine runs_of_yields (q := Delivered s) (yields_after fun base => yields_after fun key => ?_) h hv
  have hread := orders_reading s .own (effAddr base off) key sz.bytes
  cases acq with
  | true => exact yields_after fun _ => yields_ok (.after (hread.trans (orders_atHome ..))
      ((delivers_loadResult ..).trans (delivers_acquire ..)).delivered)
  | false => exact yields_ok (.after hread (delivers_loadPlain ..).delivered)

theorem execVld_delivered {sc : Sched} {d : Opnd} {bp : BitVec 4} {sz : VSize} {m : BitVec 3} {off : BitVec 24}
    (h : execVld sc d bp sz m off s = .next t) (hv : t.verdict = .ok) : Delivered s t :=
  (yields_after (q := Delivered s) fun _ => yields_loadLanes_delivered s _ _ _ _ _ _ _) t (finish_verdict h hv)

theorem execVldg_delivered {sc : Sched} {d : Opnd} {bp : BitVec 4} {sz : VSize} {m : BitVec 3} {x : Opnd} {off : BitVec 17}
    (h : execVldg sc d bp sz m x off s = .next t) (hv : t.verdict = .ok) : Delivered s t :=
  (yields_after (q := Delivered s) fun _ => yields_after fun _ => yields_loadLanes_delivered s _ _ _ _ _ _ _) t
    (finish_verdict h hv)

theorem execFenceM_delivered {p : BitVec 4} (h : execFenceM p s = .next t) (hv : t.verdict = .ok) : Delivered s t :=
  (yields_ite (yields_error _) (yields_ite (yields_ok (Orders.refl s).delivered)
    (yields_ok (orders_fenceMarks s _).delivered))) t (finish_verdict h hv)

theorem execFenceX_delivered {c : Scope} {a b : BitVec 7} (h : execFenceX c a b s = .next t) (hv : t.verdict = .ok) :
    Delivered s t := by
  unfold execFenceX at h
  split at h
  · exact yields_ok (Orders.refl s).delivered t (finish_verdict h hv)
  · exact yields_ite (yields_error _) (yields_ok (orders_fenceOwn s c a b).delivered) t (finishWaiting_verdict h hv)

theorem execAcqAll_delivered {c : Scope} (h : execAcqAll c s = .next t) (hv : t.verdict = .ok) : Delivered s t :=
  yields_ok (orders_acquireAll s c).delivered t (finish_verdict h hv)

theorem execRelAll_delivered {c : Scope} (h : execRelAll c s = .next t) (hv : t.verdict = .ok) : Delivered s t :=
  yields_ok (orders_releaseAll s c).delivered t (finishWaiting_verdict h hv)

theorem execEvwait_delivered {sc : Sched} {d a : Opnd} (h : execEvwait sc d a s = .next t) (hv : t.verdict = .ok) :
    Delivered s t :=
  (yields_after (q := Delivered s) fun _ => yields_ite (yields_ok (.after (orders_acquireAll s .pkg)
    (delivers_deliver ..).delivered)) (yields_error _)) t (finish_verdict h hv)

theorem execEvtest_delivered {sc : Sched} {d a : Opnd} (h : execEvtest sc d a s = .next t) (hv : t.verdict = .ok) :
    Delivered s t :=
  (yields_after (q := Delivered s) fun _ => yields_ok (.after (.ite (orders_acquireAll s .pkg) (.refl s))
    (delivers_deliver ..).delivered)) t (finish_verdict h hv)

theorem execYield_delivered {a : Opnd} (h : execYield a s = .next t) (hv : t.verdict = .ok) : Delivered s t :=
  (yields_after (q := Delivered s) fun _ => yields_ok (.after (orders_releaseAll s .pkg) (delivers_endBy ..).delivered)) t
    (finishOrdered_verdict h hv)

end

/-- Where an instruction of `readsOnly` runs, accesses are ordered and nothing is written. -/
theorem exec_delivered {i : Instr} (hi : readsOnly i = true) {s t : State} (h : exec i s = .next t) (hv : t.verdict = .ok) :
    Delivered s t := by
  cases i with
  | ld => exact execLd_delivered h hv
  | vld => exact execVld_delivered h hv
  | vldg => exact execVldg_delivered h hv
  | kvxl => exact execKvxl_delivered h hv
  | fenceM => exact execFenceM_delivered h hv
  | fenceX => exact execFenceX_delivered h hv
  | acqAll => exact execAcqAll_delivered h hv
  | relAll => exact execRelAll_delivered h hv
  | evwait => exact execEvwait_delivered h hv
  | evtest => exact execEvtest_delivered h hv
  | yield => exact execYield_delivered h hv
  | slend =>
    exact yields_ok (.after (orders_releaseAll s .pkg) (delivers_endBy ..).delivered) t (finishOrdered_verdict h hv)
  | _ => exact absurd hi Bool.false_ne_true

/-- An atomic of the list is the model's `State.amo` with its operation. -/
theorem exec_amo {s t : State} {sc : Sched} {d a b x : Opnd} {c : Scope} {o : MOrd} {wide : Bool} {i : Instr}
    (hi : i ∈ [.amoadd sc d a b c o wide, .amoswp sc d a b c o wide, .amocas sc d a b x c o wide, .amomin sc d a b c o wide,
      .amomax sc d a b c o wide, .amominn sc d a b c o wide, .amomaxn sc d a b c o wide, .amoand sc d a b c o wide,
      .amoor sc d a b c o wide, .amoxor sc d a b c o wide])
    (h : exec i s = .next t) : ∃ y p, s.amo sc d a b y c o wide p = .next t := by
  simp only [List.mem_cons, List.not_mem_nil, or_false] at hi
  rcases hi with rfl | rfl | rfl | rfl | rfl | rfl | rfl | rfl | rfl | rfl <;> exact ⟨_, _, h⟩

/-- Settles O21: each instruction orders accesses and then ends; the three kinds of ends say what may change. -/
theorem memoryFrames : Obligations.MemoryFrames := by
  unfold Obligations.MemoryFrames
  refine ⟨fun s t d bp sz c rel off h hv => ?_, fun s t sc d a b x c o wide i hi h hv => ?_, fun i s t hi h hv =>
    ⟨(exec_delivered hi h hv).onlyAccess, (exec_delivered hi h hv).kept⟩⟩
  · obtain ⟨key, hk, hst⟩ := execSt_stored h hv
    refine ⟨hst.ended.onlyAccess, hst.uid, hst.bun, fun key' hk' hp x hx => ?_⟩
    obtain rfl : key = key' := Except.ok.inj (hk.symm.trans hk')
    exact hst.ended.out hp x hx
  · obtain ⟨y, p, h⟩ := exec_amo hi h
    obtain ⟨key, hk, hend⟩ := amo_ended h hv
    refine ⟨hend.onlyAccess, fun key' hk' hp x hx => ?_⟩
    obtain rfl : key = key' := Except.ok.inj (hk.symm.trans hk')
    exact hend.out hp x hx

end Sys2Proof.Machine
end

section
/-! Where copies write (R167) is found alike after reads have been performed and after a walk has been noted: neither changes what a
copy holds back. -/

namespace Sys2Proof.Machine

/-! ## Walks of one page -/

section
variable {s t : State}

/-- Division by a page's multiple cannot tell two addresses of one page apart. -/
theorem div_page_congr {va vb : Nat} (h : va / 4096 = vb / 4096) (n k : Nat) :
    va / (2 ^ (12 + n) * k) = vb / (2 ^ (12 + n) * k) := by
  have hsplit : 2 ^ (12 + n) * k = 4096 * (2 ^ n * k) := by rw [Nat.pow_add, Nat.mul_assoc]
  rw [hsplit, ← Nat.div_div_eq_div_mul va, ← Nat.div_div_eq_div_mul vb, h]

/-- A walk ends alike for the addresses of one page. -/
theorem walkFrom_page {va vb : Nat} (h : va / 4096 = vb / 4096) (cx : BitVec 6) (n table : Nat) :
    s.walkFrom cx va n table = s.walkFrom cx vb n table := by
  induction n generalizing table with
  | zero => rfl
  | succ n ih =>
    have hk := div_page_congr h (9 * n)
    have hone : va / 2 ^ (12 + 9 * n) = vb / 2 ^ (12 + 9 * n) := by simpa using hk 1
    simp only [State.walkFrom, hk, hone, ih]

theorem walkVa_page {va vb : Nat} (h : va / 4096 = vb / 4096) (cx : BitVec 6) : s.walkVa cx va = s.walkVa cx vb :=
  walkFrom_page h cx 5 _

/-- Walks read memory alone. -/
theorem walkFrom_congr (h : SameBut s t) (hm : t.mem = s.mem) (cx : BitVec 6) (va n table : Nat) :
    t.walkFrom cx va n table = s.walkFrom cx va n table := by
  have hpte : t.pte = s.pte := by
    unfold SameBut at h
    rw [hm] at h
    rw [h]
    rfl
  have hrd : t.rdNat = s.rdNat := by
    funext key k
    simp only [State.rdNat, State.rd, hm]
  have hcont : t.contiguous = s.contiguous := by
    funext table first k size e
    simp only [State.contiguous, hpte, hrd]
  induction n generalizing table with
  | zero => rfl
  | succ n ih => simp only [State.walkFrom, hpte, hrd, hcont, ih]

theorem walkVa_congr (h : SameBut s t) (hm : t.mem = s.mem) (cx : BitVec 6) (va : Nat) : t.walkVa cx va = s.walkVa cx va := by
  have hroot : t.ctxs = s.ctxs := by rw [h]
  rw [State.walkVa, State.walkVa, hroot, walkFrom_congr h hm]

end

/-! ## Where an access goes -/

theorem newWalk_ent (s : State) (cx : BitVec 6) (va : Nat) {e : TlbEnt} (h : (s.newWalk cx va).ent = some e) :
    s.walkVa cx va = .ok e := by
  unfold State.newWalk at h
  cases hw : s.walkVa cx va with
  | ok e' =>
    rw [hw] at h
    exact congrArg Except.ok (Option.some.inj h)
  | error c =>
    rw [hw] at h
    exact nomatch h

section
variable {s t : State}

theorem locateW_congr (h : SameBut s t) (hm : t.mem = s.mem) (hw : t.walks = s.walks) (cx : BitVec 6) (run : Option Run)
    (k : AKind) (va w : Nat) : t.locateW cx run k va w = s.locateW cx run k va w := by
  have hwalk := walkVa_congr h hm cx va
  have hloc : t.locate cx run k va w = s.locate cx run k va w := by
    unfold SameBut at h
    rw [hw] at h
    rw [h]
    rfl
  rw [State.locateW, State.locateW, hloc, hwalk]

theorem noteWalk_eq (s : State) (va : DWord) : ∃ ws, s.noteWalk va = { s with walks := ws } := by
  unfold State.noteWalk
  split
  · exact ⟨_, rfl⟩
  · exact ⟨s.walks, rfl⟩

theorem sameBut_noteWalk (s : State) (va : DWord) : SameBut s (s.noteWalk va) := (orders_noteWalk s va).accesses.same

section
variable (s : State) (va : DWord)

@[simp] theorem State.noteWalk_mem : (s.noteWalk va).mem = s.mem := by
  obtain ⟨ws, hws⟩ := noteWalk_eq s va
  rw [hws]

@[simp] theorem State.noteWalk_pend : (s.noteWalk va).pend = s.pend := by
  obtain ⟨ws, hws⟩ := noteWalk_eq s va
  rw [hws]

@[simp] theorem State.noteWalk_reads : (s.noteWalk va).reads = s.reads := by
  obtain ⟨ws, hws⟩ := noteWalk_eq s va
  rw [hws]

@[simp] theorem State.noteWalk_held : (s.noteWalk va).held = s.held := by
  obtain ⟨ws, hws⟩ := noteWalk_eq s va
  rw [hws]

@[simp] theorem State.noteWalk_rels : (s.noteWalk va).rels = s.rels := by
  obtain ⟨ws, hws⟩ := noteWalk_eq s va
  rw [hws]

@[simp] theorem State.noteWalk_turn : (s.noteWalk va).turn = s.turn := by
  obtain ⟨ws, hws⟩ := noteWalk_eq s va
  rw [hws]

@[simp] theorem State.noteWalk_oracle : (s.noteWalk va).oracle = s.oracle := by
  obtain ⟨ws, hws⟩ := noteWalk_eq s va
  rw [hws]

@[simp] theorem State.noteWalk_bank : (s.noteWalk va).bank = s.bank := by
  obtain ⟨ws, hws⟩ := noteWalk_eq s va
  rw [hws]

end

/-- What a noted walk adds to those in flight is what a walk of the address gives. -/
theorem inFlight_noteWalk (va : DWord) (cx : BitVec 6) (vb : Nat) :
    (s.noteWalk va).inFlight cx vb = s.inFlight cx vb ∨
      s.inFlight cx vb = none ∧ ∃ e, (s.noteWalk va).inFlight cx vb = some e ∧ s.walkVa cx vb = .ok e := by
  unfold State.noteWalk
  split
  · simp only [State.inFlight, List.find?_append]
    cases s.walks.find? fun w => w.ctx == cx && w.va / 4096 == vb / 4096 && w.ent.isSome with
    | some w => exact .inl rfl
    | none =>
      rw [Option.none_or, List.find?_singleton]
      split
      · next hnew =>
        simp only [Bool.and_eq_true, beq_iff_eq] at hnew
        obtain ⟨⟨hcx, hpage⟩, hent⟩ := hnew
        obtain ⟨e, he⟩ := Option.isSome_iff_exists.1 hent
        have hfields : (s.newWalk s.cx va.toNat).ctx = s.cx ∧ (s.newWalk s.cx va.toNat).va = va.toNat := by
          unfold State.newWalk
          dsimp only
          split <;> exact ⟨rfl, rfl⟩
        rw [hfields.1] at hcx
        rw [hfields.2] at hpage
        exact .inr ⟨rfl, e, he, by rw [← hcx, ← walkVa_page hpage, newWalk_ent s _ _ he]⟩
      · exact .inl rfl
  · exact .inl rfl

/-- An access that walks goes where the walk leads, whether it has been noted or not. -/
theorem locateW_noteWalk (va : DWord) (cx : BitVec 6) (run : Option Run) (k : AKind) (vb w : Nat) :
    (s.noteWalk va).locateW cx run k vb w = s.locateW cx run k vb w := by
  have hwalk : (s.noteWalk va).walkVa cx vb = s.walkVa cx vb := walkVa_congr (sameBut_noteWalk s va) (s.noteWalk_mem va) cx vb
  obtain ⟨hlocal, hweights, hbad, htlb⟩ : (s.noteWalk va).locateLocal = s.locateLocal ∧
      (s.noteWalk va).locateWeights = s.locateWeights ∧ (s.noteWalk va).walkBad = s.walkBad ∧
      (s.noteWalk va).tlbFind = s.tlbFind := by
    obtain ⟨ws, hws⟩ := noteWalk_eq s va
    rw [hws]
    exact ⟨rfl, rfl, rfl, rfl⟩
  rcases inFlight_noteWalk (s := s) va cx vb with hin | ⟨hnone, e, hin, he⟩
  · simp only [State.locateW, State.locate, hin, hwalk, hlocal, hweights, hbad, htlb]
  · simp only [State.locateW, State.locate, hnone, hin, hwalk, hlocal, hweights, hbad, htlb, he]
    cases s.walkBad cx vb with
    | some c => rfl
    | none =>
      cases s.tlbFind cx vb with
      | some e' => rfl
      | none => split_ifs <;> cases e.target k vb <;> rfl

end

/-! ## What copies hold back -/

/-- Copies find alike in both states where they read and write, and are the same. -/
structure CopiesAlike (s t : State) : Prop where
  locate : t.locateW = s.locateW
  served : t.served = s.served
  mem : t.mem = s.mem
  copies : t.workBank.copiesOf = s.workBank.copiesOf
  run : t.workBank.run = s.workBank.run

section
variable {s t u : State}

theorem CopiesAlike.trans (h : CopiesAlike s t) (h' : CopiesAlike t u) : CopiesAlike s u :=
  ⟨h'.locate.trans h.locate, h'.served.trans h.served, h'.mem.trans h.mem, h'.copies.trans h.copies, h'.run.trans h.run⟩

/-- Accesses leave the copies of the bank that goes on, and its run, as they were (R341). -/
theorem SameBut.workBank (h : SameBut s t) :
    t.workBank.copiesOf = s.workBank.copiesOf ∧ t.workBank.run = s.workBank.run := by
  have hserving : t.serving = s.serving := by rw [h]; rfl
  have hshadow : t.shadow = s.shadow := by rw [h]
  have hchans : t.bank.copiesOf = s.bank.copiesOf := by rw [h]; rfl
  have hrun : t.bank.run = s.bank.run := by rw [h]
  unfold State.workBank
  rw [hserving, hshadow]
  split
  · cases s.shadow with
    | none => exact ⟨hchans, hrun⟩
    | some b => exact ⟨rfl, rfl⟩
  · exact ⟨hchans, hrun⟩

theorem SameBut.served (h : SameBut s t) : t.served = s.served := by rw [h]; rfl

/-- Accesses that leave memory and the walks alone leave it as copies find it. -/
theorem copiesAlike_of_sameBut (h : SameBut s t) (hm : t.mem = s.mem) (hw : t.walks = s.walks) : CopiesAlike s t :=
  ⟨by funext cx run k va w; exact locateW_congr h hm hw cx run k va w, h.served, hm, h.workBank.1, h.workBank.2⟩

theorem copiesAlike_noteWalk (va : DWord) : CopiesAlike s (s.noteWalk va) :=
  ⟨by funext cx run k vb w; exact locateW_noteWalk va cx run k vb w, (sameBut_noteWalk s va).served, s.noteWalk_mem va,
    (sameBut_noteWalk s va).workBank.1, (sameBut_noteWalk s va).workBank.2⟩

/-- The index list of a copy is fetched alike. -/
theorem CopiesAlike.fetchIdx (h : CopiesAlike s t) (cx : BitVec 6) (run : Option Run) (c : Copy) (n i : Nat) :
    t.fetchIdx cx run c n i = s.fetchIdx cx run c n i := by
  induction n generalizing i with
  | zero => rfl
  | succ n ih => simp only [State.fetchIdx, h.locate, h.served, h.mem, State.rdNat, State.rd, ih]

theorem CopiesAlike.rowKeys (h : CopiesAlike s t) (cx : BitVec 6) (run : Option Run) (k : AKind) (n va : Nat) :
    t.rowKeys cx run k n va = s.rowKeys cx run k n va := by
  induction n generalizing va with
  | zero => rfl
  | succ n ih => simp only [State.rowKeys, h.locate, h.served, ih]

theorem CopiesAlike.copyLanes (h : CopiesAlike s t) (cx : BitVec 6) (run : Option Run) (c : Copy) :
    t.copyLanes cx run c = s.copyLanes cx run c := by
  have hlisted : t.listed cx run c = s.listed cx run c := by
    simp only [State.listed, State.indexStep, h.fetchIdx]
  have hkeys : t.dstKeys cx run (s.listed cx run c) = s.dstKeys cx run (s.listed cx run c) := by
    funext i
    simp only [State.dstKeys, h.rowKeys]
  simp only [State.copyLanes, hlisted, hkeys]

/-- What a copy holds back, it holds back in both states. -/
theorem CopiesAlike.owed (h : CopiesAlike s t) : t.owed = s.owed := by
  funext e
  simp only [State.owed, h.copies, h.run, h.copyLanes]

end

end Sys2Proof.Machine
end

section
/-! What performing accesses does to those still pending and to what has been noted: a write that is picked out is performed but for
those a copy holds back (R167), and a release once noted stays noted (R170). -/

namespace Sys2Proof.Machine

/-! ## Reads note nothing -/

/-- Reads have been performed: no walk and no release has been noted, writes are pending as before, and paths hold nothing more. -/
structure NotesKept (s t : State) : Prop where
  pend : t.pend = s.pend
  walks : t.walks = s.walks
  rels : t.rels = s.rels
  held : t.held ⊆ s.held

theorem NotesKept.refl (s : State) : NotesKept s s := ⟨rfl, rfl, rfl, List.Subset.refl _⟩

theorem NotesKept.trans {s t u : State} (h : NotesKept s t) (h' : NotesKept t u) : NotesKept s u :=
  ⟨h'.pend.trans h.pend, h'.walks.trans h.walks, h'.rels.trans h.rels, List.Subset.trans h'.held h.held⟩

section
variable (s : State)

theorem notesKept_dropOf (a : AgentId) (path : Path) (key n : Nat) : NotesKept s (s.dropOf a path key n) := by
  unfold State.dropOf
  split
  · exact .refl s
  · exact ⟨rfl, rfl, rfl, List.filter_subset_self _⟩

theorem notesKept_wholeOf (a : AgentId) (path : Path) (key n : Nat) : NotesKept s (s.wholeOf a path key n) := by
  unfold State.wholeOf
  split
  · exact .refl s
  · exact notesKept_dropOf ..

theorem notesKept_readElements (xs : List (Nat × DWord × Nat)) (r : PendR) :
    NotesKept s (State.readElements xs s r).1 := by
  induction xs generalizing s r with
  | nil => exact .refl s
  | cons x xs ih =>
    have hread : NotesKept s (s.readElement r x).1 := by
      refine (notesKept_wholeOf s r.agent r.path x.2.2 r.w).trans ?_
      exact ⟨rfl, rfl, rfl, List.Subset.refl _⟩
    exact hread.trans (ih ..)

theorem notesKept_readGo (p : PendR → Nat × DWord × Nat → Bool) (rs kept : List PendR) :
    NotesKept s (State.readGo p rs kept s) := by
  induction rs generalizing s kept with
  | nil => exact ⟨rfl, rfl, rfl, List.Subset.refl _⟩
  | cons r rs ih => exact (notesKept_readElements s ..).trans (ih ..)

theorem notesKept_readsWhere (p : PendR → Nat × DWord × Nat → Bool) : NotesKept s (s.readsWhere p) := by
  unfold State.readsWhere
  split
  · exact .refl s
  · exact notesKept_readGo ..

theorem notesKept_readTo (r : Nat) (p : PendR → Bool) : NotesKept s (s.readTo r p) := by
  unfold State.readTo
  split
  · exact notesKept_readsWhere ..
  · exact ⟨rfl, rfl, rfl, List.Subset.refl _⟩

/-- Performing reads leaves it as copies find it. -/
theorem copiesAlike_readsWhere (p : PendR → Nat × DWord × Nat → Bool) : CopiesAlike s (s.readsWhere p) :=
  copiesAlike_of_sameBut (accesses_readsWhere s p).same (s.mem_readsWhere p) (notesKept_readsWhere s p).walks

theorem copiesAlike_readTo (r : Nat) (p : PendR → Bool) : CopiesAlike s (s.readTo r p) :=
  copiesAlike_of_sameBut (orders_readTo s r p).accesses.same (s.mem_readTo r p) (notesKept_readTo s r p).walks

end

/-! ## Releases stay noted (R170) -/

/-- The same release, with no fewer regions published. -/
def Rel.within (r r' : Rel) : Prop :=
  r'.obj = r.obj ∧ r'.who = r.who ∧ r'.scope = r.scope ∧ r.regions ⊆ r'.regions

theorem Rel.within_refl (r : Rel) : r.within r := ⟨rfl, rfl, rfl, List.Subset.refl _⟩

theorem Rel.within_trans {a b c : Rel} (h : a.within b) (h' : b.within c) : a.within c := by
  obtain ⟨hobj, hwho, hscope, hregions⟩ := h
  obtain ⟨hobj', hwho', hscope', hregions'⟩ := h'
  exact ⟨hobj'.trans hobj, hwho'.trans hwho, hscope'.trans hscope, List.Subset.trans hregions hregions'⟩

/-- It synchronises with the same acquires. -/
theorem Rel.syncs_within {r r' : Rel} (h : r.within r') (a : AgentId) (obj : Nat) (sc : Scope) :
    r'.syncs a obj sc = r.syncs a obj sc := by
  obtain ⟨hobj, hwho, hscope, -⟩ := h
  rw [Rel.syncs, Rel.syncs, hobj, hwho, hscope]

/-- What was released in one state still is in the other. -/
def KeepsReleases (s t : State) : Prop := ∀ r ∈ s.rels, ∃ r' ∈ t.rels, r.within r'

theorem KeepsReleases.of_eq {s t : State} (h : t.rels = s.rels) : KeepsReleases s t :=
  fun r hr => ⟨r, h ▸ hr, r.within_refl⟩

theorem KeepsReleases.trans {s t u : State} (h : KeepsReleases s t) (h' : KeepsReleases t u) : KeepsReleases s u := by
  intro r hr
  obtain ⟨r', hr', hw⟩ := h r hr
  obtain ⟨r'', hr'', hw'⟩ := h' r' hr'
  exact ⟨r'', hr'', Rel.within_trans hw hw'⟩

/-- Accesses have been performed: what is pending besides is as it was, and what was released still is. -/
structure Performs (s t : State) : Prop where
  pend : t.pend = s.pend
  rels : KeepsReleases s t

theorem Performs.of_eq {s t : State} (hp : t.pend = s.pend) (hr : t.rels = s.rels) : Performs s t := ⟨hp, .of_eq hr⟩

theorem Performs.trans {s t u : State} (h : Performs s t) (h' : Performs t u) : Performs s u :=
  ⟨h'.pend.trans h.pend, h.rels.trans h'.rels⟩

section
variable (s : State)

theorem performs_readsWhere (p : PendR → Nat × DWord × Nat → Bool) : Performs s (s.readsWhere p) :=
  .of_eq (notesKept_readsWhere s p).pend (notesKept_readsWhere s p).rels

theorem performs_noteWrite (who : Party) (path : Path) (key n upto : Nat) : Performs s (s.noteWrite who path key n upto) := by
  refine (performs_readsWhere s fun r x =>
    meets x.2.2 r.w key n && (r.upto.map fun m => decide (who.distance r.agent ≤ min m upto)).getD false).trans ?_
  unfold State.noteWrite
  extract_lets t
  split
  · exact .of_eq rfl rfl
  · exact .of_eq rfl rfl

theorem performs_noteRelease (r : Rel) : Performs s (s.noteRelease r) := by
  unfold State.noteRelease
  cases hfind : s.rels.find? fun x => x.ctx == r.ctx && x.obj == r.obj && x.who == r.who && x.scope == r.scope with
  | none => exact ⟨rfl, fun q hq => ⟨q, List.mem_cons_of_mem _ hq, q.within_refl⟩⟩
  | some x =>
    refine ⟨rfl, fun q hq => ?_⟩
    by_cases hx : q = x
    · exact ⟨_, List.mem_cons_self, hx ▸ ⟨rfl, rfl, rfl, List.subset_append_left ..⟩⟩
    · exact ⟨q, List.mem_cons_of_mem _ ((List.mem_erase_of_ne hx).2 hq), q.within_refl⟩

theorem performs_noteReleases (r : Option Rel) : Performs s (s.noteReleases r) := by
  cases r with
  | none => exact .of_eq rfl rfl
  | some r => exact performs_noteRelease s r

theorem performs_land (e : PendW) (bs : List Byte) : Performs s (s.land e bs) :=
  (performs_noteWrite s (.here e.agent) e.path e.key bs.length 4).trans (.of_eq rfl rfl)

theorem performs_performAmo (e : PendW) (uid : Nat) (o : AmoOp) (b x : Nat) (d : Bool) (r : Option Rel) :
    Performs s (s.performAmo e uid o b x d r) := by
  unfold State.performAmo
  extract_lets w old take
  have htake : ∀ m, Performs s (take s m) := fun m => .of_eq rfl rfl
  split
  · split
    · exact (htake none).trans (.of_eq rfl rfl)
    · exact htake _
  · split
    · exact (htake none).trans ((performs_land ..).trans (performs_noteReleases ..))
    · exact htake none

theorem performs_perform (e : PendW) : Performs s (s.perform e) := by
  unfold State.perform
  split
  · exact performs_performAmo ..
  · split
    · extract_lets t u
      have hu : Performs s u := by
        refine (performs_land s e e.bytes).trans ?_
        dsimp only [u]
        split
        · exact .of_eq rfl rfl
        · exact .of_eq rfl rfl
      split
      · exact hu.trans (performs_noteRelease ..)
      · exact hu
    · exact .of_eq rfl rfl

/-- Performing pending writes, whichever stay, forgets no release. -/
theorem keepsReleases_settleGo (stays : Nat → PendW → Bool) (es : List PendW) (i : Nat) (kept : List PendW) :
    KeepsReleases s (State.settleGo stays i es kept s) := by
  induction es generalizing s i kept with
  | nil => exact .of_eq rfl
  | cons e es ih =>
    rw [State.settleGo]
    split
    · exact ih s (i + 1) (kept ++ [e])
    · exact (performs_perform s e).rels.trans (ih (s.perform e) (i + 1) kept)

theorem keepsReleases_flushWhere (p : PendW → Bool) : KeepsReleases s (s.flushWhere p) := by
  unfold State.flushWhere
  split
  · exact .of_eq rfl
  · exact keepsReleases_settleGo s _ s.pend 0 []

theorem keepsReleases_flushAt (path : Path) (key n : Nat) : KeepsReleases s (s.flushAt path key n) :=
  keepsReleases_flushWhere s _

theorem keepsReleases_readsAt (a : AgentId) (path : Path) (key n : Nat) : KeepsReleases s (s.readsAt a path key n) :=
  .of_eq (notesKept_readsWhere s _).rels

theorem keepsReleases_wholeOf (a : AgentId) (path : Path) (key n : Nat) : KeepsReleases s (s.wholeOf a path key n) :=
  .of_eq (notesKept_wholeOf s a path key n).rels

theorem keepsReleases_noteWalk (va : DWord) : KeepsReleases s (s.noteWalk va) := .of_eq (s.noteWalk_rels va)

theorem keepsReleases_beforeRead (path : Path) (key n : Nat) : KeepsReleases s (s.beforeRead path key n) :=
  (keepsReleases_flushAt s path key n).trans
    ((keepsReleases_readsAt _ s.turn path key n).trans (keepsReleases_wholeOf _ s.turn path key n))

theorem keepsReleases_reading (path : Path) (va : DWord) (key n : Nat) : KeepsReleases s (s.reading path va key n) :=
  (keepsReleases_noteWalk s va).trans (keepsReleases_beforeRead _ path key n)

end

/-! ## Which writes stay pending -/

theorem settleGo_pend_subset (stays : Nat → PendW → Bool) (es : List PendW) (i : Nat) (kept : List PendW) (s : State) :
    (State.settleGo stays i es kept s).pend ⊆ kept ++ es := by
  induction es generalizing i kept s with
  | nil => simp [State.settleGo]
  | cons e es ih =>
    rw [State.settleGo]
    split
    · exact List.Subset.trans (ih ..) (by simp)
    · exact List.Subset.trans (ih ..) (List.append_subset.2 ⟨by simp, by simp⟩)

theorem flushWhere_pend_subset (s : State) (p : PendW → Bool) : (s.flushWhere p).pend ⊆ s.pend := by
  unfold State.flushWhere
  split
  · exact List.Subset.refl _
  · exact settleGo_pend_subset ..

/-- A write that is requested is the only new one. -/
theorem request_pend_subset (s : State) (late : Bool) (e : PendW) : (s.request late e).pend ⊆ s.pend ++ [e] := by
  unfold State.request
  extract_lets n t
  have ht : t.pend ⊆ s.pend := by
    rw [show t.pend = _ from ((notesKept_readsWhere _ _).trans (notesKept_dropOf ..)).pend]
    exact flushWhere_pend_subset ..
  split
  · exact List.append_subset.2 ⟨List.Subset.trans ht (List.subset_append_left ..), List.subset_append_right ..⟩
  · rw [(performs_perform t e).pend]
    exact List.Subset.trans ht (List.subset_append_left ..)

theorem storeAs_pend_subset (s : State) (kind : PendK) (path : Path) (va : DWord) (key lane : Nat) (clean : Bool) (bs : List Byte) :
    ∀ e ∈ (s.storeAs kind path va key lane clean bs).pend, e ∈ s.pend ∨ e.kind = kind := by
  unfold State.storeAs
  split
  · intro e he
    rcases List.mem_append.1 (request_pend_subset s _ _ he) with h | h
    · exact .inl h
    · exact .inr (by rw [List.mem_singleton.1 h])
  · exact fun e he => .inl he

/-- A write that a test does not pick out, and that comes before none of some later ones that it does. -/
def PendW.unasked (p : PendW → Bool) (later : List PendW) (e : PendW) : Prop :=
  p e = false ∧ ∀ f ∈ later, p f = true → e.before f = false

theorem PendW.before_iff {e f : PendW} : e.before f = true ↔
    e.plain = true ∧ f.plain = true ∧ e.agent = f.agent ∧ keyLane e.key = keyLane f.key ∧ homeOf e.key = homeOf f.key := by
  simp only [PendW.before, sameLane, Bool.and_eq_true, beq_iff_eq, and_assoc]

theorem PendW.before_trans {e f g : PendW} (h : e.before f = true) (h' : f.before g = true) : e.before g = true := by
  obtain ⟨he, -, ha, hl, hh⟩ := PendW.before_iff.1 h
  obtain ⟨-, hg, ha', hl', hh'⟩ := PendW.before_iff.1 h'
  exact PendW.before_iff.2 ⟨he, hg, ha.trans ha', hl.trans hl', hh.trans hh'⟩

/-- A write that is kept keeps those of its lane behind it: where only writes not asked for stay of themselves, no write asked for
stays (R167). -/
theorem settleGo_unasked {p : PendW → Bool} {stays : Nat → PendW → Bool} {all : List PendW}
    (hstays : ∀ pre e post, all = pre ++ e :: post → stays pre.length e = true → e.unasked p post)
    {es : List PendW} {pre kept : List PendW} {s : State} (hall : all = pre ++ es) (hkept : ∀ g ∈ kept, g.unasked p es) :
    ∀ e ∈ (State.settleGo stays pre.length es kept s).pend, p e = false := by
  induction es generalizing pre kept s with
  | nil => exact fun e he => (hkept e he).1
  | cons e es ih =>
    have hrest : ∀ g ∈ kept, g.unasked p es := fun g hg =>
      ⟨(hkept g hg).1, fun f hf => (hkept g hg).2 f (List.mem_cons_of_mem _ hf)⟩
    have hnext : all = (pre ++ [e]) ++ es := by rw [hall, List.append_assoc]; rfl
    have hlen : pre.length + 1 = (pre ++ [e]).length := by simp
    rw [State.settleGo, hlen]
    split
    · next hstay =>
      have hself : e.unasked p es := by
        rcases (Bool.or_eq_true_iff ..).1 hstay with h | h
        · exact hstays pre e es hall h
        · obtain ⟨g, hg, hge⟩ := List.any_eq_true.1 h
          obtain ⟨-, hafter⟩ := hkept g hg
          refine ⟨Bool.eq_false_iff.2 fun hp => ?_, fun f hf hp => Bool.eq_false_iff.2 fun hef => ?_⟩
          · exact absurd hge (by simp [hafter e List.mem_cons_self hp])
          · exact absurd (PendW.before_trans hge hef) (by simp [(hrest g hg).2 f hf hp])
      refine ih hnext fun g hg => ?_
      rcases List.mem_append.1 hg with h | h
      · exact hrest g h
      · exact List.mem_singleton.1 h ▸ hself
    · exact ih hnext hrest

theorem needed_append (p : PendW → Bool) (pre : List PendW) (e : PendW) (post : List PendW) :
    (needed p (pre ++ e :: post)).getD pre.length true = (p e || post.any fun f => p f && e.before f) := by
  induction pre with
  | nil => rfl
  | cons d pre ih => exact ih

/-- The write is not needed by those after it. -/
theorem unasked_of_not_needed {p : PendW → Bool} {pre post : List PendW} {e : PendW}
    (h : (needed p (pre ++ e :: post)).getD pre.length true = false) : e.unasked p post := by
  rw [needed_append] at h
  simp only [Bool.or_eq_false_iff, List.any_eq_false, Bool.and_eq_true, not_and] at h
  exact ⟨h.1, fun f hf hp => Bool.eq_false_iff.2 (h.2 f hf hp)⟩

/-- Performing the writes that a test picks out leaves none of them where none waits for a copy. -/
theorem flushWhere_unasked {s : State} {p : PendW → Bool}
    (howed : ∀ pre e post, s.pend = pre ++ e :: post → s.owed e = true → e.unasked p post) :
    ∀ e ∈ (s.flushWhere p).pend, p e = false := by
  unfold State.flushWhere
  split
  · next h =>
    exact fun e he => absurd (List.isEmpty_iff.1 h ▸ he) List.not_mem_nil
  · refine settleGo_unasked (pre := []) (fun pre e post hall hstay => ?_) rfl (by simp)
    rcases (Bool.or_eq_true_iff ..).1 hstay with h | h
    · rw [List.nil_append] at hall
      rw [hall] at h
      exact unasked_of_not_needed (by simpa using h)
    · exact howed pre e post hall h

/-! ## What a copy holds back (R167) -/

/-- The write is one of an agent on the paths that a test names. -/
def PendW.on (a : AgentId) (q : Path → Bool) (e : PendW) : Bool := e.agent == a && q e.path

section
variable {s : State} {q : Path → Bool}

theorem before_self_of_owed {e : PendW} (h : s.owed e = true) : e.before e = true := by
  simp only [State.owed, Bool.and_eq_true] at h
  obtain ⟨⟨-, hplain⟩, -⟩ := h
  exact PendW.before_iff.2 ⟨hplain, hplain, rfl, rfl, rfl⟩

/-- Of writes none of which waits for a copy, one that a copy owes comes before none. -/
theorem unasked_of_heldBackGo {older es : List PendW} (h : s.heldBackGo (fun e => q e.path) older es = false) :
    (∀ e ∈ older, s.owed e = true → ∀ f ∈ es, f.on s.turn q = true → e.before f = false) ∧
    ∀ pre e post, es = pre ++ e :: post → s.owed e = true → e.unasked (PendW.on s.turn q) post := by
  induction es generalizing older with
  | nil => exact ⟨fun _ _ _ _ hf => absurd hf List.not_mem_nil, fun pre e post he => by simp at he⟩
  | cons d es ih =>
    rw [State.heldBackGo, Bool.or_eq_false_iff] at h
    obtain ⟨hd, hrest⟩ := h
    obtain ⟨hafter, hsplit⟩ := ih hrest
    have hhead : ∀ e ∈ d :: older, s.owed e = true → d.on s.turn q = true → e.before d = false := by
      intro e he ho hon
      refine Bool.eq_false_iff.2 fun hb => Bool.eq_false_iff.1 hd ?_
      rw [Bool.and_eq_true]
      exact ⟨hon, List.any_eq_true.2 ⟨e, he, by rw [hb, ho]; rfl⟩⟩
    refine ⟨fun e he ho f hf hon => ?_, fun pre e post hes ho => ?_⟩
    · rcases List.mem_cons.1 hf with rfl | hf
      · exact hhead e (List.mem_cons_of_mem _ he) ho hon
      · exact hafter e (List.mem_cons_of_mem _ he) ho f hf hon
    · cases pre with
      | nil =>
        obtain ⟨rfl, rfl⟩ := List.cons.inj hes
        refine ⟨Bool.eq_false_iff.2 fun hon => ?_, hafter d List.mem_cons_self ho⟩
        exact absurd (before_self_of_owed ho) (by simp [hhead d List.mem_cons_self ho hon])
      | cons x pre => exact hsplit pre e post (List.cons.inj hes).2 ho

/-- Writes of the agent at issue that are ordered at a reach, none of them held back, are performed for it: for the system there is
none left, for less they count as performed (R160, R161). -/
theorem publish_seen {t : State} (hc : CopiesAlike s t) (hp : t.pend = s.pend)
    (h : s.heldBack (fun e => q e.path) = false) (r : Nat) :
    ∀ e ∈ (t.publish r (PendW.on s.turn q)).pend, e.on s.turn q = true → r < 4 ∧ ∃ n, e.seen = some n ∧ r ≤ n := by
  intro e he hon
  unfold State.publish at he
  split at he
  · have hnone := flushWhere_unasked (s := t) (p := PendW.on s.turn q) (fun pre f post hall ho => by
      rw [hc.owed] at ho
      exact (unasked_of_heldBackGo h).2 pre f post (hp ▸ hall) ho) e he
    exact absurd hon (by simp [hnone])
  · next hr =>
    obtain ⟨f, -, rfl⟩ := List.mem_map.1 he
    have hf : f.on s.turn q = true := by
      split at hon
      · assumption
      · exact hon
    rw [if_pos hf]
    exact ⟨by omega, _, rfl, Nat.le_max_left ..⟩

end

end Sys2Proof.Machine
end

section
/-! Litmus tests of one core (R162, R166, R167, R171, R174): stores and loads performed late, bytes read early, and what fences,
releases and acquires leave. -/

namespace Sys2Proof.Machine

/-! ## A store that stays pending (R162, R167) -/

section
variable {s : State}

/-- What a copy owes at a key it owes of the plain write that the agent at issue requests there. -/
theorem owed_of_owes {e : PendW} (h : Owes s e.key) (he : e.agent = s.turn) (hp : e.path = .own) (hk : e.kind = .plain)
    (hno : e.no = s.workBank.uid) : s.owed e = true := by
  obtain ⟨ht, c, hc, hi, hlt, hl⟩ := h
  simp only [State.owed, Bool.and_eq_true, beq_iff_eq, List.any_eq_true, List.mem_filter, decide_eq_true_eq,
    List.contains_iff_mem]
  exact ⟨⟨⟨he.trans ht, hp⟩, hk⟩, c, ⟨hc, hi, hno ▸ hlt⟩, hl⟩

/-- A write that is late or that a copy holds back is the one pending; its bytes are not written. -/
theorem request_pending (hp : s.pend = []) (hh : s.held = []) {late : Bool} {e : PendW} (h : late = true ∨ s.owed e = true) :
    (s.request late e).mem = s.mem ∧ (s.request late e).held = [] ∧ (s.request late e).pend = [e] := by
  obtain ⟨t, ht⟩ : ∃ t, s.readsAt s.turn e.path e.key e.bytes.length = t := ⟨_, rfl⟩
  have hkept : NotesKept s t := ht ▸ notesKept_readsWhere s _
  have halike : CopiesAlike s t := ht ▸ copiesAlike_readsWhere s _
  have hpend : t.pend = [] := hkept.pend.trans hp
  have hheld : t.held = [] := List.subset_nil.1 (hh ▸ hkept.held)
  have hstays : (late || t.owed e || t.pend.any (·.before e)) = true := by
    rw [halike.owed]
    rcases h with h | h <;> simp [h]
  have hreq : s.request late e = { t with pend := [e] } := by
    rw [State.request, flushWhere_none (by simp [hp]), ht, dropAt_noneHeld hheld]
    exact (if_pos hstays).trans (by rw [hpend]; rfl)
  rw [hreq]
  exact ⟨halike.mem, hheld, rfl⟩

/-- A plain store of the own path that is late or held back. -/
theorem storePlain_pending {key : Nat} (hs : s.served key true = true) (hp : s.pend = []) (hh : s.held = [])
    (h : s.lateMask.testBit 0 = true ∨ Owes s key) (va : DWord) (bs : List Byte) :
    (s.storePlain .own va key 0 false bs).mem = s.mem ∧ (s.storePlain .own va key 0 false bs).held = [] ∧
      (s.storePlain .own va key 0 false bs).pend
        = [⟨s.turn, .own, va, 0, key, bs, false, none, s.workBank.uid, .plain⟩] := by
  rw [State.storePlain, State.storeAs, if_pos hs]
  exact request_pending hp hh (h.imp_right fun ho => owed_of_owes ho rfl rfl rfl rfl)

/-- Where one write is pending and nothing is held, every path but its own sees memory (R163). -/
theorem viewOf_pending {e : PendW} (hp : s.pend = [e]) (hh : s.held = []) {b : AgentId} {path : Path}
    (h : b ≠ e.agent ∨ path ≠ e.path) (key n : Nat) : s.viewOf b path key n = s.rd key n := by
  have hother : (e.agent == b && e.path == path && e.touches key n) = false := by
    rcases h with h | h <;> simp [h.symm]
  simp [State.viewOf, State.heldAt, hp, hh, hother]

/-- A plain `st` whose write is late or held back leaves it pending. -/
theorem execSt_pending {d : Opnd} {bp : BitVec 4} {sz : Size} {off : BitVec 24} {key : Nat}
    (hb : Readable s (baseOp bp) .w64) {v : DWord} (hv : s.rdSz (sz = .d) d = .ok v)
    (ha : s.access .write (effAddr (s.val64 (baseOp bp)) off) sz.bytes 0 = .ok key) (hs : s.served key true = true)
    (hp : s.pend = []) (hh : s.held = [])
    (h : s.lateMask.testBit 0 = true ∨ Mapped s (effAddr (s.val64 (baseOp bp)) off) ∧ Owes s key) (c : Scope) :
    ∃ t e, execSt d bp sz c false off s = .next t ∧ t.mem = s.mem ∧ t.pend = [e] ∧ t.held = [] ∧ e.agent = s.turn ∧
      e.path = .own ∧ e.key = key ∧ e.bytes = bytesOf sz.bytes v.toNat := by
  obtain ⟨va, hva⟩ : ∃ va, effAddr (s.val64 (baseOp bp)) off = va := ⟨_, rfl⟩
  rw [hva] at ha h
  have hlate : (s.noteWalk va).lateMask.testBit 0 = true ∨ Owes (s.noteWalk va) key := by
    refine h.imp (fun h => ?_) fun ⟨hm, ho⟩ => ?_
    · rwa [State.lateMask, s.noteWalk_oracle]
    · rwa [State.noteWalk_mapped hm]
  have hserved : (s.noteWalk va).served key true = true := by rwa [(sameBut_noteWalk s va).served]
  obtain ⟨hmem, hheld, hpend⟩ := storePlain_pending (s := s.noteWalk va) hserved
    (by simpa using hp) (by simpa using hh) hlate va (bytesOf sz.bytes v.toNat)
  refine ⟨((s.noteWalk va).storePlain .own va key 0 false (bytesOf sz.bytes v.toNat)).usedLate, _, ?_,
    hmem.trans (s.noteWalk_mem va), hpend, hheld, ?_, rfl, rfl, rfl⟩
  case refine_2 => exact s.noteWalk_turn va
  simp only [execSt, Bool.false_eq_true, if_false, rdBase_ok hb, hv, bind, Except.bind, hva, ha, pure, Except.pure, finish_ok]

end

/-! ## Loads: late, and of bytes read early (R162, R166) -/

section
variable {s : State}

/-- With nothing pending a read makes its path hold no more, and notes its walk. -/
theorem reading_quiet (hp : s.pend = []) (hr : s.reads = []) (path : Path) (va : DWord) (key n : Nat) :
    s.reading path va key n = (s.noteWalk va).wholeOf s.turn path key n := by
  rw [State.reading, State.beforeRead, State.flushAt, flushWhere_none (by simp [hp]), State.readsAt,
    readsWhere_none (by simpa using hr), s.noteWalk_turn]

theorem wholeOf_eq (a : AgentId) (path : Path) (key n : Nat) : ∃ hs, s.wholeOf a path key n = { s with held := hs } := by
  unfold State.wholeOf State.dropOf
  split
  · exact ⟨s.held, rfl⟩
  · split
    · exact ⟨s.held, rfl⟩
    · exact ⟨_, rfl⟩

/-- A load whose element the outside leaves for later. -/
theorem loadPlain_late (h : s.lateRead 0 = true) (hr : s.reads = []) (sc : Sched) (d : Opnd) (sz : Size) (va : DWord)
    (key : Nat) :
    (s.loadPlain sc d sz va key).reads = [⟨s.turn, .own, s.bank.uid, false, sz.bytes, [(0, va, key)], none, none⟩] := by
  rw [State.loadPlain, State.loadResult, State.putM, State.deliver_reads, State.readLater, h]
  simp [hr]

theorem execLd_late {bp : BitVec 4} {off : BitVec 24} {sz : Size} {key : Nat} (hb : Readable s (baseOp bp) .w64)
    (ha : s.access .read (effAddr (s.val64 (baseOp bp)) off) sz.bytes 0 = .ok key) (hp : s.pend = []) (hr : s.reads = [])
    (h : s.lateRead 0 = true) (sc : Sched) (d : Opnd) (c : Scope) :
    ∃ t, execLd sc d bp sz c false off s = .next t ∧ t.reads = [⟨s.turn, .own, s.bank.uid, false, sz.bytes,
      [(0, effAddr (s.val64 (baseOp bp)) off, key)], none, none⟩] := by
  obtain ⟨va, hva⟩ : ∃ va, effAddr (s.val64 (baseOp bp)) off = va := ⟨_, rfl⟩
  rw [hva] at ha ⊢
  obtain ⟨hs, hread⟩ := wholeOf_eq (s := s.noteWalk va) s.turn .own key sz.bytes
  rw [← reading_quiet hp hr] at hread
  refine ⟨(s.reading .own va key sz.bytes).loadPlain sc d sz va key, ?_, ?_⟩
  · simp only [execLd, Bool.false_eq_true, if_false, rdBase_ok hb, bind, Except.bind, hva, ha, pure, Except.pure, finish_ok]
  · rw [loadPlain_late]
    · simp [hread]
    · rw [hread, State.lateRead]
      simpa [State.lateRead] using h
    · simpa [hread] using hr

/-- A load of bytes that its path has read early delivers them. -/
theorem execLd_held {bp : BitVec 4} {off : BitVec 24} {sz : Size} {key : Nat} {h : Held} (hb : Readable s (baseOp bp) .w64)
    (ha : s.access .read (effAddr (s.val64 (baseOp bp)) off) sz.bytes 0 = .ok key)
    (hm : Mapped s (effAddr (s.val64 (baseOp bp)) off)) (hp : s.pend = []) (hr : s.reads = []) (hl : s.oracle.lateReads = [])
    (hh : s.held = [h]) (hc : h.covers s.turn .own key sz.bytes = true) (sc : Sched) (d : Opnd) (c : Scope) :
    execLd sc d bp sz c false off s = .next (s.putM sc d (sz = .d) 6
      (BitVec.ofNat 64 (ofBytes ((h.bytes.drop (key - h.key)).take sz.bytes))) none) := by
  have hat : s.heldAt s.turn .own key sz.bytes = some ((h.bytes.drop (key - h.key)).take sz.bytes) := by
    simp [State.heldAt, hh, hc]
  have hwhole : s.wholeOf s.turn .own key sz.bytes = s := by simp [State.wholeOf, hat]
  have hload : ∀ va, s.loadPlain sc d sz va key = s.putM sc d (sz = .d) 6
      (BitVec.ofNat 64 (ofBytes ((h.bytes.drop (key - h.key)).take sz.bytes))) none := fun va => by
    simp [State.loadPlain, lateRead_none hl, readLater_none hl, State.loadResult, State.view, State.viewOf, hp, hat,
      State.readMark, State.markOf]
  simp only [execLd, Bool.false_eq_true, if_false, rdBase_ok hb, bind, Except.bind, ha, reading_quiet hp hr,
    State.noteWalk_mapped hm, hwhole, hload, pure, Except.pure, finish_ok]

end

/-! ## What orders leave (R160, R161, R166, R171, R174) -/

section
variable {s t : State}

/-- An instruction that waits for its writes and runs has found none of them held back. -/
theorem finishWaiting_runs {p : Path → Bool} {r : Except Stop State} (h : s.finishWaiting p r = .next t) (hv : t.verdict = .ok) :
    r = .ok t ∧ s.heldBack (fun e => p e.path) = false := by
  have hok := finishWaiting_verdict h hv
  refine ⟨hok, Bool.eq_false_iff.2 fun hb => ?_⟩
  rw [hok] at h
  simp only [State.finishWaiting, hb, if_true, finish_wait] at h
  cases h
  exact absurd hv nofun

/-- What is not read anew: it has missed no write within reach (R174). -/
theorem not_staleAt {h : Held} {c : Scope} (hs : h.staleAt (reach c) = false) :
    (∀ n, h.missed = some n → reach c < n) ∧ (h.missed = none → c = .clu) := by
  unfold Held.staleAt at hs
  refine ⟨fun n hn => ?_, fun hn => ?_⟩
  · simpa [hn] using hs
  · cases c with
    | clu => rfl
    | cor | die | pkg | sys => simp [hn, reach] at hs

theorem staleAt_of_mem_readAnew {r : Nat} {p : Held → Bool} {h : Held} (hm : h ∈ (s.readAnew r p).held) (ha : h.agent = s.turn)
    (hp : p h = true) : h.staleAt r = false := by
  have hkeep := (List.mem_filter.1 hm).2
  simpa [ha, hp] using hkeep

theorem fenceOwn_pend {c : Scope} {a b : BitVec 7} (hb : s.heldBack (fun e => inSet a e.path) = false) :
    ∀ e ∈ (s.fenceOwn c a b).pend, e.agent = s.turn → inSet a e.path = true →
      reach c < 4 ∧ ∃ n, e.seen = some n ∧ reach c ≤ n := by
  intro e he ha hset
  exact publish_seen (copiesAlike_readTo s (reach c) _) (notesKept_readTo s (reach c) _).pend hb (reach c) e he
    (by simp [PendW.on, ha, hset])

theorem fenceOwn_held {c : Scope} {a b : BitVec 7} :
    ∀ h ∈ (s.fenceOwn c a b).held, h.agent = s.turn → inSet b h.path = true → h.covered = true →
      h.staleAt (reach c) = false := by
  intro h hm ha hset hcov
  have hturn : ∀ p q, ((s.readTo (reach c) p).publish (reach c) q).turn = s.turn := fun p q =>
    ((orders_readTo s (reach c) p).accesses.trans (accesses_publish _ (reach c) q)).same.turn
  exact staleAt_of_mem_readAnew hm (ha.trans (hturn _ _).symm) (by simp [hset, hcov])

/-- What a `fence.x` with both sets is, where it runs. -/
theorem execFenceX_runs {c : Scope} {a b : BitVec 7} (ha : a ≠ 0) (hb : b ≠ 0) (h : execFenceX c a b s = .next t)
    (hv : t.verdict = .ok) : t = s.fenceOwn c a b ∧ s.heldBack (fun e => inSet a e.path) = false := by
  rw [execFenceX, if_neg (not_or.2 ⟨ha, hb⟩)] at h
  obtain ⟨hok, hheld⟩ := finishWaiting_runs h hv
  split at hok
  · exact nomatch hok
  · exact ⟨(Except.ok.inj hok).symm, hheld⟩

/-- A release leaves of its path's writes none that its scope has not seen. -/
theorem beforeRelease_pend {u : State} {c : Scope} (hc : CopiesAlike s u) (hp : u.pend = s.pend) (ht : u.turn = s.turn)
    (hb : s.heldBack (fun e => e.path == .own) = false) :
    ∀ e ∈ (u.beforeRelease c).pend, e.agent = s.turn → e.path = .own → reach c < 4 ∧ ∃ n, e.seen = some n ∧ reach c ≤ n := by
  intro e he ha hpath
  have hturn : (u.readOwn (reach c)).turn = s.turn := (orders_readOwn u (reach c)).accesses.same.turn.trans ht
  have hown : (u.readOwn (reach c)).publishOwn (reach c)
      = (u.readOwn (reach c)).publish (reach c) (PendW.on s.turn (· == .own)) := by
    rw [State.publishOwn, hturn]
    rfl
  have halike : CopiesAlike u (u.readOwn (reach c)) := copiesAlike_readTo ..
  have hpend : (u.readOwn (reach c)).pend = u.pend := (notesKept_readTo ..).pend
  rw [State.beforeRelease, hown] at he
  exact publish_seen (hc.trans halike) (hpend.trans hp) hb (reach c) e he (by simp [PendW.on, ha, hpath])

theorem execSt_release_pend {d : Opnd} {bp : BitVec 4} {sz : Size} {c : Scope} {off : BitVec 24}
    (h : execSt d bp sz c true off s = .next t) (hv : t.verdict = .ok) :
    ∀ e ∈ t.pend, e.agent = s.turn → e.path = .own → e.kind = .plain →
      reach c < 4 ∧ ∃ n, e.seen = some n ∧ reach c ≤ n := by
  rw [execSt, if_pos rfl] at h
  obtain ⟨hok, hb⟩ := finishWaiting_runs h hv
  refine (show Yields _ fun t => ∀ e ∈ t.pend, e.agent = s.turn → e.path = .own → e.kind = .plain →
      reach c < 4 ∧ ∃ n, e.seen = some n ∧ reach c ≤ n from ?_) t hok
  refine yields_after fun base => yields_after fun v => yields_after fun key => yields_ok ?_
  intro e he ha hpath hk
  rcases storeAs_pend_subset _ _ _ _ _ _ _ _ e he with hm | hk'
  · exact beforeRelease_pend (copiesAlike_noteWalk _) (s.noteWalk_pend _) (s.noteWalk_turn _) hb e hm ha hpath
  · rw [hk] at hk'
    exact nomatch hk'

/-- An ordered load leaves of the own path nothing of its location (R171). -/
theorem apart_of_mem_atHome {key n : Nat} {h : Held} (hm : h ∈ (s.atHome key n).held) (ha : h.agent = s.turn) (hp : h.path = .own) :
    h.key + h.bytes.length ≤ key ∨ key + n ≤ h.key := by
  unfold State.atHome State.dropAt State.dropOf at hm
  split at hm
  · next hnone => exact absurd (List.isEmpty_iff.1 hnone ▸ hm) List.not_mem_nil
  · have hkeep := (List.mem_filter.1 hm).2
    have hmeets : meets h.key h.bytes.length key n = false := by simpa [ha, hp] using hkeep
    simp only [meets, Bool.and_eq_false_iff, decide_eq_false_iff_not] at hmeets
    omega

theorem mem_acquire {c : Scope} {obj : Nat} {h : Held} (hm : h ∈ (s.acquire c obj).held) (ha : h.agent = s.turn)
    (hp : h.path = .own) : h ∈ s.held ∧ (h.covered = true → h.staleAt (reach c) = false) ∧
      (h.staleAt 4 = true → ∀ r ∈ s.rels, r.syncs s.turn obj c = true → ∀ g ∈ r.regions,
        h.key + h.bytes.length ≤ g.1 ∨ g.2 ≤ h.key) := by
  have hfirst := (List.mem_filter.1 hm).1
  refine ⟨(List.mem_filter.1 hfirst).1, fun hc => staleAt_of_mem_readAnew hfirst ha (by simp [hp, hc]), fun hs r hr hsync g hg => ?_⟩
  by_contra hin
  have hregion : h.inRegions ((s.rels.filter fun r => r.syncs s.turn obj c).flatMap (·.regions)) = true := by
    refine List.any_eq_true.2 ⟨g, List.mem_flatMap.2 ⟨r, List.mem_filter.2 ⟨hr, hsync⟩, hg⟩, ?_⟩
    rw [Bool.and_eq_true, decide_eq_true_eq, decide_eq_true_eq]
    omega
  have hfresh : h.staleAt 4 = false := staleAt_of_mem_readAnew hm ha (by simp [hp, hregion])
  exact absurd hs (by simp [hfresh])

/-- What an acquiring `ld` is, where it runs. -/
theorem execLd_acquire_runs {sc : Sched} {d : Opnd} {bp : BitVec 4} {sz : Size} {c : Scope} {off : BitVec 24} {key : Nat}
    (h : execLd sc d bp sz c true off s = .next t) (hv : t.verdict = .ok)
    (ha : s.access .read (effAddr (s.val64 (baseOp bp)) off) sz.bytes 0 = .ok key) :
    t = (((s.reading .own (effAddr (s.val64 (baseOp bp)) off) key sz.bytes).atHome key sz.bytes).loadResult sc d sz
      (effAddr (s.val64 (baseOp bp)) off) key).acquire c key := by
  rw [execLd, if_pos rfl] at h
  refine (show Yields _ fun t => t = _ from ?_) t (finishWaiting_verdict h hv)
  refine yields_bind (yields_rdBase s bp) fun base hb => yields_bind (yields_self _) fun key' hk => yields_after fun _ =>
    yields_ok ?_
  subst hb
  obtain rfl : key = key' := Except.ok.inj (ha.symm.trans hk)
  rfl

end

theorem ne_sys_of_reach {c : Scope} (h : reach c < 4) : c ≠ .sys := by
  rintro rfl
  exact absurd h (by decide)

/-- The mask in use is the first of its list. -/
theorem testBit_headD {l : List Nat} (h : l.head?.map (·.testBit 0) = some true) : (l.headD 0).testBit 0 = true := by
  cases l with
  | nil => exact nomatch h
  | cons x l => exact Option.some.inj h

/-- What a load served at its home leaves held where it acquires. -/
theorem mem_loadAcquire {u : State} {sc : Sched} {d : Opnd} {sz : Size} {va : DWord} {key : Nat} {c : Scope} {x : Held}
    (hx : x ∈ (((u.atHome key sz.bytes).loadResult sc d sz va key).acquire c key).held) (ha : x.agent = u.turn)
    (hp : x.path = .own) : (x.key + x.bytes.length ≤ key ∨ key + sz.bytes ≤ x.key) ∧
      (x.covered = true → x.staleAt (reach c) = false) ∧
      (x.staleAt 4 = true → ∀ r ∈ u.rels, r.syncs u.turn key c = true → ∀ g ∈ r.regions,
        x.key + x.bytes.length ≤ g.1 ∨ g.2 ≤ x.key) := by
  have hloc := fun hm => apart_of_mem_atHome (s := u) (key := key) (n := sz.bytes) (h := x) hm ha hp
  have hturn : (u.atHome key sz.bytes).turn = u.turn := (orders_atHome u key sz.bytes).accesses.same.turn
  have hrels : (u.atHome key sz.bytes).rels = u.rels := (notesKept_dropOf u u.turn .own key sz.bytes).rels
  generalize u.atHome key sz.bytes = v at hx hloc hturn hrels
  obtain ⟨hin, hcovered, hregions⟩ := mem_acquire hx (ha.trans hturn.symm) hp
  refine ⟨hloc hin, hcovered, fun hs r hr hsync => hregions hs r ?_ ?_⟩
  · exact hrels ▸ hr
  · exact hturn ▸ hsync

/-- What an acquiring `ld` leaves of its own path (R166, R170, R171, R174). -/
theorem execLd_acquire_held {s t : State} {sc : Sched} {d : Opnd} {bp : BitVec 4} {sz : Size} {c : Scope} {off : BitVec 24}
    {key : Nat} (h : execLd sc d bp sz c true off s = .next t) (hv : t.verdict = .ok)
    (hk : s.access .read (effAddr (s.val64 (baseOp bp)) off) sz.bytes 0 = .ok key) :
    ∀ x ∈ t.held, x.agent = s.turn → x.path = .own → (x.key + x.bytes.length ≤ key ∨ key + sz.bytes ≤ x.key) ∧
      (x.covered = true → x.staleAt (reach c) = false) ∧
      (x.staleAt 4 = true → ∀ r ∈ s.rels, r.syncs s.turn key c = true → ∀ g ∈ r.regions,
        x.key + x.bytes.length ≤ g.1 ∨ g.2 ≤ x.key) := by
  intro x hx ha hp
  rw [execLd_acquire_runs h hv hk] at hx
  have hturn := (orders_reading s .own (effAddr (s.val64 (baseOp bp)) off) key sz.bytes).accesses.same.turn
  have hrels := keepsReleases_reading s .own (effAddr (s.val64 (baseOp bp)) off) key sz.bytes
  obtain ⟨hloc, hcovered, hregions⟩ := mem_loadAcquire hx (ha.trans hturn.symm) hp
  refine ⟨hloc, hcovered, fun hs r hr hsync g hg => ?_⟩
  obtain ⟨r', hr', hw⟩ := hrels r hr
  obtain ⟨-, -, -, hsub⟩ := id hw
  refine hregions hs r' hr' ?_ g (hsub hg)
  rw [r.syncs_within hw, hturn]
  exact hsync

/-- Settles O20: each litmus clause is what one instruction leaves pending, held or noted. -/
theorem memoryOrder : Obligations.MemoryOrder := by
  unfold Obligations.MemoryOrder
  refine ⟨fun s d bp sz c off key hb hd => ?_, fun s sc d bp sz c off key hb ha hp hr hl => ?_,
    fun s sc d bp sz c off key h hb ha hm hp hr hl hh hag hpath hlo hhi => ?_, fun s t c a b ha hb h hv => ⟨?_, ?_⟩,
    fun s t d bp sz c off h hv e he ha hp hk => ?_, fun s t sc d bp sz c off key h hv hk x hx ha hp => ?_⟩
  case refine_1 =>
    intro va ha hs hp hh hlate
    have hval := rdSz_ok_of_width (s := s) (wide := decide (sz = .d)) (o := d) (by simpa using hd)
    obtain ⟨t, e, hexec, hmem, hpend, hheld, hag, hpath, hkey, hbytes⟩ :=
      execSt_pending hb hval ha hs hp hh (hlate.imp_left testBit_headD) c
    refine ⟨t, e, hexec, hmem, hpend, hag, hpath, hkey, ?_, fun b p hbp => ?_⟩
    · rw [hbytes, toNat_rdSz]
      simp only [decide_eq_true_eq]
    · rw [viewOf_pending hpend hheld (by rwa [hag, hpath]), State.rd, State.rd, hmem]
  case refine_2 => exact execLd_late hb ha hp hr (testBit_headD hl) sc d c
  case refine_3 =>
    exact execLd_held hb ha hm hp hr hl hh (by simp [Held.covers, hag, hpath, hlo, hhi]) sc d c
  case refine_4 =>
    obtain ⟨rfl, hback⟩ := execFenceX_runs ha hb h hv
    exact fun e he hag hset => (fenceOwn_pend hback e he hag hset).imp_left ne_sys_of_reach
  case refine_5 =>
    obtain ⟨rfl, -⟩ := execFenceX_runs ha hb h hv
    exact fun x hx hag hset hcov => not_staleAt (fenceOwn_held x hx hag hset hcov)
  case refine_6 => exact (execSt_release_pend h hv e he ha hp hk).imp_left ne_sys_of_reach
  case refine_7 =>
    obtain ⟨hloc, hcovered, hregions⟩ := execLd_acquire_held h hv hk x hx ha hp
    refine ⟨hloc, fun hc => not_staleAt (hcovered hc), fun hn => hregions ?_⟩
    unfold Held.staleAt
    split
    · next n hmissed => exact decide_eq_true (hn n hmissed)
    · rfl

end Sys2Proof.Machine
end

section
/-! Which pieces an operation claims as it issues (R181, R188, R189, R198, R212). -/

namespace Sys2Proof.Machine

/-! ## One claim (R181) -/

theorem Strm.past_iff (x : Strm) (k : Nat) :
    x.past k = true ↔ x.desc.wraps = false ∧ x.desc.count ≠ 0 ∧ x.desc.count < x.claimed + k := by
  simp [Strm.past, and_assoc]

theorem stream_mapStream (b : Bank) (n : BitVec 4) (f : Strm → Strm) : (b.mapStream n f).stream n = f (b.stream n) := by
  simp [Bank.stream, Bank.mapStream]

theorem stream_mapStream_ne (b : Bank) {n m : BitVec 4} (h : n ≠ m) (f : Strm → Strm) :
    (b.mapStream n f).stream m = b.stream m := by
  have hne : n.toNat ≠ m.toNat := fun e => h (BitVec.eq_of_toNat_eq e)
  simp [Bank.stream, Bank.mapStream, hne]

section
variable {b : Bank} {n : BitVec 4} {taken : Bool} {x : Strm} (k : Nat) (hx : b.stream n = x)
include hx

/-- On a captured stream a direct operation claims nothing (R212). -/
theorem claim_captured (h : x.captured.isSome = true ∨ taken = true) :
    b.claim n k none taken = (b.mapStream n (·.blame 0x0D), .error (0x0D, 0x12)) := by
  have hif : (x.captured.isSome && x.captured != none || taken) = true := by
    rcases h with h | h
    · obtain ⟨r, hr⟩ := Option.isSome_iff_exists.1 h
      simp [hr]
    · simp [h]
  unfold Bank.claim
  rw [hx, if_pos hif]

variable (hc : x.captured = none) (ht : taken = false)
include hc ht

theorem claim_unconf (h : x.now = .unconf) :
    b.claim n k none taken = (b.mapStream n (·.blame 0x0D), .error (0x0D, 0x01)) := by
  simp [Bank.claim, hx, hc, ht, h]

variable (hn : x.now = .input ∨ x.now = .output)
include hn

/-- Past the end of a bounded stream nothing is claimed, and the stream is exhausted. -/
theorem claim_past (hp : x.past k = true) :
    b.claim n k none taken
      = (b.mapStream n fun x => { x with state := .exhausted, cause := 0x0D }, .error (0x0D, 0x02)) := by
  rcases hn with h | h <;> simp [Bank.claim, hx, hc, ht, h, hp]

theorem claim_next (hp : x.past k = false) :
    b.claim n k none taken
      = (b.mapStream n fun x => { x with claimed := x.claimed + k }, .ok ⟨n, x.gen, x.claimed, k, 0, x.desc⟩) := by
  rcases hn with h | h <;> simp [Bank.claim, hx, hc, ht, h, hp]

end

/-! ## The claims of an operation that issues -/

/-- An operation that enters the queue with no install of `attn` ahead makes the claims of its instruction. -/
theorem Bank.enter_claims {b : Bank} {o : EngOp} (ho : o.rule = none) (hc : o.claims = [])
    (ha : ∀ x ∈ b.eng, attnInstall x.ins = false) :
    let r := claimAll none (installTakes b.eng) (needsOf o.ins) b []
    b.enter o = { r.1 with
      eng := r.1.eng ++ [{ o with seq := b.seq, claims := r.2.1, err := r.2.2 }], seq := b.seq + 1 } := by
  have hany : (b.eng.any fun x => attnInstall x.ins) = false := List.any_eq_false.2 fun x hx => by simp [ha x hx]
  simp [Bank.enter, EngOp.claimBehind, ho, hany, EngOp.claimIn, hc]

/-- The instruction's operation has entered the queue with the claims `cs` and the fault `e`, and left the streams `ss`. -/
def ClaimsLeft (s : State) (i : Instr) (ss : Vector Strm 16) (cs : List Claim) (e : Option EngErr) : Prop :=
  ∃ u o, exec i s = .next u ∧ u.bank.eng = s.bank.eng ++ [o] ∧ o.claims = cs ∧ o.err = e ∧ u.bank.streams = ss

section
variable {s : State} {i : Instr} (hs : s.serving = false) (ha : ∀ o ∈ s.bank.eng, attnInstall o.ins = false)
  (hi : plainIssue i = true)
include hs ha hi

/-- An instruction of MTX or TILE makes its claims from the streams as it finds them. -/
theorem claimsLeft_plain {ss : Vector Strm 16} {cs : List Claim} {e : Option EngErr}
    (h : ∀ b : Bank, b.streams = s.bank.streams →
      claimAll none (installTakes s.bank.eng) (needsOf i) b [] = ({ b with streams := ss }, cs, e)) :
    ClaimsLeft s i ss cs e := by
  obtain ⟨tag, x, ht⟩ := s.takeTag_eq i
  have henter := (s.tokenIssued (.q 0) false tag).bank.enter_claims (o := s.freshOp i x) rfl rfl ha
  have hclaims := h (s.tokenIssued (.q 0) false tag).bank rfl
  have hissue : s.engIssue i (.q 0) false id
      = (s.tokenIssued (.q 0) false tag).mapBank fun b => b.enter (s.freshOp i x) := by
    simp only [State.engIssue, ht, State.putPending_eq]
    rfl
  have hexec : exec i s = .next (s.engIssue i (.q 0) false id) := by
    rw [exec_plainIssue hi, State.engPlain, State.unserved_off hs, finish_ok]
  refine ⟨_, { s.freshOp i x with seq := s.bank.seq, claims := cs, err := e }, hexec, ?_, rfl, rfl, ?_⟩
  · rw [hissue, State.mapBank, henter]
    exact congrArg (fun r => r.1.eng ++ [{ s.freshOp i x with seq := s.bank.seq, claims := r.2.1, err := r.2.2 }]) hclaims
  · rw [hissue, State.mapBank, henter]
    exact congrArg (fun r => r.1.streams) hclaims

/-- An instruction that claims pieces of one stream: the claim is made, or the operation carries its fault. -/
theorem claimsLeft_one {n : BitVec 4} {k : Nat} (hn : needsOf i = [(n, k)]) {f : Strm → Strm} {r : Except (Byte × Byte) Claim}
    (h : ∀ b : Bank, b.stream n = s.bank.stream n →
      b.claim n k none (installTakes s.bank.eng n) = (b.mapStream n f, r)) :
    ClaimsLeft s i (s.bank.streams.set n.toNat (f (s.bank.stream n)))
      (match r with | .ok c => [c] | .error _ => [])
      (match r with | .ok _ => none | .error e => some (engErr e.1 e.2 0 0)) := by
  refine claimsLeft_plain hs ha hi fun b hb => ?_
  have hmap : b.mapStream n f = { b with streams := s.bank.streams.set n.toNat (f (s.bank.stream n)) } := by
    simp only [Bank.mapStream, Bank.stream, hb]
  rw [hn, claimAll, h b (by rw [Bank.stream, hb]; rfl), ← hmap]
  cases r <;> rfl

/-- An instruction that claims pieces of two streams, as both have them. -/
theorem claimsLeft_two {n n' : BitVec 4} {k : Nat} (hn : needsOf i = [(n, k), (n', k)]) {f g : Strm → Strm} {c c' : Claim}
    (h : ∀ b : Bank, b.stream n = s.bank.stream n →
      b.claim n k none (installTakes s.bank.eng n) = (b.mapStream n f, .ok c))
    (h' : ∀ b : Bank, b.stream n' = s.bank.stream n' →
      b.claim n' k none (installTakes s.bank.eng n') = (b.mapStream n' g, .ok c'))
    (hne : n ≠ n') :
    ClaimsLeft s i ((s.bank.streams.set n.toNat (f (s.bank.stream n))).set n'.toNat (g (s.bank.stream n'))) [c, c'] none := by
  refine claimsLeft_plain hs ha hi fun b hb => ?_
  have hstream : ∀ m, b.stream m = s.bank.stream m := fun m => by rw [Bank.stream, hb]; rfl
  have hother := (stream_mapStream_ne b hne f).trans (hstream n')
  rw [hn, claimAll, h b (hstream n)]
  dsimp only
  rw [claimAll, h' _ hother]
  dsimp only
  rw [claimAll, Bank.mapStream, hother]
  simp only [Bank.mapStream, hstream, hb]
  rfl

end

/-! ## The statement -/

/-- The instructions that read one piece of one stream. -/
theorem needsOf_onePiece (ac b2 : BitVec 2) (n : BitVec 4) (t : Ty) (x1 : Bool) (fn : BitVec 4) (e8 : Byte) :
    ∀ i ∈ [Instr.acload ac n x1, .tadd ac n t b2, .tmul ac n t b2, .tactd ac n t fn, .trms ac n t e8, .tsmax ac n true,
      .tsmaxd ac n t, .tscale ac n t], plainIssue i = true ∧ needsOf i = [(n, 1)] := by
  simp [plainIssue, needsOf]

/-- The products, which read as many pieces of each of their streams as they have chunks. -/
theorem needsOf_product (ac : BitVec 2) (n n' : BitVec 4) (t : Ty) (ta tb : Bool) (kc : BitVec 6) :
    ∀ i ∈ [Instr.mma ac n n' t ta tb kc, .tmm ac n n' ta tb kc, .tmmt ac n n' t kc, .tmmw ac n n' t kc],
      plainIssue i = true ∧ needsOf i = [(n, kc.toNat + 1), (n', kc.toNat + 1)] := by
  simp [plainIssue, needsOf]

/-- Settles O36: each clause is one outcome of `Bank.claim`, made from the streams as the instruction finds them. -/
theorem engineClaims : Obligations.EngineClaims := by
  unfold Obligations.EngineClaims
  intro s ac b2 n n' t ta tb x1 fn kc e8 hs ha x x' ends live free claim gives
  have hfree : ∀ {m}, free m → (s.bank.stream m).captured = none ∧ installTakes s.bank.eng m = false := fun h => by
    simpa [free, Bank.isCaptured] using h
  have hnow : ∀ {y}, live y → y.now = .input ∨ y.now = .output := fun {y} h => by
    obtain ⟨hcut, hst⟩ := h
    simpa [Strm.now, hcut] using hst
  have hroom : ∀ {y k}, ¬ends y k → y.past k = false := fun h => Bool.eq_false_iff.2 (mt (Strm.past_iff ..).1 h)
  have hset : ∀ {u : State} {y : Strm}, u.bank.streams = s.bank.streams.set n.toNat y → u.bank.stream n = y := fun h => by
    simp [Bank.stream, h]
  refine ⟨fun i hi => ?one, fun hne hf hf' hl hl' he he' i hi => ?product⟩
  case one =>
    obtain ⟨hplain, hneeds⟩ := needsOf_onePiece ac b2 n t x1 fn e8 i hi
    refine ⟨fun hf hl he => ?next, fun hf hl he => ?past, fun hf hu => ?unconf, fun hc => ?captured⟩
    case next =>
      obtain ⟨hcap, htaken⟩ := hfree hf
      obtain ⟨u, o, hexec, heng, hclaims, herr, hss⟩ := claimsLeft_one hs ha hplain hneeds fun b hb =>
        claim_next 1 hb hcap htaken (hnow hl) (hroom he)
      exact ⟨u, o, hexec, heng, hclaims, herr, hss⟩
    case past =>
      obtain ⟨hcap, htaken⟩ := hfree hf
      obtain ⟨u, o, hexec, heng, hclaims, herr, hss⟩ := claimsLeft_one hs ha hplain hneeds fun b hb =>
        claim_past 1 hb hcap htaken (hnow hl) ((x.past_iff 1).2 he)
      exact ⟨u, o, hexec, heng, hclaims, ⟨_, herr, rfl, rfl⟩, congrArg Strm.state (hset hss)⟩
    case unconf =>
      obtain ⟨hcap, htaken⟩ := hfree hf
      have hunconf : x.now = .unconf := by simp [Strm.now, hu]
      obtain ⟨u, o, hexec, heng, hclaims, herr, hss⟩ := claimsLeft_one hs ha hplain hneeds fun b hb =>
        claim_unconf 1 hb hcap htaken hunconf
      exact ⟨u, o, hexec, heng, hclaims, ⟨_, herr, rfl, rfl⟩, (congrArg Strm.state (hset hss)).trans hu⟩
    case captured =>
      have htaken : x.captured.isSome = true ∨ installTakes s.bank.eng n = true := by
        simpa only [free, Bank.isCaptured, Bool.not_eq_false, Bool.or_eq_true] using hc
      obtain ⟨u, o, hexec, heng, hclaims, herr, hss⟩ := claimsLeft_one hs ha hplain hneeds fun b hb =>
        claim_captured 1 hb htaken
      exact ⟨u, o, hexec, heng, hclaims, ⟨_, herr, rfl, rfl⟩, (congrArg Strm.claimed (hset hss)).trans rfl⟩
  case product =>
    obtain ⟨hplain, hneeds⟩ := needsOf_product ac n n' t ta tb kc i hi
    obtain ⟨hcap, htaken⟩ := hfree hf
    obtain ⟨hcap', htaken'⟩ := hfree hf'
    exact claimsLeft_two hs ha hplain hneeds (fun b hb => claim_next _ hb hcap htaken (hnow hl) (hroom he))
      (fun b hb => claim_next _ hb hcap' htaken' (hnow hl') (hroom he')) hne

end Sys2Proof.Machine
end

section
/-! Streams (R177 to R183): what the STRM instructions leave, the piece that a fill reads, and the writes of a piece that
drains into the scratchpad. -/

namespace Sys2Proof.Machine

/-! ## The STRM instructions (R182) -/

/-- The state with stream `n` replaced. -/
abbrev State.setStream (s : State) (n : BitVec 4) (y : Strm) : State :=
  { s with bank := { s.bank with streams := s.bank.streams.set n.toNat y } }

theorem strmWait_claimed {s : State} (h : s.bank.lateClaims = false) : s.strmWait = .ok () := by
  simp [State.strmWait, h]

section
variable {s : State} {n bp : BitVec 4} {off : BitVec 20} {key : Nat} (hs : s.serving = false)
  (hc : s.bank.isCaptured n = false) (hl : s.bank.lateClaims = false)
include hs hc hl

section
variable (ho : Orderly s) (hb : Readable s (baseOp bp) .w64) (hm : Mapped s (s.val64 (baseOp bp) + off.setWidth 64))
  (hr : BlockRead s (s.val64 (baseOp bp) + off.setWidth 64) key 64)
include ho hb hm hr

/-- A block that passes every check of R178 configures the stream. -/
theorem stcfg_configures (h : (strChecks (s.rd key 64)).find? (·.2) = none) :
    exec (.stcfg n bp off) s
      = .next (s.setStream n ((s.bank.stream n).configure (strDescOf (s.rd key 64)) s.turn)) := by
  change execStcfg n bp off s = _
  simp only [execStcfg, State.unserved_off hs, rdBase_ok hb, bind, Except.bind, State.blockAt_ok ho hr, strmWait_claimed hl,
    State.atBlock_orderly ho hm, hc, Bool.false_eq_true, if_false, h, pure, Except.pure, finish_ok]
  rfl

/-- The first check of R178 that fails stops the instruction. -/
theorem stcfg_refuses {c : Nat × Bool} (h : (strChecks (s.rd key 64)).find? (·.2) = some c) :
    exec (.stcfg n bp off) s = .next { s.takeTrap (s.trapAt 0x0D (BitVec.ofNat 8 (0x80 + c.1))
      (s.val64 (baseOp bp) + off.setWidth 64)) with verdict := .trapped false } := by
  change execStcfg n bp off s = _
  simp only [execStcfg, State.unserved_off hs, rdBase_ok hb, bind, Except.bind, State.blockAt_ok ho hr, strmWait_claimed hl,
    State.atBlock_orderly ho hm, hc, Bool.false_eq_true, if_false, h, finish_trapNow]

end

section
variable {a : Opnd} (ha : Readable s a .w32)
include ha

theorem stadv_skips (hn : (s.bank.stream n).now ≠ .unconf) (hf : (s.bank.stream n).state ≠ .faulted) :
    exec (.stadv n a) s = .next (s.setStream n ((s.bank.stream n).skip (s.val32 a).toNat)) := by
  change execStadv n a s = _
  simp only [execStadv, State.unserved_off hs, rd32_ok ha, bind, Except.bind, strmWait_claimed hl, hc, Bool.false_eq_true,
    if_false, hn, hf, pure, Except.pure, finish_ok]
  rfl

theorem stadv_unconf (hn : (s.bank.stream n).now = .unconf) :
    exec (.stadv n a) s = .next { s.takeTrap (s.trapAt 0x0D 0x01 0) with verdict := .trapped false } := by
  change execStadv n a s = _
  simp only [execStadv, State.unserved_off hs, rd32_ok ha, bind, Except.bind, strmWait_claimed hl, hc, Bool.false_eq_true,
    if_false, hn, if_true, finish_trapNow]

end

/-- What `stcut` makes of the stream before it is settled: prefetched pieces that no one has claimed go. -/
def Strm.cutNow (x : Strm) : Strm :=
  { x with
    cut := true
    buf := x.buf.filter fun p => p.gen != x.gen || decide (p.idx < x.claimed) }

theorem stcut_cuts : exec (.stcut n) s = .next (s.mapBank fun b => (b.mapStream n Strm.cutNow).settleCut n) := by
  change execStcut n s = _
  simp only [execStcut, State.unserved_off hs, bind, Except.bind, strmWait_claimed hl, hc, Bool.false_eq_true, if_false,
    pure, Except.pure, finish_ok]
  rfl

end

/-- Every piece of the stream that has been claimed or handed out has been delivered and written. -/
abbrev Bank.settled (b : Bank) (n : BitVec 4) : Prop := (b.stream n).outq = [] ∧ ∀ o ∈ b.eng, ∀ c ∈ o.claims, c.st ≠ n

/-- A stream that is settled while it is cut is unconfigured once it owes no piece. -/
theorem settleCut_settled {b : Bank} {n : BitVec 4} (hcut : (b.stream n).cut = true) (h : b.settled n) :
    b.settleCut n = b.mapStream n fun x => { x with state := .unconf, buf := [], cut := false } := by
  obtain ⟨hout, hclaims⟩ := h
  have hany : (b.eng.any fun o => o.claims.any fun c => c.st == n) = false := by simpa using hclaims
  simp [Bank.settleCut, hcut, hout, hany]

theorem settleCut_unsettled {b : Bank} {n : BitVec 4} (h : ¬b.settled n) : b.settleCut n = b := by
  refine if_neg fun hif => h ?_
  rw [Bool.and_assoc, Bool.and_eq_true] at hif
  simpa [Bank.settled] using hif.2

theorem settleCut_uncut {b : Bank} {n : BitVec 4} (hcut : (b.stream n).cut = false) : b.settleCut n = b := by
  simp [Bank.settleCut, hcut]

theorem mapStream_mapStream (b : Bank) (n : BitVec 4) (f g : Strm → Strm) :
    (b.mapStream n f).mapStream n g = b.mapStream n fun x => g (f x) := by
  rw [Bank.mapStream, stream_mapStream]
  simp [Bank.mapStream]

/-! ## Reading a piece (R179) -/

section
variable {s : State} {cx : BitVec 6} {run : Option Run} {d : StrDesc} {p i e : Nat}

/-- A read that is served at its home, with nothing held of the location. -/
theorem engPeek_served {va w key : Nat} (hh : s.held = []) (hloc : s.locateW cx run .read va w = .at key)
    (hserved : s.served key false = true) : s.engPeek cx run va w = .ok (s.rd key w, (s.mem.poisonAt key w).isSome) := by
  have hheld : s.heldMx key w = none := by
    unfold State.heldMx
    cases s.reader with
    | none => rfl
    | some a => simp [State.heldAt, hh]
  simp [State.engPeek, hloc, hheld, hserved]

/-- The types of four bytes (R46). -/
def wordTypes : List Nat := [0, 1, 6]

theorem readElem_word {bs : List Byte} {bad : Bool} (ht : d.ty ∈ wordTypes)
    (h : s.engPeek cx run ((d.base + d.rowOff p i + 4 * e) % 2 ^ 64) 4 = .ok (bs, bad)) :
    s.readElem cx run d p i e = .ok ⟨BitVec.ofNat 32 (ofBytes bs), bad, false⟩ := by
  simp only [wordTypes, List.mem_cons, List.not_mem_nil, or_false] at ht
  rcases ht with ht | ht | ht <;>
    simp only [State.readElem, StrDesc.elTy, ht, Ty.ofCode, Option.getD_some, tyBits, Nat.reduceDiv, h]

/-- A piece whose every element is read, without scales. -/
theorem readPiece_elems {g : Nat → Nat → Elem} (gen idx : Nat) (hw : d.wraps = false)
    (h : ∀ i e, i < d.rows → e < d.cols → s.readElem cx run d idx i e = .ok (g i e)) :
    (s.readPiece cx run d gen idx).idx = idx ∧ (s.readPiece cx run d gen idx).fault = none ∧
      (s.readPiece cx run d gen idx).elems
        = (List.range d.rows).flatMap fun i => (List.range d.cols).map fun e => (g i e).code := by
  have hno : d.pieceNo idx = idx := by simp [StrDesc.pieceNo, hw]
  have hes : ((List.range d.rows).flatMap fun i => (List.range d.cols).map fun e => s.readElem cx run d idx i e)
      = (List.range d.rows).flatMap fun i => (List.range d.cols).map fun e => .ok (g i e) :=
    List.flatMap_congr fun i hi => List.map_congr_left fun e he => h i e (List.mem_range.1 hi) (List.mem_range.1 he)
  refine ⟨rfl, ?_, ?_⟩
  · simp only [State.readPiece, hno, hes, List.findSome?_eq_none_iff, List.mem_flatMap, List.mem_map]
    rintro _ ⟨i, -, e, -, rfl⟩
    rfl
  · simp only [State.readPiece, hno, hes, List.map_flatMap, List.map_map]
    rfl

end

/-! ## Fills (R180) -/

theorem streamFill_none {s : State} {n : BitVec 4} (hs : s.shadow = none) (hf : s.freezes = [])
    (h : s.bank.mayFill n = none) : exec (.streamFill n) s = .next s := by
  change execStreamFill n s = _
  rw [execStreamFill, unlessFrozen_running hf, onWork_unshadowed hs, State.fillStream, h]

/-- Where the gate and the FIFO let it and no bank refreshes, the next piece is read for the agent that configured the
stream. -/
theorem streamFill_reads {s : State} {n : BitVec 4} {p : Nat} (hs : s.shadow = none) (hf : s.freezes = [])
    (hp : ∀ e ∈ s.pend, e.seen = none) (h : s.bank.mayFill n = some p)
    (hw : s.fillWaits (s.bank.stream n).desc p = false) (hr : s.refresh.2 ≤ s.wall) :
    exec (.streamFill n) s = .next (s.setStream n { s.bank.stream n with
      filled := p + 1
      buf := (s.bank.stream n).buf ++ [s.fillPiece n (s.bank.stream n).desc (s.bank.stream n).gen p] }) := by
  have hrefresh : s.pieceRefresh (s.bank.stream n).desc p = 0 := if_pos hr
  change execStreamFill n s = _
  simp only [execStreamFill, unlessFrozen_running hf, onWork_unshadowed hs, State.fillStream, h, hw, hrefresh,
    surface_unseen hp, Bool.false_eq_true, if_false, ne_eq, not_true_eq_false]
  rfl

/-! ## Writes of a piece (R180) -/

/-- An element of a row stands in the scratchpad of the core, at a multiple of four. -/
structure InPad (va : Nat) : Prop where
  low : 31 * 2 ^ 52 ≤ va
  high : va + 4 ≤ 31 * 2 ^ 52 + 2 ^ 21
  aligned : va % 4 = 0

theorem locateW_pad {s : State} {r : Run} {va : Nat} (hi : (r.service && r.interrupts) = false) (h : InPad va)
    (cx : BitVec 6) : s.locateW cx (some r) .write va 4 = .at (padKey s.coreId (va - 31 * 2 ^ 52)) := by
  obtain ⟨hlow, hhigh, haligned⟩ := h
  have hoff : va % 2 ^ 52 = va - 31 * 2 ^ 52 := by omega
  have hlocal : s.locateLocal (some r) (va % 2 ^ 52) 4 = .at (padKey s.coreId (va - 31 * 2 ^ 52)) := by
    unfold State.locateLocal
    dsimp only
    rw [if_neg (by simp [hi]), if_pos (by omega), hoff]
    rfl
  unfold State.locateW
  rw [locate_local s cx (some r) .write (by decide) haligned (by omega), hlocal]

/-- Scratchpads serve every access. -/
theorem served_pad (s : State) {core off : Nat} (hc : core < 1536) (ho : off < 2 ^ 21) (write : Bool) :
    s.served (padKey core off) write = true := by
  unfold State.served padKey
  rw [if_neg (by omega), if_neg (by omega)]

/-- A row of elements of four bytes. -/
theorem rowBytes_word {d : StrDesc} (ht : d.ty ∈ wordTypes) (p i : Nat) (es : List Word) :
    rowBytes d p i es = (List.range es.length).map fun k =>
      ((d.base + d.rowOff p i + 4 * k) % 2 ^ 64, bytesOf 4 (es.getD k 0).toNat) := by
  simp only [wordTypes, List.mem_cons, List.not_mem_nil, or_false] at ht
  rcases ht with ht | ht | ht <;>
    simp only [rowBytes, StrDesc.elTy, ht, Ty.ofCode, Option.getD_some, tyBits, Nat.reduceDiv]

/-- A run of the core is at work that may use its scratchpad, and no access stands out of order: what a drain asks of the
machine. -/
structure PadWriter (s : State) (r : Run) (core : Nat) : Prop where
  run : s.bank.run = some r
  allowed : (r.service && r.interrupts) = false
  id : s.coreId = core
  fits : core < 1536
  reads : s.reads = []
  held : s.held = []

theorem PadWriter.withMem {s : State} {r : Run} {core : Nat} (h : PadWriter s r core) (m : Memory) :
    PadWriter { s with mem := m } r core := ⟨h.run, h.allowed, h.id, h.fits, h.reads, h.held⟩

section
variable {s : State} {r : Run} {core : Nat} (h : PadWriter s r core) (n : BitVec 4) (a : AgentId)
include h

theorem drainWrite_pad {va : Nat} (hva : InPad va) {bs : List Byte} (hbs : bs.length = 4) :
    s.drainWrite n a false (va, bs) = s.wr (padKey core (va - 31 * 2 ^ 52)) bs := by
  obtain ⟨hrun, hallowed, hid, hfits, hreads, hheld⟩ := h
  have hserved := served_pad s (off := va - 31 * 2 ^ 52) hfits (by have := hva.high; omega) true
  simp only [State.drainWrite, hbs, hrun, locateW_pad hallowed hva, hid, hserved, noteWrite_quiet hreads hheld, Bool.not_true,
    Bool.false_eq_true, if_false]

/-- The writes of a row, one element after another. -/
theorem foldl_drainWrite_pad {va : Nat → Nat} {x : Nat → Nat} (l : List Nat) (hva : ∀ k ∈ l, InPad (va k)) :
    (l.map fun k => (va k % 2 ^ 64, bytesOf 4 (x k))).foldl (fun t w => t.drainWrite n a false w) s
      = l.foldl (fun u k => u.wr (padKey core (va k - 31 * 2 ^ 52)) (bytesOf 4 (x k))) s := by
  induction l generalizing s with
  | nil => rfl
  | cons k l ih =>
    have hk := hva k List.mem_cons_self
    have hmod : va k % 2 ^ 64 = va k := Nat.mod_eq_of_lt (by have := hk.high; omega)
    rw [List.map_cons, List.foldl_cons, List.foldl_cons, hmod, drainWrite_pad h n a hk (length_bytesOf 4 _)]
    exact ih (h.withMem _) fun j hj => hva j (List.mem_cons_of_mem k hj)

/-- The rows of a piece, one after another. -/
theorem foldl_drainRows_pad {va x : Nat → Nat → Nat} {cols : Nat} {row : Nat → List (Nat × List Byte)} {bad : Nat → Bool}
    (l : List Nat) (hrow : ∀ i ∈ l, row i = (List.range cols).map fun k => (va i k % 2 ^ 64, bytesOf 4 (x i k)))
    (hbad : ∀ i, bad i = false) (hva : ∀ i ∈ l, ∀ k < cols, InPad (va i k)) :
    l.foldl (fun t i => (row i).foldl (fun t w => t.drainWrite n a (bad i) w) t) s
      = l.foldl (fun u i => (List.range cols).foldl (fun u k =>
          u.wr (padKey core (va i k - 31 * 2 ^ 52)) (bytesOf 4 (x i k))) u) s := by
  induction l generalizing s with
  | nil => rfl
  | cons i l ih =>
    have hi := hva i List.mem_cons_self
    rw [List.foldl_cons, List.foldl_cons, hrow i List.mem_cons_self, hbad i,
      foldl_drainWrite_pad h n a _ fun k hk => hi k (List.mem_range.1 hk)]
    obtain ⟨m, hm⟩ := foldl_wr_eq (key := fun k => padKey core (va i k - 31 * 2 ^ 52)) (bytes := fun k => bytesOf 4 (x i k))
      (List.range cols) s
    rw [hm]
    exact ih (h.withMem m) (fun j hj => hrow j (List.mem_cons_of_mem i hj)) fun j hj => hva j (List.mem_cons_of_mem i hj)

end

/-- Row `i` of a piece of four-byte elements: element k stands at its place. -/
theorem row_word {e : OutP} {i : Nat} (ht : e.desc.ty ∈ wordTypes) (hw : e.desc.wraps = false)
    (hlen : e.piece.elems.length = e.piece.rows * e.piece.cols) (hi : i < e.piece.rows) :
    e.row i = (List.range e.piece.cols).map fun k => ((e.desc.base + e.desc.rowOff e.piece.idx i + 4 * k) % 2 ^ 64,
      bytesOf 4 (e.piece.elems.getD (i * e.piece.cols + k) 0).toNat) := by
  have hno : e.desc.pieceNo e.piece.idx = e.piece.idx := by simp [StrDesc.pieceNo, hw]
  have hrows : (i + 1) * e.piece.cols ≤ e.piece.rows * e.piece.cols := Nat.mul_le_mul_right _ hi
  rw [Nat.add_one_mul] at hrows
  have hcols : ((e.piece.elems.drop (i * e.piece.cols)).take e.piece.cols).length = e.piece.cols := by
    rw [List.length_take, List.length_drop, hlen]
    omega
  rw [OutP.row, rowBytes_word ht, hcols, hno]
  refine List.map_congr_left fun k hk => ?_
  have hk' := List.mem_range.1 hk
  simp [List.getD_eq_getElem?_getD, hk']

/-- The oldest pieces go first where they share a home and lane (R167). -/
theorem outFree_iff (s : State) (e : OutP) : s.outFree e = true ↔
    ∀ y ∈ s.bank.streams.toList, ∀ e' ∈ y.outq, e'.no < e.no → ∀ l ∈ s.outLanes e', l ∉ s.outLanes e := by
  have hall : ∀ (l : List OutP) (p : OutP → Bool), (l.isEmpty || l.all p) = l.all p := by
    intro l p
    cases l <;> rfl
  simp only [State.outFree, hall, List.all_eq_true, List.mem_filter, List.mem_flatMap, decide_eq_true_eq, Bool.not_eq_true',
    List.contains_eq_mem, decide_eq_false_iff_not]
  exact ⟨fun h y hy e' he' hno => h e' ⟨⟨y, hy, he'⟩, hno⟩, fun h e' ⟨⟨y, hy, he'⟩, hno⟩ => h y hy e' he' hno⟩

/-- A piece of four-byte elements written into the scratchpad of a core, row by row. -/
def State.wrPiece (s : State) (core : Nat) (e : OutP) : State :=
  (List.range e.piece.rows).foldl (fun u i => (List.range e.piece.cols).foldl (fun u k =>
    u.wr (padKey core (e.desc.base + e.desc.rowOff e.piece.idx i + 4 * k - 31 * 2 ^ 52))
      (bytesOf 4 (e.piece.elems.getD (i * e.piece.cols + k) 0).toNat)) u) s

theorem bank_foldl {α : Type} {f : State → α → State} (h : ∀ t i, (f t i).bank = t.bank) (l : List α) (s : State) :
    (l.foldl f s).bank = s.bank := by
  induction l generalizing s with
  | nil => rfl
  | cons i l ih => rw [List.foldl_cons, ih, h]

theorem State.wrPiece_bank (s : State) (core : Nat) (e : OutP) : (s.wrPiece core e).bank = s.bank := by
  unfold State.wrPiece
  refine bank_foldl (fun t i => ?_) _ s
  refine bank_foldl (fun u k => ?_) _ t
  rfl

theorem State.mapBank_eq_self {s : State} {f : Bank → Bank} (h : f s.bank = s.bank) : s.mapBank f = s := by
  rw [State.mapBank, h]

section
variable {s : State} {n : BitVec 4} (hs : s.shadow = none) (hf : s.freezes = [])
include hs hf

theorem outputWrite_empty (h : (s.bank.stream n).outq = []) : exec (.streamOutputWrite n) s = .next s := by
  change execStreamOutputWrite n s = _
  rw [execStreamOutputWrite, unlessFrozen_running hf, onWork_unshadowed hs, State.drainStream, h]

variable {e : OutP} {rest : List OutP} (hq : (s.bank.stream n).outq = e :: rest)
include hq

theorem outputWrite_waits (h : s.outFree e = false) : exec (.streamOutputWrite n) s = .next s := by
  change execStreamOutputWrite n s = _
  rw [execStreamOutputWrite, unlessFrozen_running hf, onWork_unshadowed hs, State.drainStream, hq]
  simp [h]

/-- The oldest piece is written into the scratchpad, element by element. -/
theorem outputWrite_pad {r : Run} (h : PadWriter s r s.coreId) (hp : ∀ x ∈ s.pend, x.seen = none) (hfree : s.outFree e = true)
    (hcut : (s.bank.stream n).cut = false) (ht : e.desc.ty ∈ wordTypes) (hw : e.desc.wraps = false)
    (hlen : e.piece.elems.length = e.piece.rows * e.piece.cols) (hbad : ∀ b ∈ e.piece.bad, b = false)
    (hpad : ∀ i k, i < e.piece.rows → k < e.piece.cols → InPad (e.desc.base + e.desc.rowOff e.piece.idx i + 4 * k)) :
    exec (.streamOutputWrite n) s
      = .next ((s.setStream n { s.bank.stream n with outq := rest }).wrPiece s.coreId e) := by
  have hpoison : ∀ i, ((e.piece.bad.drop (i * e.piece.cols)).take e.piece.cols).contains true = false := fun i =>
    Bool.eq_false_iff.2 fun hb =>
      Bool.noConfusion (hbad true (List.mem_of_mem_drop (List.mem_of_mem_take (List.contains_iff_mem.1 hb))))
  have hrows := foldl_drainRows_pad (s := s.setStream n { s.bank.stream n with outq := rest })
    ⟨h.run, h.allowed, rfl, h.fits, h.reads, h.held⟩ n (e.agents.headD 0) (row := e.row) (List.range e.piece.rows)
    (fun i hi => row_word ht hw hlen (List.mem_range.1 hi)) hpoison fun i hi k hk => hpad i k (List.mem_range.1 hi) hk
  have hsettled : ((s.setStream n { s.bank.stream n with outq := rest }).wrPiece s.coreId e).mapBank
      (fun b => b.settleCut n) = (s.setStream n { s.bank.stream n with outq := rest }).wrPiece s.coreId e := by
    refine State.mapBank_eq_self ?_
    rw [State.wrPiece_bank]
    exact settleCut_uncut (by simpa [Bank.stream] using hcut)
  change execStreamOutputWrite n s = _
  rw [execStreamOutputWrite, unlessFrozen_running hf, onWork_unshadowed hs, State.drainStream, hq]
  simp only [hfree, if_true, surface_unseen hp]
  exact congrArg _ ((congrArg (fun u => u.mapBank fun b => b.settleCut n) hrows).trans hsettled)

end

/-- While the core is frozen neither event does anything (R27). -/
theorem unlessFrozen_frozen {s : State} (h : s.freezes ≠ []) (f : State → State) : s.unlessFrozen f = .next s := by
  simp [State.unlessFrozen, h]

/-! ## The statement -/

theorem Strm.skip_desc (x : Strm) (k : Nat) : (x.skip k).desc = x.desc := by
  unfold Strm.skip
  split <;> rfl

theorem Strm.skip_past (x : Strm) {k : Nat} (h : x.past k = true) :
    (x.skip k).claimed = x.desc.count ∧ (x.skip k).state = .exhausted := by
  rw [Strm.skip, if_pos h]
  exact ⟨rfl, rfl⟩

theorem Strm.skip_within (x : Strm) {k : Nat} (h : ¬x.past k = true) :
    (x.skip k).claimed = x.claimed + k ∧ (x.skip k).consumed = x.claimed + k ∧ (x.skip k).state = x.state := by
  rw [Strm.skip, if_neg h]
  exact ⟨rfl, rfl, rfl⟩

/-- A stream that has not been cut is as its state says. -/
theorem Strm.now_active {x : Strm} (hcut : x.cut = false) (h : x.state ∈ [StState.input, .output, .exhausted]) :
    x.now ≠ .unconf ∧ x.state ≠ .faulted := by
  have hnow : x.now = x.state := if_neg (by simp [hcut])
  simp only [List.mem_cons, List.not_mem_nil, or_false] at h
  rcases h with h | h | h <;> simp [hnow, h]

/-- The direction of a stream is bit 0 of byte 2 of its block (R177). -/
theorem isOut_strDescOf (s : State) (key : Nat) : (strDescOf (s.rd key 64)).isOut = (s.rdNat (key + 2) 1).testBit 0 := rfl

/-- The status word by the numbers of R183. -/
theorem status_eq (x : Strm) (fill : Nat) :
    x.status fill = BitVec.ofNat 64 (x.claimed % 2 ^ 32 * 2 ^ 32 + fill * 2 ^ 16 + x.cause.toNat + 2 ^ 8 * x.state.code) := by
  rw [Strm.status]
  congr 1
  ring

/-- Settles O34: each STRM instruction by what it leaves of its stream, a fill by the elements that it reads, a drain by the writes
of its rows. -/
theorem streams : Obligations.Streams := by
  unfold Obligations.Streams
  refine ⟨?strm, ?fifo⟩
  case' strm =>
    intro s sc d a n bp off key hb ha ho hs hc hl va hm x bs k sets
    refine ⟨?cfg, ?cfgBad, ?adv, ?stat, ?advCut, ?cut⟩
  case' fifo =>
    intro s n key hs hf hh hr hp x sets
    refine ⟨?fill, ?noFill, ?waits, ?drain, ?empty, ?frozen⟩
  case cfg =>
    intro hread hok
    refine ⟨_, stcfg_configures hs hc hl ho hb hm hread ?_, rfl, rfl, rfl, rfl, rfl, rfl, rfl, ?_⟩
    · exact List.find?_eq_none.2 fun c h => by simp [hok c h]
    · rw [← isOut_strDescOf]
      rfl
  case cfgBad =>
    intro hread c l l' hsplit hl'
    refine stcfg_refuses hs hc hl ho hb hm hread (c := (c, true)) ?_
    have hnone : l.find? (·.2) = none := List.find?_eq_none.2 fun e h => by simp [hl' e h]
    rw [hsplit, List.find?_append, hnone]
    rfl
  case adv =>
    intro hcut hst
    obtain ⟨hnow, hfault⟩ := Strm.now_active hcut hst
    refine ⟨x.skip k, stadv_skips hs hc hl ha hnow hfault, x.skip_desc k, ?_⟩
    split
    · next h => exact x.skip_past ((x.past_iff k).2 h)
    · next h => exact x.skip_within (mt (x.past_iff k).1 h)
  case stat =>
    refine ⟨(Config.freeFill s.free).toNat % 129, by omega, ?_⟩
    change execStstat sc d n s = _
    rw [execStstat, State.unserved_off hs, finish_ok, status_eq]
    cases x.state <;> rfl
  case advCut =>
    exact fun hcut => stadv_unconf hs hc hl ha (if_pos hcut)
  case cut =>
    have hexec := stcut_cuts hs hc hl
    have hstream := stream_mapStream s.bank n Strm.cutNow
    have hcut : ((s.bank.mapStream n Strm.cutNow).stream n).cut = true := by rw [hstream]; rfl
    have hsettled : (s.bank.mapStream n Strm.cutNow).settled n ↔ x.outq = [] ∧ ∀ o ∈ s.bank.eng, ∀ c ∈ o.claims, c.st ≠ n := by
      rw [Bank.settled, hstream]
      rfl
    by_cases hidle : x.outq = [] ∧ ∀ o ∈ s.bank.eng, ∀ c ∈ o.claims, c.st ≠ n
    · rw [State.mapBank, settleCut_settled hcut (hsettled.2 hidle), mapStream_mapStream] at hexec
      exact ⟨_, hexec, rfl, rfl, rfl, fun _ => ⟨rfl, rfl, rfl⟩, fun h => absurd hidle h⟩
    · rw [State.mapBank, settleCut_unsettled (mt hsettled.1 hidle)] at hexec
      exact ⟨_, hexec, rfl, rfl, rfl, fun h => absurd h hidle, fun _ => ⟨rfl, rfl⟩⟩
  case fill =>
    intro p hfill hwaits hrefresh hty hw hloc
    obtain ⟨hidx, hfault, helems⟩ := readPiece_elems (s := { s with reader := some x.owner }) x.gen p hw fun i e hi he =>
      readElem_word hty (engPeek_served hh (hloc i e hi he).1 (hloc i e hi he).2)
    exact ⟨_, streamFill_reads hs hf hp hfill hwaits hrefresh, hidx, hfault, helems⟩
  case noFill => exact streamFill_none hs hf
  case waits =>
    intro e rest hq hshared
    obtain ⟨y, hy, e', he', hno, l, hl, hl'⟩ := hshared
    exact outputWrite_waits hs hf hq (Bool.eq_false_iff.2 fun hfree => (outFree_iff s e).1 hfree y hy e' he' hno l hl hl')
  case drain =>
    intro e rest r o q hq hcut hfree hrun hallowed hcore hty hw hlen hbad place hplace
    refine outputWrite_pad hs hf hq ⟨hrun, hallowed, rfl, hcore, hr, hh⟩ hp ((outFree_iff s e).2 hfree) hcut hty hw hlen hbad
      fun i k hi hk => ?_
    obtain ⟨hlow, hhigh, haligned⟩ := hplace i k hi hk
    exact ⟨hlow, hhigh, haligned⟩
  case empty => exact outputWrite_empty hs hf
  case frozen => exact fun u hu => ⟨(unlessFrozen_frozen hu _ : execStreamFill n u = _),
      (unlessFrozen_frozen hu _ : execStreamOutputWrite n u = _)⟩

end Sys2Proof.Machine
end

section
/-! The engine runs the head of its queue (R186 to R188, R192 to R195, R197, R198, R205, R208, R219, R220): what the completion of an
operation leaves, and a fault that it holds. -/

namespace Sys2Proof.Machine

/-! ## Streams that have been cut are settled (R182) -/

/-- Of the streams of `b`, nothing that is to be written and no count of what has been consumed differs in `c`. -/
def SameOutput (b c : Bank) : Prop :=
  ∀ m, (c.stream m).outq = (b.stream m).outq ∧ (c.stream m).consumed = (b.stream m).consumed

theorem sameOutput_mapStream (b : Bank) (n : BitVec 4) {f : Strm → Strm} (hout : ∀ x, (f x).outq = x.outq)
    (hcons : ∀ x, (f x).consumed = x.consumed) : SameOutput b (b.mapStream n f) := by
  intro m
  by_cases h : n = m
  · subst h
    rw [stream_mapStream]
    exact ⟨hout _, hcons _⟩
  · rw [stream_mapStream_ne b h]
    exact ⟨rfl, rfl⟩

theorem sameOutput_settleCut (b : Bank) (n : BitVec 4) : SameOutput b (b.settleCut n) := by
  unfold Bank.settleCut
  split
  · exact sameOutput_mapStream b n (fun _ => rfl) fun _ => rfl
  · exact fun m => ⟨rfl, rfl⟩

theorem sameOutput_foldl (l : List (BitVec 4)) (b : Bank) : SameOutput b (l.foldl Bank.settleCut b) := by
  induction l generalizing b with
  | nil => exact fun m => ⟨rfl, rfl⟩
  | cons n l ih =>
    intro m
    obtain ⟨hout, hcons⟩ := ih (b.settleCut n) m
    obtain ⟨hout', hcons'⟩ := sameOutput_settleCut b n m
    exact ⟨hout.trans hout', hcons.trans hcons'⟩

theorem sameOutput_settleCuts (b : Bank) : SameOutput b b.settleCuts := by
  unfold Bank.settleCuts
  split
  · exact sameOutput_foldl _ b
  · exact fun m => ⟨rfl, rfl⟩

/-! ## Completion (R193) -/

/-- The operation `o` has completed after its work has left `t`: it has left the queue and its token has landed with the value
`tok`, or with its sequence number. -/
structure Completes (t u : State) (o : EngOp) (os : List EngOp) (tok : Option DWord) (f : BitVec 7) : Prop where
  eng : u.bank.eng = os
  token : u.agent o.owner = (t.agent o.owner).landToken o.uid (tok.getD (o.seq.setWidth 64)) f
  mem : u.mem = t.mem
  accs : u.bank.accs = t.bank.accs
  slots : u.bank.slots = t.bank.slots
  rules : u.bank.rules = t.bank.rules
  output : SameOutput t.bank u.bank

theorem opDone_completes {t : State} {o : EngOp} {os : List EngOp} (hq : t.bank.eng = o :: os) (hi : attnInstall o.ins = false)
    (hr : o.rule = none) (hm : o.members = []) (tok : Option DWord) (f : BitVec 7) :
    Completes t (t.opDone o tok f) o os tok f := by
  have hpop : t.bank.popEng = ({ t.bank with eng := os, held := t.bank.held - 1 } : Bank).settleCuts := by
    simp [Bank.popEng, hq, hi]
  have hout := sameOutput_settleCuts { t.bank with eng := os, held := t.bank.held - 1 }
  obtain ⟨ss, hss⟩ := settleCuts_onlyStreams { t.bank with eng := os, held := t.bank.held - 1 }
  rw [← hpop] at hss hout
  have hdone : t.opDone o tok f = { t with bank := t.bank.popEng }.mapAgent o.owner
      fun a => a.landToken o.uid (tok.getD (o.seq.setWidth 64)) f := by
    simp only [State.opDone, hr, State.landTokens, hm, List.isEmpty_nil, if_true, State.mapBank]
  have hrest : t.bank.popEng.eng = os ∧ t.bank.popEng.agents = t.bank.agents ∧ t.bank.popEng.accs = t.bank.accs ∧
      t.bank.popEng.slots = t.bank.slots ∧ t.bank.popEng.rules = t.bank.rules := by
    rw [hss]
    exact ⟨rfl, rfl, rfl, rfl, rfl⟩
  obtain ⟨heng, hagents, haccs, hslots, hrules⟩ := hrest
  have hagent : ({ t with bank := t.bank.popEng } : State).agent o.owner = t.agent o.owner := by
    rw [State.agent, hagents]
    rfl
  rw [hdone]
  exact ⟨heng, by rw [State.agent_mapAgent, hagent], rfl, haccs, hslots, hrules, fun m => hout m⟩

/-- The operations that one agent issues for itself, that write no memory of themselves and observe no writes of operations
before them. -/
def ordinary : Instr → Bool
  | .acfg .. | .aczero .. | .acload .. | .acdrain .. | .tadd .. | .tmul .. | .tscale .. | .extend .. | .rlstat ..
  | .revoke .. | .rlresume .. => true
  | _ => false

theorem ordinary_parts {o : EngOp} (h : ordinary o.ins = true) :
    o.lacksMembers = false ∧ observes o.ins = none ∧ attnInstall o.ins = false ∧ o.writesMemory false = false := by
  unfold EngOp.lacksMembers EngOp.writesMemory
  cases hi : o.ins with
  | acfg | aczero | acload | acdrain | tadd | tmul | tscale | extend | rlstat | revoke | rlresume =>
    exact ⟨rfl, rfl, rfl, rfl⟩
  | _ =>
    rw [hi] at h
    exact absurd h Bool.false_ne_true

section
variable {s : State} {o : EngOp} {os : List EngOp} (hs : s.shadow = none) (hf : s.freezes = [])
  (hrec : s.bank.recm.on = false) (hp : ∀ e ∈ s.pend, e.seen = none) (hq : s.bank.eng = o :: os) (he : o.err = none)
  (hr : o.rule = none) (hm : o.members = []) (hk : ordinary o.ins = true) (hc : (needsOf o.ins).length ≤ o.claims.length)
include hs hf hrec hp hq he hr hm hk hc

/-- An operation at the head of the queue that does all its work completes. -/
theorem engineOpComplete_done {t : State} {tok : Option DWord} {f : BitVec 7}
    (hrun : runPlain o (s.readBy o.owner) = .done t o tok f) (ht : t.bank.eng = o :: os) :
    ∃ u, exec .engineOpComplete s = .next u ∧ Completes t u o os tok f := by
  obtain ⟨hlacks, hobs, hinst, hwrites⟩ := ordinary_parts hk
  have hop : (s.readBy o.owner).runOp o = .done t o tok f := by
    rw [← hrun, State.runOp, if_neg (by simp [hrec])]
  have hpass : (s.readBy o.owner).passesOutput o = false := by simp [State.passesOutput, hrec, hwrites]
  have hhead : (s.readBy o.owner).runHead o = t.opDone o tok f := by
    simp only [State.runHead, hpass, Bool.false_eq_true, if_false, hop]
  obtain ⟨heng, htoken, hmem, haccs, hslots, hrules, hout⟩ := opDone_completes ht hinst hr hm tok f
  have hexec := engineOpComplete_runs hs hf hp hq he hlacks hobs hc
  rw [hhead] at hexec
  exact ⟨_, hexec, heng, htoken, hmem, haccs, hslots, hrules, hout⟩

end

/-! ## Operations without claims (R186, R187, R208, R219, R220) -/

theorem zero_at (x : Acc) (i n : Nat) : x.zero.at i n = 0 := rfl

theorem slot_mapSlot (b : Bank) (k : BitVec 6) (f : OSlot → OSlot) : (b.mapSlot k f).slot k = f (b.slot k) := by
  have hk := k.isLt
  simp [Bank.slot, Bank.mapSlot, Vector.getD, hk]

theorem rule_mapRule (b : Bank) (r : BitVec 5) (f : Rule → Rule) : (b.mapRule r f).rule r = f (b.rule r) := by
  simp [Bank.rule, Bank.mapRule]

theorem room_iff (b : Bank) (k : BitVec 6) (n : Nat) :
    b.room k n = true ↔ (b.slot k).ring = false ∨ (b.slot k).fill + n ≤ (b.slot k).cap + b.consumeMark k := by
  simp [Bank.room]

/-- The status of a rule is a matter of the rules alone. -/
theorem status_congr {b c : Bank} (h : c.rules = b.rules) (r : BitVec 5) : c.status r = b.status r := by
  simp only [Bank.status, Bank.rule, Bank.blocked, h]
  rfl

/-- `c` has the rules of `b` but for rule `r`, which `f` changes, and the same queue and agents. -/
structure RuleChanged (b c : Bank) (r : BitVec 5) (f : Rule → Rule) : Prop where
  rules : c.rules = (b.mapRule r f).rules
  eng : c.eng = b.eng
  agents : c.agents = b.agents

/-- A rule that is armed, faulted or parked is revoked at once. -/
theorem revoke_changes {b : Bank} {r : BitVec 5} (h : (b.rule r).state ∈ [RlState.armed, .faulted, .parked]) :
    RuleChanged b (b.revoke r) r fun x => { x with state := .revoked, revoking := false, limit := none, pinned := false } := by
  have hnow : b.revoke r = b.revokeNow r := by
    simp only [List.mem_cons, List.not_mem_nil, or_false] at h
    rcases h with h | h | h <;> rw [Bank.revoke, h]
  obtain ⟨ss, hss⟩ := foldl_onlyStreams
    (fun b n => ⟨_, (rfl : b.mapStream n (fun y => { y with captured := none, gate := none }) = _)⟩) (b.rule r).streams
    (b.mapRule r fun x => { x with state := .revoked, revoking := false, limit := none, pinned := false })
  rw [hnow, Bank.revokeNow, hss]
  exact ⟨rfl, rfl, rfl⟩

theorem resume_changes {b : Bank} {r : BitVec 5} (h : (b.rule r).state ∈ [RlState.faulted, .parked]) :
    RuleChanged b (b.resume r) r fun x => { x with state := .armed, limitHit := false } := by
  have hmap : b.resume r = b.mapRule r fun x => { x with state := .armed, limitHit := false } := by
    simp only [List.mem_cons, List.not_mem_nil, or_false] at h
    rcases h with h | h <;> rw [Bank.resume, h]
  rw [hmap]
  exact ⟨rfl, rfl, rfl⟩

section
variable {s : State} {o : EngOp}

theorem runPlain_acfg {ac : BitVec 2} {i32 disc : Bool} {rows cols : BitVec 7} (ho : o.ins = .acfg ac i32 rows cols disc)
    (h : (s.bank.acc ac).live = false ∨ disc = true) : runPlain o s = .done (s.mapBank fun b =>
      b.setAcc ac (Acc.zero ⟨rows.toNat + 1, cols.toNat + 1, i32, [], none, false, 0⟩)) o none 0 := by
  have hlive : ((s.bank.acc ac).live && !disc) = false := by rcases h with h | h <;> simp [h]
  simp only [runPlain, ho, State.runTileOp, State.runAcfg, hlive, Bool.false_eq_true, if_false]

theorem runPlain_aczero {ac : BitVec 2} {i32 : Bool} (ho : o.ins = .aczero ac i32) (h : (s.bank.acc ac).isI32 = i32) :
    runPlain o s = .done (s.mapBank fun b => b.setAcc ac (s.bank.acc ac).zero) o none 0 := by
  simp [runPlain, ho, State.runTileOp, State.runAczero, h]

section
variable {d a : Opnd} {slot : BitVec 6} (ho : o.ins = .extend d slot a) (hconf : (s.bank.slot slot).conf = true)
  (howes : s.bank.owesOutput o.owner = false)
include ho hconf howes

theorem runPlain_extend (h : s.bank.room slot o.valA.toNat = true) : runPlain o s = .done ((s.mapBank fun b =>
    b.mapSlot slot fun t => { t with fill := t.fill + o.valA.toNat }).ownerReads o) o
      (some (BitVec.ofNat 64 ((s.bank.slot slot).fill + o.valA.toNat))) 0 := by
  simp [runPlain, ho, State.runOpenOp, State.runExtend, hconf, howes, h]

theorem runPlain_extend_full (h : s.bank.room slot o.valA.toNat = false) :
    runPlain o s = .done (s.ownerReads o) o (some (BitVec.allOnes 64)) 0 := by
  simp [runPlain, ho, State.runOpenOp, State.runExtend, hconf, howes, h]

end

/-- An operation on a rule whose number is one of a rule: its token is the rule's status after it. -/
theorem runPlain_rule {f : Bank → BitVec 5 → Bank} (ho : runPlain o s = s.runRuleOp o f) (h : o.valA.toNat < 32) :
    runPlain o s = .done (s.mapBank fun b => f b (BitVec.ofNat 5 o.valA.toNat)) o
      (some ((f s.bank (BitVec.ofNat 5 o.valA.toNat)).status (BitVec.ofNat 5 o.valA.toNat))) 0 := by
  rw [ho, State.runRuleOp, if_neg (by omega)]
  rfl

section
variable {d a : Opnd}

theorem runPlain_rlstat (ho : o.ins = .rlstat d a) : runPlain o s = s.runRuleOp o fun b _ => b := by
  simp only [runPlain, ho, State.runOpenOp]

theorem runPlain_revoke (ho : o.ins = .revoke d a) : runPlain o s = s.runRuleOp o Bank.revoke := by
  simp only [runPlain, ho, State.runOpenOp]

theorem runPlain_rlresume (ho : o.ins = .rlresume d a) : runPlain o s = s.runRuleOp o Bank.resume := by
  simp only [runPlain, ho, State.runOpenOp]

end

end

/-! ## A fault that the engine holds (R195) -/

/-- While the operation at the head holds a fault nothing runs. -/
theorem engineOpComplete_faulted {s : State} {o : EngOp} {os : List EngOp} {e : EngErr} (hq : s.bank.eng = o :: os)
    (he : o.err = some e) (hr : o.rule = none) (hs : s.shadow = none) (hf : s.freezes = []) (hh : s.held = [])
    (hp : ∀ x ∈ s.pend, x.seen = none) : exec .engineOpComplete s = .next { s with engAt := s.wall + 1 } := by
  have hfor : s.engineFor o = s.readBy o.owner := by
    unfold State.engineFor
    rw [surface_unseen hp]
    split
    · simp only [State.afterOps, hh, List.filter_nil]
      rw [← hh]
    · rfl
  have hstep : s.engineStep = s := by
    rw [State.engineStep, hq]
    dsimp only
    rw [hfor, State.headStep, he, hr]
    split <;> rfl
  change execEngineOpComplete s = _
  rw [execEngineOpComplete, unlessFrozen_running hf, onWork_unshadowed hs, hstep]

theorem engineFaultDelivery_held {s : State} {o : EngOp} {os : List EngOp} {e : EngErr} (hq : s.bank.eng = o :: os)
    (he : o.err = some e) : exec .engineFaultDelivery s = .next (s.takeTrap (s.engTrap o e)) := by
  change execEngineFaultDelivery s = _
  simp only [execEngineFaultDelivery, Bank.engFault, hq, he, Option.map_some]

theorem engineFaultDelivery_none {s : State}
    (h : s.bank.eng = [] ∨ ∃ o os, s.bank.eng = o :: os ∧ o.err = none) : exec .engineFaultDelivery s = .next s := by
  change execEngineFaultDelivery s = _
  rcases h with h | ⟨o, os, h, he⟩
  · simp only [execEngineFaultDelivery, Bank.engFault, h]
  · simp only [execEngineFaultDelivery, Bank.engFault, h, he, Option.map_none]

end Sys2Proof.Machine
end

section
/-! TILE operations on one piece, loads and drains (R187, R188, R197, R198): the values that computations with flags give, the
elements of the accumulator, and the piece handed out. -/

namespace Sys2Proof.Machine

/-! ## Values that do not depend on flags raised before (R74) -/

/-- The computation gives `v`, whatever flags it finds. -/
def Fm.Gives {α : Type} (m : Fm α) (v : α) : Prop := ∀ f, (m f).1 = v

theorem gives_pure {α : Type} (v : α) : Fm.Gives (pure v : Fm α) v := fun _ => rfl

theorem gives_fl (r : Nat × BitVec 7) : Fm.Gives (fl r) r.1 := fun _ => rfl

theorem gives_bind {α β : Type} {m : Fm α} {k : α → Fm β} {a : α} {b : β} (hm : m.Gives a) (hk : (k a).Gives b) :
    Fm.Gives (m >>= k) b := by
  intro f
  have h := hk (m f).2
  rw [← hm f] at h
  exact h

theorem gives_mapM {α β : Type} {g : α → Fm β} {v : α → β} {l : List α} (h : ∀ x ∈ l, (g x).Gives (v x)) :
    Fm.Gives (l.mapM g) (l.map v) := by
  induction l with
  | nil => exact gives_pure []
  | cons x l ih =>
    rw [List.mapM_cons]
    exact gives_bind (h x List.mem_cons_self) (gives_bind (ih fun y hy => h y (List.mem_cons_of_mem x hy)) (gives_pure _))

theorem gives_mapM_map {α β γ : Type} {g : β → Fm γ} {h : α → β} {v : α → γ} {l : List α}
    (hg : ∀ x ∈ l, (g (h x)).Gives (v x)) : Fm.Gives ((l.map h).mapM g) (l.map v) := by
  rw [List.mapM_map]
  exact gives_mapM hg

/-! ## Rows of the accumulator (R184, R198) -/

theorem maskOf_none {p : Nat → Bool} (h : ∀ i, p i = false) (rows : Nat) : maskOf p rows = 0 := by
  simp [maskOf, h]

/-- The accumulator with the elements that `g` gives, live. -/
def Acc.filled (x : Acc) (g : Nat → Nat → Nat) : Acc :=
  { x with
    elems := (List.range x.rows).flatMap fun i => (List.range x.cols).map fun j => BitVec.ofNat 32 (g i j)
    fill := none
    live := true }

theorem filled_at (x : Acc) (g : Nat → Nat → Nat) {i j : Nat} (hi : i < x.rows) (hj : j < x.cols) :
    (x.filled g).at i j = BitVec.ofNat 32 (g i j) := by
  simp only [Acc.filled, Acc.at, getElem?_flatMap_range _ hi hj]

/-- A function of rows run over every row: each element is what the row's computation gives. -/
theorem mapRows_gives {x : Acc} {f : Nat → List Nat → Fm (List Nat)} {g : Nat → Nat → Nat} (hrows : x.rows ≤ 128)
    (h : ∀ i, i < x.rows → (f i (x.rowOf i)).Gives ((List.range x.cols).map (g i))) :
    (x.mapRows (BitVec.allOnes 128) f).Gives (x.filled g) := by
  have hall : Fm.Gives ((List.range x.rows).mapM fun i =>
      if (BitVec.allOnes 128).getLsbD i then f i (x.rowOf i) else pure (x.rowOf i))
      ((List.range x.rows).map fun i => (List.range x.cols).map (g i)) := by
    refine gives_mapM fun i hi => ?_
    have hi' := List.mem_range.1 hi
    rw [if_pos (by rw [BitVec.getLsbD_allOnes, decide_eq_true (by omega)])]
    exact h i hi'
  refine gives_bind hall ?_
  have helems : (((List.range x.rows).map fun i => (List.range x.cols).map (g i)).flatten).map (BitVec.ofNat 32)
      = (List.range x.rows).flatMap fun i => (List.range x.cols).map fun j => BitVec.ofNat 32 (g i j) := by
    rw [← List.flatMap_def, List.map_flatMap]
    simp only [List.map_map]
    rfl
  rw [helems]
  exact gives_pure _

/-- The row of an accumulator with the numbers of its columns. -/
theorem zip_rowOf (x : Acc) (i : Nat) :
    (List.range x.cols).zip (x.rowOf i) = (List.range x.cols).map fun j => (j, (x.at i j).toNat) := by
  have hzip := List.zip_map' (f := fun j => j) (g := fun j => (x.at i j).toNat) (l := List.range x.cols)
  rwa [List.map_id'] at hzip

/-- Addition modulo 2^32 as one of words. -/
theorem ofNat_add_mod (a : Word) (v : Nat) : BitVec.ofNat 32 ((a.toNat + v) % 2 ^ 32) = a + BitVec.ofNat 32 v := by
  refine BitVec.eq_of_toNat_eq ?_
  simp

/-! ## Broadcasts (R198) -/

theorem bitVec2_cases (b : BitVec 2) : b = 0 ∨ b = 1 ∨ b = 2 ∨ b = 3 := by
  revert b
  decide

theorem bcAt_eq {α : Type} (b : BitVec 2) (f : Nat → Nat → α) (i j : Nat) :
    bcAt b f i j = f (if b = 1 then 0 else i) (if b = 0 ∨ b = 1 then j else 0) := by
  rcases bitVec2_cases b with rfl | rfl | rfl | rfl <;> rfl

theorem bcShape_iff (b : BitVec 2) (d : StrDesc) (x : Acc) : bcShape b d x = true ↔
    if b = 0 then d.rows = x.rows ∧ d.cols = x.cols else if b = 1 then d.rows = 1 ∧ d.cols = x.cols
      else d.rows = x.rows ∧ d.cols = 1 := by
  rcases bitVec2_cases b with rfl | rfl | rfl | rfl <;> simp [bcShape, StrDesc.shape]

/-! ## A piece that is read (R181, R197) -/

/-- The piece was read without a fault and holds no poison. -/
structure Piece.Sound (p : Piece) : Prop where
  fault : p.fault = none
  bad : ∀ b ∈ p.bad, b = false

theorem Piece.Sound.badAt {p : Piece} (h : p.Sound) (r c : Nat) : p.badAt r c = false :=
  Piece.Clean.badAt (p := { p with scales := [], tc := false }) ⟨h.fault, rfl, rfl, h.bad⟩ r c

theorem Piece.Sound.pieceFault {p : Piece} (h : p.Sound) (st : BitVec 4) : pieceFault 0 [(st, p)] = none := by
  simp [Machine.pieceFault, h.fault]

section
variable {s : State} {o : EngOp} {c : Claim} (hc : o.claims = [c])
include hc

theorem consumeAll_one : s.consumeAll o = s.mapBank fun b => b.consume c := by
  simp [State.consumeAll, hc]

theorem claimAt_one : o.claimAt 0 = c := by
  simp [EngOp.claimAt, hc]

end

/-- A claim that is consumed counts up to its last piece; what the stream is to write stays. -/
theorem consume_stream (b : Bank) (c : Claim) :
    ((b.consume c).stream c.st).outq = (b.stream c.st).outq ∧
      ((b.stream c.st).gen = c.gen → ((b.consume c).stream c.st).consumed = c.first + c.count) := by
  rw [Bank.consume, stream_mapStream]
  exact ⟨rfl, fun h => if_pos h⟩

/-- An operation on rows whose pieces were read without a fault and hold no poison reaches every row. -/
theorem runRows_sound {s : State} {o : EngOp} {ac : BitVec 2} {ps : List (BitVec 4 × Piece)} {bad : Nat → Bool}
    {f : Nat → List Nat → Fm (List Nat)} {g : Nat → Nat → Nat} (hn : o.need = BitVec.allOnes 128) (hps : pieceFault 0 ps = none)
    (hbad : ∀ i, bad i = false) (hrows : (s.bank.acc ac).rows ≤ 128)
    (h : ∀ i, i < (s.bank.acc ac).rows → (f i ((s.bank.acc ac).rowOf i)).Gives ((List.range (s.bank.acc ac).cols).map (g i))) :
    ∃ fl, s.runRows o ac ps bad f
      = .done ((s.mapBank fun b => b.setAcc ac ((s.bank.acc ac).filled g)).consumeAll o) o none fl := by
  have hgives := mapRows_gives hrows h o.flags
  refine ⟨((s.bank.acc ac).mapRows (BitVec.allOnes 128) f o.flags).2, ?_⟩
  have hpoison : maskOf bad (s.bank.acc ac).rows &&& o.need = 0 := by rw [maskOf_none hbad]; exact BitVec.zero_and
  have hall : o.need &&& ~~~(0 : BitVec 128) = BitVec.allOnes 128 := by rw [hn]; rfl
  simp only [State.runRows, hps, hpoison, hall, if_true, hgives]

/-! ## The operations on one piece (R187, R188, R198) -/

section
variable {s : State} {o : EngOp} {ac : BitVec 2} {n : BitVec 4} {c : Claim} (hc : o.claims = [c])
  (hn : o.need = BitVec.allOnes 128) (hw : s.opWaits o = false) (hrows : (s.bank.acc ac).rows ≤ 128)
  (hin : c.desc.isOut = false) (hp : (s.pieceOf c 0).Sound)
include hc hw hin hp

theorem runAcload_sound {i32 : Bool} (h32 : (s.bank.acc ac).isI32 = i32) (hty : c.desc.ty = if i32 then 0 else 6)
    (hshape : c.desc.rows = (s.bank.acc ac).rows ∧ c.desc.cols = (s.bank.acc ac).cols) :
    s.runAcload o ac i32 = .done ((s.mapBank fun b => b.setAcc ac { (s.bank.acc ac).filled (s.pieceOf c 0).at with
      poison := 0 }).consumeAll o) o none 0 := by
  obtain ⟨hr, hcl⟩ := hshape
  have hchecks : firstBad [(0x05, (s.bank.acc ac).isI32 != i32), (0x04, !c.desc.inOf (if i32 then 0 else 6)),
      (0x03, !c.desc.shape (s.bank.acc ac).rows (s.bank.acc ac).cols)] = none := by
    simp [firstBad, h32, StrDesc.inOf, hin, hty, StrDesc.shape, hr, hcl]
  have hbad : maskOf (fun i => (List.range (s.bank.acc ac).cols).any fun n => (s.pieceOf c 0).badAt i n)
      (s.bank.acc ac).rows = 0 := maskOf_none (fun i => List.any_eq_false.2 fun n _ => by simp [hp.badAt]) _
  simp only [State.runAcload, claimAt_one hc, hchecks, hw, Bool.false_eq_true, if_false, hp.pieceFault, hbad]
  rfl

include hn hrows

theorem runElem_sound {t : Ty} {b : BitVec 2} {mul : Bool} {g : Nat → Nat → Nat}
    (h32 : (s.bank.acc ac).isI32 = (!mul && t == .i32)) (hty : c.desc.ty = t.enc.toNat)
    (hshape : bcShape b c.desc (s.bank.acc ac) = true)
    (hg : ∀ i j, Fm.Gives (if t = .i32 then pure ((((s.bank.acc ac).at i j).toNat + bcAt b (s.pieceOf c 0).at i j) % 2 ^ 32)
      else do
        let w ← widen t (bcAt b (s.pieceOf c 0).at i j)
        if mul then fMulM ((s.bank.acc ac).at i j).toNat w else fAddM ((s.bank.acc ac).at i j).toNat w) (g i j)) :
    ∃ fl, s.runElem o ac t b mul
      = .done ((s.mapBank fun b => b.setAcc ac ((s.bank.acc ac).filled g)).consumeAll o) o none fl := by
  have hchecks : tileCheck (s.bank.acc ac) c t (!mul && t == .i32) (bcShape b c.desc (s.bank.acc ac)) = none := by
    simp [tileCheck, firstBad, h32, StrDesc.inOf, hin, hty, hshape]
  have hbad : ∀ i, rowBad (s.bank.acc ac).cols (fun i n => bcAt b (s.pieceOf c 0).badAt i n) i = false := fun i =>
    List.any_eq_false.2 fun n _ => by simp [bcAt_eq, hp.badAt]
  simp only [State.runElem, claimAt_one hc, hchecks, hw, Bool.false_eq_true, if_false]
  refine runRows_sound hn (hp.pieceFault c.st) hbad hrows fun i hi => ?_
  rw [zip_rowOf]
  exact gives_mapM_map fun j _ => hg i j

theorem runElem_addInt {b : BitVec 2} (h32 : (s.bank.acc ac).isI32 = true) (hty : c.desc.ty = 0)
    (hshape : bcShape b c.desc (s.bank.acc ac) = true) :
    ∃ fl, s.runElem o ac .i32 b false = .done ((s.mapBank fun k => k.setAcc ac ((s.bank.acc ac).filled fun i j =>
      (((s.bank.acc ac).at i j).toNat + bcAt b (s.pieceOf c 0).at i j) % 2 ^ 32)).consumeAll o) o none fl :=
  runElem_sound hc hn hw hrows hin hp h32 hty hshape fun _ _ => gives_pure _

theorem runElem_add {b : BitVec 2} (h32 : (s.bank.acc ac).isI32 = false) (hty : c.desc.ty = 6)
    (hshape : bcShape b c.desc (s.bank.acc ac) = true) :
    ∃ fl, s.runElem o ac .f32 b false = .done ((s.mapBank fun k => k.setAcc ac ((s.bank.acc ac).filled fun i j =>
      (f32Add ((s.bank.acc ac).at i j).toNat (bcAt b (s.pieceOf c 0).at i j)).1)).consumeAll o) o none fl :=
  runElem_sound hc hn hw hrows hin hp h32 hty hshape fun _ _ => gives_bind (gives_pure _) (gives_fl _)

theorem runElem_mul {b : BitVec 2} (h32 : (s.bank.acc ac).isI32 = false) (hty : c.desc.ty = 6)
    (hshape : bcShape b c.desc (s.bank.acc ac) = true) :
    ∃ fl, s.runElem o ac .f32 b true = .done ((s.mapBank fun k => k.setAcc ac ((s.bank.acc ac).filled fun i j =>
      (f32Mul ((s.bank.acc ac).at i j).toNat (bcAt b (s.pieceOf c 0).at i j)).1)).consumeAll o) o none fl :=
  runElem_sound hc hn hw hrows hin hp h32 hty hshape fun _ _ => gives_bind (gives_pure _) (gives_fl _)

theorem runTscale_sound (h32 : (s.bank.acc ac).isI32 = false) (hty : c.desc.ty = 6)
    (hshape : c.desc.rows = 1 ∧ c.desc.cols = 1) :
    ∃ fl, s.runTscale o ac .f32 = .done ((s.mapBank fun b => b.setAcc ac ((s.bank.acc ac).filled fun i j =>
      (f32Mul ((s.bank.acc ac).at i j).toNat ((s.pieceOf c 0).at 0 0)).1)).consumeAll o) o none fl := by
  obtain ⟨hr, hcl⟩ := hshape
  have hchecks : tileCheck (s.bank.acc ac) c .f32 false (c.desc.shape 1 1) = none := by
    simp [tileCheck, firstBad, h32, StrDesc.inOf, hin, hty, Ty.enc, StrDesc.shape, hr, hcl]
  simp only [State.runTscale, claimAt_one hc, hchecks, hw, Bool.false_eq_true, if_false]
  refine runRows_sound hn (hp.pieceFault c.st) (fun _ => hp.badAt 0 0) hrows fun i hi => ?_
  refine gives_bind (gives_pure ((s.pieceOf c 0).at 0 0)) ?_
  exact gives_mapM_map fun j _ => gives_fl _

end

/-- An element drained without scales into its own type stays as it is (R188). -/
theorem drainElem_own (i32 : Bool) (r : Rnd) (a : Nat) :
    Fm.Gives (drainElem i32 (if i32 then .i32 else .f32) r a none none) a := by
  cases i32 <;> exact fun _ => rfl

theorem drain_own (x : Acc) (r : Rnd) : Fm.Gives (x.drain (if x.isI32 then .i32 else .f32) r none none)
    ((List.range x.rows).flatMap fun i => (List.range x.cols).map fun j => x.at i j) := by
  have hmap : ((List.range x.rows).flatMap fun i => (List.range x.cols).map fun j => x.at i j)
      = ((List.range x.rows).flatMap fun i => (List.range x.cols).map fun j => (i, j)).map fun p => x.at p.1 p.2 := by
    simp only [List.map_flatMap, List.map_map]
    rfl
  rw [hmap]
  refine gives_mapM fun p _ => gives_bind (drainElem_own x.isI32 r _) ?_
  rw [BitVec.ofNat_toNat, BitVec.setWidth_eq]
  exact gives_pure _

/-- A drain without scales has no poisoned scale. -/
theorem scaleBad_none (i : Nat) : scaleBad none i = false := rfl

/-- A drain without scales, whose every write passes checks 1 to 5, hands the accumulator out as its piece (R188). -/
theorem runAcdrain_own {s : State} {o : EngOp} {ac : BitVec 2} {c : Claim} {x : Acc} {keep : Bool} {r : Rnd}
    (hx : s.bank.acc ac = x) (hc : o.claims = [c]) (hw : s.opWaits o = false) (hout : c.desc.isOut = true)
    (hty : c.desc.ty = if x.isI32 then 0 else 6) (hshape : c.desc.rows = x.rows ∧ c.desc.cols = x.cols)
    (hbad : s.drainBad c x.rows x.cols = none) :
    ∃ fl, s.runAcdrain o ac (if x.isI32 then .i32 else .f32) false false keep r = .done
      (((s.handOut o c x.rows x.cols ((List.range x.rows).flatMap fun i => (List.range x.cols).map fun j => x.at i j)
          ((List.range x.rows).flatMap fun i => List.replicate x.cols (x.poison.getLsbD i))).consumeAll o).mapBank fun b =>
        b.setAcc ac { x with live := x.live && keep }) o none fl := by
  obtain ⟨hr, hcl⟩ := hshape
  refine ⟨(x.drain (if x.isI32 then .i32 else .f32) r none none 0).2, ?_⟩
  have hchecks : firstBad [
      (0x05, (if x.isI32 then Ty.i32 else .f32) == .i32 && !x.isI32),
      (0x04, !(c.desc.isOut && c.desc.ty == (if x.isI32 then Ty.i32 else .f32).enc.toNat)),
      (0x03, !c.desc.shape x.rows x.cols)] = none := by
    rw [hout, hty]
    cases x.isI32 <;> simp [firstBad, Ty.enc, StrDesc.shape, hr, hcl]
  have hpiece : pieceFault 0 [(c.st, (⟨c.gen, c.first, x.rows, x.cols, [], [], [], false, none⟩ : Piece))] = none := rfl
  have hnone : (List.range x.cols).any (scaleBad none) = false := List.any_eq_false.2 fun i _ => Bool.false_ne_true
  simp only [State.runAcdrain, hx, bit, Bool.false_eq_true, if_false, Nat.add_zero, claimAt_one hc, Option.map_none,
    Option.getD_none, hchecks, hw, hbad, Option.toList_none, List.append_nil, List.map_nil, List.nil_append, hpiece,
    drain_own x r 0, scaleBad_none, hnone, Bool.not_true, Bool.or_false]

section
variable {s : State} {o : EngOp} {ac : BitVec 2} {sa : BitVec 4}

theorem runPlain_acload {i32 : Bool} (ho : o.ins = .acload ac sa i32) : runPlain o s = s.runAcload o ac i32 := by
  simp only [runPlain, ho, State.runTileOp]

theorem runPlain_tadd {t : Ty} {b : BitVec 2} (ho : o.ins = .tadd ac sa t b) : runPlain o s = s.runElem o ac t b false := by
  simp only [runPlain, ho, State.runTileOp]

theorem runPlain_tmul {t : Ty} {b : BitVec 2} (ho : o.ins = .tmul ac sa t b) : runPlain o s = s.runElem o ac t b true := by
  simp only [runPlain, ho, State.runTileOp]

theorem runPlain_tscale {t : Ty} (ho : o.ins = .tscale ac sa t) : runPlain o s = s.runTscale o ac t := by
  simp only [runPlain, ho, State.runTileOp]

theorem runPlain_acdrain {sb sx : BitVec 4} {t : Ty} {rs cs keep : Bool} {r : Rnd}
    (ho : o.ins = .acdrain ac sa sb sx t rs cs keep r) : runPlain o s = s.runAcdrain o ac t rs cs keep r := by
  simp only [runPlain, ho, State.runTileOp]

end

end Sys2Proof.Machine
end

section
/-! The engine at the head of its queue, operation by operation, and the faults that it holds (R186 to R188, R193, R195, R197, R198,
R205, R208, R219, R220). -/

namespace Sys2Proof.Machine

/-! ## What is left of accumulators, slots and rules -/

theorem acc_of_accs {b b' : Bank} {k : BitVec 2} {y : Acc} (h : b.accs = (b'.setAcc k y).accs) : b.acc k = y := by
  rw [Bank.acc, h]
  exact acc_setAcc b' k y

theorem slot_of_slots {b b' : Bank} {k : BitVec 6} {f : OSlot → OSlot} (h : b.slots = (b'.mapSlot k f).slots) :
    b.slot k = f (b'.slot k) := by
  rw [Bank.slot, h]
  exact slot_mapSlot b' k f

theorem rule_of_rules {b b' : Bank} {r : BitVec 5} {f : Rule → Rule} (h : b.rules = (b'.mapRule r f).rules) :
    b.rule r = f (b'.rule r) := by
  rw [Bank.rule, h]
  exact rule_mapRule b' r f

/-! ## Completion, for an operation without claims and for one that claims a piece (R193, R197) -/

section
variable {s : State} {o : EngOp} {os : List EngOp} (hs : s.shadow = none) (hf : s.freezes = [])
  (hrec : s.bank.recm.on = false) (hp : ∀ e ∈ s.pend, e.seen = none) (hq : s.bank.eng = o :: os) (he : o.err = none)
  (hr : o.rule = none) (hm : o.members = []) {i : Instr} (hi : o.ins = i) (hk : ordinary i = true)
include hs hf hrec hp hq he hr hm hi hk

/-- An operation without claims whose work leaves `t`. -/
theorem unclaimed_completes (hn : needsOf i = []) {t : State} {tok : Option DWord}
    (hrun : runPlain o (s.readBy o.owner) = .done t o tok 0) (ht : t.bank.eng = s.bank.eng)
    (hagents : t.bank.agents = s.bank.agents) (hmem : t.mem = s.mem) {v : DWord} (hv : tok.getD (o.seq.setWidth 64) = v) :
    ∃ u, exec .engineOpComplete s = .next u ∧ u.bank.eng = os ∧
      u.agent o.owner = (s.agent o.owner).landToken o.uid v 0 ∧ u.mem = s.mem ∧ u.bank.accs = t.bank.accs ∧
      u.bank.slots = t.bank.slots ∧ u.bank.rules = t.bank.rules := by
  obtain ⟨u, hexec, hdone⟩ := engineOpComplete_done hs hf hrec hp hq he hr hm (by rw [hi]; exact hk)
    (by rw [hi, hn]; exact Nat.zero_le _) hrun (ht.trans hq)
  have hagent : t.agent o.owner = s.agent o.owner := by rw [State.agent, hagents]; rfl
  exact ⟨u, hexec, hdone.eng, by rw [hdone.token, hagent, hv], hdone.mem.trans hmem, hdone.accs, hdone.slots, hdone.rules⟩

variable {c : Claim} (hc : o.claims = [c]) (hn : (needsOf i).length ≤ 1)
include hc hn

/-- An operation that puts `y` into its accumulator and consumes its piece. -/
theorem onePiece_completes {ac : BitVec 2} {y : Acc}
    (hrun : ∃ f, runPlain o (s.readBy o.owner)
      = .done (((s.readBy o.owner).mapBank fun b => b.setAcc ac y).consumeAll o) o none f) :
    ∃ u f, exec .engineOpComplete s = .next u ∧ u.bank.eng = os ∧ u.mem = s.mem ∧
      u.agent o.owner = (s.agent o.owner).landToken o.uid (o.seq.setWidth 64) f ∧ u.bank.acc ac = y ∧
      ((s.bank.stream c.st).gen = c.gen → (u.bank.stream c.st).consumed = c.first + c.count) := by
  obtain ⟨f, hrun⟩ := hrun
  rw [consumeAll_one hc] at hrun
  obtain ⟨u, hexec, hdone⟩ := engineOpComplete_done hs hf hrec hp hq he hr hm (by rw [hi]; exact hk)
    (by rw [hi, hc]; exact hn) hrun hq
  have hacc : u.bank.acc ac = y := acc_of_accs (b' := s.bank) hdone.accs
  have hconsumed := (hdone.output c.st).2
  obtain ⟨-, hcons⟩ := consume_stream (s.bank.setAcc ac y) c
  exact ⟨u, f, hexec, hdone.eng, hdone.mem, hdone.token, hacc, fun hg => hconsumed.trans (hcons hg)⟩

/-- A drain that hands out the accumulator as its piece, and leaves it live only where `keep` asks so. -/
theorem drain_completes {ac : BitVec 2} {y : Acc} {rows cols : Nat} {elems : List Word} {bad : List Bool}
    (hrun : ∃ f, runPlain o (s.readBy o.owner) = .done ((((s.readBy o.owner).handOut o c rows cols elems bad).consumeAll o).mapBank
      fun b => b.setAcc ac y) o none f) :
    ∃ u f, exec .engineOpComplete s = .next u ∧ u.bank.eng = os ∧ u.mem = s.mem ∧
      u.agent o.owner = (s.agent o.owner).landToken o.uid (o.seq.setWidth 64) f ∧ u.bank.acc ac = y ∧
      (u.bank.stream c.st).outq = (s.bank.stream c.st).outq ++
        [⟨o.agents, o.uid, s.bank.uid, c.desc, ⟨c.gen, c.first, rows, cols, elems, bad, [], false, none⟩⟩] := by
  obtain ⟨f, hrun⟩ := hrun
  rw [consumeAll_one hc] at hrun
  obtain ⟨u, hexec, hdone⟩ := engineOpComplete_done hs hf hrec hp hq he hr hm (by rw [hi]; exact hk)
    (by rw [hi, hc]; exact hn) hrun hq
  have hacc : u.bank.acc ac = y := acc_of_accs (b' := s.bank) hdone.accs
  have hout := (hdone.output c.st).1
  obtain ⟨hkeep, -⟩ := consume_stream ((s.readBy o.owner).handOut o c rows cols elems bad).bank c
  refine ⟨u, f, hexec, hdone.eng, hdone.mem, hdone.token, hacc, hout.trans (hkeep.trans ?_)⟩
  exact congrArg Strm.outq (stream_mapStream s.bank c.st fun x => { x with outq := x.outq ++
    [⟨o.agents, o.uid, s.bank.uid, c.desc, ⟨c.gen, c.first, rows, cols, elems, bad, [], false, none⟩⟩] })

end

/-! ## The statement -/

/-- Settles O37: each operation by what it leaves when it has run, a held fault by the trap that it is delivered as. -/
theorem engineRuns : Obligations.EngineRuns := by
  unfold Obligations.EngineRuns
  refine ⟨?direct, ?piece, ?faults⟩
  case direct =>
    intro s o os ac i32 disc rows cols d a slot hs hf hrec hp hq he hr hm hc x y r n ring runs cleared
    have hcleared : ∀ {u : State} {y : Acc}, u.bank.accs = (s.bank.setAcc ac y.zero).accs →
        cleared u y.rows y.cols y.isI32 := by
      intro u y h
      simp only [cleared, acc_of_accs h]
      exact ⟨rfl, rfl, rfl, rfl, rfl, zero_at y⟩
    refine ⟨fun hi hlive => ?acfg, fun hi h32 => ?aczero, fun hi hconf howes hring => ?extend,
      fun hi hconf howes hring => ?full, fun hi hn => ?rlstat, fun hi hn hst => ?revoke, fun hi hn hst => ?resume⟩
    case acfg =>
      obtain ⟨u, hexec, heng, htoken, hmem, haccs, -, -⟩ := unclaimed_completes hs hf hrec hp hq he hr hm hi rfl rfl
        (runPlain_acfg hi hlive) rfl rfl rfl rfl
      exact ⟨u, hexec, heng, htoken, hmem, hcleared haccs⟩
    case aczero =>
      obtain ⟨u, hexec, heng, htoken, hmem, haccs, -, -⟩ := unclaimed_completes hs hf hrec hp hq he hr hm hi rfl rfl
        (runPlain_aczero hi h32) rfl rfl rfl rfl
      exact ⟨u, hexec, heng, htoken, hmem, h32 ▸ hcleared haccs⟩
    case extend =>
      obtain ⟨u, hexec, heng, htoken, hmem, -, hslots, -⟩ := unclaimed_completes hs hf hrec hp hq he hr hm hi rfl rfl
        (runPlain_extend hi hconf howes ((room_iff ..).2 hring)) rfl rfl rfl rfl
      exact ⟨u, hexec, heng, htoken, hmem, slot_of_slots hslots⟩
    case full =>
      obtain ⟨u, hexec, heng, htoken, hmem, -, hslots, -⟩ := unclaimed_completes hs hf hrec hp hq he hr hm hi rfl rfl
        (runPlain_extend_full hi hconf howes (Bool.eq_false_iff.2 (mt (room_iff ..).1 hring))) rfl rfl rfl rfl
      exact ⟨u, hexec, heng, htoken, hmem, hslots⟩
    case rlstat =>
      obtain ⟨u, hexec, heng, htoken, hmem, -, -, hrules⟩ := unclaimed_completes hs hf hrec hp hq he hr hm hi rfl rfl
        (runPlain_rule (runPlain_rlstat hi) hn) rfl rfl rfl rfl
      exact ⟨u, hexec, heng, htoken, hmem, hrules⟩
    case revoke =>
      obtain ⟨hchanged, heng', hagents⟩ := revoke_changes hst
      obtain ⟨u, hexec, heng, htoken, hmem, -, -, hrules⟩ := unclaimed_completes hs hf hrec hp hq he hr hm hi rfl rfl
        (runPlain_rule (runPlain_revoke hi) hn) heng' hagents rfl rfl
      have hrule := rule_of_rules (hrules.trans hchanged)
      exact ⟨_, u, hexec, heng, htoken, hmem, congrArg Rule.state hrule, (status_congr hrules r).symm⟩
    case resume =>
      obtain ⟨hchanged, heng', hagents⟩ := resume_changes hst
      obtain ⟨u, hexec, heng, htoken, hmem, -, -, hrules⟩ := unclaimed_completes hs hf hrec hp hq he hr hm hi rfl rfl
        (runPlain_rule (runPlain_rlresume hi) hn) heng' hagents rfl rfl
      exact ⟨_, u, hexec, heng, htoken, hmem, hrules.trans hchanged, (status_congr hrules r).symm⟩
  case piece =>
    intro s o os ac b n m i32 keep r c hs hf hrec hp hq he hr hm hc hneed hflags hw x p runs reads shape bc v becomes hrows
    have hbecomes : ∀ {i : Instr} {q : BitVec 128} {g : Nat → Nat → Nat} {k : Nat → Nat → Word}, o.ins = i →
        ordinary i = true → (needsOf i).length ≤ 1 →
        (∃ f, runPlain o (s.readBy o.owner) = .done (((s.readBy o.owner).mapBank fun b =>
          b.setAcc ac { x.filled g with poison := q }).consumeAll o) o none f) →
        (∀ i j, BitVec.ofNat 32 (g i j) = k i j) → runs (becomes q k) := by
      intro i q g k hi hk hn hrun hgk
      obtain ⟨u, f, hexec, heng, hmem, htoken, hacc, hcons⟩ := onePiece_completes hs hf hrec hp hq he hr hm hi hk hc hn hrun
      refine ⟨u, f, hexec, heng, hmem, htoken, by rw [hacc]; rfl, by rw [hacc], by rw [hacc]; rfl, by rw [hacc]; rfl,
        by rw [hacc]; rfl, fun i j hi hj => ?_, hcons⟩
      rw [hacc]
      exact (filled_at x g hi hj).trans (hgk i j)
    have hbc : ∀ i j, bcAt b p.at i j = v i j := bcAt_eq b p.at
    have hbcShape : bc → bcShape b c.desc x = true := (bcShape_iff b c.desc x).2
    have hready : (s.readBy o.owner).opWaits o = false := hw
    have hsound : reads → ((s.readBy o.owner).pieceOf c 0).Sound := fun h => by
      obtain ⟨-, hfault, hbad⟩ := h
      exact ⟨hfault, hbad⟩
    refine ⟨fun hi h32 hreads hty hshape => ?acload, fun hi h32 hreads hty hshape => ?addInt,
      fun h32 hreads hty hshape => ⟨fun hi => ?add, fun hi => ?mul⟩, fun hi h32 hreads hty hshape => ?scale,
      fun hi h32 hout hty hshape hbad => ?drain⟩
    case acload =>
      refine hbecomes hi rfl le_rfl ⟨0, ?_⟩ fun _ _ => rfl
      exact (runPlain_acload hi).trans (runAcload_sound hc hready hreads.1 (hsound hreads) h32 hty hshape)
    case addInt =>
      refine hbecomes hi rfl le_rfl (runPlain_tadd hi ▸ runElem_addInt hc hneed hready hrows hreads.1 (hsound hreads) h32 hty
        (hbcShape hshape)) fun i j => ?_
      exact (ofNat_add_mod ..).trans (congrArg (fun w => x.at i j + BitVec.ofNat 32 w) (hbc i j))
    case add =>
      refine hbecomes hi rfl le_rfl (runPlain_tadd hi ▸ runElem_add hc hneed hready hrows hreads.1 (hsound hreads) h32 hty
        (hbcShape hshape)) fun i j => ?_
      exact congrArg (fun w => BitVec.ofNat 32 (f32Add (x.at i j).toNat w).1) (hbc i j)
    case mul =>
      refine hbecomes hi rfl le_rfl (runPlain_tmul hi ▸ runElem_mul hc hneed hready hrows hreads.1 (hsound hreads) h32 hty
        (hbcShape hshape)) fun i j => ?_
      exact congrArg (fun w => BitVec.ofNat 32 (f32Mul (x.at i j).toNat w).1) (hbc i j)
    case scale =>
      exact hbecomes hi rfl le_rfl (runPlain_tscale hi ▸ runTscale_sound hc hneed hready hrows hreads.1 (hsound hreads) h32 hty
        hshape) fun _ _ => rfl
    case drain =>
      subst h32
      obtain ⟨u, f, hexec, heng, hmem, htoken, hacc, hout'⟩ := drain_completes hs hf hrec hp hq he hr hm hi rfl hc le_rfl
        (runPlain_acdrain hi ▸ runAcdrain_own rfl hc hready hout hty hshape hbad)
      exact ⟨u, f, hexec, heng, hmem, htoken, _, hout', rfl, rfl, rfl, rfl, rfl, rfl, hacc⟩
  case faults =>
    intro s o os e hq he hr
    exact ⟨engineOpComplete_faulted hq he hr, ⟨s.engTrap o e, engineFaultDelivery_held hq he, rfl, rfl, rfl, rfl, rfl, rfl,
      rfl, rfl⟩, fun u => engineFaultDelivery_none⟩

end Sys2Proof.Machine
end

section
/-! Standing rules fire and retire (R213 to R215): a round makes every ready rule fire and lets its first firing enter the
engine's queue; a firing that retires without a fault arms its rule at the next slice. -/

namespace Sys2Proof.Machine

/-! ## The rules and the slots of a list, each changed in its turn -/

theorem rule_mapRule_ne (b : Bank) {r q : BitVec 5} (h : r ≠ q) (f : Rule → Rule) : (b.mapRule r f).rule q = b.rule q := by
  have hne : r.toNat ≠ q.toNat := fun e => h (BitVec.eq_of_toNat_eq e)
  simp [Bank.rule, Bank.mapRule, hne]

theorem slot_mapSlot_ne (b : Bank) {j k : BitVec 6} (h : j ≠ k) (f : OSlot → OSlot) : (b.mapSlot j f).slot k = b.slot k := by
  have hne : j.toNat ≠ k.toNat := fun e => h (BitVec.eq_of_toNat_eq e)
  simp [Bank.slot, Bank.mapSlot, Vector.getD, hne]

/-- A change that made twice is made once reaches just the rules of the list, however often each stands there. -/
theorem rule_foldl_mapRule {f : Rule → Rule} (hf : ∀ x, f (f x) = f x) (l : List (BitVec 5)) (b : Bank) (q : BitVec 5) :
    (l.foldl (fun b r => b.mapRule r f) b).rule q = if q ∈ l then f (b.rule q) else b.rule q := by
  induction l generalizing b with
  | nil => simp
  | cons r l ih =>
    rw [List.foldl_cons, ih]
    by_cases h : r = q
    · subst h
      rw [rule_mapRule]
      simp [hf]
    · rw [rule_mapRule_ne b h]
      simp [Ne.symm h]

/-- As `rule_foldl_mapRule`, of the slots. -/
theorem slot_foldl_mapSlot {f : OSlot → OSlot} (hf : ∀ x, f (f x) = f x) (l : List (BitVec 6)) (b : Bank) (k : BitVec 6) :
    (l.foldl (fun b j => b.mapSlot j f) b).slot k = if k ∈ l then f (b.slot k) else b.slot k := by
  induction l generalizing b with
  | nil => simp
  | cons j l ih =>
    rw [List.foldl_cons, ih]
    by_cases h : j = k
    · subst h
      rw [slot_mapSlot]
      simp [hf]
    · rw [slot_mapSlot_ne b h]
      simp [Ne.symm h]

theorem foldl_mapRule_onlyRules (f : Rule → Rule) (l : List (BitVec 5)) (b : Bank) :
    ∃ rs, l.foldl (fun b r => b.mapRule r f) b = { b with rules := rs } := by
  induction l generalizing b with
  | nil => exact ⟨b.rules, rfl⟩
  | cons r l ih => exact ih (b.mapRule r f)

theorem foldl_mapSlot_onlySlots (f : OSlot → OSlot) (l : List (BitVec 6)) (b : Bank) :
    ∃ ss, l.foldl (fun b j => b.mapSlot j f) b = { b with slots := ss } := by
  induction l generalizing b with
  | nil => exact ⟨b.slots, rfl⟩
  | cons j l ih => exact ih (b.mapSlot j f)

/-! ## A round (R213, R214) -/

/-- The rule's firings are operations of the engine, not transfers of a copy channel. -/
def Rule.OnEngine (x : Rule) : Prop := ∀ d bp a off, x.form ≠ .cpy d bp a off

/-- With the ready rules for its firings a round has started: each of them fires, and of the bank nothing else is new. -/
theorem startRound_eq (b : Bank) : ∃ rs, b.startRound = { b with rules := rs, round := b.readyRules, firings := [] } ∧
    ∀ q ∈ b.readyRules, b.startRound.rule q = { b.rule q with state := .firing } := by
  obtain ⟨rs, hrs⟩ := foldl_mapRule_onlyRules (fun x => { x with state := .firing }) b.readyRules b
  refine ⟨rs, by rw [Bank.startRound, hrs], fun q hq => ?_⟩
  have hrule := rule_foldl_mapRule (f := fun x => { x with state := .firing }) (fun _ => rfl) b.readyRules b q
  rw [if_pos hq] at hrule
  exact hrule

/-- Without a ready rule a round is over as it starts. -/
theorem startRound_idle {b : Bank} (hround : b.round = []) (hready : b.readyRules = []) :
    b.startRound = { b with firings := [] } := by
  rw [Bank.startRound, hready]
  exact congrArg (fun l => ({ b with round := l, firings := [] } : Bank)) hround.symm

/-- Where no round is in progress the event starts one, and lets its first firing enter. -/
theorem firingRound_starts {s : State} (hf : s.freezes = []) (hround : s.bank.round = []) :
    exec .firingRound s = .next { s with
      bank := if s.bank.startRound.mayEnter then s.bank.startRound.enterNext else s.bank.startRound
      ruleAt := s.wall + 1 } := by
  change execFiringRound s = _
  rw [execFiringRound, unlessFrozen_running hf]
  simp only [State.mapBank, hround, List.isEmpty_nil, if_true]

section
variable {b : Bank} {q : BitVec 5} {qs : List (BitVec 5)} (hround : b.round = q :: qs) (hform : (b.rule q).OnEngine)
include hround hform

/-- The engine's queue has room for every firing. -/
theorem mayEnter_onEngine : b.mayEnter = true := by
  simp only [Bank.mayEnter, hround]
  split
  · next h => exact (hform _ _ _ _ h).elim
  · rfl

theorem enterNext_onEngine : b.enterNext = ({ b with round := qs } : Bank).enterOp q (b.rule q) := by
  simp only [Bank.enterNext, hround]
  split
  · next h => exact (hform _ _ _ _ h).elim
  · rfl

end

/-- What enters the engine's queue for a firing is its rule's instruction at the rule's next slice. -/
theorem enterOp_eq (b : Bank) (q : BitVec 5) (x : Rule) :
    ∃ o, b.enterOp q x = b.enter o ∧ o.rule = some (q, x.next) ∧ o.ins = standInstr x.form := ⟨_, rfl, rfl, rfl⟩

/-- A firing stands last in the engine's queue, with the next sequence number. -/
theorem enterOp_queued (b : Bank) (q : BitVec 5) (x : Rule) : ∃ o, (b.enterOp q x).eng = b.eng ++ [o] ∧
    o.rule = some (q, x.next) ∧ o.ins = standInstr x.form ∧ o.seq = b.seq ∧ (b.enterOp q x).round = b.round ∧
    (b.enterOp q x).rules = b.rules := by
  obtain ⟨o, hop, hrule, hins⟩ := enterOp_eq b q x
  obtain ⟨ss, cs, e, henter⟩ := b.enter_eq o
  rw [hop, henter]
  exact ⟨_, rfl, hrule, hins, rfl, rfl, rfl⟩

/-- The round that starts with an operation of the engine: it stands in the queue and the rest of the round is to come. -/
theorem firingRound_enters {s : State} {q : BitVec 5} {qs : List (BitVec 5)} (hf : s.freezes = []) (hround : s.bank.round = [])
    (hready : s.bank.readyRules = q :: qs) (hform : (s.bank.rule q).OnEngine) :
    ∃ t o, exec .firingRound s = .next t ∧ t.bank.round = qs ∧ t.bank.eng = s.bank.eng ++ [o] ∧
      o.rule = some (q, (s.bank.rule q).next) ∧ o.ins = standInstr (s.bank.rule q).form ∧ o.seq = s.bank.seq ∧
      t.mem = s.mem ∧ (t.bank.rule q).state = .firing := by
  obtain ⟨rs, hstart, hfiring⟩ := startRound_eq s.bank
  have hq := hfiring q (hready ▸ List.mem_cons_self)
  have hround' : s.bank.startRound.round = q :: qs := by rw [hstart, ← hready]
  have hform' : (s.bank.startRound.rule q).OnEngine := by rwa [hq]
  have hexec := firingRound_starts hf hround
  rw [if_pos (mayEnter_onEngine hround' hform'), enterNext_onEngine hround' hform'] at hexec
  obtain ⟨o, heng, hrule, hins, hseq, hrest, hrules⟩ :=
    enterOp_queued { s.bank.startRound with round := qs } q (s.bank.startRound.rule q)
  rw [hq] at hrule hins
  refine ⟨_, o, hexec, hrest, ?_, hrule, hins, ?_, rfl, ?_⟩
  · exact heng.trans (by rw [hstart])
  · exact hseq.trans (by rw [hstart])
  · have hrule' : (({ s.bank.startRound with round := qs } : Bank).enterOp q (s.bank.startRound.rule q)).rule q
        = s.bank.startRound.rule q := congrArg (·[q.toNat]) hrules
    rw [hrule', hq]

/-! ## A retirement (R215) -/

/-- The rule as the retirement of a firing without a fault leaves it: armed at the slice `n`. -/
def Rule.armedAt (x : Rule) (n : Nat) : Rule :=
  { x with state := .armed, next := n, fired := none, pinned := false, replays := 0, limitHit := false }

/-- The slot with a fill mark of `n` at least. -/
def OSlot.filledTo (o : OSlot) (n : Nat) : OSlot := { o with fill := max o.fill n }

theorem OSlot.filledTo_filledTo (o : OSlot) (n : Nat) : (o.filledTo n).filledTo n = o.filledTo n := by
  simp [OSlot.filledTo]

/-- The bank in which a firing of the rule `r` for the slice before `n` has retired, and the rule stays installed. -/
structure Retires (b c : Bank) (r : BitVec 5) (n : Nat) : Prop where
  rule : c.rule r = (b.rule r).armedAt n
  agents : c.agents = b.agents
  slot : ∀ k, c.slot k = if k ∈ b.outsOf (b.rule r) then (b.slot k).filledTo n else b.slot k

section
variable {b : Bank} {r : BitVec 5} {n : Nat} (hform : (b.rule r).OnEngine) (hrev : (b.rule r).revoking = false)
  (hlim : (b.rule r).limit = none) (hn : (b.rule r).next + 1 = n)
include hform hrev hlim hn

/-- The outputs' marks rise, and the rule goes on; no revocation is due. -/
theorem retire_eq : b.retire r =
    ((b.outsOf (b.rule r)).foldl (fun b k => b.mapSlot k (·.filledTo n)) b).mapRule r (·.armedAt n) := by
  simp only [Bank.retire, hrev, hlim, hn, Option.map_none, Option.getD_none, Bool.or_self, Bool.false_eq_true, if_false]
  split
  · next h => exact (hform _ _ _ _ h).elim
  · rfl

theorem retire_retires : Retires b (b.retire r) r n := by
  obtain ⟨ss, hss⟩ := foldl_mapSlot_onlySlots (·.filledTo n) (b.outsOf (b.rule r)) b
  have hslot := slot_foldl_mapSlot (f := (·.filledTo n)) (·.filledTo_filledTo n) (b.outsOf (b.rule r)) b
  rw [retire_eq hform hrev hlim hn]
  rw [hss] at hslot ⊢
  exact ⟨rule_mapRule .., rfl, hslot⟩

end

section
variable {s : State} {r : BitVec 5} (hf : s.freezes = []) (hs : s.shadow = none)
include hf hs

/-- A firing that is over without a fault retires, and its rule's cluster gets its flags. -/
theorem firingRetire_fired {f : BitVec 7} (hfired : (s.bank.rule r).fired = some (f, none)) :
    exec (.firingRetire r) s = .next (s.retireRule r f) := by
  change execFiringRetire r s = _
  simp only [execFiringRetire, unlessFrozen_running hf, onWork_unshadowed hs, hfired]

/-- Without a firing that is over nothing changes. -/
theorem firingRetire_idle (hfired : (s.bank.rule r).fired = none) : exec (.firingRetire r) s = .next s := by
  change execFiringRetire r s = _
  simp only [execFiringRetire, unlessFrozen_running hf, onWork_unshadowed hs, hfired]

end

/-- The retirement of a firing hands its flags to the cluster of its rule and retires it in the bank. -/
theorem retireRule_retires {s : State} {r : BitVec 5} (hform : (s.bank.rule r).OnEngine)
    (hrev : (s.bank.rule r).revoking = false) (hlim : (s.bank.rule r).limit = none) (f : BitVec 7) :
    let x := s.bank.rule r
    let t := s.retireRule r f
    t.bank.rule r = x.armedAt (x.next + 1) ∧ t.agent x.cluster = (s.agent x.cluster).accrue f ∧
      ∀ k, t.bank.slot k = if k ∈ s.bank.outsOf x then (s.bank.slot k).filledTo (x.next + 1) else s.bank.slot k := by
  intro x t
  obtain ⟨hrule, hagents, hslot⟩ :=
    retire_retires (b := (s.mapAgent x.cluster fun a => a.accrue f).bank) (r := r) hform hrev hlim rfl
  exact ⟨hrule, (congrArg (·[x.cluster]) hagents).trans (s.agent_mapAgent x.cluster _), hslot⟩

/-! ## The statement -/

/-- Settles O41: the round that is empty, the round whose first firing enters the engine's queue, the retirement of a firing
without a fault, the rule without a firing, and the frozen core. -/
theorem firing : Obligations.Firing := by
  unfold Obligations.Firing
  intro s r hf b
  refine ⟨fun hround hready => ?empty, fun q qs hround hready hform => ?enters, fun f hs hfired hrev hlim hform => ?retires,
    fun hs hfired => ?unfired, fun u hu => ?frozen⟩
  case empty =>
    have hexec := firingRound_starts hf hround
    have hmay : s.bank.startRound.mayEnter = false := by
      rw [startRound_idle hround hready]
      simp only [Bank.mayEnter, hround]
    rwa [hmay, startRound_idle hround hready] at hexec
  case enters => exact firingRound_enters hf hround hready hform
  case retires =>
    obtain ⟨hrule, hagent, hslot⟩ := retireRule_retires hform hrev hlim f
    refine ⟨_, firingRetire_fired hf hs hfired, hrule, hagent, rfl, fun k => ?_⟩
    rw [hslot k]
    split <;> rfl
  case unfired => exact firingRetire_idle hf hs hfired
  case frozen =>
    change execFiringRound u = _ ∧ execFiringRetire r u = _
    simp only [execFiringRound, execFiringRetire, unlessFrozen_frozen hu, and_self]

end Sys2Proof.Machine
end

section
/-! Extent lists and the KV instructions (R246 to R252) with no access out of order: what is read of a list, where a token
lies in it, and what `kvgrow`, `kvcommit` and `kvfork` write. -/

namespace Sys2Proof.Machine

/-! ## Fields of bytes that are read and written (R11) -/

theorem Memory.length_readN (m : Memory) (a n : Nat) : (m.readN a n).length = n := by
  induction n generalizing a with
  | zero => rfl
  | succ n ih => rw [Memory.readN, List.length_cons, ih]

theorem Memory.drop_readN (m : Memory) (a n i : Nat) : (m.readN a n).drop i = m.readN (a + i) (n - i) := by
  induction i generalizing a n with
  | zero => rfl
  | succ i ih =>
    cases n with
    | zero => rw [Nat.zero_sub]; rfl
    | succ n => rw [Memory.readN, List.drop_succ_cons, ih, Nat.add_assoc, Nat.add_comm 1, Nat.add_sub_add_right]

theorem Memory.take_readN (m : Memory) (a : Nat) {i n : Nat} (h : i ≤ n) : (m.readN a n).take i = m.readN a i := by
  induction i generalizing a n with
  | zero => rfl
  | succ i ih =>
    cases n with
    | zero => omega
    | succ n => rw [Memory.readN, List.take_succ_cons, ih _ (by omega), Memory.readN]

theorem ofBytes_bytesOf (n x : Nat) : ofBytes (bytesOf n x) = x % 256 ^ n := by
  induction n generalizing x with
  | zero => rw [Nat.pow_zero, Nat.mod_one]; rfl
  | succ n ih =>
    have hsplit : x % 256 ^ (n + 1) = x % 256 + 256 * (x / 256 % 256 ^ n) := by rw [Nat.pow_succ', Nat.mod_mul]
    rw [bytesOf, ofBytes, ih, BitVec.toNat_ofNat, hsplit]

theorem bytesOf_ofBytes (bs : List Byte) : bytesOf bs.length (ofBytes bs) = bs := by
  induction bs with
  | nil => rfl
  | cons b bs ih =>
    have hb : b.toNat < 256 := b.isLt
    have hhead : BitVec.ofNat 8 (b.toNat + 256 * ofBytes bs) = b :=
      BitVec.eq_of_toNat_eq (by rw [BitVec.toNat_ofNat]; omega)
    have hrest : (b.toNat + 256 * ofBytes bs) / 256 = ofBytes bs := by omega
    rw [List.length_cons, ofBytes, bytesOf, hhead, hrest, ih]

theorem ofBytes_lt (bs : List Byte) : ofBytes bs < 256 ^ bs.length := by
  rw [← bytesOf_ofBytes bs, ofBytes_bytesOf, bytesOf_ofBytes]
  exact Nat.mod_lt _ (by positivity)

section
variable {s : State} {key key' : Nat} {bs : List Byte}

theorem length_rd (s : State) (key n : Nat) : (s.rd key n).length = n := s.mem.length_readN key n

theorem rdNat_lt (s : State) (key n : Nat) : s.rdNat key n < 256 ^ n := by
  simpa only [length_rd, ← State.rdNat.eq_1] using ofBytes_lt (s.rd key n)

/-- A part of bytes that are read. -/
theorem slice_rd (s : State) (key : Nat) {i n len : Nat} (h : i + n ≤ len) :
    ((s.rd key len).drop i).take n = s.rd (key + i) n := by
  rw [State.rd, Memory.drop_readN, Memory.take_readN _ _ (by omega)]
  rfl

theorem fieldOf_rd (s : State) (key : Nat) {i n len : Nat} (h : i + n ≤ len) :
    fieldOf (s.rd key len) i n = s.rdNat (key + i) n := by rw [fieldOf, slice_rd s key h, State.rdNat]

theorem rd_wr_all (h : MemOk s) : (s.wr key bs).rd key bs.length = bs := s.mem.readN_writeN bs key h

/-- Bytes apart from those written read as before. -/
theorem rd_wr_apart {n : Nat} (h : key' + n ≤ key ∨ key + bs.length ≤ key') : (s.wr key bs).rd key' n = s.rd key' n :=
  Memory.readN_congr _ _ n key' fun i hi => Memory.read_writeN_out bs s.mem key _ (by omega)

end

/-! ## What is read of a list (R246, R248) -/

section
variable {s : State} {va : DWord} {key n : Nat}

theorem exactRead_ok (ho : Orderly s) (h : BlockRead s va key n) : s.exactRead va n = .ok key := by
  obtain ⟨hacc, hserved, hpoison⟩ := h
  simp [State.exactRead, hacc, hpoison, hserved, State.unowed, heldBack_nil ho.1, Except.map]

theorem kvRead_ok (ho : Orderly s) (hm : Mapped s va) (h : BlockRead s va key 16) : s.kvRead va = .ok (s, s.rd key 16) := by
  simp only [State.kvRead, exactRead_ok ho h, State.reading_orderly ho hm, view_orderly ho]

end

/-- The header of the list at a key. -/
def State.hdrAt (s : State) (key : Nat) : ListHdr := listHdrOf (s.rd key 16)

/-- The entry at a key. -/
def State.extentAt (s : State) (key : Nat) : Extent := extentOf (s.rd key 16)

section
variable (s : State) (key : Nat)

@[simp] theorem hdrAt_count : (s.hdrAt key).count = s.rdNat key 1 := fieldOf_rd s key (by omega)

@[simp] theorem hdrAt_stride : (s.hdrAt key).stride = s.rdNat (key + 8) 4 := fieldOf_rd s key (by omega)

@[simp] theorem hdrAt_frozen : (s.hdrAt key).frozen = (s.rdNat (key + 1) 1).testBit 0 :=
  congrArg (·.testBit 0) (fieldOf_rd s key (by omega))

theorem hdrAt_badByte : (s.hdrAt key).badByte = true ↔ s.rdNat (key + 2) 2 ≠ 0 ∨ s.rdNat (key + 13) 3 ≠ 0 := by
  rw [← fieldOf_rd s key (len := 16) (by omega), ← fieldOf_rd s key (len := 16) (by omega), State.hdrAt, listHdrOf,
    Bool.or_eq_true, decide_eq_true_eq, decide_eq_true_eq]

@[simp] theorem extentAt_base : (s.extentAt key).base = s.rdNat key 8 := fieldOf_rd s key (by omega)

@[simp] theorem extentAt_len : (s.extentAt key).len = s.rdNat (key + 8) 4 := fieldOf_rd s key (by omega)

@[simp] theorem extentAt_share : (s.extentAt key).share = s.rdNat (key + 12) 2 % 4096 :=
  congrArg (· % 4096) (fieldOf_rd s key (by omega))

@[simp] theorem extentAt_order : (s.extentAt key).order = s.rdNat (key + 14) 1 := fieldOf_rd s key (by omega)

end

/-- A list whose header and whose entries in use are readable at these keys, their translations at hand. -/
structure ListAt (s : State) (va : DWord) (hk : Nat) (k : Nat → Nat) : Prop where
  mapped : Mapped s va
  header : BlockRead s va hk 16
  entries : ∀ e, e < s.rdNat hk 1 → Mapped s (entryAddr va e) ∧ BlockRead s (entryAddr va e) (k e) 16

section
variable {s : State} {va : DWord} {hk : Nat} {k : Nat → Nat}

theorem ListAt.readHdr (h : ListAt s va hk k) (ho : Orderly s) : s.readHdr va = .ok (s, s.hdrAt hk) := by
  rw [State.readHdr, kvRead_ok ho h.mapped h.header]
  rfl

theorem ListAt.kvRead (h : ListAt s va hk k) (ho : Orderly s) {e : Nat} (he : e < s.rdNat hk 1) :
    s.kvRead (entryAddr va e) = .ok (s, s.rd (k e) 16) :=
  kvRead_ok ho (h.entries e he).1 (h.entries e he).2

theorem ListAt.readEntries_from (h : ListAt s va hk k) (ho : Orderly s) (n e : Nat) (hn : e + n ≤ s.rdNat hk 1) :
    State.readEntries va n e s = .ok (s, (List.range' e n).map fun i => s.extentAt (k i)) := by
  induction n generalizing e with
  | zero => rfl
  | succ n ih =>
    simp only [State.readEntries, h.kvRead ho (show e < s.rdNat hk 1 by omega), ih (e + 1) (by omega), List.range'_succ,
      List.map_cons, State.extentAt]

/-- The entries in use. -/
theorem ListAt.readEntries (h : ListAt s va hk k) (ho : Orderly s) :
    State.readEntries va (s.rdNat hk 1) 0 s = .ok (s, (List.range (s.rdNat hk 1)).map fun i => s.extentAt (k i)) := by
  rw [h.readEntries_from ho _ 0 (by omega), List.range_eq_range']

end

/-! ## Where a token lies (R247, R249) -/

/-- The position at which entry `e` begins: the tokens of the entries before it (R247). -/
def State.startOf (s : State) (k : Nat → Nat) (e : Nat) : Nat := ((List.range e).map fun i => s.rdNat (k i + 8) 4).sum

section
variable (s : State) (k : Nat → Nat)

theorem startOf_succ (e : Nat) : s.startOf k (e + 1) = s.startOf k e + s.rdNat (k e + 8) 4 := by
  simp [State.startOf, List.range_succ]

theorem startOf_mono {e e' : Nat} (h : e ≤ e') : s.startOf k e ≤ s.startOf k e' :=
  monotone_nat_of_le_succ (fun n => by rw [startOf_succ]; omega) h

/-- The capacity of a list is where an entry after its last would begin. -/
theorem capacity_entries (n : Nat) : capacity ((List.range n).map fun i => s.extentAt (k i)) = s.startOf k n := by
  simp [capacity, State.startOf, List.foldl_map, List.sum_eq_foldl]

/-- What `kvxl` delivers for the position `t` that lies in entry `i`. -/
def State.tokenAt (s : State) (k : Nat → Nat) (stride t i : Nat) : DWord :=
  if (s.extentAt (k i)).share = 0 then 0xFFFFFFFFFFFFFFFE
  else BitVec.ofNat 64 ((s.extentAt (k i)).base + (t - s.startOf k i) * stride)

end

section
variable {s : State} {va : DWord} {hk : Nat} {k : Nat → Nat} {stride t : Nat}

/-- The search goes past an entry that ends before the position. -/
theorem ListAt.translate_next (h : ListAt s va hk k) (ho : Orderly s) {e : Nat} (he : e < s.rdNat hk 1)
    (hpast : s.startOf k (e + 1) ≤ t) (n : Nat) :
    State.translate va stride (t - s.startOf k e) (n + 1) e s
      = State.translate va stride (t - s.startOf k (e + 1)) n (e + 1) s := by
  have hnext := startOf_succ s k e
  have hge : ¬t - s.startOf k e < (s.extentAt (k e)).len := by rw [extentAt_len]; omega
  rw [hnext, ← Nat.sub_sub, ← extentAt_len, State.translate, h.kvRead ho he]
  exact if_neg hge

theorem ListAt.translate_past (h : ListAt s va hk k) (ho : Orderly s) (n e : Nat) (hn : e + n ≤ s.rdNat hk 1)
    (hpast : s.startOf k (e + n) ≤ t) :
    State.translate va stride (t - s.startOf k e) n e s = .ok (s, 0xFFFFFFFFFFFFFFFF) := by
  induction n generalizing e with
  | zero => rfl
  | succ n ih =>
    have hmono := startOf_mono s k (show e + 1 ≤ e + (n + 1) by omega)
    rw [h.translate_next ho (by omega) (by omega)]
    exact ih (e + 1) (by omega) (by rwa [Nat.add_right_comm])

theorem ListAt.translate_within (h : ListAt s va hk k) (ho : Orderly s) {i : Nat} (n e : Nat) (hn : e + n ≤ s.rdNat hk 1)
    (he : e ≤ i) (hi : i < e + n) (hlo : s.startOf k i ≤ t) (hhi : t < s.startOf k i + s.rdNat (k i + 8) 4) :
    State.translate va stride (t - s.startOf k e) n e s = .ok (s, s.tokenAt k stride t i) := by
  induction n generalizing e with
  | zero => omega
  | succ n ih =>
    rcases Nat.eq_or_lt_of_le he with rfl | hlt
    · have hin : t - s.startOf k e < (s.extentAt (k e)).len := by rw [extentAt_len]; omega
      rw [State.translate, h.kvRead ho (by omega)]
      exact if_pos hin
    · have hmono := startOf_mono s k (show e + 1 ≤ i from hlt)
      rw [h.translate_next ho (by omega) (by omega)]
      exact ih (e + 1) (by omega) hlt (by omega)

end

/-! ## `kvxl` (R249) -/

section
variable {s : State} {a : Opnd} {bp : BitVec 4} {off : BitVec 24} {hk : Nat} {k : Nat → Nat}

theorem execKvxl_bad (hb : Readable s (baseOp bp) .w64) (ha : Readable s a .w32) (ho : Orderly s)
    (hl : ListAt s (listAddr (s.val64 (baseOp bp)) off) hk k) (hbad : 16 < (s.hdrAt hk).count ∨ (s.hdrAt hk).badByte = true)
    (sc : Sched) (d : Opnd) : execKvxl sc d bp off a s = .next (s.put64 sc d 32 0xFFFFFFFFFFFFFFFD) := by
  simp only [execKvxl, rdBase_ok hb, rd32_ok ha, hl.readHdr ho, bind, Except.bind, if_pos hbad, pure, Except.pure, finish_ok]

theorem execKvxl_good (hb : Readable s (baseOp bp) .w64) (ha : Readable s a .w32) (ho : Orderly s)
    (hl : ListAt s (listAddr (s.val64 (baseOp bp)) off) hk k)
    (hgood : ¬(16 < (s.hdrAt hk).count ∨ (s.hdrAt hk).badByte = true)) {v : DWord}
    (hv : State.translate (listAddr (s.val64 (baseOp bp)) off) (s.hdrAt hk).stride (s.val32 a).toNat (s.hdrAt hk).count 0 s
      = .ok (s, v)) (sc : Sched) (d : Opnd) : execKvxl sc d bp off a s = .next (s.put64 sc d 32 v) := by
  simp only [execKvxl, rdBase_ok hb, rd32_ok ha, hl.readHdr ho, bind, Except.bind, if_neg hgood, hv, pure, Except.pure,
    finish_ok]

end

/-! ## `kvgrow` (R251) -/

/-- A needed block: the list is frozen or empty, or its last entry cannot take more tokens. -/
theorem needsBlock_concat (h : ListHdr) (es : List Extent) (x : Extent) (n : Nat) :
    needsBlock h (es ++ [x]) n = true ↔ h.frozen = true ∨ x.share = 0 ∨ 1 < x.share ∨ 2 ^ x.order < x.len + n := by
  simp [needsBlock, or_assoc]

section
variable {s : State} {va : DWord} {hk : Nat} {k : Nat → Nat}

theorem ListAt.grow_tooMany (h : ListAt s va hk k) (ho : Orderly s) (hn : 16 < s.rdNat hk 1) (sc : Sched) (d : Opnd) (x : Nat) :
    s.grow sc d va x = .ok (s.put sc d 32 0xFFFFFFFD) := by
  simp only [State.grow, h.readHdr ho, bind, Except.bind, hdrAt_count, if_pos hn]
  rfl

theorem ListAt.grow_empty (h : ListAt s va hk k) (ho : Orderly s) (hn : s.rdNat hk 1 = 0) (sc : Sched) (d : Opnd) (x : Nat) :
    s.grow sc d va x = .ok (s.put sc d 32 0xFFFFFFFF) := by
  have hfew : ¬16 < s.rdNat hk 1 := by omega
  simp only [State.grow, h.readHdr ho, bind, Except.bind, hdrAt_count, if_neg hfew, h.readEntries ho, if_pos hn]
  rfl

/-- The last entry is read anew at its home, where it is as it was. -/
theorem ListAt.grow_last (h : ListAt s va hk k) (ho : Orderly s) {m : Nat} (hn : s.rdNat hk 1 = m + 1) (hfew : m < 16)
    (hacc : s.access .atomic (entryAddr va m) 16 0 = .ok (k m)) (hs : s.served (k m + 8) true = true) (sc : Sched) (d : Opnd)
    (x : Nat) :
    s.grow sc d va x = .ok
      (if needsBlock (s.hdrAt hk) (((List.range m).map fun i => s.extentAt (k i)) ++ [s.extentAt (k m)]) x
        then s.put sc d 32 0xFFFFFFFF
        else (s.wr (k m + 8) (bytesOf 4 (s.rdNat (k m + 8) 4 + x))).put sc d 32
          (BitVec.ofNat 32 (s.startOf k (m + 1) + x))) := by
  have hread := h.readEntries ho
  have hcap := capacity_entries s k (m + 1)
  rw [hn] at hread
  rw [List.range_succ, List.map_append, List.map_singleton] at hread hcap
  have hblock : s.atBlock (entryAddr va m) (k m) 16 = s := State.atBlock_orderly ho (h.entries m (by omega)).1 ..
  simp only [State.grow, h.readHdr ho, bind, Except.bind, hdrAt_count, hn, if_neg (show ¬16 < m + 1 by omega), hread,
    Nat.add_one_ne_zero, if_false, Nat.add_sub_cancel, hacc, hblock, ← State.extentAt.eq_1, List.dropLast_concat, hcap,
    storeNow_orderly ho hs, extentAt_len]
  split <;> rfl

end

theorem execKvgrow_ok {s u : State} {a : Opnd} {bp : BitVec 4} {off : BitVec 24} {sc : Sched} {d : Opnd}
    (hb : Readable s (baseOp bp) .w64) (ha : Readable s a .w32)
    (hu : s.grow sc d (listAddr (s.val64 (baseOp bp)) off) (s.val32 a).toNat = .ok u) :
    execKvgrow sc d bp off a s = .next u := by
  simp only [execKvgrow, rdBase_ok hb, rd32_ok ha, bind, Except.bind, hu, finish_ok]

/-! ## `kvcommit` (R252) -/

section
variable {s : State} {va : DWord} {hk : Nat} {k : Nat → Nat}

theorem ListAt.commitTotal_tooMany (h : ListAt s va hk k) (ho : Orderly s) (hn : 16 < s.rdNat hk 1) (sc : Sched) (d : Opnd)
    (t : Word) : s.commitTotal sc d va t = .ok (s.put sc d 32 0xFFFFFFFF) := by
  simp only [State.commitTotal, releaseAll_orderly ho, h.readHdr ho, bind, Except.bind, hdrAt_count, if_pos hn]
  rfl

/-- A release at once notes it, and changes nothing else. -/
theorem release_orderly (ho : Orderly s) (c : Scope) (va : DWord) (key : Nat) :
    s.release c va key = { s with rels := (s.noteRelease (s.relOf c va key)).rels } := by
  rw [State.release, beforeRelease_orderly ho]
  exact noteRelease_eq _

theorem ListAt.commitTotal_few (h : ListAt s va hk k) (ho : Orderly s) (hn : s.rdNat hk 1 ≤ 16)
    (hacc : s.access .atomic va 8 0 = .ok hk) (hs : s.served (hk + 4) true = true) (sc : Sched) (d : Opnd) (t : Word) :
    s.commitTotal sc d va t = .ok
      (if s.startOf k (s.rdNat hk 1) < t.toNat then s.put sc d 32 0xFFFFFFFF
        else ({ s with rels := (s.noteRelease (s.relOf .pkg va hk)).rels }.wr (hk + 4) (bytesOf 4 t.toNat)).put sc d 32
          (BitVec.ofNat 32 (s.rdNat (hk + 4) 4))) := by
  have hstore : ∀ l bs, ({ s with rels := l } : State).storeNow .atomic va (hk + 4) bs = { s with rels := l }.wr (hk + 4) bs :=
    fun l bs => storeNow_orderly (s := { s with rels := l }) ho hs .atomic va bs
  simp only [State.commitTotal, releaseAll_orderly ho, h.readHdr ho, bind, Except.bind, hdrAt_count, if_neg (Nat.not_lt.2 hn),
    h.readEntries ho, hacc, State.atBlock_orderly ho h.mapped, capacity_entries, release_orderly ho, hstore]
  split <;> rfl

end

theorem execKvcommit_ok {s u : State} {a : Opnd} {bp : BitVec 4} {off : BitVec 24} {sc : Sched} {d : Opnd} (ho : Orderly s)
    (hd : s.cur.deferred = []) (hb : Readable s (baseOp bp) .w64) (ha : Readable s a .w32)
    (hu : s.commitTotal sc d (listAddr (s.val64 (baseOp bp)) off) (s.val32 a) = .ok u) :
    execKvcommit sc d bp off a s = .next u := by
  simp only [execKvcommit, finishWaiting_eq hd ho.1, rdBase_ok hb, rd32_ok ha, bind, Except.bind, hu, finish_ok]

/-! ## `kvfork` (R250) -/

/-- A share word whose count is one more. -/
def countedUp (w : Nat) : Nat := w / 4096 * 4096 + (w + 1) % 4096

theorem countedUp_spec {w : Nat} (hw : w < 65536) (h : w % 4096 < 4095) :
    countedUp w < 65536 ∧ countedUp w % 4096 = w % 4096 + 1 := by
  unfold countedUp
  omega

/-- The bytes of a shared entry in the copy: those of the source with the share count one more. -/
def State.sharedBytes (s : State) (k : Nat) : List Byte :=
  s.rd k 12 ++ (bytesOf 2 (countedUp (s.rdNat (k + 12) 2)) ++ s.rd (k + 14) 2)

theorem length_sharedBytes (s : State) (k : Nat) : (s.sharedBytes k).length = 16 := by
  simp [State.sharedBytes, length_rd, length_bytesOf]

theorem withShare_counted (s : State) (k : Nat) :
    withShare (s.rd k 16) (s.extentAt k).base ((s.rdNat (k + 12) 2 + 1) % 4096) = s.sharedBytes k := by
  have hbase : bytesOf 8 (s.extentAt k).base = s.rd k 8 := by
    simpa only [extentAt_base, length_rd, ← State.rdNat.eq_1] using bytesOf_ofBytes (s.rd k 8)
  have hjoin : s.rd k 8 ++ s.rd (k + 8) 4 = s.rd k 12 := rfl
  have htail : (s.rd k 16).drop 14 = s.rd (k + 14) 2 := s.mem.drop_readN k 16 14
  rw [withShare, hbase, slice_rd s k (by omega), fieldOf_rd s k (by omega), hjoin, htail, List.append_assoc]
  rfl

section
variable {s : State} {key : Nat}

theorem kvPut_orderly (ho : Orderly s) (hn : NoneOwed s) (hs : s.served key true = true) (va : DWord) (i : Nat)
    (bs : List Byte) : s.kvPut va key i bs = s.wr key bs := by
  rw [State.kvPut, if_pos hs, lateMask_none ho.2.2.2.1, request_orderly ho (owed_of_noneOwed hn rfl),
    perform_plain_orderly ho rfl hs, if_neg Bool.false_ne_true]

theorem incShare_orderly (ho : Orderly s) {va : DWord} (hm : Mapped s va) (hs : s.served key true = true) :
    s.incShare va key = (s.wr key (bytesOf 2 (countedUp (s.rdNat key 2))), (s.rdNat key 2 + 1) % 4096) := by
  simp only [State.incShare, State.atBlock_orderly ho hm, storeNow_orderly ho hs]
  rfl

end

/-- The state once a shared entry has been copied from `k` to `k'`. -/
def State.forkedEntry (s : State) (k k' : Nat) : State :=
  (s.wr (k + 12) (bytesOf 2 (countedUp (s.rdNat (k + 12) 2)))).wr k' (s.sharedBytes k)

/-- The state once a list of one shared entry has been forked: its entry, then its header. -/
def State.forkedOne (s : State) (hk k kd kd' : Nat) : State := (s.forkedEntry k kd').wr kd (s.rd hk 16)

section
variable {s : State} {src dst : DWord} {k k' e : Nat}

theorem forkKeys_shared (ho : Orderly s) (hm : Mapped s (entryAddr src e)) (hr : BlockRead s (entryAddr src e) k 16)
    (hpos : 0 < (s.extentAt k).share) (hmax : (s.extentAt k).share < 4095)
    (hacc : s.access .atomic (entryAddr src e + 12) 4 0 = .ok (k + 12))
    (hdst : s.access .write (entryAddr dst e) 16 0 = .ok k') : s.forkKeys src dst e = .ok (k, k') := by
  have hcounts : ¬((s.extentAt k).share = 0 ∨ (s.extentAt k).share = 4095) := by omega
  simp only [State.forkKeys, exactRead_ok ho hr, State.reading_orderly ho hm, view_orderly ho, ← State.extentAt.eq_1,
    if_neg hcounts, hacc, hdst]

theorem forkEntry_shared (ho : Orderly s) (hn : NoneOwed s) (hm : Mapped s (entryAddr src e))
    (hpos : 0 < (s.extentAt k).share) (hmax : (s.extentAt k).share < 4095)
    (hmi : Mapped s (entryAddr src e + 12)) (hmd : Mapped s (entryAddr dst e)) (hsi : s.served (k + 12) true = true)
    (hsd : s.served k' true = true) : s.forkEntry src dst e (k, k') = (s.forkedEntry k k', false) := by
  have hput : ∀ l bs, ((s.wr (k + 12) l).noteWalk (entryAddr dst e)).kvPut (entryAddr dst e) k' e bs
      = (s.wr (k + 12) l).wr k' bs := fun l bs => by
    rw [State.noteWalk_mapped (s := s.wr (k + 12) l) hmd, kvPut_orderly (s := s.wr (k + 12) l) ho hn hsd]
  simp only [State.forkEntry, State.reading_orderly ho hm, view_orderly ho, ← State.extentAt.eq_1,
    if_neg (show (s.extentAt k).share ≠ 4095 by omega), if_neg (show (s.extentAt k).share ≠ 0 by omega),
    incShare_orderly ho hmi hsi, withShare_counted, hput, State.forkedEntry]

end

/-- Two blocks of 16 bytes have no byte in common. -/
abbrev Apart (a b : Nat) : Prop := a + 16 ≤ b ∨ b + 16 ≤ a

/-- A list of one shared entry that can be forked to `dst`: its header and entry lie at `hk` and `k 0`, the copies go to `kd` and
`kd'`, every access passes its checks, and no two of the four blocks overlap (R250). -/
structure ForkableOne (s : State) (src dst : DWord) (hk : Nat) (k : Nat → Nat) (kd kd' : Nat) : Prop where
  list : ListAt s src hk k
  count : s.rdNat hk 1 = 1
  shared : 0 < (s.extentAt (k 0)).share
  unsaturated : (s.extentAt (k 0)).share < 4095
  unowed : NoneOwed s
  lists : src.toNat + 272 ≤ dst.toNat ∨ dst.toNat + 272 ≤ src.toNat
  mapped : ∀ x ∈ [entryAddr src 0 + 12, dst, entryAddr dst 0], Mapped s x
  counting : s.access .atomic (entryAddr src 0 + 12) 4 0 = .ok (k 0 + 12)
  toEntry : s.access .write (entryAddr dst 0) 16 0 = .ok kd'
  toHeader : s.access .write dst 16 0 = .ok kd
  served : ∀ x ∈ [k 0 + 12, kd', kd], s.served x true = true
  apart : ∀ x ∈ [(k 0, hk), (k 0, kd), (k 0, kd'), (hk, kd), (hk, kd'), (kd, kd')], Apart x.1 x.2

section
variable {s : State} {src dst : DWord} {hk : Nat} {k : Nat → Nat} {kd kd' : Nat}

theorem listsOverlap_eq_false (h : src.toNat + 272 ≤ dst.toNat ∨ dst.toNat + 272 ≤ src.toNat) :
    listsOverlap src dst = false := by
  simp only [listsOverlap, Bool.and_eq_false_iff, decide_eq_false_iff_not]
  omega

theorem ListAt.fork_tooMany (h : ListAt s src hk k) (ho : Orderly s) (hn : 16 < s.rdNat hk 1) (sc : Sched) (d : Opnd) :
    s.fork sc d src dst = .ok (s.put sc d 60 0x80000000) := by
  have hmany : 16 < (s.hdrAt hk).count ∨ listsOverlap src dst = true := .inl (by rwa [hdrAt_count])
  simp only [State.fork, exactRead_ok ho h.header, State.reading_orderly ho h.mapped, view_orderly ho, ← State.hdrAt.eq_1,
    bind, Except.bind, if_pos hmany]
  rfl

/-- The header is read again once the entry has been copied, and is as it was. -/
theorem ForkableOne.rd_header (h : ForkableOne s src dst hk k kd kd') :
    (s.forkedEntry (k 0) kd').rd hk 16 = s.rd hk 16 := by
  have hsrc := h.apart (k 0, hk) (by simp)
  have hdst := h.apart (hk, kd') (by simp)
  rw [State.forkedEntry, rd_wr_apart (by rw [length_sharedBytes]; exact hdst),
    rd_wr_apart (by rw [length_bytesOf]; omega)]

theorem ForkableOne.forkAll (h : ForkableOne s src dst hk k kd kd') (ho : Orderly s) :
    s.forkAll src dst 1 0 = .ok [(k 0, kd')] := by
  obtain ⟨hm, hr⟩ := h.list.entries 0 (by rw [h.count]; omega)
  simp only [State.forkAll, forkKeys_shared ho hm hr h.shared h.unsaturated h.counting h.toEntry]

theorem ForkableOne.forkEntries (h : ForkableOne s src dst hk k kd kd') (ho : Orderly s) :
    State.forkEntries src dst [(k 0, kd')] 0 s 0 = (s.forkedEntry (k 0) kd', 0) := by
  have hm := (h.list.entries 0 (by rw [h.count]; omega)).1
  have hentry := forkEntry_shared ho h.unowed hm h.shared h.unsaturated (h.mapped _ (by simp))
    (h.mapped (entryAddr dst 0) (by simp)) (h.served _ (by simp)) (h.served kd' (by simp))
  simp only [State.forkEntries, hentry, Bool.false_eq_true, if_false]

theorem ForkableOne.fork (h : ForkableOne s src dst hk k kd kd') (ho : Orderly s) (sc : Sched) (d : Opnd) :
    s.fork sc d src dst = .ok ((s.forkedOne hk (k 0) kd kd').put sc d 60 0) := by
  have hfew : ¬(16 < 1 ∨ listsOverlap src dst = true) := by simp [listsOverlap_eq_false h.lists]
  have hcount : (s.hdrAt hk).count = 1 := (hdrAt_count s hk).trans h.count
  have hot : Orderly (s.forkedEntry (k 0) kd') := ho
  have hwalk : (s.forkedEntry (k 0) kd').noteWalk dst = s.forkedEntry (k 0) kd' :=
    State.noteWalk_mapped (s := s.forkedEntry (k 0) kd') (h.mapped dst (by simp))
  have hput : (s.forkedEntry (k 0) kd').kvPut dst kd 16 (s.rd hk 16) = s.forkedOne hk (k 0) kd kd' :=
    kvPut_orderly hot h.unowed (h.served kd (by simp)) ..
  have hlate : (s.forkedOne hk (k 0) kd kd').usedLate = s.forkedOne hk (k 0) kd kd' := usedLate_none ho.2.2.2.1
  simp only [State.fork, exactRead_ok ho h.list.header, State.reading_orderly ho h.list.mapped, view_orderly ho,
    ← State.hdrAt.eq_1, bind, Except.bind, hcount, if_neg hfew, h.forkAll ho, h.toHeader, h.forkEntries ho, hwalk,
    beforeRead_orderly hot, view_orderly hot, h.rd_header, hput, hlate]
  rfl

/-- The copies of header and entry. -/
theorem ForkableOne.rd_copies (h : ForkableOne s src dst hk k kd kd') (hok : MemOk s) :
    (s.forkedOne hk (k 0) kd kd').rd kd 16 = s.rd hk 16 ∧ (s.forkedOne hk (k 0) kd kd').rd kd' 16 = s.sharedBytes (k 0) := by
  have happ := h.apart (kd, kd') (by simp)
  have hcounted := s.wf_wr (k 0 + 12) (bytesOf 2 (countedUp (s.rdNat (k 0 + 12) 2))) hok
  have hentry : MemOk (s.forkedEntry (k 0) kd') := State.wf_wr _ _ _ hcounted
  constructor
  · have hin := rd_wr_all (key := kd) (bs := s.rd hk 16) hentry
    rwa [length_rd] at hin
  · have hin := rd_wr_all (key := kd') (bs := s.sharedBytes (k 0)) hcounted
    rw [length_sharedBytes] at hin
    rw [State.forkedOne, rd_wr_apart (by rw [length_rd]; omega)]
    exact hin

/-- The source entry: its share count is one more. -/
theorem ForkableOne.rd_source (h : ForkableOne s src dst hk k kd kd') (hok : MemOk s) :
    (s.forkedOne hk (k 0) kd kd').rd (k 0) 12 = s.rd (k 0) 12 ∧
      (s.forkedOne hk (k 0) kd kd').rd (k 0 + 12) 2 = bytesOf 2 (countedUp (s.rdNat (k 0 + 12) 2)) := by
  have hhdr := h.apart (k 0, kd) (by simp)
  have hent := h.apart (k 0, kd') (by simp)
  have hcopies : ∀ {a n}, k 0 ≤ a → a + n ≤ k 0 + 16 → (s.forkedOne hk (k 0) kd kd').rd a n
      = (s.wr (k 0 + 12) (bytesOf 2 (countedUp (s.rdNat (k 0 + 12) 2)))).rd a n := fun hlo hhi => by
    rw [State.forkedOne, rd_wr_apart (by rw [length_rd]; omega), State.forkedEntry,
      rd_wr_apart (by rw [length_sharedBytes]; omega)]
  constructor
  · rw [hcopies (by omega) (by omega), rd_wr_apart (by rw [length_bytesOf]; omega)]
  · have hin := rd_wr_all (key := k 0 + 12) (bs := bytesOf 2 (countedUp (s.rdNat (k 0 + 12) 2))) hok
    rw [length_bytesOf] at hin
    rw [hcopies (by omega) (by omega), hin]

/-- The share word that both lists hold has the count one more. -/
theorem ForkableOne.share_counted (h : ForkableOne s src dst hk k kd kd') :
    ofBytes (bytesOf 2 (countedUp (s.rdNat (k 0 + 12) 2))) % 4096 = (s.extentAt (k 0)).share + 1 := by
  have hmax := h.unsaturated
  rw [extentAt_share] at hmax ⊢
  obtain ⟨hlt, hcount⟩ := countedUp_spec (rdNat_lt s (k 0 + 12) 2) hmax
  rw [ofBytes_bytesOf, Nat.mod_eq_of_lt (b := 256 ^ 2) hlt, hcount]

end

theorem execKvfork_ok {s u : State} {a : Opnd} {bp : BitVec 4} {off : BitVec 24} {sc : Sched} {d : Opnd}
    (hb : Readable s (baseOp bp) .w64) (ha : Readable s a .w64)
    (hu : s.fork sc d (listAddr (s.val64 (baseOp bp)) off) (s.val64 a) = .ok u) :
    execKvfork sc d bp off a s = .next u := by
  simp only [execKvfork, rdBase_ok hb, rd64_ok ha, bind, Except.bind, hu, finish_ok]

/-! ## The statement -/

/-- Settles O46: each instruction on a list that is readable; a token's entry is found by where the entries begin, and a
fork of one shared entry writes the share word and two blocks that are apart. -/
theorem kvResults : Obligations.KvResults := by
  unfold Obligations.KvResults
  intro s sc d a bp off hk k kd kd' hb ha ha' hd ho va n t len share start stride frozen wrong entry hm hh he
  have hl : ListAt s (listAddr (s.val64 (baseOp bp)) off) hk k := ⟨hm, hh, he⟩
  have hshare : ∀ e, (s.extentAt (k e)).share = share e := fun e => extentAt_share s (k e)
  have hbad : (16 < (s.hdrAt hk).count ∨ (s.hdrAt hk).badByte = true) ↔ 16 < n ∨ wrong := by
    rw [hdrAt_count, hdrAt_badByte]
  refine ⟨fun h => ?illFormed, fun hn hw hpast => ?past, fun hn hw e hin hlo hhi => ?within, fun hn => ?tooMany,
    fun hn => ?empty, fun hpos hn hacc hs => ?grow, fun hn hacc hs => ?commit,
    fun hn hpos hmax hok hnone happ hmap hcnt hent hhdr hsrv hblocks => ?fork⟩
  case illFormed => exact execKvxl_bad hb ha ho hl (hbad.2 h) sc d
  case past =>
    refine execKvxl_good hb ha ho hl (by rw [hbad]; omega) ?_ sc d
    rw [hdrAt_count]
    exact hl.translate_past ho n 0 (by omega) (by rwa [Nat.zero_add])
  case within =>
    refine (execKvxl_good hb ha ho hl (by rw [hbad]; omega) (v := s.tokenAt k (s.hdrAt hk).stride t e) ?_ sc d).trans ?_
    · rw [hdrAt_count]
      exact hl.translate_within ho n 0 (by omega) (by omega) (by omega) hlo hhi
    · rw [State.tokenAt, hshare, extentAt_base, hdrAt_stride]
      rfl
  case tooMany =>
    exact ⟨execKvgrow_ok hb ha (hl.grow_tooMany ho hn ..), execKvcommit_ok ho hd hb ha (hl.commitTotal_tooMany ho hn ..),
      execKvfork_ok hb ha' (hl.fork_tooMany ho hn ..)⟩
  case empty => exact execKvgrow_ok hb ha (hl.grow_empty ho hn ..)
  case grow =>
    intro e
    have hlast : n = e + 1 := by omega
    have hgrow := execKvgrow_ok hb ha (hl.grow_last ho hlast (by omega) hacc hs sc d t)
    have hneeds := needsBlock_concat (s.hdrAt hk) ((List.range e).map fun i => s.extentAt (k i)) (s.extentAt (k e)) t
    rw [hdrAt_frozen, hshare, extentAt_order, extentAt_len] at hneeds
    split
    · next h => rwa [if_pos (hneeds.2 h)] at hgrow
    · next h => rwa [if_neg (mt hneeds.1 h), ← hlast] at hgrow
  case commit => exact ⟨_, execKvcommit_ok ho hd hb ha (hl.commitTotal_few ho hn hacc hs sc d (s.val32 a))⟩
  case fork =>
    have hf : ForkableOne s (listAddr (s.val64 (baseOp bp)) off) (s.val64 a) hk k kd kd' :=
      { list := hl, count := hn, shared := (hshare 0).symm ▸ hpos, unsaturated := (hshare 0).symm ▸ hmax, unowed := hnone
        lists := happ, mapped := hmap, counting := hcnt, toEntry := hent, toHeader := hhdr, served := hsrv, apart := hblocks }
    obtain ⟨hheader, hentry⟩ := hf.rd_copies hok
    obtain ⟨hsource, hword⟩ := hf.rd_source hok
    have hcopied : ∀ {i m}, i + m ≤ 16 → (s.forkedOne hk (k 0) kd kd').rd (kd' + i) m
        = ((s.sharedBytes (k 0)).drop i).take m := fun him => by rw [← slice_rd _ kd' him, hentry]
    refine ⟨s.forkedOne hk (k 0) kd kd', execKvfork_ok hb ha' (hf.fork ho sc d), hheader, ?_, ?_, ?_, hsource, rfl⟩
    · exact hcopied (i := 0) (by omega)
    · rw [State.rdNat, hcopied (by omega)]
      exact hf.share_counted.trans (congrArg (· + 1) (hshare 0))
    · rw [State.rdNat, hword, hf.share_counted, hshare]

end Sys2Proof.Machine
end

section
/-! The queues between agents (R298, R299): what a put, a get and a level amount to. -/

namespace Sys2Proof.Machine

/-! ## The queue of an agent -/

theorem Agent.xqOf_eq (g : Agent) (n : BitVec 2) : g.xqOf n = g.xq[n.toNat] := by
  have hn := n.isLt
  simp [Agent.xqOf, Vector.getD, hn]

theorem Agent.xq_setIfInBounds (g : Agent) (n : BitVec 2) (l : List DWord) :
    g.xq.setIfInBounds n.toNat l = g.xq.set n.toNat l :=
  Vector.ext fun k hk => by simp [Vector.getElem_set, Vector.getElem_setIfInBounds]

/-! ## Puts -/

section
variable {s : State} {ts : List AgentId} {full : Agent → Bool} {f : Agent → Agent}

/-- Every target takes the value where none has halted and none is full. -/
theorem putAll_ok (h : ∀ t ∈ ts, (s.agent t).halted = false ∧ full (s.agent t) = false) :
    s.putAll ts full f = .ok (ts.foldl (fun u t => u.mapAgent t f) s) := by
  have hhalted : (ts.any fun t => (s.agent t).halted) = false := by
    simpa using fun t ht => (h t ht).1
  have hfull : (ts.any fun t => full (s.agent t)) = false := by
    simpa using fun t ht => (h t ht).2
  simp [State.putAll, hhalted, hfull]

/-- A halted target is found before a full one. -/
theorem putAll_halted (h : ∃ t ∈ ts, (s.agent t).halted = true) : s.putAll ts full f = s.trapNow 0x14 0x10 0 :=
  if_pos (List.any_eq_true.2 h)

theorem putAll_full (hhalted : ∀ t ∈ ts, (s.agent t).halted = false) (h : ∃ t ∈ ts, full (s.agent t) = true) :
    s.putAll ts full f = .error (.wait .full) := by
  have hany : (ts.any fun t => (s.agent t).halted) = false := by simpa using hhalted
  have hfull : (ts.any fun t => full (s.agent t)) = true := List.any_eq_true.2 h
  simp [State.putAll, hany, hfull]

end

section
variable {s : State} {a : Opnd} (n cl : BitVec 2) (all : Bool)

theorem execQput_eq (ha : Readable s a .w64) : exec (.qput n cl all a) s = s.finish (s.putAll (putTargets cl all)
    (fun g => decide (64 ≤ g.xq[n.toNat].length)) fun g => { g with xq := g.xq.set n.toNat (g.xq[n.toNat] ++ [s.val64 a]) }) := by
  change execQput n cl all a s = _
  simp only [execQput, rd64_ok ha, bind, Except.bind, Agent.xqOf_eq, Agent.xq_setIfInBounds]

theorem execBqput_eq (ha : Readable s a .w32) : exec (.bqput cl all a) s = s.finish (s.putAll (putTargets cl all)
    (fun g => decide (64 ≤ g.bq.length)) fun g => { g with bq := g.bq ++ [decide (s.val32 a ≠ 0)] }) := by
  change execBqput cl all a s = _
  simp only [execBqput, rd32_ok ha, bind, Except.bind, decide_not, bne, Bool.beq_eq_decide_eq]

end

/-! ## Gets and levels -/

section
variable {s : State} (sc : Sched) (d : Opnd) (n : BitVec 2)

theorem execQget_cons {v : DWord} {vs : List DWord} (h : s.cur.xq[n.toNat] = v :: vs) : exec (.qget sc d n) s
    = .next ((s.mapCur fun g => { g with xq := g.xq.set n.toNat vs }).put64 sc d 3 v) := by
  change execQget sc d n s = _
  simp only [execQget, Agent.xqOf_eq, h, Agent.xq_setIfInBounds, finish_ok]

theorem execQget_nil (h : s.cur.xq[n.toNat] = []) : exec (.qget sc d n) s = .next { s with verdict := .stall .xq } := by
  change execQget sc d n s = _
  simp only [execQget, Agent.xqOf_eq, h, finish_wait]

theorem execQlvl_eq (isBq : Bool) : exec (.qlvl sc d n isBq) s
    = .next (s.put sc d 2 (BitVec.ofNat 32 (if isBq then s.cur.bq.length else s.cur.xq[n.toNat].length))) := by
  change execQlvl sc d n isBq s = _
  simp only [execQlvl, Agent.xqOf_eq, finish_ok]

end

/-! ## The statement -/

/-- Settles O42: a put looks for a halted target, then for a full one, and then every target takes the value. -/
theorem queues : Obligations.Queues := by
  unfold Obligations.Queues
  intro s sc d a n cl ha ha' xq one putX putB trapped full
  refine ⟨fun all => ?all, fun v vs h => execQget_cons sc d n h, execQget_nil sc d n, execQlvl_eq sc d n false,
    execQlvl_eq sc d n true⟩
  intro ts
  refine ⟨fun h => ?puts, fun h => ?putsBq, fun h => ?halted, fun hh => ⟨fun h => ?full, fun h => ?fullBq⟩⟩
  case puts =>
    exact (execQput_eq n cl all ha).trans (congrArg s.finish
      (putAll_ok fun t ht => ⟨(h t ht).1, decide_eq_false (Nat.not_le.2 (h t ht).2)⟩))
  case putsBq =>
    exact (execBqput_eq cl all ha').trans (congrArg s.finish
      (putAll_ok fun t ht => ⟨(h t ht).1, decide_eq_false (Nat.not_le.2 (h t ht).2)⟩))
  case halted =>
    exact ⟨(execQput_eq n cl all ha).trans (congrArg s.finish (putAll_halted h)),
      (execBqput_eq cl all ha').trans (congrArg s.finish (putAll_halted h))⟩
  case full =>
    obtain ⟨t, ht, hlen⟩ := h
    exact (execQput_eq n cl all ha).trans (congrArg s.finish (putAll_full hh ⟨t, ht, decide_eq_true hlen⟩))
  case fullBq =>
    obtain ⟨t, ht, hlen⟩ := h
    exact (execBqput_eq cl all ha').trans (congrArg s.finish (putAll_full hh ⟨t, ht, decide_eq_true hlen⟩))

end Sys2Proof.Machine
end

section
/-! The priority queues (R322, R323): which entries `pqpop` may take, and what each instruction on a unit amounts to. -/

namespace Sys2Proof.Machine

/-! ## The order of a unit's entries (R322) -/

/-- Entry `i` comes before entry `j`: a smaller key, or the same key and an earlier push. -/
def KeyBefore (l : List (DWord × DWord)) (i j : Nat) : Prop :=
  (l.getD i (0, 0)).1.toNat < (l.getD j (0, 0)).1.toNat ∨ ((l.getD i (0, 0)).1 = (l.getD j (0, 0)).1 ∧ i < j)

section
variable {l : List (DWord × DWord)} {i j k : Nat}

theorem KeyBefore.trans (h : KeyBefore l i j) (h' : KeyBefore l j k) : KeyBefore l i k := by
  simp only [KeyBefore, ← BitVec.toNat_inj] at *
  omega

theorem KeyBefore.asymm (h : KeyBefore l i j) : ¬KeyBefore l j i := by
  simp only [KeyBefore, ← BitVec.toNat_inj] at *
  omega

theorem byKey_perm (l : List (DWord × DWord)) (i : Nat) (js : List Nat) : (byKey l i js).Perm (i :: js) := by
  induction js with
  | nil => exact .refl _
  | cons j js ih =>
    rw [byKey]
    split
    · exact .refl _
    · exact (ih.cons j).trans (.swap i j js)

/-- A later push goes to its place among earlier ones. -/
theorem byKey_sorted {js : List Nat} (hs : js.Pairwise (KeyBefore l)) (hlater : ∀ j ∈ js, j < i) :
    (byKey l i js).Pairwise (KeyBefore l) := by
  induction js with
  | nil => exact List.pairwise_singleton _ _
  | cons j js ih =>
    obtain ⟨hj, hjs⟩ := List.pairwise_cons.1 hs
    rw [byKey]
    split
    next hlt =>
      refine List.pairwise_cons.2 ⟨fun k hk => ?_, hs⟩
      rcases List.mem_cons.1 hk with rfl | hk
      · exact .inl hlt
      · exact KeyBefore.trans (.inl hlt) (hj k hk)
    next hge =>
      refine List.pairwise_cons.2 ⟨fun k hk => ?_, ih hjs fun k hk => hlater k (List.mem_cons_of_mem _ hk)⟩
      rcases List.mem_cons.1 ((byKey_perm l i js).mem_iff.1 hk) with rfl | hk
      · have hji := hlater j List.mem_cons_self
        simp only [KeyBefore, ← BitVec.toNat_inj]
        omega
      · exact hj k hk

theorem keyOrder_spec (l : List (DWord × DWord)) (n : Nat) :
    ((List.range n).foldl (fun acc i => byKey l i acc) []).Perm (List.range n) ∧
      ((List.range n).foldl (fun acc i => byKey l i acc) []).Pairwise (KeyBefore l) := by
  induction n with
  | zero => exact ⟨.refl _, List.Pairwise.nil⟩
  | succ n ih =>
    obtain ⟨hperm, hsorted⟩ := ih
    rw [List.range_succ, List.foldl_append]
    exact ⟨(byKey_perm l n _).trans ((hperm.cons n).trans (List.perm_append_singleton n _).symm),
      byKey_sorted hsorted fun j hj => List.mem_range.1 (hperm.mem_iff.1 hj)⟩

theorem keyOrder_perm (l : List (DWord × DWord)) : (keyOrder l).Perm (List.range l.length) := (keyOrder_spec l _).1

theorem keyOrder_sorted (l : List (DWord × DWord)) : (keyOrder l).Pairwise (KeyBefore l) := (keyOrder_spec l _).2

/-- Of a sorted list no more than the first `c` come before the one at place `c`. -/
theorem length_filter_before {ks : List Nat} (hs : ks.Pairwise (KeyBefore l)) {c : Nat} (hc : c < ks.length)
    {p : Nat → Bool} (hp : ∀ j, p j = true → KeyBefore l j ks[c]) : (ks.filter p).length ≤ c := by
  have hsplit : ks = ks.take c ++ ks[c] :: ks.drop (c + 1) := by rw [← List.drop_eq_getElem_cons hc, List.take_append_drop]
  have hrest : (ks[c] :: ks.drop (c + 1)).filter p = [] := by
    refine List.filter_eq_nil_iff.2 fun j hj hpj => ?_
    rw [hsplit, List.pairwise_append, List.pairwise_cons] at hs
    rcases List.mem_cons.1 hj with rfl | hj
    · exact (hp _ hpj).asymm (hp _ hpj)
    · exact (hp j hpj).asymm (hs.2.1.1 j hj)
  calc (ks.filter p).length = ((ks.take c).filter p).length := by
        conv_lhs => rw [hsplit]
        rw [List.filter_append, hrest, List.append_nil]
    _ ≤ (ks.take c).length := List.length_filter_le _ _
    _ ≤ c := List.length_take_le _ _

/-- The entry at a place of the order has fewer than so many before it (R322). -/
theorem keyOrder_getD_before {c w : Nat} (hc : c < ((keyOrder l).take w).length) {p : Nat → Bool}
    (hp : ∀ j, p j = true → KeyBefore l j (((keyOrder l).take w).getD c 0)) :
    ((keyOrder l).take w).getD c 0 < l.length ∧ ((List.range l.length).filter p).length < w := by
  rw [List.length_take] at hc
  have hlen : c < (keyOrder l).length := by omega
  have hget : ((keyOrder l).take w).getD c 0 = (keyOrder l)[c] := by
    rw [List.getD_eq_getElem _ _ (by rw [List.length_take]; omega), List.getElem_take]
  rw [hget] at hp ⊢
  refine ⟨List.mem_range.1 ((keyOrder_perm l).mem_iff.1 (List.getElem_mem hlen)), ?_⟩
  rw [← ((keyOrder_perm l).filter _).length_eq]
  have := length_filter_before (keyOrder_sorted l) hlen hp
  omega

end

theorem popWindow_eq (w : Word) : popWindow w = min (max (w.toNat % 16) 1) 8 := by
  simp only [popWindow]
  split <;> omega

theorem popWindow_pos (w : Word) : 0 < popWindow w := by rw [popWindow_eq]; omega

/-- A choice among some things is one of them (log 9). -/
theorem choose_lt (o : Oracle) {n : Nat} (h : 0 < n) : (o.choose n).1 < n := by
  unfold Oracle.choose
  split
  · exact h
  · rw [if_neg (by omega)]
    exact Nat.mod_lt _ h

/-! ## The instructions -/

section
variable {s : State} {n : BitVec 3}

theorem unit_eq (s : State) (n : BitVec 3) : s.unit n = s.pqs[n.toNat] := by
  have hn := n.isLt
  simp [State.unit, Vector.getD, hn]

theorem setUnit_eq (s : State) (n : BitVec 3) (l : List (DWord × DWord)) :
    s.pqs.setIfInBounds n.toNat l = s.pqs.set n.toNat l :=
  Vector.ext fun k hk => by simp [Vector.getElem_set, Vector.getElem_setIfInBounds]

theorem unitOk_iff : s.unitOk n = true ↔ n ≠ 0 ∧ s.parts[s.part.toNat].pqs.getLsbD n.toNat = true := by
  simp [State.unitOk]

variable {sc : Sched} {d b x : Opnd}

section
variable (hb : Readable s b .w64) (hx : Readable s x .w64) (hd : s.cur.deferred = []) (ho : Orderly s)
include hb hx hd ho

theorem execPqpush_denied (h : s.unitOk n = false) : exec (.pqpush sc d b x n) s = s.finish (s.trapNow 0x07 0 0) := by
  change execPqpush sc d b x n s = _
  simp only [execPqpush, finishWaiting_eq hd ho.1, rd64_ok hb, rd64_ok hx, bind, Except.bind, h, Bool.not_false, if_true]

theorem execPqpush_refused (h : s.unitOk n = true) (hfull : s.val64 x = BitVec.allOnes 64 ∨ 4096 ≤ s.pqs[n.toNat].length) :
    exec (.pqpush sc d b x n) s = .next (s.put sc d 32 1) := by
  change execPqpush sc d b x n s = _
  simp only [execPqpush, finishWaiting_eq hd ho.1, rd64_ok hb, rd64_ok hx, bind, Except.bind, h, Bool.not_true, Bool.false_eq_true, if_false, unit_eq, if_pos hfull,
    pure, Except.pure, finish_ok]

theorem execPqpush_accepted (h : s.unitOk n = true)
    (hroom : ¬(s.val64 x = BitVec.allOnes 64 ∨ 4096 ≤ s.pqs[n.toNat].length)) : exec (.pqpush sc d b x n) s = .next
      (({ s with pqs := s.pqs.set n.toNat (s.pqs[n.toNat] ++ [(s.val64 b, s.val64 x)]) }).put sc d 32 0) := by
  change execPqpush sc d b x n s = _
  simp only [execPqpush, finishWaiting_eq hd ho.1, rd64_ok hb, rd64_ok hx, bind, Except.bind, h, Bool.not_true, Bool.false_eq_true, if_false, unit_eq, if_neg hroom,
    releaseAll_orderly ho, setUnit_eq, pure, Except.pure, finish_ok]

end

theorem execPqpop_denied (h : s.unitOk n = false) : exec (.pqpop sc d n) s = s.finish (s.trapNow 0x07 0 0) := by
  change execPqpop sc d n s = _
  simp only [execPqpop, h, Bool.not_false, if_true]

theorem execPqpop_empty (h : s.unitOk n = true) (he : s.pqs[n.toNat] = []) :
    exec (.pqpop sc d n) s = .next (s.put64 sc d 32 (BitVec.allOnes 64)) := by
  change execPqpop sc d n s = _
  simp only [execPqpop, h, Bool.not_true, Bool.false_eq_true, if_false, unit_eq, he, List.isEmpty_nil, if_true, finish_ok]

/-- The place in the order of the entry that the outside chooses. -/
def State.popChoice (s : State) (n : BitVec 3) : Nat × Oracle :=
  s.oracle.choose ((keyOrder s.pqs[n.toNat]).take (popWindow s.bank.pqwin)).length

/-- The entry that `pqpop` takes. -/
def State.popIndex (s : State) (n : BitVec 3) : Nat :=
  ((keyOrder s.pqs[n.toNat]).take (popWindow s.bank.pqwin)).getD (s.popChoice n).1 0

theorem execPqpop_pops (ho : Orderly s) (h : s.unitOk n = true) (he : s.pqs[n.toNat] ≠ []) : exec (.pqpop sc d n) s = .next
    (({ s with oracle := (s.popChoice n).2, pqs := s.pqs.set n.toNat (s.pqs[n.toNat].eraseIdx (s.popIndex n)) }).put64 sc d 32
      (s.pqs[n.toNat].getD (s.popIndex n) (0, 0)).2) := by
  change execPqpop sc d n s = _
  simp only [execPqpop, h, Bool.not_true, Bool.false_eq_true, if_false, unit_eq, List.isEmpty_iff, he, acquireAll_orderly ho,
    setUnit_eq, finish_ok]
  rfl

theorem popIndex_spec (he : s.pqs[n.toNat] ≠ []) {p : Nat → Bool}
    (hp : ∀ j, p j = true → KeyBefore s.pqs[n.toNat] j (s.popIndex n)) : s.popIndex n < s.pqs[n.toNat].length ∧
      ((List.range s.pqs[n.toNat].length).filter p).length < popWindow s.bank.pqwin := by
  refine keyOrder_getD_before (choose_lt _ ?_) hp
  have hlen := (keyOrder_perm s.pqs[n.toNat]).length_eq
  have hpos := List.length_pos_iff.2 he
  have hw := popWindow_pos s.bank.pqwin
  rw [List.length_range] at hlen
  rw [List.length_take]
  omega

theorem execPqlen_denied (h : s.unitOk n = false) : exec (.pqlen sc d n) s = s.finish (s.trapNow 0x07 0 0) := by
  change execPqlen sc d n s = _
  simp only [execPqlen, h, Bool.not_false, if_true]

theorem execPqlen_counts (h : s.unitOk n = true) :
    exec (.pqlen sc d n) s = .next (s.put sc d 32 (BitVec.ofNat 32 s.pqs[n.toNat].length)) := by
  change execPqlen sc d n s = _
  simp only [execPqlen, h, Bool.not_true, Bool.false_eq_true, if_false, unit_eq, finish_ok]

end

/-! ## The statement -/

/-- Settles O45: `pqpop` takes an entry of the sorted order's first w, before which fewer than w come. -/
theorem priorityQueues : Obligations.PriorityQueues := by
  unfold Obligations.PriorityQueues
  intro s sc d b x n hb hx hd ho l ok w denied before
  refine ⟨fun hok => ?ok, fun hno => ?denied⟩
  case denied =>
    have h : s.unitOk n = false := Bool.eq_false_iff.2 (mt unitOk_iff.1 hno)
    exact ⟨execPqpush_denied hb hx hd ho h, execPqpop_denied h, execPqlen_denied h⟩
  case ok =>
    have h : s.unitOk n = true := unitOk_iff.2 hok
    refine ⟨execPqpush_refused hb hx hd ho h, fun hv hlen => execPqpush_accepted hb hx hd ho h ?_, execPqpop_empty h,
      fun he => ?_, execPqlen_counts h⟩
    · exact not_or.2 ⟨hv, Nat.not_le.2 hlen⟩
    · obtain ⟨hi, hfew⟩ := popIndex_spec he (p := fun j => decide (before j (s.popIndex n))) fun j hj =>
        of_decide_eq_true (p := before j (s.popIndex n)) hj
      exact ⟨_, s.popIndex n, hi, hfew.trans_eq (popWindow_eq s.bank.pqwin), execPqpop_pops ho h he⟩

end Sys2Proof.Machine
end

section
/-! The debug port (R417 to R420): the freeze, what a frozen package does, and what a transaction answers. -/

namespace Sys2Proof.Machine

/-! ## The freeze (R418) -/

section
variable {s : State}

theorem execFrzAssert_frozen (h : s.dbg.frz = true) : exec .frzAssert s = .next s := by
  change execFrzAssert s = _
  simp only [execFrzAssert, h, if_true]

theorem execFrzAssert_running (h : s.dbg.frz = false) : exec .frzAssert s = .next { s with
    dbg := { s.dbg with frz := true, ack := true, partsOff := s.parts.toList.all fun p => !p.enabled, tag := s.free }
    free := s.free + 1 } := by
  change execFrzAssert s = _
  simp only [execFrzAssert, h, Bool.false_eq_true, if_false]

/-- A package that FRZ has stopped stands still while nothing comes that it takes. -/
theorem step_frozen (hp : s.powered = true) (hf : s.dbg.frz = true) (hi : ∀ i ∈ s.inbox, whileFrozen i = false)
    (ho : ∀ y ∈ s.outside, y.whileFrozen = false) : step s = .next s := by
  have hout : s.outside.find? Outside.whileFrozen = none := List.find?_eq_none.2 fun y hy => by simp [ho y hy]
  have hin : s.inbox.find? whileFrozen = none := List.find?_eq_none.2 fun i hi' => by simp [hi i hi']
  simp only [step, State.advance, hp, State.advanceOn, hf, if_true, State.frozenStep, hout, hin]

end

/-! ## Transactions (R417, R420) -/

theorem three_le_frameNeeds (c : Byte) : 3 ≤ frameNeeds c := by
  unfold frameNeeds
  split <;> omega

/-- A frame without room for code and CRC. -/
theorem debugFrame_short (s : State) {l : List Byte} (h : l.length < 3) : s.debugFrame (0xA5 :: l)
    = .next { s with dbg := { s.dbg with answer := answerFrame 2 [], busy := true } } :=
  if_pos (Nat.lt_of_lt_of_le h (three_le_frameNeeds _))

theorem Memory.readN_eq_map (m : Memory) (a n : Nat) : m.readN a n = (List.range n).map fun k => m.read (a + k) := by
  refine List.ext_getElem (by simp [Memory.length_readN]) fun k hk _ => ?_
  have hlt : k < n := by rwa [Memory.length_readN] at hk
  have htake : (m.readN (a + k) (n - k)).take 1 = m.readN (a + k) 1 := m.take_readN (a + k) (by omega)
  rw [← m.drop_readN, List.take_one_drop_eq_of_lt_length hk] at htake
  simpa [Memory.readN] using htake

section
variable {s : State} {seg off len : Word}

/-- A scratchpad is shown where no partition was enabled at the freeze. -/
theorem scanBytes_pad (hd : seg.toNat / 1024 % 32 < 24) (hu : seg.toNat % 16 = 2) (hend : off.toNat + len.toNat ≤ 2 ^ 21)
    (hoff : s.dbg.partsOff = true) : (List.range len.toNat).map (fun k => s.scanByteAt seg.toNat (off.toNat + k))
      = s.rd (2 ^ 54 + (seg.toNat / 1024 % 32 * 64 + seg.toNat / 16 % 64) * 2 ^ 21 + off.toNat) len.toNat := by
  rw [State.rd, Memory.readN_eq_map]
  refine List.map_congr_left fun k hk => ?_
  have hin : off.toNat + k < 2 ^ 21 := by have := List.mem_range.1 hk; omega
  simp only [State.scanByteAt, Nat.not_le.2 hd, hu, hoff, hin, if_false, Bool.not_true, Bool.false_eq_true, and_false, true_and,
    if_true, padKey, Nat.add_assoc]

/-- Scratchpads and accumulators are not shown where a partition was enabled at the freeze. -/
theorem scanBytes_hidden (hd : seg.toNat / 1024 % 32 < 24) (hu : seg.toNat % 16 = 2 ∨ seg.toNat % 16 = 3)
    (hoff : s.dbg.partsOff = false) : (List.range len.toNat).map (fun k => s.scanByteAt seg.toNat (off.toNat + k))
      = List.replicate len.toNat 0 := by
  refine List.eq_replicate_iff.2 ⟨by simp, fun b hb => ?_⟩
  obtain ⟨k, -, rfl⟩ := List.mem_map.1 hb
  simp only [State.scanByteAt, Nat.not_le.2 hd, hu, hoff, if_false, Bool.not_false, and_true, if_true]

theorem execReadScan_acked (h : s.dbg.ack = true) : exec (.readScan seg off len true) s
    = s.debugAnswer true ((List.range len.toNat).map fun k => s.scanByteAt seg.toNat (off.toNat + k)) := by
  change execReadScan seg off len true s = _
  simp only [execReadScan, h, if_true]

theorem execReadScan_unacked (h : s.dbg.ack = false) : exec (.readScan seg off len true) s = s.debugAnswer true noAnswer := by
  change execReadScan seg off len true s = _
  simp only [execReadScan, h, Bool.false_eq_true, if_false]

theorem execScanSize_pad (hd : seg.toNat / 1024 % 32 < 24) (hu : seg.toNat % 16 = 2) :
    exec (.scanSize seg true) s = s.debugAnswer true (bytesOf 8 (2 ^ 21)) := by
  change execScanSize seg true s = _
  simp only [execScanSize, State.scanSizeOf, Nat.not_le.2 hd, hu, if_false, if_true]

end

/-! ## The statement -/

/-- Settles O57: each event of the port by its equation; a scan shows bytes one by one. -/
theorem debugPort : Obligations.DebugPort := by
  unfold Obligations.DebugPort
  intro s seg off len code said die core dropped
  refine ⟨fun h => ⟨_, execFrzAssert_running h, rfl, rfl, rfl, rfl, rfl, ?_⟩, execFrzAssert_frozen, rfl, step_frozen,
    fun l => debugFrame_short s, ⟨_, ?_, rfl⟩, rfl, rfl, rfl, rfl, rfl, execReadScan_unacked,
    fun hack hd hu hend hoff => ?_, fun hack hd hu hoff => ?_, execScanSize_pad, rfl, rfl⟩
  · simp only [List.all_eq_true, Bool.not_eq_true']
  · rw [List.length_map, List.length_range]
  · rw [execReadScan_acked hack, scanBytes_pad hd hu hend hoff]
    rfl
  · rw [execReadScan_acked hack, scanBytes_hidden hd hu hoff]
    rfl

end Sys2Proof.Machine
end

section
/-! Accesses from the host (R381): a write through the window performs a read that an order for the whole system puts first, so
that it can change more than memory. -/

namespace Sys2Proof.Machine

/-- A read of 8 bytes at key 0 that an order of system reach has put before every later write (R160, R166). -/
def orderedRead : PendR := ⟨0, .own, 0, false, 8, [(0, 0, 0)], none, some 4⟩

/-- The machine after reset with a window of 8 bytes, while such a read is pending. -/
def readPendingAtWindow : State := { State.reset with window := (0, 8), reads := [orderedRead] }

/-- The host's write of the byte performs the read: it is pending no more. -/
theorem hostWrite_performs_read : ∃ t, exec (.hostMemAccess 0 (.write [1])) readPendingAtWindow = .next t ∧ t.reads = [] :=
  ⟨_, rfl, rfl⟩

/-- Refutes O54: its frame for a write through the window assumes that no write is pending and that nothing is held, and says
nothing of pending reads; one that an order of system reach has put before the write is performed with it. -/
theorem not_outsideAccess : ¬ Obligations.OutsideAccess := by
  unfold Obligations.OutsideAccess
  intro h
  obtain ⟨-, hwrite, -⟩ := h readPendingAtWindow 0 0 [1] 0 0 0 0 0 0
  obtain ⟨t, hexec, -, -, hframe⟩ := hwrite (by decide)
  obtain ⟨u, hexec', hnone⟩ := hostWrite_performs_read
  have htu : t = u := Host.Outcome.next.inj (hexec.symm.trans hexec')
  have hkept : t.reads = [orderedRead] := congrArg State.reads (hframe rfl rfl)
  rw [htu, hnone] at hkept
  exact absurd hkept (by decide)

end Sys2Proof.Machine
end

section
/-! Mailbox commands (R386 to R389): what one with a good header comes to, and whether it may act for its partition and context. -/

namespace Sys2Proof.Machine

variable {s t : State} {h : MbHdr} {op : Nat} {f : State → Cmd} {r : Cmd}

/-- A header whose fields are within their limits is good. -/
theorem MbHdr.bad_eq_none (hp : h.part.toNat < 16) (hc : h.ctx.toNat < 64 ∨ h.ctx = 0xFF) (hz : h.zero = 0)
    (ha : h.compl.toNat % 64 = 0) (hb : h.compl.toNat < 2 ^ 52) : h.bad = none := by
  have hctx : ¬ (64 ≤ h.ctx.toNat ∧ h.ctx ≠ 0xFF) := fun ⟨hle, hne⟩ => hc.elim (fun hlt => absurd hlt (by omega)) hne
  simp only [MbHdr.bad, MbHdr.complOk, if_neg (Nat.not_le.2 hp), if_neg hctx, hz, ha, hb]
  simp

theorem mailBusy_eq_false (hb : s.mailbox.busy = false) (hs : s.stage = 6) : s.mailBusy = false := by
  simp [State.mailBusy, hb, hs]

/-- A command that succeeds answers status 0 with its body. -/
theorem command_ok {body : List Byte} (hm : s.mailBusy = false) (hg : h.bad = none) (hf : f s = .ok (t, body)) :
    s.command h op f = .next (t.answer h op 0 0 body) := by
  simp [State.command, hm, hg, hf]

/-- A command that fails answers its status and detail, and changes nothing else. -/
theorem command_error {st det : Nat} (hm : s.mailBusy = false) (hg : h.bad = none) (hf : f s = .error (st, det)) :
    s.command h op f = .next (s.answer h op st det []) := by
  simp [State.command, hm, hg, hf]

/-- A command with a header field outside its limits answers status 2 with the field's offset. -/
theorem command_bad {d : Nat} (hm : s.mailBusy = false) (hd : h.bad = some d) :
    s.command h op f = .next (s.answer h op 2 d []) := by
  simp [State.command, hm, hd]

theorem partCmd_open (hr : s.parts[h.p.toNat].resetting = false) : s.partCmd h r = r := by
  simp [State.partCmd, hr]

theorem partCmd_resetting (hr : s.parts[h.p.toNat].resetting = true) : s.partCmd h r = .error (9, 0) := by
  simp [State.partCmd, hr]

/-- A command of a partition that is not being reset succeeds as its own part does. -/
theorem partCommand_ok {g : State → Cmd} {body : List Byte} (hm : s.mailBusy = false) (hg : h.bad = none)
    (ho : s.parts[h.p.toNat].resetting = false) (hf : g s = .ok (t, body)) :
    s.command h op (fun s => s.partCmd h (g s)) = .next (t.answer h op 0 0 body) :=
  command_ok hm hg ((partCmd_open ho).trans hf)

/-- See `partCommand_ok`. -/
theorem partCommand_error {g : State → Cmd} {st det : Nat} (hm : s.mailBusy = false) (hg : h.bad = none)
    (ho : s.parts[h.p.toNat].resetting = false) (hf : g s = .error (st, det)) :
    s.command h op (fun s => s.partCmd h (g s)) = .next (s.answer h op st det []) :=
  command_error hm hg ((partCmd_open ho).trans hf)

/-- A command of a partition that is being reset answers status 9 (R393). -/
theorem partCommand_resetting {g : State → Cmd} (hm : s.mailBusy = false) (hg : h.bad = none)
    (ho : s.parts[h.p.toNat].resetting = true) :
    s.command h op (fun s => s.partCmd h (g s)) = .next (s.answer h op 9 0 []) :=
  command_error hm hg (partCmd_resetting ho)

/-- The context that the header names is one of its partition. -/
theorem cmdCtx_ok (hc : h.ctx ≠ 0xFF) (hd : s.ctxs[(BitVec.ofNat 6 h.ctx.toNat).toNat].defined = true)
    (hp : s.ctxs[(BitVec.ofNat 6 h.ctx.toNat).toNat].part = h.p) : s.cmdCtx h = .ok (BitVec.ofNat 6 h.ctx.toNat) :=
  if_pos ⟨hc, hd, hp⟩

theorem cmdCtx_error (hc : ¬ (h.ctx ≠ 0xFF ∧ s.ctxs[(BitVec.ofNat 6 h.ctx.toNat).toNat].defined = true ∧
    s.ctxs[(BitVec.ofNat 6 h.ctx.toNat).toNat].part = h.p)) : s.cmdCtx h = .error (3, 0) :=
  if_neg hc

/-- Within its bounds an element is set as with `set`. -/
theorem setIfInBounds_eq_set {α : Type} {n : Nat} (v : Vector α n) {i : Nat} (hi : i < n) (x : α) :
    v.setIfInBounds i x = v.set i x := by
  refine Vector.ext fun k hk => ?_
  simp [Vector.getElem_set, Vector.getElem_setIfInBounds]

end Sys2Proof.Machine
end

section
/-! Bytes of a write that are read back in part, and steps that change memory alone. -/

namespace Sys2Proof.Machine

/-- A part of the bytes that a write has left. -/
theorem rd_wr_slice {s : State} (h : MemOk s) (key : Nat) {bs : List Byte} {i n : Nat} (hi : i + n ≤ bs.length) :
    (s.wr key bs).rd (key + i) n = (bs.drop i).take n := by
  rw [← slice_rd (s.wr key bs) key hi, rd_wr_all h]

/-- A field of the bytes that a write has left. -/
theorem rdNat_wr_slice {s : State} (h : MemOk s) (key : Nat) {bs : List Byte} {i n : Nat} (hi : i + n ≤ bs.length) :
    (s.wr key bs).rdNat (key + i) n = fieldOf bs i n := by
  rw [State.rdNat, rd_wr_slice h key hi, fieldOf]

/-- Steps that change memory alone do so one after another. -/
theorem foldl_memOnly {α : Type} {f : State → α → State} (hf : ∀ u x, ∃ m, f u x = { u with mem := m }) (l : List α) (s : State) :
    ∃ m, l.foldl f s = { s with mem := m } := by
  induction l generalizing s with
  | nil => exact ⟨s.mem, rfl⟩
  | cons x l ih =>
    obtain ⟨m, hm⟩ := hf s x
    obtain ⟨m', hm'⟩ := ih (f s x)
    exact ⟨m', by rw [List.foldl_cons, hm', hm]⟩

end Sys2Proof.Machine
end

section
/-! RETIRE_IMAGE (R390): unmapping changes memory alone, and dropping translations leaves contexts, runs and records. -/

namespace Sys2Proof.Machine

/-- Taking leaves out of a table changes memory alone. -/
theorem unmapPage_memOnly (s : State) (va n table : Nat) : ∃ m, s.unmapPage va n table = { s with mem := m } := by
  induction n generalizing table with
  | zero => exact ⟨s.mem, rfl⟩
  | succ n ih =>
    unfold State.unmapPage
    extract_lets a e
    split
    · exact ⟨s.mem, rfl⟩
    · split
      · exact ⟨_, rfl⟩
      · split
        · exact ⟨s.mem, rfl⟩
        · exact ih _

theorem unmapPages_memOnly (l : List (Nat × Nat)) (root : Nat) (s : State) :
    ∃ m, l.foldl (fun (u : State) (y : Nat × Nat) => u.unmapPage y.1 5 root) s = { s with mem := m } :=
  foldl_memOnly (f := fun u (y : Nat × Nat) => u.unmapPage y.1 5 root) (fun u y => unmapPage_memOnly u y.1 5 root) l s

/-- The end of a walk's freeze changes no more than the freezes. -/
theorem walksOver_freezesOnly (s : State) : ∃ l, s.walksOver = { s with freezes := l } := by
  unfold State.walksOver
  split
  · exact ⟨s.freezes, rfl⟩
  · exact ⟨_, rfl⟩

/-- An invalidation drops the translations that it names; besides, it changes only walks and freezes. -/
theorem invalidate_eq (s : State) (p : BitVec 4) (scope : Nat) (cx : BitVec 6) (va : Nat) :
    ∃ w ws fs, s.invalidate p scope cx va =
      { s with tlb := s.tlb.filter fun e => !s.named p scope cx va e, walk := w, walks := ws, freezes := fs } := by
  obtain ⟨fs, hfs⟩ := walksOver_freezesOnly { s with
    tlb := s.tlb.filter fun e => !s.named p scope cx va e
    walk := s.walk.filter fun w => !s.namedWalk p scope cx va w
    walks := s.walks.filter fun w => !s.namedWalk p scope cx va w }
  exact ⟨_, _, fs, hfs⟩

/-- The translations that stand after an invalidation of a context: those of other contexts. -/
theorem mem_tlb_invalidate_context (s : State) (p : BitVec 4) (cx : BitVec 6) (va : Nat) (e : TlbEnt) :
    e ∈ (s.invalidate p 1 cx va).tlb ↔ e ∈ s.tlb ∧ e.ctx ≠ cx := by
  obtain ⟨w, ws, fs, heq⟩ := invalidate_eq s p 1 cx va
  rw [heq]
  simp [State.named]

/-- Settles O53: where the checks pass the command is the unmapping of the pages, an invalidation of the context, and the
loader's forgetting of the image, and none of the three touches what the statement keeps. -/
theorem retireImage : Obligations.RetireImage := by
  unfold Obligations.RetireImage
  intro s h addr img hbusy hstage hpart hctx hzero halign hbound p cx c hopen hdef hof hfind hfree unmapped
  have hall : h.ctx ≠ 0xFF := fun heq => absurd hctx (by rw [heq]; decide)
  have hgood : h.bad = none := MbHdr.bad_eq_none hpart (.inl hctx) hzero halign hbound
  obtain ⟨m, hm⟩ : ∃ m, unmapped = { s with mem := m } := unmapPages_memOnly img.pages c.root s
  obtain ⟨w, ws, fs, hdrop⟩ := invalidate_eq unmapped p 1 cx 0
  refine ⟨(unmapped.invalidate p 1 cx 0).mapCtx cx fun c => { c with images := c.images.erase img }, ?run, ?mem, ?own,
    ?others, ?tlb, ?bank, ?recs, ?parts, ?models, ?link⟩
  case run =>
    change s.command h 0xC011 (fun u => u.partCmd h (u.retireImage h addr.toNat)) = _
    refine partCommand_ok (mailBusy_eq_false hbusy hstage) hgood hopen ?_
    have hcx : s.cmdCtx h = .ok cx := cmdCtx_ok hall hdef hof
    have hsome : s.ctxs[cx.toNat].images.find? (fun i => i.hdr == addr.toNat) = some img := hfind
    simp only [State.retireImage, hcx, bind, Except.bind, hsome, hfree]
    rfl
  case own =>
    rw [State.mapCtx, hdrop, hm]
    simp [c]
  case others =>
    intro k hk
    have hne : cx.toNat ≠ k.toNat := fun heq => hk (BitVec.eq_of_toNat_eq heq.symm)
    rw [State.mapCtx, hdrop, hm]
    simp [hne]
  case tlb =>
    intro e
    rw [State.mapCtx]
    exact (mem_tlb_invalidate_context unmapped p cx 0 e).trans (by rw [hm])
  all_goals
    rw [State.mapCtx, hdrop, hm]

end Sys2Proof.Machine
end

section
/-! The firmware's commands where their checks pass, and where one of their checks fails (R389 to R396): one equation for each
command's own part. -/

namespace Sys2Proof.Machine

variable {s : State} {h : MbHdr}

/-! ## Window and link -/

/-- WINDOW with base and size within their limits: by whether an access of the host is open. -/
theorem setWindow_eq {base size : Nat} (hp : h.part = 0) (hb : base % 2 ^ 30 = 0) (hn : size % 2 ^ 30 = 0) (hlt : base < 3 * 2 ^ 40)
    (hle : size ≤ 2 ^ 38) (hend : base + size ≤ 3 * 2 ^ 40) :
    s.setWindow h base size = if s.hostOut = 0 then .ok ({ s with window := (base, size) }, []) else .error (1, 0) := by
  have hfits : ¬ (2 ^ 38 < size ∨ 3 * 2 ^ 40 < base + size) := by omega
  simp only [State.setWindow, hp, hb, hn, ne_eq, not_true_eq_false, if_false, if_neg (Nat.not_le.2 hlt), if_neg hfits]
  rcases Nat.eq_zero_or_pos s.hostOut with h0 | hpos
  · rw [if_neg (by omega), if_pos h0]
  · rw [if_pos hpos, if_neg (Nat.ne_of_gt hpos)]

theorem linkConfig_ok {pkg : BitVec 16} {ports : Word} (hp : h.part = 0) (hpkg : pkg.toNat < 2048)
    (hoff : ∀ q ∈ s.parts.toList, q.enabled = false) :
    s.linkConfig h pkg 0 ports = .ok ({ s with link := { s.link with
      configured := true, pkg := pkg.setWidth 11, enable := ports, up := 0, trained := 0, ever := 0
      trainBy := s.wall + 180000000 } }, []) := by
  have hany : s.parts.toList.any (·.enabled) = false := by
    simpa only [List.any_eq_false, Bool.not_eq_true] using hoff
  simp [State.linkConfig, hp, Nat.not_le.2 hpkg, hany, trainCycles]

/-- Performing the requests to a package leaves the link as it was. -/
theorem endRequests_link (p : Nat → Bool) : (s.endRequests p).link = s.link := by
  have hreads := (accesses_readsWhere s fun _ x => p x.2.2).same
  have hwrites := (accesses_flushWhere (s.readsWhere fun _ x => p x.2.2) fun e => p e.key).same
  rw [State.endRequests, sameBut_trans hreads hwrites]

theorem endRequests_quiet (hw : s.pend = []) (hr : s.reads = []) (p : Nat → Bool) : s.endRequests p = s := by
  rw [State.endRequests, readsWhere_none hr, flushWhere_none (by simp [hw])]

theorem linkRoute_ok {dest : BitVec 16} {mask : Word} (hp : h.part = 0) (hdest : dest.toNat < 2048) :
    s.linkRoute h dest 0 mask = .ok ({ s.endRequests (toPackage dest.toNat) with link := { s.link with
      routes := (dest.toNat, mask, s.link.failed dest.toNat &&& mask) :: s.link.routes.filter fun r => r.1 ≠ dest.toNat } }, []) := by
  have hne : (fun r : Nat × Word × Word => r.1 != dest.toNat) = fun r => decide (r.1 ≠ dest.toNat) := by
    funext r
    rw [Bool.eq_iff_iff, bne_iff_ne, decide_eq_true_iff]
  simp [State.linkRoute, hp, Nat.not_le.2 hdest, endRequests_link, hne]

theorem setExport_eq {e8 fl sp : Byte} {pkg : BitVec 16} {base size : Nat} (he : e8.toNat < 64) (hf : fl.toNat < 4)
    (hs : sp.toNat < 16) (hb : base % 4096 = 0) (hn : size % 4096 = 0) :
    s.setExport h e8 fl sp 0 pkg 0 base size =
      if fl.getLsbD 0 = true ∧ (h.p, e8.setWidth 6) ∈ s.exportOut then .error (1, 0)
      else .ok ({ s with
        exports := s.exports.set h.p.toNat ((s.exports[h.p.toNat]).setIfInBounds e8.toNat
          ⟨fl.getLsbD 0, fl.getLsbD 1, pkg.toNat, sp.toNat, base, size⟩)
        exportOut := s.exportOut.filter fun x => x ≠ (h.p, e8.setWidth 6) }, []) := by
  have hne : (fun x : BitVec 4 × BitVec 6 => x != (h.p, e8.setWidth 6)) = fun x => decide (x ≠ (h.p, e8.setWidth 6)) := by
    funext x
    rw [Bool.eq_iff_iff, bne_iff_ne, decide_eq_true_iff]
  simp only [State.setExport, State.exportUsed, if_neg (Nat.not_le.2 he), if_neg (Nat.not_le.2 hf), if_neg (Nat.not_le.2 hs), hb,
    hn, ne_eq, not_true_eq_false, if_false, Bool.and_eq_true, List.contains_iff_mem, hne,
    setIfInBounds_eq_set s.exports h.p.isLt]

/-! ## Models -/

theorem mapModel_eq (p : BitVec 4) (k : BitVec 3) (f : Model → Model) :
    s.mapModel p k f =
      { s with models := s.models.set p.toNat ((s.models[p.toNat]).set k.toNat (f (s.models[p.toNat])[k.toNat])) } := by
  simp only [State.mapModel, State.modelAt, setIfInBounds_eq_set _ p.isLt, setIfInBounds_eq_set _ k.isLt]

theorem modelDefine_ok {slot mask : Byte} {size : Nat} (hk : slot.toNat < 8)
    (hm : mask &&& ~~~s.parts[h.p.toNat].banks = 0) (hn : size ≤ 2 ^ 26 * (8 * (setBits 8 mask.toNat).length))
    (hfree : s.slotHeld h.p (slot.setWidth 3) = false) :
    s.modelDefine h slot mask 0 size = .ok (s.mapModel h.p (slot.setWidth 3) fun _ => ⟨true, mask, size, []⟩, []) := by
  simp only [State.modelDefine, if_neg (Nat.not_le.2 hk), hm, ne_eq, not_true_eq_false, if_false, bankBytes,
    if_neg (Nat.not_lt.2 hn), hfree, Bool.false_eq_true]

theorem modelDefine_held {slot mask : Byte} {size : Nat} (hk : slot.toNat < 8)
    (hm : mask &&& ~~~s.parts[h.p.toNat].banks = 0) (hn : size ≤ 2 ^ 26 * (8 * (setBits 8 mask.toNat).length))
    (hheld : s.slotHeld h.p (slot.setWidth 3) = true) :
    s.modelDefine h slot mask 0 size = .error (6, slot.toNat) := by
  simp only [State.modelDefine, if_neg (Nat.not_le.2 hk), hm, ne_eq, not_true_eq_false, if_false, bankBytes,
    if_neg (Nat.not_lt.2 hn), hheld, if_true]

theorem weightWrite_ok {slot : Byte} {dies : Word} {src off len : Nat} (hk : slot.toNat < 8) (hdies : dies.toNat < 2 ^ 24)
    (hsrc : src + len ≤ 2 ^ 52) (hlen : len % 64 = 0)
    (hdef : (s.models[h.p.toNat])[(slot.setWidth 3 : BitVec 3).toNat].defined = true)
    (hend : off + len ≤ (s.models[h.p.toNat])[(slot.setWidth 3 : BitVec 3).toNat].size)
    (hfree : s.slotHeld h.p (slot.setWidth 3) = false) :
    s.weightWrite h slot 0 dies src off len =
      .ok (State.mapModel { s with mem := (setBits 24 dies.toNat).foldl (fun y d =>
          y.writeWeights (s.models[h.p.toNat])[(slot.setWidth 3 : BitVec 3).toNat] d off (s.rd (hostKey + src) len)) s.mem }
        h.p (slot.setWidth 3) fun m =>
          { m with absorbed := m.absorbed ++ bytesOf 8 off ++ bytesOf 8 len ++ s.rd (hostKey + src) len }, bytesOf 8 len) := by
  simp only [State.weightWrite, State.modelAt, if_neg (Nat.not_le.2 hk), ne_eq, not_true_eq_false, if_false,
    if_neg (Nat.not_le.2 hdies), hostRange, hsrc, decide_true, Bool.not_true, Bool.false_eq_true, hlen, hdef,
    if_neg (Nat.not_lt.2 hend), hfree]

/-- MODEL_BIND of a defined slot, with a key: by whether the signature verifies. -/
theorem modelBind_eq {cx : BitVec 6} {slot : Byte} {sig : List Byte} (hcx : s.cmdCtx h = .ok cx) (hk : slot.toNat < 8)
    (hdef : (s.modelAt h.p (slot.setWidth 3)).defined = true) (hkey : s.parts[h.p.toNat].ownerKey ≠ []) :
    s.modelBind h slot 0 sig =
      if falconVerifies s.parts[h.p.toNat].ownerKey (s.modelAt h.p (slot.setWidth 3)).digest (fitBytes 1280 sig) = true then
        .ok (s.mapCtx cx fun c => { c with model := some (slot.setWidth 3) }, (s.modelAt h.p (slot.setWidth 3)).digest)
      else .error (4, 0) := by
  have hne : s.parts[h.p.toNat].ownerKey.isEmpty = false := by simpa using hkey
  simp only [State.modelBind, hcx, bind, Except.bind, if_neg (Nat.not_le.2 hk), ne_eq, not_true_eq_false, if_false, hdef,
    Bool.not_true, Bool.false_eq_true, hne, Bool.false_or]
  cases falconVerifies s.parts[h.p.toNat].ownerKey (s.modelAt h.p (slot.setWidth 3)).digest (fitBytes 1280 sig) <;> rfl

theorem modelUnbind_eq {cx : BitVec 6} (hcx : s.cmdCtx h = .ok cx) :
    s.modelUnbind h = if s.ctxs[cx.toNat].model.isNone then .error (9, 0)
      else .ok (s.mapCtx cx fun c => { c with model := none }, []) := by
  simp only [State.modelUnbind, hcx]

/-! ## Resume, attestation and keys -/

/-- Where every held area has its record, none is released. -/
theorem releaseLost_noneLost (p : BitVec 4) (hl : ∀ a ∈ s.heldAreas, a.2.2.2 ≠ none) : s.releaseLost p = s := by
  have hkeep : s.heldAreas.filter (fun a => !(s.ctxs[a.1.toNat].part == p && a.2.2.2.isNone)) = s.heldAreas := by
    refine List.filter_eq_self.2 fun a ha => ?_
    have hsome : a.2.2.2.isNone = false := Option.isNone_eq_false_iff.2 (Option.isSome_iff_ne_none.2 (hl a ha))
    rw [hsome, Bool.and_false, Bool.not_false]
  rw [State.releaseLost, hkeep]

theorem partitionResume_ok (hst : s.parts[h.p.toNat].stopped = true) (hfree : 8 < s.queueFree h.p)
    (hl : ∀ a ∈ s.heldAreas, a.2.2.2 ≠ none) :
    s.partitionResume h = .ok (s.mapPart h.p fun q => { q with stopped := false }, bytesOf 4 (s.queueFree h.p)) := by
  have hlost := releaseLost_noneLost (s := s.mapPart h.p fun q => { q with stopped := false }) h.p hl
  simp [State.partitionResume, hst, Nat.not_le.2 hfree, hlost]

theorem partitionResume_refused (hno : s.parts[h.p.toNat].stopped = false ∨ s.queueFree h.p ≤ 8) :
    s.partitionResume h = .error (9, 0) := by
  have hc : (!s.parts[h.p.toNat].stopped) = true ∨ s.queueFree h.p ≤ 8 := hno.imp_left fun hf => by rw [hf]; rfl
  exact if_pos hc

theorem length_fitBytes (n : Nat) (l : List Byte) : (fitBytes n l).length = n := by
  simp [fitBytes]

/-- A report begins with the nonce and the ROM's digest; wall time, partition and context follow. -/
theorem report_head (nonce : List Byte) (o : Option (BitVec 6)) :
    ∃ rest, s.report h nonce o = fitBytes 32 nonce ++ (romDigest ++ (bytesOf 8 s.wall ++ ([h.part, h.ctx] ++ rest))) := by
  simp only [State.report, List.append_assoc]
  exact ⟨_, rfl⟩

theorem attest_ok {nonce : List Byte} (hall : h.ctx = 0xFF) :
    s.attest h nonce = .ok (s, s.report h nonce none ++ fitBytes 1280 (Config.falconSign identityKey.1 (s.report h nonce none))) := by
  simp only [State.attest, hall, if_true, bind, Except.bind]

/-- Places of nonce, time, partition and context in a report that more follows. -/
theorem report_fields (nonce : List Byte) (o : Option (BitVec 6)) (more : List Byte) :
    (s.report h nonce o ++ more).take 32 = fitBytes 32 nonce ∧
    ofBytes (((s.report h nonce o ++ more).drop 64).take 8) = s.wall % 2 ^ 64 ∧
    ((s.report h nonce o ++ more).drop 72).take 2 = [h.part, h.ctx] := by
  obtain ⟨rest, hr⟩ := report_head (s := s) (h := h) nonce o
  have hrom : romDigest.length = 32 := length_fitBytes ..
  have htime : (bytesOf 8 s.wall).length = 8 := length_bytesOf ..
  rw [hr]
  refine ⟨?_, ?_, ?_⟩
  · simp [length_fitBytes]
  · have hpart : ((fitBytes 32 nonce ++ (romDigest ++ (bytesOf 8 s.wall ++ ([h.part, h.ctx] ++ rest))) ++ more).drop 64).take 8
        = bytesOf 8 s.wall := by
      simp [List.drop_append, length_fitBytes, hrom, htime, List.drop_eq_nil_of_le]
    rw [hpart, ofBytes_bytesOf]
    rfl
  · simp [List.drop_append, length_fitBytes, hrom, htime, List.drop_eq_nil_of_le]

theorem setOwnerKey_ok {key : List Byte} (hnone : ∀ c ∈ s.ctxs.toList, c.defined = true → c.part ≠ h.p) :
    s.setOwnerKey h key = .ok (s.mapPart h.p fun q => { q with ownerKey := fitBytes 1793 key }, shake256 32 (fitBytes 1793 key)) := by
  have hany : s.ctxs.toList.any (fun c => c.defined && c.part == h.p) = false := by
    simpa only [List.any_eq_false, Bool.and_eq_true, beq_iff_eq, not_and] using hnone
  simp only [State.setOwnerKey, hany, Bool.false_eq_true, if_false, digest256]

theorem setOwnerKey_refused {key : List Byte} {c : Ctx} (hc : c ∈ s.ctxs.toList) (hd : c.defined = true) (hp : c.part = h.p) :
    s.setOwnerKey h key = .error (3, 0) := by
  have hany : s.ctxs.toList.any (fun c => c.defined && c.part == h.p) = true :=
    List.any_eq_true.2 ⟨c, hc, by rw [hd, hp]; simp⟩
  simp only [State.setOwnerKey, hany, if_true]

/-! ## Images -/

theorem loadImage_noContext {st : Nat × Nat} {src len : Nat} (hcx : s.cmdCtx h = .error st) : s.loadImage h src len = .error st := by
  simp only [State.loadImage, hcx, bind, Except.bind]

theorem retireImage_noContext {st : Nat × Nat} {addr : Nat} (hcx : s.cmdCtx h = .error st) : s.retireImage h addr = .error st := by
  simp only [State.retireImage, hcx, bind, Except.bind]

theorem retireImage_unknown {cx : BitVec 6} {addr : Nat} (hcx : s.cmdCtx h = .ok cx)
    (hnone : ∀ img ∈ s.ctxs[cx.toNat].images, img.hdr ≠ addr) : s.retireImage h addr = .error (2, 0x10) := by
  have hfind : s.ctxs[cx.toNat].images.find? (fun i => i.hdr == addr) = none :=
    List.find?_eq_none.2 fun i hi heq => hnone i hi (beq_iff_eq.1 heq)
  simp only [State.retireImage, hcx, bind, Except.bind, hfind]

theorem retireImage_named {cx : BitVec 6} {addr : Nat} (hcx : s.cmdCtx h = .ok cx) (hnamed : s.imageNamed cx addr = true)
    (himg : ∃ img ∈ s.ctxs[cx.toNat].images, img.hdr = addr) : s.retireImage h addr = .error (1, 0) := by
  obtain ⟨img, hmem, hhdr⟩ := himg
  have hsome : (s.ctxs[cx.toNat].images.find? fun i => i.hdr == addr).isSome :=
    List.find?_isSome.2 ⟨img, hmem, beq_iff_eq.2 hhdr⟩
  obtain ⟨found, hfind⟩ := Option.isSome_iff_exists.1 hsome
  simp only [State.retireImage, hcx, bind, Except.bind, hfind, hnamed, if_true]

/-- LOAD_IMAGE of a length and place within the limits, with a key: signature, then format, then place. -/
theorem loadImage_eq {cx : BitVec 6} {src len : Nat} (hcx : s.cmdCtx h = .ok cx) (hlo : 128 ≤ len) (hhi : len ≤ 2 ^ 28)
    (hsrc : src + len + 1280 ≤ 2 ^ 52) (hkey : s.parts[h.p.toNat].ownerKey ≠ []) :
    s.loadImage h src len =
      if falconVerifies s.parts[h.p.toNat].ownerKey (s.rd (hostKey + src) len) (s.rd (hostKey + src + len) 1280) = true then
        if imageStatus (s.rd (hostKey + src) len) s.ctxs[cx.toNat].model.isSome ≠ 0 then
          .error (5, imageStatus (s.rd (hostKey + src) len) s.ctxs[cx.toNat].model.isSome)
        else s.placeImage cx (s.rd (hostKey + src) len)
      else .error (4, 0) := by
  have hne : s.parts[h.p.toNat].ownerKey.isEmpty = false := by simpa using hkey
  have hlen : ¬ (len < 128 ∨ 2 ^ 28 < len) := by omega
  have hrange : hostRange src (len + 1280) = true := decide_eq_true (by rwa [← Nat.add_assoc])
  simp only [State.loadImage, hcx, bind, Except.bind, if_neg hlen, hrange, Bool.not_true, Bool.false_eq_true, if_false, hne,
    Bool.false_or]
  cases falconVerifies s.parts[h.p.toNat].ownerKey (s.rd (hostKey + src) len) (s.rd (hostKey + src + len) 1280) <;> rfl

theorem placeImage_noPlace (cx : BitVec 6) (b : List Byte) (ho : s.oracle.load = []) : s.placeImage cx b = .error (8, 0) := by
  simp only [State.placeImage, ho]

/-- The mapping of an image's pages, its header page last, after it is written at its place. -/
def State.placing (s : State) (cx : BitVec 6) (b : List Byte) (va pa : Nat) (rest : List (Nat × Nat)) : Option (State × Nat) :=
  (({ s with oracle := { s.oracle with load := rest } }).wr pa (relocated b va)).mapPages
    s.ctxs[cx.toNat].root b va pa ((List.range (imagePages b)).drop 1 ++ [0]) (pa + 4096 * imagePages b)

theorem placeImage_refused {cx : BitVec 6} {b : List Byte} {va pa : Nat} {rest : List (Nat × Nat)}
    (ho : s.oracle.load = (va, pa) :: rest)
    (hno : s.placeOk va pa (imagePages b) = false ∨ s.placing cx b va pa rest = none) : s.placeImage cx b = .error (8, 0) := by
  have hsame : State.placeOk { s with oracle := { s.oracle with load := rest } } va pa (imagePages b)
    = s.placeOk va pa (imagePages b) := rfl
  simp only [State.placeImage, ho, hsame]
  unfold State.placing at hno
  cases hplace : s.placeOk va pa (imagePages b) with
  | false => rfl
  | true =>
    have hnone := hno.resolve_left (by rw [hplace]; decide)
    simp only [hnone, Bool.not_true, Bool.false_eq_true, if_false]

theorem placeImage_ok {t : State} {fresh : Nat} {cx : BitVec 6} {b : List Byte} {va pa : Nat} {rest : List (Nat × Nat)}
    (ho : s.oracle.load = (va, pa) :: rest) (hplace : s.placeOk va pa (imagePages b) = true)
    (hmap : s.placing cx b va pa rest = some (t, fresh)) :
    ∃ (img : Loaded) (tables : List Nat), img.hdr = va ∧ img.bytes = b ∧
      (∀ y ∈ tables, pa + 4096 * imagePages b ≤ y ∧ y < fresh) ∧
      s.placeImage cx b = .ok (t.mapCtx cx fun c => { c with images := img :: c.images, tables := tables ++ c.tables },
        bytesOf 8 va) := by
  have hsame : State.placeOk { s with oracle := { s.oracle with load := rest } } va pa (imagePages b)
    = s.placeOk va pa (imagePages b) := rfl
  unfold State.placing at hmap
  refine ⟨⟨va, fieldOf b 8 8, b, (List.range (imagePages b)).map fun k => (va + 4096 * k, pa + 4096 * k)⟩,
    (List.range ((fresh - pa) / 4096 - imagePages b)).map fun k => pa + 4096 * (imagePages b + k), rfl, rfl, ?_, ?_⟩
  · intro y hy
    obtain ⟨k, hk, rfl⟩ := List.mem_map.1 hy
    have hlt := List.mem_range.1 hk
    omega
  · simp only [State.placeImage, ho, hsame, hplace, hmap, Bool.not_true, Bool.false_eq_true, if_false]

/-- Settles O52: a good header leaves each command to its own part, and the equation of that part says what it leaves. -/
theorem firmwareCommands : Obligations.FirmwareCommands := by
  unfold Obligations.FirmwareCommands
  intro s h slot mask z56 z24 z48 dies ports src off size addr len a16 z16 e8 fl sp nonce sig key hbusy hstage hpart hctx hzero
    halign hbound p cx part mine k m ok fails table modelTo
  have hm : s.mailBusy = false := mailBusy_eq_false hbusy hstage
  have hg : h.bad = none := MbHdr.bad_eq_none hpart hctx hzero halign hbound
  have hname : mine → s.cmdCtx h = .ok cx := fun ⟨hall, hdef, hof⟩ => cmdCtx_ok hall hdef hof
  have hforeign : ¬mine → s.cmdCtx h = .error (3, 0) := cmdCtx_error
  refine ⟨?window, ?config, ?route, fun hreset => ⟨?unbindReset, ?attestReset⟩, fun hopen =>
    ⟨?exports, ?define, ?defineHeld, ?weights, ?bind, ?unbind, ?unbound, ?resume, ?noResume, ?attest, ?owner, ?owned,
      fun hno => ⟨?noLoad, ?noRetire⟩, ?load, ?retireNone, ?retireNamed⟩⟩
  case window =>
    intro hp hb hn hlt hle hend
    have heq := setWindow_eq (s := s) hp hb hn hlt hle hend
    by_cases hout : s.hostOut = 0
    · rw [if_pos hout] at heq ⊢
      exact command_ok hm hg (f := fun u => u.setWindow h off.toNat size.toNat) heq
    · rw [if_neg hout] at heq ⊢
      exact command_error hm hg (f := fun u => u.setWindow h off.toNat size.toNat) heq
  case config =>
    intro hp hpkg hoff
    exact command_ok hm hg (f := fun u => u.linkConfig h a16 0 ports) (linkConfig_ok hp hpkg hoff)
  case route =>
    intro hp hdest routed
    refine ⟨{ s.endRequests (toPackage a16.toNat) with link := routed },
      command_ok hm hg (f := fun u => u.linkRoute h a16 0 ports) (linkRoute_ok hp hdest), rfl, fun hw hr => ?_⟩
    rw [endRequests_quiet hw hr]
  case unbindReset => exact partCommand_resetting hm hg hreset (g := fun u => u.modelUnbind h)
  case attestReset => exact partCommand_resetting hm hg hreset (g := fun u => u.attest h nonce)
  case exports =>
    intro he hf hs hb hn
    have heq := setExport_eq (s := s) (h := h) (pkg := a16) he hf hs hb hn
    split
    next hused =>
      exact partCommand_error hm hg hopen (g := fun u => u.setExport h e8 fl sp 0 a16 0 off.toNat size.toNat)
        (heq.trans (if_pos hused))
    next hfree =>
      exact partCommand_ok hm hg hopen (g := fun u => u.setExport h e8 fl sp 0 a16 0 off.toNat size.toNat)
        (heq.trans (if_neg hfree))
  case define =>
    intro hk hmask hn hfree
    have heq := modelDefine_ok (s := s) (h := h) hk hmask hn hfree
    rw [mapModel_eq] at heq
    exact partCommand_ok hm hg hopen (g := fun u => u.modelDefine h slot mask 0 size.toNat) heq
  case defineHeld =>
    intro hk hheld hmask hn
    exact partCommand_error hm hg hopen (g := fun u => u.modelDefine h slot mask 0 size.toNat)
      (modelDefine_held hk hmask hn hheld)
  case weights =>
    intro hk hdies hsrc hlen hdef hend hfree bs
    have heq := weightWrite_ok (s := s) (h := h) hk hdies hsrc hlen hdef hend hfree
    rw [mapModel_eq] at heq
    exact partCommand_ok hm hg hopen (g := fun u => u.weightWrite h slot 0 dies src.toNat off.toNat size.toNat) heq
  case bind =>
    intro hmine hk hdef hkey dig
    have heq := modelBind_eq (sig := sig) (hname hmine) hk hdef hkey
    split
    next hver =>
      exact partCommand_ok hm hg hopen (g := fun u => u.modelBind h slot 0 sig) (heq.trans (if_pos hver))
    next hver =>
      exact partCommand_error hm hg hopen (g := fun u => u.modelBind h slot 0 sig) (heq.trans (if_neg hver))
  case unbind =>
    intro hmine hsome
    have hbound' : ¬ s.ctxs[cx.toNat].model.isNone = true :=
      fun hnone => Bool.false_ne_true (by rwa [Option.isNone_iff_eq_none.1 hnone] at hsome)
    exact partCommand_ok hm hg hopen (g := fun u => u.modelUnbind h) ((modelUnbind_eq (hname hmine)).trans (if_neg hbound'))
  case unbound =>
    intro hmine hnone
    exact partCommand_error hm hg hopen (g := fun u => u.modelUnbind h)
      ((modelUnbind_eq (hname hmine)).trans (if_pos (by rw [hnone]; rfl)))
  case resume =>
    intro hst hfree hlost
    exact partCommand_ok hm hg hopen (g := fun u => u.partitionResume h) (partitionResume_ok hst hfree hlost)
  case noResume =>
    intro hno
    exact partCommand_error hm hg hopen (g := fun u => u.partitionResume h) (partitionResume_refused hno)
  case attest =>
    intro hall
    exact ⟨_, partCommand_ok hm hg hopen (g := fun u => u.attest h nonce) (attest_ok hall), report_fields ..⟩
  case owner =>
    intro hnone
    exact partCommand_ok hm hg hopen (g := fun u => u.setOwnerKey h key) (setOwnerKey_ok hnone)
  case owned =>
    intro c hc hd hp
    exact partCommand_error hm hg hopen (g := fun u => u.setOwnerKey h key) (setOwnerKey_refused hc hd hp)
  case noLoad =>
    exact partCommand_error hm hg hopen (g := fun u => u.loadImage h src.toNat len.toNat) (loadImage_noContext (hforeign hno))
  case noRetire =>
    exact partCommand_error hm hg hopen (g := fun u => u.retireImage h addr.toNat) (retireImage_noContext (hforeign hno))
  case load =>
    intro hmine hlo hhi hsrc hkey b st signed
    have heq : s.loadImage h src.toNat len.toNat = if signed then if st ≠ 0 then .error (5, st) else s.placeImage cx b
        else .error (4, 0) := loadImage_eq (hname hmine) hlo hhi hsrc hkey
    have hfail : ∀ e d, s.loadImage h src.toNat len.toNat = .error (e, d) → fails (.loadImage h src len) 0xC010 e d :=
      fun e d => partCommand_error hm hg hopen (g := fun u => u.loadImage h src.toNat len.toNat)
    have hplaced : signed → st = 0 → s.loadImage h src.toNat len.toNat = s.placeImage cx b :=
      fun hs hst => heq.trans ((if_pos hs).trans (if_neg (not_not.2 hst)))
    refine ⟨fun hs => hfail _ _ (heq.trans (if_neg hs)), fun hs hst => hfail _ _ (heq.trans ((if_pos hs).trans (if_pos hst))),
      fun hs hst ho => hfail _ _ ((hplaced hs hst).trans (placeImage_noPlace cx b ho)), ?_⟩
    intro hs hst va pa rest ho placed
    refine ⟨fun hno => hfail _ _ ((hplaced hs hst).trans (placeImage_refused ho hno)), ?_⟩
    intro hok t fresh hmap
    obtain ⟨img, tables, hva, hb, htables, hrun⟩ := placeImage_ok ho hok hmap
    exact ⟨img, tables, hva, hb, htables, partCommand_ok hm hg hopen (g := fun u => u.loadImage h src.toNat len.toNat)
      ((hplaced hs hst).trans hrun)⟩
  case retireNone =>
    intro hmine hnone
    exact partCommand_error hm hg hopen (g := fun u => u.retireImage h addr.toNat) (retireImage_unknown (hname hmine) hnone)
  case retireNamed =>
    intro hmine hnamed himg
    exact partCommand_error hm hg hopen (g := fun u => u.retireImage h addr.toNat) (retireImage_named (hname hmine) hnamed himg)

end Sys2Proof.Machine
end

section
/-! The mailbox's answers and completion records (R386 to R388), and the body of LINK_STATUS (R389). -/

namespace Sys2Proof.Machine

variable {s : State} {h : MbHdr}

/-! ## Answers -/

/-- The completion record that a command of a good header leaves in host memory (R388). -/
def completionRecord (h : MbHdr) (op status detail : Nat) : List Byte :=
  bytesOf 4 h.tag.toNat ++ bytesOf 2 status ++ bytesOf 2 detail ++ bytesOf 2 op ++ bytesOf 6 0

theorem complete_withoutRecord (hc : h.compl = 0 ∨ h.complOk = false) (op status detail : Nat) :
    s.complete h op status detail = s := by
  have hno : h.compl = 0 ∨ (!h.complOk) = true := hc.imp_right fun hf => by rw [hf]; rfl
  exact if_pos hno

theorem complete_withRecord (hc : h.compl ≠ 0) (ha : h.compl.toNat % 64 = 0) (hb : h.compl.toNat < 2 ^ 52) (op status detail : Nat) :
    s.complete h op status detail = (s.wr (hostKey + h.compl.toNat) (completionRecord h op status detail)).raiseDriver := by
  have hok : h.complOk = true := by rw [MbHdr.complOk, decide_eq_true ha, decide_eq_true hb]; rfl
  refine if_neg ?_
  rw [hok]
  simpa using hc

/-- A completion record and its vector change memory and the vectors alone. -/
theorem complete_eq (s : State) (h : MbHdr) (op status detail : Nat) :
    ∃ m v, s.complete h op status detail = { s with mem := m, msix := v } := by
  unfold State.complete
  split
  · exact ⟨s.mem, s.msix, rfl⟩
  · exact ⟨_, _, rfl⟩

/-- An answer that is not discarded: the mailbox, then the completion record. -/
theorem answer_kept (hd : s.mailbox.discard = false) (op status detail : Nat) (body : List Byte) :
    s.answer h op status detail body =
      ({ s with mailbox := .idle .success (bytesOf 4 h.tag.toNat ++ bytesOf 2 status ++ bytesOf 2 detail ++ body) }).complete
        h op status detail := by
  rw [State.answer, hd]
  rfl

theorem answer_discarded (hd : s.mailbox.discard = true) (op status detail : Nat) (body : List Byte) :
    s.answer h op status detail body = { s with mailbox := .idle .success [] } := by
  rw [State.answer, hd]
  rfl

/-- A vector that is not masked is posted, one that is masked is pending. -/
theorem raise_spec (m : Msix) (v : Nat) :
    (v ∉ m.masked → (m.raise v).sent = m.sent ++ [v]) ∧ (v ∈ m.masked → v ∈ (m.raise v).pending) := by
  unfold Msix.raise
  refine ⟨fun hv => ?_, fun hv => ?_⟩
  · rw [if_pos (by simpa using hv)]
  · rw [if_neg (by simpa using hv)]
    split
    next hp => simpa using hp
    next => simp

/-- What the completion record leaves: its first ten bytes at the completion address, and vector 0. -/
theorem complete_record (hm : MemOk s) (hc : h.compl ≠ 0) (ha : h.compl.toNat % 64 = 0) (hb : h.compl.toNat < 2 ^ 52)
    (op status detail : Nat) :
    (s.complete h op status detail).rd (2 ^ 52 + h.compl.toNat) 10
      = bytesOf 4 h.tag.toNat ++ bytesOf 2 status ++ bytesOf 2 detail ++ bytesOf 2 op ∧
    (0 ∉ s.msix.masked → (s.complete h op status detail).msix.sent = s.msix.sent ++ [0]) ∧
    (0 ∈ s.msix.masked → 0 ∈ (s.complete h op status detail).msix.pending) := by
  rw [complete_withRecord hc ha hb]
  refine ⟨?_, (raise_spec s.msix 0).1, (raise_spec s.msix 0).2⟩
  have hlen : (bytesOf 4 h.tag.toNat ++ bytesOf 2 status ++ bytesOf 2 detail ++ bytesOf 2 op).length = 10 := by
    simp only [List.length_append, length_bytesOf]
  have hrec : 0 + 10 ≤ (completionRecord h op status detail).length := by
    simp only [completionRecord, List.length_append, length_bytesOf]
    decide
  refine (rd_wr_slice hm (hostKey + h.compl.toNat) hrec).trans ?_
  rw [List.drop_zero, completionRecord, ← hlen, List.take_left']
  exact rfl

/-! ## The body of LINK_STATUS -/

/-- Places of a list that is made of pieces of 8. -/
theorem getElem?_flatMap_eights {α : Type} (f : Nat → List α) (hf : ∀ k, (f k).length = 8) {n k j : Nat} (hk : k < n) (hj : j < 8) :
    ((List.range n).flatMap f)[8 * k + j]? = (f k)[j]? := by
  induction n with
  | zero => exact absurd hk (Nat.not_lt_zero k)
  | succ n ih =>
    have hlen : ((List.range n).flatMap f).length = 8 * n := by
      simp [List.length_flatMap, hf, Nat.mul_comm]
    rw [List.range_succ, List.flatMap_append, List.flatMap_singleton]
    rcases Nat.lt_succ_iff_lt_or_eq.1 hk with hlt | rfl
    · rw [List.getElem?_append_left (by omega), ih hlt]
    · rw [List.getElem?_append_right (by omega), hlen, Nat.add_sub_cancel_left]

theorem length_status (l : Link) (now k : Nat) : (l.status now k).length = 8 := rfl

theorem length_statusBody (l : Link) (now : Nat) : ((List.range 32).flatMap (l.status now)).length = 256 := by
  simp [List.length_flatMap, length_status]

/-- The state of a port, and how often it has retried in the last second. -/
theorem statusBody_fields (l : Link) (now : Nat) {k : Nat} (hk : k < 32) :
    ((List.range 32).flatMap (l.status now))[8 * k]? = some (BitVec.ofNat 8
      ((if l.up.getLsbD k then 1 else 0) + if l.trained.getLsbD k then 2 else 0)) ∧
    ((List.range 32).flatMap (l.status now))[8 * k + 1]? = some (BitVec.ofNat 8 (min
      (l.retries.filter fun x => x.1 = k ∧ now < x.2 + 1800000000).length 255)) := by
  have hpiece : ∀ j < 8, ((List.range 32).flatMap (l.status now))[8 * k + j]? = (l.status now k)[j]? :=
    fun j hj => getElem?_flatMap_eights _ (length_status l now) hk hj
  have hlately : l.lately now k = (l.retries.filter fun x => x.1 = k ∧ now < x.2 + 1800000000).length := by
    refine congrArg List.length (List.filter_congr fun r _ => ?_)
    rw [Bool.eq_iff_iff, Bool.and_eq_true, beq_iff_eq, decide_eq_true_iff, decide_eq_true_iff]
    rfl
  refine ⟨(hpiece 0 (by decide)).trans ?_, (hpiece 1 (by decide)).trans ?_⟩
  · refine congrArg (fun n => some (BitVec.ofNat 8 n)) ?_
    cases l.up.getLsbD k <;> cases l.trained.getLsbD k <;> rfl
  · rw [← hlately]
    rfl

/-! ## Doorbells -/

/-- A doorbell of an opcode outside the set. -/
theorem mailboxUnsupported_eq {op : BitVec 16} (hm : s.mailBusy = false) (hop : op ∉ opcodes) :
    exec (.mailboxUnsupported op) s = .next (if requiredOp op then { s with mailbox := .idle .success (Config.cxlResponse op s.wall) }
      else { s with mailbox := { s.mailbox with code := .unsupported } }) := by
  have hno : opcodes.contains op = false := by simpa using hop
  change execMailboxUnsupported op s = _
  simp only [execMailboxUnsupported, hm, Bool.false_eq_true, if_false, hno]

theorem requiredOp_eq_false {op : BitVec 16} (hop : (0xC000 ≤ op ∧ op ≤ 0xC0FF) ∨ Config.cxlRequired op = false) :
    requiredOp op = false := by
  rcases hop with ⟨hlo, hhi⟩ | hno
  · rw [requiredOp, decide_eq_true hlo, decide_eq_true hhi]
    rfl
  · rw [requiredOp, hno, Bool.and_false]

theorem command_busy {op : Nat} {f : State → Cmd} (hm : s.mailBusy = true) : s.command h op f = .next s.refuseBusy := by
  simp [State.command, hm]

/-- An answer changes no more than mailbox, memory and vectors. -/
theorem answer_eq (s : State) (h : MbHdr) (op status detail : Nat) (body : List Byte) :
    ∃ x m v, s.answer h op status detail body = { s with mailbox := x, mem := m, msix := v } := by
  unfold State.answer
  split
  · exact ⟨_, s.mem, s.msix, rfl⟩
  · obtain ⟨m, v, hc⟩ := complete_eq { s with
      mailbox := .idle .success (bytesOf 4 h.tag.toNat ++ bytesOf 2 status ++ bytesOf 2 detail ++ body) } h op status detail
    exact ⟨_, m, v, hc⟩

/-- An answer that is not discarded stands in the mailbox. -/
theorem answer_mailbox (hd : s.mailbox.discard = false) (op status detail : Nat) (body : List Byte) :
    (s.answer h op status detail body).mailbox =
      .idle .success (bytesOf 4 h.tag.toNat ++ bytesOf 2 status ++ bytesOf 2 detail ++ body) := by
  obtain ⟨m, v, hc⟩ := complete_eq { s with
    mailbox := .idle .success (bytesOf 4 h.tag.toNat ++ bytesOf 2 status ++ bytesOf 2 detail ++ body) } h op status detail
  rw [answer_kept hd, hc]

/-- Without a completion address an answer leaves memory as it was. -/
theorem answer_mem (hd : s.mailbox.discard = false) (hc : h.compl = 0) (op status detail : Nat) (body : List Byte) :
    (s.answer h op status detail body).mem = s.mem := by
  rw [answer_kept hd, complete_withoutRecord (.inl hc)]

/-- Settles O51: every clause on a command is its answer, of the status that the header's limits or the command's own part
give; the record and the vector are those of `complete_record`. -/
theorem mailbox : Obligations.Mailbox := by
  unfold Obligations.Mailbox
  intro s h op hbusy hdiscard hstage code good said
  have hm : s.mailBusy = false := mailBusy_eq_false hbusy hstage
  have hgood : good → h.bad = none := fun ⟨hp, hc, hz, ha, hb⟩ => MbHdr.bad_eq_none hp hc hz ha hb
  have hsaid : ∀ (i : Instr) (st det opc : Nat) (body : List Byte),
      exec i s = .next (s.answer h opc st det body) → said i st det opc body := by
    intro i st det opc body hexec
    obtain ⟨x, m, v, heq⟩ := answer_eq s h opc st det body
    refine ⟨_, hexec, answer_mailbox hdiscard .., ?_, ?_, ?_, ?_, ?_, fun hc => answer_mem hdiscard hc .., ?completion⟩
    case completion =>
      intro hc ⟨_, _, _, ha, hb⟩ hmem
      rw [answer_kept hdiscard]
      exact complete_record (s := { s with
        mailbox := .idle .success (bytesOf 4 h.tag.toNat ++ bytesOf 2 st ++ bytesOf 2 det ++ body) }) hmem hc ha hb opc st det
    all_goals rw [heq]
  refine ⟨rfl, ?unsupported, ?required, ?busy, ?badPart, ?badCtx, ?badZero, ?identify, ?discarded, ?linkStatus⟩
  case unsupported =>
    intro hop hset
    rw [mailboxUnsupported_eq hm hop, requiredOp_eq_false hset]
    rfl
  case required =>
    intro hop
    rw [mailboxUnsupported_eq hm hop]
    split
    · exact ⟨_, rfl, rfl⟩
    · exact ⟨_, rfl, hbusy⟩
  case busy =>
    intro u hu
    refine command_busy (f := fun u => .ok (u, u.identifyBody)) ?_
    rw [State.mailBusy, Bool.or_eq_true, decide_eq_true_iff]
    exact hu
  case badPart =>
    intro hp
    exact hsaid _ _ _ _ _ (command_bad hm (f := fun u => .ok (u, u.identifyBody)) (if_pos hp))
  case badCtx =>
    intro hp hc hall
    exact hsaid _ _ _ _ _ (command_bad hm (f := fun u => .ok (u, u.identifyBody))
      ((if_neg (Nat.not_le.2 hp)).trans (if_pos ⟨hc, hall⟩)))
  case badZero =>
    intro hp hc hz
    exact hsaid _ _ _ _ _ (command_bad hm (f := fun u => .ok (u, u.identifyBody))
      ((if_neg (Nat.not_le.2 hp)).trans ((if_neg fun hbad => Nat.not_le.2 hc hbad.1).trans (if_pos hz))))
  case identify =>
    intro hg
    exact hsaid _ _ _ _ _ (command_ok hm (hgood hg) (f := fun u => .ok (u, u.identifyBody)) rfl)
  case discarded =>
    intro hg u hbusy' hdiscard' hstage'
    rw [← answer_discarded hdiscard' 0xC000 0 0 u.identifyBody (h := h)]
    exact command_ok (mailBusy_eq_false hbusy' hstage') (hgood hg) (f := fun u => .ok (u, u.identifyBody)) rfl
  case linkStatus =>
    intro hg
    refine ⟨(List.range 32).flatMap (s.link.status s.wall), hsaid _ _ _ _ _ ?_, length_statusBody .., fun k hk =>
      statusBody_fields s.link s.wall hk⟩
    exact command_ok hm (hgood hg) (f := fun u => .ok (u, (List.range 32).flatMap (u.link.status u.wall))) rfl

end Sys2Proof.Machine
end

section
/-! The register blocks of partitions and contexts (R398 to R401, R406, R408, R413): which register a write reaches, and what a
write that is refused leaves. -/

namespace Sys2Proof.Machine

variable {s : State} {p : BitVec 4} {cx : BitVec 6}

/-- Two changes of a partition that give it the same state are the same. -/
theorem mapPart_congr {f g : Part → Part} (h : f s.parts[p.toNat] = g s.parts[p.toNat]) : s.mapPart p f = s.mapPart p g := by
  rw [State.mapPart, State.mapPart, h]

theorem parts_mapPart (f : Part → Part) : (s.mapPart p f).parts[p.toNat] = f s.parts[p.toNat] := by
  simp [State.mapPart]

theorem ctxs_mapCtx (f : Ctx → Ctx) : (s.mapCtx cx f).ctxs[cx.toNat] = f s.ctxs[cx.toNat] := by
  simp [State.mapCtx]

/-! ## Register writes -/

/-- A write of as many bytes as the register has, at its place, gives it the value written. -/
theorem patched_whole {α : Type} (r : Reg α) (x : α) {val : Nat} (hv : val < 256 ^ r.size) :
    r.patched x r.off r.size val = val := by
  have hnew : (List.range r.size).map (fun k =>
      if r.off ≤ r.off + k ∧ r.off + k < r.off + r.size then (bytesOf r.size val).getD (r.off + k - r.off) 0
      else (bytesOf r.size (r.get x)).getD k 0) = bytesOf r.size val := by
    refine List.ext_getElem (by simp [length_bytesOf]) fun k hk hk' => ?_
    have hlt : k < r.size := by simpa using hk
    rw [List.getElem_map, List.getElem_range, if_pos ⟨by omega, by omega⟩, Nat.add_sub_cancel_left,
      List.getD_eq_getElem _ _ hk']
  rw [Reg.patched, hnew, ofBytes_bytesOf, Nat.mod_eq_of_lt hv]

/-- Registers that a write does not touch keep their values. -/
theorem foldl_writePartReg_untouched {o n val : Nat} (l : List (Reg Part)) (h : l.all (fun r => !r.touched o n) = true) :
    l.foldl (fun s r => s.writePartReg p o n val r) s = s := by
  induction l generalizing s with
  | nil => rfl
  | cons r l ih =>
    obtain ⟨hr, hl⟩ := Bool.and_eq_true_iff.1 (List.all_cons ▸ h)
    rw [List.foldl_cons, State.writePartReg, if_pos hr]
    exact ih hl

/-- A write that touches one register of the block is the write of that register. -/
theorem foldl_writePartReg_single {o n val : Nat} {before after : List (Reg Part)} {r : Reg Part}
    (hb : before.all (fun r => !r.touched o n) = true) (ha : after.all (fun r => !r.touched o n) = true) :
    (before ++ r :: after).foldl (fun s r => s.writePartReg p o n val r) s = s.writePartReg p o n val r := by
  rw [List.foldl_append, foldl_writePartReg_untouched before hb, List.foldl_cons, foldl_writePartReg_untouched after ha]

/-- A write of a whole register: refused outside its limit and, where it is fixed, while the partition is enabled. -/
theorem writePartReg_whole {r : Reg Part} {val : Nat} (hn : 0 < r.size) (hv : val < 256 ^ r.size) :
    s.writePartReg p r.off r.size val r =
      if r.ok val = false ∨ (r.fixed = true ∧ s.parts[p.toNat].enabled = true) then s.writeErr p else s.mapPart p (r.set val) := by
  have ht : r.touched r.off r.size = true := by
    rw [Reg.touched, rangesMeet, decide_eq_true (by omega)]
    rfl
  have hc : (!r.ok val || r.fixed && s.parts[p.toNat].enabled) = true ↔
      r.ok val = false ∨ (r.fixed = true ∧ s.parts[p.toNat].enabled = true) := by simp
  simp only [State.writePartReg, patched_whole r _ hv, ht, Bool.not_true, Bool.false_eq_true, if_false, hc]

/-- A wide write at an aligned place of a partition's block. -/
theorem registerWrite_part (o : Nat) (val : DWord) (ho : o < 0x1000) (ha : o % 8 = 0) :
    exec (.registerWrite (BitVec.ofNat 18 (p.toNat * 0x1000 + o)) true val) s = .next (s.writePart p o 8 val.toNat) := by
  have hp := p.isLt
  have hoff : (BitVec.ofNat 18 (p.toNat * 0x1000 + o)).toNat = p.toNat * 0x1000 + o := by
    rw [BitVec.toNat_ofNat, Nat.mod_eq_of_lt (by omega)]
  have hpart : BitVec.ofNat 4 ((p.toNat * 0x1000 + o) / 0x1000) = p := by
    have hdiv : (p.toNat * 0x1000 + o) / 0x1000 = p.toNat := by omega
    rw [hdiv, BitVec.ofNat_toNat, BitVec.setWidth_eq]
  have hin : (p.toNat * 0x1000 + o) % 0x1000 = o := by omega
  change Host.Outcome.next (s.barWrite _ 8 val.toNat) = _
  rw [State.barWrite, hoff, if_neg (by omega), if_pos (by omega), hpart, hin]

/-- A write of the timer register. -/
theorem writePart_timer (val : DWord) : s.writePart p 0x38 8 val.toNat = s.mapPart p fun y => { y with timer := val.toNat } := by
  have hsingle := foldl_writePartReg_single (s := s) (p := p) (o := 0x38) (n := 8) (val := val.toNat)
    (before := (s.partRegs p).take 13) (after := (s.partRegs p).drop 14)
    (r := ⟨0x38, 8, (·.timer), fun _ => true, false, fun v x => { x with timer := v }⟩) rfl rfl
  refine Eq.trans hsingle ((writePartReg_whole (r := ⟨0x38, 8, (·.timer), fun _ => true, false, fun v x => { x with timer := v }⟩)
    (by decide) val.isLt).trans (if_neg ?_))
  simp

/-- A write of the trap queue's address. -/
theorem writePart_ring (val : DWord) : s.writePart p 0x20 8 val.toNat =
    if val.toNat % 16384 ≠ 0 ∨ s.parts[p.toNat].enabled = true then s.writeErr p
    else s.mapPart p fun y => { y with ring := val.toNat } := by
  have hsingle := foldl_writePartReg_single (s := s) (p := p) (o := 0x20) (n := 8) (val := val.toNat)
    (before := (s.partRegs p).take 10) (after := (s.partRegs p).drop 11)
    (r := ⟨0x20, 8, (·.ring), fun v => v % 16384 == 0, true, fun v x => { x with ring := v }⟩) rfl rfl
  refine Eq.trans hsingle ((writePartReg_whole
    (r := ⟨0x20, 8, (·.ring), fun v => v % 16384 == 0, true, fun v x => { x with ring := v }⟩) (by decide) val.isLt).trans ?_)
  simp

/-! ## Contexts -/

/-- The fields of a control word of a context block. -/
theorem controlWord_fields (p : BitVec 4) (sup : Bool) :
    let v : Word := BitVec.ofNat 32 (1 + (if sup then 2 else 0) + 256 * p.toNat)
    v.extractLsb' 8 4 = p ∧ v.getLsbD 0 = true ∧ v.getLsbD 1 = sup ∧ v &&& 0xFFFFF0FC = 0 := by
  revert p sup
  decide

/-- A context that is not defined yet, and its control word: refused outside the limits of its block, and as a second supervisor
context. -/
theorem contextDefine_new (p : BitVec 4) (sup : Bool) (hd : s.ctxs[cx.toNat].defined = false) :
    exec (.contextDefine cx (BitVec.ofNat 32 (1 + (if sup then 2 else 0) + 256 * p.toNat))) s = .next
      (if s.ctxs[cx.toNat].limits = false ∨ (sup = true ∧ ∃ y, s.supervisorOf p = some y ∧ y ≠ cx) then s.writeErr p
      else s.defineCtx cx sup p) := by
  obtain ⟨hp, h0, h1, hz⟩ := controlWord_fields p sup
  have hsecond : (!s.ctxs[cx.toNat].limits || sup && ((s.supervisorOf p).map (· != cx)).getD false) = true ↔
      s.ctxs[cx.toNat].limits = false ∨ (sup = true ∧ ∃ y, s.supervisorOf p = some y ∧ y ≠ cx) := by
    cases hs : s.supervisorOf p <;> simp
  change Host.Outcome.next (s.writeCtxControl cx _) = _
  simp only [State.writeCtxControl, hp, h0, h1, hz, hd, ne_eq, not_true_eq_false, Bool.false_eq_true, false_and, or_self, if_false,
    if_true, hsecond]

/-- Entries of 16 bytes, written one after another. -/
def State.writeEntries (s : State) (table : Nat) (f : Nat → Nat) (l : List Nat) : State :=
  l.foldl (fun (s : State) k => s.wrNat (table + 16 * k) 16 (f k)) s

theorem writeEntries_memOnly (table : Nat) (f : Nat → Nat) (l : List Nat) (s : State) :
    ∃ m, s.writeEntries table f l = { s with mem := m } :=
  foldl_memOnly (fun _ _ => ⟨_, rfl⟩) l s

theorem memOk_writeEntries (table : Nat) (f : Nat → Nat) (l : List Nat) (s : State) (hm : MemOk s) : MemOk (s.writeEntries table f l) := by
  induction l generalizing s with
  | nil => exact hm
  | cons k l ih => exact ih _ (s.wf_wr _ _ hm)

/-- Each entry of a table holds what was written for it. -/
theorem rdNat_writeEntries {table : Nat} {f : Nat → Nat} (hm : MemOk s) {n k : Nat} (hk : k < n) :
    (s.writeEntries table f (List.range n)).rdNat (table + 16 * k) 16 = f k % 256 ^ 16 := by
  induction n with
  | zero => exact absurd hk (Nat.not_lt_zero k)
  | succ n ih =>
    have hstep : s.writeEntries table f (List.range (n + 1)) =
        (s.writeEntries table f (List.range n)).wr (table + 16 * n) (bytesOf 16 (f n)) := by
      rw [State.writeEntries, List.range_succ, List.foldl_append]
      rfl
    have hlen : (bytesOf 16 (f n)).length = 16 := length_bytesOf ..
    rw [hstep]
    rcases Nat.lt_succ_iff_lt_or_eq.1 hk with hlt | rfl
    · rw [State.rdNat, rd_wr_apart (by omega)]
      exact ih hlt
    · have hrd := rd_wr_all (key := table + 16 * k) (bs := bytesOf 16 (f k)) (memOk_writeEntries table f (List.range k) s hm)
      rw [hlen] at hrd
      rw [State.rdNat, hrd, ofBytes_bytesOf]

/-- A new context's block, before its action table is filled. -/
def State.newCtx (s : State) (cx : BitVec 6) (sup : Bool) (p : BitVec 4) : State :=
  { s.mapCtx cx fun c => { c with
      defined := true, supervisor := sup, part := p, ev := 0, err := 0, binds := [], model := none, images := [], tables := [] } with
    evSets := s.evSets.filter fun e => e.1 != cx
    areas := s.areas.filter fun a => a.1 != cx
    heldAreas := s.heldAreas.filter fun h => h.1 != cx }

/-- The default action of R328 for a cause. -/
def defaultAction (k : Nat) : Nat := if parkedByDefault.contains k then 2 else 0

theorem newCtx_block (s : State) (cx : BitVec 6) (sup : Bool) (p : BitVec 4) :
    (s.newCtx cx sup p).ctxs[cx.toNat] = { s.ctxs[cx.toNat] with
      defined := true, supervisor := sup, part := p, ev := 0, err := 0, binds := [], model := none, images := [], tables := [] } :=
  ctxs_mapCtx (s := s) fun c => { c with
    defined := true, supervisor := sup, part := p, ev := 0, err := 0, binds := [], model := none, images := [], tables := [] }

/-- A context is defined by its block and, where there is memory for it, its action table. -/
theorem defineCtx_eq (sup : Bool) (p : BitVec 4) (hb : s.backedPa s.ctxs[cx.toNat].action = true) :
    s.defineCtx cx sup p = (s.newCtx cx sup p).writeEntries s.ctxs[cx.toNat].action defaultAction (List.range 64) := by
  have haction : (s.newCtx cx sup p).ctxs[cx.toNat].action = s.ctxs[cx.toNat].action := by rw [newCtx_block]
  refine Eq.trans (congrArg (s.newCtx cx sup p).defaultActions haction) ?_
  exact if_pos hb

/-- A context that is defined: its block, and its action table with the defaults. -/
theorem defineCtx_spec (sup : Bool) (p : BitVec 4) (hb : s.backedPa s.ctxs[cx.toNat].action = true) (hm : MemOk s) :
    (s.defineCtx cx sup p).ctxs[cx.toNat] = { s.ctxs[cx.toNat] with
      defined := true, supervisor := sup, part := p, ev := 0, err := 0, binds := [], model := none, images := [], tables := [] } ∧
    ∀ k, k < 64 → (s.defineCtx cx sup p).rdNat (s.ctxs[cx.toNat].action + 16 * k) 16 = defaultAction k := by
  rw [defineCtx_eq sup p hb]
  refine ⟨?_, fun k hk => ?_⟩
  · obtain ⟨m, hmem⟩ := writeEntries_memOnly s.ctxs[cx.toNat].action defaultAction (List.range 64) (s.newCtx cx sup p)
    rw [hmem]
    exact newCtx_block ..
  · refine (rdNat_writeEntries (s := s.newCtx cx sup p) hm hk).trans (Nat.mod_eq_of_lt ?_)
    unfold defaultAction
    split <;> decide

/-- A context of a record, or of a gang that holds the core, is busy. -/
theorem ctxBusy_eq_true (h : (∃ y ∈ s.recs, y.ctx = cx) ∨ (∃ r, s.bank.run = some r ∧ r.ctx = cx) ∨
    ∃ b r, s.shadow = some b ∧ b.run = some r ∧ r.ctx = cx) : s.ctxBusy cx = true := by
  rw [State.ctxBusy, Bool.or_eq_true, Bool.or_eq_true]
  rcases h with ⟨y, hy, hc⟩ | ⟨r, hr, hc⟩ | ⟨b, r, hb, hr, hc⟩
  · exact .inl (.inl (List.any_eq_true.2 ⟨y, hy, beq_iff_eq.2 hc⟩))
  · exact .inl (.inr (by simp [hr, hc]))
  · exact .inr (by simp [hb, hr, hc])

/-- The control word of a busy context is refused. -/
theorem contextDefine_busy (v : Word) (hd : s.ctxs[cx.toNat].defined = true) (hb : s.ctxBusy cx = true) :
    exec (.contextDefine cx v) s = .next (s.writeErr s.ctxs[cx.toNat].part) := by
  change Host.Outcome.next (s.writeCtxControl cx v) = _
  rw [State.writeCtxControl, if_pos (.inr ⟨hd, hb⟩), if_pos hd]

/-- So is a write of its table base. -/
theorem registerWrite_busy (val : DWord) (hd : s.ctxs[cx.toNat].defined = true) (hb : s.ctxBusy cx = true) :
    exec (.registerWrite (BitVec.ofNat 18 (0x10000 + cx.toNat * 0x80 + 8)) true val) s = .next (s.writeErr s.ctxs[cx.toNat].part) := by
  have hc := cx.isLt
  have hoff : (BitVec.ofNat 18 (0x10000 + cx.toNat * 0x80 + 8)).toNat = 0x10000 + cx.toNat * 0x80 + 8 := by
    rw [BitVec.toNat_ofNat, Nat.mod_eq_of_lt (by omega)]
  have hctx : BitVec.ofNat 6 ((0x10000 + cx.toNat * 0x80 + 8 - 0x10000) / 0x80) = cx := by
    have hdiv : (0x10000 + cx.toNat * 0x80 + 8 - 0x10000) / 0x80 = cx.toNat := by omega
    rw [hdiv, BitVec.ofNat_toNat, BitVec.setWidth_eq]
  have hin : (0x10000 + cx.toNat * 0x80 + 8 - 0x10000) % 0x80 = 8 := by omega
  change Host.Outcome.next (s.barWrite _ 8 val.toNat) = _
  rw [State.barWrite, hoff, if_neg (by omega), if_neg (by omega), if_pos (by omega), hctx, hin, State.writeCtx,
    if_neg (by decide), if_pos ⟨hd, hb⟩]

/-! ## Doorbells -/

/-- The fields of a doorbell's word. -/
theorem doorbellWord_core (v : Word) : (v.setWidth 11).toNat = v.toNat % 2048 := BitVec.toNat_setWidth ..

theorem doorbellWord_sub (v : Word) :
    ((v.extractLsb' 16 7).setWidth 8 : Byte) = BitVec.ofNat 8 (v.toNat / 65536 % 128) := by
  refine BitVec.eq_of_toNat_eq ?_
  simp only [BitVec.toNat_setWidth, BitVec.extractLsb'_toNat, BitVec.toNat_ofNat, Nat.shiftRight_eq_div_pow]

/-- A doorbell of an enabled partition, for a core that there is. -/
theorem serviceDoorbell_eq (v : Word) (hc : v.toNat % 2048 < 1536) (he : s.parts[p.toNat].enabled = true) :
    exec (.serviceDoorbell p v) s = .next
      (if v.toNat % 2048 = s.coreId ∧ s.runsPart p = true then s.postService p (BitVec.ofNat 8 (v.toNat / 65536 % 128))
      else if s.runsElsewhere p (v.toNat % 2048) && !s.parts[p.toNat].resetting then s
      else s.queueDoorbell p (v.toNat % 2048 / 64) (BitVec.ofNat 8 (v.toNat / 65536 % 128))) := by
  change Host.Outcome.next (s.doorbell p v) = _
  simp only [State.doorbell, doorbellWord_core, doorbellWord_sub, if_neg (Nat.not_le.2 hc), he, Bool.not_true, Bool.false_eq_true,
    if_false]

/-- During a reset a doorbell enters the queue of its die, where there is room, and waits. -/
theorem queueDoorbell_resetting (die : Nat) (sub : Byte) (hr : s.parts[p.toNat].resetting = true) :
    s.queueDoorbell p die sub = if (s.parts[p.toNat].doorbells.filter fun q => q.1 == die).length < 64 then
      s.mapPart p fun y => { y with doorbells := y.doorbells ++ [(die, sub)] } else s.writeErr p := by
  have hpump : ∀ f : Part → Part, (f s.parts[p.toNat]).resetting = true → (s.mapPart p f).pump p = s.mapPart p f :=
    fun f hf => if_pos ((congrArg Part.resetting (parts_mapPart f)).trans hf)
  unfold State.queueDoorbell
  by_cases hroom : (s.parts[p.toNat].doorbells.filter fun q => q.1 == die).length < 64
  · rw [if_neg (Nat.not_le.2 hroom), if_pos hroom, hpump (fun x => { x with doorbells := x.doorbells ++ [(die, sub)] }) hr]
  · rw [if_pos (Nat.not_lt.1 hroom), if_neg hroom]
    rfl

/-- A request that is posted during a reset enters the queue of the core's die. -/
theorem postService_resetting {sub : Byte} (hr : s.parts[p.toNat].resetting = true) (hs : sub < 0x80) :
    s.postService p sub = s.queueDoorbell p s.die sub := by
  rw [State.postService, if_pos hr, State.queueRequest, if_neg (BitVec.not_le.2 hs)]

/-! ## Invalidation -/

theorem invalidationWord_scope (v : Word) : (v.extractLsb' 8 2).toNat = v.toNat / 256 % 4 := by
  simp only [BitVec.extractLsb'_toNat, Nat.shiftRight_eq_div_pow]

theorem invalidationWord_ctx (v : Word) : (v.setWidth 6 : BitVec 6) = BitVec.ofNat 6 v.toNat := by
  refine BitVec.eq_of_toNat_eq ?_
  rw [BitVec.toNat_setWidth, BitVec.toNat_ofNat]

theorem invalidationCommand_refused (v : Word) (h : s.parts[p.toNat].invBusy = true ∨ v.toNat / 256 % 4 = 3) :
    exec (.invalidationCommand p v) s = .next (s.writeErr p) := by
  change Host.Outcome.next (s.invalidateCmd p v) = _
  simp only [State.invalidateCmd, invalidationWord_scope]
  rw [if_pos (or_assoc.1 (.inl h))]

theorem invalidationCommand_ok (v : Word) (hb : s.parts[p.toNat].invBusy = false)
    (h : v.toNat / 256 % 4 = 2 ∨ (v.toNat / 256 % 4 < 2 ∧ s.ctxs[(BitVec.ofNat 6 v.toNat).toNat].defined = true ∧
      s.ctxs[(BitVec.ofNat 6 v.toNat).toNat].part = p)) :
    exec (.invalidationCommand p v) s = .next
      ((s.invalidate p (v.toNat / 256 % 4) (BitVec.ofNat 6 v.toNat) s.parts[p.toNat].invAddr.toNat).mapPart p
        fun x => { x with invBusy := true, invCmd := v &&& 0x33F }) := by
  have hno : ¬ (s.parts[p.toNat].invBusy = true ∨ v.toNat / 256 % 4 = 3 ∨ (v.toNat / 256 % 4 ≠ 2 ∧
      (!(s.ctxs[(BitVec.ofNat 6 v.toNat).toNat].defined && s.ctxs[(BitVec.ofNat 6 v.toNat).toNat].part == p)) = true)) := by
    rcases h with h2 | ⟨hlt, hd, hp⟩
    · simp [hb, h2]
    · have h3 : v.toNat / 256 % 4 ≠ 3 := by omega
      simp only [hb, h3, hd, hp, beq_self_eq_true, Bool.and_self, Bool.not_true, Bool.false_eq_true, and_false, or_self,
        not_false_eq_true]
  change Host.Outcome.next (s.invalidateCmd p v) = _
  simp only [State.invalidateCmd, invalidationWord_scope, invalidationWord_ctx]
  rw [if_neg hno]

/-- The translations that an invalidation names, by its scope. -/
theorem named_by_scope (scope : Nat) (va : Nat) (e : TlbEnt) : s.named p scope cx va e = true ↔
    if scope = 0 then e.ctx = cx ∧ e.va ≤ va ∧ va < e.va + e.size
    else if scope = 1 then e.ctx = cx else s.ctxs[e.ctx.toNat].part = p := by
  match scope with
  | 0 => simp [State.named, and_assoc]
  | 1 => simp [State.named]
  | n + 2 => simp [State.named]

/-! ## Counters -/

/-- A counter that is cleared holds what its cycle counts; the others are as before. -/
theorem counterClear_spec (die : BitVec 5) {n : Nat} (hn : n < 10) :
    ∃ t, exec (.counterClear die (BitVec.ofNat 8 (8 * n))) s = .next t ∧
      ∀ k, k < 24 → ∀ h, s.health.toList[k]? = some h → t.health.toList[k]? = some
        (if k = die.toNat then { h with
          counters := h.counters.set n ((s.tally.filter fun y => y.1 = die.toNat ∧ y.2.1 = n).map (·.2.2)).sum } else h) := by
  have hoff : (BitVec.ofNat 8 (8 * n)).toNat = 8 * n := by rw [BitVec.toNat_ofNat, Nat.mod_eq_of_lt (by omega)]
  have hdiv : 8 * n / 8 = n := by omega
  have htally : s.tally.filter (fun t => t.1 == die.toNat && t.2.1 == n) = s.tally.filter fun y => y.1 = die.toNat ∧ y.2.1 = n := by
    refine List.filter_congr fun t _ => ?_
    rw [Bool.eq_iff_iff, Bool.and_eq_true, beq_iff_eq, beq_iff_eq, decide_eq_true_iff]
  refine ⟨{ s with health := s.health.mapIdx fun i h => if i = die.toNat then { h with
    counters := h.counters.set n ((s.tally.filter fun y => y.1 = die.toNat ∧ y.2.1 = n).map (·.2.2)).sum } else h }, ?_, ?_⟩
  · change Host.Outcome.next (s.clearCounter die.toNat (BitVec.ofNat 8 (8 * n)).toNat) = _
    rw [State.clearCounter, hoff, if_pos (by omega), hdiv, htally]
  · intro k hk h hget
    have hlt : k < s.health.toList.length := by simpa using hk
    have hval : s.health.toList[k] = h := Option.some.inj ((List.getElem?_eq_getElem hlt).symm.trans hget)
    rw [Vector.toList_mapIdx, List.getElem?_mapIdx, hget]
    rfl

/-- Settles O55: each clause is the equation of its register, of the context's definition, of the doorbell or of the
invalidation command, at the branch that its hypotheses choose. -/
theorem partitionRegisters : Obligations.PartitionRegisters := by
  unfold Obligations.PartitionRegisters
  intro s p cx v die n sup x c err core sub icx scope drops
  refine ⟨?enable, ?disable, rfl, ?timer, ?ring, ?ringBad, ?define, ?defineBad, ?second, ?busy, ?noCore, ?off, ?own, ?elsewhere,
    ?held, ?invBad, ?inv, ?invDone, ?invWaits, ?counter⟩
  case enable =>
    refine congrArg Host.Outcome.next (mapPart_congr ?_)
    cases he : s.parts[p.toNat].enabled
    · rfl
    · rw [if_pos rfl, Bool.not_true, Bool.and_false, if_neg Bool.false_ne_true, ← he]
  case disable => rfl
  case timer =>
    intro val
    rw [registerWrite_part 0x38 val (by decide) (by decide), writePart_timer]
  case ring =>
    intro val hal hoff
    have hok : ¬ (val.toNat % 16384 ≠ 0 ∨ s.parts[p.toNat].enabled = true) := by
      rintro (hbad | hon)
      · exact hbad hal
      · exact Bool.false_ne_true (hoff.symm.trans hon)
    rw [registerWrite_part 0x20 val (by decide) (by decide), writePart_ring, if_neg hok]
  case ringBad =>
    intro val hbad
    rw [registerWrite_part 0x20 val (by decide) (by decide), writePart_ring, if_pos hbad]
    rfl
  case define =>
    intro hd hl hb hm hone
    have hok : ¬ (s.ctxs[cx.toNat].limits = false ∨ (sup = true ∧ ∃ y, s.supervisorOf p = some y ∧ y ≠ cx)) := by
      rintro (hlim | ⟨hsup, y, hy, hne⟩)
      · exact Bool.false_ne_true (hlim.symm.trans hl)
      · exact (hone y hy).elim (fun hf => Bool.false_ne_true (hf.symm.trans hsup)) hne
    obtain ⟨hblock, htable⟩ := defineCtx_spec sup p hb hm
    exact ⟨_, (contextDefine_new p sup hd).trans (congrArg Host.Outcome.next (if_neg hok)), hblock, htable 6 (by decide),
      htable 7 (by decide)⟩
  case defineBad =>
    intro hd hl
    exact (contextDefine_new p false hd).trans (congrArg Host.Outcome.next (if_pos (.inl hl)))
  case second =>
    intro hd y hy hne
    exact (contextDefine_new p true hd).trans (congrArg Host.Outcome.next (if_pos (.inr ⟨rfl, y, hy, hne⟩)))
  case busy =>
    intro hd hbusy bit7
    exact ⟨contextDefine_busy v hd (ctxBusy_eq_true hbusy), fun val => registerWrite_busy val hd (ctxBusy_eq_true hbusy)⟩
  case noCore =>
    intro hcore
    exact congrArg Host.Outcome.next (if_pos (by rw [doorbellWord_core]; exact hcore))
  case off =>
    intro hcore hoff
    have hlt : ¬ 1536 ≤ (v.setWidth 11).toNat := by rw [doorbellWord_core]; exact Nat.not_le.2 hcore
    exact congrArg Host.Outcome.next ((if_neg hlt).trans (if_pos (by rw [hoff]; rfl)))
  case own =>
    intro hown hcore hon hopen hruns
    rw [serviceDoorbell_eq v hcore hon, if_pos ⟨hown, hruns⟩, State.postService, if_neg (by rw [hopen]; exact Bool.false_ne_true)]
  case elsewhere =>
    intro hother hcore hon hopen htaken
    have helse : (s.runsElsewhere p core && !s.parts[p.toNat].resetting) = true := by
      rw [hopen, State.runsElsewhere, bne_iff_ne.2 hother, List.contains_iff_mem.2 htaken]
      simp
    rw [serviceDoorbell_eq v hcore hon, if_neg fun h => hother h.1, if_pos helse]
  case held =>
    intro hcore hon hreset hlow
    have hsub : sub < 0x80 := by
      rw [BitVec.lt_def, BitVec.toNat_ofNat]
      exact Nat.lt_of_le_of_lt (Nat.mod_le _ _) (Nat.mod_lt _ (by decide))
    rw [serviceDoorbell_eq v hcore hon]
    split
    next hown =>
      have hdie : core / 64 = s.die := by
        change v.toNat % 2048 / 64 = s.die
        rw [hown.1, State.coreId]
        omega
      rw [postService_resetting hreset hsub, queueDoorbell_resetting s.die _ hreset, hdie]
      rfl
    next hnot =>
      rw [if_neg (by rw [hreset, Bool.not_true, Bool.and_false]; exact Bool.false_ne_true), queueDoorbell_resetting _ _ hreset]
      rfl
  case invBad => exact invalidationCommand_refused v
  case inv =>
    intro hidle hok
    obtain ⟨w, ws, fs, hdrop⟩ := invalidate_eq s p scope icx x.invAddr.toNat
    refine ⟨_, invalidationCommand_ok v hidle hok, congrArg Part.invBusy (parts_mapPart _), ?_, ?_, fun e => ?_⟩
    · rw [State.mapPart_mem, hdrop]
    · rw [State.mapPart_bank, hdrop]
    · rw [State.mapPart_tlb, hdrop]
      simp only [List.mem_filter, Bool.not_eq_true', ← Bool.not_eq_true, named_by_scope]
      rfl
  case invDone =>
    intro hs
    exact congrArg Host.Outcome.next (if_pos hs)
  case invWaits =>
    intro hs
    exact congrArg Host.Outcome.next (if_neg (by rw [hs]; exact Bool.false_ne_true))
  case counter =>
    intro _ hn now
    exact counterClear_spec die hn

end Sys2Proof.Machine
end

section
/-! Issue of copies (R284, R285, R287, R289, R295): the copy instructions at their block, and the instructions that wait for a
copy. -/

namespace Sys2Proof.Machine

variable {s : State} {d a : Opnd} {bp : BitVec 4} {off : BitVec 23} {k : CopyKind} {va : DWord} {ch : BitVec 2}

/-- The copy instructions and the kinds of their copies. -/
def copyInstrs (d : Opnd) (bp : BitVec 4) (off : BitVec 23) : List (CopyKind × Instr) :=
  [(.cpy, .cpy d bp off), (.cpyg, .cpyg d bp off), (.cpys, .cpys d bp off), (.cpymc, .cpymc d bp off), (.cpred, .cpred d bp off)]

theorem exec_copyInstr {p : CopyKind × Instr} (hp : p ∈ copyInstrs d bp off) (s : State) :
    exec p.2 s = s.copyIssue p.1 d bp off := by
  simp only [copyInstrs, List.mem_cons, List.not_mem_nil, or_false] at hp
  rcases hp with rfl | rfl | rfl | rfl | rfl <;> rfl

/-- A block that passes its checks has been read at its key. -/
theorem blockAt_of_copyBlock {b : CopyBlk} (h : s.copyBlock k va = .ok b) : ∃ key, s.blockAt va = .ok key := by
  unfold State.copyBlock at h
  split at h
  · exact absurd h (by simp)
  next key hkey => exact ⟨key, hkey⟩

/-- What a copy does to its channel as it enters it. -/
theorem copyIssue_ok {b : CopyBlk} (hb : Readable s (baseOp bp) .w64) (hs : s.serving = false) (ho : Orderly s)
    (hm : Mapped s (s.val64 (baseOp bp) + off.setWidth 64))
    (h : s.copyBlock k (s.val64 (baseOp bp) + off.setWidth 64) = .ok b) (hroom : (s.bank.chan b.chan).queue.length < 16) :
    s.copyIssue k d bp off = .next
      ((s.mapBank fun x => x.enterCopy b.chan fun id n => newCopy k b id s.cur.bun.ipc none 0 0 0 n).putToken d false
        ((s.bank.chan b.chan).next.setWidth 64)) := by
  obtain ⟨key, hkey⟩ := blockAt_of_copyBlock h
  simp only [State.copyIssue, State.unserved_off hs, rdBase_ok hb, bind, Except.bind, hkey, h, State.atBlock_orderly ho hm,
    if_neg (Nat.not_le.2 hroom), pure, Except.pure, finish_ok]

theorem copyIssue_full {b : CopyBlk} (hb : Readable s (baseOp bp) .w64) (hs : s.serving = false) (ho : Orderly s)
    (hm : Mapped s (s.val64 (baseOp bp) + off.setWidth 64))
    (h : s.copyBlock k (s.val64 (baseOp bp) + off.setWidth 64) = .ok b) (hfull : 16 ≤ (s.bank.chan b.chan).queue.length) :
    s.copyIssue k d bp off = .next { s with verdict := .stall .full } := by
  obtain ⟨key, hkey⟩ := blockAt_of_copyBlock h
  simp only [State.copyIssue, State.unserved_off hs, rdBase_ok hb, bind, Except.bind, hkey, h, State.atBlock_orderly ho hm,
    if_pos hfull, finish_wait]

/-- The first field that fails is the one that the block is refused for. -/
theorem copyBlock_refused {key n : Nat} {l l' : List (Nat × Bool)} (ho : Orderly s) (hm : Mapped s va) (hr : BlockRead s va key 64)
    (hc : s.copyChecks k (s.rd key 64) = l ++ (n, true) :: l') (hl : ∀ e ∈ l, e.2 = false) :
    s.copyBlock k va = s.trapNow 0x12 (BitVec.ofNat 8 (0x80 + n)) va := by
  have hfind : (l ++ (n, true) :: l').find? (·.2) = some (n, true) := by
    rw [List.find?_append, List.find?_eq_none.2 fun e he => by rw [hl e he]; exact Bool.false_ne_true]
    rfl
  simp only [State.copyBlock, State.blockAt_ok ho hr, State.atBlock_orderly ho hm, hc, hfind]

theorem copyIssue_refused {key n : Nat} {l l' : List (Nat × Bool)} (hb : Readable s (baseOp bp) .w64) (hs : s.serving = false)
    (ho : Orderly s) (hm : Mapped s (s.val64 (baseOp bp) + off.setWidth 64))
    (hr : BlockRead s (s.val64 (baseOp bp) + off.setWidth 64) key 64)
    (hc : s.copyChecks k (s.rd key 64) = l ++ (n, true) :: l') (hl : ∀ e ∈ l, e.2 = false) :
    s.copyIssue k d bp off = .next { s.takeTrap (s.trapAt 0x12 (BitVec.ofNat 8 (0x80 + n))
      (s.val64 (baseOp bp) + off.setWidth 64)) with verdict := .trapped false } := by
  have hblock := copyBlock_refused ho hm hr hc hl
  rw [State.trapNow] at hblock
  simp only [State.copyIssue, State.unserved_off hs, rdBase_ok hb, bind, Except.bind, State.blockAt_ok ho hr, hblock]
  exact finish_trapNow ..

/-- `cpwait`, by whether its identifier is given and the done mark has reached it. -/
theorem execCpwait_eq (ha : Readable s a .w32) (hs : s.serving = false) :
    exec (.cpwait d ch a) s = s.finish
      (if (s.val32 a - (s.bank.chan ch).next).toNat < 2 ^ 31 then s.trapNow 0x12 0x01 0
      else if ((s.bank.chan ch).done - s.val32 a).toNat < 2 ^ 31 then .ok (s.putToken d false ((s.bank.chan ch).done.setWidth 64))
      else .error (.wait .copy)) := by
  change execCpwait d ch a s = _
  simp only [execCpwait, State.unserved_off hs, rd32_ok ha, bind, Except.bind, idAfter, decide_eq_true_eq, pure, Except.pure]

/-- `cpdone`, likewise. -/
theorem execCpdone_eq (ha : Readable s a .w32) (hs : s.serving = false) :
    exec (.cpdone d ch a) s = s.finish
      (if (s.val32 a - (s.bank.chan ch).next).toNat < 2 ^ 31 then s.trapNow 0x12 0x01 0
      else .ok (s.putToken d false (if ((s.bank.chan ch).done - s.val32 a).toNat < 2 ^ 31 then 1 else 0))) := by
  have hbit : BitVec.ofNat 64 (bit (idAfter (s.bank.chan ch).done (s.val32 a)))
      = if ((s.bank.chan ch).done - s.val32 a).toNat < 2 ^ 31 then 1 else 0 := by
    unfold idAfter bit
    by_cases h : ((s.bank.chan ch).done - s.val32 a).toNat < 2 ^ 31
    · rw [decide_eq_true h, if_pos h]
      rfl
    · rw [decide_eq_false h, if_neg h]
      rfl
  change execCpdone d ch a s = _
  simp only [execCpdone, State.unserved_off hs, rd32_ok ha, bind, Except.bind, hbit, pure, Except.pure]
  simp only [idAfter, decide_eq_true_eq]

/-- Settles O39: the copy instructions share one issue, and `cpwait` and `cpdone` branch on the two comparisons of identifiers. -/
theorem copyIssue : Obligations.CopyIssue := by
  unfold Obligations.CopyIssue
  intro s d a bp off ch key hb ha hs ho va hm c x after fails
  have hwait := execCpwait_eq (d := d) (ch := ch) ha hs
  have hdone := execCpdone_eq (d := d) (ch := ch) ha hs
  refine ⟨fun p hp => ?_, ?waited, ?waits, ?done, ?undone, ?unknown⟩
  · have hexec := exec_copyInstr hp s
    refine ⟨fun b hblk => ?_, fun hr n l l' hc hl => hexec.trans (copyIssue_refused hb hs ho hm hr hc hl)⟩
    exact ⟨fun hroom => hexec.trans (copyIssue_ok hb hs ho hm hblk hroom),
      fun hfull => hexec.trans (copyIssue_full hb hs ho hm hblk hfull)⟩
  case waited =>
    intro hgiven hreached
    rw [hwait, if_neg hgiven, if_pos hreached, finish_ok]
  case waits =>
    intro hgiven hnot
    rw [hwait, if_neg hgiven, if_neg hnot, finish_wait]
  case done =>
    intro hgiven hreached
    rw [hdone, if_neg hgiven, if_pos hreached, finish_ok]
  case undone =>
    intro hgiven hnot
    rw [hdone, if_neg hgiven, if_neg hnot, finish_ok]
  case unknown =>
    intro hnew
    rw [if_pos hnew, finish_trapNow] at hwait hdone
    exact ⟨hwait, hdone⟩

end Sys2Proof.Machine
end

section
/-! Records that the scheduler holds (R303, R305, R307): what a status word, a move between states and a look at a waiting record
leave. -/

namespace Sys2Proof.Machine

variable {s : State} {r : SRec}

/-! ## Status words -/

/-- The bytes of a status word (R305). -/
def statusBytes (st : Nat) (cause sub : Byte) (runs : Nat) : List Byte := [BitVec.ofNat 8 st, cause, sub, 0] ++ bytesOf 4 runs

theorem length_statusBytes (st : Nat) (cause sub : Byte) (runs : Nat) : (statusBytes st cause sub runs).length = 8 := by
  rw [statusBytes, List.length_append, length_bytesOf]
  rfl

/-- The first four bytes of a status word: state, cause and subcode. -/
theorem rd_setStatus (hm : MemOk s) (home st : Nat) (cause sub : Byte) (add : Nat) :
    (s.setStatus home st cause sub add).rd (home + 0x38) 4 = [BitVec.ofNat 8 st, cause, sub, 0] := by
  have hlen : 0 + 4 ≤ (statusBytes st cause sub (s.rdNat (home + 0x3C) 4 + add)).length := by
    rw [length_statusBytes]
    decide
  exact rd_wr_slice hm (home + 0x38) hlen

/-- The run count of a status word. -/
theorem rdNat_setStatus_runs (hm : MemOk s) (home st : Nat) (cause sub : Byte) (add : Nat) :
    (s.setStatus home st cause sub add).rdNat (home + 0x3C) 4 = (s.rdNat (home + 0x3C) 4 + add) % 2 ^ 32 := by
  have hlen : 4 + 4 ≤ (statusBytes st cause sub (s.rdNat (home + 0x3C) 4 + add)).length := (length_statusBytes ..).ge
  refine (rdNat_wr_slice hm (home + 0x38) hlen).trans ?_
  have hpart : ((statusBytes st cause sub (s.rdNat (home + 0x3C) 4 + add)).drop 4).take 4
      = bytesOf 4 (s.rdNat (home + 0x3C) 4 + add) := List.take_of_length_le (length_bytesOf 4 _).le
  rw [fieldOf, hpart, ofBytes_bytesOf]
  rfl

/-- The state byte of a status word. -/
theorem rdNat_setStatus_state (hm : MemOk s) (home : Nat) {st : Nat} (hst : st < 256) (cause sub : Byte) (add : Nat) :
    (s.setStatus home st cause sub add).rdNat (home + 0x38) 1 = st := by
  have hlen : 0 + 1 ≤ (statusBytes st cause sub (s.rdNat (home + 0x3C) 4 + add)).length := by
    rw [length_statusBytes]
    decide
  refine (rdNat_wr_slice hm (home + 0x38) hlen).trans ?_
  change (BitVec.ofNat 8 st).toNat + 256 * 0 = st
  rw [BitVec.toNat_ofNat, Nat.mod_eq_of_lt hst, Nat.mul_zero, Nat.add_zero]

/-- Bytes outside a status word are as before. -/
theorem read_setStatus_out {home b : Nat} (hb : b < home + 0x38 ∨ home + 0x40 ≤ b) (st : Nat) (cause sub : Byte)
    (add : Nat) : (s.setStatus home st cause sub add).mem.read b = s.mem.read b := by
  refine Memory.read_writeN_out _ _ _ _ ?_
  have hlen := length_statusBytes st cause sub (s.rdNat (home + 0x3C) 4 + add)
  rw [statusBytes] at hlen
  omega

/-- Ranges apart from a status word read as before. -/
theorem rd_setStatus_out {home k n : Nat} (hk : k + n ≤ home + 0x38 ∨ home + 0x40 ≤ k) (st : Nat) (cause sub : Byte) (add : Nat) :
    (s.setStatus home st cause sub add).rd k n = s.rd k n := by
  refine rd_wr_apart ?_
  have hlen := length_statusBytes st cause sub (s.rdNat (home + 0x3C) 4 + add)
  rw [statusBytes] at hlen
  omega

/-! ## One record -/

theorem findRec_single (h : s.recs = [r]) : s.findRec r.ctx r.addr = some r := by
  simp [State.findRec, h]

/-- A record that is moved to a state in which the scheduler holds it. -/
theorem moveRec_held {cx : BitVec 6} {addr : DWord} {st : Nat} (hf : s.findRec cx addr = some r) (hst : st < 5) (cause sub : Byte)
    (add : Nat) : s.moveRec cx addr st cause sub add =
      (s.setStatus r.home st cause sub add).mapRec cx addr fun r =>
        { r with state := st, last := (cause, sub), begun := r.begun || decide (3 ≤ st) } := by
  have hno : ¬ (st = 5 ∨ st = 6) := by omega
  simp only [State.moveRec, hf, if_neg hno]

/-- A record that is moved to done or killed: the scheduler holds it no more. -/
theorem moveRec_dropped {cx : BitVec 6} {addr : DWord} {st : Nat} (hf : s.findRec cx addr = some r) (hst : st = 5 ∨ st = 6)
    (cause sub : Byte) (add : Nat) :
    s.moveRec cx addr st cause sub add = (s.setStatus r.home st cause sub add).dropRec cx addr := by
  simp only [State.moveRec, hf, if_pos hst]

theorem recs_moveRec_single (h : s.recs = [r]) {st : Nat} (hst : st < 5) (cause sub : Byte) (add : Nat) :
    (s.moveRec r.ctx r.addr st cause sub add).recs =
      [{ r with state := st, last := (cause, sub), begun := r.begun || decide (3 ≤ st) }] := by
  rw [moveRec_held (findRec_single h) hst]
  simp [State.mapRec, State.setStatus, State.wr, h]

/-- The one record is made ready. -/
theorem recs_ready_single (h : s.recs = [r]) :
    (s.moveRec r.ctx r.addr 2 r.last.1 r.last.2 0).recs = [{ r with state := 2 }] := by
  rw [recs_moveRec_single h (by decide), decide_eq_false (by decide), Bool.or_false]

/-- The scheduler's look at its one record, which waits (R307). -/
theorem recs_wake_single (h : s.recs = [r]) (hst : r.state = 1) :
    s.wake.recs = [if s.rdNat (r.home + 0x1C) 4 = 0 ∧ r.snap.waitMask &&& ~~~s.ctxs[r.ctx.toNat].ev = 0 then
      { r with state := 2 } else r] := by
  have hwake : s.wake = s.wakeRec r := by rw [State.wake, h]; rfl
  rw [hwake, State.wakeRec]
  by_cases hready : s.rdNat (r.home + 0x1C) 4 = 0 ∧ r.snap.waitMask &&& ~~~s.ctxs[r.ctx.toNat].ev = 0
  · rw [if_pos ⟨hst, hready⟩, if_pos hready, recs_ready_single h]
  · rw [if_neg fun hc => hready hc.2, if_neg hready, h]

end Sys2Proof.Machine
end

section
/-! Scheduling (R303, R313, R316 to R319): what a push, a join and an unpark leave. -/

namespace Sys2Proof.Machine

variable {s : State} {d a : Opnd} {bp : BitVec 4} {off : BitVec 24} {key : Nat}

theorem surface_orderly (ho : Orderly s) (k : AgentId) : s.surface k = s := flushWhere_none (by simp [ho.1])

/-! ## Pushes -/

/-- A record as it is pushed (R303). -/
def State.pushed (s : State) (cx : BitVec 6) (va : DWord) (key die : Nat) : SRec :=
  ⟨cx, va, key, die, s.snapOf cx (s.rd key 64), 1, s.pushes, none, 0, 0, false, none, none, (0, 0), false⟩

theorem enqueue_eq (cx : BitVec 6) (va : DWord) (key die : Nat) :
    s.enqueue cx va key die (s.rd key 64) none =
      { s.setStatus key 1 0 0 0 with recs := s.recs ++ [s.pushed cx va key die], pushes := s.pushes + 1 } := rfl

theorem dieOf_eq (x : BitVec 5) {n : Nat} (hn : x.toNat = n) : s.dieOf x = if n = 31 then s.die else n := by
  subst hn
  unfold State.dieOf
  by_cases h : x = 31
  · subst h
    rfl
  · have hne : x.toNat ≠ 31 := fun heq => h (BitVec.eq_of_toNat_eq heq)
    rw [if_neg h, if_neg hne]

/-- The push of an accepted record: how it stands, and how the scheduler finds it when it looks. -/
theorem enqueue_spec (hm : MemOk s) (cx : BitVec 6) (va : DWord) (key die : Nat) :
    let u := s.enqueue cx va key die (s.rd key 64) none
    let r := s.pushed cx va key die
    u.rdNat (key + 0x38) 1 = r.state ∧ (∀ b, b < key + 0x38 ∨ key + 0x40 ≤ b → u.mem.read b = s.mem.read b) ∧
    (s.recs = [] → u.wake.recs = [if s.rdNat (key + 0x1C) 4 = 0 ∧
      (s.snapOf cx (s.rd key 64)).waitMask &&& ~~~s.ctxs[cx.toNat].ev = 0 then { r with state := 2 } else r]) := by
  refine ⟨rdNat_setStatus_state hm key (by decide) 0 0 0, fun b hb => read_setStatus_out hb 1 0 0 0, fun hnone => ?_⟩
  have hcount : (s.setStatus key 1 0 0 0).rdNat (key + 0x1C) 4 = s.rdNat (key + 0x1C) 4 :=
    congrArg ofBytes (rd_setStatus_out (.inl (by omega)) 1 0 0 0)
  have hone : (s.enqueue cx va key die (s.rd key 64) none).recs = [s.pushed cx va key die] := by
    rw [enqueue_eq, hnone, List.nil_append]
  refine (recs_wake_single hone rfl).trans ?_
  rw [← hcount]
  rfl

/-- `spawn` of a record that can be reached. -/
theorem execSpawn_eq (hb : Readable s (baseOp bp) .w64) (ha : Readable s a .w32) (hd : s.cur.deferred = []) (ho : Orderly s)
    (hr : s.recordAt s.cx s.bank.run (s.val64 (baseOp bp) + off.setWidth 64) = .ok key) :
    exec (.spawn d bp off a) s = .next (s.pushRecord d s.cx (s.val64 (baseOp bp) + off.setWidth 64) key
      (s.dieOf ((s.val32 a).setWidth 5))) := by
  change execSpawn d bp off a s = _
  simp only [execSpawn, releaseAll_orderly ho, surface_orderly ho, finishWaiting_eq hd ho.1, rdBase_ok hb, rd32_ok ha, bind,
    Except.bind, blockAddr, hr, pure, Except.pure, finish_ok]

theorem launchOk_iff (cx : BitVec 6) : s.launchOk cx = true ↔
    s.supervisor = true ∧ s.ctxs[cx.toNat].defined = true ∧ s.ctxs[cx.toNat].part = s.part := by
  simp [State.launchOk, and_assoc]

/-- `launch` into a context of the partition. -/
theorem execLaunch_eq (hb : Readable s (baseOp bp) .w64) (ha : Readable s a .w32) (hd : s.cur.deferred = []) (ho : Orderly s)
    (hmay : s.launchOk ((s.val32 a).setWidth 6) = true)
    (hr : s.recordAt ((s.val32 a).setWidth 6) none (s.val64 (baseOp bp) + off.setWidth 64) = .ok key) :
    exec (.launch d bp off a) s = .next (s.pushRecord d ((s.val32 a).setWidth 6) (s.val64 (baseOp bp) + off.setWidth 64) key
      (s.dieOf ((s.val32 a).extractLsb' 8 5))) := by
  change execLaunch d bp off a s = _
  simp only [execLaunch, releaseAll_orderly ho, surface_orderly ho, finishWaiting_eq hd ho.1, rdBase_ok hb, rd32_ok ha, bind,
    Except.bind, blockAddr, hmay, Bool.not_true, Bool.false_eq_true, if_false, hr, pure, Except.pure, finish_ok]

theorem execLaunch_denied (hb : Readable s (baseOp bp) .w64) (ha : Readable s a .w32) (hd : s.cur.deferred = []) (ho : Orderly s)
    (hno : s.launchOk ((s.val32 a).setWidth 6) = false) :
    exec (.launch d bp off a) s = .next { s.takeTrap (s.trapAt 0x07 0 0) with verdict := .trapped false } := by
  change execLaunch d bp off a s = _
  simp only [execLaunch, releaseAll_orderly ho, surface_orderly ho, finishWaiting_eq hd ho.1, rdBase_ok hb, rd32_ok ha, bind,
    Except.bind, hno, Bool.not_false, if_true, finish_trapNow]

/-! ## Joins -/

/-- A counter without poison, where it can be written: it falls by one unless it is zero. -/
theorem joinAt_eq {va : DWord} (ho : Orderly s) (hm : s.atomicMark s.turn va key 64 = none) (hc : s.served (key + 0x1C) true = true) :
    s.joinAt d va key = State.putToken (if s.rdNat (key + 0x1C) 4 = 0 then s
      else s.wr (key + 0x1C) (bytesOf 4 (s.rdNat (key + 0x1C) 4 - 1))) d false (BitVec.ofNat 64 (s.rdNat (key + 0x1C) 4)) := by
  simp only [State.joinAt, hm, storeNow_orderly ho hc]

theorem held_joined (u : State) (c : Prop) [Decidable c] (bs : List Byte) (v : DWord) :
    (State.putToken (if c then u else u.wr key bs) d false v).held = u.held := by
  split <;> rfl

/-- `join` of a record whose counter can be read and written: the counter falls by one where it is not zero; what the release
notes is the one change besides. -/
theorem execJoin_eq (hb : Readable s (baseOp bp) .w64) (hd : s.cur.deferred = []) (ho : Orderly s)
    (hacc : s.access .atomic (s.val64 (baseOp bp) + off.setWidth 64) 64 0 = .ok key)
    (hmap : Mapped s (s.val64 (baseOp bp) + off.setWidth 64)) (hr : s.served key false = true) (hw : s.served key true = true)
    (hp : s.mem.poisonAt key 64 = none) (hc : s.served (key + 0x1C) true = true) :
    ∃ l : List Rel, exec (.join d bp off) s = .next
      (State.putToken (if s.rdNat (key + 0x1C) 4 = 0 then { s with rels := l }
        else State.wr { s with rels := l } (key + 0x1C) (bytesOf 4 (s.rdNat (key + 0x1C) 4 - 1)))
        d false (BitVec.ofNat 64 (s.rdNat (key + 0x1C) 4))) := by
  let va := s.val64 (baseOp bp) + off.setWidth 64
  let l := (s.noteRelease (s.relOf .pkg (va + 0x18) (key + 0x18))).rels
  have hread : (s.reading .own va key 64).atHome key 64 = s := State.atBlock_orderly ho hmap key 64
  have hmark : State.atomicMark { s with rels := l } s.turn va key 64 = none :=
    atomicMark_none (s := { s with rels := l }) ho.2.2.1 hr hw hp va
  refine ⟨l, ?_⟩
  change execJoin d bp off s = _
  simp only [execJoin, finishWaiting_eq hd ho.1, rdBase_ok hb, bind, Except.bind, blockAddr, hacc, pure, Except.pure, finish_ok]
  rw [hread, release_orderly ho, joinAt_eq (s := { s with rels := l }) ho hmark hc, acquire_noneHeld
    ((held_joined { s with rels := l } ..).trans ho.2.2.1)]
  rfl

/-! ## Unparking -/

theorem recAtHome_single {r : SRec} (h : s.recs = [r]) (hk : r.home = key) : s.recAtHome key = some r := by
  simp [State.recAtHome, h, hk]

/-- The one record, parked and of the partition, is made ready. -/
theorem unparkAt_single {r : SRec} {p : BitVec 4} (h : s.recs = [r]) (hk : r.home = key) (hst : r.state = 4)
    (hp : s.ctxs[r.ctx.toNat].part = p) :
    s.unparkAt p key = (0, (s.moveRec r.ctx r.addr 2 r.last.1 r.last.2 0).unheld r.ctx r.addr) := by
  simp only [State.unparkAt, recAtHome_single h hk]
  exact if_pos ⟨hst, hp⟩

theorem unparkAt_none {p : BitVec 4} (h : ∀ r ∈ s.recs, r.home = key → r.state ≠ 4) : s.unparkAt p key = (1, s) := by
  unfold State.unparkAt
  split
  next r hfind =>
    have hhome : r.home = key := by simpa using List.find?_some hfind
    exact if_neg fun hc => h r (List.mem_of_find?_eq_some hfind) hhome hc.1
  next => rfl

theorem bank_moveRec (cx : BitVec 6) (addr : DWord) (st : Nat) (cause sub : Byte) (add : Nat) :
    (s.moveRec cx addr st cause sub add).bank = s.bank := by
  unfold State.moveRec
  split
  · split <;> rfl
  · rfl

theorem execUnpark_denied (hb : Readable s (baseOp bp) .w64) (hs : s.supervisor = false) :
    exec (.unpark d bp off) s = .next { s.takeTrap (s.trapAt 0x07 0 0) with verdict := .trapped false } := by
  change execUnpark d bp off s = _
  simp only [execUnpark, rdBase_ok hb, bind, Except.bind, hs, Bool.not_false, if_true, finish_trapNow]

theorem execUnpark_eq (hb : Readable s (baseOp bp) .w64) (hs : s.supervisor = true)
    (hr : s.recordAt s.cx s.bank.run (s.val64 (baseOp bp) + off.setWidth 64) = .ok key) :
    exec (.unpark d bp off) s = .next ((s.unparkAt s.part key).2.putToken d false (s.unparkAt s.part key).1) := by
  change execUnpark d bp off s = _
  simp only [execUnpark, rdBase_ok hb, bind, Except.bind, hs, Bool.not_true, Bool.false_eq_true, if_false, blockAddr, hr, pure,
    Except.pure, finish_ok]

/-! ## The obligation -/

/-- What an instruction that pushes a record does (R303, R316, R317). -/
theorem pushRecord_eq (d : Opnd) (cx : BitVec 6) (va : DWord) (key die : Nat) : s.pushRecord d cx va key die =
    if recordStatus (s.rd key 64) (decide (8192 ≤ s.storeCount die)) ≠ 0 then
      s.putToken d false (BitVec.ofNat 64 (recordStatus (s.rd key 64) (decide (8192 ≤ s.storeCount die))))
    else if 24 ≤ die then s.putToken d false 0xFFFFFFFD
    else (s.enqueue cx va key die (s.rd key 64) none).putToken d false 0 := rfl

/-- Settles O43: `spawn` and `launch` end in the one push, whose record the scheduler finds as `enqueue_spec` says. -/
theorem scheduling : Obligations.Scheduling := by
  unfold Obligations.Scheduling
  intro s d a bp off key hb ha ha64 hd ho va x old denied pushes
  have hpush : ∀ (i : Instr) (cx : BitVec 6) (dn : Nat),
      exec i s = .next (s.pushRecord d cx va key (if dn = 31 then s.die else dn)) → pushes i cx dn := by
    intro i cx dn hexec
    rw [pushRecord_eq] at hexec
    refine ⟨fun hst => hexec.trans ?_, fun hst hdie => hexec.trans ?_, fun hst hdie _ hm => ?_⟩
    · rw [if_pos hst]
    · rw [if_neg (not_not.2 hst), if_pos hdie]
    · rw [if_neg (not_not.2 hst), if_neg (Nat.not_le.2 hdie)] at hexec
      obtain ⟨hstate, hread, hwake⟩ := enqueue_spec hm cx va key (if dn = 31 then s.die else dn)
      exact ⟨_, s.pushed cx va key _, hexec, rfl, rfl, rfl, rfl, rfl, rfl, rfl, hstate, hread, rfl, hwake⟩
  refine ⟨?spawn, ⟨?launch, ?denied⟩, ?join, ?unparkDenied, ?unpark, ?yield, ?slend⟩
  case spawn =>
    intro hr
    refine hpush _ _ _ ((execSpawn_eq hb ha hd ho hr).trans ?_)
    rw [dieOf_eq ((s.val32 a).setWidth 5) (BitVec.toNat_setWidth ..)]
  case launch =>
    intro hmay hr
    refine hpush _ _ _ ((execLaunch_eq hb ha hd ho ((launchOk_iff _).2 hmay) hr).trans ?_)
    rw [dieOf_eq ((s.val32 a).extractLsb' 8 5) (by simp only [BitVec.extractLsb'_toNat, Nat.shiftRight_eq_div_pow]; rfl)]
  case denied =>
    intro hno
    exact execLaunch_denied hb ha hd ho (Bool.eq_false_iff.2 fun h => hno ((launchOk_iff _).1 h))
  case join =>
    intro hacc hmap hr hw hp hc
    obtain ⟨l, hjoin⟩ := execJoin_eq (d := d) hb hd ho hacc hmap hr hw hp hc
    refine ⟨l, fun h0 => hjoin.trans ?_, fun hpos => hjoin.trans ?_⟩
    · have hzero : s.rdNat (key + 0x1C) 4 = 0 := h0
      rw [if_pos hzero, hzero]
      rfl
    · exact congrArg (fun u : State => Host.Outcome.next (u.putToken d false (BitVec.ofNat 64 old))) (if_neg (Nat.ne_of_gt hpos))
  case unparkDenied => exact execUnpark_denied hb
  case unpark =>
    intro hs hr
    refine ⟨fun r hone hk hst hp => ⟨(s.moveRec r.ctx r.addr 2 r.last.1 r.last.2 0).unheld r.ctx r.addr, ?_, recs_ready_single hone, bank_moveRec ..⟩, fun hnone => ?_⟩
    · rw [execUnpark_eq hb hs hr, unparkAt_single hone hk hst hp]
    · rw [execUnpark_eq hb hs hr, unparkAt_none hnone]
  case yield =>
    change execYield a s = _
    simp only [execYield, finishOrdered_eq hd ho.1, rd64_ok ha64, bind, Except.bind, releaseAll_orderly ho, pure, Except.pure,
      finish_ok]
    rfl
  case slend =>
    change execSlend s = _
    simp only [execSlend, finishOrdered_eq hd ho.1, releaseAll_orderly ho, finish_ok]
    rfl

end Sys2Proof.Machine
end

section
/-! Event bits and barriers (R306 to R308, R320, R321). -/

namespace Sys2Proof.Machine

variable {s : State} {a d : Opnd} {sc : Sched} {g : Bool}

/-! ## The bits that a cycle has set -/

/-- What a cycle has set, from a start. -/
theorem foldl_sets (cx : BitVec 6) (l : List (BitVec 6 × BitVec 256 × BitVec 256)) (b e : BitVec 256) :
    l.foldl (fun x y => if y.1 = cx then (x.1 ||| y.2.1, x.2 ||| y.2.2) else x) (b, e) =
      ((l.foldl (fun x y => if y.1 = cx then (x.1 ||| y.2.1, x.2 ||| y.2.2) else x) (0, 0)).1 ||| b,
        (l.foldl (fun x y => if y.1 = cx then (x.1 ||| y.2.1, x.2 ||| y.2.2) else x) (0, 0)).2 ||| e) := by
  have hz : ∀ x : BitVec 256, 0 ||| x = x := fun x => BitVec.zero_or
  induction l generalizing b e with
  | nil => exact Prod.ext (hz b).symm (hz e).symm
  | cons y l ih =>
    rw [List.foldl_cons, List.foldl_cons]
    by_cases hy : y.1 = cx
    · simp only [if_pos hy]
      rw [ih (b ||| y.2.1), ih (0 ||| y.2.1)]
      simp only [hz, BitVec.or_assoc, BitVec.or_comm b, BitVec.or_comm e]
    · simp only [if_neg hy]
      exact ih b e

/-- Bits set in one context's vector are among the cycle's for that context. -/
theorem setsOf_setEvents (cx k : BitVec 6) (b e : BitVec 256) :
    (s.setEvents cx b e).setsOf k = if k = cx then ((s.setsOf k).1 ||| b, (s.setsOf k).2 ||| e) else s.setsOf k := by
  change List.foldl _ _ ((cx, b, e) :: s.evSets) = _
  rw [List.foldl_cons]
  by_cases hk : k = cx
  · rw [if_pos hk.symm, if_pos hk]
    refine (foldl_sets k s.evSets (0 ||| b) (0 ||| e)).trans ?_
    rw [show 0 ||| b = b from BitVec.zero_or, show 0 ||| e = e from BitVec.zero_or]
    rfl
  · rw [if_neg fun h => hk h.symm, if_neg hk]
    rfl

/-! ## Setting bits -/

theorem ctxs_mapCtx_ne {cx k : BitVec 6} (hk : k ≠ cx) (f : Ctx → Ctx) : (s.mapCtx cx f).ctxs[k.toNat] = s.ctxs[k.toNat] := by
  have hne : cx.toNat ≠ k.toNat := fun heq => hk (BitVec.eq_of_toNat_eq heq.symm)
  simp [State.mapCtx, hne]

/-- The bits of an event instruction, with the companion where the instruction sets it. -/
theorem eventSet_eq (ha : Readable s a .w32) (hd : s.cur.deferred = []) (ho : Orderly s) (err : Bool) :
    s.eventSet a err = .next ((s.setEvents s.cx (eventBit (s.val32 a)) (if err then eventBit (s.val32 a) else 0)).signal
      (eventBit (s.val32 a))) := by
  simp only [State.eventSet, finishWaiting_eq hd ho.1, rd32_ok ha, bind, Except.bind, releaseAll_orderly ho, pure, Except.pure,
    finish_ok]

theorem run_signal (b : BitVec 256) {r : Run} (h : s.bank.run = some r) :
    (s.signal b).bank.run = some { r with signalled := r.signalled ||| (b &&& r.snap.setMask) } := by
  simp [State.signal, State.mapRun, State.mapBank, h]

/-- A bit that a vector has is not missing. -/
theorem and_not_or_self (v b : BitVec 256) : b &&& ~~~(v ||| b) = 0 := by
  ext i
  simp
  tauto

/-- The one waiting record of a context, when the bit of its wait mask has been set. -/
theorem recs_wake_set {r : SRec} {cx : BitVec 6} {b e : BitVec 256} (h : s.recs = [r]) (hc : r.ctx = cx) (hst : r.state = 1)
    (h0 : s.rdNat (r.home + 0x1C) 4 = 0) (hw : r.snap.waitMask = b) :
    ((s.setEvents cx b e).signal b).wake.recs = [{ r with state := 2 }] := by
  have hone : ((s.setEvents cx b e).signal b).recs = [r] := h
  refine (recs_wake_single hone hst).trans (congrArg (· :: []) (if_pos ⟨h0, ?_⟩))
  have hev : ((s.setEvents cx b e).signal b).ctxs[r.ctx.toNat].ev = s.ctxs[r.ctx.toNat].ev ||| b := by
    subst hc
    exact congrArg Ctx.ev (ctxs_mapCtx (s := s) fun c => { c with ev := c.ev ||| b, err := c.err ||| e })
  rw [hev, hw, and_not_or_self]

/-! ## Testing and waiting -/

theorem eventVal_eq (x : Word) : s.eventVal x = BitVec.ofNat 32
    ((if s.ctxs[s.cx.toNat].ev.getLsbD (x.toNat % 256) then 1 else 0)
      + if s.ctxs[s.cx.toNat].err.getLsbD (x.toNat % 256) then 2 else 0) := by
  rw [State.eventVal, bit, bit]
  cases s.ctxs[s.cx.toNat].err.getLsbD (x.toNat % 256) <;> rfl

theorem execEvwait_eq (ha : Readable s a .w32) (ho : Orderly s) : exec (.evwait sc d a) s = s.finish
    (if s.ctxs[s.cx.toNat].ev.getLsbD ((s.val32 a).toNat % 256) then .ok (s.put sc d 8 (s.eventVal (s.val32 a)))
    else .error (.wait .event)) := by
  change execEvwait sc d a s = _
  simp only [execEvwait, rd32_ok ha, bind, Except.bind, acquireAll_orderly ho, pure, Except.pure]

theorem execEvtest_eq (ha : Readable s a .w32) (ho : Orderly s) :
    exec (.evtest sc d a) s = .next (s.put sc d 8 (s.eventVal (s.val32 a))) := by
  change execEvtest sc d a s = _
  simp only [execEvtest, rd32_ok ha, bind, Except.bind, acquireAll_orderly ho, ite_self, pure, Except.pure, finish_ok]

theorem execEvclr_eq (ha : Readable s a .w32) : exec (.evclr a) s = .next (s.clearEvents s.cx (eventBit (s.val32 a))) := by
  change execEvclr a s = _
  simp only [execEvclr, rd32_ok ha, bind, Except.bind, pure, Except.pure, finish_ok]

/-! ## Barriers -/

theorem barrierOrder_orderly (ho : Orderly s) (g : Bool) : s.barrierOrder g = s := by
  obtain ⟨hp, hr, hh, -, -⟩ := ho
  have hheld : s.held.filter (fun h => !(h.path != .mx && h.covered && h.staleAt (if g then 3 else 1))) = s.held := by
    rw [hh]
    rfl
  rw [State.barrierOrder, readsWhere_none hr, State.publish_noWrite hp, hheld]

/-- All but the agent at issue have halted or stand at the barrier. -/
theorem allArrived_iff : s.allArrived g = true ↔
    ∀ k : AgentId, k ≠ s.turn → (s.agent k).halted = true ∨ (s.agent k).barrier = some (g, false) := by
  simp only [State.allArrived, List.all_eq_true, List.mem_finRange, true_implies, Bool.or_eq_true, beq_iff_eq, Agent.atBarrier]
  exact forall_congr' fun k => ⟨fun h hk => h.resolve_left hk, fun h => or_iff_not_imp_left.2 h⟩

theorem peersBehind_iff : s.peersBehind = true ↔ ∃ r, s.bank.run = some r ∧ r.behind = true := by
  cases h : s.bank.run <;> simp [State.peersBehind, h]

/-- An agent that may leave leaves; else it waits. -/
theorem barrierOf_eq : s.barrierOf g =
    if s.cur.barrier = some (g, true) ∨ (s.allArrived g = true ∧ ¬(g = true ∧ s.peersBehind = true)) then .ok (s.leaveBar g)
    else .error (.wait (.barrier g)) := by
  have hc : (s.allArrived g && !(g && s.peersBehind)) = true ↔ s.allArrived g = true ∧ ¬(g = true ∧ s.peersBehind = true) := by
    cases g <;> cases s.peersBehind <;> simp
  simp only [State.barrierOf, hc]

/-- The last agent to arrive leaves, and lets the others leave. -/
theorem leaveBar_last (ho : Orderly s) (hb : s.cur.barrier = none) :
    s.leaveBar g = (s.mapAgents (·.release g)).mapCur fun a => { a with barrier := none } := by
  have hne : ¬ s.cur.barrier = some (g, true) := by rw [hb]; exact nofun
  rw [State.leaveBar, if_neg hne, barrierOrder_orderly ho]

/-- After that no barrier holds the agent at issue, and every other that stood at the barrier may leave. -/
theorem leaveBar_spec (ho : Orderly s) (hb : s.cur.barrier = none) :
    (s.leaveBar g).mem = s.mem ∧ (s.leaveBar g).cur.barrier = none ∧
      ∀ k : AgentId, k ≠ s.turn → (s.agent k).barrier = some (g, false) → ((s.leaveBar g).agent k).barrier = some (g, true) := by
  rw [leaveBar_last ho hb]
  refine ⟨rfl, ?_, fun k hk hbar => ?_⟩
  · rw [State.cur_mapCur]
  · have hother : (((s.mapAgents (·.release g)).mapCur fun a => { a with barrier := none }).agent k) = (s.agent k).release g := by
      refine ((s.mapAgents (·.release g)).agent_mapAgent_ne (Ne.symm hk) _).trans ?_
      simp [State.agent, State.mapAgents, State.mapBank]
    rw [hother, Agent.release, if_pos hbar]

/-- The barrier of a core and of a gang. -/
theorem barrier_meets (ho : Orderly s) (g : Bool) :
    let behind := ∃ r, s.bank.run = some r ∧ r.behind = true
    (g = true → behind → s.cur.barrier ≠ some (g, true) → s.finish (s.barrierOf g) = .next { s with verdict := .stall (.barrier g) }) ∧
    ((g = true → ¬behind) → s.cur.barrier = none →
      (∀ k : AgentId, k ≠ s.turn → (s.agent k).halted = true ∨ (s.agent k).barrier = some (g, false)) →
      ∃ t, s.finish (s.barrierOf g) = .next t ∧ t.mem = s.mem ∧ t.cur.barrier = none ∧
        ∀ k : AgentId, k ≠ s.turn → (s.agent k).barrier = some (g, false) → (t.agent k).barrier = some (g, true)) ∧
    (s.cur.barrier = some (g, true) → s.finish (s.barrierOf g) = .next (s.mapCur fun x => { x with barrier := none })) ∧
    (s.cur.barrier = none → (∃ k : AgentId, k ≠ s.turn ∧ (s.agent k).halted = false ∧ (s.agent k).barrier = none) →
      s.finish (s.barrierOf g) = .next { s with verdict := .stall (.barrier g) }) := by
  intro behind
  refine ⟨fun hg hbehind hne => ?_, fun hpeers hb hall => ?_, fun hb => ?_, fun hb ⟨k, hk, hrun, hnone⟩ => ?_⟩
  · have hno : ¬ (s.cur.barrier = some (g, true) ∨ (s.allArrived g = true ∧ ¬(g = true ∧ s.peersBehind = true))) :=
      fun h => h.elim hne fun h => h.2 ⟨hg, peersBehind_iff.2 hbehind⟩
    rw [barrierOf_eq, if_neg hno, finish_wait]
  · have hyes : s.cur.barrier = some (g, true) ∨ (s.allArrived g = true ∧ ¬(g = true ∧ s.peersBehind = true)) :=
      .inr ⟨allArrived_iff.2 hall, fun h => hpeers h.1 (peersBehind_iff.1 h.2)⟩
    rw [barrierOf_eq, if_pos hyes, finish_ok]
    exact ⟨_, rfl, leaveBar_spec ho hb⟩
  · rw [barrierOf_eq, if_pos (.inl hb), finish_ok, State.leaveBar, if_pos hb]
  · have hno : ¬ (s.cur.barrier = some (g, true) ∨ (s.allArrived g = true ∧ ¬(g = true ∧ s.peersBehind = true))) := by
      rintro (heq | ⟨hall, -⟩)
      · rw [hb] at heq
        exact nomatch heq
      · rcases allArrived_iff.1 hall k hk with hhalt | hbar
        · exact Bool.false_ne_true (hrun.symm.trans hhalt)
        · rw [hnone] at hbar
          exact nomatch hbar
    rw [barrierOf_eq, if_neg hno, finish_wait]

/-- Settles O44: an event instruction is the setting of its bit and the run's note of it; a barrier lets go where all others have
arrived. -/
theorem events : Obligations.Events := by
  unfold Obligations.Events
  intro s sc d a ha hd ho n one c v sets behind meets
  have hone : eventBit (s.val32 a) = one := rfl
  have hsets : ∀ (i : Instr) (err : BitVec 256), exec i s = .next ((s.setEvents s.cx one err).signal one) → sets i err := by
    intro i err hexec
    have hctx := ctxs_mapCtx (s := s) (cx := s.cx) fun c => { c with ev := c.ev ||| one, err := c.err ||| err }
    exact ⟨_, hexec, congrArg Ctx.ev hctx, congrArg Ctx.err hctx, 
      fun k hk => ctxs_mapCtx_ne (s := s) hk fun c => { c with ev := c.ev ||| one, err := c.err ||| err }, fun r => run_signal one,
      fun k => setsOf_setEvents s.cx k one err, fun r hr hc hst h0 hw => recs_wake_set hr hc hst h0 hw, rfl, rfl⟩
  refine ⟨hsets _ _ ?set, hsets _ _ ?setErr, ?clear, ?wait, ?stall, ?test, barrier_meets ho false, barrier_meets ho true⟩
  case set => exact eventSet_eq ha hd ho false
  case setErr => exact eventSet_eq ha hd ho true
  case clear => exact execEvclr_eq ha
  case wait =>
    intro hset
    rw [execEvwait_eq ha ho, if_pos hset, finish_ok, eventVal_eq]
  case stall =>
    intro hunset
    rw [execEvwait_eq ha ho, if_neg (by rw [hunset]; exact Bool.false_ne_true), finish_wait]
  case test => rw [execEvtest_eq ha ho, eventVal_eq]

end Sys2Proof.Machine
end

section
/-! The run's own events (R312, R326, R328, R332, R341, R343, R344, R403, R408). -/

namespace Sys2Proof.Machine

variable {s : State} {r : Run}

/-! ## Watchdog and budget -/

/-- The least of the agents that a test picks out comes first. -/
theorem filter_finRange_least {n : Nat} {p : Fin n → Bool} {k : Fin n} (hk : p k = true) (hless : ∀ j, j < k → p j = false) :
    ∃ l, (List.finRange n).filter p = k :: l := by
  have hmem : k ∈ (List.finRange n).filter p := List.mem_filter.2 ⟨List.mem_finRange k, hk⟩
  have hsorted : ((List.finRange n).filter p).Pairwise (· < ·) := (List.pairwise_lt_finRange n).filter p
  match hl : (List.finRange n).filter p with
  | [] => exact absurd (hl ▸ hmem) List.not_mem_nil
  | j :: l =>
    rw [hl] at hmem hsorted
    have hj : p j = true := (List.mem_filter.1 (hl ▸ List.mem_cons_self : j ∈ (List.finRange n).filter p)).2
    rcases List.mem_cons.1 hmem with rfl | hin
    · exact ⟨l, rfl⟩
    · have hlt : j < k := (List.pairwise_cons.1 hsorted).1 k hin
      exact absurd hj (by rw [hless j hlt]; exact Bool.false_ne_true)

/-- An agent is overdue when it has waited for an interval that is on. -/
theorem overdue_iff (k : AgentId) : s.overdue k = true ↔ 1024 * s.parts[s.part.toNat].now.watchdog ≠ 0 ∧
    ∃ w since, (s.agent k).waiting = some (w, since) ∧ since + 1024 * s.parts[s.part.toNat].now.watchdog ≤ s.wall := by
  unfold State.overdue
  split
  next w since hw =>
    rw [Bool.and_eq_true, decide_eq_true_iff, decide_eq_true_iff]
    refine and_congr_right fun _ => ⟨fun h => ⟨w, since, hw, h⟩, fun ⟨w', since', hw', h⟩ => ?_⟩
    have heq : (w, since) = (w', since') := Option.some.inj (hw.symm.trans hw')
    rw [Prod.mk.injEq] at heq
    rwa [heq.2]
  next hnone => simp [hnone]

theorem execWatchdog_least {k : AgentId} (hk : s.overdue k = true) (hless : ∀ j, j < k → s.overdue j = false) :
    exec .watchdog s = .next (s.takeTrap (s.agentTrap k 0x19 .watch)) := by
  obtain ⟨l, hl⟩ := filter_finRange_least hk hless
  change execWatchdog s = _
  simp only [execWatchdog, State.overdueAgents, hl]

theorem execWatchdog_none (hnone : ∀ k, s.overdue k = false) : exec .watchdog s = .next s := by
  have hl : (List.finRange 5).filter s.overdue = [] := List.filter_eq_nil_iff.2 fun k _ => by rw [hnone k]; exact Bool.false_ne_true
  change execWatchdog s = _
  simp only [execWatchdog, State.overdueAgents, hl]

theorem execBudgetExhausted_eq (hr : s.bank.run = some r) : exec .budgetExhausted s =
    .next (if r.budget = 0 ∧ r.logcore = r.snap.origin then s.takeTrap (s.agentTrap 0 0x0C .budget) else s) := by
  have hspent : s.bank.run.any Run.spent = true ↔ r.budget = 0 ∧ r.logcore = r.snap.origin := by simp [hr, Run.spent]
  change execBudgetExhausted s = _
  simp only [execBudgetExhausted, hspent]

/-! ## Machine check -/

theorem execMachineCheck_eq (sub : Byte) (hr : s.bank.run = some r) (hp : s.phase = .running) (hg : s.gangStop = none)
    (hd : r.dropped = false) : exec (.machineCheck sub) s =
      .next ((s.count s.die 5 1).takeTrap ((s.count s.die 5 1).checkTrap sub)) := by
  have htrap : (s.count s.die 5 1).trappable = true := by
    simp [State.trappable, State.count, hr, hp, hg, hd]
  change Host.Outcome.next (s.machineCheck sub) = _
  rw [State.machineCheck, if_pos htrap]

/-! ## Service timer -/

theorem lowestOf_eq_true {p : BitVec 4} (hr : s.bank.run = some r) (hs : s.shadow = none) (hm : ∀ c ∈ r.members, s.coreId ≤ c)
    (ht : ∀ c ∈ s.taken, c.2 = p → s.coreId ≤ c.1) : s.lowestOf p = true := by
  simp only [State.lowestOf, hr, hs, Option.map_some, Option.map_none, Option.getD_some, Option.getD_none, List.append_nil,
    Bool.not_eq_true', List.any_eq_false, List.mem_append, decide_eq_true_eq, Nat.not_lt]
  rintro c (hc | hc)
  · split at hc
    · exact hm c hc
    · exact absurd hc List.not_mem_nil
  · obtain ⟨x, hx, rfl⟩ := List.mem_map.1 hc
    obtain ⟨hx, hp⟩ := List.mem_filter.1 hx
    exact ht x hx (beq_iff_eq.1 hp)

theorem timerDue_iff (p : BitVec 4) : s.timerDue p = true ↔ s.parts[p.toNat].enabled = true ∧ s.parts[p.toNat].now.timer ≠ 0 ∧
    s.parts[p.toNat].now.last + s.parts[p.toNat].now.timer ≤ s.wall := by
  simp [State.timerDue, and_assoc]

/-- The timer's count goes on by whole periods to the last that is past. -/
theorem periods_past {last timer wall : Nat} (ht : timer ≠ 0) (hw : last + timer ≤ wall) :
    last + timer * ((wall - last) / timer) ≤ wall ∧ wall < last + timer * ((wall - last) / timer) + timer ∧
      (last + timer * ((wall - last) / timer) - last) % timer = 0 := by
  have hdiv := Nat.div_add_mod (wall - last) timer
  have hmod := Nat.mod_lt (wall - last) (Nat.pos_of_ne_zero ht)
  refine ⟨by omega, by omega, ?_⟩
  rw [Nat.add_sub_cancel_left]
  exact Nat.mul_mod_right ..

/-- The partition's timer, when its period has expired. -/
def State.timed (s : State) (p : BitVec 4) : State :=
  s.mapPart p fun x => { x with now := { s.parts[p.toNat].now with
    last := s.parts[p.toNat].now.last + s.parts[p.toNat].now.timer * ((s.wall - s.parts[p.toNat].now.last) / s.parts[p.toNat].now.timer) } }

theorem timed_last (p : BitVec 4) : (s.timed p).parts[p.toNat].now.last = s.parts[p.toNat].now.last +
    s.parts[p.toNat].now.timer * ((s.wall - s.parts[p.toNat].now.last) / s.parts[p.toNat].now.timer) := by
  rw [State.timed, parts_mapPart]

theorem execServiceTimer_eq {p : BitVec 4} (hdue : s.timerDue p = true) (hr : s.bank.run = some r) (hp : r.part = p)
    (hreset : s.parts[p.toNat].resetting = false) (hlow : s.lowestOf p = true) :
    exec (.serviceTimer p) s = .next { s.timed p with svcPend := s.svcPend ++ [(p, 0x80, false)] } := by
  have hruns : s.runsPart p = true := by simp [State.runsPart, hr, hp]
  have hmine : ((s.timed p).runsPart p && (s.timed p).lowestOf p) = true := by
    change (s.runsPart p && s.lowestOf p) = true
    rw [hruns, hlow]
    rfl
  have hopen : (s.timed p).parts[p.toNat].resetting = false := (congrArg Part.resetting (parts_mapPart (s := s) _)).trans hreset
  change execServiceTimer p s = _
  refine congrArg Host.Outcome.next ((if_pos hdue).trans ?_)
  refine (if_pos hmine).trans ?_
  exact if_neg fun h => Bool.false_ne_true (hopen.symm.trans h)

/-! ## Requests between boundaries -/

theorem boundary_none (hp : s.phase = .running) (ht : s.turn ≠ 0) (hg : s.gangStop = none) : s.boundary = none := by
  have hat : s.atBoundary = false := by simp [State.atBoundary, ht]
  have hidle : s.idleRequest = none := if_neg fun h => by rw [hp] at h; exact nomatch h.1
  have hstop : ¬ (s.phase = .stopping ∧ s.turn = 0 ∧ s.freezes.isEmpty = true ∧ s.allStopped = true) := fun h => ht h.2.1
  simp only [State.boundary, State.gangBoundary, hg, State.ownBoundary, if_neg hstop, hat, Bool.false_eq_true, if_false, hidle]

theorem part_of_run (hr : s.bank.run = some r) : s.part = r.part := by
  simp [State.part, hr]

theorem postStop_running (hr : s.bank.run = some r) (hp : s.phase = .running) : s.postStop = { s with stopPend := true } := by
  refine if_pos ?_
  rw [hr, hp]
  rfl

/-! ## Switches -/

theorem sameBut_quiesce (s : State) : SameBut s s.quiesce := by
  have hreads := (accesses_readsWhere s fun _ _ => true).same
  have hwrites := (accesses_flushWhere (s.readsWhere fun _ _ => true) fun _ => true).same
  have hboth := sameBut_trans hreads hwrites
  unfold SameBut at hboth ⊢
  rw [State.quiesce, hboth]

theorem writeLatches_memOnly (s : State) (t : TrapReq) (f : Nat) : ∃ m, s.writeLatches t f = { s with mem := m } :=
  foldl_memOnly (fun _ _ => ⟨_, rfl⟩) (List.finRange 5) s

theorem writeFrame_memOnly (s : State) (r : Run) (t : TrapReq) (flags action replays : Nat) :
    ∃ m, s.writeFrame r t flags action replays = { s with mem := m } := by
  obtain ⟨m, hm⟩ := writeLatches_memOnly (s.wr (s.frameOf r) (frameHeader s t flags action replays)) t (s.frameOf r)
  exact ⟨_, by rw [State.writeFrame, hm]; rfl⟩

/-- A switch begins: 48 cycles, and a stop request that stands goes on to. -/
theorem beginSwitch_spec (hr : s.bank.run = some r) (a : After) (cause sub : Byte) (action : Nat) (drained again : Bool) :
    (s.beginSwitch a cause sub action drained again).phase = .switching a 48 ∧
      (s.beginSwitch a cause sub action drained again).stopPend = s.stopPend := by
  unfold State.beginSwitch
  simp only [hr]
  refine ⟨rfl, ?_⟩
  obtain ⟨m, hm⟩ := writeFrame_memOnly s.quiesce.settleSr r (s.quiesce.settleSr.switchTrap cause sub)
    (4 * bit drained + 8 * bit again) action r.replays
  have hq : s.quiesce.stopPend = s.stopPend := by rw [sameBut_quiesce s]
  rw [hm]
  exact hq

/-- A run that does not drain, at a boundary with a stop request, is switched out. -/
theorem boundary_stop (hr : s.bank.run = some r) (hp : s.phase = .running) (ht : s.turn = 0) (hf : s.freezes = [])
    (hs : s.serving = false) (hre : s.reissue = none) (hg : s.gangStop = none) (hw : s.walk = none) (hd : r.snap.drainable = false)
    (hstop : s.stopPend = true) : s.boundary = some (s.stopNow false) := by
  have hat : s.atBoundary = true := by
    simp [State.atBoundary, hp, ht, hf, hs, hre, hr, State.faultFirst, hw]
  have hnot : ¬ (s.phase = .stopping ∧ s.turn = 0 ∧ s.freezes.isEmpty = true ∧ s.allStopped = true) :=
    fun h => by rw [hp] at h; exact nomatch h.1
  have hdrain : (s.drainers r).isEmpty = true := by simp [State.drainers, hd]
  simp only [State.boundary, State.gangBoundary, hg, State.ownBoundary, if_neg hnot, hat, if_true, hr, hstop, State.takeStop, hdrain]

/-- Settles O49: an event acts at the branch that its hypotheses choose; a request is held where the boundary has nothing to do,
and at a boundary the stop is a switch. -/
theorem runEvents : Obligations.RunEvents := by
  unfold Obligations.RunEvents
  intro s r p sub hr interval late taken now
  have hlate : ∀ k, late k ↔ s.overdue k = true := fun k => (overdue_iff k).symm
  have hnot : ∀ k, ¬late k → s.overdue k = false := fun k h => Bool.eq_false_iff.2 fun ho => h ((hlate k).2 ho)
  refine ⟨?watchdog, ?noWatchdog, ?budget, ?noBudget, ?check, ?timer, ?held, ?stop, ?shares, ?noShares⟩
  case watchdog =>
    intro k hk hless
    exact ⟨s.agentTrap k 0x19 .watch, execWatchdog_least ((hlate k).1 hk) fun j hj => hnot j (hless j hj), rfl, rfl, rfl, rfl, rfl⟩
  case noWatchdog =>
    intro hnone
    exact execWatchdog_none fun k => hnot k (hnone k)
  case budget =>
    intro h0 hlow
    exact ⟨s.agentTrap 0 0x0C .budget, (execBudgetExhausted_eq hr).trans (congrArg _ (if_pos ⟨h0, hlow⟩)), rfl, rfl, rfl, rfl, rfl⟩
  case noBudget =>
    intro hleft
    exact (execBudgetExhausted_eq hr).trans (congrArg _ (if_neg fun h => hleft.elim (fun hb => hb h.1) fun hl => hl h.2))
  case check =>
    intro hp hg hd
    exact ⟨(s.count s.die 5 1).checkTrap sub, execMachineCheck_eq sub hr hp hg hd, rfl, rfl, rfl, rfl, rfl⟩
  case timer =>
    intro hon hset hpast hp hopen hs hm ht
    obtain ⟨hle, hlt, hmod⟩ := periods_past hset hpast
    have hnow : ({ s.timed p with svcPend := s.svcPend ++ [(p, 0x80, false)] } : State).parts[p.toNat].now.last =
        now.last + now.timer * ((s.wall - now.last) / now.timer) := timed_last p
    refine ⟨_, execServiceTimer_eq ((timerDue_iff p).2 ⟨hon, hset, hpast⟩) hr hp hopen (lowestOf_eq_true hr hs hm ht), rfl, ?_, ?_,
      ?_, rfl, rfl⟩
    · rw [hnow]
      exact hle
    · rw [hnow]
      exact hlt
    · rw [hnow]
      exact hmod
  case held =>
    intro hp ht hg hopen
    refine ⟨?_, ?_⟩
    · have hpost : s.postService s.part sub = { s with svcPend := s.svcPend ++ [(r.part, sub, false)] } := by
        rw [part_of_run hr, State.postService, if_neg (by rw [hopen]; exact Bool.false_ne_true)]
      change execServiceRequest sub s = _
      simp only [execServiceRequest, hr, Option.isSome_some, if_true, hpost]
      rw [boundary_none (s := { s with svcPend := s.svcPend ++ [(r.part, sub, false)] }) hp ht hg]
      rfl
    · change execStopRequest s = _
      simp only [execStopRequest, postStop_running hr hp]
      rw [boundary_none (s := { s with stopPend := true }) hp ht hg]
      rfl
  case stop =>
    intro hp ht hf hs hre hg hw hd
    refine ⟨State.stopNow { s with stopPend := true } false, ?_, ?_⟩
    · change execStopRequest s = _
      simp only [execStopRequest, postStop_running hr hp]
      rw [boundary_stop (s := { s with stopPend := true }) hr hp ht hf hs hre hg hw hd rfl]
      rfl
    · exact beginSwitch_spec (s := { s with stopPend := false, reposted := false }) hr .ready 0x18 0 4 false s.reposted
  case shares =>
    intro hwant
    have hp : s.phase = .running := by
      simp only [State.wantsStop, hr, Bool.and_eq_true, beq_iff_eq] at hwant
      exact hwant.1.1.1
    change Host.Outcome.next (if s.wantsStop then s.postStop else s) = _
    rw [if_pos hwant, postStop_running hr hp]
  case noShares =>
    intro hwant
    exact congrArg Host.Outcome.next (if_neg (by rw [hwant]; exact Bool.false_ne_true))

end Sys2Proof.Machine
end

section
/-! The run of a copy (R284, R285, R290, R293, R296): the rows of a `cpy`, what it leaves in memory, and the channel's marks. -/

namespace Sys2Proof.Machine

variable {s : State} {x : Copy} {n : Nat}

/-! ## Bytes -/

theorem Memory.writeN_append (m : Memory) (a : Nat) (bs cs : List Byte) :
    m.writeN a (bs ++ cs) = (m.writeN a bs).writeN (a + bs.length) cs := by
  induction bs generalizing m a with
  | nil => rfl
  | cons b bs ih =>
    rw [List.cons_append, Memory.writeN, ih, List.length_cons, Nat.add_comm bs.length 1, ← Nat.add_assoc]
    rfl

theorem Memory.readN_add (m : Memory) (a i j : Nat) : m.readN a (i + j) = m.readN a i ++ m.readN (a + i) j := by
  induction i generalizing a with
  | zero => rw [Nat.zero_add]; rfl
  | succ i ih =>
    rw [Nat.succ_add, Memory.readN, ih, Memory.readN, List.cons_append, Nat.add_assoc, Nat.add_comm 1 i]

/-- Pieces of 8 bytes, written one after another, are the whole. -/
theorem foldl_wr_pieces (u : State) (src dst n : Nat) :
    (List.range n).foldl (fun (t : State) i => t.wr (dst + 8 * i) (s.rd (src + 8 * i) 8)) u = u.wr dst (s.rd src (8 * n)) := by
  induction n with
  | zero => rfl
  | succ n ih =>
    have hread : s.rd src (8 * (n + 1)) = s.rd src (8 * n) ++ s.rd (src + 8 * n) 8 := s.mem.readN_add src (8 * n) 8
    rw [List.range_succ, List.foldl_append, ih, List.foldl_cons, List.foldl_nil, hread, State.wr, State.wr, State.wr,
      Memory.writeN_append, length_rd]

/-! ## Rows -/

/-- The keys of a row whose pieces are all served. -/
theorem rowKeys_ok {cx : BitVec 6} {run : Option Run} {k : AKind} {n va key : Nat}
    (h : ∀ i, i < n → s.locateW cx run k ((va + 8 * i) % 2 ^ 64) 8 = .at (key + 8 * i) ∧ s.served (key + 8 * i) k.writes = true) :
    s.rowKeys cx run k n (va % 2 ^ 64) = .ok ((List.range n).map fun i => key + 8 * i) := by
  induction n generalizing va key with
  | zero => rfl
  | succ n ih =>
    obtain ⟨hloc, hserved⟩ := h 0 (Nat.zero_lt_succ n)
    have hnext : (va % 2 ^ 64 + 8) % 2 ^ 64 = (va + 8) % 2 ^ 64 := by omega
    have hrest := ih (va := va + 8) (key := key + 8) fun i hi => by
      have hi' := h (i + 1) (Nat.succ_lt_succ hi)
      rwa [show va + 8 * (i + 1) = va + 8 + 8 * i by omega, show key + 8 * (i + 1) = key + 8 + 8 * i by omega] at hi'
    rw [Nat.mul_zero, Nat.add_zero, Nat.add_zero] at hloc
    rw [Nat.mul_zero, Nat.add_zero] at hserved
    rw [State.rowKeys]
    simp only [hloc, hserved, Bool.not_true, Bool.false_eq_true, if_false, hnext, hrest]
    refine congrArg Except.ok ?_
    rw [List.range_succ_eq_map, List.map_cons, List.map_map]
    refine congrArg₂ List.cons (by omega) (List.map_congr_left fun i _ => ?_)
    simp only [Function.comp_apply]
    omega

/-- The place in source and destination of a copy's first row. -/
theorem srcAt_zero (hk : x.kind = .cpy) (hb : x.rowBase = 0) (i : Nat) : x.srcAt 0 i = x.blk.src % 2 ^ 64 := by
  simp [Copy.srcAt, hk, hb]

theorem dstAt_zero (hk : x.kind = .cpy) (hb : x.rowBase = 0) (i : Nat) : x.dstAt 0 i = x.blk.dst % 2 ^ 64 := by
  simp [Copy.dstAt, hk, hb]

/-! ## What a row's write notes and settles -/

/-- What a row's write notes changes neither memory nor channels, slots and marks. -/
theorem noteRow_spec (k : CopyKind) (ds : List (List Nat)) : SameBut s (s.noteRow k ds) ∧ (s.noteRow k ds).mem = s.mem := by
  have hfold : ∀ (l : List Nat) (u : State), SameBut u (l.foldl (fun t key => t.noteWrite (.here apId) k.accessPath key 8 4) u) ∧
      (l.foldl (fun t key => t.noteWrite (.here apId) k.accessPath key 8 4) u).mem = u.mem := by
    intro l
    induction l with
    | nil => exact fun u => ⟨(Accesses.refl u).same, rfl⟩
    | cons key l ih =>
      intro u
      obtain ⟨hsame, hmem⟩ := ih (u.noteWrite (.here apId) k.accessPath key 8 4)
      exact ⟨sameBut_trans (accesses_noteWrite u ..).same hsame, hmem.trans (u.mem_noteWrite ..)⟩
  unfold State.noteRow
  split
  · exact ⟨(Accesses.refl s).same, rfl⟩
  · exact hfold ..

/-- Where no piece that was read is poisoned, the granules written can only be clean again. -/
theorem settleAll_clean {ps : List (Nat × Bool)} (h : ∀ p ∈ ps, p.2 = false) :
    ∃ l, s.settleAll ps = { s with mem := { s.mem with poison := l } } := by
  have hone : ∀ (u : State) (g : Nat), ∃ l, u.settle ps g = { u with mem := { u.mem with poison := l } } := by
    intro u g
    have hany : (ps.filter fun p => p.1 / 64 == g).any (·.2) = false :=
      List.any_eq_false.2 fun p hp => by rw [h p (List.mem_filter.1 hp).1]; exact Bool.false_ne_true
    unfold State.settle
    simp only [hany, Bool.false_eq_true, if_false]
    split
    · exact ⟨_, rfl⟩
    · exact ⟨u.mem.poison, rfl⟩
  have hfold : ∀ (gs : List Nat) (u : State), ∃ l, gs.foldl (fun s g => s.settle ps g) u = { u with mem := { u.mem with poison := l } } := by
    intro gs
    induction gs with
    | nil => exact fun u => ⟨u.mem.poison, rfl⟩
    | cons g gs ih =>
      intro u
      obtain ⟨l, hl⟩ := hone u g
      obtain ⟨l', hl'⟩ := ih (u.settle ps g)
      exact ⟨l', by rw [List.foldl_cons, hl', hl]⟩
  exact hfold ..

/-- A row that is read without poison and written: the bytes of the source, and no new poison. -/
theorem writeRow_clean {src dst : Nat} (hp : s.mem.poison = []) :
    ∃ l, s.writeRow (s.readRow n (some ((List.range n).map fun i => src + 8 * i))) ((List.range n).map fun i => dst + 8 * i) =
      { s with mem := { s.mem.writeN dst (s.rd src (8 * n)) with poison := l } } := by
  have hclean : ∀ k, (s.mem.poisonAt k 8).isSome = false := fun k => by simp [Memory.poisonAt, hp]
  have hzip : (s.readRow n (some ((List.range n).map fun i => src + 8 * i))).zip ((List.range n).map fun i => dst + 8 * i) =
      (List.range n).map fun i => ((s.rd (src + 8 * i) 8, false), dst + 8 * i) := by
    simp only [State.readRow, hclean, List.map_map, List.zip_map', Function.comp_def]
  rw [State.writeRow, hzip, List.foldl_map, foldl_wr_pieces]
  refine settleAll_clean (s := s.wr dst (s.rd src (8 * n))) fun p hp => ?_
  simp only [List.map_map, List.mem_map, Function.comp_apply] at hp
  obtain ⟨i, -, rfl⟩ := hp
  rfl

/-! ## One row of a `cpy` -/

theorem copyRow_cpy {cx : BitVec 6} {run : Option Run} {src dst : Nat} (f : BitVec 7) (hk : x.kind = .cpy) (hb : x.rowBase = 0)
    (hlen : x.blk.len = 8 * n) (hp : s.mem.poison = [])
    (hs : ∀ i, i < n → s.locateW cx run .read ((x.blk.src + 8 * i) % 2 ^ 64) 8 = .at (src + 8 * i) ∧
      s.served (src + 8 * i) AKind.read.writes = true)
    (hd : ∀ i, i < n → s.locateW cx run .write ((x.blk.dst + 8 * i) % 2 ^ 64) 8 = .at (dst + 8 * i) ∧
      s.served (dst + 8 * i) AKind.write.writes = true) :
    ∃ u l, SameBut s u ∧ u.mem = s.mem ∧ s.copyRow cx run x 0 f =
      .moved { u with mem := { s.mem.writeN dst (s.rd src (8 * n)) with poison := l } } f := by
  have hin : x.outside 0 = false := by simp [Copy.outside, hk, CopyKind.indexed]
  have hdiv : x.blk.len / 8 = n := by omega
  have hsrc := rowKeys_ok hs
  have hdst := rowKeys_ok hd
  have hne : ¬ (x.kind = .cpymc) := by rw [hk]; exact nofun
  have hkeys : s.dstKeys cx run x 0 = .ok [(List.range n).map fun i => dst + 8 * i] := by
    simp only [State.dstKeys, if_neg hne, dstAt_zero hk hb, hdiv, hdst, Except.map]
  obtain ⟨hsame, hmem⟩ := noteRow_spec (s := s) x.kind [(List.range n).map fun i => dst + 8 * i]
  obtain ⟨l, hwrite⟩ := writeRow_clean (s := s.noteRow x.kind [(List.range n).map fun i => dst + 8 * i]) (n := n) (src := src)
    (dst := dst) (by rw [hmem, hp])
  have hrd : (s.noteRow x.kind [(List.range n).map fun i => dst + 8 * i]).rd src (8 * n) = s.rd src (8 * n) := by
    rw [State.rd, State.rd, hmem]
  refine ⟨s.noteRow x.kind [(List.range n).map fun i => dst + 8 * i], l, hsame, hmem, ?_⟩
  rw [hmem, hrd] at hwrite
  have hno : ¬ (x.kind = .cpred) := by rw [hk]; exact nofun
  simp only [State.copyRow, hin, Bool.false_and, Bool.false_eq_true, if_false, srcAt_zero hk hb, hdiv, hsrc, Except.map, hkeys,
    if_neg hno, List.foldl_cons, List.foldl_nil]
  exact congrArg (RowRes.moved · f) hwrite

/-! ## The channel -/

theorem chan_mapChan (b : Bank) (ch : BitVec 2) (f : Chan → Chan) : (b.mapChan ch f).chan ch = f (b.chan ch) := by
  simp [Bank.mapChan, Bank.chan]

/-- The only started copy completes as the next identifier: the done mark follows. -/
theorem finish_single {c : Chan} (hs : c.started = [x]) (hc : c.completed = []) (hid : x.id = c.done + 1) :
    (c.finish x.id).started = [] ∧ (c.finish x.id).done = x.id := by
  have hafter : idAfter c.done x.id = false := by
    rw [idAfter, hid, show c.done - (c.done + 1) = 0xFFFFFFFF#32 by bv_omega]
    decide
  have hfinish : c.finish x.id = Chan.advance 1 { c with started := c.started.filter (·.id != x.id), completed := [x.id] } := by
    simp only [Chan.finish, hafter, Bool.false_eq_true, if_false, hc, List.length_nil, Nat.zero_add]
  have hhas : ([x.id] : List Word).contains (c.done + 1) = true := by simp [hid]
  rw [hfinish, Chan.advance]
  simp only [hhas, if_true]
  exact ⟨by simp [hs, Chan.advance], hid.symm⟩

/-- The end of a copy that no rule has fired: its channel, its slot, and no byte. -/
theorem copyDone_spec (ch : BitVec 2) (f : BitVec 7) (hr : x.rule = none) :
    (s.copyDone ch x f).bank.chan ch = (s.bank.chan ch).finish x.id ∧ (s.copyDone ch x f).mem = s.mem ∧
    (x.blk.extends = true → ((s.copyDone ch x f).bank.slot x.blk.slot).fill = (s.bank.slot x.blk.slot).fill + x.blk.amount) ∧
    (x.blk.extends = false → (s.copyDone ch x f).bank.slots = s.bank.slots) := by
  unfold State.copyDone
  simp only [hr]
  cases he : x.blk.extends
  · refine ⟨?_, rfl, nofun, fun _ => rfl⟩
    exact chan_mapChan s.bank ch (·.finish x.id)
  · refine ⟨?_, rfl, fun _ => ?_, nofun⟩
    · exact chan_mapChan s.bank ch (·.finish x.id)
    · exact congrArg OSlot.fill (slot_mapSlot (s.bank.mapChan ch (·.finish x.id)) x.blk.slot fun o => { o with fill := o.fill + x.blk.amount })

/-- Where nothing pending counts as performed, a copy's moving performs nothing. -/
theorem beforeMove_unseen (hw : ∀ e ∈ s.pend, e.seen = none) (hk : x.kind.indexed = false) : s.beforeMove x = s := by
  unfold State.beforeMove
  split
  · rfl
  · refine flushWhere_none fun e he => ?_
    rw [PendW.seenBy, PendW.seenAt, hw e he, hk]
    simp

/-- No copy holds back one before which none was requested. -/
theorem copyFree_first (h : ∀ k, ∀ d ∈ (s.bank.chan k).started ++ (s.bank.chan k).queue, x.seq ≤ d.seq) : s.copyFree x = true := by
  have hnone : s.bank.copiesOf.filter (fun d => decide (d.seq < x.seq) && d.oneSource x) = [] := by
    refine List.filter_eq_nil_iff.2 fun d hd hlt => ?_
    obtain ⟨c, hc, hd⟩ := List.mem_flatMap.1 hd
    obtain ⟨i, hi, rfl⟩ := List.mem_iff_getElem.1 hc
    have hi4 : i < 4 := by simpa using hi
    have hch : s.bank.chan (BitVec.ofNat 2 i) = s.bank.chans.toList[i] := by
      simp [Bank.chan, Nat.mod_eq_of_lt hi4]
    have hle := h (BitVec.ofNat 2 i) d (by rw [hch]; exact hd)
    simp only [Bool.and_eq_true, decide_eq_true_eq] at hlt
    omega
  simp only [State.copyFree, hnone, List.isEmpty_nil, Bool.true_or]

/-- The one started copy, of one row that moves without a fault, runs to its end. -/
theorem runCopy_row {ch : BitVec 2} {u : State} {f : BitVec 7} (hs : (s.bank.chan ch).started = [x]) (hpos : x.pos = 0)
    (hrows : x.blk.rows = 1) (hfree : s.copyFree x = true) (hrow : (s.beforeMove x).copyRow s.cx s.bank.run x 0 x.flags = .moved u f) :
    s.runCopy ch x.id = u.copyDone ch x f := by
  have hfind : (s.bank.chan ch).started.find? (·.id == x.id) = some x := by simp [hs]
  have hmove : State.moveRows s.cx s.bank.run x 1 0 (s.beforeMove x) x.flags = ⟨u, f, none⟩ := by
    simp only [State.moveRows, hrow]
  have hmin : min (2 ^ 24) (1 - 0) = 1 := by decide
  simp only [State.runCopy, State.moveCopy, hfind, hfree, if_true, hpos, hrows, hmin, hmove, Nat.zero_add]

theorem runCopy_unknown {ch : BitVec 2} {id : Word} (h : ∀ y ∈ (s.bank.chan ch).started, y.id ≠ id) : s.runCopy ch id = s := by
  have hfind : (s.bank.chan ch).started.find? (·.id == id) = none :=
    List.find?_eq_none.2 fun y hy heq => h y hy (beq_iff_eq.1 heq)
  simp only [State.runCopy, State.moveCopy, hfind]

/-- The copy at the head of its queue starts. -/
theorem startCopy_ok {ch : BitVec 2} (hw : ∀ e ∈ s.pend, e.seen = none) (hk : x.kind.indexed = false)
    (hm : s.bank.mayStart ch = some x) (hfit : s.boardFits (s.boardFor s.bank.run ch x) = true) (hi : x.indices = none) :
    s.startCopy ch = { s.mapChan ch fun c => { c with queue := c.queue.drop 1, started := c.started ++ [x] } with
      board := s.board ++ s.boardFor s.bank.run ch x } := by
  have hsame : { x with indices := none } = x := by rw [← hi]
  simp only [State.startCopy, hm, surface_unseen hw, hk, Bool.false_and, Bool.false_eq_true, if_false, hi, hsame, hfit, if_true]

/-- Settles O40: the copy's one row is the write of the bytes it has read, and its end is the channel's and its slot's. -/
theorem copyRuns : Obligations.CopyRuns := by
  unfold Obligations.CopyRuns
  intro s ch x src dst n hsh hw c at'
  refine ⟨?start, ?noStart, ?complete, ?unknown, ?fault, ?noFault⟩
  case start =>
    intro hk hm hfit hi
    refine ⟨_, rfl, ?_⟩
    rw [onWork_unshadowed hsh, startCopy_ok hw hk hm hfit hi]
    have hchan := chan_mapChan s.bank ch fun c => { c with queue := c.queue.drop 1, started := c.started ++ [x] }
    exact ⟨congrArg Chan.queue hchan, congrArg Chan.started hchan, rfl⟩
  case noStart =>
    intro hm
    have hsame : s.startCopy ch = s := by simp only [State.startCopy, hm]
    change Host.Outcome.next { s.onWork fun s => s.startCopy ch with copyAt := s.wall + 1 } = _
    rw [onWork_unshadowed hsh, hsame]
  case complete =>
    intro hs hk hr hpos hb hi hrows hlen hf hc hid hsrc hdst _ hp hm hfirst
    have hidx : x.kind.indexed = false := by rw [hk]; rfl
    obtain ⟨u, l, hsame, -, hrow⟩ := copyRow_cpy x.flags hk hb hlen hp hsrc hdst
    have hrun := runCopy_row hs hpos hrows (copyFree_first hfirst) (by rw [beforeMove_unseen hw hidx]; exact hrow)
    obtain ⟨hchan, hmem, hfill, hslots⟩ := copyDone_spec
      (s := { u with mem := { s.mem.writeN dst (s.rd src (8 * n)) with poison := l } }) ch x.flags hr
    have hbank : u.bank.chan ch = s.bank.chan ch ∧ u.bank.slots = s.bank.slots := by rw [hsame]; exact ⟨rfl, rfl⟩
    obtain ⟨hstarted, hdone⟩ := finish_single hs hc hid
    refine ⟨_, rfl, ?_⟩
    rw [onWork_unshadowed hsh, hrun]
    refine ⟨(congrArg Chan.started hchan).trans ?_, (congrArg Chan.done hchan).trans ?_, ?_, fun b hb => ?_, fun he => (hfill he).trans ?_,
      fun he => (hslots he).trans hbank.2⟩
    · exact (congrArg (fun c : Chan => (c.finish x.id).started) hbank.1).trans hstarted
    · exact (congrArg (fun c : Chan => (c.finish x.id).done) hbank.1).trans hdone
    · have hwritten := rd_wr_all (key := dst) (bs := s.rd src (8 * n)) hm
      rw [length_rd] at hwritten
      refine Eq.trans (Memory.readN_congr _ _ _ _ fun i _ => ?_) hwritten
      rw [hmem]
      rfl
    · rw [hmem]
      refine (Memory.read_writeN_out (s.rd src (8 * n)) s.mem dst b ?_)
      rwa [length_rd]
    · exact congrArg (fun v => (Vector.getD v x.blk.slot.toNat OSlot.init).fill + x.blk.amount) hbank.2
  case unknown =>
    intro hne
    change Host.Outcome.next { s.onWork fun s => s.runCopy ch x.id with copyAt := s.wall + 1 } = _
    rw [onWork_unshadowed hsh, runCopy_unknown hne]
  case fault =>
    intro e es hfaults
    have hexec : exec (.copyFaultDelivery ch) s = .next (s.takeTrap (s.copyTrap ch e)) := by
      have hf : (s.bank.chan ch).faults = e :: es := hfaults
      change execCopyFaultDelivery ch s = _
      simp only [execCopyFaultDelivery, hf]
    exact ⟨s.copyTrap ch e, hexec, rfl, rfl, rfl, rfl, rfl, rfl⟩
  case noFault =>
    intro hfaults
    have hf : (s.bank.chan ch).faults = [] := hfaults
    change execCopyFaultDelivery ch s = _
    simp only [execCopyFaultDelivery, hf]

end Sys2Proof.Machine
end

section
/-! The ends of runs (R312, R313): a saved run keeps its budget, a drained one ends by its kind. -/

namespace Sys2Proof.Machine

variable {s : State} {r : Run} {x : SRec}

/-- Where no access stands out, a stop of the core changes nothing. -/
theorem quiesce_orderly (ho : Orderly s) : s.quiesce = s := by
  obtain ⟨hpend, hreads, hheld, -, -⟩ := ho
  have hq : s.quiesce = { s with held := [] } := by
    rw [State.quiesce, readsWhere_none hreads, flushWhere_none (by simp [hpend])]
  rw [hq, ← hheld]

theorem recs_mapRec_single (h : s.recs = [x]) {cx : BitVec 6} {addr : DWord} (hc : x.ctx = cx) (ha : x.addr = addr)
    (f : SRec → SRec) : (s.mapRec cx addr f).recs = [f x] := by
  simp [State.mapRec, h, hc, ha]

/-! ## The save of a stopped run -/

theorem recs_saveRun_ready (h : s.recs = [x]) (hc : x.ctx = r.ctx) (ha : x.addr = r.recAddr) (b : Bank) :
    (s.saveRun b r 2 x.last.1 x.last.2).recs = [{ x with state := 2, resume := some r.budget }] := by
  have hready : ∀ u : State, u.recs = [x] →
      (u.moveRec r.ctx r.recAddr 2 x.last.1 x.last.2 0).recs = [{ x with state := 2 }] := fun u hu => by
    rw [← hc, ← ha, recs_ready_single hu]
  exact recs_mapRec_single (hready (s.stow ..) h) hc ha _

theorem saveDone_ready (hf : s.findRec r.ctx r.recAddr = some x) :
    s.saveDone .ready r = (s.saveRun s.bank r 2 x.last.1 x.last.2).goIdle := by
  unfold State.saveDone
  dsimp only
  rw [hf]

theorem shadowSaves_none (hs : s.shadow = none) : s.shadowSaves = false := by
  rw [State.shadowSaves, State.shadowParked, hs]
  rfl

theorem execContextSaveComplete_ready (h : s.recs = [x]) (hc : x.ctx = r.ctx) (ha : x.addr = r.recAddr)
    (hr : s.bank.run = some r) (hp : s.phase = .saving .ready) (hs : s.shadow = none) (hb : s.board = [])
    (hq : s.bank.quiet = true) :
    exec .contextSaveComplete s = .next (s.saveRun s.bank r 2 x.last.1 x.last.2).goIdle := by
  have hquiet : s.saveQuiet s.bank = true := by
    rw [State.saveQuiet, hq, hb]
    rfl
  have hfind : s.findRec r.ctx r.recAddr = some x := by rw [← hc, ← ha, findRec_single h]
  change execContextSaveComplete s = _
  rw [execContextSaveComplete, shadowSaves_none hs, hp, hr, hquiet, ← saveDone_ready hfind]
  rfl

/-! ## The end of a drained run -/

theorem owing_none (h : ∀ a : AgentId, (s.agent a).deferred = []) : s.bank.owing = none := by
  refine List.find?_eq_none.2 fun k _ => ?_
  have hk : s.bank.agents[k.val].deferred = [] := h k
  simp [hk]

theorem execGangEnd_drained (hr : s.bank.run = some r) (hp : s.phase = .draining) (hd : s.bank.drained = true)
    (hdef : ∀ a : AgentId, (s.agent a).deferred = []) (ho : Orderly s) (hb : r.behind = false) :
    exec .gangEnd s = .next (s.endRun r) := by
  have hbehind : ¬ r.behind = true := by simp [hb]
  change execGangEnd s = _
  simp only [execGangEnd, hr, if_pos (And.intro hp hd), quiesce_orderly ho, owing_none hdef, if_neg hbehind]

/-- A run ends by its own kind where it is member 0, or has heard nothing of member 0. -/
theorem endKind_own (h : r.logcore = r.snap.origin ∨ r.kind = none) : r.endKind = r.ending.getD none := by
  unfold Run.endKind
  split
  · rfl
  · next hne => rw [h.resolve_left hne]; rfl

/-- Without doorbells that wait nothing is pumped. -/
theorem pump_empty {p : BitVec 4} (h : s.parts[p.toNat].doorbells = []) : s.pump p = s := by
  rw [State.pump, h]
  exact ite_self _

theorem parts_moveRec (cx : BitVec 6) (addr : DWord) (st : Nat) (cause sub : Byte) (add : Nat) :
    (s.moveRec cx addr st cause sub add).parts = s.parts := by
  unfold State.moveRec
  split
  · dsimp only
    split <;> rfl
  · rfl

theorem ctxs_moveRec (cx : BitVec 6) (addr : DWord) (st : Nat) (cause sub : Byte) (add : Nat) :
    (s.moveRec cx addr st cause sub add).ctxs = s.ctxs := by
  unfold State.moveRec
  split
  · dsimp only
    split <;> rfl
  · rfl

theorem recs_done_single (h : s.recs = [x]) (cause sub : Byte) (add : Nat) :
    (s.moveRec x.ctx x.addr 5 cause sub add).recs = [] := by
  rw [moveRec_dropped (findRec_single h) (.inl rfl)]
  simp [State.dropRec, State.setStatus, State.wr, h]

/-- `slend`: the record is done, and the bits of its set mask are set. -/
theorem finishRec_spec (h : s.recs = [x]) (hc : x.ctx = r.ctx) (ha : x.addr = r.recAddr)
    (hd : s.parts[r.part.toNat].doorbells = []) : (s.finishRec r).recs = [] ∧
      (s.finishRec r).ctxs[r.ctx.toNat].ev = s.ctxs[r.ctx.toNat].ev ||| r.snap.setMask ∧ (s.finishRec r).bank = s.bank := by
  have hfind : s.findRec r.ctx r.recAddr = some x := by rw [← hc, ← ha, findRec_single h]
  have hfin : s.finishRec r = (s.setEvents r.ctx r.snap.setMask 0).moveRec r.ctx r.recAddr 5 x.last.1 x.last.2 0 := by
    simp only [State.finishRec, hfind]
    refine pump_empty ?_
    rw [parts_moveRec]
    exact hd
  rw [hfin]
  refine ⟨?_, ?_, bank_moveRec ..⟩
  · rw [← hc, ← ha]
    exact recs_done_single (s := s.setEvents _ _ _) h ..
  · rw [ctxs_moveRec]
    exact congrArg Ctx.ev (ctxs_mapCtx (s := s) (cx := r.ctx) fun c =>
      { c with ev := c.ev ||| r.snap.setMask, err := c.err ||| 0 })

/-- `yield`: the record is ready again, behind those pushed before, with the deadline named. -/
theorem repush_spec (h : s.recs = [x]) (hc : x.ctx = r.ctx) (ha : x.addr = r.recAddr) (d : DWord) :
    (∃ y, (s.repush r d).recs = [y] ∧ y.state = 2 ∧ y.order = s.pushes ∧
      y.snap.deadline = if d = 0 then x.snap.deadline else d) ∧
    (s.repush r d).pushes = s.pushes + 1 ∧ (s.repush r d).ctxs = s.ctxs := by
  have hfind : s.findRec r.ctx r.recAddr = some x := by rw [← hc, ← ha, findRec_single h]
  have hready : (s.moveRec r.ctx r.recAddr 2 0 0 0).recs =
      [{ x with state := 2, last := (0, 0), begun := x.begun || decide (3 ≤ 2) }] := by
    rw [← hc, ← ha, recs_moveRec_single h (by decide)]
  have hpush : (s.moveRec r.ctx r.recAddr 2 0 0 0).pushes = s.pushes := by
    rw [moveRec_held hfind (by decide)]
    rfl
  simp only [State.repush, hfind]
  refine ⟨⟨_, recs_mapRec_single hready hc ha _, rfl, rfl, ?_⟩, congrArg (· + 1) hpush, ctxs_moveRec ..⟩
  dsimp only
  split <;> rfl

end Sys2Proof.Machine
end

section
/-! The start of the one selectable record, as a gang of one core (R309, R311). -/

namespace Sys2Proof.Machine

variable {s : State} {x : SRec} {i : Image}

/-! ## What an admission does not look at -/

/-- The state with other choices left for what may be selected. -/
def State.withPick (s : State) (l : List Nat) : State := { s with oracle := { s.oracle with pick := l } }

theorem walkFrom_withPick (l : List Nat) (cx : BitVec 6) (va n table : Nat) :
    (s.withPick l).walkFrom cx va n table = s.walkFrom cx va n table := by
  induction n generalizing table with
  | zero => rfl
  | succ n ih =>
    have hpte : (s.withPick l).pte = s.pte := rfl
    have hcont : (s.withPick l).contiguous = s.contiguous := rfl
    have hrd : (s.withPick l).rdNat = s.rdNat := rfl
    simp only [State.walkFrom, hpte, hcont, hrd, ih]

theorem locateW_withPick (l : List Nat) (cx : BitVec 6) (run : Option Run) (k : AKind) (va w : Nat) :
    (s.withPick l).locateW cx run k va w = s.locateW cx run k va w := by
  have hloc : (s.withPick l).locate cx run k va w = s.locate cx run k va w := rfl
  have hctx : (s.withPick l).ctxs = s.ctxs := rfl
  rw [State.locateW, State.locateW, hloc, State.walkVa, State.walkVa, walkFrom_withPick, hctx]

theorem engRead_withPick (l : List Nat) (cx : BitVec 6) (run : Option Run) (va w n : Nat) :
    (s.withPick l).engRead cx run va w n = s.engRead cx run va w n := by
  have hheld : (s.withPick l).heldMx = s.heldMx := rfl
  have hhome : (s.withPick l).homeRead cx run va w n = s.homeRead cx run va w n := by
    have hserved : (s.withPick l).served = s.served := rfl
    have hrd : (s.withPick l).rd = s.rd := rfl
    have hmem : (s.withPick l).mem = s.mem := rfl
    simp only [State.homeRead, locateW_withPick, hserved, hrd, hmem]
  rw [State.engRead, State.engRead, locateW_withPick, hheld, hhome]

theorem engReadN_withPick (l : List Nat) (cx : BitVec 6) (run : Option Run) (w n va : Nat) :
    (s.withPick l).engReadN cx run w n va = s.engReadN cx run w n va := by
  induction n generalizing va with
  | zero => rfl
  | succ n ih => rw [State.engReadN, State.engReadN, engRead_withPick, ih]

theorem admission_withPick (l : List Nat) (cx : BitVec 6) (sn : Snap) :
    (s.withPick l).admission cx sn = s.admission cx sn := by
  have hlevels : ∀ code off n, (s.withPick l).levelBytes cx code off n = s.levelBytes cx code off n := by
    intro code off n
    have hctx : (s.withPick l).ctxs = s.ctxs := rfl
    have hwall : (s.withPick l).wall = s.wall := rfl
    rw [State.levelBytes, State.levelBytes, engReadN_withPick, hctx, hwall]
  have hfits : (s.withPick l).gangFits = s.gangFits := rfl
  rw [State.admission, State.admission, engReadN_withPick, hfits]
  simp only [hlevels]

theorem choose_one (s : State) : ∃ l, s.oracle.choose 1 = (0, { s.oracle with pick := l }) := by
  unfold Oracle.choose
  split
  next h => exact ⟨[], by rw [← h]⟩
  next y l _ => exact ⟨l, by simp [Nat.mod_one]⟩

/-! ## The place of a gang of one core -/

theorem coordOf_zero (lv : List TblLvl) (kind axis : Nat) : coordOf lv 0 kind axis = 0 := by
  unfold coordOf
  split <;> simp

theorem originFor_one (pos limit choice : Nat) : originFor pos 1 limit choice = pos := by
  have hroom : min pos (limit - 1) - (pos + 1 - 1) = 0 := by omega
  simp only [originFor, hroom, Nat.zero_add, Nat.mod_one]
  rfl

theorem axisPlace_one (o : Nat) (mirror : Bool) : axisPlace o 1 0 mirror = o := by
  cases mirror <;> rfl

section Levels

variable {lv : List TblLvl} (hl : ∀ l ∈ lv, l.kind = 0)
include hl

/-- Temporal levels spread a gang over no axis. -/
theorem axisExtent_temporal {kind : Nat} (hk : kind ≠ 0) (axis : Nat) : axisExtent lv kind axis = 1 := by
  have hnone : lv.filter (fun l => l.kind == kind && l.axis == axis) = [] :=
    List.filter_eq_nil_iff.2 fun l hin => by simp [hl l hin, hk.symm]
  rw [axisExtent, hnone]
  rfl

/-- The only place of a gang of one core is the core itself. -/
theorem spotFor_temporal (ch : Nat × Nat × Nat) :
    s.spotFor lv ch = ⟨s.core % 8, s.core / 8, s.die % 4, s.die / 4, ch.2.2 % 16⟩ := by
  simp only [State.spotFor, axisExtent_temporal hl (kind := 1) (by decide), axisExtent_temporal hl (kind := 2) (by decide),
    originFor_one]

theorem memberCore_spotFor (ch : Nat × Nat × Nat) : memberCore lv (s.spotFor lv ch) 0 = s.coreId := by
  simp only [memberCore, spotFor_temporal hl, axisExtent_temporal hl (kind := 1) (by decide),
    axisExtent_temporal hl (kind := 2) (by decide), coordOf_zero, axisPlace_one, State.coreId]
  omega

theorem memberAt_spotFor (ch : Nat × Nat × Nat) : s.memberAt lv 1 (s.spotFor lv ch) = 0 := by
  have hrange : List.range 1 = [0] := rfl
  simp [State.memberAt, hrange, List.findIdx_cons, memberCore_spotFor hl]

variable (hcore : s.core < 64)
include hcore

theorem spotFor_holds (ch : Nat × Nat × Nat) : (s.spotFor lv ch).holds lv s.coreId = true := by
  simp only [Spot.holds, spotFor_temporal hl, axisExtent_temporal hl (kind := 1) (by decide),
    axisExtent_temporal hl (kind := 2) (by decide), State.coreId, Bool.and_eq_true, decide_eq_true_eq]
  omega

end Levels

theorem spotHere_temporal (hl : ∀ l ∈ i.levels, l.kind = 0) (hcore : s.core < 64) (ht : s.taken = []) (hd : x.die = s.die)
    (hx : x.resume = none) : s.spotHere x i = some (s.spotFor i.levels (s.oracle.place.headD (0, 0, 0))) := by
  have hdie : ∀ ch, (s.spotFor i.levels ch).onDie i.levels x.die = true := by
    intro ch
    simp [Spot.onDie, spotFor_temporal hl, axisExtent_temporal hl (kind := 2), hd]
  have hfree : ∀ p, s.spotFree i.levels [] p = true := by simp [State.spotFree, ht]
  have hbind : ∀ ch, s.bindable x i (s.spotFor i.levels ch) = true := by
    intro ch
    rw [State.bindable, spotFor_holds hl hcore, hdie, hfree, hx]
    rfl
  exact if_pos (hbind _)

/-! ## The one candidate -/

theorem before_irrefl (x : SRec) : x.before x = false := by simp [SRec.before]

section One

variable (h : s.recs = [x])
include h

theorem overtake_single (rs : List SRec) : s.overtake rs x = s := by
  have hmap : ([x].map fun q => if rs.contains q && q.die == x.die && q.before x then { q with passed := q.passed + 1 } else q) = [x] := by
    simp [before_irrefl]
  rw [State.overtake, h, hmap, ← h]

theorem candidates_other {p : BitVec 4} (hp : s.partOf x ≠ p) : s.candidates p = [] := by
  have hres : s.reservedFor p = [] := by simp [State.reservedFor, h, hp]
  have hready : ∀ d, s.readyOn p d = [] := by simp [State.readyOn, h, hp]
  simp [State.candidates, hres, State.candidatesOn, hready]

variable (hsel : s.selectable x = true) (hd : x.die = s.die) (hplace : s.placeable x = true)
include hsel hd hplace

theorem candidatesOn_single : s.candidatesOn (s.partOf x) s.die = [x] := by
  have hready : s.readyOn (s.partOf x) s.die = [x] := by simp [State.readyOn, h, hsel, hd, insertRec]
  simp [State.candidatesOn, hready, hplace]

theorem candidates_single : s.candidates (s.partOf x) = [x] := by
  have hdies : s.readyDies (s.partOf x) = [s.die] := by
    have hrecs : (s.recs.filter fun r => s.partOf r == s.partOf x).map (·.die) = [s.die] := by simp [h, hd]
    rw [State.readyDies, hrecs]
    simp [List.eraseDups_cons]
  unfold State.candidates
  split
  · rw [hdies, List.flatMap_singleton, candidatesOn_single h hsel hd hplace]
  next hne =>
    have hsub : (s.reservedFor (s.partOf x)).Sublist [x] := by
      rw [State.reservedFor, h]
      exact List.filter_sublist
    have hres : s.reservedFor (s.partOf x) = [x] :=
      (List.sublist_singleton.1 hsub).resolve_left fun hnil => hne (by rw [hnil]; rfl)
    simp [hres, hplace]

end One

/-- The one partition that has something to run is picked. -/
theorem foldl_pick {p₀ : BitVec 4} {skip : BitVec 4 → Bool} (fair : BitVec 4 → BitVec 4 → Bool) (hno : ∀ p, p ≠ p₀ → skip p = true)
    (hyes : skip p₀ = false) (l : List (BitVec 4)) (b : Option (BitVec 4)) (hb : b = none ∨ b = some p₀) (hin : p₀ ∈ l ∨ b = some p₀) :
    l.foldl (fun best p => if skip p then best
      else match best with
        | some q => if fair p q then some p else some q
        | none => some p) b = some p₀ := by
  induction l generalizing b with
  | nil => exact hin.resolve_left List.not_mem_nil
  | cons p l ih =>
    rw [List.foldl_cons]
    by_cases hp : p = p₀
    · subst hp
      simp only [hyes, Bool.false_eq_true, if_false]
      rcases hb with rfl | rfl
      · exact ih _ (.inr rfl) (.inr rfl)
      · simp only [ite_self]
        exact ih _ (.inr rfl) (.inr rfl)
    · simp only [hno p hp, if_true]
      exact ih b hb (hin.imp_left fun hm => (List.mem_cons.1 hm).resolve_left fun he => hp he.symm)

theorem pickPart_single (h : s.recs = [x]) (ht : s.taken = []) (hcand : s.candidates (s.partOf x) = [x]) :
    s.pickPart = some (s.partOf x) := by
  have hcap : ∀ p, s.atCap p = false := by simp [State.atCap, ht]
  have hall : s.partOf x ∈ (List.range 16).map (BitVec.ofNat 4) :=
    List.mem_map.2 ⟨(s.partOf x).toNat, List.mem_range.2 (s.partOf x).isLt, by simp⟩
  refine foldl_pick (skip := fun p => s.atCap p || (s.candidates p).isEmpty) s.fairer (fun p hp => ?_) ?_ _ none (.inl rfl)
    (.inl hall)
  · rw [candidates_other h (Ne.symm hp)]
    exact Bool.or_true _
  · rw [hcap, hcand]
    rfl

/-! ## Its start -/

/-- An idle core starts the one selectable record. -/
theorem execGangSelect_single (h : s.recs = [x]) (hp : s.phase = .idle) (ht : s.taken = []) (hsel : s.selectable x = true)
    (hd : x.die = s.die) (hx : x.resume = none) (hadm : s.admission x.ctx x.snap = .ok i) (hl : ∀ l ∈ i.levels, l.kind = 0)
    (hcore : s.core < 64) : ∃ l, exec .gangSelect s =
      .next ((s.withPick l).bindGang x i (s.spotFor i.levels (s.oracle.place.headD (0, 0, 0)))) := by
  have hspot := spotHere_temporal (s := s) hl hcore ht hd hx
  have hplace : s.placeable x = true := by
    simp only [State.placeable, hadm, hspot]
    rfl
  have hcand := candidates_single h hsel hd hplace
  obtain ⟨l, hl⟩ := choose_one s
  refine ⟨l, ?_⟩
  change execGangSelect s = _
  rw [execGangSelect, if_pos hp, State.selectGang, pickPart_single h ht hcand]
  dsimp only
  rw [hcand]
  simp only [List.length_singleton, hl, List.getElem?_cons_zero]
  have hover := overtake_single (s := s.withPick l) h [x]
  have hspot' : (s.withPick l).spotHere x i = s.spotHere x i := rfl
  have hadm' := (admission_withPick (s := s) l x.ctx x.snap).trans hadm
  have hfold : ({ s with oracle := { s.oracle with pick := l } } : State) = s.withPick l := rfl
  rw [hfold, hover, hadm']
  dsimp only
  rw [hspot', hspot]

/-- The two halves of a double word, joined. -/
theorem halves (d : DWord) : d.extractLsb' 32 32 ++ d.extractLsb' 0 32 = d := by
  rw [BitVec.extractLsb'_append_extractLsb'_eq_extractLsb' (by decide)]
  exact BitVec.extractLsb'_eq_self

/-- An agent at its entry. -/
theorem agentAt_spec (r : Run) (second : DWord) (k : Fin 5) :
    (r.agentAt second k).pc = BitVec.ofNat 64 (r.img.entries.getD k.val 0) ∧ (r.agentAt second k).halted = false ∧
      (r.agentAt second k).g[1] ++ (r.agentAt second k).g[0] = r.snap.frame ∧
      (r.agentAt second k).g[3] ++ (r.agentAt second k).g[2] = second ∧
      ∀ n, (h : n < 32) → 4 ≤ n → (r.agentAt second k).g[n] = 0 := by
  refine ⟨rfl, rfl, halves _, halves _, fun n hn h4 => ?_⟩
  have h0 : 0 ≠ n := by omega
  have h1 : 1 ≠ n := by omega
  have h2 : 2 ≠ n := by omega
  have h3 : 3 ≠ n := by omega
  simp [Run.agentAt, h0, h1, h2, h3]

theorem recs_runRec (h : s.recs = [x]) (hx : x.resume = none) (m : Option (BitVec 3)) :
    (s.runRec x m).recs = [{ x with
      state := 3, last := (0, 0), model := m, replays := 0, reserves := false, begun := true }] := by
  have hmoved : ∀ u : State, u.recs = [x] → (u.moveRec x.ctx x.addr 3 0 0 1).recs =
      [{ x with state := 3, last := (0, 0), begun := true }] := fun u hu => by
    rw [recs_moveRec_single hu (by decide), decide_eq_true (by decide), Bool.or_true]
  have hrun : s.runRec x m = ((s.wrNat (x.home + 0x30) 8 (s.areaOf x.ctx x.snap.origin)).moveRec x.ctx x.addr 3 0 0 1).mapRec
      x.ctx x.addr fun x => { x with model := m, resume := none, replays := 0, reserves := false } := by
    simp only [State.runRec, hx]
    rfl
  rw [hrun, recs_mapRec_single (hmoved (s.wrNat ..) h) rfl rfl, ← hx]

/-- A gang of one core that has no save starts at its entries. -/
theorem bindGang_start (hx : x.resume = none) (hg : x.snap.gang = 1) {spot : Spot} (hn : s.memberAt i.levels 1 spot = 0) :
    ∃ u : State, ∃ members, u.recs = s.recs ∧ u.ctxs = s.ctxs ∧ s.bindGang x i spot = u.startRun x i members 0 := by
  refine ⟨{ s with oracle := { s.oracle with place := s.oracle.place.drop 1 } }.mapPart (s.partOf x) fun p =>
    p.admitted s.wall ((List.range 1).map (memberCore i.levels spot)), (List.range 1).map (memberCore i.levels spot), rfl, rfl, ?_⟩
  rw [State.bindGang, hg, hn]
  dsimp only
  rw [hx]
  rfl

/-- Settles O50: a stop saves its run, a drained run ends by its kind, and an idle core starts the one candidate at its entries. -/
theorem runEnds : Obligations.RunEnds := by
  unfold Obligations.RunEnds
  intro s r x d hrecs hctx haddr
  refine ⟨?switched, ?saved, ?ended, ?started⟩
  case switched =>
    intro _ hp
    change execContextSwitchComplete s = _
    rw [execContextSwitchComplete, hp]
    rfl
  case saved =>
    intro hr hp hs hb hq
    exact ⟨_, execContextSaveComplete_ready hrecs hctx haddr hr hp hs hb hq, rfl, rfl, recs_saveRun_ready hrecs hctx haddr _⟩
  case ended =>
    intro hr hp hd hdef ho hb hown _ hbells
    have hend := execGangEnd_drained hr hp hd hdef ho hb
    have hkind := endKind_own hown
    refine ⟨fun hslend => ?_, fun hyield => ?_⟩
    · rw [hslend] at hkind
      obtain ⟨hnone, hev, hbank⟩ := finishRec_spec hrecs hctx haddr hbells
      rw [State.endRun, hkind] at hend
      exact ⟨_, hend, rfl, hnone, hev, hbank⟩
    · rw [hyield] at hkind
      obtain ⟨⟨y, hy, hstate, horder, hdead⟩, hpush, hctxs⟩ := repush_spec hrecs hctx haddr d
      rw [State.endRun, hkind] at hend
      exact ⟨_, y, hend, rfl, hy, hstate, horder, hpush, hdead, hctxs⟩
  case started =>
    intro hp ht hsel hd hx i hadm hg hl hcore _
    obtain ⟨l, hexec⟩ := execGangSelect_single hrecs hp ht hsel hd hx hadm hl hcore
    obtain ⟨u, members, hurecs, huctxs, hbind⟩ :=
      bindGang_start (s := s.withPick l) hx hg (memberAt_spotFor (s := s) hl (s.oracle.place.headD (0, 0, 0)))
    rw [hbind] at hexec
    refine ⟨_, _, hexec, rfl, rfl, rfl, rfl, rfl, rfl, rfl, ?_, ?_⟩
    · have hmodel : (u.newRun x i members 0).model = s.ctxs[x.ctx.toNat].model := by
        rw [State.newRun, huctxs]
        rfl
      exact (recs_runRec (s := u.takeArea _ _) (hurecs.trans hrecs) hx _).trans (by rw [hmodel])
    · intro k
      have hagent : (u.startRun x i members 0).agent k = (u.newRun x i members 0).agentAt x.addr k := by
        simp [State.agent, State.startRun, Bank.fresh]
      rw [hagent]
      exact agentAt_spec ..

end Sys2Proof.Machine
end

section
/-! Partition reset and withheld records (R335, R409, R410). -/

namespace Sys2Proof.Machine

variable {s : State} {p : BitVec 4} {y z : SRec}

/-! ## The records of a partition are dropped -/

/-- A record moves between states: memory and the records alone change. -/
theorem moveRec_eq (s : State) (cx : BitVec 6) (addr : DWord) (st : Nat) (cause sub : Byte) (add : Nat) :
    ∃ m rs, s.moveRec cx addr st cause sub add = { s with mem := m, recs := rs } := by
  unfold State.moveRec
  split
  · dsimp only
    split
    · exact ⟨_, _, rfl⟩
    · exact ⟨_, _, rfl⟩
  · exact ⟨s.mem, s.recs, rfl⟩

/-- Records, one after another, are dropped as killed. -/
def State.dropAll (s : State) (l : List SRec) : State := l.foldl (fun (u : State) r => u.moveRec r.ctx r.addr 6 0 0 0) s

theorem dropAll_cons (s : State) (z : SRec) (l : List SRec) : s.dropAll (z :: l) = (s.moveRec z.ctx z.addr 6 0 0 0).dropAll l := rfl

theorem dropAll_eq (l : List SRec) (s : State) : ∃ m rs, s.dropAll l = { s with mem := m, recs := rs } := by
  induction l generalizing s with
  | nil => exact ⟨s.mem, s.recs, rfl⟩
  | cons z l ih =>
    obtain ⟨m, rs, hz⟩ := moveRec_eq s z.ctx z.addr 6 0 0 0
    obtain ⟨m', rs', hl⟩ := ih (s.moveRec z.ctx z.addr 6 0 0 0)
    exact ⟨m', rs', by rw [dropAll_cons, hl, hz]⟩

/-- The records that a drop leaves. -/
theorem recs_drop (s : State) (cx : BitVec 6) (addr : DWord) :
    (s.moveRec cx addr 6 0 0 0).recs = s.recs.filter fun r => !(r.ctx == cx && r.addr == addr) := by
  cases hf : s.findRec cx addr with
  | some r => rw [moveRec_dropped hf (.inr rfl)]; rfl
  | none =>
    have hnone := List.find?_eq_none.1 hf
    rw [State.moveRec, hf]
    exact (List.filter_eq_self.2 fun r hr => by rw [Bool.not_eq_true', Bool.eq_false_iff]; exact hnone r hr).symm

theorem recs_dropAll (l : List SRec) (s : State) :
    (s.dropAll l).recs = s.recs.filter fun r => l.all fun z => !(r.ctx == z.ctx && r.addr == z.addr) := by
  induction l generalizing s with
  | nil => simp [State.dropAll]
  | cons z l ih =>
    rw [dropAll_cons, ih, recs_drop, List.filter_filter]
    exact List.filter_congr fun r _ => by rw [List.all_cons, Bool.and_comm]

/-- A drop writes the status word of a record that the scheduler holds, or nothing. -/
theorem drop_cases (s : State) (cx : BitVec 6) (addr : DWord) : s.moveRec cx addr 6 0 0 0 = s ∨
    ∃ w ∈ s.recs, w.ctx = cx ∧ w.addr = addr ∧ s.moveRec cx addr 6 0 0 0 = (s.setStatus w.home 6 0 0 0).dropRec cx addr := by
  cases hf : s.findRec cx addr with
  | none =>
    refine .inl ?_
    rw [State.moveRec, hf]
  | some w =>
    have hw := List.find?_some hf
    rw [Bool.and_eq_true, beq_iff_eq, beq_iff_eq] at hw
    exact .inr ⟨w, List.mem_of_find?_eq_some hf, hw.1, hw.2, moveRec_dropped hf (.inr rfl) ..⟩

theorem subset_drop (s : State) (cx : BitVec 6) (addr : DWord) : ∀ w ∈ (s.moveRec cx addr 6 0 0 0).recs, w ∈ s.recs := by
  rw [recs_drop]
  exact fun w hw => (List.mem_filter.1 hw).1

/-- A dropped record is held no more. -/
theorem not_mem_drop (s : State) (z : SRec) : z ∉ (s.moveRec z.ctx z.addr 6 0 0 0).recs := by
  rw [recs_drop]
  exact fun h => by simpa using (List.mem_filter.1 h).2

theorem memOk_drop (hm : MemOk s) (cx : BitVec 6) (addr : DWord) : MemOk (s.moveRec cx addr 6 0 0 0) := by
  obtain hsame | ⟨w, -, -, -, heq⟩ := drop_cases s cx addr
  · rwa [hsame]
  · rw [heq]
    exact State.wf_wr s (w.home + 0x38) _ hm

/-- Bytes outside the status words of the records that are dropped stay. -/
theorem read_dropAll {a : Nat} (l : List SRec) (s : State)
    (ha : ∀ w ∈ s.recs, ∀ z ∈ l, w.ctx = z.ctx → a < w.home + 0x38 ∨ w.home + 0x40 ≤ a) :
    (s.dropAll l).mem.read a = s.mem.read a := by
  induction l generalizing s with
  | nil => rfl
  | cons z l ih =>
    rw [dropAll_cons, ih _ fun w hw y hy => ha w (subset_drop s _ _ w hw) y (List.mem_cons_of_mem _ hy)]
    obtain hsame | ⟨w, hw, hc, -, heq⟩ := drop_cases s z.ctx z.addr
    · rw [hsame]
    · rw [heq]
      exact read_setStatus_out (s := s) (ha w hw z List.mem_cons_self hc) 6 0 0 0

/-- Records are apart: two of them differ in context or address, and their homes do not meet. -/
def RecsApart (rs : List SRec) : Prop := ∀ y ∈ rs, ∀ z ∈ rs, y = z ∨ ((y.ctx ≠ z.ctx ∨ y.addr ≠ z.addr) ∧
  (y.home + 64 ≤ z.home ∨ z.home + 64 ≤ y.home))

theorem RecsApart.eq {rs : List SRec} (h : RecsApart rs) (hy : y ∈ rs) (hz : z ∈ rs) (hc : y.ctx = z.ctx) (ha : y.addr = z.addr) : y = z :=
  (h y hy z hz).resolve_right fun hn => hn.1.elim (fun f => f hc) fun f => f ha

/-- The word of a record that is held no more stays as it is. -/
theorem rd_dropAll_gone {rs : List SRec} (h : RecsApart rs) (hy : y ∈ rs) {k n : Nat} (hk : y.home ≤ k) (hn : k + n ≤ y.home + 64)
    (l : List SRec) (s : State) (hs : ∀ w ∈ s.recs, w ∈ rs ∧ w ≠ y) : (s.dropAll l).rd k n = s.rd k n := by
  induction l generalizing s with
  | nil => rfl
  | cons z l ih =>
    rw [dropAll_cons, ih _ fun w hw => hs w (subset_drop s _ _ w hw)]
    obtain hsame | ⟨w, hw, -, -, heq⟩ := drop_cases s z.ctx z.addr
    · rw [hsame]
    · obtain ⟨hin, hne⟩ := hs w hw
      have hap := ((h w hin y hy).resolve_left hne).2
      rw [heq]
      exact rd_setStatus_out (s := s) (by omega) 6 0 0 0

/-- A record that is dropped has its status word written: state 6, no cause, the runs as they were. -/
theorem status_dropAll {rs : List SRec} (h : RecsApart rs) (l : List SRec) (s : State) (hm : MemOk s) (hs : ∀ w ∈ s.recs, w ∈ rs)
    (hl : ∀ w ∈ l, w ∈ rs) (hy : y ∈ s.recs) (hyl : y ∈ l) : (s.dropAll l).rd (y.home + 0x38) 4 = [6, 0, 0, 0] ∧
      (s.dropAll l).rdNat (y.home + 0x3C) 4 = s.rdNat (y.home + 0x3C) 4 := by
  induction l generalizing s with
  | nil => exact absurd hyl List.not_mem_nil
  | cons z l ih =>
    rw [dropAll_cons]
    by_cases hzy : z = y
    · subst hzy
      obtain hsame | ⟨w, hw, hc, ha, heq⟩ := drop_cases s z.ctx z.addr
      · have hgone := not_mem_drop s z
        rw [hsame] at hgone
        exact absurd hy hgone
      obtain rfl := h.eq (hs w hw) (hs z hy) hc ha
      have hgone : ∀ v ∈ (s.moveRec w.ctx w.addr 6 0 0 0).recs, v ∈ rs ∧ v ≠ w := by
        intro v hv
        exact ⟨hs v (subset_drop s _ _ v hv), fun hvw => not_mem_drop s w (hvw ▸ hv)⟩
      have hruns : s.rdNat (w.home + 0x3C) 4 < 2 ^ 32 := rdNat_lt s (w.home + 0x3C) 4
      constructor
      · rw [rd_dropAll_gone h (hs w hw) (by omega) (by omega) l _ hgone, heq]
        exact rd_setStatus hm w.home 6 0 0 0
      · rw [State.rdNat, rd_dropAll_gone h (hs w hw) (by omega) (by omega) l _ hgone, heq]
        exact (rdNat_setStatus_runs hm w.home 6 0 0 0).trans (Nat.mod_eq_of_lt hruns)
    · have hkept : y ∈ (s.moveRec z.ctx z.addr 6 0 0 0).recs := by
        rw [recs_drop]
        refine List.mem_filter.2 ⟨hy, ?_⟩
        by_contra hmatch
        simp only [Bool.not_eq_true', Bool.not_eq_false, Bool.and_eq_true, beq_iff_eq] at hmatch
        exact hzy (h.eq (hs y hy) (hl z List.mem_cons_self) hmatch.1 hmatch.2).symm
      have hrest := ih _ (memOk_drop hm z.ctx z.addr) (fun w hw => hs w (subset_drop s _ _ w hw))
        (fun w hw => hl w (List.mem_cons_of_mem _ hw)) hkept ((List.mem_cons.1 hyl).resolve_left (Ne.symm hzy))
      refine ⟨hrest.1, hrest.2.trans ?_⟩
      obtain hsame | ⟨w, hw, hc, ha, heq⟩ := drop_cases s z.ctx z.addr
      · rw [hsame]
      · have hwy : w ≠ y := fun he => hzy
          ((h.eq (hl z List.mem_cons_self) (hs y hy) (by rw [← hc, he]) (by rw [← ha, he])))
        have hap := ((h w (hs w hw) y (hs y hy)).resolve_left hwy).2
        rw [heq]
        exact congrArg ofBytes (rd_setStatus_out (s := s) (by omega) 6 0 0 0)

/-! ## A reset begins -/

/-- Requests that are queued during a reset change the registers of partitions alone. -/
theorem queueRequest_resetting (sub : Byte) (hr : s.parts[p.toNat].resetting = true) :
    ∃ ps, s.queueRequest p sub = { s with parts := ps } ∧ ps[p.toNat].resetting = true := by
  unfold State.queueRequest
  split
  · exact ⟨s.parts, rfl, hr⟩
  · rw [queueDoorbell_resetting s.die sub hr]
    split
    · exact ⟨_, rfl, (congrArg Part.resetting (parts_mapPart (s := s) (p := p)
        fun y => { y with doorbells := y.doorbells ++ [(s.die, sub)] })).trans hr⟩
    · exact ⟨_, rfl, (congrArg Part.resetting (parts_mapPart (s := s) (p := p) fun y => { y with writeErr := true })).trans hr⟩

theorem foldl_queueRequest (l : List (BitVec 4 × Byte × Bool)) (s : State) (hr : s.parts[p.toNat].resetting = true) :
    ∃ ps, l.foldl (fun (u : State) q => u.queueRequest p q.2.1) s = { s with parts := ps } ∧ ps[p.toNat].resetting = true := by
  induction l generalizing s with
  | nil => exact ⟨s.parts, rfl, hr⟩
  | cons q l ih =>
    obtain ⟨ps, hq, hps⟩ := queueRequest_resetting q.2.1 hr
    obtain ⟨ps', hl, hps'⟩ := ih (s.queueRequest p q.2.1) (by rw [hq]; exact hps)
    exact ⟨ps', by rw [List.foldl_cons, hl, hq], hps'⟩

theorem requeue_eq (hr : s.parts[p.toNat].resetting = true) :
    ∃ ps sv, s.requeue p = { s with parts := ps, svcPend := sv } ∧ ps[p.toNat].resetting = true := by
  obtain ⟨ps, hq, hps⟩ := foldl_queueRequest (p := p) (s.svcPend.filter fun q => q.1 == p)
    { s with svcPend := s.svcPend.filter fun q => q.1 != p } hr
  exact ⟨ps, s.svcPend.filter fun q => q.1 != p, hq, hps⟩

/-- A command that is in progress has its answer, and the partition is marked. -/
def State.marked (s : State) (p : BitVec 4) : State := (s.resolveCommand p).mapPart p fun x => { x with resetting := true }

theorem marked_resetting (s : State) (p : BitVec 4) : (s.marked p).parts[p.toNat].resetting = true :=
  congrArg Part.resetting (parts_mapPart (s := s.resolveCommand p) (p := p) fun x => { x with resetting := true })

theorem beginReset_marked (hr : s.parts[p.toNat].resetting = false) :
    s.beginReset p = ((((s.marked p).requeue p).dropRecs p).resetAreas p).resetCore p :=
  if_neg fun h => Bool.false_ne_true (hr.symm.trans h)

theorem dropRecs_eq (s : State) (p : BitVec 4) : ∃ m rs, s.dropRecs p = { s with mem := m, recs := rs } := dropAll_eq _ s

theorem quiesce_frame (u : State) : u.quiesce.mailbox = u.mailbox ∧ u.quiesce.parts = u.parts := by
  rw [sameBut_quiesce u]
  exact ⟨rfl, rfl⟩

theorem swapBack_frame (u : State) : u.swapBack.mailbox = u.mailbox ∧ u.swapBack.parts = u.parts := ⟨rfl, rfl⟩

theorem bank_frame (u : State) (b : Bank) :
    ({ u with bank := b } : State).mailbox = u.mailbox ∧ ({ u with bank := b } : State).parts = u.parts := ⟨rfl, rfl⟩

theorem resetServing_frame (u : State) (p : BitVec 4) (b : Bank) :
    (u.resetServing p b).mailbox = u.mailbox ∧ (u.resetServing p b).parts = u.parts := by
  unfold State.resetServing
  dsimp only
  split
  · have hquiet := quiesce_frame { u with shadow := some (if b.isOf p && !b.away then b.resetBank else b) }
    split
    · rwa [(bank_frame _ _).1, (bank_frame _ _).2]
    · rwa [(swapBack_frame _).1, (swapBack_frame _).2, (bank_frame _ _).1, (bank_frame _ _).2]
  · exact ⟨rfl, rfl⟩

/-- The core's reset changes neither the mailbox nor the registers of partitions. -/
theorem resetCore_frame (s : State) (p : BitVec 4) : (s.resetCore p).mailbox = s.mailbox ∧ (s.resetCore p).parts = s.parts := by
  have hkill : ∀ u : State, ({ u.thawed with bank := s.bank.resetBank, phase := .saving .kill, srPend := [], turn := 0 } : State).mailbox
      = u.mailbox ∧ ({ u.thawed with bank := s.bank.resetBank, phase := .saving .kill, srPend := [], turn := 0 } : State).parts
      = u.parts := fun _ => ⟨rfl, rfl⟩
  unfold State.resetCore
  split
  · exact resetServing_frame ..
  · split
    · rw [(hkill _).1, (hkill _).2]
      exact quiesce_frame s
    · exact ⟨rfl, rfl⟩

/-- A reset marks the partition, and the mailbox has the answer of a command that was in progress. -/
theorem beginReset_marks (hr : s.parts[p.toNat].resetting = false) : (s.beginReset p).parts[p.toNat].resetting = true ∧
    (s.beginReset p).mailbox = (s.resolveCommand p).mailbox := by
  obtain ⟨ps, sv, hq, hps⟩ := requeue_eq (marked_resetting s p)
  obtain ⟨m, rs, hdrop⟩ := dropRecs_eq ((s.marked p).requeue p) p
  obtain ⟨hmail, hparts⟩ := resetCore_frame ((((s.marked p).requeue p).dropRecs p).resetAreas p) p
  rw [beginReset_marked hr, hmail, hparts, hdrop, hq]
  exact ⟨hps, rfl⟩

theorem resetCore_own (hs : s.shadow = none) (hmine : s.bank.isOf p = true) (ho : Orderly s) : s.resetCore p =
    { s.thawed with bank := s.bank.resetBank, phase := .saving .kill, srPend := [], turn := 0 } := by
  unfold State.resetCore
  rw [hs]
  dsimp only
  rw [if_pos hmine, quiesce_orderly ho]

/-- On a core that runs the partition no result, operation, stream, slot or rule is left. -/
theorem beginReset_core {r : Run} (hr : s.parts[p.toNat].resetting = false) (hrun : s.bank.run = some r) (hp : r.part = p)
    (hs : s.shadow = none) (hm : s.mailbox.running = none) (ho : Orderly s) : ∃ ps sv,
      (s.beginReset p).phase = .saving .kill ∧ (s.beginReset p).bank = s.bank.resetBank ∧
      (s.beginReset p).recs = (({ s with parts := ps, svcPend := sv } : State).dropRecs p).recs ∧
      (s.beginReset p).mem = (({ s with parts := ps, svcPend := sv } : State).dropRecs p).mem := by
  have hresolve : s.resolveCommand p = s := by
    rw [State.resolveCommand, hm]
    rfl
  obtain ⟨ps, sv, hq, -⟩ := requeue_eq (marked_resetting s p)
  have hstart : (s.marked p).requeue p = { s with parts := ps, svcPend := sv } := by
    rw [hq, State.marked, hresolve]
    rfl
  refine ⟨ps, sv, ?_⟩
  obtain ⟨m, rs, hdrop⟩ := dropRecs_eq { s with parts := ps, svcPend := sv } p
  have hmine : s.bank.isOf p = true := by simp [Bank.isOf, hrun, hp]
  rw [beginReset_marked hr, hstart, hdrop]
  have hcore := resetCore_own (s := ({ s with parts := ps, svcPend := sv, mem := m, recs := rs } : State).resetAreas p) hs hmine ho
  rw [hcore]
  exact ⟨rfl, rfl, rfl, rfl⟩

theorem partOf_congr (h : y.ctx = z.ctx) : s.partOf y = s.partOf z := congrArg (fun c : BitVec 6 => s.ctxs[c.toNat].part) h

/-- The records that stay are those of other partitions. -/
theorem recs_dropRecs (s : State) (p : BitVec 4) : (s.dropRecs p).recs = s.recs.filter fun y => s.ctxs[y.ctx.toNat].part ≠ p := by
  refine (recs_dropAll _ s).trans (List.filter_congr fun y hy => ?_)
  by_cases hp : s.partOf y = p
  · have hin : y ∈ s.recs.filter fun r => s.partOf r == p := List.mem_filter.2 ⟨hy, beq_iff_eq.2 hp⟩
    have hgone : ¬ ∀ z ∈ s.recs.filter (fun r => s.partOf r == p), (!(y.ctx == z.ctx && y.addr == z.addr)) = true :=
      fun h => by simpa using h y hin
    rw [Bool.eq_false_iff.2 fun h => hgone (List.all_eq_true.1 h)]
    exact (decide_eq_false fun h => h hp).symm
  · have hall : ∀ z ∈ s.recs.filter (fun r => s.partOf r == p), (!(y.ctx == z.ctx && y.addr == z.addr)) = true := by
      intro z hz
      have hzp : s.partOf z = p := beq_iff_eq.1 (List.mem_filter.1 hz).2
      have hne : y.ctx ≠ z.ctx := fun hc => hp ((partOf_congr hc).trans hzp)
      simp [hne]
    rw [List.all_eq_true.2 hall]
    exact (decide_eq_true hp).symm

theorem read_dropRecs {a : Nat} (ha : ∀ y ∈ s.recs, s.ctxs[y.ctx.toNat].part = p → a < y.home + 0x38 ∨ y.home + 0x40 ≤ a) :
    (s.dropRecs p).mem.read a = s.mem.read a := by
  refine read_dropAll _ s fun w hw z hz hc => ha w hw ?_
  exact (partOf_congr hc).trans (beq_iff_eq.1 (List.mem_filter.1 hz).2)

theorem status_dropRecs (hm : MemOk s) (h : RecsApart s.recs) (hy : y ∈ s.recs) (hp : s.ctxs[y.ctx.toNat].part = p) :
    (s.dropRecs p).rd (y.home + 0x38) 4 = [6, 0, 0, 0] ∧
      (s.dropRecs p).rdNat (y.home + 0x3C) 4 = s.rdNat (y.home + 0x3C) 4 :=
  status_dropAll h _ s hm (fun _ hw => hw) (fun _ hw => (List.mem_filter.1 hw).1) hy (List.mem_filter.2 ⟨hy, beq_iff_eq.2 hp⟩)

/-! ## A reset ends -/

/-- A range that is forgotten without a tag reads as zeros. -/
theorem Memory.read_forget_zero (m : Memory) {lo hi a : Nat} (hlo : lo ≤ a) (hhi : a < hi) : (m.forget lo hi 0).read a = 0 := by
  have hcell : (m.forget lo hi 0).cells.lookup a = none := by
    have hkey := lookup_filter_key m.cells (fun k => !(decide (lo ≤ k) && decide (k < hi))) a
    rw [decide_eq_true hlo, decide_eq_true hhi] at hkey
    exact hkey
  have htag : (m.forget lo hi 0).rangeTag a = some 0 := by simp [Memory.rangeTag, Memory.forget, hlo, hhi]
  rw [Memory.read, hcell, Memory.base, htag]

theorem Memory.read_forget_out (m : Memory) {lo hi a : Nat} (tag : Nat) (h : ¬(lo ≤ a ∧ a < hi)) :
    (m.forget lo hi tag).read a = m.read a := by
  have hcell : (m.forget lo hi tag).cells.lookup a = m.cells.lookup a := by
    have hkey := lookup_filter_key m.cells (fun k => !(decide (lo ≤ k) && decide (k < hi))) a
    have hout : (!(decide (lo ≤ a) && decide (a < hi))) = true := by
      rw [Bool.not_eq_true', Bool.eq_false_iff]
      exact fun hb => h (by simpa using hb)
    rw [if_pos hout] at hkey
    exact hkey
  rw [Memory.read, hcell, Memory.base_forget _ _ _ _ _ h, Memory.read]

/-- A byte that is zero stays so where ranges are forgotten. -/
theorem read_forgetCores_zero {a : Nat} (l : List Nat) (m : Memory) (h : m.read a = 0) :
    (l.foldl (fun (m : Memory) c => m.forget (padKey c 0) (padKey (c + 1) 0) 0) m).read a = 0 := by
  induction l generalizing m with
  | nil => exact h
  | cons c l ih =>
    refine ih _ ?_
    by_cases hin : padKey c 0 ≤ a ∧ a < padKey (c + 1) 0
    · exact m.read_forget_zero hin.1 hin.2
    · exact (m.read_forget_out 0 hin).trans h

/-- The scratchpads of cores that are cleared. -/
theorem read_forgetCores {l : List Nat} {c : Nat} (hc : c ∈ l) {o : Nat} (ho : o < 2 ^ 21) (m : Memory) :
    (l.foldl (fun (m : Memory) c => m.forget (padKey c 0) (padKey (c + 1) 0) 0) m).read (2 ^ 54 + c * 2 ^ 21 + o) = 0 := by
  induction l generalizing m with
  | nil => exact absurd hc List.not_mem_nil
  | cons d l ih =>
    rcases List.mem_cons.1 hc with rfl | hin
    · exact read_forgetCores_zero l _ (m.read_forget_zero (by unfold padKey; omega) (by unfold padKey; omega))
    · exact ih hin _

/-- What the end of a reset leaves of a partition's registers. -/
def Part.restarted (x : Part) : Part := { x with resetting := false, stopped := false, ran := [] }

/-- A reset ends without doorbells that wait. -/
theorem endReset_eq (hd : s.parts[p.toNat].doorbells = []) : ∃ w ws fs, s.endReset p =
    ((((({ s with tlb := s.tlb.filter (fun e => !s.named p 2 0 0 e), walk := w, walks := ws, freezes := fs } : State).zeroCores p).clearCtxs
      p).mapPart p Part.restarted).raiseVector p 3) := by
  obtain ⟨w, ws, fs, hinv⟩ := invalidate_eq s p 2 0 0
  refine ⟨w, ws, fs, ?_⟩
  rw [State.endReset, hinv]
  refine pump_empty ?_
  exact (congrArg Part.doorbells (parts_mapPart (p := p) Part.restarted)).trans hd

/-- A vector that is raised is posted or, while it is masked, pending. -/
theorem raiseVector_raised {b : Nat} (hb : s.parts[p.toNat].msixBase = b) :
    b + 3 ∈ (s.raiseVector p 3).msix.sent ∨ b + 3 ∈ (s.raiseVector p 3).msix.pending := by
  have hraise := raise_spec s.msix (b + 3)
  rw [State.raiseVector, hb]
  by_cases hmask : b + 3 ∈ s.msix.masked
  · exact .inr (hraise.2 hmask)
  · exact .inl ((hraise.1 hmask) ▸ List.mem_append_right _ (List.mem_singleton.2 rfl))

theorem execPartitionResetComplete_due (h : s.resetDue p = true) : exec (.partitionResetComplete p) s = .next (s.endReset p) :=
  congrArg Host.Outcome.next (if_pos h)

theorem execPartitionResetComplete_waits (h : s.resetDue p = false) : exec (.partitionResetComplete p) s = .next s :=
  congrArg Host.Outcome.next (if_neg fun ht => Bool.false_ne_true (h.symm.trans ht))

theorem resetDue_iff : s.resetDue p = true ↔ s.parts[p.toNat].resetting = true ∧ s.parts[p.toNat].invBusy = false ∧
    s.runsPart p = false ∧ s.pend = [] ∧ s.reads = [] := by
  simp [State.resetDue, State.performed, and_assoc]

/-! ## Withheld records -/

theorem withheldDue_iff : s.withheldDue p = true ↔ s.parts[p.toNat].withheld ≠ [] ∧ 8 < s.queueFree p := by
  unfold State.withheldDue
  split
  next w ws h => simp [h]
  next h => simp [h]

theorem execWithheldRecordWrite_waits (h : s.withheldDue p = false) : exec (.withheldRecordWrite p) s = .next s :=
  congrArg Host.Outcome.next (if_neg fun ht => Bool.false_ne_true (h.symm.trans ht))

/-- The partition withholds the records that are named. -/
def State.withholds (s : State) (p : BitVec 4) (ws : List Withheld) : State := s.mapPart p fun x => { x with withheld := ws }

theorem withholds_part (s : State) (p : BitVec 4) (ws : List Withheld) :
    (s.withholds p ws).parts[p.toNat] = { s.parts[p.toNat] with withheld := ws } := parts_mapPart _

/-- The count of withheld records in a queue's control line goes down. -/
def State.countedDown (s : State) (p : BitVec 4) : State :=
  s.wrNat (s.parts[p.toNat].ctl + 12) 4 (s.rdNat (s.parts[p.toNat].ctl + 12) 4 - 1)

/-- The oldest withheld record is written. -/
def State.wroteWithheld (s : State) (p : BitVec 4) (w : Withheld) (ws : List Withheld) : State :=
  ((s.withholds p ws).writeRecord p w.bytes).countedDown p

theorem execWithheldRecordWrite_due {w : Withheld} {ws : List Withheld} (hw : s.parts[p.toNat].withheld = w :: ws)
    (hf : 8 < s.queueFree p) (hs : w.slice = none) (hr : w.rule = none) :
    exec (.withheldRecordWrite p) s = .next (s.wroteWithheld p w ws) := by
  have hdue : s.withheldDue p = true := withheldDue_iff.2 ⟨by rw [hw]; exact List.cons_ne_nil _ _, hf⟩
  have hrelease : ∀ u : State, u.releaseHeld w = u := fun u => by rw [State.releaseHeld, hs, hr]
  change execWithheldRecordWrite p s = _
  rw [execWithheldRecordWrite, if_pos hdue, hw]
  exact congrArg Host.Outcome.next (hrelease _)

/-- A record that is written to the trap queue: its bytes, the producer index, and a vector where the queue was empty. -/
theorem writeRecord_eq (s : State) (p : BitVec 4) (bs : List Byte) : ∃ v, s.writeRecord p bs =
    { (s.wr (s.parts[p.toNat].ring + 64 * (s.rdNat s.parts[p.toNat].ctl 4 % 256)) bs).wrNat s.parts[p.toNat].ctl 4
      (s.rdNat s.parts[p.toNat].ctl 4 + 1) with msix := v } := by
  unfold State.writeRecord
  dsimp only
  split
  · exact ⟨_, rfl⟩
  · exact ⟨_, rfl⟩

/-- A number that is written reads back. -/
theorem rdNat_wrNat_same (hm : MemOk s) (key n x : Nat) : (s.wrNat key n x).rdNat key n = x % 256 ^ n := by
  have hall := rd_wr_all (key := key) (bs := bytesOf n x) hm
  rw [length_bytesOf] at hall
  rw [State.rdNat, State.wrNat, hall, ofBytes_bytesOf]

theorem rd_wrNat_apart {key key' n k x : Nat} (h : key' + n ≤ key ∨ key + k ≤ key') :
    (s.wrNat key k x).rd key' n = s.rd key' n := rd_wr_apart (by rwa [length_bytesOf])

/-- The place in the trap queue of a partition's next record. -/
def State.nextSlot (s : State) (p : BitVec 4) : Nat := s.parts[p.toNat].ring + 64 * (s.rdNat s.parts[p.toNat].ctl 4 % 256)

section Record

variable {bs : List Byte} (hlen : bs.length = 64)

/-- A record's write leaves all but memory and vectors as it was. -/
theorem writeRecord_frame (s : State) (p : BitVec 4) (bs : List Byte) : ∃ m v, s.writeRecord p bs = { s with mem := m, msix := v } := by
  obtain ⟨v, hv⟩ := writeRecord_eq s p bs
  exact ⟨_, v, hv⟩

theorem writeRecord_parts (s : State) (p : BitVec 4) (bs : List Byte) : (s.writeRecord p bs).parts = s.parts := by
  obtain ⟨m, v, hv⟩ := writeRecord_frame s p bs
  rw [hv]

include hlen

/-- Bytes apart from a record's place and from the producer index read as before. -/
theorem rd_writeRecord_apart {k n : Nat} (hslot : k + n ≤ s.nextSlot p ∨ s.nextSlot p + 64 ≤ k)
    (hctl : k + n ≤ s.parts[p.toNat].ctl ∨ s.parts[p.toNat].ctl + 4 ≤ k) : (s.writeRecord p bs).rd k n = s.rd k n := by
  obtain ⟨v, hv⟩ := writeRecord_eq s p bs
  rw [hv]
  refine (rd_wrNat_apart (s := s.wr (s.nextSlot p) bs) (k := 4) (x := s.rdNat s.parts[p.toNat].ctl 4 + 1) hctl).trans ?_
  exact rd_wr_apart (by rwa [hlen])

variable (hm : MemOk s) (hap : s.nextSlot p + 64 ≤ s.parts[p.toNat].ctl ∨ s.parts[p.toNat].ctl + 64 ≤ s.nextSlot p)
include hm hap

theorem writeRecord_record : (s.writeRecord p bs).rd (s.nextSlot p) 64 = bs := by
  obtain ⟨v, hv⟩ := writeRecord_eq s p bs
  have hall := rd_wr_all (key := s.nextSlot p) (bs := bs) hm
  rw [hlen] at hall
  rw [hv]
  refine (rd_wrNat_apart (s := s.wr (s.nextSlot p) bs) (k := 4) (x := s.rdNat s.parts[p.toNat].ctl 4 + 1) (by omega)).trans hall

omit hlen hap in
theorem writeRecord_index : (s.writeRecord p bs).rdNat s.parts[p.toNat].ctl 4 = (s.rdNat s.parts[p.toNat].ctl 4 + 1) % 2 ^ 32 := by
  obtain ⟨v, hv⟩ := writeRecord_eq s p bs
  rw [hv]
  exact rdNat_wrNat_same (s := s.wr (s.nextSlot p) bs) (State.wf_wr s _ _ hm) s.parts[p.toNat].ctl 4 _

end Record

theorem withheld_wroteWithheld (s : State) (p : BitVec 4) (w : Withheld) (ws : List Withheld) :
    (s.wroteWithheld p w ws).parts[p.toNat].withheld = ws := by
  have hdown : ∀ u : State, (u.countedDown p).parts = u.parts := fun _ => rfl
  rw [State.wroteWithheld, hdown, writeRecord_parts, withholds_part]

theorem bank_wroteWithheld (s : State) (p : BitVec 4) (w : Withheld) (ws : List Withheld) :
    (s.wroteWithheld p w ws).bank = s.bank ∧ (s.wroteWithheld p w ws).recs = s.recs := by
  obtain ⟨m, v, hv⟩ := writeRecord_frame (s.withholds p ws) p w.bytes
  have hdown : ∀ u : State, (u.countedDown p).bank = u.bank ∧ (u.countedDown p).recs = u.recs := fun u => ⟨rfl, rfl⟩
  rw [State.wroteWithheld, (hdown _).1, (hdown _).2, hv]
  exact ⟨rfl, rfl⟩

/-- The record and the producer index that the write of a withheld record leaves. -/
theorem wroteWithheld_reads {w : Withheld} {ws : List Withheld} (hm : MemOk s)
    (hap : s.parts[p.toNat].ring + 16384 ≤ s.parts[p.toNat].ctl ∨ s.parts[p.toNat].ctl + 64 ≤ s.parts[p.toNat].ring)
    (hlen : w.bytes.length = 64) : (s.wroteWithheld p w ws).rd (s.nextSlot p) 64 = w.bytes ∧
      (s.wroteWithheld p w ws).rdNat s.parts[p.toNat].ctl 4 = (s.rdNat s.parts[p.toNat].ctl 4 + 1) % 2 ^ 32 := by
  have hctl : (s.withholds p ws).parts[p.toNat].ctl = s.parts[p.toNat].ctl := by rw [withholds_part]
  have hslot : (s.withholds p ws).nextSlot p = s.nextSlot p := by
    rw [State.nextSlot, hctl, withholds_part]
    rfl
  have hin : s.rdNat s.parts[p.toNat].ctl 4 % 256 < 256 := Nat.mod_lt _ (by decide)
  have hap' : s.nextSlot p + 64 ≤ s.parts[p.toNat].ctl ∨ s.parts[p.toNat].ctl + 64 ≤ s.nextSlot p := by
    unfold State.nextSlot
    omega
  have hrec := writeRecord_record (s := s.withholds p ws) (p := p) hlen hm (by rwa [hslot, hctl])
  have hidx := writeRecord_index (s := s.withholds p ws) (p := p) (bs := w.bytes) hm
  rw [hslot] at hrec
  rw [hctl] at hidx
  rw [State.wroteWithheld, State.countedDown, writeRecord_parts, hctl]
  exact ⟨(rd_wrNat_apart (by omega)).trans hrec, (congrArg ofBytes (rd_wrNat_apart (by omega))).trans hidx⟩

/-- Settles O56: a reset goes through the partition's records one after another, which are apart, and its end through the cores'
scratchpads; the rest is what each step leaves as it was. -/
theorem partitionReset : Obligations.PartitionReset := by
  unfold Obligations.PartitionReset
  intro s p r x
  refine ⟨?again, ?begins, ?answers, ?ends, ?waits, ?written, ?held⟩
  case again =>
    intro hr
    exact congrArg Host.Outcome.next (if_pos hr)
  case begins =>
    intro hr hrun hp hs hmail ho
    obtain ⟨hmark, -⟩ := beginReset_marks (s := s) (p := p) hr
    obtain ⟨ps, sv, hphase, hbank, hrecs, hmem⟩ := beginReset_core hr hrun hp hs hmail ho
    refine ⟨s.beginReset p, rfl, hmark, hphase, ?_, ?_, ?_, ?_, ?_, ?_, ?_, ?_, ?_⟩
    · rw [hbank]
      rfl
    · intro k
      rw [hbank]
      simp [Bank.stream, Bank.resetBank]
    · intro k
      rw [hbank]
      simp only [Bank.slot, Bank.resetBank, Vector.getD, Array.getD_eq_getD_getElem?, Vector.getElem?_toArray, Vector.getElem?_map]
      cases s.bank.slots[k.toNat]? <;> rfl
    · intro a
      simp [State.agent, hbank, Bank.resetBank]
    · intro k
      rw [hbank]
      simp only [Bank.rule, Bank.resetBank, Vector.getElem_map]
      split
      next hidle => simp [hidle]
      next => simp
    · intro ch
      rw [hbank]
      simp [Bank.chan, Bank.resetBank, Chan.discard]
    · rw [hrecs]
      exact recs_dropRecs { s with parts := ps, svcPend := sv } p
    · intro _ a ha
      rw [hmem]
      exact read_dropRecs (s := { s with parts := ps, svcPend := sv }) ha
    · intro hm hap y hy hyp
      have hread : ∀ k n, (s.beginReset p).rd k n = (({ s with parts := ps, svcPend := sv } : State).dropRecs p).rd k n :=
        fun k n => congrArg (fun m : Memory => m.readN k n) hmem
      rw [State.rdNat, hread, hread]
      exact status_dropRecs (s := { s with parts := ps, svcPend := sv }) hm hap hy hyp
  case answers =>
    intro i h op hr hrun hof hp
    obtain ⟨hmark, hmail⟩ := beginReset_marks (s := s) (p := p) hr
    refine ⟨s.beginReset p, rfl, hmark, hmail.trans ?_⟩
    rw [State.resolveCommand, hrun]
    dsimp only [Option.bind_some]
    rw [hof]
    exact congrArg State.mailbox (if_pos hp)
  case ends =>
    intro hr hinv hruns hpend hreads hd hm
    obtain ⟨w, ws, fs, heq⟩ := endReset_eq (s := s) (p := p) hd
    refine ⟨s.endReset p, execPartitionResetComplete_due (resetDue_iff.2 ⟨hr, hinv, hruns, hpend, hreads⟩), ?_⟩
    rw [heq]
    refine ⟨?_, ?_, ?_, ?_, ?_, ?_, ?_⟩
    · exact congrArg Part.resetting (parts_mapPart (s := (State.zeroCores _ p).clearCtxs p) (p := p) Part.restarted)
    · exact congrArg Part.stopped (parts_mapPart (s := (State.zeroCores _ p).clearCtxs p) (p := p) Part.restarted)
    · refine raiseVector_raised ?_
      rw [parts_mapPart]
      rfl
    · intro c hdef hpart
      simp [State.raiseVector, State.mapPart, State.clearCtxs, State.zeroCores, hdef, hpart]
    · intro u hu hunit
      have hbit : s.parts[p.toNat].pqs.getLsbD u = true := hunit
      simp only [State.raiseVector, State.mapPart, State.clearCtxs, State.zeroCores, Vector.toList_mapIdx,
        List.getElem?_mapIdx, hbit, if_true]
      rw [List.getElem?_eq_getElem (by simpa using hu)]
      rfl
    · intro e he
      have hnot := (List.mem_filter.1 he).2
      simpa [State.named] using hnot
    · intro c hc o ho
      exact read_forgetCores (List.mem_append_left _ hc) ho s.mem
  case waits =>
    intro hany
    refine execPartitionResetComplete_waits (Bool.eq_false_iff.2 fun hdue => ?_)
    obtain ⟨hr, hinv, hruns, hpend, hreads⟩ := resetDue_iff.1 hdue
    rcases hany with h | h | h | h | h
    · exact Bool.false_ne_true (h.symm.trans hr)
    · exact Bool.false_ne_true (hinv.symm.trans h)
    · exact Bool.false_ne_true (hruns.symm.trans h)
    · exact h hpend
    · exact h hreads
  case written =>
    intro w ws hw hs hr hf
    refine ⟨_, execWithheldRecordWrite_due hw hf hs hr, ?_, ?_, ?_, fun hm hap hlen => wroteWithheld_reads hm hap hlen⟩
    · exact withheld_wroteWithheld s p w ws
    · exact (bank_wroteWithheld s p w ws).1
    · exact (bank_wroteWithheld s p w ws).2
  case held =>
    intro hany
    refine execWithheldRecordWrite_waits (Bool.eq_false_iff.2 fun hdue => ?_)
    obtain ⟨hne, hf⟩ := withheldDue_iff.1 hdue
    exact hany.elim hne fun hle => absurd hf (Nat.not_lt.2 hle)

end Sys2Proof.Machine
end

section
/-! Taking a trap (R325, R329, R330, R331, R333, R334, R335, R338): what the frame, the record and each action leave. -/

namespace Sys2Proof.Machine

variable {s u : State} {r : Run} {q : TrapReq}

/-! ## The fields of a frame header and of a trap record -/

theorem length_frameHeader (s : State) (q : TrapReq) (flags action replays : Nat) :
    (frameHeader s q flags action replays).length = 64 := by
  simp [frameHeader, length_bytesOf]

/-- A field of bytes that stand in memory. -/
theorem rdNat_of_rd {bs : List Byte} {key len : Nat} (h : s.rd key len = bs) {i n x : Nat} (hi : i + n ≤ len)
    (hbs : (bs.drop i).take n = bytesOf n x) : s.rdNat (key + i) n = x % 256 ^ n := by
  rw [← fieldOf_rd s key hi, h, fieldOf, hbs, ofBytes_bytesOf]

theorem rdNat_of_rd_word {bs : List Byte} {key len : Nat} (h : s.rd key len = bs) {i : Nat} {x : DWord} (hi : i + 8 ≤ len)
    (hbs : (bs.drop i).take 8 = bytesOf 8 x.toNat) : s.rdNat (key + i) 8 = x.toNat :=
  (rdNat_of_rd h hi hbs).trans (Nat.mod_eq_of_lt x.isLt)

/-- A single byte that stands in memory. -/
theorem rdNat_of_rd_byte {bs : List Byte} {key len : Nat} (h : s.rd key len = bs) {i : Nat} {b : Byte} (hi : i + 1 ≤ len)
    (hbs : (bs.drop i).take 1 = [b]) : s.rdNat (key + i) 1 = b.toNat := by
  rw [← fieldOf_rd s key hi, h, fieldOf, hbs]
  exact Nat.add_zero _

/-- The header's fields that a frame holds, of a fault that names no rule and shows its own cause. -/
theorem header_fields {t : State} {f flags action count : Nat} (hrule : q.rule = none) (hshown : q.shown = none)
    (hlate : q.late = 0) (h : t.rd f 64 = frameHeader u q flags action count) :
    t.rd f 6 = [q.cause, q.sub, BitVec.ofNat 8 q.agent.val, BitVec.ofNat 8 flags, 0xFF, BitVec.ofNat 8 action] ∧
      t.rdNat (f + 6) 2 = count % 2 ^ 16 ∧ t.rdNat (f + 8) 8 = q.pc.toNat ∧ t.rdNat (f + 0x10) 8 = q.resume.toNat ∧
      t.rdNat (f + 0x18) 8 = q.addr.toNat ∧ t.rdNat (f + 0x20) 8 = q.slice.toNat ∧
      t.rdNat (f + 0x28) 8 = u.pt % 2 ^ 64 ∧ t.rdNat (f + 0x30) 8 = u.wall % 2 ^ 64 := by
  unfold frameHeader at h
  rw [hrule, hshown, hlate, Nat.sub_zero] at h
  refine ⟨?_, rdNat_of_rd h (by decide) rfl, rdNat_of_rd_word h (by decide) rfl, rdNat_of_rd_word h (by decide) rfl,
    rdNat_of_rd_word h (by decide) rfl, rdNat_of_rd_word h (by decide) rfl, rdNat_of_rd h (by decide) rfl,
    rdNat_of_rd h (by decide) rfl⟩
  have hhead := slice_rd t f (i := 0) (n := 6) (len := 64) (by decide)
  rw [h] at hhead
  exact hhead.symm

theorem length_trapRecord (q : TrapReq) (act : Act) (flags : Nat) (cx : BitVec 6) (core : Nat) (addr : DWord) (frame : Nat)
    {body : List Byte} (hb : body.length = 32) : (trapRecord q act flags cx core addr frame body).length = 64 := by
  simp [trapRecord, length_bytesOf, hb]

theorem length_recordBody {act : Act} (ha : act ≠ .kill) (sig : BitVec 256) : (u.recordBody q act sig).length = 32 := by
  simp [State.recordBody, ha, length_bytesOf]

/-- The record of a trap that is not a KILL, of a fault that names no rule. -/
def State.recordOf (s : State) (q : TrapReq) (act : Act) (flags : Nat) (r : Run) : List Byte :=
  trapRecord q act flags r.ctx s.coreId r.recAddr (s.frameOf r) (s.recordBody q act r.signalled)

theorem length_recordOf {act : Act} (ha : act ≠ .kill) (flags : Nat) : (u.recordOf q act flags r).length = 64 :=
  length_trapRecord _ _ _ _ _ _ _ (length_recordBody ha _)

theorem recordOf_head (act : Act) (flags : Nat) : (u.recordOf q act flags r).take 4 =
    [q.cause, q.sub, BitVec.ofNat 8 (act.code + flags), r.ctx.setWidth 8] := rfl

/-- The fields of a record that stands in the trap queue. -/
theorem record_fields {t : State} {slot flags : Nat} {act : Act} (ha : act ≠ .kill) (hrule : q.rule = none)
    (h : t.rd slot 64 = u.recordOf q act flags r) :
    t.rd slot 4 = [q.cause, q.sub, BitVec.ofNat 8 (act.code + flags), r.ctx.setWidth 8] ∧
      t.rdNat (slot + 4) 2 = u.coreId % 2 ^ 16 ∧ t.rdNat (slot + 6) 1 = q.agent.val ∧ t.rdNat (slot + 7) 1 = 0xFF ∧
      t.rdNat (slot + 8) 8 = r.recAddr.toNat ∧ t.rdNat (slot + 0x10) 8 = q.pc.toNat ∧
      t.rdNat (slot + 0x18) 8 = u.frameOf r % 2 ^ 64 ∧ t.rdNat (slot + 0x20) 8 = q.addr.toNat ∧
      t.rdNat (slot + 0x28) 8 = u.wall % 2 ^ 64 := by
  have hbody : u.recordBody q act r.signalled =
      bytesOf 8 q.addr.toNat ++ bytesOf 8 u.wall ++ bytesOf 8 q.slice.toNat ++ bytesOf 8 0 := if_neg ha
  rw [State.recordOf, trapRecord, hbody, hrule] at h
  have hagent : t.rdNat (slot + 6) 1 = (BitVec.ofNat 8 q.agent.val).toNat :=
    rdNat_of_rd_byte (b := BitVec.ofNat 8 q.agent.val) h (i := 6) (by decide) rfl
  rw [BitVec.toNat_ofNat, Nat.mod_eq_of_lt (by omega)] at hagent
  refine ⟨?_, rdNat_of_rd h (by decide) rfl, hagent, rdNat_of_rd_byte (b := 0xFF) h (i := 7) (by decide) rfl, rdNat_of_rd_word h (by decide) rfl,
    rdNat_of_rd_word h (by decide) rfl, rdNat_of_rd h (by decide) rfl, rdNat_of_rd_word h (by decide) rfl,
    rdNat_of_rd h (by decide) rfl⟩
  have hhead := slice_rd t slot (i := 0) (n := 4) (len := 64) (by decide)
  rw [h] at hhead
  exact hhead.symm

/-! ## The frame of agents without results in flight -/

/-- The tail of a frame, filled up with zeros. -/
def TrapReq.frameTail (q : TrapReq) : List Byte := q.tail ++ List.replicate (64 - q.tail.length) 0

theorem length_frameTail (ht : q.tail.length ≤ 64) : q.frameTail.length = 64 := by
  rw [TrapReq.frameTail, List.length_append, List.length_replicate]
  omega

theorem commit_clean {a : Agent} (h : a.latches = []) (pt : Nat) : a.commit pt = a := by
  rw [Agent.commit, h, Agent.landGo, ← h]

section Frame

variable (hl : ∀ a : AgentId, (u.agent a).latches = [])
include hl

theorem writeLatches_clean (f : Nat) : u.writeLatches q f = u := by
  refine List.foldl_fixed' (fun i => ?_) _
  have hnone : (u.stoppedAgent q i).latches = [] := by
    rw [State.stoppedAgent, commit_clean (hl i)]
    exact hl i
  dsimp only
  rw [hnone]
  rfl

omit hl in
theorem agent_wr (key : Nat) (bs : List Byte) (a : AgentId) : (u.wr key bs).agent a = u.agent a := rfl

theorem writeFrame_clean (flags action replays : Nat) : u.writeFrame r q flags action replays =
    (u.wr (u.frameOf r) (frameHeader u q flags action replays)).wr (u.frameOf r + 0xFC0) q.frameTail := by
  have hagents : ∀ a : AgentId, ((u.wr (u.frameOf r) (frameHeader u q flags action replays)).agent a).latches = [] :=
    fun a => by rw [agent_wr]; exact hl a
  rw [State.writeFrame, writeLatches_clean hagents]
  rfl

/-- A frame leaves the bytes apart from its 4,096 as they were. -/
theorem rd_writeFrame_apart (ht : q.tail.length ≤ 64) {k n : Nat} (hk : k + n ≤ u.frameOf r ∨ u.frameOf r + 4096 ≤ k)
    (flags action replays : Nat) : (u.writeFrame r q flags action replays).rd k n = u.rd k n := by
  have htail := length_frameTail ht
  have hhead := length_frameHeader u q flags action replays
  rw [writeFrame_clean hl, rd_wr_apart (by omega), rd_wr_apart (by omega)]

theorem memOk_writeFrame (hm : MemOk u) (flags action replays : Nat) : MemOk (u.writeFrame r q flags action replays) := by
  rw [writeFrame_clean hl]
  exact State.wf_wr _ _ _ (State.wf_wr u _ _ hm)

theorem rd_writeFrame_header (hm : MemOk u) (flags action replays : Nat) :
    (u.writeFrame r q flags action replays).rd (u.frameOf r) 64 = frameHeader u q flags action replays := by
  have hhead := length_frameHeader u q flags action replays
  have hall := rd_wr_all (key := u.frameOf r) (bs := frameHeader u q flags action replays) hm
  rw [hhead] at hall
  rw [writeFrame_clean hl, rd_wr_apart (by omega), hall]

end Frame

/-! ## Frame and record -/

/-- A record is withheld and counted in the control line. -/
def State.keptBack (s : State) (p : BitVec 4) (bs : List Byte) (resume : Option (BitVec 6 × DWord)) : State :=
  (s.bumpLine p 12).mapPart p fun x => { x with withheld := x.withheld ++ [⟨bs, resume, none⟩] }

section HeldBack

variable {p : BitVec 4} {bs : List Byte} {resume : Option (BitVec 6 × DWord)}

theorem plainRecord_withheld (h : s.queueFree p ≤ 8) : s.plainRecord p bs resume none = (s.keptBack p bs resume, false) :=
  if_neg (Nat.not_lt.2 h)

theorem plainRecord_written (h : 8 < s.queueFree p) : s.plainRecord p bs resume none = (s.writeRecord p bs, true) := if_pos h

theorem keptBack_withheld : (s.keptBack p bs resume).parts[p.toNat].withheld = s.parts[p.toNat].withheld ++ [⟨bs, resume, none⟩] :=
  congrArg Part.withheld (parts_mapPart (s := s.bumpLine p 12) (p := p) fun x =>
    { x with withheld := x.withheld ++ [⟨bs, resume, none⟩] })

theorem rd_keptBack_apart {k n : Nat} (h : k + n ≤ s.parts[p.toNat].ctl + 12 ∨ s.parts[p.toNat].ctl + 16 ≤ k) :
    (s.keptBack p bs resume).rd k n = s.rd k n :=
  rd_wrNat_apart (s := s) (key := s.parts[p.toNat].ctl + 12) (k := 4) (x := s.rdNat (s.parts[p.toNat].ctl + 12) 4 + 1) (by omega)

theorem keptBack_count (hm : MemOk s) : (s.keptBack p bs resume).rdNat (s.parts[p.toNat].ctl + 12) 4
    = (s.rdNat (s.parts[p.toNat].ctl + 12) 4 + 1) % 2 ^ 32 :=
  rdNat_wrNat_same (s := s) hm (s.parts[p.toNat].ctl + 12) 4 (s.rdNat (s.parts[p.toNat].ctl + 12) 4 + 1)

end HeldBack

/-- Frame, ring entry and control line of a trap's run are apart, and no result is in flight. -/
structure TrapRoom (u : State) (r : Run) (q : TrapReq) : Prop where
  mem : MemOk u
  clean : ∀ a : AgentId, (u.agent a).latches = []
  tail : q.tail.length ≤ 64
  frameSlot : u.frameOf r + 4096 ≤ u.nextSlot r.part ∨ u.nextSlot r.part + 64 ≤ u.frameOf r
  frameCtl : u.frameOf r + 4096 ≤ u.parts[r.part.toNat].ctl ∨ u.parts[r.part.toNat].ctl + 64 ≤ u.frameOf r
  slotCtl : u.nextSlot r.part + 64 ≤ u.parts[r.part.toNat].ctl ∨ u.parts[r.part.toNat].ctl + 64 ≤ u.nextSlot r.part

namespace TrapRoom

variable (h : TrapRoom u r q) (flags action replays : Nat)
include h

/-- The control line is as it was before the frame. -/
theorem control_rd {i : Nat} (hi : i + 4 ≤ 64) :
    (u.writeFrame r q flags action replays).rdNat (u.parts[r.part.toNat].ctl + i) 4 = u.rdNat (u.parts[r.part.toNat].ctl + i) 4 := by
  have hap := h.frameCtl
  exact congrArg ofBytes (rd_writeFrame_apart h.clean h.tail (by omega) flags action replays)

omit h in
theorem frame_parts : (u.writeFrame r q flags action replays).parts = u.parts := by
  obtain ⟨m, hw⟩ := writeFrame_memOnly u r q flags action replays
  rw [hw]

theorem frame_queueFree : (u.writeFrame r q flags action replays).queueFree r.part = u.queueFree r.part := by
  have hprod := h.control_rd flags action replays (i := 0) (by decide)
  have hcons := h.control_rd flags action replays (i := 4) (by decide)
  rw [Nat.add_zero] at hprod
  rw [State.queueFree, State.queueFree, frame_parts, hprod, hcons]

theorem frame_nextSlot : (u.writeFrame r q flags action replays).nextSlot r.part = u.nextSlot r.part := by
  have hprod := h.control_rd flags action replays (i := 0) (by decide)
  rw [Nat.add_zero] at hprod
  rw [State.nextSlot, State.nextSlot, frame_parts, hprod]

/-- What frame and record leave where the record is written. -/
theorem written {bs : List Byte} (hlen : bs.length = 64) :
    ((u.writeFrame r q flags action replays).writeRecord r.part bs).rd (u.frameOf r) 64 = frameHeader u q flags action replays ∧
    ((u.writeFrame r q flags action replays).writeRecord r.part bs).rd (u.nextSlot r.part) 64 = bs ∧
    ((u.writeFrame r q flags action replays).writeRecord r.part bs).rdNat u.parts[r.part.toNat].ctl 4
      = (u.rdNat u.parts[r.part.toNat].ctl 4 + 1) % 2 ^ 32 := by
  have hm := memOk_writeFrame (r := r) (q := q) h.clean h.mem flags action replays
  have hslot := h.frame_nextSlot flags action replays
  have hparts := frame_parts (u := u) (r := r) (q := q) flags action replays
  have hprod := h.control_rd flags action replays (i := 0) (by decide)
  rw [Nat.add_zero] at hprod
  have hfs := h.frameSlot
  have hfc := h.frameCtl
  have hsc := h.slotCtl
  refine ⟨?_, ?_, ?_⟩
  · rw [rd_writeRecord_apart hlen (by rw [hslot]; omega) (by rw [hparts]; omega)]
    exact rd_writeFrame_header h.clean h.mem flags action replays
  · rw [← hslot]
    exact writeRecord_record hlen hm (by rw [hslot, hparts]; omega)
  · have hidx := writeRecord_index (p := r.part) (bs := bs) hm
    rwa [hparts, hprod] at hidx

/-- What frame and record leave where the record is withheld. -/
theorem withheld (bs : List Byte) (resume : Option (BitVec 6 × DWord)) :
    ((u.writeFrame r q flags action replays).keptBack r.part bs resume).rd (u.frameOf r) 64
      = frameHeader u q flags action replays ∧
    ((u.writeFrame r q flags action replays).keptBack r.part bs resume).parts[r.part.toNat].withheld
      = u.parts[r.part.toNat].withheld ++ [⟨bs, resume, none⟩] ∧
    ((u.writeFrame r q flags action replays).keptBack r.part bs resume).rdNat u.parts[r.part.toNat].ctl 4
      = u.rdNat u.parts[r.part.toNat].ctl 4 ∧
    ((u.writeFrame r q flags action replays).keptBack r.part bs resume).rdNat (u.parts[r.part.toNat].ctl + 12) 4
      = (u.rdNat (u.parts[r.part.toNat].ctl + 12) 4 + 1) % 2 ^ 32 := by
  have hm := memOk_writeFrame (r := r) (q := q) h.clean h.mem flags action replays
  have hparts := frame_parts (u := u) (r := r) (q := q) flags action replays
  have hprod := h.control_rd flags action replays (i := 0) (by decide)
  have hcount := h.control_rd flags action replays (i := 12) (by decide)
  rw [Nat.add_zero] at hprod
  have hfc := h.frameCtl
  refine ⟨?_, ?_, ?_, ?_⟩
  · rw [rd_keptBack_apart (by rw [hparts]; omega)]
    exact rd_writeFrame_header h.clean h.mem flags action replays
  · rw [keptBack_withheld, hparts]
  · rw [State.rdNat, rd_keptBack_apart (by rw [hparts]; omega)]
    exact hprod
  · have hup := keptBack_count (p := r.part) (bs := bs) (resume := resume) hm
    rwa [hparts, hcount] at hup

end TrapRoom

/-! ## PARK and REPLAY -/

/-- The run is saved as parked. -/
def State.leaves (s : State) (b : Bank) (q : TrapReq) : State :=
  { s with
    bank := b
    srPend := []
    freezes := s.freezes.filter Freeze.stays
    walk := none
    walks := []
    phase := .saving (.park q.cause q.sub) }

/-- A fault at a bundle leaves nothing to be done again by the engine, a channel or a clock. -/
theorem redo_bundle (hredo : q.redo = .bundle) : u.redo q = u := by
  unfold State.redo
  rw [hredo]

theorem leaves_settled (v : State) (f : Bank → Bank) (q : TrapReq) : ∃ b,
    ({ (v.settleSr.mapBank f).thawed with phase := .saving (.park q.cause q.sub) } : State) = v.leaves b q := ⟨(v.settleSr.mapBank f).bank, rfl⟩

theorem doPark_leaves (hredo : q.redo = .bundle) : ∃ b, u.doPark q = u.leaves b q := by
  rw [State.doPark, redo_bundle hredo]
  exact leaves_settled ..

theorem parkRun_leaves (hs : u.serving = false) (hredo : q.redo = .bundle) : ∃ b, u.parkRun r q = u.leaves b q := by
  obtain ⟨b, hb⟩ := doPark_leaves (u := u) hredo
  exact ⟨b, (if_neg fun h => Bool.false_ne_true (hs.symm.trans h)).trans hb⟩

theorem parked_bundle (hredo : q.redo = .bundle) : q.parked = q := by
  refine if_neg fun h => ?_
  rw [hredo] at h
  exact nomatch h

/-- A record that is made after a frame is that of the state before it. -/
theorem recordOf_frame (act : Act) (extra flags action replays : Nat) :
    (u.writeFrame r q flags action replays).recordOf q act extra r = u.recordOf q act extra r := by
  obtain ⟨m, hw⟩ := writeFrame_memOnly u r q flags action replays
  rw [hw]
  rfl

theorem serving_frame (flags action replays : Nat) : (u.writeFrame r q flags action replays).serving = u.serving := by
  obtain ⟨m, hw⟩ := writeFrame_memOnly u r q flags action replays
  rw [hw]
  rfl

theorem serving_writeRecord (p : BitVec 4) (bs : List Byte) : (u.writeRecord p bs).serving = u.serving := by
  obtain ⟨m, v, hw⟩ := writeRecord_frame u p bs
  rw [hw]
  rfl

theorem serving_keptBack (p : BitVec 4) (bs : List Byte) (resume : Option (BitVec 6 × DWord)) :
    (u.keptBack p bs resume).serving = u.serving := rfl

theorem trapPark_eq (hredo : q.redo = .bundle) (base extra n : Nat) : u.trapPark r q base extra n =
    ((u.writeFrame r q base 2 n).plainRecord r.part (u.recordOf q .park extra r) none none).1.parkRun r q := by
  rw [State.trapPark, parked_bundle hredo, ← recordOf_frame (u := u) (r := r) (q := q) .park extra base 2 n]
  rfl

/-- REPLAY by what becomes of its record. -/
theorem trapReplay_plain {base bad n : Nat} {x : State} {b : Bool}
    (hp : ((u.writeFrame r q base 1 (n + 1)).mapRun fun x => { x with replays := n + 1 }).plainRecord r.part
      (u.recordOf q .replay bad r) (some (r.ctx, r.recAddr)) none = (x, b)) :
    u.trapReplay r q base bad n = if b then x.doReplay q else x.parkRun r q := by
  -- unfolded as a function: compared with its arguments, the match would make the kernel compute the queue's length
  rw [show @State.trapReplay = _ by delta State.trapReplay; exact rfl]
  extract_lets framed bs counted
  have hbs : bs = u.recordOf q .replay bad r := recordOf_frame (u := u) (r := r) (q := q) .replay bad base 1 (n + 1)
  have hplain : counted.plainRecord r.part bs (some (r.ctx, r.recAddr)) none = (x, b) := by rw [hbs]; exact hp
  clear_value counted
  rw [hplain]
  cases b with
  | true => rfl
  | false => rfl

/-- A count of REPLAYs leaves it open whether a slice is served. -/
theorem serving_counted (n : Nat) : (u.mapRun fun x => { x with replays := n }).serving = u.serving := by
  have hrun : (u.mapRun fun x => { x with replays := n }).bank.run = u.bank.run.map fun x => { x with replays := n } := rfl
  unfold State.serving
  rw [hrun]
  cases u.bank.run with
  | none => rfl
  | some x => rfl

theorem writeRecord_mapRun (p : BitVec 4) (bs : List Byte) (f : Run → Run) :
    (u.mapRun f).writeRecord p bs = (u.writeRecord p bs).mapRun f := by
  have hrd : (u.mapRun f).rdNat = u.rdNat := rfl
  have hparts : (u.mapRun f).parts = u.parts := rfl
  unfold State.writeRecord
  rw [hrd, hparts]
  dsimp only
  split
  · rfl
  · rfl

theorem keptBack_mapRun (p : BitVec 4) (bs : List Byte) (resume : Option (BitVec 6 × DWord)) (f : Run → Run) :
    (u.mapRun f).keptBack p bs resume = (u.keptBack p bs resume).mapRun f := rfl

theorem queueFree_mapRun (v : State) (f : Run → Run) (p : BitVec 4) : (v.mapRun f).queueFree p = v.queueFree p := rfl

theorem leaves_mapRun (v : State) (f : Run → Run) (b : Bank) (q : TrapReq) : (v.mapRun f).leaves b q = v.leaves b q := rfl

section Park

variable (h : TrapRoom u r q) (hs : u.serving = false) (hredo : q.redo = .bundle)
include h hs hredo

/-- PARK with its record in the trap queue. -/
theorem trapPark_written (hq : 8 < u.queueFree r.part) (base extra n : Nat) : ∃ b, u.trapPark r q base extra n =
    ((u.writeFrame r q base 2 n).writeRecord r.part (u.recordOf q .park extra r)).leaves b q := by
  have hserv : ((u.writeFrame r q base 2 n).writeRecord r.part (u.recordOf q .park extra r)).serving = false := by
    rw [serving_writeRecord, serving_frame, hs]
  rw [trapPark_eq hredo, plainRecord_written (by rwa [h.frame_queueFree])]
  dsimp only
  exact parkRun_leaves hserv hredo

/-- PARK with its record withheld. -/
theorem trapPark_withheld (hq : u.queueFree r.part ≤ 8) (base extra n : Nat) : ∃ b, u.trapPark r q base extra n =
    ((u.writeFrame r q base 2 n).keptBack r.part (u.recordOf q .park extra r) none).leaves b q := by
  have hserv : ((u.writeFrame r q base 2 n).keptBack r.part (u.recordOf q .park extra r) none).serving = false := by
    rw [serving_keptBack, serving_frame, hs]
  rw [trapPark_eq hredo, plainRecord_withheld (by rwa [h.frame_queueFree])]
  dsimp only
  exact parkRun_leaves hserv hredo

/-- A REPLAY whose record is withheld is carried out as PARK. -/
theorem trapReplay_withheld (hq : u.queueFree r.part ≤ 8) (base bad n : Nat) : ∃ b, u.trapReplay r q base bad n =
    ((u.writeFrame r q base 1 (n + 1)).keptBack r.part (u.recordOf q .replay bad r) (some (r.ctx, r.recAddr))).leaves b q := by
  have hplain := plainRecord_withheld (s := (u.writeFrame r q base 1 (n + 1)).mapRun fun x => { x with replays := n + 1 })
    (p := r.part) (bs := u.recordOf q .replay bad r) (resume := some (r.ctx, r.recAddr))
    ((queueFree_mapRun ..).trans_le ((h.frame_queueFree base 1 (n + 1)).trans_le hq))
  rw [trapReplay_plain hplain, keptBack_mapRun]
  obtain ⟨b, hb⟩ := parkRun_leaves (r := r) (q := q) (u := ((u.writeFrame r q base 1 (n + 1)).keptBack r.part
    (u.recordOf q .replay bad r) (some (r.ctx, r.recAddr))).mapRun fun x => { x with replays := n + 1 })
    (by rw [serving_counted, serving_keptBack, serving_frame, hs]) hredo
  exact ⟨b, hb.trans (leaves_mapRun ..)⟩

omit hs hredo in
/-- REPLAY with its record in the trap queue. -/
theorem trapReplay_written (hq : 8 < u.queueFree r.part) (base bad n : Nat) : u.trapReplay r q base bad n =
    (((u.writeFrame r q base 1 (n + 1)).writeRecord r.part (u.recordOf q .replay bad r)).mapRun fun x =>
      { x with replays := n + 1 }).doReplay q := by
  have hplain := plainRecord_written (s := (u.writeFrame r q base 1 (n + 1)).mapRun fun x => { x with replays := n + 1 })
    (p := r.part) (bs := u.recordOf q .replay bad r) (resume := some (r.ctx, r.recAddr))
    (hq.trans_eq ((queueFree_mapRun ..).trans (h.frame_queueFree base 1 (n + 1))).symm)
  rw [trapReplay_plain hplain, writeRecord_mapRun]
  rfl

end Park

/-- A REPLAY of a fault at a bundle, of agents without results in flight, changes no agent. -/
theorem doReplay_spec (hredo : q.redo = .bundle) (hdef : q.deferred = false) (hl : ∀ a : AgentId, (u.agent a).latches = []) :
    (u.doReplay q).phase = u.phase ∧ (u.doReplay q).freezes = u.freezes ++ [⟨.replay, 1⟩] ∧
    (u.doReplay q).bank.agents = u.bank.agents ∧ (u.doReplay q).bank.run = u.bank.run ∧ (u.doReplay q).mem = u.mem := by
  have hdel : q.delivered = false := by rw [TrapReq.delivered, hredo, hdef]; rfl
  have hkeep : (u.bank.agents.mapIdx fun i a =>
      { a.commit u.pt with halted := a.halted && !(q.delivered && decide (i = q.agent.val)) }) = u.bank.agents := by
    refine Vector.ext fun i hi => ?_
    have hclean : u.bank.agents[i].latches = [] := hl ⟨i, hi⟩
    rw [Vector.getElem_mapIdx, commit_clean hclean, hdel, Bool.false_and, Bool.not_false, Bool.and_true]
  rw [State.doReplay, redo_bundle hredo]
  exact ⟨rfl, rfl, hkeep, rfl, rfl⟩

end Sys2Proof.Machine
end

section
/-! The actions of a trap (R330, R331): the entry of the action table, KILL, FORWARD, and the trap as a whole. -/

namespace Sys2Proof.Machine

variable {s u : State} {r : Run} {q : TrapReq}

/-! ## The action table -/

/-- The address of a cause's entry in the action table of a context. -/
def State.entryOf (s : State) (cx : BitVec 6) (cause : Byte) : Nat := s.ctxs[cx.toNat].action + 16 * cause.toNat

/-- An entry that is readable and well formed. -/
structure GoodEntry (s : State) (ent : Nat) : Prop where
  backed : s.backedPa ent = true
  clean : s.mem.poisonAt ent 16 = none
  action : s.rdNat ent 1 ≤ 3
  zero : s.rdNat (ent + 1) 1 = 0
  reserved : s.rdNat (ent + 4) 4 = 0

theorem entry_fields (s : State) (ent : Nat) : fieldOf (s.rd ent 16) 0 1 = s.rdNat ent 1 ∧
    fieldOf (s.rd ent 16) 1 1 = s.rdNat (ent + 1) 1 ∧ fieldOf (s.rd ent 16) 2 2 = s.rdNat (ent + 2) 2 ∧
    fieldOf (s.rd ent 16) 4 4 = s.rdNat (ent + 4) 4 ∧ fieldOf (s.rd ent 16) 8 8 = s.rdNat (ent + 8) 8 :=
  ⟨fieldOf_rd s ent (by decide), fieldOf_rd s ent (by decide), fieldOf_rd s ent (by decide), fieldOf_rd s ent (by decide),
    fieldOf_rd s ent (by decide)⟩

/-- The action of a code. -/
def actOf : Nat → Act
  | 0 => .kill
  | 1 => .replay
  | 2 => .park
  | _ => .forward

theorem actionOf_good {cx : BitVec 6} {cause : Byte} (h : GoodEntry s (s.entryOf cx cause)) (hc : cause ≠ 0x1A) :
    s.actionOf cx cause = ⟨actOf (s.rdNat (s.entryOf cx cause) 1), s.rdNat (s.entryOf cx cause + 2) 2,
      s.rdNat (s.entryOf cx cause + 8) 8, false⟩ := by
  obtain ⟨hact, hzero, hlimit, hres, hhand⟩ := entry_fields s (s.entryOf cx cause)
  have hbad : (!s.backedPa (s.entryOf cx cause) || (s.mem.poisonAt (s.entryOf cx cause) 16).isSome
      || decide (3 < fieldOf (s.rd (s.entryOf cx cause) 16) 0 1) || decide (fieldOf (s.rd (s.entryOf cx cause) 16) 1 1 ≠ 0)
      || decide (fieldOf (s.rd (s.entryOf cx cause) 16) 4 4 ≠ 0)) = false := by
    rw [hact, hzero, hres, h.backed, h.clean, h.zero, h.reserved, decide_eq_false (Nat.not_lt.2 h.action)]
    rfl
  rw [← hact, ← hlimit, ← hhand]
  refine (if_neg hc).trans ((if_neg fun ht => Bool.false_ne_true (hbad.symm.trans ht)).trans ?_)
  rfl

/-- An entry that says KILL, or is malformed, is KILL, and so is cause 0x1A. -/
theorem actionOf_kill {cx : BitVec 6} {cause : Byte} (h : (s.rdNat (s.entryOf cx cause) 1 = 0 ∨
    3 < s.rdNat (s.entryOf cx cause) 1 ∨ s.rdNat (s.entryOf cx cause + 1) 1 ≠ 0 ∨ s.rdNat (s.entryOf cx cause + 4) 4 ≠ 0) ∨
      cause = 0x1A) : (s.actionOf cx cause).act = .kill := by
  obtain ⟨hact, hzero, -, hres, -⟩ := entry_fields s (s.entryOf cx cause)
  rw [← hact, ← hzero, ← hres] at h
  unfold State.actionOf
  split
  · rfl
  next hc =>
    dsimp only
    split
    · rfl
    next hgood =>
      simp only [Bool.or_eq_true, decide_eq_true_eq, not_or] at hgood
      obtain ⟨⟨⟨-, hact3⟩, hzero0⟩, hres0⟩ := hgood
      have h0 : fieldOf (s.rd (s.entryOf cx cause) 16) 0 1 = 0 := by
        rcases h with (h | h | h | h) | h
        · exact h
        · exact absurd h hact3
        · exact absurd h hzero0
        · exact absurd h hres0
        · exact absurd h hc
      change actOf (fieldOf (s.rd (s.entryOf cx cause) 16) 0 1) = .kill
      rw [h0]
      rfl

/-! ## The run that has been caught -/

/-- What every trap notes before its action: the replays counted, the record's last cause, rules' replays forgotten, and requests
that are posted again. -/
def State.caught (s : State) (r : Run) (q : TrapReq) : State :=
  { ((s.mapRun fun x => { x with replays := r.replaysAt q.pc, replayPc := q.pc }).mapRec r.ctx r.recAddr fun x =>
      { x with last := (q.cause, q.sub) }).mapBank fun b => { b with rules := b.rules.map fun x => { x with replays := 0 } } with
    reposted := s.reposted || s.stopPend
    svcPend := s.svcPend.map fun (q : BitVec 4 × Byte × Bool) => (q.1, q.2.1, true)
    reissue := none }

/-- The run as it was caught. -/
def Run.counted (r : Run) (q : TrapReq) : Run := { r with replays := r.replaysAt q.pc }

/-- What an entry's action does with a run that was caught. -/
def State.acts (s : State) (r : Run) (q : TrapReq) (e : ActEnt) (n : Nat) : State :=
  let limit := decide (e.act = .replay) && decide (e.limit ≠ 0) && decide (e.limit < n + 1)
  let bad := if e.bad then 16 else 0
  let base := bit q.engine + 2 * bit q.deferred + bad + (if limit then 32 else 0)
  match e.act with
  | .kill => s.trapKill r q base bad n
  | .replay => if limit then s.trapPark r q base (bad + 8) n else s.trapReplay r q base bad n
  | .park => s.trapPark r q base bad n
  | .forward => s.trapForward r q e base bad n

/-- A trap, of a run that stands with no access out of order. -/
theorem takeTrap_eq (hr : s.bank.run = some r) (ho : Orderly s) (hlate : q.late = 0) : s.takeTrap q =
    (s.caught r q).acts (r.counted q) q (s.actionOf r.ctx q.cause) (r.replaysAt q.pc) := by
  rw [State.takeTrap, hr]
  dsimp only
  rw [quiesce_orderly ho, hlate, State.elapse]
  rfl

theorem bit_false : bit false = 0 := rfl

section Acts

variable {e : ActEnt} {n : Nat}

theorem acts_kill (ha : e.act = .kill) : ∃ base bad, u.acts r q e n = u.trapKill r q base bad n := by
  rw [State.acts, ha]
  exact ⟨_, _, rfl⟩

variable (heng : q.engine = false) (hdef : q.deferred = false)
include heng hdef

theorem acts_park {l h : Nat} : u.acts r q ⟨.park, l, h, false⟩ n = u.trapPark r q 0 0 n := by
  rw [State.acts, heng, hdef]
  rfl

theorem acts_forward {l h : Nat} : u.acts r q ⟨.forward, l, h, false⟩ n = u.trapForward r q ⟨.forward, l, h, false⟩ 0 0 n := by
  rw [State.acts, heng, hdef]
  rfl

theorem acts_replay {l h : Nat} (hl : l = 0 ∨ n + 1 ≤ l) : u.acts r q ⟨.replay, l, h, false⟩ n = u.trapReplay r q 0 0 n := by
  have hwithin : (decide (Act.replay = .replay) && decide (l ≠ 0) && decide (l < n + 1)) = false := by
    rcases hl with rfl | hle
    · rfl
    · rw [decide_eq_false (Nat.not_lt.2 hle), Bool.and_false]
  rw [State.acts, heng, hdef]
  dsimp only
  rw [hwithin]
  simp only [bit_false, Bool.false_eq_true, if_false]

/-- Past its limit a REPLAY is carried out as PARK. -/
theorem acts_limit {l h : Nat} (h0 : l ≠ 0) (hl : l < n + 1) : u.acts r q ⟨.replay, l, h, false⟩ n = u.trapPark r q 32 8 n := by
  have hpast : (decide (Act.replay = .replay) && decide (l ≠ 0) && decide (l < n + 1)) = true := by
    rw [decide_eq_true h0, decide_eq_true hl]
    rfl
  rw [State.acts, heng, hdef]
  dsimp only
  rw [hpast]
  simp only [bit_false, Bool.false_eq_true, if_false, if_true, Nat.mul_zero, Nat.zero_add]

end Acts

/-! ## KILL -/

/-- What stands behind the record of a KILL: memory, partitions, vectors, held areas and the stop request alone have changed. -/
theorem fatalRecord_frame (u : State) (p : BitVec 4) (bs : List Byte) : ∃ m ps v, u.fatalRecord p bs =
    { u with mem := m, parts := ps, msix := v } := by
  unfold State.fatalRecord
  split
  · obtain ⟨m, v, hw⟩ := writeRecord_frame u p bs
    exact ⟨m, u.parts, v, hw⟩
  · exact ⟨_, _, _, rfl⟩

/-- A run that is killed is left as follows. -/
def Killed (s t : State) (r : Run) : Prop :=
  t.phase = .saving .kill ∧ t.bank.eng = [] ∧ (∀ a : AgentId, t.agent a = Agent.init) ∧
    t.freezes = s.freezes.filter Freeze.stays ∧
    t.ctxs[r.ctx.toNat].ev = s.ctxs[r.ctx.toNat].ev ||| (r.snap.setMask &&& ~~~r.signalled) ∧
    t.ctxs[r.ctx.toNat].err = s.ctxs[r.ctx.toNat].err ||| (r.snap.setMask &&& ~~~r.signalled)

theorem killEvents_ctx (u : State) (r : Run) : (u.killEvents r).ctxs[r.ctx.toNat] =
    { u.ctxs[r.ctx.toNat] with
      ev := u.ctxs[r.ctx.toNat].ev ||| (r.snap.setMask &&& ~~~r.signalled)
      err := u.ctxs[r.ctx.toNat].err ||| (r.snap.setMask &&& ~~~r.signalled) } :=
  ctxs_mapCtx (s := u) (cx := r.ctx) fun c => { c with
    ev := c.ev ||| (r.snap.setMask &&& ~~~r.signalled), err := c.err ||| (r.snap.setMask &&& ~~~r.signalled) }

theorem killed_agent (b : Bank) (tag : Nat) (a : AgentId) : (b.killed tag).agents[a.val] = Agent.init := by
  simp [Bank.killed]

theorem doKill_killed (u : State) (r : Run) (q : TrapReq) : Killed u (u.doKill r q) r := by
  obtain ⟨m, rs, hmove⟩ := moveRec_eq (u.killEvents r) r.ctx r.recAddr 6 q.cause q.sub 0
  have hctx := killEvents_ctx u r
  unfold State.doKill
  dsimp only
  rw [hmove]
  exact ⟨rfl, rfl, fun a => killed_agent _ _ a, rfl, congrArg Ctx.ev hctx, congrArg Ctx.err hctx⟩

/-- Run, freezes and contexts of two states are the same. -/
def SameRun (u v : State) : Prop := v.bank = u.bank ∧ v.freezes = u.freezes ∧ v.ctxs = u.ctxs

theorem SameRun.killed {v t : State} (h : SameRun u v) (hk : Killed v t r) : Killed u t r := by
  obtain ⟨-, hf, hc⟩ := h
  rw [Killed, hf, hc] at hk
  exact hk

theorem sameRun_frame (flags action replays : Nat) : SameRun u (u.writeFrame r q flags action replays) := by
  obtain ⟨m, hw⟩ := writeFrame_memOnly u r q flags action replays
  rw [hw]
  exact ⟨rfl, rfl, rfl⟩

theorem sameRun_fatalRecord (p : BitVec 4) (bs : List Byte) : SameRun u (u.fatalRecord p bs) := by
  obtain ⟨m, ps, v, hw⟩ := fatalRecord_frame u p bs
  rw [hw]
  exact ⟨rfl, rfl, rfl⟩

theorem SameRun.trans {v w : State} (h : SameRun u v) (h' : SameRun v w) : SameRun u w :=
  ⟨h'.1.trans h.1, h'.2.1.trans h.2.1, h'.2.2.trans h.2.2⟩

theorem sameRun_holdAreas (lost : Bool) : SameRun u (u.holdAreas r lost) := ⟨rfl, rfl, rfl⟩

theorem sameRun_raiseVector (p : BitVec 4) (k : Nat) : SameRun u (u.raiseVector p k) := ⟨rfl, rfl, rfl⟩

theorem sameRun_stopPend : SameRun u { u with stopPend := true } := ⟨rfl, rfl, rfl⟩

theorem SameRun.serving {v : State} (h : SameRun u v) : v.serving = u.serving := by
  rw [State.serving, State.serving, h.1]

/-- A KILL of a run that is no service slice. -/
theorem trapKill_killed (hs : u.serving = false) (base bad n : Nat) : Killed u (u.trapKill r q base bad n) r := by
  rw [show @State.trapKill = _ by delta State.trapKill; exact rfl]
  extract_lets framed bs lost noted raised stopped tag
  have hnoted : SameRun u noted :=
    ((sameRun_frame base 0 n).trans (sameRun_fatalRecord r.part bs)).trans (sameRun_holdAreas lost)
  clear_value noted
  have hraised : SameRun u raised := by
    unfold raised
    split
    · exact hnoted.trans (sameRun_raiseVector r.part 2)
    · exact hnoted
  clear_value raised
  have hstopped : SameRun u stopped := by
    unfold stopped
    split
    · exact hraised.trans sameRun_stopPend
    · exact hraised
  clear_value stopped
  rw [if_neg fun h => Bool.false_ne_true ((hstopped.serving.trans hs).symm.trans h)]
  exact hstopped.killed (doKill_killed stopped r q)

/-! ## FORWARD -/

theorem Memory.poison_writeN (m : Memory) (a : Nat) (bs : List Byte) : (m.writeN a bs).poison = m.poison := by
  induction bs generalizing m a with
  | nil => rfl
  | cons b bs ih => exact ih (m.write a b) (a + 1)

theorem target_ne_miss (e : TlbEnt) (k : AKind) (va : Nat) : e.target k va ≠ .miss := by
  unfold TlbEnt.target
  split
  · exact nofun
  · exact nofun

/-- Only an address of the tables, without a translation at hand, needs a walk. -/
theorem locate_miss {cx : BitVec 6} {k : AKind} {va w : Nat} (h : s.locate cx none k va w = .miss) :
    va / 2 ^ 52 < 30 ∧ s.tlbFind cx va = none := by
  unfold State.locate at h
  by_cases h57 : 2 ^ 57 ≤ va
  · rw [if_pos h57] at h
    exact nomatch h
  by_cases hal : va % w ≠ 0
  · rw [if_neg h57, if_pos hal] at h
    exact nomatch h
  by_cases h31 : va / 2 ^ 52 = 31
  · rw [if_neg h57, if_neg hal, if_pos h31] at h
    split at h
    · exact nomatch h
    · exact nomatch h
  by_cases h30 : va / 2 ^ 52 = 30
  · rw [if_neg h57, if_neg hal, if_neg h31, if_pos h30] at h
    split at h
    · exact nomatch h
    · exact nomatch h
  rw [if_neg h57, if_neg hal, if_neg h31, if_neg h30] at h
  have hlow : va / 2 ^ 52 < 30 := by omega
  refine ⟨hlow, ?_⟩
  split at h
  · exact nomatch h
  · split at h
    next e _ => exact absurd h (target_ne_miss e k va)
    next hnone => exact hnone

/-- Where no walk is needed an access goes by what is at hand. -/
theorem locate_at {cx : BitVec 6} {k : AKind} {va w key : Nat} (h : s.locateW cx none k va w = .at key)
    (hand : 30 ≤ va / 2 ^ 52 ∨ (s.tlbFind cx va).isSome = true) : s.locate cx none k va w = .at key := by
  unfold State.locateW at h
  split at h
  next hmiss =>
    obtain ⟨hlow, hnone⟩ := locate_miss hmiss
    rcases hand with hhigh | hsome
    · omega
    · rw [hnone] at hsome
      exact nomatch hsome
  next => exact h

theorem locateW_at {cx : BitVec 6} {k : AKind} {va w key : Nat} (h : s.locate cx none k va w = .at key) :
    s.locateW cx none k va w = .at key := by
  rw [State.locateW, h]

/-- What FORWARD asks for: a handler's record that can be pushed, and its frame pointer, which can be written. -/
structure Handled (u : State) (p : BitVec 4) (sv : BitVec 6) (handler hk fk : Nat) : Prop where
  supervisor : u.supervisorOf p = some sv
  handler_ne : handler ≠ 0
  aligned : handler % 64 = 0
  recordRead : u.locate sv none .read handler 64 = .at hk
  recordWrite : u.locate sv none .write handler 64 = .at hk
  servedRead : u.served hk false = true
  servedWrite : u.served hk true = true
  clean : u.mem.poisonAt hk 64 = none
  status : recordStatus (u.rd hk 64) (decide (8192 ≤ u.storeCount u.die)) = 0
  frameWrite : u.locate sv none .write (u.rdNat (hk + 8) 8) 64 = .at fk
  frameServed : u.served fk true = true
  frameHand : 30 ≤ u.rdNat (hk + 8) 8 / 2 ^ 52 ∨ (u.tlbFind sv (u.rdNat (hk + 8) 8)).isSome = true
  apart : fk + 64 ≤ hk ∨ hk + 64 ≤ fk

/-- A record that can be pushed does not stand in a state in which the scheduler holds it. -/
theorem recordStatus_state {bs : List Byte} {full : Bool} (h : recordStatus bs full = 0) :
    ¬(1 ≤ fieldOf bs 0x38 1 ∧ fieldOf bs 0x38 1 ≤ 4) := by
  intro hheld
  unfold recordStatus at h
  rw [if_pos hheld] at h
  split_ifs at h

theorem fillTlb_at_hand {cx : BitVec 6} {va : Nat} (h : 30 ≤ va / 2 ^ 52 ∨ (u.tlbFind cx va).isSome = true) : u.fillTlb cx va = u := by
  refine if_neg fun hc => ?_
  obtain ⟨hlow, hnone, -⟩ := hc
  rcases h with hhigh | hsome
  · omega
  · rw [Option.isNone_iff_eq_none.1 hnone] at hsome
    exact nomatch hsome

/-- The record of a trap stands at the frame pointer, and the handler's record is pushed. -/
def State.forwarded (u : State) (sv : BitVec 6) (handler hk fk : Nat) (bs : List Byte) : State :=
  (u.wr fk bs).enqueue sv (BitVec.ofNat 64 handler) hk u.die ((u.wr fk bs).rd hk 64) none

theorem memOk_forwarded (hm : MemOk u) (sv : BitVec 6) (handler hk fk : Nat) (bs : List Byte) :
    MemOk (u.forwarded sv handler hk fk bs) := by
  have hwritten : MemOk (u.wr fk bs) := State.wf_wr u fk bs hm
  exact State.wf_wr (u.wr fk bs) (hk + 0x38) _ hwritten

/-- A push changes memory and the records alone. -/
theorem forwarded_frame (u : State) (sv : BitVec 6) (handler hk fk : Nat) (bs : List Byte) : ∃ m,
    u.forwarded sv handler hk fk bs = { u with
      mem := m
      recs := u.recs ++ [(u.wr fk bs).pushed sv (BitVec.ofNat 64 handler) hk u.die]
      pushes := u.pushes + 1 } := ⟨_, enqueue_eq (s := u.wr fk bs) sv (BitVec.ofNat 64 handler) hk u.die⟩

theorem forwarded_keeps (u : State) (r : Run) (sv : BitVec 6) (handler hk fk : Nat) (bs : List Byte) :
    (u.forwarded sv handler hk fk bs).freezes = u.freezes ∧ (u.forwarded sv handler hk fk bs).pt = u.pt ∧
    (u.forwarded sv handler hk fk bs).wall = u.wall ∧ (u.forwarded sv handler hk fk bs).frameOf r = u.frameOf r ∧
    (u.forwarded sv handler hk fk bs).parts = u.parts ∧
    (∀ a, (u.forwarded sv handler hk fk bs).agent a = u.agent a) ∧
    (u.forwarded sv handler hk fk bs).recs = u.recs ++ [(u.wr fk bs).pushed sv (BitVec.ofNat 64 handler) hk u.die] := by
  obtain ⟨m, hf⟩ := forwarded_frame u sv handler hk fk bs
  rw [hf]
  exact ⟨rfl, rfl, rfl, rfl, rfl, fun _ => rfl, rfl⟩

section Forward

variable {p : BitVec 4} {sv : BitVec 6} {handler hk fk : Nat} (h : Handled u p sv handler hk fk) {bs : List Byte}
include h

theorem engWrite_forward (hreads : u.reads = []) (hheld : u.held = []) :
    u.engWrite sv none (u.rdNat (hk + 8) 8) 64 bs = .ok (u.wr fk bs) := by
  rw [State.engWrite, locateW_at h.frameWrite]
  dsimp only
  rw [if_pos h.frameServed, fillTlb_at_hand h.frameHand, noteWrite_quiet hreads hheld]

theorem pushBy_forward (hlen : bs.length = 64) : (u.wr fk bs).pushBy sv handler u.die none =
    some ((u.wr fk bs).enqueue sv (BitVec.ofNat 64 handler) hk u.die ((u.wr fk bs).rd hk 64) none) := by
  have hread : (u.wr fk bs).locateW sv none .read handler 64 = .at hk := locateW_at h.recordRead
  have hwrite : (u.wr fk bs).locateW sv none .write handler 64 = .at hk := locateW_at h.recordWrite
  have hserved : (u.wr fk bs).served hk true = true := h.servedWrite
  have hclean : (u.wr fk bs).mem.poisonAt hk 64 = none := by
    rw [← h.clean, Memory.poisonAt, Memory.poisonAt]
    exact congrArg (fun l : List Nat => List.find? (fun g => l.contains g) _) (Memory.poison_writeN u.mem fk bs)
  have hrd : (u.wr fk bs).rd hk 64 = u.rd hk 64 := rd_wr_apart (by have := h.apart; omega)
  have hstatus : recordStatus ((u.wr fk bs).rd hk 64) (decide (8192 ≤ (u.wr fk bs).storeCount u.die)) = 0 := by
    rw [hrd]
    exact h.status
  rw [State.pushBy, hread, hwrite]
  dsimp only
  rw [hserved, hclean, if_neg (by decide), if_pos hstatus]

/-- FORWARD writes the record at the frame pointer and pushes the handler's record. -/
theorem forward_ok (hreads : u.reads = []) (hheld : u.held = []) (hlen : bs.length = 64) :
    u.forward p handler bs = .ok (u.forwarded sv handler hk fk bs) := by
  have hidle : ¬(1 ≤ u.rdNat (hk + 0x38) 1 ∧ u.rdNat (hk + 0x38) 1 ≤ 4) := by
    rw [← fieldOf_rd u hk (i := 0x38) (n := 1) (len := 64) (by decide)]
    exact recordStatus_state h.status
  have hopen : ¬(handler = 0 ∨ handler % 64 ≠ 0) := fun hc => hc.elim h.handler_ne fun hn => hn h.aligned
  rw [State.forward, h.supervisor]
  dsimp only
  rw [if_neg hopen, locateW_at h.recordRead]
  dsimp only
  rw [h.servedRead, h.clean, if_neg (by decide), if_neg hidle, engWrite_forward h hreads hheld]
  dsimp only
  rw [pushBy_forward h hlen]
  rfl

theorem rd_forwarded (hm : MemOk u) (hlen : bs.length = 64) : (u.forwarded sv handler hk fk bs).rd fk 64 = bs := by
  have hap := h.apart
  have hall := rd_wr_all (key := fk) (bs := bs) hm
  rw [hlen] at hall
  exact (rd_setStatus_out (s := u.wr fk bs) (home := hk) (by omega) 1 0 0 0).trans hall

end Forward

/-- FORWARD that can be carried out: record and push, then the frame, and the run is saved. -/
theorem trapForward_ok {sv : BitVec 6} {hk fk : Nat} {e : ActEnt} (h : Handled u r.part sv e.handler hk fk)
    (hreads : u.reads = []) (hheld : u.held = []) (hs : u.serving = false) (hredo : q.redo = .bundle) (n : Nat) : ∃ b,
    u.trapForward r q e 0 0 n =
      ((u.forwarded sv e.handler hk fk (u.recordOf q .forward 0 r)).writeFrame r q 0 3 n).leaves b q := by
  have hok := forward_ok h hreads hheld (bs := u.recordOf q .forward 0 r) (length_recordOf (by decide) 0)
  have hserv : ((u.forwarded sv e.handler hk fk (u.recordOf q .forward 0 r)).writeFrame r q 0 3 n).serving = false := by
    obtain ⟨m, hf⟩ := forwarded_frame u sv e.handler hk fk (u.recordOf q .forward 0 r)
    rw [serving_frame, hf]
    exact hs
  rw [show @State.trapForward = _ by delta State.trapForward; exact rfl]
  extract_lets bs
  have hbs : bs = u.recordOf q .forward 0 r := rfl
  rw [hbs, hok, parked_bundle hredo]
  exact parkRun_leaves hserv hredo

/-! ## What a frame, a record and a withheld record hold -/

/-- The frame of a trap stands at `f`. -/
def Framed (u t : State) (q : TrapReq) (f action flags count : Nat) : Prop :=
  t.rd f 6 = [q.cause, q.sub, BitVec.ofNat 8 q.agent.val, BitVec.ofNat 8 flags, 0xFF, BitVec.ofNat 8 action] ∧
    t.rdNat (f + 6) 2 = count % 2 ^ 16 ∧ t.rdNat (f + 8) 8 = q.pc.toNat ∧ t.rdNat (f + 0x10) 8 = q.resume.toNat ∧
    t.rdNat (f + 0x18) 8 = q.addr.toNat ∧ t.rdNat (f + 0x20) 8 = q.slice.toNat ∧
    t.rdNat (f + 0x28) 8 = u.pt % 2 ^ 64 ∧ t.rdNat (f + 0x30) 8 = u.wall % 2 ^ 64

/-- The record of a trap stands at the producer's place, and the producer index has gone on. -/
def Recorded (u t : State) (r : Run) (q : TrapReq) (action : Nat) : Prop :=
  t.rd (u.nextSlot r.part) 4 = [q.cause, q.sub, BitVec.ofNat 8 action, r.ctx.setWidth 8] ∧
    t.rdNat (u.nextSlot r.part + 4) 2 = u.coreId % 2 ^ 16 ∧ t.rdNat (u.nextSlot r.part + 6) 1 = q.agent.val ∧
    t.rdNat (u.nextSlot r.part + 7) 1 = 0xFF ∧ t.rdNat (u.nextSlot r.part + 8) 8 = r.recAddr.toNat ∧
    t.rdNat (u.nextSlot r.part + 0x10) 8 = q.pc.toNat ∧ t.rdNat (u.nextSlot r.part + 0x18) 8 = u.frameOf r % 2 ^ 64 ∧
    t.rdNat (u.nextSlot r.part + 0x20) 8 = q.addr.toNat ∧ t.rdNat (u.nextSlot r.part + 0x28) 8 = u.wall % 2 ^ 64 ∧
    t.rdNat u.parts[r.part.toNat].ctl 4 = (u.rdNat u.parts[r.part.toNat].ctl 4 + 1) % 2 ^ 32

/-- The record of a trap is withheld, and counted. -/
def KeptBack (u t : State) (r : Run) (q : TrapReq) (action : Nat) : Prop :=
  ∃ w : Withheld, t.parts[r.part.toNat].withheld = u.parts[r.part.toNat].withheld ++ [w] ∧
    w.bytes.take 4 = [q.cause, q.sub, BitVec.ofNat 8 action, r.ctx.setWidth 8] ∧
    t.rdNat u.parts[r.part.toNat].ctl 4 = u.rdNat u.parts[r.part.toNat].ctl 4 ∧
    t.rdNat (u.parts[r.part.toNat].ctl + 12) 4 = (u.rdNat (u.parts[r.part.toNat].ctl + 12) 4 + 1) % 2 ^ 32

section Places

variable (h : TrapRoom u r q) (hrule : q.rule = none) (hshown : q.shown = none) (hlate : q.late = 0)
include h hrule hshown hlate

theorem written_spec {t : State} {act : Act} (ha : act ≠ .kill) {flags action n extra : Nat}
    (ht : t.mem = ((u.writeFrame r q flags action n).writeRecord r.part (u.recordOf q act extra r)).mem) :
    Framed u t q (u.frameOf r) action flags n ∧ Recorded u t r q (act.code + extra) := by
  have hrd : ∀ k len, t.rd k len = ((u.writeFrame r q flags action n).writeRecord r.part (u.recordOf q act extra r)).rd k len :=
    fun k len => congrArg (fun m : Memory => m.readN k len) ht
  obtain ⟨hframe, hrecord, hindex⟩ := h.written flags action n (length_recordOf (u := u) (q := q) (r := r) ha extra)
  rw [← hrd] at hframe hrecord
  refine ⟨header_fields hrule hshown hlate hframe, ?_⟩
  obtain ⟨h0, h4, h6, h7, h8, h10, h18, h20, h28⟩ := record_fields ha hrule hrecord
  exact ⟨h0, h4, h6, h7, h8, h10, h18, h20, h28, (congrArg ofBytes (hrd _ 4)).trans hindex⟩

theorem withheld_spec {t : State} {act : Act} {flags action n extra : Nat} {resume : Option (BitVec 6 × DWord)}
    (ht : t.mem = ((u.writeFrame r q flags action n).keptBack r.part (u.recordOf q act extra r) resume).mem)
    (hp : t.parts = ((u.writeFrame r q flags action n).keptBack r.part (u.recordOf q act extra r) resume).parts) :
    Framed u t q (u.frameOf r) action flags n ∧ KeptBack u t r q (act.code + extra) := by
  have hrd : ∀ k len, t.rd k len =
      ((u.writeFrame r q flags action n).keptBack r.part (u.recordOf q act extra r) resume).rd k len :=
    fun k len => congrArg (fun m : Memory => m.readN k len) ht
  obtain ⟨hframe, hheld, hindex, hcount⟩ := h.withheld flags action n (u.recordOf q act extra r) resume
  rw [← hrd] at hframe
  rw [← hp] at hheld
  exact ⟨header_fields hrule hshown hlate hframe, _, hheld, recordOf_head act extra, (congrArg ofBytes (hrd _ 4)).trans hindex,
    (congrArg ofBytes (hrd _ 4)).trans hcount⟩

end Places

theorem freezes_frame (flags action n : Nat) : (u.writeFrame r q flags action n).freezes = u.freezes :=
  (sameRun_frame flags action n).2.1

theorem freezes_writeRecord (p : BitVec 4) (bs : List Byte) : (u.writeRecord p bs).freezes = u.freezes := by
  obtain ⟨m, v, hw⟩ := writeRecord_frame u p bs
  rw [hw]

theorem freezes_keptBack (p : BitVec 4) (bs : List Byte) (resume : Option (BitVec 6 × DWord)) :
    (u.keptBack p bs resume).freezes = u.freezes := rfl

/-- What the save of a parked run leaves. -/
theorem leaves_spec (v : State) (b : Bank) (q : TrapReq) : (v.leaves b q).phase = .saving (.park q.cause q.sub) ∧
    (v.leaves b q).freezes = v.freezes.filter Freeze.stays ∧ (v.leaves b q).mem = v.mem ∧ (v.leaves b q).parts = v.parts ∧
    (v.leaves b q).recs = v.recs := ⟨rfl, rfl, rfl, rfl, rfl⟩

section Outcomes

variable (h : TrapRoom u r q) (hs : u.serving = false) (hredo : q.redo = .bundle) (hrule : q.rule = none) (hshown : q.shown = none)
  (hlate : q.late = 0)
include h hs hredo hrule hshown hlate

theorem trapPark_spec (base extra n : Nat) :
    (u.trapPark r q base extra n).phase = .saving (.park q.cause q.sub) ∧
    (u.trapPark r q base extra n).freezes = u.freezes.filter Freeze.stays ∧
    Framed u (u.trapPark r q base extra n) q (u.frameOf r) 2 base n ∧
    (8 < u.queueFree r.part → Recorded u (u.trapPark r q base extra n) r q (2 + extra)) ∧
    (u.queueFree r.part ≤ 8 → KeptBack u (u.trapPark r q base extra n) r q (2 + extra)) := by
  rcases Nat.lt_or_ge 8 (u.queueFree r.part) with hq | hq
  · obtain ⟨b, ht⟩ := trapPark_written h hs hredo hq base extra n
    obtain ⟨hphase, hfreeze, hmem, -, -⟩ :=
      leaves_spec ((u.writeFrame r q base 2 n).writeRecord r.part (u.recordOf q .park extra r)) b q
    rw [ht]
    rw [freezes_writeRecord, freezes_frame] at hfreeze
    obtain ⟨hframed, hrec⟩ := written_spec h hrule hshown hlate (act := .park) (by decide) hmem
    exact ⟨hphase, hfreeze, hframed, fun _ => hrec, fun hle => absurd hq (Nat.not_lt.2 hle)⟩
  · obtain ⟨b, ht⟩ := trapPark_withheld h hs hredo hq base extra n
    obtain ⟨hphase, hfreeze, hmem, hparts, -⟩ :=
      leaves_spec ((u.writeFrame r q base 2 n).keptBack r.part (u.recordOf q .park extra r) none) b q
    rw [ht]
    rw [freezes_keptBack, freezes_frame] at hfreeze
    obtain ⟨hframed, hkept⟩ := withheld_spec h hrule hshown hlate (act := .park) hmem hparts
    exact ⟨hphase, hfreeze, hframed, fun hlt => absurd hlt (Nat.not_lt.2 hq), fun _ => hkept⟩

theorem trapReplay_withheld_spec (hq : u.queueFree r.part ≤ 8) (base bad n : Nat) :
    (u.trapReplay r q base bad n).phase = .saving (.park q.cause q.sub) ∧
    Framed u (u.trapReplay r q base bad n) q (u.frameOf r) 1 base (n + 1) ∧
    KeptBack u (u.trapReplay r q base bad n) r q (1 + bad) := by
  obtain ⟨b, ht⟩ := trapReplay_withheld h hs hredo hq base bad n
  obtain ⟨hphase, -, hmem, hparts, -⟩ := leaves_spec
    ((u.writeFrame r q base 1 (n + 1)).keptBack r.part (u.recordOf q .replay bad r) (some (r.ctx, r.recAddr))) b q
  rw [ht]
  exact ⟨hphase, withheld_spec h hrule hshown hlate (act := .replay) hmem hparts⟩

omit hs in
theorem trapReplay_written_spec (hq : 8 < u.queueFree r.part) (hdef : q.deferred = false) (base bad n : Nat) :
    (u.trapReplay r q base bad n).phase = u.phase ∧
    (u.trapReplay r q base bad n).freezes = u.freezes ++ [⟨.replay, 1⟩] ∧
    (u.trapReplay r q base bad n).bank.agents = u.bank.agents ∧
    (u.trapReplay r q base bad n).bank.run = u.bank.run.map (fun x => { x with replays := n + 1 }) ∧
    Framed u (u.trapReplay r q base bad n) q (u.frameOf r) 1 base (n + 1) ∧
    Recorded u (u.trapReplay r q base bad n) r q (1 + bad) := by
  rw [trapReplay_written h hq]
  have hsame : ∃ m v, (u.writeFrame r q base 1 (n + 1)).writeRecord r.part (u.recordOf q .replay bad r) =
      { u with mem := m, msix := v } := by
    obtain ⟨m, hw⟩ := writeFrame_memOnly u r q base 1 (n + 1)
    obtain ⟨m', v, hw'⟩ := writeRecord_frame (u.writeFrame r q base 1 (n + 1)) r.part (u.recordOf q .replay bad r)
    exact ⟨m', v, by rw [hw', hw]⟩
  have hplaces : ∀ t : State, t.mem = ((u.writeFrame r q base 1 (n + 1)).writeRecord r.part (u.recordOf q .replay bad r)).mem →
      Framed u t q (u.frameOf r) 1 base (n + 1) ∧ Recorded u t r q (1 + bad) :=
    fun t ht => written_spec h hrule hshown hlate (act := .replay) (by decide) ht
  obtain ⟨m, v, hx⟩ := hsame
  rw [hx] at hplaces ⊢
  obtain ⟨hphase, hfreeze, hagents, hrun, hmem⟩ := doReplay_spec (q := q)
    (u := ({ u with mem := m, msix := v } : State).mapRun fun x => { x with replays := n + 1 }) hredo hdef h.clean
  exact ⟨hphase, hfreeze, hagents, hrun, hplaces _ hmem⟩

end Outcomes

/-- FORWARD that can be carried out: the record at the handler's frame pointer, the handler's record pushed, the frame, and the
run saved. -/
theorem trapForward_spec {sv : BitVec 6} {hk fk : Nat} {e : ActEnt} (h : Handled u r.part sv e.handler hk fk)
    (hl : ∀ a : AgentId, (u.agent a).latches = []) (ht : q.tail.length ≤ 64) (hm : MemOk u)
    (hap : fk + 64 ≤ u.frameOf r ∨ u.frameOf r + 4096 ≤ fk)
    (hreads : u.reads = []) (hheld : u.held = []) (hs : u.serving = false) (hredo : q.redo = .bundle)
    (hrule : q.rule = none) (hshown : q.shown = none) (hlate : q.late = 0) (n : Nat) :
    (u.trapForward r q e 0 0 n).phase = .saving (.park q.cause q.sub) ∧
    (u.trapForward r q e 0 0 n).freezes = u.freezes.filter Freeze.stays ∧
    Framed u (u.trapForward r q e 0 0 n) q (u.frameOf r) 3 0 n ∧
    (u.trapForward r q e 0 0 n).rd fk 4 = [q.cause, q.sub, 3, r.ctx.setWidth 8] ∧
    (u.trapForward r q e 0 0 n).parts = u.parts ∧
    ∃ x ∈ (u.trapForward r q e 0 0 n).recs, x.ctx = sv ∧ x.addr = BitVec.ofNat 64 e.handler ∧ (x.state = 1 ∨ x.state = 2) := by
  obtain ⟨b, heq⟩ := trapForward_ok (q := q) h hreads hheld hs hredo n
  have hrecord := rd_forwarded h hm (bs := u.recordOf q .forward 0 r) (length_recordOf (by decide) 0)
  have hmem := memOk_forwarded hm sv e.handler hk fk (u.recordOf q .forward 0 r)
  obtain ⟨hsame, hpt, hwall, hframe, hparts, hagents, hrecs⟩ := forwarded_keeps u r sv e.handler hk fk (u.recordOf q .forward 0 r)
  generalize u.forwarded sv e.handler hk fk (u.recordOf q .forward 0 r) = x at *
  have hlx : ∀ a : AgentId, (x.agent a).latches = [] := fun a => by rw [hagents]; exact hl a
  obtain ⟨m, hw⟩ := writeFrame_memOnly x r q 0 3 n
  obtain ⟨hphase, hfreeze, hleft, hpartsLeft, hrecsLeft⟩ := leaves_spec (x.writeFrame r q 0 3 n) b q
  have hrd : ∀ k len, ((x.writeFrame r q 0 3 n).leaves b q).rd k len = (x.writeFrame r q 0 3 n).rd k len :=
    fun k len => congrArg (fun m : Memory => m.readN k len) hleft
  have hheader := rd_writeFrame_header (r := r) (q := q) hlx hmem 0 3 n
  have hkept := rd_writeFrame_apart (r := r) (q := q) (k := fk) (n := 64) hlx ht (by rwa [hframe]) 0 3 n
  rw [← hrd, hframe] at hheader
  rw [← hrd, hrecord] at hkept
  rw [heq]
  refine ⟨hphase, ?_, ?_, ?_, ?_, ?_⟩
  · rw [hfreeze, freezes_frame, hsame]
  · have hfields := header_fields hrule hshown hlate hheader
    rwa [hpt, hwall] at hfields
  · have hhead := slice_rd ((x.writeFrame r q 0 3 n).leaves b q) fk (i := 0) (n := 4) (len := 64) (by decide)
    rw [hkept] at hhead
    exact hhead.symm
  · rw [hpartsLeft, TrapRoom.frame_parts, hparts]
  · refine ⟨(u.wr fk (u.recordOf q .forward 0 r)).pushed sv (BitVec.ofNat 64 e.handler) hk u.die, ?_, rfl, rfl, .inl rfl⟩
    rw [hrecsLeft, hw]
    dsimp only
    rw [hrecs]
    exact List.mem_append_right _ (List.mem_singleton.2 rfl)

/-! ## The trap of a run -/

section Caught

variable (s) (r) (q)

theorem caught_parts : (s.caught r q).parts = s.parts := rfl

theorem caught_ctxs : (s.caught r q).ctxs = s.ctxs := rfl

theorem caught_rdNat : (s.caught r q).rdNat = s.rdNat := rfl

theorem counted_part : (r.counted q).part = r.part := rfl

theorem caught_ctl : (s.caught r q).parts[(r.counted q).part.toNat].ctl = s.parts[r.part.toNat].ctl := rfl

theorem caught_frameOf : (s.caught r q).frameOf (r.counted q) = s.frameOf r := by
  rw [State.frameOf, State.frameOf, State.areaOf, State.areaOf, caught_ctxs]
  rfl

theorem caught_nextSlot (p : BitVec 4) : (s.caught r q).nextSlot p = s.nextSlot p := by
  rw [State.nextSlot, State.nextSlot, caught_parts, caught_rdNat]

theorem caught_queueFree (p : BitVec 4) : (s.caught r q).queueFree p = s.queueFree p := by
  rw [State.queueFree, State.queueFree, caught_parts, caught_rdNat]

variable {s} {r}

theorem caught_run (hr : s.bank.run = some r) : (s.caught r q).bank.run =
    some { r with replays := r.replaysAt q.pc, replayPc := q.pc } := by
  change s.bank.run.map _ = _
  rw [hr]
  rfl

theorem caught_serving (hr : s.bank.run = some r) (hs : s.serving = false) : (s.caught r q).serving = false := by
  rw [State.serving, hr] at hs
  rw [State.serving, caught_run q hr]
  exact hs

end Caught

theorem stays_filter (l : List Freeze) :
    l.filter Freeze.stays = l.filter fun z => decide (z.why = .thermal ∨ z.why = .share) :=
  List.filter_congr fun z _ => by simp [Freeze.stays, Bool.decide_or, beq_eq_decide]

/-- The run that was caught stands in the same room. -/
theorem caught_room (hm : MemOk s) (hl : ∀ a : AgentId, (s.agent a).latches = []) (ht : q.tail.length ≤ 64)
    (hfs : s.frameOf r + 4096 ≤ s.nextSlot r.part ∨ s.nextSlot r.part + 64 ≤ s.frameOf r)
    (hfc : s.frameOf r + 4096 ≤ s.parts[r.part.toNat].ctl ∨ s.parts[r.part.toNat].ctl + 64 ≤ s.frameOf r)
    (hsc : s.nextSlot r.part + 64 ≤ s.parts[r.part.toNat].ctl ∨ s.parts[r.part.toNat].ctl + 64 ≤ s.nextSlot r.part) :
    TrapRoom (s.caught r q) (r.counted q) q where
  mem := hm
  clean := hl
  tail := ht
  frameSlot := by rwa [caught_frameOf, counted_part, caught_nextSlot]
  frameCtl := by rwa [caught_frameOf, caught_ctl]
  slotCtl := by rwa [caught_ctl, counted_part, caught_nextSlot]

theorem framed_caught {t : State} {f action flags count : Nat} (h : Framed (s.caught r q) t q f action flags count) :
    Framed s t q f action flags count := h

theorem recorded_caught {t : State} {action : Nat} (h : Recorded (s.caught r q) t (r.counted q) q action) :
    Recorded s t r q action := by
  unfold Recorded at h ⊢
  rwa [caught_ctl, caught_frameOf, counted_part, caught_nextSlot, caught_rdNat] at h

theorem keptBack_caught {t : State} {action : Nat} (h : KeptBack (s.caught r q) t (r.counted q) q action) :
    KeptBack s t r q action := by
  unfold KeptBack at h ⊢
  rwa [caught_ctl, caught_rdNat] at h

/-- A record whose last cause is noted counts as before. -/
theorem caught_storeCount (die : Nat) : (s.caught r q).storeCount die = s.storeCount die := by
  have hrecs : (s.caught r q).recs = s.recs.map fun x =>
      if x.ctx == r.ctx && x.addr == r.recAddr then { x with last := (q.cause, q.sub) } else x := rfl
  rw [State.storeCount, State.storeCount, hrecs, List.filter_map, List.length_map]
  refine congrArg List.length (List.filter_congr fun x _ => ?_)
  dsimp only [Function.comp_apply]
  split
  · rfl
  · rfl

theorem caught_handled {p : BitVec 4} {sv : BitVec 6} {handler hk fk : Nat} (h : Handled s p sv handler hk fk) :
    Handled (s.caught r q) p sv handler hk fk := by
  have hrd : (s.caught r q).rd = s.rd := rfl
  have hlocate : ∀ k va, (s.caught r q).locate sv none k va 64 = s.locate sv none k va 64 := fun _ _ => rfl
  have hserved : (s.caught r q).served = s.served := rfl
  have hsuper : (s.caught r q).supervisorOf = s.supervisorOf := rfl
  have hfind : (s.caught r q).tlbFind = s.tlbFind := rfl
  exact {
    supervisor := by rw [hsuper]; exact h.supervisor
    handler_ne := h.handler_ne
    aligned := h.aligned
    recordRead := by rw [hlocate]; exact h.recordRead
    recordWrite := by rw [hlocate]; exact h.recordWrite
    servedRead := by rw [hserved]; exact h.servedRead
    servedWrite := by rw [hserved]; exact h.servedWrite
    clean := h.clean
    status := by rw [hrd, caught_storeCount]; exact h.status
    frameWrite := by rw [hlocate, caught_rdNat]; exact h.frameWrite
    frameServed := by rw [hserved]; exact h.frameServed
    frameHand := by rw [hfind, caught_rdNat]; exact h.frameHand
    apart := h.apart }

/-- Settles O47: the action's entry picks what is done with the run that was caught; frame, record and saved run are then those of
`trapPark_spec`, `trapReplay_written_spec`, `trapReplay_withheld_spec`, `trapForward_ok` and `trapKill_killed`. -/
theorem trapActions : Obligations.TrapActions := by
  unfold Obligations.TrapActions
  intro s r q sv hk fk hr hs heng hdef hrule hshown hredo hlate ho t ent act limit malformed readable p n f prod slot apart clear
    framed recorded withheld saves stays events handler frame handled
  have htrap : t = (s.caught r q).acts (r.counted q) q (s.actionOf r.ctx q.cause) (r.replaysAt q.pc) := takeTrap_eq hr ho hlate
  have hserv : (s.caught r q).serving = false := caught_serving q hr hs
  have hgood : readable → ¬malformed → GoodEntry s ent := by
    intro hread hmal
    have hact : act ≤ 3 := Nat.le_of_not_lt fun h => hmal (.inl h)
    have hzero : s.rdNat (ent + 1) 1 = 0 := not_not.1 fun h => hmal (.inr (.inl h))
    have hres : s.rdNat (ent + 4) 4 = 0 := not_not.1 fun h => hmal (.inr (.inr h))
    exact ⟨hread.1, hread.2, hact, hzero, hres⟩
  have hroom : clear → MemOk s → TrapRoom (s.caught r q) (r.counted q) q := by
    intro hc hm
    obtain ⟨hfs, hfc, hsc, htail, hl⟩ := hc
    exact caught_room hm hl htail hfs hfc hsc
  have hfree : (s.caught r q).queueFree (r.counted q).part = s.queueFree r.part := caught_queueFree s r q r.part
  refine ⟨?kill, ?park, ?forward, ?replayHeld, ?replay, ?limit⟩
  case kill =>
    intro _ hkill
    have hact := actionOf_kill (s := s) (cx := r.ctx) (cause := q.cause)
      (hkill.imp_left fun h => h)
    obtain ⟨base, bad, heq⟩ := acts_kill (u := s.caught r q) (r := r.counted q) (q := q) (n := r.replaysAt q.pc) hact
    obtain ⟨hphase, heng', hagents, hfreeze, hev, herr⟩ := trapKill_killed (r := r.counted q) (q := q) hserv base bad (r.replaysAt q.pc)
    rw [htrap, heq]
    exact ⟨hphase, heng', hagents, hfreeze.trans (stays_filter _), hev, herr⟩
  case park =>
    intro hread hmal hact hc hclear hm
    have hent := actionOf_good (hgood hread hmal) hc
    have h2 : s.rdNat (s.entryOf r.ctx q.cause) 1 = 2 := hact
    rw [h2] at hent
    have ht : t = (s.caught r q).trapPark (r.counted q) q 0 0 (r.replaysAt q.pc) := by
      rw [htrap, hent]
      exact acts_park heng hdef
    have hspec := trapPark_spec (hroom hclear hm) hserv hredo hrule hshown hlate 0 0 (r.replaysAt q.pc)
    rw [← ht] at hspec
    obtain ⟨hphase, hfreeze, hframed, hrec, hkept⟩ := hspec
    rw [caught_frameOf] at hframed
    refine ⟨hphase, hfreeze.trans (stays_filter _), framed_caught hframed, ?_⟩
    split
    next hq => exact recorded_caught (hrec (hq.trans_eq hfree.symm))
    next hq => exact keptBack_caught (hkept (hfree.trans_le (Nat.le_of_not_lt hq)))
  case forward =>
    intro hread hmal hact hc hclear hm hhandled
    have hent := actionOf_good (hgood hread hmal) hc
    have h3 : s.rdNat (s.entryOf r.ctx q.cause) 1 = 3 := hact
    rw [h3] at hent
    have ht : t = (s.caught r q).trapForward (r.counted q) q ⟨.forward, s.rdNat (s.entryOf r.ctx q.cause + 2) 2, handler, false⟩
        0 0 (r.replaysAt q.pc) := by
      rw [htrap, hent]
      exact acts_forward heng hdef
    obtain ⟨hsuper, hne, hal, hread64, hwrite64, hsread, hswrite, hclean, hstatus, hfwrite, hfserved, hfhand, hhand, happ, hfap, -, -⟩ :=
      hhandled
    have hnear : Handled s r.part sv handler hk fk :=
      ⟨hsuper, hne, hal, locate_at hread64 hhand, locate_at hwrite64 hhand, hsread, hswrite, hclean, hstatus,
        locate_at hfwrite hfhand, hfserved, hfhand, happ⟩
    obtain ⟨-, -, -, htail, hl⟩ := hclear
    obtain ⟨-, hreads, hheld, -, -⟩ := ho
    have hspec := trapForward_spec (r := r.counted q) (e := ⟨.forward, s.rdNat (s.entryOf r.ctx q.cause + 2) 2, handler, false⟩)
      (caught_handled (r := r) (q := q) hnear) hl htail hm (by rwa [caught_frameOf]) hreads hheld hserv hredo hrule hshown hlate
      (r.replaysAt q.pc)
    rw [← ht, caught_frameOf] at hspec
    obtain ⟨hphase, hfreeze, hframed, hrecord, hparts, hpushed⟩ := hspec
    have hheld' : t.parts[r.part.toNat].withheld = p.withheld := congrArg (fun v : Vector Part 16 => v[r.part.toNat].withheld) hparts
    exact ⟨hphase, hfreeze.trans (stays_filter _), framed_caught hframed, hrecord, hheld', hpushed⟩
  case replayHeld =>
    intro hread hmal hact hwithin hc hclear hq hm
    have hent := actionOf_good (hgood hread hmal) hc
    have h1 : s.rdNat (s.entryOf r.ctx q.cause) 1 = 1 := hact
    rw [h1] at hent
    have ht : t = (s.caught r q).trapReplay (r.counted q) q 0 0 (r.replaysAt q.pc) := by
      rw [htrap, hent]
      exact acts_replay heng hdef hwithin
    have hspec := trapReplay_withheld_spec (hroom hclear hm) hserv hredo hrule hshown hlate (hfree.trans_le hq) 0 0 (r.replaysAt q.pc)
    rw [← ht, caught_frameOf] at hspec
    obtain ⟨hphase, hframed, hkept⟩ := hspec
    exact ⟨hphase, framed_caught hframed, keptBack_caught hkept⟩
  case replay =>
    intro hread hmal hact hwithin hc hclear hq hm
    have hent := actionOf_good (hgood hread hmal) hc
    have h1 : s.rdNat (s.entryOf r.ctx q.cause) 1 = 1 := hact
    rw [h1] at hent
    have ht : t = (s.caught r q).trapReplay (r.counted q) q 0 0 (r.replaysAt q.pc) := by
      rw [htrap, hent]
      exact acts_replay heng hdef hwithin
    have hspec := trapReplay_written_spec (hroom hclear hm) hredo hrule hshown hlate (hq.trans_eq hfree.symm) hdef 0 0 (r.replaysAt q.pc)
    rw [← ht, caught_run q hr, caught_frameOf] at hspec
    obtain ⟨hphase, hfreeze, hagents, hrun, hframed, hrec⟩ := hspec
    exact ⟨hphase, hfreeze, hagents, hrun, framed_caught hframed, recorded_caught hrec⟩
  case limit =>
    intro hread hmal hact h0 hpast hc hclear hq hm
    have hent := actionOf_good (hgood hread hmal) hc
    have h1 : s.rdNat (s.entryOf r.ctx q.cause) 1 = 1 := hact
    rw [h1] at hent
    have ht : t = (s.caught r q).trapPark (r.counted q) q 32 8 (r.replaysAt q.pc) := by
      rw [htrap, hent]
      exact acts_limit heng hdef h0 hpast
    have hspec := trapPark_spec (hroom hclear hm) hserv hredo hrule hshown hlate 32 8 (r.replaysAt q.pc)
    rw [← ht, caught_frameOf] at hspec
    obtain ⟨hphase, -, hframed, hrec, -⟩ := hspec
    exact ⟨hphase, framed_caught hframed, recorded_caught (hrec (hq.trans_eq hfree.symm))⟩

end Sys2Proof.Machine
end
